-- ==== Sys2Proof/Word.lean ====
section
/-!
DEFINITION. The widths of the Ixrel package and the names of its registers (spec/02_state.md).
-/

namespace Sys2Proof

/-- A scalar register, an address, a stored doubleword (R36). -/
abbrev Word := BitVec 64

/-- One byte of memory (R174). -/
abbrev Byte := BitVec 8

/-- A scalar register number, s0 to s31 (R36). -/
abbrev SReg := BitVec 5

/-- A vector register number, v0 to v63 (R37). -/
abbrev VReg := BitVec 6

/-- A mask register number, k0 to k7 (R47). -/
abbrev KReg := BitVec 3

/-- A tile number, m0 to m7 (R49). -/
abbrev TReg := BitVec 3

/-- The bits of one vector register at four quarters: 256 lanes of 64 bytes (R37). -/
abbrev VBits := BitVec 131072

/-- The bits of one mask register (R47). -/
abbrev KBits := BitVec 262144

/-- The bits of one tile: 128 rows of 128 elements of 4 bytes (R49). -/
abbrev TBits := BitVec 524288

end Sys2Proof
end

