-- ==== Sys2Proof/Config.lean ====
section
/-!
DEFINITION. What the spec fixes for the package as a whole, and the free values: what the spec leaves open,
as constants without a body. No statement can rest on a value of one of them.
-/

namespace Sys2Proof.Config

/-- Beats a load adds to `stl.mem` (R56): time, which the spec does not fix.
[DESIGN CHOICE, log 7] safe: any value. -/
opaque stallBeats : Nat → Word

/-- Which of the duplicates of `vstx.n` stays in a byte several elements write: true keeps the later element
over the earlier one (R219). [DESIGN CHOICE, log 10] safe: any choice. -/
opaque scatterLater : Nat → Bool

/-- Whether a fetch of a line that has changed since the strand's last fence still returns the content of then (R152).
[DESIGN CHOICE, log 32] safe: either content. -/
opaque staleFetch : Nat → Bool

/-- The element boundary at which a pre-emption stops a convoy that may be stopped (R26): counter; 0 before it has
started. [DESIGN CHOICE, log 66] safe: any boundary. -/
opaque stopBoundary : Nat → Nat

/-- Which elements of a vector atomic above a faulting line have been performed when it traps (R271): counter, element.
[DESIGN CHOICE, log 11] safe: any subset. -/
opaque amoPerformed : Nat → Nat → Bool

/-- What a strand receives in an exchange with a peer whose elements have another width (R231 states equal positions,
not widths): counter, element. [DESIGN CHOICE, log 17] safe: any value. -/
opaque mixedExchange : Nat → Nat → Word

/-- What a host read through the memory window returns for a byte its line cannot serve (R119, R122, R392), by home byte.
[DESIGN CHOICE, log 22] safe: any value. -/
opaque hostUnserved : Nat → Byte

/-- Which line a full line-buffer part drops (R108). [DESIGN CHOICE, log 12] safe: any line. -/
opaque victim : Nat → Nat

/-- The stack that holds a line of this package's HBM4E (R415, R416 name no map). [DESIGN CHOICE, log 13] safe. -/
opaque stackOfLine : Nat → Fin 12

/-- The ECC code of a line (R118), which the spec does not give. [DESIGN CHOICE, log 9] safe. -/
opaque lineEcc : BitVec 1024 → BitVec 64 → BitVec 64

/-- The message, the signature and the public key of a firmware stage (R407), whose layout the spec does not give.
[DESIGN CHOICE, log 14] safe: any layout. -/
opaque stageParts : List (BitVec 8) → List (BitVec 8) × List (BitVec 8) × List (BitVec 8)

/-- The digest fused into the I/O dies (R407). [DESIGN CHOICE, log 14] safe: any digest. -/
opaque fusedDigest : BitVec 256

/-- The secret seed, the PRF seed and the public seed of the identity key (R411), the first lowest: the fused secret and the way
from it are not given. [DESIGN CHOICE, log 14] safe: any key. -/
opaque identityKey : BitVec 768

/-- The random value of the signature of a beat (FIPS 205), which the spec does not give. [DESIGN CHOICE, log 14] safe: any value. -/
opaque signRandom : Nat → BitVec 256

/-- The virtual base of the slab window (R56, R97): the address of spec/15_prog_combining.md.
[DESIGN CHOICE, log 4] unsafe: another process may have another base. -/
def slabBase : Word := 0x0006000000000000#64

/-- Ticks that a request to a host page spends in the package before it is on the host link (R391), whose time the spec does not
give. [DESIGN CHOICE, log 7] safe: a statement holds whatever the time. -/
def hostTicks : Nat := 8

/-- Clusters of a package and cores of a cluster (R2). -/
def clusters : Nat := 24

/-- Cores of one cluster (R2). -/
def coresPerCluster : Nat := 24

/-- VIQ entries of a strand (R17). -/
def viqEntries : Nat := 64

/-- Result-queue entries of a strand (R20). -/
def resultEntries : Nat := 16

/-- Unfinished copies of a strand (R110). -/
def maxCopies : Nat := 32

/-- Binding-table entries of a task (R258). -/
def maxBindings : Nat := 64

/-- Hardware barriers of a cluster (10_sync). -/
def barriersPerCluster : Nat := 16

/-- Wait-buffer entries of a keystone (R273). -/
def waitBuffer : Nat := 32

/-- Queues of the scheduler (R8). -/
def queueCount : Nat := 4096

/-- Pending cards of one queue (R364). -/
def maxPending : Nat := 256

/-- Unfinished cards of the scheduler (R364). -/
def maxUnfinished : Nat := 16384

/-- Network queue pairs (20_fabric). -/
def queuePairs : Nat := 16384

/-- Beats after which an exchange offer is withdrawn (R231). -/
def exchangeBeats : Nat := 2048

/-- The most lines `fwd.relink` follows (R134). -/
def relinkHops : Nat := 64

/-- Lines the search for the next head passes over (R149): every line of the address space. -/
def emptyLines : Nat := 2 ^ 58

end Sys2Proof.Config
end

