-- ==== Sys2Proof/Syntax.lean ====
section
/-!
DEFINITION. The instructions and the events of spec/opcode_table.json: one constructor of `Instr` for each row.
A vector-queue head carries `c`, its C bit (R141, R156); a SOLO head's C bit is always 1 and is no operand.
-/

namespace Sys2Proof

/-- The format tags and their codes 0 to 21 (R63). -/
inductive Tag where
  | raw | i8 | n8 | i16 | n16 | i32 | n32 | i64 | n64 | f16 | bf16 | f32 | f64
  | e4m3 | e5m2 | e3m2 | e2m3 | e2m1 | i4 | n4 | e8m0 | trio
  deriving DecidableEq, Repr

/-- The rounding modes and their codes 0 to 3 (R75). -/
inductive Rm where
  | rne | rtz | rdn | rup
  deriving DecidableEq, Repr

/-- The trap causes (R338). -/
inductive Cause where
  | none | illLine | illMajor | illMinor | illRsv | illConvoy | illChain
  | group | quarter | tag | vtype
  | addr | align | page | table | perm | flashDirect | hostAmo | slabAbsent | ltRange
  | fwdAsid | fwdChain | fwdTarget | check
  | compFormat | compOverrun | mergeRange | tileRange
  | syncAttr | bindFull | bindRange | barFull | barState | winState | winRange
  | brk | trap
  deriving DecidableEq, Repr

/-- A mask operand: the mask register and its sense (R47). -/
structure MaskOp where
  k     : KReg
  sense : Bool
  deriving DecidableEq, Repr

/-- The ordering suffix of an atomic (R176, R269). -/
inductive Ord where
  | rlx | acq | rel
  deriving DecidableEq, Repr

/-- The scope of a binding (R259) or fence (R262). -/
inductive Scope where
  | g | d | s
  deriving DecidableEq, Repr

/-- The preference of `tier.hint` (R283). -/
inductive Tier where
  | up | second | none
  deriving DecidableEq, Repr

/-- The scale operand of `mcvt` (R253): none, a tile scale in a scalar register, a row scale in a vector group. -/
inductive Scale where
  | none
  | tile (sb : SReg)
  | row  (vb : VReg)
  deriving DecidableEq, Repr

/-- `root.ty.sat.rm vD, vA, vB, mask`: two vector sources (R198, R203, R204). -/
structure Vv where
  c   : Bool
  vd  : VReg
  va  : VReg
  vb  : VReg
  ty  : Tag
  sat : Bool
  rm  : Option Rm
  m   : MaskOp
  deriving DecidableEq, Repr

/-- `root.x.ty.sat.rm vD, vA, sB, mask`: a scalar second operand (R203, R204). -/
structure Vx where
  c   : Bool
  vd  : VReg
  va  : VReg
  sb  : SReg
  ty  : Tag
  sat : Bool
  rm  : Option Rm
  m   : MaskOp
  deriving DecidableEq, Repr

/-- `root.ty.sat.rm vD, vA, mask`: one vector source (R204, R214, R215, R216, R229). -/
structure V1 where
  c   : Bool
  vd  : VReg
  va  : VReg
  ty  : Tag
  sat : Bool
  rm  : Option Rm
  m   : MaskOp
  deriving DecidableEq, Repr

/-- `root kD, vA, vB, mask`: a compare into a mask register (R207). -/
structure Vk where
  c  : Bool
  kd : KReg
  va : VReg
  vb : VReg
  ty : Tag
  m  : MaskOp
  deriving DecidableEq, Repr

/-- `root vD, vA, vB, mask` with the modifier 0 (R208, R226). -/
structure Vp where
  c  : Bool
  vd : VReg
  va : VReg
  vb : VReg
  m  : MaskOp
  deriving DecidableEq, Repr

/-- `root vD, vA, mask` with the modifier 0 (R222, R226, R228). -/
structure Vu where
  c  : Bool
  vd : VReg
  va : VReg
  m  : MaskOp
  deriving DecidableEq, Repr

/-- `root vD, vA, sB, mask` with the modifier 0 (R227). -/
structure Vs where
  c  : Bool
  vd : VReg
  va : VReg
  sb : SReg
  m  : MaskOp
  deriving DecidableEq, Repr

/-- A reduction `root.ty.sat.rm.seed sD, sA, vB, mask` (R213). -/
structure Red where
  c    : Bool
  sd   : SReg
  sa   : SReg
  vb   : VReg
  ty   : Tag
  sat  : Bool
  rm   : Option Rm
  seed : Bool
  m    : MaskOp
  deriving DecidableEq, Repr

/-- `vld.ty vD, (sA), mask`, `vldc.ty` (R217); a store has the tag `raw`. -/
structure Vmem where
  c  : Bool
  vd : VReg
  sa : SReg
  ty : Tag
  m  : MaskOp
  deriving DecidableEq, Repr

/-- `vlds.ty vD, (sA, sB), mask` (R217); a store has the tag `raw`. -/
structure Vstr where
  c  : Bool
  vd : VReg
  sa : SReg
  sb : SReg
  ty : Tag
  m  : MaskOp
  deriving DecidableEq, Repr

/-- `vldx.ty vD, (sA, vB << sh), mask` (R217); a store has the tag `raw`. -/
structure Vidx where
  c  : Bool
  vd : VReg
  sa : SReg
  vb : VReg
  ty : Tag
  sh : BitVec 2
  m  : MaskOp
  deriving DecidableEq, Repr

/-- `vstc.q sD, vD, (sA), sB, mask` (R224). -/
structure Vstc where
  c  : Bool
  sd : SReg
  vd : VReg
  sa : SReg
  sb : SReg
  q  : Bool
  m  : MaskOp
  deriving DecidableEq, Repr

/-- `vmerge.u.op.dz.rm sD, vD, vA, sA, vB, sB` (R230). -/
structure Merge where
  c  : Bool
  sd : SReg
  vd : VReg
  va : VReg
  sa : SReg
  vb : VReg
  sb : SReg
  dz : Bool
  rm : Option Rm
  deriving DecidableEq, Repr

/-- `vxch sD, vD, vA, sA, sB, mask` (R231). -/
structure Xch where
  c  : Bool
  sd : SReg
  vd : VReg
  va : VReg
  sa : SReg
  sb : SReg
  m  : MaskOp
  deriving DecidableEq, Repr

/-- `vlt.ld.ty vD, vB, mask`, `vlt.st vD, vB, mask` (R232). -/
structure Vlt where
  c  : Bool
  vd : VReg
  vb : VReg
  ty : Tag
  m  : MaskOp
  deriving DecidableEq, Repr

/-- `vopa.ty.repN mT, vA, vB, mask`, with REP = N - 1 (R237). -/
structure Opa where
  c   : Bool
  t   : TReg
  va  : VReg
  vb  : VReg
  ty  : Tag
  rep : BitVec 3
  m   : MaskOp
  deriving DecidableEq, Repr

/-- `vopa.s.ty.repN mT, vA, vB, vSA, vSB, mask` (R241). -/
structure OpaS where
  c   : Bool
  t   : TReg
  va  : VReg
  vb  : VReg
  vsa : VReg
  vsb : VReg
  ty  : Tag
  rep : BitVec 3
  m   : MaskOp
  deriving DecidableEq, Repr

/-- `mrd vD, mT, sB, mask` and `mwr mT, vA, sB, mask` (R248, R249): `v` is vD or vA. -/
structure Mrow where
  c  : Bool
  v  : VReg
  t  : TReg
  sb : SReg
  m  : MaskOp
  deriving DecidableEq, Repr

/-- `mld.ty mT, (sA, sB), sC, sE` and `mst` (R250); `mst` has the tag `raw`. -/
structure Mmem where
  c  : Bool
  t  : TReg
  sa : SReg
  sb : SReg
  sc : SReg
  se : SReg
  ty : Tag
  deriving DecidableEq, Repr

/-- `mcvt.to.from.sat.rm mD, mS, scale` (R253). -/
structure Mcvt where
  c     : Bool
  md    : TReg
  ms    : TReg
  scale : Scale
  sat   : Bool
  rm    : Option Rm
  deriving DecidableEq, Repr

/-- `vamo.op.ord.ret.reassoc vD, (sA, vB << sh), vA, mask` (R269). -/
structure Vamo where
  c   : Bool
  vd  : VReg
  sa  : SReg
  va  : VReg
  vb  : VReg
  sh  : BitVec 2
  ord : Ord
  ret : Bool
  ra  : Bool
  m   : MaskOp
  deriving DecidableEq, Repr

/-- `vwait sD, kD, vA, vB, sB, mask` (R268). -/
structure Vwait where
  sd : SReg
  kd : KReg
  va : VReg
  vb : VReg
  sb : SReg
  m  : MaskOp
  deriving DecidableEq, Repr

/-- `vwacc.add (vB << sh), vA, mask` (R276). -/
structure Vwacc where
  c  : Bool
  vb : VReg
  va : VReg
  sh : BitVec 2
  rm : Option Rm
  m  : MaskOp
  deriving DecidableEq, Repr

/-- `cpy sD, (sA), (sB), sC` and the other one-row copies (R278). -/
structure Cpy where
  sd : SReg
  sa : SReg
  sb : SReg
  sc : SReg
  deriving DecidableEq, Repr

/-- `cpy.2d sD, (sA), (sB), sC, sE, sF, sG` (R278). -/
structure Cpy2d where
  sd : SReg
  sa : SReg
  sb : SReg
  sc : SReg
  se : SReg
  sf : SReg
  sg : SReg
  deriving DecidableEq, Repr

/-- What a soft error strikes (R361). -/
inductive Struck where
  /-- registers, tiles, lane stores or VIQ of a resident strand -/
  | strand (sid : Nat)
  /-- the vault part of a quarter -/
  | vault (slot : Nat)
  /-- a slab slot, barrier or binding table of a gang -/
  | gang (handle : Nat)
  /-- a line, by home line number: later accesses meet it -/
  | line (l : Nat)
  /-- an entry of a keystone's wait buffer, 0 the last entered -/
  | keystone (ks n : Nat)
  deriving DecidableEq, Repr

/-- The registers whose write has no behaviour of its own (R5, R336, R363, R405, R350, R376, R392, R393, R394, R398, R414):
`pageOffset` is a write to a submission page by its offset (R363); `hdm` a field of an HDM decoder (0 base, 1 size, 2 physical
address); `portMode` a second-tier port's mode; `storageWrite` an NVMe Write of the drive behind a port to a block; `route` the way to a
package; `leader` the die that leads a throttle group and `announcement` what a leader on another package announces; `fixed` an entry of
the placement map; `spillArea` the supervisor's spill area (R383). -/
inductive RegName where
  | scrHead (asid : BitVec 16)
  | frTail (asid : BitVec 16)
  | scrTail (asid : BitVec 16)
  | drops (asid : BitVec 16)
  | fanswer (asid : BitVec 16)
  | vfReset (vf : BitVec 2)
  | bootStatus
  | owner (n : Nat)
  | root (asid : BitVec 16)
  | queueWeight (n : Nat)
  | queueOwner (n : Nat)
  | watchdog
  | packageNumber
  | throttleGroup (die : Nat)
  | submissionPage (asid : BitVec 16)
  | pageOffset (asid : BitVec 16) (off : Nat)
  | hdm (n : Nat) (field : Fin 3)
  | portMode (port : Nat)
  | storageWrite (port block : Nat)
  | route (package : BitVec 6)
  | leader (group : Nat)
  | announcement (group : Nat) (allow : BitVec 8)
  | fixed (asid : BitVec 16)
  | spillArea
  deriving DecidableEq, Repr

/-- What a remote side answers to a send-queue entry (R402): its bytes on success, or the reason it failed. -/
inductive Remote where
  | ok (data : List Byte)
  | nak
  | retryExceeded
  deriving DecidableEq, Repr

/-- The firmware stages a start finds in the host link's expansion window and in the serial flash (R407), and whether the
minimal-mode supervisor asks for the reset (R408). -/
structure Firmware where
  window : List (List Byte)
  serial : List (List Byte)
  bySupervisor : Bool
  deriving DecidableEq, Repr

/-- The service of the supervisor that moves an object (R121): the tier manager, or another, and its number. -/
structure Mover where
  other : Bool
  id    : BitVec 28
  deriving DecidableEq, Repr

/-- Why a start failed (R408, R409). -/
inductive StartCause where
  | signature | training | selfTest | watchdog | overflow
  deriving DecidableEq, Repr

/-- A scalar atomic operation (R176). -/
inductive AmoOp where
  | add | and | or | xor | min | max | swp | cas | minN | maxN
  deriving DecidableEq, Repr

/-- One constructor for each row of spec/opcode_table.json. -/
inductive Instr where
  -- control (R185, R186, R196)
  | nop | finish | ret
  | br (off : BitVec 17) (slot : BitVec 5)
  | call (off : BitVec 17) (slot : BitVec 5)
  | jr (sd sa : SReg) (imm : BitVec 17)
  | beq (sa sb : SReg) (off : BitVec 17) (slot : BitVec 5)
  | bne (sa sb : SReg) (off : BitVec 17) (slot : BitVec 5)
  | blt (sa sb : SReg) (off : BitVec 17) (slot : BitVec 5)
  | bge (sa sb : SReg) (off : BitVec 17) (slot : BitVec 5)
  | bltn (sa sb : SReg) (off : BitVec 17) (slot : BitVec 5)
  | bgen (sa sb : SReg) (off : BitVec 17) (slot : BitVec 5)
  | bz (sa : SReg) (off : BitVec 17) (slot : BitVec 5)
  | bnz (sa : SReg) (off : BitVec 17) (slot : BitVec 5)
  -- system registers and configuration (R187 to R189)
  | sget (sd : SReg) (num : BitVec 12)
  | sput (num : BitVec 12) (sa : SReg)
  | vsetvl (sd sa : SReg)
  | vsettype (sd sa : SReg)
  | vsettypeImm (sd : SReg) (imm : BitVec 12)
  -- services (R190 to R195)
  | qdrain (sd sa : SReg)
  | brk (imm : BitVec 11)
  | trap (sa : SReg) (imm : BitVec 11)
  | sysCall (sd sa : SReg)
  | progMark (sa : SReg) (imm : BitVec 11)
  | taskPost (sd sa sb : SReg)
  -- integer (R167 to R173)
  | add (sd sa sb : SReg) | sub (sd sa sb : SReg) | mul (sd sa sb : SReg)
  | mulh (sd sa sb : SReg) | mulhN (sd sa sb : SReg)
  | div (sd sa sb : SReg) | divN (sd sa sb : SReg) | rem (sd sa sb : SReg) | remN (sd sa sb : SReg)
  | addImm (sd sa : SReg) (imm : BitVec 17)
  | subImm (sd sa : SReg) (imm : BitVec 17)
  | mulImm (sd sa : SReg) (imm : BitVec 17)
  | and (sd sa sb : SReg) | or (sd sa sb : SReg) | xor (sd sa sb : SReg) | andn (sd sa sb : SReg)
  | shl (sd sa sb : SReg) | shr (sd sa sb : SReg) | sar (sd sa sb : SReg) | rot (sd sa sb : SReg)
  | andImm (sd sa : SReg) (imm : BitVec 17)
  | orImm (sd sa : SReg) (imm : BitVec 17)
  | xorImm (sd sa : SReg) (imm : BitVec 17)
  | andnImm (sd sa : SReg) (imm : BitVec 17)
  | shlImm (sd sa : SReg) (cnt : BitVec 6)
  | shrImm (sd sa : SReg) (cnt : BitVec 6)
  | sarImm (sd sa : SReg) (cnt : BitVec 6)
  | rotImm (sd sa : SReg) (cnt : BitVec 6)
  | min (sd sa sb : SReg) | max (sd sa sb : SReg) | minN (sd sa sb : SReg) | maxN (sd sa sb : SReg)
  | cmpEq (sd sa sb : SReg) | cmpNe (sd sa sb : SReg) | cmpLt (sd sa sb : SReg) | cmpGe (sd sa sb : SReg)
  | cmpLtN (sd sa sb : SReg) | cmpGeN (sd sa sb : SReg)
  | cmpEqImm (sd sa : SReg) (imm : BitVec 17)
  | cmpNeImm (sd sa : SReg) (imm : BitVec 17)
  | cmpLtImm (sd sa : SReg) (imm : BitVec 17)
  | cmpGeImm (sd sa : SReg) (imm : BitVec 17)
  | cmpLtNImm (sd sa : SReg) (imm : BitVec 17)
  | cmpGeNImm (sd sa : SReg) (imm : BitVec 17)
  | clz (sd sa : SReg) | ctz (sd sa : SReg) | pop (sd sa : SReg)
  | bext (sd sa : SReg) (pos wm1 : BitVec 6)
  | bins (sd sa : SReg) (pos wm1 : BitVec 6)
  | li (sd : SReg) (imm : BitVec 59)
  | lih (sd sa : SReg) (imm : BitVec 5)
  | lea (sd sa sb : SReg) (sh : BitVec 3) (d : BitVec 14)
  -- scalar memory (R174, R176)
  | ldB (sd sa : SReg) (imm : BitVec 17)
  | ldH (sd sa : SReg) (imm : BitVec 17)
  | ldW (sd sa : SReg) (imm : BitVec 17)
  | ldD (sd sa : SReg) (imm : BitVec 17)
  | ldBN (sd sa : SReg) (imm : BitVec 17)
  | ldHN (sd sa : SReg) (imm : BitVec 17)
  | ldWN (sd sa : SReg) (imm : BitVec 17)
  | stB (sb sa : SReg) (imm : BitVec 17)
  | stH (sb sa : SReg) (imm : BitVec 17)
  | stW (sb sa : SReg) (imm : BitVec 17)
  | stD (sb sa : SReg) (imm : BitVec 17)
  | amoAdd (sd sa sb : SReg) (ord : Ord) (d : Bool)
  | amoAnd (sd sa sb : SReg) (ord : Ord) (d : Bool)
  | amoOr (sd sa sb : SReg) (ord : Ord) (d : Bool)
  | amoXor (sd sa sb : SReg) (ord : Ord) (d : Bool)
  | amoMin (sd sa sb : SReg) (ord : Ord) (d : Bool)
  | amoMax (sd sa sb : SReg) (ord : Ord) (d : Bool)
  | amoSwp (sd sa sb : SReg) (ord : Ord) (d : Bool)
  | amoCas (sd sa sb : SReg) (ord : Ord) (d : Bool)
  | amoMinN (sd sa sb : SReg) (ord : Ord) (d : Bool)
  | amoMaxN (sd sa sb : SReg) (ord : Ord) (d : Bool)
  -- vector integer (R203)
  | vadd (a : Vv) | vsub (a : Vv) | vmul (a : Vv) | vmulh (a : Vv) | vmadd (a : Vv) | vmin (a : Vv) | vmax (a : Vv)
  | vand (a : Vv) | vor (a : Vv) | vxor (a : Vv) | vshl (a : Vv) | vshr (a : Vv) | vsar (a : Vv)
  | vaddX (a : Vx) | vsubX (a : Vx) | vmulX (a : Vx) | vmulhX (a : Vx) | vmaddX (a : Vx) | vminX (a : Vx)
  | vmaxX (a : Vx) | vandX (a : Vx) | vorX (a : Vx) | vxorX (a : Vx) | vshlX (a : Vx) | vshrX (a : Vx) | vsarX (a : Vx)
  -- vector float (R204 to R206)
  | vfadd (a : Vv) | vfsub (a : Vv) | vfmul (a : Vv) | vfdiv (a : Vv) | vfmin (a : Vv) | vfmax (a : Vv)
  | vfma (a : Vv) | vfsqrt (a : V1) | vfrcpE (a : V1)
  | vfaddX (a : Vx) | vfsubX (a : Vx) | vfmulX (a : Vx) | vfdivX (a : Vx) | vfminX (a : Vx) | vfmaxX (a : Vx)
  | vscale (a : Vv)
  -- compares, masks, moves (R207 to R212)
  | vcmpEq (a : Vk) | vcmpNe (a : Vk) | vcmpLt (a : Vk) | vcmpGe (a : Vk) | vcmpLtN (a : Vk) | vcmpGeN (a : Vk)
  | vcmpFeq (a : Vk) | vcmpFlt (a : Vk) | vcmpFle (a : Vk) | vcmpFun (a : Vk)
  | vsel (a : Vp)
  | kand (c : Bool) (kd ka kb : KReg) | kor (c : Bool) (kd ka kb : KReg) | knot (c : Bool) (kd ka : KReg)
  | kpop (c : Bool) (sd : SReg) (ka : KReg) (m : MaskOp)
  | kfirst (c : Bool) (sd : SReg) (ka : KReg) (m : MaskOp)
  | vmvSx (c : Bool) (vd : VReg) (sa sb : SReg) (ty : Tag)
  | vbcast (c : Bool) (vd : VReg) (sa : SReg) (ty : Tag) (m : MaskOp)
  | vmvXs (c : Bool) (sd : SReg) (va : VReg) (sb : SReg)
  -- reductions and conversions (R213 to R216)
  | vredAddO (a : Red) | vredAddT (a : Red) | vredMin (a : Red) | vredMax (a : Red)
  | vcvtH (a : V1) | vcvtD (a : V1) | vcvtF32E2m1 (a : V1)
  | vtag (c : Bool) (vd va : VReg) (ty : Tag)
  -- vector memory (R217 to R225)
  | vld (a : Vmem) | vlds (a : Vstr) | vldx (a : Vidx)
  | vst (a : Vmem) | vsts (a : Vstr) | vstxO (a : Vidx) | vstxN (a : Vidx)
  | vldc (a : Vmem) | vstc (a : Vstc)
  | vfwdRes (a : Vu)
  -- permutes and scans (R226 to R229)
  | vperm (a : Vp) | vzip (a : Vp) | vunzip (a : Vu)
  | vslideUp (a : Vs) | vslideDn (a : Vs)
  | vrepBlk (a : Vu) | vcompress (a : Vu) | vexpand (a : Vu)
  | vscanAdd (a : V1) | vscanAddx (a : V1)
  -- merge, exchange, lane tables (R230 to R232)
  | vmergeUAdd (a : Merge) | vmergeUSub (a : Merge) | vmergeUMax (a : Merge)
  | vxch (a : Xch)
  | vltLd (a : Vlt) | vltSt (a : Vlt) | vltFill (a : Vs)
  -- tiles (R237 to R254)
  | mzero (c : Bool) (t : TReg) (ty : Tag)
  | mtag (c : Bool) (t : TReg) (ty : Tag)
  | vopa (a : Opa) | vopaS (a : OpaS)
  | mrd (a : Mrow) | mwr (a : Mrow)
  | mld (a : Mmem) | mst (a : Mmem)
  | mcvtI32Trio (a : Mcvt) | mcvtF32I32 (a : Mcvt) | mcvtBf16F32 (a : Mcvt)
  -- synchronisation and vector atomics that queue (R260 to R270, R276)
  | acq (sd sa sb : SReg)
  | rel (sd sa : SReg)
  | fenceG | fenceD | fenceS
  | barWait (sa : SReg)
  | vwait (a : Vwait)
  | vamoAdd (a : Vamo) | vamoAnd (a : Vamo) | vamoOr (a : Vamo) | vamoXor (a : Vamo)
  | vamoMin (a : Vamo) | vamoMax (a : Vamo) | vamoSwp (a : Vamo) | vamoCas (a : Vamo)
  | vwaccAdd (a : Vwacc)
  -- bindings, barriers and windows (R259, R263, R275, R277)
  | syncBind (sd sa sb : SReg) (scope : Scope)
  | syncUnbind (sa : SReg)
  | barInit (sa : SReg) (nm1 : BitVec 6)
  | barArr (sa : SReg) | barArrRlx (sa : SReg) | barDrop (sa : SReg)
  | winOpen (sa sb sc : SReg) (ty : Tag)
  | winMerge | winClose
  -- copies, forwarding, hints (R278 to R283)
  | cpy (a : Cpy) | cpy2d (a : Cpy2d) | cpyFl (a : Cpy) | cpyMove (a : Cpy)
  | tokPoll (sd sa : SReg)
  | fwdRes (sd sa : SReg) | fwdCmp (sd sa sb : SReg) | fwdStat (sd sa : SReg)
  | fwdRelink (sa : SReg) | fwdClear (sa : SReg)
  | tierHint (sa sb : SReg) (tier : Tier)
  -- scalar float (R180 to R184); `d` selects f64
  | fadd (d : Bool) (sd sa sb : SReg)
  | fsub (d : Bool) (sd sa sb : SReg)
  | fmul (d : Bool) (sd sa sb : SReg)
  | fdiv (d : Bool) (sd sa sb : SReg)
  | fmin (d : Bool) (sd sa sb : SReg)
  | fmax (d : Bool) (sd sa sb : SReg)
  | fma (d : Bool) (sd sa sb : SReg)
  | fsqrt (d : Bool) (sd sa : SReg)
  | fcmpEq (d : Bool) (sd sa sb : SReg)
  | fcmpLt (d : Bool) (sd sa sb : SReg)
  | fcmpLe (d : Bool) (sd sa sb : SReg)
  | fcmpUn (d : Bool) (sd sa sb : SReg)
  | fcvtF32F64 (sd sa : SReg) (rm : Option Rm)
  | fcvtF64F32 (sd sa : SReg) (rm : Option Rm)
  | fcvtF32I64 (sd sa : SReg) (rm : Option Rm)
  | fcvtF32N64 (sd sa : SReg) (rm : Option Rm)
  | fcvtF64I64 (sd sa : SReg) (rm : Option Rm)
  | fcvtF64N64 (sd sa : SReg) (rm : Option Rm)
  | fcvtI64F32 (sd sa : SReg) (rm : Option Rm)
  | fcvtN64F32 (sd sa : SReg) (rm : Option Rm)
  | fcvtI64F64 (sd sa : SReg) (rm : Option Rm)
  | fcvtN64F64 (sd sa : SReg) (rm : Option Rm)
  -- events inside the strands (R162, R20, R165, R161, R18)
  | illegalHead (cause : Cause)
  | resultQueueDelivery (sid : Nat)
  | scalarAccessDelivery (sid : Nat)
  | convoyStart (sid : Nat)
  | viqEntryComplete (sid : Nat)
  -- homes, keystones, copy engines (R284, R273, R138, R128, R111)
  | memoryAccessPerform (rid : Nat)
  | keystoneCombine (ks : Nat)
  | keystoneSplitReply (ks : Nat)
  | combinedRedirectReissue (ks : Nat)
  | moveLineMark (cid : Nat)
  | moveLineCommit (cid : Nat)
  | copyCompletion (cid : Nat)
  -- ends of waits (R260, R261, R265, R268, R231, R191, R262, R29, R30)
  | relIncrement (sid : Nat)
  | acqSatisfied (sid : Nat)
  | barrierArrivalCount (bid : Nat)
  | vwaitMet (sid : Nat)
  | vwaitTimeout (sid : Nat)
  | vxchMatch (sid sid' : Nat)
  | vxchTimeout (sid : Nat)
  | qdrainComplete (sid : Nat)
  | fenceComplete (sid : Nat)
  | strandRetire (sid : Nat)
  | gangCompletion (gid : Nat)
  -- faults and their repair (R351, R356, R135, R348, R382)
  | faultServiceAnswer (asid : BitVec 16) (page : Word) (retry : Bool)
  | walkMigRetry (sid : Nat)
  | fwdChainRepair (sid : Nat)
  | faultNotice (sid : Nat)
  | fanswerResume (asid : BitVec 16) (n : BitVec 32)
  | fanswerEnd (asid : BitVec 16) (n : BitVec 32)
  | fanswerResumePast (asid : BitVec 16) (n : BitVec 32)
  -- submission and registers (R364, R365, R406, R376, R5)
  | submitCard (asid : BitVec 16) (off : Nat) (data : List Byte)
  | cardWindowPostedWrite (asid : BitVec 16)
  | scrConfigWrite (asid : BitVec 16) (size : Bool) (w : Word)
  | frConfigWrite (asid : BitVec 16) (size : Bool) (w : Word)
  | errorRegisterWrite (vf : BitVec 2) (w : Word)
  | slotPartWrite (n : Nat) (part : BitVec 2)
  | registerWrite (r : RegName) (w : BitVec 128)
  -- scheduling and Talus (R372 to R388, R422, R361, R381)
  | classPromotion (queue : Nat)
  | bindRecord (r : BitVec 512)
  | dispatchGang (handle : Nat)
  | tlbInvalidate (asid : BitVec 16) (base len : Nat)
  | saveGang (handle : Nat)
  | saveComplete (handle : Nat)
  | saveTimeout (handle : Nat)
  | vacateRecord (r : BitVec 256)
  | checkpointStart (handle : Nat)
  | vacateRelease (h : BitVec 8)
  | softError (what : Struck)
  | hangWatchdogExpiry (handle : Nat)
  -- host memory window and links (R392, R398, R399)
  | hostHdmWrite (addr : Nat) (data : List Byte)
  | hostHdmRead (addr : Nat) (n : Nat)
  | flitRetry (link : Nat)
  | linkFailure (link : Nat) (routes : List (BitVec 6 × BitVec 4))
  | routeTimeout (sid : Nat)
  -- network engine (R400 to R402)
  | qpContextWrite (qp : Nat) (ctx : BitVec 512)
  | neTailUpdate (qp : Nat)
  | neNop (qp : Nat)
  | neSend (qp : Nat) (r : Remote)
  | neWrite (qp : Nat) (r : Remote)
  | neRead (qp : Nat) (r : Remote)
  | neRecv (qp : Nat) (data : List Byte)
  | neEntryComplete (qp : Nat)
  -- resets and bring-up (R404, R407 to R411)
  | vfReset (vf : BitVec 2)
  | packageReset (dies : BitVec 4) (hbm : BitVec 12) (stages : Firmware)
  | startComplete (hostTime : Word)
  | startFailure (c : StartCause)
  | startWatchdogExpiry
  | minimalStageWrite (stage : List Byte)
  | attestationNonce (nonce : BitVec 256)
  -- power and heat (R412 to R416)
  | thermalTrip
  | allowanceRequest (die : Nat) (req : BitVec 8) (effective : Word)
  | allowanceApply (group : Nat)
  | stackTempSample (stack : Nat) (decidegrees : Nat) (effective : Word)
  | heldRequestTimeout (sid : Nat)
  -- replacement, tier manager, host (R108, R359, R117, R348, R414, R152, R390)
  | lineBufferReplacement (sid : Nat) (line : Nat)
  | tlbReplacement (asid : BitVec 16) (page : Nat)
  | tierManagerMove (asid : BitVec 16) (src dst : Word) (len : Nat) (mover : Mover)
  | faultRingHeadWrite (asid : BitVec 16) (w : Word)
  | inletTemperatureChange (degrees : Nat) (effective : Word)
  | instructionFetchFault (cause : Cause) (addr value : Word)
  | atomicopAsCompleter (addr : Nat) (op : AmoOp) (wide : Bool) (operand compare : Word)
  deriving DecidableEq, Repr

end Sys2Proof
end

