-- ==== Sys2Proof/WellFormed.lean ====
section
/-!
DEFINITION. Which instructions have an encoding: the field rules of R47, R147 and of the entries that restrict a
field. An instruction that is not well formed is a pattern that takes ILL_RSV. An event is always well formed.
-/

namespace Sys2Proof

/-- Mask field 0 with sense 1 is reserved (R47). -/
def MaskOp.wf (m : MaskOp) : Bool :=
  !(m.k == 0 && m.sense)

/-- The system-register numbers of R56. -/
def sysRegNums : List Nat :=
  [0x000, 0x001, 0x002, 0x003, 0x004, 0x008, 0x009, 0x010, 0x011, 0x012, 0x013, 0x014, 0x015,
   0x018, 0x019, 0x020, 0x021, 0x022, 0x023]

/-- Tags a tile may hold (R49, R247, R250). -/
def Tag.forTile (t : Tag) : Bool :=
  t == .raw || t == .i32 || t == .bf16 || t == .f32 || t == .trio

/-- Integer element-wise forms that fix SAT and RMS at 0 (R203), and the float ones (R204, R205). -/
def Vv.plain (a : Vv) : Bool :=
  a.m.wf && !a.sat && a.rm.isNone

/-- `vadd` and `vsub`: only RMS is fixed (R203). -/
def Vv.satOnly (a : Vv) : Bool :=
  a.m.wf && a.rm.isNone

/-- As `Vv.plain`, with a scalar second operand. -/
def Vx.plain (a : Vx) : Bool :=
  a.m.wf && !a.sat && a.rm.isNone

/-- As `Vv.satOnly`, with a scalar second operand. -/
def Vx.satOnly (a : Vx) : Bool :=
  a.m.wf && a.rm.isNone

/-- P + W lies within the register (R172). -/
def fieldFits (pos wm1 : BitVec 6) : Bool :=
  decide (pos.toNat + wm1.toNat < 64)

/-- The rows that are instructions: they have an encoding. -/
def Instr.isEvent : Instr → Bool
  | .illegalHead _ | .resultQueueDelivery _ | .scalarAccessDelivery _ | .convoyStart _ | .viqEntryComplete _
  | .memoryAccessPerform _ | .keystoneCombine _ | .keystoneSplitReply _ | .combinedRedirectReissue _
  | .moveLineMark _ | .moveLineCommit _ | .copyCompletion _ | .relIncrement _ | .acqSatisfied _
  | .barrierArrivalCount _ | .vwaitMet _ | .vwaitTimeout _ | .vxchMatch _ _ | .vxchTimeout _ | .qdrainComplete _
  | .fenceComplete _ | .strandRetire _ | .gangCompletion _ | .faultServiceAnswer _ _ _ | .walkMigRetry _
  | .fwdChainRepair _ | .faultNotice _ | .fanswerResume _ _ | .fanswerEnd _ _ | .fanswerResumePast _ _
  | .submitCard _ _ _ | .cardWindowPostedWrite _ | .scrConfigWrite _ _ _ | .frConfigWrite _ _ _
  | .errorRegisterWrite _ _ | .slotPartWrite _ _ | .registerWrite _ _ | .classPromotion _ | .bindRecord _
  | .dispatchGang _ | .tlbInvalidate _ _ _ | .saveGang _ | .saveComplete _ | .saveTimeout _ | .vacateRecord _
  | .checkpointStart _ | .vacateRelease _ | .softError _ | .hangWatchdogExpiry _ | .hostHdmWrite _ _
  | .hostHdmRead _ _ | .flitRetry _ | .linkFailure _ _ | .routeTimeout _ | .qpContextWrite _ _ | .neTailUpdate _
  | .neNop _ | .neSend _ _ | .neWrite _ _ | .neRead _ _ | .neRecv _ _ | .neEntryComplete _ | .vfReset _
  | .packageReset _ _ _ | .startComplete _ | .startFailure _ | .startWatchdogExpiry | .minimalStageWrite _
  | .attestationNonce _ | .thermalTrip | .allowanceRequest _ _ _ | .allowanceApply _ | .stackTempSample _ _ _
  | .heldRequestTimeout _ | .lineBufferReplacement _ _ | .tlbReplacement _ _ | .tierManagerMove _ _ _ _ _
  | .faultRingHeadWrite _ _ | .inletTemperatureChange _ _ | .instructionFetchFault _ _ _
  | .atomicopAsCompleter _ _ _ _ _ => true
  | _ => false

/-- The field rules of the entries. A field that only one form of an entry uses may hold any value in the other: vD of `vamo`
without `.ret`, sA of a reduction with F = 0. [DESIGN CHOICE, log 73] -/
def Instr.wf : Instr → Bool
  | .sget _ n | .sput n _ => sysRegNums.contains n.toNat
  | .bext _ _ p w | .bins _ _ p w => fieldFits p w
  | .vadd a | .vsub a => a.satOnly
  | .vaddX a | .vsubX a => a.satOnly
  | .vmul a | .vmulh a | .vmadd a | .vmin a | .vmax a | .vand a | .vor a | .vxor a | .vshl a | .vshr a | .vsar a => a.plain
  | .vmulX a | .vmulhX a | .vmaddX a | .vminX a | .vmaxX a | .vandX a | .vorX a | .vxorX a | .vshlX a | .vshrX a
  | .vsarX a => a.plain
  | .vfmin a | .vfmax a => a.plain
  | .vfminX a | .vfmaxX a => a.plain
  | .vfadd a | .vfsub a | .vfmul a | .vfdiv a | .vfma a | .vscale a => a.m.wf
  | .vfaddX a | .vfsubX a | .vfmulX a | .vfdivX a => a.m.wf
  | .vfrcpE a => a.m.wf && !a.sat && a.rm.isNone
  | .vfsqrt a | .vscanAdd a | .vscanAddx a => a.m.wf
  | .vcmpEq a | .vcmpNe a | .vcmpLt a | .vcmpGe a | .vcmpLtN a | .vcmpGeN a | .vcmpFeq a | .vcmpFlt a | .vcmpFle a
  | .vcmpFun a => a.m.wf
  | .vsel a | .vperm a | .vzip a => a.m.wf
  | .kpop _ _ _ m | .kfirst _ _ _ m | .vbcast _ _ _ _ m => m.wf
  | .vredAddO a | .vredAddT a | .vredMin a | .vredMax a => a.m.wf
  | .vcvtH a | .vcvtD a => a.m.wf && a.ty != .raw
  | .vcvtF32E2m1 a => a.m.wf && a.ty == .raw
  | .vld a | .vldc a => a.m.wf
  | .vst a => a.m.wf && a.ty == .raw
  | .vlds a => a.m.wf
  | .vsts a => a.m.wf && a.ty == .raw
  | .vldx a => a.m.wf
  | .vstxO a | .vstxN a => a.m.wf && a.ty == .raw
  | .vstc a => a.m.wf
  | .vfwdRes a | .vunzip a | .vrepBlk a | .vcompress a | .vexpand a => a.m.wf
  | .vslideUp a | .vslideDn a => a.m.wf
  | .vltFill a => a.m.wf && a.va == 0
  | .vxch a => a.m.wf
  | .vltLd a => a.m.wf
  | .vltSt a => a.m.wf && a.ty == .raw
  | .mzero _ _ ty => ty == .f32 || ty == .trio
  | .mtag _ _ ty => ty.forTile
  | .vopa a => a.m.wf
  | .vopaS a => a.m.wf
  | .mrd a | .mwr a => a.m.wf
  | .mld a => a.ty.forTile
  | .mst a => a.ty == .raw
  | .mcvtI32Trio a => a.scale == .none && !a.sat && a.rm.isNone
  | .mcvtF32I32 a => !a.sat
  | .vwait a => a.m.wf
  | .vamoAdd a | .vamoAnd a | .vamoOr a | .vamoXor a | .vamoMin a | .vamoMax a | .vamoSwp a => a.m.wf
  | .vamoCas a => a.m.wf && a.ret
  | .vwaccAdd a => a.m.wf
  | .tokPoll d a => d != a
  | _ => true

end Sys2Proof
end

