-- ==== Sys2Proof/Decode.lean ====
section
/-!
DEFINITION. Heads, tails and lines (R140 to R147), the opcode map (R153), the causes of what is not an instruction
(R154, R162), and the encoder written from the same tables.
-/

namespace Sys2Proof

/-! ## Codes -/

/-- The code of a tag (R63). -/
def Tag.code : Tag → BitVec 5
  | .raw => 0 | .i8 => 1 | .n8 => 2 | .i16 => 3 | .n16 => 4 | .i32 => 5 | .n32 => 6 | .i64 => 7 | .n64 => 8
  | .f16 => 9 | .bf16 => 10 | .f32 => 11 | .f64 => 12 | .e4m3 => 13 | .e5m2 => 14 | .e3m2 => 15 | .e2m3 => 16
  | .e2m1 => 17 | .i4 => 18 | .n4 => 19 | .e8m0 => 20 | .trio => 21

/-- The tag of a code; 22 to 31 are reserved (R64). -/
def Tag.ofCode (c : BitVec 5) : Option Tag :=
  [Tag.raw, .i8, .n8, .i16, .n16, .i32, .n32, .i64, .n64, .f16, .bf16, .f32, .f64, .e4m3, .e5m2, .e3m2, .e2m3,
   .e2m1, .i4, .n4, .e8m0, .trio][c.toNat]?

/-- The code of a rounding mode (R75). -/
def Rm.code : Rm → BitVec 2
  | .rne => 0 | .rtz => 1 | .rdn => 2 | .rup => 3

/-- The mode of a code (R75). -/
def Rm.ofCode (c : BitVec 2) : Rm :=
  if c = 0 then .rne else if c = 1 then .rtz else if c = 2 then .rdn else .rup

/-- RMS: 0 for `vtype`.RM, 0b100 to 0b111 for a mode (R198); the same three bits select the mode of `fcvt` (R184). -/
def rmsCode : Option Rm → BitVec 3
  | none => 0
  | some r => 1#1 ++ r.code

/-- The mode of an RMS field; 1 to 3 are reserved. -/
def rmsOf (c : BitVec 3) : Option (Option Rm) :=
  if c = 0 then some none
  else if c.extractLsb' 2 1 = 1#1 then some (some (Rm.ofCode (c.extractLsb' 0 2)))
  else none

/-- ORD (R176, R269). -/
def Ord.code : Ord → BitVec 2
  | .rlx => 0 | .acq => 1 | .rel => 2

/-- The order of a code; 3 is unassigned. -/
def Ord.ofCode (c : BitVec 2) : Option Ord :=
  if c = 0 then some .rlx else if c = 1 then some .acq else if c = 2 then some .rel else none

/-- The scope of `sync.bind` (R259). -/
def Scope.code : Scope → BitVec 2
  | .g => 0 | .d => 1 | .s => 2

/-- The scope of a code; 3 takes ILL_RSV. -/
def Scope.ofCode (c : BitVec 2) : Option Scope :=
  if c = 0 then some .g else if c = 1 then some .d else if c = 2 then some .s else none

/-- The tier of `tier.hint` (R283). -/
def Tier.code : Tier → BitVec 2
  | .up => 0 | .second => 1 | .none => 2

/-- The tier of a code; 3 takes ILL_RSV. -/
def Tier.ofCode (c : BitVec 2) : Option Tier :=
  if c = 0 then some .up else if c = 1 then some .second else if c = 2 then some .none else none

/-- One bit as a one-bit field. -/
def bit1 (b : Bool) : BitVec 1 :=
  if b then 1 else 0

/-- A 6-bit field that names a scalar register holds 0 to 31 (R147). -/
def sregOf (x : BitVec 6) : Option SReg :=
  if x.toNat < 32 then some (x.setWidth 5) else none

/-- A 6-bit field that names a mask register or a tile holds 0 to 7 (R147, R198). -/
def lowReg (x : BitVec 6) : Option (BitVec 3) :=
  if x.toNat < 8 then some (x.setWidth 3) else none

/-! ## Tail layouts (R146) -/

/-- The layouts. -/
inductive Layout where
  | none | t16 | s32 | b32 | v32 | w64 | e64
  deriving DecidableEq, Repr

/-- Tail bytes of a T code (R142). -/
def tailLen (t : BitVec 2) : Nat :=
  if t = 0 then 0 else if t = 1 then 2 else if t = 2 then 4 else 8

/-- The T code of a layout. -/
def Layout.tcode : Layout → BitVec 2
  | .none => 0 | .t16 => 1 | .s32 => 2 | .b32 => 2 | .v32 => 2 | .w64 => 3 | .e64 => 3

/-- T16: register and imm11. -/
structure T16 where
  reg : SReg
  imm : BitVec 11
  deriving DecidableEq, Repr

/-- S32: sD, sA, sB and imm17. -/
structure S32 where
  sd  : SReg
  sa  : SReg
  sb  : SReg
  imm : BitVec 17
  deriving DecidableEq, Repr

/-- B32: sA, sB, LDISP and SLOT. -/
structure B32 where
  sa   : SReg
  sb   : SReg
  off  : BitVec 17
  slot : BitVec 5
  deriving DecidableEq, Repr

/-- V32: vD, vA, vB, the mask and the modifier. -/
structure V32 where
  vd    : BitVec 6
  va    : BitVec 6
  vb    : BitVec 6
  k     : BitVec 3
  sense : BitVec 1
  mod   : BitVec 10
  deriving DecidableEq, Repr

/-- E64: five scalar fields, vA, vB, the mask and the modifier. -/
structure E64 where
  sd    : SReg
  sa    : SReg
  sb    : SReg
  sc    : SReg
  se    : SReg
  va    : BitVec 6
  vb    : BitVec 6
  k     : BitVec 3
  sense : BitVec 1
  mod   : BitVec 23
  deriving DecidableEq, Repr

/-- The fields of a T16 tail. -/
def T16.of (t : BitVec 64) : T16 :=
  ⟨t.extractLsb' 11 5, t.extractLsb' 0 11⟩

/-- A T16 tail. -/
def T16.bits (x : T16) : BitVec 64 :=
  (x.reg ++ x.imm : BitVec 16).setWidth 64

/-- The fields of an S32 tail. -/
def S32.of (t : BitVec 64) : S32 :=
  ⟨t.extractLsb' 27 5, t.extractLsb' 22 5, t.extractLsb' 17 5, t.extractLsb' 0 17⟩

/-- An S32 tail. -/
def S32.bits (x : S32) : BitVec 64 :=
  (x.sd ++ x.sa ++ x.sb ++ x.imm : BitVec 32).setWidth 64

/-- The fields of a B32 tail. -/
def B32.of (t : BitVec 64) : B32 :=
  ⟨t.extractLsb' 27 5, t.extractLsb' 22 5, t.extractLsb' 5 17, t.extractLsb' 0 5⟩

/-- A B32 tail. -/
def B32.bits (x : B32) : BitVec 64 :=
  (x.sa ++ x.sb ++ x.off ++ x.slot : BitVec 32).setWidth 64

/-- The fields of a V32 tail. -/
def V32.of (t : BitVec 64) : V32 :=
  ⟨t.extractLsb' 26 6, t.extractLsb' 20 6, t.extractLsb' 14 6, t.extractLsb' 11 3, t.extractLsb' 10 1,
   t.extractLsb' 0 10⟩

/-- A V32 tail. -/
def V32.bits (x : V32) : BitVec 64 :=
  (x.vd ++ x.va ++ x.vb ++ x.k ++ x.sense ++ x.mod : BitVec 32).setWidth 64

/-- The fields of an E64 tail. -/
def E64.of (t : BitVec 64) : E64 :=
  ⟨t.extractLsb' 59 5, t.extractLsb' 54 5, t.extractLsb' 49 5, t.extractLsb' 44 5, t.extractLsb' 39 5,
   t.extractLsb' 33 6, t.extractLsb' 27 6, t.extractLsb' 24 3, t.extractLsb' 23 1, t.extractLsb' 0 23⟩

/-- An E64 tail. -/
def E64.bits (x : E64) : BitVec 64 :=
  x.sd ++ x.sa ++ x.sb ++ x.sc ++ x.se ++ x.va ++ x.vb ++ x.k ++ x.sense ++ x.mod

/-- The mask operand of a tail. -/
def V32.mask (x : V32) : MaskOp :=
  ⟨x.k, x.sense == 1⟩

/-- The mask operand of a tail. -/
def E64.mask (x : E64) : MaskOp :=
  ⟨x.k, x.sense == 1⟩

/-! ## The opcode map (R153) -/

/-- Where a head runs and what its convoy limit is (R153, R155). -/
inductive Cls where
  | s | solo | vx | px | ld | st | lt | op | sy
  deriving DecidableEq, Repr

/-- The tail layout of a major; `none` where the major is unassigned. -/
def layoutOf (maj : Nat) : Option Layout :=
  if maj = 0x00 || maj = 0x77 then some .none
  else if maj = 0x01 || maj = 0x02 || maj = 0x04 || maj = 0x05 then some .b32
  else if maj = 0x03 || (0x06 ≤ maj && maj ≤ 0x08) || maj = 0x0A || maj = 0x0C then some .s32
  else if maj = 0x09 || maj = 0x0B || maj = 0x78 then some .t16
  else if 0x10 ≤ maj && maj ≤ 0x18 then some .s32
  else if maj = 0x19 then some .w64
  else if maj = 0x1A || maj = 0x1B then some .s32
  else if 0x2C ≤ maj && maj ≤ 0x2F then some .s32
  else if 0x34 ≤ maj && maj ≤ 0x38 then some .s32
  else if 0x3C ≤ maj && maj ≤ 0x4E then some .v32
  else if maj = 0x5C || maj = 0x5E || maj = 0x5F || maj = 0x61 || maj = 0x64 then some .v32
  else if maj = 0x5D || maj = 0x60 || maj = 0x62 || maj = 0x63 then some .e64
  else if (0x68 ≤ maj && maj ≤ 0x6B) || maj = 0x6E then some .v32
  else if maj = 0x6C || maj = 0x6D then some .e64
  else if maj = 0x70 || maj = 0x71 || maj = 0x73 || maj = 0x75 then some .v32
  else if maj = 0x72 || maj = 0x74 then some .e64
  else if maj = 0x76 || (0x7D ≤ maj && maj ≤ 0x7F) then some .s32
  else if 0x79 ≤ maj && maj ≤ 0x7C then some .e64
  else none

/-- The class of an assigned major and MINOR (R153). -/
def clsOf (maj min : Nat) : Cls :=
  if maj < 0x3C then .s
  else if maj = 0x48 || maj = 0x4A || maj = 0x4B then .px
  else if maj ≤ 0x4E then .vx
  else if maj = 0x5C || maj = 0x5D || maj = 0x5E || maj = 0x62 || maj = 0x64 then .ld
  else if maj = 0x5F || maj = 0x60 || maj = 0x61 || maj = 0x63 then .st
  else if 0x68 ≤ maj && maj ≤ 0x6D then .px
  else if maj = 0x6E then .lt
  else if 0x70 ≤ maj && maj ≤ 0x75 then .op
  else if maj = 0x7A then .sy
  else if maj = 0x7B then (if min = 1 then .sy else .solo)
  else if 0x7D ≤ maj then .s
  else .solo

/-- The assigned MINOR values of a major, where they run from 0 without a gap. -/
def minorCount (maj : Nat) : Nat :=
  if maj = 0x04 || maj = 0x15 || maj = 0x16 || maj = 0x3C || maj = 0x3D || maj = 0x3F || maj = 0x42 || maj = 0x44
  then (if maj = 0x3C then 7 else 6)
  else if maj = 0x05 || maj = 0x06 || maj = 0x09 || maj = 0x18 || maj = 0x41 || maj = 0x48 || maj = 0x49 || maj = 0x4C
    || maj = 0x61 || maj = 0x69 || maj = 0x6B || maj = 0x70 || maj = 0x73 || maj = 0x74 then 2
  else if maj = 0x07 || maj = 0x11 || maj = 0x17 || maj = 0x47 || maj = 0x68 || maj = 0x6A || maj = 0x6E || maj = 0x75
    || maj = 0x77 then 3
  else if maj = 0x14 || maj = 0x2D || maj = 0x45 || maj = 0x4B || maj = 0x76 || maj = 0x7B || maj = 0x7C then 4
  else if maj = 0x78 || maj = 0x7E then 5
  else if maj = 0x2C then 7
  else if maj = 0x12 || maj = 0x13 then 8
  else if maj = 0x10 then 9
  else if maj = 0x38 then 10
  else if maj = 0x3E then 13
  else 1

/-- Whether a MINOR is assigned (R153, R154). -/
def minorOk (maj min : Nat) : Bool :=
  if maj = 0x00 then decide (1 ≤ min ∧ min ≤ 3)
  else if maj = 0x2E || maj = 0x7A then decide (min / 2 % 4 ≠ 3)
  else if maj = 0x2F then decide (min / 2 % 4 ≠ 3 ∧ (min / 8 = 4 ∨ min / 8 = 5))
  else if maj = 0x34 then decide (min / 2 < 6)
  else if maj = 0x35 || maj = 0x36 then decide (min / 2 = 0)
  else if maj = 0x37 then decide (min / 2 < 4)
  else if maj = 0x6C then decide (min / 8 = 0 ∧ min / 2 % 4 ≠ 3)
  else decide (min < minorCount maj)

/-! ## The fields of each shape -/

/-- Three registers, imm17 = 0. -/
def S32.r3 (x : S32) (f : SReg → SReg → SReg → Instr) : Option Instr :=
  if x.imm = 0 then some (f x.sd x.sa x.sb) else none

/-- Destination, source and imm17; sB = 0. -/
def S32.ri (x : S32) (f : SReg → SReg → BitVec 17 → Instr) : Option Instr :=
  if x.sb = 0 then some (f x.sd x.sa x.imm) else none

/-- Destination and source; sB = 0 and imm17 = 0. -/
def S32.r2 (x : S32) (f : SReg → SReg → Instr) : Option Instr :=
  if x.sb = 0 ∧ x.imm = 0 then some (f x.sd x.sa) else none

/-- Immediate shift: imm17[16:6] is 0 (R169). -/
def S32.shift (x : S32) (f : SReg → SReg → BitVec 6 → Instr) : Option Instr :=
  if x.sb = 0 ∧ x.imm.extractLsb' 6 11 = 0 then some (f x.sd x.sa (x.imm.extractLsb' 0 6)) else none

/-- Bit field: imm17[16:12] is 0, position and width (R172). -/
def S32.field (x : S32) (f : SReg → SReg → BitVec 6 → BitVec 6 → Instr) : Option Instr :=
  if x.sb = 0 ∧ x.imm.extractLsb' 12 5 = 0 then
    some (f x.sd x.sa (x.imm.extractLsb' 6 6) (x.imm.extractLsb' 0 6))
  else none

/-- A conversion: imm17[2:0] selects the rounding, imm17[16:3] is 0 (R184). -/
def S32.fcvt (x : S32) (f : SReg → SReg → Option Rm → Instr) : Option Instr := do
  let rm ← rmsOf (x.imm.extractLsb' 0 3)
  if x.sb = 0 ∧ x.imm.extractLsb' 3 14 = 0 then some (f x.sd x.sa rm) else none

/-- The modifier of R198: TY, SAT, RMS, F. -/
def modFields (m : BitVec 10) : Option (Tag × Bool × Option Rm × Bool) := do
  let ty ← Tag.ofCode (m.extractLsb' 5 5)
  let rm ← rmsOf (m.extractLsb' 1 3)
  some (ty, m.extractLsb' 4 1 == 1, rm, m.extractLsb' 0 1 == 1)

/-- The modifier of R198 of these fields. -/
def modBits (ty : Tag) (sat : Bool) (rm : Option Rm) (f : Bool) : BitVec 10 :=
  ty.code ++ bit1 sat ++ rmsCode rm ++ bit1 f

/-- Two vector sources. -/
def V32.vv (x : V32) (c : Bool) (f : Vv → Instr) : Option Instr := do
  let (ty, sat, rm, fl) ← modFields x.mod
  if fl then none else some (f ⟨c, x.vd, x.va, x.vb, ty, sat, rm, x.mask⟩)

/-- A vector and a scalar source. -/
def V32.vx (x : V32) (c : Bool) (f : Vx → Instr) : Option Instr := do
  let (ty, sat, rm, fl) ← modFields x.mod
  let sb ← sregOf x.vb
  if fl then none else some (f ⟨c, x.vd, x.va, sb, ty, sat, rm, x.mask⟩)

/-- One vector source; vB = 0. -/
def V32.v1 (x : V32) (c : Bool) (f : V1 → Instr) : Option Instr := do
  let (ty, sat, rm, fl) ← modFields x.mod
  if fl || x.vb != 0 then none else some (f ⟨c, x.vd, x.va, ty, sat, rm, x.mask⟩)

/-- A compare: SAT, RMS and F are 0 (R207). -/
def V32.vk (x : V32) (c : Bool) (f : Vk → Instr) : Option Instr := do
  let (ty, sat, rm, fl) ← modFields x.mod
  let kd ← lowReg x.vd
  if fl || sat || rm.isSome then none else some (f ⟨c, kd, x.va, x.vb, ty, x.mask⟩)

/-- Two vector sources and no modifier. -/
def V32.vp (x : V32) (c : Bool) (f : Vp → Instr) : Option Instr :=
  if x.mod = 0 then some (f ⟨c, x.vd, x.va, x.vb, x.mask⟩) else none

/-- One vector source and no modifier. -/
def V32.vu (x : V32) (c : Bool) (f : Vu → Instr) : Option Instr :=
  if x.mod = 0 ∧ x.vb = 0 then some (f ⟨c, x.vd, x.va, x.mask⟩) else none

/-- A vector and a scalar source and no modifier. -/
def V32.vs (x : V32) (c : Bool) (f : Vs → Instr) : Option Instr := do
  let sb ← sregOf x.vb
  if x.mod = 0 then some (f ⟨c, x.vd, x.va, sb, x.mask⟩) else none

/-- A reduction (R213). Where F is 0 the entry does not say that the field of sA is 0: any register number is accepted there.
[DESIGN CHOICE, log 73] -/
def V32.red (x : V32) (c : Bool) (f : Red → Instr) : Option Instr := do
  let (ty, sat, rm, fl) ← modFields x.mod
  let sd ← sregOf x.vd
  let sa ← sregOf x.va
  some (f ⟨c, sd, sa, x.vb, ty, sat, rm, fl, x.mask⟩)

/-- A tag alone in the modifier: SAT, RMS and F are 0. -/
def tyOnly (m : BitVec 10) : Option Tag := do
  let (ty, sat, rm, fl) ← modFields m
  if fl || sat || rm.isSome then none else some ty

/-- Unit-stride memory: modifier [4:0] is 0 and vB is 0 (R217). -/
def V32.vmem (x : V32) (c : Bool) (f : Vmem → Instr) : Option Instr := do
  let ty ← Tag.ofCode (x.mod.extractLsb' 5 5)
  let sa ← sregOf x.va
  if x.vb = 0 ∧ x.mod.extractLsb' 0 5 = 0 then some (f ⟨c, x.vd, sa, ty, x.mask⟩) else none

/-- Indexed memory: modifier [4:2] is 0, [1:0] is SH (R217). -/
def V32.vidx (x : V32) (c : Bool) (f : Vidx → Instr) : Option Instr := do
  let ty ← Tag.ofCode (x.mod.extractLsb' 5 5)
  let sa ← sregOf x.va
  if x.mod.extractLsb' 2 3 = 0 then some (f ⟨c, x.vd, sa, x.vb, ty, x.mod.extractLsb' 0 2, x.mask⟩) else none

/-- Lane-table load and store: vA is 0 (R232). -/
def V32.vlt (x : V32) (c : Bool) (f : Vlt → Instr) : Option Instr := do
  let ty ← tyOnly x.mod
  if x.va = 0 then some (f ⟨c, x.vd, x.vb, ty, x.mask⟩) else none

/-- Lane-table fill: vA is 0, vB names sB, the modifier is 0 (R232). -/
def V32.fill (x : V32) (c : Bool) : Option Instr := do
  let sb ← sregOf x.vb
  if x.va = 0 ∧ x.mod = 0 then some (.vltFill ⟨c, x.vd, 0, sb, x.mask⟩) else none

/-- Tile moves: vD and vA name the vector and the tile, vB names sB (R248, R249). -/
def V32.mrow (x : V32) (c : Bool) (read : Bool) : Option Instr := do
  let t ← lowReg (if read then x.va else x.vd)
  let sb ← sregOf x.vb
  if x.mod = 0 then
    some (if read then .mrd ⟨c, x.vd, t, sb, x.mask⟩ else .mwr ⟨c, x.va, t, sb, x.mask⟩)
  else none

/-- The scale operand of `mcvt`: SC selects what vB names (R253). -/
def scaleOf (sc : BitVec 2) (vb : BitVec 6) : Option Scale :=
  if sc = 0 then (if vb = 0 then some .none else none)
  else if sc = 1 then (sregOf vb).map Scale.tile
  else if sc = 2 then some (.row vb)
  else none

/-- `mcvt`: modifier [9:8] SC, [7:5] 0, [4] SAT, [3:1] RMS, [0] 0; the mask is 0 (R253). -/
def V32.mcvt (x : V32) (c : Bool) (f : Mcvt → Instr) : Option Instr := do
  let md ← lowReg x.vd
  let ms ← lowReg x.va
  let sc ← scaleOf (x.mod.extractLsb' 8 2) x.vb
  let rm ← rmsOf (x.mod.extractLsb' 1 3)
  if x.k = 0 ∧ x.sense = 0 ∧ x.mod.extractLsb' 5 3 = 0 ∧ x.mod.extractLsb' 0 1 = 0 then
    some (f ⟨c, md, ms, sc, x.mod.extractLsb' 4 1 == 1, rm⟩)
  else none

/-- A strided load or store: modifier [22:17] register, [16:12] TY, the rest 0 (R217). -/
def E64.vstr (x : E64) (c : Bool) (f : Vstr → Instr) : Option Instr := do
  let ty ← Tag.ofCode (x.mod.extractLsb' 12 5)
  if x.sd = 0 ∧ x.sc = 0 ∧ x.se = 0 ∧ x.va = 0 ∧ x.vb = 0 ∧ x.mod.extractLsb' 0 12 = 0 then
    some (f ⟨c, x.mod.extractLsb' 17 6, x.sa, x.sb, ty, x.mask⟩)
  else none

/-- `vldc` (R217, R225). -/
def E64.vldc (x : E64) (c : Bool) : Option Instr := do
  let ty ← Tag.ofCode (x.mod.extractLsb' 12 5)
  if x.sd = 0 ∧ x.sb = 0 ∧ x.sc = 0 ∧ x.se = 0 ∧ x.va = 0 ∧ x.vb = 0 ∧ x.mod.extractLsb' 0 12 = 0 then
    some (.vldc ⟨c, x.mod.extractLsb' 17 6, x.sa, ty, x.mask⟩)
  else none

/-- `vstc` (R217, R224). -/
def E64.vstc (x : E64) (c : Bool) : Option Instr :=
  if x.sc = 0 ∧ x.se = 0 ∧ x.va = 0 ∧ x.vb = 0 ∧ x.mod.extractLsb' 1 16 = 0 then
    some (.vstc ⟨c, x.sd, x.mod.extractLsb' 17 6, x.sa, x.sb, x.mod.extractLsb' 0 1 == 1, x.mask⟩)
  else none

/-- `vmerge.u`: modifier [22:17] vD, [16:14] RMS, the rest 0; no mask (R230). -/
def E64.merge (x : E64) (c dz : Bool) (f : Merge → Instr) : Option Instr := do
  let rm ← rmsOf (x.mod.extractLsb' 14 3)
  if x.sc = 0 ∧ x.se = 0 ∧ x.k = 0 ∧ x.sense = 0 ∧ x.mod.extractLsb' 0 14 = 0 then
    some (f ⟨c, x.sd, x.mod.extractLsb' 17 6, x.va, x.sa, x.vb, x.sb, dz, rm⟩)
  else none

/-- `vxch`: modifier [22:17] vD, the rest 0 (R231). -/
def E64.xch (x : E64) (c : Bool) : Option Instr :=
  if x.sc = 0 ∧ x.se = 0 ∧ x.vb = 0 ∧ x.mod.extractLsb' 0 17 = 0 then
    some (.vxch ⟨c, x.sd, x.mod.extractLsb' 17 6, x.va, x.sa, x.sb, x.mask⟩)
  else none

/-- `vopa.s` (R241). -/
def E64.opaS (x : E64) (c : Bool) : Option Instr := do
  let ty ← Tag.ofCode (x.mod.extractLsb' 0 5)
  if x.sd = 0 ∧ x.sa = 0 ∧ x.sb = 0 ∧ x.sc = 0 ∧ x.se = 0 then
    some (.vopaS ⟨c, x.mod.extractLsb' 8 3, x.va, x.vb, x.mod.extractLsb' 17 6, x.mod.extractLsb' 11 6, ty,
      x.mod.extractLsb' 5 3, x.mask⟩)
  else none

/-- `mld` and `mst`: modifier [22:17] T, [16:12] TY, the rest 0 (R250). -/
def E64.mmem (x : E64) (c : Bool) (f : Mmem → Instr) : Option Instr := do
  let ty ← Tag.ofCode (x.mod.extractLsb' 12 5)
  let t ← lowReg (x.mod.extractLsb' 17 6)
  if x.sd = 0 ∧ x.va = 0 ∧ x.vb = 0 ∧ x.k = 0 ∧ x.sense = 0 ∧ x.mod.extractLsb' 0 12 = 0 then
    some (f ⟨c, t, x.sa, x.sb, x.sc, x.se, ty⟩)
  else none

/-- `vwait`: modifier [22:20] kD, the rest 0 (R268). -/
def E64.vwait (x : E64) : Option Instr :=
  if x.sa = 0 ∧ x.sc = 0 ∧ x.se = 0 ∧ x.mod.extractLsb' 0 20 = 0 then
    some (.vwait ⟨x.sd, x.mod.extractLsb' 20 3, x.va, x.vb, x.sb, x.mask⟩)
  else none

/-- `vamo`: modifier [22:17] vD, [16:15] SH, [14] RA, the rest 0 (R269). Without `.ret` the entry does not say that vD is 0: any
register number is accepted there. [DESIGN CHOICE, log 73] -/
def E64.vamo (x : E64) (c : Bool) (min : BitVec 6) (f : Vamo → Instr) : Option Instr := do
  let ord ← Ord.ofCode (min.extractLsb' 1 2)
  if x.sd = 0 ∧ x.sb = 0 ∧ x.sc = 0 ∧ x.se = 0 ∧ x.mod.extractLsb' 0 14 = 0 then
    some (f ⟨c, x.mod.extractLsb' 17 6, x.sa, x.va, x.vb, x.mod.extractLsb' 15 2, ord, min.extractLsb' 0 1 == 1,
      x.mod.extractLsb' 14 1 == 1, x.mask⟩)
  else none

/-- `win.open`: modifier [16:12] TY, every other field 0 (R275). -/
def E64.winOpen (x : E64) : Option Instr := do
  let ty ← Tag.ofCode (x.mod.extractLsb' 12 5)
  if x.sd = 0 ∧ x.se = 0 ∧ x.va = 0 ∧ x.vb = 0 ∧ x.k = 0 ∧ x.sense = 0 ∧ x.mod.extractLsb' 17 6 = 0
      ∧ x.mod.extractLsb' 0 12 = 0 then
    some (.winOpen x.sa x.sb x.sc ty)
  else none

/-- `vwacc.add`: modifier [16:14] RMS, [13:12] SH, the rest 0 (R276). -/
def E64.vwacc (x : E64) (c : Bool) : Option Instr := do
  let rm ← rmsOf (x.mod.extractLsb' 14 3)
  if x.sd = 0 ∧ x.sa = 0 ∧ x.sb = 0 ∧ x.sc = 0 ∧ x.se = 0 ∧ x.mod.extractLsb' 17 6 = 0 ∧ x.mod.extractLsb' 0 12 = 0 then
    some (.vwaccAdd ⟨c, x.vb, x.va, x.mod.extractLsb' 12 2, rm, x.mask⟩)
  else none

/-- A copy of one row: every other field 0 (R278). -/
def E64.cpy (x : E64) (f : Cpy → Instr) : Option Instr :=
  if x.se = 0 ∧ x.va = 0 ∧ x.vb = 0 ∧ x.k = 0 ∧ x.sense = 0 ∧ x.mod = 0 then
    some (f ⟨x.sd, x.sa, x.sb, x.sc⟩)
  else none

/-- `cpy.2d`: modifier [22:18] sF, [17:13] sG, the rest 0 (R278). -/
def E64.cpy2d (x : E64) : Option Instr :=
  if x.va = 0 ∧ x.vb = 0 ∧ x.k = 0 ∧ x.sense = 0 ∧ x.mod.extractLsb' 0 13 = 0 then
    some (.cpy2d ⟨x.sd, x.sa, x.sb, x.sc, x.se, x.mod.extractLsb' 18 5, x.mod.extractLsb' 13 5⟩)
  else none

/-! ## From a head and its tail to an instruction -/

/-- The scalar majors 0x00 to 0x1B. -/
def buildScalar (maj : Nat) (min : BitVec 6) (t : BitVec 64) : Option Instr :=
  let n := min.toNat
  let x := S32.of t
  let b := B32.of t
  let h := T16.of t
  match maj with
  | 0x00 => [Instr.nop, .nop, .finish, .ret][n]?
  | 0x01 => if b.sa = 0 ∧ b.sb = 0 then some (.br b.off b.slot) else none
  | 0x02 => if b.sa = 0 ∧ b.sb = 0 then some (.call b.off b.slot) else none
  | 0x03 => x.ri .jr
  | 0x04 => ([Instr.beq, .bne, .blt, .bge, .bltn, .bgen][n]?).map fun f => f b.sa b.sb b.off b.slot
  | 0x05 => if b.sb = 0 then ([Instr.bz, .bnz][n]?).map fun f => f b.sa b.off b.slot else none
  | 0x06 =>
    if x.imm.extractLsb' 12 5 ≠ 0 then none
    else if n = 0 then (if x.sa = 0 ∧ x.sb = 0 then some (.sget x.sd (x.imm.extractLsb' 0 12)) else none)
    else if x.sd = 0 ∧ x.sb = 0 then some (.sput (x.imm.extractLsb' 0 12) x.sa) else none
  | 0x07 =>
    if n = 0 then x.r2 .vsetvl
    else if n = 1 then x.r2 .vsettype
    else if x.sa = 0 ∧ x.sb = 0 ∧ x.imm.extractLsb' 12 5 = 0 then some (.vsettypeImm x.sd (x.imm.extractLsb' 0 12))
    else none
  | 0x08 => x.r2 .qdrain
  | 0x09 => if n = 0 then (if h.reg = 0 then some (.brk h.imm) else none) else some (.trap h.reg h.imm)
  | 0x0A => x.r2 .sysCall
  | 0x0B => some (.progMark h.reg h.imm)
  | 0x0C => x.r3 .taskPost
  | 0x10 => ([Instr.add, .sub, .mul, .mulh, .mulhN, .div, .divN, .rem, .remN][n]?).bind x.r3
  | 0x11 => ([Instr.addImm, .subImm, .mulImm][n]?).bind x.ri
  | 0x12 => ([Instr.and, .or, .xor, .andn, .shl, .shr, .sar, .rot][n]?).bind x.r3
  | 0x13 =>
    if n < 4 then ([Instr.andImm, .orImm, .xorImm, .andnImm][n]?).bind x.ri
    else ([Instr.shlImm, .shrImm, .sarImm, .rotImm][n - 4]?).bind x.shift
  | 0x14 => ([Instr.min, .max, .minN, .maxN][n]?).bind x.r3
  | 0x15 => ([Instr.cmpEq, .cmpNe, .cmpLt, .cmpGe, .cmpLtN, .cmpGeN][n]?).bind x.r3
  | 0x16 => ([Instr.cmpEqImm, .cmpNeImm, .cmpLtImm, .cmpGeImm, .cmpLtNImm, .cmpGeNImm][n]?).bind x.ri
  | 0x17 => ([Instr.clz, .ctz, .pop][n]?).bind x.r2
  | 0x18 => ([Instr.bext, .bins][n]?).bind x.field
  | 0x19 => some (.li (t.extractLsb' 59 5) (t.extractLsb' 0 59))
  | 0x1A =>
    if x.sb = 0 ∧ x.imm.extractLsb' 5 12 = 0 then some (.lih x.sd x.sa (x.imm.extractLsb' 0 5)) else none
  | 0x1B => some (.lea x.sd x.sa x.sb (x.imm.extractLsb' 0 3) (x.imm.extractLsb' 3 14))
  | _ => none

/-- Scalar memory and float, majors 0x2C to 0x38. -/
noncomputable def buildMemFloat (maj : Nat) (min : BitVec 6) (t : BitVec 64) : Option Instr :=
  let n := min.toNat
  let x := S32.of t
  let wide := min.extractLsb' 0 1 == 1
  match maj with
  | 0x2C => ([Instr.ldB, .ldH, .ldW, .ldD, .ldBN, .ldHN, .ldWN][n]?).bind x.ri
  | 0x2D =>
    if x.sd = 0 then ([Instr.stB, .stH, .stW, .stD][n]?).map fun f => f x.sb x.sa x.imm else none
  | 0x2E => do
    let ord ← Ord.ofCode (min.extractLsb' 1 2)
    let f ← [Instr.amoAdd, .amoAnd, .amoOr, .amoXor, .amoMin, .amoMax, .amoSwp, .amoCas][n / 8]?
    x.r3 fun d a b => f d a b ord wide
  | 0x2F => do
    let ord ← Ord.ofCode (min.extractLsb' 1 2)
    let f ← [Instr.amoMinN, .amoMaxN][n / 8 - 4]?
    x.r3 fun d a b => f d a b ord wide
  | 0x34 => do
    let f ← [Instr.fadd, .fsub, .fmul, .fdiv, .fmin, .fmax][n / 2]?
    x.r3 (f wide)
  | 0x35 => x.r3 (.fma wide)
  | 0x36 => x.r2 (.fsqrt wide)
  | 0x37 => do
    let f ← [Instr.fcmpEq, .fcmpLt, .fcmpLe, .fcmpUn][n / 2]?
    x.r3 (f wide)
  | 0x38 =>
    ([Instr.fcvtF32F64, .fcvtF64F32, .fcvtF32I64, .fcvtF32N64, .fcvtF64I64, .fcvtF64N64, .fcvtI64F32, .fcvtN64F32,
      .fcvtI64F64, .fcvtN64F64][n]?).bind x.fcvt
  | _ => none

/-- Vector arithmetic, majors 0x3C to 0x4E. -/
def buildVector (maj : Nat) (c : Bool) (min : BitVec 6) (t : BitVec 64) : Option Instr :=
  let n := min.toNat
  let x := V32.of t
  match maj with
  | 0x3C => ([Instr.vadd, .vsub, .vmul, .vmulh, .vmadd, .vmin, .vmax][n]?).bind (x.vv c)
  | 0x3D => ([Instr.vand, .vor, .vxor, .vshl, .vshr, .vsar][n]?).bind (x.vv c)
  | 0x3E =>
    ([Instr.vaddX, .vsubX, .vmulX, .vmulhX, .vmaddX, .vminX, .vmaxX, .vandX, .vorX, .vxorX, .vshlX, .vshrX,
      .vsarX][n]?).bind (x.vx c)
  | 0x3F => ([Instr.vfadd, .vfsub, .vfmul, .vfdiv, .vfmin, .vfmax][n]?).bind (x.vv c)
  | 0x40 => x.vv c .vfma
  | 0x41 => ([Instr.vfsqrt, .vfrcpE][n]?).bind (x.v1 c)
  | 0x42 => ([Instr.vfaddX, .vfsubX, .vfmulX, .vfdivX, .vfminX, .vfmaxX][n]?).bind (x.vx c)
  | 0x43 => x.vv c .vscale
  | 0x44 => ([Instr.vcmpEq, .vcmpNe, .vcmpLt, .vcmpGe, .vcmpLtN, .vcmpGeN][n]?).bind (x.vk c)
  | 0x45 => ([Instr.vcmpFeq, .vcmpFlt, .vcmpFle, .vcmpFun][n]?).bind (x.vk c)
  | 0x46 => x.vp c .vsel
  | 0x47 => do
    let kd ← lowReg x.vd
    let ka ← lowReg x.va
    let kb ← lowReg x.vb
    if x.k = 0 ∧ x.sense = 0 ∧ x.mod = 0 then
      if n = 0 then some (.kand c kd ka kb)
      else if n = 1 then some (.kor c kd ka kb)
      else if x.vb = 0 then some (.knot c kd ka) else none
    else none
  | 0x48 => do
    let sd ← sregOf x.vd
    let ka ← lowReg x.va
    if x.vb = 0 ∧ x.mod = 0 then ([Instr.kpop, .kfirst][n]?).map fun f => f c sd ka x.mask else none
  | 0x49 => do
    let ty ← tyOnly x.mod
    let sa ← sregOf x.va
    if n = 0 then
      let sb ← sregOf x.vb
      if x.k = 0 ∧ x.sense = 0 then some (.vmvSx c x.vd sa sb ty) else none
    else if x.vb = 0 then some (.vbcast c x.vd sa ty x.mask) else none
  | 0x4A => do
    let sd ← sregOf x.vd
    let sb ← sregOf x.vb
    if x.k = 0 ∧ x.sense = 0 ∧ x.mod = 0 then some (.vmvXs c sd x.va sb) else none
  | 0x4B => ([Instr.vredAddO, .vredAddT, .vredMin, .vredMax][n]?).bind (x.red c)
  | 0x4C => ([Instr.vcvtH, .vcvtD][n]?).bind (x.v1 c)
  | 0x4D => x.v1 c .vcvtF32E2m1
  | 0x4E => do
    let ty ← tyOnly x.mod
    if x.vb = 0 ∧ x.k = 0 ∧ x.sense = 0 then some (.vtag c x.vd x.va ty) else none
  | _ => none

/-- Vector memory, permutes, merge, exchange and lane tables, majors 0x5C to 0x6E. -/
def buildVecMem (maj : Nat) (c : Bool) (min : BitVec 6) (t : BitVec 64) : Option Instr :=
  let n := min.toNat
  let x := V32.of t
  let e := E64.of t
  match maj with
  | 0x5C => x.vmem c .vld
  | 0x5D => e.vstr c .vlds
  | 0x5E => x.vidx c .vldx
  | 0x5F => x.vmem c .vst
  | 0x60 => e.vstr c .vsts
  | 0x61 => ([Instr.vstxO, .vstxN][n]?).bind (x.vidx c)
  | 0x62 => e.vldc c
  | 0x63 => e.vstc c
  | 0x64 => x.vu c .vfwdRes
  | 0x68 => if n = 0 then x.vp c .vperm else if n = 1 then x.vp c .vzip else x.vu c .vunzip
  | 0x69 => ([Instr.vslideUp, .vslideDn][n]?).bind (x.vs c)
  | 0x6A => ([Instr.vrepBlk, .vcompress, .vexpand][n]?).bind (x.vu c)
  | 0x6B => ([Instr.vscanAdd, .vscanAddx][n]?).bind (x.v1 c)
  | 0x6C => ([Instr.vmergeUAdd, .vmergeUSub, .vmergeUMax][n / 2]?).bind (e.merge c (min.extractLsb' 0 1 == 1))
  | 0x6D => e.xch c
  | 0x6E => if n = 0 then x.vlt c .vltLd else if n = 1 then x.vlt c .vltSt else x.fill c
  | _ => none

/-- Tiles, synchronisation and engines, majors 0x70 to 0x7F. -/
noncomputable def buildEngine (maj : Nat) (c : Bool) (min : BitVec 6) (t : BitVec 64) : Option Instr :=
  let n := min.toNat
  let x := V32.of t
  let e := E64.of t
  let s := S32.of t
  let h := T16.of t
  match maj with
  | 0x70 => do
    let ty ← tyOnly x.mod
    let d ← lowReg x.vd
    if x.va = 0 ∧ x.vb = 0 ∧ x.k = 0 ∧ x.sense = 0 then ([Instr.mzero, .mtag][n]?).map fun f => f c d ty else none
  | 0x71 => do
    let ty ← Tag.ofCode (x.mod.extractLsb' 5 5)
    let d ← lowReg x.vd
    if x.mod.extractLsb' 0 2 = 0 then some (.vopa ⟨c, d, x.va, x.vb, ty, x.mod.extractLsb' 2 3, x.mask⟩) else none
  | 0x72 => e.opaS c
  | 0x73 => x.mrow c (n == 0)
  | 0x74 => ([Instr.mld, .mst][n]?).bind (e.mmem c)
  | 0x75 => ([Instr.mcvtI32Trio, .mcvtF32I32, .mcvtBf16F32][n]?).bind (x.mcvt c)
  | 0x76 =>
    if n = 0 then s.r3 .acq
    else if n = 1 then s.r2 .rel
    else if n = 2 then
      match Scope.ofCode (s.imm.extractLsb' 0 2) with
      | some sc => if s.imm.extractLsb' 2 15 = 0 then some (.syncBind s.sd s.sa s.sb sc) else none
      | none => none
    else if s.sd = 0 ∧ s.sb = 0 ∧ s.imm = 0 then some (.syncUnbind s.sa) else none
  | 0x77 => [Instr.fenceG, .fenceD, .fenceS][n]?
  | 0x78 =>
    if n = 0 then (if h.imm.extractLsb' 6 5 = 0 then some (.barInit h.reg (h.imm.extractLsb' 0 6)) else none)
    else if h.imm = 0 then ([Instr.barArr, .barArrRlx, .barDrop, .barWait][n - 1]?).map fun f => f h.reg
    else none
  | 0x79 => e.vwait
  | 0x7A =>
    ([Instr.vamoAdd, .vamoAnd, .vamoOr, .vamoXor, .vamoMin, .vamoMax, .vamoSwp, .vamoCas][n / 8]?).bind (e.vamo c min)
  | 0x7B =>
    if n = 0 then e.winOpen
    else if n = 1 then e.vwacc c
    else if t = 0 then ([Instr.winMerge, .winClose][n - 2]?) else none
  | 0x7C => if n = 1 then e.cpy2d else if n = 0 then e.cpy .cpy else if n = 2 then e.cpy .cpyFl else e.cpy .cpyMove
  | 0x7D => s.r2 .tokPoll
  | 0x7E =>
    if n = 0 then s.r2 .fwdRes
    else if n = 1 then s.r3 .fwdCmp
    else if n = 2 then s.r2 .fwdStat
    else if s.sd = 0 ∧ s.sb = 0 ∧ s.imm = 0 then ([Instr.fwdRelink, .fwdClear][n - 3]?).map fun f => f s.sa
    else none
  | 0x7F =>
    match Tier.ofCode (s.imm.extractLsb' 0 2) with
    | some ti => if s.sd = 0 ∧ s.imm.extractLsb' 2 15 = 0 then some (.tierHint s.sa s.sb ti) else none
    | none => none
  | _ => none

/-- The instruction whose fields a head and its tail hold, before the field rules of `Instr.wf`. -/
noncomputable def build (maj : Nat) (c : Bool) (min : BitVec 6) (t : BitVec 64) : Option Instr :=
  if maj < 0x2C then buildScalar maj min t
  else if maj < 0x3C then buildMemFloat maj min t
  else if maj < 0x5C then buildVector maj c min t
  else if maj < 0x70 then buildVecMem maj c min t
  else buildEngine maj c min t

/-- The fields of a head (R141). -/
structure Head where
  c     : Bool
  t     : BitVec 2
  major : BitVec 7
  minor : BitVec 6
  deriving DecidableEq, Repr

/-- The fields of a head (R141). -/
def Head.of (h : BitVec 16) : Head :=
  ⟨h.extractLsb' 15 1 == 1, h.extractLsb' 13 2, h.extractLsb' 6 7, h.extractLsb' 0 6⟩

/-- A head. -/
def Head.bits (h : Head) : BitVec 16 :=
  bit1 h.c ++ h.t ++ h.major ++ h.minor

/-- Decode one head with its tail, zero-extended: the instruction, or the first cause of R162 that the head itself
decides. ILL_CONVOY of a class limit and ILL_CHAIN depend on the open convoy and are found at dispatch. -/
noncomputable def decode (h : BitVec 16) (t : BitVec 64) : Except Cause Instr :=
  let f := Head.of h
  let maj := f.major.toNat
  match layoutOf maj with
  | none => .error .illMajor
  | some lay =>
    if !minorOk maj f.minor.toNat then .error .illMinor
    else
      let cls := clsOf maj f.minor.toNat
      if f.t ≠ lay.tcode ∨ (f.c = true ∧ cls = .s) then .error .illRsv
      else
        match build maj f.c f.minor t with
        | none => .error .illRsv
        | some i =>
          if !i.wf then .error .illRsv
          else if cls = .solo ∧ f.c = false then .error .illConvoy
          else .ok i

/-! ## The line (R140, R143) -/

/-- A line of 64 bytes, byte 0 in bits [7:0]. -/
abbrev Line := BitVec 512

/-- Head k of a line (R140). -/
def Line.head (l : Line) (k : Nat) : BitVec 16 :=
  l.extractLsb' (16 * k) 16

/-- The heads of a line with their tails, in slot order, and whether the slot after them is `bad` (R143):
`s` tail bytes are already placed, `k` heads already found. -/
def Line.scan (l : Line) : (fuel k s : Nat) → List (BitVec 16 × BitVec 64) × Bool
  | 0, _, _ => ([], false)
  | fuel + 1, k, s =>
    let h := l.head k
    if 64 < 2 * k + 2 + s ∨ h = 0 then ([], false)
    else
      let len := tailLen (h.extractLsb' 13 2)
      if 64 < 2 * k + 2 + s + len then ([], true)
      else
        let t := (l.extractLsb' (8 * (64 - s - len)) (8 * len)).setWidth 64
        let (rest, bad) := l.scan fuel (k + 1) (s + len)
        ((h, t) :: rest, bad)

/-- The heads of a line and whether a `bad` slot follows them (R143). -/
def Line.heads (l : Line) : List (BitVec 16 × BitVec 64) × Bool :=
  l.scan 32 0 0

/-- A line that holds one head in slot 0, with its tail from byte 63 downward and the terminator after it. -/
def Line.single (h : BitVec 16) (t : BitVec 64) : Line :=
  let len := tailLen (h.extractLsb' 13 2)
  h.setWidth 512 ||| ((t &&& (BitVec.allOnes 64 >>> (8 * (8 - len)))).setWidth 512 <<< (8 * (64 - len)))

/-- The instruction in slot 0 of a line. -/
noncomputable def Line.first (l : Line) : Option Instr :=
  match l.heads.1 with
  | [] => none
  | (h, t) :: _ =>
    match decode h t with
    | .ok i => some i
    | .error _ => none

/-- The head and the tail of an instruction whose bits are `w`, as spec/opcode_table.json numbers them: the table
writes a head of 16 bits above its tail of nbits - 16 bits (log 1). Tail bits the table does not give are 0. -/
def tableWord (nbits w : Nat) : BitVec 16 × BitVec 64 :=
  (BitVec.ofNat 16 (w / 2 ^ (nbits - 16)), BitVec.ofNat 64 (w % 2 ^ (nbits - 16)))

/-- The instruction the decoder reads from a table word laid out as a line. -/
noncomputable def decodeTableWord (nbits w : Nat) : Option Instr :=
  let (h, t) := tableWord nbits w
  (Line.single h t).first

/-! ## The encoder -/

/-- A head and its tail, zero-extended. -/
structure Enc where
  head : BitVec 16
  tail : BitVec 64
  deriving DecidableEq, Repr

/-- A head of class S. -/
def encS (lay : Layout) (maj : BitVec 7) (min : BitVec 6) (t : BitVec 64) : Option Enc :=
  some ⟨Head.bits ⟨false, lay.tcode, maj, min⟩, t⟩

/-- A vector-queue head. -/
def encV (c : Bool) (lay : Layout) (maj : BitVec 7) (min : BitVec 6) (t : BitVec 64) : Option Enc :=
  some ⟨Head.bits ⟨c, lay.tcode, maj, min⟩, t⟩

/-- Three registers. -/
def eR3 (maj : BitVec 7) (min : BitVec 6) (d a b : SReg) : Option Enc :=
  encS .s32 maj min (S32.bits ⟨d, a, b, 0⟩)

/-- Two registers. -/
def eR2 (maj : BitVec 7) (min : BitVec 6) (d a : SReg) : Option Enc :=
  encS .s32 maj min (S32.bits ⟨d, a, 0, 0⟩)

/-- Destination, source, imm17. -/
def eRi (maj : BitVec 7) (min : BitVec 6) (d a : SReg) (imm : BitVec 17) : Option Enc :=
  encS .s32 maj min (S32.bits ⟨d, a, 0, imm⟩)

/-- A branch. -/
def eBr (maj : BitVec 7) (min : BitVec 6) (a b : SReg) (off : BitVec 17) (slot : BitVec 5) : Option Enc :=
  encS .b32 maj min (B32.bits ⟨a, b, off, slot⟩)

/-- A scalar conversion. -/
def eCv (min : BitVec 6) (d a : SReg) (rm : Option Rm) : Option Enc :=
  encS .s32 0x38 min (S32.bits ⟨d, a, 0, 0#14 ++ rmsCode rm⟩)

/-- A scalar atomic. -/
def eAmo (maj : BitVec 7) (op : BitVec 3) (d a b : SReg) (ord : Ord) (wide : Bool) : Option Enc :=
  encS .s32 maj (op ++ ord.code ++ bit1 wide) (S32.bits ⟨d, a, b, 0⟩)

/-- A scalar float operation. -/
def eF3 (maj : BitVec 7) (op : BitVec 5) (wide : Bool) (d a b : SReg) : Option Enc :=
  encS .s32 maj (op ++ bit1 wide) (S32.bits ⟨d, a, b, 0⟩)

/-- A 3-bit register in a 6-bit field. -/
def low6 (r : BitVec 3) : BitVec 6 :=
  r.setWidth 6

/-- A scalar register in a 6-bit field. -/
def sreg6 (r : SReg) : BitVec 6 :=
  r.setWidth 6

/-- Two vector sources. -/
def eVv (maj : BitVec 7) (min : BitVec 6) (a : Vv) : Option Enc :=
  encV a.c .v32 maj min (V32.bits ⟨a.vd, a.va, a.vb, a.m.k, bit1 a.m.sense, modBits a.ty a.sat a.rm false⟩)

/-- A vector and a scalar source. -/
def eVx (maj : BitVec 7) (min : BitVec 6) (a : Vx) : Option Enc :=
  encV a.c .v32 maj min (V32.bits ⟨a.vd, a.va, sreg6 a.sb, a.m.k, bit1 a.m.sense, modBits a.ty a.sat a.rm false⟩)

/-- One vector source. -/
def eV1 (maj : BitVec 7) (min : BitVec 6) (a : V1) : Option Enc :=
  encV a.c .v32 maj min (V32.bits ⟨a.vd, a.va, 0, a.m.k, bit1 a.m.sense, modBits a.ty a.sat a.rm false⟩)

/-- A compare. -/
def eVk (maj : BitVec 7) (min : BitVec 6) (a : Vk) : Option Enc :=
  encV a.c .v32 maj min (V32.bits ⟨low6 a.kd, a.va, a.vb, a.m.k, bit1 a.m.sense, modBits a.ty false none false⟩)

/-- Two vector sources, no modifier. -/
def eVp (maj : BitVec 7) (min : BitVec 6) (a : Vp) : Option Enc :=
  encV a.c .v32 maj min (V32.bits ⟨a.vd, a.va, a.vb, a.m.k, bit1 a.m.sense, 0⟩)

/-- One vector source, no modifier. -/
def eVu (maj : BitVec 7) (min : BitVec 6) (a : Vu) : Option Enc :=
  encV a.c .v32 maj min (V32.bits ⟨a.vd, a.va, 0, a.m.k, bit1 a.m.sense, 0⟩)

/-- A vector and a scalar source, no modifier. -/
def eVs (maj : BitVec 7) (min : BitVec 6) (a : Vs) : Option Enc :=
  encV a.c .v32 maj min (V32.bits ⟨a.vd, a.va, sreg6 a.sb, a.m.k, bit1 a.m.sense, 0⟩)

/-- A reduction. -/
def eRed (min : BitVec 6) (a : Red) : Option Enc :=
  encV a.c .v32 0x4B min
    (V32.bits ⟨sreg6 a.sd, sreg6 a.sa, a.vb, a.m.k, bit1 a.m.sense, modBits a.ty a.sat a.rm a.seed⟩)

/-- Unit-stride memory. -/
def eVmem (maj : BitVec 7) (a : Vmem) : Option Enc :=
  encV a.c .v32 maj 0 (V32.bits ⟨a.vd, sreg6 a.sa, 0, a.m.k, bit1 a.m.sense, a.ty.code ++ 0#5⟩)

/-- Indexed memory. -/
def eVidx (maj : BitVec 7) (min : BitVec 6) (a : Vidx) : Option Enc :=
  encV a.c .v32 maj min (V32.bits ⟨a.vd, sreg6 a.sa, a.vb, a.m.k, bit1 a.m.sense, a.ty.code ++ 0#3 ++ a.sh⟩)

/-- Strided memory. -/
def eVstr (maj : BitVec 7) (a : Vstr) : Option Enc :=
  encV a.c .e64 maj 0 (E64.bits ⟨0, a.sa, a.sb, 0, 0, 0, 0, a.m.k, bit1 a.m.sense, a.vd ++ a.ty.code ++ 0#12⟩)

/-- A merge. -/
def eMerge (op : BitVec 2) (a : Merge) : Option Enc :=
  encV a.c .e64 0x6C (0#3 ++ op ++ bit1 a.dz)
    (E64.bits ⟨a.sd, a.sa, a.sb, 0, 0, a.va, a.vb, 0, 0, a.vd ++ rmsCode a.rm ++ 0#14⟩)

/-- A lane-table load or store. -/
def eVlt (min : BitVec 6) (a : Vlt) : Option Enc :=
  encV a.c .v32 0x6E min (V32.bits ⟨a.vd, 0, a.vb, a.m.k, bit1 a.m.sense, modBits a.ty false none false⟩)

/-- A tile conversion. -/
def eMcvt (min : BitVec 6) (a : Mcvt) : Option Enc :=
  let (sc, vb) : BitVec 2 × BitVec 6 := match a.scale with
    | .none => (0, 0)
    | .tile sb => (1, sreg6 sb)
    | .row vb => (2, vb)
  encV a.c .v32 0x75 min (V32.bits ⟨low6 a.md, low6 a.ms, vb, 0, 0, sc ++ 0#3 ++ bit1 a.sat ++ rmsCode a.rm ++ 0#1⟩)

/-- Tile memory. -/
def eMmem (min : BitVec 6) (a : Mmem) : Option Enc :=
  encV a.c .e64 0x74 min (E64.bits ⟨0, a.sa, a.sb, a.sc, a.se, 0, 0, 0, 0, low6 a.t ++ a.ty.code ++ 0#12⟩)

/-- A vector atomic. -/
def eVamo (op : BitVec 3) (a : Vamo) : Option Enc :=
  encV a.c .e64 0x7A (op ++ a.ord.code ++ bit1 a.ret)
    (E64.bits ⟨0, a.sa, 0, 0, 0, a.va, a.vb, a.m.k, bit1 a.m.sense, a.vd ++ a.sh ++ bit1 a.ra ++ 0#14⟩)

/-- A one-row copy. -/
def eCpy (min : BitVec 6) (a : Cpy) : Option Enc :=
  encV true .e64 0x7C min (E64.bits ⟨a.sd, a.sa, a.sb, a.sc, 0, 0, 0, 0, 0, 0⟩)

/-- A SOLO head in S32. -/
def eSolo (min : BitVec 6) (x : S32) : Option Enc :=
  encV true .s32 0x76 min x.bits

/-- A barrier head. -/
def eBar (min : BitVec 6) (a : SReg) (imm : BitVec 11) : Option Enc :=
  encV true .t16 0x78 min (T16.bits ⟨a, imm⟩)

/-- The head and tail of an instruction, from the encodings of the entries; an event has none. -/
def encode (i : Instr) : Option Enc :=
  match i with
  | .nop => encS .none 0x00 1 0
  | .finish => encS .none 0x00 2 0
  | .ret => encS .none 0x00 3 0
  | .br o s => eBr 0x01 0 0 0 o s
  | .call o s => eBr 0x02 0 0 0 o s
  | .jr d a imm => eRi 0x03 0 d a imm
  | .beq a b o s => eBr 0x04 0 a b o s
  | .bne a b o s => eBr 0x04 1 a b o s
  | .blt a b o s => eBr 0x04 2 a b o s
  | .bge a b o s => eBr 0x04 3 a b o s
  | .bltn a b o s => eBr 0x04 4 a b o s
  | .bgen a b o s => eBr 0x04 5 a b o s
  | .bz a o s => eBr 0x05 0 a 0 o s
  | .bnz a o s => eBr 0x05 1 a 0 o s
  | .sget d n => encS .s32 0x06 0 (S32.bits ⟨d, 0, 0, 0#5 ++ n⟩)
  | .sput n a => encS .s32 0x06 1 (S32.bits ⟨0, a, 0, 0#5 ++ n⟩)
  | .vsetvl d a => eR2 0x07 0 d a
  | .vsettype d a => eR2 0x07 1 d a
  | .vsettypeImm d n => encS .s32 0x07 2 (S32.bits ⟨d, 0, 0, 0#5 ++ n⟩)
  | .qdrain d a => eR2 0x08 0 d a
  | .brk n => encS .t16 0x09 0 (T16.bits ⟨0, n⟩)
  | .trap a n => encS .t16 0x09 1 (T16.bits ⟨a, n⟩)
  | .sysCall d a => eR2 0x0A 0 d a
  | .progMark a n => encS .t16 0x0B 0 (T16.bits ⟨a, n⟩)
  | .taskPost d a b => eR3 0x0C 0 d a b
  | .add d a b => eR3 0x10 0 d a b
  | .sub d a b => eR3 0x10 1 d a b
  | .mul d a b => eR3 0x10 2 d a b
  | .mulh d a b => eR3 0x10 3 d a b
  | .mulhN d a b => eR3 0x10 4 d a b
  | .div d a b => eR3 0x10 5 d a b
  | .divN d a b => eR3 0x10 6 d a b
  | .rem d a b => eR3 0x10 7 d a b
  | .remN d a b => eR3 0x10 8 d a b
  | .addImm d a n => eRi 0x11 0 d a n
  | .subImm d a n => eRi 0x11 1 d a n
  | .mulImm d a n => eRi 0x11 2 d a n
  | .and d a b => eR3 0x12 0 d a b
  | .or d a b => eR3 0x12 1 d a b
  | .xor d a b => eR3 0x12 2 d a b
  | .andn d a b => eR3 0x12 3 d a b
  | .shl d a b => eR3 0x12 4 d a b
  | .shr d a b => eR3 0x12 5 d a b
  | .sar d a b => eR3 0x12 6 d a b
  | .rot d a b => eR3 0x12 7 d a b
  | .andImm d a n => eRi 0x13 0 d a n
  | .orImm d a n => eRi 0x13 1 d a n
  | .xorImm d a n => eRi 0x13 2 d a n
  | .andnImm d a n => eRi 0x13 3 d a n
  | .shlImm d a n => eRi 0x13 4 d a (n.setWidth 17)
  | .shrImm d a n => eRi 0x13 5 d a (n.setWidth 17)
  | .sarImm d a n => eRi 0x13 6 d a (n.setWidth 17)
  | .rotImm d a n => eRi 0x13 7 d a (n.setWidth 17)
  | .min d a b => eR3 0x14 0 d a b
  | .max d a b => eR3 0x14 1 d a b
  | .minN d a b => eR3 0x14 2 d a b
  | .maxN d a b => eR3 0x14 3 d a b
  | .cmpEq d a b => eR3 0x15 0 d a b
  | .cmpNe d a b => eR3 0x15 1 d a b
  | .cmpLt d a b => eR3 0x15 2 d a b
  | .cmpGe d a b => eR3 0x15 3 d a b
  | .cmpLtN d a b => eR3 0x15 4 d a b
  | .cmpGeN d a b => eR3 0x15 5 d a b
  | .cmpEqImm d a n => eRi 0x16 0 d a n
  | .cmpNeImm d a n => eRi 0x16 1 d a n
  | .cmpLtImm d a n => eRi 0x16 2 d a n
  | .cmpGeImm d a n => eRi 0x16 3 d a n
  | .cmpLtNImm d a n => eRi 0x16 4 d a n
  | .cmpGeNImm d a n => eRi 0x16 5 d a n
  | .clz d a => eR2 0x17 0 d a
  | .ctz d a => eR2 0x17 1 d a
  | .pop d a => eR2 0x17 2 d a
  | .bext d a p w => eRi 0x18 0 d a (0#5 ++ p ++ w)
  | .bins d a p w => eRi 0x18 1 d a (0#5 ++ p ++ w)
  | .li d n => encS .w64 0x19 0 (d ++ n)
  | .lih d a n => eRi 0x1A 0 d a (n.setWidth 17)
  | .lea d a b sh n => encS .s32 0x1B 0 (S32.bits ⟨d, a, b, n ++ sh⟩)
  | .ldB d a n => eRi 0x2C 0 d a n
  | .ldH d a n => eRi 0x2C 1 d a n
  | .ldW d a n => eRi 0x2C 2 d a n
  | .ldD d a n => eRi 0x2C 3 d a n
  | .ldBN d a n => eRi 0x2C 4 d a n
  | .ldHN d a n => eRi 0x2C 5 d a n
  | .ldWN d a n => eRi 0x2C 6 d a n
  | .stB b a n => encS .s32 0x2D 0 (S32.bits ⟨0, a, b, n⟩)
  | .stH b a n => encS .s32 0x2D 1 (S32.bits ⟨0, a, b, n⟩)
  | .stW b a n => encS .s32 0x2D 2 (S32.bits ⟨0, a, b, n⟩)
  | .stD b a n => encS .s32 0x2D 3 (S32.bits ⟨0, a, b, n⟩)
  | .amoAdd d a b o w => eAmo 0x2E 0 d a b o w
  | .amoAnd d a b o w => eAmo 0x2E 1 d a b o w
  | .amoOr d a b o w => eAmo 0x2E 2 d a b o w
  | .amoXor d a b o w => eAmo 0x2E 3 d a b o w
  | .amoMin d a b o w => eAmo 0x2E 4 d a b o w
  | .amoMax d a b o w => eAmo 0x2E 5 d a b o w
  | .amoSwp d a b o w => eAmo 0x2E 6 d a b o w
  | .amoCas d a b o w => eAmo 0x2E 7 d a b o w
  | .amoMinN d a b o w => eAmo 0x2F 4 d a b o w
  | .amoMaxN d a b o w => eAmo 0x2F 5 d a b o w
  | .fadd f d a b => eF3 0x34 0 f d a b
  | .fsub f d a b => eF3 0x34 1 f d a b
  | .fmul f d a b => eF3 0x34 2 f d a b
  | .fdiv f d a b => eF3 0x34 3 f d a b
  | .fmin f d a b => eF3 0x34 4 f d a b
  | .fmax f d a b => eF3 0x34 5 f d a b
  | .fma f d a b => eF3 0x35 0 f d a b
  | .fsqrt f d a => eF3 0x36 0 f d a 0
  | .fcmpEq f d a b => eF3 0x37 0 f d a b
  | .fcmpLt f d a b => eF3 0x37 1 f d a b
  | .fcmpLe f d a b => eF3 0x37 2 f d a b
  | .fcmpUn f d a b => eF3 0x37 3 f d a b
  | .fcvtF32F64 d a r => eCv 0 d a r
  | .fcvtF64F32 d a r => eCv 1 d a r
  | .fcvtF32I64 d a r => eCv 2 d a r
  | .fcvtF32N64 d a r => eCv 3 d a r
  | .fcvtF64I64 d a r => eCv 4 d a r
  | .fcvtF64N64 d a r => eCv 5 d a r
  | .fcvtI64F32 d a r => eCv 6 d a r
  | .fcvtN64F32 d a r => eCv 7 d a r
  | .fcvtI64F64 d a r => eCv 8 d a r
  | .fcvtN64F64 d a r => eCv 9 d a r
  | .vadd a => eVv 0x3C 0 a
  | .vsub a => eVv 0x3C 1 a
  | .vmul a => eVv 0x3C 2 a
  | .vmulh a => eVv 0x3C 3 a
  | .vmadd a => eVv 0x3C 4 a
  | .vmin a => eVv 0x3C 5 a
  | .vmax a => eVv 0x3C 6 a
  | .vand a => eVv 0x3D 0 a
  | .vor a => eVv 0x3D 1 a
  | .vxor a => eVv 0x3D 2 a
  | .vshl a => eVv 0x3D 3 a
  | .vshr a => eVv 0x3D 4 a
  | .vsar a => eVv 0x3D 5 a
  | .vaddX a => eVx 0x3E 0 a
  | .vsubX a => eVx 0x3E 1 a
  | .vmulX a => eVx 0x3E 2 a
  | .vmulhX a => eVx 0x3E 3 a
  | .vmaddX a => eVx 0x3E 4 a
  | .vminX a => eVx 0x3E 5 a
  | .vmaxX a => eVx 0x3E 6 a
  | .vandX a => eVx 0x3E 7 a
  | .vorX a => eVx 0x3E 8 a
  | .vxorX a => eVx 0x3E 9 a
  | .vshlX a => eVx 0x3E 10 a
  | .vshrX a => eVx 0x3E 11 a
  | .vsarX a => eVx 0x3E 12 a
  | .vfadd a => eVv 0x3F 0 a
  | .vfsub a => eVv 0x3F 1 a
  | .vfmul a => eVv 0x3F 2 a
  | .vfdiv a => eVv 0x3F 3 a
  | .vfmin a => eVv 0x3F 4 a
  | .vfmax a => eVv 0x3F 5 a
  | .vfma a => eVv 0x40 0 a
  | .vfsqrt a => eV1 0x41 0 a
  | .vfrcpE a => eV1 0x41 1 a
  | .vfaddX a => eVx 0x42 0 a
  | .vfsubX a => eVx 0x42 1 a
  | .vfmulX a => eVx 0x42 2 a
  | .vfdivX a => eVx 0x42 3 a
  | .vfminX a => eVx 0x42 4 a
  | .vfmaxX a => eVx 0x42 5 a
  | .vscale a => eVv 0x43 0 a
  | .vcmpEq a => eVk 0x44 0 a
  | .vcmpNe a => eVk 0x44 1 a
  | .vcmpLt a => eVk 0x44 2 a
  | .vcmpGe a => eVk 0x44 3 a
  | .vcmpLtN a => eVk 0x44 4 a
  | .vcmpGeN a => eVk 0x44 5 a
  | .vcmpFeq a => eVk 0x45 0 a
  | .vcmpFlt a => eVk 0x45 1 a
  | .vcmpFle a => eVk 0x45 2 a
  | .vcmpFun a => eVk 0x45 3 a
  | .vsel a => eVp 0x46 0 a
  | .kand c d a b => encV c .v32 0x47 0 (V32.bits ⟨low6 d, low6 a, low6 b, 0, 0, 0⟩)
  | .kor c d a b => encV c .v32 0x47 1 (V32.bits ⟨low6 d, low6 a, low6 b, 0, 0, 0⟩)
  | .knot c d a => encV c .v32 0x47 2 (V32.bits ⟨low6 d, low6 a, 0, 0, 0, 0⟩)
  | .kpop c d a m => encV c .v32 0x48 0 (V32.bits ⟨sreg6 d, low6 a, 0, m.k, bit1 m.sense, 0⟩)
  | .kfirst c d a m => encV c .v32 0x48 1 (V32.bits ⟨sreg6 d, low6 a, 0, m.k, bit1 m.sense, 0⟩)
  | .vmvSx c d a b ty =>
    encV c .v32 0x49 0 (V32.bits ⟨d, sreg6 a, sreg6 b, 0, 0, modBits ty false none false⟩)
  | .vbcast c d a ty m =>
    encV c .v32 0x49 1 (V32.bits ⟨d, sreg6 a, 0, m.k, bit1 m.sense, modBits ty false none false⟩)
  | .vmvXs c d a b => encV c .v32 0x4A 0 (V32.bits ⟨sreg6 d, a, sreg6 b, 0, 0, 0⟩)
  | .vredAddO a => eRed 0 a
  | .vredAddT a => eRed 1 a
  | .vredMin a => eRed 2 a
  | .vredMax a => eRed 3 a
  | .vcvtH a => eV1 0x4C 0 a
  | .vcvtD a => eV1 0x4C 1 a
  | .vcvtF32E2m1 a => eV1 0x4D 0 a
  | .vtag c d a ty => encV c .v32 0x4E 0 (V32.bits ⟨d, a, 0, 0, 0, modBits ty false none false⟩)
  | .vld a => eVmem 0x5C a
  | .vlds a => eVstr 0x5D a
  | .vldx a => eVidx 0x5E 0 a
  | .vst a => eVmem 0x5F a
  | .vsts a => eVstr 0x60 a
  | .vstxO a => eVidx 0x61 0 a
  | .vstxN a => eVidx 0x61 1 a
  | .vldc a =>
    encV a.c .e64 0x62 0 (E64.bits ⟨0, a.sa, 0, 0, 0, 0, 0, a.m.k, bit1 a.m.sense, a.vd ++ a.ty.code ++ 0#12⟩)
  | .vstc a =>
    encV a.c .e64 0x63 0
      (E64.bits ⟨a.sd, a.sa, a.sb, 0, 0, 0, 0, a.m.k, bit1 a.m.sense, a.vd ++ 0#16 ++ bit1 a.q⟩)
  | .vfwdRes a => eVu 0x64 0 a
  | .vperm a => eVp 0x68 0 a
  | .vzip a => eVp 0x68 1 a
  | .vunzip a => eVu 0x68 2 a
  | .vslideUp a => eVs 0x69 0 a
  | .vslideDn a => eVs 0x69 1 a
  | .vrepBlk a => eVu 0x6A 0 a
  | .vcompress a => eVu 0x6A 1 a
  | .vexpand a => eVu 0x6A 2 a
  | .vscanAdd a => eV1 0x6B 0 a
  | .vscanAddx a => eV1 0x6B 1 a
  | .vmergeUAdd a => eMerge 0 a
  | .vmergeUSub a => eMerge 1 a
  | .vmergeUMax a => eMerge 2 a
  | .vxch a =>
    encV a.c .e64 0x6D 0 (E64.bits ⟨a.sd, a.sa, a.sb, 0, 0, a.va, 0, a.m.k, bit1 a.m.sense, a.vd ++ 0#17⟩)
  | .vltLd a => eVlt 0 a
  | .vltSt a => eVlt 1 a
  | .vltFill a => encV a.c .v32 0x6E 2 (V32.bits ⟨a.vd, 0, sreg6 a.sb, a.m.k, bit1 a.m.sense, 0⟩)
  | .mzero c t ty => encV c .v32 0x70 0 (V32.bits ⟨low6 t, 0, 0, 0, 0, modBits ty false none false⟩)
  | .mtag c t ty => encV c .v32 0x70 1 (V32.bits ⟨low6 t, 0, 0, 0, 0, modBits ty false none false⟩)
  | .vopa a =>
    encV a.c .v32 0x71 0 (V32.bits ⟨low6 a.t, a.va, a.vb, a.m.k, bit1 a.m.sense, a.ty.code ++ a.rep ++ 0#2⟩)
  | .vopaS a =>
    encV a.c .e64 0x72 0
      (E64.bits ⟨0, 0, 0, 0, 0, a.va, a.vb, a.m.k, bit1 a.m.sense, a.vsa ++ a.vsb ++ a.t ++ a.rep ++ a.ty.code⟩)
  | .mrd a => encV a.c .v32 0x73 0 (V32.bits ⟨a.v, low6 a.t, sreg6 a.sb, a.m.k, bit1 a.m.sense, 0⟩)
  | .mwr a => encV a.c .v32 0x73 1 (V32.bits ⟨low6 a.t, a.v, sreg6 a.sb, a.m.k, bit1 a.m.sense, 0⟩)
  | .mld a => eMmem 0 a
  | .mst a => eMmem 1 a
  | .mcvtI32Trio a => eMcvt 0 a
  | .mcvtF32I32 a => eMcvt 1 a
  | .mcvtBf16F32 a => eMcvt 2 a
  | .acq d a b => eSolo 0 ⟨d, a, b, 0⟩
  | .rel d a => eSolo 1 ⟨d, a, 0, 0⟩
  | .syncBind d a b sc => eSolo 2 ⟨d, a, b, 0#15 ++ sc.code⟩
  | .syncUnbind a => eSolo 3 ⟨0, a, 0, 0⟩
  | .fenceG => encV true .none 0x77 0 0
  | .fenceD => encV true .none 0x77 1 0
  | .fenceS => encV true .none 0x77 2 0
  | .barInit a n => eBar 0 a (n.setWidth 11)
  | .barArr a => eBar 1 a 0
  | .barArrRlx a => eBar 2 a 0
  | .barDrop a => eBar 3 a 0
  | .barWait a => eBar 4 a 0
  | .vwait a =>
    encV true .e64 0x79 0 (E64.bits ⟨a.sd, 0, a.sb, 0, 0, a.va, a.vb, a.m.k, bit1 a.m.sense, a.kd ++ 0#20⟩)
  | .vamoAdd a => eVamo 0 a
  | .vamoAnd a => eVamo 1 a
  | .vamoOr a => eVamo 2 a
  | .vamoXor a => eVamo 3 a
  | .vamoMin a => eVamo 4 a
  | .vamoMax a => eVamo 5 a
  | .vamoSwp a => eVamo 6 a
  | .vamoCas a => eVamo 7 a
  | .winOpen a b c ty => encV true .e64 0x7B 0 (E64.bits ⟨0, a, b, c, 0, 0, 0, 0, 0, 0#6 ++ ty.code ++ 0#12⟩)
  | .vwaccAdd a =>
    encV a.c .e64 0x7B 1
      (E64.bits ⟨0, 0, 0, 0, 0, a.va, a.vb, a.m.k, bit1 a.m.sense, 0#6 ++ rmsCode a.rm ++ a.sh ++ 0#12⟩)
  | .winMerge => encV true .e64 0x7B 2 0
  | .winClose => encV true .e64 0x7B 3 0
  | .cpy a => eCpy 0 a
  | .cpy2d a =>
    encV true .e64 0x7C 1 (E64.bits ⟨a.sd, a.sa, a.sb, a.sc, a.se, 0, 0, 0, 0, a.sf ++ a.sg ++ 0#13⟩)
  | .cpyFl a => eCpy 2 a
  | .cpyMove a => eCpy 3 a
  | .tokPoll d a => eR2 0x7D 0 d a
  | .fwdRes d a => eR2 0x7E 0 d a
  | .fwdCmp d a b => eR3 0x7E 1 d a b
  | .fwdStat d a => eR2 0x7E 2 d a
  | .fwdRelink a => eR2 0x7E 3 0 a
  | .fwdClear a => eR2 0x7E 4 0 a
  | .tierHint a b ti => encS .s32 0x7F 0 (S32.bits ⟨0, a, b, 0#15 ++ ti.code⟩)
  | _ => none

/-- The class of an instruction, from its encoding (R153, R155). -/
def Instr.cls (i : Instr) : Cls :=
  match encode i with
  | some e => let h := Head.of e.head; clsOf h.major.toNat h.minor.toNat
  | none => .s

end Sys2Proof
end

