-- ==== Sys2Proof/Machine/State.lean ====
section
/-!
DEFINITION. The state of the package (spec/01_execution.md, 02_state.md, 04_memory.md, 05_forwarding.md, 18_privileged.md to
21_platform.md), the reasons a step stops, and the state after reset. Plain data: no field is a function.
-/

namespace Sys2Proof.Machine

/-- Why the machine stops.
* `noStrand`: raised by the meaning of an instruction of a strand when no strand is dispatching. `step` calls such a
  meaning only for the strand that dispatches, so no step raises it. Safe: nothing runs. -/
inductive Fault where
  | noStrand
  deriving DecidableEq, Repr

/-- Why the model has no next state.
* `notModelled`: raised by an arm of `exec` whose instruction has no meaning yet. Safe: nothing runs. -/
inductive Refusal where
  | notModelled (mnemonic : String)
  deriving DecidableEq, Repr

/-! ## Storage of a strand -/

/-- A vector register: its bits and its format tag. The slice of lane l lies in bits [512 l + 511 : 512 l] (R37, R50). -/
structure VecReg where
  tag  : Tag
  bits : VBits
  deriving DecidableEq, Repr

/-- A tile: element (i, j) in bits [32 (128 i + j) + 31 : 32 (128 i + j)] (R49). -/
structure Tile where
  tag  : Tag
  bits : TBits
  deriving DecidableEq, Repr

/-- The accumulation window (R275, R345). -/
structure Window where
  base : Word
  size : Nat
  off  : Nat
  ty   : Tag
  deriving DecidableEq, Repr

/-- A line of the line buffer (R107): the requested line address, the home line it came from, its data. -/
structure BufLine where
  va   : Nat
  home : Nat
  data : BitVec 1024
  deriving DecidableEq, Repr

/-- The vector and mask registers as a stopped convoy captured them: a resumed instruction checks and reads its sources
there, so that it computes what it would have computed without the stop (R27, R159). -/
structure Captured where
  v : Vector VecReg 64
  k : Vector KBits 8
  deriving DecidableEq, Repr

/-- A VIQ entry (R343): the instruction, which stands for HEAD and TAIL, and what dispatch recorded. `pos` is where it resumes
(R26), `perf` its performed elements (R271), `done` whether its convoy has performed it, `result` the value it delivers to a
scalar register (R20), `given` whether a waiting head has already received it (R161), `cap` the registers a stopped convoy
captured, `pins` the home bytes it has read already because a younger load has read them (R285), `subs` the sub-operations of a
vector atomic that have reached their homes, by attribute (R270, R404); a stop keeps both (log 90). `gen` numbers the writer of
`vl` it follows, so that a trim reaches the entries that follow the load and no others (R44); `fin` is true once it has acted
at its place in the last group while its convoy still waits for a vector atomic; `left` holds the beats a `vwait` still has
when it resumes (R268, R341). -/
structure Entry where
  i      : Instr
  pc     : Word
  cs     : Bool
  vl     : Nat
  vtype  : BitVec 12
  ops    : List Word
  pos    : Nat
  perf   : List Nat
  done   : Bool
  result : Option (SReg × Word)
  given  : Bool
  cap    : Option Captured
  gen    : Nat
  fin    : Bool
  left   : Option Nat
  pins   : List Host.Cell
  subs   : List Nat
  deriving DecidableEq, Repr

/-- What a trap or a fault reports (R338, R341): `side` is true for a fault of the scalar side; `pc` is the faulting
instruction's, which its notice names (R348). -/
structure Trapped where
  cause : Cause
  addr  : Word
  value : Word
  elem  : Nat
  side  : Bool
  pc    : Word
  deriving DecidableEq, Repr

/-- A vector fault that waits for `vcp` to reach it (R18): its position in the VIQ and its record fields. -/
structure VFault where
  index : Nat
  info  : Trapped
  epr   : Nat
  perf  : Option (List Nat)
  deriving DecidableEq, Repr

/-- What a strand waits for after a waiting instruction (R25, R155). -/
inductive Wait where
  | none
  /-- `bar.wait` on a barrier until its counter passes `phase` (R266) -/
  | barrier (bid : Nat) (phase : Word)
  /-- `vwait`: the watched words (element, virtual address, target) and the beats left (R268) -/
  | flags (words : List (Nat × Word × Word)) (left : Nat)
  /-- `acq` of the object at `obj` until its value meets `target` (R261) -/
  | object (obj target : Word)
  /-- a fence, until every older access has been performed (R262) -/
  | fence
  /-- `qdrain` of a queue (R191) -/
  | queue (q : Nat) (sd : SReg)
  deriving DecidableEq, Repr

/-- Whether a strand runs (R29, R348, R376): `ending` after `end` has been dispatched, `struck` once an access of it has
met a soft error, until its gang rolls back (R361). -/
inductive Status where
  | running | trapped | ending | ended | struck
  deriving DecidableEq, Repr

/-- A copy remainder as a restart record keeps it (R344). -/
structure Remainder where
  form  : BitVec 2
  token : SReg
  ndst  : Word
  nsrc  : Word
  left  : Nat
  rows  : Nat
  rowb  : Nat
  dstr  : Word
  sstr  : Word
  done  : Nat
  deriving DecidableEq, Repr

/-- The restart record (R341 to R344). `queue` is the queue a strand waits for in `qdrain`, which VALUE then holds; what the cause
would put into VALUE stays in `info`, for the repair and the notice (R135). -/
structure Record where
  pcNext : Word
  info   : Trapped
  vcp    : BitVec 32
  tokp   : BitVec 32
  resv   : BitVec 32
  vtype  : BitVec 12
  vl     : Nat
  epr    : Nat
  waitq  : Bool
  queue  : Word
  perf   : Option (List Nat)
  s      : Vector Word 32
  fstat  : BitVec 7
  prog   : BitVec 32
  stlMem : Word
  viq    : List Entry
  copies : List Remainder
  deriving DecidableEq, Repr

/-- An exchange a strand offers (R231): the peer's `tid`, the width of its elements, its source elements, its tag, and
the beat of the offer. -/
structure Xoffer where
  peer  : Nat
  key   : Word
  vl    : Nat
  ew    : Nat
  tag   : Tag
  data  : List Word
  since : Nat
  deriving DecidableEq, Repr

/-- How an exchange ended (R231): the status and, where it matched, the peer's elements and tag. -/
structure Xdone where
  status : Word
  tag    : Tag
  data   : List Word
  deriving DecidableEq, Repr

/-- Where the exchange of a convoy stands (R231). -/
inductive Xstate where
  | none
  | offered (o : Xoffer)
  | ended (d : Xdone)
  deriving DecidableEq, Repr

/-- Where a strand runs and who it is (R12, R374): `sid` is the slot of its lowest quarter,
96 × physical cluster + 4 × physical core + quarter. -/
structure Ident where
  sid    : Nat
  handle : BitVec 16
  asid   : BitVec 16
  part   : BitVec 2
  tid    : Nat
  gsz    : Nat
  gid    : BitVec 32
  pclus  : Nat
  pcore  : Nat
  clus   : Nat
  core   : Nat
  qmask  : BitVec 4
  deriving DecidableEq, Repr

/-- The scalar side as it stands at a head, to which a fault of an access returns (R165). -/
structure Checkpoint where
  s     : Vector Word 32
  pc    : Word
  seq   : Bool
  fstat : BitVec 7
  prog  : BitVec 32
  vl    : Nat
  vtype : BitVec 12
  gen   : Nat
  deriving DecidableEq, Repr

/-- A scalar access that has not delivered (R164): its request, its register, the width and extension of its value, its
requested address, whether it writes, whether it holds later accesses back (R177). Every head after it is provisional
(R165): `back` is the scalar side at the access, `ahead` the VIQ entries older than it. -/
structure Access where
  rid   : Nat
  sd    : SReg
  n     : Nat
  sext  : Bool
  va    : Word
  wr    : Bool
  acq   : Bool
  back  : Checkpoint
  ahead : Nat
  deriving DecidableEq, Repr

/-- Where a convoy is to stop before its end (R26): at a pre-emption, or at a fault, with the elements that may be performed
above it (R271). -/
inductive Cut where
  | pause
  | fault (info : Trapped) (above : List Nat)
  deriving DecidableEq, Repr

/-- The lanes and tiles of a strand as they stand before the group whose vector atomic is on its way: a fault found at its
lines leaves the elements from the faulting one on as they were (R26, R271). -/
structure Before where
  v      : Vector VecReg 64
  k      : Vector KBits 8
  m      : Vector Tile 8
  lflags : BitVec 2048
  lane   : Vector (BitVec 8192) 256
  deriving DecidableEq, Repr

/-- A value `vlt.fill` has written to every lane's store: the element, the bit offset, the width, the value (R232). -/
structure Fill where
  e : Nat
  off : Nat
  w : Nat
  x : Nat
  deriving DecidableEq, Repr

/-- The vector atomic of the first convoy while elements of it are on their way (R270, R271): `vl`, the boundary and the cut
its convoy runs to, the end of the group, the strand before the group, the elements sent with their requests and addresses,
those that have returned with old values and flags, those whose lines faulted (cause, address, VALUE), the attribute of each
element's page, which says what sub-operation it belongs to (R270), and what `vlt.fill` has written in the group. -/
structure VecAmo where
  vl   : Nat
  stop : Nat
  cut  : Option Cut
  hi   : Nat
  back : Before
  sent : List (Nat × Nat × Word)
  got  : List (Nat × Word × BitVec 7)
  bad  : List (Nat × Cause × Word × Word)
  attrs : List (Nat × Nat)
  fills : List Fill
  deriving DecidableEq, Repr

/-- A resident strand (spec/02_state.md). `seq` is false where a transfer named `pc` (R151); `notice` is true once a trap has
been answered for or its notice written (R348), `unrepaired` once its repair has failed (R135); `stalled` is true for the rest
of the beat behind a head that waits (R22), `qstall` behind what waits first in the VIQ, `moved` once it has dispatched a head
or completed an entry in this beat (R381); `held` is the line at whose home an access of its queue waits, `hold` that of the
head at its PC, each since a beat (R399, R416); `arrs` is the phase of the last arrival at each barrier (R266); `gen` counts
the writers of `vl` and `vtype` (R44); `busy` is true while a forwarding instruction, `sys.call` or `task.post` of the strand
is in progress (R197); `ibuf` holds the lines it has fetched since its last fence, whose old content a later fetch may still
return (R152). -/
structure Strand where
  id     : Ident
  -- scalar side
  s      : Vector Word 32
  pc     : Word
  seq    : Bool
  fstat  : BitVec 7
  prog   : BitVec 32
  stlMem : Word
  tokp   : BitVec 32
  -- vector side
  vl     : Nat
  vtype  : BitVec 12
  v      : Vector VecReg 64
  k      : Vector KBits 8
  m      : Vector Tile 8
  lflags : BitVec 2048
  lane   : Vector (BitVec 8192) 256
  win    : Option Window
  -- queues
  viq    : List Entry
  vcp    : BitVec 32
  copen  : Bool
  fresh  : Bool
  rq     : List (SReg × Word)
  vfault : Option VFault
  xch    : Xstate
  acc    : Option Access
  vamo   : Option VecAmo
  lbuf   : List BufLine
  ibuf   : List (Nat × BitVec 512)
  -- control
  status : Status
  wait   : Wait
  record : Option Record
  notice : Bool
  unrepaired : Bool
  stalled : Bool
  qstall : Bool
  moved  : Bool
  held   : Option (Nat × Nat)
  arrs   : List (Nat × Word)
  gen    : Nat
  busy   : Bool
  hold   : Option (Nat × Nat)
  deriving DecidableEq, Repr

/-! ## Memory and what travels to its homes -/

/-- The states of a line (R119); a line no list names is never produced. -/
inductive LineState where
  | plain | inMove | forwarded
  deriving DecidableEq, Repr

/-- Who makes an access: the head of a strand, what stands first in its VIQ, a request of it on its way, a copy, or an event of
the scheduler or the host (R351, R24); `outside` has a key: 0 to 3 a partition, 4 to 7 the TLB_INVALIDATE of one, from 16 a line of
the host's window. -/
inductive Agent where
  | strand (sid : Nat)
  | queue (sid : Nat)
  | request (sid rid : Nat)
  | copy (cid : Nat)
  | outside (key : Nat)
  deriving DecidableEq, Repr

/-- How far a fault service has come (R351). -/
inductive SvcState where
  | waiting | retried | denied | migWait
  deriving DecidableEq, Repr

/-- A fault service (R351, R356): who waits, the page, the answers so far, the subcode of TABLE (0 for PAGE), the
package asked, the MIG attempts, the beat in which the last of them met the node. -/
structure Svc where
  who   : Agent
  asid  : BitVec 16
  page  : Nat
  sub   : Nat
  owner : Nat
  tries : Nat
  mig   : Nat
  state : SvcState
  since : Nat
  deriving DecidableEq, Repr

/-- A cached translation (R357): the address space, the base and the size of the page, its entry. -/
structure TlbEntry where
  asid : BitVec 16
  base : Nat
  size : Nat
  pte  : Word
  deriving DecidableEq, Repr

/-- What a request asks of a home (R174, R176, R270): `fadd` is a vector atomic's float add, with `.reassoc` or without. -/
inductive ReqKind where
  | load
  | store
  | amo (op : AmoOp)
  | fadd (ra : Bool)
  deriving DecidableEq, Repr

/-- A scalar access or an element of a vector atomic on its way (R284, R272): who made it, its address and resolved home byte,
its operands, the keystones still ahead of it and the port at the next one, the lines that have redirected it (R136). `again`
sends it back to its requested address after a service on the way (R123); `stalled` holds it for the rest of a tick; `vec`
marks an element of a vector atomic and `attr` the sub-operation it belongs to (R270); `tried` is true once its home has taken
it up; `held` is the line it waits at and since which beat (R399, R416); `delay` counts the ticks it still spends on the host
link (R391). -/
structure Request where
  rid   : Nat
  sid   : Nat
  part  : BitVec 2
  asid  : BitVec 16
  kind  : ReqKind
  n     : Nat
  ord   : Ord
  va    : Word
  home  : Nat
  hops  : Nat
  data  : Word
  cmp   : Word
  port  : Nat
  route : List (Nat × Nat)
  via   : List Nat
  again : Bool
  stalled : Bool
  vec   : Bool
  attr  : Nat
  tried : Bool
  held  : Option (Nat × Nat)
  delay : Nat
  deriving DecidableEq, Repr

/-- An entry of a wait buffer (R273): the combined request, its two parts, the operand of the left part, what is combined,
the flags its fold raised. -/
structure WaitEntry where
  rid   : Nat
  left  : Nat
  right : Nat
  opnd  : Word
  kind  : ReqKind
  n     : Nat
  flags : BitVec 7
  deriving DecidableEq, Repr

/-- What comes back for a request: its value, or the cause and VALUE of its fault. -/
inductive Answer where
  | value (v : Word)
  | fault (c : Cause) (value : Word)
  deriving DecidableEq, Repr

/-- A reply on its way (R397), with the flags of a float add (R270). -/
structure Reply where
  rid   : Nat
  ans   : Answer
  flags : BitVec 7
  deriving DecidableEq, Repr

/-- A keystone (R272, R396): the requests of this tick, its wait buffer, combined requests that came back as redirects. -/
structure Keystone where
  ks    : Nat
  queue : List Request
  buf   : List WaitEntry
  redir : List Request
  deriving DecidableEq, Repr

/-- A line in move (R128): the source line and the hops to it. -/
structure Moving where
  src  : Nat
  hops : Nat
  deriving DecidableEq, Repr

/-- An unfinished copy (R110, R279): its owner, or none for the tier manager (R117), its remainder, the line in move, the
line its access waits at and since which beat. -/
structure CopyOp where
  cid    : Nat
  owner  : Option Nat
  asid   : BitVec 16
  mover  : BitVec 32
  rem    : Remainder
  moving : Option Moving
  stalled : Bool
  held   : Option (Nat × Nat)
  deriving DecidableEq, Repr

/-! ## Gangs, tasks, Talus -/

/-- A binding (R258, R368). -/
structure Binding where
  base  : Word
  len   : Word
  obj   : Word
  scope : Scope
  deriving DecidableEq, Repr

/-- How an arrival arrives (R264). -/
inductive ArrKind where
  | arr | rlx | drop
  deriving DecidableEq, Repr

/-- An arrival on its way to a barrier (R264): the gang and `tid` of the strand that arrives. -/
structure Arrival where
  bid  : Nat
  who  : BitVec 16 × Nat
  kind : ArrKind
  deriving DecidableEq, Repr

/-- A live barrier (R263, R345). -/
structure Barrier where
  bid      : Nat
  obj      : Nat
  va       : Word
  handle   : BitVec 16
  pclus    : Nat
  made     : Nat
  expected : Nat
  counter  : Word
  arrived  : List (BitVec 16 × Nat)
  drops    : Nat
  held     : List Arrival
  deriving DecidableEq, Repr

/-- Where a bound gang stands (R376): `failing` once it has been stopped for good, until its completion word, with that
status, is written (R362, R379). -/
inductive GangState where
  | bound | running | saving | saved
  | failing (status : Nat)
  deriving DecidableEq, Repr

/-- A bound task (R9, R374): `started` once its strands have been dispatched, before which its queue's next task waits (R32);
`boundAt` is the beat of its bind (R372). -/
structure Gang where
  handle   : BitVec 16
  card     : Nat
  g        : Nat
  asid     : BitVec 16
  part     : BitVec 2
  state    : GangState
  kind     : BitVec 2
  bind     : BitVec 512
  bindings : List Binding
  flags    : BitVec 7
  resident : Nat
  idle     : Nat
  answers  : List (BitVec 2 × Nat × Nat)
  started  : Bool
  boundAt  : Nat
  deriving DecidableEq, Repr

/-- A footprint region (R368). -/
structure Region where
  base : Nat
  len  : Nat
  r    : Bool
  w    : Bool
  deriving DecidableEq, Repr

/-- An unfinished card (R364, R370): its 1,024 bits, the lists copied at acceptance, the cards it depends on, the tasks
started, completed, requeued, the rollbacks of each, and the beat of its acceptance (R372). -/
structure Card where
  cid     : Nat
  asid    : BitVec 16
  queue   : Nat
  bits    : BitVec 1024
  foot    : List Region
  binds   : List Binding
  after   : List Nat
  started : Nat
  done    : Nat
  requeue : List Nat
  rolled  : List Nat
  at_     : Nat
  deriving DecidableEq, Repr

/-- A hardware queue (R34, R372, R373, R421): the address space it is open to, its weight, for each class its round and the starts it
has made in it, the class in whose rounds it takes part, when its head task began to wait, the promotions that head has had. -/
structure Queue where
  num    : Nat
  asid   : BitVec 16
  weight : BitVec 4
  round  : Vector Nat 4
  used   : Vector Nat 4
  serves : Option (Fin 4)
  since  : Nat
  promos : Nat
  deriving DecidableEq, Repr

/-- A task offered to the supervisor (R373, R374). -/
structure Offer where
  handle : BitVec 16
  card   : Nat
  g      : Nat
  deriving DecidableEq, Repr

/-- A saved strand (R340, R345): the gang, the slots of its quarters, its record, and what of its state no byte of the vault
holds; whether its context has been spilled to HBM (R383). -/
structure Saved where
  handle  : BitVec 16
  slots   : List Nat
  spilled : Bool
  ctx     : Strand
  record  : Record
  deriving DecidableEq, Repr

/-- A save in progress (R383, R388). -/
structure Save where
  handle : BitVec 16
  since  : Nat
  deriving DecidableEq, Repr

/-- What Talus has decided for a gang of a target (R386). -/
inductive Decision where
  | run | discard | checkpoint | kill
  deriving DecidableEq, Repr

/-- An accepted vacate record (R384 to R387, R422): its handle, target and deadline, each gang's decision and the
time Talus acts on it, the counts of its report, whether it has been reported. -/
structure Vacate where
  handle   : BitVec 8
  parts    : BitVec 4
  clus     : BitVec 24
  deadline : Nat
  forced   : Bool
  gangs    : List (BitVec 16 × Decision × Nat)
  counts   : List Nat
  reported : Bool
  deriving DecidableEq, Repr

/-- What the supervisor is told (R387, R381, R383, R412): `spilled` names the HBM address of a gang's spilled context. -/
inductive Report where
  | vacated (handle : BitVec 8) (at3 : Nat) (run saved discarded killed : Nat)
  | cancelled (handle : BitVec 8) (run saved discarded killed : Nat)
  | rejected
  | accepted (handle : BitVec 8)
  | hang (handle : BitVec 16)
  | thermalTrip
  | saved (handle : BitVec 16)
  | spilled (handle : BitVec 16) (addr : Nat)
  deriving DecidableEq, Repr

/-- The completion of a deferrable write (R364). -/
inductive Completion where
  | none | success | retry | unsupported
  deriving DecidableEq, Repr

/-- A fault notice written to the fault ring (R348, R382): the address space, its number in the ring, the trapped
strand's gang and `tid`, the cause. -/
structure Notice where
  asid   : BitVec 16
  n      : BitVec 32
  handle : BitVec 16
  tid    : Nat
  cause  : Cause
  deriving DecidableEq, Repr

/-- A submission page (R363). -/
structure Page where
  asid    : BitVec 16
  part    : BitVec 2
  scrBase : Word
  scrSize : Word
  scrHead : BitVec 32
  scrTail : BitVec 32
  frBase  : Word
  frSize  : Word
  frHead  : BitVec 32
  frTail  : BitVec 32
  drops   : Word
  deriving DecidableEq, Repr

/-- The registers of a virtual function (R405, R406). -/
structure Vf where
  reset : Word
  error : Word
  deriving DecidableEq, Repr

/-- A queue pair (R400 to R402): its number and context, the heads and tails of its queues, the completion that is due: its
queue, its address, its value. -/
structure Qp where
  qp    : Nat
  ctx   : BitVec 512
  shead : BitVec 32
  stail : BitVec 32
  rhead : BitVec 32
  rtail : BitVec 32
  done  : Option (Bool × Word × Word)
  deriving DecidableEq, Repr

/-! ## Platform -/

/-- An event record (R417): source, kind, number within the source, time, data. -/
structure EvRecord where
  source : BitVec 16
  kind   : BitVec 16
  seq    : BitVec 32
  time   : Word
  data   : BitVec 128
  deriving DecidableEq, Repr

/-- An announced allowance (R414): the group, the value, the time from which it holds in thirds of ns. -/
structure Announced where
  group : Nat
  allow : BitVec 8
  at3   : Nat
  deriving DecidableEq, Repr

/-- The mode of a second-tier port (R393). -/
inductive PortMode where
  | none | cxl | nvme
  deriving DecidableEq, Repr

/-- An HDM decoder (R392): the host addresses it decodes, the physical address in HBM4E they begin at. -/
structure Hdm where
  base  : Nat
  size  : Nat
  paddr : Nat
  deriving DecidableEq, Repr

/-- A range of an address space that the placement map fixes in its tier (R311). -/
structure Placed where
  asid : BitVec 16
  base : Word
  len  : Nat
  deriving DecidableEq, Repr

/-- Boot status and measurements (R407 to R409, R411): `window` and `serial` hold the firmware stages in the host link's expansion
window and in the serial flash, `written` that this start began from a stage written to the window (R408), `identity` the seeds of
the identity key of this start, `since` the beat the start began. -/
structure Boot where
  hbm     : BitVec 12
  dies    : BitVec 4
  reason  : BitVec 8
  stage   : BitVec 8
  fails   : BitVec 2
  minimal : Bool
  done    : Bool
  starting : Bool
  waitStage : Bool
  update  : Bool
  measure : Vector (BitVec 256) 8
  window  : List (List Byte)
  serial  : List (List Byte)
  written : Bool
  identity : BitVec 768
  since   : Nat
  deriving DecidableEq, Repr

/-- Temperature band of a stack (R415) and how long it has been offline. -/
structure Stack where
  band  : BitVec 2
  since : Nat
  deriving DecidableEq, Repr

/-- A die's place in a throttle group (R414): its last request and the allowance in force. Dies 0 to 3 are the package's own,
dies of other packages of the ridge domain have numbers from 4 on. -/
structure Die where
  group   : Nat
  request : BitVec 8
  allow   : BitVec 8
  deriving DecidableEq, Repr

/-! ## The package -/

/-- The state of one package and of what stands at its links. -/
structure State where
  strands   : List Strand
  -- memory
  mem       : List Host.Cell
  lines     : List (Nat × LineState)
  redirects : List (Nat × Nat)
  soft      : List Nat
  roots     : List (BitVec 16 × Nat)
  tlb       : List TlbEntry
  owners    : List (Nat × BitVec 128)
  svcs      : List Svc
  requests  : List Request
  replies   : List Reply
  keystones : List Keystone
  copies    : List CopyOp
  nextRid   : Nat
  nextCid   : Nat
  -- gangs, tasks, Talus
  gangs     : List Gang
  barriers  : List Barrier
  arrivals  : List Arrival
  cards     : List Card
  queues    : List Queue
  offers    : List Offer
  slots     : List (Nat × Word)
  vault     : List Saved
  vaultMem  : List Host.Cell
  spillNext : Nat
  saves     : List Save
  vacates   : List Vacate
  watchdog  : Nat
  reports   : List Report
  nextCard  : Nat
  nextBid   : Nat
  placement : List Placed
  -- host interface
  pages     : List Page
  notices   : List Notice
  vfs       : Vector Vf 4
  completion : Completion
  hostReply : List Byte
  hdm       : List (Nat × Hdm)
  ports     : Vector PortMode 16
  -- fabric
  qps       : List Qp
  routes    : Vector (BitVec 4) 64
  linkUp    : BitVec 16
  pkg       : BitVec 6
  -- platform
  tick      : Nat
  time3     : Nat
  timeValid : Bool
  dies      : Vector Die 4
  foreign   : List (Nat × Die)
  leaders   : List (Nat × Nat)
  announced : List Announced
  hbm       : Vector Stack 12
  inlet     : Nat
  halted    : Bool
  boot      : Boot
  events    : List EvRecord
  -- the model's own: who dispatches next, the inputs that wait, the keys (Agent.outside) whose access waits for the rest of
  -- the tick and the lines those accesses wait at, the counter of the free values
  cur       : Option Nat
  phase     : Nat
  core      : Nat
  heads     : Nat
  agenda    : List Instr
  blocked   : List Nat
  outHeld   : List (Nat × Nat × Nat)
  freeCtr   : Nat
  deriving DecidableEq, Repr

/-- The package right after reset: nothing is bound, resident, queued or in flight; memory lists nothing.
The values the spec does not give are those of log 8. -/
def State.reset : State where
  strands := []
  mem := []
  lines := []
  redirects := []
  soft := []
  roots := []
  tlb := []
  owners := []
  svcs := []
  requests := []
  replies := []
  keystones := []
  copies := []
  nextRid := 0
  nextCid := 0
  gangs := []
  barriers := []
  arrivals := []
  cards := []
  queues := []
  offers := []
  slots := []
  vault := []
  vaultMem := []
  spillNext := 0
  saves := []
  vacates := []
  watchdog := 0
  reports := []
  nextCard := 0
  nextBid := 0
  placement := []
  pages := []
  notices := []
  vfs := Vector.replicate 4 ⟨0, 0⟩
  completion := .none
  hostReply := []
  hdm := []
  ports := Vector.replicate 16 .none
  qps := []
  routes := Vector.ofFn fun i => BitVec.ofNat 4 i.val
  linkUp := 0xFFFF
  pkg := 0
  tick := 0
  time3 := 0
  timeValid := false
  dies := Vector.replicate 4 ⟨0, 255, 255⟩
  foreign := []
  leaders := []
  announced := []
  hbm := Vector.replicate 12 ⟨0, 0⟩
  inlet := 20
  halted := false
  boot := ⟨0, 0, 0, 0, 0, false, false, false, false, false, Vector.replicate 8 0, [], [], false, 0, 0⟩
  events := []
  cur := none
  phase := 0
  core := 0
  heads := 0
  agenda := []
  blocked := []
  outHeld := []
  freeCtr := 0

end Sys2Proof.Machine
end

