-- ==== Sys2Proof/Machine/Bits.lean ====
section
/-!
DEFINITION. Bit fields, byte lists and lists keyed by numbers, on which the operations of the machine rest.
-/

namespace Sys2Proof.Machine

/-! ## Fields of wide words -/

/-- Bits [off + w - 1 : off] of `x` replaced by `y`. -/
def setSlice {n w : Nat} (x : BitVec n) (off : Nat) (y : BitVec w) : BitVec n :=
  (x &&& ~~~((BitVec.allOnes w).setWidth n <<< off)) ||| (y.setWidth n <<< off)

/-- A field of a word as a number. -/
def fieldNat {n : Nat} (x : BitVec n) (off w : Nat) : Nat :=
  (x.extractLsb' off w).toNat

/-- One bit of a word. -/
def bitAt {n : Nat} (x : BitVec n) (i : Nat) : Bool :=
  x.getLsbD i

/-- The signed value of the low `w` bits of a number. -/
def signedOf (w x : Nat) : Int :=
  if x % 2 ^ w < 2 ^ (w - 1) then (x % 2 ^ w : Nat) else (x % 2 ^ w : Nat) - (2 ^ w : Nat)

/-- The low `w` bits of an integer, as a number: the value modulo 2^w. -/
def wrapTo (w : Nat) (x : Int) : Nat :=
  (x % (2 ^ w : Nat)).toNat

/-- A number of `n` bytes sign-extended to a doubleword (R174, R176). -/
def sextBytes (n x : Nat) : Word :=
  BitVec.ofInt 64 (signedOf (8 * n) x)

/-! ## Bytes -/

/-- The value of a little-endian byte list (R174). -/
def leNat : List Byte → Nat
  | [] => 0
  | b :: t => b.toNat + 256 * leNat t

/-- The `n` low bytes of a number, lowest first. -/
def leBytes : (n : Nat) → Nat → List Byte
  | 0, _ => []
  | n + 1, v => BitVec.ofNat 8 v :: leBytes n (v / 256)

/-- The bytes of a word of `8 n` bits, byte 0 first. -/
def wordBytes (n : Nat) {w : Nat} (x : BitVec w) : List Byte :=
  leBytes n x.toNat

/-! ## Lists keyed by numbers, keys rising -/

/-- What a list holds for a key. -/
def Cells.find {α : Type} : List (Nat × α) → Nat → Option α
  | [], _ => none
  | (k, v) :: t, a => if k = a then some v else Cells.find t a

/-- The list with the key's entry set, or removed for `none`. -/
def Cells.put {α : Type} : List (Nat × α) → Nat → Option α → List (Nat × α)
  | [], a, v => match v with
    | some x => [(a, x)]
    | none => []
  | (k, w) :: t, a, v =>
    if a < k then
      match v with
      | some x => (a, x) :: (k, w) :: t
      | none => (k, w) :: t
    else if a = k then
      match v with
      | some x => (a, x) :: t
      | none => t
    else (k, w) :: Cells.put t a v

/-- Keys strictly rising. -/
def Cells.rising {α : Type} : List (Nat × α) → Bool
  | [] => true
  | [_] => true
  | x :: y :: t => decide (x.1 < y.1) && Cells.rising (y :: t)

/-! ## Memory: (address, byte) pairs; an unlisted byte reads 0 (R119, log 3) -/

/-- The canonical form: addresses strictly rising, no entry that reads as an unlisted one. -/
def Memory.wf (m : List Host.Cell) : Bool :=
  Cells.rising m && m.all fun c => c.2 != 0

/-- What a byte that no entry names reads as (R119; log 3 for host and flash). -/
def Memory.unlisted : Byte := 0

/-- One byte. -/
def Memory.get (m : List Host.Cell) (a : Nat) : Byte :=
  (Cells.find m a).getD Memory.unlisted

/-- Memory with one byte written. -/
def Memory.set (m : List Host.Cell) (a : Nat) (b : Byte) : List Host.Cell :=
  Cells.put m a (if b = Memory.unlisted then none else some b)

/-- The `n` bytes from `a` upward. -/
def Memory.bytes (m : List Host.Cell) : (a n : Nat) → List Byte
  | _, 0 => []
  | a, n + 1 => Memory.get m a :: Memory.bytes m (a + 1) n

/-- The little-endian number in the `n` bytes from `a` upward. -/
def Memory.read (m : List Host.Cell) (a n : Nat) : Nat :=
  leNat (Memory.bytes m a n)

/-- Memory with a byte list written from `a` upward. -/
def Memory.fill (m : List Host.Cell) (a : Nat) : List Byte → List Host.Cell
  | [] => m
  | b :: t => Memory.fill (Memory.set m a b) (a + 1) t

/-- Memory with the `n` low bytes of a number written from `a` upward. -/
def Memory.write (m : List Host.Cell) (a n v : Nat) : List Host.Cell :=
  Memory.fill m a (leBytes n v)

/-! ## Lists of records -/

/-- Every entry that meets `p` replaced by `f` of it. -/
def updWhere {α : Type} (l : List α) (p : α → Bool) (f : α → α) : List α :=
  l.map fun x => if p x then f x else x

/-- The first `n` numbers not in a list, starting from 0: a free number below `bound`. -/
def freeNumber (used : List Nat) : (bound n : Nat) → Option Nat
  | 0, _ => none
  | b + 1, n => if used.contains n then freeNumber used b (n + 1) else some n

end Sys2Proof.Machine
end

