-- ==== Sys2Proof/Machine/Access.lean ====
section
/-!
DEFINITION. Addresses, translation (R352 to R359), homes and line states (R118, R119), forwarding chains (R122), and
the accesses a home performs (R284).
A home byte is numbered (64 attribute + NODE) × 2^52 + physical address; its line is that number / 128.
-/

namespace Sys2Proof.Machine

/-! ## Results of an attempt to access memory -/

/-- What an access may do at a page (R355). -/
inductive Need where
  | read | write | both | fetch | reclaim | any
  deriving DecidableEq, Repr

/-- How an attempt ends: done; a fault that stands, with ADDR and VALUE of R341; a wait for a service or a migration
(R351, R356); a hold at a line in move or on a stack that is offline (R128, R416); a soft error at a line (R361). -/
inductive Res (α : Type) where
  | ok   (a : α) (s : State)
  | flt  (c : Cause) (addr value : Word) (s : State)
  | wait (s : State)
  | held (line : Nat) (s : State)
  | soft (line : Nat) (s : State)

/-- Continue after an attempt that is done. -/
def Res.bind {α β : Type} (r : Res α) (f : α → State → Res β) : Res β :=
  match r with
  | .ok a s => f a s
  | .flt c a v s => .flt c a v s
  | .wait s => .wait s
  | .held l s => .held l s
  | .soft l s => .soft l s

/-! ## Addresses -/

/-- Bits [63:52] are copies of bit 51 (R91). -/
def canonical (va : Word) : Bool :=
  (va.setWidth 52).signExtend 64 == va

/-- The 52 bits of a virtual address. -/
def va52 (va : Word) : Nat :=
  va.toNat % 2 ^ 52

/-- The canonical address of 52 bits. -/
def vaOf (n : Nat) : Word :=
  (BitVec.ofNat 52 n).signExtend 64

/-- The address of the line a byte lies in. -/
def lineVa (va : Word) : Word :=
  va &&& ~~~127

/-- Whether every byte of an access has a canonical address (R91). -/
def canonicalAll (va : Word) (n : Nat) : Bool :=
  canonical va && canonical (va + BitVec.ofNat 64 (n - 1))

/-! ## Page-table entries (R353) -/

/-- V. -/
def pteV (p : Word) : Bool := bitAt p 0
/-- LEAF. -/
def pteLeaf (p : Word) : Bool := bitAt p 1
/-- R. -/
def pteR (p : Word) : Bool := bitAt p 2
/-- W. -/
def pteW (p : Word) : Bool := bitAt p 3
/-- X. -/
def pteX (p : Word) : Bool := bitAt p 4
/-- RC. -/
def pteRc (p : Word) : Bool := bitAt p 5
/-- ATTR: 0 loc, 1 peer, 2 cxl, 3 host, 4 flash, 5 slab. -/
def pteAttr (p : Word) : Nat := fieldNat p 6 3
/-- SZ. -/
def pteSz (p : Word) : Nat := fieldNat p 9 2
/-- MIG. -/
def pteMig (p : Word) : Bool := bitAt p 11
/-- ADDR, as a physical address. -/
def pteAddr (p : Word) : Nat := fieldNat p 12 40 * 4096
/-- NODE. -/
def pteNode (p : Word) : Nat := fieldNat p 52 6

/-- The attribute codes (R353). -/
def attrLoc : Nat := 0
/-- peer -/
def attrPeer : Nat := 1
/-- cxl -/
def attrCxl : Nat := 2
/-- host -/
def attrHost : Nat := 3
/-- flash -/
def attrFlash : Nat := 4
/-- slab -/
def attrSlab : Nat := 5

/-- The page size of an SZ code (R353). -/
def pageSize (sz : Nat) : Nat :=
  if sz = 0 then 2 ^ 16 else if sz = 1 then 2 ^ 21 else 2 ^ 30

/-- A malformed entry at a level (R353). -/
def pteMalformed (p : Word) (lvl : Nat) : Bool :=
  fieldNat p 58 6 != 0 || pteAttr p > 5 || pteSz p == 3
  || (pteLeaf p && lvl ≤ 2) || (!pteLeaf p && lvl == 4)
  || (pteLeaf p && pteSz p == 2 && lvl != 3) || (pteLeaf p && pteSz p ≤ 1 && lvl != 4)
  || (pteLeaf p && pteAddr p % pageSize (pteSz p) != 0)
  || (pteW p && !pteR p) || (pteMig p && pteLeaf p) || (pteLeaf p && pteAttr p == attrSlab && pteAddr p != 0)

/-- Whether an entry permits an access (R355). -/
def ptePermits (p : Word) (need : Need) : Bool :=
  match need with
  | .read => pteR p
  | .write => pteW p
  | .both => pteR p && pteW p
  | .fetch => pteX p
  | .reclaim => pteRc p
  | .any => true

/-! ## Homes and lines -/

/-- The home byte of a physical address behind an attribute and a node. -/
def homeByte (attr node paddr : Nat) : Nat :=
  (64 * attr + node) * 2 ^ 52 + paddr

/-- The attribute of a home byte. -/
def homeAttr (h : Nat) : Nat :=
  h / 2 ^ 58

/-- The line of a home byte. -/
def lineOf (h : Nat) : Nat :=
  h / 128

/-- Whether an attribute carries line state (R95). -/
def hasLines (attr : Nat) : Bool :=
  attr ≤ 2

/-- The state of a line; none is never produced (R119). -/
def State.lineState (s : State) (l : Nat) : Option LineState :=
  Cells.find s.lines l

/-- A line's state set. -/
def State.setLine (s : State) (l : Nat) (st : LineState) : State :=
  { s with lines := Cells.put s.lines l (some st) }

/-- The forwarding record in a line's data (R120). -/
def State.lineRecord (s : State) (l : Nat) : BitVec 128 :=
  BitVec.ofNat 128 (Memory.read s.mem (128 * l) 16)

/-- A line's 128 bytes. -/
def State.lineData (s : State) (l : Nat) : BitVec 1024 :=
  BitVec.ofNat 1024 (Memory.read s.mem (128 * l) 128)

/-- A line's 128 bytes written. -/
def State.setLineData (s : State) (l : Nat) (d : BitVec 1024) : State :=
  { s with mem := Memory.write s.mem (128 * l) 128 d.toNat }

/-- The check word of a line (R118): CRC-32C over the data bytes and the STATE byte, bit by bit. -/
def crc32c (bytes : List Byte) : BitVec 32 :=
  let step (c : BitVec 32) : BitVec 32 := if bitAt c 0 then (c >>> 1) ^^^ 0x82F63B78 else c >>> 1
  ~~~(bytes.foldl (fun c b => (List.replicate 8 ()).foldl (fun c _ => step c) (c ^^^ b.setWidth 32)) 0xFFFFFFFF)

/-- The STATE code of a line (R119). -/
def stateCode : Option LineState → BitVec 2
  | some .plain => 0
  | some .inMove => 1
  | some .forwarded => 2
  | none => 3

/-- LCHK of a line, which its home regenerates at every write and change of state (R118). -/
def State.lineCheck (s : State) (l : Nat) : BitVec 32 :=
  crc32c (Memory.bytes s.mem (128 * l) 128 ++ [(stateCode (s.lineState l)).setWidth 8])

/-- The side band of a line (R118). -/
def State.sideBand (s : State) (l : Nat) : BitVec 128 :=
  let hi : BitVec 64 := 0#30 ++ stateCode (s.lineState l) ++ s.lineCheck l
  hi ++ Config.lineEcc (s.lineData l) hi

/-- TARGET of a record, as a canonical address. -/
def recTarget (r : BitVec 128) : Word :=
  r.extractLsb' 0 64

/-- ASID of a record. -/
def recAsid (r : BitVec 128) : BitVec 16 :=
  r.extractLsb' 64 16

/-- MOVER of a record. -/
def recMover (r : BitVec 128) : BitVec 32 :=
  r.extractLsb' 80 32

/-- MCOUNT of a record. -/
def recCount (r : BitVec 128) : BitVec 16 :=
  r.extractLsb' 112 16

/-- A forwarding record (R120), the rest of the line zero. -/
def fwdRecord (count : BitVec 16) (mover : BitVec 32) (asid : BitVec 16) (target : Word) : BitVec 1024 :=
  (count ++ mover ++ asid ++ lineVa target : BitVec 128).setWidth 1024

/-- Bytes written at a home byte inside one line (R119, R284): a line with state becomes plain. A record's redirect
count goes with it. -/
def State.writeHome (s : State) (h : Nat) (bs : List Byte) : State :=
  let s1 := { s with mem := Memory.fill s.mem h bs }
  if hasLines (homeAttr h) then s1.setLine (lineOf h) .plain else s1

/-! ## Lines that cannot be reached -/

/-- Whether a package can be reached (R399). -/
def State.reaches (s : State) (p : Nat) : Bool :=
  p == s.pkg.toNat || bitAt s.linkUp (s.routes.toList.getD p 0).toNat

/-- Whether the stack of a loc line is offline (R416). -/
def State.offline (s : State) (l : Nat) : Bool :=
  homeAttr (128 * l) == attrLoc && s.hbm.toList.any (fun k => k.band == 3)
    && (s.hbm[(Config.stackOfLine l).val]).band == 3

/-- Whether the home of a peer line cannot be reached (R399). -/
def State.unreachable (s : State) (l : Nat) : Bool :=
  homeAttr (128 * l) == attrPeer && !s.reaches (l / 2 ^ 45 % 64)

/-- Whether the home of a line serves nothing now: its stack is offline (R416), or no route leads to it (R399). -/
def State.closed (s : State) (l : Nat) : Bool :=
  s.offline l || s.unreachable l

/-- Whether a read of a line is served from the data of a move's source, past the accesses held there (R128). -/
def State.readsInMove (s : State) (attr line : Nat) : Bool :=
  hasLines attr && !s.closed line && s.lineState line == some .inMove

/-! ## Constituents -/

/-- The requests a request stands for, depth-first, left part first (R274): `fuel` splits at most. -/
def leavesOf (buf : List WaitEntry) : (fuel rid : Nat) → List Nat
  | 0, rid => [rid]
  | fuel + 1, rid =>
    match buf.find? fun w => w.rid == rid with
    | none => [rid]
    | some w => leavesOf buf fuel w.left ++ leavesOf buf fuel w.right

/-- Every wait-buffer entry of the package. -/
def State.waitEntries (s : State) : List WaitEntry :=
  s.keystones.flatMap Keystone.buf

/-- Whether a strand has made one of these requests, as a scalar access or for an element of a vector atomic. -/
def Strand.made (t : Strand) (ids : List Nat) : Bool :=
  t.acc.any (fun a => ids.contains a.rid) || t.vamo.any fun a => a.sent.any fun x => ids.contains x.2.1

/-- The strands whose accesses a request carries. -/
def State.carried (s : State) (rid : Nat) : List Nat :=
  let ids := leavesOf s.waitEntries s.waitEntries.length rid
  (s.strands.filter fun t => t.made ids).map fun t => t.id.sid

/-! ## The order at a home -/

/-- Since which beat an agent waits at a line (R416). -/
def State.heldSince (s : State) (who : Agent) (line : Nat) : Option Nat :=
  let at_ (h : Option (Nat × Nat)) : Option Nat := h.bind fun x => if x.1 = line then some x.2 else none
  match who with
  | .strand sid => (s.strands.find? fun t => t.id.sid == sid).bind fun t => at_ t.hold
  | .queue sid => (s.strands.find? fun t => t.id.sid == sid).bind fun t => at_ t.held
  | .request _ rid => (s.requests.find? fun r => r.rid == rid).bind fun r => at_ r.held
  | .copy cid => (s.copies.find? fun c => c.cid == cid).bind fun c => at_ c.held
  | .outside k => (s.outHeld.find? fun x => x.1 == k).bind fun x => at_ (some x.2)

/-- Whether an access waits at a line since an earlier beat than `since`: homes hold requests in order of arrival (R128,
R416). A strand that is about to trap makes no access any more. -/
def State.heldBefore (s : State) (line since : Nat) : Bool :=
  let before (h : Option (Nat × Nat)) : Bool := h.any fun x => x.1 == line && x.2 < since
  s.strands.any (fun t => t.vfault.isNone && (before t.held || before t.hold)) || s.copies.any (fun c => before c.held) || s.requests.any (fun r => before r.held)
    || s.outHeld.any fun x => before (some x.2)

/-- Whether a request of a strand's cluster, alone or in a combined one, to a line has passed the cluster's request port and not
yet reached its home: a later access or walk of the cluster does not overtake it (R286, R395). -/
def State.behindRequest (s : State) (who : Agent) (line : Nat) : Bool :=
  let behind (sid : Nat) : Bool :=
    let same (r : Request) : Bool :=
      lineOf r.home == line && (r.sid / 96 == sid / 96 || (s.carried r.rid).any fun x => x / 96 == sid / 96)
    s.requests.any (fun r => same r && !r.tried) || s.keystones.any fun k => k.ks ≥ 24 && k.queue.any same || k.redir.any same
  match who with
  | .strand sid => behind sid
  | .queue sid => behind sid
  | _ => false

/-- Whether an access must wait for its turn at a line: others wait there since before it. -/
def State.waitsTurn (s : State) (who : Agent) (line : Nat) : Bool :=
  s.heldBefore line ((s.heldSince who line).getD (s.tick + 1))

/-! ## Translation -/

/-- Who accesses, in which address space, with how many quarters of line buffer. -/
structure Ctx where
  who  : Agent
  asid : BitVec 16
  q    : Nat
  deriving DecidableEq, Repr

/-- How a walk ends (R356). -/
inductive WalkEnd where
  | leaf (pte : Word)
  | page
  | table (sub node : Nat)
  | mig (node : Nat)
  | soft (line : Nat)
  | held (line : Nat)
  deriving DecidableEq, Repr

/-- The walk from the node at `a` of level `lvl` (R356). Its reads wait at a stack that is offline (R416), and do not overtake the
requests of their cluster (R286, R395). -/
def State.walkFrom (s : State) (who : Agent) (va : Nat) : (fuel lvl a : Nat) → WalkEnd
  | 0, _, _ => .page
  | fuel + 1, lvl, a =>
    let e := homeByte attrLoc 0 (a + 8 * (va / 2 ^ (52 - 9 * lvl) % 512))
    if s.soft.contains (lineOf e) then .soft (lineOf e)
    else if s.offline (lineOf e) || s.behindRequest who (lineOf e) then .held (lineOf e)
    else if s.lineState (lineOf e) = some .forwarded then .table 3 0
    else
      let p := BitVec.ofNat 64 (Memory.read s.mem e 8)
      if !pteV p then .page
      else if pteMalformed p lvl then .table 4 0
      else if pteLeaf p then .leaf p
      else if pteMig p then .mig (if pteAttr p = attrPeer then 1 + pteNode p else 0)
      else if pteAttr p ≠ attrLoc then .table 1 (if pteAttr p = attrPeer then 1 + pteNode p else 0)
      else s.walkFrom who va fuel (lvl + 1) (pteAddr p)

/-- The walk from the root of an address space (R352, R356). An address space without a root has no translation. -/
def State.walk (s : State) (who : Agent) (asid : BitVec 16) (va : Nat) : WalkEnd :=
  match s.roots.find? (fun r => r.1 == asid) with
  | none => .page
  | some r => s.walkFrom who va 4 1 r.2

/-- The cached translation of an address (R357). -/
def State.tlbHit (s : State) (asid : BitVec 16) (va : Nat) : Option TlbEntry :=
  s.tlb.find? fun e => e.asid == asid && e.base ≤ va && va < e.base + e.size

/-- The translation a leaf gives. -/
def leafEntry (asid : BitVec 16) (va : Nat) (p : Word) : TlbEntry :=
  let size := pageSize (pteSz p)
  ⟨asid, va / size * size, size, p⟩

/-- A fresh translation installed in the place of every one that holds an address of its page (R358). -/
def State.install (s : State) (e : TlbEntry) : State :=
  { s with tlb := e :: s.tlb.filter fun x =>
      !(x.asid == e.asid && x.base < e.base + e.size && e.base < x.base + x.size) }

/-- The package whose fault processor serves an address (R350): the lowest-numbered valid entry that holds it. BASE is a
canonical virtual address (R91). -/
def State.ownerOf (s : State) (asid : BitVec 16) (va : Nat) : Nat :=
  let a := (vaOf va).toNat
  let covers (b : BitVec 128) : Bool :=
    bitAt b 127 && b.extractLsb' 86 16 == asid && fieldNat b 0 64 ≤ a
      && a < fieldNat b 0 64 + fieldNat b 64 22 * 2 ^ 30
  match s.owners.find? fun e => covers e.2 with
  | some e => fieldNat e.2 102 6
  | none => s.pkg.toNat

/-- The service of an agent at a page. -/
def State.svcOf (s : State) (who : Agent) (asid : BitVec 16) (page : Nat) : Option Svc :=
  s.svcs.find? fun v => v.who == who && v.asid == asid && v.page == page

/-- A service entered or replaced. -/
def State.setSvc (s : State) (v : Svc) : State :=
  { s with svcs := v :: s.svcs.filter fun x => !(x.who == v.who && x.asid == v.asid && x.page == v.page) }

/-- The services of an agent ended: its access has been performed or has faulted. -/
def State.endSvc (s : State) (who : Agent) : State :=
  { s with svcs := s.svcs.filter fun x => !(x.who == who) }

/-- Whether an agent acts for the strand of a slot. -/
def Agent.ofStrand (sid : Nat) : Agent → Bool
  | .strand n => n == sid
  | .queue n => n == sid
  | .request n _ => n == sid
  | _ => false

/-- The services of everything a strand has under way ended. -/
def State.endStrand (s : State) (sid : Nat) : State :=
  { s with svcs := s.svcs.filter fun x => !x.who.ofStrand sid }

/-- A PAGE or TABLE fault meets its service (R351): the access waits for the answer; the fault stands after a DENY,
after a fourth RETRY, or when the owner cannot be reached. -/
def State.service {α : Type} (s : State) (c : Ctx) (addr : Word) (va sub owner : Nat) : Res α :=
  let page := va / 2 ^ 16
  let stands : Res α :=
    .flt (if sub = 0 then .page else .table) addr (BitVec.ofNat 64 sub) s
  if !s.reaches owner then stands
  else
    match s.svcOf c.who c.asid page with
    | none => .wait (s.setSvc ⟨c.who, c.asid, page, sub, owner, 0, 0, .waiting, s.tick⟩)
    | some v =>
      match v.state with
      | .waiting => .wait s
      | .migWait => .wait (s.setSvc { v with sub := sub, owner := owner, state := .waiting })
      | .denied => stands
      | .retried =>
        if v.tries < 4 then .wait (s.setSvc { v with sub := sub, owner := owner, state := .waiting }) else stands

/-- A walk met a node under migration (R356): the attempt is counted; the 64th raises TABLE with subcode 2, served by the package
that owns the node. -/
def State.migrating {α : Type} (s : State) (c : Ctx) (addr : Word) (va owner : Nat) : Res α :=
  let page := va / 2 ^ 16
  match s.svcOf c.who c.asid page with
  | none => .wait (s.setSvc ⟨c.who, c.asid, page, 0, s.pkg.toNat, 0, 1, .migWait, s.tick⟩)
  | some v =>
    match v.state with
    | .waiting => .wait s
    | .migWait => .wait s
    | .denied => .flt .table addr 2 s
    | .retried =>
      if v.mig + 1 = 64 then (s.setSvc { v with mig := 64 }).service c addr va 2 owner
      else .wait (s.setSvc { v with mig := v.mig + 1, state := .migWait, since := s.tick })

/-- A walk for an access, with the services of R351. `addr` is the requested address the record names. -/
def State.walkFor (s : State) (c : Ctx) (addr : Word) (va : Nat) : Res TlbEntry :=
  match s.walk c.who c.asid va with
  | .leaf p => let e := leafEntry c.asid va p; .ok e (s.install e)
  | .page => s.service c addr va 0 (s.ownerOf c.asid va)
  | .table sub node =>
    if sub = 4 then .flt .table addr 4 s
    else s.service c addr va sub (if node = 0 then s.pkg.toNat else node - 1)
  | .mig node => s.migrating c addr va (if node = 0 then s.pkg.toNat else node - 1)
  | .soft l => .soft l s
  | .held l => .held l s

/-- The service of an agent at a page that was denied: its fault stands (R351). -/
def State.denied (s : State) (c : Ctx) (va : Nat) : Option Svc :=
  match s.svcOf c.who c.asid (va / 2 ^ 16) with
  | some v => if v.state = .denied then some v else none
  | none => none

/-- Translate and check the permission (R355, R358): a cached denial is walked again once; a denied service stands. -/
def State.translate (s : State) (c : Ctx) (addr : Word) (va : Nat) (need : Need) : Res TlbEntry :=
  match s.denied c va with
  | some v => .flt (if v.sub = 0 then .page else .table) addr (BitVec.ofNat 64 v.sub) s
  | none =>
  match s.tlbHit c.asid va with
  | some e =>
    if ptePermits e.pte need then .ok e s
    else
      (s.walkFor c addr va).bind fun e' s' => if ptePermits e'.pte need then .ok e' s' else .flt .perm addr 0 s'
  | none =>
    (s.walkFor c addr va).bind fun e' s' => if ptePermits e'.pte need then .ok e' s' else .flt .perm addr 0 s'

/-- Translation of a requested address: canonical (R91), aligned (R94), translated. `align` is 1 where the entry asks
no alignment. -/
def State.requested (s : State) (c : Ctx) (va : Word) (n align : Nat) (need : Need) : Res TlbEntry :=
  if !canonicalAll va n then .flt .addr va 0 s
  else if va.toNat % align ≠ 0 then .flt .align va 0 s
  else s.translate c va (va52 va) need

/-! ## The slab window (R97, R98) -/

/-- The quarters of a mask, in ascending number. -/
def quartersOf (m : BitVec 4) : List Nat :=
  (List.range 4).filter fun i => bitAt m i

/-- The home byte of a slab slot's offset: 512 KiB for each quarter of each physical core. -/
def slabByte (pclus pcore quarter off : Nat) : Nat :=
  homeByte attrSlab 0 ((pclus * Config.coresPerCluster + pcore) * 2 ^ 21 + quarter * 2 ^ 19 + off)

/-- The home byte of a slab address, where a resident strand of the address space maps it (R98). -/
def State.slabHome (s : State) (asid : BitVec 16) (va : Word) : Option Nat :=
  if va.toNat < Config.slabBase.toNat then none
  else
    let off := va.toNat - Config.slabBase.toNat
    let slot := off / 2 ^ 21
    let o := off % 2 ^ 21
    if slot ≥ 576 then none
    else
      match s.strands.find? fun t => t.id.asid == asid && t.id.clus == slot / 24 && t.id.core == slot % 24 with
      | none => none
      | some t =>
        match (quartersOf t.id.qmask)[o / 2 ^ 19]? with
        | none => none
        | some k => some (slabByte t.id.pclus t.id.pcore k (o % 2 ^ 19))

/-! ## Following a chain (R122) -/

/-- A line whose home serves nothing: the access waits there, until the wait has become a soft error (R399, R416). -/
def State.shut {α : Type} (s : State) (l : Nat) : Res α :=
  if s.soft.contains l then .soft l s else .held l s

/-- Where an access ends: the home byte, the address last translated, the hops, the line's state. -/
structure Loc where
  home : Nat
  va   : Word
  hops : Nat
  attr : Nat
  st   : Option LineState
  deriving DecidableEq, Repr

/-- The home byte a translation gives (not for slab pages). R2 gives the capacity of each memory (768 GB of HBM4E, 32,768 GB
behind the second-tier ports) and no fate of an access beyond it: every physical address of R353 is memory here.
[DESIGN CHOICE, log 63] A second-tier or flash leaf whose NODE is 16 to 63 names no port there is; R353 gives it no fate, and here
it names memory of its own. [DESIGN CHOICE, log 79] -/
def entryHome (e : TlbEntry) (va : Nat) : Nat :=
  let a := pteAttr e.pte
  homeByte a (if a = attrPeer ∨ a = attrCxl ∨ a = attrFlash then pteNode e.pte else 0) (pteAddr e.pte + va % e.size)

/-- Resolve from a translated address on a page with line state (R122). `addr` is the requested address. A line whose home serves
nothing holds the access there, whatever its state (R399, R416). -/
def State.chase (s : State) (c : Ctx) (addr : Word) (need : Need) :
    (fuel hops : Nat) → (va : Word) → TlbEntry → Res Loc
  | 0, _, _, _ => .flt .fwdChain addr (lineVa addr) s
  | fuel + 1, hops, va, e =>
    let h := entryHome e (va52 va)
    if s.closed (lineOf h) then s.shut (lineOf h)
    else match s.lineState (lineOf h) with
    | some .forwarded =>
      let r := s.lineRecord (lineOf h)
      if s.soft.contains (lineOf h) then .soft (lineOf h) s
      else if recAsid r ≠ c.asid then .flt .fwdAsid addr (lineVa addr) s
      else if hops = 3 then .flt .fwdChain addr (lineVa addr) s
      else
        let va' := recTarget r ||| (va &&& 127)
        (s.translate c addr (va52 va') need).bind fun e' s' =>
          if hasLines (pteAttr e'.pte) then s'.chase c addr need fuel (hops + 1) va' e'
          else .flt .fwdTarget addr (lineVa addr) s'
    | st => .ok ⟨h, va, hops, pteAttr e.pte, st⟩ s

/-- The line of a global address, where it translates. -/
def State.lineAt (s : State) (asid : BitVec 16) (va : Word) : Option Nat :=
  match s.tlbHit asid (va52 va) with
  | some e => some (lineOf (entryHome e (va52 va)))
  | none =>
    match s.walk (.outside 0) asid (va52 va) with
    | .leaf p => some (lineOf (entryHome (leafEntry asid (va52 va) p) (va52 va)))
    | _ => none

/-- A line and those its record leads to, one after the other, as far as they can be followed. -/
def State.onward (s : State) (asid : BitVec 16) : (fuel : Nat) → (line : Nat) → List Nat
  | 0, line => [line]
  | fuel + 1, line =>
    if !s.closed line && s.lineState line == some .forwarded then
      match s.lineAt asid (recTarget (s.lineRecord line)) with
      | some l => line :: s.onward asid fuel l
      | none => [line]
    else [line]

/-- What kind of access is checked at the attribute of the requested page (R95, R257). -/
inductive Kind where
  | data | amo (hostOk : Bool) | sync
  deriving DecidableEq, Repr

/-- The causes an attribute gives an access (R95, R257): FLASH_DIRECT, HOST_AMO, SYNC_ATTR. -/
def attrCause (attr : Nat) (k : Kind) : Option Cause :=
  match k with
  | .data => if attr = attrFlash then some .flashDirect else none
  | .amo hostOk =>
    if attr = attrFlash then some .flashDirect else if attr = attrHost && !hostOk then some .hostAmo else none
  | .sync => if attr = attrFlash ∨ attr = attrHost then some .syncAttr else none

/-- Resolve a requested access of `n` bytes to its home (R91 to R98, R122, R339). -/
def State.resolve (s : State) (c : Ctx) (va : Word) (n align : Nat) (need : Need) (k : Kind) : Res Loc :=
  (s.requested c va n align need).bind fun e s' =>
    let attr := pteAttr e.pte
    match attrCause attr k with
    | some cause => .flt cause va 0 s'
    | none =>
      if attr = attrSlab then
        match s'.slabHome c.asid va with
        | some h => .ok ⟨h, va, 0, attr, some .plain⟩ s'
        | none => .flt .slabAbsent va 0 s'
      else if hasLines attr then s'.chase c va need 4 0 va e
      else .ok ⟨entryHome e (va52 va), va, 0, attr, some .plain⟩ s'

/-- The checks a home makes before it serves a line (R119, R126, R361, R416): a load or atomic of a never-produced
line takes CHECK, a store or atomic waits at a line in move; accesses are served in order of arrival. A home
behind a second-tier port serves whatever mode the port is in, or none: R393 gives an access to a port of the other mode no fate.
[DESIGN CHOICE, log 87] -/
def State.atHome (s : State) (c : Ctx) (addr : Word) (l : Loc) (need : Need) (whole : Bool) : Res Loc :=
  let line := lineOf l.home
  let reads := (need == .read || need == .fetch) && s.readsInMove l.attr line
  if s.soft.contains line && (!whole || s.closed line) then .soft line s
  else if s.behindRequest c.who line || !reads && s.waitsTurn c.who line then .held line s
  else if hasLines l.attr then
    if s.closed line then .held line s
    else
      match l.st with
      | none => if need = .write then .ok l s else .flt .check addr 0 s
      | some .inMove => if need = .read ∨ need = .fetch then .ok l s else .held line s
      | _ => .ok l s
  else .ok l s

/-! ## The accesses of a strand -/

/-- The line buffer without the lines a store to an address and home line writes (R108, R126). -/
def dropLines (lb : List BufLine) (va : Word) (home : Nat) : List BufLine :=
  lb.filter fun b => !(b.va == (va52 va) / 128 || b.home == home)

/-- The line buffer with a line filled; a full part drops one (R107, R108). -/
def fillLine (lb : List BufLine) (q ctr : Nat) (b : BufLine) : List BufLine :=
  if lb.length < 256 * q then b :: lb
  else b :: lb.eraseIdx (Config.victim ctr % lb.length)

/-- Bytes of a buffered line. -/
def bufRead (b : BufLine) (va : Word) (n : Nat) : Nat :=
  (b.data.toNat / 2 ^ (8 * (va.toNat % 128))) % 2 ^ (8 * n)

/-- A load of `n` bytes by a strand (R95, R107, R119, R174): from its line buffer where the page is cached and the
line is there, else from the home, which fills the buffer. -/
def State.load (s : State) (c : Ctx) (lb : List BufLine) (va : Word) (n : Nat) : Res (Nat × List BufLine) :=
  (s.requested c va n n .read).bind fun e s' =>
    let attr := pteAttr e.pte
    match attrCause attr .data with
    | some cause => .flt cause va 0 s'
    | none =>
      if attr = attrSlab then
        match s'.slabHome c.asid va with
        | none => .flt .slabAbsent va 0 s'
        | some h =>
          (s'.atHome c va ⟨h, va, 0, attr, some .plain⟩ .read false).bind fun l s2 =>
            .ok (Memory.read s2.mem l.home n, lb) s2
      else
        match lb.find? fun b => b.va == (va52 va) / 128 with
        | some b => .ok (bufRead b va n, lb) s'
        | none =>
          let found : Res Loc :=
            if hasLines attr then s'.chase c va .read 4 0 va e
            else .ok ⟨entryHome e (va52 va), va, 0, attr, some .plain⟩ s'
          found.bind fun l s2 => (s2.atHome c va l .read false).bind fun l s3 =>
            let b : BufLine := ⟨va52 va / 128, lineOf l.home, s3.lineData (lineOf l.home)⟩
            -- a line buffered under another address of the same home is older than this fill (R285)
            let lb1 := lb.filter fun x => x.home != b.home
            .ok (Memory.read s3.mem l.home n, fillLine lb1 c.q s3.freeCtr b)
              (if lb1.length < 256 * c.q then s3 else { s3 with freeCtr := s3.freeCtr + 1 })

/-- A store of `n` bytes by a strand (R95, R108, R119, R174). -/
def State.store (s : State) (c : Ctx) (lb : List BufLine) (va : Word) (n v : Nat) : Res (List BufLine) :=
  (s.resolve c va n n .write .data).bind fun l s' => (s'.atHome c va l .write false).bind fun l s2 =>
    .ok (dropLines lb va (lineOf l.home)) (s2.writeHome l.home (leBytes n v))

/-- The new value of an atomic on `n` bytes (R176). -/
def amoNew (op : AmoOp) (n old b cmp : Nat) : Nat :=
  let m := 2 ^ (8 * n)
  let x := b % m
  match op with
  | .add => (old + x) % m
  | .and => old &&& x
  | .or => old ||| x
  | .xor => old ^^^ x
  | .min => if signedOf (8 * n) x < signedOf (8 * n) old then x else old
  | .max => if signedOf (8 * n) old < signedOf (8 * n) x then x else old
  | .minN => if x < old then x else old
  | .maxN => if old < x then x else old
  | .swp => x
  | .cas => if old = cmp % m then x else old

/-- Whether a host page serves the operation (R95, R391). -/
def amoHostOk : AmoOp → Bool
  | .add | .swp | .cas => true
  | _ => false

/-- An atomic at a resolved word, indivisibly (R176): the old value. -/
def State.amoAt (s : State) (h : Nat) (op : AmoOp) (n b cmp : Nat) : Nat × State :=
  let old := Memory.read s.mem h n
  (old, s.writeHome h (leBytes n (amoNew op n old b cmp)))

/-- Read a sync object, barrier object or flag word at its home (R257). -/
def State.readSync (s : State) (c : Ctx) (va : Word) (need : Need) : Res (Loc × Word) :=
  (s.resolve c va 8 8 need .sync).bind fun l s' => (s'.atHome c va l need false).bind fun l s2 =>
    .ok (l, BitVec.ofNat 64 (Memory.read s2.mem l.home 8)) s2

/-- Bytes read by an agent without a line buffer, one at a time from `va` (R351, R367). -/
def State.readBytes (s : State) (c : Ctx) : (va : Word) → (n : Nat) → Res (List Byte)
  | _, 0 => .ok [] s
  | va, n + 1 =>
    (s.resolve c va 1 1 .read .data).bind fun l s' => (s'.atHome c va l .read false).bind fun l s2 =>
      let b := Memory.get s2.mem l.home
      (s2.readBytes c (va + 1) n).bind fun t s3 => .ok (b :: t) s3

/-- A write of an aligned block inside one line by an agent without a line buffer. -/
def State.writeBytes (s : State) (c : Ctx) (va : Word) (bs : List Byte) : Res Unit :=
  (s.resolve c va bs.length 1 .write .data).bind fun l s' =>
    (s'.atHome c va l .write (bs.length == 128)).bind fun l s2 =>
      .ok () { s2.writeHome l.home bs with soft := if bs.length = 128 then s2.soft.erase (lineOf l.home) else s2.soft }

end Sys2Proof.Machine
end

