-- ==== Sys2Proof/Machine/Fetch.lean ====
section
/-!
DEFINITION. Fetching the line and the head at a program counter (R148 to R152).
-/

namespace Sys2Proof.Machine

/-- What a fetch returns of a line whose bytes are `new` (R152): a strand that has fetched the line since its last fence may
still see the content of then, and remembers what it saw; the choice is free (log 32). Of a line it has not fetched since that
fence R152 lets it see the old content too: it sees the new. [DESIGN CHOICE, log 81] -/
def State.fetched (s : State) (c : Ctx) (line : Nat) (new : BitVec 512) : BitVec 512 × State :=
  match c.who with
  | .strand sid =>
    match (s.strands.find? fun t => t.id.sid == sid).bind fun t => t.ibuf.find? fun x => x.1 == line with
    | some x =>
      if x.2 = new then (new, s)
      else
        let seen := if Config.staleFetch s.freeCtr then x.2 else new
        (seen, { s with
          freeCtr := s.freeCtr + 1
          strands := updWhere s.strands (fun t => t.id.sid == sid) fun t =>
            { t with ibuf := (line, seen) :: t.ibuf.filter fun y => y.1 != line } })
    | none =>
      (new, { s with strands := updWhere s.strands (fun t => t.id.sid == sid) fun t => { t with ibuf := (line, new) :: t.ibuf } })
  | _ => (new, s)

/-- Fetch the line of 64 bytes that holds `pc` (R152): a flash page takes FLASH_DIRECT, a slab page PERM; chains are
followed as for a load. -/
def State.fetchLine (s : State) (c : Ctx) (pc : Word) : Res Line :=
  if !canonical pc then .flt .addr pc 0 s
  else
    let va := pc &&& ~~~63
    (s.translate c va (va52 va) .fetch).bind fun e s' =>
      let attr := pteAttr e.pte
      if attr = attrFlash then .flt .flashDirect va 0 s'
      else if attr = attrSlab then .flt .perm va 0 s'
      else
        let found : Res Loc :=
          if hasLines attr then s'.chase c va .fetch 4 0 va e
          else .ok ⟨entryHome e (va52 va), va, 0, attr, some .plain⟩ s'
        found.bind fun l s2 => (s2.atHome c va l .fetch false).bind fun l s3 =>
          let (line, s4) := s3.fetched c (va52 va / 64) (BitVec.ofNat 512 (Memory.read s3.mem l.home 64))
          .ok line s4

/-- What stands at a program counter. -/
inductive Fetched where
  /-- a head and its tail -/
  | head (h : BitVec 16) (t : BitVec 64)
  /-- ILL_LINE: a `bad` slot, or a target that is not a head (R143, R151) -/
  | illLine
  /-- fetch order goes on at slot 0 of the next line (R149) -/
  | nextLine
  deriving DecidableEq, Repr

/-- The slot a program counter names. -/
def slotOf (pc : Word) : Nat :=
  pc.toNat / 2 % 32

/-- What stands at slot `k` of a line; `seq` is true where fetch order reached it (R149, R151). -/
def Line.at (l : Line) (k : Nat) (seq : Bool) : Fetched :=
  let (hs, bad) := l.heads
  match hs[k]? with
  | some (h, t) => .head h t
  | none => if seq && !(bad && k == hs.length) then .nextLine else .illLine

/-- Fetch the head at `pc`. R151 gives a target that is non-canonical and odd two fates without an order between them: ADDR
is taken. [DESIGN CHOICE, log 72] -/
def State.fetchHead (s : State) (c : Ctx) (pc : Word) (seq : Bool) : Res Fetched :=
  if !canonical pc then .flt .addr pc 0 s
  else if bitAt pc 0 then .ok .illLine s
  else (s.fetchLine c pc).bind fun l s' => .ok (Line.at l (slotOf pc) seq) s'

/-- The address of the line after the one that holds `pc`. -/
def nextLineVa (pc : Word) : Word :=
  (pc &&& ~~~63) + 64

/-- The address of the first head at or after `pc` in fetch order (R149), and how the search ended: a line that waits for
its service or its home must be waited for; a line whose fetch faults is named by its slot 0, where the fault is taken
(log 15). -/
def State.headFrom (s : State) (c : Ctx) : (fuel : Nat) → (pc : Word) → Word × Res Unit
  | 0, pc => (pc, .ok () s)
  | fuel + 1, pc =>
    match s.fetchHead c pc true with
    | .ok .nextLine s' => s'.headFrom c fuel (nextLineVa pc)
    | .ok _ s' => (pc, .ok () s')
    | .flt _ _ _ s' => (pc, .ok () s')
    | .wait w => (pc, .wait w)
    | .held l w => (pc, .held l w)
    | .soft l w => (pc, .soft l w)

end Sys2Proof.Machine
end

