-- ==== Sys2Proof/Machine/Flags.lean ====
section
/-!
DEFINITION. The sticky flags: seven bits in the order of R58, of a lane or of a scalar operation (R57, R90).
-/

namespace Sys2Proof.Machine

/-- Flags in the order of R58: [6] NSC, [5] SAT, [4] NX, [3] UF, [2] OF, [1] DZ, [0] NV. -/
abbrev Flags := BitVec 7

/-- No flag. -/
def noFlags : Flags := 0
/-- Invalid. -/
def flagNv : Flags := 1
/-- Divide by zero. -/
def flagDz : Flags := 2
/-- Overflow. -/
def flagOf : Flags := 4
/-- Underflow. -/
def flagUf : Flags := 8
/-- Inexact. -/
def flagNx : Flags := 16
/-- Saturate. -/
def flagSat : Flags := 32
/-- NaN-scale. -/
def flagNsc : Flags := 64

/-- The flag where a condition holds. -/
def flagIf (b : Bool) (f : Flags) : Flags :=
  if b then f else 0

/-- `fstat` with the flags of a scalar operation raised (R57, R179): NX, UF, OF, DZ, NV lie in bits [6:2]. -/
def raiseFstat (fstat : BitVec 7) (f : Flags) : BitVec 7 :=
  fstat ||| ((f &&& 31) <<< 2)

/-- Lane flags with a lane's flags raised: lane l in bits [8 l + 6 : 8 l] (R58, R90, R345). -/
def raiseLane (lf : BitVec 2048) (lane : Nat) (f : Flags) : BitVec 2048 :=
  lf ||| (f.setWidth 2048 <<< (8 * lane))

/-- The OR of the sticky flags over all lanes (R58). -/
def allLanes (lf : BitVec 2048) : Flags :=
  (List.range 256).foldl (fun a l => a ||| lf.extractLsb' (8 * l) 7) 0

end Sys2Proof.Machine
end

