-- ==== Sys2Proof/Machine/Ops.lean ====
section
/-!
DEFINITION. The named operations over the strands and their registers: reading and writing registers, dispatch, waits,
taking an exception (R165, R338 to R345) and returning from one (R346).
-/

namespace Sys2Proof.Machine

/-- The outcome of an instruction or a step of this machine. -/
abbrev Out := Host.Outcome State Fault Refusal

/-! ## Strands -/

/-- The resident strand of a slot. -/
def State.strand (s : State) (sid : Nat) : Option Strand :=
  s.strands.find? fun t => t.id.sid == sid

/-- The state with a strand's contents replaced. -/
def State.put (s : State) (t : Strand) : State :=
  { s with strands := s.strands.map fun u => if u.id.sid = t.id.sid then t else u }

/-- The strand that dispatches. -/
def State.curStrand (s : State) : Option Strand :=
  match s.cur with
  | none => none
  | some sid => s.strand sid

/-- An instruction acts on the strand that dispatches it. -/
def State.withCur (s : State) (f : Strand → Out) : Out :=
  match s.curStrand with
  | none => .fault .noStrand
  | some t => f t

/-- The quarters a strand holds (R12). -/
def Strand.q (t : Strand) : Nat :=
  (quartersOf t.id.qmask).length

/-- The access context of a strand. -/
def Strand.ctx (t : Strand) : Ctx :=
  ⟨.strand t.id.sid, t.id.asid, t.q⟩

/-- The access context of what stands first in a strand's VIQ: its services and waits are its own (R22, R351). -/
def Strand.qctx (t : Strand) : Ctx :=
  ⟨.queue t.id.sid, t.id.asid, t.q⟩

/-- The slots of a strand's quarters (R376). -/
def Strand.slotIds (t : Strand) : List Nat :=
  (quartersOf t.id.qmask).map fun k => 96 * t.id.pclus + 4 * t.id.pcore + k

/-- Whether a service an agent waits for is unanswered (R351, R356): one whose owner cannot be reached stands (R399). -/
def State.waitsService (s : State) (who : Agent) : Bool :=
  s.svcs.any fun v => v.who == who && (v.state == .waiting && s.reaches v.owner || v.state == .migWait)

/-- The compute die of a physical cluster: six clusters a die (R2, R415). -/
def dieOf (pclus : Nat) : Nat :=
  pclus / 6

/-! ## Scalar registers (R36) -/

/-- Read a scalar register: s0 reads 0. -/
def Strand.getS (t : Strand) (r : SReg) : Word :=
  if r = 0 then 0 else t.s[r.toNat]'r.isLt

/-- Write a scalar register: a write to s0 is discarded. -/
def Strand.setS (t : Strand) (r : SReg) (x : Word) : Strand :=
  if r = 0 then t else { t with s := t.s.set r.toNat x r.isLt }

/-- The scalar register a vector-queue instruction delivers into through the result queue (R20). -/
def resultReg (i : Instr) : Option SReg :=
  match i with
  | .kpop _ sd _ _ => some sd
  | .kfirst _ sd _ _ => some sd
  | .vmvXs _ sd _ _ => some sd
  | .vredAddO a => some a.sd
  | .vredAddT a => some a.sd
  | .vredMin a => some a.sd
  | .vredMax a => some a.sd
  | .vstc a => some a.sd
  | .vmergeUAdd a => some a.sd
  | .vmergeUSub a => some a.sd
  | .vmergeUMax a => some a.sd
  | .vxch a => some a.sd
  | .rel sd _ => some sd
  | .acq sd _ _ => some sd
  | .vwait a => some a.sd
  | _ => none

/-- The entries of a VIQ from the last that starts a convoy on. -/
def lastConvoy (l : List Entry) : List Entry :=
  l.foldl (fun a e => if e.cs then [e] else a ++ [e]) []

/-- The members of the open convoy (R156). -/
def Strand.openConvoy (t : Strand) : List Entry :=
  if t.copen then lastConvoy t.viq else []

/-- Whether the open convoy has a member that names a register for its value (R20, R161), delivered early or not. -/
def Strand.openNames (t : Strand) (r : SReg) : Bool :=
  r != 0 && t.openConvoy.any fun e => resultReg e.i == some r

/-- Whether that member has given its value to a head already (R161). -/
def Strand.openGave (t : Strand) (r : SReg) : Bool :=
  r != 0 && t.openConvoy.any fun e => e.given && resultReg e.i == some r

/-- The registers reserved for values of the VIQ, the result queue, `qdrain` and an access that has not delivered (R20,
R164, R341). -/
def Strand.reserved (t : Strand) : List SReg :=
  (t.viq.filter fun e => !e.given).filterMap (fun e => resultReg e.i) ++ t.rq.map (·.1)
    ++ (match t.wait with
        | .queue _ sd => [sd]
        | _ => [])
    ++ t.acc.toList.map Access.sd

/-- Whether a register is reserved by a queued instruction (R20). -/
def Strand.isReserved (t : Strand) (r : SReg) : Bool :=
  r != 0 && t.reserved.contains r

/-- Whether a register is a pending token (R110). -/
def Strand.isPending (t : Strand) (r : SReg) : Bool :=
  r != 0 && bitAt t.tokp r.toNat

/-- A set of registers as a word with bit n for register n (R341). -/
def regMask (l : List SReg) : BitVec 32 :=
  l.foldl (fun a (r : SReg) => if r = 0 then a else a ||| (1#32 <<< r.toNat)) 0

/-! ## Dispatch -/

/-- The strand past the head it dispatched, in fetch order (R149): it has made progress (R381). -/
def Strand.advance (t : Strand) : Strand :=
  { t with pc := t.pc + 2, seq := true, moved := true, hold := none }

/-- The strand at the target of a transfer (R150, R151). -/
def Strand.jump (t : Strand) (pc : Word) : Strand :=
  { t with pc := pc, seq := false, moved := true, hold := none }

/-- The open convoy closed, so that the next vector-queue head starts one (R156, R161). -/
def Strand.closeConvoy (t : Strand) : Strand :=
  { t with copen := false, fresh := true }

/-- The head waits where it stands and the rest of the beat passes on (R20, R22). -/
def State.stall (s : State) (t : Strand) : State :=
  s.put { t with stalled := true }

/-- The head waits for the open convoy, which it closes (R161). -/
def State.stallClosing (s : State) (t : Strand) : State :=
  s.stall t.closeConvoy

/-- The search for the next head in fetch order after the head at `pc` (R149). -/
def State.afterHead (s : State) (t : Strand) : Word × Res Unit :=
  s.headFrom t.ctx Config.emptyLines (t.pc + 2)

/-- The address of the next head in fetch order after the head at `pc` (R149). -/
def State.nextHead (s : State) (t : Strand) : Word :=
  (s.afterHead t).1

/-- The address of the next undispatched head (R342). -/
def State.pcNext (s : State) (t : Strand) : Word :=
  if t.seq then (s.headFrom t.ctx Config.emptyLines t.pc).1 else t.pc

/-- A register takes a value that comes in from outside the heads; a provisional head has waited for it, so it holds at the
access those heads stand behind too (R20, R165). -/
def Strand.deliver (t : Strand) (r : SReg) (x : Word) : Strand :=
  { t.setS r x with
    acc := t.acc.map fun a => if r = 0 then a else { a with back := { a.back with s := a.back.s.set r.toNat x r.isLt } } }

/-- The scalar side as it stands (R165). -/
def Strand.checkpoint (t : Strand) : Checkpoint :=
  ⟨t.s, t.pc, t.seq, t.fstat, t.prog, t.vl, t.vtype, t.gen⟩

/-- Every provisional head discarded: the scalar side goes back to the access, the VIQ keeps what is older (R165). -/
def Strand.discard (t : Strand) (a : Access) : Strand :=
  { t with
    s := a.back.s
    pc := a.back.pc
    seq := a.back.seq
    fstat := a.back.fstat
    prog := a.back.prog
    vl := a.back.vl
    vtype := a.back.vtype
    gen := a.back.gen
    viq := t.viq.take a.ahead
    copen := false
    fresh := true
    acc := none
    held := none
    hold := none }

/-- One entry of the VIQ has left it: an access has one fewer before it. -/
def Strand.popped (t : Strand) : Strand :=
  { t with acc := t.acc.map fun a => { a with ahead := a.ahead - 1 } }

/-- Only what a waiting access leaves behind: services, translations, the counter of the free values. -/
def State.keepWait (s w : State) : State :=
  { s with svcs := w.svcs, tlb := w.tlb, freeCtr := w.freeCtr }

/-- Only the translations of an access that has faulted: a fresh one stands (R358). -/
def State.keepTlb (s w : State) : State :=
  { s with tlb := w.tlb }

/-- A wait at the home of a line, since the first beat of it. -/
def State.waitAt (s : State) (h : Option (Nat × Nat)) (line : Nat) : Option (Nat × Nat) :=
  match h with
  | some (l, since) => some (line, if l = line then since else s.tick)
  | none => some (line, s.tick)

/-- What stands first in the VIQ waits for the rest of the beat; the strand's heads go on (R22). -/
def State.stallQueue (s : State) (t : Strand) : State :=
  s.put { t with qstall := true }

/-- A strand an access of whose queue waits at the home of a line. -/
def State.holdAt (s : State) (t : Strand) (line : Nat) : Strand :=
  { t with held := s.waitAt t.held line, qstall := true }

/-- A strand whose head waits at the home of a line, for the rest of the beat. -/
def State.holdHead (s : State) (t : Strand) (line : Nat) : Strand :=
  { t with hold := s.waitAt t.hold line, stalled := true }

/-- A strand whose access has met a soft error (R361). -/
def State.strike (s : State) (t : Strand) : State :=
  s.put { t with status := .struck }

/-- The state in which a head that names the next head waits for the lines the search passes, if it must (R149, R351). -/
def State.awaitNext (s : State) (t : Strand) : Option State :=
  match (s.afterHead t).2 with
  | .ok _ _ => none
  | .flt _ _ _ _ => none
  | .wait w => some ((s.keepWait w).stall t)
  | .held l w => some ((s.keepWait w).put (s.holdHead t l))
  | .soft _ _ => some (s.strike t)

/-! ## Slot table (R376) -/

/-- The entry of a slot. -/
def State.slot (s : State) (n : Nat) : Word :=
  (Cells.find s.slots n).getD 0

/-- An entry written; an entry of zero is not listed. -/
def State.setSlot (s : State) (n : Nat) (w : Word) : State :=
  { s with slots := Cells.put s.slots n (if w = 0 then none else some w) }

/-- The STATE code of a slot. -/
def slotState (w : Word) : Nat :=
  fieldNat w 30 3

/-- The PART code of a slot. -/
def slotPart (w : Word) : BitVec 2 :=
  w.extractLsb' 28 2

/-- The entries of a strand's quarters with their STATE set. -/
def State.markSlots (s : State) (ids : List Nat) (code : BitVec 3) : State :=
  ids.foldl (fun a n => a.setSlot n (setSlice (a.slot n) 30 code)) s

/-! ## Taking an exception -/

/-- The restart record of a strand (R341 to R343). -/
def Strand.recordOf (t : Strand) (info : Trapped) (pcNext : Word) (viq : List Entry) (epr : Nat)
    (perf : Option (List Nat)) (copies : List Remainder) : Record where
  pcNext := pcNext
  info := info
  vcp := t.vcp
  tokp := t.tokp
  resv := regMask t.reserved
  vtype := t.vtype
  vl := t.vl
  epr := epr
  waitq := match t.wait with
    | .queue _ _ => true
    | _ => false
  queue := match t.wait with
    | .queue q _ => BitVec.ofNat 64 q
    | _ => 0
  perf := perf
  s := t.s
  fstat := t.fstat
  prog := t.prog
  stlMem := t.stlMem
  viq := viq
  copies := copies

/-- Every value in the result queue delivered to its register (R20). -/
def Strand.flush (t : Strand) : Strand :=
  t.rq.foldl (fun u x => u.setS x.1 x.2) { t with rq := [] }

/-- Take an exception (R165, R342, R348, R376): the restart record holds the cause, its data, the PC, the VIQ entries
that have not completed and the scalar registers; the strand stops and its quarters read STATE 2. -/
def State.takeTrap (s : State) (t : Strand) (info : Trapped) (pcNext : Word) (viq : List Entry) (epr : Nat)
    (perf : Option (List Nat)) : State :=
  let u := { t.flush with viq := viq }
  let r := u.recordOf info pcNext viq epr perf []
  ((s.endStrand t.id.sid).put
    { u with status := .trapped, record := some r, held := none, hold := none, notice := false, unrepaired := false, viq := [], vfault := none, copen := false,
             fresh := true, stalled := true, busy := false, vamo := none,
             xch := match u.xch with
               | .ended d => .ended d
               | _ => .none }).markSlots t.slotIds 2

/-- A fault of the scalar side, or a head refused at dispatch (R162, R165): the open convoy closes, older vector-queue
instructions complete first and a fault of theirs is taken instead; then the strand traps with the head's PC, and the
instruction has no effect. A provisional head waits with its fault until the access before it has delivered. -/
def State.scalarTrap (s : State) (t : Strand) (cause : Cause) (addr value : Word) (elem : Nat) : State :=
  let info : Trapped := ⟨cause, addr, value, elem, true, t.pc⟩
  if t.acc.isSome then s.stallClosing t
  else if t.viq.isEmpty && t.rq.isEmpty then s.takeTrap t info t.pc [] 0 none
  else s.put { t.closeConvoy with
    vfault := t.vfault.orElse fun _ => some ⟨t.viq.length, info, 0, none⟩, stalled := true, hold := none }

/-! ## Returning from an exception (R346) -/

/-- The entries of the first convoy start at POS := EPR and skip the performed elements; the others start at 0. Only a
vector atomic reads the performed elements, and a convoy has at most one (R157, R271). Of them, the first alone may be a
`vwait` that goes on with the beats it had left. -/
def resumeEntries (epr : Nat) (perf : List Nat) (left : Option Nat) : List Entry → List Entry
  | [] => []
  | e :: t =>
    { e with cs := true, pos := epr, perf := perf, left := left } ::
      (t.takeWhile fun x => !x.cs).map (fun x => { x with pos := epr, perf := perf })
        ++ (t.dropWhile fun x => !x.cs).map fun x => { x with pos := 0 }

/-- The beats a `vwait` first in the queue still waits, as the record names them: with cause NONE (R341). -/
def Record.left (r : Record) : Option Nat :=
  match r.info.cause, r.viq with
  | .none, e :: _ =>
    match e.i with
    | .vwait _ => some r.info.value.toNat
    | _ => none
  | _, _ => none

/-- A strand restored from its record: registers, `vl`, `vtype`, the queued entries, the wait of `qdrain`, the PC; its
line buffer is empty (R108) and the next vector-queue head starts a convoy (R156). -/
def Strand.restore (t : Strand) (r : Record) : Strand :=
  { t with
    s := r.s.set 0 0
    fstat := r.fstat
    prog := r.prog
    stlMem := r.stlMem
    vl := r.vl
    vtype := r.vtype
    tokp := r.tokp
    vcp := r.vcp
    viq := resumeEntries r.epr (r.perf.getD []) r.left r.viq
    pc := r.pcNext
    seq := t.seq || r.pcNext != t.pc
    copen := false
    fresh := true
    lbuf := []
    ibuf := []
    vamo := none
    busy := false
    status := .running
    record := none
    notice := false
    unrepaired := false
    stalled := false
    qstall := false
    vfault := none }

/-- Return from an exception: the strand is dispatched again under R346, its quarters read STATE 1. -/
def State.resumeTrap (s : State) (t : Strand) (r : Record) : State :=
  ((s.endStrand t.id.sid).put (t.restore r)).markSlots t.slotIds 1

/-! ## Shapes of a scalar instruction -/

/-- Whether an instruction that reads or writes these registers must wait (R20, R110), or must first close the open convoy
for a register a member of it names (R161, R305). -/
def Strand.mustWait (t : Strand) (regs : List SReg) : Bool :=
  regs.any fun r => t.isReserved r || t.isPending r || t.openGave r

/-- The state in which the head waits for one of these registers: one that the open convoy names closes it (R161). -/
def State.waitFor (s : State) (t : Strand) (regs : List SReg) : State :=
  if regs.any t.openNames then s.stallClosing t else s.stall t

/-- A scalar instruction without a fault: it waits for the registers it names, else `f` is its effect on the strand and
fetch goes on after it (R164). -/
def State.scalar (s : State) (regs : List SReg) (f : Strand → Strand) : Out :=
  s.withCur fun t => .next (if t.mustWait regs then s.waitFor t regs else s.put (f t).advance)

/-- A scalar instruction with one result. -/
def State.scalarTo (s : State) (sd : SReg) (srcs : List SReg) (f : Strand → Word) : Out :=
  s.scalar (sd :: srcs) fun t => t.setS sd (f t)

end Sys2Proof.Machine
end

