-- ==== Sys2Proof/Machine/Issue.lean ====
section
/-!
DEFINITION. Issue beats: which strand dispatches next (R17, R21, R22, R413), and what passes at the end of a tick and
of a beat.
-/

namespace Sys2Proof.Machine

/-- The physical core of a strand within the package. -/
def Strand.coreNo (t : Strand) : Nat :=
  24 * t.id.pclus + t.id.pcore

/-- The lowest quarter a strand holds. -/
def Strand.lowest (t : Strand) : Nat :=
  ((quartersOf t.id.qmask)[0]?).getD 0

/-- Whether the allowance in force lets a die issue in this beat (R413); no core issues after a thermal trip (R412). -/
def State.issues (s : State) (die : Nat) : Bool :=
  !s.halted && s.tick % 256 ≤ ((s.dies.toList.map Die.allow).getD die 255).toNat

/-- Whether a gang runs: it is resident and is not being saved (R376, R383). -/
def State.gangRuns (s : State) (h : BitVec 16) : Bool :=
  s.gangs.any fun g => g.handle == h && g.state == .running

/-- Whether an instruction of the VIQ is a waiting one (R155). -/
def isWaiting (i : Instr) : Bool :=
  match i with
  | .acq _ _ _ | .barWait _ | .vwait _ | .fenceG | .fenceD | .fenceS => true
  | _ => false

/-- Whether a gang lets a strand dispatch: it runs; a head in progress goes on while it is being saved (R197). -/
def State.letsDispatch (s : State) (t : Strand) : Bool :=
  s.gangRuns t.id.handle || t.busy && s.gangs.any fun g => g.handle == t.id.handle && g.state == .saving

/-- Whether a strand can dispatch a head (R22): its gang runs and it too, it waits for nothing, no waiting instruction stands in
its VIQ, which has room. A head in progress needs no room, and goes on before a fault of its queue is taken (R197). What stands
first in the VIQ may wait meanwhile. -/
def State.canDispatch (s : State) (t : Strand) : Bool :=
  t.status == .running && t.wait == .none && !t.stalled && t.rq.isEmpty && (t.busy || t.vfault.isNone)
    && !(t.viq.any fun e => isWaiting e.i) && (t.busy || t.viq.length < Config.viqEntries)
    && !s.waitsService (.strand t.id.sid) && s.issues (dieOf t.id.pclus) && s.letsDispatch t

/-- The order in which a beat of quarter `k` is offered to a strand of the partition (R22): the holder of `k` first,
then the others from the quarter after the holder's lowest. -/
def beatRank (base : Nat) (k : Nat) (t : Strand) : Nat :=
  if bitAt t.id.qmask k then 0 else 1 + (t.lowest + 4 - base) % 4

/-- The least element by a measure. -/
def leastBy {α : Type} (f : α → Nat) : List α → Option α
  | [] => none
  | x :: t =>
    match leastBy f t with
    | none => some x
    | some y => if f y < f x then some y else some x

/-- The strand that takes the current beat of a core (R21, R22). R22 orders the strands from the holder of the beat's quarter on
and names no first one for a quarter that no resident strand holds: the model counts from the quarter itself.
[DESIGN CHOICE, log 64] -/
def State.pickOn (s : State) (core : Nat) : Option Strand :=
  let k := s.tick % 4
  let part := slotPart (s.slot (4 * core + k))
  let here := s.strands.filter fun t => t.coreNo == core && t.id.part == part
  let base := match here.find? fun t => bitAt t.id.qmask k with
    | some t => t.lowest
    | none => k
  leastBy (beatRank base k) (here.filter s.canDispatch)

/-- The next core, from `s.core` on, on which a strand takes the beat, and that strand. -/
def State.pick (s : State) : Option (Nat × Strand) :=
  let from_ := if s.heads < 2 then s.core else s.core + 1
  let cores := (s.strands.filter s.canDispatch).map Strand.coreNo
  let picks := (cores.filter fun c => from_ ≤ c).filterMap fun c => (s.pickOn c).map fun t => (c, t)
  leastBy (fun p => p.1) picks

/-- The state in which a strand dispatches its next head: at most two heads of a core in a tick (R17). -/
def State.enter (s : State) (core sid : Nat) : State :=
  { s with
    cur := some sid
    core := core
    heads := if core = s.core then s.heads + 1 else 1 }

/-- A head that waits has not been dispatched: the beat passes on, and the head counts for none (R17, R22). -/
def State.giveBack (s : State) (sid : Nat) : State :=
  if s.strands.any fun t => t.id.sid == sid && t.stalled && t.status == .running && t.vfault.isNone then
    { s with heads := s.heads - 1 }
  else s

/-- The dispatch of a tick is over: no core takes a further head in it. -/
def State.seal (s : State) : State :=
  { s with core := 576, heads := 2 }

/-- Whether a gang is resident (R385): it runs or is being saved. -/
def State.resident (s : State) (h : BitVec 16) : Bool :=
  s.gangs.any fun g => g.handle == h && (g.state == .running || g.state == .saving)

/-- A gang's counts at the end of a beat: its residence (R385) and, while no strand of it is trapped and it is not being
saved, the beats since its last progress (R381). -/
def State.beatOf (s : State) (g : Gang) : Gang :=
  let mine := s.strands.filter fun t => t.id.handle == g.handle
  let g1 := if g.state = .running ∨ g.state = .saving then { g with resident := g.resident + 1 } else g
  if mine.any Strand.moved then { g1 with idle := 0 }
  else if g.state = .running ∧ !mine.any (fun t => t.status == .trapped) then { g1 with idle := g.idle + 1 }
  else g1

/-- What every tick ends: what was held in it may go on. -/
def State.freshTick (s : State) : State :=
  { s with
    core := 0
    heads := 0
    cur := none
    blocked := []
    requests := s.requests.map fun r => { r with stalled := false, delay := r.delay - 1 }
    keystones := s.keystones.map fun k => { k with queue := k.queue.map fun r => { r with stalled := false } } }

/-- The end of a beat: `tick` and the time go on (R56, R410), the strands held in this beat may try again, and what
counts beats of residence counts one (R268, R381, R385). -/
def State.endBeat (s : State) : State :=
  { s.freshTick with
    tick := s.tick + 1
    time3 := if s.timeValid then s.time3 + 5 else s.time3
    phase := 0
    strands := s.strands.map fun t =>
      { t with
        stalled := false
        qstall := false
        moved := false
        wait := match t.wait with
          | .flags w left => .flags w (if s.resident t.id.handle then left - 1 else left)
          | w => w }
    copies := s.copies.map fun c => { c with stalled := false }
    gangs := s.gangs.map s.beatOf }

/-- The end of a control tick: two ticks make a beat (R17). -/
def State.endTick (s : State) : State :=
  if s.phase = 0 then { s.freshTick with phase := 1 } else s.endBeat

end Sys2Proof.Machine
end

