-- ==== Sys2Proof/Machine/Route.lean ====
section
/-!
DEFINITION. The way of a request to its home (R395 to R397): the die and the place of a home, the keystones on the route, and
entering the request network.
-/

namespace Sys2Proof.Machine

/-! ## Places -/

/-- The I/O die that carries the host link and the ridge links: dies 0 to 3 are the compute dies, 4 and 5 the I/O dies (R1).
[DESIGN CHOICE, log 16] -/
def ridgeDie : Nat := 4

/-- The die of a home (R395): the compute die of a slot's cluster or of the stack that holds a loc line; the I/O die of a
second-tier port, eight ports a die (a NODE above 15: log 79); the die of the host and ridge links for the others. -/
def homeDie (h : Nat) : Nat :=
  let a := homeAttr h
  if a = attrSlab then h % 2 ^ 52 / 2 ^ 21 / 24 / 6
  else if a = attrLoc then (Config.stackOfLine (lineOf h)).val / 3
  else if a = attrCxl then 4 + h / 2 ^ 52 % 64 / 8 % 2
  else ridgeDie

/-- The mesh router of a home on a compute die, 0 to 5: the slot's cluster, or the first of the two clusters nearest to the
stack (R415). -/
def homeRouter (h : Nat) : Nat :=
  if homeAttr h = attrSlab then h % 2 ^ 52 / 2 ^ 21 / 24 % 6 else 2 * ((Config.stackOfLine (lineOf h)).val % 3)

/-! ## Routes (R396, R397) -/

/-- The mesh router of the cluster at a column and a row of a die. -/
def routerAt (die c r : Nat) : Nat :=
  24 + 6 * die + 3 * r + c

/-- The routers from the one of cluster `k` of a die to the one of cluster `k'`, without the first, each with the port the
request comes in by: 1 north, 2 east, 3 south, 4 west. Columns are crossed before rows. -/
def meshRoute (die k k' : Nat) : List (Nat × Nat) :=
  let c := k % 3
  let c' := k' % 3
  let r := k / 3
  let r' := k' / 3
  (if c < c' then (List.range (c' - c)).map fun i => (routerAt die (c + 1 + i) r, 4)
    else (List.range (c - c')).map fun i => (routerAt die (c - 1 - i) r, 2))
    ++ if r < r' then [(routerAt die c' r', 1)] else if r' < r then [(routerAt die c' r', 3)] else []

/-- The keystone of a crossing from a die to another. -/
def crossing (a b : Nat) : Nat :=
  48 + 8 * a + b

/-- The keystone of the ridge router. -/
def ridgeRouter : Nat := 96

/-- The way on from the die a request leaves by a crossing: the routers of the die it comes to, or the ridge router. -/
def beyond (die there h : Nat) : List (Nat × Nat) :=
  (crossing die there, 0) :: (if there < 4 then (routerAt there 0 0, 4) :: meshRoute there 0 (homeRouter h)
    else if homeAttr h = attrPeer then [(ridgeRouter, 16)] else [])

/-- The way on from the mesh router of cluster `k` of a compute die. -/
def fromRouter (die k h : Nat) : List (Nat × Nat) :=
  let there := homeDie h
  meshRoute die k (if there = die then homeRouter h else 0) ++ (if there = die then [] else beyond die there h)

/-- The keystones a request from a core passes on its way to a home, with its port at each (R396, R397): its cluster's, 0 to
23; beyond its cluster the mesh routers, 24 to 47, to the home's or to the first of the die, which leads to the crossings; the
crossing to another die; to a peer the ridge router; none to the host (R391). [DESIGN CHOICE, log 16] the spec gives the places
and the ports, not the mesh's shape and not its routes. What another package asks by the ridge ports is not shown (log 93). -/
def routeTo (pclus pcore h : Nat) : List (Nat × Nat) :=
  let own : Nat × Nat := (pclus, pcore)
  if homeAttr h = attrHost then []
  else if homeAttr h = attrSlab && h % 2 ^ 52 / 2 ^ 21 / 24 == pclus then [own]
  else own :: (24 + pclus, 0) :: fromRouter (dieOf pclus) (pclus % 6) h

/-- The keystones a request passes that a keystone reissues (R138, R397). -/
def routeFrom (ks h : Nat) : List (Nat × Nat) :=
  if homeAttr h = attrHost then []
  else if ks < 24 then (routeTo ks 0 h).drop 1
  else if ks < 48 then fromRouter ((ks - 24) / 6) ((ks - 24) % 6) h
  else
    let die := if ks = ridgeRouter then ridgeDie else (ks - 48) % 8
    if die < 4 then (routerAt die 0 0, 4) :: fromRouter die 0 h
    else if homeDie h ≠ die then beyond die (homeDie h) h
    else if homeAttr h = attrPeer && ks != ridgeRouter then [(ridgeRouter, 16)]
    else []

/-- The ticks a request to a home spends on the host link (R391). -/
def hostDelay (h : Nat) : Nat :=
  if homeAttr h = attrHost then Config.hostTicks else 0

/-- A request at the next keystone of its route, or, past the last, at its home. -/
def State.place (s : State) (r : Request) : State :=
  match r.route with
  | [] => { s with requests := s.requests ++ [r] }
  | (ks, port) :: rest =>
    let q := { r with route := rest, port := port }
    match s.keystones.find? fun k => k.ks == ks with
    | some _ => { s with keystones := updWhere s.keystones (fun k => k.ks == ks) fun k => { k with queue := k.queue ++ [q] } }
    | none => { s with keystones := s.keystones ++ [⟨ks, [q], [], []⟩] }

/-- A request that enters the network with a number of its own. -/
def State.send (s : State) (r : Request) : State :=
  { s.place { r with rid := s.nextRid } with nextRid := s.nextRid + 1 }

/-- The home byte a requested address translates to, before any chain is followed, and its page's attribute, with the checks
the access unit makes before it sends a request (R95, R98, R271, R339). -/
def State.firstHome (s : State) (c : Ctx) (va : Word) (n : Nat) (need : Need) (k : Kind) : Res (Nat × Nat) :=
  (s.requested c va n n need).bind fun e s' =>
    match attrCause (pteAttr e.pte) k with
    | some cause => .flt cause va 0 s'
    | none =>
      if pteAttr e.pte = attrSlab then
        match s'.slabHome c.asid va with
        | some h => .ok (h, attrSlab) s'
        | none => .flt .slabAbsent va 0 s'
      else .ok (entryHome e (va52 va), pteAttr e.pte) s'

end Sys2Proof.Machine
end

