-- ==== Sys2Proof/Machine/Num.lean ====
section
/-!
DEFINITION. Number formats and exact arithmetic (spec/03_numbers.md): a finite value is a sign, a natural mantissa and a
binary exponent; every operation is exact and rounds once at its end.
-/

namespace Sys2Proof.Machine

/-! ## Formats (R63, R68, R71) -/

/-- Which codes of a format are special: infinities and NaNs as IEEE 754, one NaN (E4M3), none. -/
inductive Special where
  | ieee | oneNan | none
  deriving DecidableEq, Repr

/-- A binary format: exponent bits, mantissa bits, bias, special codes; E5M2's NaNs are all quiet (R71). -/
structure Fmt where
  eb      : Nat
  mb      : Nat
  bias    : Nat
  special : Special
  quiet   : Bool
  deriving DecidableEq, Repr

/-- F64 -/
def fmtF64 : Fmt := ⟨11, 52, 1023, .ieee, false⟩
/-- F32 -/
def fmtF32 : Fmt := ⟨8, 23, 127, .ieee, false⟩
/-- F16 -/
def fmtF16 : Fmt := ⟨5, 10, 15, .ieee, false⟩
/-- BF16 -/
def fmtBf16 : Fmt := ⟨8, 7, 127, .ieee, false⟩
/-- E5M2 -/
def fmtE5m2 : Fmt := ⟨5, 2, 15, .ieee, true⟩
/-- E4M3 -/
def fmtE4m3 : Fmt := ⟨4, 3, 7, .oneNan, true⟩
/-- E3M2 -/
def fmtE3m2 : Fmt := ⟨3, 2, 3, .none, true⟩
/-- E2M3 -/
def fmtE2m3 : Fmt := ⟨2, 3, 1, .none, true⟩
/-- E2M1 -/
def fmtE2m1 : Fmt := ⟨2, 1, 1, .none, true⟩

end Sys2Proof.Machine

namespace Sys2Proof

open Machine

/-- The float format of a tag. -/
def Tag.fmt : Tag → Option Fmt
  | .f64 => some fmtF64
  | .f32 => some fmtF32
  | .f16 => some fmtF16
  | .bf16 => some fmtBf16
  | .e5m2 => some fmtE5m2
  | .e4m3 => some fmtE4m3
  | .e3m2 => some fmtE3m2
  | .e2m3 => some fmtE2m3
  | .e2m1 => some fmtE2m1
  | _ => none

/-- The element width of a tag (R63); RAW has none. -/
def Tag.width : Tag → Option Nat
  | .raw => none
  | .i8 | .n8 | .e4m3 | .e5m2 | .e3m2 | .e2m3 | .e8m0 => some 8
  | .i16 | .n16 | .f16 | .bf16 => some 16
  | .i32 | .n32 | .f32 | .trio => some 32
  | .i64 | .n64 | .f64 => some 64
  | .e2m1 | .i4 | .n4 => some 4

/-- The bits of an element that hold its value: an E3M2 or E2M3 element has the lower six of its byte, and the others are
read as 0 and written as 0 (R72). -/
def Tag.kept (t : Tag) (x : Nat) : Nat :=
  if t == .e3m2 || t == .e2m3 then x % 64 else x

/-- Signed integer tags. -/
def Tag.isSigned : Tag → Bool
  | .i4 | .i8 | .i16 | .i32 | .i64 => true
  | _ => false

/-- Unsigned integer tags. -/
def Tag.isUnsigned : Tag → Bool
  | .n4 | .n8 | .n16 | .n32 | .n64 => true
  | _ => false

/-- Integer tags. -/
def Tag.isInt (t : Tag) : Bool :=
  t.isSigned || t.isUnsigned

/-- The least value of an integer tag. -/
def Tag.intMin (t : Tag) : Int :=
  match t.width with
  | some w => if t.isSigned then -((2 ^ (w - 1) : Nat) : Int) else 0
  | none => 0

/-- The greatest value of an integer tag. -/
def Tag.intMax (t : Tag) : Int :=
  match t.width with
  | some w => if t.isSigned then ((2 ^ (w - 1) : Nat) : Int) - 1 else ((2 ^ w : Nat) : Int) - 1
  | none => 0

/-- The value of an integer encoding (R66). -/
def Tag.intValue (t : Tag) (x : Nat) : Int :=
  match t.width with
  | some w => if t.isSigned then signedOf w x else (x % 2 ^ w : Nat)
  | none => (x : Int)

end Sys2Proof

namespace Sys2Proof.Machine

/-- The sign bit's weight: all exponent and mantissa bits lie below it. -/
def Fmt.signBit (f : Fmt) : Nat := 2 ^ (f.eb + f.mb)

/-- A value read from a format. -/
inductive Fv where
  | nan (signalling : Bool)
  | inf (neg : Bool)
  /-- (-1)^neg × m × 2^e -/
  | fin (neg : Bool) (m : Nat) (e : Int)
  deriving DecidableEq, Repr

/-- Read a value (R68, R71); bits above the format's are ignored (R72). -/
def Fmt.unpack (f : Fmt) (x : Nat) : Fv :=
  let neg := x / f.signBit % 2 == 1
  let ex := x / 2 ^ f.mb % 2 ^ f.eb
  let mant := x % 2 ^ f.mb
  let finite : Fv :=
    if ex = 0 then .fin neg mant (1 - (f.bias : Int) - f.mb)
    else .fin neg (2 ^ f.mb + mant) ((ex : Int) - f.bias - f.mb)
  if ex = 2 ^ f.eb - 1 then
    match f.special with
    | .ieee => if mant = 0 then .inf neg else .nan (!f.quiet && mant < 2 ^ (f.mb - 1))
    | .oneNan => if mant = 2 ^ f.mb - 1 then .nan false else finite
    | .none => finite
  else finite

/-- The canonical NaN (R68, R71); a format without NaN gives +0 (R78). -/
def Fmt.nanBits (f : Fmt) : Nat :=
  match f.special with
  | .ieee => (2 ^ f.eb - 1) * 2 ^ f.mb + 2 ^ (f.mb - 1)
  | .oneNan => 2 ^ (f.eb + f.mb) - 1
  | .none => 0

/-- The mantissa of the largest finite value, with its leading one. -/
def Fmt.maxMant (f : Fmt) : Nat :=
  if f.special = .oneNan then 2 ^ (f.mb + 1) - 2 else 2 ^ (f.mb + 1) - 1

/-- The exponent field of the largest finite value. -/
def Fmt.maxField (f : Fmt) : Nat :=
  if f.special = .ieee then 2 ^ f.eb - 2 else 2 ^ f.eb - 1

/-- The bits of ± the largest finite value. -/
def Fmt.maxBits (f : Fmt) (neg : Bool) : Nat :=
  (if neg then f.signBit else 0) + f.maxField * 2 ^ f.mb + (f.maxMant - 2 ^ f.mb)

/-- The bits of an infinity; of a format without infinity, its NaN or largest finite value. -/
def Fmt.infBits (f : Fmt) (neg : Bool) : Nat :=
  match f.special with
  | .ieee => (if neg then f.signBit else 0) + (2 ^ f.eb - 1) * 2 ^ f.mb
  | .oneNan => f.nanBits
  | .none => f.maxBits neg

/-! ## Rounding (R75, R76) -/

/-- Bits of a number up to its highest set bit. -/
def bitLen (n : Nat) : Nat :=
  if n = 0 then 0 else n.log2 + 1

/-- Whether a discarded part rounds the magnitude up, where the whole part is `hi`, the rest `rem` of `2^sh`. -/
def roundsUp (rm : Rm) (neg : Bool) (hi rem sh : Nat) : Bool :=
  match rm with
  | .rne => 2 * rem > 2 ^ sh || (2 * rem == 2 ^ sh && hi % 2 == 1)
  | .rtz => false
  | .rdn => neg && rem != 0
  | .rup => !neg && rem != 0

/-- Whether an overflow gives infinity rather than the largest finite value (R76). -/
def overflowsToInf (rm : Rm) (neg : Bool) : Bool :=
  match rm with
  | .rne => true
  | .rtz => false
  | .rdn => neg
  | .rup => !neg

/-- `round(x, f, rm, sat)` of R76 for x = (-1)^neg × m × 2^e: the bits and the flags raised. -/
def Fmt.round (f : Fmt) (rm : Rm) (sat neg : Bool) (m : Nat) (e : Int) : Nat × Flags :=
  let sign := if neg then f.signBit else 0
  if m = 0 then (sign, 0)
  else
    let emin : Int := 1 - (f.bias : Int) - f.mb
    let q0 : Int := max (e + bitLen m - (f.mb + 1)) emin
    let sh : Nat := (q0 - e).toNat
    let hi := if q0 ≤ e then m * 2 ^ (e - q0).toNat else m / 2 ^ sh
    let rem := if q0 ≤ e then 0 else m % 2 ^ sh
    let r0 := if roundsUp rm neg hi rem sh then hi + 1 else hi
    let carry := r0 == 2 ^ (f.mb + 1)
    let r := if carry then 2 ^ f.mb else r0
    let q := if carry then q0 + 1 else q0
    let inexact := rem != 0
    let maxExp : Int := (f.maxField : Int) - f.bias - f.mb
    if q > maxExp ∨ (q = maxExp ∧ r > f.maxMant) then
      if sat ∨ f.special = .none then (f.maxBits neg, flagSat ||| flagNx)
      else if overflowsToInf rm neg then (f.infBits neg, flagOf ||| flagNx)
      else (f.maxBits neg, flagOf ||| flagNx)
    else if r < 2 ^ f.mb then (sign + r, flagIf inexact (flagNx ||| flagUf))
    else (sign + (q + f.bias + f.mb).toNat * 2 ^ f.mb + (r - 2 ^ f.mb), flagIf inexact flagNx)

/-! ## Exact results -/

/-- The exact result of an operation and the flags its operands raise. -/
structure Exact where
  v     : Fv
  flags : Flags
  deriving DecidableEq, Repr

/-- An operand that is a signalling NaN raises NV (R69). -/
def snan : Fv → Flags
  | .nan true => flagNv
  | _ => 0

/-- Whether a value is a NaN. -/
def Fv.isNan : Fv → Bool
  | .nan _ => true
  | _ => false

/-- Deliver an exact result in a format (R69, R76, R78). -/
def Fmt.deliver (f : Fmt) (rm : Rm) (sat : Bool) (x : Exact) : Nat × Flags :=
  match x.v with
  | .nan _ => (f.nanBits, x.flags ||| flagIf (f.special == .none) flagNv)
  | .inf neg =>
    match f.special with
    | .ieee => (f.infBits neg, x.flags)
    | .oneNan => if sat then (f.maxBits neg, x.flags ||| flagSat) else (f.nanBits, x.flags ||| flagNv)
    | .none => (f.maxBits neg, x.flags ||| flagSat)
  | .fin neg m e =>
    let (b, fl) := f.round rm sat neg m e
    (b, x.flags ||| fl)

/-- The NaN of an invalid operation. -/
def invalid (fl : Flags) : Exact :=
  ⟨.nan false, fl ||| flagNv⟩

/-- The exact sum of two finite values; the sign of an exact zero follows R76. -/
def finAdd (rm : Rm) (na : Bool) (ma : Nat) (ea : Int) (nb : Bool) (mb : Nat) (eb : Int) : Fv :=
  let e := min ea eb
  let va : Int := (ma * 2 ^ (ea - e).toNat : Nat)
  let vb : Int := (mb * 2 ^ (eb - e).toNat : Nat)
  let x := (if na then -va else va) + (if nb then -vb else vb)
  if x = 0 then .fin (if na = nb then na else rm == .rdn) 0 e
  else .fin (decide (x < 0)) x.natAbs e

/-- Addition. -/
def exAdd (rm : Rm) (a b : Fv) : Exact :=
  let fl := snan a ||| snan b
  match a, b with
  | .nan _, _ => ⟨.nan false, fl⟩
  | _, .nan _ => ⟨.nan false, fl⟩
  | .inf x, .inf y => if x = y then ⟨.inf x, fl⟩ else invalid fl
  | .inf x, .fin _ _ _ => ⟨.inf x, fl⟩
  | .fin _ _ _, .inf y => ⟨.inf y, fl⟩
  | .fin na ma ea, .fin nb mb eb => ⟨finAdd rm na ma ea nb mb eb, fl⟩

/-- The value with its sign changed. -/
def Fv.neg : Fv → Fv
  | .nan s => .nan s
  | .inf n => .inf (!n)
  | .fin n m e => .fin (!n) m e

/-- Subtraction. -/
def exSub (rm : Rm) (a b : Fv) : Exact :=
  exAdd rm a b.neg

/-- Whether a value is zero. -/
def Fv.isZero : Fv → Bool
  | .fin _ 0 _ => true
  | _ => false

/-- The sign of a value. -/
def Fv.sign : Fv → Bool
  | .nan _ => false
  | .inf n => n
  | .fin n _ _ => n

/-- Multiplication. -/
def exMul (a b : Fv) : Exact :=
  let fl := snan a ||| snan b
  match a, b with
  | .nan _, _ => ⟨.nan false, fl⟩
  | _, .nan _ => ⟨.nan false, fl⟩
  | .inf x, y => if y.isZero then invalid fl else ⟨.inf (x != y.sign), fl⟩
  | x, .inf y => if x.isZero then invalid fl else ⟨.inf (x.sign != y), fl⟩
  | .fin na ma ea, .fin nb mb eb => ⟨.fin (na != nb) (ma * mb) (ea + eb), fl⟩

/-- Fused multiply-add a × b + c, one rounding (R181): ∞ × 0 is invalid whatever the addend. -/
def exFma (rm : Rm) (a b c : Fv) : Exact :=
  let p := exMul a b
  let s := exAdd rm p.v c
  ⟨s.v, p.flags ||| s.flags⟩

/-- A quotient kept to 70 bits beyond the divisor's, with the lowest bit set where a rest remains: more than any format
needs, so that one rounding follows. -/
def quotient (ma mb : Nat) : Nat × Int :=
  let k := 70 + bitLen mb
  let q := ma * 2 ^ k / mb
  (if ma * 2 ^ k % mb = 0 then 2 * q else 2 * q + 1, -(k + 1 : Int))

/-- Division (R180). -/
def exDiv (a b : Fv) : Exact :=
  let fl := snan a ||| snan b
  match a, b with
  | .nan _, _ => ⟨.nan false, fl⟩
  | _, .nan _ => ⟨.nan false, fl⟩
  | .inf _, .inf _ => invalid fl
  | .inf x, .fin n _ _ => ⟨.inf (x != n), fl⟩
  | .fin n _ _, .inf y => ⟨.fin (n != y) 0 0, fl⟩
  | .fin na ma ea, .fin nb mb eb =>
    if mb = 0 then (if ma = 0 then invalid fl else ⟨.inf (na != nb), fl ||| flagDz⟩)
    else let (q, e) := quotient ma mb; ⟨.fin (na != nb) q (ea - eb + e), fl⟩

/-- The integer square root by bits, from bit `i` down. -/
def isqrt (n : Nat) : (i r : Nat) → Nat
  | 0, r => if (r + 1) * (r + 1) ≤ n then r + 1 else r
  | i + 1, r => isqrt n i (if (r + 2 ^ (i + 1)) * (r + 2 ^ (i + 1)) ≤ n then r + 2 ^ (i + 1) else r)

/-- Square root (R182), kept to more bits than any format needs, the lowest set where a rest remains. -/
def exSqrt (a : Fv) : Exact :=
  match a with
  | .nan s => ⟨.nan false, snan (.nan s)⟩
  | .inf n => if n then invalid 0 else ⟨.inf false, 0⟩
  | .fin n m e =>
    if m = 0 then ⟨.fin n 0 0, 0⟩
    else if n then invalid 0
    else
      let k : Nat := if e % 2 = 0 then 128 else 129
      let x := m * 2 ^ (k : Nat)
      let r := isqrt x (bitLen x / 2 + 1) 0
      ⟨.fin false (if r * r = x then 2 * r else 2 * r + 1) ((e - k) / 2 - 1), 0⟩

/-! ## Order (R80, R183) -/

/-- a < b for finite values. -/
def finLt (na : Bool) (ma : Nat) (ea : Int) (nb : Bool) (mb : Nat) (eb : Int) : Bool :=
  let e := min ea eb
  let va : Int := (ma * 2 ^ (ea - e).toNat : Nat)
  let vb : Int := (mb * 2 ^ (eb - e).toNat : Nat)
  decide ((if na then -va else va) < (if nb then -vb else vb))

/-- a < b; false with a NaN. -/
def Fv.lt (a b : Fv) : Bool :=
  match a, b with
  | .nan _, _ => false
  | _, .nan _ => false
  | .inf x, .inf y => x && !y
  | .inf x, .fin _ _ _ => x
  | .fin _ _ _, .inf y => !y
  | .fin na ma ea, .fin nb mb eb => finLt na ma ea nb mb eb

/-- a = b, with +0 = -0; false with a NaN. -/
def Fv.eq (a b : Fv) : Bool :=
  !a.isNan && !b.isNan && !a.lt b && !b.lt a

/-- a before b where -0 comes before +0 (R80). -/
def Fv.before (a b : Fv) : Bool :=
  a.lt b || (a.isZero && b.isZero && a.sign && !b.sign)

/-- minimumNumber, or maximumNumber, of two encodings (R80). -/
def Fmt.minMax (f : Fmt) (wantMax : Bool) (x y : Nat) : Nat × Flags :=
  let a := f.unpack x
  let b := f.unpack y
  let fl := snan a ||| snan b
  if a.isNan && b.isNan then (f.nanBits, fl)
  else if a.isNan then (y, fl)
  else if b.isNan then (x, fl)
  else if (if wantMax then a.before b else b.before a) then (y, fl) else (x, fl)

/-! ## Conversions (R77 to R79) -/

/-- A value from one format into another. -/
def Fmt.convert (src dst : Fmt) (rm : Rm) (sat : Bool) (x : Nat) : Nat × Flags :=
  let a := src.unpack x
  dst.deliver rm sat ⟨a, snan a⟩

/-- An integer into a float format (R79). -/
def Fmt.ofInt (f : Fmt) (rm : Rm) (sat : Bool) (x : Int) : Nat × Flags :=
  f.round rm sat (decide (x < 0)) x.natAbs 0

/-- A finite value rounded to an integer, and whether it is inexact. -/
def roundToInt (rm : Rm) (neg : Bool) (m : Nat) (e : Int) : Int × Bool :=
  if 0 ≤ e then
    let v : Int := (m * 2 ^ e.toNat : Nat)
    (if neg then -v else v, false)
  else
    let sh := (-e).toNat
    let hi := m / 2 ^ sh
    let rem := m % 2 ^ sh
    let r : Int := (if roundsUp rm neg hi rem sh then hi + 1 else hi : Nat)
    (if neg then -r else r, rem != 0)

/-- A float value into the integer range [lo, hi] (R79): the integer and the flags. -/
def toIntRange (rm : Rm) (lo hi : Int) (a : Fv) : Int × Flags :=
  match a with
  | .nan _ => (0, flagNv)
  | .inf n => (if n then lo else hi, flagNv)
  | .fin n m e =>
    let (r, inexact) := roundToInt rm n m e
    if r < lo then (lo, flagNv) else if r > hi then (hi, flagNv) else (r, flagIf inexact flagNx)

/-- An integer into an integer tag (R67): the low bits, or with `.sat` the nearest limit and SAT. -/
def intTo (t : Tag) (sat : Bool) (x : Int) : Nat × Flags :=
  let w := t.width.getD 64
  if sat && x < t.intMin then (wrapTo w t.intMin, flagSat)
  else if sat && x > t.intMax then (wrapTo w t.intMax, flagSat)
  else (wrapTo w x, 0)

/-! ## E8M0 scales (R73, R74) -/

/-- A value times a scale code: exact; 0xFF gives NaN and NSC, and NV for a signalling NaN (R69). -/
def scaleBy (a : Fv) (code : Nat) : Exact :=
  if code % 256 = 255 then ⟨.nan false, flagNsc ||| snan a⟩
  else
    match a with
    | .nan s => ⟨.nan false, snan (.nan s)⟩
    | .inf n => ⟨.inf n, 0⟩
    | .fin n m e => ⟨.fin n m (e + (code % 256 : Nat) - 127), 0⟩

/-! ## TRIO (R84 to R86) -/

/-- The channels of a container, reduced: modulo 255, 256, 257. -/
def trioRead (x : Nat) : Nat × Nat × Nat :=
  (x % 256 % 255, x / 2 ^ 8 % 256, x / 2 ^ 16 % 512 % 257)

/-- A canonical container. -/
def trioPack (c : Nat × Nat × Nat) : Nat :=
  c.1 + c.2.1 * 2 ^ 8 + c.2.2 * 2 ^ 16

/-- A product added channel by channel (R85). -/
def trioMulAdd (t : Nat) (a b : Int) : Nat :=
  let c := trioRead t
  let ch (m c : Nat) : Nat := ((c : Int) + (a % m) * (b % m)).toNat % m
  trioPack (ch 255 c.1, ch 256 c.2.1, ch 257 c.2.2)

/-- The signed integer of a container (R86). -/
def trioValue (t : Nat) : Int :=
  let c := trioRead t
  let x := (c.1 * 8421376 + c.2.1 * 16711425 + c.2.2 * 8421120) % 16776960
  if x ≥ 8388480 then (x : Int) - 16776960 else x

end Sys2Proof.Machine
end

