-- ==== Sys2Proof/Machine/Operands.lean ====
section
/-!
DEFINITION. Operands of vector instructions: `vtype` (R39 to R41), elements in registers and groups (R37, R38, R200),
masks (R47), the element policies (R48), tags and their checks (R50, R51, R65).
-/

namespace Sys2Proof.Machine

/-! ## vtype (R39) -/

/-- EW in bits. -/
def ewOf (vt : BitVec 12) : Nat := 4 * 2 ^ fieldNat vt 3 3
/-- GRP. -/
def grpOf (vt : BitVec 12) : Nat := 2 ^ fieldNat vt 0 3
/-- BLK: the elements of a scale block, 1 for none (R228). -/
def blkOf (vt : BitVec 12) : Nat :=
  let b := fieldNat vt 6 2
  if b = 0 then 1 else 8 * 2 ^ b
/-- RM. -/
def vrmOf (vt : BitVec 12) : Rm := Rm.ofCode (vt.extractLsb' 8 2)
/-- MU. -/
def muOf (vt : BitVec 12) : Bool := bitAt vt 10
/-- TU. -/
def tuOf (vt : BitVec 12) : Bool := bitAt vt 11

/-- Whether a `vtype` holds no reserved code (R40). -/
def vtypeOk (vt : BitVec 12) : Bool :=
  fieldNat vt 3 3 ≤ 4 && fieldNat vt 0 3 ≤ 3

/-- VLMAX (R41). -/
def vlmaxOf (q : Nat) (vt : BitVec 12) : Nat :=
  32768 * q * grpOf vt / ewOf vt

/-! ## Elements (R37, R38) -/

/-- Elements of width `w` that one register of a strand with `q` quarters holds. -/
def perReg (q w : Nat) : Nat :=
  32768 * q / w

/-- The place of an index in a register: lane index mod 256, depth slot index div 256. -/
def elemOff (w idx : Nat) : Nat :=
  512 * (idx % 256) + idx / 256 * w

/-- A vector register by number; numbers run modulo 64 (groups past v63 are refused by the group checks). -/
def regAt (v : Vector VecReg 64) (n : Nat) : VecReg :=
  v[n % 64]'(Nat.mod_lt n (by decide))

/-- Element e, of width w, of the group that starts at register `base`. -/
def elemGet (v : Vector VecReg 64) (q base w e : Nat) : Nat :=
  let p := perReg q w
  ((regAt v (base + e / p)).bits.extractLsb' (elemOff w (e % p)) w).toNat

/-- Element e, of width w, of a group written. -/
def elemSet (v : Vector VecReg 64) (q base w e x : Nat) : Vector VecReg 64 :=
  let p := perReg q w
  let n := (base + e / p) % 64
  let r := regAt v n
  v.set n { r with bits := setSlice r.bits (elemOff w (e % p)) (BitVec.ofNat w x) } (Nat.mod_lt _ (by decide))

/-- Registers of a group of width `w` (R200). -/
def groupSize (vt : BitVec 12) (w : Nat) : Nat :=
  max 1 (grpOf vt * w / ewOf vt)

/-- A group starts at a multiple of its size, has at most 8 registers and ends at v63 or below (R38, R200). -/
def groupOk (base size : Nat) : Bool :=
  size ≤ 8 && base % size == 0 && base + size ≤ 64

/-- Whether two groups share a register. -/
def groupsMeet (a sa b sb : Nat) : Bool :=
  a < b + sb && b < a + sa

/-- The tag of a group, where all its registers carry one (R51). -/
def groupTag (v : Vector VecReg 64) (base size : Nat) : Option Tag :=
  let t := (regAt v base).tag
  if (List.range size).all fun i => (regAt v (base + i)).tag == t then some t else none

/-- The tag of every register of a group set (R50). -/
def setTags (v : Vector VecReg 64) (base size : Nat) (t : Tag) : Vector VecReg 64 :=
  (List.range size).foldl (fun u i =>
    let n := (base + i) % 64
    u.set n { regAt u n with tag := t } (Nat.mod_lt _ (by decide))) v

/-! ## Masks (R47) -/

/-- A bit of a mask register: k0 reads all true. -/
def maskBit (k : Vector KBits 8) (r : KReg) (e : Nat) : Bool :=
  if r = 0 then true else (k[r.toNat]'r.isLt).getLsbD e

/-- A bit of a mask register written: a write to k0 is discarded. -/
def maskSet (k : Vector KBits 8) (r : KReg) (e : Nat) (b : Bool) : Vector KBits 8 :=
  if r = 0 then k else k.set r.toNat (setSlice (k[r.toNat]'r.isLt) e (bit1 b)) r.isLt

/-- Whether the mask admits an element. -/
def admits (k : Vector KBits 8) (m : MaskOp) (e : Nat) : Bool :=
  maskBit k m.k e != m.sense

/-! ## Writing elements (R48) -/

/-- What happens to one element of a destination. -/
inductive Put where
  | val (x : Nat)
  | keep
  | zero
  deriving DecidableEq, Repr

/-- A destination: a vector group of a width, a mask register, or none. -/
inductive Dst where
  | vec (base w : Nat)
  | mask (r : KReg)
  | nothing
  deriving DecidableEq, Repr

/-- One element of a destination written. -/
def Strand.putElem (t : Strand) (d : Dst) (e : Nat) (p : Put) : Strand :=
  match p with
  | .keep => t
  | .val x =>
    match d with
    | .vec base w => { t with v := elemSet t.v t.q base w e x }
    | .mask r => { t with k := maskSet t.k r e (x % 2 == 1) }
    | .nothing => t
  | .zero =>
    match d with
    | .vec base w => { t with v := elemSet t.v t.q base w e 0 }
    | .mask r => { t with k := maskSet t.k r e false }
    | .nothing => t

/-- What MU gives an inactive element. -/
def inactive (vt : BitVec 12) : Put :=
  if muOf vt then .zero else .keep

/-- The elements from `lo` to `hi` - 1 of a destination under TU (R48). -/
def Strand.tail (t : Strand) (vt : BitVec 12) (d : Dst) (lo hi : Nat) : Strand :=
  if tuOf vt then (List.range (hi - lo)).foldl (fun u i => u.putElem d (lo + i) .zero) t else t

/-- Flags raised in the lane of an element (R90). -/
def Strand.raise (t : Strand) (e : Nat) (f : Flags) : Strand :=
  if f = 0 then t else { t with lflags := raiseLane t.lflags (e % 256) f }

/-! ## Tag classes -/

/-- The float tags of the arithmetic instructions (R204). -/
def isArithFloat (t : Tag) : Bool :=
  t == .f16 || t == .bf16 || t == .f32 || t == .f64

/-- RAW, or a tag of the width an operand is read at (R65). -/
def widthOk (t : Tag) (w : Nat) : Bool :=
  t == .raw || t.width == some w

/-- An index operand: RAW or an integer tag of its width (R201). -/
def indexOk (t : Tag) (w : Nat) : Bool :=
  t == .raw || (t.isInt && t.width == some w)

/-- A sign- or zero-extended element as a doubleword (R212, R218). -/
def extendElem (t : Tag) (w x : Nat) : Word :=
  if t.isSigned then BitVec.ofInt 64 (signedOf w x) else BitVec.ofNat 64 x

/-- The value of an index: sign-extended for I tags (R218). -/
def shiftIndex (t : Tag) (w x sh : Nat) : Word :=
  extendElem t w x <<< sh

/-! ## The store of a lane (R104, R105) -/

/-- `w` bits of a lane's store at a bit offset. -/
def laneGet (l : Vector (BitVec 8192) 256) (lane off w : Nat) : Nat :=
  ((l[lane % 256]'(Nat.mod_lt _ (by decide))).extractLsb' off w).toNat

/-- `w` bits of a lane's store written. -/
def laneSet (l : Vector (BitVec 8192) 256) (lane off w x : Nat) : Vector (BitVec 8192) 256 :=
  l.set (lane % 256) (setSlice (l[lane % 256]'(Nat.mod_lt _ (by decide))) off (BitVec.ofNat w x))
    (Nat.mod_lt _ (by decide))

/-! ## Tiles (R49, R235) -/

/-- The bits of element (i, j) of a tile. -/
def tileGet (m : Tile) (i j : Nat) : Nat :=
  (m.bits.extractLsb' (32 * (128 * i + j)) 32).toNat

/-- Element (i, j) of a tile written. -/
def tileSet (m : Tile) (i j x : Nat) : Tile :=
  { m with bits := setSlice m.bits (32 * (128 * i + j)) (BitVec.ofNat 32 x) }

/-- A tile by number. -/
def Strand.tile (t : Strand) (r : TReg) : Tile :=
  t.m[r.toNat]'r.isLt

/-- A tile replaced. -/
def Strand.setTile (t : Strand) (r : TReg) (x : Tile) : Strand :=
  { t with m := t.m.set r.toNat x r.isLt }

end Sys2Proof.Machine
end

