-- ==== Sys2Proof/Machine/Run.lean ====
section
/-!
DEFINITION. The procedure of a convoy (R159): the instructions of the convoy are prepared in order (checks of R201,
capture of cross-element sources), then performed group by group.
-/

namespace Sys2Proof.Machine

/-! ## A convoy in progress -/

/-- An addition to an accumulation window that waits for its place in the last group (R159, R276): the lane, the bit offset
in its store, the tag, the rounding mode, the width and the value. -/
structure WinAdd where
  lane : Nat
  off  : Nat
  ty   : Tag
  rm   : Rm
  w    : Nat
  x    : Nat
  deriving DecidableEq, Repr

/-- What a running convoy works on: the strand, the package, the bytes it has accessed (first byte, length, written), a value
to deliver, the window additions that wait for their place, once a vector atomic goes through its requests the elements that
have returned, and what `vlt.fill` has written. -/
structure Run where
  t    : Strand
  s    : State
  acc  : List (Nat × Nat × Bool)
  out  : Option Word
  pend : List WinAdd
  got  : Option (List (Nat × Word × BitVec 7))
  fills : List Fill

/-- A run that has done nothing yet. -/
def Run.start (t : Strand) (s : State) (got : Option (List (Nat × Word × BitVec 7))) : Run :=
  ⟨t, s, [], none, [], got, []⟩

/-- Why the last instruction of a convoy stops inside itself (R224, R251). -/
inductive Why where
  | fault (c : Cause) (addr value : Word)
  | wait (s : State)
  | held (line : Nat) (s : State)
  | pause

/-- Why a convoy stops before its end. -/
inductive Stop where
  /-- a precise fault at element e: everything below e is performed (R26, R221); the package with the translations of the
  access, of which a fresh one stands (R358) -/
  | precise (e : Nat) (c : Cause) (addr value : Word) (s : State)
  /-- a fault of a vector atomic found at the line of element e; the elements above it that may be performed (R271) -/
  | partly (e : Nat) (c : Cause) (addr value : Word) (above : List Nat) (s : State)
  /-- a load fault at element e: at 0 it traps, above 0 it trims `vl` (R220) -/
  | load (e : Nat) (c : Cause) (addr value : Word) (s : State)
  /-- the last instruction of a convoy stops at its element e: the convoy's other members have completed, and the run holds
  what it has performed (R224, R251) -/
  | last (e : Nat) (why : Why) (r : Run)
  /-- the access of element e waits for a fault service -/
  | wait (e : Nat) (s : State)
  /-- the access of element e waits at the home of a line (R128, R399, R416) -/
  | held (e line : Nat) (s : State)
  /-- an exchange to offer (R231) -/
  | offer (o : Xoffer)
  /-- a soft error at a line (R361) -/
  | soft (line : Nat) (s : State)
  /-- elements of a vector atomic to send, with their requests (R270, R271) -/
  | send (reqs : List (Nat × Request)) (r : Run)

/-- The outcome of a piece of a convoy. -/
inductive Rr where
  | ok (r : Run)
  | stop (x : Stop)

/-- Continue while nothing stops. -/
def Rr.bind (x : Rr) (f : Run → Rr) : Rr :=
  match x with
  | .ok r => f r
  | .stop y => .stop y

/-- A prepared instruction: what it does to the elements from `lo` to `hi` - 1, and what it does at its place in the
last group (tails, scalar, tile and window destinations). -/
structure Mop where
  group : (lo hi : Nat) → Run → Rr
  final : Run → Rr

/-- The outcome of preparing an instruction: a failed check (R201), a stop, or the strand with its tags set and the
prepared instruction. -/
inductive Prep where
  | fail (c : Cause)
  | stop (x : Stop)
  | ok (t : Strand) (m : Mop)

/-- `f` at `n` elements from `e` upward. -/
def eachElem (f : Nat → Run → Rr) : (n e : Nat) → Run → Rr
  | 0, _, r => .ok r
  | n + 1, e, r => (f e r).bind fun r' => eachElem f n (e + 1) r'

/-- `f` at the elements from `lo` to `hi` - 1. -/
def overElems (f : Nat → Run → Rr) (lo hi : Nat) (r : Run) : Rr :=
  eachElem f (hi - lo) lo r

/-- A change of the strand alone. -/
def Run.upd (r : Run) (f : Strand → Strand) : Run :=
  { r with t := f r.t }

/-- What `final` does for a destination group: the tail under TU (R48). -/
def tailOf (vt : BitVec 12) (d : Dst) (vl vlmax : Nat) (r : Run) : Rr :=
  .ok (r.upd fun t => t.tail vt d vl vlmax)

/-- An instruction that writes each element from what `f` gives for it: the put and the flags (R48, R90). -/
def elementMop (vt : BitVec 12) (d : Dst) (vl vlmax : Nat) (f : Strand → Nat → Put × Flags) : Mop where
  group := overElems fun e r =>
    let (p, fl) := f r.t e
    .ok (r.upd fun t => (t.putElem d e p).raise e fl)
  final := tailOf vt d vl vlmax

/-- An element-wise instruction under a mask: `f` for an active element, MU for an inactive one. -/
def maskedMop (vt : BitVec 12) (m : MaskOp) (d : Dst) (vl vlmax : Nat) (f : Strand → Nat → Nat × Flags) : Mop :=
  elementMop vt d vl vlmax fun t e =>
    if admits t.k m e then let (x, fl) := f t e; (.val x, fl) else (inactive vt, 0)

/-- An instruction that only delivers a value at its place in the last group, with the flags it raises by element. -/
def resultMop (x : Word) (flags : List (Nat × Flags)) : Mop where
  group := fun _ _ r => .ok r
  final := fun r => .ok { (r.upd fun t => flags.foldl (fun u p => u.raise p.1 p.2) t) with out := some x }

/-- A convoy member that has nothing to do. -/
def idleMop : Mop where
  group := fun _ _ r => .ok r
  final := fun r => .ok r

/-- A member that has performed its elements below `pos` already and, if `fin`, has acted at its place in the last group. -/
def Mop.resumed (m : Mop) (pos : Nat) (fin : Bool) : Mop where
  group := fun lo hi => m.group (max lo pos) hi
  final := if fin then fun r => .ok r else m.final

/-! ## The procedure of R159 -/

/-- The values delivered so far: entry number and value. -/
abbrev Outs := List (Nat × Word)

/-- A group whose member `n`, a vector atomic, has elements to send: the requests, the run before that member, the group's
bounds, whether it is the last, the strand as the group began, the values delivered. -/
structure Sent where
  n    : Nat
  reqs : List (Nat × Request)
  run  : Run
  lo   : Nat
  hi   : Nat
  last : Bool
  back : Strand
  outs : Outs

/-- The outcome of a group or of all groups: a run, or the member that stopped it, and the values delivered. -/
inductive Gr where
  | ok (r : Run) (outs : Outs)
  | stop (n : Nat) (x : Stop) (outs : Outs)
  | sent (x : Sent)

/-- A convoy's members perform elements `lo` to `hi` - 1 in dispatch order; in the last group each then finishes. -/
def runGroup (lo hi : Nat) (last : Bool) : (n : Nat) → List Mop → Run → Outs → Gr
  | _, [], r, outs => .ok r outs
  | n, m :: ms, r, outs =>
    match (m.group lo hi r).bind fun r' => if last then m.final { r' with out := none } else .ok r' with
    | .stop x => .stop n x outs
    | .ok r' =>
      match r'.out with
      | none => runGroup lo hi last (n + 1) ms r' outs
      | some w => runGroup lo hi last (n + 1) ms { r' with out := none } ((n, w) :: outs)

/-- The groups from `g` on: `fuel` of them, elements below `pos` already performed, none at or above `stop`. -/
def runGroups (ms : List Mop) (vl pos stop : Nat) : (fuel g : Nat) → Run → Outs → Gr
  | 0, _, r, outs => .ok r outs
  | fuel + 1, g, r, outs =>
    let lo := max (256 * g) pos
    let hi := min (min (256 * g + 256) vl) stop
    let last := fuel == 0 && vl ≤ stop
    match runGroup lo hi last 0 ms r outs with
    | .stop n (.send reqs run) o => .sent ⟨n, reqs, run, lo, hi, last, r.t, o⟩
    | .stop n x o => .stop n x o
    | .sent x => .sent x
    | .ok r' o => runGroups ms vl pos stop fuel (g + 1) r' o

/-- The number of groups of `vl` elements. -/
def groupsOf (vl : Nat) : Nat :=
  (vl + 255) / 256

/-! ## Memory accesses of an element -/

/-- A stop inside the last instruction of a convoy leaves what it has performed (R224, R251). -/
def Rr.asLast (x : Rr) (r : Run) : Rr :=
  match x with
  | .stop (.precise e c a v s) => .stop (.last e (.fault c a v) { r with s := r.s.keepTlb s })
  | .stop (.wait e s) => .stop (.last e (.wait s) r)
  | .stop (.held e l s) => .stop (.last e (.held l s) r)
  | y => y

/-- Turn the outcome of a load into a run. -/
def ofLoad {α : Type} (r : Run) (e : Nat) (x : Res α) (f : α → Run → Rr) : Rr :=
  match x with
  | .ok v s => f v { r with s := s }
  | .flt c a v w => .stop (.load e c a v w)
  | .wait s => .stop (.wait e s)
  | .held l s => .stop (.held e l s)
  | .soft l s => .stop (.soft l s)

/-- Turn the outcome of a precise access into a run. -/
def ofPrecise {α : Type} (r : Run) (e : Nat) (x : Res α) (f : α → Run → Rr) : Rr :=
  match x with
  | .ok v s => f v { r with s := s }
  | .flt c a v w => .stop (.precise e c a v w)
  | .wait s => .stop (.wait e s)
  | .held l s => .stop (.held e l s)
  | .soft l s => .stop (.soft l s)

end Sys2Proof.Machine
end

