-- ==== Sys2Proof/Machine/VecArith.lean ====
section
/-!
DEFINITION. Vector arithmetic: integer (R203), float (R204 to R206), compares (R207), selects and masks (R208 to R210),
moves (R211, R212), reductions (R213), conversions and tags (R214 to R216).
-/

namespace Sys2Proof.Machine

/-- What an instruction of a convoy is prepared from: the working strand and package, the registers its checks and
captured sources read, `vl`, `vtype`, the scalar operands, where it resumes, the elements to skip, whether its
convoy has no other member, and the element before which a pre-emption stops the last member of the convoy (R224). -/
structure Px where
  t    : Strand
  s    : State
  src  : Captured
  vl   : Nat
  vt   : BitVec 12
  ops  : List Word
  pos  : Nat
  perf : List Nat
  alone : Bool
  halt : Option Nat
  pins : List Host.Cell
  lax  : Bool

/-- EW of the instruction. -/
def Px.ew (x : Px) : Nat := ewOf x.vt
/-- The quarters of the strand. -/
def Px.q (x : Px) : Nat := x.t.q
/-- VLMAX. -/
def Px.vlmax (x : Px) : Nat := vlmaxOf x.q x.vt
/-- A scalar operand read at dispatch. -/
def Px.op (x : Px) (n : Nat) : Word := x.ops.getD n 0
/-- The registers a group of width `w` has. -/
def Px.size (x : Px) (w : Nat) : Nat := groupSize x.vt w

/-! ## Checks (R201) -/

/-- The groups of an instruction: each aligned and within the registers, and the destination equal to a source of its
width or apart from it, apart from every source of another width (R38, R200). Operands are (register, width). -/
def Px.groups (x : Px) (dst : Option (VReg × Nat)) (srcs : List (VReg × Nat)) : Except Cause Unit :=
  let ok (o : VReg × Nat) : Bool := groupOk o.1.toNat (x.size o.2)
  let apart (d o : VReg × Nat) : Bool :=
    !groupsMeet d.1.toNat (x.size d.2) o.1.toNat (x.size o.2) || (d.2 == o.2 && d.1 == o.1)
  match dst with
  | none => if srcs.all ok then .ok () else .error .group
  | some d => if ok d && srcs.all ok && srcs.all (apart d) then .ok () else .error .group

/-- The tag of a source group read at width `w` (R51, R65). -/
def Px.tag (x : Px) (r : VReg) (w : Nat) : Except Cause Tag :=
  match groupTag x.src.v r.toNat (x.size w) with
  | none => .error .tag
  | some t => if widthOk t w then .ok t else .error .tag

/-- A condition on tags. -/
def needTag (b : Bool) : Except Cause Unit :=
  if b then .ok () else .error .tag

/-- TY names the tag of the sources, or 0 lets them decide (R198). -/
def tyOk (ty t : Tag) : Bool :=
  ty == .raw || ty == t

/-- Checks passed: with `vl` > 0 the destination group takes its tag (R46, R50). -/
def Px.done (x : Px) (dst : Option (VReg × Nat × Tag)) (m : Mop) : Prep :=
  match dst with
  | none => .ok x.t m
  | some (r, w, ty) =>
    if x.vl = 0 then .ok x.t m else .ok { x.t with v := setTags x.t.v r.toNat (x.size w) ty } m

/-- The outcome of the checks. -/
def Px.checked (_x : Px) {α : Type} (c : Except Cause α) (f : α → Prep) : Prep :=
  match c with
  | .error e => .fail e
  | .ok a => f a

/-- Element e of a live register. -/
def liveElem (q : Nat) (r : VReg) (w : Nat) (t : Strand) (e : Nat) : Nat :=
  elemGet t.v q r.toNat w e

/-- Element e of a captured register. -/
def Px.capElem (x : Px) (r : VReg) (w e : Nat) : Nat :=
  elemGet x.src.v x.q r.toNat w e

/-- `active(e)` from the captured mask. -/
def Px.capActive (x : Px) (m : MaskOp) (e : Nat) : Bool :=
  admits x.src.k m e

/-- The rounding mode of RMS (R198). -/
def Px.rm (x : Px) (r : Option Rm) : Rm :=
  r.getD (vrmOf x.vt)

/-! ## Element-wise arithmetic -/

/-- The second operand: a vector or the low EW bits of a scalar (R203, R204). -/
inductive Second where
  | vec (r : VReg)
  | scalar
  | unary
  deriving DecidableEq, Repr

/-- The sources of an element-wise instruction. -/
def elementSources (va : VReg) (b : Second) (vd : VReg) (useD : Bool) (w : Nat) : List (VReg × Nat) :=
  (va, w) :: ((match b with
    | .vec r => [(r, w)]
    | _ => []) ++ if useD then [(vd, w)] else [])

/-- An element-wise instruction at width EW with equal tags on its sources, whose result takes their tag: `f` gives the
result from the tag and the elements of vA, b and vD. -/
def prepElement (x : Px) (vd va : VReg) (b : Second) (ty : Tag) (m : MaskOp) (useD : Bool) (accept : Tag → Bool)
    (f : Tag → Nat → Nat → Nat → Nat × Flags) : Prep :=
  let w := x.ew
  let srcs := elementSources va b vd useD w
  x.checked (do
    x.groups (some (vd, w)) srcs
    let t ← x.tag va w
    for o in srcs do
      let u ← x.tag o.1 w
      needTag (u == t)
    needTag (accept t && tyOk ty t)
    pure t) fun t =>
    x.done (some (vd, w, t)) (maskedMop x.vt m (.vec vd.toNat w) x.vl x.vlmax fun st e =>
      let bv := match b with
        | .vec r => liveElem x.q r w st e
        | .scalar => (x.op 0).toNat % 2 ^ w
        | .unary => 0
      f t (liveElem x.q va w st e) bv (if useD then liveElem x.q vd w st e else 0))

/-- The integer operations (R203). -/
inductive IntOp where
  | add | sub | mul | mulh | madd | min | max | and | or | xor | shl | shr | sar
  deriving DecidableEq, Repr

/-- The tags an integer operation accepts (R203, R52). -/
def IntOp.accepts (o : IntOp) (t : Tag) : Bool :=
  match o with
  | .and | .or | .xor | .shl | .shr | .sar => t == .raw || t.isInt
  | _ => t.isInt

/-- The result of an integer operation on EW bits (R203). -/
def IntOp.apply (o : IntOp) (w : Nat) (sat : Bool) (t : Tag) (a b d : Nat) : Nat × Flags :=
  let sh := b % w
  match o with
  | .add => intTo t sat (t.intValue a + t.intValue b)
  | .sub => intTo t sat (t.intValue a - t.intValue b)
  | .mul => (a * b % 2 ^ w, 0)
  | .mulh => (wrapTo w (t.intValue a * t.intValue b / (2 ^ w : Nat)), 0)
  | .madd => ((a * b + d) % 2 ^ w, 0)
  | .min => (if t.intValue b < t.intValue a then b else a, 0)
  | .max => (if t.intValue a < t.intValue b then b else a, 0)
  | .and => (a &&& b, 0)
  | .or => (a ||| b, 0)
  | .xor => (a ^^^ b, 0)
  | .shl => (a * 2 ^ sh % 2 ^ w, 0)
  | .shr => (a / 2 ^ sh, 0)
  | .sar => (wrapTo w (signedOf w a / (2 ^ sh : Nat)), 0)

/-- A vector integer instruction with two vector sources. -/
def prepIntVv (o : IntOp) (a : Vv) (x : Px) : Prep :=
  prepElement x a.vd a.va (.vec a.vb) a.ty a.m (o == .madd) o.accepts fun t p b d => o.apply x.ew a.sat t p b d

/-- A vector integer instruction with a scalar second operand. -/
def prepIntVx (o : IntOp) (a : Vx) (x : Px) : Prep :=
  prepElement x a.vd a.va .scalar a.ty a.m (o == .madd) o.accepts fun t p b d => o.apply x.ew a.sat t p b d

/-- The float operations (R204). -/
inductive FloatOp where
  | add | sub | mul | div | min | max | fma | sqrt | rcp
  deriving DecidableEq, Repr

/-- The reciprocal estimate (R205): toward zero to 8 significant bits, then toward zero to the format's spacing. -/
def rcpEstimate (f : Fmt) (a : Fv) : Nat × Flags :=
  match a with
  | .nan s => (f.nanBits, snan (.nan s))
  | .inf n => (if n then f.signBit else 0, 0)
  | .fin n m e =>
    if m = 0 then (f.infBits n, flagDz)
    else
      let k := 8 + bitLen m
      let q := 2 ^ k / m
      let cut := bitLen q - 8
      let q8 := q / 2 ^ cut * 2 ^ cut
      let big := (f.round .rup false false (if 2 ^ k % m = 0 then 2 * q else 2 * q + 1) (-(k : Int) - 1 - e)).2
      if big &&& flagOf != 0 then (f.infBits n, flagOf) else ((f.round .rtz false n q8 (-(k : Int) - e)).1, 0)

/-- The result of a float operation in a format (R204, R205). -/
def FloatOp.apply (o : FloatOp) (f : Fmt) (rm : Rm) (sat : Bool) (a b d : Nat) : Nat × Flags :=
  let x := f.unpack a
  let y := f.unpack b
  match o with
  | .add => f.deliver rm sat (exAdd rm x y)
  | .sub => f.deliver rm sat (exSub rm x y)
  | .mul => f.deliver rm sat (exMul x y)
  | .div => f.deliver rm sat (exDiv x y)
  | .min => f.minMax false a b
  | .max => f.minMax true a b
  | .fma => f.deliver rm sat (exFma rm x y (f.unpack d))
  | .sqrt => f.deliver rm sat (exSqrt x)
  | .rcp => rcpEstimate f x

/-- The format of an arithmetic float tag. -/
def arithFmt (t : Tag) : Fmt :=
  t.fmt.getD fmtF64

/-- A vector float instruction with two vector sources. -/
def prepFloatVv (o : FloatOp) (a : Vv) (x : Px) : Prep :=
  prepElement x a.vd a.va (.vec a.vb) a.ty a.m (o == .fma) isArithFloat
    fun t p b d => o.apply (arithFmt t) (x.rm a.rm) a.sat p b d

/-- A vector float instruction with a scalar second operand. -/
def prepFloatVx (o : FloatOp) (a : Vx) (x : Px) : Prep :=
  prepElement x a.vd a.va .scalar a.ty a.m false isArithFloat
    fun t p b d => o.apply (arithFmt t) (x.rm a.rm) a.sat p b d

/-- A vector float instruction with one source. -/
def prepFloatV1 (o : FloatOp) (a : V1) (x : Px) : Prep :=
  prepElement x a.vd a.va .unary a.ty a.m false isArithFloat
    fun t p b d => o.apply (arithFmt t) (x.rm a.rm) a.sat p b d

/-- `vscale` (R206): vB carries E8M0 at width 8. -/
def prepScale (a : Vv) (x : Px) : Prep :=
  let w := x.ew
  x.checked (do
    x.groups (some (a.vd, w)) [(a.va, w), (a.vb, 8)]
    let t ← x.tag a.va w
    let u ← x.tag a.vb 8
    needTag (isArithFloat t && tyOk a.ty t && u == .e8m0)
    pure t) fun t =>
    x.done (some (a.vd, w, t)) (maskedMop x.vt a.m (.vec a.vd.toNat w) x.vl x.vlmax fun st e =>
      let f := arithFmt t
      f.deliver (x.rm a.rm) a.sat (scaleBy (f.unpack (liveElem x.q a.va w st e)) (liveElem x.q a.vb 8 st e)))

/-! ## Compares (R207) -/

/-- The relations of the compares. -/
inductive Rel where
  | eq | ne | lt | ge | ltN | geN | feq | flt | fle | fun_
  deriving DecidableEq, Repr

/-- Whether a relation is one of floats. -/
def Rel.isFloat : Rel → Bool
  | .feq | .flt | .fle | .fun_ => true
  | _ => false

/-- A float relation and the NV it raises (R183). -/
def floatRel (r : Rel) (a b : Fv) : Bool × Flags :=
  let anyNan := flagIf (a.isNan || b.isNan) flagNv
  let sig := snan a ||| snan b
  match r with
  | .feq => (a.eq b, sig)
  | .flt => (a.lt b, anyNan)
  | .fle => (a.lt b || a.eq b, anyNan)
  | .fun_ => (a.isNan || b.isNan, sig)
  | _ => (false, 0)

/-- A relation of two elements of `w` bits. -/
def Rel.apply (r : Rel) (w : Nat) (t : Tag) (a b : Nat) : Bool × Flags :=
  match r with
  | .eq => (a == b, 0)
  | .ne => (a != b, 0)
  | .lt => (decide (signedOf w a < signedOf w b), 0)
  | .ge => (decide (signedOf w b ≤ signedOf w a), 0)
  | .ltN => (decide (a < b), 0)
  | .geN => (decide (b ≤ a), 0)
  | r => floatRel r ((arithFmt t).unpack a) ((arithFmt t).unpack b)

/-- A compare into a mask register. -/
def prepCompare (r : Rel) (a : Vk) (x : Px) : Prep :=
  let w := x.ew
  x.checked (do
    x.groups none [(a.va, w), (a.vb, w)]
    let t ← x.tag a.va w
    let u ← x.tag a.vb w
    needTag (u == t && tyOk a.ty t && if r.isFloat then isArithFloat t else t == .raw || t.isInt)
    pure t) fun t =>
    x.done none (maskedMop x.vt a.m (.mask a.kd) x.vl x.vlmax fun st e =>
      let (b, fl) := r.apply w t (liveElem x.q a.va w st e) (liveElem x.q a.vb w st e)
      (if b then 1 else 0, fl))

/-! ## Selects and masks (R208 to R210) -/

/-- `vsel` (R208). -/
def prepSel (a : Vp) (x : Px) : Prep :=
  let w := x.ew
  x.checked (do
    x.groups (some (a.vd, w)) [(a.va, w), (a.vb, w)]
    let t ← x.tag a.va w
    let u ← x.tag a.vb w
    needTag (u == t)
    pure t) fun t =>
    x.done (some (a.vd, w, t)) (elementMop x.vt (.vec a.vd.toNat w) x.vl x.vlmax fun st e =>
      (.val (t.kept (if admits st.k a.m e then liveElem x.q a.va w st e else liveElem x.q a.vb w st e)), 0))

/-- `kand`, `kor`, `knot` (R209). -/
def prepMask (kd : KReg) (f : Strand → Nat → Bool) (x : Px) : Prep :=
  x.done none (elementMop x.vt (.mask kd) x.vl x.vlmax fun st e => (.val (if f st e then 1 else 0), 0))

/-- The elements below `vl` set in a captured mask and active. -/
def Px.setElems (x : Px) (ka : KReg) (m : MaskOp) : List Nat :=
  (List.range x.vl).filter fun e => maskBit x.src.k ka e && x.capActive m e

/-- `kpop` (R210). -/
def prepKpop (ka : KReg) (m : MaskOp) (x : Px) : Prep :=
  x.done none (resultMop (BitVec.ofNat 64 (x.setElems ka m).length) [])

/-- `kfirst` (R210). -/
def prepKfirst (ka : KReg) (m : MaskOp) (x : Px) : Prep :=
  x.done none (resultMop (match x.setElems ka m with
    | [] => BitVec.allOnes 64
    | e :: _ => BitVec.ofNat 64 e) [])

/-! ## Moves (R211, R212) -/

/-- `vmv.sx` (R211): element sB is the only active one. -/
def prepMvSx (vd : VReg) (ty : Tag) (x : Px) : Prep :=
  let w := x.ew
  x.checked (do
    x.groups (some (vd, w)) []
    needTag (widthOk ty w)) fun _ =>
    x.done (some (vd, w, ty)) (elementMop x.vt (.vec vd.toNat w) x.vl x.vlmax fun _ e =>
      if e = (x.op 1).toNat then (.val (ty.kept ((x.op 0).toNat % 2 ^ w)), 0) else (inactive x.vt, 0))

/-- `vbcast` (R211). -/
def prepBcast (vd : VReg) (ty : Tag) (m : MaskOp) (x : Px) : Prep :=
  let w := x.ew
  x.checked (do
    x.groups (some (vd, w)) []
    needTag (widthOk ty w)) fun _ =>
    x.done (some (vd, w, ty)) (maskedMop x.vt m (.vec vd.toNat w) x.vl x.vlmax fun _ _ =>
      (ty.kept ((x.op 0).toNat % 2 ^ w), 0))

/-- `vmv.xs` (R212). -/
def prepMvXs (va : VReg) (x : Px) : Prep :=
  let w := x.ew
  x.checked (do
    x.groups none [(va, w)]
    x.tag va w) fun t =>
    x.done none (resultMop (if (x.op 0).toNat < x.vl then extendElem t w (t.kept (x.capElem va w (x.op 0).toNat)) else 0) [])

/-! ## Reductions (R213, R87, R88) -/

/-- The active elements of a captured group, in ascending order. -/
def Px.actives (x : Px) (r : VReg) (m : MaskOp) (w : Nat) : List (Nat × Nat) :=
  ((List.range x.vl).filter (x.capActive m)).map fun e => (e, x.capElem r w e)

/-- `round(a + b)` of two encodings. -/
def fadd2 (f : Fmt) (rm : Rm) (sat : Bool) (a b : Nat) : Nat × Flags :=
  f.deliver rm sat (exAdd rm (f.unpack a) (f.unpack b))

/-- Addition of two elements: wraps for integers, rounds for floats (R229, R276). -/
def addElem (t : Tag) (w : Nat) (rm : Rm) (sat : Bool) (a b : Nat) : Nat × Flags :=
  if t.isInt then ((a + b) % 2 ^ w, 0) else fadd2 (arithFmt t) rm sat a b

/-- The ordered sum (R87): the value so far and its flags by element. -/
def orderedSum (f : Fmt) (rm : Rm) (sat : Bool) : Option Nat → List (Nat × Nat) → List (Nat × Flags) →
    Option Nat × List (Nat × Flags)
  | acc, [], fl => (acc, fl)
  | none, (_, v) :: t, fl => orderedSum f rm sat (some v) t fl
  | some a, (e, v) :: t, fl =>
    let (r, g) := fadd2 f rm sat a v
    orderedSum f rm sat (some r) t ((e, g) :: fl)

/-- One level of the tree of R88: neighbours added; flags are charged to the left position. -/
def treeLevel (f : Fmt) (rm : Rm) (sat : Bool) : (pos : Nat) → List Nat → List Nat × List (Nat × Flags)
  | pos, a :: b :: t =>
    let (r, g) := fadd2 f rm sat a b
    let (rs, fl) := treeLevel f rm sat (pos + 1) t
    (r :: rs, (pos, g) :: fl)
  | _, l => (l, [])

/-- The tree sum of R88 over a list whose length is a power of two, by `fuel` levels. -/
def treeSum (f : Fmt) (rm : Rm) (sat : Bool) : (fuel : Nat) → List Nat → List (Nat × Flags) → Nat × List (Nat × Flags)
  | 0, l, fl => (l.headD 0, fl)
  | fuel + 1, l, fl =>
    if l.length ≤ 1 then (l.headD 0, fl)
    else
      let (l', g) := treeLevel f rm sat 0 l
      treeSum f rm sat fuel l' (g ++ fl)

/-- The least power of two at or above `n`, and its exponent. -/
def pow2At (n : Nat) : Nat :=
  if n ≤ 1 then 0 else (n - 1).log2 + 1

/-- The reductions. -/
inductive RedOp where
  | addO | addT | min | max
  deriving DecidableEq, Repr

/-- NV for each signalling NaN among the active elements and the seed (R87, R213). -/
def signalling (f : Fmt) (l : List (Nat × Nat)) : List (Nat × Flags) :=
  l.map fun p => (p.1, snan (f.unpack p.2))

/-- A float result with every NaN canonical (R87, R213). -/
def canonNan (f : Fmt) (x : Nat) : Nat :=
  if (f.unpack x).isNan then f.nanBits else x

/-- A float reduction: result and flags by element. -/
def floatReduce (o : RedOp) (f : Fmt) (rm : Rm) (sat : Bool) (vl : Nat) (seed : Option Nat) (xs : List (Nat × Nat)) :
    Nat × List (Nat × Flags) :=
  let sig := signalling f (xs ++ (seed.toList.map fun v => (0, v)))
  match o with
  | .addO =>
    let (r, fl) := orderedSum f rm sat seed xs []
    (canonNan f (r.getD 0), fl ++ sig)
  | .addT =>
    if xs.isEmpty then (canonNan f (seed.getD 0), sig)
    else
      let n := pow2At vl
      let full := (List.range (2 ^ n)).map fun e => ((xs.find? fun p => p.1 == e).map Prod.snd).getD 0
      let (r, fl) := treeSum f rm sat n full []
      match seed with
      | none => (canonNan f r, fl ++ sig)
      | some v => let (r2, g) := fadd2 f rm sat v r; (canonNan f r2, (0, g) :: (fl ++ sig))
  | .min | .max =>
    let wantMax := o == .max
    let all := seed.toList ++ xs.map Prod.snd
    match all with
    | [] => (f.infBits wantMax, [])
    | a :: t => (canonNan f (t.foldl (fun u v => (f.minMax wantMax u v).1) a), sig)

/-- An integer reduction. -/
def intReduce (o : RedOp) (t : Tag) (w : Nat) (seed : Option Nat) (xs : List (Nat × Nat)) : Nat :=
  let all := seed.toList ++ xs.map Prod.snd
  match o with
  | .addO | .addT => (all.foldl (· + ·) 0) % 2 ^ w
  | .min =>
    match all with
    | [] => wrapTo w t.intMax
    | a :: l => l.foldl (fun u v => if t.intValue v < t.intValue u then v else u) a
  | .max =>
    match all with
    | [] => wrapTo w t.intMin
    | a :: l => l.foldl (fun u v => if t.intValue u < t.intValue v then v else u) a

/-- A reduction to a scalar. -/
def prepReduce (o : RedOp) (a : Red) (x : Px) : Prep :=
  let w := x.ew
  x.checked (do
    x.groups none [(a.vb, w)]
    let t ← x.tag a.vb w
    needTag ((t.isInt || isArithFloat t) && tyOk a.ty t)
    pure t) fun t =>
    if x.vl = 0 then x.done none (resultMop 0 []) else
    let seed := if a.seed then some ((x.op 0).toNat % 2 ^ w) else none
    let xs := x.actives a.vb a.m w
    if t.isInt then x.done none (resultMop (extendElem t w (intReduce o t w seed xs)) [])
    else
      let (r, fl) := floatReduce o (arithFmt t) (x.rm a.rm) a.sat x.vl seed xs
      x.done none (resultMop (BitVec.ofNat 64 r) fl)

/-! ## Conversions and tags (R214 to R216) -/

/-- One element from a tag into another (R67, R77 to R79, R214): only a narrowing integer conversion saturates. -/
def convertElem (src dst : Tag) (rm : Rm) (sat : Bool) (v : Nat) : Nat × Flags :=
  match src.fmt, dst.fmt with
  | none, none => intTo dst (sat && dst.width.getD 64 < src.width.getD 64) (src.intValue v)
  | none, some f => f.ofInt rm sat (src.intValue v)
  | some f, some g => f.convert g rm sat v
  | some f, none =>
    let (r, fl) := toIntRange rm dst.intMin dst.intMax (f.unpack v)
    (wrapTo (dst.width.getD 64) r, fl)

/-- Tags `vcvt` converts: integers and the nine float formats. -/
def convertible (t : Tag) : Bool :=
  t.isInt || t.fmt.isSome

/-- `vcvt.h` to half the width, `vcvt.d` to double (R214). The tag is checked at `vl` = 0 too (R46, R50, R201): with n = 0 the
program of R319 takes TAG at its `vcvt.d`, where R319 has it end without writing. [DEDUCED, log 83] -/
def prepCvt (half : Bool) (a : V1) (x : Px) : Prep :=
  let w := x.ew
  let dw := if half then w / 2 else 2 * w
  x.checked (do
    x.groups (some (a.vd, dw)) [(a.va, w)]
    let t ← x.tag a.va w
    needTag (convertible t && convertible a.ty && a.ty.width == some dw && if half then w != 4 else w != 64)
    pure t) fun t =>
    x.done (some (a.vd, dw, a.ty)) (maskedMop x.vt a.m (.vec a.vd.toNat dw) x.vl x.vlmax fun st e =>
      convertElem t a.ty (x.rm a.rm) a.sat (liveElem x.q a.va w st e))

/-- `vcvt.f32.e2m1` (R215): one rounding. -/
def prepCvtE2m1 (a : V1) (x : Px) : Prep :=
  x.checked (do
    x.groups (some (a.vd, 4)) [(a.va, x.ew)]
    let t ← x.tag a.va x.ew
    needTag (t == .f32 && x.ew == 32)) fun _ =>
    x.done (some (a.vd, 4, .e2m1)) (maskedMop x.vt a.m (.vec a.vd.toNat 4) x.vl x.vlmax fun st e =>
      fmtF32.convert fmtE2m1 (x.rm a.rm) a.sat (liveElem x.q a.va 32 st e))

/-- `vtag` (R216): every bit of the group is copied and the destination takes TY. -/
def prepVtag (vd va : VReg) (ty : Tag) (x : Px) : Prep :=
  let w := x.ew
  let n := grpOf x.vt
  x.checked (do
    x.groups (some (vd, w)) [(va, w)]
    match groupTag x.src.v va.toNat n with
    | none => .error .tag
    | some _ => pure ()) fun _ =>
    x.done (some (vd, w, ty))
      ⟨fun lo hi r => overElems (fun e r => .ok (r.upd fun t =>
          t.putElem (.vec vd.toNat w) e (.val (liveElem x.q va w t e)))) lo hi r,
       fun r => .ok (r.upd fun t => (List.range (x.vlmax - x.vl)).foldl (fun u i =>
          u.putElem (.vec vd.toNat w) (x.vl + i) (.val (liveElem x.q va w u (x.vl + i)))) t)⟩

end Sys2Proof.Machine
end

