-- ==== Sys2Proof/Machine/VecMem.lean ====
section
/-!
DEFINITION. Vector memory: loads (R217 to R220), stores and scatters (R221), `vfwd.res` (R222), compressed blocks (R223 to
R225), lane tables (R232), vector atomics (R269 to R271), window updates (R276).
-/

namespace Sys2Proof.Machine

/-! ## Addresses (R218) -/

/-- The address form of a memory instruction. -/
inductive Form where
  | unit
  | strided
  | indexed (vb : VReg) (sh : Nat)
  deriving DecidableEq, Repr

/-- The address of element e. `ti` is the tag of the index group, which is read from `v`. -/
def Px.addr (x : Px) (f : Form) (ti : Tag) (v : Vector VecReg 64) (e : Nat) : Word :=
  let base := x.op 0
  match f with
  | .unit => base + BitVec.ofNat 64 (e * x.ew / 8)
  | .strided => base + BitVec.ofNat 64 e * x.op 1
  | .indexed vb sh => base + shiftIndex ti x.ew (elemGet v x.q vb.toNat x.ew e) sh

/-- The groups and the index tag of an address form (R201). -/
def Px.formTag (x : Px) (f : Form) : Except Cause Tag :=
  match f with
  | .indexed vb _ => do
    let u ← x.tag vb x.ew
    needTag (indexOk u x.ew)
    pure u
  | _ => pure .raw

/-- The index group as a source. -/
def Form.sources (f : Form) (w : Nat) : List (VReg × Nat) :=
  match f with
  | .indexed vb _ => [(vb, w)]
  | _ => []

/-- Bytes of one element; a 4-bit element is reached through its byte (R94). -/
def elemBytes (w : Nat) : Nat :=
  if w = 4 then 1 else w / 8

/-- The value of an element in the bytes read: a nibble at EW 4 (R66). -/
def nibbleOf (w e v : Nat) : Nat :=
  if w = 4 then (if e % 2 = 0 then v % 16 else v / 16) else v

/-- Note the bytes an access reaches (R161). -/
def Run.touch (r : Run) (home n : Nat) (wr : Bool) : Run :=
  { r with acc := (home, n, wr) :: r.acc }

/-- The home byte of an address, for the overlap of R161; an address that does not resolve has none. -/
def Run.homeOf (r : Run) (va : Word) (n : Nat) (need : Need) : Option Nat :=
  match r.s.resolve r.t.qctx va n 1 need .data with
  | .ok l _ => some l.home
  | _ => none

/-- Note an access by address. -/
def Run.touchVa (r : Run) (va : Word) (n : Nat) (need : Need) : Run :=
  match r.homeOf va n need with
  | some h => r.touch h n (need != .read)
  | none => r

/-- Note the bytes of a block, line by line. -/
def Run.touchSpan (r : Run) (va : Word) (n : Nat) (need : Need) : Run :=
  (List.range (n / 128 + 2)).foldl (fun r i =>
    let line := 128 * (va.toNat / 128 + i)
    let lo := max va.toNat line
    let hi := min (va.toNat + n) (line + 128)
    if lo < hi then r.touchVa (BitVec.ofNat 64 lo) (hi - lo) need else r) r

/-! ## Loads (R220) -/

/-- The number of a byte list of numbers. -/
def natOfBytes : List Nat → Nat
  | [] => 0
  | b :: t => b + 256 * natOfBytes t

/-- What a load of `n` bytes returns: a byte that a younger load of the strand has read keeps that load's value (R285), unless
the convoy itself has written it since. -/
def Run.pinned (r : Run) (pins : List Host.Cell) (va : Word) (n v : Nat) : Nat :=
  match pins with
  | [] => v
  | _ :: _ =>
    match r.homeOf va n .read with
    | none => v
    | some h => natOfBytes ((List.range n).map fun i =>
        let own := v / 256 ^ i % 256
        if r.acc.any fun a => a.2.2 && a.1 ≤ h + i && h + i < a.1 + a.2.1 then own
        else match pins.find? fun p => p.1 == h + i with
          | some p => p.2.toNat
          | none => own)

/-- The pins of an entry that no write of a run has covered. -/
def Run.pinsLeft (r : Run) (pins : List Host.Cell) : List Host.Cell :=
  pins.filter fun p => !r.acc.any fun a => a.2.2 && a.1 ≤ p.1 && p.1 < a.1 + a.2.1

/-- A vector load of a form. -/
def prepLoad (f : Form) (vd : VReg) (ty : Tag) (m : MaskOp) (x : Px) : Prep :=
  let w := x.ew
  let n := elemBytes w
  x.checked (do
    x.groups (some (vd, w)) (f.sources w)
    let u ← x.formTag f
    needTag (widthOk ty w && (f == .unit || w != 4))
    pure u) fun u =>
    x.done (some (vd, w, ty))
      ⟨overElems fun e r =>
          if admits r.t.k m e then
            let va := x.addr f u r.t.v e
            ofLoad (r.touchVa va n .read) e (r.s.load r.t.qctx r.t.lbuf va n) fun (v, lb) r' =>
              let v := r.pinned x.pins va n v
              .ok (r'.upd fun t =>
                { t with lbuf := lb }.putElem (.vec vd.toNat w) e (.val (ty.kept (nibbleOf w e v))))
          else .ok (r.upd fun t => t.putElem (.vec vd.toNat w) e (inactive x.vt)),
       tailOf x.vt (.vec vd.toNat w) x.vl x.vlmax⟩

/-! ## Stores (R219, R221) -/

/-- Store one element: a 4-bit element is merged into its byte at the home. -/
def storeElem (r : Run) (w e : Nat) (va : Word) (v : Nat) : Rr :=
  if w = 4 then
    ofPrecise r e (r.s.resolve r.t.qctx va 1 1 .write .data) fun l r1 =>
      ofPrecise r1 e (r1.s.atHome r.t.qctx va l .write false) fun l r2 =>
        let old := Memory.read r2.s.mem l.home 1
        let new := if e % 2 = 0 then old / 16 * 16 + v else old % 16 + 16 * v
        .ok ({ r2 with s := r2.s.writeHome l.home (leBytes 1 new),
                       t := { r2.t with lbuf := dropLines r2.t.lbuf va (lineOf l.home) } }.touch l.home 1 true)
  else
    let n := w / 8
    ofPrecise (r.touchVa va n .write) e (r.s.store r.t.qctx r.t.lbuf va n v) fun lb r' =>
      .ok { r' with t := { r'.t with lbuf := lb } }

/-- A vector store of a form. In a scatter of the unordered kind, where several elements write the same bytes, a free
value says whether an element is left out for an earlier one at the same address (R219, log 10). -/
def prepStore (f : Form) (ordered : Bool) (vd : VReg) (m : MaskOp) (x : Px) : Prep :=
  let w := x.ew
  x.checked (do
    x.groups none ((vd, w) :: f.sources w)
    let u ← x.formTag f
    let t ← x.tag vd w
    needTag (f == .unit || w != 4)
    pure (u, t)) fun (u, t) =>
    x.done none
      ⟨overElems fun e r =>
          if admits r.t.k m e then
            let va := x.addr f u r.t.v e
            let kept := ordered || Config.scatterLater r.s.freeCtr
              || !(List.range e).any fun e' => admits r.t.k m e' && x.addr f u r.t.v e' == va
            if kept then storeElem r w e va (t.kept (elemGet r.t.v x.q vd.toNat w e))
            else ofPrecise r e (r.s.resolve r.t.qctx va (w / 8) (w / 8) .write .data) fun _ r' => .ok r'
          else .ok r,
       fun r => .ok (if ordered then r else { r with s := { r.s with freeCtr := r.s.freeCtr + 1 } })⟩

/-! ## vfwd.res (R222, R131) -/

/-- Where `fwd.res` ends: an address on a slab, host or flash page is its own (R282). -/
def State.resolveVa (s : State) (c : Ctx) (va : Word) : Res Word :=
  (s.requested c va 1 1 .read).bind fun e s' =>
    if hasLines (pteAttr e.pte) then (s'.chase c va .read 4 0 va e).bind fun l s2 => .ok l.va s2 else .ok va s'

/-- `vfwd.res`: 64-bit addresses, faults as a load's. -/
def prepFwdRes (a : Vu) (x : Px) : Prep :=
  x.checked (do
    x.groups (some (a.vd, 64)) [(a.va, 64)]
    let t ← x.tag a.va 64
    needTag (t == .raw || t.isInt)
    pure t) fun t =>
    x.done (some (a.vd, 64, t))
      ⟨overElems fun e r =>
          if admits r.t.k a.m e then
            ofLoad r e (r.s.resolveVa r.t.qctx (BitVec.ofNat 64 (elemGet r.t.v x.q a.va.toNat 64 e))) fun va r' =>
              .ok (r'.upd fun u => u.putElem (.vec a.vd.toNat 64) e (.val va.toNat))
          else .ok (r.upd fun t => t.putElem (.vec a.vd.toNat 64) e (inactive x.vt)),
       tailOf x.vt (.vec a.vd.toNat 64) x.vl x.vlmax⟩

/-! ## Compressed blocks (R223 to R225) -/

/-- Store bytes one by one, upward (the block's bytes are this strand's stores); a fault stands at element `e`. -/
def storeBytes (r : Run) (e : Nat) : (va : Word) → List Nat → Rr
  | _, [] => .ok r
  | va, b :: t =>
    ofPrecise (r.touchVa va 1 .write) e (r.s.store r.t.qctx r.t.lbuf va 1 b) fun lb r' =>
      storeBytes { r' with t := { r'.t with lbuf := lb } } e (va + 1) t

/-- Probe bytes for a store, without an effect: each is resolved and its page checked. -/
def probeStore (r : Run) (e : Nat) : (n : Nat) → (va : Word) → Rr
  | 0, _ => .ok r
  | n + 1, va =>
    ofPrecise r e (r.s.resolve r.t.qctx va 1 1 .write .data) fun l r' =>
      ofPrecise r' e (r'.s.atHome r'.t.qctx va l .write false) fun _ r2 => probeStore r2 e n (va + 1)

/-- Values packed in a block: two to a byte at EW 4, low nibble first. -/
def packValues (w : Nat) : List Nat → List Nat
  | [] => []
  | [a] => if w = 4 then [a] else (leBytes (w / 8) a).map BitVec.toNat
  | a :: b :: t =>
    if w = 4 then (a + 16 * b) :: packValues w t
    else (leBytes (w / 8) a).map BitVec.toNat ++ packValues w (b :: t)

/-- The header of a block (R223). -/
def blockHeader (t : Tag) (e v : Nat) : Nat :=
  t.code.toNat * 2 ^ 48 + e * 2 ^ 32 + v

/-- The block of `vstc` written (R224): the probe of what is not yet written, the values from element `start` on, and below
`upto`, then, with every value written, the bitmask and the header. `m` is the bitmask's size, `s` the block's. A byte that
two values share is written again with its second value. -/
def writeStc (w : Nat) (t : Tag) (base : Word) (vl m s start upto : Nat) (kept : List (Nat × Nat)) (r : Run) : Rr :=
  let done := (kept.filter fun p => p.1 < start).length
  let first := if w = 4 then done / 2 * 2 else done
  let body := base + BitVec.ofNat 64 (8 + m + first * w / 8)
  let now := ((kept.drop first).filter fun p => p.1 < upto).map Prod.snd
  let mask := leBytes m (kept.foldl (fun acc p => acc ||| 2 ^ p.1) 0)
  ((probeStore r start (8 + m) base).bind fun r0 =>
    (probeStore r0 start (s - (8 + m) - first * w / 8) body).bind fun r1 =>
      (storeBytes r1 start body (packValues w now)).bind fun r2 =>
        if upto < vl then .stop (.last upto .pause r2)
        else
          (storeBytes r2 start (base + 8) (mask.map BitVec.toNat)).bind fun r3 =>
            (storeBytes r3 start base ((leBytes 8 (blockHeader t vl kept.length)).map BitVec.toNat)).bind fun r4 =>
              .ok { r4 with out := some (BitVec.ofNat 64 s) }).asLast r

/-- `vstc` (R224): the last of its convoy; it acts once every earlier member has completed. -/
def prepStc (a : Vstc) (x : Px) : Prep :=
  let w := x.ew
  x.checked (do
    x.groups none [(a.vd, w)]
    x.tag a.vd w) fun t =>
    if x.vl = 0 then .ok x.t (resultMop 0 [])
    else
      .ok x.t ⟨fun _ _ r => .ok r, fun r =>
        if x.vl > 65535 then .stop (.last 0 (.fault .compFormat 0 0) r)
        else if (x.op 0).toNat % 8 ≠ 0 then .stop (.last 0 (.fault .align (x.op 0) 0) r)
        else
          let kept := (List.range x.vl).filterMap fun e =>
            let v := t.kept (elemGet r.t.v x.q a.vd.toNat w e)
            if admits r.t.k a.m e && v != 0 then some (e, v) else none
          let m := 8 * ((x.vl + 63) / 64)
          let s := 8 + m + (kept.length * w + 7) / 8
          if s > (x.op 1).toNat then
            if a.q then .ok { r with out := some (BitVec.ofNat 64 (s + 2 ^ 63)) }
            else .stop (.last 0 (.fault .compOverrun 0 (BitVec.ofNat 64 s)) r)
          else
            writeStc w t (x.op 0) x.vl m s (if x.alone then x.pos else 0) (min x.vl (x.halt.getD x.vl)) kept r⟩

/-- Bytes a strand loads one by one, with its line buffer: their number and the buffer. -/
def loadBytes (s : State) (c : Ctx) : (n : Nat) → (va : Word) → List BufLine → Res (List Nat × List BufLine)
  | 0, _, lb => .ok ([], lb) s
  | n + 1, va, lb =>
    (s.load c lb va 1).bind fun p s' =>
      (loadBytes s' c n (va + 1) p.2).bind fun q s2 => .ok (p.1 :: q.1, q.2) s2

/-- `vldc` (R225): first of its convoy; its whole block is read and checked before group 0. -/
def prepLdc (a : Vmem) (x : Px) : Prep :=
  let w := x.ew
  let base := x.op 0
  let fault (c : Cause) : Prep := .stop (.load 0 c base 0 x.s)
  x.checked (do
    x.groups (some (a.vd, w)) []
    needTag (widthOk a.ty w)) fun _ =>
    if x.vl = 0 then .ok x.t idleMop
    else
      let read (n : Nat) (va : Word) (lb : List BufLine) (s : State)
          (f : List Nat → List BufLine → State → Prep) : Prep :=
        match loadBytes s x.t.qctx n va lb with
        | .ok (bs, lb') s' => f (bs.mapIdx fun i b => (Run.start x.t s' none).pinned x.pins (va + BitVec.ofNat 64 i) 1 b) lb' s'
        | .flt c ad v w => .stop (.load 0 c ad v w)
        | .wait s' => .stop (.wait 0 s')
        | .held l s' => .stop (.held 0 l s')
        | .soft l s' => .stop (.soft l s')
      if !canonicalAll base 8 then fault .addr
      else if base.toNat % 8 ≠ 0 then fault .align
      else
        read 8 base x.t.lbuf x.s fun hb lb s =>
          let h := natOfBytes hb
          let ecount := h / 2 ^ 32 % 2 ^ 16
          let vcount := h % 2 ^ 32
          let code := BitVec.ofNat 5 (h / 2 ^ 48)
          match if h / 2 ^ 48 % 256 < 32 then Tag.ofCode code else none with
          | none => fault .compFormat
          | some tag =>
            if h / 2 ^ 56 ≠ 0 ∨ ecount ≠ x.vl ∨ !widthOk tag w ∨ !tyOk a.ty tag then fault .compFormat
            else
              let m := 8 * ((ecount + 63) / 64)
              read m (base + 8) lb s fun mb lb2 s2 =>
                let mask := natOfBytes mb
                let set := (List.range ecount).filter fun e => mask / 2 ^ e % 2 == 1
                if vcount ≠ set.length ∨ mask / 2 ^ ecount ≠ 0 then fault .compFormat
                else
                  read ((vcount * w + 7) / 8) (base + BitVec.ofNat 64 (8 + m)) lb2 s2 fun vb lb3 _ =>
                    let all := natOfBytes vb
                    let tagged := setTags x.t.v a.vd.toNat (x.size w) tag
                    let size := 8 + m + (vcount * w + 7) / 8
                    let mop := maskedMop x.vt a.m (.vec a.vd.toNat w) x.vl x.vlmax fun _ e =>
                      (if mask / 2 ^ e % 2 = 1 then tag.kept (all / 2 ^ (w * (set.filter (· < e)).length) % 2 ^ w) else 0, 0)
                    .ok { x.t with v := tagged, lbuf := lb3 }
                      ⟨fun lo hi r => mop.group lo hi (r.touchSpan base size .read), mop.final⟩

/-! ## Lane tables (R104, R105, R232) -/

/-- The bit offset of an index in a lane's store, where the element lies below 256 × q bytes (R104). -/
def Px.laneOff (x : Px) (idx : Nat) : Option Nat :=
  if (idx + 1) * x.ew ≤ 8 * 256 * x.q then some (idx * x.ew) else none

/-- `vlt.ld`. -/
def prepLtLd (a : Vlt) (x : Px) : Prep :=
  let w := x.ew
  x.checked (do
    x.groups (some (a.vd, w)) [(a.vb, w)]
    let u ← x.tag a.vb w
    needTag (indexOk u w && widthOk a.ty w)) fun _ =>
    x.done (some (a.vd, w, a.ty))
      ⟨overElems fun e r =>
          if admits r.t.k a.m e then
            match x.laneOff (elemGet r.t.v x.q a.vb.toNat w e) with
            | none => .stop (.precise e .ltRange 0 0 r.s)
            | some o => .ok (r.upd fun t => t.putElem (.vec a.vd.toNat w) e (.val (a.ty.kept (laneGet t.lane (e % 256) o w))))
          else .ok (r.upd fun t => t.putElem (.vec a.vd.toNat w) e (inactive x.vt)),
       tailOf x.vt (.vec a.vd.toNat w) x.vl x.vlmax⟩

/-- `vlt.st`. -/
def prepLtSt (a : Vlt) (x : Px) : Prep :=
  let w := x.ew
  x.checked (do
    x.groups none [(a.vd, w), (a.vb, w)]
    let t ← x.tag a.vd w
    let u ← x.tag a.vb w
    needTag (indexOk u w)
    pure t) fun t =>
    x.done none
      ⟨overElems fun e r =>
          if admits r.t.k a.m e then
            match x.laneOff (elemGet r.t.v x.q a.vb.toNat w e) with
            | none => .stop (.precise e .ltRange 0 0 r.s)
            | some o =>
              .ok (r.upd fun u =>
                { u with lane := laneSet u.lane (e % 256) o w (t.kept (elemGet u.v x.q a.vd.toNat w e)) })
          else .ok r,
       fun r => .ok r⟩

/-- A value written to every lane's store. -/
def Strand.fillLanes (t : Strand) (f : Fill) : Strand :=
  { t with lane := (List.range 256).foldl (fun l i => laneSet l i f.off f.w f.x) t.lane }

/-- `vlt.fill`: every lane's store. -/
def prepLtFill (a : Vs) (x : Px) : Prep :=
  let w := x.ew
  x.checked (do
    x.groups none [(a.vd, w)]
    x.tag a.vd w) fun t =>
    x.done none
      ⟨overElems fun e r =>
          if admits r.t.k a.m e then
            match x.laneOff ((x.op 0).toNat + e) with
            | none => .stop (.precise e .ltRange 0 0 r.s)
            | some o =>
              let v := t.kept (elemGet r.t.v x.q a.vd.toNat w e)
              .ok { (r.upd fun u => u.fillLanes ⟨e, o, w, v⟩) with fills := r.fills ++ [⟨e, o, w, v⟩] }
          else .ok r,
       fun r => .ok r⟩

/-! ## Vector atomics (R269 to R271) -/

/-- The scalar operation of a vector atomic: min and max follow the tag (R269). -/
def vamoOp (o : AmoOp) (t : Tag) : AmoOp :=
  match o with
  | .min => if t.isUnsigned then .minN else .min
  | .max => if t.isUnsigned then .maxN else .max
  | o => o

/-- The tags a vector atomic accepts on its data (R269). -/
def vamoAccepts (o : AmoOp) (ra : Bool) (w : Nat) (t : Tag) : Bool :=
  let int := t.isInt && t.width == some w
  let float := (t == .f32 || t == .f64) && t.width == some w
  (int && !ra) || (float && o == .add) || (t == .raw && !ra && (o == .swp || o == .cas))

/-- What a vector atomic needs at each element. -/
structure VamoJob where
  op     : AmoOp
  tag    : Tag
  w      : Nat
  ra     : Bool
  ord    : Ord
  hostOk : Bool
  addr   : Strand → Nat → Word
  data   : Strand → Nat → Nat
  cmp    : Strand → Nat → Nat

/-- What the request of an element asks of its home: a float add, or the scalar operation (R270). -/
def VamoJob.kind (j : VamoJob) : ReqKind :=
  if (j.tag == .f32 || j.tag == .f64) && j.op == .add then .fadd j.ra else .amo j.op

/-- The request of an element (R270): `attr`, its page's attribute, says which sub-operation it belongs to. -/
def VamoJob.request (j : VamoJob) (t : Strand) (e home attr : Nat) : Request where
  rid := 0
  sid := t.id.sid
  part := t.id.part
  asid := t.id.asid
  kind := j.kind
  n := j.w / 8
  ord := j.ord
  va := j.addr t e
  home := home
  hops := 0
  data := BitVec.ofNat 64 (j.data t e)
  cmp := BitVec.ofNat 64 (j.cmp t e)
  port := 0
  route := routeTo t.id.pclus t.id.pcore home
  via := []
  again := false
  stalled := false
  vec := true
  attr := attr
  tried := false
  held := none
  delay := hostDelay home

/-- The elements of a vector atomic sent: each checked and translated (R271), then its request made. -/
def VamoJob.send (j : VamoJob) : List Nat → List (Nat × Request) → Run → Rr
  | [], l, r => .stop (.send l.reverse r)
  | e :: es, l, r =>
    ofPrecise r e (r.s.firstHome r.t.qctx (j.addr r.t e) (j.w / 8) .both (.amo j.hostOk)) fun h r' =>
      let va := j.addr r'.t e
      j.send es ((e, j.request r'.t e h.1 h.2) :: l) (r'.upd fun t => { t with lbuf := dropLines t.lbuf va (lineOf h.1) })

/-- Perform element e at its home: the old value, the flags of a float add, the home (R270). -/
def VamoJob.perform (j : VamoJob) (r : Run) (e : Nat) : Res (Nat × Flags × Loc) :=
  let n := j.w / 8
  let va := j.addr r.t e
  (r.s.resolve r.t.qctx va n n .both (.amo j.hostOk)).bind fun l s1 =>
    (s1.atHome r.t.qctx va l .both false).bind fun l s2 =>
      let old := Memory.read s2.mem l.home n
      match j.kind with
      | .amo op => .ok (old, 0, l) (s2.amoAt l.home op n (j.data r.t e) (j.cmp r.t e)).2
      | _ =>
        let (new, fl) := fadd2 (arithFmt j.tag) .rne false old (j.data r.t e)
        .ok (old, fl, l) (s2.writeHome l.home (leBytes n new))

/-- The old value of an element in vD, where the instruction has one, and the element's flags. -/
def Strand.amoBack (t : Strand) (ret : Option VReg) (w e : Nat) (old : Nat) (fl : Flags) : Strand :=
  (match ret with
    | some vd => t.putElem (.vec vd.toNat w) e (.val old)
    | none => t).raise e fl

/-- Element e of a vector atomic (R270, R271): nothing where it was performed before a stop, MU where it is inactive, its
reply where its request has returned, else the access itself. `above` gives the elements above a faulting line that may be
performed. -/
def VamoJob.step (j : VamoJob) (m : MaskOp) (skip : List Nat) (ret : Option VReg) (vt : BitVec 12) (above : Nat → List Nat)
    (e : Nat) (r : Run) : Rr :=
  if skip.contains e then .ok r
  else if !admits r.t.k m e then
    match ret with
    | some vd => .ok (r.upd fun t => t.putElem (.vec vd.toNat j.w) e (inactive vt))
    | none => .ok r
  else
    match (r.got.getD []).find? fun g => g.1 == e with
    | some g => .ok (r.upd fun t => t.amoBack ret j.w e g.2.1.toNat g.2.2)
    | none =>
      ofPrecise r e (r.s.firstHome r.t.qctx (j.addr r.t e) (j.w / 8) .both (.amo j.hostOk)) fun _ _ =>
        match j.perform r e with
        | .ok (old, fl, l) s =>
          let t1 := { r.t with lbuf := dropLines r.t.lbuf (j.addr r.t e) (lineOf l.home) }
          .ok ({ r with s := s, t := t1.amoBack ret j.w e old fl }.touch l.home (j.w / 8) true)
        | .flt c ad v w => .stop (.partly e c ad v (above e) w)
        | .wait s => .stop (.wait e s)
        | .held l s => .stop (.held e l s)
        | .soft l s => .stop (.soft l s)

/-- A vector atomic. Its elements go out as requests, a group at a time; a run that only looks ahead performs them itself
(R271: every check is made before any element is sent). -/
def prepVamo (o : AmoOp) (a : Vamo) (x : Px) : Prep :=
  let w := x.ew
  let useD := a.ret
  let ret := if useD then some a.vd else none
  x.checked (do
    x.groups (if useD then some (a.vd, w) else none)
      ([(a.va, w), (a.vb, w)] ++ if useD && o == .cas then [(a.vd, w)] else [])
    let t ← x.tag a.va w
    let u ← x.tag a.vb w
    needTag ((w == 32 || w == 64) && vamoAccepts o a.ra w t && indexOk u w)
    if useD && o == .cas then
      let d ← x.tag a.vd w
      needTag (d == t)
    pure (t, u)) fun (t, u) =>
    let j : VamoJob :=
      { op := vamoOp o t
        tag := t
        w := w
        ra := a.ra
        ord := a.ord
        hostOk := amoHostOk o && !(t == .f32 || t == .f64)
        addr := fun st e => x.op 0 + shiftIndex u w (elemGet st.v x.q a.vb.toNat w e) a.sh.toNat
        data := fun st e => elemGet st.v x.q a.va.toNat w e
        cmp := fun st e => elemGet st.v x.q a.vd.toNat w e }
    let above (e : Nat) : List Nat :=
      (List.range (if x.alone then x.vl else 0)).filter fun e' => e < e' && Config.amoPerformed x.s.freeCtr e'
    x.done (if useD then some (a.vd, w, t) else none)
      ⟨fun lo hi r =>
          let need := ((List.range hi).filter fun e => lo ≤ e && admits r.t.k a.m e && !x.perf.contains e
            && !(r.got.getD []).any fun g => g.1 == e)
          if r.got.isSome && !need.isEmpty then j.send need [] r
          else overElems (j.step a.m x.perf ret x.vt above) lo hi r,
       if useD then tailOf x.vt (.vec a.vd.toNat w) x.vl x.vlmax else fun r => .ok r⟩

/-! ## Window updates (R276) -/

/-- The window additions that wait made, in the order they came up: at the instruction's place in the last group, or where a
stop leaves them behind (R159, R276). -/
def Run.settle (r : Run) : Run :=
  r.pend.foldl (fun r p => r.upd fun t =>
    let (new, fl) := addElem p.ty p.w p.rm false (laneGet t.lane p.lane p.off p.w) p.x
    { t with lane := laneSet t.lane p.lane p.off p.w new }.raise p.lane fl) { r with pend := [] }

/-- `vwacc.add`. -/
def prepWacc (a : Vwacc) (x : Px) : Prep :=
  let w := x.ew
  x.checked (do
    x.groups none [(a.va, w), (a.vb, w)]
    let t ← x.tag a.va w
    let u ← x.tag a.vb w
    needTag (indexOk u w && match x.t.win with
      | some wd => wd.ty == t
      | none => true)
    pure (t, u)) fun (t, u) =>
    match x.t.win with
    | none => if x.vl = 0 then .ok x.t idleMop else .stop (.precise 0 .winState 0 0 x.s)
    | some wd =>
      x.done none
        ⟨overElems fun e r =>
            if admits r.t.k a.m e then
              let o := (shiftIndex u w (elemGet r.t.v x.q a.vb.toNat w e) a.sh.toNat).toNat
              if o ≥ wd.size ∨ o % (w / 8) ≠ 0 then .stop (.precise e .winRange 0 0 r.s)
              else .ok { r with pend := r.pend ++ [⟨e % 256, 8 * (wd.off + o), t, x.rm a.rm, w,
                elemGet r.t.v x.q a.va.toNat w e⟩] }
            else .ok r,
         fun r => .ok r.settle⟩

end Sys2Proof.Machine
end

