-- ==== Sys2Proof/Machine/Tile.lean ====
section
/-!
DEFINITION. Outer products and tiles (spec/09_matrix.md): `vopa` (R237 to R245), `mzero`, `mtag` (R247), `mrd`, `mwr`
(R248, R249), `mld`, `mst` (R250 to R252), `mcvt` (R253, R254).
-/

namespace Sys2Proof.Machine

/-! ## Checks (R201, R236) -/

/-- Every tile from `t` to `t` + `n` - 1 is below 2q (R236). -/
def Px.quarter (x : Px) (t : TReg) (n : Nat) : Except Cause Unit :=
  if t.toNat + n ≤ 2 * x.q then .ok () else .error .quarter

/-- A group at a register number, which may run past v63 (R239). -/
def groupAt (base size : Nat) : Except Cause Unit :=
  if groupOk base size then .ok () else .error .group

/-- The tag of the group at a register number carries `t`. -/
def Px.groupIs (x : Px) (base size : Nat) (t : Tag) : Except Cause Unit :=
  needTag (groupTag x.src.v base size == some t)

/-- An instruction that has only an effect on tiles, at its place in the last group; with `vl` = 0 none (R236). -/
def Px.tileOnly (x : Px) (f : Run → Rr) : Prep :=
  if x.vl = 0 then .ok x.t idleMop else .ok x.t ⟨fun _ _ r => .ok r, f⟩

/-- The width of a tile's elements (R235). -/
def tileWidth (t : Tag) : Nat :=
  if t = .bf16 then 16 else 32

/-- A tile packed from its elements in row order. -/
def packTile (l : List Nat) : TBits :=
  BitVec.ofNat 524288 (l.foldr (fun x acc => x + 2 ^ 32 * acc) 0)

/-- The elements of a tile in row order. -/
def tileElems (m : Tile) : List Nat :=
  (List.range 16384).map fun n => (m.bits.extractLsb' (32 * n) 32).toNat

/-! ## Outer products (R237 to R245) -/

/-- What an operand tag selects (R238, R242): EW, r, whether the tile is TRIO. -/
def opaFormat (scaled : Bool) (t : Tag) : Option (Nat × Nat × Bool) :=
  match t with
  | .f32 => if scaled then none else some (32, 1, false)
  | .bf16 | .f16 => if scaled then none else some (16, 1, false)
  | .e4m3 | .e5m2 | .e3m2 | .e2m3 => some (8, 2, false)
  | .e2m1 => some (4, 8, false)
  | .i8 => some (8, 2, !scaled)
  | .n8 => if scaled then none else some (8, 2, true)
  | .i4 | .n4 => if scaled then none else some (4, 8, true)
  | _ => none

/-- The value of an operand element; an MX I8 element has its integer times 2^-6 (R81). -/
def opaValue (scaled : Bool) (t : Tag) (v : Nat) : Fv :=
  match t.fmt with
  | some f => f.unpack v
  | none => .fin (decide (t.intValue v < 0)) (t.intValue v).natAbs (if scaled then -6 else 0)

/-- The admitted elements of an operand group, scaled (R240, R243): position 128 k + i holds a[i][k]. `scale` is the
first register of the scale group and the block size. -/
def Px.opaElems (x : Px) (m : MaskOp) (t : Tag) (base : Nat) (scale : Option (Nat × Nat)) : Array (Option Exact) :=
  (Array.range (128 * ((x.vl + 127) / 128))).map fun e =>
    if e < x.vl && x.capActive m e then
      let v := opaValue scale.isSome t (elemGet x.src.v x.q base x.ew e)
      some (match scale with
        | none => ⟨v, 0⟩
        | some (s, blk) => scaleBy v (elemGet x.src.v x.q s 8 (e / 128 / blk * 128 + e % 128)))
    else none

/-- The products of positions `k0` to `k0` + `r` - 1 for row i and column j (R83). -/
def opaProducts (a b : Array (Option Exact)) (i j k0 r : Nat) : List Exact :=
  (List.range r).filterMap fun d =>
    match a.getD (128 * (k0 + d) + i) none, b.getD (128 * (k0 + d) + j) none with
    | some p, some q =>
      let z := exMul p.v q.v
      -- an operand's own flags: NSC of its scale, NV of a signalling NaN
      some ⟨z.v, z.flags ||| p.flags ||| q.flags ||| snan p.v ||| snan q.v⟩
    | _, _ => none

/-- The exact sum of a group (R83): infinities of both signs are invalid. -/
def groupSum (ps : List Exact) : Exact :=
  let fl := ps.foldl (fun a p => a ||| p.flags) noFlags
  let pos := ps.any fun p => p.v == .inf false
  let neg := ps.any fun p => p.v == .inf true
  if pos && neg then invalid fl
  else if ps.any fun p => p.v.isNan then ⟨.nan false, fl⟩
  else if pos then ⟨.inf false, fl⟩
  else if neg then ⟨.inf true, fl⟩
  else ⟨ps.foldl (fun a p => (exAdd .rne a p.v).v) (.fin false 0 0), fl⟩

/-- One rounding of an F32 tile element with a group's sum (R83). -/
def groupUpdate (t : Nat) (ps : List Exact) : Nat × Flags :=
  let s := groupSum ps
  let u := exAdd .rne (fmtF32.unpack t) s.v
  fmtF32.deliver .rne false ⟨u.v, u.flags ||| s.flags⟩

/-- The integer of an exact product of integers. -/
def fvInt (v : Fv) : Int :=
  match v with
  | .fin n m e =>
    let k : Int := (m * 2 ^ e.toNat : Nat)
    if n then -k else k
  | _ => 0

/-- A group's products added to a TRIO element (R85). -/
def trioUpdate (t : Nat) (ps : List Exact) : Nat :=
  ps.foldl (fun c p => trioMulAdd c (fvInt p.v) 1) (trioPack (trioRead t))

/-- One element through the groups from `g` to `g` + `n` - 1. -/
def opaElem (trio : Bool) (a b : Array (Option Exact)) (r i j : Nat) : (n g : Nat) → Nat × Flags → Nat × Flags
  | 0, _, t => t
  | n + 1, g, t =>
    let ps := opaProducts a b i j (g * r) r
    let u := if trio then (trioUpdate t.1 ps, t.2) else
      let (v, fl) := groupUpdate t.1 ps
      (v, fl ||| t.2)
    opaElem trio a b r i j n (g + 1) u

/-- A tile through `n` groups from `g` on, and the flags raised. -/
def opaTile (trio : Bool) (a b : Array (Option Exact)) (r n g : Nat) (m : Tile) : Tile × Flags :=
  let es := ((List.range 16384).zip (tileElems m)).map fun p =>
    opaElem trio a b r (p.1 / 128) (p.1 % 128) n g (p.2, 0)
  ({ m with bits := packTile (es.map Prod.fst) }, es.foldl (fun f p => f ||| p.2) noFlags)

/-- Groups `g` to `g` + `n` - 1 of an outer product for every tile (R240). -/
def opaGroups (trio : Bool) (a : Array (Option Exact)) (bs : List (Nat × Array (Option Exact))) (t0 r n g : Nat)
    (run : Run) : Rr :=
  if n = 0 then .ok run
  else
    .ok (run.upd fun t => bs.foldl (fun u p =>
      let k : TReg := BitVec.ofNat 3 (t0 + p.1)
      let (m, fl) := opaTile trio a p.2 r n g (u.tile k)
      (u.setTile k m).raise 0 fl) t)

/-- The shared form of `vopa` and `vopa.s`: `scales` names the first registers of the row and column scale groups. -/
def prepOpa (t0 : TReg) (va vb : VReg) (ty : Tag) (rep : BitVec 3) (m : MaskOp) (scales : Option (VReg × VReg))
    (x : Px) : Prep :=
  let g := grpOf x.vt
  let n := rep.toNat + 1
  let gs := x.size 8
  let cols := List.range n
  x.checked (do
    groupAt va.toNat g
    for i in cols do groupAt (vb.toNat + i * g) g
    match scales with
    | none => pure ()
    | some (sa, sb) =>
      groupAt sa.toNat gs
      for i in cols do groupAt (sb.toNat + i * gs) gs
    x.quarter t0 n
    let t ← match groupTag x.src.v va.toNat g with
      | some t => .ok t
      | none => .error .tag
    for i in cols do x.groupIs (vb.toNat + i * g) g t
    needTag (tyOk ty t)
    match opaFormat scales.isSome t with
    | none => .error .tag
    | some (ew, r, trio) =>
      needTag (x.ew == ew)
      for i in cols do needTag ((x.t.tile (BitVec.ofNat 3 (t0.toNat + i))).tag == (if trio then .trio else .f32))
      match scales with
      | none => pure ()
      | some (sa, sb) =>
        x.groupIs sa.toNat gs .e8m0
        for i in cols do x.groupIs (sb.toNat + i * gs) gs .e8m0
        needTag (blkOf x.vt == 16 || blkOf x.vt == 32)
      pure (t, r, trio)) fun (t, r, trio) =>
    if x.vl = 0 then .ok x.t idleMop
    else
      let blk := blkOf x.vt
      let a := x.opaElems m t va.toNat (scales.map fun p => (p.1.toNat, blk))
      let bs := cols.map fun i =>
        (i, x.opaElems m t (vb.toNat + i * g) (scales.map fun p => (p.2.toNat + i * gs, blk)))
      let step := 128 * r
      .ok x.t
        ⟨fun lo hi run => opaGroups trio a bs t0.toNat r (hi / step - lo / step) (lo / step) run,
         fun run => opaGroups trio a bs t0.toNat r (if x.vl % step = 0 then 0 else 1) (x.vl / step) run⟩

/-- `vopa`. -/
def prepVopa (a : Opa) (x : Px) : Prep :=
  prepOpa a.t a.va a.vb a.ty a.rep a.m none x

/-- `vopa.s`. -/
def prepVopaS (a : OpaS) (x : Px) : Prep :=
  prepOpa a.t a.va a.vb a.ty a.rep a.m (some (a.vsa, a.vsb)) x

/-! ## mzero and mtag (R247) -/

/-- `mzero`. -/
def prepMzero (t : TReg) (ty : Tag) (x : Px) : Prep :=
  x.checked (x.quarter t 1) fun _ => x.tileOnly fun r => .ok (r.upd fun u => u.setTile t ⟨ty, 0⟩)

/-- `mtag`. -/
def prepMtag (t : TReg) (ty : Tag) (x : Px) : Prep :=
  x.checked (x.quarter t 1) fun _ =>
    x.tileOnly fun r => .ok (r.upd fun u => u.setTile t { u.tile t with tag := ty })

/-! ## mrd and mwr (R248, R249) -/

/-- The range check of R248: `vl` elements from a first row lie in the tile. -/
def rowsFit (row0 vl : Nat) : Bool :=
  row0 + (vl + 127) / 128 ≤ 128

/-- An instruction that stops where its rows leave the tile: only a look ahead at a trim gets that far (R45). -/
def withinTile (row0 : Nat) (m : Mop) : Mop where
  group lo hi r :=
    let bound := 128 * (128 - row0)
    (m.group lo (min hi bound) r).bind fun r' =>
      if bound < hi then .stop (.precise (max lo bound) .tileRange 0 0 r'.s) else .ok r'
  final := m.final

/-- `mrd`. -/
def prepMrd (a : Mrow) (x : Px) : Prep :=
  let w := x.ew
  let row0 := (x.op 0).toNat
  x.checked (do
    x.groups (some (a.v, w)) []
    x.quarter a.t 1
    needTag (tileWidth (x.t.tile a.t).tag == w)) fun _ =>
    if x.vl = 0 then .ok x.t idleMop
    else if !x.lax && !rowsFit row0 x.vl then .stop (.precise 0 .tileRange 0 0 x.s)
    else
      let m := x.t.tile a.t
      let mop := elementMop x.vt (.vec a.v.toNat w) x.vl x.vlmax fun _ e =>
        (if x.capActive a.m e then .val (tileGet m (row0 + e / 128) (e % 128) % 2 ^ w) else inactive x.vt, 0)
      x.done (some (a.v, w, m.tag)) (if x.lax then withinTile row0 mop else mop)

/-- The tags a tile may hold (R249, R250). -/
def tileTag (t : Tag) : Bool :=
  t == .raw || t == .i32 || t == .bf16 || t == .f32 || t == .trio

/-- `mwr`. -/
def prepMwr (a : Mrow) (x : Px) : Prep :=
  let w := x.ew
  let row0 := (x.op 0).toNat
  x.checked (do
    x.groups none [(a.v, w)]
    x.quarter a.t 1
    let t ← x.tag a.v w
    let old := (x.t.tile a.t).tag
    needTag (tileTag t && tileWidth t == w && (old == .raw || old == t))
    pure t) fun t =>
    if x.vl = 0 then .ok x.t idleMop
    else if !rowsFit row0 x.vl then .stop (.precise 0 .tileRange 0 0 x.s)
    else
      .ok x.t ⟨fun _ _ r => .ok r, fun r => .ok (r.upd fun u =>
        let m := ((List.range x.vl).filter (x.capActive a.m)).foldl (fun m e => tileSet m (row0 + e / 128) (e % 128) (x.capElem a.v w e))
          (u.tile a.t)
        u.setTile a.t { m with tag := t })⟩

/-! ## mld and mst (R250 to R252) -/

/-- The address of element `n` (R251). -/
def Px.tileAddr (x : Px) (w n : Nat) : Word :=
  x.op 0 + BitVec.ofNat 64 (n / 128) * x.op 1 + BitVec.ofNat 64 (n % 128 * (w / 8))

/-- What `mld` and `mst` do at their place: the range check, then the elements from `epr` on, up to where a pre-emption stops
them (R251). -/
def Px.tileRows (x : Px) (f : Nat → Run → Rr) (r : Run) : Rr :=
  let rows := (x.op 3).toNat
  if x.vl = 0 ∨ rows = 0 then .ok r
  else if (x.op 2).toNat + rows > 128 then .stop (.last 0 (.fault .tileRange 0 0) r)
  else
    let n := min (128 * rows) (x.halt.getD (128 * rows))
    (overElems f (if x.alone then x.pos else 0) n r).bind fun r' =>
      if n < 128 * rows then .stop (.last n .pause r') else .ok r'

/-- `mld`. -/
def prepMld (a : Mmem) (x : Px) : Prep :=
  let w := tileWidth a.ty
  x.checked (do
    x.quarter a.t 1
    let old := (x.t.tile a.t).tag
    needTag (old == .raw || old == a.ty)) fun _ =>
    .ok x.t ⟨fun _ _ r => .ok r, x.tileRows fun e r =>
      let va := x.tileAddr w e
      (ofPrecise (r.touchVa va (w / 8) .read) e (r.s.load r.t.qctx r.t.lbuf va (w / 8)) fun (v, lb) r' =>
        let v := r.pinned x.pins va (w / 8) v
        .ok (r'.upd fun t =>
          { t.setTile a.t { tileSet (t.tile a.t) ((x.op 2).toNat + e / 128) (e % 128) v with tag := a.ty } with
            lbuf := lb })).asLast r⟩

/-- `mst`. -/
def prepMst (a : Mmem) (x : Px) : Prep :=
  x.checked (x.quarter a.t 1) fun _ =>
    let w := tileWidth (x.t.tile a.t).tag
    .ok x.t ⟨fun _ _ r => .ok r, x.tileRows fun e r =>
      let va := x.tileAddr w e
      let v := tileGet (r.t.tile a.t) ((x.op 2).toNat + e / 128) (e % 128) % 2 ^ w
      (ofPrecise (r.touchVa va (w / 8) .write) e (r.s.store r.t.qctx r.t.lbuf va (w / 8) v) fun lb r' =>
        .ok (r'.upd fun t => { t with lbuf := lb })).asLast r⟩

/-! ## mcvt (R253, R254) -/

/-- The conversions. -/
inductive McvtOp where
  | i32Trio | f32I32 | bf16F32
  deriving DecidableEq, Repr

/-- The tag a conversion reads. -/
def McvtOp.source : McvtOp → Tag
  | .i32Trio => .trio
  | .f32I32 => .i32
  | .bf16F32 => .f32

/-- The tag a conversion gives. -/
def McvtOp.result : McvtOp → Tag
  | .i32Trio => .i32
  | .f32I32 => .f32
  | .bf16F32 => .bf16

/-- One element under a scale code (R254). -/
def McvtOp.apply (o : McvtOp) (rm : Rm) (sat : Bool) (code v : Nat) : Nat × Flags :=
  match o with
  | .i32Trio => (wrapTo 32 (trioValue v), 0)
  | .f32I32 =>
    let i := signedOf 32 v
    fmtF32.deliver rm false (scaleBy (.fin (decide (i < 0)) i.natAbs 0) code)
  | .bf16F32 => fmtBf16.deliver rm sat (scaleBy (fmtF32.unpack v) code)

/-- `mcvt`. -/
def prepMcvt (o : McvtOp) (a : Mcvt) (x : Px) : Prep :=
  let gs := x.size 8
  x.checked (do
    match a.scale with
    | .row vb => groupAt vb.toNat gs
    | _ => pure ()
    x.quarter a.md 1
    x.quarter a.ms 1
    match a.scale with
    | .row vb => x.groupIs vb.toNat gs .e8m0
    | _ => pure ()
    needTag ((x.t.tile a.ms).tag == o.source)) fun _ =>
    x.tileOnly fun r => .ok (r.upd fun t =>
      let code (i : Nat) : Nat := match a.scale with
        | .none => 127
        | .tile _ => (x.op 0).toNat % 256
        | .row vb => elemGet x.src.v x.q vb.toNat 8 i
      let es := ((List.range 16384).zip (tileElems (t.tile a.ms))).map fun p =>
        o.apply (x.rm a.rm) a.sat (code (p.1 / 128)) p.2
      (t.setTile a.md ⟨o.result, packTile (es.map Prod.fst)⟩).raise 0 (es.foldl (fun f p => f ||| p.2) noFlags))

end Sys2Proof.Machine
end

