-- ==== Sys2Proof/Machine/VecCross.lean ====
section
/-!
DEFINITION. Cross-element instructions: permutes (R226), slides (R227), replication, compress and expand (R228), scans
(R229), the merge unit (R230), the exchange (R231).
-/

namespace Sys2Proof.Machine

/-- The put of an active element, MU for an inactive one, from a captured mask. -/
def Px.capPut (x : Px) (m : MaskOp) (e : Nat) (v : Nat) : Put × Flags :=
  (if x.capActive m e then .val v else inactive x.vt, 0)

/-! ## Permutes (R226) -/

/-- `vperm`. -/
def prepPerm (a : Vp) (x : Px) : Prep :=
  let w := x.ew
  x.checked (do
    x.groups (some (a.vd, w)) [(a.va, w), (a.vb, w)]
    let t ← x.tag a.va w
    let u ← x.tag a.vb w
    needTag (indexOk u w)
    pure t) fun t =>
    x.done (some (a.vd, w, t)) (elementMop x.vt (.vec a.vd.toNat w) x.vl x.vlmax fun _ e =>
      let u := x.capElem a.vb w e
      x.capPut a.m e (t.kept (if u < x.vl then x.capElem a.va w u else 0)))

/-- `vzip`. -/
def prepZip (a : Vp) (x : Px) : Prep :=
  let w := x.ew
  x.checked (do
    x.groups (some (a.vd, w)) [(a.va, w), (a.vb, w)]
    let t ← x.tag a.va w
    let u ← x.tag a.vb w
    needTag (t == u)
    pure t) fun t =>
    x.done (some (a.vd, w, t)) (elementMop x.vt (.vec a.vd.toNat w) x.vl x.vlmax fun _ e =>
      x.capPut a.m e (t.kept (x.capElem (if e % 2 = 0 then a.va else a.vb) w (e / 2))))

/-- `vunzip`. -/
def prepUnzip (a : Vu) (x : Px) : Prep :=
  let w := x.ew
  let h := (x.vl + 1) / 2
  x.checked (do
    x.groups (some (a.vd, w)) [(a.va, w)]
    x.tag a.va w) fun t =>
    x.done (some (a.vd, w, t)) (elementMop x.vt (.vec a.vd.toNat w) x.vl x.vlmax fun _ e =>
      x.capPut a.m e (t.kept (x.capElem a.va w (if e < h then 2 * e else 2 * (e - h) + 1))))

/-! ## Slides (R227) -/

/-- `vslide.up`: the elements below sB keep their bits. -/
def prepSlideUp (a : Vs) (x : Px) : Prep :=
  let w := x.ew
  let n := (x.op 0).toNat
  x.checked (do
    x.groups (some (a.vd, w)) [(a.va, w)]
    x.tag a.va w) fun t =>
    x.done (some (a.vd, w, t)) (elementMop x.vt (.vec a.vd.toNat w) x.vl x.vlmax fun _ e =>
      if e < n then (.keep, 0) else x.capPut a.m e (t.kept (x.capElem a.va w (e - n))))

/-- `vslide.dn`. -/
def prepSlideDn (a : Vs) (x : Px) : Prep :=
  let w := x.ew
  let n := (x.op 0).toNat
  x.checked (do
    x.groups (some (a.vd, w)) [(a.va, w)]
    x.tag a.va w) fun t =>
    x.done (some (a.vd, w, t)) (elementMop x.vt (.vec a.vd.toNat w) x.vl x.vlmax fun _ e =>
      x.capPut a.m e (t.kept (if e + n < x.vl then x.capElem a.va w (e + n) else 0)))

/-! ## Replication, compress, expand (R228) -/

/-- `vrep.blk`. -/
def prepRepBlk (a : Vu) (x : Px) : Prep :=
  let w := x.ew
  x.checked (do
    x.groups (some (a.vd, w)) [(a.va, w)]
    x.tag a.va w) fun t =>
    x.done (some (a.vd, w, t)) (elementMop x.vt (.vec a.vd.toNat w) x.vl x.vlmax fun _ e =>
      x.capPut a.m e (t.kept (x.capElem a.va w (e / blkOf x.vt))))

/-- The elements below `vl` a mask selects, in ascending order. -/
def Px.selected (x : Px) (m : MaskOp) : List Nat :=
  (List.range x.vl).filter (x.capActive m)

/-- `vcompress`: elements from the number of selected ones on follow TU. -/
def prepCompress (a : Vu) (x : Px) : Prep :=
  let w := x.ew
  let sel := x.selected a.m
  x.checked (do
    x.groups (some (a.vd, w)) [(a.va, w)]
    x.tag a.va w) fun t =>
    x.done (some (a.vd, w, t)) (elementMop x.vt (.vec a.vd.toNat w) x.vl x.vlmax fun _ e =>
      match sel[e]? with
      | some i => (.val (t.kept (x.capElem a.va w i)), 0)
      | none => (if tuOf x.vt then .zero else .keep, 0))

/-- The number of selected elements below one. -/
def rankOf (sel : List Nat) (e : Nat) : Nat :=
  (sel.filter (· < e)).length

/-- `vexpand`. -/
def prepExpand (a : Vu) (x : Px) : Prep :=
  let w := x.ew
  let sel := x.selected a.m
  x.checked (do
    x.groups (some (a.vd, w)) [(a.va, w)]
    x.tag a.va w) fun t =>
    x.done (some (a.vd, w, t)) (elementMop x.vt (.vec a.vd.toNat w) x.vl x.vlmax fun _ e =>
      x.capPut a.m e (t.kept (x.capElem a.va w (rankOf sel e))))

/-! ## Scans (R229) -/

/-- A partial sum as a scan puts it: a NaN is the canonical one (R69). -/
def scanPut (t : Tag) (x : Nat) : Nat :=
  if t.isInt then x else canonNan (arithFmt t) x

/-- NV for a signalling NaN that a scan starts from (R69). -/
def scanFlags (t : Tag) (x : Nat) : Flags :=
  if t.isInt then 0 else snan ((arithFmt t).unpack x)

/-- The loop of R229 over the active elements: (element, put value, flags). -/
def scanLoop (t : Tag) (w : Nat) (rm : Rm) (sat excl : Bool) : Option Nat → List (Nat × Nat) → List (Nat × Nat × Flags)
  | _, [] => []
  | none, (e, v) :: l => (e, if excl then 0 else scanPut t v, scanFlags t v) :: scanLoop t w rm sat excl (some v) l
  | some a, (e, v) :: l =>
    let (r, fl) := addElem t w rm sat a v
    (e, if excl then scanPut t a else r, fl) :: scanLoop t w rm sat excl (some r) l

/-- `vscan.add` and `vscan.addx`. -/
def prepScan (excl : Bool) (a : V1) (x : Px) : Prep :=
  let w := x.ew
  x.checked (do
    x.groups (some (a.vd, w)) [(a.va, w)]
    let t ← x.tag a.va w
    needTag ((t.isInt || isArithFloat t) && tyOk a.ty t)
    pure t) fun t =>
    let res := scanLoop t w (x.rm a.rm) a.sat excl none (x.actives a.va a.m w)
    x.done (some (a.vd, w, t)) (elementMop x.vt (.vec a.vd.toNat w) x.vl x.vlmax fun _ e =>
      match res.find? fun p => p.1 == e with
      | some p => (.val p.2.1, p.2.2)
      | none => (inactive x.vt, 0))

/-! ## The merge unit (R230) -/

/-- The operations of the merge unit. -/
inductive MergeOp where
  | add | sub | max
  deriving DecidableEq, Repr

/-- `comb` (R230). -/
def MergeOp.comb (o : MergeOp) (t : Tag) (w : Nat) (rm : Rm) (a b : Nat) : Nat × Flags :=
  if t.isInt then
    match o with
    | .add => ((a + b) % 2 ^ w, 0)
    | .sub => (wrapTo w ((a : Int) - b), 0)
    | .max => (if t.intValue a < t.intValue b then b else a, 0)
  else
    let f := arithFmt t
    match o with
    | .add => f.deliver rm false (exAdd rm (f.unpack a) (f.unpack b))
    | .sub => f.deliver rm false (exSub rm (f.unpack a) (f.unpack b))
    | .max => f.minMax true a b

/-- `lone_b` (R230): the negation for sub. -/
def MergeOp.loneB (o : MergeOp) (t : Tag) (w : Nat) (b : Nat) : Nat × Flags :=
  match o with
  | .sub =>
    if t.isInt then (wrapTo w (-(b : Int)), 0)
    else
      let f := arithFmt t
      let v := f.unpack b
      if v.isNan then (f.nanBits, snan v) else (b ^^^ f.signBit, 0)
  | _ => (b, 0)

/-- `v = 0`, for +0 and -0 in float (R230). -/
def isZeroElem (t : Tag) (v : Nat) : Bool :=
  if t.isInt then v == 0 else ((arithFmt t).unpack v).isZero

/-- The merge procedure (R230) over the two rows of (index, value): the output rows, latest first, and the flags by
output position; `none` when the output runs over VLMAX. -/
def mergeLoop (o : MergeOp) (ti tv : Tag) (w : Nat) (rm : Rm) (dz : Bool) (vlmax : Nat) :
    (fuel n : Nat) → List (Nat × Nat) → List (Nat × Nat) → List (Nat × Nat) → List (Nat × Flags) →
    Option (List (Nat × Nat) × List (Nat × Flags))
  | 0, _, _, _, out, fl => some (out, fl)
  | fuel + 1, n, as, bs, out, fl =>
    let emit (x : Nat) (v : Nat × Flags) (as' bs' : List (Nat × Nat)) :=
      let fl' := (n, v.2) :: fl
      if dz && isZeroElem tv v.1 then mergeLoop o ti tv w rm dz vlmax fuel n as' bs' out fl'
      else if n = vlmax then none
      else mergeLoop o ti tv w rm dz vlmax fuel (n + 1) as' bs' ((x, v.1) :: out) fl'
    match as, bs with
    | [], [] => some (out, fl)
    | (i, v) :: at_, [] => emit i (v, 0) at_ []
    | [], (j, u) :: bt => emit j (o.loneB tv w u) [] bt
    | (i, v) :: at_, (j, u) :: bt =>
      if ti.intValue i < ti.intValue j then emit i (v, 0) at_ ((j, u) :: bt)
      else if ti.intValue j < ti.intValue i then emit j (o.loneB tv w u) ((i, v) :: at_) bt
      else emit i (o.comb tv w rm v u) at_ bt

/-- A row of the merge unit: indices in the group at `r`, values of tag `tv` in the group GRP registers above. -/
def Px.row (x : Px) (tv : Tag) (r : VReg) (n : Nat) : List (Nat × Nat) :=
  (List.range n).map fun e =>
    (elemGet x.src.v x.q r.toNat x.ew e, tv.kept (elemGet x.src.v x.q (r.toNat + grpOf x.vt) x.ew e))

/-- One element of a merge's output group: what the procedure gave it, TU above its count (R230). -/
def mergePut (vt : BitVec 12) (l : List Nat) (e : Nat) : Put :=
  match l[e]? with
  | some v => .val v
  | none => if tuOf vt then .zero else .keep

/-- `vmerge.u`: group g of the outputs is written with group g, the elements from `vl` on in the last group. -/
def prepMerge (o : MergeOp) (a : Merge) (x : Px) : Prep :=
  let w := x.ew
  let g := grpOf x.vt
  let pairOk (r : VReg) : Bool := r.toNat % g == 0 && r.toNat + 2 * g ≤ 64
  let pairApart (r : VReg) : Bool := r == a.vd || !groupsMeet a.vd.toNat (2 * g) r.toNat (2 * g)
  let valTag (r : VReg) : Except Cause Tag :=
    match groupTag x.src.v (r.toNat + g) g with
    | none => .error .tag
    | some t => if widthOk t w then .ok t else .error .tag
  x.checked (do
    if !(pairOk a.vd && pairOk a.va && pairOk a.vb && pairApart a.va && pairApart a.vb) then .error .group
    let ia ← x.tag a.va w
    let ib ← x.tag a.vb w
    let va ← valTag a.va
    let vb ← valTag a.vb
    needTag (ia == ib && ia.isInt && va == vb && convertible va)
    pure (ia, va)) fun (ti, tv) =>
    let na := (x.op 0).toNat
    let nb := (x.op 1).toNat
    if x.vl = 0 then .ok x.t (resultMop 0 [])
    else if na > x.vl ∨ nb > x.vl then .stop (.precise 0 .mergeRange 0 0 x.s)
    else
      match mergeLoop o ti tv w (x.rm a.rm) a.dz x.vlmax (na + nb + 1) 0 (x.row tv a.va na) (x.row tv a.vb nb) [] [] with
      | none => .stop (.precise 0 .mergeRange 0 0 x.s)
      | some (rows, fl) =>
        let out := rows.reverse
        let tags := setTags (setTags x.t.v a.vd.toNat g ti) (a.vd.toNat + g) g tv
        .ok { x.t with v := tags }
          ⟨overElems fun e r => .ok (r.upd fun t =>
              (t.putElem (.vec a.vd.toNat w) e (mergePut x.vt (out.map Prod.fst) e)).putElem
                (.vec (a.vd.toNat + g) w) e (mergePut x.vt (out.map Prod.snd) e)),
           fun r =>
            let t1 := (List.range (x.vlmax - x.vl)).foldl (fun u i =>
              (u.putElem (.vec a.vd.toNat w) (x.vl + i) (mergePut x.vt (out.map Prod.fst) (x.vl + i))).putElem
                (.vec (a.vd.toNat + g) w) (x.vl + i) (mergePut x.vt (out.map Prod.snd) (x.vl + i))) r.t
            .ok { r with t := fl.foldl (fun u p => u.raise p.1 p.2) t1, out := some (BitVec.ofNat 64 out.length) }⟩

/-! ## Exchange (R231) -/

/-- `vxch`: at a first start the strand offers its elements and its convoy waits;
once the exchange has ended, the convoy runs with its outcome. -/
def prepXch (a : Xch) (x : Px) : Prep :=
  let w := x.ew
  x.checked (do
    x.groups (some (a.vd, w)) [(a.va, w)]
    x.tag a.va w) fun t =>
    let peer := (x.op 0).toNat
    if peer ≥ x.t.id.gsz ∨ peer = x.t.id.tid then .ok x.t (resultMop 2 [])
    else
      match x.t.xch with
      | .ended d =>
        if d.status = 0 then
          x.done (some (a.vd, w, d.tag))
            ⟨(elementMop x.vt (.vec a.vd.toNat w) x.vl x.vlmax fun _ e =>
                x.capPut a.m e (d.tag.kept (d.data.getD e 0).toNat)).group,
             fun r => .ok { (r.upd fun u => u.tail x.vt (.vec a.vd.toNat w) x.vl x.vlmax) with out := some 0 }⟩
        else .ok x.t (resultMop d.status [])
      | .offered _ => .stop (.wait x.pos x.s)
      | .none =>
        let o : Xoffer := ⟨peer, (x.op 1) &&& 0xFFFF, x.vl, w, t,
          (List.range x.vl).map fun e => BitVec.ofNat 64 (t.kept (x.capElem a.va w e)), x.s.tick⟩
        .stop (.offer o)

end Sys2Proof.Machine
end

