-- ==== Sys2Proof/Machine/Convoy.lean ====
section
/-!
DEFINITION. Convoys: what a vector-queue instruction reads and writes, dispatch into the VIQ (R156 to R158), the effect of
a convoy (R159 to R161), its stops (R26, R201, R220, R221), completion (R18) and the result queue (R20).
-/

namespace Sys2Proof.Machine

/-! ## Classes and registers (R153, R158) -/

/-- The classes of the chained instructions. -/
inductive Cls where
  | vx | ld | st | px | lt | op | sy
  deriving DecidableEq, Repr

/-- What an instruction names: its class, its C bit, the vector groups (first register, size) and mask registers it reads
and writes, the scalar registers it reads, in the order of OPS (R343). -/
structure Uses where
  cls : Cls
  c   : Bool
  rv  : List (Nat × Nat)
  rk  : List KReg
  wv  : List (Nat × Nat)
  wk  : List KReg
  ops : List SReg
  deriving DecidableEq, Repr

/-- A group read or written at a width. -/
def grp (vt : BitVec 12) (r : VReg) (w : Nat) : Nat × Nat :=
  (r.toNat, groupSize vt w)

/-- `root vD, vA, vB`. -/
def usesVv (vt : BitVec 12) (a : Vv) (useD : Bool) (wb : Nat) : Uses :=
  let w := ewOf vt
  ⟨.vx, a.c, [grp vt a.va w, grp vt a.vb wb] ++ (if useD then [grp vt a.vd w] else []), [a.m.k], [grp vt a.vd w], [], []⟩

/-- `root.x vD, vA, sB`. -/
def usesVx (vt : BitVec 12) (a : Vx) (useD : Bool) : Uses :=
  let w := ewOf vt
  ⟨.vx, a.c, grp vt a.va w :: (if useD then [grp vt a.vd w] else []), [a.m.k], [grp vt a.vd w], [], [a.sb]⟩

/-- `root vD, vA` with a destination of width `dw`. -/
def usesV1 (vt : BitVec 12) (cls : Cls) (a : V1) (dw : Nat) : Uses :=
  ⟨cls, a.c, [grp vt a.va (ewOf vt)], [a.m.k], [grp vt a.vd dw], [], []⟩

/-- A compare. -/
def usesVk (vt : BitVec 12) (a : Vk) : Uses :=
  let w := ewOf vt
  ⟨.vx, a.c, [grp vt a.va w, grp vt a.vb w], [a.m.k], [], [a.kd], []⟩

/-- `root vD, vA, vB` without a modifier. -/
def usesVp (vt : BitVec 12) (cls : Cls) (a : Vp) : Uses :=
  let w := ewOf vt
  ⟨cls, a.c, [grp vt a.va w, grp vt a.vb w], [a.m.k], [grp vt a.vd w], [], []⟩

/-- `root vD, vA` without a modifier, at width `w`. -/
def usesVu (vt : BitVec 12) (cls : Cls) (a : Vu) (w : Nat) : Uses :=
  ⟨cls, a.c, [grp vt a.va w], [a.m.k], [grp vt a.vd w], [], []⟩

/-- A slide. -/
def usesVs (vt : BitVec 12) (a : Vs) : Uses :=
  let w := ewOf vt
  ⟨.px, a.c, [grp vt a.va w], [a.m.k], [grp vt a.vd w], [], [a.sb]⟩

/-- A reduction. -/
def usesRed (vt : BitVec 12) (a : Red) : Uses :=
  ⟨.px, a.c, [grp vt a.vb (ewOf vt)], [a.m.k], [], [], [a.sa]⟩

/-- A vector load or store: its data group is written or read. -/
def usesMem (vt : BitVec 12) (load : Bool) (c : Bool) (vd : VReg) (m : MaskOp) (ops : List SReg)
    (idx : List (Nat × Nat)) : Uses :=
  let d := grp vt vd (ewOf vt)
  if load then ⟨.ld, c, idx, [m.k], [d], [], ops⟩ else ⟨.st, c, d :: idx, [m.k], [], [], ops⟩

/-- A merge names pairs of groups. -/
def usesMerge (vt : BitVec 12) (a : Merge) : Uses :=
  let n := 2 * grpOf vt
  ⟨.px, a.c, [(a.va.toNat, n), (a.vb.toNat, n)], [], [(a.vd.toNat, n)], [], [a.sa, a.sb]⟩

/-- An outer product. -/
def usesOpa (vt : BitVec 12) (c : Bool) (va vb : VReg) (rep : BitVec 3) (m : MaskOp) (scales : Option (VReg × VReg)) :
    Uses :=
  let g := grpOf vt
  let n := rep.toNat + 1
  let gs := groupSize vt 8
  ⟨.op, c, [(va.toNat, g), (vb.toNat, n * g)] ++ (match scales with
    | none => []
    | some (sa, sb) => [(sa.toNat, gs), (sb.toNat, n * gs)]), [m.k], [], [], []⟩

/-- A tile conversion. -/
def usesMcvt (vt : BitVec 12) (a : Mcvt) : Uses :=
  match a.scale with
  | .none => ⟨.op, a.c, [], [], [], [], []⟩
  | .tile sb => ⟨.op, a.c, [], [], [], [], [sb]⟩
  | .row vb => ⟨.op, a.c, [grp vt vb 8], [], [], [], []⟩

/-- A vector atomic. -/
def usesVamo (vt : BitVec 12) (cas : Bool) (a : Vamo) : Uses :=
  let w := ewOf vt
  let d := grp vt a.vd w
  ⟨.sy, a.c, [grp vt a.va w, grp vt a.vb w] ++ (if a.ret && cas then [d] else []), [a.m.k],
    if a.ret then [d] else [], [], [a.sa]⟩

/-- What a chained instruction names under a `vtype`; none for the other instructions. -/
def uses (vt : BitVec 12) (i : Instr) : Option Uses :=
  let w := ewOf vt
  match i with
  | .vadd a | .vsub a | .vmul a | .vmulh a | .vmin a | .vmax a | .vand a | .vor a | .vxor a | .vshl a | .vshr a | .vsar a
  | .vfadd a | .vfsub a | .vfmul a | .vfdiv a | .vfmin a | .vfmax a => some (usesVv vt a false w)
  | .vmadd a | .vfma a => some (usesVv vt a true w)
  | .vscale a => some (usesVv vt a false 8)
  | .vaddX a | .vsubX a | .vmulX a | .vmulhX a | .vminX a | .vmaxX a | .vandX a | .vorX a | .vxorX a | .vshlX a
  | .vshrX a | .vsarX a | .vfaddX a | .vfsubX a | .vfmulX a | .vfdivX a | .vfminX a | .vfmaxX a =>
    some (usesVx vt a false)
  | .vmaddX a => some (usesVx vt a true)
  | .vfsqrt a | .vfrcpE a => some (usesV1 vt .vx a w)
  | .vcvtH a => some (usesV1 vt .vx a (w / 2))
  | .vcvtD a => some (usesV1 vt .vx a (2 * w))
  | .vcvtF32E2m1 a => some (usesV1 vt .vx a 4)
  | .vscanAdd a | .vscanAddx a => some (usesV1 vt .px a w)
  | .vcmpEq a | .vcmpNe a | .vcmpLt a | .vcmpGe a | .vcmpLtN a | .vcmpGeN a | .vcmpFeq a | .vcmpFlt a | .vcmpFle a
  | .vcmpFun a => some (usesVk vt a)
  | .vsel a => some (usesVp vt .vx a)
  | .vperm a | .vzip a => some (usesVp vt .px a)
  | .kand c kd ka kb | .kor c kd ka kb => some ⟨.vx, c, [], [ka, kb], [], [kd], []⟩
  | .knot c kd ka => some ⟨.vx, c, [], [ka], [], [kd], []⟩
  | .kpop c _ ka m | .kfirst c _ ka m => some ⟨.px, c, [], [ka, m.k], [], [], []⟩
  | .vmvSx c vd sa sb _ => some ⟨.vx, c, [], [], [grp vt vd w], [], [sa, sb]⟩
  | .vbcast c vd sa _ m => some ⟨.vx, c, [], [m.k], [grp vt vd w], [], [sa]⟩
  | .vmvXs c _ va sb => some ⟨.px, c, [grp vt va w], [], [], [], [sb]⟩
  | .vredAddO a | .vredAddT a | .vredMin a | .vredMax a => some (usesRed vt a)
  | .vtag c vd va _ => some ⟨.vx, c, [grp vt va w], [], [grp vt vd w], [], []⟩
  | .vld a | .vldc a => some (usesMem vt true a.c a.vd a.m [a.sa] [])
  | .vst a => some (usesMem vt false a.c a.vd a.m [a.sa] [])
  | .vlds a => some (usesMem vt true a.c a.vd a.m [a.sa, a.sb] [])
  | .vsts a => some (usesMem vt false a.c a.vd a.m [a.sa, a.sb] [])
  | .vldx a => some (usesMem vt true a.c a.vd a.m [a.sa] [grp vt a.vb w])
  | .vstxO a | .vstxN a => some (usesMem vt false a.c a.vd a.m [a.sa] [grp vt a.vb w])
  | .vstc a => some (usesMem vt false a.c a.vd a.m [a.sa, a.sb] [])
  | .vfwdRes a => some (usesVu vt .ld a 64)
  | .vunzip a | .vrepBlk a | .vcompress a | .vexpand a => some (usesVu vt .px a w)
  | .vslideUp a | .vslideDn a => some (usesVs vt a)
  | .vmergeUAdd a | .vmergeUSub a | .vmergeUMax a => some (usesMerge vt a)
  | .vxch a => some ⟨.px, a.c, [grp vt a.va w], [a.m.k], [grp vt a.vd w], [], [a.sa, a.sb]⟩
  | .vltLd a => some ⟨.lt, a.c, [grp vt a.vb w], [a.m.k], [grp vt a.vd w], [], []⟩
  | .vltSt a => some ⟨.lt, a.c, [grp vt a.vd w, grp vt a.vb w], [a.m.k], [], [], []⟩
  | .vltFill a => some ⟨.lt, a.c, [grp vt a.vd w], [a.m.k], [], [], [a.sb]⟩
  | .mzero c _ _ | .mtag c _ _ => some ⟨.op, c, [], [], [], [], []⟩
  | .vopa a => some (usesOpa vt a.c a.va a.vb a.rep a.m none)
  | .vopaS a => some (usesOpa vt a.c a.va a.vb a.rep a.m (some (a.vsa, a.vsb)))
  | .mrd a => some ⟨.op, a.c, [], [a.m.k], [grp vt a.v w], [], [a.sb]⟩
  | .mwr a => some ⟨.op, a.c, [grp vt a.v w], [a.m.k], [], [], [a.sb]⟩
  | .mld a | .mst a => some ⟨.op, a.c, [], [], [], [], [a.sa, a.sb, a.sc, a.se]⟩
  | .mcvtI32Trio a | .mcvtF32I32 a | .mcvtBf16F32 a => some (usesMcvt vt a)
  | .vamoAdd a | .vamoAnd a | .vamoOr a | .vamoXor a | .vamoMin a | .vamoMax a | .vamoSwp a => some (usesVamo vt false a)
  | .vamoCas a => some (usesVamo vt true a)
  | .vwaccAdd a => some ⟨.sy, a.c, [grp vt a.va w, grp vt a.vb w], [a.m.k], [], [], []⟩
  | _ => none

/-- The preparation of each chained instruction (R159, R201). -/
def prepare (i : Instr) (x : Px) : Prep :=
  match i with
  | .vadd a => prepIntVv .add a x
  | .vsub a => prepIntVv .sub a x
  | .vmul a => prepIntVv .mul a x
  | .vmulh a => prepIntVv .mulh a x
  | .vmadd a => prepIntVv .madd a x
  | .vmin a => prepIntVv .min a x
  | .vmax a => prepIntVv .max a x
  | .vand a => prepIntVv .and a x
  | .vor a => prepIntVv .or a x
  | .vxor a => prepIntVv .xor a x
  | .vshl a => prepIntVv .shl a x
  | .vshr a => prepIntVv .shr a x
  | .vsar a => prepIntVv .sar a x
  | .vaddX a => prepIntVx .add a x
  | .vsubX a => prepIntVx .sub a x
  | .vmulX a => prepIntVx .mul a x
  | .vmulhX a => prepIntVx .mulh a x
  | .vmaddX a => prepIntVx .madd a x
  | .vminX a => prepIntVx .min a x
  | .vmaxX a => prepIntVx .max a x
  | .vandX a => prepIntVx .and a x
  | .vorX a => prepIntVx .or a x
  | .vxorX a => prepIntVx .xor a x
  | .vshlX a => prepIntVx .shl a x
  | .vshrX a => prepIntVx .shr a x
  | .vsarX a => prepIntVx .sar a x
  | .vfadd a => prepFloatVv .add a x
  | .vfsub a => prepFloatVv .sub a x
  | .vfmul a => prepFloatVv .mul a x
  | .vfdiv a => prepFloatVv .div a x
  | .vfmin a => prepFloatVv .min a x
  | .vfmax a => prepFloatVv .max a x
  | .vfma a => prepFloatVv .fma a x
  | .vfsqrt a => prepFloatV1 .sqrt a x
  | .vfrcpE a => prepFloatV1 .rcp a x
  | .vfaddX a => prepFloatVx .add a x
  | .vfsubX a => prepFloatVx .sub a x
  | .vfmulX a => prepFloatVx .mul a x
  | .vfdivX a => prepFloatVx .div a x
  | .vfminX a => prepFloatVx .min a x
  | .vfmaxX a => prepFloatVx .max a x
  | .vscale a => prepScale a x
  | .vcmpEq a => prepCompare .eq a x
  | .vcmpNe a => prepCompare .ne a x
  | .vcmpLt a => prepCompare .lt a x
  | .vcmpGe a => prepCompare .ge a x
  | .vcmpLtN a => prepCompare .ltN a x
  | .vcmpGeN a => prepCompare .geN a x
  | .vcmpFeq a => prepCompare .feq a x
  | .vcmpFlt a => prepCompare .flt a x
  | .vcmpFle a => prepCompare .fle a x
  | .vcmpFun a => prepCompare .fun_ a x
  | .vsel a => prepSel a x
  | .kand _ kd ka kb => prepMask kd (fun t e => maskBit t.k ka e && maskBit t.k kb e) x
  | .kor _ kd ka kb => prepMask kd (fun t e => maskBit t.k ka e || maskBit t.k kb e) x
  | .knot _ kd ka => prepMask kd (fun t e => !maskBit t.k ka e) x
  | .kpop _ _ ka m => prepKpop ka m x
  | .kfirst _ _ ka m => prepKfirst ka m x
  | .vmvSx _ vd _ _ ty => prepMvSx vd ty x
  | .vbcast _ vd _ ty m => prepBcast vd ty m x
  | .vmvXs _ _ va _ => prepMvXs va x
  | .vredAddO a => prepReduce .addO a x
  | .vredAddT a => prepReduce .addT a x
  | .vredMin a => prepReduce .min a x
  | .vredMax a => prepReduce .max a x
  | .vcvtH a => prepCvt true a x
  | .vcvtD a => prepCvt false a x
  | .vcvtF32E2m1 a => prepCvtE2m1 a x
  | .vtag _ vd va ty => prepVtag vd va ty x
  | .vld a => prepLoad .unit a.vd a.ty a.m x
  | .vlds a => prepLoad .strided a.vd a.ty a.m x
  | .vldx a => prepLoad (.indexed a.vb a.sh.toNat) a.vd a.ty a.m x
  | .vst a => prepStore .unit true a.vd a.m x
  | .vsts a => prepStore .strided true a.vd a.m x
  | .vstxO a => prepStore (.indexed a.vb a.sh.toNat) true a.vd a.m x
  | .vstxN a => prepStore (.indexed a.vb a.sh.toNat) false a.vd a.m x
  | .vldc a => prepLdc a x
  | .vstc a => prepStc a x
  | .vfwdRes a => prepFwdRes a x
  | .vperm a => prepPerm a x
  | .vzip a => prepZip a x
  | .vunzip a => prepUnzip a x
  | .vslideUp a => prepSlideUp a x
  | .vslideDn a => prepSlideDn a x
  | .vrepBlk a => prepRepBlk a x
  | .vcompress a => prepCompress a x
  | .vexpand a => prepExpand a x
  | .vscanAdd a => prepScan false a x
  | .vscanAddx a => prepScan true a x
  | .vmergeUAdd a => prepMerge .add a x
  | .vmergeUSub a => prepMerge .sub a x
  | .vmergeUMax a => prepMerge .max a x
  | .vxch a => prepXch a x
  | .vltLd a => prepLtLd a x
  | .vltSt a => prepLtSt a x
  | .vltFill a => prepLtFill a x
  | .mzero _ t ty => prepMzero t ty x
  | .mtag _ t ty => prepMtag t ty x
  | .vopa a => prepVopa a x
  | .vopaS a => prepVopaS a x
  | .mrd a => prepMrd a x
  | .mwr a => prepMwr a x
  | .mld a => prepMld a x
  | .mst a => prepMst a x
  | .mcvtI32Trio a => prepMcvt .i32Trio a x
  | .mcvtF32I32 a => prepMcvt .f32I32 a x
  | .mcvtBf16F32 a => prepMcvt .bf16F32 a x
  | .vamoAdd a => prepVamo .add a x
  | .vamoAnd a => prepVamo .and a x
  | .vamoOr a => prepVamo .or a x
  | .vamoXor a => prepVamo .xor a x
  | .vamoMin a => prepVamo .min a x
  | .vamoMax a => prepVamo .max a x
  | .vamoSwp a => prepVamo .swp a x
  | .vamoCas a => prepVamo .cas a x
  | .vwaccAdd a => prepWacc a x
  | _ => .ok x.t idleMop

/-! ## Formation (R156 to R158) -/

/-- After these no head joins their convoy (R224, R252). -/
def endsConvoy (i : Instr) : Bool :=
  match i with
  | .vstc _ => true
  | .mld _ => true
  | .mst _ => true
  | _ => false

/-- `vldc` must be first of its convoy (R225). -/
def mustLead (i : Instr) : Bool :=
  match i with
  | .vldc _ => true
  | _ => false

/-- How many instructions of a class a convoy holds at most (R157). -/
def classLimit (c : Cls) : Nat :=
  if c = .vx then 2 else 1

/-- The cross-element classes (R158). -/
def crossElement (c : Cls) : Bool :=
  c == .px || c == .op

/-- Why a head may not join a convoy: ILL_CONVOY, then ILL_CHAIN (R157, R158, R162). -/
def joinCause (viq : List Entry) (i : Instr) (u : Uses) : Option Cause :=
  let us := viq.filterMap fun e => uses e.vtype e.i
  if (us.filter fun x => x.cls == u.cls).length ≥ classLimit u.cls || viq.any (fun e => endsConvoy e.i) || mustLead i then
    some .illConvoy
  else if crossElement u.cls
      && us.any fun x => x.wv.any (fun a => u.rv.any fun b => groupsMeet a.1 a.2 b.1 b.2)
        || x.wk.any (fun k => k != 0 && u.rk.contains k) then some .illChain
  else none

/-! ## The effect of a convoy -/

/-- The members of a convoy prepared in order. -/
inductive Prepared where
  | ok (t : Strand) (ms : List Mop) (caps : List Captured)
  | fail (n : Nat) (c : Cause)
  | stop (n : Nat) (x : Stop)

/-- What an entry is prepared from. -/
def Entry.px (e : Entry) (t : Strand) (s : State) (src : Captured) (vl : Nat) (alone : Bool) (halt : Option Nat)
    (lax : Bool) : Px :=
  ⟨t, s, src, vl, e.vtype, e.ops, e.pos, e.perf, alone, halt, e.pins, lax⟩

/-- Whether an instruction is an outer product. -/
def isOpa (i : Instr) : Bool :=
  match i with
  | .vopa _ => true
  | .vopaS _ => true
  | _ => false

/-- Whether an instruction is a vector atomic. -/
def isVamo (i : Instr) : Bool :=
  match i with
  | .vamoAdd _ | .vamoAnd _ | .vamoOr _ | .vamoXor _ | .vamoMin _ | .vamoMax _ | .vamoSwp _ | .vamoCas _ => true
  | _ => false

/-- Whether a convoy is an outer product by itself: its position counts k positions of 128 elements (R244). -/
def opaAlone : List Entry → Bool
  | [e] => isOpa e.i
  | _ => false

/-- The element from which a convoy goes on: the least of its members' positions (R26, R244, R245). -/
def convoyPos (es : List Entry) : Nat :=
  match es with
  | [] => 0
  | e :: t => if opaAlone es then 128 * e.pos else t.foldl (fun a x => min a x.pos) e.pos

/-- The position a record or an entry holds for an element boundary (R26, R244, R245). -/
def posAt (es : List Entry) (e : Nat) : Nat :=
  if opaAlone es then e / 128 else e

/-- Prepare the members from number `n` on: sources are captured, or read as the stopped convoy captured them (R27). -/
def prepareAll (s : State) (vl pos : Nat) (alone : Bool) (halt : Option Nat) (lax : Bool) :
    (n : Nat) → List Entry → Strand → List Mop → List Captured → Prepared
  | _, [], t, ms, caps => .ok t ms.reverse caps.reverse
  | n, e :: es, t, ms, caps =>
    let src := e.cap.getD ⟨t.v, t.k⟩
    match prepare e.i (e.px t s src vl alone halt lax) with
    | .fail c => .fail n c
    | .stop x => .stop n x
    | .ok t' m =>
      prepareAll s vl pos alone halt lax (n + 1) es t' ((if pos < e.pos || e.fin then m.resumed e.pos e.fin else m) :: ms)
        (src :: caps)

/-- With `vl` = 0 only the values for the scalar side come of a convoy (R46). -/
def idleOuts (t : Strand) (s : State) : (n : Nat) → List Mop → Outs
  | _, [] => []
  | n, m :: ms =>
    let rest := idleOuts t s (n + 1) ms
    match m.final (Run.start t s none) with
    | .ok r => match r.out with
      | some w => (n, w) :: rest
      | none => rest
    | .stop _ => rest

/-- One run of a convoy up to an element boundary. -/
inductive Attempt where
  | fail (n : Nat) (c : Cause)
  | stop (n : Nat) (x : Stop) (outs : Outs)
  | sent (x : Sent) (caps : List Captured)
  | done (r : Run) (outs : Outs) (ms : List Mop) (caps : List Captured)

/-- Run the members with a `vl`, stopping before element `stop`. Without `got` a vector atomic performs its elements itself;
with it, it sends them and takes the ones that have returned from `got`. A `lax` run makes no range check that needs `vl`. -/
def attempt (t : Strand) (s : State) (es : List Entry) (vl stop : Nat) (halt : Option Nat)
    (got : Option (List (Nat × Word × BitVec 7))) (lax : Bool) : Attempt :=
  match prepareAll s vl (convoyPos es) (es.length == 1) halt lax 0 es t [] [] with
  | .fail n c => .fail n c
  | .stop n x => .stop n x []
  | .ok t' ms caps =>
    if vl = 0 then .done (Run.start t' s none) (idleOuts t' s 0 ms) ms caps
    else
      match runGroups ms vl (convoyPos es) stop (groupsOf vl) 0 (Run.start t' s got) [] with
      | .ok r outs => .done r outs ms caps
      | .stop n x outs => .stop n x outs
      | .sent x => .sent x caps

/-- The members marked completed, with the values they deliver. -/
def completed (outs : Outs) (vl : Nat) : (n : Nat) → List Entry → List Entry
  | _, [] => []
  | n, e :: es =>
    let res := if e.fin then e.result else
      match outs.find? fun o => o.1 == n with
      | some o => if e.given then none else (resultReg e.i).map fun r => (r, o.2)
      | none => none
    { e with vl := vl, done := true, result := res } :: completed outs vl (n + 1) es

/-- The members left with what they captured. -/
def captured (vl : Nat) : List Entry → List Captured → List Entry
  | e :: es, c :: cs => { e with vl := vl, cap := some c } :: captured vl es cs
  | es, _ => es

/-- The beats a convoy with a load waited for its data (R56, log 7); with `vl` = 0 a load reads no memory (R46). -/
def waitedForLoads (t : Strand) (s : State) (es : List Entry) (vl : Nat) : Strand × State :=
  if vl != 0 && es.any fun e => (uses e.vtype e.i).any fun u => u.cls == .ld then
    ({ t with stlMem := t.stlMem + Config.stallBeats s.freeCtr }, { s with freeCtr := s.freeCtr + 1 })
  else (t, s)

/-- `vl` trimmed by a load whose entry follows the writer number `gen` (R44): what follows that writer has the new value, in
the VIQ, on the scalar side and at an access whose heads are provisional. -/
def Strand.trimmed (t : Strand) (gen vl : Nat) : Strand :=
  { t with
    vl := if t.gen = gen then vl else t.vl
    viq := t.viq.map fun e => if e.gen = gen then { e with vl := vl } else e
    acc := t.acc.map fun a => if a.back.gen = gen then { a with back := { a.back with vl := vl } } else a }

/-- The strand after a convoy whose `vl` has become `vl`. -/
def Strand.after (t : Strand) (es : List Entry) (vl : Nat) : Strand :=
  match es.find? fun e => e.vl != vl with
  | some e => t.trimmed e.gen vl
  | none => t

/-! ## Stops (R26) -/

/-- The elements between two boundaries of an outer product (R245): 128 r. -/
def Strand.opaStep (t : Strand) (e : Entry) : Option Nat :=
  let src := e.cap.getD ⟨t.v, t.k⟩
  let step (scaled : Bool) (va : VReg) : Option Nat :=
    (groupTag src.v va.toNat (grpOf e.vtype)).bind fun ty => (opaFormat scaled ty).map fun f => 128 * f.2.1
  match e.i with
  | .vopa a => step false a.va
  | .vopaS a => step true a.va
  | _ => none

/-- The boundary at or below an element at which a convoy may stop: with an outer product a multiple of 128 r (R244, R245), and
not below where the convoy stands. In a group whose vector atomic is on its way an outer product has run already: the group's
start. -/
def Strand.boundary (t : Strand) (es : List Entry) (e : Nat) : Nat :=
  match es.findSome? t.opaStep with
  | some n => if t.vamo.isSome then convoyPos es else max (convoyPos es) (e / n * n)
  | none => max (convoyPos es) e

/-- Whether a convoy may stop between elements at a pre-emption or a wait: none of its members is one that is not stopped (R26,
R246), or one that acts alone once the others have completed (R224, R252). -/
def mayPause (es : List Entry) : Bool :=
  es.all fun e => !endsConvoy e.i && (uses e.vtype e.i).all fun u => u.cls != .px && (u.cls != .op || isOpa e.i)

/-- The strand with the elements of a group from `e` on as they were before it: of each register, mask, lane store and flag
the lanes from that of `e` on. Every lane holds one element of a group (R37); what `vlt.fill` has written to every lane for
the elements below `e` stands (R232). -/
def Strand.undone (t : Strand) (b : Before) (fills : List Fill) (e : Nat) : Strand :=
  let l := e % 256
  let low {n : Nat} (at_ : Nat) (new old : BitVec n) : BitVec n :=
    new &&& ((1#n <<< at_) - 1) ||| old &&& ~~~((1#n <<< at_) - 1)
  let u := { t with
    v := Vector.ofFn fun i => { t.v[i] with bits := low (512 * l) t.v[i].bits b.v[i].bits }
    k := Vector.ofFn fun i => low e t.k[i] b.k[i]
    m := b.m
    lflags := low (8 * l) t.lflags b.lflags
    lane := if fills.isEmpty then Vector.ofFn fun i => if i.val < l then t.lane[i] else b.lane[i] else b.lane }
  (fills.filter fun f => f.e < e).foldl Strand.fillLanes u

/-- The strand as a group began. -/
def Strand.before (t : Strand) : Before :=
  ⟨t.v, t.k, t.m, t.lflags, t.lane⟩

/-- The elements of a vector atomic performed alone, in the order given: those that fault are left out (R271). -/
def performAbove (m : Mop) : List Nat → Run → List Nat → Run × List Nat
  | [], r, ok => (r, ok.reverse)
  | e :: es, r, ok =>
    match m.group e (e + 1) r with
    | .ok r' => performAbove m es r' (e :: ok)
    | .stop _ => performAbove m es r ok

/-- The member that is a vector atomic, and its performed elements. -/
def amoMember (es : List Entry) (ms : List Mop) : Option (Mop × List Nat) :=
  ((es.zip ms).find? fun p => isVamo p.1.i).map fun p => (p.2, p.1.perf)

/-- What a stop at a boundary leaves of a vector atomic (R139, R271): the elements performed above it, earlier or now, with
their old values delivered, are the record's set. -/
def Run.above (r : Run) (es : List Entry) (ms : List Mop) (stop : Nat) (more : List Nat) : Run × List Nat :=
  match amoMember es ms with
  | none => (r, [])
  | some (m, perf) =>
    let (r1, back) := performAbove m (((r.got.getD []).map fun g => g.1).filter (stop ≤ ·)) r []
    let (r2, now) := performAbove m more { r1 with got := none } []
    (r2, perf.filter (stop ≤ ·) ++ back ++ now)

/-- The sub-operations of which an element of the vector atomic on its way has been performed or has faulted at its line (R270). -/
def Strand.subsReached (t : Strand) : List Nat :=
  match t.vamo with
  | none => []
  | some a => ((a.attrs.filter fun x => (a.got.any fun y => y.1 == x.1) || a.bad.any fun y => y.1 == x.1).map Prod.snd).eraseDups

/-- A fault at an entry of the VIQ, which waits until `vcp` reaches it (R18). -/
def Strand.faultAt (t : Strand) (n epr : Nat) (info : Trapped) (perf : List Nat) : Strand :=
  { t with vfault := some ⟨n, info, epr, if perf.isEmpty then none else some perf⟩ }

/-- What the record of a fault of member `n` of a convoy reports (R341, R348). -/
def faultOf (es : List Entry) (n : Nat) (c : Cause) (addr value : Word) (e : Nat) : Trapped :=
  ⟨c, addr, value, e, false, ((es[n]?).map Entry.pc).getD 0⟩

/-- A convoy that has run to its end. -/
def finishConvoy (es rest : List Entry) (vl : Nat) (r : Run) (outs : Outs) : Strand × State :=
  let (u, s') := waitedForLoads r.t r.s es vl
  ({ u with viq := completed outs vl 0 es ++ rest, xch := .none, held := none, vamo := none }.after es vl, s')

/-- A convoy that has run to a boundary: its members go on from there, with what they captured; a fault stands there. -/
def stopConvoy (t : Strand) (es rest : List Entry) (vl stop : Nat) (cut : Cut) (r : Run) (ms : List Mop)
    (caps : List Captured) : Strand × State :=
  let r1 := r.settle
  let r2 := match t.vamo with
    | some a => if stop < a.hi then r1.upd fun u => u.undone a.back a.fills stop else r1
    | none => r1
  let more := match cut with
    | .fault _ above => above
    | .pause => []
  let (r3, perf) := r2.above es ms stop more
  let es' := (captured vl es caps).map fun e =>
    { e with
      pos := posAt es stop, perf := perf, fin := false, result := none, pins := r.pinsLeft e.pins, subs := t.subsReached ++ e.subs }
  let u := { r3.t with viq := es' ++ rest, held := none, vamo := none }.after es vl
  (match cut with
    | .fault info _ => u.faultAt 0 (posAt es stop) info perf
    | .pause => u, r3.s)

/-- The requests of a vector atomic entered, and the strand's note of them. -/
def sendAll (s : State) : List (Nat × Request) → List (Nat × Nat × Word) → State × List (Nat × Nat × Word)
  | [], sent => (s, sent.reverse)
  | (e, r) :: l, sent => sendAll (s.send r) l ((e, s.nextRid, r.va) :: sent)

/-- A convoy whose vector atomic sends the elements of a group (R270, R271): the members before it have performed the group,
the others go on with it once every element has returned. -/
def sendConvoy (es rest : List Entry) (vl stop : Nat) (cut : Option Cut) (x : Sent) (caps : List Captured) : Strand × State :=
  let es' := (captured vl es caps).mapIdx fun i e0 =>
    let e := { e0 with pins := x.run.pinsLeft e0.pins, subs := (x.run.t.subsReached ++ e0.subs).eraseDups }
    if i < x.n then
      { e with
        pos := x.hi
        fin := x.last
        result := (x.outs.find? fun o => o.1 == i).bind fun o => (resultReg e.i).map fun r => (r, o.2) }
    else { e with pos := x.lo }
  let (s', sent) := sendAll x.run.s x.reqs []
  let amo : VecAmo := ⟨vl, stop, cut, x.hi, x.back.before, sent, x.run.got.getD [], [], x.reqs.map (fun q => (q.1, q.2.attr)), x.run.fills⟩
  ({ x.run.t with viq := es' ++ rest, vamo := some amo, held := none }.after es vl, s')

/-- The last member of a convoy has stopped inside itself: the others have completed, and it goes on alone from `e` (R224,
R252). -/
def lastStop (t : Strand) (s : State) (es rest : List Entry) (vl e : Nat) (why : Why) (r : Run) (outs : Outs) :
    Strand × State :=
  let n := es.length - 1
  let (u, s') := waitedForLoads r.t r.s es vl
  let es' := completed outs vl 0 (es.take n) ++ (es.drop n).map fun x => { x with cs := true, vl := vl, pos := e, cap := none }
  let v := { u with viq := es' ++ rest, held := none }.after es vl
  let stuck := n = 0 ∧ e ≤ convoyPos es
  match why with
  | .fault c a x => (v.faultAt n e (faultOf es n c a x e) [], s')
  | .pause => (v, s')
  | .wait w => if stuck then ({ t with qstall := true }, s.keepWait w) else (v, s')
  | .held l w => if stuck then (s.holdAt t l, s.keepWait w) else (v, s')

/-- Enough runs of one convoy: each member stops it a bounded number of times. -/
def convoyFuel (es : List Entry) : Nat :=
  4 * es.length + 8

/-! ## A trim found first (R45) -/

/-- Whether a member's checks or its offer depend on `vl` (R230, R231, R248, R249). -/
def needsTrim (i : Instr) : Bool :=
  match i with
  | .vmergeUAdd _ | .vmergeUSub _ | .vmergeUMax _ | .vxch _ | .mrd _ | .mwr _ => true
  | _ => false

/-- Whether a look ahead at a trim leaves a member out: it cannot be performed before `vl` is known, or acts only after the
loads. The checks of `mrd` alone need `vl`. -/
def leftOut (i : Instr) : Bool :=
  match i with
  | .mrd _ => false
  | _ => needsTrim i || endsConvoy i

/-- The members a load's faults can depend on: all but those left out and those that read what these would have written. -/
def probeMembers (vs : List (Nat × Nat)) (ks : List KReg) : List Entry → List Entry
  | [] => []
  | e :: t =>
    match uses e.vtype e.i with
    | none => probeMembers vs ks t
    | some u =>
      let clean := u.rv.all (fun a => vs.all fun b => !groupsMeet a.1 a.2 b.1 b.2) && u.rk.all (fun k => !ks.contains k)
      if clean && !leftOut e.i then e :: probeMembers vs ks t
      else probeMembers (u.wv ++ vs) ((u.wk.filter (· != 0)) ++ ks) t

/-- What a look ahead at a trim finds: the `vl` the loads leave, or a load that waits. -/
inductive Trim where
  | vl (n : Nat)
  | wait (s : State)
  | held (line : Nat) (s : State)

/-- The `vl` a convoy's loads leave it, found before the members whose checks read it (R45). A member that fails a check ends
the convoy before it (R201). -/
def probeTrim (t : Strand) (s : State) : (fuel : Nat) → List Entry → (vl stop : Nat) → Trim
  | 0, _, vl, _ => .vl vl
  | fuel + 1, es, vl, stop =>
    match attempt t s es vl stop none none true with
    | .fail n _ => probeTrim t s fuel (es.take n) vl stop
    | .stop _ (.load e _ _ _ _) _ => if e ≤ convoyPos es then .vl vl else probeTrim t s fuel es e e
    | .stop _ (.precise e _ _ _ _) _ => if e < stop then probeTrim t s fuel es vl e else .vl vl
    | .stop _ (.partly e _ _ _ _ _) _ => if e < stop then probeTrim t s fuel es vl e else .vl vl
    | .stop _ (.wait _ w) _ => .wait w
    | .stop _ (.held _ l w) _ => .held l w
    | _ => .vl vl

/-- The `vl` a convoy is run with. -/
def convoyVl (t : Strand) (s : State) (es : List Entry) : Trim :=
  match es with
  | [] => .vl 0
  | [e] => .vl e.vl
  | e :: _ =>
    if es.any fun x => needsTrim x.i then probeTrim t s (convoyFuel es) (probeMembers [] [] es) e.vl e.vl
    else .vl e.vl

/-- The strand and package after a convoy of the entries `es`, which stand first in the VIQ before `rest`. `stop` is the
boundary of the cut pending. A run that stops sooner is made again up to that stop; a convoy with a vector atomic is looked
through first, then run with its requests. -/
def perform (t : Strand) (rest : List Entry) (halt : Option Nat) :
    (fuel : Nat) → State → (es : List Entry) → (vl stop : Nat) → Option Cut → Option (List (Nat × Word × BitVec 7)) →
    Strand × State
  | 0, s, _, _, _, _, _ => ({ t with qstall := true }, s)
  | fuel + 1, s, es, vl, stop, cut, got =>
    let pos := convoyPos es
    let perf := (es.flatMap fun e => if isVamo e.i then e.perf else []).filter (pos ≤ ·)
    let stopAt (s : State) (b : Nat) (c : Cut) : Strand × State := perform t rest halt fuel s es vl b (some c) got
    match attempt t s es vl stop halt got false with
    | .fail n c =>
      let info := faultOf es n c 0 0 0
      if n = 0 then (t.faultAt 0 0 info perf, s)
      else
        let es' := es.mapIdx fun i e => if i = n then { e with cs := true } else e
        match convoyVl t s (es.take n) with
        | .wait w => ({ t with qstall := true }, s.keepWait w)
        | .held l w => (s.holdAt t l, s.keepWait w)
        | .vl vl' =>
          let (u, s') := perform t (es'.drop n ++ rest) halt fuel s (es.take n) vl' vl' none got
          (if u.vfault.isNone && u.viq.length > n && (u.viq.take n).all (·.done) then u.faultAt n 0 info [] else u, s')
    | .done r outs ms caps =>
      if got.isNone && vl != 0 && es.any (fun e => isVamo e.i) then perform t rest halt fuel s es vl stop cut (some [])
      else
        match cut with
        | none => finishConvoy es rest vl r outs
        | some c => stopConvoy t es rest vl stop c r ms caps
    | .sent x caps => sendConvoy es rest vl stop cut x caps
    | .stop n x outs =>
      match x with
      | .load e c a v w =>
        let s1 := s.keepTlb w
        if e ≤ pos ∧ (e = 0 ∨ e < pos) then (t.faultAt 0 (posAt es pos) (faultOf es n c a v e) perf, s1)
        else perform t rest halt fuel s1 es e e none got
      | .precise e c a v w =>
        -- found before group 0, with a fault pending: nothing below the boundary is left to perform
        match cut with
        | some (.fault info _) =>
          if stop ≤ t.boundary es e then (t.faultAt 0 (posAt es stop) info perf, s)
          else stopAt (s.keepTlb w) (t.boundary es e) (.fault (faultOf es n c a v e) [])
        | _ => stopAt (s.keepTlb w) (t.boundary es e) (.fault (faultOf es n c a v e) [])
      | .partly e c a v above w => stopAt (s.keepTlb w) (t.boundary es e) (.fault (faultOf es n c a v e) above)
      | .last e why r => lastStop t s es rest vl e why r outs
      | .wait e w =>
        if mayPause es && pos < t.boundary es e then stopAt s (t.boundary es e) .pause
        else ({ t with qstall := true }, s.keepWait w)
      | .held e l w =>
        if mayPause es && pos < t.boundary es e then stopAt s (t.boundary es e) .pause
        else (s.holdAt t l, s.keepWait w)
      | .offer o => ({ t with xch := .offered o }.after es vl, s)
      | .soft _ _ => ({ t with status := .struck }, s)
      | .send _ _ => ({ t with qstall := true }, s)

/-- The first convoy of a VIQ: its first entry and those up to the next that starts one (R346). -/
def firstConvoy : List Entry → List Entry × List Entry
  | [] => ([], [])
  | e :: es => (e :: es.takeWhile fun x => !x.cs, es.dropWhile fun x => !x.cs)

/-- Whether the first convoy has closed: another stands behind it, or none is open. -/
def Strand.firstClosed (t : Strand) : Bool :=
  !t.copen || !(firstConvoy t.viq).2.isEmpty

/-- Whether every entry of the first convoy is older than an access that has not delivered: provisional instructions start no
element (R165). -/
def Strand.startable (t : Strand) : Bool :=
  t.acc.all fun a => (firstConvoy t.viq).1.length ≤ a.ahead

/-- Whether what stands first in a VIQ may act: no service, no older access holds it, and no fault stands in it. -/
def State.frontReady (s : State) (t : Strand) : Bool :=
  !t.qstall && (t.status == .running || t.status == .ending)
    && (match t.vfault with
      | none => true
      | some f => f.index ≥ t.viq.length)
    && t.startable
    && !s.waitsService (.queue t.id.sid)

/-- Whether a convoy waits to be performed: it has closed, and its exchange or vector atomic does not wait. -/
def State.convoyReady (s : State) (t : Strand) : Bool :=
  match t.viq with
  | [] => false
  | e :: _ =>
    !e.done && t.firstClosed && (uses e.vtype e.i).isSome
      && (match t.xch with
        | .offered _ => false
        | _ => true)
      && t.vamo.all (fun a => a.sent.isEmpty)
      && s.frontReady t

/-- A convoy whose vector atomic has returned goes on (R271): a fault of a line stops it at the lowest element; where its gang
is being saved it stops at the end of the group. -/
def resumeAmo (t : Strand) (s : State) (es rest : List Entry) (a : VecAmo) (saving : Bool) : Strand × State :=
  match a.bad.foldl (fun (m : Option (Nat × Cause × Word × Word)) b =>
      match m with
      | some x => if b.1 < x.1 then some b else m
      | none => some b) none with
  | some (e, c, addr, value) =>
    let n := (es.findIdx? fun x => isVamo x.i).getD 0
    perform t rest none (convoyFuel es) s es a.vl (t.boundary es e) (some (.fault (faultOf es n c addr value e) [])) (some a.got)
  | none =>
    if saving && a.hi < a.stop then perform t rest none (convoyFuel es) s es a.vl a.hi (some .pause) (some a.got)
    else perform t rest none (convoyFuel es) s es a.vl a.stop a.cut (some a.got)

/-- The first convoy performed: whole, or to a boundary at which a pre-emption stops it (R26). Past the last element the
boundary counts the elements of a last member that acts once the others have completed (R224, R252). -/
def State.runConvoy (s : State) (t : Strand) (halt : Option Nat) (saving : Bool) : State :=
  let (es, rest) := firstConvoy t.viq
  let later := t.vfault
  let u0 := { t with vfault := none }
  let (u, s') := match t.vamo with
    | some a => resumeAmo u0 s es rest a saving
    | none =>
      match convoyVl u0 s es with
      | .wait w => ({ u0 with qstall := true }, s.keepWait w)
      | .held l w => (s.holdAt u0 l, s.keepWait w)
      | .vl vl =>
        let run (halt : Option Nat) : Strand × State := perform u0 rest halt (convoyFuel es) s es vl vl none none
        match halt with
        | none => run none
        | some b =>
          if es.any fun e => endsConvoy e.i then run (some (if es.length = 1 then max b (convoyPos es) else b - vl))
          else if vl ≤ b || !mayPause es then run none
          else perform u0 rest none (convoyFuel es) s es vl (u0.boundary es b) (some .pause) none
  -- a head refused behind the convoy waits for it (R162); an older fault is taken instead
  (if u.qstall then s' else s'.endSvc (.queue t.id.sid)).put
    (if u.vfault.isNone then { u with vfault := later.map fun f => { f with index := u.viq.length } } else u)

/-- The convoy performed. -/
def State.performConvoy (s : State) (t : Strand) : State :=
  s.runConvoy t none false

/-! ## What the queue will access (R161) -/

/-- A look ahead over a convoy: what it leaves, the values it delivers, its `vl`; a wait; or what cannot be told yet. -/
inductive Dry where
  | ok (r : Run) (outs : Outs) (vl : Nat)
  | wait (s : State)
  | unknown

/-- A look ahead over a convoy, a trim of a load taken into account (R45). -/
def dryRun (t : Strand) (s : State) (es : List Entry) : (fuel vl : Nat) → Dry
  | 0, _ => .unknown
  | fuel + 1, vl =>
    match attempt t s es vl vl none none false with
    | .done r outs _ _ => .ok r outs vl
    | .stop _ (.load e _ _ _ _) _ => if e = 0 then .unknown else dryRun t s es fuel e
    | .stop _ (.wait _ w) _ => .wait w
    | .stop _ (.held _ _ w) _ => .wait w
    | _ => .unknown

/-- A look ahead over a SOLO entry: only `rel` and `win.merge` access memory for the strand. -/
def drySolo (t : Strand) (s : State) (e : Entry) : Dry :=
  let r := Run.start t s none
  match e.i with
  | .rel _ _ => .ok (r.touchVa (e.ops.getD 0 0) 8 .both) [] e.vl
  | .winMerge =>
    match t.win with
    | some w => .ok (r.touchSpan w.base w.size .both) [] e.vl
    | none => .ok r [] e.vl
  | _ => .ok r [] e.vl

/-- Whether an entry's addresses or extent may depend on data: an index, a mask, a compressed block. -/
def addressesData (e : Entry) : Bool :=
  match e.i with
  | .vstc _ => true
  | .vldc _ => true
  | _ =>
    match uses e.vtype e.i with
    | none => false
    | some u =>
      (u.cls == .sy || (u.cls == .ld && !u.rv.isEmpty) || (u.cls == .st && u.rv.length > 1)
        || ((u.cls == .ld || u.cls == .st) && u.rk.any (· != 0)))

/-- Whether an exchange among these entries leaves their accesses open: one whose data is not there yet, with a later member
whose addresses may depend on it. Where none depends on it any outcome serves the look ahead. -/
def openExchange (x : Xstate) (es : List Entry) : Bool :=
  let isXch (e : Entry) : Bool := match e.i with
    | .vxch _ => true
    | _ => false
  match x with
  | .ended _ => false
  | _ => es.any isXch && (es.dropWhile fun e => !isXch e).any addressesData

/-- The accesses of every queued convoy, each with whether its convoy is the open one; or whether the one that cannot be told
is. -/
inductive Ahead where
  | ok (l : List (Bool × Nat × Nat × Bool))
  | wait (s : State)
  | unknown (opened : Bool)

/-- A look ahead over the queue, convoy by convoy. -/
def dryQueue (s : State) : (fuel : Nat) → Strand → State → List (Bool × Nat × Nat × Bool) → Ahead
  | 0, t, _, _ => .unknown t.copen
  | fuel + 1, t, w, l =>
    match firstConvoy t.viq with
    | ([], _) => .ok l
    | (e :: es, rest) =>
      let opened := t.copen && rest.isEmpty
      if openExchange t.xch (e :: es ++ rest) then .unknown opened
      else
        let t1 := { t with xch := match t.xch with
          | .ended d => .ended d
          | _ => .ended ⟨1, .raw, []⟩ }
        let x := if e.done then Dry.ok (Run.start t w none) [] e.vl
          else if (uses e.vtype e.i).isNone then drySolo t w e
          else dryRun t1 w (e :: es) (es.length + 3) e.vl
        match x with
        | .ok r _ vl =>
          let u := { r.t with viq := e :: es ++ rest }.after (e :: es) vl
          dryQueue s fuel { u with viq := u.viq.drop (es.length + 1), xch := .none, vamo := none } r.s
            (l ++ r.acc.map fun a => (opened, a))
        | .wait z => .wait (s.keepWait z)
        | .unknown => .unknown opened

/-- The accesses of a strand's queue. -/
def State.ahead (s : State) (t : Strand) : Ahead :=
  dryQueue s (t.viq.length + 1) t s []

/-- The head waits for an entry of the VIQ: in the open convoy it closes it (R161). -/
def State.stallFor (s : State) (t : Strand) (opened : Bool) : State :=
  if opened then s.stallClosing t else s.stall t

/-- Whether two byte ranges meet. -/
def rangesMeet (a n b m : Nat) : Bool :=
  a < b + m && b < a + n

/-- Whether an entry is a vector atomic that lets no later access be performed before it (R270). -/
def acquires (e : Entry) : Bool :=
  match e.i with
  | .vamoAdd a | .vamoAnd a | .vamoOr a | .vamoXor a | .vamoMin a | .vamoMax a | .vamoSwp a | .vamoCas a => a.ord == .acq
  | _ => false

/-- The state in which a scalar access waits for the queue (R19, R175, R177, R270, R285), if it must: for an access to the same
bytes, for any access where it orders itself behind all, for a vector atomic that holds later accesses back. A load whose bytes
the open convoy only loads does not wait and closes nothing (R161). R161 does not list a wait for a `vamo` with `.acq` of the
open convoy (R270); without the convoy's end it could not come about, so it closes the convoy. [DEDUCED, log 82] -/
def State.behindQueue (s : State) (t : Strand) (va : Word) (n : Nat) (wr all : Bool) : Option State :=
  if t.viq.isEmpty then none
  else if t.viq.any acquires then some (s.stallFor t (t.openConvoy.any acquires))
  else
    match s.ahead t with
    | .wait w => some (w.stall t)
    | .unknown opened => some (s.stallFor t opened)
    | .ok l =>
      if all && !l.isEmpty then some (s.stallFor t (l.any fun x => x.1))
      else
        match s.resolve t.ctx va n 1 (if wr then .write else .read) .data with
        | .ok h _ =>
          let met := l.filter fun x => rangesMeet h.home n x.2.1 x.2.2.1
          let why := if wr then met else met.filter fun x => x.2.2.2
          if !why.isEmpty then some (s.stallFor t (why.any fun x => x.1))
          else if met.any fun x => !x.1 then some (s.stall t)
          else none
        | _ => none

/-! ## Dispatch into the VIQ -/

/-- The entry of a head. -/
def Strand.entryOf (t : Strand) (i : Instr) (cs : Bool) (ops : List SReg) : Entry :=
  ⟨i, t.pc, cs, t.vl, t.vtype, ops.map t.getS, 0, [], false, none, false, none, t.gen, false, none, [], []⟩

/-- The scalar registers a chained instruction names. -/
def Uses.scalars (u : Uses) (i : Instr) : List SReg :=
  u.ops ++ (resultReg i).toList

/-- Whether a further value finds no entry of the result queue (R20). -/
def Strand.resultsFull (t : Strand) (i : Instr) : Bool :=
  (resultReg i).isSome
    && (t.viq.filter fun e => !e.given && (resultReg e.i).isSome).length + t.rq.length ≥ Config.resultEntries

/-- Whether the VIQ or the result queue has no room for a head (R17, R20). -/
def Strand.noRoom (t : Strand) (i : Instr) : Bool :=
  t.resultsFull i || t.viq.length ≥ Config.viqEntries

/-- The head enters the VIQ. -/
def Strand.pushEntry (t : Strand) (i : Instr) (cs : Bool) (ops : List SReg) : Strand :=
  { t.advance with viq := t.viq ++ [t.entryOf i cs ops], copen := true, fresh := false }

/-- An exchange of the open convoy offered for a head that needs its status: the loads' trim is found first (R45). -/
def State.offerEarly (s : State) (t : Strand) (o : Xoffer) : State :=
  match convoyVl t s t.viq with
  | .wait w => (s.keepWait w).stall t
  | .held _ w => (s.keepWait w).stall t
  | .vl vl => s.stall ({ t with xch := .offered { o with vl := vl, data := o.data.take vl } }.after t.viq vl)

/-- A vector-queue head that needs a value of the open convoy it joins receives it without closing the convoy: once that
convoy stands first, its values go into the result queue, and their entries will not deliver them again (R161). -/
def State.deliverEarly (s : State) (t : Strand) : State :=
  match t.viq with
  | [] => s.stall t
  | e :: _ =>
    let offered := match t.xch with
      | .offered _ => true
      | _ => false
    if t.firstClosed || t.acc.isSome || offered then s.stall t
    else
      match attempt t s t.viq e.vl e.vl none none true with
      | .stop _ (.offer o) _ => s.offerEarly t o
      | _ =>
        match dryRun t s t.viq (t.viq.length + 2) e.vl with
        | .ok _ outs _ =>
          let es := completed outs 0 0 t.viq
          let viq := t.viq.mapIdx fun i e => { e with given := e.given || outs.any fun o => o.1 == i }
          s.put { t with viq := viq, rq := t.rq ++ es.filterMap Entry.result }
        | .wait w => (s.keepWait w).stall t
        | .unknown => s.stallClosing t

/-- A chained vector-queue instruction is dispatched: it starts a convoy, which closes the open one, or joins it. -/
def State.dispatchChained (i : Instr) (s : State) : Out :=
  s.withCur fun t =>
    match uses t.vtype i with
    | none => .next s
    | some u =>
      let regs := u.scalars i
      if u.c || t.fresh then
        if t.mustWait regs || t.noRoom i then .next (s.stallClosing t)
        else .next (s.put (t.pushEntry i true u.ops))
      else
        match joinCause t.openConvoy i u with
        | some c => .next (s.scalarTrap t c 0 0 0)
        | none =>
          if regs.any t.isPending then .next (s.stall t)
          else if regs.any fun r => t.isReserved r && !t.openNames r then .next (s.stall t)
          else if regs.any t.isReserved then .next (s.deliverEarly t)
          else if t.noRoom i then .next (s.stall t)
          else .next (s.put (t.pushEntry i false u.ops))

/-! ## Events of the queues (R18, R20, R161) -/

/-- VIQ_ENTRY_COMPLETE: the oldest entry has completed, `vcp` advances and its value enters the result queue; or the
fault that waits at `vcp` is taken (R18, R165). -/
def execViqEntryComplete (sid : Nat) (s : State) : Out :=
  match s.strand sid with
  | none => .next s
  | some t =>
    match t.vfault with
    | some ⟨0, info, epr, perf⟩ =>
      -- an outstanding scalar access delivers first (R197)
      if t.acc.isSome then .next s else .next (s.takeTrap t info (s.pcNext t) t.viq epr perf)
    | vf =>
      match t.viq with
      | [] => .next s
      | e :: rest =>
        if !e.done then .next s
        else
          .next (s.put { t.popped with
            viq := rest
            vcp := t.vcp + 1
            moved := true
            rq := t.rq ++ e.result.toList
            vfault := vf.map fun f => { f with index := f.index - 1 }
            fresh := t.fresh || rest.isEmpty && !t.copen })

/-- RESULT_QUEUE_DELIVERY: the oldest value of the result queue arrives in its scalar register. -/
def execResultQueueDelivery (sid : Nat) (s : State) : Out :=
  match s.strand sid with
  | none => .next s
  | some t =>
    match t.rq with
    | [] => .next s
    | (r, x) :: rest => .next (s.put { t.deliver r x with rq := rest })

end Sys2Proof.Machine
end

