-- ==== Sys2Proof/Machine/ScalarInt.lean ====
section
/-!
DEFINITION. Scalar integer and address arithmetic (R166 to R173).
-/

namespace Sys2Proof.Machine

/-! ## Results -/

/-- An imm17 field sign-extended (R166). -/
def imm64 (x : BitVec 17) : Word :=
  x.signExtend 64

/-- A condition as a register value. -/
def boolWord (b : Bool) : Word :=
  if b then 1 else 0

/-- High 64 bits of the signed product (R167). -/
def mulHigh (a b : Word) : Word :=
  ((a.signExtend 128 * b.signExtend 128) >>> 64).setWidth 64

/-- High 64 bits of the unsigned product (R167). -/
def mulHighN (a b : Word) : Word :=
  ((a.setWidth 128 * b.setWidth 128) >>> 64).setWidth 64

/-- The signed quotient (R168): all ones by zero, truncating; -2^63 / -1 wraps to itself. -/
def divS (a b : Word) : Word :=
  if b = 0 then BitVec.allOnes 64 else a.sdiv b

/-- The unsigned quotient (R168). -/
def divU (a b : Word) : Word :=
  if b = 0 then BitVec.allOnes 64 else a / b

/-- The signed remainder (R168): it has the sign of `a`. -/
def remS (a b : Word) : Word :=
  if b = 0 then a else a.srem b

/-- The unsigned remainder (R168). -/
def remU (a b : Word) : Word :=
  if b = 0 then a else a % b

/-- A shift count: bits [5:0] (R169). -/
def count6 (b : Word) : Nat :=
  b.toNat % 64

/-- Bits counted while a test holds, from a list. -/
def leadingCount (p : Bool → Bool) (l : List Bool) : Nat :=
  (l.takeWhile p).length

/-- The bits of a word, bit 0 first. -/
def bitsUp (a : Word) : List Bool :=
  (List.range 64).map fun i => bitAt a i

/-- Zero bits above the highest set bit; 64 for 0 (R171). -/
def clzOf (a : Word) : Nat :=
  leadingCount (fun b => !b) (bitsUp a).reverse

/-- Zero bits below the lowest set bit; 64 for 0 (R171). -/
def ctzOf (a : Word) : Nat :=
  leadingCount (fun b => !b) (bitsUp a)

/-- Set bits (R171). -/
def popOf (a : Word) : Nat :=
  ((bitsUp a).filter id).length

/-- A mask of `w` ones. -/
def onesMask (w : Nat) : Word :=
  BitVec.allOnes 64 >>> (64 - w)

/-- A bit field extracted, zero-extended (R172). -/
def bextOf (a : Word) (p w : Nat) : Word :=
  (a >>> p) &&& onesMask w

/-- A bit field replaced (R172). -/
def binsOf (d a : Word) (p w : Nat) : Word :=
  (d &&& ~~~(onesMask w <<< p)) ||| ((a &&& onesMask w) <<< p)

/-! ## Meanings -/

/-- `add` (R167): modulo 2^64. -/
def execAdd (sd sa sb : SReg) (s : State) : Out :=
  s.scalarTo sd [sa, sb] fun t => t.getS sa + t.getS sb

/-- `sub` (R167). -/
def execSub (sd sa sb : SReg) (s : State) : Out :=
  s.scalarTo sd [sa, sb] fun t => t.getS sa - t.getS sb

/-- `mul` (R167): the low 64 bits. -/
def execMul (sd sa sb : SReg) (s : State) : Out :=
  s.scalarTo sd [sa, sb] fun t => t.getS sa * t.getS sb

/-- `mulh` (R167): the signed high product. -/
def execMulh (sd sa sb : SReg) (s : State) : Out :=
  s.scalarTo sd [sa, sb] fun t => mulHigh (t.getS sa) (t.getS sb)

/-- `mulhN` (R167): the unsigned high product. -/
def execMulhN (sd sa sb : SReg) (s : State) : Out :=
  s.scalarTo sd [sa, sb] fun t => mulHighN (t.getS sa) (t.getS sb)

/-- `div` (R168). -/
def execDiv (sd sa sb : SReg) (s : State) : Out :=
  s.scalarTo sd [sa, sb] fun t => divS (t.getS sa) (t.getS sb)

/-- `divN` (R168). -/
def execDivN (sd sa sb : SReg) (s : State) : Out :=
  s.scalarTo sd [sa, sb] fun t => divU (t.getS sa) (t.getS sb)

/-- `rem` (R168). -/
def execRem (sd sa sb : SReg) (s : State) : Out :=
  s.scalarTo sd [sa, sb] fun t => remS (t.getS sa) (t.getS sb)

/-- `remN` (R168). -/
def execRemN (sd sa sb : SReg) (s : State) : Out :=
  s.scalarTo sd [sa, sb] fun t => remU (t.getS sa) (t.getS sb)

/-- `add` with an immediate (R167). -/
def execAddImm (sd sa : SReg) (imm : BitVec 17) (s : State) : Out :=
  s.scalarTo sd [sa] fun t => t.getS sa + imm64 imm

/-- `sub` with an immediate (R167). -/
def execSubImm (sd sa : SReg) (imm : BitVec 17) (s : State) : Out :=
  s.scalarTo sd [sa] fun t => t.getS sa - imm64 imm

/-- `mul` with an immediate (R167). -/
def execMulImm (sd sa : SReg) (imm : BitVec 17) (s : State) : Out :=
  s.scalarTo sd [sa] fun t => t.getS sa * imm64 imm

/-- `and` (R169). -/
def execAnd (sd sa sb : SReg) (s : State) : Out :=
  s.scalarTo sd [sa, sb] fun t => t.getS sa &&& t.getS sb

/-- `or` (R169). -/
def execOr (sd sa sb : SReg) (s : State) : Out :=
  s.scalarTo sd [sa, sb] fun t => t.getS sa ||| t.getS sb

/-- `xor` (R169). -/
def execXor (sd sa sb : SReg) (s : State) : Out :=
  s.scalarTo sd [sa, sb] fun t => t.getS sa ^^^ t.getS sb

/-- `andn` (R169). -/
def execAndn (sd sa sb : SReg) (s : State) : Out :=
  s.scalarTo sd [sa, sb] fun t => t.getS sa &&& ~~~(t.getS sb)

/-- `shl` (R169): the count is sB[5:0]. -/
def execShl (sd sa sb : SReg) (s : State) : Out :=
  s.scalarTo sd [sa, sb] fun t => t.getS sa <<< count6 (t.getS sb)

/-- `shr` (R169). -/
def execShr (sd sa sb : SReg) (s : State) : Out :=
  s.scalarTo sd [sa, sb] fun t => t.getS sa >>> count6 (t.getS sb)

/-- `sar` (R169). -/
def execSar (sd sa sb : SReg) (s : State) : Out :=
  s.scalarTo sd [sa, sb] fun t => (t.getS sa).sshiftRight (count6 (t.getS sb))

/-- `rot` (R169): left. -/
def execRot (sd sa sb : SReg) (s : State) : Out :=
  s.scalarTo sd [sa, sb] fun t => (t.getS sa).rotateLeft (count6 (t.getS sb))

/-- `and` with an immediate (R169). -/
def execAndImm (sd sa : SReg) (imm : BitVec 17) (s : State) : Out :=
  s.scalarTo sd [sa] fun t => t.getS sa &&& imm64 imm

/-- `or` with an immediate (R169). -/
def execOrImm (sd sa : SReg) (imm : BitVec 17) (s : State) : Out :=
  s.scalarTo sd [sa] fun t => t.getS sa ||| imm64 imm

/-- `xor` with an immediate (R169). -/
def execXorImm (sd sa : SReg) (imm : BitVec 17) (s : State) : Out :=
  s.scalarTo sd [sa] fun t => t.getS sa ^^^ imm64 imm

/-- `andn` with an immediate (R169). -/
def execAndnImm (sd sa : SReg) (imm : BitVec 17) (s : State) : Out :=
  s.scalarTo sd [sa] fun t => t.getS sa &&& ~~~(imm64 imm)

/-- `shl` by an immediate count (R169). -/
def execShlImm (sd sa : SReg) (cnt : BitVec 6) (s : State) : Out :=
  s.scalarTo sd [sa] fun t => t.getS sa <<< cnt.toNat

/-- `shr` by an immediate count (R169). -/
def execShrImm (sd sa : SReg) (cnt : BitVec 6) (s : State) : Out :=
  s.scalarTo sd [sa] fun t => t.getS sa >>> cnt.toNat

/-- `sar` by an immediate count (R169). -/
def execSarImm (sd sa : SReg) (cnt : BitVec 6) (s : State) : Out :=
  s.scalarTo sd [sa] fun t => (t.getS sa).sshiftRight cnt.toNat

/-- `rot` by an immediate count (R169). -/
def execRotImm (sd sa : SReg) (cnt : BitVec 6) (s : State) : Out :=
  s.scalarTo sd [sa] fun t => (t.getS sa).rotateLeft cnt.toNat

/-- `min` (R170): signed. -/
def execMin (sd sa sb : SReg) (s : State) : Out :=
  s.scalarTo sd [sa, sb] fun t => if (t.getS sa).slt (t.getS sb) then t.getS sa else t.getS sb

/-- `max` (R170): signed. -/
def execMax (sd sa sb : SReg) (s : State) : Out :=
  s.scalarTo sd [sa, sb] fun t => if (t.getS sa).slt (t.getS sb) then t.getS sb else t.getS sa

/-- `min.n` (R170): unsigned. -/
def execMinN (sd sa sb : SReg) (s : State) : Out :=
  s.scalarTo sd [sa, sb] fun t => if t.getS sa < t.getS sb then t.getS sa else t.getS sb

/-- `max.n` (R170): unsigned. -/
def execMaxN (sd sa sb : SReg) (s : State) : Out :=
  s.scalarTo sd [sa, sb] fun t => if t.getS sa < t.getS sb then t.getS sb else t.getS sa

/-- `cmp.eq` (R170). -/
def execCmpEq (sd sa sb : SReg) (s : State) : Out :=
  s.scalarTo sd [sa, sb] fun t => boolWord (t.getS sa == t.getS sb)

/-- `cmp.ne` (R170). -/
def execCmpNe (sd sa sb : SReg) (s : State) : Out :=
  s.scalarTo sd [sa, sb] fun t => boolWord (t.getS sa != t.getS sb)

/-- `cmp.lt` (R170). -/
def execCmpLt (sd sa sb : SReg) (s : State) : Out :=
  s.scalarTo sd [sa, sb] fun t => boolWord ((t.getS sa).slt (t.getS sb))

/-- `cmp.ge` (R170). -/
def execCmpGe (sd sa sb : SReg) (s : State) : Out :=
  s.scalarTo sd [sa, sb] fun t => boolWord (!(t.getS sa).slt (t.getS sb))

/-- `cmp.lt.n` (R170). -/
def execCmpLtN (sd sa sb : SReg) (s : State) : Out :=
  s.scalarTo sd [sa, sb] fun t => boolWord ((t.getS sa).ult (t.getS sb))

/-- `cmp.ge.n` (R170). -/
def execCmpGeN (sd sa sb : SReg) (s : State) : Out :=
  s.scalarTo sd [sa, sb] fun t => boolWord (!(t.getS sa).ult (t.getS sb))

/-- `cmp.eq` with an immediate, sign-extended first (R170). -/
def execCmpEqImm (sd sa : SReg) (imm : BitVec 17) (s : State) : Out :=
  s.scalarTo sd [sa] fun t => boolWord (t.getS sa == imm64 imm)

/-- `cmp.ne` with an immediate, sign-extended first (R170). -/
def execCmpNeImm (sd sa : SReg) (imm : BitVec 17) (s : State) : Out :=
  s.scalarTo sd [sa] fun t => boolWord (t.getS sa != imm64 imm)

/-- `cmp.lt` with an immediate, sign-extended first (R170). -/
def execCmpLtImm (sd sa : SReg) (imm : BitVec 17) (s : State) : Out :=
  s.scalarTo sd [sa] fun t => boolWord ((t.getS sa).slt (imm64 imm))

/-- `cmp.ge` with an immediate, sign-extended first (R170). -/
def execCmpGeImm (sd sa : SReg) (imm : BitVec 17) (s : State) : Out :=
  s.scalarTo sd [sa] fun t => boolWord (!(t.getS sa).slt (imm64 imm))

/-- `cmp.lt.n` with an immediate, sign-extended first (R170). -/
def execCmpLtNImm (sd sa : SReg) (imm : BitVec 17) (s : State) : Out :=
  s.scalarTo sd [sa] fun t => boolWord ((t.getS sa).ult (imm64 imm))

/-- `cmp.ge.n` with an immediate, sign-extended first (R170). -/
def execCmpGeNImm (sd sa : SReg) (imm : BitVec 17) (s : State) : Out :=
  s.scalarTo sd [sa] fun t => boolWord (!(t.getS sa).ult (imm64 imm))

/-- `clz` (R171). -/
def execClz (sd sa : SReg) (s : State) : Out :=
  s.scalarTo sd [sa] fun t => BitVec.ofNat 64 (clzOf (t.getS sa))

/-- `ctz` (R171). -/
def execCtz (sd sa : SReg) (s : State) : Out :=
  s.scalarTo sd [sa] fun t => BitVec.ofNat 64 (ctzOf (t.getS sa))

/-- `pop` (R171). -/
def execPop (sd sa : SReg) (s : State) : Out :=
  s.scalarTo sd [sa] fun t => BitVec.ofNat 64 (popOf (t.getS sa))

/-- `bext` (R172): position P and width W = wm1 + 1. -/
def execBext (sd sa : SReg) (pos wm1 : BitVec 6) (s : State) : Out :=
  s.scalarTo sd [sa] fun t => bextOf (t.getS sa) pos.toNat (wm1.toNat + 1)

/-- `bins` (R172): sD is a source. -/
def execBins (sd sa : SReg) (pos wm1 : BitVec 6) (s : State) : Out :=
  s.scalarTo sd [sa] fun t => binsOf (t.getS sd) (t.getS sa) pos.toNat (wm1.toNat + 1)

/-- `li` (R173): imm59 sign-extended. -/
def execLi (sd : SReg) (imm : BitVec 59) (s : State) : Out :=
  s.scalarTo sd [] fun _ => imm.signExtend 64

/-- `lih` (R173): bits [63:59] replaced. -/
def execLih (sd sa : SReg) (imm : BitVec 5) (s : State) : Out :=
  s.scalarTo sd [sa] fun t => imm ++ (t.getS sa).extractLsb' 0 59

/-- `lea` (R173): no check, no fault. -/
def execLea (sd sa sb : SReg) (sh : BitVec 3) (d : BitVec 14) (s : State) : Out :=
  s.scalarTo sd [sa, sb] fun t => t.getS sa + (t.getS sb <<< sh.toNat) + d.signExtend 64

end Sys2Proof.Machine
end

