-- ==== Sys2Proof/Machine/ScalarControl.lean ====
section
/-!
DEFINITION. Scalar control: transfers (R148 to R151, R185, R186), `end` (R29, R196), system registers (R56 to R59, R187),
`vsetvl` and `vsettype` (R188, R189), `prog.mark` (R194), `brk` and `trap` (R195).
-/

namespace Sys2Proof.Machine

/-! ## Transfers -/

/-- The target of a B32 branch at `pc` (R150). -/
def branchTarget (pc : Word) (off : BitVec 17) (slot : BitVec 5) : Word :=
  (pc &&& ~~~63) + off.signExtend 64 * 64 + 2 * slot.setWidth 64

/-- A conditional branch on two registers (R185). -/
def State.branch (s : State) (sa sb : SReg) (off : BitVec 17) (slot : BitVec 5) (p : Word → Word → Bool) : Out :=
  s.withCur fun t =>
    .next (if t.mustWait [sa, sb] then s.waitFor t [sa, sb]
      else s.put (if p (t.getS sa) (t.getS sb) then t.jump (branchTarget t.pc off slot) else t.advance))

/-- `nop` (R186). -/
def execNop (s : State) : Out :=
  s.scalar [] id

/-- `br` (R186). -/
def execBr (off : BitVec 17) (slot : BitVec 5) (s : State) : Out :=
  s.withCur fun t => .next (s.put (t.jump (branchTarget t.pc off slot)))

/-- `call` (R186): s1 takes the address of the next head. -/
def execCall (off : BitVec 17) (slot : BitVec 5) (s : State) : Out :=
  s.withCur fun t =>
    .next (if t.mustWait [1] then s.waitFor t [1]
      else (s.awaitNext t).getD (s.put ((t.setS 1 (s.nextHead t)).jump (branchTarget t.pc off slot))))

/-- `jr` (R186): sA is read before sD is written. -/
def execJr (sd sa : SReg) (imm : BitVec 17) (s : State) : Out :=
  s.withCur fun t =>
    .next (if t.mustWait [sd, sa] then s.waitFor t [sd, sa]
      else (s.awaitNext t).getD (s.put ((t.setS sd (s.nextHead t)).jump (t.getS sa + imm64 imm))))

/-- `ret` (R186). -/
def execRet (s : State) : Out :=
  s.withCur fun t => .next (if t.mustWait [1] then s.waitFor t [1] else s.put (t.jump (t.getS 1)))

/-- `beq` (R185). -/
def execBeq (sa sb : SReg) (off : BitVec 17) (slot : BitVec 5) (s : State) : Out :=
  s.branch sa sb off slot fun a b => a == b

/-- `bne` (R185). -/
def execBne (sa sb : SReg) (off : BitVec 17) (slot : BitVec 5) (s : State) : Out :=
  s.branch sa sb off slot fun a b => a != b

/-- `blt` (R185): signed. -/
def execBlt (sa sb : SReg) (off : BitVec 17) (slot : BitVec 5) (s : State) : Out :=
  s.branch sa sb off slot fun a b => a.slt b

/-- `bge` (R185): signed. -/
def execBge (sa sb : SReg) (off : BitVec 17) (slot : BitVec 5) (s : State) : Out :=
  s.branch sa sb off slot fun a b => !a.slt b

/-- `bltn` (R185): unsigned. -/
def execBltn (sa sb : SReg) (off : BitVec 17) (slot : BitVec 5) (s : State) : Out :=
  s.branch sa sb off slot fun a b => a.ult b

/-- `bgen` (R185): unsigned. -/
def execBgen (sa sb : SReg) (off : BitVec 17) (slot : BitVec 5) (s : State) : Out :=
  s.branch sa sb off slot fun a b => !a.ult b

/-- `bz` (R185). -/
def execBz (sa : SReg) (off : BitVec 17) (slot : BitVec 5) (s : State) : Out :=
  s.branch sa 0 off slot fun a _ => a == 0

/-- `bnz` (R185). -/
def execBnz (sa : SReg) (off : BitVec 17) (slot : BitVec 5) (s : State) : Out :=
  s.branch sa 0 off slot fun a _ => a != 0

/-! ## Retiring -/

/-- Whether a window is open once every older instruction has completed (R277). -/
def Strand.winAfter (t : Strand) : Bool :=
  (t.viq.filter fun e => !e.done).foldl (fun b e => match e.i with
    | .winOpen _ _ _ _ => true
    | .winClose => false
    | _ => b) t.win.isSome

/-- `end` (R29, R196): dispatch stops, the open convoy closes; with a window open once every older instruction has completed,
it takes WIN_STATE (R277). It waits for an access that has not delivered (R165); what else it waits for stands at
STRAND_RETIRE. -/
def execFinish (s : State) : Out :=
  s.withCur fun t =>
    .next (if t.acc.isSome then s.stallClosing t
      else if t.winAfter then s.scalarTrap t .winState 0 0 0
      else s.put { t.closeConvoy with status := .ending, moved := true })

/-! ## System registers (R56) -/

/-- The stack nearest to a physical cluster (R415). -/
def nearestStack (pclus : Nat) : Nat :=
  3 * (pclus / 6) + pclus % 6 / 2

/-- `thal` on a physical cluster (R59). -/
def State.thal (s : State) (pclus : Nat) : Word :=
  let band := (s.hbm.toList.map Stack.band).getD (nearestStack pclus) 0
  let allow := (s.dies.toList.map Die.allow).getD (dieOf pclus) 255
  ((band ++ band ++ allow : BitVec 12)).setWidth 64

/-- `tick` as a strand reads it (R56). -/
def State.beatCount (s : State) : Word :=
  BitVec.ofNat 64 s.tick

/-- `time` in ns (R410): 0 until it is set. -/
def State.timeNs (s : State) : Word :=
  if s.timeValid then BitVec.ofNat 64 (s.time3 / 3) else 0

/-- The content of a system register (R56); the decoder refuses the numbers R56 does not list. -/
def State.sysReg (s : State) (t : Strand) (num : Nat) : Word :=
  match num with
  | 0x000 => BitVec.ofNat 64 t.vl
  | 0x001 => t.vtype.setWidth 64
  | 0x002 => 0
  | 0x003 => t.vcp.setWidth 64
  | 0x004 => BitVec.ofNat 64 (vlmaxOf t.q t.vtype)
  | 0x008 => t.fstat.setWidth 64
  | 0x009 => (allLanes t.lflags).setWidth 64
  | 0x010 => BitVec.ofNat 64 t.id.tid
  | 0x011 => t.id.gid.setWidth 64
  | 0x012 => BitVec.ofNat 64 t.id.gsz
  | 0x013 => BitVec.ofNat 64 t.id.core
  | 0x014 => BitVec.ofNat 64 t.id.clus
  | 0x015 => BitVec.ofNat 64 t.q
  | 0x018 => Config.slabBase
  | 0x019 => t.prog.setWidth 64
  | 0x020 => s.beatCount
  | 0x021 => s.timeNs
  | 0x022 => s.thal t.id.pclus
  | 0x023 => t.stlMem
  | _ => 0

/-- Whether a vector load in the VIQ has still to pass its fault check (R44). -/
def Strand.loadsPending (t : Strand) : Bool :=
  t.viq.any fun e => !e.done && (uses e.vtype e.i).any fun u => u.cls == .ld

/-- The registers whose reading closes the open convoy (R161). -/
def closesConvoy (num : Nat) : Bool :=
  num == 0x000 || num == 0x004 || num == 0x009 || num == 0x023

/-- Whether an `sget` must wait: `vl` and `vlmax` for the fault checks of older loads, `vflags` and `stl.mem` for every older
entry (R44, R58, R187). -/
def Strand.sgetWaits (t : Strand) (num : Nat) : Bool :=
  if num == 0x000 || num == 0x004 then t.loadsPending
  else (num == 0x009 || num == 0x023) && !t.viq.isEmpty

/-- `sget` (R187). -/
def execSget (sd : SReg) (num : BitVec 12) (s : State) : Out :=
  s.withCur fun t =>
    .next (if t.mustWait [sd] then s.waitFor t [sd]
      else if t.sgetWaits num.toNat then s.stallClosing t
      else
        let u := if closesConvoy num.toNat then t.closeConvoy else t
        s.put (u.setS sd (s.sysReg t num.toNat)).advance)

/-- `sput` (R187): only `fstat` is writable. -/
def execSput (num : BitVec 12) (sa : SReg) (s : State) : Out :=
  s.scalar [sa] fun t => if num = 0x008 then { t with fstat := (t.getS sa).setWidth 7 } else t

/-! ## Configuration -/

/-- A configuration instruction ends the open convoy (R156); where it reads `vl` it acts once older loads have passed their
fault checks (R44). -/
def State.configure (s : State) (regs : List SReg) (readsVl : Bool) (f : Strand → State) : Out :=
  s.withCur fun t =>
    .next (if t.mustWait regs then s.waitFor t regs
      else if readsVl && t.loadsPending then s.stallClosing t
      else f t.closeConvoy)

/-- `vsetvl` (R188): it never waits for the VIQ. -/
def execVsetvl (sd sa : SReg) (s : State) : Out :=
  s.configure [sd, sa] false fun t =>
    let vl := min (t.getS sa).toNat (vlmaxOf t.q t.vtype)
    s.put ({ t with vl := vl, gen := t.gen + 1 }.setS sd (BitVec.ofNat 64 vl)).advance

/-- A new `vtype` (R40, R189): a reserved code takes VTYPE and changes nothing. -/
def State.setVtype (s : State) (t : Strand) (sd : SReg) (new : Word) : State :=
  let vt : BitVec 12 := new.setWidth 12
  if new >>> 12 ≠ 0 ∨ !vtypeOk vt then s.scalarTrap t .vtype 0 0 0
  else
    let vl := min t.vl (vlmaxOf t.q vt)
    s.put ({ t with vtype := vt, vl := vl, gen := t.gen + 1 }.setS sd (BitVec.ofNat 64 vl)).advance

/-- `vsettype` from a register (R189). -/
def execVsettype (sd sa : SReg) (s : State) : Out :=
  s.configure [sd, sa] true fun t => s.setVtype t sd (t.getS sa)

/-- `vsettype` from an immediate (R189). -/
def execVsettypeImm (sd : SReg) (imm : BitVec 12) (s : State) : Out :=
  s.configure [sd] true fun t => s.setVtype t sd (imm.setWidth 64)

/-! ## Progress, breakpoints, traps -/

/-- `prog.mark` (R194): saturating. -/
def execProgMark (sa : SReg) (imm : BitVec 11) (s : State) : Out :=
  s.scalar [sa] fun t =>
    { t with prog := BitVec.ofNat 32 (min (t.prog.toNat + (t.getS sa).toNat + imm.toNat) (2 ^ 32 - 1)) }

/-- A trap taken once every older vector-queue instruction has completed and every access has delivered (R165, R195). -/
def State.trapOnceIdle (s : State) (t : Strand) (info : Trapped) (pcNext : Word) : State :=
  if t.viq.isEmpty && t.rq.isEmpty && t.acc.isNone then s.takeTrap t info pcNext [] 0 none else s.stallClosing t

/-- `brk` (R195): the record names the `brk` itself. -/
def execBrk (imm : BitVec 11) (s : State) : Out :=
  s.withCur fun t => .next (s.trapOnceIdle t ⟨.brk, 0, 0, imm.toNat, true, t.pc⟩ t.pc)

/-- `trap` (R195): the record carries sA and names the head after it. -/
def execTrap (sa : SReg) (imm : BitVec 11) (s : State) : Out :=
  s.withCur fun t =>
    .next (if t.mustWait [sa] then s.waitFor t [sa]
      else (s.awaitNext t).getD (s.trapOnceIdle t ⟨.trap, 0, t.getS sa, imm.toNat, true, t.pc⟩ (s.nextHead t)))

end Sys2Proof.Machine
end

