-- ==== Sys2Proof/Machine/ScalarMem.lean ====
section
/-!
DEFINITION. Scalar loads, stores and atomics (R164, R165, R174 to R178). An access is performed at once, or becomes a
request: while its line is in move or its stack offline (R128, R416), and as an atomic, which passes keystones (R178, R273).
-/

namespace Sys2Proof.Machine

/-! ## Requests -/

/-- A request entered for a strand's access: dispatch goes on past it (R164), what follows it is provisional until it delivers
(R165). -/
def State.request (s : State) (t : Strand) (sd : SReg) (sext wr : Bool) (r : Request) : State :=
  let a : Access := ⟨s.nextRid, sd, r.n, sext, r.va, wr, r.ord == .acq, t.checkpoint, t.viq.length⟩
  (s.put { t.advance with acc := some a }).send { r with sid := t.id.sid, part := t.id.part, asid := t.id.asid }

/-- A request of a scalar access, without its identity and its way. -/
def accessRequest (kind : ReqKind) (n : Nat) (ord : Ord) (va data cmp : Word) (home : Nat) : Request where
  rid := 0
  sid := 0
  part := 0
  asid := 0
  kind := kind
  n := n
  ord := ord
  va := va
  home := home
  hops := 0
  data := data
  cmp := cmp
  port := 0
  route := []
  via := []
  again := false
  stalled := false
  vec := false
  attr := homeAttr home
  tried := false
  held := none
  delay := hostDelay home

/-- A line's count of redirects under way raised (R136). -/
def State.countRedirect (s : State) (line : Nat) : State :=
  { s with redirects := Cells.put s.redirects line (some ((Cells.find s.redirects line).getD 0 + 1)) }

/-- A load or store that waits at the home of a line of its chain becomes a request there, redirected by the lines before it
(R128, R136, R416); at a line of a page table its head waits. -/
def State.heldAccess (s : State) (t : Strand) (sd : SReg) (sext : Bool) (kind : ReqKind) (n : Nat) (va data : Word)
    (line : Nat) : State :=
  let ls := match s.firstHome t.ctx va n (if kind = .store then .write else .read) .data with
    | .ok h _ => if hasLines h.2 then s.onward t.id.asid 4 (lineOf h.1) else [lineOf h.1]
    | _ => []
  let via := ls.takeWhile (· != line)
  if !ls.contains line then s.put (s.holdHead t line)
  else
    (via.foldl State.countRedirect s).request t sd sext (kind = .store)
      { accessRequest kind n .rlx va data 0 (128 * line + va.toNat % 128) with
        stalled := true, tried := true, held := some (line, s.tick), hops := via.length, via := via }

/-- What a scalar access does with an attempt: done, faulted, waiting for a service, held at its home, struck. -/
def State.settle {α : Type} (s : State) (t : Strand) (x : Res α) (held : Nat → State) (f : α → State → State) : State :=
  match x with
  | .ok a s' => f a (s'.endSvc (.strand t.id.sid))
  | .flt c a v w => (s.keepWait w).scalarTrap t c a v 0
  | .wait w => (s.keepWait w).stall t
  | .held l _ => held l
  | .soft _ _ => s.strike t

/-- The state in which a head that performs an action waits for an access that has not delivered, if there is one: it would be
provisional (R165). -/
def State.behindAccess (s : State) (t : Strand) : Option State :=
  if t.acc.isSome then some (s.stall t) else none

/-- Whether a load must wait for an access that has not delivered: one that holds later accesses back (R177), or one to its
line, by requested or by resolved address; until both lines are known it waits too (R126, R285). -/
def State.loadBehind (s : State) (t : Strand) (va : Word) : Bool :=
  t.acc.any fun a => a.acq || lineVa a.va == lineVa va
    || (match s.resolve t.ctx a.va 1 1 (if a.wr then .write else .read) .data, s.resolve t.ctx va 1 1 .read .data with
      | .ok l _, .ok m _ => lineOf l.home == lineOf m.home
      | _, _ => true)

/-- Whether an instruction reads memory for its elements. -/
def readsElements (i : Instr) : Bool :=
  match i with
  | .vld _ | .vlds _ | .vldx _ | .vldc _ | .mld _ => true
  | _ => false

/-- The bytes a load has read, noted with the loads of the queue older than it that have not read: of an entry in the open
convoy, which the load does not wait for, they return no later value (R161, R285). -/
def Strand.pinned (t : Strand) (ahead : Option Nat) (home n v : Nat) : Strand :=
  let cells : List Host.Cell := (List.range n).map fun i => (home + i, BitVec.ofNat 8 (v / 256 ^ i))
  let pin (i : Nat) (e : Entry) : Entry :=
    if ahead.all (i < ·) && !e.done && readsElements e.i then { e with pins := e.pins ++ cells } else e
  if t.viq.isEmpty then t else { t with viq := t.viq.mapIdx pin }

/-- The strand once a load of it has read at its home. -/
def State.pinLoad (s : State) (t : Strand) (va : Word) (n v : Nat) : Strand :=
  if t.viq.isEmpty then t
  else
    match s.resolve t.ctx va n n .read .data with
    | .ok l _ => t.pinned none l.home n v
    | _ => t

/-- A value of `n` bytes as a register takes it (R174, R176). -/
def extendBytes (sext : Bool) (n v : Nat) : Word :=
  if sext then sextBytes n v else BitVec.ofNat 64 v

/-! ## Loads and stores (R174) -/

/-- A load of `n` bytes. A provisional one reads at once or waits until the access before it has delivered (R165). -/
def State.scalarLoad (s : State) (n : Nat) (sext : Bool) (sd sa : SReg) (imm : BitVec 17) : Out :=
  s.withCur fun t =>
    let va := t.getS sa + imm64 imm
    let done (p : Nat × List BufLine) (s' : State) : State :=
      s'.put ({ s.pinLoad t va n p.1 with lbuf := p.2 }.setS sd (extendBytes sext n p.1)).advance
    .next (if t.mustWait [sd, sa] then s.waitFor t [sd, sa]
      else if s.loadBehind t va then s.stall t
      else (s.behindQueue t va n false false).getD
        (match t.acc with
          | none =>
            s.settle t (s.load t.ctx t.lbuf va n) (fun l => s.heldAccess t sd sext .load n va 0 l) done
          | some _ =>
            match s.load t.ctx t.lbuf va n with
            | .ok p s' => done p s'
            | _ => s.stall t))

/-- A store of the low `n` bytes of sB. -/
def State.scalarStore (s : State) (n : Nat) (sb sa : SReg) (imm : BitVec 17) : Out :=
  s.withCur fun t =>
    let va := t.getS sa + imm64 imm
    .next (if t.mustWait [sb, sa] then s.waitFor t [sb, sa]
      else ((s.behindAccess t).orElse fun _ => s.behindQueue t va n true false).getD
        (s.settle t (s.store t.ctx t.lbuf va n (t.getS sb).toNat)
          (fun l => s.heldAccess t 0 false .store n va (t.getS sb) l)
          fun lb s' => s'.put { t.advance with lbuf := lb }))

/-- `ld.b`: sign-extended. -/
def execLdB (sd sa : SReg) (imm : BitVec 17) (s : State) : Out := s.scalarLoad 1 true sd sa imm
/-- `ld.h`. -/
def execLdH (sd sa : SReg) (imm : BitVec 17) (s : State) : Out := s.scalarLoad 2 true sd sa imm
/-- `ld.w`. -/
def execLdW (sd sa : SReg) (imm : BitVec 17) (s : State) : Out := s.scalarLoad 4 true sd sa imm
/-- `ld.d`. -/
def execLdD (sd sa : SReg) (imm : BitVec 17) (s : State) : Out := s.scalarLoad 8 true sd sa imm
/-- `ld.b.n`: zero-extended. -/
def execLdBN (sd sa : SReg) (imm : BitVec 17) (s : State) : Out := s.scalarLoad 1 false sd sa imm
/-- `ld.h.n`. -/
def execLdHN (sd sa : SReg) (imm : BitVec 17) (s : State) : Out := s.scalarLoad 2 false sd sa imm
/-- `ld.w.n`. -/
def execLdWN (sd sa : SReg) (imm : BitVec 17) (s : State) : Out := s.scalarLoad 4 false sd sa imm
/-- `st.b`. -/
def execStB (sb sa : SReg) (imm : BitVec 17) (s : State) : Out := s.scalarStore 1 sb sa imm
/-- `st.h`. -/
def execStH (sb sa : SReg) (imm : BitVec 17) (s : State) : Out := s.scalarStore 2 sb sa imm
/-- `st.w`. -/
def execStW (sb sa : SReg) (imm : BitVec 17) (s : State) : Out := s.scalarStore 4 sb sa imm
/-- `st.d`. -/
def execStD (sb sa : SReg) (imm : BitVec 17) (s : State) : Out := s.scalarStore 8 sb sa imm

/-! ## Atomics (R176 to R178) -/

/-- Whether keystones may combine an operation (R178). -/
def combinable : AmoOp → Bool
  | .swp | .cas => false
  | _ => true

/-- An atomic of `n` bytes: checked and translated, then sent to the home its address translates to (R178, R271, R284). -/
def State.scalarAmo (s : State) (op : AmoOp) (sd sa sb : SReg) (ord : Ord) (d : Bool) : Out :=
  s.withCur fun t =>
    let n := if d then 8 else 4
    let va := t.getS sa
    let sext := d || !(op == .minN || op == .maxN)
    .next (if t.mustWait [sd, sa, sb] then s.waitFor t [sd, sa, sb]
      else ((s.behindAccess t).orElse fun _ => s.behindQueue t va n true (ord == .rel)).getD
        (s.settle t (s.firstHome t.ctx va n .both (.amo (amoHostOk op))) (fun l => s.put (s.holdHead t l)) fun h s1 =>
          s1.request { t with lbuf := dropLines t.lbuf va (lineOf h.1) } sd sext true
            { accessRequest (.amo op) n ord va (t.getS sb) (t.getS sd) h.1 with
              route := routeTo t.id.pclus t.id.pcore h.1 }))

/-- `amo.add`. -/
def execAmoAdd (sd sa sb : SReg) (ord : Ord) (d : Bool) (s : State) : Out := s.scalarAmo .add sd sa sb ord d
/-- `amo.and`. -/
def execAmoAnd (sd sa sb : SReg) (ord : Ord) (d : Bool) (s : State) : Out := s.scalarAmo .and sd sa sb ord d
/-- `amo.or`. -/
def execAmoOr (sd sa sb : SReg) (ord : Ord) (d : Bool) (s : State) : Out := s.scalarAmo .or sd sa sb ord d
/-- `amo.xor`. -/
def execAmoXor (sd sa sb : SReg) (ord : Ord) (d : Bool) (s : State) : Out := s.scalarAmo .xor sd sa sb ord d
/-- `amo.min`. -/
def execAmoMin (sd sa sb : SReg) (ord : Ord) (d : Bool) (s : State) : Out := s.scalarAmo .min sd sa sb ord d
/-- `amo.max`. -/
def execAmoMax (sd sa sb : SReg) (ord : Ord) (d : Bool) (s : State) : Out := s.scalarAmo .max sd sa sb ord d
/-- `amo.swp`. -/
def execAmoSwp (sd sa sb : SReg) (ord : Ord) (d : Bool) (s : State) : Out := s.scalarAmo .swp sd sa sb ord d
/-- `amo.cas`: sD holds the compare value. -/
def execAmoCas (sd sa sb : SReg) (ord : Ord) (d : Bool) (s : State) : Out := s.scalarAmo .cas sd sa sb ord d
/-- `amo.min.n`. -/
def execAmoMinN (sd sa sb : SReg) (ord : Ord) (d : Bool) (s : State) : Out := s.scalarAmo .minN sd sa sb ord d
/-- `amo.max.n`. -/
def execAmoMaxN (sd sa sb : SReg) (ord : Ord) (d : Bool) (s : State) : Out := s.scalarAmo .maxN sd sa sb ord d

/-! ## Delivery -/

/-- The causes whose VALUE is the first forwarded line met (R341). -/
def isForwardCause (c : Cause) : Bool :=
  c == .fwdAsid || c == .fwdChain || c == .fwdTarget

/-- SCALAR_ACCESS_DELIVERY (R164, R165): the value of the outstanding access arrives in its register, and what was dispatched
past it stands; or its fault discards all that and is taken at its PC. -/
def execScalarAccessDelivery (sid : Nat) (s : State) : Out :=
  match s.strand sid with
  | none => .next s
  | some t =>
    match t.acc with
    | none => .next s
    | some a =>
      match s.replies.find? fun r => r.rid == a.rid with
      | none => .next s
      | some r =>
        let s1 := { s with replies := s.replies.filter fun x => x.rid != a.rid }
        .next (match r.ans with
          | .value v =>
            (s1.endSvc (.strand sid)).put ({ t with acc := none }.setS a.sd (extendBytes a.sext a.n v.toNat))
          | .fault c v => s1.scalarTrap (t.discard a) c a.va (if isForwardCause c then lineVa a.va else v) 0)

end Sys2Proof.Machine
end

