-- ==== Sys2Proof/Machine/Homes.lean ====
section
/-!
DEFINITION. Requests at their homes (R119, R122, R284), the keystones (R138, R272 to R274, R396, R397), and accesses that
wait too long (R399, R416).
-/

namespace Sys2Proof.Machine

/-- The strands of these slots struck by a soft error (R361). -/
def State.strikeAll (s : State) (sids : List Nat) : State :=
  { s with strands := updWhere s.strands (fun t => sids.contains t.id.sid) fun t => { t with status := .struck } }

/-! ## Replies -/

/-- A vector atomic with one element's reply noted (R270, R271). -/
def VecAmo.returned (a : VecAmo) (r : Reply) : VecAmo :=
  match a.sent.find? fun x => x.2.1 == r.rid with
  | none => a
  | some (e, _, va) =>
    let b := { a with sent := a.sent.filter fun x => x.2.1 != r.rid }
    match r.ans with
    | .value v => { b with got := b.got ++ [(e, v, r.flags)] }
    | .fault c v => { b with bad := b.bad ++ [(e, c, va, if isForwardCause c then lineVa va else v)] }

/-- A reply on its way: an element of a vector atomic is noted with its strand, any other waits for its delivery. -/
def State.reply (s : State) (r : Reply) : State :=
  match s.strands.find? fun t => t.vamo.any fun a => a.sent.any fun x => x.2.1 == r.rid with
  | some t => s.put { t with vamo := t.vamo.map fun a => a.returned r }
  | none => { s with replies := s.replies ++ [r] }

/-! ## MEMORY_ACCESS_PERFORM (R284) -/

/-- A request replaced. -/
def State.setRequest (s : State) (r : Request) : State :=
  { s with requests := updWhere s.requests (fun x => x.rid == r.rid) fun _ => r }

/-- The lines that redirected a request acknowledged (R136). -/
def State.acknowledge (s : State) (r : Request) : State :=
  { s with
    redirects := r.via.foldl (fun c l => Cells.put c l (match Cells.find c l with
      | some (n + 2) => some (n + 1)
      | _ => none)) s.redirects }

/-- A request that is no longer under way, wherever it stands: the lines that redirected it are acknowledged (R136). -/
def State.dropRequest (s : State) (r : Request) : State :=
  { (s.acknowledge r).endSvc (.request r.sid r.rid) with
    requests := s.requests.filter fun x => x.rid != r.rid
    keystones := s.keystones.map fun k =>
      { k with queue := k.queue.filter fun x => x.rid != r.rid, redir := k.redir.filter fun x => x.rid != r.rid } }

/-- A request answered, with the flags of a float add. -/
def State.answer (s : State) (r : Request) (a : Answer) (fl : Flags) : State :=
  (s.dropRequest r).reply ⟨r.rid, a, fl⟩

/-- A request that waits on at its home, for the rest of a tick. -/
def State.waitAtHome (s w : State) (r : Request) : State :=
  (s.keepWait w).setRequest { r with stalled := true }

/-- A request held at a line, since the first beat it was (R128, R416). -/
def State.holdRequest (s : State) (r : Request) (line : Nat) : State :=
  s.setRequest { r with
    stalled := true
    held := some (line, match r.held with
      | some (l, since) => if l = line then since else s.tick
      | none => s.tick) }

/-- A request to be made again from its requested address once the fault of a translation on its way has been serviced
(R123). -/
def State.reissue (s w : State) (r : Request) : State :=
  ((s.keepWait w).acknowledge r).setRequest { r with again := true, stalled := true, via := [], held := none }

/-- The way of a request from its core to its home (R396, R397). -/
def Request.way (r : Request) : List (Nat × Nat) :=
  routeTo (r.sid / 96) (r.sid % 96 / 4) r.home

/-- A request redirected by a forwarded line (R119, R138): it goes to its new home from its core, and meets the keystones of
that way (R397); a combined one goes back to the keystone that holds its pair. -/
def State.redirect (s : State) (r : Request) (line home : Nat) : State :=
  let r1 := { r with
    home := home, hops := r.hops + 1, via := line :: r.via, stalled := true, held := none, tried := false
    delay := hostDelay home }
  let s1 := { s.countRedirect line with requests := s.requests.filter fun x => x.rid != r.rid }
  match s1.keystones.find? fun k => k.buf.any fun w => w.rid == r.rid with
  | none => s1.place { r1 with route := r1.way }
  | some k =>
    { s1 with
      keystones := updWhere s1.keystones (fun x => x.ks == k.ks) fun x =>
        { x with redir := x.redir ++ [{ r1 with route := routeFrom k.ks home }] } }

/-- What an access of this kind needs of its pages (R355). -/
def ReqKind.need : ReqKind → Need
  | .load => .read
  | .store => .write
  | _ => .both

/-- What is checked at the attribute of its requested page (R95). -/
def ReqKind.check : ReqKind → Kind
  | .load => .data
  | .store => .data
  | .amo op => .amo (amoHostOk op)
  | .fadd _ => .amo false

/-- The access context of a request: that of the strand that made it. -/
def State.requestCtx (s : State) (r : Request) : Ctx :=
  ⟨.request r.sid r.rid, r.asid, ((s.strand r.sid).map Strand.q).getD 4⟩

/-- The line buffers of the strands a request carries without the line it has written (R108). -/
def State.dropCarried (s : State) (r : Request) (line : Nat) : State :=
  let sids := s.carried r.rid
  { s with strands := updWhere s.strands (fun t => sids.contains t.id.sid) fun t =>
      { t with lbuf := t.lbuf.filter fun b => b.home != line } }

/-- The float format of `n` bytes that a float add works in (R269). -/
def faddFmt (n : Nat) : Fmt :=
  if n = 4 then fmtF32 else fmtF64

/-- A home serves a request at its byte (R176, R270, R284). -/
def State.serve (s : State) (r : Request) (home : Nat) : State :=
  let line := lineOf home
  match r.kind with
  | .load =>
    let v := BitVec.ofNat 64 (Memory.read s.mem home r.n)
    let s1 := match (s.strand r.sid).map fun t => t.pinned (t.acc.map Access.ahead) home r.n v.toNat with
      | none => s
      | some t =>
        if homeAttr home = attrSlab then s.put t
        else
          let lb := t.lbuf.filter fun (x : BufLine) => x.home != line
          { s.put { t with lbuf := fillLine lb t.q s.freeCtr ⟨va52 r.va / 128, line, s.lineData line⟩ } with
            freeCtr := if lb.length < 256 * t.q then s.freeCtr else s.freeCtr + 1 }
    s1.answer r (.value v) 0
  | .store => ((s.writeHome home (leBytes r.n r.data.toNat)).dropCarried r line).answer r (.value 0) 0
  | .amo op =>
    let (old, s1) := s.amoAt home op r.n r.data.toNat r.cmp.toNat
    (s1.dropCarried r line).answer r (.value (BitVec.ofNat 64 old)) 0
  | .fadd _ =>
    let old := Memory.read s.mem home r.n
    let (new, fl) := fadd2 (faddFmt r.n) .rne false old (r.data.toNat % 2 ^ (8 * r.n))
    ((s.writeHome home (leBytes r.n new)).dropCarried r line).answer r (.value (BitVec.ofNat 64 old)) fl

/-- A request at a forwarded line: it follows the record, or takes its fault (R119, R122, R123). -/
def State.followRecord (s : State) (r : Request) (line : Nat) : State :=
  let rec_ := s.lineRecord line
  let va := recTarget rec_ ||| (r.va &&& 127)
  if recAsid rec_ ≠ r.asid then s.answer r (.fault .fwdAsid 0) 0
  else if r.hops = 3 then s.answer r (.fault .fwdChain 0) 0
  else
    match s.translate (s.requestCtx r) r.va (va52 va) r.kind.need with
    | .ok e w =>
      if hasLines (pteAttr e.pte) then w.redirect r line (entryHome e (va52 va)) else w.answer r (.fault .fwdTarget 0) 0
    | .flt c _ v w => (s.keepWait w).answer r (.fault c v) 0
    | .soft _ _ => (s.strikeAll (s.carried r.rid)).dropRequest r
    | .wait w => s.reissue w r
    | .held l w => (s.keepWait w).holdRequest r l

/-- A request at its home (R98, R119, R128, R284, R416): served, redirected, held in order of arrival, or faulted; one that
is made again starts from its requested address. -/
def State.performAt (s : State) (r0 : Request) : State :=
  let r := { r0 with tried := true }
  if r.again then
    match s.firstHome (s.requestCtx r) r.va r.n r.kind.need r.kind.check with
    | .ok h w =>
      let r1 := { r with home := h.1, hops := 0, again := false, stalled := true, tried := false, delay := hostDelay h.1 }
      match w.keystones.find? fun k => k.buf.any fun x => x.rid == r.rid with
      | none => ({ w with requests := w.requests.filter fun x => x.rid != r.rid }).place { r1 with route := r1.way }
      | some k =>
        ({ w with requests := w.requests.filter fun x => x.rid != r.rid }).place { r1 with route := routeFrom k.ks h.1 }
    | .flt c _ v w => (s.keepWait w).answer r (.fault c v) 0
    | .soft _ _ => (s.strikeAll (s.carried r.rid)).dropRequest r
    | .wait w => s.waitAtHome w r
    | .held l w => (s.keepWait w).holdRequest r l
  else
    let line := lineOf r.home
    let attr := homeAttr r.home
    let since := match r.held with
      | some (l, b) => if l = line then b else s.tick + 1
      | none => s.tick + 1
    if s.soft.contains line then (s.strikeAll (s.carried r.rid)).dropRequest r
    else if !(r.kind == .load && s.readsInMove attr line) && s.heldBefore line since then s.holdRequest r line
    else if attr = attrSlab then
      match s.slabHome r.asid r.va with
      | some h => s.serve r h
      | none => s.answer r (.fault .slabAbsent 0) 0
    else if !hasLines attr then s.serve r r.home
    else if s.offline line || s.unreachable line then s.holdRequest r line
    else
      match s.lineState line with
      | some .plain => s.serve r r.home
      | some .inMove => if r.kind = .load then s.serve r r.home else s.holdRequest r line
      | some .forwarded => s.followRecord r line
      | none => if r.kind = .store then s.serve r r.home else s.answer r (.fault .check 0) 0

/-- Whether the home can take a request up. -/
def State.requestReady (s : State) (r : Request) : Bool :=
  !r.stalled && r.delay == 0 && !s.waitsService (.request r.sid r.rid)

/-- MEMORY_ACCESS_PERFORM: the home of a request serves it, redirects it, or holds it on. -/
def execMemoryAccessPerform (rid : Nat) (s : State) : Out :=
  match s.requests.find? fun r => r.rid == rid with
  | none => .next s
  | some r => .next (if s.requestReady r then s.performAt r else s)

/-- A request put behind those that a number puts at or before it. -/
def insertBy (f : Request → Nat) (r : Request) : List Request → List Request
  | [] => [r]
  | x :: xs => if f x ≤ f r then x :: insertBy f r xs else r :: x :: xs

/-- Requests in the order of a number, those of one number in the order they stand in. -/
def sortBy (f : Request → Nat) (rs : List Request) : List Request :=
  rs.foldl (fun l r => insertBy f r l) []

/-- The requests held at their home line, in order of arrival (R128). -/
def State.heldAt (s : State) (line : Nat) : List Request :=
  sortBy (fun r => (r.held.map fun h => h.2).getD 0)
    (s.requests.filter fun r => lineOf r.home == line && r.held.any fun h => h.1 == line)

/-- The requests held at a line that has been forwarded, released in order of arrival as redirects (R128, R138). -/
def State.releaseHeld (s : State) (line : Nat) : State :=
  (s.heldAt line).foldl (fun a r => a.followRecord { r with tried := true } line) s

/-- The requests held at a line whose move has failed, served in order of arrival (R128). -/
def State.serveHeld (s : State) (line : Nat) : State :=
  (s.heldAt line).foldl (fun a r => a.performAt { r with stalled := false }) s

/-- Whether any access but a request waits at a line, which it followed or will follow the record of, or at a line the record
leads to (R128, R136). An access that waits there by its own address is waited for too (log 91). Forwarding instructions wait for
themselves. -/
def State.awaited (s : State) (asid : BitVec 16) (line : Nat) : Bool :=
  let ls := s.onward asid 4 line
  let at_ (h : Option (Nat × Nat)) : Bool := h.any fun x => ls.contains x.1
  s.strands.any (fun t => at_ t.held || !t.busy && at_ t.hold) || s.copies.any (fun c => at_ c.held) || s.outHeld.any fun x => at_ (some x.2)

/-! ## Keystones -/

/-- Whether keystones may combine what two requests ask (R178, R272): equal integer operations but swp and cas, float adds that
both carry `.reassoc`. -/
def kindsCombine (a b : ReqKind) : Bool :=
  match a, b with
  | .amo o, .amo p => o == p && combinable o
  | .fadd x, .fadd y => x && y
  | _, _ => false

/-- Whether two requests combine (R272). -/
def combines (a b : Request) : Bool :=
  kindsCombine a.kind b.kind && a.part == b.part && a.home == b.home && a.n == b.n && a.ord == b.ord && a.route == b.route

/-- A fold of two operands, or an old value and an operand (R273, R274): float folds round to nearest even. -/
def foldValue (k : ReqKind) (n : Nat) (a b : Word) : Word × Flags :=
  let m := 2 ^ (8 * n)
  match k with
  | .amo op => (BitVec.ofNat 64 (amoNew op n (a.toNat % m) b.toNat 0), 0)
  | .fadd _ => let (x, fl) := fadd2 (faddFmt n) .rne false (a.toNat % m) (b.toNat % m); (BitVec.ofNat 64 x, fl)
  | _ => (a, 0)

/-- A request in the list of those that leave: folded into the first it combines with, else at the end (R273). R138 and R274
name no address space, strand, requested address or hop count for a combined request whose parts differ in them: those of its
left part stand, for the records it meets and the services it waits for. [DESIGN CHOICE, log 69] -/
def fold1 (free rid : Nat) (r : Request) : List Request → List Request × Option WaitEntry
  | [] => ([r], none)
  | x :: xs =>
    if free > 0 && combines x r then
      let (v, fl) := foldValue x.kind x.n x.data r.data
      ({ x with rid := rid, data := v, via := x.via ++ r.via } :: xs, some ⟨rid, x.rid, r.rid, x.data, x.kind, x.n, fl⟩)
    else
      let (ys, w) := fold1 free rid r xs
      (x :: ys, w)

/-- The requests of a tick folded from the left (R273): those that leave, the wait buffer, the next request number. -/
def foldAll : List Request → List Request → List WaitEntry → (rid : Nat) → List Request × List WaitEntry × Nat
  | [], out, buf, rid => (out, buf, rid)
  | r :: rs, out, buf, rid =>
    match fold1 (Config.waitBuffer - buf.length) rid r out with
    | (out', some w) => foldAll rs out' (w :: buf) (rid + 1)
    | (out', none) => foldAll rs out' buf rid

/-- Requests of one tick in order of arrival: ties to the lower port (R273). -/
def byPort (rs : List Request) : List Request :=
  sortBy Request.port rs

/-- A request sent on: to the next keystone of its route, or to its home, in the next tick. -/
def State.sendOn (s : State) (r : Request) : State :=
  s.place { r with stalled := true }

/-- KEYSTONE_COMBINE: a keystone folds the requests present in a tick and sends them on (R272, R273). -/
def execKeystoneCombine (ks : Nat) (s : State) : Out :=
  match s.keystones.find? fun k => k.ks == ks with
  | none => .next s
  | some k =>
    let now := k.queue.filter fun r => !r.stalled
    let (out, buf, rid) := foldAll (byPort now) [] k.buf s.nextRid
    let s1 := { s with
      nextRid := rid
      keystones := updWhere s.keystones (fun x => x.ks == ks) fun x =>
        { x with queue := k.queue.filter fun r => r.stalled, buf := buf } }
    .next (out.foldl State.sendOn s1)

/-- KEYSTONE_SPLIT_REPLY: the reply of a combined request splits into those of its two parts (R273, R138). A float add's parts
both carry the flags of the home and of their fold, the right part those of its split: R270 names no lane for the roundings of
the tree (log 31). -/
def execKeystoneSplitReply (ks : Nat) (s : State) : Out :=
  match s.keystones.find? fun k => k.ks == ks with
  | none => .next s
  | some k =>
    match k.buf.find? fun w => s.replies.any fun r => r.rid == w.rid with
    | none => .next s
    | some w =>
      match s.replies.find? fun r => r.rid == w.rid with
      | none => .next s
      | some r =>
        let fl := r.flags ||| w.flags
        let (right, split) : Answer × Flags := match r.ans with
          | .value v => let (x, g) := foldValue w.kind w.n v w.opnd; (.value x, g)
          | a => (a, 0)
        let s1 : State := { s with
          replies := s.replies.filter fun x => x.rid != w.rid
          keystones := updWhere s.keystones (fun x => x.ks == ks) fun x =>
            { x with buf := x.buf.filter fun y => y.rid != w.rid } }
        .next ((s1.reply ⟨w.left, r.ans, fl⟩).reply ⟨w.right, right, fl ||| split⟩)

/-- COMBINED_REDIRECT_REISSUE: a keystone reissues its redirected combined requests to their new addresses (R138), by way of the
keystones from there on (R397). -/
def execCombinedRedirectReissue (ks : Nat) (s : State) : Out :=
  match s.keystones.find? fun k => k.ks == ks with
  | none => .next s
  | some k =>
    .next (k.redir.foldl State.place
      { s with keystones := updWhere s.keystones (fun x => x.ks == ks) fun x => { x with redir := [] } })

/-! ## Accesses that wait too long -/

/-- Beats of one millisecond (R410). -/
def beatsPerMs : Nat := 600000

/-- The number of an agent in an event: a strand's slot, an access from outside, a copy (log 62). -/
def Agent.number : Agent → Nat
  | .strand sid => sid
  | .queue sid => sid
  | .request sid _ => sid
  | .outside k => 2304 + 2 * k
  | .copy cid => 2305 + 2 * cid

/-- Every access that waits at a line: its agent's number, the line, the beat since when. -/
def State.heldAccesses (s : State) : List (Nat × Nat × Nat) :=
  s.strands.flatMap (fun t => (t.held.toList ++ t.hold.toList).map fun h => (t.id.sid, h))
    ++ s.requests.filterMap (fun r => r.held.map fun h => (r.sid, h))
    ++ s.copies.filterMap (fun c => c.held.map fun h => (Agent.number (.copy c.cid), h))
    ++ s.outHeld.map fun x => (Agent.number (.outside x.1), x.2)

/-- An access of an agent held at a line whose stack is offline for more than 1 ms (R416). -/
def State.heldTooLong (s : State) (n : Nat) : Option Nat :=
  (s.heldAccesses.find? fun h => h.1 == n && s.offline h.2.1 && !s.soft.contains h.2.1
    && s.tick - h.2.2 > beatsPerMs).map fun h => h.2.1

/-- An access of an agent to a line that no route has reached within 1 ms (R399). -/
def State.unroutedTooLong (s : State) (n : Nat) : Option Nat :=
  (s.heldAccesses.find? fun h => h.1 == n && s.unreachable h.2.1 && !s.soft.contains h.2.1
    && s.tick - h.2.2 ≥ beatsPerMs).map fun h => h.2.1

end Sys2Proof.Machine
end

