-- ==== Sys2Proof/Machine/Solo.lean ====
section
/-!
DEFINITION. The instructions that form a convoy by themselves (R156): sync objects and bindings (R257 to R261), fences
(R262), barriers (R263 to R267), `vwait` (R268), windows (R275 to R277), copies (R278). Each is a VIQ entry: it acts as
soon as it stands first, and stays there while it waits (R25).
-/

namespace Sys2Proof.Machine

/-! ## Completion and faults of such an entry -/

/-- What a strand waits for besides the first entry of its VIQ: a younger `qdrain` (R191). -/
def Strand.otherWait (t : Strand) : Wait :=
  match t.wait with
  | .queue q sd => .queue q sd
  | _ => .none

/-- The entry has completed: `vcp` advances and its value enters the result queue (R18, R20). -/
def Strand.soloDone (t : Strand) (x : Option Word) : Strand :=
  match t.viq with
  | [] => t
  | e :: rest =>
    { t.popped with
      viq := rest
      vcp := t.vcp + 1
      moved := true
      wait := t.otherWait
      held := none
      vfault := t.vfault.map fun f => { f with index := f.index - 1 }
      rq := t.rq ++ (match resultReg e.i, x with
        | some r, some w => [(r, w)]
        | _, _ => []) }

/-- The entry has faulted: the fault waits at `vcp` (R18, R256). `elem` is the element of ELEM, `epr` where the entry goes on
(R268, R277, R341). -/
def Strand.soloFault (t : Strand) (c : Cause) (addr value : Word) (elem epr : Nat) : Strand :=
  { t with
    vfault := some ⟨0, ⟨c, addr, value, elem, false, ((t.viq.head?).map Entry.pc).getD 0⟩, epr, none⟩
    wait := t.otherWait }

/-- The entry has faulted before it has done anything. -/
def Strand.soloRefused (t : Strand) (c : Cause) : Strand :=
  t.soloFault c 0 0 0 0

/-- What an entry does with an attempt to reach memory, made for an element. -/
def State.settleSolo {α : Type} (s : State) (t : Strand) (elem epr : Nat) (x : Res α) (f : α → State → State) : State :=
  match x with
  | .ok a w => f a w
  | .flt c a v w => (s.keepWait w).put (t.soloFault c a v elem epr)
  | .wait w => (s.keepWait w).stallQueue t
  | .held l w => (s.keepWait w).put (s.holdAt t l)
  | .soft _ _ => s.strike t

/-- The entry done in a state that holds no service of the strand any more. -/
def State.soloEnd (s : State) (t : Strand) (x : Option Word) : State :=
  (s.endSvc (.queue t.id.sid)).put (t.soloDone x)

/-! ## Gangs and bindings -/

/-- The gang of a handle. -/
def State.gang (s : State) (h : BitVec 16) : Option Gang :=
  s.gangs.find? fun g => g.handle == h

/-- A gang changed. -/
def State.setGang (s : State) (h : BitVec 16) (f : Gang → Gang) : State :=
  { s with gangs := updWhere s.gangs (fun g => g.handle == h) f }

/-- The bindings a strand sees (R258). -/
def State.bindingsOf (s : State) (t : Strand) : List Binding :=
  ((s.gang t.id.handle).map Gang.bindings).getD []

/-- A region is not empty and aligned (R258). -/
def regionOk (base len : Word) : Bool :=
  base.toNat % 128 == 0 && len.toNat % 128 == 0 && len != 0

/-- Whether two byte ranges of addresses overlap. -/
def regionsMeet (a n b m : Word) : Bool :=
  rangesMeet a.toNat n.toNat b.toNat m.toNat

/-- The line buffer without the lines of the regions bound to an object (R261). -/
def dropRegions (lb : List BufLine) (bs : List Binding) (obj : Word) : List BufLine :=
  lb.filter fun b => !bs.any fun r =>
    r.obj == obj && rangesMeet (128 * b.va) 128 (va52 r.base) r.len.toNat

/-- An acquire of an object (R261): the strand's lines of its regions are invalidated. -/
def State.acquire (s : State) (t : Strand) (obj : Word) : Strand :=
  { t with lbuf := dropRegions t.lbuf (s.bindingsOf t) obj }

/-- (v - w) mod 2^64 < 2^63: the value has reached the target (R261, R268). -/
def reached (v target : Word) : Bool :=
  decide ((v - target).toNat < 2 ^ 63)

/-- A new binding in a table (R259): the scope of an equal entry is replaced. -/
def addBinding (bs : List Binding) (b : Binding) : Except Cause (List Binding) :=
  let same (x : Binding) : Bool := x.base == b.base && x.len == b.len && x.obj == b.obj
  if !regionOk b.base b.len then .error .bindRange
  else if bs.any fun x => x.obj != b.obj && regionsMeet x.base x.len b.base b.len then .error .bindRange
  else if bs.any same then .ok (updWhere bs same fun x => { x with scope := b.scope })
  else if bs.length ≥ Config.maxBindings then .error .bindFull
  else .ok (bs ++ [b])

/-- The first binding that starts at a base removed (R259). -/
def removeBinding (bs : List Binding) (base : Word) : Option (List Binding) :=
  match bs with
  | [] => none
  | b :: t => if b.base = base then some t else (removeBinding t base).map fun u => b :: u

/-- The checks of a sync object that is not read: address, alignment, translation, attribute (R257). -/
def State.checkObject (s : State) (c : Ctx) (obj : Word) : Res Unit :=
  (s.requested c obj 8 8 .read).bind fun e s' =>
    match attrCause (pteAttr e.pte) .sync with
    | some cause => .flt cause obj 0 s'
    | none => .ok () s'

/-- `sync.bind` at its place. -/
def State.bind (s : State) (t : Strand) (obj base len : Word) (scope : Scope) : State :=
  s.settleSolo t 0 0 (s.checkObject t.qctx obj) fun _ w =>
    match addBinding (s.bindingsOf t) ⟨base, len, obj, scope⟩ with
    | .error c => w.put (t.soloRefused c)
    | .ok bs => (w.setGang t.id.handle fun g => { g with bindings := bs }).soloEnd t none

/-- `sync.unbind` at its place. -/
def State.unbind (s : State) (t : Strand) (base : Word) : State :=
  match removeBinding (s.bindingsOf t) base with
  | none => s.put (t.soloRefused .bindRange)
  | some bs => (s.setGang t.id.handle fun g => { g with bindings := bs }).soloEnd t none

/-! ## acq and rel (R260, R261) -/

/-- `acq` tests its object: it completes, or waits; `force` is the form without a target. -/
def State.acqTest (s : State) (t : Strand) (obj target : Word) (force : Bool) : State :=
  s.settleSolo t 0 0 (s.readSync t.qctx obj .read) fun (_, v) w =>
    if force || reached v target then w.soloEnd (s.acquire t obj) (some v)
    else (w.endSvc (.queue t.id.sid)).put { t with wait := .object obj target, held := none }

/-- `rel` raises its object at its home (R260). -/
def State.relRaise (s : State) (t : Strand) (obj : Word) : State :=
  s.settleSolo t 0 0 (s.readSync t.qctx obj .both) fun (l, v) w =>
    (w.writeHome l.home (leBytes 8 (v + 1).toNat)).soloEnd
      { t with lbuf := dropLines t.lbuf obj (lineOf l.home) } (some (v + 1))

/-! ## Barriers (R263 to R267) -/

/-- The home of a live barrier's object: its address followed in the gang's address space. R122 and R265 say where no completion
is written whose object cannot be followed: the home noted at `bar.init` takes it, as it stands. [DESIGN CHOICE, log 71] -/
def State.barrierHome (s : State) (b : Barrier) : Nat :=
  match s.gang b.handle with
  | none => b.obj
  | some g =>
    match s.resolve ⟨.outside g.part.toNat, g.asid, 4⟩ b.va 8 8 .read .sync with
    | .ok l _ => l.home
    | _ => b.obj

/-- The live barrier of an object (R263). -/
def State.barrierOf (s : State) (home : Nat) : Option Barrier :=
  s.barriers.find? fun b => s.barrierHome b == home

/-- BARS of a card (R366). -/
def cardBars (c : BitVec 1024) : Nat := fieldNat c 963 3

/-- The card of a gang. -/
def State.cardOf (s : State) (g : Gang) : Option Card :=
  s.cards.find? fun c => c.cid == g.card

/-- The barriers the card of a gang requests (R366). -/
def State.barsOf (s : State) (h : BitVec 16) : Nat :=
  match s.gang h with
  | none => 0
  | some g => ((s.cardOf g).map fun c => cardBars c.bits).getD 0

/-- Whether an arrival of the strand is about to count at a barrier in this tick: a later barrier form of the strand there
comes after it (R264, R265). -/
def State.arrivalAhead (s : State) (t : Strand) (b : Barrier) : Bool :=
  (s.arrivals.any fun a => a.bid == b.bid && a.who == (t.id.handle, t.id.tid))
    && !((s.gang b.handle).any fun g => g.state != .running)

/-- The live barrier of an object as a barrier form of the strand finds it: it waits for the strand's own arrivals. -/
def State.atBarrier (s : State) (t : Strand) (home : Nat) (f : Option Barrier → State) : State :=
  match s.barrierOf home with
  | some b => if s.arrivalAhead t b then (s.endSvc (.queue t.id.sid)).stallQueue t else f (some b)
  | none => f none

/-- `bar.init` at its place (R263). -/
def State.barInit (s : State) (t : Strand) (obj : Word) (n : Nat) : State :=
  s.settleSolo t 0 0 (s.readSync t.qctx obj .both) fun (l, v) w =>
    w.atBarrier t l.home fun
    | some b =>
      if b.handle = t.id.handle ∧ b.made = n then w.soloEnd t none
      else w.put (t.soloRefused .barState)
    | none =>
      if (w.barriers.filter fun b => b.handle == t.id.handle).length ≥ w.barsOf t.id.handle then
        w.put (t.soloRefused .barFull)
      else
        let w1 : State := { w with
          barriers := w.barriers ++ [⟨w.nextBid, l.home, obj, t.id.handle, t.id.pclus, n, n, v, [], 0, []⟩]
          nextBid := w.nextBid + 1 }
        w1.soloEnd t none

/-- An arrival at its place (R264): it goes to the barrier, and the strand goes on. -/
def State.arrive (s : State) (t : Strand) (obj : Word) (k : ArrKind) : State :=
  s.settleSolo t 0 0 (s.readSync t.qctx obj .both) fun (l, _) w =>
    w.atBarrier t l.home fun
    | none => w.put (t.soloRefused .barState)
    | some b =>
      let w1 : State := { w with arrivals := w.arrivals ++ [⟨b.bid, (t.id.handle, t.id.tid), k⟩] }
      w1.soloEnd t none

/-- The counter has passed a phase (R266). -/
def phasePassed (counter phase : Word) : Bool :=
  let d := (counter - phase).toNat
  decide (1 ≤ d ∧ d < 2 ^ 63)

/-- The phase in which a strand last arrived at a barrier: arrivals that have not counted yet will count in the phase in
progress, or after it where the strand has already arrived in it (R264, R266). -/
def State.lastPhase (s : State) (t : Strand) (b : Barrier) : Word :=
  let who := (t.id.handle, t.id.tid)
  let mine (a : Arrival) : Bool := a.bid == b.bid && a.who == who
  let pend := (s.arrivals.filter mine).length + (b.held.filter mine).length
  if pend > 0 then b.counter + BitVec.ofNat 64 pend - (if b.arrived.contains who then 0 else 1)
  else
    match t.arrs.find? fun a => a.1 == b.bid with
    | some a => a.2
    | none => b.counter

/-- The end of a wait at a barrier (R266). -/
def Strand.woken (t : Strand) : Strand :=
  ({ t with lbuf := [] }).soloDone none

/-- `bar.wait` at its place (R266). -/
def State.barWait (s : State) (t : Strand) (obj : Word) : State :=
  s.settleSolo t 0 0 (s.readSync t.qctx obj .read) fun (l, _) w =>
    match w.barrierOf l.home with
    | none => w.put (t.soloRefused .barState)
    | some b =>
      if b.handle ≠ t.id.handle then w.put (t.soloRefused .barState)
      else
        let phase := w.lastPhase t b
        let w1 := w.endSvc (.queue t.id.sid)
        if phasePassed b.counter phase then w1.put t.woken
        else w1.put { t with wait := .barrier b.bid phase }

/-- The arrivals of a tick counted in a phase (R264): a second arrival of a strand is held. -/
def countIn (b : Barrier) : List Arrival → Barrier
  | [] => b
  | a :: t =>
    if b.arrived.contains a.who then countIn { b with held := b.held ++ [a] } t
    else countIn { b with arrived := b.arrived ++ [a.who], drops := if a.kind = .drop then b.drops + 1 else b.drops } t

/-- Phases completed while their arrivals reach the count (R265): the barrier, and whether a phase has completed. A
barrier whose count reaches 0 is freed. -/
def completePhases : (fuel : Nat) → Barrier → Barrier × Bool
  | 0, b => (b, false)
  | fuel + 1, b =>
    if b.expected = 0 ∨ b.arrived.length < b.expected then (b, false)
    else
      let b1 := { b with
        counter := b.counter + 1
        arrived := []
        expected := b.expected - b.drops
        drops := 0
        held := [] }
      if b1.expected = 0 then (b1, true) else ((completePhases fuel (countIn b1 b.held)).1, true)

/-- The phase a strand's counted arrival belongs to, noted with the strand. -/
def noteArrivals (b0 : Barrier) (as : List Arrival) (t : Strand) : Strand :=
  let who := (t.id.handle, t.id.tid)
  if as.any fun a => a.who == who then
    let n := (as.filter fun a => a.who == who).length + (b0.held.filter fun a => a.who == who).length
    let phase := b0.counter + BitVec.ofNat 64 n - (if b0.arrived.contains who then 0 else 1)
    { t with arrs := (b0.bid, phase) :: t.arrs.filter fun a => a.1 != b0.bid }
  else t

/-- Whether arrivals can count at a barrier: its gang runs, and its object's home takes a write (R128, R267, R288, R416). -/
def State.counts (s : State) (b : Barrier) : Bool :=
  let line := lineOf (s.barrierHome b)
  !((s.gang b.handle).any fun g => g.state != .running)
    && !(s.lineState line == some .inMove) && !s.offline line && !s.unreachable line

/-- BARRIER_ARRIVAL_COUNT: the arrivals of a tick reach their barrier and count together; a phase that completes advances
the counter, writes the object and wakes the strands that wait for it (R265). While the object's line is in move or offline its
home holds them (R128, R288, R416); at a line with a soft error they strike their strands (R361). A released strand dispatches in
the next beat it owns (R326) or in an earlier one that passes to it under R22. [DEDUCED, log 84] -/
def execBarrierArrivalCount (bid : Nat) (s : State) : Out :=
  match s.barriers.find? fun b => b.bid == bid with
  | none => .next { s with arrivals := s.arrivals.filter fun a => a.bid != bid }
  | some b =>
    if !s.counts b then .next s
    else if s.soft.contains (lineOf (s.barrierHome b)) then
      let who := (s.arrivals.filter fun a => a.bid == bid).map Arrival.who
      .next { s with
        arrivals := s.arrivals.filter fun a => a.bid != bid
        strands := updWhere s.strands (fun t => who.contains (t.id.handle, t.id.tid)) fun t => { t with status := .struck } }
    else
      let as := s.arrivals.filter fun a => a.bid == bid
      let counted := countIn b as
      let (b1, completed) := completePhases (as.length + b.held.length + 1) counted
      let home := s.barrierHome b
      let s1 := { s with
        arrivals := s.arrivals.filter fun a => a.bid != bid
        barriers := if b1.expected = 0 then s.barriers.filter fun x => x.bid != bid
          else updWhere s.barriers (fun x => x.bid == bid) fun _ => b1
        strands := s.strands.map (noteArrivals b as) }
      if !completed then .next s1
      else
        let s2 := s1.writeHome home (leBytes 8 b1.counter.toNat)
        .next { s2 with strands := s2.strands.map fun t =>
          match t.wait with
          | .barrier w phase =>
            -- a released strand dispatches from the next beat on (R326)
            if w = bid ∧ phasePassed b1.counter phase then { t.woken with stalled := true } else t
          | _ => t }

/-! ## vwait (R268) -/

/-- The values of the watched words, one after the other; a fault names its element. -/
def State.readWords (s : State) (c : Ctx) : List (Nat × Word × Word) → List (Nat × Word) → Except Nat Unit × Res (List (Nat × Word))
  | [], acc => (.ok (), .ok acc.reverse s)
  | (e, va, _) :: ws, acc =>
    match s.readSync c va .read with
    | .ok (_, v) s' => s'.readWords c ws ((e, v) :: acc)
    | .flt c a v w => (.error e, .flt c a v w)
    | .wait w => (.error e, .wait w)
    | .held l w => (.error e, .held l w)
    | .soft l w => (.error e, .soft l w)

/-- The elements not met. -/
def unmet (words : List (Nat × Word × Word)) (vals : List (Nat × Word)) : List Nat :=
  (words.filter fun w => !vals.any fun v => v.1 == w.1 && reached v.2 w.2.2).map fun w => w.1

/-- The end of a `vwait`: the mask, the acquires of the words that were met, the status. -/
def State.vwaitEnd (s : State) (t : Strand) (a : Vwait) (vl : Nat) (vt : BitVec 12) (words : List (Nat × Word × Word))
    (left : List Nat) : Strand :=
  let k := (List.range vl).foldl (fun k e => maskSet k a.kd e (left.contains e)) t.k
  let t1 := { t with k := k }.tail vt (.mask a.kd) vl (vlmaxOf t.q vt)
  let met := words.filter fun w => !left.contains w.1
  (met.foldl (fun u w => s.acquire u w.2.1) t1).soloDone (some (if left.isEmpty then 0 else 1))

/-- A `vwait` tests its words: it ends with MET, with TIMEOUT where no beat is left, or waits. -/
def State.vwaitTest (s : State) (t : Strand) (a : Vwait) (vl : Nat) (vt : BitVec 12) (words : List (Nat × Word × Word))
    (beats : Nat) : State :=
  let (at_, vals) := s.readWords t.qctx words []
  let elem := match at_ with
    | .error e => e
    | .ok _ => 0
  s.settleSolo t elem 0 vals fun vs w =>
    let left := unmet words vs
    let w1 := w.endSvc (.queue t.id.sid)
    if left.isEmpty ∨ beats = 0 then w1.put (w1.vwaitEnd t a vl vt words left)
    else w1.put { t with wait := .flags words beats, held := none }

/-- `vwait` at its place: checks, probes, first test. With `vl` = 0 it delivers MET and leaves the mask (R46); a resumed one
waits for the beats it had left (R268). -/
def State.vwaitStart (s : State) (t : Strand) (e : Entry) (a : Vwait) : State :=
  let x : Px := e.px t s ⟨t.v, t.k⟩ e.vl true none false
  let checked : Except Cause Unit := do
    x.groups none [(a.va, 64), (a.vb, 64)]
    let u ← x.tag a.va 64
    let v ← x.tag a.vb 64
    needTag (indexOk u 64 && indexOk v 64)
  match checked with
  | .error c => s.put (t.soloRefused c)
  | .ok _ =>
    if e.vl = 0 then s.put (t.soloDone (some 0))
    else
      let words := ((List.range e.vl).filter fun n => admits t.k a.m n).map fun n =>
        (n, BitVec.ofNat 64 (elemGet t.v t.q a.va.toNat 64 n), BitVec.ofNat 64 (elemGet t.v t.q a.vb.toNat 64 n))
      s.vwaitTest t a e.vl e.vtype words (e.left.getD (x.op 0).toNat)

/-! ## Windows (R275 to R277) -/

/-- The tags a window may have (R275). -/
def windowTag (t : Tag) : Bool :=
  t == .i32 || t == .n32 || t == .i64 || t == .n64 || t == .f32 || t == .f64

/-- One byte of a window's memory lies on a page it may lie on (R275). -/
def State.windowByte (s : State) (c : Ctx) (va : Word) : Res Unit :=
  (s.requested c va 1 1 .write).bind fun e s' =>
    match attrCause (pteAttr e.pte) (.amo false) with
    | some cause => .flt cause va 0 s'
    | none =>
      if pteAttr e.pte = attrSlab && (s'.slabHome c.asid va).isNone then .flt .slabAbsent va 0 s' else .ok () s'

/-- Bytes `off` to `off` + `n` - 1 of every lane's store cleared. -/
def clearLanes (l : Vector (BitVec 8192) 256) (off n : Nat) : Vector (BitVec 8192) 256 :=
  l.map fun x => setSlice x (8 * off) (0 : BitVec (8 * n))

/-- `win.open` at its place. -/
def State.winOpen (s : State) (t : Strand) (base size off : Word) (ty : Tag) : State :=
  let b := base.toNat
  let w := size.toNat
  let l := off.toNat
  let fits := b % 8 == 0 && w % 8 == 0 && 8 ≤ w && w ≤ 256 * t.q && l % 8 == 0 && l + w ≤ 256 * t.q
  if !windowTag ty then s.put (t.soloRefused .tag)
  else if t.win.isSome then s.put (t.soloRefused .winState)
  else if !fits then s.put (t.soloRefused .winRange)
  else
    s.settleSolo t 0 0 ((s.windowByte t.qctx base).bind fun _ s1 => s1.windowByte t.qctx (base + size - 1)) fun _ s2 =>
      s2.soloEnd { t with lane := clearLanes t.lane l w, win := some ⟨base, w, l, ty⟩ } none

/-- The copies of a word folded onto its memory value, lane 0 first (R277): each addition raises its flags in the lane of the
copy it folds. R90 raises flags in active elements and R277 names no lane for its float additions. [DESIGN CHOICE, log 70] -/
def foldCopies (ty : Tag) (w m : Nat) (copies : List Nat) : Nat × List (Nat × Flags) :=
  let r := copies.foldl (fun (acc : Nat × Nat × List (Nat × Flags)) c =>
    let (x, fl) := addElem ty w .rne false acc.1 c
    (x, acc.2.1 + 1, (acc.2.1, fl) :: acc.2.2)) (m, 0, [])
  (r.1, r.2.2)

/-- The position of the entry that stands first. -/
def Strand.setPos (t : Strand) (n : Nat) : Strand :=
  match t.viq with
  | [] => t
  | e :: rest => { t with viq := { e with pos := n } :: rest }

/-- The words of a window from number `n` on: `count` of them. -/
def State.mergeWords (s : State) (wd : Window) : (count n : Nat) → Strand → State
  | 0, _, t => s.soloEnd t none
  | count + 1, n, t =>
    let w := (wd.ty.width).getD 64
    let k := w / 8
    let va := wd.base + BitVec.ofNat 64 (n * k)
    let x := (s.resolve t.qctx va k k .both (.amo false)).bind fun l s1 => s1.atHome t.qctx va l .both false
    match x with
    | .ok l s1 =>
      let off := 8 * (wd.off + n * k)
      let copies := (List.range 256).map fun i => laneGet t.lane i off w
      let (m, fl) := foldCopies wd.ty w (Memory.read s1.mem l.home k) copies
      let t1 := { t with
        lane := (List.range 256).foldl (fun a i => laneSet a i off w 0) t.lane
        lbuf := dropLines t.lbuf va (lineOf l.home) }
      (s1.writeHome l.home (leBytes k m)).mergeWords wd count (n + 1) (fl.foldl (fun u p => u.raise p.1 p.2) t1)
    | y =>
      -- the words below have been merged: the entry goes on from this one
      s.settleSolo (t.setPos n) n n y fun _ z => z

/-- `win.merge` at its place. -/
def State.winMerge (s : State) (t : Strand) (start : Nat) : State :=
  match t.win with
  | none => s.put (t.soloRefused .winState)
  | some wd =>
    let count := wd.size / ((wd.ty.width).getD 64 / 8)
    s.mergeWords wd (count - start) start t

/-- `win.close` at its place. -/
def State.winClose (s : State) (t : Strand) : State :=
  if t.win.isNone then s.put (t.soloRefused .winState) else s.put ({ t with win := none }.soloDone none)

/-! ## Copies (R278) -/

/-- The copies of a strand that have not completed (R110). -/
def State.copiesOf (s : State) (sid : Nat) : List CopyOp :=
  s.copies.filter fun c => c.owner == some sid

/-- MOVER of a strand's move (R121). -/
def State.moverOf (s : State) (t : Strand) : BitVec 32 :=
  let low := match quartersOf t.id.qmask with
    | q :: _ => q
    | [] => 0
  (0 : BitVec 4) ++ s.pkg ++ BitVec.ofNat 5 t.id.clus ++ BitVec.ofNat 5 t.id.core ++ BitVec.ofNat 2 low ++ (0 : BitVec 10)

/-- The token of a copy marked pending (R110). -/
def Strand.pending (t : Strand) (r : SReg) : Strand :=
  { t with tokp := if r = 0 then t.tokp else t.tokp ||| (1#32 <<< r.toNat) }

/-- The token of a copy that does not start, not marked (R278). -/
def Strand.unpending (t : Strand) (r : SReg) : Strand :=
  { t with tokp := if r = 0 then t.tokp else t.tokp &&& ~~~(1#32 <<< r.toNat) }

/-- A copy accepted by its engine (R110, R280). -/
def State.startCopy (s : State) (t : Strand) (rem : Remainder) : State :=
  let c : CopyOp := ⟨s.nextCid, some t.id.sid, t.id.asid, s.moverOf t, rem, none, false, none⟩
  let s1 : State := { s with copies := s.copies ++ [c], nextCid := s.nextCid + 1 }
  s1.put ((t.pending rem.token).soloDone none)

/-- The first value that is not a multiple of its alignment. -/
def misaligned : List (Word × Nat) → Option Word
  | [] => none
  | (x, a) :: t => if x.toNat % a ≠ 0 then some x else misaligned t

/-- A copy at its place: its alignments, then the start. -/
def State.copyAt (s : State) (t : Strand) (checks : List (Word × Nat)) (rem : Remainder) : State :=
  match misaligned checks with
  | some x => s.put ((t.unpending rem.token).soloFault .align x 0 0 0)
  | none => s.startCopy t rem

/-! ## The entry first in the VIQ -/

/-- A SOLO entry acts at its place. -/
def State.performSolo (s : State) (t : Strand) (e : Entry) : State :=
  let op (n : Nat) : Word := e.ops.getD n 0
  match e.i with
  | .acq _ _ sb => s.acqTest t (op 0) (op 1) (sb == 0)
  | .rel _ _ => s.put t
  | .fenceG => s.put { t with wait := .fence }
  | .fenceD => s.put { t with wait := .fence }
  | .fenceS => s.put { t with wait := .fence }
  | .barWait _ => s.barWait t (op 0)
  | .vwait a => s.vwaitStart t e a
  | .syncBind _ _ _ scope => s.bind t (op 0) (op 1) (op 2) scope
  | .syncUnbind _ => s.unbind t (op 0)
  | .barInit _ nm1 => s.barInit t (op 0) (nm1.toNat + 1)
  | .barArr _ => s.arrive t (op 0) .arr
  | .barArrRlx _ => s.arrive t (op 0) .rlx
  | .barDrop _ => s.arrive t (op 0) .drop
  | .winOpen _ _ _ ty => s.winOpen t (op 0) (op 1) (op 2) ty
  | .winMerge => s.winMerge t e.pos
  | .winClose => s.winClose t
  | .cpy a => s.copyAt t [(op 0, 8), (op 1, 8), (op 2, 8)]
      ⟨0, a.sd, op 0, op 1, (op 2).toNat, 1, 0, 0, 0, 0⟩
  | .cpy2d a => s.copyAt t [(op 0, 8), (op 1, 8), (op 2, 8), (op 4, 8), (op 5, 8)]
      ⟨1, a.sd, op 0, op 1, (op 2).toNat, (op 3).toNat, (op 2).toNat, op 4, op 5, 0⟩
  | .cpyFl a => s.copyAt t [(op 0, 128), (op 1, 4096), (op 2, 4096)]
      ⟨2, a.sd, op 0, op 1, (op 2).toNat, 1, 0, 0, 0, 0⟩
  | .cpyMove a => s.copyAt t [(op 0, 128), (op 1, 128), (op 2, 128)]
      ⟨3, a.sd, op 0, op 1, (op 2).toNat, 1, 0, 0, 0, 0⟩
  | _ => s.put t

/-- Whether a SOLO entry stands first and has not acted: `rel` acts at REL_INCREMENT. -/
def State.soloReady (s : State) (t : Strand) : Bool :=
  match t.viq with
  | [] => false
  | e :: _ =>
    !e.done && (uses e.vtype e.i).isNone && t.wait == t.otherWait && s.frontReady t
      && (match e.i with
        | .rel _ _ => false
        | _ => true)

/-- Whether `rel` stands first (R260). -/
def State.relReady (s : State) (t : Strand) : Bool :=
  match t.viq with
  | [] => false
  | e :: _ =>
    (match e.i with
      | .rel _ _ => true
      | _ => false) && s.frontReady t

/-- A head enters the VIQ as a convoy of its own, the strand changed by `mark` (R156). Where nothing older stands before it it
acts in the same step. -/
def State.enterSolo (s : State) (t : Strand) (i : Instr) (ops : List SReg) (mark : Strand → Strand) : State :=
  let e := t.entryOf i true ops
  let u := mark { t.advance with viq := t.viq ++ [e], copen := false, fresh := true }
  if t.viq.isEmpty && t.acc.isNone then s.performSolo u e else s.put u

/-- A SOLO instruction is dispatched: it closes the open convoy and waits for its registers and for room. -/
def State.dispatchSolo (i : Instr) (ops dst : List SReg) (s : State) : Out :=
  s.withCur fun t =>
    .next (if t.mustWait (ops ++ dst) || t.noRoom i then s.stallClosing t else s.enterSolo t i ops id)

end Sys2Proof.Machine
end

