-- ==== Sys2Proof/Machine/Sync.lean ====
section
/-!
DEFINITION. The SOLO instructions (R256 to R268, R275, R277, R278), the start of a convoy or of such an entry (R161), and the
events that end a wait (R231, R260 to R262, R268, R191).
-/

namespace Sys2Proof.Machine

/-! ## Sync objects, fences, bindings -/

/-- `acq` (R261). -/
def execAcq (sd sa sb : SReg) (s : State) : Out :=
  s.dispatchSolo (.acq sd sa sb) [sa, sb] [sd]

/-- `rel` (R260). -/
def execRel (sd sa : SReg) (s : State) : Out :=
  s.dispatchSolo (.rel sd sa) [sa] [sd]

/-- `fence.g` (R262). -/
def execFenceG (s : State) : Out :=
  s.dispatchSolo .fenceG [] []

/-- `fence.d` (R262). -/
def execFenceD (s : State) : Out :=
  s.dispatchSolo .fenceD [] []

/-- `fence.s` (R262). -/
def execFenceS (s : State) : Out :=
  s.dispatchSolo .fenceS [] []

/-- `sync.bind` (R259): sD is read. -/
def execSyncBind (sd sa sb : SReg) (scope : Scope) (s : State) : Out :=
  s.dispatchSolo (.syncBind sd sa sb scope) [sd, sa, sb] []

/-- `sync.unbind` (R259). -/
def execSyncUnbind (sa : SReg) (s : State) : Out :=
  s.dispatchSolo (.syncUnbind sa) [sa] []

/-! ## Barriers and flag words -/

/-- `bar.init` (R263). -/
def execBarInit (sa : SReg) (nm1 : BitVec 6) (s : State) : Out :=
  s.dispatchSolo (.barInit sa nm1) [sa] []

/-- `bar.arr` (R264). -/
def execBarArr (sa : SReg) (s : State) : Out :=
  s.dispatchSolo (.barArr sa) [sa] []

/-- `bar.arr.rlx` (R264). -/
def execBarArrRlx (sa : SReg) (s : State) : Out :=
  s.dispatchSolo (.barArrRlx sa) [sa] []

/-- `bar.drop` (R264, R265). -/
def execBarDrop (sa : SReg) (s : State) : Out :=
  s.dispatchSolo (.barDrop sa) [sa] []

/-- `bar.wait` (R266). -/
def execBarWait (sa : SReg) (s : State) : Out :=
  s.dispatchSolo (.barWait sa) [sa] []

/-- `vwait` (R268). -/
def execVwait (a : Vwait) (s : State) : Out :=
  s.dispatchSolo (.vwait a) [a.sb] [a.sd]

/-! ## Windows -/

/-- `win.open` (R275). -/
def execWinOpen (sa sb sc : SReg) (ty : Tag) (s : State) : Out :=
  s.dispatchSolo (.winOpen sa sb sc ty) [sa, sb, sc] []

/-- `win.merge` (R277). -/
def execWinMerge (s : State) : Out :=
  s.dispatchSolo .winMerge [] []

/-- `win.close` (R277). -/
def execWinClose (s : State) : Out :=
  s.dispatchSolo .winClose [] []

/-! ## Copies -/

/-- Whether an instruction is a copy. -/
def isCopy (i : Instr) : Bool :=
  match i with
  | .cpy _ | .cpy2d _ | .cpyFl _ | .cpyMove _ => true
  | _ => false

/-- The copies of a strand that have been dispatched and have not completed (R110). -/
def State.unfinished (s : State) (t : Strand) : Nat :=
  (s.copiesOf t.id.sid).length + (t.viq.filter fun e => isCopy e.i).length

/-- A copy is dispatched and its token is pending from then on; it stalls while its strand holds 32 unfinished ones (R110) and
behind an access that has not delivered (R165). -/
def State.dispatchCopy (i : Instr) (ops : List SReg) (token : SReg) (s : State) : Out :=
  s.withCur fun t =>
    .next (if t.mustWait (ops ++ [token]) || t.noRoom i then s.stallClosing t
      else if t.acc.isSome || s.unfinished t ≥ Config.maxCopies then s.stall t
      else s.enterSolo t i ops fun u => u.pending token)

/-- `cpy` (R278). -/
def execCpy (a : Cpy) (s : State) : Out :=
  s.dispatchCopy (.cpy a) [a.sa, a.sb, a.sc] a.sd

/-- `cpy.2d` (R278). -/
def execCpy2d (a : Cpy2d) (s : State) : Out :=
  s.dispatchCopy (.cpy2d a) [a.sa, a.sb, a.sc, a.se, a.sf, a.sg] a.sd

/-- `cpy.fl` (R278). -/
def execCpyFl (a : Cpy) (s : State) : Out :=
  s.dispatchCopy (.cpyFl a) [a.sa, a.sb, a.sc] a.sd

/-- `cpy.move` (R278). -/
def execCpyMove (a : Cpy) (s : State) : Out :=
  s.dispatchCopy (.cpyMove a) [a.sa, a.sb, a.sc] a.sd

/-! ## CONVOY_START -/

/-- Whether the gang of a strand is being saved (R383). -/
def State.beingSaved (s : State) (t : Strand) : Bool :=
  (s.gang t.id.handle).any fun g => g.state == .saving

/-- CONVOY_START (R161): the closed convoy that stands first is performed, or the SOLO entry that stands first acts, at
first or again after a service or a resume. -/
def execConvoyStart (sid : Nat) (s : State) : Out :=
  match s.strand sid with
  | none => .next s
  | some t =>
    match t.viq with
    | [] => .next s
    | e :: _ =>
      .next (if s.convoyReady t then s.runConvoy t none (s.beingSaved t) else if s.soloReady t then s.performSolo t e else s)

/-! ## Ends of waits -/

/-- REL_INCREMENT (R260): every older write of the strand is visible, since an access is performed whole at its home; the
object is raised there, in a beat that the allowance lets the die use (R413). -/
def execRelIncrement (sid : Nat) (s : State) : Out :=
  match s.strand sid with
  | none => .next s
  | some t =>
    .next (if s.relReady t && s.issues (dieOf t.id.pclus) then s.relRaise t (((t.viq.head?).map fun e => e.ops.getD 0 0).getD 0)
      else s)

/-- ACQ_SATISFIED (R261): a waiting `acq` tests its object again. -/
def execAcqSatisfied (sid : Nat) (s : State) : Out :=
  match s.strand sid with
  | none => .next s
  | some t =>
    if !s.frontReady t then .next s
    else
      match t.wait with
      | .object obj target => .next (s.acqTest t obj target false)
      | _ => .next s

/-- The `vwait` a strand waits in: its entry and its words. -/
def Strand.vwaiting (t : Strand) : Option (Vwait × Entry × List (Nat × Word × Word) × Nat) :=
  match t.wait, t.viq with
  | .flags words left, e :: _ =>
    match e.i with
    | .vwait a => some (a, e, words, left)
    | _ => none
  | _, _ => none

/-- VWAIT_MET (R268): the watched words are tested; with every active one met `vwait` delivers MET. -/
def execVwaitMet (sid : Nat) (s : State) : Out :=
  match s.strand sid with
  | none => .next s
  | some t =>
    if !s.frontReady t then .next s
    else
      match t.vwaiting with
      | none => .next s
      | some (a, e, words, left) =>
        -- an unmet word leaves the wait as it stands
        .next (match (s.readWords t.qctx words []).2 with
          | .ok vals _ =>
            if (unmet words vals).isEmpty then s.vwaitTest t a e.vl e.vtype words (left + 1) else s.put { t with held := none }
          | _ => s.vwaitTest t a e.vl e.vtype words (left + 1))

/-- VWAIT_TIMEOUT (R268): no beat is left and a word is unmet. -/
def execVwaitTimeout (sid : Nat) (s : State) : Out :=
  match s.strand sid with
  | none => .next s
  | some t =>
    if !s.frontReady t then .next s
    else
      match t.vwaiting with
      | some (a, e, words, 0) => .next (s.vwaitTest t a e.vl e.vtype words 0)
      | _ => .next s

/-- FENCE_COMPLETE (R262): every older access has been performed at its home, where every agent sees it; the line-buffer
part is invalidated. -/
def execFenceComplete (sid : Nat) (s : State) : Out :=
  match s.strand sid with
  | none => .next s
  | some t =>
    if !s.frontReady t || t.acc.isSome then .next s
    else
      match t.wait with
      | .fence => .next (s.put ({ t with lbuf := [], ibuf := [] }.soloDone none))
      | _ => .next s

/-- What a strand receives from a peer's offer (R231): the peer's elements, free where the widths differ (log 17). -/
def receive (ctr : Nat) (mine peer : Xoffer) : Xdone :=
  ⟨0, peer.tag,
    if mine.ew = peer.ew then peer.data else (List.range peer.vl).map fun e => Config.mixedExchange ctr e⟩

/-- VXCH_MATCH (R231): two offers that name each other with one key meet, and each strand receives the other's data. -/
def execVxchMatch (sid sid' : Nat) (s : State) : Out :=
  match s.strand sid, s.strand sid' with
  | some t, some u =>
    match t.xch, u.xch with
    | .offered o, .offered p =>
      if t.id.handle == u.id.handle && o.peer == u.id.tid && p.peer == t.id.tid && o.key == p.key
          && t.status != .struck && u.status != .struck then
        let ctr := s.freeCtr
        let s1 := (s.put { t with xch := .ended (receive ctr o p) }).put { u with xch := .ended (receive (ctr + 1) p o) }
        .next { s1 with freeCtr := ctr + 2 }
      else .next s
    | _, _ => .next s
  | _, _ => .next s

/-- VXCH_TIMEOUT (R231): an offer unmatched for 2,048 beats is withdrawn. -/
def execVxchTimeout (sid : Nat) (s : State) : Out :=
  match s.strand sid with
  | none => .next s
  | some t =>
    match t.xch with
    | .offered o =>
      if s.tick - o.since ≥ Config.exchangeBeats then .next (s.put { t with xch := .ended ⟨1, .raw, []⟩ }) else .next s
    | _ => .next s

/-! ## qdrain (R191) -/

/-- NTASK of a card (R366). -/
def cardTasks (c : BitVec 1024) : Nat := fieldNat c 768 32

/-- Whether a queue is open to an address space (R191, R421). -/
def State.queueOpen (s : State) (asid : BitVec 16) (q : Nat) : Bool :=
  s.queues.any fun x => x.num == q && x.asid == asid

/-- Whether a queue holds no unfinished task but the strand's own (R191). -/
def State.queueDrained (s : State) (t : Strand) (q : Nat) : Bool :=
  let own := (s.gang t.id.handle).map Gang.card
  s.cards.all fun c =>
    c.queue != q || cardTasks c.bits - c.done ≤ (if own = some c.cid then 1 else 0)

/-- `qdrain`: NO_QUEUE at once, or the strand waits; a wait that need not last ends at QDRAIN_COMPLETE. -/
def execQdrain (sd sa : SReg) (s : State) : Out :=
  s.withCur fun t =>
    .next (if t.mustWait [sd, sa] then s.waitFor t [sd, sa]
      else if t.acc.isSome then s.stall t
      else
        let q := (t.getS sa).toNat
        if s.queueOpen t.id.asid q then s.put { t.advance with wait := .queue q sd } else s.put (t.setS sd 2).advance)

/-- QDRAIN_COMPLETE (R191): the queue holds no unfinished task; the line-buffer part is invalidated, then OK delivered. -/
def execQdrainComplete (sid : Nat) (s : State) : Out :=
  match s.strand sid with
  | none => .next s
  | some t =>
    match t.wait with
    | .queue q sd =>
      if t.status == .running && s.queueDrained t q then .next (s.put { t.setS sd 0 with lbuf := [], wait := .none })
      else .next s
    | _ => .next s

end Sys2Proof.Machine
end

