-- ==== Sys2Proof/Machine/Forward.lean ====
section
/-!
DEFINITION. Class S of major 0x7D to 0x7F (R281 to R283): tokens, forwarding instructions (R131 to R137), hints; and heads
that cannot run (R152, R162).
-/

namespace Sys2Proof.Machine

/-- `tok.poll` (R281): whether sA is pending, without waiting for it. -/
def execTokPoll (sd sa : SReg) (s : State) : Out :=
  s.scalarTo sd [] fun t => if t.isPending sa then 1 else 0

/-- `tier.hint` (R283, R116): advice the tier manager may ignore; nothing changes but the registers' waits. -/
def execTierHint (sa sb : SReg) (_tier : Tier) (s : State) : Out :=
  s.scalar [sa, sb] id

/-- A forwarding instruction (R282): it waits for its registers and for an access that has not delivered (R165). At a line in
move, or one that redirects still, it is in progress and completes before a save (R197). -/
def State.forwarding {α : Type} (s : State) (regs : List SReg) (x : Strand → Res α) (f : Strand → α → State → State) : Out :=
  s.withCur fun t =>
    let u := { t with busy := false }
    .next (if t.mustWait regs then s.waitFor t regs
      else (s.behindAccess t).getD
        (s.settle u (x t) (fun l => s.put { s.holdHead t l with busy := true }) (f u)))

/-- `fwd.res` (R131). -/
def execFwdRes (sd sa : SReg) (s : State) : Out :=
  s.forwarding [sd, sa] (fun t => s.resolveVa t.ctx (t.getS sa)) fun t va s' => s'.put (t.setS sd va).advance

/-- 0, 1 or -1 as the first of two addresses is equal, greater or smaller, unsigned (R132). -/
def compareVa (x y : Word) : Word :=
  if x = y then 0 else if y.ult x then 1 else BitVec.allOnes 64

/-- Two pointers resolved, one after the other; one on a slab, host or flash page stands for itself (R282). -/
def State.resolvePair (s : State) (c : Ctx) (x y : Word) : Res (Word × Word) :=
  (s.resolveVa c x).bind fun a s1 => (s1.resolveVa c y).bind fun b s2 => .ok (a, b) s2

/-- `fwd.cmp` (R132). -/
def execFwdCmp (sd sa sb : SReg) (s : State) : Out :=
  s.forwarding [sd, sa, sb] (fun t => s.resolvePair t.ctx (t.getS sa) (t.getS sb)) fun t p s' =>
    s'.put (t.setS sd (compareVa p.1 p.2)).advance

/-- How `fwd.stat` stopped: hops, the state of the last line, ASIDX, TSTOP (R133). -/
structure ChainEnd where
  hops  : Nat
  last  : BitVec 2
  asidx : Bool
  tstop : Bool
  deriving DecidableEq, Repr

/-- The chain of a line as `fwd.stat` follows it (R133): a record it cannot follow ends it without a fault. -/
def State.statChain (s : State) (c : Ctx) (addr : Word) : (fuel hops : Nat) → (va : Word) → TlbEntry → Res ChainEnd
  | 0, hops, _, _ => .ok ⟨hops, 2, false, false⟩ s
  | fuel + 1, hops, va, e =>
    let l := lineOf (entryHome e (va52 va))
    if s.soft.contains l then .soft l s
    else if s.closed l then .held l s
    else if s.lineState l ≠ some .forwarded then .ok ⟨hops, stateCode (s.lineState l), false, false⟩ s
    else
      let r := s.lineRecord l
      if recAsid r ≠ c.asid then .ok ⟨hops, 2, true, false⟩ s
      else if hops = 3 then .ok ⟨hops, 2, false, false⟩ s
      else
        let va' := recTarget r ||| (va &&& 127)
        match s.translate c addr (va52 va') .read with
        | .ok e' s' =>
          if hasLines (pteAttr e'.pte) then s'.statChain c addr fuel (hops + 1) va' e'
          else .ok ⟨hops, 2, false, true⟩ s'
        | .flt _ _ _ s' => .ok ⟨hops, 2, false, true⟩ s'
        | .wait w => .wait w
        | .held l w => .held l w
        | .soft l w => .soft l w

/-- The value of `fwd.stat` (R133). -/
def statWord (st : Option LineState) (r : BitVec 128) (e : ChainEnd) : Word :=
  let fwd := st == some LineState.forwarded
  let mover : BitVec 32 := if fwd then recMover r else 0
  let count : BitVec 16 := if fwd then recCount r else 0
  (0#8 ++ mover ++ count ++ BitVec.ofBool e.tstop ++ BitVec.ofBool e.asidx ++ e.last ++ BitVec.ofNat 2 e.hops
    ++ stateCode st : BitVec 64)

/-- `fwd.stat` of an address (R133, R282). -/
def State.statOf (s : State) (c : Ctx) (va : Word) : Res Word :=
  (s.requested c va 1 1 .read).bind fun e s' =>
    if !hasLines (pteAttr e.pte) then .ok 0 s'
    else
      let l := lineOf (entryHome e (va52 va))
      (s'.statChain c va 4 0 va e).bind fun x s2 => .ok (statWord (s'.lineState l) (s'.lineRecord l) x) s2

/-- `fwd.stat`. -/
def execFwdStat (sd sa : SReg) (s : State) : Out :=
  s.forwarding [sd, sa] (fun t => s.statOf t.ctx (t.getS sa)) fun t x s' => s'.put (t.setS sd x).advance

/-- The end of a chain beyond the hop limit (R134): the first line that is not forwarded, at most 64 hops on. -/
def State.farEnd (s : State) (c : Ctx) (addr : Word) : (fuel : Nat) → (va : Word) → TlbEntry → Res Word
  | fuel, va, e =>
    let l := lineOf (entryHome e (va52 va))
    if s.closed l then s.shut l
    else if s.lineState l ≠ some .forwarded then .ok (lineVa va) s
    else if s.soft.contains l then .soft l s
    else
      let r := s.lineRecord l
      if recAsid r ≠ c.asid then .flt .fwdAsid addr (lineVa addr) s
      else
        match fuel with
        | 0 => .flt .fwdChain addr (lineVa addr) s
        | fuel + 1 =>
          let va' := recTarget r
          (s.translate c addr (va52 va') .read).bind fun e' s' =>
            if hasLines (pteAttr e'.pte) then s'.farEnd c addr fuel va' e' else .flt .fwdTarget addr (lineVa addr) s'

/-- `fwd.relink` of a line (R134): its record names the end of its chain, with MCOUNT 1. -/
def State.relink (s : State) (c : Ctx) (va : Word) : Res Unit :=
  (s.requested c va 1 1 .write).bind fun e s' =>
    if !hasLines (pteAttr e.pte) then .ok () s'
    else
      let l := lineOf (entryHome e (va52 va))
      if s'.closed l then s'.shut l
      else match s'.lineState l with
      | some .inMove => .held l s'
      | some .forwarded =>
        (s'.farEnd c va Config.relinkHops va e).bind fun t s2 =>
          let r := s2.lineRecord l
          .ok () (s2.setLineData l (fwdRecord 1 (recMover r) (recAsid r) t))
      | _ => .ok () s'

/-- `fwd.relink`. -/
def execFwdRelink (sa : SReg) (s : State) : Out :=
  s.forwarding [sa] (fun t => s.relink t.ctx (t.getS sa)) fun t _ s' => s'.put t.advance

/-- `fwd.clear` of a line (R136): the page's reclaim bit is checked before the line's state, but on a slab, host or flash
page; the line waits for the requests it has redirected, then is plain with every byte 0. -/
def State.clearLine (s : State) (c : Ctx) (va : Word) : Res Unit :=
  if !canonical va then .flt .addr va 0 s
  else
    (s.translate c va (va52 va) .any).bind fun e s' =>
      if !hasLines (pteAttr e.pte) then .ok () s'
      else
        (s'.translate c va (va52 va) .reclaim).bind fun e s2 =>
          let l := lineOf (entryHome e (va52 va))
          if s2.closed l then s2.shut l
          else match s2.lineState l with
          | some .inMove => .held l s2
          | some .forwarded =>
            if (Cells.find s2.redirects l).isSome || s2.awaited c.asid l then .held l s2 else .ok () ((s2.setLineData l 0).setLine l .plain)
          | _ => .ok () s2

/-- `fwd.clear`. -/
def execFwdClear (sa : SReg) (s : State) : Out :=
  s.forwarding [sa] (fun t => s.clearLine t.ctx (t.getS sa)) fun t _ s' => s'.put t.advance

/-! ## Heads that do not run -/

/-- ILLEGAL_HEAD (R162): the head at the PC stops dispatch; once everything older has completed the strand traps there. -/
def execIllegalHead (cause : Cause) (s : State) : Out :=
  s.withCur fun t => .next (s.scalarTrap t cause 0 0 0)

/-- INSTRUCTION_FETCH_FAULT (R152): the line at the PC cannot be fetched. -/
def execInstructionFetchFault (cause : Cause) (addr value : Word) (s : State) : Out :=
  s.withCur fun t => .next (s.scalarTrap t cause addr value 0)

end Sys2Proof.Machine
end

