-- ==== Sys2Proof/Machine/Copies.lean ====
section
/-!
DEFINITION. Copies in progress (R110 to R114, R279, R280), moves line by line (R127 to R129), the tier manager's moves (R117).
-/

namespace Sys2Proof.Machine

/-! ## Completion values (R111, R112) -/

/-- The completion value of a failed copy: COUNT and CAUSE. -/
def copyValue (count cause : Nat) : Word :=
  (BitVec.ofNat 48 count ++ 0#8 ++ BitVec.ofNat 8 cause : BitVec 64)

/-- CAUSE of a fault at the source (R112). -/
def srcCause (c : Cause) : Nat :=
  if c == .check then 3 else if isForwardCause c then 7 else 1

/-- CAUSE of a fault at the destination (R112). -/
def dstCause (c : Cause) : Nat :=
  if isForwardCause c then 7 else 2

/-- The access context of a copy. -/
def CopyOp.ctx (c : CopyOp) : Ctx :=
  ⟨.copy c.cid, c.asid, 4⟩

/-- A copy replaced. -/
def State.setCopy (s : State) (c : CopyOp) : State :=
  { s with copies := updWhere s.copies (fun x => x.cid == c.cid) fun _ => c }

/-- A token written in a strand's registers, and in its record where it waits at a trap (R110, R341). -/
def Strand.tokenWritten (t : Strand) (r : SReg) (x : Word) : Strand :=
  if r = 0 then t
  else
    let clear (m : BitVec 32) : BitVec 32 := m &&& ~~~(1#32 <<< r.toNat)
    { t.deliver r x with
      tokp := clear t.tokp
      record := t.record.map fun k => { k with s := k.s.set r.toNat x r.isLt, tokp := clear k.tokp } }

/-- A copy ends with its completion value. -/
def State.endCopy (s : State) (c : CopyOp) (x : Word) : State :=
  { s.endSvc (.copy c.cid) with
    copies := s.copies.filter fun k => k.cid != c.cid
    strands := updWhere s.strands (fun t => c.owner == some t.id.sid) fun t => t.tokenWritten c.rem.token x }

/-- The owner's line buffer without the lines a copy writes: its writes become the strand's stores (R113, R280). -/
def State.dropOwnLines (s : State) (c : CopyOp) (va : Word) (home : Nat) : State :=
  { s with strands := updWhere s.strands (fun t => c.owner == some t.id.sid) fun t =>
      { t with lbuf := dropLines t.lbuf va home } }

/-- A copy that waits at a line, since the first beat it did so (R128, R416). -/
def CopyOp.heldAt (c : CopyOp) (s : State) (line : Nat) : CopyOp :=
  { c with held := some (line, match c.held with
      | some (l, since) => if l = line then since else s.tick
      | none => s.tick) }

/-- The gang of a copy's owner met a soft error by an access or a walk of the copy (R361): the owner is struck and the copy
goes no further. -/
def State.strikeOwner (s : State) (c : CopyOp) : State :=
  { s.endSvc (.copy c.cid) with
    strands := updWhere s.strands (fun t => c.owner == some t.id.sid) fun t => { t with status := .struck }
    copies := if c.owner.isSome then updWhere s.copies (fun x => x.cid == c.cid) fun _ => { c with stalled := true }
      else s.copies.filter fun x => x.cid != c.cid }

/-! ## Reading a block -/

/-- What a block read gives: the bytes before the first that fails, and how it ended; `struck` is a walk that met a soft error
(R361). -/
inductive Piece where
  | all (bs : List Byte) (s : State)
  | cut (bs : List Byte) (cause : Nat) (s : State)
  | wait (s : State)
  | held (line : Nat) (s : State)
  | struck (s : State)

/-- A piece whose resolution has met a soft error: at a source line it is CHECK, on a walk it strikes the owner (R112, R361). -/
def State.softPiece (s : State) (line : Nat) : Piece :=
  if s.lineState line = some .forwarded then .cut [] 3 s else .struck s

/-- A piece of a source inside one line: an ordinary source is resolved as for a load (R122), a flash source names its
drive's block (R279, R394). -/
def State.readPiece (s : State) (c : CopyOp) (va : Word) (n : Nat) : Piece :=
  if c.rem.form = 2 then
    match s.requested c.ctx va n 1 .read with
    | .ok e s1 =>
      if pteAttr e.pte ≠ attrFlash then .cut [] 1 s1
      else
        let h := entryHome e (va52 va)
        if s1.soft.contains (lineOf h) then .cut [] 4 s1 else .all (Memory.bytes s1.mem h n) s1
    | .flt k _ _ s1 => .cut [] (srcCause k) s1
    | .wait w => .wait w
    | .held l w => .held l w
    | .soft _ s1 => .struck s1
  else
    match s.resolve c.ctx va n 1 .read .data with
    | .flt k _ _ s1 => .cut [] (srcCause k) s1
    | .wait w => .wait w
    | .held l w => .held l w
    | .soft l s1 => s1.softPiece l
    | .ok l s1 =>
      match s1.atHome c.ctx va l .read false with
      | .ok l s2 => .all (Memory.bytes s2.mem l.home n) s2
      | .flt k _ _ s2 => .cut [] (srcCause k) s2
      | .wait w => .wait w
      | .held l w => .held l w
      | .soft _ s2 => .cut [] 3 s2

/-- The `n` bytes of a source from `va`, at most 128: they lie in at most two lines. -/
def State.readBlock (s : State) (c : CopyOp) (va : Word) (n : Nat) : Piece :=
  let first := min n (128 - va.toNat % 128)
  match s.readPiece c va first with
  | .all bs s1 =>
    if n ≤ first then .all bs s1
    else
      match s1.readPiece c (va + BitVec.ofNat 64 first) (n - first) with
      | .all cs s2 => .all (bs ++ cs) s2
      | .cut _ k s2 => .cut bs k s2
      | p => p
  | p => p

/-! ## Blocks (R279) -/

/-- How far a copy got. -/
inductive Progress where
  | done (s : State)
  | wait (c : CopyOp) (s : State)
  | struck (c : CopyOp) (s : State)
  | fail (count cause : Nat) (s : State)

/-- The remainder past `n` bytes of its row; a finished row of `cpy.2d` is followed by the next. -/
def Remainder.past (r : Remainder) (n : Nat) : Remainder :=
  let r1 := { r with
    ndst := r.ndst + BitVec.ofNat 64 n
    nsrc := r.nsrc + BitVec.ofNat 64 n
    left := r.left - n
    done := r.done + n }
  if r1.left ≠ 0 then r1
  else
    { r1 with
      ndst := r1.ndst - BitVec.ofNat 64 r.rowb + r.dstr
      nsrc := r1.nsrc - BitVec.ofNat 64 r.rowb + r.sstr
      left := r.rowb
      rows := r.rows - 1 }

/-- The bytes of a block written at its destination. -/
def State.writeBlock (s : State) (c : CopyOp) (bs : List Byte) : Res State :=
  (s.resolve c.ctx c.rem.ndst bs.length 1 .write .data).bind fun l s1 =>
    (s1.atHome c.ctx c.rem.ndst l .write (bs.length == 128)).bind fun l s2 =>
      let s3 := (s2.writeHome l.home bs).dropOwnLines c c.rem.ndst (lineOf l.home)
      .ok { s3 with soft := if bs.length = 128 then s3.soft.erase (lineOf l.home) else s3.soft } s3

/-- The blocks of a copy, from its remainder on: each destination block is read whole, then written. -/
def State.copyBlocks : (fuel : Nat) → (s : State) → CopyOp → Progress
  | 0, s, c => .wait c s
  | fuel + 1, s, c =>
    if c.rem.rows = 0 ∨ c.rem.left = 0 then .done s
    else
      let n := min c.rem.left (128 - c.rem.ndst.toNat % 128)
      let write (bs : List Byte) (s1 : State) (f : State → Progress) : Progress :=
        match s1.writeBlock c bs with
        | .ok s2 _ => f s2
        | .flt k _ _ s2 => .fail c.rem.done (dstCause k) s2
        | .wait w => .wait c w
        | .held l w => .wait (c.heldAt w l) w
        | .soft _ s2 => .struck c s2
      match s.readBlock c c.rem.nsrc n with
      | .wait w => .wait c w
      | .held l w => .wait (c.heldAt w l) w
      | .struck s1 => .struck c s1
      | .all bs s1 => write bs s1 fun s2 => State.copyBlocks fuel s2 { c with rem := c.rem.past n, held := none }
      | .cut [] k s1 => .fail c.rem.done k s1
      | .cut bs k s1 => write bs s1 fun s2 => .fail (c.rem.done + bs.length) k s2

/-- Enough blocks for a remainder. -/
def Remainder.blocks (r : Remainder) : Nat :=
  r.left / 128 + 3 + r.rows * (r.rowb / 128 + 3)

/-- Whether a copy's engine may go on: nothing holds it, and its gang is not being saved (R114). -/
def State.copyReady (s : State) (c : CopyOp) : Bool :=
  !c.stalled && !s.waitsService (.copy c.cid)
    && (match c.owner with
      | none => true
      | some sid =>
        match s.strand sid with
        | none => false
        | some t => s.gangs.any fun g => g.handle == t.id.handle && g.state == .running)

/-- COPY_COMPLETION (R111): a copy runs to its end, or to where it must wait, and its completion value goes into its
token; a move completes once its last line has committed. -/
def execCopyCompletion (cid : Nat) (s : State) : Out :=
  match s.copies.find? fun c => c.cid == cid with
  | none => .next s
  | some c =>
    if !s.copyReady c then .next s
    else if c.rem.form = 3 then
      .next (if c.moving.isNone && c.rem.left == 0 then s.endCopy c 0 else s)
    else
      .next (match State.copyBlocks c.rem.blocks s c with
        | .done s1 => s1.endCopy c 0
        | .fail n k s1 => s1.endCopy c (copyValue n k)
        | .struck c1 s1 => s1.strikeOwner c1
        | .wait c1 s1 => s1.setCopy { c1 with stalled := true })

/-! ## Moves (R127 to R129) -/

/-- The source line of a move back to plain, and what it held served (R128). -/
def State.unmark (s : State) (c : CopyOp) : State :=
  match c.moving with
  | some m => (s.setLine m.src .plain).serveHeld m.src
  | none => s

/-- A failed move: no line stays in move. -/
def State.failMove (s : State) (c : CopyOp) (cause : Nat) : State :=
  (s.endCopy c (copyValue c.rem.done cause)).unmark c

/-- A move that must wait for a service. -/
def State.holdCopy (s w : State) (c : CopyOp) : State :=
  (s.keepWait w).setCopy { c with stalled := true }

/-- A move that waits at a line (R128, R416). -/
def State.holdCopyAt (s w : State) (c : CopyOp) (line : Nat) : State :=
  (s.keepWait w).setCopy { c.heldAt s line with stalled := true }

/-- A move whose walk has met a soft error (R361): its owner is struck and no line stays in move. -/
def State.strikeMove (s : State) (c : CopyOp) : State :=
  (s.strikeOwner { c with moving := none }).unmark c

/-- The destination line of a move: its page must carry line state, whatever else it would fault with (R112, R127). -/
def State.moveTarget (s : State) (c : CopyOp) : Res (Option Nat) :=
  (s.requested c.ctx c.rem.ndst 128 1 .any).bind fun e s1 =>
    if !hasLines (pteAttr e.pte) then .ok none s1
    else
      (s1.translate c.ctx c.rem.ndst (va52 c.rem.ndst) .write).bind fun e' s2 =>
        .ok (some (lineOf (entryHome e' (va52 c.rem.ndst)))) s2

/-- The source line of a move: the final line of its chain and the hops to it; none where a page carries no line state. -/
def State.moveSource (s : State) (c : CopyOp) : Res (Option Loc) :=
  (s.requested c.ctx c.rem.nsrc 128 1 .any).bind fun e s1 =>
    if !hasLines (pteAttr e.pte) then .ok none s1
    else
      (s1.translate c.ctx c.rem.nsrc (va52 c.rem.nsrc) .read).bind fun e' s2 =>
        (s2.chase c.ctx c.rem.nsrc .read 4 0 c.rem.nsrc e').bind fun l s3 => .ok (some l) s3

/-- MOVE_LINE_MARK (R127, R128): the source is resolved, the destination's page checked, the source line set in-move; a
line already in move is waited for. -/
def execMoveLineMark (cid : Nat) (s : State) : Out :=
  match s.copies.find? fun c => c.cid == cid with
  | none => .next s
  | some c =>
    if !s.copyReady c || c.rem.form != 3 || c.moving.isSome || c.rem.left == 0 then .next s
    else
      .next (match s.moveSource c with
        | .wait w => s.holdCopy w c
        | .held l w => s.holdCopyAt w c l
        | .soft l s1 => if s1.lineState l = some .forwarded then s1.failMove c 3 else s1.strikeMove c
        | .flt k _ _ s1 => s1.failMove c (srcCause k)
        | .ok none s1 => s1.failMove c 6
        | .ok (some l) s1 =>
          match s1.atHome c.ctx c.rem.nsrc l .read false with
          | .wait w => s.holdCopy w c
          | .held l w => s.holdCopyAt w c l
          | .soft _ s2 => s2.failMove c 3
          | .flt k _ _ s2 => s2.failMove c (srcCause k)
          | .ok l s2 =>
            if l.st = some .inMove then s.holdCopyAt s2 c (lineOf l.home)
            else
              match s2.moveTarget c with
              | .wait w => s.holdCopy w c
              | .held l w => s.holdCopyAt w c l
              | .soft _ s3 => s3.strikeMove c
              | .flt k _ _ s3 => s3.failMove c (dstCause k)
              | .ok none s3 => s3.failMove c 6
              | .ok (some _) s3 =>
                (s3.setLine (lineOf l.home) .inMove).setCopy
                  { c with moving := some ⟨lineOf l.home, l.hops⟩, held := none })

/-- Line buffers without the lines that came from a home line (R19, R126: a moved line is reached by two addresses). -/
def State.forgetLine (s : State) (home : Nat) : State :=
  { s with strands := s.strands.map fun t => { t with lbuf := t.lbuf.filter fun b => b.home != home } }

/-- MOVE_LINE_COMMIT (R128): the destination must be plain; it receives the source's data, whole, so that a soft error there is
gone (R361), the source its record; what the source held is released as redirects. -/
def execMoveLineCommit (cid : Nat) (s : State) : Out :=
  match s.copies.find? fun c => c.cid == cid with
  | none => .next s
  | some c =>
    match c.moving with
    | none => .next s
    | some m =>
      if c.stalled || s.waitsService (.copy cid) then .next s
      else
        .next (match s.moveTarget c with
          | .wait w => s.holdCopy w c
          | .held l w => s.holdCopyAt w c l
          | .soft _ s1 => s1.strikeMove c
          | .flt k _ _ s1 => s1.failMove c (dstCause k)
          | .ok none s1 => s1.failMove c 6
          | .ok (some d) s1 =>
            if s1.offline d || s1.unreachable d then s.holdCopyAt s1 c d
            else if s1.lineState d ≠ some .plain then s1.failMove c 5
            else
              let s2 := { s1.setLineData d (s1.lineData m.src) with soft := s1.soft.erase d }
              let r := fwdRecord (BitVec.ofNat 16 (min (m.hops + 1) 65535)) c.mover c.asid c.rem.ndst
              let s3 := ((s2.setLineData m.src r).setLine m.src .forwarded).forgetLine m.src
              let c1 := { c with
                moving := none
                held := none
                rem := { c.rem with
                  ndst := c.rem.ndst + 128, nsrc := c.rem.nsrc + 128, left := c.rem.left - 128, done := c.rem.done + 128 } }
              ((s3.dropOwnLines c c.rem.ndst d).setCopy c1).releaseHeld m.src)

/-! ## Moves of the supervisor (R117, R121) -/

/-- Whether the placement map fixes a byte of the lines that hold an object: the tier manager never moves it (R116, R311). -/
def State.placed (s : State) (asid : BitVec 16) (va : Word) (len : Nat) : Bool :=
  let lines := (va.toNat % 128 + len + 127) / 128
  s.placement.any fun p => p.asid == asid && rangesMeet (va52 p.base) p.len (va52 va / 128 * 128) (128 * lines)

/-- TIER_MANAGER_MOVE: every line that holds a byte of the object is moved, with MOVER kind 1, or kind 2 where another service
of the supervisor moves it (R117, R121). In minimal mode neither acts (R408). -/
def execTierManagerMove (asid : BitVec 16) (src dst : Word) (len : Nat) (mover : Mover) (s : State) : Out :=
  let lines := (src.toNat % 128 + len + 127) / 128
  let rem : Remainder := ⟨3, 0, lineVa dst, lineVa src, 128 * lines, 1, 0, 0, 0, 0⟩
  let kind : BitVec 4 := if mover.other then 2 else 1
  .next (if s.boot.minimal || !mover.other && s.placed asid src len then s
    else { s with
      copies := s.copies ++ [⟨s.nextCid, none, asid, (kind ++ mover.id : BitVec 32), rem, none, false, none⟩]
      nextCid := s.nextCid + 1 })

/-! ## Copies of a gang that stops -/

/-- The copies of these strands dropped: what they have written stays, and no line stays in move (R362, R404). -/
def State.dropCopies (s : State) (sids : List Nat) : State :=
  let mine (c : CopyOp) : Bool := c.owner.any fun o => sids.contains o
  let s1 := (s.copies.filter mine).foldl (fun a c => (a.endSvc (.copy c.cid)).unmark c) s
  { s1 with copies := s1.copies.filter fun c => !mine c }

end Sys2Proof.Machine
end

