-- ==== Sys2Proof/Machine/Cards.lean ====
section
/-!
DEFINITION. Accesses from outside the strands, event records (R417), submission pages and their rings (R363, R365), job cards
(R364, R366 to R368, R370), queues and offers (R32 to R34, R371 to R373, R421), `sys.call` and `task.post` (R190 to R193).
-/

namespace Sys2Proof.Machine

/-! ## Accesses from outside -/

/-- The submission page of an address space (R363). -/
def State.page (s : State) (asid : BitVec 16) : Option Page :=
  s.pages.find? fun p => p.asid == asid

/-- The partition an address space belongs to (R421). -/
def State.partOf (s : State) (asid : BitVec 16) : BitVec 2 :=
  ((s.page asid).map Page.part).getD 0

/-- The access context of the scheduler, the supervisor, the host and the engines in an address space: they act for its
partition, and what they wait for keeps no other partition waiting (R24). -/
def State.outsideCtx (s : State) (asid : BitVec 16) : Ctx :=
  ⟨.outside (s.partOf asid).toNat, asid, 4⟩

/-- The key of an access through the host's memory window: one for each line, so that an access that waits holds back no access to
another line, whose partition may be another (R24). -/
def hostKey (line : Nat) : Nat := 16 + line

/-- The key of the supervisor's waits for the accesses of a partition (R24). -/
def waitKey (part : BitVec 2) : Nat := 4 + part.toNat

/-- Whether an access of a key waits for the rest of the tick. -/
def State.blockedOn (s : State) (key : Nat) : Bool :=
  s.blocked.contains key

/-- The access of a key over: nothing of it waits. -/
def State.outsideDone (s : State) (key : Nat) : State :=
  { s.endSvc (.outside key) with outHeld := s.outHeld.filter fun x => x.1 != key }

/-- An access of a key that waits at a line, since the first beat it did so (R399, R416). -/
def State.outsideHeld (s : State) (key line : Nat) : State :=
  let since := match s.outHeld.find? fun x => x.1 == key with
    | some (_, l, b) => if l = line then b else s.tick
    | none => s.tick
  { s with outHeld := (key, line, since) :: s.outHeld.filter fun x => x.1 != key }

/-- What an event does with an access from outside: done; faulted; or it waits, and the event is made again. A soft error
stands for a fault (log 18). -/
def State.outside {α : Type} (s : State) (key : Nat) (x : Res α) (bad : State → State) (f : α → State → State) : State :=
  match x with
  | .ok a w => f a (w.outsideDone key)
  | .flt _ _ _ w => bad ((s.keepWait w).outsideDone key)
  | .wait w => { s.keepWait w with blocked := key :: s.blocked }
  | .held l w => { (s.keepWait w).outsideHeld key l with blocked := key :: s.blocked }
  | .soft _ _ => bad (s.outsideDone key)

/-- A result with a value in place of a fault. -/
def Res.orElse {α : Type} (x : Res α) (f : State → Res α) : Res α :=
  match x with
  | .flt _ _ _ w => f w
  | .soft _ w => f w
  | y => y

/-- Bytes written one line at a time by an agent without a line buffer. -/
def State.writeRange (s : State) (c : Ctx) : (fuel : Nat) → (va : Word) → List Byte → Res Unit
  | 0, _, _ => .ok () s
  | fuel + 1, va, bs =>
    if bs.isEmpty then .ok () s
    else
      let n := min bs.length (128 - va.toNat % 128)
      (s.writeBytes c va (bs.take n)).bind fun _ s1 => s1.writeRange c fuel (va + BitVec.ofNat 64 n) (bs.drop n)

/-! ## Event records (R417) -/

/-- The sources of event records. The spec names them without codes (log 19). -/
inductive Source where
  | die (n : Nat) | stack (n : Nat) | link (n : Nat) | talus | faultProcessor (part : Nat)
  deriving DecidableEq, Repr

/-- The SOURCE code. [DESIGN CHOICE, log 19] -/
def Source.code : Source → BitVec 16
  | .die n => BitVec.ofNat 16 n
  | .stack n => BitVec.ofNat 16 (0x100 + n)
  | .link n => BitVec.ofNat 16 (0x200 + n)
  | .talus => 0x300
  | .faultProcessor p => BitVec.ofNat 16 (0x400 + p)

/-- The kinds of event records. -/
inductive EvKind where
  | thermal | band | throttle | failedStart | vacate | softError | droppedWrite
  deriving DecidableEq, Repr

/-- The KIND code. [DESIGN CHOICE, log 19] -/
def EvKind.code : EvKind → BitVec 16
  | .thermal => 0
  | .band => 1
  | .throttle => 2
  | .failedStart => 3
  | .vacate => 4
  | .softError => 5
  | .droppedWrite => 6

/-- The 32 bytes of an event record (R417). -/
def EvRecord.bits (e : EvRecord) : BitVec 256 :=
  e.data ++ e.time ++ e.seq ++ e.source ++ e.kind

/-- Record `n` of the event ring, as the host reads it through the physical function (R417). -/
def State.readEvent (s : State) (n : Nat) : Option (List Byte) :=
  (s.events[n]?).map fun e => wordBytes 32 e.bits

/-- A record appended to the event ring: SEQ counts the records of its source. -/
def State.record (s : State) (src : Source) (k : EvKind) (data : BitVec 128) : State :=
  let n := (s.events.filter fun e => e.source == src.code).length
  { s with events := s.events ++ [⟨src.code, k.code, BitVec.ofNat 32 n, s.timeNs, data⟩] }

/-! ## Submission pages (R363, R365) -/

/-- A page changed. -/
def State.setPage (s : State) (asid : BitVec 16) (f : Page → Page) : State :=
  { s with pages := updWhere s.pages (fun p => p.asid == asid) f }

/-- What a host read of a submission page returns at an offset (R363): the card window, FANSWER and unlisted offsets read 0. -/
def Page.read (p : Page) (off : Nat) : Word :=
  match off with
  | 0x8000 => p.scrBase
  | 0x8008 => p.scrSize
  | 0x8010 => p.scrHead.setWidth 64
  | 0x8018 => p.scrTail.setWidth 64
  | 0x8020 => p.frBase
  | 0x8028 => p.frSize
  | 0x8030 => p.frHead.setWidth 64
  | 0x8038 => p.frTail.setWidth 64
  | 0x8048 => p.drops
  | _ => 0

/-- A host read of the page of an address space. -/
def State.pageRead (s : State) (asid : BitVec 16) (off : Nat) : Word :=
  ((s.page asid).map fun p => p.read off).getD 0

/-- Whether a ring is full (R365). -/
def ringFull (size : Word) (head tail : BitVec 32) : Bool :=
  (tail - head).toNat == size.toNat

/-- The address of ring entry `n` (R365). -/
def ringEntry (base size : Word) (n : BitVec 32) : Word :=
  base + BitVec.ofNat 64 (64 * (n.toNat % size.toNat))

/-! ## Job cards (R366) -/

/-- NBIND. -/
def cardNbind (c : BitVec 1024) : Nat := fieldNat c 984 8
/-- NFOOT. -/
def cardNfoot (c : BitVec 1024) : Nat := fieldNat c 976 8
/-- RERUN. -/
def cardRerun (c : BitVec 1024) : Bool := bitAt c 971
/-- BARRIER. -/
def cardBarrier (c : BitVec 1024) : Bool := bitAt c 970
/-- PRIO. -/
def cardPrio (c : BitVec 1024) : Nat := fieldNat c 968 2
/-- QUARTERS. -/
def cardQuarters (c : BitVec 1024) : Nat := fieldNat c 960 3
/-- GANG. -/
def cardGang (c : BitVec 1024) : Nat := fieldNat c 952 5
/-- QUEUE. -/
def cardQueue (c : BitVec 1024) : Nat := fieldNat c 928 12
/-- STKSZ. -/
def cardStksz (c : BitVec 1024) : Nat := fieldNat c 896 32
/-- VLHI. -/
def cardVlhi (c : BitVec 1024) : Nat := fieldNat c 880 16
/-- VLLO. -/
def cardVllo (c : BitVec 1024) : Nat := fieldNat c 864 16
/-- WORK. -/
def cardWork (c : BitVec 1024) : Nat := fieldNat c 832 32
/-- DURATION. -/
def cardDuration (c : BitVec 1024) : Nat := fieldNat c 800 32
/-- POST. -/
def cardPost (c : BitVec 1024) : Word := c.extractLsb' 704 64
/-- CWADDR. -/
def cardCwaddr (c : BitVec 1024) : Word := c.extractLsb' 640 64
/-- IMAGES. -/
def cardImages (c : BitVec 1024) : Word := c.extractLsb' 576 64
/-- BINDS. -/
def cardBinds (c : BitVec 1024) : Word := c.extractLsb' 512 64
/-- FOOT. -/
def cardFoot (c : BitVec 1024) : Word := c.extractLsb' 448 64
/-- Argument word `n`. -/
def cardArg (c : BitVec 1024) (n : Nat) : Word := c.extractLsb' (192 + 64 * n) 64
/-- STACK. -/
def cardStack (c : BitVec 1024) : Word := c.extractLsb' 128 64
/-- GP. -/
def cardGp (c : BitVec 1024) : Word := c.extractLsb' 64 64
/-- ENTRY. -/
def cardEntry (c : BitVec 1024) : Word := c.extractLsb' 0 64

/-- The reserved fields are zero. -/
def cardReservedZero (c : BitVec 1024) : Bool :=
  fieldNat c 992 32 == 0 && fieldNat c 972 4 == 0 && fieldNat c 966 2 == 0 && fieldNat c 957 3 == 0
    && fieldNat c 940 12 == 0

/-- The quarters a partition owns on each core of its clusters (R376): the least over the cores where it owns any. -/
def State.partQuarters (s : State) (part : BitVec 2) : Nat :=
  let owned (core : Nat) : Nat := ((List.range 4).filter fun k => slotPart (s.slot (4 * core + k)) == part).length
  ((List.range (Config.clusters * Config.coresPerCluster)).foldl (fun (a : Option Nat) core =>
    let n := owned core
    if n = 0 then a else some (min n (a.getD n))) none).getD 0

/-- The checks of R367 but for the queue and the lists. -/
def State.cardFieldsOk (s : State) (asid : BitVec 16) (c : BitVec 1024) : Bool :=
  cardReservedZero c
    && 1 ≤ cardGang c && cardGang c ≤ 24 && 1 ≤ cardQuarters c && cardQuarters c ≤ 4 && cardBars c ≤ 4
    && cardNfoot c ≤ 8 && cardNbind c ≤ 64 && 1 ≤ cardTasks c
    && 1 ≤ cardVllo c && cardVllo c ≤ cardVlhi c && cardVlhi c ≤ 4096
    && canonical (cardEntry c) && !bitAt (cardEntry c) 0
    && cardCwaddr c != 0 && (cardCwaddr c).toNat % 8 == 0 && (cardPost c).toNat % 8 == 0
    && cardQuarters c ≤ s.partQuarters (s.partOf asid)

/-- A footprint entry (R368). -/
def footOf (e : BitVec 128) : Option Region :=
  let r : Region := ⟨fieldNat e 0 64, fieldNat e 64 62, bitAt e 126, bitAt e 127⟩
  if r.len = 0 ∨ (!r.r && !r.w) then none else some r

/-- A binding entry (R368), scopes as in R259. -/
def bindingOf (e : BitVec 256) : Option Binding :=
  let b (scope : Scope) : Option Binding :=
    if fieldNat e 194 62 ≠ 0 then none
    else some ⟨e.extractLsb' 0 64, e.extractLsb' 64 64, e.extractLsb' 128 64, scope⟩
  match fieldNat e 192 2 with
  | 0 => b .g
  | 1 => b .d
  | 2 => b .s
  | _ => none

/-- The entries of a list of `w`-byte records. -/
def entriesOf (w : Nat) : (n : Nat) → List Byte → List Nat
  | 0, _ => []
  | n + 1, bs => leNat (bs.take w) :: entriesOf w n (bs.drop w)

/-- A card's footprint from its bytes; none where an entry is malformed. -/
def footList (n : Nat) (bs : List Byte) : Option (List Region) :=
  (entriesOf 16 n bs).mapM fun x => footOf (BitVec.ofNat 128 x)

/-- A card's bindings from their bytes, each entered as `sync.bind` enters it (R258, R309). -/
def bindingList (n : Nat) (bs : List Byte) : Option (List Binding) :=
  match (entriesOf 32 n bs).mapM fun x => bindingOf (BitVec.ofNat 256 x) with
  | none => none
  | some l => l.foldlM (fun acc b => match addBinding acc b with
    | .ok x => some x
    | .error _ => none) []

/-- The lists of a card, read in the submitter's address space (R367): none where they fault or an entry is malformed. -/
def State.cardLists (s : State) (c : Ctx) (bits : BitVec 1024) : Res (Option (List Region × List Binding)) :=
  ((s.readBytes c (cardFoot bits) (16 * cardNfoot bits)).bind fun f s1 =>
    (s1.readBytes c (cardBinds bits) (32 * cardNbind bits)).bind fun b s2 =>
      .ok (match footList (cardNfoot bits) f, bindingList (cardNbind bits) b with
        | some x, some y => some (x, y)
        | _, _ => none) s2).orElse fun w => .ok none w

/-! ## Acceptance (R364, R370) -/

/-- Whether two footprints make an edge (R370). -/
def footprintsMeet (a b : List Region) : Bool :=
  a.any fun x => b.any fun y => rangesMeet x.base x.len y.base y.len && (x.w || y.w)

/-- A card has a task not yet bound. -/
def Card.pending (c : Card) : Bool :=
  c.started < cardTasks c.bits || !c.requeue.isEmpty

/-- The limits of R364. -/
def State.schedulerFull (s : State) (queue : Nat) : Bool :=
  (s.cards.filter fun c => c.queue == queue && c.pending).length ≥ Config.maxPending
    || s.cards.length ≥ Config.maxUnfinished

/-- A card that has passed its checks enters its queue; its edges are derived (R370). -/
def State.enqueue (s : State) (asid : BitVec 16) (queue : Nat) (bits : BitVec 1024) (foot : List Region)
    (binds : List Binding) (poster : Option Nat) : State :=
  let after := (s.cards.filter fun y => y.asid == asid && poster != some y.cid && footprintsMeet foot y.foot).map Card.cid
  let idle := !s.cards.any fun c => c.queue == queue && c.pending
  { s with
    cards := s.cards ++ [⟨s.nextCard, asid, queue, bits, foot, binds, after, 0, 0, [], [], s.tick⟩]
    nextCard := s.nextCard + 1
    queues := updWhere s.queues (fun q => q.num == queue && idle) fun q => { q with since := s.tick, promos := 0 } }

/-- A card is judged in the order of R190 and R364: NO_QUEUE, BAD_CARD, BUSY, OK. -/
def State.acceptCard (s : State) (c : Ctx) (queue : Nat) (bits : BitVec 1024) (poster : Option Nat) : Res Nat :=
  if !s.queueOpen c.asid queue then .ok 2 s
  else if !s.cardFieldsOk c.asid bits then .ok 4 s
  else
    (s.cardLists c bits).bind fun l s1 =>
      match l with
      | none => .ok 4 s1
      | some (foot, binds) =>
        if s1.schedulerFull queue then .ok 1 s1 else .ok 0 (s1.enqueue c.asid queue bits foot binds poster)

/-! ## Heads, classes and offers (R32, R371 to R373) -/

/-- The head task of a queue: its first unbound task, a requeued one before those not yet started. -/
def State.headTask (s : State) (queue : Nat) : Option (Card × Nat) :=
  match s.cards.find? fun c => c.queue == queue && c.pending with
  | none => none
  | some c => some (c, match c.requeue with
    | g :: _ => g
    | [] => c.started)

/-- Whether a head task is ready (R371): its edges are satisfied, and with BARRIER every earlier card is finished. -/
def State.taskReady (s : State) (c : Card) : Bool :=
  !(c.after.any fun y => s.cards.any fun x => x.cid == y)
    && (!cardBarrier c.bits || !s.cards.any fun x => x.queue == c.queue && x.cid < c.cid)

/-- The VL check of R15: the F32 length the card's quarters give. -/
def cardVlOk (c : BitVec 1024) : Bool :=
  cardVllo c ≤ 1024 * cardQuarters c && 1024 * cardQuarters c ≤ cardVlhi c

/-- The class of a queue whose head task is of a card (R372). -/
def Queue.cls (q : Queue) (c : Card) : Nat :=
  cardPrio c.bits - q.promos

/-- The handles in use. -/
def State.handles (s : State) : List Nat :=
  s.gangs.map (fun g => g.handle.toNat) ++ s.offers.map fun o => o.handle.toNat

/-- Whether a task has been bound and has not started (R32): no later task of its queue is offered. -/
def State.binding (s : State) (card g : Nat) : Bool :=
  s.gangs.any fun x => x.card == card && x.g == g && !x.started

/-- The class of a queue whose head task is ready (R34, R372). -/
def State.classOf (s : State) (q : Queue) : Option Nat :=
  match s.headTask q.num with
  | some (c, _) => if s.taskReady c then some (q.cls c) else none
  | none => none

/-- A class as an index. -/
def classIx (c : Nat) : Fin 4 := Fin.ofNat 4 c

/-- The rounds in which the other queues of a partition stand that are served in a class (R373). -/
def State.roundsOf (s : State) (q : Queue) (c : Fin 4) : List Nat :=
  (s.queues.filter fun x => x.num != q.num && x.serves == some c && s.partOf x.asid == s.partOf q.asid).map fun x => x.round[c]

/-- The least of those rounds. -/
def State.leastRound (s : State) (q : Queue) (c : Fin 4) : Option Nat :=
  leastBy id (s.roundsOf q c)

/-- The round that begins where no other queue is served in a class: later than every round of the partition's queues there. -/
def State.newRound (s : State) (q : Queue) (c : Fin 4) : Nat :=
  (s.queues.filter fun x => s.partOf x.asid == s.partOf q.asid).foldl (fun a x => max a (x.round[c] + 1)) 0

/-- A queue that joins the rounds of a class: the round that goes on there, in which it keeps the starts it has made; a new one
where no other queue is served. Starts of earlier rounds and of other classes do not count (R373). -/
def Queue.joined (q : Queue) (c : Fin 4) (least : Option Nat) (fresh : Nat) : Queue :=
  let r := match least with
    | some l => max q.round[c] l
    | none => fresh
  { q with
    serves := some c
    round := q.round.set c r
    used := q.used.set c (if r = q.round[c] then q.used[c] else 0) }

/-- A start of a queue's task counted in its round; past its weight the queue goes on to a later round, not behind the others
(R373). -/
def Queue.counted (q : Queue) (c : Fin 4) (least : Option Nat) : Queue :=
  if q.used[c] + 1 < q.weight.toNat then { q with used := q.used.set c (q.used[c] + 1) }
  else { q with used := q.used.set c 0, round := q.round.set c (max (q.round[c] + 1) (least.getD 0)) }

/-- One queue's offer: kept, made, or none. -/
def State.offerQueue (s : State) (q : Queue) : State :=
  let mine (o : Offer) : Bool := s.cards.any fun c => c.cid == o.card && c.queue == q.num
  let without : State := { s with offers := s.offers.filter fun o => !mine o }
  let idle : State := { without with queues := updWhere s.queues (fun x => x.num == q.num) fun x => { x with serves := none } }
  match s.headTask q.num with
  | some (c, g) =>
    if !s.taskReady c then idle
    else if s.binding c.cid g then without
    else
      let join (x : Queue) : Queue :=
        let k := classIx (x.cls c)
        if x.serves = some k then x else x.joined k (s.leastRound x k) (s.newRound x k)
      let s1 : State := { s with queues := updWhere s.queues (fun x => x.num == q.num) join }
      if s.offers.any fun o => o.card == c.cid && o.g == g then s1
      else
        match freeNumber s.handles 65536 1 with
        | none => s
        | some h => { s1 with offers := (s.offers.filter fun o => !mine o) ++ [⟨BitVec.ofNat 16 h, c.cid, g⟩] }
  | none => idle

/-- The order in which an offer is served (R373): class, then round, then queue number. -/
def State.offerKey (s : State) (o : Offer) : Nat × Nat × Nat :=
  match s.cards.find? fun c => c.cid == o.card with
  | none => (4, 0, 0)
  | some c =>
    match s.queues.find? fun q => q.num == c.queue with
    | none => (4, 0, 0)
    | some q => (q.cls c, q.round[classIx (q.cls c)], q.num)

/-- One key before another. -/
def keyBefore (a b : Nat × Nat × Nat) : Bool :=
  a.1 < b.1 || (a.1 == b.1 && (a.2.1 < b.2.1 || (a.2.1 == b.2.1 && a.2.2 ≤ b.2.2)))

/-- An offer put at its place. -/
def State.insertOffer (s : State) (o : Offer) : List Offer → List Offer
  | [] => [o]
  | x :: xs => if keyBefore (s.offerKey x) (s.offerKey o) then x :: s.insertOffer o xs else o :: x :: xs

/-- The offers brought up to date, in their order of service. -/
def State.refreshOffers (s : State) : State :=
  let s1 := s.queues.foldl State.offerQueue s
  let live := s1.offers.filter fun o => s1.cards.any fun c => c.cid == o.card
  { s1 with offers := live.foldl (fun l o => s1.insertOffer o l) [] }

/-- A task of a queue has started, in a beat: its round counts it, and the wait of the next head begins, then or with the acceptance
of its card (R372, R373). -/
def State.taskStarted (s : State) (c : Card) (g : Nat) (at_ : Nat) : State :=
  let s1 : State := { s with
    offers := s.offers.filter fun o => !(o.card == c.cid && o.g == g)
    cards := updWhere s.cards (fun x => x.cid == c.cid) fun x =>
      if x.requeue.contains g then { x with requeue := x.requeue.erase g } else { x with started := x.started + 1 } }
  let since := match s1.headTask c.queue with
    | some (x, _) => max at_ x.at_
    | none => at_
  { s1 with
    queues := updWhere s.queues (fun q => q.num == c.queue) fun q =>
      let k := classIx (q.cls c)
      { q.counted k (s.leastRound q k) with since := since, promos := 0 } }

/-! ## sys.call and task.post -/

/-- The state in which a scalar instruction waits for queued stores to be performed, if it must (R192, R193), or for an access
that has not delivered (R165). -/
def State.behindStores (s : State) (t : Strand) : Option State :=
  if t.acc.isSome then some (s.stall t)
  else if t.viq.isEmpty then none
  else
    match s.ahead t with
    | .wait w => some (w.stall t)
    | .unknown opened => some (s.stallFor t opened)
    | .ok l =>
      let writes := l.filter fun x => x.2.2.2
      if writes.isEmpty then none else some (s.stallFor t (writes.any fun x => x.1))

/-- A block read by a scalar instruction at an aligned address, at its home. -/
def State.readAligned (s : State) (c : Ctx) (va : Word) (n : Nat) : Res (List Byte) :=
  (s.resolve c va n n .read .data).bind fun l s1 => (s1.atHome c va l .read false).bind fun l s2 =>
    .ok (Memory.bytes s2.mem l.home n) s2

/-- Bytes 56 to 63 of a ring entry (R192). -/
def callWord (seq : BitVec 16) (t : Strand) : Word :=
  (seq ++ BitVec.ofNat 8 t.id.tid ++ 0#8 ++ t.id.gid : BitVec 64)

/-- The entry appended to the system-call ring, or the code of what stops it (R190, R365). An entry whose write faults
after service is lost (log 20). -/
def State.callRing (s : State) (t : Strand) (req : List Byte) : Res Nat :=
  match s.page t.id.asid with
  | none => .ok 3 s
  | some p =>
    if p.scrBase = 0 then .ok 3 s
    else if ringFull p.scrSize p.scrHead p.scrTail then .ok 1 s
    else
      let e := req.take 56 ++ wordBytes 8 (callWord (p.scrTail.setWidth 16) t)
      ((s.writeRange t.ctx 3 (ringEntry p.scrBase p.scrSize p.scrTail) e).orElse fun w => .ok () w).bind fun _ s1 =>
        .ok 0 (s1.setPage t.id.asid fun p => { p with scrTail := p.scrTail + 1 })

/-- A `sys.call` or `task.post` with its attempt: a code for sD; while its access waits at a line the instruction is in progress,
and completes before a save (R197). -/
def State.callSettle (s : State) (t : Strand) (sd : SReg) (x : Res Nat) : State :=
  let u := { t with busy := false }
  s.settle u x (fun l => s.put { s.holdHead t l with busy := true }) fun code s1 =>
    s1.put (u.setS sd (BitVec.ofNat 64 code)).advance

/-- `sys.call` (R192): its older stores have been performed where every agent sees them. -/
def execSysCall (sd sa : SReg) (s : State) : Out :=
  s.withCur fun t =>
    .next (if t.mustWait [sd, sa] then s.waitFor t [sd, sa]
      else (s.behindStores t).getD
        (s.callSettle t sd ((s.readAligned t.ctx (t.getS sa) 64).bind fun req s1 => s1.callRing t req)))

/-- The card of a strand's own task. -/
def State.ownCard (s : State) (t : Strand) : Option Nat :=
  (s.gang t.id.handle).map Gang.card

/-- `task.post` (R193): queue sB takes the place of the card's QUEUE. -/
def execTaskPost (sd sa sb : SReg) (s : State) : Out :=
  s.withCur fun t =>
    .next (if t.mustWait [sd, sa, sb] then s.waitFor t [sd, sa, sb]
      else (s.behindStores t).getD
        (s.callSettle t sd ((s.readAligned t.ctx (t.getS sa) 128).bind fun bs s1 =>
          (s1.acceptCard t.ctx (t.getS sb).toNat (BitVec.ofNat 1024 (leNat bs)) (s1.ownCard t)).bind fun code s2 =>
            .ok code s2.refreshOffers)))

/-! ## Submission from the host (R364) -/

/-- SUBMIT_CARD: a Deferrable Memory Write to the card window, answered by its completion status. -/
def execSubmitCard (asid : BitVec 16) (off : Nat) (data : List Byte) (s : State) : Out :=
  let unsupported (w : State) : State := { w with completion := .unsupported }
  if (s.page asid).isNone ∨ off % 128 ≠ 0 ∨ off ≥ 0x8000 ∨ data.length ≠ 128 then .next (unsupported s)
  else
    let bits := BitVec.ofNat 1024 (leNat data)
    .next (s.outside (s.partOf asid).toNat (s.acceptCard (s.outsideCtx asid) (cardQueue bits) bits none) unsupported fun code s1 =>
      match code with
      | 0 => { s1 with completion := .success }.refreshOffers
      | 1 => { s1 with completion := .retry }
      | _ => unsupported s1)

/-- A posted write to the card window is discarded, and counted in DROPS (R363, R364). -/
def Page.dropped (p : Page) : Page :=
  { p with drops := p.drops + 1 }

/-- SCR_BASE or SCR_SIZE written: head and tail go to 0 (R365). -/
def Page.scrConfig (p : Page) (size : Bool) (w : Word) : Page :=
  { p with scrBase := if size then p.scrBase else w, scrSize := if size then w else p.scrSize, scrHead := 0, scrTail := 0 }

/-- FR_BASE or FR_SIZE written, as for the system-call ring. -/
def Page.frConfig (p : Page) (size : Bool) (w : Word) : Page :=
  { p with frBase := if size then p.frBase else w, frSize := if size then w else p.frSize, frHead := 0, frTail := 0 }

/-- A posted write to a submission page by its offset (R363): the registers that take one; FANSWER apart, RO registers and unlisted
offsets ignore it. -/
def Page.write (p : Page) (off : Nat) (w : Word) : Page :=
  if off < 0x8000 then p.dropped
  else
    match off with
    | 0x8000 => p.scrConfig false w
    | 0x8008 => p.scrConfig true w
    | 0x8010 => { p with scrHead := w.setWidth 32 }
    | 0x8020 => p.frConfig false w
    | 0x8028 => p.frConfig true w
    | 0x8030 => { p with frHead := w.setWidth 32 }
    | _ => p

/-- CARD_WINDOW_POSTED_WRITE. -/
def execCardWindowPostedWrite (asid : BitVec 16) (s : State) : Out :=
  .next (s.setPage asid Page.dropped)

/-- SCR_CONFIG_WRITE (R365). -/
def execScrConfigWrite (asid : BitVec 16) (size : Bool) (w : Word) (s : State) : Out :=
  .next (s.setPage asid fun p => p.scrConfig size w)

/-- FR_CONFIG_WRITE (R365). -/
def execFrConfigWrite (asid : BitVec 16) (size : Bool) (w : Word) (s : State) : Out :=
  .next (s.setPage asid fun p => p.frConfig size w)

/-- FAULT_RING_HEAD_WRITE: the host has consumed notices (R348, R365). -/
def execFaultRingHeadWrite (asid : BitVec 16) (w : Word) (s : State) : Out :=
  .next (s.setPage asid fun p => { p with frHead := w.setWidth 32 })

/-- CLASS_PROMOTION (R34, R372): a ready head that has waited a further 10 ms is promoted one class. -/
def execClassPromotion (queue : Nat) (s : State) : Out :=
  .next (match s.queues.find? fun q => q.num == queue, s.headTask queue with
    | some q, some (c, _) =>
      if s.taskReady c && q.cls c != 0 && (s.tick - q.since) / (10 * beatsPerMs) > q.promos then
        { s with queues := updWhere s.queues (fun x => x.num == queue) fun x => { x with promos := x.promos + 1 } }.refreshOffers
      else s
    | _, _ => s)

end Sys2Proof.Machine
end

