-- ==== Sys2Proof/Machine/Vault.lean ====
section
/-!
DEFINITION. The bytes of restart records (R341, R343, R344), control blocks and context extensions (R345), the vault parts of the
quarters (R340) and the checks before a resume (R347).
-/

namespace Sys2Proof.Machine

/-! ## Restart records (R341 to R344) -/

/-- The code of a cause (R338). -/
def causeCode : Cause → Nat
  | .none => 0
  | .illLine => 1
  | .illMajor => 2
  | .illMinor => 3
  | .illRsv => 4
  | .illConvoy => 5
  | .illChain => 6
  | .group => 8
  | .quarter => 9
  | .tag => 10
  | .vtype => 11
  | .addr => 16
  | .align => 17
  | .page => 18
  | .table => 19
  | .perm => 20
  | .flashDirect => 21
  | .hostAmo => 22
  | .slabAbsent => 23
  | .ltRange => 24
  | .fwdAsid => 28
  | .fwdChain => 29
  | .fwdTarget => 30
  | .check => 31
  | .compFormat => 32
  | .compOverrun => 33
  | .mergeRange => 34
  | .tileRange => 35
  | .syncAttr => 40
  | .bindFull => 41
  | .bindRange => 42
  | .barFull => 43
  | .barState => 44
  | .winState => 45
  | .winRange => 46
  | .brk => 48
  | .trap => 49

/-- VALUE of a record. R341 gives it two contents where a fault meets a strand that waits in `qdrain`: the queue number, without
which the wait could not be resumed (R346), and the cause's own: the record holds the queue number, the notice the cause's
(R135). [DESIGN CHOICE, log 80] -/
def Record.value (r : Record) : Word :=
  if r.waitq then r.queue else r.info.value

/-- The 64-byte header (R341). -/
def Record.header (r : Record) : BitVec 512 :=
  r.pcNext ++ r.info.addr ++ r.value ++ r.vcp ++ r.tokp ++ r.resv ++ r.vtype ++ 0#7 ++ BitVec.ofNat 19 r.vl
    ++ BitVec.ofNat 18 r.epr ++ BitVec.ofNat 18 r.info.elem ++ 0#6 ++ BitVec.ofNat 8 r.copies.length
    ++ BitVec.ofNat 8 r.viq.length ++ 0#112 ++ BitVec.ofBool r.waitq ++ BitVec.ofBool r.perf.isSome
    ++ BitVec.ofBool r.info.side ++ 0#5 ++ BitVec.ofNat 8 (causeCode r.info.cause)

/-- A VIQ entry (R343): six OPS slots, PC, CS, VTYPE, VL, TAIL and HEAD. -/
def Entry.bits (e : Entry) : BitVec 1024 :=
  let op (n : Nat) : Word := e.ops.getD n 0
  let enc := (encode e.i).getD ⟨0, 0⟩
  0#448 ++ op 5 ++ op 4 ++ op 3 ++ op 2 ++ op 1 ++ op 0 ++ e.pc ++ BitVec.ofBool e.cs ++ 0#3 ++ e.vtype ++ 0#13
    ++ BitVec.ofNat 19 e.vl ++ enc.tail ++ enc.head

/-- A copy remainder (R344). -/
def Remainder.bits (r : Remainder) : BitVec 512 :=
  BitVec.ofNat 64 r.rowb ++ r.sstr ++ r.dstr ++ BitVec.ofNat 64 r.rows ++ BitVec.ofNat 64 r.left ++ r.nsrc ++ r.ndst
    ++ BitVec.ofNat 48 r.done ++ 0#6 ++ r.form ++ 0#3 ++ r.token

/-- Zeros up to a multiple of 64 bytes. -/
def padded (bs : List Byte) : List Byte :=
  bs ++ List.replicate ((64 - bs.length % 64) % 64) 0

/-- A set of elements as a bitmap, bit e in byte e div 8 at bit e mod 8 (R341). -/
def bitmap (es : List Nat) : List Byte :=
  let last := es.foldl max 0
  padded ((List.range (last / 8 + 1)).map fun b =>
    (List.range 8).foldl (fun (x : Byte) i => if es.contains (8 * b + i) then x ||| (1 <<< i) else x) 0)

/-- The bytes of a record (R341): header, scalar registers, `fstat`, `prog` and `stl.mem`, entries, remainders, the performed
elements. -/
def Record.bytes (r : Record) : List Byte :=
  wordBytes 64 r.header ++ (r.s.set 0 0).toList.flatMap (fun w => wordBytes 8 w)
    ++ padded (leBytes 8 r.fstat.toNat ++ leBytes 8 r.prog.toNat ++ wordBytes 8 r.stlMem)
    ++ r.viq.flatMap (fun e => wordBytes 128 e.bits) ++ r.copies.flatMap (fun c => wordBytes 64 c.bits)
    ++ (match r.perf with
      | some es => bitmap es
      | none => [])

/-! ## Checks of a record (R347) -/

/-- Whether a head is one of a vector-queue instruction (R153). -/
def queueHead (h : BitVec 16) : Bool :=
  let f := Head.of h
  let maj := f.major.toNat
  match layoutOf maj with
  | none => false
  | some lay => minorOk maj f.minor.toNat && clsOf maj f.minor.toNat != .s && f.t == lay.tcode

/-- The most a record's EPR may be: the first entry's VL, or 128 times its steps for an outer product; elements of a tile and words
of a window, which `vl` does not count, by their own number (R252, R277; log 76). -/
def eprBound (h : BitVec 16) (vl : Nat) : Nat :=
  let f := Head.of h
  match f.major.toNat with
  | 0x71 => 128 * ((vl + 127) / 128)
  | 0x72 => 128 * ((vl + 127) / 128)
  | 0x74 => max vl 16384
  | 0x7B => if f.minor = 2 then max vl 256 else vl
  | _ => vl

/-- Entry `n` of a record's bytes. -/
def entryBits (bs : List Byte) (n : Nat) : BitVec 1024 :=
  BitVec.ofNat 1024 (leNat ((bs.drop (384 + 128 * n)).take 128))

/-- The reserved fields of a header are zero. -/
def headerZero (h : BitVec 512) : Bool :=
  fieldNat h 205 7 == 0 && fieldNat h 144 6 == 0 && fieldNat h 16 112 == 0 && fieldNat h 8 5 == 0

/-- The checks of R347 on the bytes of a record. -/
def recordOk (bs : List Byte) : Bool :=
  let h := BitVec.ofNat 512 (leNat (bs.take 64))
  let nviq := fieldNat h 128 8
  let first := entryBits bs 0
  headerZero h && nviq ≤ 64 && fieldNat h 136 8 ≤ 32 && vtypeOk (h.extractLsb' 212 12)
    && ((List.range nviq).all fun n =>
      let e := entryBits bs n
      vtypeOk (e.extractLsb' 112 12) && queueHead (e.extractLsb' 0 16))
    && (nviq == 0 || bitAt first 127
      && decide (fieldNat h 168 18 ≤ eprBound (first.extractLsb' 0 16) (fieldNat first 80 19)))

/-! ## Control state (R345) -/

/-- The window of a control block. -/
def windowBits : Option Window → BitVec 256
  | none => 0
  | some w => w.base ++ BitVec.ofNat 64 w.size ++ BitVec.ofNat 64 w.off ++ 0#56 ++ w.ty.code ++ 0#2 ++ 1#1

/-- A set of `tid`s of a gang as 24 bits. -/
def tidBits (h : BitVec 16) (l : List (BitVec 16 × Nat)) : BitVec 24 :=
  l.foldl (fun a x => if x.1 = h then a ||| (1#24 <<< x.2) else a) 0

/-- A barrier slot of a control block. -/
def Barrier.bits (b : Barrier) : BitVec 256 :=
  b.va ++ b.counter ++ tidBits b.handle b.arrived ++ tidBits b.handle (b.held.map Arrival.who) ++ BitVec.ofNat 8 b.expected
    ++ BitVec.ofNat 8 b.drops ++ 0#63 ++ 1#1

/-- A binding in the layout of R368. -/
def Binding.bits (b : Binding) : BitVec 256 :=
  let scope : BitVec 2 := match b.scope with
    | .g => 0
    | .d => 1
    | .s => 2
  0#62 ++ scope ++ b.obj ++ b.len ++ b.base

/-- A list of bytes at a fixed length. -/
def sized (n : Nat) (bs : List Byte) : List Byte :=
  (bs ++ List.replicate (n - bs.length) 0).take n

/-- The control block of a strand up to its last field; what follows is zero (R345). -/
def Strand.control (t : Strand) (bars : List Barrier) (binds : List Binding) : List Byte :=
  let first := t.id.tid = 0
  t.v.toList.map (fun r => r.tag.code.setWidth 8)
    ++ sized 64 ((t.m.toList.take (2 * t.q)).map fun r => r.tag.code.setWidth 8)
    ++ (List.range 256).map (fun l => (t.lflags.extractLsb' (8 * l) 7).setWidth 8)
    ++ sized 128 (wordBytes 32 (windowBits t.win))
    ++ sized 128 (if first then (bars.filter fun b => b.handle == t.id.handle).flatMap fun b => wordBytes 32 b.bits else [])
    ++ sized 2048 (if first then binds.flatMap fun b => wordBytes 32 b.bits else [])

/-- A tag of a control block: bits [7:5] are zero and the code is one of R64. -/
def tagOf (b : Byte) : Option Tag :=
  if b.extractLsb' 5 3 = 0 then Tag.ofCode (b.extractLsb' 0 5) else none

/-- The entries of `w` bytes of an area, as words. -/
def areaWords (bs : List Byte) (off w n : Nat) : List (BitVec 256) :=
  (List.range n).map fun i => BitVec.ofNat 256 (leNat ((bs.drop (off + w * i)).take w))

/-- The checks of R347 on the bytes of a control block up to its last field: every tag, the window's with them, is a code of R64,
and the zero fields of R345 are zero. Only `tid` 0 has barrier slots and a binding table. -/
def controlOk (q : Nat) (tid : BitVec 5) (bs : List Byte) : Bool :=
  let zero (off n : Nat) : Bool := ((bs.drop off).take n).all (· == 0)
  let win := (areaWords bs 384 32 1).headD 0
  (bs.take (64 + 2 * q)).all (fun b => (tagOf b).isSome) && zero (64 + 2 * q) (64 - 2 * q)
    && ((bs.drop 128).take 256).all (fun b => !bitAt b 7)
    && fieldNat win 1 2 == 0 && fieldNat win 8 56 == 0 && (Tag.ofCode (win.extractLsb' 3 5)).isSome && zero 416 96
    && (if tid = 0 then
        (areaWords bs 512 32 4).all (fun w => fieldNat w 1 63 == 0) && (areaWords bs 640 32 64).all (fun w => fieldNat w 194 62 == 0)
      else zero 512 2176)

/-- The window a control block holds. -/
def windowOf (bs : List Byte) : Option Window :=
  let w := BitVec.ofNat 256 (leNat ((bs.drop 384).take 32))
  if bitAt w 0 then
    (Tag.ofCode (w.extractLsb' 3 5)).map fun ty => ⟨w.extractLsb' 192 64, fieldNat w 128 64, fieldNat w 64 64, ty⟩
  else none

/-! ## Vault parts (R340) -/

/-- The vault part of a quarter begins here. -/
def vaultPart (slot : Nat) : Nat := slot * 2 ^ 20

/-- Offsets within a part: tiles, slab quarter, lane stores, restart record, control block. -/
def tileOffset : Nat := 0x40000
/-- The slab quarter. -/
def slabOffset : Nat := 0x60000
/-- The lane stores. -/
def laneOffset : Nat := 0xE0000
/-- The restart record area. -/
def recordOffset : Nat := 0xF0000
/-- The control block. -/
def controlOffset : Nat := 0xF8000

/-- A range of a memory replaced by bytes, with zeros up to its length. -/
def Memory.replace (m : List Host.Cell) (a n : Nat) (bs : List Byte) : List Host.Cell :=
  Memory.fill (m.filter fun c => c.1 < a || a + n ≤ c.1) a (bs.take n)

/-- The cells of a range, from its start. -/
def Memory.range (m : List Host.Cell) (a n : Nat) : List Host.Cell :=
  (m.filter fun c => a ≤ c.1 && c.1 < a + n).map fun c => (c.1 - a, c.2)

/-- Cells placed from an address on. -/
def Memory.place (m : List Host.Cell) (a : Nat) (cs : List Host.Cell) : List Host.Cell :=
  cs.foldl (fun x c => Memory.set x (a + c.1) c.2) m

/-- Quarter `j` of the vector registers: 16 bytes of every lane of every register, by register and lane. The spec gives the
slice's place, not the order in it. [DESIGN CHOICE, log 52] -/
def Strand.vecPart (t : Strand) (j : Nat) : List Byte :=
  t.v.toList.flatMap fun r => (List.range 256).flatMap fun l => wordBytes 16 (r.bits.extractLsb' (512 * l + 128 * j) 128)

/-- The two tiles of quarter `j`. -/
def Strand.tilePart (t : Strand) (j : Nat) : List Byte :=
  ((t.m.toList.drop (2 * j)).take 2).flatMap fun r => wordBytes 65536 r.bits

/-- Quarter `j` of the lane stores. -/
def Strand.lanePart (t : Strand) (j : Nat) : List Byte :=
  t.lane.toList.flatMap fun x => wordBytes 256 (x.extractLsb' (2048 * j) 2048)

/-- The slab quarters of a strand: their number in the strand and their home bytes (R98). -/
def slabBases (id : Ident) : List (Nat × Nat) :=
  (quartersOf id.qmask).zipIdx.map fun x => (x.2, slabByte id.pclus id.pcore x.1 0)

/-- The vault parts of a saved strand's quarters written (R340, R345). -/
def State.writeVault (s : State) (t : Strand) (r : Record) : State :=
  let ctl := t.control s.barriers (s.bindingsOf t)
  { s with vaultMem := (t.slotIds.zip (slabBases t.id)).foldl (fun m x =>
      let a := vaultPart x.1
      let j := x.2.1
      let m1 := Memory.replace m a (2 ^ 20) []
      let m2 := Memory.fill m1 a (t.vecPart j)
      let m3 := Memory.fill m2 (a + tileOffset) (t.tilePart j)
      let m4 := Memory.place m3 (a + slabOffset) (Memory.range s.mem x.2.2 (2 ^ 19))
      let m5 := Memory.fill m4 (a + laneOffset) (t.lanePart j)
      if j = 0 then Memory.fill (Memory.fill m5 (a + recordOffset) r.bytes) (a + controlOffset) ctl else m5) s.vaultMem }

/-! ## Context extensions and spills in HBM -/

/-- Where strand `tid`'s part of a context extension begins, for `q` quarters (R345). -/
def extPart (ext q tid : Nat) : Nat :=
  homeByte attrLoc 0 (ext + 57344 * q * tid)

/-- A strand's masks in its gang's context extension (R345). -/
def State.writeMasks (s : State) (t : Strand) (ext : Nat) : State :=
  let a := extPart ext t.q t.id.tid
  { s with mem := (List.range 7).foldl (fun m i =>
      Memory.replace m (a + i * 8192 * t.q) (8192 * t.q) (wordBytes (8192 * t.q) (t.k.toList.getD (i + 1) 0))) s.mem }

/-- The masks a context extension holds for a strand. -/
def State.readMasks (s : State) (ext q tid : Nat) : Vector KBits 8 :=
  Vector.ofFn fun n =>
    if n.val = 0 then 0
    else BitVec.ofNat 262144 (Memory.read s.mem (extPart ext q tid + (n.val - 1) * 8192 * q) (8192 * q))

/-- A gang's context copied from the vault into HBM from a physical address on: by strand, then by quarter, one part each. The
spec gives the area to the supervisor and no order in it. [DESIGN CHOICE, log 52] -/
def State.spillTo (s : State) (vs : List Saved) (a : Nat) : State :=
  let parts := vs.flatMap fun v => v.slots
  { s with mem := parts.zipIdx.foldl (fun m x =>
      Memory.place (Memory.replace m (homeByte attrLoc 0 (a + x.2 * 2 ^ 20)) (2 ^ 20) [])
        (homeByte attrLoc 0 (a + x.2 * 2 ^ 20)) (Memory.range s.vaultMem (vaultPart x.1) (2 ^ 20))) s.mem }

/-- A gang's saved strands spilled into the supervisor's area, and the supervisor told where (R383). -/
def State.spill (s : State) (h : BitVec 16) : State :=
  let vs := s.vault.filter fun v => v.handle == h && !v.spilled
  if vs.isEmpty then s
  else
    let s1 := s.spillTo vs s.spillNext
    { s1 with
      vault := updWhere s1.vault (fun v => v.handle == h) fun v => { v with spilled := true }
      spillNext := s1.spillNext + (vs.flatMap fun v => v.slots).length * 2 ^ 20
      reports := s1.reports ++ [.spilled h s.spillNext] }

/-! ## What a resume reads -/

/-- Where a saved strand's parts are read from (R374): the vault parts of its quarters for KIND 1, from SPILL on for KIND 2. -/
def State.contextAt (s : State) (v : Saved) (kind : BitVec 2) (spill : Nat) : List Host.Cell × List Nat :=
  let q := v.slots.length
  if kind = 2 then
    (s.mem, (List.range q).map fun j => homeByte attrLoc 0 (spill + (q * v.ctx.id.tid + j) * 2 ^ 20))
  else (s.vaultMem, v.slots.map vaultPart)

/-- The bits of parts read in steps: `n` steps of `w` bytes, `stride` bits apart in the result, the parts `shift` bits apart. -/
def gather (m : List Host.Cell) (bases : List Nat) (off w n stride shift : Nat) (size : Nat) : BitVec size :=
  bases.zipIdx.foldl (fun (x : BitVec size) b =>
    (List.range n).foldl (fun (y : BitVec size) l =>
      y ||| (BitVec.ofNat size (Memory.read m (b.1 + off + w * l) w) <<< (stride * l + shift * b.2))) x) 0

/-- The control block in a context's first part. -/
def controlAt (m : List Host.Cell) (bases : List Nat) : List Byte :=
  Memory.bytes m (bases.headD 0 + controlOffset) 2688

/-- The lanes, tiles, flags, window and masks of a context as its bytes give them. -/
def Strand.loaded (t : Strand) (m : List Host.Cell) (bases : List Nat) (masks : Vector KBits 8) : Strand :=
  let ctl := controlAt m bases
  let tag (n : Nat) : Tag := ((ctl[n]?).bind tagOf).getD .raw
  { t with
    v := Vector.ofFn fun n => ⟨tag n.val, gather m bases (4096 * n.val) 16 256 512 128 131072⟩
    m := Vector.ofFn fun n =>
      if n.val < 2 * bases.length then
        ⟨tag (64 + n.val), BitVec.ofNat 524288 (Memory.read m (bases.getD (n.val / 2) 0 + tileOffset + 65536 * (n.val % 2)) 65536)⟩
      else t.m[n]
    lane := Vector.ofFn fun l => gather m bases (laneOffset + 256 * l.val) 256 1 0 2048 8192
    lflags := BitVec.ofNat 2048 (leNat ((ctl.drop 128).take 256))
    win := windowOf ctl
    k := masks }

/-- The slab bytes of a context, by their offset in the strand's slab. -/
def slabOfContext (m : List Host.Cell) (bases : List Nat) : List Host.Cell :=
  bases.zipIdx.flatMap fun b => (Memory.range m (b.1 + slabOffset) (2 ^ 19)).map fun c => (b.2 * 2 ^ 19 + c.1, c.2)

/-- Whether a saved strand's record and context pass the checks of R347 where a resume reads them. Bytes that are not the record's
that was saved can only come of a soft error in the vault. -/
def State.contextOk (s : State) (v : Saved) (kind : BitVec 2) (spill : Nat) : Bool :=
  let (m, bases) := s.contextAt v kind spill
  let bs := v.record.bytes
  let ctl := bases.headD 0 + controlOffset
  recordOk bs && Memory.bytes m (bases.headD 0 + recordOffset) bs.length == bs
    && controlOk v.slots.length v.ctx.id.tid (controlAt m bases)
    && m.all fun c => c.1 < ctl + 2688 || ctl + 0x8000 ≤ c.1 || c.2 == 0

/-- What the restart record area of a quarter holds (R340): the record of the trapped strand whose lowest quarter it is, else the
vault's bytes. A trap's record is kept apart from a context that lies in the part. [DESIGN CHOICE, log 52] -/
def State.recordArea (s : State) (slot : Nat) : List Byte :=
  match (s.strands.find? fun t => t.id.sid == slot).bind Strand.record with
  | some r => r.bytes
  | none => Memory.bytes s.vaultMem (vaultPart slot + recordOffset) 0x8000

end Sys2Proof.Machine
end

