-- ==== Sys2Proof/Machine/Gangs.lean ====
section
/-!
DEFINITION. Gangs from their bind to their end: quarters and targets (R376, R384), retiring (R29), stopping (R362),
completion (R30, R378 to R380), soft errors (R361), the watchdog (R381), fault notices and answers (R135, R348, R349, R382),
fault services (R351, R356).
-/

namespace Sys2Proof.Machine

/-! ## Quarters -/

/-- Physical core of strand `t` in a bind record (R374). -/
def bindCore (r : BitVec 512) (t : Nat) : Nat := fieldNat r (272 + 5 * t) 5
/-- Logical core of strand `t`. -/
def bindLcore (r : BitVec 512) (t : Nat) : Nat := fieldNat r (392 + 5 * t) 5
/-- TASK. -/
def bindTask (r : BitVec 512) : BitVec 16 := r.extractLsb' 192 16
/-- PCLUS. -/
def bindPclus (r : BitVec 512) : Nat := fieldNat r 187 5
/-- LCLUS. -/
def bindLclus (r : BitVec 512) : Nat := fieldNat r 182 5
/-- QMASK. -/
def bindQmask (r : BitVec 512) : BitVec 4 := r.extractLsb' 178 4
/-- KIND. -/
def bindKind (r : BitVec 512) : BitVec 2 := r.extractLsb' 176 2
/-- SPILL. -/
def bindSpill (r : BitVec 512) : Nat := fieldNat r 208 64
/-- EXT. -/
def bindExt (r : BitVec 512) : Nat := fieldNat r 112 64

/-- The slots of the quarters a bind record names for `n` strands. -/
def bindSlots (r : BitVec 512) (n : Nat) : List Nat :=
  (List.range n).flatMap fun t => (quartersOf (bindQmask r)).map fun k => 96 * bindPclus r + 4 * bindCore r t + k

/-- Strands of a gang (R366). -/
def State.sizeOf (s : State) (g : Gang) : Nat :=
  ((s.cardOf g).map fun c => cardGang c.bits).getD 0

/-- Whether a gang holds quarters: a stopped one keeps those of its bind until its completion word (R380). -/
def Gang.holds (g : Gang) : Bool :=
  match g.state with
  | .bound => true
  | .running => true
  | .saving => true
  | .saved => false
  | .failing _ => true

/-- Whether a gang holds barriers of its cluster: a stopped one has freed them (R362). -/
def Gang.holdsBarriers (g : Gang) : Bool :=
  match g.state with
  | .failing _ => false
  | _ => g.holds

/-- The quarters a gang holds. -/
def State.slotsOf (s : State) (g : Gang) : List Nat :=
  if g.holds then bindSlots g.bind (s.sizeOf g) else []

/-- A slot entry (R376) with its owner kept. -/
def slotEntry (task : BitVec 16) (tid lcore lclus : BitVec 5) (state : BitVec 3) (old : Word) : Word :=
  (task ++ tid ++ lcore ++ lclus ++ state ++ slotPart old ++ 0#28 : BitVec 64)

/-- Quarters made vacant: only their owners stay. -/
def State.vacateSlots (s : State) (ids : List Nat) : State :=
  ids.foldl (fun a n => a.setSlot n (slotEntry 0 0 0 0 0 (a.slot n))) s

/-- SLOT_PART_WRITE (R376): a PART field is written only while the STATE of its quarter is 0, and not in minimal mode (R408). -/
def execSlotPartWrite (n : Nat) (part : BitVec 2) (s : State) : Out :=
  .next (if n < 2304 && slotState (s.slot n) == 0 && !s.boot.minimal then
      s.setSlot n (setSlice (s.slot n) 28 part)
    else s)

/-! ## Vacate targets (R384, R387) -/

/-- Whether a quarter lies in the target of a vacate record. -/
def State.inTarget (s : State) (v : Vacate) (n : Nat) : Bool :=
  bitAt v.clus (n / 96) && bitAt v.parts (slotPart (s.slot n)).toNat

/-- Whether every quarter of a target is vacant. -/
def State.targetVacant (s : State) (v : Vacate) : Bool :=
  !s.gangs.any fun g => (s.slotsOf g).any fun n => s.inTarget v n

/-- A count of the report of every vacate that named a gang (R387): 0 run, 1 saved, 2 discarded, 3 killed. -/
def State.countVacates (s : State) (h : BitVec 16) (i : Nat) : State :=
  { s with vacates := updWhere s.vacates (fun v => !v.reported && v.gangs.any fun g => g.1 == h) fun v =>
      { v with
        counts := v.counts.mapIdx fun j n => if j = i then n + 1 else n
        gangs := v.gangs.filter fun g => g.1 != h } }

/-- Talus reports each target that has become vacant (R387, R417). -/
def State.reportVacates (s : State) : State :=
  s.vacates.foldl (fun a v =>
    if v.reported || !a.targetVacant v then a
    else
      let n (i : Nat) : Nat := v.counts.getD i 0
      let b : State := { a with
        vacates := updWhere a.vacates (fun x => x.handle == v.handle) fun x => { x with reported := true }
        reports := a.reports ++ [.vacated v.handle a.time3 (n 0) (n 1) (n 2) (n 3)] }
      b.record .talus .vacate (v.handle.setWidth 128)) s

/-! ## Retiring (R29) -/

/-- Whether a strand that has dispatched `end` may be marked ended (R29, R280). -/
def State.retires (s : State) (t : Strand) : Bool :=
  t.status == .ending && t.viq.isEmpty && t.rq.isEmpty && t.acc.isNone && t.vfault.isNone && t.tokp == 0
    && (s.copiesOf t.id.sid).isEmpty

/-- STRAND_RETIRE: the lanes' flags are gathered into the task's, the strand is marked ended. -/
def execStrandRetire (sid : Nat) (s : State) : Out :=
  match s.strand sid with
  | none => .next s
  | some t =>
    if !s.retires t then .next s
    else
      .next (((s.setGang t.id.handle fun g => { g with flags := g.flags ||| allLanes t.lflags }).put
        { t with status := .ended }).markSlots t.slotIds 3)

/-! ## Stopping a gang (R362, steps 1 to 3) -/

/-- Every request on its way, at its home or in a keystone. -/
def State.underWay (s : State) : List Request :=
  s.requests ++ s.keystones.flatMap fun k => k.queue ++ k.redir

/-- The accesses of strands that have not been performed dropped (R362). A combined request goes on whole (R272; log 21). -/
def State.dropRequests (s : State) (sids : List Nat) : State :=
  let combined (rid : Nat) : Bool := s.waitEntries.any fun w => w.rid == rid
  (s.underWay.filter fun r => sids.contains r.sid && !combined r.rid).foldl State.dropRequest s

/-- A gang's strands, accesses not yet performed, copies, barriers, bindings, windows, notices and saved contexts freed; its flags
are the OR over every strand, resident or saved (R378). -/
def State.clearGang (s : State) (h : BitVec 16) : State :=
  match s.gang h with
  | none => s
  | some _ =>
    let mine := s.strands.filter fun t => t.id.handle == h
    let away := (s.vault.filter fun v => v.handle == h).map Saved.ctx
    let sids := mine.map fun t => t.id.sid
    let s1 := (s.dropRequests sids).dropCopies sids
    { s1 with
      strands := s1.strands.filter fun t => t.id.handle != h
      replies := s1.replies.filter fun r => !mine.any fun t => t.acc.any fun a => a.rid == r.rid
      svcs := s1.svcs.filter fun v => !sids.any fun n => v.who.ofStrand n
      barriers := s1.barriers.filter fun b => b.handle != h
      notices := s1.notices.filter fun n => n.handle != h
      vault := s1.vault.filter fun v => v.handle != h
      saves := s1.saves.filter fun v => v.handle != h
      gangs := updWhere s1.gangs (fun x => x.handle == h) fun x =>
        { x with bindings := [], state := .failing 0, flags := (mine ++ away).foldl (fun a t => a ||| allLanes t.lflags) x.flags } }

/-- The gang stops at once: performed stores stay, and its arrivals held anywhere are dropped with the rest. -/
def State.stopGang (s : State) (h : BitVec 16) : State :=
  let s1 := s.clearGang h
  { s1 with
    arrivals := s1.arrivals.filter fun a => a.who.1 != h
    barriers := s1.barriers.map fun b => { b with held := b.held.filter fun a => a.who.1 != h } }

/-- The quarters of a gang vacant. -/
def State.release (s : State) (h : BitVec 16) : State :=
  match s.gang h with
  | none => s
  | some g => (s.vacateSlots (s.slotsOf g)).setGang h fun x => { x with bind := 0 }

/-- A stopped gang's task waits for its completion word with a status; until then the quarters it holds read STATE 5 (R376,
R380). -/
def State.failGang (s : State) (h : BitVec 16) (status : Nat) : State :=
  match s.gang h with
  | none => s
  | some g =>
    let slots := s.slotsOf g
    let s1 := (s.stopGang h).setGang h fun x => { x with state := .failing status, bind := if slots.isEmpty then 0 else x.bind }
    (s1.markSlots slots 5).reportVacates

/-- A gang's last trace gone; no vacate names its handle any more, which the next task may be given (R389). -/
def State.forgetGang (s : State) (h : BitVec 16) : State :=
  { s with
    gangs := s.gangs.filter fun x => x.handle != h
    vacates := s.vacates.map fun v => { v with gangs := v.gangs.filter fun g => g.1 != h } }

/-- Task indices in rising order. -/
def insertTask (g : Nat) : List Nat → List Nat
  | [] => [g]
  | x :: xs => if x < g then x :: insertTask g xs else g :: x :: xs

/-- The head task of a queue, by its card's number and its own. -/
def State.headOf (s : State) (queue : Nat) : Option (Nat × Nat) :=
  (s.headTask queue).map fun x => (x.1.cid, x.2)

/-- A stopped gang's task goes back to its queue, before every later task of it (R362, R386); a task that has not started still
stands there. The wait of the head begins where the head changes (R34). -/
def State.requeueGang (s : State) (h : BitVec 16) : State :=
  match s.gang h with
  | none => s
  | some g =>
    let s1 := ((s.release h).stopGang h).forgetGang h
    let queue := ((s1.cardOf g).map Card.queue).getD 0
    let s2 : State := { s1 with
      cards := updWhere s1.cards (fun c => c.cid == g.card && g.started) fun c => { c with requeue := insertTask g.g c.requeue } }
    let s3 : State :=
      if s2.headOf queue = s.headOf queue then s2
      else { s2 with queues := updWhere s2.queues (fun q => q.num == queue) fun q => { q with since := s.tick, promos := 0 } }
    s3.reportVacates.refreshOffers

/-- Whether a gang's card is re-runnable (R389). -/
def State.rerunnable (s : State) (g : Gang) : Bool :=
  ((s.cardOf g).map fun c => cardRerun c.bits).getD false

/-- Rollback (R362): a re-runnable task is requeued, but failed at its third rollback for a soft error; another completes
with INTEGRITY. -/
def State.rollback (s : State) (h : BitVec 16) (counts : Bool) : State :=
  match s.gang h with
  | none => s
  | some g =>
    match g.state with
    | .failing _ => s
    | _ =>
      if !s.rerunnable g then s.failGang h 3
      else
        let s1 : State := if counts then
            { s with cards := updWhere s.cards (fun c => c.cid == g.card) fun c => { c with rolled := g.g :: c.rolled } }
          else s
        let n : Nat := ((s1.cardOf g).map fun c => (c.rolled.filter fun x => x == g.g).length).getD 0
        if n ≥ 3 then s1.failGang h 3 else s1.requeueGang h

/-! ## Completion (R30, R378 to R380) -/

/-- The completion word (R378). -/
def completionWord (status : Nat) (flags : BitVec 7) (g : Nat) : Word :=
  (BitVec.ofNat 16 status ++ flags.setWidth 16 ++ BitVec.ofNat 32 g : BitVec 64)

/-- A write dropped under R378: counted in the error register and recorded (R406). -/
def State.droppedWrite (s : State) (part : BitVec 2) (addr : Word) (g : Nat) (post : Bool) : State :=
  let bump (x : BitVec 32) : BitVec 32 := if x = BitVec.allOnes 32 then x else x + 1
  let v := s.vfs[part.toNat]
  let lo : BitVec 32 := v.error.extractLsb' 0 32
  let hi : BitVec 32 := v.error.extractLsb' 32 32
  let err : Word := if post then bump hi ++ lo else hi ++ bump lo
  ({ s with vfs := s.vfs.set part.toNat { v with error := err } }).record (.faultProcessor part.toNat) .droppedWrite
    (0#31 ++ BitVec.ofBool post ++ BitVec.ofNat 32 g ++ addr : BitVec 128)

/-- The completion word and the post of task `g` written (R378). -/
def State.writeCompletion (s : State) (c : Card) (g status : Nat) (flags : BitVec 7) : Res Unit :=
  let ctx := s.outsideCtx c.asid
  let part := s.partOf c.asid
  let w := completionWord status flags g
  let cw := cardCwaddr c.bits + BitVec.ofNat 64 (8 * g)
  let post := cardPost c.bits
  ((s.writeBytes ctx cw (wordBytes 8 w)).orElse fun x => .ok () (x.droppedWrite part cw g false)).bind fun _ s1 =>
    if post = 0 then .ok () s1
    else (s1.writeBytes ctx post (wordBytes 8 w)).orElse fun x => .ok () (x.droppedWrite part post g true)

/-- A task has written its completion word: its card is finished with its last task. -/
def State.taskDone (s : State) (cid : Nat) : State :=
  let cards := updWhere s.cards (fun c => c.cid == cid) fun c => { c with done := c.done + 1 }
  ({ s with cards := cards.filter fun c => c.cid != cid || c.done < cardTasks c.bits }).refreshOffers

/-- A gang's last trace is freed with its completion (R380); an arrival its homes have accepted stands (R267). -/
def State.freeGang (s : State) (h : BitVec 16) : State :=
  (((s.release h).clearGang h).forgetGang h).reportVacates

/-- Whether every strand of a resident gang has ended. -/
def State.allEnded (s : State) (g : Gang) : Bool :=
  let mine := s.strands.filter fun t => t.id.handle == g.handle
  (g.state == .running || g.state == .saving) && mine.length == s.sizeOf g && mine.all fun t => t.status == .ended

/-- The task of an offer that fails R15. -/
def State.vlFails (s : State) (h : BitVec 16) : Option (Card × Nat) :=
  match s.offers.find? fun o => o.handle == h with
  | none => none
  | some o =>
    match s.cards.find? fun c => c.cid == o.card with
    | none => none
    | some c => if cardVlOk c.bits then none else some (c, o.g)

/-- DONE of a partition's reset status register, once no task of it waits to complete with STATUS 5 (R404, R405). -/
def State.resetDone (s : State) (part : BitVec 2) : State :=
  if s.gangs.any fun g => g.part == part && g.state == .failing 5 then s
  else { s with vfs := s.vfs.set part.toNat { s.vfs[part.toNat] with reset := s.vfs[part.toNat].reset ||| (1 <<< 63) } }

/-- GANG_COMPLETION: the task of a handle completes: its last strand has ended (OK), or it was stopped for good, or it is
an offered task outside its card's VL range (R15). -/
def execGangCompletion (gid : Nat) (s : State) : Out :=
  let h := BitVec.ofNat 16 gid
  match s.gang h with
  | none =>
    match s.vlFails h with
    | none => .next s
    | some (c, g) =>
      .next (s.outside (s.partOf c.asid).toNat (s.writeCompletion c g 1 0) id fun _ s1 =>
        (s1.taskStarted c g s.tick).taskDone c.cid)
  | some g =>
    match s.cardOf g with
    | none => .next s
    | some c =>
      let complete (status : Nat) (f : State → State) : State :=
        s.outside (s.partOf c.asid).toNat (s.writeCompletion c g.g status g.flags) id fun _ s1 =>
          -- a task that completes with IMAGE starts as it completes, any other has started with its bind (R32)
          let s2 := if g.started then s1 else s1.taskStarted c g.g (if status = 6 then s1.tick else g.boundAt)
          let s3 := ((f s2).freeGang h).taskDone c.cid
          if status = 5 then s3.resetDone g.part else s3
      match g.state with
      | .failing status => .next (complete status id)
      | _ => if s.allEnded g then .next (complete 0 fun x => x.countVacates h 0) else .next s

/-! ## Soft errors (R361, R362, R417) -/

/-- The gangs of some strands rolled back. -/
def State.rollbackOf (s : State) (sids : List Nat) : State :=
  let hs := ((s.strands.filter fun t => sids.contains t.id.sid).map fun t => t.id.handle).eraseDups
  hs.foldl (fun a h => a.rollback h true) s

/-- The die of a keystone: of a cluster, of a mesh router, the first of a crossing, the ridge's. -/
def keystoneDie (ks : Nat) : Nat :=
  if ks < 24 then ks / 6 else if ks < 48 then (ks - 24) / 6 else if ks < 96 then (ks - 48) / 8 else ridgeDie

/-- SOFT_ERROR: the gangs of the table of R361 are rolled back; a struck line meets those who access it later. -/
def execSoftError (what : Struck) (s : State) : Out :=
  match what with
  | .strand sid =>
    match s.strand sid with
    | none => .next s
    | some t => .next ((s.record (.die (dieOf t.id.pclus)) .softError (BitVec.ofNat 128 sid)).rollback t.id.handle true)
  | .gang handle =>
    let h := BitVec.ofNat 16 handle
    match s.gang h with
    | none => .next s
    | some g => .next ((s.record (.die (dieOf (bindPclus g.bind))) .softError (BitVec.ofNat 128 handle)).rollback h true)
  | .line l =>
    .next ({ s with soft := if s.soft.contains l then s.soft else l :: s.soft }.record
      (.stack (Config.stackOfLine l).val) .softError (BitVec.ofNat 128 l))
  | .vault slot =>
    match s.vault.find? fun v => !v.spilled && v.slots.contains slot with
    | none => .next s
    | some v => .next ((s.record (.die (dieOf (slot / 96))) .softError (BitVec.ofNat 128 slot)).rollback v.handle true)
  | .keystone ks n =>
    match (s.keystones.find? fun k => k.ks == ks).bind fun k => k.buf[n]? with
    | none => .next s
    | some w =>
      let s1 := (s.underWay.filter fun r => r.rid == w.rid).foldl State.dropRequest s
      let s2 : State := { s1 with keystones := s1.keystones.map fun k => { k with buf := k.buf.filter fun x => x.rid != w.rid } }
      .next ((s2.record (.die (keystoneDie ks)) .softError (BitVec.ofNat 128 ks)).rollbackOf (s.carried w.rid))

/-- HELD_REQUEST_TIMEOUT (R416): an access of an agent has waited more than 1 ms at a stack that is offline; its line takes a soft
error, which every access to it meets. -/
def execHeldRequestTimeout (n : Nat) (s : State) : Out :=
  match s.heldTooLong n with
  | some l => execSoftError (.line l) s
  | none => .next s

/-- ROUTE_TIMEOUT (R399): no route has reached the home of an access within 1 ms: a soft error at its line. -/
def execRouteTimeout (n : Nat) (s : State) : Out :=
  match s.unroutedTooLong n with
  | some l => execSoftError (.line l) s
  | none => .next s

/-- HANG_WATCHDOG_EXPIRY (R381): the supervisor is told, nothing else happens. The count is told of when it reaches the interval;
an interval written below it is reached no more. [DEDUCED, log 85] -/
def execHangWatchdogExpiry (handle : Nat) (s : State) : Out :=
  let h := BitVec.ofNat 16 handle
  match s.gang h with
  | none => .next s
  | some g =>
    .next (if g.state == .running && s.watchdog != 0 && g.idle == s.watchdog then
        { (s.setGang h fun x => { x with idle := x.idle + 1 }) with reports := s.reports ++ [.hang h] }
      else s)

/-! ## Fault services (R351, R356) -/

/-- FAULT_SERVICE_ANSWER: the owner's fault processor answers for a page; every access that waits there goes on. -/
def execFaultServiceAnswer (asid : BitVec 16) (page : Word) (retry : Bool) (s : State) : Out :=
  let asked (v : Svc) : Bool := v.asid == asid && v.page == va52 page / 2 ^ 16 && v.state == .waiting
  .next { s with svcs := updWhere s.svcs asked fun v =>
    if retry then { v with tries := v.tries + 1, state := .retried } else { v with state := .denied } }

/-- WALK_MIG_RETRY: 64 beats after a walk met a node under migration it restarts from the root. -/
def execWalkMigRetry (sid : Nat) (s : State) : Out :=
  let due (v : Svc) : Bool := v.who.number == sid && v.state == .migWait && s.tick - v.since ≥ 64
  .next { s with svcs := updWhere s.svcs due fun v => { v with state := .retried } }

/-! ## Repair and delivery (R135, R348, R382) -/

/-- Whether a trap waits for the supervisor's repair. -/
def Strand.repairDue (t : Strand) : Bool :=
  t.status == .trapped && !t.notice && !t.unrepaired && t.record.any fun r => r.info.cause == .fwdChain

/-- Whether a trap waits for its notice. -/
def Strand.noticeDue (t : Strand) : Bool :=
  t.status == .trapped && !t.notice && t.record.isSome && !t.repairDue

/-- A strand resumed from its record, whose gang is rolled back where the record fails its checks (R346, R347, R361). -/
def State.resumeChecked (s : State) (t : Strand) (r : Record) (pcNext : Word) : State :=
  if recordOk r.bytes then s.resumeTrap t { r with pcNext := pcNext }
  else (s.record (.die (dieOf t.id.pclus)) .softError (BitVec.ofNat 128 t.id.sid)).rollback t.id.handle true

/-- FWD_CHAIN_REPAIR (R135): the supervisor relinks the first forwarded line the access met and dispatches the strand
again; where the relink faults, the record takes its cause and the host is told. A relink that meets a soft error has no cause
to take: the record keeps FWD_CHAIN. [DESIGN CHOICE, log 74] -/
def execFwdChainRepair (sid : Nat) (s : State) : Out :=
  match s.strand sid with
  | none => .next s
  | some t =>
    match t.record with
    | none => .next s
    | some r =>
      if !t.repairDue then .next s
      else
        let key := (s.partOf t.id.asid).toNat
        let failed (c : Cause) (w : State) : State :=
          ((s.keepWait w).outsideDone key).put
            { t with unrepaired := true, record := some { r with info := { r.info with cause := c } } }
        .next (match s.relink (s.outsideCtx t.id.asid) r.info.value with
          | .ok _ w => (w.outsideDone key).resumeChecked t r r.pcNext
          | .flt c _ _ w => failed c w
          | .soft _ w => failed .fwdChain w
          | .wait w => { s.keepWait w with blocked := key :: s.blocked }
          | .held l w => { (s.keepWait w).outsideHeld key l with blocked := key :: s.blocked })

/-- The fault notice of a trapped strand (R348). -/
def noticeBytes (t : Strand) (r : Record) : List Byte :=
  wordBytes 8 r.info.pc ++ wordBytes 8 r.info.addr ++ wordBytes 8 r.info.value
    ++ leBytes 4 (causeCode r.info.cause) ++ leBytes 4 r.info.elem ++ leBytes 4 t.id.tid ++ wordBytes 4 t.id.gid
    ++ List.replicate 24 0

/-- FAULT_NOTICE: a trap that is not repaired is delivered: its notice enters the fault ring, waits while the ring is full,
and without a ring the gang is stopped as by an end answer. -/
def execFaultNotice (sid : Nat) (s : State) : Out :=
  match s.strand sid with
  | none => .next s
  | some t =>
    match t.record with
    | none => .next s
    | some r =>
      if !t.noticeDue then .next s
      else
        match s.page t.id.asid with
        | none => .next (s.failGang t.id.handle 2)
        | some p =>
          if p.frBase = 0 then .next (s.failGang t.id.handle 2)
          else if ringFull p.frSize p.frHead p.frTail then .next s
          else
            let written := ((s.writeRange (s.outsideCtx t.id.asid) 3 (ringEntry p.frBase p.frSize p.frTail)
              (noticeBytes t r)).orElse fun w => .ok () w)
            .next (s.outside (s.partOf t.id.asid).toNat written id fun _ s1 =>
              let s2 := s1.setPage t.id.asid fun p => { p with frTail := p.frTail + 1 }
              { s2.put { t with notice := true } with
                notices := s2.notices ++ [⟨t.id.asid, p.frTail, t.id.handle, t.id.tid, r.info.cause⟩] })

/-- The strand of a gang by its `tid`. -/
def State.member (s : State) (h : BitVec 16) (tid : Nat) : Option Strand :=
  s.strands.find? fun t => t.id.handle == h && t.id.tid == tid

/-- An answer applied to a resident strand: 1 resume, 2 end, 3 resume past (R382): fetch goes on behind the `brk`. -/
def State.applyAnswer (s : State) (h : BitVec 16) (tid code : Nat) : State :=
  if code = 2 then s.failGang h 2
  else
    match s.member h tid with
    | none => s
    | some t =>
      match t.record with
      | none => s
      | some r =>
        if t.status ≠ .trapped then s
        else s.resumeChecked t r (if code = 3 then r.pcNext + 2 else r.pcNext)

/-- An answer to notice `n` (R382): one that names no outstanding notice is ignored, as is resume past for a cause other
than BRK; one for a gang that is not resident applies when it is next resident (R349, R389). -/
def State.answerNotice (s : State) (asid : BitVec 16) (n : BitVec 32) (code : Nat) : State :=
  match s.notices.find? fun x => x.asid == asid && x.n == n with
  | none => s
  | some x =>
    if code = 3 && x.cause != .brk then s
    else
      let s1 : State := { s with notices := s.notices.filter fun y => !(y.asid == asid && y.n == n) }
      match s1.gang x.handle with
      | none => s1
      | some g =>
        if g.state = .running then s1.applyAnswer x.handle x.tid code
        else s1.setGang x.handle fun g => { g with answers := g.answers ++ [(BitVec.ofNat 2 code, x.tid, n.toNat)] }

/-- FANSWER_RESUME. -/
def execFanswerResume (asid : BitVec 16) (n : BitVec 32) (s : State) : Out :=
  .next (s.answerNotice asid n 1)

/-- FANSWER_END: the gang stops and its task completes with FAULTED. -/
def execFanswerEnd (asid : BitVec 16) (n : BitVec 32) (s : State) : Out :=
  .next (s.answerNotice asid n 2)

/-- FANSWER_RESUME_PAST: as a resume, with the PC at the head after the `brk`. -/
def execFanswerResumePast (asid : BitVec 16) (n : BitVec 32) (s : State) : Out :=
  .next (s.answerNotice asid n 3)

end Sys2Proof.Machine
end

