-- ==== Sys2Proof/Machine/Talus.lean ====
section
/-!
DEFINITION. Bind records (R374, R375), dispatch and resume (R16, R346, R347, R369, R377), saves (R28, R114, R340 to R345,
R383), the vacate rules of Talus (R384 to R389, R422), invalidation of translations (R359).
-/

namespace Sys2Proof.Machine

/-! ## The bind port (R374, R375) -/

/-- Hardware barriers that the gangs on a physical cluster hold (R375, R377). -/
def State.barriersHeld (s : State) (pclus : Nat) : Nat :=
  ((s.gangs.filter fun g => g.holdsBarriers && bindPclus g.bind == pclus).map fun g => s.barsOf g.handle).foldl (· + ·) 0

/-- The card and task a bind record's TASK names: an offer's for a first dispatch, a saved gang's for a resume. -/
def State.boundTask (s : State) (r : BitVec 512) : Option (Card × Nat) :=
  if bindKind r = 0 then
    match s.offers.find? fun o => o.handle == bindTask r with
    | none => none
    | some o => (s.cards.find? fun c => c.cid == o.card).bind fun c => if cardVlOk c.bits then some (c, o.g) else none
  else
    match s.gang (bindTask r) with
    | none => none
    | some g => if g.state = .saved then (s.cardOf g).map fun c => (c, g.g) else none

/-- Whether the port takes a record for a card (R375); in minimal mode it takes none (R408). -/
def State.bindOk (s : State) (r : BitVec 512) (c : Card) : Bool :=
  let n := cardGang c.bits
  let cores := (List.range n).map (bindCore r)
  let slots := bindSlots r n
  let vacant (k : Nat) : Bool := slotState (s.slot k) == 0 && !s.gangs.any fun g => (s.slotsOf g).contains k
  !s.boot.minimal && fieldNat r 0 112 == 0 && bindKind r != 3 && bindExt r != 0 && bindExt r % 4096 == 0
    && (quartersOf (bindQmask r)).length == cardQuarters c.bits
    && cores.length == cores.eraseDups.length && cores.all (fun k => decide (k < 24)) && decide (bindPclus r < 24)
    && slots.all (fun k => vacant k && slotPart (s.slot k) == s.partOf c.asid)
    && decide (s.barriersHeld (bindPclus r) + cardBars c.bits ≤ Config.barriersPerCluster)
    && !(slots.any fun k => s.vacates.any fun v => s.inTarget v k)

/-- The logical cluster of a bind record: the physical one at a first dispatch (R13, R374). -/
def bindClus (r : BitVec 512) : Nat :=
  if bindKind r = 0 then bindPclus r else bindLclus r

/-- The logical core of strand `t`. -/
def bindCoreOf (r : BitVec 512) (t : Nat) : Nat :=
  if bindKind r = 0 then bindCore r t else bindLcore r t

/-- The quarters of a gang labelled with their strands; `code` gives each its STATE. -/
def State.labelSlots (s : State) (r : BitVec 512) (n : Nat) (code : Nat → BitVec 3) : State :=
  (List.range n).foldl (fun a t =>
    ((quartersOf (bindQmask r)).map fun k => 96 * bindPclus r + 4 * bindCore r t + k).foldl (fun b k =>
      b.setSlot k (slotEntry (bindTask r) (BitVec.ofNat 5 t) (BitVec.ofNat 5 (bindCoreOf r t)) (BitVec.ofNat 5 (bindClus r))
        (code t) (b.slot k))) a) s

/-- BIND_RECORD: refused without a change, or every strand is bound at once (R9); its queue offers nothing before it starts (R32). -/
def execBindRecord (r : BitVec 512) (s : State) : Out :=
  match s.boundTask r with
  | none => .next s
  | some (c, g) =>
    if !s.bindOk r c then .next s
    else
      let s1 := s.labelSlots r (cardGang c.bits) fun _ => 0
      let new : Gang := ⟨bindTask r, c.cid, g, c.asid, s.partOf c.asid, .bound, 0, r, [], 0, 0, 0, [], false, s.tick⟩
      let s2 : State := { s1 with gangs := s1.gangs ++ [new] }
      .next (if bindKind r = 0 then s2.refreshOffers
        else s1.setGang (bindTask r) fun x => { x with state := .bound, kind := bindKind r, bind := r })

/-! ## First dispatch (R377) -/

/-- A card's images (R368, R369): the lane-table and slab bytes; none where a length passes its limit. -/
def State.readImages (s : State) (c : Ctx) (bits : BitVec 1024) : Res (Option (List Byte × List Byte)) :=
  let q := cardQuarters bits
  if cardImages bits = 0 then .ok (some ([], [])) s
  else
    (s.readBytes c (cardImages bits) 32).bind fun d s1 =>
      let w := BitVec.ofNat 256 (leNat d)
      let ltLen := fieldNat w 192 64
      let slabLen := fieldNat w 64 64
      if ltLen > 256 * q ∨ slabLen > 512 * 1024 * q then .ok none s1
      else
        (s1.readBytes c (w.extractLsb' 128 64) ltLen).bind fun lt s2 =>
          (s2.readBytes c (w.extractLsb' 0 64) slabLen).bind fun slab s3 => .ok (some (lt, slab)) s3

/-- The identity of strand `t` of a gang under a bind record (R12, R13). R13 fixes `core` and `clus` at the first dispatch and lays it
on the supervisor to name them again in LCORE and LCLUS: a resume takes those its record names, whatever they are.
[DESIGN CHOICE, log 75] -/
def identOf (r : BitVec 512) (g : Gang) (n t : Nat) : Ident :=
  let k := ((quartersOf (bindQmask r))[0]?).getD 0
  { sid := 96 * bindPclus r + 4 * bindCore r t + k
    handle := g.handle
    asid := g.asid
    part := g.part
    tid := t
    gsz := n
    gid := BitVec.ofNat 32 g.g
    pclus := bindPclus r
    pcore := bindCore r t
    clus := bindClus r
    core := bindCoreOf r t
    qmask := bindQmask r }

/-- A vector register at entry (R16). -/
def VecReg.zero : VecReg := ⟨.raw, 0⟩

/-- A tile at entry. -/
def Tile.zero : Tile := ⟨.raw, 0⟩

/-- The lane stores at entry: the image in every lane from byte 0 (R369). -/
def lanesOf (image : List Byte) : Vector (BitVec 8192) 256 :=
  Vector.replicate 256 (BitVec.ofNat 8192 (leNat image))

/-- The scalar registers at entry (R16, R369). -/
def entryRegs (bits : BitVec 1024) (g t : Nat) : Vector Word 32 :=
  let top := cardStack bits + BitVec.ofNat 64 ((g * cardGang bits + t + 1) * cardStksz bits)
  Vector.ofFn fun i => match i.val with
    | 2 => top
    | 3 => cardGp bits
    | 8 => cardArg bits 0
    | 9 => cardArg bits 1
    | 10 => cardArg bits 2
    | 11 => cardArg bits 3
    | _ => 0

/-- A strand at its first issue beat (R16). -/
def entryStrand (id : Ident) (s : Vector Word 32) (pc : Word) (lane : Vector (BitVec 8192) 256) : Strand where
  id := id
  s := s
  pc := pc
  seq := false
  fstat := 0
  prog := 0
  stlMem := 0
  tokp := 0
  vl := 0
  vtype := 0x018
  v := Vector.replicate 64 VecReg.zero
  k := Vector.replicate 8 0
  m := Vector.replicate 8 Tile.zero
  lflags := 0
  lane := lane
  win := none
  viq := []
  vcp := 0
  copen := false
  fresh := true
  rq := []
  vfault := none
  xch := .none
  acc := none
  vamo := none
  lbuf := []
  ibuf := []
  status := .running
  wait := .none
  record := none
  notice := false
  unrepaired := false
  stalled := false
  qstall := false
  moved := false
  held := none
  arrs := []
  gen := 0
  busy := false
  hold := none

/-- Memory without the bytes of some quarters. -/
def dropSlab (m : List Host.Cell) (id : Ident) : List Host.Cell :=
  m.filter fun c => !(slabBases id).any fun b => b.2 ≤ c.1 && c.1 < b.2 + 2 ^ 19

/-- A strand's slab quarters with these bytes and 0 elsewhere. -/
def putSlab (m : List Host.Cell) (id : Ident) (bytes : List Host.Cell) : List Host.Cell :=
  bytes.foldl (fun a c => match (slabBases id).find? fun b => b.1 == c.1 / 2 ^ 19 with
    | some b => Memory.set a (b.2 + c.1 % 2 ^ 19) c.2
    | none => a) (dropSlab m id)

/-- The strands of a first dispatch installed: the task has started (R32, R377). -/
def State.installGang (s : State) (g : Gang) (c : Card) (lt slab : List Byte) : State :=
  let n := cardGang c.bits
  let ids := (List.range n).map fun t => identOf g.bind g n t
  let new := ids.map fun id => entryStrand id (entryRegs c.bits g.g id.tid) (cardEntry c.bits) (lanesOf lt)
  let bytes := (slab.zipIdx.map fun x => ((x.2, x.1) : Host.Cell))
  let s1 : State := { s with
    strands := s.strands ++ new
    mem := ids.foldl (fun m id => putSlab m id bytes) s.mem }
  let s2 := s1.setGang g.handle fun x => { x with state := .running, bindings := c.binds, started := true }
  ((s2.labelSlots g.bind n fun _ => 1).taskStarted c g.g g.boundAt).refreshOffers

/-! ## Resume (R346, R347) -/

/-- A saved strand back on the quarters of a bind record. -/
def restoredStrand (v : Saved) (id : Ident) : Strand :=
  let t := v.ctx
  match t.status with
  | .trapped => { t with id := id, lbuf := [], record := some { v.record with copies := [] } }
  | .ended => { t with id := id }
  | .ending => { t.restore v.record with id := id, status := .ending }
  | _ => { t.restore v.record with id := id }

/-- STATE of a slot as its strand stands (R376). -/
def stateOf (st : Status) : BitVec 3 :=
  match st with
  | .trapped => 2
  | .ended => 3
  | _ => 1

/-- A strand resumed from where its bind record says its context lies: its lanes, tiles, window and flags, its masks from the context
extension, its slab; its copies are restarted under their tokens (R13, R114, R345, R374). -/
def State.resumeStrand (s : State) (g : Gang) (n : Nat) (v : Saved) : State :=
  let id := identOf g.bind g n v.ctx.id.tid
  let (m, bases) := s.contextAt v g.kind (bindSpill g.bind)
  let t := (restoredStrand v id).loaded m bases (s.readMasks (bindExt g.bind) bases.length id.tid)
  let new := v.record.copies.zipIdx.map fun x =>
    (⟨s.nextCid + x.2, some id.sid, id.asid, s.moverOf t, x.1, none, false, none⟩ : CopyOp)
  { s with
    strands := s.strands ++ [t]
    mem := putSlab s.mem id (slabOfContext m bases)
    copies := s.copies ++ new
    nextCid := s.nextCid + new.length }

/-- A gang resumed; answers given while it was away apply (R349). -/
def State.resumeGang (s : State) (g : Gang) (n : Nat) : State :=
  let mine := s.vault.filter fun v => v.handle == g.handle
  let s1 := mine.foldl (fun a v => a.resumeStrand g n v) s
  let code (t : Nat) : BitVec 3 := match mine.find? fun v => v.ctx.id.tid == t with
    | some v => stateOf v.ctx.status
    | none => 1
  let s2 : State := { s1 with
    vault := s1.vault.filter fun v => v.handle != g.handle
    barriers := updWhere s1.barriers (fun b => b.handle == g.handle) fun b => { b with pclus := bindPclus g.bind } }
  let s3 := (s2.setGang g.handle fun x => { x with state := .running, answers := [] }).labelSlots g.bind n code
  g.answers.foldl (fun a x => a.applyAnswer g.handle x.2.1 x.1.toNat) s3

/-- DISPATCH_GANG (R377): a first dispatch reads the images and loads the strands, or releases the quarters and completes the task
with IMAGE; a resume restores every strand, unless a record or a context fails its checks (R347, R361). -/
def execDispatchGang (handle : Nat) (s : State) : Out :=
  let h := BitVec.ofNat 16 handle
  match s.gang h with
  | none => .next s
  | some g =>
    match s.cardOf g with
    | none => .next s
    | some c =>
      if g.state ≠ .bound then .next s
      else if g.kind = 0 then
        let failed (w : State) : State := (w.release h).failGang h 6
        .next (s.outside (s.partOf g.asid).toNat (s.readImages (s.outsideCtx g.asid) c.bits) failed fun x s1 =>
          match x with
          | none => failed s1
          | some (lt, slab) => s1.installGang g c lt slab)
      else if s.vault.any fun v => v.handle == h && !s.contextOk v g.kind (bindSpill g.bind) then
        .next ((s.record .talus .softError (BitVec.ofNat 128 handle)).rollback h true)
      else .next (s.resumeGang g (cardGang c.bits))

/-! ## Saves (R383) -/

/-- Whether a save lets the first convoy of a strand run on to a boundary: it is ready, and is no exchange that has not begun, which
keeps until the resume (R26, R231). -/
def State.runsOn (s : State) (t : Strand) : Bool :=
  s.convoyReady t && s.issues (dieOf t.id.pclus)
    && !(t.xch == .none && (firstConvoy t.viq).1.any fun e => match e.i with
      | .vxch _ => true
      | _ => false)

/-- A strand at the start of a save: its open convoy closes; what stands first in its queue runs to the boundary at which the
pre-emption stops it, which R26 leaves open: a free one. A convoy on its way to a vector atomic's end stays (R26, log 66). -/
def State.drainStrand (s : State) (sid : Nat) : State :=
  match s.strand sid with
  | none => s
  | some t =>
    let u := { t.closeConvoy with held := none, hold := if t.busy then t.hold else none }
    let s1 := s.put u
    if s1.runsOn u && u.vamo.isNone then
      { s1.runConvoy u (some (Config.stopBoundary s1.freeCtr)) true with freeCtr := s1.freeCtr + 1 }
    else s1

/-- A save starts: dispatch stops, the open convoys close, STATE reads 4. -/
def State.startSave (s : State) (h : BitVec 16) : State :=
  match s.gang h with
  | none => s
  | some g =>
    if g.state ≠ .running ∨ s.allEnded g then s
    else
      let sids := (s.strands.filter fun t => t.id.handle == h).map fun t => t.id.sid
      let s1 : State := { s with saves := s.saves ++ [⟨h, s.tick⟩] }
      sids.foldl State.drainStrand ((s1.setGang h fun x => { x with state := .saving }).markSlots (s.slotsOf g) 4)

/-- SAVE_GANG: Talus drains each strand of the gang to its stop point. -/
def execSaveGang (handle : Nat) (s : State) : Out :=
  .next (s.startSave (BitVec.ofNat 16 handle))

/-- Whether a strand stands at its stop point (R26, R197, R246): nothing it has dispatched is outstanding, no exchange is
offered, no vector atomic is on its way, no entry is done without having completed, no fault of an entry waits. A head refused
behind entries that have not completed (R162, R165) is dispatched again by the resume. -/
def Strand.stopped (t : Strand) : Bool :=
  match t.status with
  | .ended => true
  | .trapped => true
  | .struck => false
  | _ =>
    t.acc.isNone && t.rq.isEmpty && t.vfault.all (fun f => f.index ≥ t.viq.length && !t.viq.isEmpty) && t.vamo.isNone && !t.busy && t.xch == .none
      && (match t.viq with
        | e :: _ => !e.done
        | [] => true)

/-- Whether a save may complete: every strand at its stop point, no line of a move between its homes (R114). -/
def State.saveReady (s : State) (g : Gang) : Bool :=
  g.state == .saving && !s.allEnded g
    && (s.strands.filter fun t => t.id.handle == g.handle).all fun t =>
      t.stopped && (s.copiesOf t.id.sid).all fun c => c.moving.isNone

/-- The beats the `vwait` that stands first has left, as a record without a cause holds them (R341). -/
def Strand.waitValue (t : Strand) : Word :=
  match t.wait, t.viq with
  | .flags _ left, _ => BitVec.ofNat 64 left
  | _, e :: _ =>
    match e.i with
    | .vwait _ => BitVec.ofNat 64 (e.left.getD (e.ops.getD 0 0).toNat)
    | _ => 0
  | _, [] => 0

/-- What a save writes for a strand (R341 to R345): its record, with cause NONE unless a trap is pending. -/
def State.saveRecord (s : State) (t : Strand) (rems : List Remainder) : Record :=
  match t.status, t.record with
  | .trapped, some r => { r with copies := rems }
  | _, _ =>
    let (epr, perf) := match t.viq with
      | e :: _ => (e.pos, if e.perf.isEmpty then none else some e.perf)
      | [] => (0, none)
    t.recordOf ⟨.none, 0, t.waitValue, 0, false, 0⟩ (s.pcNext t) t.viq epr perf rems

/-- A strand as a save leaves it: its queue is in the record; only the wait of `qdrain` stays with it. -/
def Strand.saved (t : Strand) : Strand :=
  { t with
    viq := []
    vfault := none
    stalled := false
    qstall := false
    held := none
    hold := none
    lbuf := []
    wait := match t.wait with
      | .queue q sd => .queue q sd
      | _ => .none }

/-- The gangs whose contexts lie in vault parts of these quarters (R383). -/
def State.contextsIn (s : State) (slots : List Nat) : List (BitVec 16) :=
  ((s.vault.filter fun v => !v.spilled && v.slots.any fun k => slots.contains k).map Saved.handle).eraseDups

/-- A strand's record and context in the vault, its masks in the context extension (R383, R345). -/
def State.saveStrand (s : State) (ext : Nat) (x : Strand × Record) : State :=
  (s.writeVault x.1 x.2).writeMasks x.1 ext

/-- SAVE_COMPLETE (R383): contexts already in the vault parts are spilled, records, contexts and slabs are written, the
quarters become vacant. -/
def execSaveComplete (handle : Nat) (s : State) : Out :=
  let h := BitVec.ofNat 16 handle
  match s.gang h with
  | none => .next s
  | some g =>
    if !s.saveReady g then .next s
    else
      let mine := s.strands.filter fun t => t.id.handle == h
      let slots := s.slotsOf g
      let recs := mine.map fun t => (t, s.saveRecord t ((s.copiesOf t.id.sid).map CopyOp.rem))
      let sids := mine.map fun t => t.id.sid
      let s1 := recs.foldl (fun a x => a.saveStrand (bindExt g.bind) x) ((s.contextsIn slots).foldl State.spill s)
      let s2 := mine.foldl (fun a t => a.endStrand t.id.sid) (s1.vacateSlots slots)
      let s3 : State := { s2 with
        strands := s2.strands.filter fun t => t.id.handle != h
        copies := s2.copies.filter fun c => !c.owner.any fun o => sids.contains o
        mem := mine.foldl (fun m t => dropSlab m t.id) s2.mem
        vault := s2.vault ++ recs.map fun x => ⟨h, x.1.slotIds, false, x.1.saved, x.2⟩
        saves := s2.saves.filter fun v => v.handle != h
        reports := s2.reports ++ [.saved h] }
      .next (((s3.setGang h fun x => { x with state := .saved }).countVacates h 1).reportVacates)

/-- A gang discarded where it is re-runnable, killed otherwise (R386, R388). -/
def State.discardOrKill (s : State) (h : BitVec 16) : State :=
  match s.gang h with
  | none => s
  | some g =>
    if s.rerunnable g then (s.countVacates h 2).requeueGang h else (s.countVacates h 3).failGang h 4

/-- Whether a save is to be abandoned (R388): 200 µs after its start, or 2 µs before the deadline of a vacate not yet delivered
that names its gang. -/
def State.saveExpired (s : State) (v : Save) : Bool :=
  decide (5 * (s.tick - v.since) ≥ 600000)
    || s.vacates.any fun r => !r.reported && (r.gangs.any fun g => g.1 == v.handle) && decide (r.deadline ≤ s.timeNs.toNat + 2000)

/-- SAVE_TIMEOUT (R388): an expired save is abandoned. -/
def execSaveTimeout (handle : Nat) (s : State) : Out :=
  let h := BitVec.ofNat 16 handle
  .next (if s.saves.any fun v => v.handle == h && s.saveExpired v then s.discardOrKill h else s)

/-! ## Vacates (R384 to R387, R422) -/

/-- The time c that Talus allows a gang's save (R385): longer where a vault part of its quarters holds a context. -/
def State.saveBound (s : State) (g : Gang) : Nat :=
  let parts := s.slotsOf g
  if s.vault.any fun v => !v.spilled && v.slots.any fun k => parts.contains k then 120000 else 70000

/-- The estimate and decision for a gang (R385, R386): `slack` is D - T in ns, `c` the time of its save, `first`
whether the first row counts. Times are compared in thirds of a nanosecond, five to a beat. -/
def State.judge (s : State) (g : Gang) (slack : Int) (c : Nat) (first : Bool) : Decision :=
  let bits := ((s.cardOf g).map Card.bits).getD 0
  let live := s.strands.filter fun t => t.id.handle == g.handle && t.status != .ended
  let p : Nat := ((leastBy (fun (t : Strand) => t.prog.toNat) live).map fun t => t.prog.toNat).getD 0
  let e : Int := 5 * g.resident
  let work : Int := cardWork bits
  let dur : Int := 3000 * cardDuration bits
  let room : Int := 3 * slack - 30000
  let (ends, low) : Bool × Bool :=
    if work > 0 ∧ p > 0 then
      (if (p : Int) ≥ work then decide (0 ≤ room) else decide (e * (work - p) ≤ p * room), decide (5 * (p : Int) < work))
    else if dur > 0 then (decide (max 0 (dur - e) ≤ room), decide (5 * e < dur))
    else (false, true)
  if first && ends then .run
  else if cardRerun bits && low then .discard
  else if (c : Int) ≤ slack then .checkpoint
  else if cardRerun bits then .discard else .kill

/-- The deadline a gang is judged against: the earliest of the records that name it (R384). -/
def State.deadlineOf (s : State) (h : BitVec 16) (d : Nat) : Nat :=
  (s.vacates.filter fun v => !v.reported && v.gangs.any fun g => g.1 == h).foldl (fun a v => min a v.deadline) d

/-- A decision carried out: a discard and a kill at once. -/
def State.carryOut (s : State) (h : BitVec 16) (d : Decision) : State :=
  match d with
  | .discard => (s.countVacates h 2).requeueGang h
  | .kill => (s.countVacates h 3).failGang h 4
  | _ => s

/-- What a new vacate notes of a gang: its decision and the time Talus acts on it, D - c; 0 where that time has passed already.
One whose strands have all ended counts as completed and is not decided (R31, R387); one already being saved is saved. -/
def State.entryFor (s : State) (g : Gang) (d now : Nat) : BitVec 16 × Decision × Nat :=
  let dl := s.deadlineOf g.handle d
  let c := s.saveBound g
  if s.allEnded g then (g.handle, .run, 2 ^ 64)
  else if g.state = .saving then (g.handle, .checkpoint, dl)
  else (g.handle, s.judge g ((dl : Int) - now) c true, if dl < now + c then 0 else dl - c)

/-- Whether a gang has been stopped for good. -/
def Gang.failing (g : Gang) : Bool :=
  match g.state with
  | .failing _ => true
  | _ => false

/-- VACATE_RECORD: rejected, or accepted with a handle; every gang of the target is decided (R384 to R386). The supervisor passes
none in minimal mode (R408). The reserved bits of
the record are ignored: R5 obliges software to write them 0 and says nothing of another value. [DESIGN CHOICE, log 65] -/
def execVacateRecord (r : BitVec 256) (s : State) : Out :=
  let d := fieldNat r 0 64
  let now := s.timeNs.toNat
  let forced := bitAt r 95
  let rejected : State := { s with reports := s.reports ++ [.rejected] }
  if s.boot.minimal then .next s
  else match freeNumber (s.vacates.map fun v => v.handle.toNat) 256 0 with
  | none => .next rejected
  | some n =>
    if d < now + 120000 && !forced then .next rejected
    else
      let v0 : Vacate := ⟨BitVec.ofNat 8 n, r.extractLsb' 88 4, r.extractLsb' 64 24, d, forced, [], [0, 0, 0, 0], false⟩
      let targets := s.gangs.filter fun g => !g.failing && (s.slotsOf g).any fun k => s.inTarget v0 k
      let judged := targets.map fun g => s.entryFor g d now
      let s1 : State := { s with
        vacates := s.vacates ++ [{ v0 with gangs := judged }]
        reports := s.reports ++ [.accepted v0.handle] }
      .next (judged.foldl (fun a x => a.carryOut x.1 x.2.1) s1).reportVacates

/-- A gang's decision in every vacate that names it replaced. -/
def State.setDecision (s : State) (h : BitVec 16) (d : Decision) : State :=
  { s with vacates := s.vacates.map fun v => { v with gangs := updWhere v.gangs (fun x => x.1 == h) fun x => (x.1, d, x.2.2) } }

/-- The decision that is due for a gang, and the time it was due. -/
def State.dueDecision (s : State) (h : BitVec 16) : Option (Decision × Nat) :=
  (((s.vacates.filter fun v => !v.reported).flatMap Vacate.gangs).find? fun x =>
    x.1 == h && x.2.2 ≤ s.timeNs.toNat && (x.2.1 == .run || x.2.1 == .checkpoint)).map fun x => x.2

/-- A gang of a target that is bound and not dispatched has nothing to save: one that resumes stays in the vault, one that has never
run goes back to its queue. R386 speaks of resident gangs alone. [DESIGN CHOICE, log 92] -/
def State.giveUp (s : State) (g : Gang) : State :=
  if g.kind = 0 then (s.countVacates g.handle 2).requeueGang g.handle
  else
    let s1 := (s.countVacates g.handle 1).release g.handle
    (s1.setGang g.handle fun x => { x with state := .saved }).reportVacates

/-- CHECKPOINT_START (R386): at D - c a checkpointed gang's save starts, and a gang left to run is decided again as of that
time, with the c of its acceptance. R386 names no moment for one whose D - c had passed at its acceptance: it is decided again at
once. [DESIGN CHOICE, log 86] -/
def execCheckpointStart (handle : Nat) (s : State) : Out :=
  let h := BitVec.ofNat 16 handle
  match s.gang h, s.dueDecision h with
  | some g, some (d, at_) =>
    if (g.state ≠ .running ∧ g.state ≠ .bound) ∨ s.allEnded g then .next s
    else
      let dl := s.deadlineOf h (2 ^ 64)
      let again := if at_ = 0 then s.judge g ((dl : Int) - s.timeNs.toNat) (s.saveBound g) false
        else s.judge g ((dl - at_ : Nat) : Int) (dl - at_) false
      let d1 := if d = .run then again else d
      .next (match d1 with
        | .checkpoint => if g.state = .bound then s.giveUp g else (s.setDecision h d1).startSave h
        | _ => (s.setDecision h d1).carryOut h d1)
  | _, _ => .next s

/-- VACATE_RELEASE (R422): the refusal of binds ends; a vacate not yet delivered is cancelled and reported. -/
def execVacateRelease (h : BitVec 8) (s : State) : Out :=
  match s.vacates.find? fun v => v.handle == h with
  | none => .next s
  | some v =>
    let s1 : State := { s with vacates := s.vacates.filter fun x => x.handle != h }
    let n (i : Nat) : Nat := v.counts.getD i 0
    let s2 : State := { s1 with reports := s1.reports ++ [.cancelled h (n 0) (n 1) (n 2) (n 3)] }
    .next (if v.reported then s1 else s2.record .talus .vacate (h.setWidth 128))

/-! ## Translations (R359) -/

/-- Whether an access that has been translated in an address space is on its way: a request, alone or in a combined one, or a line
of a move between its homes (R359). Every other access is translated and performed in one step. -/
def State.translated (s : State) (asid : BitVec 16) : Bool :=
  (s.underWay.any fun r => r.asid == asid
      || (s.carried r.rid).any fun sid => (s.strand sid).any fun t => t.id.asid == asid) || s.copies.any fun c => c.asid == asid && c.moving.isSome

/-- TLB_INVALIDATE (R359): no cached translation of the address space and range is left; it completes once every access that may
have used one has been performed or has faulted, and waits for them. -/
def execTlbInvalidate (asid : BitVec 16) (base len : Nat) (s : State) : Out :=
  let s1 : State := { s with tlb := s.tlb.filter fun e => !(e.asid == asid && rangesMeet e.base e.size base len) }
  .next (if s.translated asid then { s1 with blocked := waitKey (s.partOf asid) :: s1.blocked } else s1)

/-- TLB_REPLACEMENT: the cached translation of a page is dropped. -/
def execTlbReplacement (asid : BitVec 16) (page : Nat) (s : State) : Out :=
  .next { s with tlb := s.tlb.filter fun e => !(e.asid == asid && e.base ≤ page && page < e.base + e.size) }

/-- LINE_BUFFER_REPLACEMENT (R108): one line of a strand's part is dropped. -/
def execLineBufferReplacement (sid line : Nat) (s : State) : Out :=
  match s.strand sid with
  | none => .next s
  | some t => .next (s.put { t with lbuf := t.lbuf.filter fun b => b.va != line })

end Sys2Proof.Machine
end

