-- ==== Sys2Proof/Machine/Fabric.lean ====
section
/-!
DEFINITION. The host's memory window and AtomicOps (R390, R392), ridge links (R398, R399), the network engine (R400 to R403),
resets of a virtual function (R404 to R406), register writes (R5, R336).
-/

namespace Sys2Proof.Machine

/-! ## The host window (R392) -/

/-- The access context of the host's window in the address space of a record, under the key of its access. -/
def hostCtx (key : Nat) (asid : BitVec 16) : Ctx :=
  ⟨.outside key, asid, 4⟩

/-- The physical address in HBM4E that an HDM decoder gives `n` bytes of the window; none where no decoder holds them all (R392). -/
def State.hdmAddr (s : State) (addr n : Nat) : Option Nat :=
  (s.hdm.find? fun d => d.2.base ≤ addr && addr + n ≤ d.2.base + d.2.size).map fun d => d.2.paddr + (addr - d.2.base)

/-- The key of an access at a physical address of the window. -/
def keyAt (a : Nat) : Nat :=
  hostKey (lineOf (homeByte attrLoc 0 a))

/-- The key of an access of the host's window. -/
def State.windowKey (s : State) (addr n : Nat) : Option Nat :=
  (s.hdmAddr addr n).map keyAt

/-- The home byte a host access to the package's HBM4E ends at: line states are followed as R122 states, a record's target
in the record's own address space, with the permission the access needs (log 22). -/
def State.hostChase (s : State) (key : Nat) (need : Need) : (fuel : Nat) → (asid : Option (BitVec 16)) → (h : Nat) → Res Nat
  | 0, _, _ => .flt .fwdChain 0 0 s
  | fuel + 1, asid, h =>
    let l := lineOf h
    if s.closed l then s.shut l
    else if s.lineState l ≠ some .forwarded then .ok h s
    else
      let r := s.lineRecord l
      if asid.any fun a => a != recAsid r then .flt .fwdAsid 0 0 s
      else if fuel = 0 then .flt .fwdChain 0 0 s
      else
        let va := recTarget r ||| BitVec.ofNat 64 (h % 128)
        (s.translate (hostCtx key (recAsid r)) va (va52 va) need).bind fun e s1 =>
          if hasLines (pteAttr e.pte) then s1.hostChase key need fuel (some (recAsid r)) (entryHome e (va52 va))
          else .flt .fwdTarget 0 0 s1

/-- The home of a host access checked for what it does there. -/
def State.hostHome (s : State) (key : Nat) (addr : Nat) (need : Need) (whole : Bool) : Res Nat :=
  (s.hostChase key need 4 none (homeByte attrLoc 0 addr)).bind fun h s1 =>
    (s1.atHome (hostCtx key 0) 0 ⟨h, 0, 0, homeAttr h, s1.lineState (lineOf h)⟩ need whole).bind fun l s2 => .ok l.home s2

/-- The bytes of a host write in one line; a whole line is corrected by it (R361). -/
def State.hostStore (s : State) (h : Nat) (bs : List Byte) : State :=
  { s.writeHome h bs with soft := if bs.length = 128 then s.soft.erase (lineOf h) else s.soft }

/-- A host write, line by line; a line that cannot serve it is left as it is. -/
def State.hostWrite (s : State) (key : Nat) : (fuel : Nat) → (addr : Nat) → List Byte → Res Unit
  | 0, _, _ => .ok () s
  | fuel + 1, addr, bs =>
    if bs.isEmpty then .ok () s
    else
      let n := min bs.length (128 - addr % 128)
      (((s.hostHome key addr .write (n == 128)).bind fun h s1 => .ok () (s1.hostStore h (bs.take n))).orElse fun w =>
        .ok () w).bind fun _ s2 => s2.hostWrite key fuel (addr + n) (bs.drop n)

/-- A host read, byte by byte. -/
def State.hostRead (s : State) (key : Nat) : (n : Nat) → (addr : Nat) → Res (List Byte)
  | 0, _ => .ok [] s
  | n + 1, addr =>
    (((s.hostHome key addr .read false).bind fun h s1 => .ok (Memory.get s1.mem h) s1).orElse fun w =>
      .ok (Config.hostUnserved (homeByte attrLoc 0 addr)) w).bind fun b s2 =>
        (s2.hostRead key n (addr + 1)).bind fun bs s3 => .ok (b :: bs) s3

/-- The completion of a host access that nothing serves. -/
def State.unsupported (s : State) : State :=
  { s with completion := .unsupported, hostReply := [] }

/-- HOST_HDM_WRITE: performed at the home of each line. -/
def execHostHdmWrite (addr : Nat) (data : List Byte) (s : State) : Out :=
  match s.hdmAddr addr data.length with
  | none => .next s.unsupported
  | some a => .next (s.outside (keyAt a) (s.hostWrite (keyAt a) (data.length + 1) a data) id fun _ s1 => { s1 with completion := .success })

/-- HOST_HDM_READ: served at the home of each line. -/
def execHostHdmRead (addr n : Nat) (s : State) : Out :=
  match s.hdmAddr addr n with
  | none => .next s.unsupported
  | some a => .next (s.outside (keyAt a) (s.hostRead (keyAt a) n a) id fun bs s1 => { s1 with hostReply := bs, completion := .success })

/-- ATOMICOP_AS_COMPLETER (R390): FetchAdd, Swap or CAS of the host on 32 or 64 bits, indivisible at its home; the old value
goes back. Another operation, a misaligned word and a word its line cannot serve get Unsupported Request (log 22). -/
def execAtomicopAsCompleter (addr : Nat) (op : AmoOp) (wide : Bool) (operand compare : Word) (s : State) : Out :=
  let n := if wide then 8 else 4
  match s.hdmAddr addr n with
  | none => .next s.unsupported
  | some a =>
    if !amoHostOk op || addr % n != 0 then .next s.unsupported
    else
      .next (s.outside (keyAt a) (s.hostHome (keyAt a) a .both false) State.unsupported fun h s1 =>
        let (old, s2) := s1.amoAt h op n operand.toNat compare.toNat
        { s2 with completion := .success, hostReply := leBytes n old })

/-! ## Ridge links -/

/-- FLIT_RETRY (R398): a retry changes only time. -/
def execFlitRetry (_link : Nat) (s : State) : Out :=
  .next s

/-- LINK_FAILURE (R399): the link is down and the routing table rewritten; requests sent on it are performed once each, since
none is performed before its home takes it. -/
def execLinkFailure (link : Nat) (routes : List (BitVec 6 × BitVec 4)) (s : State) : Out :=
  let up := s.linkUp &&& ~~~(1#16 <<< link)
  .next { s with linkUp := up, routes := routes.foldl (fun v r => v.set r.1.toNat r.2) s.routes }

/-! ## The network engine (R400 to R403) -/

/-- SQLOG, RQLOG. -/
def qpLog (c : BitVec 512) (recv : Bool) : Nat := if recv then fieldNat c 88 4 else fieldNat c 92 4
/-- SQBASE, RQBASE. -/
def qpBase (c : BitVec 512) (recv : Bool) : Word := if recv then c.extractLsb' 384 64 else c.extractLsb' 448 64
/-- SQTAIL, RQTAIL. -/
def qpTailAt (c : BitVec 512) (recv : Bool) : Word := if recv then c.extractLsb' 256 64 else c.extractLsb' 320 64
/-- SQHEAD, RQHEAD. -/
def qpHeadAt (c : BitVec 512) (recv : Bool) : Word := if recv then c.extractLsb' 128 64 else c.extractLsb' 192 64
/-- STATE. -/
def qpState (c : BitVec 512) : Nat := fieldNat c 82 2
/-- PART. -/
def qpPart (c : BitVec 512) : BitVec 2 := c.extractLsb' 80 2
/-- ASID. -/
def qpAsid (c : BitVec 512) : BitVec 16 := c.extractLsb' 64 16

/-- The head and tail of one of a pair's queues. -/
def Qp.ends (q : Qp) (recv : Bool) : BitVec 32 × BitVec 32 :=
  if recv then (q.rhead, q.rtail) else (q.shead, q.stail)

/-- A queue pair by its number. -/
def State.qpOf (s : State) (n : Nat) : Option Qp :=
  s.qps.find? fun q => q.qp == n

/-- A queue pair replaced. -/
def State.setQp (s : State) (q : Qp) : State :=
  { s with qps := updWhere s.qps (fun x => x.qp == q.qp) fun _ => q }

/-- A queue pair in another STATE. -/
def Qp.inState (q : Qp) (st : BitVec 2) : Qp :=
  { q with ctx := setSlice q.ctx 82 st }

/-- QP_CONTEXT_WRITE (R400, R402): MTU 3 and STATE 3 are refused, as is the way from STATE 2 to STATE 1 but through 0. A context
written with STATE 0 starts its counts at 0. A base or count word that is not aligned as R400 says and a SQLOG or RQLOG below 4
are taken as they are written. [DESIGN CHOICE, log 88] A context with a nonzero reserved field is refused whole: R5 obliges software to
write 0 there and R400 names no refusal for another value. [DESIGN CHOICE, log 65] -/
def execQpContextWrite (qp : Nat) (ctx : BitVec 512) (s : State) : Out :=
  let bad := fieldNat ctx 84 2 == 3 || qpState ctx == 3 || fieldNat ctx 96 8 != 0 || fieldNat ctx 16 48 != 0
    || qp ≥ Config.queuePairs
  if bad then .next s
  else
    match s.qpOf qp with
    | none => .next { s with qps := s.qps ++ [⟨qp, ctx, 0, 0, 0, 0, none⟩] }
    | some q =>
      if qpState q.ctx == 2 && qpState ctx == 1 then .next s
      else if qpState ctx == 0 then .next (s.setQp ⟨qp, ctx, 0, 0, 0, 0, none⟩)
      else .next (s.setQp { q with ctx := ctx })

/-- The address of entry `n` of a queue (R401). -/
def entryAt (c : BitVec 512) (recv : Bool) (n : BitVec 32) : Word :=
  qpBase c recv + BitVec.ofNat 64 (64 * (n.toNat % 2 ^ qpLog c recv))

/-- A count word of a queue pair, as the engine reads it. -/
def State.countWord (s : State) (c : BitVec 512) (va : Word) : Res (BitVec 32) :=
  (s.readBytes (s.outsideCtx (qpAsid c)) va 8).bind fun bs s1 => .ok (BitVec.ofNat 32 (leNat bs)) s1

/-- Whether a tail runs more than the queue ahead of its head (R402). -/
def tailOverruns (c : BitVec 512) (recv : Bool) (head tail : BitVec 32) : Bool :=
  (tail - head).toNat > 2 ^ qpLog c recv

/-- The key of a pair's accesses. -/
def State.qpKey (s : State) (q : Qp) : Nat :=
  (s.partOf (qpAsid q.ctx)).toNat

/-- Whether the engine works on a pair: it is in STATE 1 or 2, and the engine is up (R400, R408). -/
def State.qpWorks (s : State) (q : Qp) : Bool :=
  (qpState q.ctx == 1 || qpState q.ctx == 2) && !s.boot.minimal

/-- NE_TAIL_UPDATE: the engine takes the tail words that their homes report, in STATE 2 too, where their entries are flushed
(R402); one that runs too far ahead puts the pair in STATE 2. -/
def execNeTailUpdate (qp : Nat) (s : State) : Out :=
  match s.qpOf qp with
  | none => .next s
  | some q =>
    if !s.qpWorks q then .next s
    else
      .next (s.outside (s.qpKey q) ((s.countWord q.ctx (qpTailAt q.ctx false)).bind fun a s1 =>
          (s1.countWord q.ctx (qpTailAt q.ctx true)).bind fun b s2 => .ok (a, b) s2)
        (fun w => w.setQp (q.inState 2)) fun (a, b) s1 =>
          let q1 := { q with stail := a, rtail := b }
          s1.setQp (if tailOverruns q.ctx false q.shead a || tailOverruns q.ctx true q.rhead b then q1.inState 2 else q1))

/-- A work entry (R401). -/
structure WorkEntry where
  op    : Nat
  rdf   : Bool
  len   : Nat
  laddr : Word
  raddr : Word
  rkey  : BitVec 32
  caddr : Word
  zero  : Bool
  deriving DecidableEq, Repr

/-- The fields of a work entry. -/
def workEntry (e : BitVec 512) : WorkEntry where
  op := fieldNat e 0 8
  rdf := bitAt e 8
  len := fieldNat e 32 32
  laddr := e.extractLsb' 64 64
  raddr := e.extractLsb' 128 64
  rkey := e.extractLsb' 224 32
  caddr := e.extractLsb' 256 64
  zero := fieldNat e 9 23 == 0 && fieldNat e 192 32 == 0 && fieldNat e 320 192 == 0

/-- Whether an entry may stand in a queue (R401, R402). R401 gives LEN up to 2^31 and a greater one no fate: it is taken as it is.
[DESIGN CHOICE, log 89] -/
def WorkEntry.ok (e : WorkEntry) (recv : Bool) : Bool :=
  e.zero && (if recv then e.op == 4 else decide (e.op ≤ 3))

/-- A completion value (R402). -/
def neValue (status bytes : Nat) (n : BitVec 32) : Word :=
  (BitVec.ofNat 8 status ++ BitVec.ofNat 32 bytes ++ n.setWidth 24 : BitVec 64)

/-- Entry `n` of a queue, read at system scope. -/
def State.readEntry (s : State) (c : BitVec 512) (recv : Bool) (n : BitVec 32) : Res WorkEntry :=
  (s.readBytes (s.outsideCtx (qpAsid c)) (entryAt c recv n) 64).bind fun bs s1 => .ok (workEntry (BitVec.ofNat 512 (leNat bs))) s1

/-- The entry at a queue's head has been worked on: what its completion will say. -/
def State.neDone (s : State) (q : Qp) (recv : Bool) (caddr : Word) (status bytes : Nat) : State :=
  s.setQp { q with done := some (recv, caddr, neValue status bytes (q.ends recv).1) }

/-- The engine works on the send entry at a pair's head, if it has the OP `op`: `f` gives its status and bytes. A bad entry
completes with BAD_ENTRY whichever OP is tried; one that cannot be read, with LOCAL_FAULT. -/
def State.neWork (s : State) (qp op : Nat) (f : Ctx → WorkEntry → State → Res (Nat × Nat)) : State :=
  match s.qpOf qp with
  | none => s
  | some q =>
    if qpState q.ctx ≠ 1 || s.boot.minimal || q.done.isSome || q.shead == q.stail then s
    else
      let ctx := s.outsideCtx (qpAsid q.ctx)
      s.outside (s.qpKey q) (s.readEntry q.ctx false q.shead) (fun w => w.neDone q false 0 2 0) fun e s1 =>
        if !e.ok false then s1.neDone q false e.caddr 1 0
        else if e.op ≠ op then s
        else s1.outside (s.qpKey q) (f ctx e s1) (fun w => w.neDone q false e.caddr 2 0) fun r s2 => s2.neDone q false e.caddr r.1 r.2

/-- The status a remote side's answer gives (R402). -/
def remoteStatus : Remote → Nat
  | .ok _ => 0
  | .nak => 3
  | .retryExceeded => 4

/-- NE_NOP. -/
def execNeNop (qp : Nat) (s : State) : Out :=
  .next (s.neWork qp 0 fun _ _ w => .ok (0, 0) w)

/-- NE_SEND: the local buffer is read at system scope and sent. -/
def execNeSend (qp : Nat) (r : Remote) (s : State) : Out :=
  .next (s.neWork qp 1 fun c e w => (w.readBytes c e.laddr e.len).bind fun _ w1 =>
    .ok (remoteStatus r, if remoteStatus r = 0 then e.len else 0) w1)

/-- NE_WRITE: the local buffer is written to remote memory. -/
def execNeWrite (qp : Nat) (r : Remote) (s : State) : Out :=
  .next (s.neWork qp 2 fun c e w => (w.readBytes c e.laddr e.len).bind fun _ w1 =>
    .ok (remoteStatus r, if remoteStatus r = 0 then e.len else 0) w1)

/-- NE_READ: remote memory is read into the local buffer. -/
def execNeRead (qp : Nat) (r : Remote) (s : State) : Out :=
  .next (s.neWork qp 3 fun c e w => match r with
    | .ok data =>
      let bs := data.take e.len
      (w.writeRange c (bs.length + 1) e.laddr bs).bind fun _ w1 => .ok (0, bs.length) w1
    | _ => .ok (remoteStatus r, 0) w)

/-- NE_RECV: an incoming SEND consumes the next receive entry and writes its data; with none posted it is not taken. -/
def execNeRecv (qp : Nat) (data : List Byte) (s : State) : Out :=
  match s.qpOf qp with
  | none => .next s
  | some q =>
    if qpState q.ctx ≠ 1 || s.boot.minimal || q.done.isSome || q.rhead == q.rtail then .next s
    else
      let ctx := s.outsideCtx (qpAsid q.ctx)
      .next (s.outside (s.qpKey q) (s.readEntry q.ctx true q.rhead) (fun w => w.neDone q true 0 2 0) fun e s1 =>
        if !e.ok true then s1.neDone q true e.caddr 1 0
        else if data.length > e.len then s1.neDone q true e.caddr 2 0
        else s1.outside (s.qpKey q) (s1.writeRange ctx (data.length + 1) e.laddr data) (fun w => w.neDone q true e.caddr 2 0) fun _ s2 =>
          s2.neDone q true e.caddr 0 data.length)

/-- A completion value, then the advanced head word (R402); a write that faults is lost (log 23). -/
def State.neWrites (s : State) (q : Qp) (recv : Bool) (caddr value : Word) : Res Unit :=
  let c := s.outsideCtx (qpAsid q.ctx)
  let first : Res Unit :=
    if caddr = 0 then .ok () s else (s.writeRange c 3 caddr (wordBytes 8 value)).orElse fun w => .ok () w
  first.bind fun _ s1 =>
    (s1.writeRange c 3 (qpHeadAt q.ctx recv) (leBytes 8 ((q.ends recv).1 + 1).toNat)).orElse fun w => .ok () w

/-- A queue's head advanced. -/
def Qp.advance (q : Qp) (recv : Bool) : Qp :=
  if recv then { q with rhead := q.rhead + 1 } else { q with shead := q.shead + 1 }

/-- NE_ENTRY_COMPLETE: the completion value, then the head word are written; a status other than OK puts the pair in STATE
2, where each entry left completes with FLUSHED, in order. -/
def execNeEntryComplete (qp : Nat) (s : State) : Out :=
  match s.qpOf qp with
  | none => .next s
  | some q =>
    if s.boot.minimal then .next s
    else
    match q.done with
    | some (recv, caddr, value) =>
      .next (s.outside (s.qpKey q) (s.neWrites q recv caddr value) id fun _ s1 =>
        let q1 := { q.advance recv with done := none }
        s1.setQp (if value >>> 56 = 0 then q1 else q1.inState 2))
    | none =>
      if qpState q.ctx ≠ 2 then .next s
      else
        let flush (recv : Bool) : State :=
          let n := (q.ends recv).1
          s.outside (s.qpKey q) ((s.readEntry q.ctx recv n).orElse fun w => .ok (workEntry 0) w) id fun e s1 =>
            s1.outside (s.qpKey q) (s1.neWrites q recv e.caddr (neValue 5 0 n)) id fun _ s2 => s2.setQp (q.advance recv)
        .next (if q.shead != q.stail then flush false else if q.rhead != q.rtail then flush true else s)

/-! ## VF reset (R404, R405) -/

/-- Bits counted into a field of 16 bits, saturating. -/
def saturate16 (n : Nat) : BitVec 16 :=
  BitVec.ofNat 16 (min n 65535)

/-- The slot number that stands for no strand. -/
def orphanSid : Nat := 4096

/-- The sub-operations of a strand's vector atomic that have reached their homes (R270, R404). -/
def State.subsOf (s : State) (t : Strand) : List Nat :=
  ((s.underWay.filter fun r => r.vec && r.sid == t.id.sid && r.tried).map Request.attr) ++ t.subsReached
    ++ (firstConvoy t.viq).1.flatMap Entry.subs

/-- Whether the sub-operation of a request has reached its home (R270, R404). -/
def State.subReached (s : State) (r : Request) : Bool :=
  (s.strand r.sid).any fun t => (s.subsOf t).contains r.attr

/-- Whether a reset lets a request complete (R404): a combined one that has reached its home, or an element of a sub-operation
that has. -/
def State.completes (s : State) (r : Request) : Bool :=
  if s.waitEntries.any fun w => w.rid == r.rid then r.tried else r.vec && s.subReached r

/-- A request that completes without its strand: it is performed at its home at once, or stays there until it can be. -/
def State.completeAlone (s : State) (r : Request) : State :=
  let r1 := { r with sid := orphanSid, route := [], delay := 0, stalled := false }
  let s1 := { s.dropRequest { r with via := [] } with requests := (s.dropRequest { r with via := [] }).requests ++ [r1] }
  s1.performAt r1

/-- Whether the request or the reply that an entry of a wait buffer waits for is still on its way, through at most `fuel` more
entries. -/
def State.live (s : State) : (fuel rid : Nat) → Bool
  | 0, _ => false
  | fuel + 1, rid =>
    (s.underWay.any fun r => r.rid == rid) || (s.replies.any fun r => r.rid == rid)
      || s.waitEntries.any fun w => (w.left == rid || w.right == rid) && s.live fuel w.rid

/-- The wait buffers without the entries of requests that were dropped. -/
def State.dropDead (s : State) : State :=
  let n := s.waitEntries.length + 1
  { s with keystones := s.keystones.map fun k => { k with buf := k.buf.filter fun w => s.live n w.rid } }

/-- Step 3 of a reset (R404): the requests of a partition that complete do so, every other is dropped. -/
def State.resetRequests (s : State) (vf : BitVec 2) : State :=
  let mine := s.underWay.filter fun r => r.part == vf
  let s1 := (mine.filter s.completes).foldl State.completeAlone s
  ((mine.filter fun r => !s.completes r).foldl State.dropRequest s1).dropDead

/-- What a vector atomic in flight has not sent yet, a group at a time: the elements of sub-operations that have reached their homes
are performed (R404), and whether an element of another is dropped (R405). `t` and its convoy only say what the elements are:
the strand itself has stopped. -/
def State.finishSubs (t : Strand) (es : List Entry) (vl stop : Nat) (subs : List Nat) :
    (fuel : Nat) → State → List (Nat × Word × BitVec 7) → State × Bool
  | 0, s, _ => (s, false)
  | fuel + 1, s, got =>
    match attempt t s es vl stop none (some got) false with
    | .sent x _ =>
      let mine := x.reqs.filter fun q => subs.contains q.2.attr
      let s1 := mine.foldl (fun (a : State) q =>
        ({ a with nextRid := a.nextRid + 1 } : State).completeAlone { q.2 with rid := a.nextRid }) s
      let (s2, cut) := State.finishSubs t es vl stop subs fuel s1 (got ++ x.reqs.map fun q => (q.1, 0, 0))
      (s2, cut || mine.length < x.reqs.length)
    | .done _ _ _ _ => (s, false)
    | _ => (s, true)

/-- The vector atomic of a strand as a reset finds it: its convoy's `vl`, where it was to stop, and the elements that are no longer to
be sent, where some of it has been sent. -/
def Strand.amoLeft (t : Strand) : Option (Nat × Nat × List (Nat × Word × BitVec 7)) :=
  match t.vamo with
  | some a => some (a.vl, a.stop, (List.range a.hi).map fun e => (e, 0, 0))
  | none => ((firstConvoy t.viq).1.find? fun e => isVamo e.i && !e.done && (e.pos != 0 || !e.perf.isEmpty)).map fun e =>
      (e.vl, e.vl, [])

/-- Step 3 of a reset for the elements of a partition's vector atomics that are not under way, as the reset found them in `s`
(R404): whether one is dropped. -/
def State.finishAmos (s s0 : State) (vf : BitVec 2) : State × Bool :=
  (s.strands.filter fun t => t.id.part == vf).foldl (fun (a : State × Bool) t =>
    match t.amoLeft with
    | none => a
    | some (vl, stop, got) =>
      let (s1, cut) := State.finishSubs { t with vamo := none } (firstConvoy t.viq).1 vl stop (s.subsOf t) (groupsOf vl + 1) a.1 got
      (s1, a.2 || cut)) (s0, false)

/-- Whether a reset drops a request that carries an element of a vector atomic (R405). -/
def State.cutsAmo (s : State) (vf : BitVec 2) : Bool :=
  let ids (r : Request) : List Nat := leavesOf s.waitEntries s.waitEntries.length r.rid
  s.underWay.any fun r => r.part == vf && !s.completes r
    && s.strands.any fun t => t.vamo.any fun a => a.sent.any fun x => (ids r).contains x.2.1

/-- VF_RESET: the partition's gangs stop at once, its tasks that were bound, resident or saved complete with STATUS 5, cards
with no task bound are discarded, its pages and queue pairs return to their reset values. -/
def execVfReset (vf : BitVec 2) (s : State) : Out :=
  let mine := s.gangs.filter fun g => g.part == vf && !g.failing
  let hs := mine.map Gang.handle
  let sids := (s.strands.filter fun t => hs.contains t.id.handle).map fun t => t.id.sid
  let cut := s.copies.any fun c => c.owner.any fun o => sids.contains o
  let (s0, left) := s.finishAmos (s.resetRequests vf) vf
  let s1 := hs.foldl (fun a h => (a.failGang h 5).setGang h fun g => { g with started := true }) s0
  let ours (c : Card) : Bool := s.partOf c.asid == vf
  let waiting (c : Card) : Nat := (s1.gangs.filter fun g => g.card == c.cid).length
  let gone := (s1.cards.filter fun c => ours c && waiting c == 0).length
  let kept := (s1.cards.filter fun c => !(ours c && waiting c == 0)).map fun c =>
    if ours c then { c with started := cardTasks c.bits, requeue := [], done := cardTasks c.bits - waiting c } else c
  let old := s.vfs[vf.toNat].reset
  let flags : BitVec 3 := old.extractLsb' 61 3 ||| (if cut then 1 else 0) ||| (if s.cutsAmo vf || left then 2 else 0)
  let reg : Word := flags ++ 0#13 ++ saturate16 hs.length ++ saturate16 gone ++ 0#16
  let s2 : State := { s1 with
    cards := kept
    offers := s1.offers.filter fun o => kept.any fun c => c.cid == o.card && !ours c
    pages := s1.pages.map fun p => if p.part = vf then ⟨p.asid, p.part, 0, 0, 0, 0, 0, 0, 0, 0, 0⟩ else p
    qps := s1.qps.map fun q => if qpPart q.ctx = vf then ⟨q.qp, setSlice q.ctx 82 (0 : BitVec 2), 0, 0, 0, 0, none⟩ else q
    vfs := s1.vfs.set vf.toNat ⟨reg, 0⟩ }
  .next (s2.resetDone vf)

/-- ERROR_REGISTER_WRITE (R406): any write clears both counts. -/
def execErrorRegisterWrite (vf : BitVec 2) (_w : Word) (s : State) : Out :=
  .next { s with vfs := s.vfs.set vf.toNat { s.vfs[vf.toNat] with error := 0 } }

/-! ## Register writes (R5) -/

/-- A queue opened to an address space, or opened to another (R363, R421). -/
def State.openQueue (s : State) (n : Nat) (asid : BitVec 16) : State :=
  if n ≥ Config.queueCount then s
  else if s.queues.any fun q => q.num == n then
    { s with queues := updWhere s.queues (fun q => q.num == n) fun q => { q with asid := asid } }
  else { s with queues := s.queues ++ [⟨n, asid, 1, Vector.replicate 4 0, Vector.replicate 4 0, none, s.tick, 0⟩] }

/-- FANSWER written (R382): a code of 0 and nonzero bits [61:32] are ignored. -/
def State.fanswer (s : State) (asid : BitVec 16) (w : BitVec 128) : State :=
  let code := fieldNat w 62 2
  if code = 0 ∨ fieldNat w 32 30 ≠ 0 then s else s.answerNotice asid (w.extractLsb' 0 32) code

/-! ## Throttle groups (R414) -/

/-- The package's dies in a group. -/
def State.groupDies (s : State) (g : Nat) : List Nat :=
  (List.range 4).filter fun i => (s.dies.toList.map Die.group)[i]? == some g

/-- Every die of a group: the package's own and those of other packages of its ridge domain. -/
def State.groupMembers (s : State) (g : Nat) : List Die :=
  (s.dies.toList ++ s.foreign.map fun d => d.2).filter fun d => d.group == g

/-- The allowance a group's requests and caps give. What the stacks near a die of another package ask for comes with that die's
request (log 77). -/
def State.groupAllowance (s : State) (g : Nat) : BitVec 8 :=
  let least := (s.groupMembers g).foldl (fun (a : Nat) d => min a d.request.toNat) 255
  let hot := (s.groupDies g).any fun i =>
    (List.range 3).any fun j => ((s.hbm.toList.map Stack.band).getD (3 * i + j) 0).toNat ≥ 2
  BitVec.ofNat 8 (if hot ∨ s.inlet > 55 then min least 127 else least)

/-- The die that leads a group; none of another package until the supervisor names one. -/
def State.leaderOf (s : State) (g : Nat) : Nat :=
  (Cells.find s.leaders g).getD ((s.groupDies g).headD 0)

/-- Whether what was announced last for a group, or is in force on each of its dies, is a given allowance. -/
def State.announcedAs (s : State) (g : Nat) (a : BitVec 8) : Bool :=
  match (s.announced.filter fun x => x.group == g).getLast? with
  | some x => x.allow == a
  | none => (s.groupMembers g).all fun d => d.allow == a

/-- The leader announces a change: it takes effect at its effective time, at least 20 µs after the announcement. A leader in
another package announces for itself. -/
def State.announce (s : State) (g : Nat) (effective : Word) : State :=
  let a := s.groupAllowance g
  if s.leaderOf g ≥ 4 || s.announcedAs g a then s
  else
    let s1 : State := { s with announced := s.announced ++ [⟨g, a, max (3 * effective.toNat) (s.time3 + 60000)⟩] }
    s1.record (.die (s.leaderOf g)) .throttle (a.setWidth 128)

/-- A die by its number: 0 to 3 the package's own, the others in other packages. -/
def State.dieNumbered (s : State) (die : Nat) : Option Die :=
  if die < 4 then s.dies.toList[die]? else (s.foreign.find? fun d => d.1 == die).map fun d => d.2

/-- A die changed. -/
def State.setDie (s : State) (die : Nat) (d : Die) : State :=
  if die < 4 then { s with dies := s.dies.mapIdx fun i x => if i = die then d else x }
  else { s with foreign := (die, d) :: s.foreign.filter fun x => x.1 != die }

/-- A die put in a group; both groups may get another allowance. -/
def State.setGroup (s : State) (die g : Nat) : State :=
  let old := (s.dieNumbered die).getD ⟨g, 255, 255⟩
  let s1 := s.setDie die { old with group := g }
  (s1.announce g s1.timeNs).announce old.group s1.timeNs

/-! ## Second-tier ports (R393, R394) -/

/-- A port's mode written once until the next package reset; in minimal mode the ports stay down (R408). -/
def State.setPortMode (s : State) (port : Nat) (mode : Nat) : State :=
  if s.boot.minimal || (s.ports.toList[port]?) != some .none then s
  else
    let m : PortMode := if mode = 1 then .cxl else if mode = 2 then .nvme else .none
    { s with ports := s.ports.mapIdx fun i x => if i = port then m else x }

/-- An NVMe Write of the drive behind a port (R394): a 4 KiB block read from the package's memory at system scope, at an address
of an address space; where the read faults the command fails and the block stays. R393 has up to four drives behind a port while
NODE names the port alone: here a port has one store of blocks. [DESIGN CHOICE, log 78] -/
def State.storageWrite (s : State) (port block : Nat) (asid : BitVec 16) (va : Word) : State :=
  if (s.ports.toList[port]?) != some .nvme then s
  else
    s.outside (s.partOf asid).toNat (s.readBytes (s.outsideCtx asid) va 4096) id fun bs s1 =>
      { s1 with mem := Memory.fill s1.mem (homeByte attrFlash port (4096 * block)) bs }

/-- One field of an HDM decoder written (R392). -/
def State.setHdm (s : State) (n : Nat) (field : Fin 3) (x : Nat) : State :=
  let d := ((s.hdm.find? fun d => d.1 == n).map fun d => d.2).getD ⟨0, 0, 0⟩
  let d1 : Hdm := match field with
    | 0 => { d with base := x }
    | 1 => { d with size := x }
    | 2 => { d with paddr := x }
  { s with hdm := (n, d1) :: s.hdm.filter fun d => d.1 != n }

/-- The weight of a queue written (R373): 0 is ignored; a round in which the queue has had its starts already is over. -/
def Queue.weighed (q : Queue) (w : BitVec 4) : Queue :=
  if w = 0 then q
  else
    let past (c : Fin 4) : Bool := decide (w.toNat ≤ q.used[c])
    { q with
      weight := w
      round := Vector.ofFn fun c => if past c then q.round[c] + 1 else q.round[c]
      used := Vector.ofFn fun c => if past c then 0 else q.used[c] }

/-- The registers and tables that the supervisor writes; the others are the host's, or read only. -/
def supervisorWrites : RegName → Bool
  | .scrHead _ | .frTail _ | .scrTail _ | .drops _ | .fanswer _ | .vfReset _ | .bootStatus | .pageOffset _ _ => false
  | .owner _ | .root _ | .queueWeight _ | .queueOwner _ | .watchdog | .packageNumber | .throttleGroup _ | .submissionPage _
  | .hdm _ _ | .portMode _ | .storageWrite _ _ | .route _ | .leader _ | .announcement _ _ | .fixed _ | .spillArea => true

/-- REGISTER_WRITE: a write by the register's access codes; RO registers ignore it, W1C bits are cleared by ones. The tables
of the supervisor have no layout in the spec but the fields named here (log 25). In minimal mode the supervisor writes none of
them (R408). -/
def execRegisterWrite (r : RegName) (w : BitVec 128) (s : State) : Out :=
  .next (if s.boot.minimal && supervisorWrites r then s else match r with
    | .scrHead asid => s.setPage asid fun p => { p with scrHead := w.setWidth 32 }
    | .frTail _ => s
    | .scrTail _ => s
    | .drops _ => s
    | .fanswer asid => s.fanswer asid w
    | .vfReset vf =>
      let clear : Word := w.setWidth 64 &&& 0xE000000000000000
      { s with vfs := s.vfs.set vf.toNat { s.vfs[vf.toNat] with reset := s.vfs[vf.toNat].reset &&& ~~~clear } }
    | .bootStatus => s
    | .owner n =>
      if n ≥ 256 then s
      else { s with owners := Cells.put s.owners n (some (setSlice w 108 (0 : BitVec 19))) }
    | .root asid =>
      { s with roots := (s.roots.filter fun x => x.1 != asid) ++ [(asid, fieldNat w 0 64)] }
    | .queueWeight n => { s with queues := updWhere s.queues (fun q => q.num == n) fun q => q.weighed (w.extractLsb' 0 4) }
    | .queueOwner n => s.openQueue n (w.extractLsb' 0 16)
    | .watchdog => { s with watchdog := fieldNat w 0 64 }
    | .packageNumber => { s with pkg := w.extractLsb' 0 6 }
    | .throttleGroup die => s.setGroup die (fieldNat w 0 64)
    | .submissionPage asid =>
      if (s.page asid).isSome then s
      else { s with pages := s.pages ++ [⟨asid, w.extractLsb' 0 2, 0, 0, 0, 0, 0, 0, 0, 0, 0⟩] }
    | .pageOffset asid off =>
      if off = 0x8040 then s.fanswer asid w else s.setPage asid fun p => p.write off (w.setWidth 64)
    | .hdm n field => s.setHdm n field (fieldNat w 0 64)
    | .portMode port => s.setPortMode port (fieldNat w 0 2)
    | .storageWrite port block => s.storageWrite port block (w.extractLsb' 64 16) (w.setWidth 64)
    | .route p => { s with routes := s.routes.set p.toNat (w.extractLsb' 0 4) p.isLt }
    | .leader g => { s with leaders := Cells.put s.leaders g (some (fieldNat w 0 64)) }
    | .announcement g allow =>
      if s.leaderOf g < 4 then s
      else { s with announced := s.announced ++ [⟨g, allow ||| 3, max (3 * fieldNat w 0 64) (3 * fieldNat w 64 64 + 60000)⟩] }
    | .fixed asid => { s with placement := s.placement ++ [⟨asid, w.setWidth 64, fieldNat w 64 64⟩] }
    | .spillArea => { s with spillNext := fieldNat w 0 64 })

end Sys2Proof.Machine
end

