-- ==== Sys2Proof/Machine/Matrix.lean ====
section
/-!
DEFINITION. Outer products and tiles (spec/09_matrix.md): each enters the VIQ; its convoy gives it the effect that its
`prep` of Tile states.
-/

namespace Sys2Proof.Machine

/-- `mzero` (R247). -/
def execMzero (c : Bool) (t : TReg) (ty : Tag) (s : State) : Out :=
  s.dispatchChained (.mzero c t ty)

/-- `mtag` (R247). -/
def execMtag (c : Bool) (t : TReg) (ty : Tag) (s : State) : Out :=
  s.dispatchChained (.mtag c t ty)

/-- `vopa` (R237 to R240). -/
def execVopa (a : Opa) (s : State) : Out :=
  s.dispatchChained (.vopa a)

/-- `vopa.s` (R241 to R243). -/
def execVopaS (a : OpaS) (s : State) : Out :=
  s.dispatchChained (.vopaS a)

/-- `mrd` (R248). -/
def execMrd (a : Mrow) (s : State) : Out :=
  s.dispatchChained (.mrd a)

/-- `mwr` (R249). -/
def execMwr (a : Mrow) (s : State) : Out :=
  s.dispatchChained (.mwr a)

/-- `mld` (R250 to R252). -/
def execMld (a : Mmem) (s : State) : Out :=
  s.dispatchChained (.mld a)

/-- `mst` (R250 to R252). -/
def execMst (a : Mmem) (s : State) : Out :=
  s.dispatchChained (.mst a)

/-- `mcvt.i32.trio` (R253, R254). -/
def execMcvtI32Trio (a : Mcvt) (s : State) : Out :=
  s.dispatchChained (.mcvtI32Trio a)

/-- `mcvt.f32.i32` (R253, R254). -/
def execMcvtF32I32 (a : Mcvt) (s : State) : Out :=
  s.dispatchChained (.mcvtF32I32 a)

/-- `mcvt.bf16.f32` (R253, R254). -/
def execMcvtBf16F32 (a : Mcvt) (s : State) : Out :=
  s.dispatchChained (.mcvtBf16F32 a)

end Sys2Proof.Machine
end

