-- ==== Sys2Proof/Machine/Signature.lean ====
section
/-!
DEFINITION. SHAKE256 and the signatures SLH-DSA-SHAKE-256s (R2, R407, R411). The spec names them by their standards, FIPS 202 and
FIPS 205, whose definitions these are. [PRESUMED, log 14]
-/

namespace Sys2Proof.Machine

/-! ## SHAKE256 -/

/-- The state of the permutation: lane (x, y) at x + 5 y. -/
abbrev Keccak := Vector Word 25

/-- Lane (x, y), both modulo 5. -/
def Keccak.lane (a : Keccak) (x y : Nat) : Word :=
  a[x % 5 + 5 * (y % 5)]'(by omega)

/-- The constants of the rounds. -/
def keccakRounds : List Word :=
  [0x1, 0x8082, 0x800000000000808A, 0x8000000080008000, 0x808B, 0x80000001, 0x8000000080008081, 0x8000000000008009,
   0x8A, 0x88, 0x80008009, 0x8000000A, 0x8000808B, 0x800000000000008B, 0x8000000000008089, 0x8000000000008003,
   0x8000000000008002, 0x8000000000000080, 0x800A, 0x800000008000000A, 0x8000000080008081, 0x8000000000008080,
   0x80000001, 0x8000000080008008]

/-- The rotations of the lanes. -/
def keccakTurns : Vector Nat 25 :=
  #v[0, 1, 62, 28, 27, 36, 44, 6, 55, 20, 3, 10, 43, 25, 39, 41, 45, 15, 21, 8, 18, 2, 61, 56, 14]

/-- One round. -/
def Keccak.round (a : Keccak) (rc : Word) : Keccak :=
  let c : Vector Word 5 := Vector.ofFn fun x => (List.range 5).foldl (fun v y => v ^^^ a.lane x y) 0
  let col (x : Nat) : Word := c.toList.getD (x % 5) 0
  let d : Vector Word 5 := Vector.ofFn fun x => col (x + 4) ^^^ (col (x + 1)).rotateLeft 1
  let t : Keccak := Vector.ofFn fun i => (a[i] ^^^ d.toList.getD (i.val % 5) 0).rotateLeft keccakTurns[i]
  let b : Keccak := Vector.ofFn fun i => t.lane (i.val % 5 + 3 * (i.val / 5)) (i.val % 5)
  let e : Keccak := Vector.ofFn fun i =>
    b[i] ^^^ (~~~(b.lane (i.val % 5 + 1) (i.val / 5)) &&& b.lane (i.val % 5 + 2) (i.val / 5))
  e.set 0 (e[0] ^^^ rc)

/-- The permutation. -/
def Keccak.permute (a : Keccak) : Keccak :=
  keccakRounds.foldl Keccak.round a

/-- The bytes of a block. -/
def shakeRate : Nat := 136

/-- A message padded to whole blocks. -/
def shakePad (bs : List Byte) : List Byte :=
  let z := shakeRate - bs.length % shakeRate
  if z = 1 then bs ++ [0x9F] else bs ++ [0x1F] ++ List.replicate (z - 2) 0 ++ [0x80]

/-- Blocks absorbed, one after the other. -/
def Keccak.absorb : (blocks : Nat) → List Byte → Keccak → Keccak
  | 0, _, a => a
  | n + 1, bs, a =>
    let block : Keccak := Vector.ofFn fun i =>
      if i.val < 17 then a[i] ^^^ BitVec.ofNat 64 (leNat ((bs.drop (8 * i.val)).take 8)) else a[i]
    Keccak.absorb n (bs.drop shakeRate) block.permute

/-- Blocks squeezed out. -/
def Keccak.squeeze : (blocks : Nat) → Keccak → List Byte
  | 0, _ => []
  | n + 1, a => (a.toList.take 17).flatMap (wordBytes 8) ++ Keccak.squeeze n a.permute

/-- SHAKE256 with a result of `n` bytes. -/
def shake256 (n : Nat) (bs : List Byte) : List Byte :=
  let p := shakePad bs
  (Keccak.squeeze ((n + shakeRate - 1) / shakeRate)
    (Keccak.absorb (p.length / shakeRate) p (Vector.replicate 25 0))).take n

/-! ## SLH-DSA-SHAKE-256s: parameters and addresses -/

/-- Bytes of a hash. -/
def slhN : Nat := 32
/-- The height of a tree of the hypertree, which has 8 layers. -/
def slhHeight : Nat := 8
/-- The layers of the hypertree. -/
def slhLayers : Nat := 8
/-- The height of a tree of FORS. -/
def forsHeight : Nat := 14
/-- The trees of FORS. -/
def forsTrees : Nat := 22
/-- The chains of a one-time signature. -/
def wotsLen : Nat := 67
/-- The bytes of a signature (R2). -/
def slhSignature : Nat := 29792

/-- A number of `n` bytes, the most significant first. -/
def beBytes (n x : Nat) : List Byte :=
  (leBytes n x).reverse

/-- The number of bytes that begin with the most significant. -/
def beNat (bs : List Byte) : Nat :=
  leNat bs.reverse

/-- An address: layer, tree, type, and the three words whose meaning the type gives. -/
structure Adrs where
  layer : Nat
  tree  : Nat
  type  : Nat
  w1    : Nat
  w2    : Nat
  w3    : Nat
  deriving DecidableEq, Repr

/-- The bytes of an address. -/
def Adrs.bytes (a : Adrs) : List Byte :=
  beBytes 4 a.layer ++ beBytes 12 a.tree ++ beBytes 4 a.type ++ beBytes 4 a.w1 ++ beBytes 4 a.w2 ++ beBytes 4 a.w3

/-- An address of another type: its words are zero but the key pair where one is given. -/
def Adrs.as (a : Adrs) (type pair : Nat) : Adrs :=
  { a with type := type, w1 := pair, w2 := 0, w3 := 0 }

/-- F, H and T of FIPS 205, and PRF with the secret seed as its message. -/
def slhHash (seed : List Byte) (a : Adrs) (m : List Byte) : List Byte :=
  shake256 slhN (seed ++ a.bytes ++ m)

/-- The first `n` digits of `b` bits of a byte list. -/
def slhDigits (bs : List Byte) (b n : Nat) : List Nat :=
  (List.range n).map fun i => beNat bs / 2 ^ (8 * bs.length - b * (i + 1)) % 2 ^ b

/-! ## One-time signatures -/

/-- `s` steps of a chain from step `i` on. -/
def wotsChain (seed : List Byte) (a : Adrs) : (s i : Nat) → List Byte → List Byte
  | 0, _, x => x
  | s + 1, i, x => wotsChain seed a s (i + 1) (slhHash seed { a with w3 := i } x)

/-- The chain positions of a message with its checksum. -/
def wotsDigits (m : List Byte) : List Nat :=
  let d := slhDigits m 4 64
  d ++ slhDigits (beBytes 2 (16 * (d.foldl (fun c x => c + (15 - x)) 0))) 4 3

/-- The secret of chain `i`. -/
def wotsSecret (sk seed : List Byte) (a : Adrs) (i : Nat) : List Byte :=
  slhHash seed { a.as 5 a.w1 with w2 := i } sk

/-- The public key that the ends of the chains give. -/
def wotsRoot (seed : List Byte) (a : Adrs) (ends : List (List Byte)) : List Byte :=
  slhHash seed (a.as 1 a.w1) ends.flatten

/-- The public key of a key pair. -/
def wotsPublic (sk seed : List Byte) (a : Adrs) : List Byte :=
  wotsRoot seed a ((List.range wotsLen).map fun i => wotsChain seed { a with w2 := i } 15 0 (wotsSecret sk seed a i))

/-- A message signed by a key pair. -/
def wotsSign (sk seed : List Byte) (a : Adrs) (m : List Byte) : List (List Byte) :=
  (wotsDigits m).zipIdx.map fun d => wotsChain seed { a with w2 := d.2 } d.1 0 (wotsSecret sk seed a d.2)

/-- The public key that a signature of a message gives. -/
def wotsFrom (seed : List Byte) (a : Adrs) (sig : List (List Byte)) (m : List Byte) : List Byte :=
  wotsRoot seed a ((sig.zip (wotsDigits m)).zipIdx.map fun x =>
    wotsChain seed { a with w2 := x.2 } (15 - x.1.2) x.1.2 x.1.1)

/-! ## Trees -/

/-- The root that a node and its authentication path give. -/
def climb (seed : List Byte) (a : Adrs) : (height index : Nat) → List (List Byte) → List Byte → List Byte
  | _, _, [], x => x
  | h, i, y :: ys, x =>
    climb seed a (h + 1) (i / 2) ys
      (slhHash seed { a with w2 := h + 1, w3 := i / 2 } (if i % 2 = 0 then x ++ y else y ++ x))

/-- Node `i` of height `z` of a tree of one-time key pairs. -/
def treeNode (sk seed : List Byte) (a : Adrs) : (z i : Nat) → List Byte
  | 0, i => wotsPublic sk seed (a.as 0 i)
  | z + 1, i =>
    slhHash seed { a.as 2 0 with w2 := z + 1, w3 := i } (treeNode sk seed a z (2 * i) ++ treeNode sk seed a z (2 * i + 1))

/-- The sibling of node `i`'s ancestor at height `j`. -/
def sibling (i j : Nat) : Nat :=
  i / 2 ^ j ^^^ 1

/-- A message signed in a tree: the one-time signature, then the path. -/
def treeSign (sk seed : List Byte) (a : Adrs) (leaf : Nat) (m : List Byte) : List (List Byte) :=
  wotsSign sk seed (a.as 0 leaf) m ++ (List.range slhHeight).map fun j => treeNode sk seed a j (sibling leaf j)

/-- The root that a signature in a tree gives. -/
def treeFrom (seed : List Byte) (a : Adrs) (leaf : Nat) (sig : List (List Byte)) (m : List Byte) : List Byte :=
  climb seed (a.as 2 0) 0 leaf (sig.drop wotsLen) (wotsFrom seed (a.as 0 leaf) (sig.take wotsLen) m)

/-- A message signed in the trees of the layers from `j` on. -/
def hyperSign (sk seed : List Byte) : (layers j tree leaf : Nat) → List Byte → List (List Byte)
  | 0, _, _, _, _ => []
  | n + 1, j, tree, leaf, m =>
    let a : Adrs := ⟨j, tree, 0, 0, 0, 0⟩
    let sig := treeSign sk seed a leaf m
    sig ++ hyperSign sk seed n (j + 1) (tree / 2 ^ slhHeight) (tree % 2 ^ slhHeight) (treeFrom seed a leaf sig m)

/-- The root that a signature in the trees of the layers from `j` on gives. -/
def hyperFrom (seed : List Byte) : (layers j tree leaf : Nat) → List (List Byte) → List Byte → List Byte
  | 0, _, _, _, _, m => m
  | n + 1, j, tree, leaf, sig, m =>
    let here := wotsLen + slhHeight
    hyperFrom seed n (j + 1) (tree / 2 ^ slhHeight) (tree % 2 ^ slhHeight) (sig.drop here)
      (treeFrom seed ⟨j, tree, 0, 0, 0, 0⟩ leaf (sig.take here) m)

/-! ## FORS -/

/-- The secret of leaf `i`. -/
def forsSecret (sk seed : List Byte) (a : Adrs) (i : Nat) : List Byte :=
  slhHash seed { a.as 6 a.w1 with w3 := i } sk

/-- Node `i` of height `z` over all trees. -/
def forsNode (sk seed : List Byte) (a : Adrs) : (z i : Nat) → List Byte
  | 0, i => slhHash seed { a with w2 := 0, w3 := i } (forsSecret sk seed a i)
  | z + 1, i =>
    slhHash seed { a with w2 := z + 1, w3 := i } (forsNode sk seed a z (2 * i) ++ forsNode sk seed a z (2 * i + 1))

/-- A digest signed: for each tree a secret and its path. -/
def forsSign (sk seed : List Byte) (a : Adrs) (md : List Byte) : List (List Byte) :=
  (slhDigits md forsHeight forsTrees).zipIdx.flatMap fun d =>
    forsSecret sk seed a (d.2 * 2 ^ forsHeight + d.1)
      :: (List.range forsHeight).map fun j => forsNode sk seed a j (d.2 * 2 ^ (forsHeight - j) + sibling d.1 j)

/-- The public key that a signature of a digest gives. -/
def forsFrom (seed : List Byte) (a : Adrs) (sig : List (List Byte)) (md : List Byte) : List Byte :=
  slhHash seed (a.as 4 a.w1) ((slhDigits md forsHeight forsTrees).zipIdx.flatMap fun d =>
    let part := (sig.drop (d.2 * (forsHeight + 1))).take (forsHeight + 1)
    let leaf := d.2 * 2 ^ forsHeight + d.1
    climb seed a 0 leaf (part.drop 1) (slhHash seed { a with w2 := 0, w3 := leaf } (part.headD [])))

/-! ## Signatures -/

/-- The digest of a message: what FORS signs, the tree, the leaf. -/
def slhDigest (r seed root m : List Byte) : List Byte × Nat × Nat :=
  let d := shake256 47 (r ++ seed ++ root ++ m)
  (d.take 39, beNat ((d.drop 39).take 7) % 2 ^ 56, beNat (d.drop 46) % 2 ^ slhHeight)

/-- The message as the pure form with an empty context signs it. -/
def slhMessage (m : List Byte) : List Byte :=
  [0, 0] ++ m

/-- The address of the FORS key pair of a leaf. -/
def forsAdrs (tree leaf : Nat) : Adrs :=
  ⟨0, tree, 3, leaf, 0, 0⟩

/-- The root of the hypertree of a key. -/
def slhRoot (sk seed : List Byte) : List Byte :=
  treeNode sk seed ⟨slhLayers - 1, 0, 0, 0, 0, 0⟩ slhHeight 0

/-- A signature of `m` by the key of three seeds; `rand` is the random value of the signature. -/
def slhSign (sk prf seed rand m : List Byte) : List Byte :=
  let root := slhRoot sk seed
  let r := shake256 slhN (prf ++ rand ++ slhMessage m)
  let (md, tree, leaf) := slhDigest r seed root (slhMessage m)
  let fors := forsSign sk seed (forsAdrs tree leaf) md
  let hyper := hyperSign sk seed slhLayers 0 tree leaf (forsFrom seed (forsAdrs tree leaf) fors md)
  r ++ fors.flatten ++ hyper.flatten

/-- A byte list in pieces of a hash. -/
def slhPieces : (n : Nat) → List Byte → List (List Byte)
  | 0, _ => []
  | n + 1, bs => bs.take slhN :: slhPieces n (bs.drop slhN)

/-- Whether a signature of `m` verifies under a public key, its seed and its root. -/
def slhVerify (key m sig : List Byte) : Bool :=
  let seed := key.take slhN
  let root := key.drop slhN
  let p := slhPieces (slhSignature / slhN) sig
  let (md, tree, leaf) := slhDigest (p.headD []) seed root (slhMessage m)
  let fors := forsTrees * (forsHeight + 1)
  key.length == 2 * slhN && sig.length == slhSignature
    && hyperFrom seed slhLayers 0 tree leaf (p.drop (1 + fors))
      (forsFrom seed (forsAdrs tree leaf) ((p.drop 1).take fors) md) == root

end Sys2Proof.Machine
end

