-- ==== Sys2Proof/Machine/Platform.lean ====
section
/-!
DEFINITION. Bring-up and trust (R407 to R411), the coolant envelope (R412), throttle groups (R413, R414), stacks (R415, R416).
-/

namespace Sys2Proof.Machine

/-! ## Boot status (R409) -/

/-- The boot status register. -/
def Boot.word (b : Boot) : Word :=
  (b.hbm ++ b.dies ++ b.reason ++ b.stage ++ 0#28 ++ b.fails ++ BitVec.ofBool b.minimal ++ BitVec.ofBool b.done : BitVec 64)

/-- REASON of a failed start. -/
def startReason : StartCause → BitVec 8
  | .signature => 1
  | .training => 2
  | .selfTest => 3
  | .watchdog => 4
  | .overflow => 5

/-- A start fails (R408): the count rises to 3 at most; in minimal mode the boot ROM waits for a new first stage. -/
def State.failStart (s : State) (c : StartCause) : State :=
  let b := s.boot
  let s1 : State := { s with boot := { b with
    reason := startReason c
    fails := if b.fails = 3 then 3 else b.fails + 1
    starting := false
    done := false
    waitStage := b.minimal } }
  s1.record (.die 0) .failedStart (s1.boot.word.setWidth 128)

/-- The digest of 32 bytes as a register holds it. -/
def digest (bs : List Byte) : BitVec 256 :=
  BitVec.ofNat 256 (leNat (shake256 32 bs))

/-- Whether a stage's signature verifies, against a public key with the fused digest (R407). -/
def stageOk (stage : List Byte) : Bool :=
  let p := Config.stageParts stage
  digest p.2.2 == Config.fusedDigest && slhVerify p.2.2 p.1 p.2.1

/-- The stages from number `n` on verified and measured (R407); stages are numbered from 1 in STAGE (log 26). -/
def State.runStages (s : State) : (n : Nat) → List (List Byte) → State
  | _, [] => s
  | n, st :: rest =>
    if h : n < 8 then
      if stageOk st then
        let s1 : State := { s with boot := { s.boot with
          stage := BitVec.ofNat 8 (n + 1)
          measure := s.boot.measure.set n (digest st) h } }
        s1.runStages (n + 1) rest
      else s.failStart .signature
    else s.failStart .overflow

/-- The lowest-numbered die that passes self-test. -/
def lowestDie (dies : BitVec 4) : Option Nat :=
  (List.range 4).find? fun i => bitAt dies i

/-- The stages a start runs: the expansion window's, or the serial flash's where the window is empty (R407). -/
def Boot.stages (b : Boot) : List (List Byte) :=
  if b.window.isEmpty then b.serial else b.window

/-- What keeps its contents over a reset of the package: the host's and the drives' storage and other packages. -/
def outlives (h : Nat) : Bool :=
  homeAttr h == attrPeer || homeAttr h == attrHost || homeAttr h == attrFlash

/-- PACKAGE_RESET (R407, R408): every register takes its reset value; the failed-start count and its REASON are held, but the count
starts at 0 where the minimal-mode supervisor asks for the reset after it has verified a new image. The event ring keeps its
records (R417). With the count at 3 the start runs in minimal mode, with the three stacks of one die. -/
def execPackageReset (dies : BitVec 4) (hbm : BitVec 12) (stages : Firmware) (s : State) : Out :=
  let fails : BitVec 2 := if s.boot.update && stages.bySupervisor then 0 else s.boot.fails
  let minimal := fails == 3
  let die := (lowestDie dies).getD 0
  let b : Boot := { State.reset.boot with
    hbm := if minimal then hbm &&& (7#12 <<< (3 * die)) else hbm
    dies := dies
    reason := s.boot.reason
    fails := fails
    minimal := minimal
    starting := true
    window := stages.window
    serial := stages.serial
    identity := Config.identityKey }
  let s1 : State := { State.reset with
    boot := b
    linkUp := if minimal then 0 else 0xFFFF
    mem := s.mem.filter fun c => outlives c.1
    lines := s.lines.filter fun l => outlives (128 * l.1)
    soft := s.soft.filter fun l => outlives (128 * l)
    events := s.events
    agenda := s.agenda
    freeCtr := s.freeCtr }
  let tested := if minimal then dies != 0 else dies == 0xF
  let trained := if minimal then fieldNat hbm (3 * die) 3 == 7 else hbm == 0xFFF
  .next (if !tested then s1.failStart .selfTest
    else if !trained then s1.failStart .training
    else s1.runStages 0 b.stages)

/-- START_COMPLETE (R407, R410): `time` is set; outside minimal mode the count is cleared. -/
def execStartComplete (hostTime : Word) (s : State) : Out :=
  .next (if !s.boot.starting then s
    else { s with
      boot := { s.boot with starting := false, done := true, fails := if s.boot.minimal then s.boot.fails else 0 }
      timeValid := true
      time3 := 3 * hostTime.toNat })

/-- START_FAILURE (R408). -/
def execStartFailure (c : StartCause) (s : State) : Out :=
  .next (if s.boot.starting then s.failStart c else s)

/-- Beats of two seconds. -/
def startBeats : Nat := 2000 * beatsPerMs

/-- Whether the 2 s watchdog of a start has expired (R408). -/
def State.startLate (s : State) : Bool :=
  s.boot.starting && decide (s.tick - s.boot.since ≥ startBeats)

/-- START_WATCHDOG_EXPIRY (R408): 2 s have passed since the start began without its completion. -/
def execStartWatchdogExpiry (s : State) : Out :=
  .next (if s.startLate then s.failStart .watchdog else s)

/-- MINIMAL_STAGE_WRITE (R408): after a failed minimal start the stage is verified and started, the start begins anew, and the
stages written until its end are its later ones; a running minimal-mode supervisor verifies a stage as the new image, which clears
the count at the reset it asks for. A start that has its stages from the reset takes no further one. [DEDUCED, log 94] -/
def execMinimalStageWrite (stage : List Byte) (s : State) : Out :=
  let b := s.boot
  .next (if !b.minimal then s
    else if b.waitStage then
      { s with boot := { b with
        waitStage := false, starting := true, written := true, since := s.tick, window := [stage] } }.runStages 0 [stage]
    else if b.starting && b.written then
      { s with boot := { b with window := b.window ++ [stage] } }.runStages b.window.length [stage]
    else if b.done then { s with boot := { b with update := b.update || stageOk stage } }
    else s)

/-- The attestation report before its signature (R411): the slot table's owners one byte each (log 27). -/
def State.reportBytes (s : State) (nonce : BitVec 256) : List Byte :=
  wordBytes 32 nonce ++ s.boot.measure.toList.flatMap (fun m => wordBytes 32 m) ++ wordBytes 8 s.boot.word
    ++ (List.range 2304).map (fun n => (slotPart (s.slot n)).setWidth 8)
    ++ (List.range 256).flatMap fun n => wordBytes 16 ((Cells.find s.owners n).getD 0)

/-- The signature of bytes by the identity key of this start (R411): `identity` holds its three seeds, the secret one lowest. -/
def State.signed (s : State) (bs : List Byte) : List Byte :=
  let k := wordBytes 96 s.boot.identity
  slhSign (k.take 32) ((k.drop 32).take 32) (k.drop 64) (wordBytes 32 (Config.signRandom s.tick)) bs

/-- ATTESTATION_NONCE (R411): the report and its signature of 29,792 bytes by the identity key go back to the host. -/
def execAttestationNonce (nonce : BitVec 256) (s : State) : Out :=
  let r := s.reportBytes nonce
  .next { s with hostReply := r ++ s.signed r }

/-! ## Throttle groups (R414) -/

/-- ALLOWANCE_REQUEST: a die's request, of the form 4m - 1; a die of another package counts once it is in a group. -/
def execAllowanceRequest (die : Nat) (req : BitVec 8) (effective : Word) (s : State) : Out :=
  match s.dieNumbered die with
  | none => .next s
  | some d => .next ((s.setDie die { d with request := req ||| 3 }).announce d.group effective)

/-- ALLOWANCE_APPLY: the announced values whose time has come are in force on every die of the group. -/
def execAllowanceApply (group : Nat) (s : State) : Out :=
  let due := s.announced.filter fun a => a.group == group && a.at3 ≤ s.time3
  match due.getLast? with
  | none => .next s
  | some a =>
    .next { s with
      announced := s.announced.filter fun x => !(x.group == group && x.at3 ≤ s.time3)
      dies := s.dies.map fun d => if d.group = group then { d with allow := a.allow } else d
      foreign := s.foreign.map fun d => if d.2.group = group then (d.1, { d.2 with allow := a.allow }) else d }

/-! ## Heat (R412, R415, R416) -/

/-- The thermal trip: every core halts, resident gangs are rolled back, the supervisor is told. -/
def State.trip (s : State) : State :=
  if s.halted then s
  else
    let s1 : State := { s with halted := true, reports := s.reports ++ [.thermalTrip] }
    let hs := (s1.gangs.filter Gang.holds).map Gang.handle
    (hs.foldl (fun a h => a.rollback h false) s1).record (.die 0) .thermal 0

/-- THERMAL_TRIP. -/
def execThermalTrip (s : State) : Out :=
  .next s.trip

/-- The lower boundary of a band, in tenths of a degree. -/
def bandFloor (b : Nat) : Nat :=
  if b = 0 then 0 else 750 + 100 * b

/-- The band that a temperature leaves: down while it lies 2 °C under the boundary. -/
def fallBand (temp : Nat) : Nat → Nat
  | 0 => 0
  | b + 1 => if temp + 20 < bandFloor (b + 1) then fallBand temp b else b + 1

/-- The band after a sample (R415). -/
def nextBand (band temp : Nat) : Nat :=
  let up := if temp ≥ 1050 then 3 else if temp ≥ 950 then 2 else if temp ≥ 850 then 1 else 0
  if up > band then up else fallBand temp band

/-- STACK_TEMP_SAMPLE: the stack's band, its record, the cap announced as it enters band 2. -/
def execStackTempSample (stack decidegrees : Nat) (effective : Word) (s : State) : Out :=
  match s.hbm.toList[stack]? with
  | none => .next s
  | some k =>
    let b := nextBand k.band.toNat decidegrees
    if b = k.band.toNat then .next s
    else
      let s1 : State := { s with hbm := s.hbm.mapIdx fun i x => if i = stack then ⟨BitVec.ofNat 2 b, s.tick⟩ else x }
      let s2 := s1.record (.stack stack) .band (BitVec.ofNat 128 b)
      let g := ((s.dies.toList.map Die.group)[stack / 3]?).getD 0
      .next (if b ≥ 2 ∧ k.band.toNat < 2 then s2.announce g effective else s2)

/-- INLET_TEMPERATURE_CHANGE: above 55 °C the capped allowances are announced at once; above 60 °C the package trips. -/
def execInletTemperatureChange (degrees : Nat) (effective : Word) (s : State) : Out :=
  let s1 := ({ s with inlet := degrees }).record (.die 0) .thermal (BitVec.ofNat 128 degrees)
  let groups := (s.dies.toList.map Die.group).eraseDups
  let s2 := if degrees > 55 ∧ s.inlet ≤ 55 then groups.foldl (fun a g => a.announce g effective) s1 else s1
  .next (if degrees > 60 then s2.trip else s2)

end Sys2Proof.Machine
end

