-- ==== Sys2Proof/Machine/ScalarFloat.lean ====
section
/-!
DEFINITION. Scalar floating point (R179 to R184): f32 in bits [31:0], f64 in all 64 (R70); flags into `fstat` (R57).
-/

namespace Sys2Proof.Machine

/-- The format of a scalar form. -/
def scalarFmt (d : Bool) : Fmt :=
  if d then fmtF64 else fmtF32

/-- The bits a scalar form reads (R70). -/
def scalarBits (d : Bool) (x : Word) : Nat :=
  if d then x.toNat else x.toNat % 2 ^ 32

/-- `fstat`.RM. -/
def Strand.rm (t : Strand) : Rm :=
  Rm.ofCode (t.fstat.extractLsb' 0 2)

/-- A scalar float instruction: its result and the flags it raises. -/
def State.scalarFloat (s : State) (sd : SReg) (srcs : List SReg) (f : Strand → Nat × Flags) : Out :=
  s.scalar (sd :: srcs) fun t =>
    let (x, fl) := f t
    { t with fstat := raiseFstat t.fstat fl }.setS sd (BitVec.ofNat 64 x)

/-- A two-operand operation (R180). -/
def State.scalarOp (s : State) (o : FloatOp) (d : Bool) (sd sa sb : SReg) : Out :=
  s.scalarFloat sd [sa, sb] fun t =>
    o.apply (scalarFmt d) t.rm false (scalarBits d (t.getS sa)) (scalarBits d (t.getS sb)) 0

/-- A compare (R183). -/
def State.scalarRel (s : State) (r : Rel) (d : Bool) (sd sa sb : SReg) : Out :=
  s.scalarFloat sd [sa, sb] fun t =>
    let (b, fl) := floatRel r ((scalarFmt d).unpack (scalarBits d (t.getS sa)))
      ((scalarFmt d).unpack (scalarBits d (t.getS sb)))
    (if b then 1 else 0, fl)

/-- A conversion (R184): its rounding mode, and what it gives for the source bits. -/
def State.scalarCvt (s : State) (sd sa : SReg) (rm : Option Rm) (f : Rm → Word → Nat × Flags) : Out :=
  s.scalarFloat sd [sa] fun t => f (rm.getD t.rm) (t.getS sa)

/-- A float into a 64-bit integer (R79). -/
def floatToInt (t : Tag) (rm : Rm) (v : Fv) : Nat × Flags :=
  let (r, fl) := toIntRange rm t.intMin t.intMax v
  (wrapTo 64 r, fl)

/-- `fadd` (R180). -/
def execFadd (d : Bool) (sd sa sb : SReg) (s : State) : Out :=
  s.scalarOp .add d sd sa sb

/-- `fsub` (R180). -/
def execFsub (d : Bool) (sd sa sb : SReg) (s : State) : Out :=
  s.scalarOp .sub d sd sa sb

/-- `fmul` (R180). -/
def execFmul (d : Bool) (sd sa sb : SReg) (s : State) : Out :=
  s.scalarOp .mul d sd sa sb

/-- `fdiv` (R180). -/
def execFdiv (d : Bool) (sd sa sb : SReg) (s : State) : Out :=
  s.scalarOp .div d sd sa sb

/-- `fmin` (R180). -/
def execFmin (d : Bool) (sd sa sb : SReg) (s : State) : Out :=
  s.scalarOp .min d sd sa sb

/-- `fmax` (R180). -/
def execFmax (d : Bool) (sd sa sb : SReg) (s : State) : Out :=
  s.scalarOp .max d sd sa sb

/-- `fma` (R181): sD is the addend. -/
def execFma (d : Bool) (sd sa sb : SReg) (s : State) : Out :=
  s.scalarFloat sd [sa, sb] fun t =>
    FloatOp.apply .fma (scalarFmt d) t.rm false (scalarBits d (t.getS sa)) (scalarBits d (t.getS sb))
      (scalarBits d (t.getS sd))

/-- `fsqrt` (R182). -/
def execFsqrt (d : Bool) (sd sa : SReg) (s : State) : Out :=
  s.scalarFloat sd [sa] fun t => FloatOp.apply .sqrt (scalarFmt d) t.rm false (scalarBits d (t.getS sa)) 0 0

/-- `fcmp.eq` (R183). -/
def execFcmpEq (d : Bool) (sd sa sb : SReg) (s : State) : Out :=
  s.scalarRel .feq d sd sa sb

/-- `fcmp.lt` (R183). -/
def execFcmpLt (d : Bool) (sd sa sb : SReg) (s : State) : Out :=
  s.scalarRel .flt d sd sa sb

/-- `fcmp.le` (R183). -/
def execFcmpLe (d : Bool) (sd sa sb : SReg) (s : State) : Out :=
  s.scalarRel .fle d sd sa sb

/-- `fcmp.un` (R183). -/
def execFcmpUn (d : Bool) (sd sa sb : SReg) (s : State) : Out :=
  s.scalarRel .fun_ d sd sa sb

/-- `fcvt.f32.f64` (R184). -/
def execFcvtF32F64 (sd sa : SReg) (rm : Option Rm) (s : State) : Out :=
  s.scalarCvt sd sa rm fun r x => fmtF64.convert fmtF32 r false x.toNat

/-- `fcvt.f64.f32` (R184). -/
def execFcvtF64F32 (sd sa : SReg) (rm : Option Rm) (s : State) : Out :=
  s.scalarCvt sd sa rm fun r x => fmtF32.convert fmtF64 r false (scalarBits false x)

/-- `fcvt.f32.i64` (R184). -/
def execFcvtF32I64 (sd sa : SReg) (rm : Option Rm) (s : State) : Out :=
  s.scalarCvt sd sa rm fun r x => fmtF32.ofInt r false x.toInt

/-- `fcvt.f32.n64` (R184). -/
def execFcvtF32N64 (sd sa : SReg) (rm : Option Rm) (s : State) : Out :=
  s.scalarCvt sd sa rm fun r x => fmtF32.ofInt r false x.toNat

/-- `fcvt.f64.i64` (R184). -/
def execFcvtF64I64 (sd sa : SReg) (rm : Option Rm) (s : State) : Out :=
  s.scalarCvt sd sa rm fun r x => fmtF64.ofInt r false x.toInt

/-- `fcvt.f64.n64` (R184). -/
def execFcvtF64N64 (sd sa : SReg) (rm : Option Rm) (s : State) : Out :=
  s.scalarCvt sd sa rm fun r x => fmtF64.ofInt r false x.toNat

/-- `fcvt.i64.f32` (R184). -/
def execFcvtI64F32 (sd sa : SReg) (rm : Option Rm) (s : State) : Out :=
  s.scalarCvt sd sa rm fun r x => floatToInt .i64 r (fmtF32.unpack (scalarBits false x))

/-- `fcvt.n64.f32` (R184). -/
def execFcvtN64F32 (sd sa : SReg) (rm : Option Rm) (s : State) : Out :=
  s.scalarCvt sd sa rm fun r x => floatToInt .n64 r (fmtF32.unpack (scalarBits false x))

/-- `fcvt.i64.f64` (R184). -/
def execFcvtI64F64 (sd sa : SReg) (rm : Option Rm) (s : State) : Out :=
  s.scalarCvt sd sa rm fun r x => floatToInt .i64 r (fmtF64.unpack x.toNat)

/-- `fcvt.n64.f64` (R184). -/
def execFcvtN64F64 (sd sa : SReg) (rm : Option Rm) (s : State) : Out :=
  s.scalarCvt sd sa rm fun r x => floatToInt .n64 r (fmtF64.unpack x.toNat)

end Sys2Proof.Machine
end

