-- ==== Sys2Proof/Machine/VectorCross.lean ====
section
/-!
DEFINITION. Cross-element instructions (R226 to R231): each enters the VIQ; its convoy gives it the effect that its `prep`
of VecCross states.
-/

namespace Sys2Proof.Machine

/-- `vperm` (R226). -/
def execVperm (a : Vp) (s : State) : Out :=
  s.dispatchChained (.vperm a)

/-- `vzip` (R226). -/
def execVzip (a : Vp) (s : State) : Out :=
  s.dispatchChained (.vzip a)

/-- `vunzip` (R226). -/
def execVunzip (a : Vu) (s : State) : Out :=
  s.dispatchChained (.vunzip a)

/-- `vslide.up` (R227). -/
def execVslideUp (a : Vs) (s : State) : Out :=
  s.dispatchChained (.vslideUp a)

/-- `vslide.dn` (R227). -/
def execVslideDn (a : Vs) (s : State) : Out :=
  s.dispatchChained (.vslideDn a)

/-- `vrep.blk` (R228). -/
def execVrepBlk (a : Vu) (s : State) : Out :=
  s.dispatchChained (.vrepBlk a)

/-- `vcompress` (R228). -/
def execVcompress (a : Vu) (s : State) : Out :=
  s.dispatchChained (.vcompress a)

/-- `vexpand` (R228). -/
def execVexpand (a : Vu) (s : State) : Out :=
  s.dispatchChained (.vexpand a)

/-- `vscan.add` (R229). -/
def execVscanAdd (a : V1) (s : State) : Out :=
  s.dispatchChained (.vscanAdd a)

/-- `vscan.addx` (R229). -/
def execVscanAddx (a : V1) (s : State) : Out :=
  s.dispatchChained (.vscanAddx a)

/-- `vmerge.u.add` (R230). -/
def execVmergeUAdd (a : Merge) (s : State) : Out :=
  s.dispatchChained (.vmergeUAdd a)

/-- `vmerge.u.sub` (R230). -/
def execVmergeUSub (a : Merge) (s : State) : Out :=
  s.dispatchChained (.vmergeUSub a)

/-- `vmerge.u.max` (R230). -/
def execVmergeUMax (a : Merge) (s : State) : Out :=
  s.dispatchChained (.vmergeUMax a)

/-- `vxch` (R231). -/
def execVxch (a : Xch) (s : State) : Out :=
  s.dispatchChained (.vxch a)

end Sys2Proof.Machine
end

