-- ==== Sys2Proof/Machine/VectorFloat.lean ====
section
/-!
DEFINITION. Vector float instructions (R204 to R206): each enters the VIQ; its convoy gives it the effect that
`prepFloatVv`, `prepFloatVx`, `prepFloatV1` or `prepScale` states.
-/

namespace Sys2Proof.Machine

/-- `vfadd`: the sum (R204). -/
def execVfadd (a : Vv) (s : State) : Out :=
  s.dispatchChained (.vfadd a)

/-- `vfsub`: the difference (R204). -/
def execVfsub (a : Vv) (s : State) : Out :=
  s.dispatchChained (.vfsub a)

/-- `vfmul`: the product (R204). -/
def execVfmul (a : Vv) (s : State) : Out :=
  s.dispatchChained (.vfmul a)

/-- `vfdiv`: the quotient (R204). -/
def execVfdiv (a : Vv) (s : State) : Out :=
  s.dispatchChained (.vfdiv a)

/-- `vfmin`: the minimumNumber (R204). -/
def execVfmin (a : Vv) (s : State) : Out :=
  s.dispatchChained (.vfmin a)

/-- `vfmax`: the maximumNumber (R204). -/
def execVfmax (a : Vv) (s : State) : Out :=
  s.dispatchChained (.vfmax a)

/-- `vfma`: vA × vB + vD with one rounding (R204). -/
def execVfma (a : Vv) (s : State) : Out :=
  s.dispatchChained (.vfma a)

/-- `vfsqrt`: the square root (R204). -/
def execVfsqrt (a : V1) (s : State) : Out :=
  s.dispatchChained (.vfsqrt a)

/-- `vfrcp.e`: the reciprocal estimate (R205). -/
def execVfrcpE (a : V1) (s : State) : Out :=
  s.dispatchChained (.vfrcpE a)

/-- `vfadd.x`: the sum with a scalar second operand (R204). -/
def execVfaddX (a : Vx) (s : State) : Out :=
  s.dispatchChained (.vfaddX a)

/-- `vfsub.x`: the difference with a scalar second operand (R204). -/
def execVfsubX (a : Vx) (s : State) : Out :=
  s.dispatchChained (.vfsubX a)

/-- `vfmul.x`: the product with a scalar second operand (R204). -/
def execVfmulX (a : Vx) (s : State) : Out :=
  s.dispatchChained (.vfmulX a)

/-- `vfdiv.x`: the quotient with a scalar second operand (R204). -/
def execVfdivX (a : Vx) (s : State) : Out :=
  s.dispatchChained (.vfdivX a)

/-- `vfmin.x`: the minimumNumber with a scalar second operand (R204). -/
def execVfminX (a : Vx) (s : State) : Out :=
  s.dispatchChained (.vfminX a)

/-- `vfmax.x`: the maximumNumber with a scalar second operand (R204). -/
def execVfmaxX (a : Vx) (s : State) : Out :=
  s.dispatchChained (.vfmaxX a)

/-- `vscale`: scaled by E8M0 codes (R206). -/
def execVscale (a : Vv) (s : State) : Out :=
  s.dispatchChained (.vscale a)

end Sys2Proof.Machine
end

