-- ==== Sys2Proof/Machine/VectorInt.lean ====
section
/-!
DEFINITION. Vector integer instructions (R203): each enters the VIQ; its convoy gives it the effect that `prepIntVv` or
`prepIntVx` states.
-/

namespace Sys2Proof.Machine

/-- `vadd`: vD = vA + vB (R203). -/
def execVadd (a : Vv) (s : State) : Out :=
  s.dispatchChained (.vadd a)

/-- `vsub`: vD = vA - vB (R203). -/
def execVsub (a : Vv) (s : State) : Out :=
  s.dispatchChained (.vsub a)

/-- `vmul`: the low half of vA × vB (R203). -/
def execVmul (a : Vv) (s : State) : Out :=
  s.dispatchChained (.vmul a)

/-- `vmulh`: the high half of vA × vB (R203). -/
def execVmulh (a : Vv) (s : State) : Out :=
  s.dispatchChained (.vmulh a)

/-- `vmadd`: vD = vA × vB + vD (R203). -/
def execVmadd (a : Vv) (s : State) : Out :=
  s.dispatchChained (.vmadd a)

/-- `vmin`: the lesser (R203). -/
def execVmin (a : Vv) (s : State) : Out :=
  s.dispatchChained (.vmin a)

/-- `vmax`: the greater (R203). -/
def execVmax (a : Vv) (s : State) : Out :=
  s.dispatchChained (.vmax a)

/-- `vand`: vA AND vB (R203). -/
def execVand (a : Vv) (s : State) : Out :=
  s.dispatchChained (.vand a)

/-- `vor`: vA OR vB (R203). -/
def execVor (a : Vv) (s : State) : Out :=
  s.dispatchChained (.vor a)

/-- `vxor`: vA XOR vB (R203). -/
def execVxor (a : Vv) (s : State) : Out :=
  s.dispatchChained (.vxor a)

/-- `vshl`: shift left (R203). -/
def execVshl (a : Vv) (s : State) : Out :=
  s.dispatchChained (.vshl a)

/-- `vshr`: logical shift right (R203). -/
def execVshr (a : Vv) (s : State) : Out :=
  s.dispatchChained (.vshr a)

/-- `vsar`: arithmetic shift right (R203). -/
def execVsar (a : Vv) (s : State) : Out :=
  s.dispatchChained (.vsar a)

/-- `vadd.x`: vD = vA + vB, with a scalar second operand (R203). -/
def execVaddX (a : Vx) (s : State) : Out :=
  s.dispatchChained (.vaddX a)

/-- `vsub.x`: vD = vA - vB, with a scalar second operand (R203). -/
def execVsubX (a : Vx) (s : State) : Out :=
  s.dispatchChained (.vsubX a)

/-- `vmul.x`: the low half of vA × vB, with a scalar second operand (R203). -/
def execVmulX (a : Vx) (s : State) : Out :=
  s.dispatchChained (.vmulX a)

/-- `vmulh.x`: the high half of vA × vB, with a scalar second operand (R203). -/
def execVmulhX (a : Vx) (s : State) : Out :=
  s.dispatchChained (.vmulhX a)

/-- `vmadd.x`: vD = vA × vB + vD, with a scalar second operand (R203). -/
def execVmaddX (a : Vx) (s : State) : Out :=
  s.dispatchChained (.vmaddX a)

/-- `vmin.x`: the lesser, with a scalar second operand (R203). -/
def execVminX (a : Vx) (s : State) : Out :=
  s.dispatchChained (.vminX a)

/-- `vmax.x`: the greater, with a scalar second operand (R203). -/
def execVmaxX (a : Vx) (s : State) : Out :=
  s.dispatchChained (.vmaxX a)

/-- `vand.x`: vA AND vB, with a scalar second operand (R203). -/
def execVandX (a : Vx) (s : State) : Out :=
  s.dispatchChained (.vandX a)

/-- `vor.x`: vA OR vB, with a scalar second operand (R203). -/
def execVorX (a : Vx) (s : State) : Out :=
  s.dispatchChained (.vorX a)

/-- `vxor.x`: vA XOR vB, with a scalar second operand (R203). -/
def execVxorX (a : Vx) (s : State) : Out :=
  s.dispatchChained (.vxorX a)

/-- `vshl.x`: shift left, with a scalar second operand (R203). -/
def execVshlX (a : Vx) (s : State) : Out :=
  s.dispatchChained (.vshlX a)

/-- `vshr.x`: logical shift right, with a scalar second operand (R203). -/
def execVshrX (a : Vx) (s : State) : Out :=
  s.dispatchChained (.vshrX a)

/-- `vsar.x`: arithmetic shift right, with a scalar second operand (R203). -/
def execVsarX (a : Vx) (s : State) : Out :=
  s.dispatchChained (.vsarX a)

end Sys2Proof.Machine
end

