-- ==== Sys2Proof/Machine/VectorMask.lean ====
section
/-!
DEFINITION. Compares, selects, masks, moves, reductions, conversions (R207 to R216): each enters the VIQ; its convoy gives
it the effect that its `prep` of VecArith states.
-/

namespace Sys2Proof.Machine

/-- `vcmp.eq` (R207). -/
def execVcmpEq (a : Vk) (s : State) : Out :=
  s.dispatchChained (.vcmpEq a)

/-- `vcmp.ne` (R207). -/
def execVcmpNe (a : Vk) (s : State) : Out :=
  s.dispatchChained (.vcmpNe a)

/-- `vcmp.lt` (R207). -/
def execVcmpLt (a : Vk) (s : State) : Out :=
  s.dispatchChained (.vcmpLt a)

/-- `vcmp.ge` (R207). -/
def execVcmpGe (a : Vk) (s : State) : Out :=
  s.dispatchChained (.vcmpGe a)

/-- `vcmp.lt.n` (R207). -/
def execVcmpLtN (a : Vk) (s : State) : Out :=
  s.dispatchChained (.vcmpLtN a)

/-- `vcmp.ge.n` (R207). -/
def execVcmpGeN (a : Vk) (s : State) : Out :=
  s.dispatchChained (.vcmpGeN a)

/-- `vcmp.feq` (R207). -/
def execVcmpFeq (a : Vk) (s : State) : Out :=
  s.dispatchChained (.vcmpFeq a)

/-- `vcmp.flt` (R207). -/
def execVcmpFlt (a : Vk) (s : State) : Out :=
  s.dispatchChained (.vcmpFlt a)

/-- `vcmp.fle` (R207). -/
def execVcmpFle (a : Vk) (s : State) : Out :=
  s.dispatchChained (.vcmpFle a)

/-- `vcmp.fun` (R207). -/
def execVcmpFun (a : Vk) (s : State) : Out :=
  s.dispatchChained (.vcmpFun a)

/-- `vsel` (R208). -/
def execVsel (a : Vp) (s : State) : Out :=
  s.dispatchChained (.vsel a)

/-- `kand` (R209). -/
def execKand (c : Bool) (kd ka kb : KReg) (s : State) : Out :=
  s.dispatchChained (.kand c kd ka kb)

/-- `kor` (R209). -/
def execKor (c : Bool) (kd ka kb : KReg) (s : State) : Out :=
  s.dispatchChained (.kor c kd ka kb)

/-- `knot` (R209). -/
def execKnot (c : Bool) (kd ka : KReg) (s : State) : Out :=
  s.dispatchChained (.knot c kd ka)

/-- `kpop`: how many elements are set (R210). -/
def execKpop (c : Bool) (sd : SReg) (ka : KReg) (m : MaskOp) (s : State) : Out :=
  s.dispatchChained (.kpop c sd ka m)

/-- `kfirst`: the lowest element set (R210). -/
def execKfirst (c : Bool) (sd : SReg) (ka : KReg) (m : MaskOp) (s : State) : Out :=
  s.dispatchChained (.kfirst c sd ka m)

/-- `vmv.sx` (R211). -/
def execVmvSx (c : Bool) (vd : VReg) (sa sb : SReg) (ty : Tag) (s : State) : Out :=
  s.dispatchChained (.vmvSx c vd sa sb ty)

/-- `vbcast` (R211). -/
def execVbcast (c : Bool) (vd : VReg) (sa : SReg) (ty : Tag) (m : MaskOp) (s : State) : Out :=
  s.dispatchChained (.vbcast c vd sa ty m)

/-- `vmv.xs` (R212). -/
def execVmvXs (c : Bool) (sd : SReg) (va : VReg) (sb : SReg) (s : State) : Out :=
  s.dispatchChained (.vmvXs c sd va sb)

/-- `vred.add.o` (R213). -/
def execVredAddO (a : Red) (s : State) : Out :=
  s.dispatchChained (.vredAddO a)

/-- `vred.add.t` (R213). -/
def execVredAddT (a : Red) (s : State) : Out :=
  s.dispatchChained (.vredAddT a)

/-- `vred.min` (R213). -/
def execVredMin (a : Red) (s : State) : Out :=
  s.dispatchChained (.vredMin a)

/-- `vred.max` (R213). -/
def execVredMax (a : Red) (s : State) : Out :=
  s.dispatchChained (.vredMax a)

/-- `vcvt.h`: to half the width (R214). -/
def execVcvtH (a : V1) (s : State) : Out :=
  s.dispatchChained (.vcvtH a)

/-- `vcvt.d`: to double the width (R214). -/
def execVcvtD (a : V1) (s : State) : Out :=
  s.dispatchChained (.vcvtD a)

/-- `vcvt.f32.e2m1` (R215). -/
def execVcvtF32E2m1 (a : V1) (s : State) : Out :=
  s.dispatchChained (.vcvtF32E2m1 a)

/-- `vtag` (R216). -/
def execVtag (c : Bool) (vd va : VReg) (ty : Tag) (s : State) : Out :=
  s.dispatchChained (.vtag c vd va ty)

end Sys2Proof.Machine
end

