-- ==== Sys2Proof/Machine/VectorMemory.lean ====
section
/-!
DEFINITION. Vector memory, lane tables, vector atomics, window updates (R217 to R225, R232, R269 to R271, R276): each
enters the VIQ; its convoy gives it the effect that its `prep` of VecMem states.
-/

namespace Sys2Proof.Machine

/-- `vld`: unit-stride load (R217, R220). -/
def execVld (a : Vmem) (s : State) : Out :=
  s.dispatchChained (.vld a)

/-- `vlds`: strided load. -/
def execVlds (a : Vstr) (s : State) : Out :=
  s.dispatchChained (.vlds a)

/-- `vldx`: gather. -/
def execVldx (a : Vidx) (s : State) : Out :=
  s.dispatchChained (.vldx a)

/-- `vst`: unit-stride store (R221). -/
def execVst (a : Vmem) (s : State) : Out :=
  s.dispatchChained (.vst a)

/-- `vsts`: strided store. -/
def execVsts (a : Vstr) (s : State) : Out :=
  s.dispatchChained (.vsts a)

/-- `vstx.o`: ordered scatter (R219). -/
def execVstxO (a : Vidx) (s : State) : Out :=
  s.dispatchChained (.vstxO a)

/-- `vstx.n`: unordered scatter (R219). -/
def execVstxN (a : Vidx) (s : State) : Out :=
  s.dispatchChained (.vstxN a)

/-- `vldc`: load of a compressed block (R225). -/
def execVldc (a : Vmem) (s : State) : Out :=
  s.dispatchChained (.vldc a)

/-- `vstc`: store of a compressed block (R224). -/
def execVstc (a : Vstc) (s : State) : Out :=
  s.dispatchChained (.vstc a)

/-- `vfwd.res` (R222). -/
def execVfwdRes (a : Vu) (s : State) : Out :=
  s.dispatchChained (.vfwdRes a)

/-- `vlt.ld`: lane-table load (R232). -/
def execVltLd (a : Vlt) (s : State) : Out :=
  s.dispatchChained (.vltLd a)

/-- `vlt.st`: lane-table store (R232). -/
def execVltSt (a : Vlt) (s : State) : Out :=
  s.dispatchChained (.vltSt a)

/-- `vlt.fill`: every lane-table filled (R232). -/
def execVltFill (a : Vs) (s : State) : Out :=
  s.dispatchChained (.vltFill a)

/-- `vamo.add` (R269 to R271). -/
def execVamoAdd (a : Vamo) (s : State) : Out :=
  s.dispatchChained (.vamoAdd a)

/-- `vamo.and` (R269 to R271). -/
def execVamoAnd (a : Vamo) (s : State) : Out :=
  s.dispatchChained (.vamoAnd a)

/-- `vamo.or` (R269 to R271). -/
def execVamoOr (a : Vamo) (s : State) : Out :=
  s.dispatchChained (.vamoOr a)

/-- `vamo.xor` (R269 to R271). -/
def execVamoXor (a : Vamo) (s : State) : Out :=
  s.dispatchChained (.vamoXor a)

/-- `vamo.min` (R269 to R271). -/
def execVamoMin (a : Vamo) (s : State) : Out :=
  s.dispatchChained (.vamoMin a)

/-- `vamo.max` (R269 to R271). -/
def execVamoMax (a : Vamo) (s : State) : Out :=
  s.dispatchChained (.vamoMax a)

/-- `vamo.swp` (R269 to R271). -/
def execVamoSwp (a : Vamo) (s : State) : Out :=
  s.dispatchChained (.vamoSwp a)

/-- `vamo.cas` (R269 to R271). -/
def execVamoCas (a : Vamo) (s : State) : Out :=
  s.dispatchChained (.vamoCas a)

/-- `vwacc.add`: window update (R276). -/
def execVwaccAdd (a : Vwacc) (s : State) : Out :=
  s.dispatchChained (.vwaccAdd a)

end Sys2Proof.Machine
end

