-- ==== Sys2Proof/Machine/Dispatch.lean ====
section
/-!
DEFINITION. The dispatch of every instruction and event to its meaning, one arm per constructor.
-/

namespace Sys2Proof.Machine

/-- The effect of an instruction of the strand that dispatches, or of an event. -/
def exec (i : Instr) (s : State) : Host.Outcome State Fault Refusal :=
  match i with
  | .nop => Sys2Proof.Machine.execNop s
  | .finish => Sys2Proof.Machine.execFinish s
  | .ret => Sys2Proof.Machine.execRet s
  | .br off slot => Sys2Proof.Machine.execBr off slot s
  | .call off slot => Sys2Proof.Machine.execCall off slot s
  | .jr sd sa imm => Sys2Proof.Machine.execJr sd sa imm s
  | .beq sa sb off slot => Sys2Proof.Machine.execBeq sa sb off slot s
  | .bne sa sb off slot => Sys2Proof.Machine.execBne sa sb off slot s
  | .blt sa sb off slot => Sys2Proof.Machine.execBlt sa sb off slot s
  | .bge sa sb off slot => Sys2Proof.Machine.execBge sa sb off slot s
  | .bltn sa sb off slot => Sys2Proof.Machine.execBltn sa sb off slot s
  | .bgen sa sb off slot => Sys2Proof.Machine.execBgen sa sb off slot s
  | .bz sa off slot => Sys2Proof.Machine.execBz sa off slot s
  | .bnz sa off slot => Sys2Proof.Machine.execBnz sa off slot s
  | .sget sd num => Sys2Proof.Machine.execSget sd num s
  | .sput num sa => Sys2Proof.Machine.execSput num sa s
  | .vsetvl sd sa => Sys2Proof.Machine.execVsetvl sd sa s
  | .vsettype sd sa => Sys2Proof.Machine.execVsettype sd sa s
  | .vsettypeImm sd imm => Sys2Proof.Machine.execVsettypeImm sd imm s
  | .qdrain sd sa => Sys2Proof.Machine.execQdrain sd sa s
  | .brk imm => Sys2Proof.Machine.execBrk imm s
  | .trap sa imm => Sys2Proof.Machine.execTrap sa imm s
  | .sysCall sd sa => Sys2Proof.Machine.execSysCall sd sa s
  | .progMark sa imm => Sys2Proof.Machine.execProgMark sa imm s
  | .taskPost sd sa sb => Sys2Proof.Machine.execTaskPost sd sa sb s
  | .add sd sa sb => Sys2Proof.Machine.execAdd sd sa sb s
  | .sub sd sa sb => Sys2Proof.Machine.execSub sd sa sb s
  | .mul sd sa sb => Sys2Proof.Machine.execMul sd sa sb s
  | .mulh sd sa sb => Sys2Proof.Machine.execMulh sd sa sb s
  | .mulhN sd sa sb => Sys2Proof.Machine.execMulhN sd sa sb s
  | .div sd sa sb => Sys2Proof.Machine.execDiv sd sa sb s
  | .divN sd sa sb => Sys2Proof.Machine.execDivN sd sa sb s
  | .rem sd sa sb => Sys2Proof.Machine.execRem sd sa sb s
  | .remN sd sa sb => Sys2Proof.Machine.execRemN sd sa sb s
  | .addImm sd sa imm => Sys2Proof.Machine.execAddImm sd sa imm s
  | .subImm sd sa imm => Sys2Proof.Machine.execSubImm sd sa imm s
  | .mulImm sd sa imm => Sys2Proof.Machine.execMulImm sd sa imm s
  | .and sd sa sb => Sys2Proof.Machine.execAnd sd sa sb s
  | .or sd sa sb => Sys2Proof.Machine.execOr sd sa sb s
  | .xor sd sa sb => Sys2Proof.Machine.execXor sd sa sb s
  | .andn sd sa sb => Sys2Proof.Machine.execAndn sd sa sb s
  | .shl sd sa sb => Sys2Proof.Machine.execShl sd sa sb s
  | .shr sd sa sb => Sys2Proof.Machine.execShr sd sa sb s
  | .sar sd sa sb => Sys2Proof.Machine.execSar sd sa sb s
  | .rot sd sa sb => Sys2Proof.Machine.execRot sd sa sb s
  | .andImm sd sa imm => Sys2Proof.Machine.execAndImm sd sa imm s
  | .orImm sd sa imm => Sys2Proof.Machine.execOrImm sd sa imm s
  | .xorImm sd sa imm => Sys2Proof.Machine.execXorImm sd sa imm s
  | .andnImm sd sa imm => Sys2Proof.Machine.execAndnImm sd sa imm s
  | .shlImm sd sa cnt => Sys2Proof.Machine.execShlImm sd sa cnt s
  | .shrImm sd sa cnt => Sys2Proof.Machine.execShrImm sd sa cnt s
  | .sarImm sd sa cnt => Sys2Proof.Machine.execSarImm sd sa cnt s
  | .rotImm sd sa cnt => Sys2Proof.Machine.execRotImm sd sa cnt s
  | .min sd sa sb => Sys2Proof.Machine.execMin sd sa sb s
  | .max sd sa sb => Sys2Proof.Machine.execMax sd sa sb s
  | .minN sd sa sb => Sys2Proof.Machine.execMinN sd sa sb s
  | .maxN sd sa sb => Sys2Proof.Machine.execMaxN sd sa sb s
  | .cmpEq sd sa sb => Sys2Proof.Machine.execCmpEq sd sa sb s
  | .cmpNe sd sa sb => Sys2Proof.Machine.execCmpNe sd sa sb s
  | .cmpLt sd sa sb => Sys2Proof.Machine.execCmpLt sd sa sb s
  | .cmpGe sd sa sb => Sys2Proof.Machine.execCmpGe sd sa sb s
  | .cmpLtN sd sa sb => Sys2Proof.Machine.execCmpLtN sd sa sb s
  | .cmpGeN sd sa sb => Sys2Proof.Machine.execCmpGeN sd sa sb s
  | .cmpEqImm sd sa imm => Sys2Proof.Machine.execCmpEqImm sd sa imm s
  | .cmpNeImm sd sa imm => Sys2Proof.Machine.execCmpNeImm sd sa imm s
  | .cmpLtImm sd sa imm => Sys2Proof.Machine.execCmpLtImm sd sa imm s
  | .cmpGeImm sd sa imm => Sys2Proof.Machine.execCmpGeImm sd sa imm s
  | .cmpLtNImm sd sa imm => Sys2Proof.Machine.execCmpLtNImm sd sa imm s
  | .cmpGeNImm sd sa imm => Sys2Proof.Machine.execCmpGeNImm sd sa imm s
  | .clz sd sa => Sys2Proof.Machine.execClz sd sa s
  | .ctz sd sa => Sys2Proof.Machine.execCtz sd sa s
  | .pop sd sa => Sys2Proof.Machine.execPop sd sa s
  | .bext sd sa pos wm1 => Sys2Proof.Machine.execBext sd sa pos wm1 s
  | .bins sd sa pos wm1 => Sys2Proof.Machine.execBins sd sa pos wm1 s
  | .li sd imm => Sys2Proof.Machine.execLi sd imm s
  | .lih sd sa imm => Sys2Proof.Machine.execLih sd sa imm s
  | .lea sd sa sb sh d => Sys2Proof.Machine.execLea sd sa sb sh d s
  | .ldB sd sa imm => Sys2Proof.Machine.execLdB sd sa imm s
  | .ldH sd sa imm => Sys2Proof.Machine.execLdH sd sa imm s
  | .ldW sd sa imm => Sys2Proof.Machine.execLdW sd sa imm s
  | .ldD sd sa imm => Sys2Proof.Machine.execLdD sd sa imm s
  | .ldBN sd sa imm => Sys2Proof.Machine.execLdBN sd sa imm s
  | .ldHN sd sa imm => Sys2Proof.Machine.execLdHN sd sa imm s
  | .ldWN sd sa imm => Sys2Proof.Machine.execLdWN sd sa imm s
  | .stB sb sa imm => Sys2Proof.Machine.execStB sb sa imm s
  | .stH sb sa imm => Sys2Proof.Machine.execStH sb sa imm s
  | .stW sb sa imm => Sys2Proof.Machine.execStW sb sa imm s
  | .stD sb sa imm => Sys2Proof.Machine.execStD sb sa imm s
  | .amoAdd sd sa sb ord d => Sys2Proof.Machine.execAmoAdd sd sa sb ord d s
  | .amoAnd sd sa sb ord d => Sys2Proof.Machine.execAmoAnd sd sa sb ord d s
  | .amoOr sd sa sb ord d => Sys2Proof.Machine.execAmoOr sd sa sb ord d s
  | .amoXor sd sa sb ord d => Sys2Proof.Machine.execAmoXor sd sa sb ord d s
  | .amoMin sd sa sb ord d => Sys2Proof.Machine.execAmoMin sd sa sb ord d s
  | .amoMax sd sa sb ord d => Sys2Proof.Machine.execAmoMax sd sa sb ord d s
  | .amoSwp sd sa sb ord d => Sys2Proof.Machine.execAmoSwp sd sa sb ord d s
  | .amoCas sd sa sb ord d => Sys2Proof.Machine.execAmoCas sd sa sb ord d s
  | .amoMinN sd sa sb ord d => Sys2Proof.Machine.execAmoMinN sd sa sb ord d s
  | .amoMaxN sd sa sb ord d => Sys2Proof.Machine.execAmoMaxN sd sa sb ord d s
  | .vadd a => Sys2Proof.Machine.execVadd a s
  | .vsub a => Sys2Proof.Machine.execVsub a s
  | .vmul a => Sys2Proof.Machine.execVmul a s
  | .vmulh a => Sys2Proof.Machine.execVmulh a s
  | .vmadd a => Sys2Proof.Machine.execVmadd a s
  | .vmin a => Sys2Proof.Machine.execVmin a s
  | .vmax a => Sys2Proof.Machine.execVmax a s
  | .vand a => Sys2Proof.Machine.execVand a s
  | .vor a => Sys2Proof.Machine.execVor a s
  | .vxor a => Sys2Proof.Machine.execVxor a s
  | .vshl a => Sys2Proof.Machine.execVshl a s
  | .vshr a => Sys2Proof.Machine.execVshr a s
  | .vsar a => Sys2Proof.Machine.execVsar a s
  | .vaddX a => Sys2Proof.Machine.execVaddX a s
  | .vsubX a => Sys2Proof.Machine.execVsubX a s
  | .vmulX a => Sys2Proof.Machine.execVmulX a s
  | .vmulhX a => Sys2Proof.Machine.execVmulhX a s
  | .vmaddX a => Sys2Proof.Machine.execVmaddX a s
  | .vminX a => Sys2Proof.Machine.execVminX a s
  | .vmaxX a => Sys2Proof.Machine.execVmaxX a s
  | .vandX a => Sys2Proof.Machine.execVandX a s
  | .vorX a => Sys2Proof.Machine.execVorX a s
  | .vxorX a => Sys2Proof.Machine.execVxorX a s
  | .vshlX a => Sys2Proof.Machine.execVshlX a s
  | .vshrX a => Sys2Proof.Machine.execVshrX a s
  | .vsarX a => Sys2Proof.Machine.execVsarX a s
  | .vfadd a => Sys2Proof.Machine.execVfadd a s
  | .vfsub a => Sys2Proof.Machine.execVfsub a s
  | .vfmul a => Sys2Proof.Machine.execVfmul a s
  | .vfdiv a => Sys2Proof.Machine.execVfdiv a s
  | .vfmin a => Sys2Proof.Machine.execVfmin a s
  | .vfmax a => Sys2Proof.Machine.execVfmax a s
  | .vfma a => Sys2Proof.Machine.execVfma a s
  | .vfsqrt a => Sys2Proof.Machine.execVfsqrt a s
  | .vfrcpE a => Sys2Proof.Machine.execVfrcpE a s
  | .vfaddX a => Sys2Proof.Machine.execVfaddX a s
  | .vfsubX a => Sys2Proof.Machine.execVfsubX a s
  | .vfmulX a => Sys2Proof.Machine.execVfmulX a s
  | .vfdivX a => Sys2Proof.Machine.execVfdivX a s
  | .vfminX a => Sys2Proof.Machine.execVfminX a s
  | .vfmaxX a => Sys2Proof.Machine.execVfmaxX a s
  | .vscale a => Sys2Proof.Machine.execVscale a s
  | .vcmpEq a => Sys2Proof.Machine.execVcmpEq a s
  | .vcmpNe a => Sys2Proof.Machine.execVcmpNe a s
  | .vcmpLt a => Sys2Proof.Machine.execVcmpLt a s
  | .vcmpGe a => Sys2Proof.Machine.execVcmpGe a s
  | .vcmpLtN a => Sys2Proof.Machine.execVcmpLtN a s
  | .vcmpGeN a => Sys2Proof.Machine.execVcmpGeN a s
  | .vcmpFeq a => Sys2Proof.Machine.execVcmpFeq a s
  | .vcmpFlt a => Sys2Proof.Machine.execVcmpFlt a s
  | .vcmpFle a => Sys2Proof.Machine.execVcmpFle a s
  | .vcmpFun a => Sys2Proof.Machine.execVcmpFun a s
  | .vsel a => Sys2Proof.Machine.execVsel a s
  | .kand c kd ka kb => Sys2Proof.Machine.execKand c kd ka kb s
  | .kor c kd ka kb => Sys2Proof.Machine.execKor c kd ka kb s
  | .knot c kd ka => Sys2Proof.Machine.execKnot c kd ka s
  | .kpop c sd ka m => Sys2Proof.Machine.execKpop c sd ka m s
  | .kfirst c sd ka m => Sys2Proof.Machine.execKfirst c sd ka m s
  | .vmvSx c vd sa sb ty => Sys2Proof.Machine.execVmvSx c vd sa sb ty s
  | .vbcast c vd sa ty m => Sys2Proof.Machine.execVbcast c vd sa ty m s
  | .vmvXs c sd va sb => Sys2Proof.Machine.execVmvXs c sd va sb s
  | .vredAddO a => Sys2Proof.Machine.execVredAddO a s
  | .vredAddT a => Sys2Proof.Machine.execVredAddT a s
  | .vredMin a => Sys2Proof.Machine.execVredMin a s
  | .vredMax a => Sys2Proof.Machine.execVredMax a s
  | .vcvtH a => Sys2Proof.Machine.execVcvtH a s
  | .vcvtD a => Sys2Proof.Machine.execVcvtD a s
  | .vcvtF32E2m1 a => Sys2Proof.Machine.execVcvtF32E2m1 a s
  | .vtag c vd va ty => Sys2Proof.Machine.execVtag c vd va ty s
  | .vld a => Sys2Proof.Machine.execVld a s
  | .vlds a => Sys2Proof.Machine.execVlds a s
  | .vldx a => Sys2Proof.Machine.execVldx a s
  | .vst a => Sys2Proof.Machine.execVst a s
  | .vsts a => Sys2Proof.Machine.execVsts a s
  | .vstxO a => Sys2Proof.Machine.execVstxO a s
  | .vstxN a => Sys2Proof.Machine.execVstxN a s
  | .vldc a => Sys2Proof.Machine.execVldc a s
  | .vstc a => Sys2Proof.Machine.execVstc a s
  | .vfwdRes a => Sys2Proof.Machine.execVfwdRes a s
  | .vperm a => Sys2Proof.Machine.execVperm a s
  | .vzip a => Sys2Proof.Machine.execVzip a s
  | .vunzip a => Sys2Proof.Machine.execVunzip a s
  | .vslideUp a => Sys2Proof.Machine.execVslideUp a s
  | .vslideDn a => Sys2Proof.Machine.execVslideDn a s
  | .vrepBlk a => Sys2Proof.Machine.execVrepBlk a s
  | .vcompress a => Sys2Proof.Machine.execVcompress a s
  | .vexpand a => Sys2Proof.Machine.execVexpand a s
  | .vscanAdd a => Sys2Proof.Machine.execVscanAdd a s
  | .vscanAddx a => Sys2Proof.Machine.execVscanAddx a s
  | .vmergeUAdd a => Sys2Proof.Machine.execVmergeUAdd a s
  | .vmergeUSub a => Sys2Proof.Machine.execVmergeUSub a s
  | .vmergeUMax a => Sys2Proof.Machine.execVmergeUMax a s
  | .vxch a => Sys2Proof.Machine.execVxch a s
  | .vltLd a => Sys2Proof.Machine.execVltLd a s
  | .vltSt a => Sys2Proof.Machine.execVltSt a s
  | .vltFill a => Sys2Proof.Machine.execVltFill a s
  | .mzero c t ty => Sys2Proof.Machine.execMzero c t ty s
  | .mtag c t ty => Sys2Proof.Machine.execMtag c t ty s
  | .vopa a => Sys2Proof.Machine.execVopa a s
  | .vopaS a => Sys2Proof.Machine.execVopaS a s
  | .mrd a => Sys2Proof.Machine.execMrd a s
  | .mwr a => Sys2Proof.Machine.execMwr a s
  | .mld a => Sys2Proof.Machine.execMld a s
  | .mst a => Sys2Proof.Machine.execMst a s
  | .mcvtI32Trio a => Sys2Proof.Machine.execMcvtI32Trio a s
  | .mcvtF32I32 a => Sys2Proof.Machine.execMcvtF32I32 a s
  | .mcvtBf16F32 a => Sys2Proof.Machine.execMcvtBf16F32 a s
  | .acq sd sa sb => Sys2Proof.Machine.execAcq sd sa sb s
  | .rel sd sa => Sys2Proof.Machine.execRel sd sa s
  | .fenceG => Sys2Proof.Machine.execFenceG s
  | .fenceD => Sys2Proof.Machine.execFenceD s
  | .fenceS => Sys2Proof.Machine.execFenceS s
  | .barWait sa => Sys2Proof.Machine.execBarWait sa s
  | .vwait a => Sys2Proof.Machine.execVwait a s
  | .vamoAdd a => Sys2Proof.Machine.execVamoAdd a s
  | .vamoAnd a => Sys2Proof.Machine.execVamoAnd a s
  | .vamoOr a => Sys2Proof.Machine.execVamoOr a s
  | .vamoXor a => Sys2Proof.Machine.execVamoXor a s
  | .vamoMin a => Sys2Proof.Machine.execVamoMin a s
  | .vamoMax a => Sys2Proof.Machine.execVamoMax a s
  | .vamoSwp a => Sys2Proof.Machine.execVamoSwp a s
  | .vamoCas a => Sys2Proof.Machine.execVamoCas a s
  | .vwaccAdd a => Sys2Proof.Machine.execVwaccAdd a s
  | .syncBind sd sa sb scope => Sys2Proof.Machine.execSyncBind sd sa sb scope s
  | .syncUnbind sa => Sys2Proof.Machine.execSyncUnbind sa s
  | .barInit sa nm1 => Sys2Proof.Machine.execBarInit sa nm1 s
  | .barArr sa => Sys2Proof.Machine.execBarArr sa s
  | .barArrRlx sa => Sys2Proof.Machine.execBarArrRlx sa s
  | .barDrop sa => Sys2Proof.Machine.execBarDrop sa s
  | .winOpen sa sb sc ty => Sys2Proof.Machine.execWinOpen sa sb sc ty s
  | .winMerge => Sys2Proof.Machine.execWinMerge s
  | .winClose => Sys2Proof.Machine.execWinClose s
  | .cpy a => Sys2Proof.Machine.execCpy a s
  | .cpy2d a => Sys2Proof.Machine.execCpy2d a s
  | .cpyFl a => Sys2Proof.Machine.execCpyFl a s
  | .cpyMove a => Sys2Proof.Machine.execCpyMove a s
  | .tokPoll sd sa => Sys2Proof.Machine.execTokPoll sd sa s
  | .fwdRes sd sa => Sys2Proof.Machine.execFwdRes sd sa s
  | .fwdCmp sd sa sb => Sys2Proof.Machine.execFwdCmp sd sa sb s
  | .fwdStat sd sa => Sys2Proof.Machine.execFwdStat sd sa s
  | .fwdRelink sa => Sys2Proof.Machine.execFwdRelink sa s
  | .fwdClear sa => Sys2Proof.Machine.execFwdClear sa s
  | .tierHint sa sb tier => Sys2Proof.Machine.execTierHint sa sb tier s
  | .fadd d sd sa sb => Sys2Proof.Machine.execFadd d sd sa sb s
  | .fsub d sd sa sb => Sys2Proof.Machine.execFsub d sd sa sb s
  | .fmul d sd sa sb => Sys2Proof.Machine.execFmul d sd sa sb s
  | .fdiv d sd sa sb => Sys2Proof.Machine.execFdiv d sd sa sb s
  | .fmin d sd sa sb => Sys2Proof.Machine.execFmin d sd sa sb s
  | .fmax d sd sa sb => Sys2Proof.Machine.execFmax d sd sa sb s
  | .fma d sd sa sb => Sys2Proof.Machine.execFma d sd sa sb s
  | .fsqrt d sd sa => Sys2Proof.Machine.execFsqrt d sd sa s
  | .fcmpEq d sd sa sb => Sys2Proof.Machine.execFcmpEq d sd sa sb s
  | .fcmpLt d sd sa sb => Sys2Proof.Machine.execFcmpLt d sd sa sb s
  | .fcmpLe d sd sa sb => Sys2Proof.Machine.execFcmpLe d sd sa sb s
  | .fcmpUn d sd sa sb => Sys2Proof.Machine.execFcmpUn d sd sa sb s
  | .fcvtF32F64 sd sa rm => Sys2Proof.Machine.execFcvtF32F64 sd sa rm s
  | .fcvtF64F32 sd sa rm => Sys2Proof.Machine.execFcvtF64F32 sd sa rm s
  | .fcvtF32I64 sd sa rm => Sys2Proof.Machine.execFcvtF32I64 sd sa rm s
  | .fcvtF32N64 sd sa rm => Sys2Proof.Machine.execFcvtF32N64 sd sa rm s
  | .fcvtF64I64 sd sa rm => Sys2Proof.Machine.execFcvtF64I64 sd sa rm s
  | .fcvtF64N64 sd sa rm => Sys2Proof.Machine.execFcvtF64N64 sd sa rm s
  | .fcvtI64F32 sd sa rm => Sys2Proof.Machine.execFcvtI64F32 sd sa rm s
  | .fcvtN64F32 sd sa rm => Sys2Proof.Machine.execFcvtN64F32 sd sa rm s
  | .fcvtI64F64 sd sa rm => Sys2Proof.Machine.execFcvtI64F64 sd sa rm s
  | .fcvtN64F64 sd sa rm => Sys2Proof.Machine.execFcvtN64F64 sd sa rm s
  | .illegalHead cause => Sys2Proof.Machine.execIllegalHead cause s
  | .resultQueueDelivery sid => Sys2Proof.Machine.execResultQueueDelivery sid s
  | .scalarAccessDelivery sid => Sys2Proof.Machine.execScalarAccessDelivery sid s
  | .convoyStart sid => Sys2Proof.Machine.execConvoyStart sid s
  | .viqEntryComplete sid => Sys2Proof.Machine.execViqEntryComplete sid s
  | .memoryAccessPerform rid => Sys2Proof.Machine.execMemoryAccessPerform rid s
  | .keystoneCombine ks => Sys2Proof.Machine.execKeystoneCombine ks s
  | .keystoneSplitReply ks => Sys2Proof.Machine.execKeystoneSplitReply ks s
  | .combinedRedirectReissue ks => Sys2Proof.Machine.execCombinedRedirectReissue ks s
  | .moveLineMark cid => Sys2Proof.Machine.execMoveLineMark cid s
  | .moveLineCommit cid => Sys2Proof.Machine.execMoveLineCommit cid s
  | .copyCompletion cid => Sys2Proof.Machine.execCopyCompletion cid s
  | .relIncrement sid => Sys2Proof.Machine.execRelIncrement sid s
  | .acqSatisfied sid => Sys2Proof.Machine.execAcqSatisfied sid s
  | .barrierArrivalCount bid => Sys2Proof.Machine.execBarrierArrivalCount bid s
  | .vwaitMet sid => Sys2Proof.Machine.execVwaitMet sid s
  | .vwaitTimeout sid => Sys2Proof.Machine.execVwaitTimeout sid s
  | .vxchMatch sid sid' => Sys2Proof.Machine.execVxchMatch sid sid' s
  | .vxchTimeout sid => Sys2Proof.Machine.execVxchTimeout sid s
  | .qdrainComplete sid => Sys2Proof.Machine.execQdrainComplete sid s
  | .fenceComplete sid => Sys2Proof.Machine.execFenceComplete sid s
  | .strandRetire sid => Sys2Proof.Machine.execStrandRetire sid s
  | .gangCompletion gid => Sys2Proof.Machine.execGangCompletion gid s
  | .faultServiceAnswer asid page retry => Sys2Proof.Machine.execFaultServiceAnswer asid page retry s
  | .walkMigRetry sid => Sys2Proof.Machine.execWalkMigRetry sid s
  | .fwdChainRepair sid => Sys2Proof.Machine.execFwdChainRepair sid s
  | .faultNotice sid => Sys2Proof.Machine.execFaultNotice sid s
  | .fanswerResume asid n => Sys2Proof.Machine.execFanswerResume asid n s
  | .fanswerEnd asid n => Sys2Proof.Machine.execFanswerEnd asid n s
  | .fanswerResumePast asid n => Sys2Proof.Machine.execFanswerResumePast asid n s
  | .submitCard asid off data => Sys2Proof.Machine.execSubmitCard asid off data s
  | .cardWindowPostedWrite asid => Sys2Proof.Machine.execCardWindowPostedWrite asid s
  | .scrConfigWrite asid size w => Sys2Proof.Machine.execScrConfigWrite asid size w s
  | .frConfigWrite asid size w => Sys2Proof.Machine.execFrConfigWrite asid size w s
  | .errorRegisterWrite vf w => Sys2Proof.Machine.execErrorRegisterWrite vf w s
  | .slotPartWrite n part => Sys2Proof.Machine.execSlotPartWrite n part s
  | .registerWrite r w => Sys2Proof.Machine.execRegisterWrite r w s
  | .classPromotion queue => Sys2Proof.Machine.execClassPromotion queue s
  | .bindRecord r => Sys2Proof.Machine.execBindRecord r s
  | .dispatchGang handle => Sys2Proof.Machine.execDispatchGang handle s
  | .tlbInvalidate asid base len => Sys2Proof.Machine.execTlbInvalidate asid base len s
  | .saveGang handle => Sys2Proof.Machine.execSaveGang handle s
  | .saveComplete handle => Sys2Proof.Machine.execSaveComplete handle s
  | .saveTimeout handle => Sys2Proof.Machine.execSaveTimeout handle s
  | .vacateRecord r => Sys2Proof.Machine.execVacateRecord r s
  | .checkpointStart handle => Sys2Proof.Machine.execCheckpointStart handle s
  | .vacateRelease h => Sys2Proof.Machine.execVacateRelease h s
  | .softError what => Sys2Proof.Machine.execSoftError what s
  | .hangWatchdogExpiry handle => Sys2Proof.Machine.execHangWatchdogExpiry handle s
  | .hostHdmWrite addr data => Sys2Proof.Machine.execHostHdmWrite addr data s
  | .hostHdmRead addr n => Sys2Proof.Machine.execHostHdmRead addr n s
  | .flitRetry link => Sys2Proof.Machine.execFlitRetry link s
  | .linkFailure link routes => Sys2Proof.Machine.execLinkFailure link routes s
  | .routeTimeout sid => Sys2Proof.Machine.execRouteTimeout sid s
  | .qpContextWrite qp ctx => Sys2Proof.Machine.execQpContextWrite qp ctx s
  | .neTailUpdate qp => Sys2Proof.Machine.execNeTailUpdate qp s
  | .neNop qp => Sys2Proof.Machine.execNeNop qp s
  | .neSend qp r => Sys2Proof.Machine.execNeSend qp r s
  | .neWrite qp r => Sys2Proof.Machine.execNeWrite qp r s
  | .neRead qp r => Sys2Proof.Machine.execNeRead qp r s
  | .neRecv qp data => Sys2Proof.Machine.execNeRecv qp data s
  | .neEntryComplete qp => Sys2Proof.Machine.execNeEntryComplete qp s
  | .vfReset vf => Sys2Proof.Machine.execVfReset vf s
  | .packageReset dies hbm stages => Sys2Proof.Machine.execPackageReset dies hbm stages s
  | .startComplete hostTime => Sys2Proof.Machine.execStartComplete hostTime s
  | .startFailure c => Sys2Proof.Machine.execStartFailure c s
  | .startWatchdogExpiry => Sys2Proof.Machine.execStartWatchdogExpiry s
  | .minimalStageWrite stage => Sys2Proof.Machine.execMinimalStageWrite stage s
  | .attestationNonce nonce => Sys2Proof.Machine.execAttestationNonce nonce s
  | .thermalTrip => Sys2Proof.Machine.execThermalTrip s
  | .allowanceRequest die req effective => Sys2Proof.Machine.execAllowanceRequest die req effective s
  | .allowanceApply group => Sys2Proof.Machine.execAllowanceApply group s
  | .stackTempSample stack decidegrees effective => Sys2Proof.Machine.execStackTempSample stack decidegrees effective s
  | .heldRequestTimeout sid => Sys2Proof.Machine.execHeldRequestTimeout sid s
  | .lineBufferReplacement sid line => Sys2Proof.Machine.execLineBufferReplacement sid line s
  | .tlbReplacement asid page => Sys2Proof.Machine.execTlbReplacement asid page s
  | .tierManagerMove asid src dst len mover => Sys2Proof.Machine.execTierManagerMove asid src dst len mover s
  | .faultRingHeadWrite asid w => Sys2Proof.Machine.execFaultRingHeadWrite asid w s
  | .inletTemperatureChange degrees effective => Sys2Proof.Machine.execInletTemperatureChange degrees effective s
  | .instructionFetchFault cause addr value => Sys2Proof.Machine.execInstructionFetchFault cause addr value s
  | .atomicopAsCompleter addr op wide operand compare => Sys2Proof.Machine.execAtomicopAsCompleter addr op wide operand compare s

end Sys2Proof.Machine
end

