-- ==== Sys2Proof/Machine/Advance.lean ====
section
/-!
DEFINITION. What a step does: the next event that is due, else the next head a strand dispatches, else the end of the tick
(R17, R22; log 28). Events due and heads are taken one a step.
-/

namespace Sys2Proof.Machine

/-- The first of a list of choices that is made. -/
def firstOf {α β : Type} (f : α → Option β) : List α → Option β
  | [] => none
  | x :: t =>
    match f x with
    | some y => some y
    | none => firstOf f t

/-- An event, if it is due. -/
def due (b : Bool) (o : Out) : Option Out :=
  if b then some o else none

/-- Whether an attempt at memory has ended with a value for which `p` fails: its event is not due. -/
def Res.idle {α : Type} (x : Res α) (p : α → Bool) : Bool :=
  match x with
  | .ok a _ => !p a
  | _ => false

/-! ## Inputs -/

/-- What may stand on the agenda: an event that needs no strand which dispatches it (log 28). -/
def isInput (i : Instr) : Bool :=
  match i with
  | .illegalHead _ => false
  | .instructionFetchFault _ _ _ => false
  | i => i.isEvent

/-- The key of the access that an input makes from outside, if it makes one (R24). -/
def State.inputKey (s : State) (e : Instr) : Option Nat :=
  let pair (qp : Nat) : Option Nat := (s.qpOf qp).map s.qpKey
  match e with
  | .submitCard asid _ _ => some (s.partOf asid).toNat
  | .registerWrite (.storageWrite _ _) w => some (s.partOf (w.extractLsb' 64 16)).toNat
  | .hostHdmWrite a d => s.windowKey a d.length
  | .hostHdmRead a n => s.windowKey a n
  | .atomicopAsCompleter a _ wide _ _ => s.windowKey a (if wide then 8 else 4)
  | .tlbInvalidate asid _ _ => some (waitKey (s.partOf asid))
  | .neTailUpdate qp | .neNop qp | .neEntryComplete qp => pair qp
  | .neSend qp _ | .neWrite qp _ | .neRead qp _ | .neRecv qp _ => pair qp
  | .gangCompletion h | .dispatchGang h => (s.gang (BitVec.ofNat 16 h)).map fun g => g.part.toNat
  | .faultNotice sid | .fwdChainRepair sid => (s.strand sid).map fun t => t.id.part.toNat
  | _ => none

/-- Whether an input can be taken now: no access of its key waits, and a stack's sample comes before every head of a beat, so that
each core reads one band in it (R415). -/
def State.takes (s : State) (e : Instr) : Bool :=
  (s.inputKey e).all (fun k => !s.blockedOn k)
    && (match e with
      | .stackTempSample _ _ _ => s.phase == 0 && s.core == 0 && s.heads == 0
      | _ => true)

/-- The first element of a list that passes, and the list without it. -/
def takeFirst {α : Type} (p : α → Bool) : List α → Option (α × List α)
  | [] => none
  | x :: l => if p x then some (x, l) else (takeFirst p l).map fun y => (y.1, x :: y.2)

/-- An input taken from the agenda; one whose access must wait stays at its place, and what is no input is dropped
(log 28). -/
def State.takeInput (s : State) (e : Instr) (rest : List Instr) : Out :=
  if !isInput e then .next { s with agenda := rest }
  else
    match exec e { s with agenda := rest } with
    | .next s1 => .next (if (s.inputKey e).any s1.blockedOn then { s1 with agenda := s.agenda } else s1)
    | o => o

/-- The next input: the oldest that can be taken. -/
def State.input (s : State) : Option Out :=
  (takeFirst s.takes s.agenda).map fun x => s.takeInput x.1 x.2

/-! ## Events of a strand -/

/-- A `rel` that stands first in its queue acts, whatever the strand's heads do (R260, R196). -/
def State.relDue (s : State) (t : Strand) : Option Out :=
  due (s.relReady t && s.issues (dieOf t.id.pclus)) (execRelIncrement t.id.sid s)

/-- The end of a `qdrain`, at the moment its queue is drained (R191). -/
def State.drainDue (s : State) (t : Strand) : Option Out :=
  match t.wait with
  | .queue q _ => due (s.gangRuns t.id.handle && t.status == .running && s.queueDrained t q) (execQdrainComplete t.id.sid s)
  | _ => none

/-- The end of a strand's wait, where it is due. -/
def State.wakeDue (s : State) (t : Strand) : Option Out :=
  let sid := t.id.sid
  match t.wait with
  | .none => none
  | .queue _ _ => none
  | .object obj target =>
    due (t.held.isSome || !(s.readSync t.qctx obj .read).idle fun x => reached x.2 target) (execAcqSatisfied sid s)
  | .flags words left =>
    if left = 0 then some (execVwaitTimeout sid s)
    else due (t.held.isSome || !(s.readWords t.qctx words []).2.idle fun vals => (unmet words vals).isEmpty) (execVwaitMet sid s)
  | .fence => due t.acc.isNone (execFenceComplete sid s)
  | .barrier _ _ => none

/-- The exchange of a strand, where it ends with its peer's offer (R231). -/
def State.exchangeDue (s : State) (t : Strand) : Option Out :=
  match t.xch with
  | .offered o =>
    (s.strands.find? fun u => u.id.handle == t.id.handle && u.id.tid == o.peer && u.status != .struck
      && (match u.xch with
        | .offered p => p.peer == t.id.tid && p.key == o.key
        | _ => false)).map fun u => execVxchMatch t.id.sid u.id.sid s
  | _ => none

/-- An offer withdrawn at the end of a tick, so that an offer made in the same tick still meets it (R231). -/
def State.withdrawalDue (s : State) (t : Strand) : Option Out :=
  match t.xch with
  | .offered o => due (s.phase == 1 && decide (s.tick - o.since ≥ Config.exchangeBeats)) (execVxchTimeout t.id.sid s)
  | _ => none

/-- Whether the oldest VIQ entry has completed or its fault is to be taken (R18), once the head in progress has ended (R197). -/
def Strand.entryDue (t : Strand) : Bool :=
  match t.vfault with
  | some ⟨0, _, _, _⟩ => t.acc.isNone && !t.busy
  | _ =>
    match t.viq with
    | e :: _ => e.done
    | [] => false

/-- Whether the notice of a trap can be delivered: the fault ring is absent or has room (R348). -/
def State.noticeReady (s : State) (t : Strand) : Bool :=
  t.noticeDue && (match s.page t.id.asid with
    | some p => p.frBase == 0 || !ringFull p.frSize p.frHead p.frTail
    | none => true)

/-- Whether what stands first in a strand's queue may act: its gang runs, or is being saved and its exchange has ended or its
vector atomic has returned, which complete first (R26). -/
def State.mayStart (s : State) (t : Strand) : Bool :=
  let ended : Bool := match t.xch with
    | .ended _ => true
    | _ => t.vamo.isSome
  s.issues (dieOf t.id.pclus)
    && (s.gangRuns t.id.handle && (s.convoyReady t || s.soloReady t) || s.beingSaved t && ended && s.convoyReady t)

/-- The next event of a strand. -/
def State.strandDue (s : State) (t : Strand) : Option Out :=
  let sid := t.id.sid
  let runs := s.gangRuns t.id.handle
  let free := !s.blockedOn t.id.part.toNat
  if t.status = .struck then due (s.gang t.id.handle).isSome (execSoftError (.strand sid) s)
  else if !t.rq.isEmpty then some (execResultQueueDelivery sid s)
  else if t.entryDue then some (execViqEntryComplete sid s)
  else if t.acc.any fun a => s.replies.any fun r => r.rid == a.rid then some (execScalarAccessDelivery sid s)
  else if s.retires t then some (execStrandRetire sid s)
  else if runs && t.repairDue && free then some (execFwdChainRepair sid s)
  else if runs && s.noticeReady t && free then some (execFaultNotice sid s)
  else if s.mayStart t then some (execConvoyStart sid s)
  else
    match s.exchangeDue t with
    | some o => some o
    | none => if !runs then none else (s.relDue t).orElse fun _ => if s.frontReady t then s.wakeDue t else none

/-! ## Events of gangs, queues, the network engine, the package -/

/-- The next event of a gang. -/
def State.gangDue (s : State) (g : Gang) : Option Out :=
  let h := g.handle.toNat
  let free := !s.blockedOn g.part.toNat && (s.cardOf g).isSome
  match g.state with
  | .failing _ => due free (execGangCompletion h s)
  | .bound => if (s.dueDecision g.handle).isSome then some (execCheckpointStart h s) else due free (execDispatchGang h s)
  | .saved => none
  | .running =>
    if s.allEnded g then due free (execGangCompletion h s)
    else if (s.dueDecision g.handle).isSome then some (execCheckpointStart h s)
    else due (s.watchdog != 0 && g.idle == s.watchdog) (execHangWatchdogExpiry h s)
  | .saving =>
    if s.allEnded g then due free (execGangCompletion h s)
    else if s.saveReady g then some (execSaveComplete h s)
    else due (s.saves.any fun v => v.handle == g.handle && s.saveExpired v) (execSaveTimeout h s)

/-- Whether a tail word calls for the engine: it has changed, or, in STATE 1, cannot be read. -/
def State.tailDue (s : State) (q : Qp) (recv : Bool) : Bool :=
  match s.countWord q.ctx (qpTailAt q.ctx recv) with
  | .ok n _ => n != (q.ends recv).2
  | _ => qpState q.ctx == 1

/-- The next event of a queue pair (R402). -/
def State.pairDue (s : State) (q : Qp) : Option Out :=
  let left := q.shead != q.stail || q.rhead != q.rtail
  if s.boot.minimal || s.blockedOn (s.qpKey q) then none
  else if q.done.isSome then some (execNeEntryComplete q.qp s)
  else if s.qpWorks q && (s.tailDue q false || s.tailDue q true) then some (execNeTailUpdate q.qp s)
  else if qpState q.ctx == 2 then due left (execNeEntryComplete q.qp s)
  else
    due (qpState q.ctx == 1 && q.shead != q.stail
      && !(s.readEntry q.ctx false q.shead).idle fun e => !e.ok false || e.op == 0) (execNeNop q.qp s)

/-- The promotion of a queue's head (R34, R372). -/
def State.queueDue (s : State) (q : Queue) : Option Out :=
  match s.headTask q.num with
  | some (c, _) =>
    due (s.taskReady c && q.cls c != 0 && decide ((s.tick - q.since) / (10 * beatsPerMs) > q.promos))
      (execClassPromotion q.num s)
  | none => none

/-- The next event that is due before any head is dispatched. -/
def State.eventDue (s : State) : Option Out :=
  (firstOf s.drainDue s.strands).orElse fun _ =>
  (s.input).orElse fun _ =>
  (firstOf s.strandDue s.strands).orElse fun _ =>
  (firstOf (fun (k : Keystone) => due (k.buf.any fun w => s.replies.any fun r => r.rid == w.rid)
    (execKeystoneSplitReply k.ks s)) s.keystones).orElse fun _ =>
  (firstOf s.gangDue s.gangs).orElse fun _ =>
  (firstOf (fun (o : Offer) => due ((s.vlFails o.handle).any fun x => !s.blockedOn (s.partOf x.1.asid).toNat)
    (execGangCompletion o.handle.toNat s)) s.offers).orElse fun _ =>
  (firstOf (fun (a : Nat × Nat × Nat) => (due (s.heldTooLong a.1).isSome (execHeldRequestTimeout a.1 s)).orElse fun _ =>
    due (s.unroutedTooLong a.1).isSome (execRouteTimeout a.1 s)) s.heldAccesses).orElse fun _ =>
  (firstOf s.pairDue s.qps).orElse fun _ =>
  (firstOf s.queueDue s.queues).orElse fun _ =>
  (firstOf (fun (a : Announced) => due (decide (a.at3 ≤ s.time3)) (execAllowanceApply a.group s)) s.announced).orElse fun _ =>
  due s.startLate (execStartWatchdogExpiry s)

/-! ## Events at the end of a tick -/

/-- The next event of a copy: a line is marked in the first tick of a beat and committed in the second (log 28). -/
def State.copyDue (s : State) (c : CopyOp) : Option Out :=
  if c.rem.form ≠ 3 then due (s.copyReady c) (execCopyCompletion c.cid s)
  else if c.moving.isSome then
    due (s.phase == 1 && !c.stalled && !s.waitsService (.copy c.cid)) (execMoveLineCommit c.cid s)
  else if !s.copyReady c then none
  else if c.rem.left = 0 then some (execCopyCompletion c.cid s)
  else due (s.phase == 0) (execMoveLineMark c.cid s)

/-- The next head of a strand, through at most `fuel` lines that hold none. -/
noncomputable def State.headAhead (s : State) (t : Strand) : (fuel : Nat) → Word → Bool → Option Instr
  | 0, _, _ => none
  | fuel + 1, pc, seq =>
    match s.fetchHead t.ctx pc seq with
    | .ok (.head h tail) _ => (decode h tail).toOption
    | .ok .nextLine _ => s.headAhead t fuel (nextLineVa pc) true
    | _ => none

/-- Whether a strand is about to dispatch `bar.wait` on the object of a barrier, by whatever address (R326): it is its next head,
the strand's gang lets it dispatch, and nothing stands before it in the VIQ. -/
noncomputable def State.waitsNext (s : State) (t : Strand) (b : Barrier) : Bool :=
  t.status == .running && t.wait == .none && t.vfault.isNone && t.viq.isEmpty && s.letsDispatch t
    && (match s.headAhead t Config.emptyLines t.pc t.seq with
      | some (.barWait sa) =>
        match s.resolve t.ctx (t.getS sa) 8 8 .read .sync with
        | .ok l _ => l.home == s.barrierHome b
        | _ => false
      | _ => false)

/-- The arrivals of a tick at a barrier (R264): they count once a wait that follows one directly has been registered, so that both
fall in one tick (R326). -/
noncomputable def State.arrivalDue (s : State) (a : Arrival) : Option Out :=
  match s.barriers.find? fun b => b.bid == a.bid with
  | some b =>
    due (s.counts b && !s.arrivals.any fun x => x.bid == b.bid && s.strands.any fun t =>
      (t.id.handle, t.id.tid) == x.who && s.waitsNext t b) (execBarrierArrivalCount a.bid s)
  | none => some (execBarrierArrivalCount a.bid s)

/-- The next event of a keystone: it sends on what it holds; a cluster's in the second tick of a beat, in which the atomics that
the beat's two ticks dispatched enter it together (R326); a keystone inside the network in each tick. -/
def State.keystoneDue (s : State) (k : Keystone) : Option Out :=
  if (k.ks ≥ 24 || s.phase == 1) && k.queue.any fun r => !r.stalled then some (execKeystoneCombine k.ks s)
  else due (!k.redir.isEmpty) (execCombinedRedirectReissue k.ks s)

/-- The next event that is due once no strand can dispatch in a tick. -/
noncomputable def State.lateDue (s : State) : Option Out :=
  (firstOf s.arrivalDue s.arrivals).orElse fun _ =>
  (firstOf s.keystoneDue s.keystones).orElse fun _ =>
  (firstOf (fun (r : Request) => due (s.requestReady r) (execMemoryAccessPerform r.rid s)) s.requests).orElse fun _ =>
  (firstOf s.copyDue s.copies).orElse fun _ =>
  (firstOf s.withdrawalDue s.strands).orElse fun _ =>
  firstOf (fun (v : Svc) => due (v.state == .migWait && decide (s.tick - v.since ≥ 64)) (execWalkMigRetry v.who.number s)) s.svcs

/-! ## Heads -/

/-- The services of a strand at pages that translate again ended: fetch has got past them. -/
def State.endFetch (s : State) (t : Strand) : State :=
  { s with svcs := s.svcs.filter fun v => !(v.who == .strand t.id.sid && (s.tlbHit v.asid (v.page * 2 ^ 16)).isSome) }

/-- A head tried: it has been dispatched, or waits and gives its place in the tick back (R22). -/
def tried (sid : Nat) (o : Out) : Out :=
  match o with
  | .next s => .next (s.giveBack sid)
  | o => o

/-- A strand takes a beat (R22): it fetches the head at its PC and dispatches it (R148 to R152, R162). -/
noncomputable def State.dispatch (s : State) (core : Nat) (t : Strand) : Out :=
  let sid := t.id.sid
  let try_ (i : Instr) (w : State) : Out := tried sid (exec i (w.enter core sid))
  match s.fetchHead t.ctx t.pc t.seq with
  | .ok (.head h tail) w =>
    match decode h tail with
    | .ok i => try_ i (w.endFetch t)
    | .error c => try_ (.illegalHead c) (w.endFetch t)
  | .ok .illLine w => try_ (.illegalHead .illLine) (w.endFetch t)
  | .ok .nextLine w => .next ((w.endFetch t).put { (w.strand sid).getD t with pc := nextLineVa t.pc, seq := true })
  | .flt c a v w => try_ (.instructionFetchFault c a v) (s.keepWait w)
  | .wait w => .next ((s.keepWait w).stall t)
  | .held l w => .next ((s.keepWait w).put (s.holdHead t l))
  | .soft _ _ => .next (s.strike t)

end Sys2Proof.Machine
end

