-- ==== Sys2Proof/Machine/Step.lean ====
section
/-!
DEFINITION. One step of the package, and a state in which a given instruction is the next to run.
-/

namespace Sys2Proof.Machine

/-- One step: an event that is due, else a head that a strand dispatches, else an event of the end of the tick, else the
end of the tick. -/
noncomputable def step (s : State) : Out :=
  match s.eventDue with
  | some o => o
  | none =>
    match s.pick with
    | some (core, t) => s.dispatch core t
    | none =>
      match s.seal.lateDue with
      | some o => o
      | none => .next s.endTick

/-! ## An instruction placed where step fetches (log 29) -/

/-- The address space, task handle, root and program counter of the strand that `State.withFetchWord` installs. -/
def placedAsid : BitVec 16 := 1
/-- The task handle. -/
def placedHandle : BitVec 16 := 1
/-- The physical address of the page-table root; the two nodes below it follow. -/
def placedRoot : Nat := 0x1000
/-- The virtual address of the line, and its physical address. -/
def placedPc : Word := 0x4000

/-- The strand: the four quarters of core 0 of cluster 0. -/
def placedStrand : Strand :=
  entryStrand ⟨0, placedHandle, placedAsid, 0, 0, 1, 0, 0, 0, 0, 0, 15⟩ (Vector.replicate 32 0) placedPc
    (Vector.replicate 256 0)

/-- Its gang. -/
def placedGang : Gang :=
  ⟨placedHandle, 0, 0, placedAsid, 0, .running, 0, 0, [], 0, 0, 0, [], true, 0⟩

/-- A valid entry that leads to the node at a physical address (R353). -/
def nodePte (a : Nat) : Word :=
  BitVec.ofNat 64 (a + 1)

/-- A leaf of 1 GiB at physical address 0 with every permission (R353). -/
def placedLeaf : Word := 0x43F

/-- A line as bytes. -/
def lineBytes (l : Line) : List Byte :=
  wordBytes 64 l

/-- A gang of one strand runs with its PC at the line that holds the instruction; the agenda is empty. -/
def State.withFetchWord (s : State) (nbits w : Nat) : State :=
  let (h, t) := tableWord nbits w
  let s1 : State := { s with
    strands := [placedStrand]
    gangs := [placedGang]
    roots := [(placedAsid, placedRoot)]
    tlb := []
    svcs := []
    agenda := []
    blocked := []
    halted := false
    cur := none
    phase := 0
    core := 0
    heads := 0 }
  ((((s1.setSlot 0 0).setSlot 1 0).setSlot 2 0).setSlot 3 0
    |>.writeHome (homeByte attrLoc 0 placedRoot) (wordBytes 8 (nodePte (placedRoot + 0x1000)))
    |>.writeHome (homeByte attrLoc 0 (placedRoot + 0x1000)) (wordBytes 8 (nodePte (placedRoot + 0x2000)))
    |>.writeHome (homeByte attrLoc 0 (placedRoot + 0x2000)) (wordBytes 8 placedLeaf)
    |>.writeHome (homeByte attrLoc 0 placedPc.toNat) (lineBytes (Line.single h t)))

end Sys2Proof.Machine
end

