-- ==== Sys2Proof/Safety.lean ====
section
/-!
DEFINITION. What counts as a safe step and a well-formed state, and the terms the statements use: a strand ready to dispatch,
a word its access can reach, a convoy of one instruction.
-/

namespace Sys2Proof.Machine

/-- A step that ends in a next state. -/
def Safe (o : Out) : Prop :=
  ∃ s, o = .next s

/-- Memory and the state of lines keep their canonical form. -/
def State.memOk (s : State) : Prop :=
  Memory.wf s.mem = true ∧ Cells.rising s.lines = true

/-! ## Instructions of a strand -/

/-- The strand that dispatches; none of these registers is reserved or pending. -/
def Ready (s : State) (t : Strand) (regs : List SReg) : Prop :=
  s.curStrand = some t ∧ t.mustWait regs = false

/-- From a strand that is ready, an instruction writes `f` of the strand into `sd`, moves past its head, and changes
nothing else. -/
def Computes (i : Instr) (sd : SReg) (srcs : List SReg) (f : Strand → Word) : Prop :=
  ∀ s t, Ready s t (sd :: srcs) → exec i s = .next (s.put (t.setS sd (f t)).advance)

/-- From a strand that is ready, an instruction takes it to `f` of it and changes nothing else. -/
def Moves (i : Instr) (regs : List SReg) (f : State → Strand → Strand) : Prop :=
  ∀ s t, Ready s t regs → exec i s = .next (s.put (f s t))

/-- A strand that holds no entry of its queues and no access on its way. -/
def Strand.idle (t : Strand) : Prop :=
  t.viq = [] ∧ t.rq = [] ∧ t.acc = none

/-! ## Accesses -/

/-- An access of `n` bytes at `va`, canonical and aligned, has a cached translation `e` that permits it; no service of its page has
been denied to it (R351). -/
structure Mapped (s : State) (c : Ctx) (va : Word) (n : Nat) (need : Need) (e : TlbEntry) : Prop where
  canon : canonicalAll va n = true
  aligned : va.toNat % n = 0
  hit : s.tlbHit c.asid (va52 va) = some e
  permits : ptePermits e.pte need = true
  undenied : s.denied c (va52 va) = none

/-- A translated access meets the byte `h` of a slab slot, of the host, or of a plain line whose home answers; nothing
there is struck by a soft error, and no earlier access waits there (R286, R416). -/
def Served (s : State) (c : Ctx) (va : Word) (e : TlbEntry) (h : Nat) : Prop :=
  (s.soft.contains (lineOf h) = false ∧ s.behindRequest c.who (lineOf h) = false ∧ s.waitsTurn c.who (lineOf h) = false) ∧
    if pteAttr e.pte = attrSlab then s.slabHome c.asid va = some h
    else h = entryHome e (va52 va) ∧ (pteAttr e.pte = attrHost ∨
      hasLines (pteAttr e.pte) = true ∧ s.lineState (lineOf h) = some .plain ∧ s.offline (lineOf h) = false
        ∧ s.unreachable (lineOf h) = false)

/-- Every strand but one is as before. -/
def SameOthers (s s' : State) (sid : Nat) : Prop :=
  ∀ n, n ≠ sid → s'.strand n = s.strand n

/-! ## A convoy of one instruction -/

/-- The VIQ of a running strand holds one entry, of a closed convoy, as dispatch left it; the strand waits for nothing. -/
structure Alone (s : State) (sid : Nat) (t : Strand) (e : Entry) : Prop where
  here : s.strand sid = some t
  only : t.viq = [e]
  chained : (uses e.vtype e.i).isSome = true
  closed : t.copen = false
  runs : t.status = .running
  calm : t.qstall = false
  sound : t.vfault = none
  first : e.pos = 0
  unperformed : e.perf = []
  waiting : e.done = false
  ungiven : e.given = false
  uncaptured : e.cap = none
  apart : t.xch = .none
  unfinished : e.fin = false
  unpinned : e.pins = []
  quiet : t.vamo = none
  older : t.acc = none
  served : s.waitsService (.queue sid) = false

/-- The entry once its convoy has performed it, with the value it will deliver. -/
def Entry.performed (e : Entry) (x : Option Word) : Entry :=
  { e with
    done := true
    result := match x with
      | some w => (resultReg e.i).map fun r => (r, w)
      | none => none }

/-- CONVOY_START performs the one entry of a strand: the entry is done and delivers `x`, every other strand is as it was,
and `p` holds of the package and the strand after. -/
def Performs (s : State) (sid : Nat) (e : Entry) (x : Option Word) (p : State → Strand → Prop) : Prop :=
  ∃ s' t', exec (.convoyStart sid) s = .next s' ∧ s'.strand sid = some t' ∧ SameOthers s s' sid
    ∧ t'.viq = [e.performed x] ∧ p s' t'

/-- Whether an entry waits for load data (R56). -/
def Entry.loads (e : Entry) : Bool :=
  (uses e.vtype e.i).any fun u => u.cls == .ld

/-- A register outside the group of `size` registers from `base` on. -/
def OutsideGroup (base size r : Nat) : Prop :=
  r < 64 ∧ (r < base ∨ base + size ≤ r)

/-- What an element holds after its put, of width `w`. -/
def Put.over (p : Put) (w old : Nat) : Nat :=
  match p with
  | .val x => x % 2 ^ w
  | .zero => 0
  | .keep => old

/-- What a convoy leaves that writes the group of width `w` from register `base` on: element n below `vl` by the put of
`g n`, the tail under TU, the flags of `g n` in lane n mod 256, tag `ty` in the group; no other register, no mask, tile or
lane store, and nothing of the package but services and the counter of the free values (R48, R50, R90). -/
structure Wrote (s s' : State) (t t' : Strand) (e : Entry) (base w : Nat) (ty : Tag) (g : Nat → Put × Flags) : Prop where
  package : s' = { s with strands := s'.strands, svcs := s'.svcs, freeCtr := s'.freeCtr }
  strand : t' = { t with v := t'.v, lflags := t'.lflags, stlMem := t'.stlMem, viq := t'.viq, xch := .none, held := none }
  stall : e.loads = false → t'.stlMem = t.stlMem
  body : ∀ n < e.vl, elemGet t'.v t.q base w n = (g n).1.over w (elemGet t.v t.q base w n)
  tail : ∀ n, e.vl ≤ n → n < vlmaxOf t.q e.vtype →
    elemGet t'.v t.q base w n = if tuOf e.vtype then 0 else elemGet t.v t.q base w n
  others : ∀ r, OutsideGroup base (groupSize e.vtype w) r → regAt t'.v r = regAt t.v r
  tags : ∀ r, base ≤ r → r < base + groupSize e.vtype w → (regAt t'.v r).tag = ty
  flags : ∀ lane < 256, ∀ b < 7, t'.lflags.getLsbD (8 * lane + b)
    = (t.lflags.getLsbD (8 * lane + b) || (List.range e.vl).any fun n => n % 256 == lane && (g n).2.getLsbD b)

/-- What a mask bit holds after its put. -/
def Put.overBit (p : Put) (old : Bool) : Bool :=
  match p with
  | .val x => x % 2 == 1
  | .zero => false
  | .keep => old

/-- What a convoy leaves that writes mask register `kd`: bit n below `vl` by the put of `g n`, the tail to VLMAX under TU,
the flags of `g n` in lane n mod 256; no other mask, no vector register, tile or lane store. A write to k0 is discarded
(R47, R48, R90). -/
structure WroteMask (s s' : State) (t t' : Strand) (e : Entry) (kd : KReg) (g : Nat → Put × Flags) : Prop where
  package : s' = { s with strands := s'.strands, svcs := s'.svcs, freeCtr := s'.freeCtr }
  strand : t' = { t with k := t'.k, lflags := t'.lflags, stlMem := t'.stlMem, viq := t'.viq, xch := .none, held := none }
  stall : e.loads = false → t'.stlMem = t.stlMem
  body : kd ≠ 0 → ∀ n < e.vl, maskBit t'.k kd n = (g n).1.overBit (maskBit t.k kd n)
  tail : kd ≠ 0 → ∀ n, e.vl ≤ n → n < vlmaxOf t.q e.vtype →
    maskBit t'.k kd n = if tuOf e.vtype then false else maskBit t.k kd n
  others : ∀ k, k ≠ kd ∨ k = 0 → ∀ n < 262144, maskBit t'.k k n = maskBit t.k k n
  flags : ∀ lane < 256, ∀ b < 7, t'.lflags.getLsbD (8 * lane + b)
    = (t.lflags.getLsbD (8 * lane + b) || (List.range e.vl).any fun n => n % 256 == lane && (g n).2.getLsbD b)

/-- What a convoy leaves that only delivers a value to the scalar side and raises flags by element. -/
structure Delivered (s s' : State) (t t' : Strand) (e : Entry) (fl : List (Nat × Flags)) : Prop where
  package : s' = { s with strands := s'.strands, svcs := s'.svcs, freeCtr := s'.freeCtr }
  strand : t' = { t with lflags := t'.lflags, stlMem := t'.stlMem, viq := t'.viq, xch := .none, held := none }
  stall : e.loads = false → t'.stlMem = t.stlMem
  flags : ∀ lane < 256, ∀ b < 7, t'.lflags.getLsbD (8 * lane + b)
    = (t.lflags.getLsbD (8 * lane + b) || fl.any fun p => p.1 % 256 == lane && p.2.getLsbD b)

/-- A source group of width `w` of an instruction under a `vtype`: aligned, within the file, all of tag `ty`, which is RAW
or has that width (R38, R51, R65, R200). -/
structure SourceGroup (t : Strand) (vt : BitVec 12) (r : VReg) (w : Nat) (ty : Tag) : Prop where
  placed : groupOk r.toNat (groupSize vt w) = true
  tagged : ∀ n, r.toNat ≤ n → n < r.toNat + groupSize vt w → (regAt t.v n).tag = ty
  width : ty = .raw ∨ ty.width = some w

/-- A destination group of width `dw` against a source group of width `w`: the same group of the same width, or no common
register (R200). -/
def Clear (vt : BitVec 12) (d : VReg) (dw : Nat) (r : VReg) (w : Nat) : Prop :=
  (d = r ∧ dw = w) ∨ d.toNat + groupSize vt dw ≤ r.toNat ∨ r.toNat + groupSize vt w ≤ d.toNat

/-- The setting of a vector instruction: a legal `vtype`, one to four quarters, 1 ≤ `vl` ≤ VLMAX. -/
structure Setting (t : Strand) (e : Entry) : Prop where
  vtype : vtypeOk e.vtype = true
  quarters : 1 ≤ t.q ∧ t.q ≤ 4
  length : 1 ≤ e.vl ∧ e.vl ≤ vlmaxOf t.q e.vtype

/-- The put and flags of an element under a mask: `x` where it is active, else what MU gives (R48). -/
def under (t : Strand) (e : Entry) (m : MaskOp) (n : Nat) (x : Nat × Flags) : Put × Flags :=
  if admits t.k m n then (.val x.1, x.2) else (if muOf e.vtype then .zero else .keep, 0)

/-! ## Accesses of a convoy -/

/-- The value a load gives (R95, R107): from the line buffer where its page is cached and it holds the line, else from
the bytes at the home. -/
def loadedValue (s : State) (t : Strand) (va : Word) (n : Nat) (e : TlbEntry) (h : Nat) : Nat :=
  if pteAttr e.pte = attrSlab then Memory.read s.mem h n
  else match t.lbuf.find? fun b => b.va == va52 va / 128 with
    | some b => b.data.toNat / 2 ^ (8 * (va.toNat % 128)) % 2 ^ (8 * n)
    | none => Memory.read s.mem h n

/-- Loads of `nb` bytes at the addresses `va n`, for each n below `count` that is active: each has a cached translation
`ent n` and a home byte `h n` that answers; a home byte lies in its line where its address does, addresses of one line have
one home line, and the line buffer has room for them all or holds none of their lines. -/
structure Reads (s : State) (t : Strand) (count : Nat) (act : Nat → Bool) (va : Nat → Word) (nb : Nat)
    (ent : Nat → TlbEntry) (h : Nat → Nat) : Prop where
  mapped : ∀ n < count, act n = true → Mapped s t.qctx (va n) nb .read (ent n)
  served : ∀ n < count, act n = true → Served s t.qctx (va n) (ent n) (h n)
  data : ∀ n < count, act n = true → pteAttr (ent n).pte ≠ attrSlab → h n % 128 = (va n).toNat % 128
  lines : ∀ n < count, ∀ k < count, act n = true → act k = true → va52 (va n) / 128 = va52 (va k) / 128 →
    lineOf (h n) = lineOf (h k)
  buffer : t.lbuf.length + count ≤ 256 * t.q ∨
    ∀ n < count, act n = true → ∀ b ∈ t.lbuf, b.va ≠ va52 (va n) / 128

/-- Stores of `nb` bytes at the addresses `va n`, for each n below `count` that is active: each has a cached translation
and a home byte that answers, and no two meet; two elements of 4 bits may share their byte. -/
structure Writes (s : State) (t : Strand) (count : Nat) (act : Nat → Bool) (va : Nat → Word) (nb w : Nat)
    (ent : Nat → TlbEntry) (h : Nat → Nat) : Prop where
  mapped : ∀ n < count, act n = true → Mapped s t.qctx (va n) nb .write (ent n)
  served : ∀ n < count, act n = true → Served s t.qctx (va n) (ent n) (h n)
  apart : ∀ n < count, ∀ k < count, act n = true → act k = true → n ≠ k →
    h n + nb ≤ h k ∨ h k + nb ≤ h n ∨ w = 4 ∧ h n = h k ∧ n % 2 ≠ k % 2

/-- The bits below an element in the bytes it is stored in (R66). -/
def bitsBelow (w n : Nat) : Nat :=
  if w = 4 then 4 * (n % 2) else 0

/-- What a convoy leaves that stores `x n` of width `w` in the `nb` bytes from `h n` on, for each active n: no other byte, no
line, no register; the lines stored to leave the strand's line buffer (R108, R119, R221). -/
structure Stored (s s' : State) (t t' : Strand) (count : Nat) (act : Nat → Bool) (nb w : Nat) (h x : Nat → Nat) : Prop where
  package : s' = { s with strands := s'.strands, svcs := s'.svcs, freeCtr := s'.freeCtr, mem := s'.mem, lines := s'.lines }
  strand : t' = { t with lbuf := t'.lbuf, viq := t'.viq, xch := .none, held := none }
  body : ∀ n < count, act n = true → Memory.read s'.mem (h n) nb / 2 ^ bitsBelow w n % 2 ^ w = x n % 2 ^ w
  half : w = 4 → ∀ n < count, act n = true → (∀ k < count, act k = true → h k = h n → k = n) →
    Memory.read s'.mem (h n) 1 / 2 ^ (4 - bitsBelow w n) % 16 = Memory.read s.mem (h n) 1 / 2 ^ (4 - bitsBelow w n) % 16
  rest : ∀ a, (∀ n < count, act n = true → a < h n ∨ h n + nb ≤ a) → Memory.get s'.mem a = Memory.get s.mem a
  lines : ∀ l, s'.lineState l = s.lineState l
  buffer : ∀ b ∈ t'.lbuf, b ∈ t.lbuf ∧ ∀ n < count, act n = true → b.home ≠ lineOf (h n)

end Sys2Proof.Machine
end

