-- ==== Sys2Proof/Certificates/Slice0/Obligations.lean ====
section
/-!
DEFINITION. The statements about the package, from the numbered rules of its spec.
-/

open Sys2Proof Sys2Proof.Machine

/-! ## Encodings -/

/-- A head of class S: C = 0, the tail code, MAJOR and MINOR (R141). -/
def Sys2Proof.sHead (t : BitVec 2) (maj : BitVec 7) (min : BitVec 6) : BitVec 16 :=
  0#1 ++ t ++ maj ++ min

/-- A tail of layout S32 (R146). -/
def Sys2Proof.s32Tail (d a b : SReg) (imm : BitVec 17) : BitVec 64 :=
  (d ++ a ++ b ++ imm : BitVec 32).setWidth 64

/-- A major of S32 heads holds these instructions in MINOR order with this tail, and every higher MINOR takes ILL_MINOR. -/
def Sys2Proof.Holds (maj : BitVec 7) (tail : BitVec 64) (is : List Instr) : Prop :=
  ∀ min : BitVec 6, decode (sHead 2 maj min) tail = match is[min.toNat]? with
    | some i => .ok i
    | none => .error .illMinor

/-- R167: the forms of majors 0x10 and 0x11. -/
def Sys2Proof.ArithmeticEncodings : Prop :=
  ∀ (d a b : SReg) (imm : BitVec 17),
    Holds 0x10 (s32Tail d a b 0) [.add d a b, .sub d a b, .mul d a b, .mulh d a b, .mulhN d a b, .div d a b, .divN d a b,
      .rem d a b, .remN d a b]
    ∧ Holds 0x11 (s32Tail d a 0 imm) [.addImm d a imm, .subImm d a imm, .mulImm d a imm]

/-- R169: the forms of majors 0x12 and 0x13; a nonzero imm17[16:6] of an immediate shift takes ILL_RSV. -/
def Sys2Proof.LogicEncodings : Prop :=
  ∀ (d a b : SReg) (imm : BitVec 17),
    let cnt : BitVec 6 := imm.setWidth 6
    Holds 0x12 (s32Tail d a b 0) [.and d a b, .or d a b, .xor d a b, .andn d a b, .shl d a b, .shr d a b, .sar d a b,
      .rot d a b]
    ∧ (imm.toNat < 64 → Holds 0x13 (s32Tail d a 0 imm) [.andImm d a imm, .orImm d a imm, .xorImm d a imm, .andnImm d a imm,
      .shlImm d a cnt, .shrImm d a cnt, .sarImm d a cnt, .rotImm d a cnt])
    ∧ (64 ≤ imm.toNat → ∀ min : BitVec 6, decode (sHead 2 0x13 min) (s32Tail d a 0 imm)
      = if min.toNat < 4 then .ok ([.andImm d a imm, .orImm d a imm, .xorImm d a imm, .andnImm d a imm].getD min.toNat .nop)
        else if min.toNat < 8 then .error .illRsv else .error .illMinor)

/-- R170, R171: the forms of majors 0x14 to 0x17. -/
def Sys2Proof.CompareEncodings : Prop :=
  ∀ (d a b : SReg) (imm : BitVec 17),
    Holds 0x14 (s32Tail d a b 0) [.min d a b, .max d a b, .minN d a b, .maxN d a b]
    ∧ Holds 0x15 (s32Tail d a b 0) [.cmpEq d a b, .cmpNe d a b, .cmpLt d a b, .cmpGe d a b, .cmpLtN d a b, .cmpGeN d a b]
    ∧ Holds 0x16 (s32Tail d a 0 imm) [.cmpEqImm d a imm, .cmpNeImm d a imm, .cmpLtImm d a imm, .cmpGeImm d a imm,
      .cmpLtNImm d a imm, .cmpGeNImm d a imm]
    ∧ Holds 0x17 (s32Tail d a 0 0) [.clz d a, .ctz d a, .pop d a]

/-- R172: the forms of major 0x18: the position in imm17[11:6], the width less 1 in imm17[5:0]; nonzero bits above them, and a
field that leaves the register, take ILL_RSV. -/
def Sys2Proof.FieldEncodings : Prop :=
  ∀ (d a : SReg) (top : BitVec 5) (pos wm1 : BitVec 6),
    (top = 0 → pos.toNat + (wm1.toNat + 1) ≤ 64 →
      Holds 0x18 (s32Tail d a 0 (top ++ pos ++ wm1)) [.bext d a pos wm1, .bins d a pos wm1])
    ∧ (top ≠ 0 ∨ 64 < pos.toNat + (wm1.toNat + 1) → ∀ min : BitVec 6, min.toNat < 2 →
      decode (sHead 2 0x18 min) (s32Tail d a 0 (top ++ pos ++ wm1)) = .error .illRsv)

/-! ## Scalar results -/

/-- R167: sums, differences and products modulo 2^64, and the two high products. -/
def Sys2Proof.AddSubMulResults : Prop :=
  ∀ (sd sa sb : SReg) (imm : BitVec 17),
    Computes (.add sd sa sb) sd [sa, sb] (fun t => BitVec.ofInt 64 ((t.getS sa).toInt + (t.getS sb).toInt))
    ∧ Computes (.sub sd sa sb) sd [sa, sb] (fun t => BitVec.ofInt 64 ((t.getS sa).toInt - (t.getS sb).toInt))
    ∧ Computes (.mul sd sa sb) sd [sa, sb] (fun t => BitVec.ofInt 64 ((t.getS sa).toInt * (t.getS sb).toInt))
    ∧ Computes (.mulh sd sa sb) sd [sa, sb]
        (fun t => BitVec.ofInt 64 ((t.getS sa).toInt * (t.getS sb).toInt / 2 ^ 64))
    ∧ Computes (.mulhN sd sa sb) sd [sa, sb]
        (fun t => BitVec.ofNat 64 ((t.getS sa).toNat * (t.getS sb).toNat / 2 ^ 64))
    ∧ Computes (.addImm sd sa imm) sd [sa] (fun t => BitVec.ofInt 64 ((t.getS sa).toInt + imm.toInt))
    ∧ Computes (.subImm sd sa imm) sd [sa] (fun t => BitVec.ofInt 64 ((t.getS sa).toInt - imm.toInt))
    ∧ Computes (.mulImm sd sa imm) sd [sa] (fun t => BitVec.ofInt 64 ((t.getS sa).toInt * imm.toInt))

/-- R168: division truncates toward zero; by zero it gives all ones and the dividend, and -2^63 / -1 wraps. -/
def Sys2Proof.DivisionResults : Prop :=
  ∀ (sd sa sb : SReg),
    Computes (.div sd sa sb) sd [sa, sb] (fun t =>
      if t.getS sb = 0 then BitVec.allOnes 64 else BitVec.ofInt 64 ((t.getS sa).toInt.tdiv (t.getS sb).toInt))
    ∧ Computes (.rem sd sa sb) sd [sa, sb] (fun t =>
      if t.getS sb = 0 then t.getS sa else BitVec.ofInt 64 ((t.getS sa).toInt.tmod (t.getS sb).toInt))
    ∧ Computes (.divN sd sa sb) sd [sa, sb] (fun t =>
      if t.getS sb = 0 then BitVec.allOnes 64 else BitVec.ofNat 64 ((t.getS sa).toNat / (t.getS sb).toNat))
    ∧ Computes (.remN sd sa sb) sd [sa, sb] (fun t =>
      if t.getS sb = 0 then t.getS sa else BitVec.ofNat 64 ((t.getS sa).toNat % (t.getS sb).toNat))

/-- What the eight operations of R169 give for each bit: the operands' bits, or the bit a shift by `n` brings there. -/
def Sys2Proof.logicBits (a b : Word) (n : Nat) : List (Nat → Bool) :=
  [fun i => a.getLsbD i && b.getLsbD i,
   fun i => a.getLsbD i || b.getLsbD i,
   fun i => a.getLsbD i != b.getLsbD i,
   fun i => a.getLsbD i && !b.getLsbD i,
   fun i => decide (n ≤ i) && a.getLsbD (i - n),
   fun i => a.getLsbD (i + n),
   fun i => a.getLsbD (min (i + n) 63),
   fun i => a.getLsbD ((i + 64 - n) % 64)]

/-- R169: each bit of the results of and, or, xor, andn, shl, shr, sar and rot, in both forms; a register count is
sB[5:0]. -/
def Sys2Proof.LogicShiftResults : Prop :=
  ∀ (sd sa sb : SReg) (imm : BitVec 17) (cnt : BitVec 6) (s : State) (t : Strand) (k : Nat), k < 8 →
    (Ready s t [sd, sa, sb] → ∃ x : Word,
      exec ([.and sd sa sb, .or sd sa sb, .xor sd sa sb, .andn sd sa sb, .shl sd sa sb, .shr sd sa sb, .sar sd sa sb,
        .rot sd sa sb].getD k .nop) s = .next (s.put (t.setS sd x).advance)
      ∧ ∀ i < 64, x.getLsbD i
          = (logicBits (t.getS sa) (t.getS sb) ((t.getS sb).toNat % 64)).getD k (fun _ => false) i)
    ∧ (Ready s t [sd, sa] → ∃ x : Word,
      exec ([.andImm sd sa imm, .orImm sd sa imm, .xorImm sd sa imm, .andnImm sd sa imm, .shlImm sd sa cnt,
        .shrImm sd sa cnt, .sarImm sd sa cnt, .rotImm sd sa cnt].getD k .nop) s = .next (s.put (t.setS sd x).advance)
      ∧ ∀ i < 64, x.getLsbD i
          = (logicBits (t.getS sa) (imm.signExtend 64) cnt.toNat).getD k (fun _ => false) i)

/-- R170: minima, maxima and compares, signed and unsigned, with the immediate sign-extended first. -/
def Sys2Proof.MinMaxCompareResults : Prop :=
  ∀ (sd sa sb : SReg) (imm : BitVec 17),
    Computes (.min sd sa sb) sd [sa, sb] (fun t => BitVec.ofInt 64 (min (t.getS sa).toInt (t.getS sb).toInt))
    ∧ Computes (.max sd sa sb) sd [sa, sb] (fun t => BitVec.ofInt 64 (max (t.getS sa).toInt (t.getS sb).toInt))
    ∧ Computes (.minN sd sa sb) sd [sa, sb] (fun t => BitVec.ofNat 64 (min (t.getS sa).toNat (t.getS sb).toNat))
    ∧ Computes (.maxN sd sa sb) sd [sa, sb] (fun t => BitVec.ofNat 64 (max (t.getS sa).toNat (t.getS sb).toNat))
    ∧ Computes (.cmpEq sd sa sb) sd [sa, sb] (fun t => if (t.getS sa).toNat = (t.getS sb).toNat then 1 else 0)
    ∧ Computes (.cmpNe sd sa sb) sd [sa, sb] (fun t => if (t.getS sa).toNat = (t.getS sb).toNat then 0 else 1)
    ∧ Computes (.cmpLt sd sa sb) sd [sa, sb] (fun t => if (t.getS sa).toInt < (t.getS sb).toInt then 1 else 0)
    ∧ Computes (.cmpGe sd sa sb) sd [sa, sb] (fun t => if (t.getS sb).toInt ≤ (t.getS sa).toInt then 1 else 0)
    ∧ Computes (.cmpLtN sd sa sb) sd [sa, sb] (fun t => if (t.getS sa).toNat < (t.getS sb).toNat then 1 else 0)
    ∧ Computes (.cmpGeN sd sa sb) sd [sa, sb] (fun t => if (t.getS sb).toNat ≤ (t.getS sa).toNat then 1 else 0)
    ∧ Computes (.cmpEqImm sd sa imm) sd [sa] (fun t => if (t.getS sa).toInt = imm.toInt then 1 else 0)
    ∧ Computes (.cmpNeImm sd sa imm) sd [sa] (fun t => if (t.getS sa).toInt = imm.toInt then 0 else 1)
    ∧ Computes (.cmpLtImm sd sa imm) sd [sa] (fun t => if (t.getS sa).toInt < imm.toInt then 1 else 0)
    ∧ Computes (.cmpGeImm sd sa imm) sd [sa] (fun t => if imm.toInt ≤ (t.getS sa).toInt then 1 else 0)
    ∧ Computes (.cmpLtNImm sd sa imm) sd [sa] (fun t =>
        if (t.getS sa).toNat < (BitVec.ofInt 64 imm.toInt).toNat then 1 else 0)
    ∧ Computes (.cmpGeNImm sd sa imm) sd [sa] (fun t =>
        if (BitVec.ofInt 64 imm.toInt).toNat ≤ (t.getS sa).toNat then 1 else 0)

/-- R171: `clz` and `ctz` count the zero bits above the highest and below the lowest set bit, 64 for 0; `pop` counts the
set bits. -/
def Sys2Proof.BitCountResults : Prop :=
  ∀ (sd sa : SReg) (s : State) (t : Strand), Ready s t [sd, sa] →
    (∃ n : Nat, exec (.clz sd sa) s = .next (s.put (t.setS sd (BitVec.ofNat 64 n)).advance)
      ∧ (t.getS sa = 0 → n = 64)
      ∧ (t.getS sa ≠ 0 → 2 ^ (63 - n) ≤ (t.getS sa).toNat ∧ (t.getS sa).toNat < 2 ^ (64 - n) ∧ n < 64))
    ∧ (∃ n : Nat, exec (.ctz sd sa) s = .next (s.put (t.setS sd (BitVec.ofNat 64 n)).advance)
      ∧ (t.getS sa = 0 → n = 64)
      ∧ (t.getS sa ≠ 0 → (t.getS sa).getLsbD n = true ∧ ∀ i < n, (t.getS sa).getLsbD i = false))
    ∧ exec (.pop sd sa) s = .next (s.put (t.setS sd (BitVec.ofNat 64
        ((List.range 64).countP fun i => (t.getS sa).getLsbD i))).advance)

/-- R172: `bext` extracts a field, `bins` replaces one and keeps the other bits of sD. -/
def Sys2Proof.BitFieldResults : Prop :=
  ∀ (sd sa : SReg) (pos wm1 : BitVec 6) (s : State) (t : Strand), Ready s t [sd, sa] →
    pos.toNat + wm1.toNat < 64 →
    (∃ x : Word, exec (.bext sd sa pos wm1) s = .next (s.put (t.setS sd x).advance)
      ∧ ∀ i < 64, x.getLsbD i = (decide (i ≤ wm1.toNat) && (t.getS sa).getLsbD (pos.toNat + i)))
    ∧ (∃ x : Word, exec (.bins sd sa pos wm1) s = .next (s.put (t.setS sd x).advance)
      ∧ ∀ i < 64, x.getLsbD i = if pos.toNat ≤ i ∧ i ≤ pos.toNat + wm1.toNat then (t.getS sa).getLsbD (i - pos.toNat)
          else (t.getS sd).getLsbD i)

/-- R173: `li`, `lih` and `lea`. -/
def Sys2Proof.ConstantAddressResults : Prop :=
  ∀ (sd sa sb : SReg) (imm : BitVec 59) (hi : BitVec 5) (sh : BitVec 3) (d : BitVec 14),
    Computes (.li sd imm) sd [] (fun _ => BitVec.ofInt 64 imm.toInt)
    ∧ Computes (.lih sd sa hi) sd [sa] (fun t =>
        BitVec.ofNat 64 (hi.toNat * 2 ^ 59 + (t.getS sa).toNat % 2 ^ 59))
    ∧ Computes (.lea sd sa sb sh d) sd [sa, sb] (fun t =>
        BitVec.ofInt 64 ((t.getS sa).toInt + (t.getS sb).toInt * 2 ^ sh.toNat + d.toInt))

/-! ## Registers and waits -/

/-- R36: reading s0 gives 0 and writing it changes nothing; a write to another register gives its value back and leaves
the others. -/
def Sys2Proof.ScalarRegisterFile : Prop :=
  ∀ (t : Strand) (r q : SReg) (x : Word),
    t.getS 0 = 0 ∧ t.setS 0 x = t
    ∧ (t.setS r x).getS q = (if q = r ∧ r ≠ 0 then x else t.getS q)
    ∧ t.setS r x = { t with s := (t.setS r x).s }

/-- What a completed scalar instruction leaves as it was: with the state `s.put (t.setS sd x).advance`, the strand has
moved past its head and only `sd` may differ; every other strand and every other part of the package is as before. -/
def Sys2Proof.ScalarFrame : Prop :=
  ∀ (s : State) (t : Strand) (sd : SReg) (x : Word), s.curStrand = some t →
    let s' := s.put (t.setS sd x).advance
    s' = { s with strands := s'.strands }
    ∧ SameOthers s s' t.id.sid
    ∧ ∃ t', s'.strand t.id.sid = some t' ∧ t'.pc = t.pc + 2
      ∧ (∀ r, t'.getS r = if r = sd ∧ sd ≠ 0 then x else t.getS r)
      ∧ t' = { t with s := t'.s, pc := t'.pc, seq := true, moved := true, hold := none }

/-- The registers each scalar instruction and transfer names, and must find neither reserved nor pending (R20, R110,
R164). -/
def Sys2Proof.namedRegs : Instr → Option (List SReg)
  | .add d a b | .sub d a b | .mul d a b | .mulh d a b | .mulhN d a b | .div d a b | .divN d a b | .rem d a b
  | .remN d a b | .and d a b | .or d a b | .xor d a b | .andn d a b | .shl d a b | .shr d a b | .sar d a b | .rot d a b
  | .min d a b | .max d a b | .minN d a b | .maxN d a b | .cmpEq d a b | .cmpNe d a b | .cmpLt d a b | .cmpGe d a b
  | .cmpLtN d a b | .cmpGeN d a b | .lea d a b _ _ => some [d, a, b]
  | .addImm d a _ | .subImm d a _ | .mulImm d a _ | .andImm d a _ | .orImm d a _ | .xorImm d a _ | .andnImm d a _
  | .shlImm d a _ | .shrImm d a _ | .sarImm d a _ | .rotImm d a _ | .cmpEqImm d a _ | .cmpNeImm d a _ | .cmpLtImm d a _
  | .cmpGeImm d a _ | .cmpLtNImm d a _ | .cmpGeNImm d a _ | .clz d a | .ctz d a | .pop d a | .bext d a _ _
  | .bins d a _ _ | .lih d a _ => some [d, a]
  | .li d _ => some [d]
  | .fadd _ d a b | .fsub _ d a b | .fmul _ d a b | .fdiv _ d a b | .fmin _ d a b | .fmax _ d a b | .fma _ d a b
  | .fcmpEq _ d a b | .fcmpLt _ d a b | .fcmpLe _ d a b | .fcmpUn _ d a b => some [d, a, b]
  | .fsqrt _ d a | .fcvtF32F64 d a _ | .fcvtF64F32 d a _ | .fcvtF32I64 d a _ | .fcvtF32N64 d a _ | .fcvtF64I64 d a _
  | .fcvtF64N64 d a _ | .fcvtI64F32 d a _ | .fcvtN64F32 d a _ | .fcvtI64F64 d a _ | .fcvtN64F64 d a _ => some [d, a]
  | .ldB d a _ | .ldH d a _ | .ldW d a _ | .ldD d a _ | .ldBN d a _ | .ldHN d a _ | .ldWN d a _ => some [d, a]
  | .stB b a _ | .stH b a _ | .stW b a _ | .stD b a _ => some [b, a]
  | .amoAdd d a b _ _ | .amoAnd d a b _ _ | .amoOr d a b _ _ | .amoXor d a b _ _ | .amoMin d a b _ _
  | .amoMax d a b _ _ | .amoSwp d a b _ _ | .amoCas d a b _ _ | .amoMinN d a b _ _ | .amoMaxN d a b _ _ => some [d, a, b]
  | .beq a b _ _ | .bne a b _ _ | .blt a b _ _ | .bge a b _ _ | .bltn a b _ _ | .bgen a b _ _ => some [a, b]
  | .bz a _ _ | .bnz a _ _ => some [a]
  | .call _ _ | .ret => some [1]
  | .jr d a _ => some [d, a]
  | .sget d _ => some [d]
  | .sput _ a | .progMark a _ | .trap a _ => some [a]
  | .vsetvl d a | .vsettype d a | .qdrain d a | .sysCall d a => some [d, a]
  | .vsettypeImm d _ => some [d]
  | .taskPost d a b => some [d, a, b]
  | .tokPoll d _ => some [d]
  | .tierHint a b _ => some [a, b]
  | .fwdRes d a | .fwdStat d a => some [d, a]
  | .fwdCmp d a b => some [d, a, b]
  | .fwdRelink a | .fwdClear a => some [a]
  | _ => none

/-- R20, R110, R161, R164, R305: a scalar instruction that names a reserved or pending register, or one whose value the open
convoy has given away already, does not execute: its strand stands where it stood for the rest of the beat, and a register
that a member of the open convoy names makes it close that convoy. -/
def Sys2Proof.ScalarWaits : Prop :=
  ∀ (i : Instr) (regs : List SReg) (s : State) (t : Strand), namedRegs i = some regs → s.curStrand = some t →
    t.mustWait regs = true →
    exec i s = .next (s.put (if regs.any t.openNames then { t with stalled := true, copen := false, fresh := true }
      else { t with stalled := true }))

/-! ## Transfers -/

/-- The target R150 gives a branch at `pc`: `off` lines of 64 bytes from its own, at slot `slot`. -/
def Sys2Proof.targetOf (pc : Word) (off : BitVec 17) (slot : BitVec 5) : Word :=
  BitVec.ofInt 64 (64 * ((pc.toNat / 64 : Nat) + off.toInt) + 2 * slot.toNat)

/-- R185: each conditional branch goes to its target where its condition holds, else on in fetch order. -/
def Sys2Proof.ConditionalBranches : Prop :=
  ∀ (sa sb : SReg) (off : BitVec 17) (slot : BitVec 5),
    let branch (p : Strand → Prop) [DecidablePred p] (_ : State) (t : Strand) : Strand :=
      if p t then t.jump (targetOf t.pc off slot) else t.advance
    Moves (.beq sa sb off slot) [sa, sb] (branch fun t => (t.getS sa).toNat = (t.getS sb).toNat)
    ∧ Moves (.bne sa sb off slot) [sa, sb] (branch fun t => (t.getS sa).toNat ≠ (t.getS sb).toNat)
    ∧ Moves (.blt sa sb off slot) [sa, sb] (branch fun t => (t.getS sa).toInt < (t.getS sb).toInt)
    ∧ Moves (.bge sa sb off slot) [sa, sb] (branch fun t => (t.getS sb).toInt ≤ (t.getS sa).toInt)
    ∧ Moves (.bltn sa sb off slot) [sa, sb] (branch fun t => (t.getS sa).toNat < (t.getS sb).toNat)
    ∧ Moves (.bgen sa sb off slot) [sa, sb] (branch fun t => (t.getS sb).toNat ≤ (t.getS sa).toNat)
    ∧ Moves (.bz sa off slot) [sa] (branch fun t => (t.getS sa).toNat = 0)
    ∧ Moves (.bnz sa off slot) [sa] (branch fun t => (t.getS sa).toNat ≠ 0)

/-- R149, R186: `br`, `call`, `jr` (sA read before sD is written), `ret`, `nop`; the next head is the one two bytes on where
the line holds one there. That `call` and `jr` wait for a line which the search for it must wait for is the model's choice
(log 15). -/
def Sys2Proof.Transfers : Prop :=
  ∀ (sd sa : SReg) (imm : BitVec 17) (off : BitVec 17) (slot : BitVec 5),
    Moves (.br off slot) [] (fun _ t => t.jump (targetOf t.pc off slot))
    ∧ (∀ (s : State) (t : Strand), Ready s t [1] →
        (s.awaitNext t = none →
          exec (.call off slot) s = .next (s.put ((t.setS 1 (s.nextHead t)).jump (targetOf t.pc off slot))))
        ∧ ∀ w, s.awaitNext t = some w → exec (.call off slot) s = .next w)
    ∧ (∀ (s : State) (t : Strand), Ready s t [sd, sa] →
        (s.awaitNext t = none →
          exec (.jr sd sa imm) s = .next (s.put
            ((t.setS sd (s.nextHead t)).jump (BitVec.ofInt 64 ((t.getS sa).toInt + imm.toInt)))))
        ∧ ∀ w, s.awaitNext t = some w → exec (.jr sd sa imm) s = .next w)
    ∧ Moves .ret [1] (fun _ t => t.jump (t.getS 1))
    ∧ Moves .nop [] (fun _ t => t.advance)
    ∧ ∀ (s w : State) (t : Strand) (h : BitVec 16) (tl : BitVec 64),
        s.fetchHead t.ctx (t.pc + 2) true = .ok (.head h tl) w →
        s.nextHead t = t.pc + 2 ∧ s.awaitNext t = none

/-- Whether the youngest of the queue's window instructions that have not acted opens one. -/
def Sys2Proof.lastWindow (l : List Entry) : Option Bool :=
  (l.filterMap fun e => if e.done then none else match e.i with
    | .winOpen _ _ _ _ => some true
    | .winClose => some false
    | _ => none).getLast?

/-- R196, R29: `end` ends dispatch and closes the open convoy; with a window open once the older instructions have acted it takes
WIN_STATE (R277), at once where nothing older stands in the queues, else once that has completed. That it waits for an access
which has not delivered is the model's choice (R165, log 34). -/
def Sys2Proof.EndOfStrand : Prop :=
  ∀ (s : State) (t : Strand), s.curStrand = some t →
    let opened := (lastWindow t.viq).getD t.win.isSome
    let info : Trapped := ⟨.winState, 0, 0, 0, true, t.pc⟩
    (opened = false → t.acc = none →
        exec .finish s = .next (s.put { t with copen := false, fresh := true, status := .ending, moved := true }))
    ∧ (opened = true → t.idle → exec .finish s = .next (s.takeTrap t info t.pc [] 0 none))
    ∧ (opened = true → t.acc = none → t.viq ≠ [] ∨ t.rq ≠ [] → t.vfault = none →
        exec .finish s = .next (s.put { t with
          copen := false, fresh := true, vfault := some ⟨t.viq.length, info, 0, none⟩, stalled := true, hold := none }))
    ∧ (t.acc.isSome = true → exec .finish s = .next (s.put { t with stalled := true, copen := false, fresh := true }))

/-! ## System registers, configuration -/

/-- The system registers of R56 of a strand on a package: number and content. -/
def Sys2Proof.systemRegisters (s : State) (t : Strand) : List (Nat × Nat) :=
  [(0x000, t.vl % 2 ^ 64), (0x001, t.vtype.toNat), (0x002, 0), (0x003, t.vcp.toNat),
   (0x004, vlmaxOf t.q t.vtype % 2 ^ 64), (0x008, t.fstat.toNat), (0x009, (allLanes t.lflags).toNat),
   (0x010, t.id.tid % 2 ^ 64), (0x011, t.id.gid.toNat), (0x012, t.id.gsz % 2 ^ 64), (0x013, t.id.core % 2 ^ 64),
   (0x014, t.id.clus % 2 ^ 64), (0x015, t.q), (0x019, t.prog.toNat), (0x020, s.tick % 2 ^ 64),
   (0x021, if s.timeValid then s.time3 / 3 % 2 ^ 64 else 0), (0x022, (s.thal t.id.pclus).toNat), (0x023, t.stlMem.toNat)]

/-- Whether `sget` of a register must wait: `vl` and `vlmax` for the fault checks of older vector loads, `vflags` and `stl.mem`
for every older entry (R44, R187). -/
def Sys2Proof.sgetMustWait (t : Strand) (num : BitVec 12) : Prop :=
  (num = 0x000 ∨ num = 0x004) ∧ (∃ e ∈ t.viq, e.done = false ∧ e.loads = true)
  ∨ (num = 0x009 ∨ num = 0x023) ∧ t.viq ≠ []

/-- R44, R56, R161, R187: `sget` reads the register it names, and of four registers closes the open convoy, for which it may
have to wait; `sput` writes bits [6:0] of `fstat` and ignores a write to any other register. That it closes the convoy also where
nothing is left to wait for is the model's choice (log 37), and what `stl.mem` counts another (log 7). -/
def Sys2Proof.SystemRegisterAccess : Prop :=
  (∀ (s : State) (t : Strand) (sd : SReg) (num : BitVec 12) (x : Nat), Ready s t [sd] → ¬ sgetMustWait t num →
    (num.toNat, x) ∈ systemRegisters s t →
    let u := if num ∈ [0x000#12, 0x004#12, 0x009#12, 0x023#12] then { t with copen := false, fresh := true } else t
    exec (.sget sd num) s = .next (s.put (u.setS sd (BitVec.ofNat 64 x)).advance))
  ∧ (∀ (s : State) (t : Strand) (sd : SReg) (num : BitVec 12), Ready s t [sd] → sgetMustWait t num →
    exec (.sget sd num) s = .next (s.put { t with stalled := true, copen := false, fresh := true }))
  ∧ ∀ (num : BitVec 12) (sa : SReg),
    Moves (.sput num sa) [sa] (fun _ t =>
      (if num = 0x008 then { t with fstat := BitVec.ofNat 7 (t.getS sa).toNat } else t).advance)

/-- R41, R44, R188: `vsetvl` takes the lesser of its request and VLMAX = 32768 q GRP / EW, without waiting for the VIQ; it ends
the open convoy, and `gen`, the model's count of the writers of `vl`, goes up by 1. -/
def Sys2Proof.SetVectorLength : Prop :=
  ∀ (s : State) (t : Strand) (sd sa : SReg), Ready s t [sd, sa] →
    let vl := min (t.getS sa).toNat (32768 * t.q * 2 ^ (t.vtype.toNat % 8) / (4 * 2 ^ (t.vtype.toNat / 8 % 8)))
    exec (.vsetvl sd sa) s = .next (s.put 
      ({ t with vl := vl, copen := false, fresh := true, gen := t.gen + 1 }.setS sd (BitVec.ofNat 64 vl)).advance)

/-- R40, R44, R189: once older vector loads have passed their fault checks `vsettype` takes a `vtype` without a reserved code
and trims `vl` to its VLMAX; any other takes VTYPE and changes nothing but what the exception does. -/
def Sys2Proof.SetVectorType : Prop :=
  ∀ (s : State) (t : Strand) (sd sa : SReg) (imm : BitVec 12),
    let passed : Prop := ∀ e ∈ t.viq, e.loads = true → e.done = true
    let legal (w : Word) : Prop := w.toNat < 4096 ∧ w.toNat % 8 ≤ 3 ∧ w.toNat / 8 % 8 ≤ 4
    let after (w : Word) : State :=
      let vt := BitVec.ofNat 12 w.toNat
      let vl := min t.vl (32768 * t.q * 2 ^ (w.toNat % 8) / (4 * 2 ^ (w.toNat / 8 % 8)))
      s.put ({ t with vtype := vt, vl := vl, copen := false, fresh := true, gen := t.gen + 1 }.setS sd (BitVec.ofNat 64 vl)).advance
    let trapped := s.takeTrap { t with copen := false, fresh := true } ⟨.vtype, 0, 0, 0, true, t.pc⟩ t.pc [] 0 none
    let waits := s.put { t with stalled := true, copen := false, fresh := true }
    (Ready s t [sd, sa] →
      (passed → legal (t.getS sa) → exec (.vsettype sd sa) s = .next (after (t.getS sa)))
      ∧ (¬ legal (t.getS sa) → t.idle → exec (.vsettype sd sa) s = .next trapped)
      ∧ (¬ passed → exec (.vsettype sd sa) s = .next waits))
    ∧ (Ready s t [sd] →
      (passed → legal (imm.setWidth 64) → exec (.vsettypeImm sd imm) s = .next (after (imm.setWidth 64)))
      ∧ (¬ legal (imm.setWidth 64) → t.idle → exec (.vsettypeImm sd imm) s = .next trapped)
      ∧ (¬ passed → exec (.vsettypeImm sd imm) s = .next waits))

/-! ## Progress, breakpoints, traps -/

/-- R194: `prog` grows by sA and the immediate and saturates at 0xFFFF_FFFF. -/
def Sys2Proof.ProgressMark : Prop :=
  ∀ (sa : SReg) (imm : BitVec 11),
    Moves (.progMark sa imm) [sa] (fun _ t =>
      { t with prog := BitVec.ofNat 32 (min (t.prog.toNat + (t.getS sa).toNat + imm.toNat) 0xFFFFFFFF) }.advance)

/-- R195: once the queues are empty and no access is on its way, `brk` traps with its immediate and its own PC, `trap` with its
immediate, the value of sA and the PC of the next head; before that each waits and closes the open convoy. That `trap` waits for
a line which the search for the next head must wait for is the model's choice (log 15). -/
def Sys2Proof.BreakAndTrap : Prop :=
  ∀ (s : State) (t : Strand) (sa : SReg) (imm : BitVec 11), s.curStrand = some t →
    (t.idle → exec (.brk imm) s = .next (s.takeTrap t ⟨.brk, 0, 0, imm.toNat, true, t.pc⟩ t.pc [] 0 none))
    ∧ (t.idle → t.mustWait [sa] = false → s.awaitNext t = none →
        exec (.trap sa imm) s = .next (s.takeTrap t ⟨.trap, 0, t.getS sa, imm.toNat, true, t.pc⟩ (s.nextHead t) [] 0 none))
    ∧ (¬ t.idle → exec (.brk imm) s = .next (s.put { t with stalled := true, copen := false, fresh := true }))
    ∧ (¬ t.idle → t.mustWait [sa] = false → s.awaitNext t = none →
        exec (.trap sa imm) s = .next (s.put { t with stalled := true, copen := false, fresh := true }))

/-- R165, R341, R342, R376: taking an exception writes the restart record with the cause and its data, the queue of a strand that
waits in `qdrain` as VALUE with WAITQ set, PC_NEXT, the VIQ entries left, `vl`, `vtype`, `fstat`, `prog` and the scalar registers, stops the strand, and sets STATE 2 in the slots of
its quarters; other strands, other slots and all memory are as before. That the queue number takes VALUE from the cause is the
model's choice (log 80). -/
def Obligations.TakingAnException : Prop :=
  ∀ (s : State) (t : Strand) (info : Trapped) (pc : Word) (viq : List Entry) (epr : Nat) (perf : Option (List Nat)),
    s.strand t.id.sid = some t →
    let s' := s.takeTrap t info pc viq epr perf
    s'.mem = s.mem ∧ s'.lines = s.lines ∧ SameOthers s s' t.id.sid
    ∧ (∀ n ∈ t.slotIds, slotState (s'.slot n) = 2) ∧ (∀ n, n ∉ t.slotIds → s'.slot n = s.slot n)
    ∧ ∃ t' r, s'.strand t.id.sid = some t' ∧ t'.status = .trapped ∧ t'.record = some r ∧ t'.viq = []
      ∧ r.info = info ∧ (r.waitq = true ↔ ∃ q sd, t.wait = .queue q sd)
      ∧ r.value = (match t.wait with
        | .queue q _ => BitVec.ofNat 64 q
        | _ => info.value)
      ∧ r.pcNext = pc ∧ r.viq = viq ∧ r.epr = epr ∧ r.perf = perf
      ∧ r.s = t'.s ∧ r.fstat = t.fstat ∧ r.prog = t.prog ∧ r.vtype = t.vtype ∧ r.vl = t.vl ∧ r.tokp = t.tokp
      ∧ r.vcp = t.vcp ∧ t'.pc = t.pc ∧ t'.v = t.v ∧ t'.k = t.k ∧ t'.m = t.m ∧ t'.lflags = t.lflags ∧ t'.lane = t.lane
      ∧ t'.win = t.win
      ∧ (t.rq = [] → t'.s = t.s)

/-- R346: returning from an exception restores the registers of the record, resumes at PC_NEXT with the queued entries of
the record at their positions, starts the next convoy afresh with an empty line buffer, and sets STATE 1 in its slots. -/
def Obligations.ReturningFromAnException : Prop :=
  ∀ (s : State) (t : Strand) (r : Record), s.strand t.id.sid = some t →
    let s' := s.resumeTrap t r
    s'.mem = s.mem ∧ s'.lines = s.lines ∧ SameOthers s s' t.id.sid
    ∧ (∀ n ∈ t.slotIds, slotState (s'.slot n) = 1) ∧ (∀ n, n ∉ t.slotIds → s'.slot n = s.slot n)
    ∧ ∃ t', s'.strand t.id.sid = some t' ∧ t'.status = .running ∧ t'.pc = r.pcNext ∧ t'.record = none
      ∧ (∀ q, t'.getS q = if q = 0 then 0 else r.s[q.toNat]'q.isLt)
      ∧ t'.fstat = r.fstat ∧ t'.prog = r.prog ∧ t'.vl = r.vl ∧ t'.vtype = r.vtype ∧ t'.tokp = r.tokp ∧ t'.vcp = r.vcp
      ∧ t'.lbuf = [] ∧ t'.copen = false ∧ t'.fresh = true
      ∧ t'.viq.map Entry.i = r.viq.map Entry.i ∧ (∀ e ∈ t'.viq.head?, e.pos = r.epr)
      ∧ t'.v = t.v ∧ t'.k = t.k ∧ t'.m = t.m ∧ t'.lflags = t.lflags ∧ t'.lane = t.lane ∧ t'.win = t.win

/-! ## Scalar floating point -/

/-- R70, R57, R75: a scalar float instruction writes the bits of its result, f32 results in bits [31:0] with zeros above,
raises its flags NX, UF, OF, DZ, NV in `fstat`[6:2], and moves past its head. -/
def Sys2Proof.floatAfter (sd : SReg) (x : Nat × Flags) (t : Strand) : Strand :=
  ({ t with fstat := t.fstat ||| ((x.2.setWidth 7 &&& 31) <<< 2) }.setS sd (BitVec.ofNat 64 x.1)).advance

/-- The rounding mode of `fstat`[1:0]. -/
def Sys2Proof.fstatMode (t : Strand) : Rm :=
  if t.fstat.toNat % 4 = 0 then .rne else if t.fstat.toNat % 4 = 1 then .rtz else if t.fstat.toNat % 4 = 2 then .rdn
  else .rup

/-- R179 to R182: sums, differences, products, quotients, fused products and square roots are the exact ones rounded once
under `fstat`.RM; minima and maxima follow R80. -/
def Sys2Proof.ScalarFloatArithmetic : Prop :=
  ∀ (d : Bool) (sd sa sb : SReg),
    let f := if d then fmtF64 else fmtF32
    let v (t : Strand) (r : SReg) : Fv := f.unpack ((t.getS r).toNat % 2 ^ (if d then 64 else 32))
    let bits (t : Strand) (r : SReg) : Nat := (t.getS r).toNat % 2 ^ (if d then 64 else 32)
    let op (e : Strand → Exact) (_ : State) (t : Strand) : Strand := floatAfter sd (f.deliver (fstatMode t) false (e t)) t
    Moves (.fadd d sd sa sb) [sd, sa, sb] (op fun t => exAdd (fstatMode t) (v t sa) (v t sb))
    ∧ Moves (.fsub d sd sa sb) [sd, sa, sb] (op fun t => exAdd (fstatMode t) (v t sa) (v t sb).neg)
    ∧ Moves (.fmul d sd sa sb) [sd, sa, sb] (op fun t => exMul (v t sa) (v t sb))
    ∧ Moves (.fdiv d sd sa sb) [sd, sa, sb] (op fun t => exDiv (v t sa) (v t sb))
    ∧ Moves (.fma d sd sa sb) [sd, sa, sb] (op fun t => exFma (fstatMode t) (v t sa) (v t sb) (v t sd))
    ∧ Moves (.fsqrt d sd sa) [sd, sa] (op fun t => exSqrt (v t sa))
    ∧ Moves (.fmin d sd sa sb) [sd, sa, sb] (fun _ t => floatAfter sd (f.minMax false (bits t sa) (bits t sb)) t)
    ∧ Moves (.fmax d sd sa sb) [sd, sa, sb] (fun _ t => floatAfter sd (f.minMax true (bits t sa) (bits t sb)) t)

/-- R183: the four compares, +0 equal to -0, a NaN unordered; NV for a signalling NaN, and for any NaN in lt and le. -/
def Sys2Proof.ScalarFloatCompares : Prop :=
  ∀ (d : Bool) (sd sa sb : SReg),
    let f := if d then fmtF64 else fmtF32
    let v (t : Strand) (r : SReg) : Fv := f.unpack ((t.getS r).toNat % 2 ^ (if d then 64 else 32))
    let quiet (t : Strand) : Flags := if v t sa = .nan true ∨ v t sb = .nan true then 1 else 0
    let any (t : Strand) : Flags := if (v t sa).isNan ∨ (v t sb).isNan then 1 else 0
    let op (p : Strand → Bool) (fl : Strand → Flags) (_ : State) (t : Strand) : Strand :=
      floatAfter sd (if p t then 1 else 0, fl t) t
    Moves (.fcmpEq d sd sa sb) [sd, sa, sb]
      (op (fun t => !(v t sa).isNan && !(v t sb).isNan && !(v t sa).lt (v t sb) && !(v t sb).lt (v t sa)) quiet)
    ∧ Moves (.fcmpLt d sd sa sb) [sd, sa, sb] (op (fun t => (v t sa).lt (v t sb)) any)
    ∧ Moves (.fcmpLe d sd sa sb) [sd, sa, sb]
      (op (fun t => !(v t sa).isNan && !(v t sb).isNan && !(v t sb).lt (v t sa)) any)
    ∧ Moves (.fcmpUn d sd sa sb) [sd, sa, sb] (op (fun t => (v t sa).isNan || (v t sb).isNan) quiet)

/-- R184, R77 to R79: the conversions, under the static mode of the instruction or `fstat`.RM; into an integer the rounded
value, the nearest limit with NV outside the range, 0 with NV for a NaN. -/
def Sys2Proof.ScalarFloatConversions : Prop :=
  ∀ (sd sa : SReg) (rm : Option Rm),
    let mode (t : Strand) : Rm := rm.getD (fstatMode t)
    let lo (t : Strand) : Nat := (t.getS sa).toNat % 2 ^ 32
    let all (t : Strand) : Nat := (t.getS sa).toNat
    let op (x : Strand → Nat × Flags) (_ : State) (t : Strand) : Strand := floatAfter sd (x t) t
    let into (l h : Int) (t : Strand) (v : Fv) : Nat × Flags :=
      match v with
      | .nan _ => (0, 1)
      | .inf n => (wrapTo 64 (if n then l else h), 1)
      | .fin n m e =>
        let r := roundToInt (mode t) n m e
        if r.1 < l then (wrapTo 64 l, 1) else if h < r.1 then (wrapTo 64 h, 1)
        else (wrapTo 64 r.1, if r.2 then 16 else 0)
    Moves (.fcvtF32F64 sd sa rm) [sd, sa] (op fun t => fmtF32.deliver (mode t) false ⟨fmtF64.unpack (all t), snan (fmtF64.unpack (all t))⟩)
    ∧ Moves (.fcvtF64F32 sd sa rm) [sd, sa] (op fun t => fmtF64.deliver (mode t) false ⟨fmtF32.unpack (lo t), snan (fmtF32.unpack (lo t))⟩)
    ∧ Moves (.fcvtF32I64 sd sa rm) [sd, sa] (op fun t => fmtF32.round (mode t) false (decide ((t.getS sa).toInt < 0)) (t.getS sa).toInt.natAbs 0)
    ∧ Moves (.fcvtF32N64 sd sa rm) [sd, sa] (op fun t => fmtF32.round (mode t) false false (all t) 0)
    ∧ Moves (.fcvtF64I64 sd sa rm) [sd, sa] (op fun t => fmtF64.round (mode t) false (decide ((t.getS sa).toInt < 0)) (t.getS sa).toInt.natAbs 0)
    ∧ Moves (.fcvtF64N64 sd sa rm) [sd, sa] (op fun t => fmtF64.round (mode t) false false (all t) 0)
    ∧ Moves (.fcvtI64F32 sd sa rm) [sd, sa] (op fun t => into (-2 ^ 63) (2 ^ 63 - 1) t (fmtF32.unpack (lo t)))
    ∧ Moves (.fcvtN64F32 sd sa rm) [sd, sa] (op fun t => into 0 (2 ^ 64 - 1) t (fmtF32.unpack (lo t)))
    ∧ Moves (.fcvtI64F64 sd sa rm) [sd, sa] (op fun t => into (-2 ^ 63) (2 ^ 63 - 1) t (fmtF64.unpack (all t)))
    ∧ Moves (.fcvtN64F64 sd sa rm) [sd, sa] (op fun t => into 0 (2 ^ 64 - 1) t (fmtF64.unpack (all t)))

/-! ## What the operations of the float instructions give -/

/-- The rational number a finite value stands for. -/
def Sys2Proof.ratOf (neg : Bool) (m : Nat) (e : Int) : Rat :=
  (if neg then -1 else 1) * m * (2 : Rat) ^ e

/-- The rational number of a finite code of a format. -/
def Sys2Proof.codeRat (f : Fmt) (x : Nat) : Option Rat :=
  match f.unpack x with
  | .fin n m e => some (ratOf n m e)
  | _ => none

/-- A value that is no NaN, as an extended real. -/
noncomputable def Sys2Proof.realOf (v : Fv) : EReal :=
  match v with
  | .nan _ => 0
  | .inf n => if n then ⊥ else ⊤
  | .fin n m e => ((ratOf n m e : ℝ) : EReal)

/-- NV where one of the operands is a signalling NaN (R69). -/
def Sys2Proof.signalled (l : List Fv) : Flags :=
  if .nan true ∈ l then 1 else 0

/-- The float formats of R63. -/
def Sys2Proof.floatFormats : List Fmt :=
  [fmtF64, fmtF32, fmtF16, fmtBf16, fmtE5m2, fmtE4m3, fmtE3m2, fmtE2m3, fmtE2m1]

/-- R69, R90, R180 to R182: a NaN operand gives NaN, with NV for a signalling one; ∞ − ∞, 0 × ∞, 0/0, ∞/∞ and the square root of
a negative nonzero give NaN and NV; a finite nonzero value by zero gives an infinity and DZ; what infinities and zeros give
otherwise; a product ∞ × 0 is invalid with any addend. -/
def Sys2Proof.SpecialOperands : Prop :=
  ∀ (rm : Rm) (a b c : Fv),
    let nan (l : Flags) : Exact := ⟨.nan false, l⟩
    let inf (n : Bool) (l : Flags) : Exact := ⟨.inf n, l⟩
    let badMul (x y : Fv) : Prop := (∃ n, x = .inf n) ∧ y.isZero = true ∨ x.isZero = true ∧ ∃ n, y = .inf n
    (a.isNan = true ∨ b.isNan = true →
      exAdd rm a b = nan (signalled [a, b]) ∧ exSub rm a b = nan (signalled [a, b]) ∧ exMul a b = nan (signalled [a, b])
      ∧ exDiv a b = nan (signalled [a, b]))
    ∧ (∀ n, exAdd rm (.inf n) (.inf n) = inf n 0 ∧ exAdd rm (.inf n) (.inf !n) = nan 1
        ∧ exSub rm (.inf n) (.inf n) = nan 1 ∧ exSub rm (.inf n) (.inf !n) = inf n 0
        ∧ ∀ k m e, exAdd rm (.inf n) (.fin k m e) = inf n 0 ∧ exAdd rm (.fin k m e) (.inf n) = inf n 0
          ∧ exSub rm (.inf n) (.fin k m e) = inf n 0 ∧ exSub rm (.fin k m e) (.inf n) = inf (!n) 0)
    ∧ (badMul a b → exMul a b = nan 1 ∧ exFma rm a b c = nan 1)
    ∧ (∀ n k, exMul (.inf n) (.inf k) = inf (n != k) 0
        ∧ ∀ m e, m ≠ 0 → exMul (.inf n) (.fin k m e) = inf (n != k) 0 ∧ exMul (.fin k m e) (.inf n) = inf (k != n) 0)
    ∧ (a.isNan = true ∨ b.isNan = true ∨ c.isNan = true → ¬ badMul a b → exFma rm a b c = nan (signalled [a, b, c]))
    ∧ (∀ n, (exMul a b).v = .inf n → exFma rm a b (.inf n) = inf n 0 ∧ exFma rm a b (.inf !n) = nan 1
        ∧ ∀ k m e, exFma rm a b (.fin k m e) = inf n 0)
    ∧ (∀ k m e n, (exMul a b).v = .fin k m e → exFma rm a b (.inf n) = inf n 0)
    ∧ (∀ n k, exDiv (.inf n) (.inf k) = nan 1
        ∧ ∀ m e, exDiv (.inf n) (.fin k m e) = inf (n != k) 0 ∧ (exDiv (.fin k m e) (.inf n)).flags = 0
          ∧ (exDiv (.fin k m e) (.inf n)).v.isZero = true ∧ (exDiv (.fin k m e) (.inf n)).v.sign = (k != n)
          ∧ ∀ d, exDiv (.fin n m e) (.fin k 0 d) = if m = 0 then nan 1 else inf (n != k) 2)
    ∧ (a.isNan = true → exSqrt a = nan (signalled [a]))
    ∧ exSqrt (.inf false) = inf false 0 ∧ exSqrt (.inf true) = nan 1
    ∧ (∀ m e, m ≠ 0 → exSqrt (.fin true m e) = nan 1)
    ∧ ∀ n e, (exSqrt (.fin n 0 e)).v.isZero = true ∧ (exSqrt (.fin n 0 e)).v.sign = n ∧ (exSqrt (.fin n 0 e)).flags = 0

/-- R80, R183: one value is below another where neither is NaN and the numbers they stand for are so ordered; a minimum or
maximum is one of its operands, the other one beside a NaN, the canonical NaN of two, with -0 below +0 and NV for a signalling
NaN. -/
def Sys2Proof.OrderMinimaMaxima : Prop :=
  (∀ a b : Fv, a.lt b = true ↔ a.isNan = false ∧ b.isNan = false ∧ realOf a < realOf b)
  ∧ ∀ f ∈ floatFormats, ∀ (x y : Nat) (most : Bool),
      let a := f.unpack x
      let b := f.unpack y
      let r := f.minMax most x y
      r.2 = signalled [a, b]
      ∧ (a.isNan = true → b.isNan = true → r.1 = f.nanBits)
      ∧ (a.isNan = true → b.isNan = false → r.1 = y)
      ∧ (a.isNan = false → b.isNan = true → r.1 = x)
      ∧ (a.isNan = false → b.isNan = false →
        (r.1 = x ∨ r.1 = y)
        ∧ realOf (f.unpack r.1) = (if most then max (realOf a) (realOf b) else min (realOf a) (realOf b))
        ∧ (a.isZero = true → b.isZero = true → a.sign ≠ b.sign → (f.unpack r.1).sign = !most))

/-- R68, R69, R71, R78: what a NaN and an infinity become in each format: the canonical NaN, or +0 with NV where there is none; the
infinity, NaN with NV or the largest finite value with SAT, each format's codes written out. -/
def Sys2Proof.SpecialResults : Prop :=
  ∀ (rm : Rm) (sat : Bool) (q n : Bool) (fl : Flags),
    let sign (f : Fmt) : Nat := if n then 2 ^ (f.eb + f.mb) else 0
    (∀ p ∈ [(fmtF64, 0x7FF8000000000000, 0x7FF0000000000000), (fmtF32, 0x7FC00000, 0x7F800000), (fmtF16, 0x7E00, 0x7C00),
        (fmtBf16, 0x7FC0, 0x7F80), (fmtE5m2, 0x7E, 0x7C)],
      p.1.deliver rm sat ⟨.nan q, fl⟩ = (p.2.1, fl) ∧ p.1.deliver rm sat ⟨.inf n, fl⟩ = (sign p.1 + p.2.2, fl))
    ∧ fmtE4m3.deliver rm sat ⟨.nan q, fl⟩ = (0x7F, fl)
    ∧ fmtE4m3.deliver rm sat ⟨.inf n, fl⟩
      = (if sat then (sign fmtE4m3 + 0x7E, fl ||| flagSat) else (0x7F, fl ||| flagNv))
    ∧ ∀ p ∈ [(fmtE3m2, 0x1F), (fmtE2m3, 0x1F), (fmtE2m1, 0x7)],
      p.1.deliver rm sat ⟨.nan q, fl⟩ = (0, fl ||| flagNv)
      ∧ p.1.deliver rm sat ⟨.inf n, fl⟩ = (sign p.1 + p.2, fl ||| flagSat)

/-- What `round(x, f, rm, sat)` of R76 leaves of an exact x where nothing overflows: a finite code; NX exactly where it differs
from x; UF exactly where it differs and lies below the smallest normal; no code of the format strictly between it and x; by
mode, on the side R75 names or nearest, and on a tie the last mantissa bit even. -/
def Sys2Proof.Rounded (f : Fmt) (rm : Rm) (x : ℝ) (r : Nat × Flags) : Prop :=
  r.2 &&& (flagOf ||| flagSat) = 0 →
    ∃ y : Rat, codeRat f r.1 = some y
      ∧ (r.2 &&& flagNx = 0 ↔ (y : ℝ) = x)
      ∧ (r.2 &&& flagUf ≠ 0 ↔ (y : ℝ) ≠ x ∧ |(y : ℝ)| < (2 : ℝ) ^ (1 - (f.bias : Int)))
      ∧ (∀ c z, codeRat f c = some z → ¬ (x < z ∧ z < y) ∧ ¬ (y < z ∧ z < x))
      ∧ (rm = .rtz → |(y : ℝ)| ≤ |x|) ∧ (rm = .rdn → (y : ℝ) ≤ x) ∧ (rm = .rup → x ≤ y)
      ∧ (rm = .rne → ∀ c z, codeRat f c = some z →
          |y - x| ≤ |z - x| ∧ (z ≠ y → |z - x| = |y - x| → r.1 % 2 = 0))

/-- R75, R76: rounding of an exact value, in every format and mode, its sign kept; an overflow, which a value beyond the largest
finite one alone can be, gives what the table of R76 says. -/
def Sys2Proof.RoundingResults : Prop :=
  ∀ f ∈ floatFormats, ∀ (rm : Rm) (sat neg : Bool) (m : Nat) (e : Int),
    let r := f.round rm sat neg m e
    Rounded f rm (ratOf neg m e) r
    ∧ (r.2 &&& (flagOf ||| flagSat) = 0 → (f.unpack r.1).sign = neg)
    ∧ (r.2 &&& (flagOf ||| flagSat) ≠ 0 →
      (∃ big, codeRat f (f.maxBits neg) = some big ∧ |big| < |ratOf neg m e| ∧ ∀ c z, codeRat f c = some z → |z| ≤ |big|)
      ∧ r = if sat = true ∨ f.special = .none then (f.maxBits neg, flagSat ||| flagNx)
        else if rm = .rne ∨ rm = .rup ∧ neg = false ∨ rm = .rdn ∧ neg = true then (f.infBits neg, flagOf ||| flagNx)
        else (f.maxBits neg, flagOf ||| flagNx))

/-- R77, R79: rounding to an integer, with whether it is inexact: no integer strictly between, by mode on the side R75 names or
nearest, an even one on a tie. -/
def Sys2Proof.RoundingToInteger : Prop :=
  ∀ (rm : Rm) (neg : Bool) (m : Nat) (e : Int),
    let r := roundToInt rm neg m e
    let x := ratOf neg m e
    (r.2 = false ↔ (r.1 : Rat) = x)
    ∧ (∀ z : Int, ¬ (x < z ∧ z < r.1) ∧ ¬ (r.1 < z ∧ z < x))
    ∧ (rm = .rtz → |(r.1 : Rat)| ≤ |x|) ∧ (rm = .rdn → (r.1 : Rat) ≤ x) ∧ (rm = .rup → x ≤ r.1)
    ∧ (rm = .rne → ∀ z : Int, |r.1 - x| ≤ |z - x| ∧ (z ≠ r.1 → |z - x| = |r.1 - x| → r.1 % 2 = 0))

/-- R76, R180, R181: sums, differences, products and fused products of finite values are exact before they are rounded; a sum
that is zero of unlike signs is +0, under RDN -0. -/
def Sys2Proof.ExactBeforeRounding : Prop :=
  ∀ (rm : Rm) (na nb nc : Bool) (ma mb mc : Nat) (ea eb ec : Int),
    let a := Fv.fin na ma ea
    let b := Fv.fin nb mb eb
    let c := Fv.fin nc mc ec
    (∃ n m e, exAdd rm a b = ⟨.fin n m e, 0⟩ ∧ ratOf n m e = ratOf na ma ea + ratOf nb mb eb
      ∧ (m = 0 → n = if na = nb then na else rm == .rdn))
    ∧ (∃ n m e, exSub rm a b = ⟨.fin n m e, 0⟩ ∧ ratOf n m e = ratOf na ma ea - ratOf nb mb eb
      ∧ (m = 0 → n = if na = !nb then na else rm == .rdn))
    ∧ (∃ n m e, exMul a b = ⟨.fin n m e, 0⟩ ∧ ratOf n m e = ratOf na ma ea * ratOf nb mb eb ∧ n = (na != nb))
    ∧ (∃ n m e, exFma rm a b c = ⟨.fin n m e, 0⟩ ∧ ratOf n m e = ratOf na ma ea * ratOf nb mb eb + ratOf nc mc ec
      ∧ (m = 0 → n = if (na != nb) = nc then nc else rm == .rdn))

/-- R180, R182: a quotient by a nonzero divisor and a square root of a value that is not negative are the exact ones rounded
once, in every format and mode, with the sign of the quotient. -/
def Sys2Proof.QuotientsAndRoots : Prop :=
  ∀ f ∈ floatFormats, ∀ (rm : Rm) (sat na nb : Bool) (ma mb : Nat) (ea eb : Int),
    (mb ≠ 0 →
      (exDiv (.fin na ma ea) (.fin nb mb eb)).flags = 0 ∧ (exDiv (.fin na ma ea) (.fin nb mb eb)).v.sign = (na != nb)
      ∧ Rounded f rm ((ratOf na ma ea / ratOf nb mb eb : Rat) : ℝ) (f.deliver rm sat (exDiv (.fin na ma ea) (.fin nb mb eb))))
    ∧ (ma ≠ 0 → (exSqrt (.fin false ma ea)).flags = 0
      ∧ Rounded f rm (Real.sqrt (ratOf false ma ea : ℝ)) (f.deliver rm sat (exSqrt (.fin false ma ea))))

/-! ## Scalar loads, stores and atomics -/

/-- R174: a load of a mapped word that its home serves writes the sign- or zero-extended value of its bytes into sD and
moves past its head; memory, lines and every other register are as before. An access that has not delivered does not hold it
back, where it does not acquire and both are known to be to other lines, by requested and by resolved address (R126, R164, R177,
R285). -/
def Obligations.ScalarLoads : Prop :=
  ∀ (s : State) (t : Strand) (sd sa : SReg) (imm : BitVec 17), Ready s t [sd, sa] → t.viq = [] →
    let va := BitVec.ofInt 64 ((t.getS sa).toInt + imm.toInt)
    ∀ p ∈ [(Instr.ldB sd sa imm, 1, true), (.ldH sd sa imm, 2, true), (.ldW sd sa imm, 4, true), (.ldD sd sa imm, 8, true),
        (.ldBN sd sa imm, 1, false), (.ldHN sd sa imm, 2, false), (.ldWN sd sa imm, 4, false)],
      ∀ e h, Mapped s t.ctx va p.2.1 .read e → Served s t.ctx va e h →
      (∀ a ∈ t.acc, a.acq = false ∧ lineVa a.va ≠ lineVa va
        ∧ ∃ l w, s.resolve t.ctx a.va 1 1 (if a.wr then .write else .read) .data = .ok l w ∧ lineOf l.home ≠ lineOf h) →
      ∃ s' t', exec p.1 s = .next s' ∧ s'.strand t.id.sid = some t' ∧ SameOthers s s' t.id.sid
        ∧ s' = { s with strands := s'.strands, svcs := s'.svcs, freeCtr := s'.freeCtr }
        ∧ t' = { (t.setS sd (if p.2.2 then (BitVec.ofNat (8 * p.2.1) (loadedValue s t va p.2.1 e h)).signExtend 64
            else BitVec.ofNat 64 (loadedValue s t va p.2.1 e h))).advance with lbuf := t'.lbuf }

/-- R174, R119: a store to a mapped word that its home serves writes the low bytes of sB there and no other byte, leaves
every line as it was, drops the line from the strand's line buffer, and moves past its head; it waits for an access that has not
delivered (R165). -/
def Obligations.ScalarStores : Prop :=
  ∀ (s : State) (t : Strand) (sb sa : SReg) (imm : BitVec 17), s.memOk → Ready s t [sb, sa] → t.viq = [] →
    let va := BitVec.ofInt 64 ((t.getS sa).toInt + imm.toInt)
    ∀ p ∈ [(Instr.stB sb sa imm, 1), (.stH sb sa imm, 2), (.stW sb sa imm, 4), (.stD sb sa imm, 8)],
      (t.acc.isSome = true → exec p.1 s = .next (s.put { t with stalled := true }))
      ∧ ∀ e h, t.acc = none → Mapped s t.ctx va p.2 .write e → Served s t.ctx va e h →
      ∃ s' t', exec p.1 s = .next s' ∧ s'.strand t.id.sid = some t' ∧ SameOthers s s' t.id.sid
        ∧ Memory.read s'.mem h p.2 = (t.getS sb).toNat % 2 ^ (8 * p.2)
        ∧ (∀ a, a < h ∨ h + p.2 ≤ a → Memory.get s'.mem a = Memory.get s.mem a)
        ∧ (∀ l, s'.lineState l = s.lineState l)
        ∧ s' = { s with strands := s'.strands, svcs := s'.svcs, mem := s'.mem, lines := s'.lines }
        ∧ t' = { t.advance with lbuf := t'.lbuf } ∧ (∀ b ∈ t'.lbuf, b ∈ t.lbuf ∧ b.home ≠ lineOf h)

/-- R91, R94, R95, R98, R165, R351, R355, R358: a scalar access with nothing older in the queues traps at its own PC with ADDR for
an address that is not canonical, ALIGN for a misaligned one, PAGE or TABLE where the service of its page has been denied, PERM
where the cached translation and a fresh walk refuse it (the fresh one stays), SLAB_ABSENT for a slab address that no strand
maps, FLASH_DIRECT for a flash page, and has no effect of its own. -/
def Obligations.ScalarAccessFaults : Prop :=
  ∀ (s : State) (t : Strand) (sd sa : SReg) (imm : BitVec 17), Ready s t [sd, sa] → t.idle →
    let va := BitVec.ofInt 64 ((t.getS sa).toInt + imm.toInt)
    ∀ p ∈ [(Instr.ldB sd sa imm, 1, Need.read), (.ldH sd sa imm, 2, .read), (.ldW sd sa imm, 4, .read),
        (.ldD sd sa imm, 8, .read), (.ldBN sd sa imm, 1, .read), (.ldHN sd sa imm, 2, .read), (.ldWN sd sa imm, 4, .read),
        (.stB sd sa imm, 1, .write), (.stH sd sa imm, 2, .write), (.stW sd sa imm, 4, .write), (.stD sd sa imm, 8, .write)],
      (canonicalAll va p.2.1 = false →
        exec p.1 s = .next (s.takeTrap t ⟨.addr, va, 0, 0, true, t.pc⟩ t.pc [] 0 none))
      ∧ (canonicalAll va p.2.1 = true → va.toNat % p.2.1 ≠ 0 →
        exec p.1 s = .next (s.takeTrap t ⟨.align, va, 0, 0, true, t.pc⟩ t.pc [] 0 none))
      ∧ (canonicalAll va p.2.1 = true → va.toNat % p.2.1 = 0 →
        (∀ v, s.denied t.ctx (va52 va) = some v → exec p.1 s = .next (s.takeTrap t
          ⟨if v.sub = 0 then .page else .table, va, BitVec.ofNat 64 v.sub, 0, true, t.pc⟩ t.pc [] 0 none))
        ∧ ∀ e pte, s.denied t.ctx (va52 va) = none → s.tlbHit t.id.asid (va52 va) = some e → ptePermits e.pte p.2.2 = false →
          s.walk t.ctx.who t.id.asid (va52 va) = .leaf pte → ptePermits pte p.2.2 = false →
          exec p.1 s = .next ((s.install (leafEntry t.id.asid (va52 va) pte)).takeTrap t
            ⟨.perm, va, 0, 0, true, t.pc⟩ t.pc [] 0 none))
      ∧ (∀ e, Mapped s t.ctx va p.2.1 p.2.2 e → pteAttr e.pte = attrSlab → s.slabHome t.id.asid va = none →
        exec p.1 s = .next (s.takeTrap t ⟨.slabAbsent, va, 0, 0, true, t.pc⟩ t.pc [] 0 none))
      ∧ (∀ e, Mapped s t.ctx va p.2.1 p.2.2 e → pteAttr e.pte = attrFlash →
        exec p.1 s = .next (s.takeTrap t ⟨.flashDirect, va, 0, 0, true, t.pc⟩ t.pc [] 0 none))

/-- The scalar atomics of R176: instruction, operation. -/
def Sys2Proof.atomics (sd sa sb : SReg) (ord : Ord) (d : Bool) : List (Instr × AmoOp) :=
  [(.amoAdd sd sa sb ord d, .add), (.amoAnd sd sa sb ord d, .and), (.amoOr sd sa sb ord d, .or),
   (.amoXor sd sa sb ord d, .xor), (.amoMin sd sa sb ord d, .min), (.amoMax sd sa sb ord d, .max),
   (.amoSwp sd sa sb ord d, .swp), (.amoCas sd sa sb ord d, .cas), (.amoMinN sd sa sb ord d, .minN),
   (.amoMaxN sd sa sb ord d, .maxN)]

/-- The new value R176 gives a word of `n` bytes. -/
def Sys2Proof.atomicNew (op : AmoOp) (n old b cmp : Nat) : Nat :=
  let m := 2 ^ (8 * n)
  let x := b % m
  let sg (y : Nat) : Int := (BitVec.ofNat (8 * n) y).toInt
  match op with
  | .add => (old + x) % m
  | .and => Nat.land old x
  | .or => Nat.lor old x
  | .xor => Nat.xor old x
  | .min => if sg old ≤ sg x then old else x
  | .max => if sg x ≤ sg old then old else x
  | .minN => min old x
  | .maxN => max old x
  | .swp => x
  | .cas => if old = cmp % m then x else old

/-- The home byte a mapped address translates to: its place in a slab slot of its space, else in its page (R92, R98). -/
def Sys2Proof.HomeByte (s : State) (asid : BitVec 16) (va : Word) (e : TlbEntry) (h : Nat) : Prop :=
  if pteAttr e.pte = attrSlab then s.slabHome asid va = some h else h = entryHome e (va52 va)

/-- R164, R165, R176, R272, R284: an atomic on a mapped word becomes a request with its operation, operand, compare value and
home byte, at the first keystone of its way or at its home; its strand moves past it, keeps the scalar side as it stood there,
and sD waits for its value; memory is as before. Behind an access that has not delivered it waits. -/
def Sys2Proof.ScalarAtomicRequests : Prop :=
  ∀ (s : State) (t : Strand) (sd sa sb : SReg) (ord : Ord) (d : Bool), Ready s t [sd, sa, sb] → t.viq = [] →
    ∀ p ∈ atomics sd sa sb ord d,
      (t.acc.isSome = true → exec p.1 s = .next (s.put { t with stalled := true }))
      ∧ ∀ e h, t.acc = none → Mapped s t.ctx (t.getS sa) (if d then 8 else 4) .both e →
        HomeByte s t.id.asid (t.getS sa) e h → pteAttr e.pte ≠ attrFlash →
        (pteAttr e.pte = attrHost → p.2 = .add ∨ p.2 = .swp ∨ p.2 = .cas) →
        ∃ s' t' r a, exec p.1 s = .next s' ∧ s'.strand t.id.sid = some t' ∧ SameOthers s s' t.id.sid
          ∧ s'.mem = s.mem ∧ s'.lines = s.lines ∧ s'.nextRid = s.nextRid + 1
          ∧ t' = { t.advance with acc := some a, lbuf := t'.lbuf }
          ∧ a.rid = s.nextRid ∧ a.sd = sd ∧ a.n = (if d then 8 else 4) ∧ a.sext = (d || !(p.2 == .minN || p.2 == .maxN))
          ∧ a.va = t.getS sa ∧ a.wr = true ∧ a.acq = (ord == .acq) ∧ a.ahead = 0
          ∧ a.back = ⟨t.s, t.pc, t.seq, t.fstat, t.prog, t.vl, t.vtype, t.gen⟩
          ∧ (r ∈ s'.requests ∨ ∃ k ∈ s'.keystones, r ∈ k.queue)
          ∧ (pteAttr e.pte = attrHost → r ∈ s'.requests)
          ∧ r.rid = s.nextRid ∧ r.sid = t.id.sid ∧ r.kind = .amo p.2 ∧ r.n = (if d then 8 else 4) ∧ r.ord = ord
          ∧ r.va = t.getS sa ∧ r.home = h ∧ r.data = t.getS sb ∧ r.cmp = t.getS sd ∧ r.stalled = false

/-- R95, R165: an atomic other than add, swp and cas on a word of a host page takes HOST_AMO. -/
def Sys2Proof.ScalarAtomicsOnHostPages : Prop :=
  ∀ (s : State) (t : Strand) (sd sa sb : SReg) (ord : Ord) (d : Bool), Ready s t [sd, sa, sb] → t.idle →
    ∀ p ∈ atomics sd sa sb ord d, ∀ e,
      Mapped s t.ctx (t.getS sa) (if d then 8 else 4) .both e → pteAttr e.pte = attrHost →
      p.2 ≠ .add → p.2 ≠ .swp → p.2 ≠ .cas →
      exec p.1 s = .next (s.takeTrap t ⟨.hostAmo, t.getS sa, 0, 0, true, t.pc⟩ t.pc [] 0 none)

/-- R98, R108, R119, R128, R176, R284: MEMORY_ACCESS_PERFORM of a strand's atomic before which nothing waits at its home, at a plain
line, a host word or a slab slot of its space that answers, reads the old value, writes the new one, changes no other byte and no
line, takes the request away and replies with the old value; of a strand only lines of its line buffer go. At a never-produced
line it replies CHECK, at a slab slot that is gone SLAB_ABSENT, and both change no byte. -/
def Sys2Proof.HomeServesAtomic : Prop :=
  ∀ (s : State) (r : Request) (op : AmoOp), s.memOk → s.requests.find? (fun x => x.rid == r.rid) = some r → r.kind = .amo op →
    r.n ≤ 8 → s.requestReady r = true → r.again = false → s.soft.contains (lineOf r.home) = false →
    s.heldBefore (lineOf r.home) (match r.held with
      | some (l, since) => if l = lineOf r.home then since else s.tick + 1
      | none => s.tick + 1) = false →
    (∀ t ∈ s.strands, t.vamo = none) →
    let old := Memory.read s.mem r.home r.n
    let replied (s' : State) (a : Answer) : Prop := s'.replies = s.replies ++ [⟨r.rid, a, 0⟩]
      ∧ s'.requests = s.requests.filter (fun x => x.rid != r.rid)
      ∧ ∀ n t, s.strand n = some t → ∃ t', s'.strand n = some t' ∧ t' = { t with lbuf := t'.lbuf } ∧ ∀ b ∈ t'.lbuf, b ∈ t.lbuf
    let answers : Prop := s.offline (lineOf r.home) = false ∧ s.unreachable (lineOf r.home) = false
    ((if homeAttr r.home = attrSlab then s.slabHome r.asid r.va = some r.home
        else hasLines (homeAttr r.home) = true → answers ∧ s.lineState (lineOf r.home) = some .plain) →
      ∃ s', exec (.memoryAccessPerform r.rid) s = .next s'
        ∧ Memory.read s'.mem r.home r.n = atomicNew op r.n old r.data.toNat r.cmp.toNat
        ∧ (∀ a, a < r.home ∨ r.home + r.n ≤ a → Memory.get s'.mem a = Memory.get s.mem a)
        ∧ (∀ l, s'.lineState l = s.lineState l) ∧ replied s' (.value (BitVec.ofNat 64 old)))
    ∧ (hasLines (homeAttr r.home) = true → answers → s.lineState (lineOf r.home) = none →
      ∃ s', exec (.memoryAccessPerform r.rid) s = .next s' ∧ s'.mem = s.mem ∧ s'.lines = s.lines ∧ replied s' (.fault .check 0))
    ∧ (homeAttr r.home = attrSlab → s.slabHome r.asid r.va = none →
      ∃ s', exec (.memoryAccessPerform r.rid) s = .next s' ∧ s'.mem = s.mem ∧ s'.lines = s.lines
        ∧ replied s' (.fault .slabAbsent 0))

/-- R164, R165, R341: SCALAR_ACCESS_DELIVERY writes the value of a strand's access, extended as its instruction states, and what
was dispatched past it stands; a fault discards that: the scalar side is again what it was at the access, the VIQ keeps its older
entries, and with none of them left the exception is taken at the access's PC. -/
def Sys2Proof.AccessDelivery : Prop :=
  ∀ (s : State) (sid : Nat) (t : Strand) (a : Access) (r : Reply), s.strand sid = some t → t.acc = some a →
    s.replies.find? (fun x => x.rid == a.rid) = some r →
    let s1 := { s with replies := s.replies.filter fun x => x.rid != a.rid }
    let back := { t with
      s := a.back.s, pc := a.back.pc, seq := a.back.seq, fstat := a.back.fstat, prog := a.back.prog, vl := a.back.vl,
      vtype := a.back.vtype, gen := a.back.gen, viq := t.viq.take a.ahead, copen := false, fresh := true, acc := none,
      held := none, hold := none }
    (∀ v : Word, r.ans = .value v → ∃ s', exec (.scalarAccessDelivery sid) s = .next s'
      ∧ s' = { s1 with strands := s'.strands, svcs := s'.svcs } ∧ SameOthers s s' sid
      ∧ s'.strand sid = some ({ t with acc := none }.setS a.sd (extendBytes a.sext a.n v.toNat)))
    ∧ (∀ c v, r.ans = .fault c v → back.viq = [] → back.rq = [] →
      exec (.scalarAccessDelivery sid) s = .next (s1.takeTrap back
        ⟨c, a.va, if c = .fwdAsid ∨ c = .fwdChain ∨ c = .fwdTarget then lineVa a.va else v, 0, true, a.back.pc⟩
        a.back.pc [] 0 none))

/-! ## Services of the scheduler and the host -/

/-- R190, R191: `qdrain` of a queue that is not open delivers NO_QUEUE and goes on; of an open one it starts its wait, which
QDRAIN_COMPLETE ends with OK and an empty line buffer once the queue has drained. -/
def Sys2Proof.QueueDrain : Prop :=
  (∀ (s : State) (t : Strand) (sd sa : SReg), Ready s t [sd, sa] → t.acc = none →
    (s.queueOpen t.id.asid (t.getS sa).toNat = false →
      exec (.qdrain sd sa) s = .next (s.put (t.setS sd 2).advance))
    ∧ (s.queueOpen t.id.asid (t.getS sa).toNat = true →
      exec (.qdrain sd sa) s = .next (s.put { t.advance with wait := .queue (t.getS sa).toNat sd })))
  ∧ ∀ (s : State) (sid : Nat) (t : Strand) (q : Nat) (sd : SReg), s.strand sid = some t → t.wait = .queue q sd →
    t.status = .running → s.queueDrained t q = true →
    exec (.qdrainComplete sid) s = .next (s.put { t.setS sd 0 with lbuf := [], wait := .none })

/-- R190, R192: `sys.call` with a readable request: NO_RING without a ring, BUSY with a full one, and then no entry is
written; else OK once the entry (the request's first 56 bytes and the word of SEQ, TID and GID) stands in the ring, whose
tail has gone on by one. -/
def Sys2Proof.SystemCall : Prop :=
  ∀ (s : State) (t : Strand) (sd sa : SReg) (bs : List Byte), Ready s t [sd, sa] → t.viq = [] → t.acc = none →
    s.readAligned t.ctx (t.getS sa) 64 = .ok bs s →
    (∀ p, s.page t.id.asid = p → (p = none ∨ ∃ g, p = some g ∧ g.scrBase = 0) →
      exec (.sysCall sd sa) s
        = .next ((s.endSvc (.strand t.id.sid)).put ({ t with busy := false }.setS sd 3).advance))
    ∧ (∀ g, s.page t.id.asid = some g → g.scrBase ≠ 0 → (g.scrTail - g.scrHead).toNat = g.scrSize.toNat →
      exec (.sysCall sd sa) s
        = .next ((s.endSvc (.strand t.id.sid)).put ({ t with busy := false }.setS sd 1).advance))
    ∧ (∀ g w, s.page t.id.asid = some g → g.scrBase ≠ 0 → (g.scrTail - g.scrHead).toNat ≠ g.scrSize.toNat →
      s.writeRange t.ctx 3 (g.scrBase + BitVec.ofNat 64 (64 * (g.scrTail.toNat % g.scrSize.toNat)))
        (bs.take 56 ++ wordBytes 8 (g.scrTail.setWidth 16 ++ BitVec.ofNat 8 t.id.tid ++ 0#8 ++ t.id.gid)) = .ok () w →
      exec (.sysCall sd sa) s
        = .next (((w.setPage t.id.asid fun p => { p with scrTail := p.scrTail + 1 }).endSvc (.strand t.id.sid)).put
            ({ t with busy := false }.setS sd 0).advance))

/-- R190, R193, R367: `task.post` of a readable card delivers NO_QUEUE, BAD_CARD, BUSY or OK in that order of precedence;
only with OK does a card enter the queue sB names. -/
def Sys2Proof.TaskPost : Prop :=
  ∀ (s : State) (t : Strand) (sd sa sb : SReg) (bs : List Byte), Ready s t [sd, sa, sb] → t.viq = [] → t.acc = none →
    s.readAligned t.ctx (t.getS sa) 128 = .ok bs s →
    let card := BitVec.ofNat 1024 (leNat bs)
    let q := (t.getS sb).toNat
    let done (w : State) (code : Word) : Out :=
      .next (((w.refreshOffers).endSvc (.strand t.id.sid)).put ({ t with busy := false }.setS sd code).advance)
    (s.queueOpen t.id.asid q = false → exec (.taskPost sd sa sb) s = done s 2)
    ∧ (s.queueOpen t.id.asid q = true → s.cardFieldsOk t.id.asid card = false → exec (.taskPost sd sa sb) s = done s 4)
    ∧ (s.queueOpen t.id.asid q = true → s.cardFieldsOk t.id.asid card = true → ∀ l w,
      s.cardLists t.ctx card = .ok l w →
      (l = none → exec (.taskPost sd sa sb) s = done w 4)
      ∧ (∀ foot binds, l = some (foot, binds) →
        (w.schedulerFull q = true → exec (.taskPost sd sa sb) s = done w 1)
        ∧ (w.schedulerFull q = false → exec (.taskPost sd sa sb) s
            = done (w.enqueue t.id.asid q card foot binds (s.ownCard t)) 0)))

/-! ## Tokens, hints, forwarding -/

/-- R281: `tok.poll` has head 0x5F40 and layout S32 with sB and imm17 zero; it writes 1 where sA is pending and 0 where it is
not, without waiting for sA; sD equal to sA takes ILL_RSV. -/
def Obligations.TokenPoll : Prop :=
  ∀ (sd sa b : SReg) (imm : BitVec 17),
    decode 0x5F40 (s32Tail sd sa b imm) = (if sd ≠ sa ∧ b = 0 ∧ imm = 0 then .ok (.tokPoll sd sa) else .error .illRsv)
    ∧ (sd ≠ sa → ∀ s t, Ready s t [sd] →
      exec (.tokPoll sd sa) s = .next (s.put (t.setS sd (if sa ≠ 0 ∧ t.tokp.getLsbD sa.toNat = true then 1 else 0)).advance))

/-- R283: `tier.hint` changes nothing but the PC. -/
def Sys2Proof.TierHint : Prop :=
  ∀ (sa sb : SReg) (tier : Tier), Moves (.tierHint sa sb tier) [sa, sb] (fun _ t => t.advance)

/-- A byte address on a page with line state whose line is not forwarded. -/
def Sys2Proof.Unforwarded (s : State) (c : Ctx) (va : Word) (need : Need) : Prop :=
  canonical va = true ∧ s.denied c (va52 va) = none ∧ ∃ e, s.tlbHit c.asid (va52 va) = some e ∧ ptePermits e.pte need = true
    ∧ hasLines (pteAttr e.pte) = true ∧ s.lineState (lineOf (entryHome e (va52 va))) ≠ some .forwarded
    ∧ s.closed (lineOf (entryHome e (va52 va))) = false ∧ s.soft.contains (lineOf (entryHome e (va52 va))) = false

/-- A readable address that is its own: its page has no lines, or its line is not forwarded (R131, R282). -/
def Sys2Proof.Itself (s : State) (c : Ctx) (va : Word) : Prop :=
  Unforwarded s c va .read ∨ canonical va = true ∧ s.denied c (va52 va) = none ∧ ∃ e, s.tlbHit c.asid (va52 va) = some e ∧ ptePermits e.pte .read = true
    ∧ hasLines (pteAttr e.pte) = false

/-- R131 to R136, R282: the forwarding instructions on lines that are not forwarded: `fwd.res` gives its address, `fwd.cmp`
compares two addresses unsigned, `fwd.stat` gives the state of the line and an empty chain, `fwd.relink` and `fwd.clear`
leave a line that is not in move as it is. Nothing is outstanding of the strand's accesses. That `fwd.cmp` takes also a pair of
which one pointer is on a page without lines is the model's choice (log 55). -/
def Sys2Proof.ForwardingOffChain : Prop :=
  ∀ (s : State) (t : Strand) (sd sa sb : SReg), t.acc = none →
    let done (u : Strand) : Out := .next ((s.endSvc (.strand t.id.sid)).put u.advance)
    let clear := { t with busy := false }
    (Ready s t [sd, sa] → Itself s t.ctx (t.getS sa) →
      exec (.fwdRes sd sa) s = done (clear.setS sd (t.getS sa)))
    ∧ (Ready s t [sd, sa, sb] → Itself s t.ctx (t.getS sa) → Itself s t.ctx (t.getS sb) →
      exec (.fwdCmp sd sa sb) s = done (clear.setS sd
        (if (t.getS sa).toNat = (t.getS sb).toNat then 0 else if (t.getS sb).toNat < (t.getS sa).toNat then 1
          else BitVec.allOnes 64)))
    ∧ (Ready s t [sd, sa] → Unforwarded s t.ctx (t.getS sa) .read →
      ∃ e, s.tlbHit t.id.asid (va52 (t.getS sa)) = some e ∧
        exec (.fwdStat sd sa) s = done (clear.setS sd
          (BitVec.ofNat 64 (match s.lineState (lineOf (entryHome e (va52 (t.getS sa)))) with
            | some .plain => 0 | some .inMove => 1 + 16 * 1 | some .forwarded => 2 | none => 3 + 16 * 3))))
    ∧ (Ready s t [sa] → Unforwarded s t.ctx (t.getS sa) .write →
      (∀ e, s.tlbHit t.id.asid (va52 (t.getS sa)) = some e →
        s.lineState (lineOf (entryHome e (va52 (t.getS sa)))) ≠ some .inMove) →
      exec (.fwdRelink sa) s = done clear)
    ∧ (Ready s t [sa] → Unforwarded s t.ctx (t.getS sa) .reclaim →
      (∀ e, s.tlbHit t.id.asid (va52 (t.getS sa)) = some e →
        s.lineState (lineOf (entryHome e (va52 (t.getS sa)))) ≠ some .inMove) →
      exec (.fwdClear sa) s = done clear)

/-- R120, R122, R131, R136: on a forwarded line with a record of the strand's own address space, `fwd.res` follows one record
to the address it names where that line is not forwarded, and `fwd.clear`, where nothing it redirected is outstanding or waits there, makes
the line plain with every byte 0 and changes no other byte. -/
def Sys2Proof.ForwardingOneHop : Prop :=
  ∀ (s : State) (t : Strand) (sd sa : SReg) (e e' : TlbEntry),
    let va := t.getS sa
    let l := lineOf (entryHome e (va52 va))
    let r := s.lineRecord l
    let va' := recTarget r ||| (va &&& 127)
    s.memOk → t.acc = none → s.denied t.ctx (va52 va) = none → s.denied t.ctx (va52 va') = none →
    canonical va = true → s.tlbHit t.id.asid (va52 va) = some e → hasLines (pteAttr e.pte) = true →
    s.lineState l = some .forwarded → s.soft.contains l = false → s.closed l = false →
    (Ready s t [sd, sa] → ptePermits e.pte .read = true → recAsid r = t.id.asid →
      s.tlbHit t.id.asid (va52 va') = some e' → ptePermits e'.pte .read = true → hasLines (pteAttr e'.pte) = true →
      s.lineState (lineOf (entryHome e' (va52 va'))) ≠ some .forwarded → s.closed (lineOf (entryHome e' (va52 va'))) = false →
      exec (.fwdRes sd sa) s
        = .next ((s.endSvc (.strand t.id.sid)).put ({ t with busy := false }.setS sd va').advance))
    ∧ (Ready s t [sa] → ptePermits e.pte .reclaim = true → Cells.find s.redirects l = none → s.awaited t.id.asid l = false →
      ∃ s', exec (.fwdClear sa) s = .next s' ∧ s'.strand t.id.sid = some { t with busy := false }.advance
        ∧ s'.lineState l = some .plain ∧ (∀ k, k ≠ l → s'.lineState k = s.lineState k)
        ∧ (∀ a, Memory.get s'.mem a = if a / 128 = l then 0 else Memory.get s.mem a))

/-! ## Dispatch of the vector queue -/

/-- R17, R20, R156 to R158, R161, R162: a chained vector-queue instruction. One that starts a convoy (its C bit set, or the first
after a closing) closes the open one and enters the VIQ behind its entries with its PC, `vl`, `vtype` and scalar operands; where
it must wait for a register, or finds the VIQ or the result queue full, it waits and the open convoy closes. One that may join
the open convoy enters it; where the VIQ or the result queue is full it waits. Nothing else changes. One that may not takes
ILL_CONVOY or ILL_CHAIN behind the queued entries, unless an older fault waits; that its record has SIDE 1 is the model's choice
(log 41). -/
def Sys2Proof.ChainedDispatchClause : Prop :=
  ∀ (s : State) (t : Strand) (i : Instr) (u : Uses), s.curStrand = some t → uses t.vtype i = some u →
    let entered (cs : Bool) : State := s.put { t with
      pc := t.pc + 2, seq := true, moved := true, hold := none, copen := true, fresh := false
      viq := t.viq ++ [⟨i, t.pc, cs, t.vl, t.vtype, u.ops.map t.getS, 0, [], false, none, false, none, t.gen, false, none, [], []⟩] }
    let full : Prop := t.resultsFull i = true ∨ 64 ≤ t.viq.length
    ((u.c = true ∨ t.fresh = true) →
      (t.mustWait (u.scalars i) = false → ¬ full → exec i s = .next (entered true))
      ∧ (t.mustWait (u.scalars i) = true ∨ full →
        exec i s = .next (s.put { t with stalled := true, copen := false, fresh := true })))
    ∧ (u.c = false → t.fresh = false →
      (joinCause t.openConvoy i u = none → (∀ r ∈ u.scalars i, t.isReserved r = false ∧ t.isPending r = false) →
        (¬ full → exec i s = .next (entered false))
        ∧ (full → exec i s = .next (s.put { t with stalled := true })))
      ∧ (∀ c, joinCause t.openConvoy i u = some c → t.acc = none → t.viq ≠ [] →
        exec i s = .next (s.put { t with
          copen := false, fresh := true, stalled := true, hold := none
          vfault := t.vfault.orElse fun _ => some ⟨t.viq.length, ⟨c, 0, 0, 0, true, t.pc⟩, 0, none⟩ })))

/-- R20: an instruction finds the result queue full where sixteen values are reserved or wait in it. -/
def Sys2Proof.ResultQueueLimit : Prop :=
  ∀ (t : Strand) (i : Instr), t.resultsFull i = true ↔ (resultReg i).isSome = true ∧
    16 ≤ (t.viq.countP fun e => !e.given && (resultReg e.i).isSome) + t.rq.length

/-! ## Vector arithmetic -/

/-- Element n of a source group of an entry's width. -/
def Sys2Proof.elem (t : Strand) (e : Entry) (r : VReg) (n : Nat) : Nat :=
  elemGet t.v t.q r.toNat (ewOf e.vtype) n

/-- The bits of an element under a tag (R72): an E3M2 or E2M3 element has the lower six of its byte, the others are read and
written as 0. -/
def Sys2Proof.keptBits (ty : Tag) (x : Nat) : Nat :=
  if ty = .e3m2 ∨ ty = .e2m3 then x % 64 else x

/-- The number a scalar operand of an entry gives a vector instruction: its low EW bits. -/
def Sys2Proof.scalarOp (e : Entry) (k : Nat) : Nat :=
  (e.ops.getD k 0).toNat % 2 ^ ewOf e.vtype

/-- Performed alone under a legal setting, on sources of one tag `ty` it accepts, apart from its destination or equal to it,
the instruction writes `g` of each active element under the mask into its group, which takes that tag. -/
def Sys2Proof.WritesGroup (i : Instr) (vd : VReg) (srcs : List VReg) (m : MaskOp) (accept : Tag → Bool)
    (g : Strand → Entry → Tag → Nat → Nat × Flags) : Prop :=
  ∀ (s : State) (sid : Nat) (t : Strand) (e : Entry) (ty : Tag), Alone s sid t e → Setting t e → e.i = i →
    groupOk vd.toNat (groupSize e.vtype (ewOf e.vtype)) = true → accept ty = true →
    (∀ r ∈ srcs, SourceGroup t e.vtype r (ewOf e.vtype) ty ∧ Clear e.vtype vd (ewOf e.vtype) r (ewOf e.vtype)) →
    Performs s sid e none fun s' t' =>
      Wrote s s' t t' e vd.toNat (ewOf e.vtype) ty fun n => under t e m n (g t e ty n)

/-- The integer an element stands for under its tag (R66). -/
def Sys2Proof.intOf (ty : Tag) (w x : Nat) : Int :=
  if ty.isSigned then (BitVec.ofNat w x).toInt else (x : Int)

/-- An integer in EW bits (R67): its low bits, or with `.sat` the nearest limit of the tag and SAT. -/
def Sys2Proof.narrowed (ty : Tag) (w : Nat) (sat : Bool) (v : Int) : Nat × Flags :=
  let lo : Int := if ty.isSigned then -2 ^ (w - 1) else 0
  let hi : Int := if ty.isSigned then 2 ^ (w - 1) - 1 else 2 ^ w - 1
  if sat ∧ v < lo then ((BitVec.ofInt w lo).toNat, 32) else if sat ∧ hi < v then ((BitVec.ofInt w hi).toNat, 32)
  else ((BitVec.ofInt w v).toNat, 0)

/-- The results of R203 for EW bits a, b and vD[e]: vadd, vsub, vmul, vmulh, vmadd, vmin, vmax, vand, vor, vxor, vshl, vshr,
vsar. -/
def Sys2Proof.intResult (w : Nat) (ty : Tag) (sat : Bool) (a b d : Nat) : List (Nat × Flags) :=
  let x := intOf ty w a
  let y := intOf ty w b
  [narrowed ty w sat (x + y), narrowed ty w sat (x - y), ((BitVec.ofInt w (x * y)).toNat, 0),
   ((BitVec.ofInt w (x * y / 2 ^ w)).toNat, 0), ((BitVec.ofInt w (x * y + intOf ty w d)).toNat, 0),
   (if x ≤ y then a else b, 0), (if x ≤ y then b else a, 0), (Nat.land a b, 0), (Nat.lor a b, 0), (Nat.xor a b, 0),
   ((BitVec.ofNat w a <<< (b % w)).toNat, 0), ((BitVec.ofNat w a >>> (b % w)).toNat, 0),
   (((BitVec.ofNat w a).sshiftRight (b % w)).toNat, 0)]

/-- R203, R48, R50, R52, R67, R90: what the vector integer instructions leave, with a vector and with a scalar second
operand. -/
def Obligations.VectorIntegerResults : Prop :=
  ∀ (a : Vv) (b : Vx) (k : Nat), k < 13 →
    let accept (named : Tag) (ty : Tag) : Bool :=
      (ty.isInt || decide (7 ≤ k) && ty == .raw) && (named == .raw || named == ty)
    WritesGroup ([Instr.vadd a, .vsub a, .vmul a, .vmulh a, .vmadd a, .vmin a, .vmax a, .vand a, .vor a, .vxor a, .vshl a,
        .vshr a, .vsar a].getD k .nop) a.vd ([a.va, a.vb] ++ if k = 4 then [a.vd] else []) a.m (accept a.ty)
      (fun t e ty n => (intResult (ewOf e.vtype) ty a.sat (elem t e a.va n) (elem t e a.vb n) (elem t e a.vd n)).getD k (0, 0))
    ∧ WritesGroup ([Instr.vaddX b, .vsubX b, .vmulX b, .vmulhX b, .vmaddX b, .vminX b, .vmaxX b, .vandX b, .vorX b, .vxorX b,
        .vshlX b, .vshrX b, .vsarX b].getD k .nop) b.vd ([b.va] ++ if k = 4 then [b.vd] else []) b.m (accept b.ty)
      (fun t e ty n => (intResult (ewOf e.vtype) ty b.sat (elem t e b.va n) (scalarOp e 0) (elem t e b.vd n)).getD k (0, 0))

/-- The results of R204 in a format: vfadd, vfsub, vfmul, vfdiv, vfmin, vfmax, vfma, vfsqrt. -/
def Sys2Proof.floatResult (f : Fmt) (rm : Rm) (sat : Bool) (a b d : Nat) : List (Nat × Flags) :=
  let x := f.unpack a
  let y := f.unpack b
  [f.deliver rm sat (exAdd rm x y), f.deliver rm sat (exAdd rm x y.neg), f.deliver rm sat (exMul x y),
   f.deliver rm sat (exDiv x y), f.minMax false a b, f.minMax true a b, f.deliver rm sat (exFma rm x y (f.unpack d)),
   f.deliver rm sat (exSqrt x)]

/-- The rounding mode of an instruction: its own, or RM of `vtype` (R75, R198). -/
def Sys2Proof.modeOf (e : Entry) (rm : Option Rm) : Rm :=
  rm.getD (if e.vtype.toNat / 256 % 4 = 0 then .rne else if e.vtype.toNat / 256 % 4 = 1 then .rtz
    else if e.vtype.toNat / 256 % 4 = 2 then .rdn else .rup)

/-- The tags of float arithmetic with the tag TY names, or any (R204). -/
def Sys2Proof.floatAccept (named : Tag) (ty : Tag) : Bool :=
  (ty == .f16 || ty == .bf16 || ty == .f32 || ty == .f64) && (named == .raw || named == ty)

/-- R204 to R206, R74: what the vector float instructions leave, and the scaling of `vscale` by E8M0 codes. -/
def Sys2Proof.VectorFloatResults : Prop :=
  ∀ (a : Vv) (b : Vx) (c : V1),
    let fmt (ty : Tag) : Fmt := ty.fmt.getD fmtF64
    (∀ k < 7, WritesGroup ([Instr.vfadd a, .vfsub a, .vfmul a, .vfdiv a, .vfmin a, .vfmax a, .vfma a].getD k .nop) a.vd
      ([a.va, a.vb] ++ if k = 6 then [a.vd] else []) a.m (floatAccept a.ty)
      (fun t e ty n => (floatResult (fmt ty) (modeOf e a.rm) a.sat (elem t e a.va n) (elem t e a.vb n)
        (elem t e a.vd n)).getD k (0, 0)))
    ∧ (∀ k < 6, WritesGroup ([Instr.vfaddX b, .vfsubX b, .vfmulX b, .vfdivX b, .vfminX b, .vfmaxX b].getD k .nop) b.vd [b.va]
      b.m (floatAccept b.ty)
      (fun t e ty n => (floatResult (fmt ty) (modeOf e b.rm) b.sat (elem t e b.va n) (scalarOp e 0) 0).getD k (0, 0)))
    ∧ WritesGroup (.vfsqrt c) c.vd [c.va] c.m (floatAccept c.ty)
      (fun t e ty n => (floatResult (fmt ty) (modeOf e c.rm) c.sat (elem t e c.va n) 0 0).getD 7 (0, 0))
    ∧ WritesGroup (.vfrcpE c) c.vd [c.va] c.m (floatAccept c.ty)
      (fun t e ty n => rcpEstimate (fmt ty) ((fmt ty).unpack (elem t e c.va n)))
    ∧ ∀ (s : State) (sid : Nat) (t : Strand) (e : Entry) (ty : Tag), Alone s sid t e → Setting t e → e.i = .vscale a →
      groupOk a.vd.toNat (groupSize e.vtype (ewOf e.vtype)) = true → floatAccept a.ty ty = true →
      SourceGroup t e.vtype a.va (ewOf e.vtype) ty → Clear e.vtype a.vd (ewOf e.vtype) a.va (ewOf e.vtype) →
      SourceGroup t e.vtype a.vb 8 .e8m0 → Clear e.vtype a.vd (ewOf e.vtype) a.vb 8 →
      Performs s sid e none fun s' t' => Wrote s s' t t' e a.vd.toNat (ewOf e.vtype) ty fun n =>
        let k := elemGet t.v t.q a.vb.toNat 8 n
        under t e a.m n (if k = 255 then ((fmt ty).nanBits, 64) else match (fmt ty).unpack (elem t e a.va n) with
          | .nan q => ((fmt ty).nanBits, if q then 1 else 0)
          | .inf q => ((fmt ty).infBits q, 0)
          | .fin q m x => (fmt ty).round (modeOf e a.rm) a.sat q m (x + k - 127))

/-- R205: the estimate of 1/a for a finite nonzero a of a format: where 1/a exceeds the largest finite value an infinity of
a's sign and OF; else 1/a cut toward zero to 8 significant bits (q × 2^k with 128 ≤ q < 256), cut again to the format, and
no flag. An infinity gives a zero, a zero an infinity and DZ, a NaN the canonical NaN. -/
def Sys2Proof.ReciprocalEstimate : Prop :=
  ∀ f ∈ [fmtF16, fmtBf16, fmtF32, fmtF64], ∀ x : Nat,
    (∀ n, f.unpack x = .inf n → rcpEstimate f (.inf n) = (if n then f.signBit else 0, 0))
    ∧ (∀ q, f.unpack x = .nan q → rcpEstimate f (.nan q) = (f.nanBits, if q then 1 else 0))
    ∧ ∀ n m e, f.unpack x = .fin n m e →
      (m = 0 → rcpEstimate f (.fin n m e) = (f.infBits n, 2))
      ∧ (m ≠ 0 → ∃ (q : Nat) (k : Int) (top : Rat), codeRat f (f.maxBits false) = some top
        ∧ 128 ≤ q ∧ q < 256 ∧ (q : Rat) * 2 ^ k * (m * 2 ^ e) ≤ 1 ∧ 1 < ((q : Rat) + 1) * 2 ^ k * (m * 2 ^ e)
        ∧ rcpEstimate f (.fin n m e) = if top * (m * 2 ^ e) < 1 then (f.infBits n, 4) else ((f.round .rtz false n q k).1, 0))

/-! ## Masks, selects, moves, tags -/

/-- The relations of R207 on EW bits: eq, ne, lt, ge, lt.n, ge.n, feq, flt, fle, fun. -/
def Sys2Proof.relResult (w : Nat) (ty : Tag) (a b : Nat) : List (Bool × Flags) :=
  let x := (BitVec.ofNat w a).toInt
  let y := (BitVec.ofNat w b).toInt
  let f := ty.fmt.getD fmtF64
  let u := f.unpack a
  let v := f.unpack b
  let quiet : Flags := if u = .nan true ∨ v = .nan true then 1 else 0
  let any : Flags := if u.isNan ∨ v.isNan then 1 else 0
  let num := !u.isNan && !v.isNan
  [(decide (a = b), 0), (decide (a ≠ b), 0), (decide (x < y), 0), (decide (y ≤ x), 0), (decide (a < b), 0),
   (decide (b ≤ a), 0), (num && !u.lt v && !v.lt u, quiet), (u.lt v, any), (num && !v.lt u, any),
   (u.isNan || v.isNan, quiet)]

/-- R207 to R209, R47: compares into a mask register, `kand`, `kor`, `knot` over every element, `vsel`. -/
def Sys2Proof.CompareMaskSelectResults : Prop :=
  ∀ (s : State) (sid : Nat) (t : Strand) (e : Entry), Alone s sid t e → Setting t e →
    let w := ewOf e.vtype
    (∀ (a : Vk) (ty : Tag) (k : Nat), k < 10 →
      e.i = [Instr.vcmpEq a, .vcmpNe a, .vcmpLt a, .vcmpGe a, .vcmpLtN a, .vcmpGeN a, .vcmpFeq a, .vcmpFlt a, .vcmpFle a,
        .vcmpFun a].getD k .nop →
      SourceGroup t e.vtype a.va w ty → SourceGroup t e.vtype a.vb w ty →
      (if k < 6 then (ty.isInt || ty == .raw) && (a.ty == .raw || a.ty == ty) else floatAccept a.ty ty) = true →
      Performs s sid e none fun s' t' => WroteMask s s' t t' e a.kd fun n =>
        let r := (relResult w ty (elem t e a.va n) (elem t e a.vb n)).getD k (false, 0)
        under t e a.m n (if r.1 then 1 else 0, r.2))
    ∧ (∀ (c : Bool) (kd ka kb : KReg), e.i = .kand c kd ka kb →
      Performs s sid e none fun s' t' => WroteMask s s' t t' e kd fun n =>
        (.val (if maskBit t.k ka n && maskBit t.k kb n then 1 else 0), 0))
    ∧ (∀ (c : Bool) (kd ka kb : KReg), e.i = .kor c kd ka kb →
      Performs s sid e none fun s' t' => WroteMask s s' t t' e kd fun n =>
        (.val (if maskBit t.k ka n || maskBit t.k kb n then 1 else 0), 0))
    ∧ (∀ (c : Bool) (kd ka : KReg), e.i = .knot c kd ka →
      Performs s sid e none fun s' t' => WroteMask s s' t t' e kd fun n =>
        (.val (if maskBit t.k ka n then 0 else 1), 0))
    ∧ ∀ (a : Vp) (ty : Tag), e.i = .vsel a → groupOk a.vd.toNat (groupSize e.vtype w) = true →
      SourceGroup t e.vtype a.va w ty → SourceGroup t e.vtype a.vb w ty → Clear e.vtype a.vd w a.va w →
      Clear e.vtype a.vd w a.vb w →
      Performs s sid e none fun s' t' => Wrote s s' t t' e a.vd.toNat w ty fun n =>
        (.val (keptBits ty (if admits t.k a.m n then elem t e a.va n else elem t e a.vb n)), 0)

/-- R211, R212, R216: `vbcast`, `vmv.sx`, `vmv.xs` and `vtag`. -/
def Sys2Proof.MoveAndTagResults : Prop :=
  ∀ (s : State) (sid : Nat) (t : Strand) (e : Entry), Alone s sid t e → Setting t e →
    let w := ewOf e.vtype
    (∀ (c : Bool) (vd : VReg) (sa : SReg) (ty : Tag) (m : MaskOp), e.i = .vbcast c vd sa ty m →
      groupOk vd.toNat (groupSize e.vtype w) = true → (ty = .raw ∨ ty.width = some w) →
      Performs s sid e none fun s' t' => Wrote s s' t t' e vd.toNat w ty fun n => under t e m n (keptBits ty (scalarOp e 0), 0))
    ∧ (∀ (c : Bool) (vd : VReg) (sa sb : SReg) (ty : Tag), e.i = .vmvSx c vd sa sb ty →
      groupOk vd.toNat (groupSize e.vtype w) = true → (ty = .raw ∨ ty.width = some w) →
      Performs s sid e none fun s' t' => Wrote s s' t t' e vd.toNat w ty fun n =>
        (if n = (e.ops.getD 1 0).toNat then .val (keptBits ty (scalarOp e 0)) else if muOf e.vtype then .zero else .keep, 0))
    ∧ (∀ (c : Bool) (sd : SReg) (va : VReg) (sb : SReg) (ty : Tag), e.i = .vmvXs c sd va sb →
      SourceGroup t e.vtype va w ty →
      let n := (e.ops.getD 0 0).toNat
      Performs s sid e (some (if n < e.vl then BitVec.ofInt 64 (intOf ty w (keptBits ty (elem t e va n))) else 0))
        fun s' t' => Delivered s s' t t' e [])
    ∧ ∀ (c : Bool) (vd va : VReg) (old ty : Tag), e.i = .vtag c vd va ty →
      groupOk vd.toNat (groupSize e.vtype w) = true → Clear e.vtype vd w va w →
      groupOk va.toNat (groupSize e.vtype w) = true →
      (∀ n, va.toNat ≤ n → n < va.toNat + groupSize e.vtype w → (regAt t.v n).tag = old) →
      Performs s sid e none fun s' t' => s' = { s with strands := s'.strands, svcs := s'.svcs, freeCtr := s'.freeCtr }
        ∧ t' = { t with v := t'.v, viq := t'.viq, xch := .none, held := none }
        ∧ (∀ n < vlmaxOf t.q e.vtype, elemGet t'.v t.q vd.toNat w n = elem t e va n)
        ∧ (∀ r, OutsideGroup vd.toNat (groupSize e.vtype w) r → regAt t'.v r = regAt t.v r)
        ∧ ∀ r, vd.toNat ≤ r → r < vd.toNat + groupSize e.vtype w → (regAt t'.v r).tag = ty

/-! ## Values for the scalar side -/

/-- The elements of a reduction, its seed first (R213). -/
def Sys2Proof.reduced (t : Strand) (e : Entry) (a : Red) : List Nat :=
  (if a.seed then [scalarOp e 0] else []) ++ ((List.range e.vl).filter (admits t.k a.m)).map (elem t e a.vb)

/-- The tree of R88: level 0 holds the elements, level k + 1 the rounded sums of neighbours. -/
def Sys2Proof.treeNode (add : Nat → Nat → Nat) (x : Nat → Nat) : (k i : Nat) → Nat
  | 0, i => x i
  | k + 1, i => add (treeNode add x k (2 * i)) (treeNode add x k (2 * i + 1))

/-- R87, R88, R210, R213: `kpop` counts, `kfirst` finds the lowest, reductions combine the active elements, after the seed
where there is one: integers modulo 2^EW or by their order, floats in element order or in a tree, or by R80. -/
def Obligations.ReductionResults : Prop :=
  ∀ (s : State) (sid : Nat) (t : Strand) (e : Entry), Alone s sid t e → Setting t e →
    let w := ewOf e.vtype
    (∀ (c : Bool) (sd : SReg) (ka : KReg) (m : MaskOp),
      let hit (n : Nat) : Bool := maskBit t.k ka n && admits t.k m n
      (e.i = .kpop c sd ka m → Performs s sid e (some (BitVec.ofNat 64 ((List.range e.vl).countP hit)))
        fun s' t' => Delivered s s' t t' e [])
      ∧ (e.i = .kfirst c sd ka m → (∀ n < e.vl, hit n = false) →
        Performs s sid e (some (BitVec.allOnes 64)) fun s' t' => Delivered s s' t t' e [])
      ∧ ∀ n < e.vl, e.i = .kfirst c sd ka m → hit n = true → (∀ k < n, hit k = false) →
        Performs s sid e (some (BitVec.ofNat 64 n)) fun s' t' => Delivered s s' t t' e [])
    ∧ (∀ (a : Red) (ty : Tag), SourceGroup t e.vtype a.vb w ty → ty.isInt = true → (a.ty = .raw ∨ a.ty = ty) →
      let xs := (reduced t e a).map (intOf ty w)
      let lo : Int := if ty.isSigned then -2 ^ (w - 1) else 0
      let hi : Int := if ty.isSigned then 2 ^ (w - 1) - 1 else 2 ^ w - 1
      let value (v : Int) : Word := BitVec.ofInt 64 (intOf ty w (BitVec.ofInt w v).toNat)
      (e.i = .vredAddO a ∨ e.i = .vredAddT a →
        Performs s sid e (some (value xs.sum)) fun s' t' => Delivered s s' t t' e [])
      ∧ (e.i = .vredMin a → Performs s sid e (some (value (xs.foldl min hi))) fun s' t' => Delivered s s' t t' e [])
      ∧ (e.i = .vredMax a → Performs s sid e (some (value (xs.foldl max lo))) fun s' t' => Delivered s s' t t' e []))
    ∧ ∀ (a : Red) (ty : Tag), SourceGroup t e.vtype a.vb w ty → floatAccept a.ty ty = true →
      let f := ty.fmt.getD fmtF64
      let rm := modeOf e a.rm
      let canon (x : Nat) : Nat := if (f.unpack x).isNan then f.nanBits else x
      let add (x y : Nat) : Nat := (f.deliver rm a.sat (exAdd rm (f.unpack x) (f.unpack y))).1
      let order (pick : Nat → Nat → Nat) (none : Nat) : Nat := canon (match reduced t e a with
        | [] => none
        | x :: l => l.foldl pick x)
      (e.i = .vredAddO a → ∃ fl, Performs s sid e (some (BitVec.ofNat 64 (order add 0)))
        fun s' t' => Delivered s s' t t' e fl)
      ∧ (e.i = .vredMin a → ∃ fl, Performs s sid e (some (BitVec.ofNat 64
          (order (fun x y => (f.minMax false x y).1) (f.infBits false)))) fun s' t' => Delivered s s' t t' e fl)
      ∧ (e.i = .vredMax a → ∃ fl, Performs s sid e (some (BitVec.ofNat 64
          (order (fun x y => (f.minMax true x y).1) (f.infBits true)))) fun s' t' => Delivered s s' t t' e fl)
      ∧ (e.i = .vredAddT a → ∀ p, e.vl ≤ 2 ^ p → (p = 0 ∨ 2 ^ (p - 1) < e.vl) →
        (∃ n < e.vl, admits t.k a.m n = true) →
        let top := treeNode add (fun n => if n < e.vl ∧ admits t.k a.m n then elem t e a.vb n else 0) p 0
        ∃ fl, Performs s sid e (some (BitVec.ofNat 64 (canon (if a.seed then add (scalarOp e 0) top else top))))
          fun s' t' => Delivered s s' t t' e fl)

/-! ## Conversions -/

/-- One element from a tag into another (R67, R77 to R79, R214): a widening of integers never saturates. -/
def Sys2Proof.converted (src dst : Tag) (w dw : Nat) (rm : Rm) (sat : Bool) (v : Nat) : Nat × Flags :=
  match src.fmt, dst.fmt with
  | none, none => narrowed dst dw (sat && decide (dw < w)) (intOf src w v)
  | none, some f => f.round rm sat (decide (intOf src w v < 0)) (intOf src w v).natAbs 0
  | some f, some g => g.deliver rm sat ⟨f.unpack v, if f.unpack v = .nan true then 1 else 0⟩
  | some f, none =>
    let lo : Int := if dst.isSigned then -2 ^ (dw - 1) else 0
    let hi : Int := if dst.isSigned then 2 ^ (dw - 1) - 1 else 2 ^ dw - 1
    match f.unpack v with
    | .nan _ => (0, 1)
    | .inf n => ((BitVec.ofInt dw (if n then lo else hi)).toNat, 1)
    | .fin n m x =>
      let r := roundToInt rm n m x
      if r.1 < lo then ((BitVec.ofInt dw lo).toNat, 1) else if hi < r.1 then ((BitVec.ofInt dw hi).toNat, 1)
      else ((BitVec.ofInt dw r.1).toNat, if r.2 then 16 else 0)

/-- R200, R214, R215: `vcvt.h` to half the width, `vcvt.d` to double, `vcvt.f32.e2m1` to 4 bits with one rounding. -/
def Obligations.VectorConversions : Prop :=
  ∀ (s : State) (sid : Nat) (t : Strand) (e : Entry) (a : V1) (src : Tag), Alone s sid t e → Setting t e →
    let w := ewOf e.vtype
    SourceGroup t e.vtype a.va w src → (src.isInt || src.fmt.isSome) = true →
    (∀ dw, (e.i = .vcvtH a ∧ 2 * dw = w ∧ 4 ≤ dw ∨ e.i = .vcvtD a ∧ dw = 2 * w ∧ w ≤ 32) →
      (a.ty.isInt || a.ty.fmt.isSome) = true → a.ty.width = some dw →
      groupOk a.vd.toNat (groupSize e.vtype dw) = true → Clear e.vtype a.vd dw a.va w →
      Performs s sid e none fun s' t' => Wrote s s' t t' e a.vd.toNat dw a.ty fun n =>
        under t e a.m n (converted src a.ty w dw (modeOf e a.rm) a.sat (elem t e a.va n)))
    ∧ (e.i = .vcvtF32E2m1 a → w = 32 → src = .f32 → groupOk a.vd.toNat (groupSize e.vtype 4) = true →
      Clear e.vtype a.vd 4 a.va 32 →
      Performs s sid e none fun s' t' => Wrote s s' t t' e a.vd.toNat 4 .e2m1 fun n =>
        under t e a.m n (converted .f32 .e2m1 32 4 (modeOf e a.rm) a.sat (elem t e a.va n)))

/-! ## Cross-element instructions -/

/-- The elements below `vl` a mask admits, in ascending order. -/
def Sys2Proof.activeElems (t : Strand) (e : Entry) (m : MaskOp) : List Nat :=
  (List.range e.vl).filter (admits t.k m)

/-- BLK of a `vtype` (R39). -/
def Sys2Proof.blockOf (e : Entry) : Nat :=
  if e.vtype.toNat / 64 % 4 = 0 then 1 else if e.vtype.toNat / 64 % 4 = 1 then 16
  else if e.vtype.toNat / 64 % 4 = 2 then 32 else 64

/-- The running sum of R229 after some values. -/
def Sys2Proof.runningSum (add : Nat → Nat → Nat) (l : List Nat) : Option Nat :=
  l.foldl (fun a v => some (match a with
    | none => v
    | some x => add x v)) none

/-- R226 to R229: permutes, slides, replication, compress, expand and scans; each reads its sources as they stood before it
writes. A scan starts from its first active element, a NaN as the canonical one, NV for a signalling one (R69). -/
def Obligations.CrossElementResults : Prop :=
  ∀ (s : State) (sid : Nat) (t : Strand) (e : Entry) (ty : Tag), Alone s sid t e → Setting t e →
    let w := ewOf e.vtype
    let placed (vd va : VReg) : Prop :=
      groupOk vd.toNat (groupSize e.vtype w) = true ∧ SourceGroup t e.vtype va w ty ∧ Clear e.vtype vd w va w
    let writes (vd : VReg) (g : Nat → Put × Flags) : Prop :=
      Performs s sid e none fun s' t' => Wrote s s' t t' e vd.toNat w ty g
    let k := (e.ops.getD 0 0).toNat
    (∀ (a : Vp) (ti : Tag), e.i = .vperm a → placed a.vd a.va → SourceGroup t e.vtype a.vb w ti →
      Clear e.vtype a.vd w a.vb w → (ti = .raw ∨ ti.isInt = true) →
      writes a.vd fun n => under t e a.m n (keptBits ty (if elem t e a.vb n < e.vl then elem t e a.va (elem t e a.vb n) else 0), 0))
    ∧ (∀ a : Vp, e.i = .vzip a → placed a.vd a.va → placed a.vd a.vb →
      writes a.vd fun n => under t e a.m n (keptBits ty (elem t e (if n % 2 = 0 then a.va else a.vb) (n / 2)), 0))
    ∧ (∀ a : Vs, e.i = .vslideUp a → placed a.vd a.va →
      writes a.vd fun n => if n < k then (.keep, 0) else under t e a.m n (keptBits ty (elem t e a.va (n - k)), 0))
    ∧ (∀ a : Vs, e.i = .vslideDn a → placed a.vd a.va →
      writes a.vd fun n => under t e a.m n (keptBits ty (if n + k < e.vl then elem t e a.va (n + k) else 0), 0))
    ∧ (∀ a : Vu, placed a.vd a.va →
      (e.i = .vunzip a → writes a.vd fun n =>
        under t e a.m n (keptBits ty (elem t e a.va (if n < (e.vl + 1) / 2 then 2 * n else 2 * (n - (e.vl + 1) / 2) + 1)), 0))
      ∧ (e.i = .vrepBlk a → writes a.vd fun n => under t e a.m n (keptBits ty (elem t e a.va (n / blockOf e)), 0))
      ∧ (e.i = .vcompress a → writes a.vd fun n =>
        (if n < (activeElems t e a.m).length then .val (keptBits ty (elem t e a.va ((activeElems t e a.m).getD n 0)))
          else if tuOf e.vtype then .zero else .keep, 0))
      ∧ (e.i = .vexpand a → writes a.vd fun n =>
        under t e a.m n (keptBits ty (elem t e a.va ((activeElems t e a.m).countP (· < n))), 0)))
    ∧ ∀ (a : V1) (excl : Bool), e.i = (if excl then .vscanAddx a else .vscanAdd a) → placed a.vd a.va →
      (ty.isInt || isArithFloat ty) = true → (a.ty = .raw ∨ a.ty = ty) →
      let f := ty.fmt.getD fmtF64
      let add (x y : Nat) : Nat × Flags := if ty.isInt then ((x + y) % 2 ^ w, 0)
        else f.deliver (modeOf e a.rm) a.sat (exAdd (modeOf e a.rm) (f.unpack x) (f.unpack y))
      writes a.vd fun n =>
        let v := elem t e a.va n
        let canon (x : Nat) : Nat := if ty.isInt = false ∧ (f.unpack x).isNan = true then f.nanBits else x
        under t e a.m n (match runningSum (fun x y => (add x y).1)
            (((activeElems t e a.m).filter (· < n)).map (elem t e a.va)) with
          | none => (if excl then 0 else canon v, if ty.isInt = false ∧ f.unpack v = .nan true then 1 else 0)
          | some x => (if excl then canon x else (add x v).1, (add x v).2))

/-- What R230 makes of two values with one index: a + b, a − b or the maximum, of integers modulo 2^EW and by the order of their
tag, of floats rounded once and by R80. -/
def Sys2Proof.mergeBoth (o : MergeOp) (tv : Tag) (w : Nat) (rm : Rm) (a b : Nat) : Nat × Flags :=
  match tv.fmt, o with
  | none, .add => ((BitVec.ofNat w (a + b)).toNat, 0)
  | none, .sub => ((BitVec.ofInt w (a - b)).toNat, 0)
  | none, .max => (if intOf tv w a < intOf tv w b then b else a, 0)
  | some f, .add => f.deliver rm false (exAdd rm (f.unpack a) (f.unpack b))
  | some f, .sub => f.deliver rm false (exAdd rm (f.unpack a) (f.unpack b).neg)
  | some f, .max => f.minMax true a b

/-- What R230 makes of a value whose index row B alone holds: itself, for sub its negation, modulo 2^EW or with the sign bit
changed, a NaN the canonical one with NV for a signalling one. -/
def Sys2Proof.mergeAlone (o : MergeOp) (tv : Tag) (w : Nat) (b : Nat) : Nat × Flags :=
  match o, tv.fmt with
  | .sub, none => ((BitVec.ofInt w (-b)).toNat, 0)
  | .sub, some f => if (f.unpack b).isNan then (f.nanBits, if f.unpack b = .nan true then 1 else 0)
      else (if b / 2 ^ (f.eb + f.mb) % 2 = 1 then b - 2 ^ (f.eb + f.mb) else b + 2 ^ (f.eb + f.mb), 0)
  | _, _ => (b, 0)

/-- The relation R230 gives an index, its value and its flags: of row A alone the value there, of both the two made one, of row
B alone what a lone value becomes. -/
def Sys2Proof.merged (o : MergeOp) (tv : Tag) (w : Nat) (rm : Rm) (as bs : List (Nat × Nat)) (k : Nat) (v : Nat × Flags) : Prop :=
  (∃ x y, (k, x) ∈ as ∧ (k, y) ∈ bs ∧ v = mergeBoth o tv w rm x y)
    ∨ ((∃ x, (k, x) ∈ as ∧ v = (x, 0)) ∧ ∀ y, (k, y) ∉ bs) ∨ ∃ y, (k, y) ∈ bs ∧ v = mergeAlone o tv w y ∧ ∀ x, (k, x) ∉ as

/-- R230, R80, R90: for rows with strictly rising indices the merge procedure gives each index of either row once, in rising order,
with the value R230 states, but with `.dz` those whose value is zero; each step's flags are raised at the output position being
formed, the number of indices given below its own. -/
def Sys2Proof.MergeOfSortedRows : Prop :=
  ∀ (o : MergeOp) (ti tv : Tag) (w : Nat) (rm : Rm) (dz : Bool) (vlmax : Nat) (as bs : List (Nat × Nat)), ti.isInt = true →
    ti.width = some w → tv.width = some w → (tv.isInt || tv.fmt.isSome) = true →
    (∀ p ∈ as ++ bs, p.1 < 2 ^ w ∧ p.2 < (match tv.fmt with
      | none => 2 ^ w
      | some f => 2 ^ (f.eb + f.mb + 1))) →
    as.Pairwise (fun p q => intOf ti w p.1 < intOf ti w q.1) → bs.Pairwise (fun p q => intOf ti w p.1 < intOf ti w q.1) →
    as.length + bs.length ≤ vlmax →
    let zero (v : Nat) : Bool := match tv.fmt with
      | none => v == 0
      | some f => (f.unpack v).isZero
    ∃ rows fl, mergeLoop o ti tv w rm dz vlmax (as.length + bs.length + 1) 0 as bs [] [] = some (rows, fl)
      ∧ rows.reverse.Pairwise (fun p q => intOf ti w p.1 < intOf ti w q.1)
      ∧ (∀ k v, (k, v) ∈ rows ↔ (∃ l, merged o tv w rm as bs k (v, l)) ∧ ¬ (dz = true ∧ zero v = true))
      ∧ ∀ n l, l ≠ 0 → ((n, l) ∈ fl ↔ ∃ k v, merged o tv w rm as bs k (v, l)
          ∧ n = rows.countP fun p => decide (intOf ti w p.1 < intOf ti w k))

/-- R230: `vmerge.u` merges the first nA and nB elements of its rows into both groups of its output, the elements above its
count under TU, raises flags by output position, and delivers the count; with more rows than VLMAX, or a count above `vl`, it
takes MERGE_RANGE before it writes, at element 0, which is the model's choice (log 38). -/
def Sys2Proof.MergeResults : Prop :=
  ∀ (s : State) (sid : Nat) (t : Strand) (e : Entry) (a : Merge) (o : MergeOp) (ti tv : Tag), Alone s sid t e → Setting t e →
    e.i = (match o with
      | .add => .vmergeUAdd a
      | .sub => .vmergeUSub a
      | .max => .vmergeUMax a) →
    let w := ewOf e.vtype
    let g := 2 ^ (e.vtype.toNat % 8)
    let pair (r : VReg) : Prop := r.toNat % g = 0 ∧ r.toNat + 2 * g ≤ 64
      ∧ (r = a.vd ∨ a.vd.toNat + 2 * g ≤ r.toNat ∨ r.toNat + 2 * g ≤ a.vd.toNat)
      ∧ (∀ n, r.toNat ≤ n → n < r.toNat + g → (regAt t.v n).tag = ti)
      ∧ ∀ n, r.toNat + g ≤ n → n < r.toNat + 2 * g → (regAt t.v n).tag = tv
    a.vd.toNat % g = 0 → a.vd.toNat + 2 * g ≤ 64 → pair a.va → pair a.vb → ti.isInt = true → ti.width = some w →
    (tv.isInt || tv.fmt.isSome) = true → tv.width = some w →
    let na := (e.ops.getD 0 0).toNat
    let nb := (e.ops.getD 1 0).toNat
    let row (r : VReg) (n : Nat) : List (Nat × Nat) :=
      (List.range n).map fun i => (elemGet t.v t.q r.toNat w i, keptBits tv (elemGet t.v t.q (r.toNat + g) w i))
    let result := mergeLoop o ti tv w (modeOf e a.rm) a.dz (vlmaxOf t.q e.vtype) (na + nb + 1) 0 (row a.va na) (row a.vb nb)
      [] []
    let stops : Prop := exec (.convoyStart sid) s = .next ((s.endSvc (.queue sid)).put
      { t with vfault := some ⟨0, ⟨.mergeRange, 0, 0, 0, false, e.pc⟩, 0, none⟩ })
    (e.vl < na ∨ e.vl < nb → stops)
    ∧ (na ≤ e.vl → nb ≤ e.vl → result = none → stops)
    ∧ ∀ rows fl, na ≤ e.vl → nb ≤ e.vl → result = some (rows, fl) →
      Performs s sid e (some (BitVec.ofNat 64 rows.length)) fun s' t' =>
        s' = { s with strands := s'.strands, svcs := s'.svcs, freeCtr := s'.freeCtr }
        ∧ t' = { t with v := t'.v, lflags := t'.lflags, viq := t'.viq, xch := .none, held := none }
        ∧ (∀ n < vlmaxOf t.q e.vtype, ∀ p ∈ [(a.vd.toNat, rows.reverse.map Prod.fst),
            (a.vd.toNat + g, rows.reverse.map Prod.snd)],
          elemGet t'.v t.q p.1 w n = if n < rows.length then p.2.getD n 0 % 2 ^ w
            else if tuOf e.vtype then 0 else elemGet t.v t.q p.1 w n)
        ∧ (∀ r, OutsideGroup a.vd.toNat (2 * g) r → regAt t'.v r = regAt t.v r)
        ∧ (∀ r, a.vd.toNat ≤ r → r < a.vd.toNat + 2 * g → (regAt t'.v r).tag = if r < a.vd.toNat + g then ti else tv)
        ∧ ∀ lane < 256, ∀ b < 7, t'.lflags.getLsbD (8 * lane + b)
          = (t.lflags.getLsbD (8 * lane + b) || fl.any fun p => p.1 % 256 == lane && p.2.getLsbD b)

/-! ## Vector memory -/

/-- The offset of an index element: sign-extended for I tags, shifted (R218). -/
def Sys2Proof.indexWord (ti : Tag) (w x : Nat) (sh : BitVec 2) : Word :=
  BitVec.ofInt 64 (intOf ti w x) <<< sh.toNat

/-- The address of element n of a unit-stride, strided or indexed access (R218). -/
def Sys2Proof.unitVa (e : Entry) (n : Nat) : Word :=
  e.ops.getD 0 0 + BitVec.ofNat 64 (n * ewOf e.vtype / 8)
def Sys2Proof.strideVa (e : Entry) (n : Nat) : Word :=
  e.ops.getD 0 0 + BitVec.ofNat 64 n * e.ops.getD 1 0
def Sys2Proof.indexVa (t : Strand) (e : Entry) (vb : VReg) (ti : Tag) (sh : BitVec 2) (n : Nat) : Word :=
  e.ops.getD 0 0 + indexWord ti (ewOf e.vtype) (elem t e vb n) sh

/-- R66, R217, R218, R220, R222: `vld`, `vlds`, `vldx` write each active element from the bytes at its address, two elements
of 4 bits from one byte; `vfwd.res` writes the addresses it is given where their lines are not forwarded. Only the
line buffer and the beats waited for data change besides (log 7). -/
def Sys2Proof.VectorLoadsClause : Prop :=
  ∀ (s : State) (sid : Nat) (t : Strand) (e : Entry) (ent : Nat → TlbEntry) (h : Nat → Nat), Alone s sid t e → Setting t e →
    let w := ewOf e.vtype
    let nb := if w = 4 then 1 else w / 8
    let loads (vd : VReg) (ty : Tag) (m : MaskOp) (va : Nat → Word) : Prop :=
      Performs s sid e none fun s' t' => Wrote s s' { t with lbuf := t'.lbuf } t' e vd.toNat w ty fun n =>
        under t e m n (keptBits ty (loadedValue s t (va n) nb (ent n) (h n) / 2 ^ bitsBelow w n), 0)
    let ready (vd : VReg) (ty : Tag) (m : MaskOp) (va : Nat → Word) : Prop :=
      groupOk vd.toNat (groupSize e.vtype w) = true ∧ (ty = .raw ∨ ty.width = some w)
        ∧ Reads s t e.vl (admits t.k m) va nb ent h
    (∀ a : Vmem, e.i = .vld a → ready a.vd a.ty a.m (unitVa e) → loads a.vd a.ty a.m (unitVa e))
    ∧ (∀ a : Vstr, e.i = .vlds a → w ≠ 4 → ready a.vd a.ty a.m (strideVa e) → loads a.vd a.ty a.m (strideVa e))
    ∧ (∀ (a : Vidx) (ti : Tag), e.i = .vldx a → w ≠ 4 → SourceGroup t e.vtype a.vb w ti → (ti = .raw ∨ ti.isInt = true) →
      Clear e.vtype a.vd w a.vb w → ready a.vd a.ty a.m (indexVa t e a.vb ti a.sh) →
      loads a.vd a.ty a.m (indexVa t e a.vb ti a.sh))
    ∧ ∀ (a : Vu) (ti : Tag), e.i = .vfwdRes a → groupOk a.vd.toNat (groupSize e.vtype 64) = true →
      SourceGroup t e.vtype a.va 64 ti → (ti = .raw ∨ ti.isInt = true) → Clear e.vtype a.vd 64 a.va 64 →
      (∀ n < e.vl, admits t.k a.m n = true →
        Itself s t.qctx (BitVec.ofNat 64 (elemGet t.v t.q a.va.toNat 64 n))) →
      Performs s sid e none fun s' t' => Wrote s s' t t' e a.vd.toNat 64 ti fun n =>
        under t e a.m n (elemGet t.v t.q a.va.toNat 64 n, 0)

/-- R66, R217 to R219, R221: `vst`, `vsts`, `vstx.o`, `vstx.n` store each active element at its address and no other byte. -/
def Obligations.VectorStores : Prop :=
  ∀ (s : State) (sid : Nat) (t : Strand) (e : Entry) (ty : Tag) (ent : Nat → TlbEntry) (h : Nat → Nat), s.memOk →
    Alone s sid t e → Setting t e →
    let w := ewOf e.vtype
    let nb := if w = 4 then 1 else w / 8
    let stores (vd : VReg) (m : MaskOp) (va : Nat → Word) : Prop := SourceGroup t e.vtype vd w ty →
      Writes s t e.vl (admits t.k m) va nb w ent h →
      Performs s sid e none fun s' t' => Stored s s' t t' e.vl (admits t.k m) nb w h fun n => keptBits ty (elem t e vd n)
    (∀ a : Vmem, e.i = .vst a → stores a.vd a.m (unitVa e))
    ∧ (∀ a : Vstr, e.i = .vsts a → w ≠ 4 → stores a.vd a.m (strideVa e))
    ∧ ∀ (a : Vidx) (ti : Tag), (e.i = .vstxO a ∨ e.i = .vstxN a) → w ≠ 4 → SourceGroup t e.vtype a.vb w ti →
      (ti = .raw ∨ ti.isInt = true) → stores a.vd a.m (indexVa t e a.vb ti a.sh)

/-- A little-endian number of `n` bytes. -/
def Sys2Proof.bytesNum (f : Nat → Nat) (n : Nat) : Nat :=
  (List.range n).foldr (fun i a => f i * 256 ^ i + a) 0

/-- The elements of a vector that a compressed block keeps, with the value stored (R224, R72). -/
def Sys2Proof.keptElems (t : Strand) (e : Entry) (a : Vstc) (ty : Tag) : List (Nat × Nat) :=
  ((List.range e.vl).map fun n =>
    (n, elem t e a.vd n % if ty = .e3m2 ∨ ty = .e2m3 then 64 else 2 ^ ewOf e.vtype)).filter
      fun p => admits t.k a.m p.1 && p.2 != 0

/-- R223 to R225: `vstc` stores the block of R223 and delivers its size, or with `.q` and too little room delivers its size
with bit 63 set and stores nothing; `vldc` reads a block whose header and bitmask agree and writes its elements, 0 where
none is present. -/
def Sys2Proof.CompressedBlocks : Prop :=
  ∀ (s : State) (sid : Nat) (t : Strand) (e : Entry) (ent : Nat → TlbEntry) (h : Nat → Nat), s.memOk → Alone s sid t e →
    Setting t e →
    let w := ewOf e.vtype
    let base := e.ops.getD 0 0
    let m := 8 * ((e.vl + 63) / 64)
    let va (i : Nat) : Word := base + BitVec.ofNat 64 i
    base.toNat % 8 = 0 → e.vl ≤ 65535 →
    (∀ (a : Vstc) (ty : Tag), e.i = .vstc a → SourceGroup t e.vtype a.vd w ty →
      let kept := keptElems t e a ty
      let size := 8 + m + (kept.length * w + 7) / 8
      let values := (List.range kept.length).foldr (fun i x => (kept.getD i (0, 0)).2 * 2 ^ (w * i) + x) 0
      let block := kept.length + 2 ^ 32 * e.vl + 2 ^ 48 * ty.code.toNat + 2 ^ 64 * (kept.foldr (fun p a => 2 ^ p.1 + a) 0)
        + 2 ^ (64 + 8 * m) * values
      (size ≤ (e.ops.getD 1 0).toNat → Writes s t size (fun _ => true) va 1 8 ent h →
        Performs s sid e (some (BitVec.ofNat 64 size)) fun s' t' =>
          Stored s s' t t' size (fun _ => true) 1 8 h fun i => block / 256 ^ i)
      ∧ ((e.ops.getD 1 0).toNat < size → a.q = true →
        Performs s sid e (some (BitVec.ofNat 64 (size + 2 ^ 63))) fun s' t' => Delivered s s' t t' e []))
    ∧ ∀ (a : Vmem) (ty : Tag) (vc : Nat), e.i = .vldc a → groupOk a.vd.toNat (groupSize e.vtype w) = true →
      (ty = .raw ∨ ty.width = some w) → (a.ty = .raw ∨ a.ty = ty) →
      let size := 8 + m + (vc * w + 7) / 8
      let block := bytesNum (fun i => loadedValue s t (va i) 1 (ent i) (h i)) size
      let set (n : Nat) : Bool := decide (block / 2 ^ (64 + n) % 2 = 1)
      Reads s t size (fun _ => true) va 1 ent h →
      block % 2 ^ 64 = vc + 2 ^ 32 * e.vl + 2 ^ 48 * ty.code.toNat → vc < 2 ^ 32 → vc = (List.range e.vl).countP set →
      (∀ n, e.vl ≤ n → n < 8 * m → set n = false) →
      Performs s sid e none fun s' t' => Wrote s s' { t with lbuf := t'.lbuf } t' e a.vd.toNat w ty fun n =>
        under t e a.m n (if set n then keptBits ty (block / 2 ^ (64 + 8 * m + w * (List.range n).countP set) % 2 ^ w) else 0, 0)

/-! ## Lane stores -/

/-- What a convoy leaves that changes only the strand's lane stores, flags among its other effects. -/
def Sys2Proof.OnlyLanes (s s' : State) (t t' : Strand) : Prop :=
  s' = { s with strands := s'.strands, svcs := s'.svcs, freeCtr := s'.freeCtr }
    ∧ t' = { t with lane := t'.lane, lflags := t'.lflags, viq := t'.viq, xch := .none, held := none }

/-- R104, R105, R232: `vlt.ld` reads and `vlt.st` writes element vB[e] of lane e mod 256, the last of several writes
standing; `vlt.fill` writes element sB + e of every lane. Each index lies within 256 × q bytes. -/
def Sys2Proof.LaneTableResults : Prop :=
  ∀ (s : State) (sid : Nat) (t : Strand) (e : Entry), Alone s sid t e → Setting t e →
    let w := ewOf e.vtype
    (∀ (a : Vlt) (ti : Tag), SourceGroup t e.vtype a.vb w ti → (ti = .raw ∨ ti.isInt = true) →
      (∀ n < e.vl, admits t.k a.m n = true → (elem t e a.vb n + 1) * w ≤ 2048 * t.q) →
      (e.i = .vltLd a → groupOk a.vd.toNat (groupSize e.vtype w) = true → (a.ty = .raw ∨ a.ty.width = some w) →
        Clear e.vtype a.vd w a.vb w →
        Performs s sid e none fun s' t' => Wrote s s' t t' e a.vd.toNat w a.ty fun n =>
          under t e a.m n (keptBits a.ty (laneGet t.lane (n % 256) (elem t e a.vb n * w) w), 0))
      ∧ ∀ ty : Tag, e.i = .vltSt a → SourceGroup t e.vtype a.vd w ty →
        Performs s sid e none fun s' t' => OnlyLanes s s' t t' ∧ t'.lflags = t.lflags
          ∧ ∀ lane < 256, ∀ k, (k + 1) * w ≤ 8192 → laneGet t'.lane lane (k * w) w
            = (List.range e.vl).foldl (fun x n => if admits t.k a.m n ∧ n % 256 = lane ∧ elem t e a.vb n = k
                then keptBits ty (elem t e a.vd n) else x) (laneGet t.lane lane (k * w) w))
    ∧ ∀ (a : Vs) (ty : Tag), e.i = .vltFill a → SourceGroup t e.vtype a.vd w ty →
      let k0 := (e.ops.getD 0 0).toNat
      (∀ n < e.vl, admits t.k a.m n = true → (k0 + n + 1) * w ≤ 2048 * t.q) →
      Performs s sid e none fun s' t' => OnlyLanes s s' t t' ∧ t'.lflags = t.lflags
        ∧ ∀ lane < 256, ∀ k, (k + 1) * w ≤ 8192 → laneGet t'.lane lane (k * w) w
          = if k0 ≤ k ∧ k < k0 + e.vl ∧ admits t.k a.m (k - k0) then keptBits ty (elem t e a.vd (k - k0)) else laneGet t.lane lane (k * w) w

/-- R276: `vwacc.add` adds each active element, in element order, to the word of the open window that its index names in lane
e mod 256: modulo 2^EW for integers, rounded for floats, whose flags it raises in that lane; no other byte changes. -/
def Sys2Proof.WindowUpdates : Prop :=
  ∀ (s : State) (sid : Nat) (t : Strand) (e : Entry) (a : Vwacc) (ti : Tag) (wd : Window), Alone s sid t e → Setting t e →
    e.i = .vwaccAdd a → t.win = some wd →
    let w := ewOf e.vtype
    SourceGroup t e.vtype a.va w wd.ty → (wd.ty.isInt || isArithFloat wd.ty) = true → SourceGroup t e.vtype a.vb w ti →
    (ti = .raw ∨ ti.isInt = true) → w ≠ 4 →
    let off (n : Nat) : Nat := (indexWord ti w (elem t e a.vb n) a.sh).toNat
    (∀ n < e.vl, admits t.k a.m n = true → off n < wd.size ∧ off n % (w / 8) = 0 ∧ 8 * (wd.off + off n) + w ≤ 8192) →
    let f := wd.ty.fmt.getD fmtF64
    let add (x y : Nat) : Nat × Flags := if wd.ty.isInt then ((x + y) % 2 ^ w, 0)
      else f.deliver (modeOf e a.rm) false (exAdd (modeOf e a.rm) (f.unpack x) (f.unpack y))
    let after (lane o count : Nat) : Nat := (List.range count).foldl (fun x n =>
      if admits t.k a.m n ∧ n % 256 = lane ∧ off n = o then (add x (elem t e a.va n)).1 else x)
      (laneGet t.lane lane (8 * (wd.off + o)) w)
    Performs s sid e none fun s' t' => OnlyLanes s s' t t'
      ∧ (∀ lane < 256, ∀ o, o % (w / 8) = 0 → 8 * (wd.off + o) + w ≤ 8192 →
        laneGet t'.lane lane (8 * (wd.off + o)) w = after lane o e.vl)
      ∧ (∀ lane < 256, ∀ b < 1024, (∀ n < e.vl, admits t.k a.m n = true → n % 256 = lane →
        b < wd.off + off n ∨ wd.off + off n + w / 8 ≤ b) → laneGet t'.lane lane (8 * b) 8 = laneGet t.lane lane (8 * b) 8)
      ∧ ∀ lane < 256, ∀ b < 7, t'.lflags.getLsbD (8 * lane + b)
        = (t.lflags.getLsbD (8 * lane + b) || (List.range e.vl).any fun n => admits t.k a.m n && n % 256 == lane
          && (add (after lane (off n) n) (elem t e a.va n)).2.getLsbD b)

/-! ## Tiles -/

/-- What a convoy leaves that changes one tile, with its flags in lane 0. -/
def Sys2Proof.OnlyTile (s s' : State) (t t' : Strand) (m : TReg) : Prop :=
  s' = { s with strands := s'.strands, svcs := s'.svcs, freeCtr := s'.freeCtr }
    ∧ t' = { t with m := t'.m, viq := t'.viq, xch := .none, held := none, lflags := t'.lflags }
    ∧ (∀ r : TReg, r ≠ m → t'.tile r = t.tile r)
    ∧ ∀ lane < 256, 0 < lane → ∀ b < 7, t'.lflags.getLsbD (8 * lane + b) = t.lflags.getLsbD (8 * lane + b)

/-- The bits of a tile element under a tag (R235). -/
def Sys2Proof.tileBits (ty : Tag) : Nat :=
  if ty = .bf16 then 16 else 32

/-- R247 to R251: `mzero`, `mtag`, `mrd`, `mwr`, `mld` and `mst` on a tile below 2q; rows of 128 elements, from the first row
their operand names. -/
def Sys2Proof.TileMoves : Prop :=
  ∀ (s : State) (sid : Nat) (t : Strand) (e : Entry), Alone s sid t e → Setting t e →
    let w := ewOf e.vtype
    (∀ (c : Bool) (m : TReg) (ty : Tag), m.toNat < 2 * t.q →
      (e.i = .mzero c m ty → Performs s sid e none fun s' t' => OnlyTile s s' t t' m ∧ t'.lflags = t.lflags
        ∧ t'.tile m = ⟨ty, 0⟩)
      ∧ (e.i = .mtag c m ty → Performs s sid e none fun s' t' => OnlyTile s s' t t' m ∧ t'.lflags = t.lflags
        ∧ t'.tile m = { t.tile m with tag := ty }))
    ∧ (∀ a : Mrow, a.t.toNat < 2 * t.q →
      let row0 := (e.ops.getD 0 0).toNat
      row0 + (e.vl + 127) / 128 ≤ 128 →
      (e.i = .mrd a → tileBits (t.tile a.t).tag = w → groupOk a.v.toNat (groupSize e.vtype w) = true →
        Performs s sid e none fun s' t' => Wrote s s' t t' e a.v.toNat w (t.tile a.t).tag fun n =>
          under t e a.m n (tileGet (t.tile a.t) (row0 + n / 128) (n % 128), 0))
      ∧ ∀ ty : Tag, e.i = .mwr a → SourceGroup t e.vtype a.v w ty → ty ∈ [Tag.raw, .i32, .bf16, .f32, .trio] →
        tileBits ty = w → ((t.tile a.t).tag = .raw ∨ (t.tile a.t).tag = ty) →
        Performs s sid e none fun s' t' => OnlyTile s s' t t' a.t ∧ t'.lflags = t.lflags ∧ (t'.tile a.t).tag = ty
          ∧ ∀ i < 128, ∀ j < 128, tileGet (t'.tile a.t) i j =
            if row0 ≤ i ∧ 128 * (i - row0) + j < e.vl ∧ admits t.k a.m (128 * (i - row0) + j)
            then elem t e a.v (128 * (i - row0) + j) else tileGet (t.tile a.t) i j)
    ∧ ∀ (a : Mmem) (ent : Nat → TlbEntry) (h : Nat → Nat), a.t.toNat < 2 * t.q →
      let row0 := (e.ops.getD 2 0).toNat
      let rows := (e.ops.getD 3 0).toNat
      let va (b n : Nat) : Word := e.ops.getD 0 0 + BitVec.ofNat 64 (n / 128) * e.ops.getD 1 0 + BitVec.ofNat 64 (n % 128 * (b / 8))
      row0 + rows ≤ 128 →
      (e.i = .mld a → 0 < rows → ((t.tile a.t).tag = .raw ∨ (t.tile a.t).tag = a.ty) →
        Reads s t (128 * rows) (fun _ => true) (va (tileBits a.ty)) (tileBits a.ty / 8) ent h →
        Performs s sid e none fun s' t' => OnlyTile s s' { t with lbuf := t'.lbuf } t' a.t ∧ t'.lflags = t.lflags
          ∧ (t'.tile a.t).tag = a.ty ∧ ∀ i < 128, ∀ j < 128, tileGet (t'.tile a.t) i j =
            if row0 ≤ i ∧ i < row0 + rows then
              let n := 128 * (i - row0) + j
              loadedValue s t (va (tileBits a.ty) n) (tileBits a.ty / 8) (ent n) (h n)
            else tileGet (t.tile a.t) i j)
      ∧ (e.i = .mst a → s.memOk →
        let b := tileBits (t.tile a.t).tag
        Writes s t (128 * rows) (fun _ => true) (va b) (b / 8) b ent h →
        Performs s sid e none fun s' t' => Stored s s' t t' (128 * rows) (fun _ => true) (b / 8) b h fun n =>
          tileGet (t.tile a.t) (row0 + n / 128) (n % 128))

/-- R253, R254: what each tile conversion makes of an element under a scale code. -/
def Sys2Proof.tileConverted (k : Nat) (rm : Rm) (sat : Bool) (code v : Nat) : Nat × Flags :=
  if k = 0 then ((BitVec.ofInt 32 (trioValue v)).toNat, 0)
  else if code = 255 then ((if k = 1 then fmtF32 else fmtBf16).nanBits, 64)
  else if k = 1 then
    let x := (BitVec.ofNat 32 v).toInt
    fmtF32.round rm false (decide (x < 0)) x.natAbs ((code : Int) - 127)
  else match fmtF32.unpack v with
    | .nan q => (fmtBf16.nanBits, if q then 1 else 0)
    | .inf n => (fmtBf16.infBits n, 0)
    | .fin n m x => fmtBf16.round rm sat n m (x + code - 127)

/-- R253, R254, R86: the three conversions of a tile into another, unscaled, under one scale code or one for each row. -/
def Sys2Proof.TileConversions : Prop :=
  ∀ (s : State) (sid : Nat) (t : Strand) (e : Entry) (a : Mcvt) (k : Nat), Alone s sid t e → Setting t e → k < 3 →
    e.i = [Instr.mcvtI32Trio a, .mcvtF32I32 a, .mcvtBf16F32 a].getD k .nop → a.md.toNat < 2 * t.q → a.ms.toNat < 2 * t.q →
    (t.tile a.ms).tag = [Tag.trio, .i32, .f32].getD k .raw →
    (∀ vb, a.scale = .row vb → SourceGroup t e.vtype vb 8 .e8m0) →
    let code (i : Nat) : Nat := match a.scale with
      | .none => 127
      | .tile _ => (e.ops.getD 0 0).toNat % 256
      | .row vb => elemGet t.v t.q vb.toNat 8 i
    let out (i j : Nat) : Nat × Flags := tileConverted k (modeOf e a.rm) a.sat (code i) (tileGet (t.tile a.ms) i j)
    Performs s sid e none fun s' t' => OnlyTile s s' t t' a.md ∧ (t'.tile a.md).tag = [Tag.i32, .f32, .bf16].getD k .raw
      ∧ (∀ i < 128, ∀ j < 128, tileGet (t'.tile a.md) i j = (out i j).1)
      ∧ ∀ b < 7, t'.lflags.getLsbD b = (t.lflags.getLsbD b || (List.range 128).any fun i => (List.range 128).any fun j =>
          (out i j).2.getLsbD b)

/-- The formats of the outer products (R238, R242): EW, products of one rounding, whether the tile is TRIO. -/
def Sys2Proof.opaKind (scaled : Bool) (ty : Tag) : Option (Nat × Nat × Bool) :=
  match ty with
  | .f32 => if scaled then none else some (32, 1, false)
  | .bf16 | .f16 => if scaled then none else some (16, 1, false)
  | .e4m3 | .e5m2 | .e3m2 | .e2m3 => some (8, 2, false)
  | .e2m1 => some (4, 8, false)
  | .i8 => some (8, 2, !scaled)
  | .n8 => if scaled then none else some (8, 2, true)
  | .i4 | .n4 => if scaled then none else some (4, 8, true)
  | _ => none

/-- R82, R240, R243, R74: what an operand group of an outer product holds at element n, with the flags it raises: nothing where
n is not below `vl` or the mask leaves it out; else its value, an integer one as MX I8 has it where there are scales, times the
power of two that the code of its block of BLK positions gives. Code 255 gives a NaN and NSC; a signalling NaN raises NV. -/
def Sys2Proof.opaOperand (t : Strand) (e : Entry) (m : MaskOp) (ty : Tag) (base : Nat) (scales : Option Nat) (n : Nat) :
    Option (Fv × Flags) :=
  if e.vl ≤ n ∨ admits t.k m n = false then none
  else
    let x := elemGet t.v t.q base (ewOf e.vtype) n
    let v : Fv := match ty.fmt with
      | some f => f.unpack x
      | none => .fin (decide (ty.intValue x < 0)) (ty.intValue x).natAbs (if scales.isSome then -6 else 0)
    let nv : Flags := if v = .nan true then 1 else 0
    match scales with
    | none => some (v, nv)
    | some s =>
      let code := elemGet t.v t.q s 8 (n / 128 / blkOf e.vtype * 128 + n % 128)
      if code = 255 then some (.nan false, 64 ||| nv)
      else some (match v with
        | .fin neg c x => .fin neg c (x + code - 127)
        | .nan _ => .nan false
        | .inf neg => .inf neg, nv)

/-- R82, R83: the products of a group of `r` positions from `k0` on for row i and column j: element 128 k + i of the row operand
times element 128 k + j of the column operand, for each position at which both are active. -/
def Sys2Proof.opaTerms (row col : Nat → Option (Fv × Flags)) (i j k0 r : Nat) : List Exact :=
  (List.range r).filterMap fun d => match row (128 * (k0 + d) + i), col (128 * (k0 + d) + j) with
    | some a, some b => some ⟨(exMul a.1 b.1).v, (exMul a.1 b.1).flags ||| a.2 ||| b.2⟩
    | _, _ => none

/-- R83, R85: a tile element after the groups of `r` positions below `groups`, with the flags raised: one rounding for each group
into an F32 tile, none into a TRIO tile. -/
def Sys2Proof.opaSum (trio : Bool) (row col : Nat → Option (Fv × Flags)) (r groups i j x : Nat) : Nat × Flags :=
  (List.range groups).foldl (fun u g =>
    let ps := opaTerms row col i j (g * r) r
    if trio then (trioUpdate u.1 ps, u.2) else ((groupUpdate u.1 ps).1, (groupUpdate u.1 ps).2 ||| u.2)) (x, 0)

/-- R237 to R244: an outer product adds, to each of its tiles, element (i, j) by element, the products of the elements 128 k +
i of vA and 128 k + j of its column group that are active, scaled for `vopa.s`, in groups of r consecutive k; flags go to
lane 0. -/
def Sys2Proof.OuterProducts : Prop :=
  ∀ (s : State) (sid : Nat) (t : Strand) (e : Entry) (m : TReg) (va vb : VReg) (named ty : Tag) (rep : BitVec 3) (mk : MaskOp)
    (scales : Option (VReg × VReg)) (w r : Nat) (trio : Bool), Alone s sid t e → Setting t e →
    (scales = none ∧ (∃ a : Opa, e.i = .vopa a ∧ (a.t, a.va, a.vb, a.ty, a.rep, a.m) = (m, va, vb, named, rep, mk))
      ∨ ∃ a : OpaS, e.i = .vopaS a ∧ scales = some (a.vsa, a.vsb)
        ∧ (a.t, a.va, a.vb, a.ty, a.rep, a.m) = (m, va, vb, named, rep, mk)) →
    opaKind scales.isSome ty = some (w, r, trio) → ewOf e.vtype = w → (named = .raw ∨ named = ty) →
    let g := grpOf e.vtype
    let gs := groupSize e.vtype 8
    let tagged (base size : Nat) (x : Tag) : Prop := groupOk base size = true ∧ ∀ n, base ≤ n → n < base + size → (regAt t.v n).tag = x
    tagged va.toNat g ty → (∀ c ≤ rep.toNat, tagged (vb.toNat + c * g) g ty
      ∧ (t.tile (BitVec.ofNat 3 (m.toNat + c))).tag = if trio then .trio else .f32) →
    (∀ p, scales = some p → (blkOf e.vtype = 16 ∨ blkOf e.vtype = 32) ∧ tagged p.1.toNat gs .e8m0
      ∧ ∀ c ≤ rep.toNat, tagged (p.2.toNat + c * gs) gs .e8m0) →
    m.toNat + rep.toNat + 1 ≤ 2 * t.q →
    let row := opaOperand t e mk ty va.toNat (scales.map fun p => p.1.toNat)
    let col (c : Nat) := opaOperand t e mk ty (vb.toNat + c * g) (scales.map fun p => p.2.toNat + c * gs)
    let out (c i j : Nat) : Nat × Flags :=
      opaSum trio row (col c) r ((e.vl + 128 * r - 1) / (128 * r)) i j (tileGet (t.tile (BitVec.ofNat 3 (m.toNat + c))) i j)
    Performs s sid e none fun s' t' => s' = { s with strands := s'.strands, svcs := s'.svcs, freeCtr := s'.freeCtr }
      ∧ t' = { t with m := t'.m, viq := t'.viq, xch := .none, held := none, lflags := t'.lflags }
      ∧ (∀ c ≤ rep.toNat, let k : TReg := BitVec.ofNat 3 (m.toNat + c)
        (t'.tile k).tag = (t.tile k).tag ∧ ∀ i < 128, ∀ j < 128, tileGet (t'.tile k) i j = (out c i j).1 % 2 ^ 32)
      ∧ (∀ k : TReg, (k.toNat < m.toNat ∨ m.toNat + rep.toNat < k.toNat) → t'.tile k = t.tile k)
      ∧ (∀ lane < 256, 0 < lane → ∀ b < 7, t'.lflags.getLsbD (8 * lane + b) = t.lflags.getLsbD (8 * lane + b))
      ∧ ∀ b < 7, t'.lflags.getLsbD b = (t.lflags.getLsbD b || (List.range (rep.toNat + 1)).any fun c =>
          (List.range 128).any fun i => (List.range 128).any fun j => (out c i j).2.getLsbD b)

/-- R83 to R86: a group of finite products is summed exactly before its one rounding into an F32 tile element; a NaN among
them or in the element, or infinities of both signs, give the canonical NaN, the last with NV, as does a signalling NaN in the
element; an infinity of one sign gives itself. A TRIO element gains each product modulo 16,776,960, and its signed integer is the
one between -8,388,480 and 8,388,479. -/
def Sys2Proof.OuterProductSums : Prop :=
  (∀ (x : Nat) (ps : List (Bool × Nat × Int)), ∃ n m k,
    ratOf n m k = (ps.map fun p => ratOf p.1 p.2.1 p.2.2).sum
    ∧ groupUpdate x (ps.map fun p => ⟨.fin p.1 p.2.1 p.2.2, 0⟩)
      = fmtF32.deliver .rne false (exAdd .rne (fmtF32.unpack x) (.fin n m k)))
  ∧ (∀ (x : Nat) (ps : List Exact),
    let pos := ∃ p ∈ ps, p.v = .inf false
    let neg := ∃ p ∈ ps, p.v = .inf true
    ((fmtF32.unpack x).isNan = true ∨ (∃ p ∈ ps, p.v.isNan = true) ∨ pos ∧ neg → (groupUpdate x ps).1 = 0x7FC00000)
    ∧ (fmtF32.unpack x = .nan true ∨ (∃ p ∈ ps, p.flags.getLsbD 0 = true) ∨ pos ∧ neg → (groupUpdate x ps).2.getLsbD 0 = true)
    ∧ ∀ g : Bool, (∃ p ∈ ps, p.v = .inf g) → (∀ p ∈ ps, p.v.isNan = false ∧ p.v ≠ .inf (!g)) → ∀ n m k,
      fmtF32.unpack x = .fin n m k → (groupUpdate x ps).1 = if g then 0xFF800000 else 0x7F800000)
  ∧ (∀ (x : Nat) (ps : List Int),
    (trioValue (trioUpdate x (ps.map fun p => ⟨.fin (decide (p < 0)) p.natAbs 0, 0⟩)) - (trioValue x + ps.sum)) % 16776960 = 0)
  ∧ ∀ x : Nat, -8388480 ≤ trioValue x ∧ trioValue x < 8388480

/-! ## Vector atomics -/

/-- What R269 lets a vector atomic do: its operation on integers of EW bits, a float sum with or without `.reassoc`, swp and cas
on RAW words. -/
def Sys2Proof.amoForm (a : Vamo) (op : AmoOp) (ty : Tag) : Prop :=
  ty.isInt = true ∧ a.ra = false ∨ (ty = .f32 ∨ ty = .f64) ∧ op = .add ∨ ty = .raw ∧ a.ra = false ∧ (op = .swp ∨ op = .cas)

/-- What an element's request asks of its home (R270): minima and maxima by the sign of the tag, a float sum with `.reassoc` or
without. -/
def Sys2Proof.amoKind (a : Vamo) (op : AmoOp) (ty : Tag) : ReqKind :=
  if ty = .f32 ∨ ty = .f64 then .fadd a.ra
  else .amo (if ty.isUnsigned ∧ op = .min then .minN else if ty.isUnsigned ∧ op = .max then .maxN else op)

/-- The vector atomics of R269: instruction, operation. -/
def Sys2Proof.vectorAtomics (a : Vamo) : List (Instr × AmoOp) :=
  [(.vamoAdd a, .add), (.vamoAnd a, .and), (.vamoOr a, .or), (.vamoXor a, .xor), (.vamoMin a, .min), (.vamoMax a, .max),
   (.vamoSwp a, .swp), (.vamoCas a, .cas)]

/-- R269 to R272, R218: once every element of a vector atomic has passed its checks, its convoy sends a request for each active
element of its first group of 256, with the operation, the element of vA and, for cas, of vD; the requests have numbers of their
own and stand at the first keystone of their way or at their home. No byte of memory and no line changes, the instruction stays in
the VIQ, and only a tag of vD and the line buffer change besides. That the elements of a group are sent in one step is the
model's choice (log 31). -/
def Sys2Proof.VectorAtomicSends : Prop :=
  ∀ (s : State) (sid : Nat) (t : Strand) (e : Entry) (a : Vamo) (ty ti : Tag) (ent : Nat → TlbEntry) (h : Nat → Nat),
    Alone s sid t e → Setting t e →
    let w := ewOf e.vtype
    let nb := w / 8
    let va := indexVa t e a.vb ti a.sh
    let first := (List.range (min 256 e.vl)).filter (admits t.k a.m)
    ∀ p ∈ vectorAtomics a, e.i = p.1 → (w = 32 ∨ w = 64) → SourceGroup t e.vtype a.va w ty → SourceGroup t e.vtype a.vb w ti →
      (ti = .raw ∨ ti.isInt = true) → amoForm a p.2 ty →
      (a.ret = true → groupOk a.vd.toNat (groupSize e.vtype w) = true ∧ Clear e.vtype a.vd w a.va w
        ∧ Clear e.vtype a.vd w a.vb w) →
      (p.2 = .cas → a.ret = true → SourceGroup t e.vtype a.vd w ty) →
      (∀ n < e.vl, admits t.k a.m n = true → Mapped s t.qctx (va n) nb .both (ent n) ∧ Served s t.qctx (va n) (ent n) (h n)
        ∧ (pteAttr (ent n).pte = attrHost → ty ≠ .f32 ∧ ty ≠ .f64 ∧ (p.2 = .add ∨ p.2 = .swp ∨ p.2 = .cas))) →
      first ≠ [] →
      ∃ s' t' amo, exec (.convoyStart sid) s = .next s' ∧ s'.strand sid = some t' ∧ SameOthers s s' sid
        ∧ s'.mem = s.mem ∧ s'.lines = s.lines
        ∧ t' = { t with v := t'.v, lbuf := t'.lbuf, viq := t'.viq, vamo := some amo, held := none }
        ∧ (∃ ps ns, t'.viq = [{ e with cap := some ⟨t.v, t.k⟩, pins := ps, subs := ns }])
        ∧ (∀ r < 64, (regAt t'.v r).bits = (regAt t.v r).bits) ∧ (∀ b ∈ t'.lbuf, b ∈ t.lbuf)
        ∧ amo.vl = e.vl ∧ amo.stop = e.vl ∧ amo.cut = none ∧ amo.hi = min 256 e.vl ∧ amo.got = [] ∧ amo.bad = []
        ∧ amo.sent.map (·.1) = first ∧ (amo.sent.map (·.2.1)).Nodup
        ∧ ∀ x ∈ amo.sent, x.2.2 = va x.1 ∧ ∃ r, (r ∈ s'.requests ∨ ∃ k ∈ s'.keystones, r ∈ k.queue)
          ∧ r.rid = x.2.1 ∧ r.sid = t.id.sid ∧ r.kind = amoKind a p.2 ty ∧ r.n = nb ∧ r.ord = a.ord ∧ r.va = va x.1
          ∧ r.home = h x.1 ∧ r.data.toNat = elem t e a.va x.1 ∧ r.cmp.toNat = elem t e a.vd x.1 ∧ r.vec = true

/-- R108, R119, R176, R270, R284: MEMORY_ACCESS_PERFORM of an element's request before which nothing waits at its home, at a plain
line, a host word or a slab slot of its space that answers: the word there takes its new value, a float sum under RNE; no other
byte and no line changes; the element has returned to its strand with the old value and the sum's flags. -/
def Sys2Proof.VectorAtomicAtHome : Prop :=
  ∀ (s : State) (r : Request) (t : Strand) (amo : VecAmo) (n : Nat) (va : Word), s.memOk →
    s.requests.find? (fun x => x.rid == r.rid) = some r → (r.n = 4 ∨ r.n = 8) → s.requestReady r = true → r.again = false →
    s.soft.contains (lineOf r.home) = false →
    s.heldBefore (lineOf r.home) (match r.held with
      | some (l, since) => if l = lineOf r.home then since else s.tick + 1
      | none => s.tick + 1) = false →
    (if homeAttr r.home = attrSlab then s.slabHome r.asid r.va = some r.home
      else hasLines (homeAttr r.home) = true → s.offline (lineOf r.home) = false ∧ s.unreachable (lineOf r.home) = false
        ∧ s.lineState (lineOf r.home) = some .plain) →
    (∀ u ∈ s.strands, u.id.sid = t.id.sid → u = t) → t ∈ s.strands → t.vamo = some amo → (n, r.rid, va) ∈ amo.sent →
    (amo.sent.map (·.2.1)).Nodup → (∀ u ∈ s.strands, u ≠ t → ∀ x ∈ u.vamo, ∀ y ∈ x.sent, y.2.1 ≠ r.rid) →
    let old := Memory.read s.mem r.home r.n
    let f := if r.n = 4 then fmtF32 else fmtF64
    ∀ (new : Nat) (fl : Flags),
      ((∃ op, r.kind = .amo op ∧ new = atomicNew op r.n old r.data.toNat r.cmp.toNat ∧ fl = 0)
        ∨ ∃ ra, r.kind = .fadd ra
          ∧ (new, fl) = f.deliver .rne false (exAdd .rne (f.unpack old) (f.unpack (r.data.toNat % 2 ^ (8 * r.n))))) →
      ∃ s' t', exec (.memoryAccessPerform r.rid) s = .next s' ∧ s'.strand t.id.sid = some t'
        ∧ Memory.read s'.mem r.home r.n = new % 2 ^ (8 * r.n)
        ∧ (∀ b, b < r.home ∨ r.home + r.n ≤ b → Memory.get s'.mem b = Memory.get s.mem b)
        ∧ (∀ l, s'.lineState l = s.lineState l) ∧ s'.replies = s.replies
        ∧ s'.requests = s.requests.filter (fun x => x.rid != r.rid)
        ∧ t' = { t with lbuf := t'.lbuf, vamo := some { amo with
            sent := amo.sent.filter fun x => x.2.1 != r.rid, got := amo.got ++ [(n, BitVec.ofNat 64 old, fl)] } }
        ∧ ∀ b ∈ t'.lbuf, b ∈ t.lbuf

/-- R48, R90, R270, R271: a vector atomic of one group whose elements have all returned: with `.ret` their old words come into vD,
inactive elements under MU and the tail under TU; their flags are raised in their lanes, and the instruction has completed. -/
def Sys2Proof.VectorAtomicReturns : Prop :=
  ∀ (s : State) (sid : Nat) (t : Strand) (e : Entry) (a : Vamo) (ty ti : Tag) (src : Captured) (amo : VecAmo)
      (old : Nat → Word) (fl : Nat → Flags),
    let u : Strand := { t with v := src.v, k := src.k }
    s.strand sid = some t → t.viq = [e] → t.copen = false → t.status = .running → t.qstall = false → t.vfault = none →
    e.pos = 0 → e.perf = [] → e.done = false → e.given = false → e.fin = false → e.pins = [] → e.cap = some src → t.xch = .none →
    t.acc = none → s.waitsService (.queue sid) = false → Setting t e → e.vl ≤ 256 →
    t.vamo = some amo → amo.vl = e.vl → amo.stop = e.vl → amo.hi = e.vl → amo.cut = none → amo.sent = [] → amo.bad = [] →
    (∀ n < e.vl, admits t.k a.m n = true → (amo.got.find? fun g => g.1 == n) = some (n, old n, fl n)) →
    let w := ewOf e.vtype
    ∀ p ∈ vectorAtomics a, e.i = p.1 → (w = 32 ∨ w = 64) → SourceGroup u e.vtype a.va w ty → SourceGroup u e.vtype a.vb w ti →
      (ti = .raw ∨ ti.isInt = true) → amoForm a p.2 ty →
      (a.ret = true → groupOk a.vd.toNat (groupSize e.vtype w) = true ∧ Clear e.vtype a.vd w a.va w
        ∧ Clear e.vtype a.vd w a.vb w) →
      (p.2 = .cas → a.ret = true → SourceGroup u e.vtype a.vd w ty) →
      Performs s sid e none fun s' t' =>
        if a.ret then Wrote s s' { t with vamo := none } t' e a.vd.toNat w ty
          fun n => under t e a.m n ((old n).toNat, fl n)
        else Delivered s s' { t with vamo := none } t' e (((List.range e.vl).filter (admits t.k a.m)).map fun n => (n, fl n))

/-! ## Exchanges, stops, completion -/

/-- R231: `vxch` names a peer outside the gang or itself: NO_PEER at once, nothing written. Else its convoy offers its
elements, width and tag to the peer under sB[15:0] and waits. -/
def Sys2Proof.ExchangeOffers : Prop :=
  ∀ (s : State) (sid : Nat) (t : Strand) (e : Entry) (a : Xch) (ty : Tag), Alone s sid t e → Setting t e → e.i = .vxch a →
    let w := ewOf e.vtype
    groupOk a.vd.toNat (groupSize e.vtype w) = true → SourceGroup t e.vtype a.va w ty → Clear e.vtype a.vd w a.va w →
    let peer := (e.ops.getD 0 0).toNat
    ((t.id.gsz ≤ peer ∨ peer = t.id.tid) → Performs s sid e (some 2) fun s' t' => Delivered s s' t t' e [])
    ∧ (peer < t.id.gsz → peer ≠ t.id.tid → exec (.convoyStart sid) s = .next ((s.endSvc (.queue sid)).put
      { t with xch := .offered ⟨peer, BitVec.ofNat 64 ((e.ops.getD 1 0).toNat % 65536), e.vl, w, ty,
        (List.range e.vl).map fun n => BitVec.ofNat 64 (keptBits ty (elem t e a.va n)), s.tick⟩ }))

/-- R46: the value that an instruction with nothing below `vl` delivers; a `vxch` that completes at once has no peer (R231). -/
def Sys2Proof.emptyValue (i : Instr) : Word :=
  match i with
  | .kfirst _ _ _ _ => 0xFFFFFFFFFFFFFFFF
  | .vxch _ => 2
  | _ => 0

/-- R26, R44 to R46, R201, R220, R221: where a convoy of one instruction stops. A check that fails stops it with nothing done;
`vl` = 0 completes it with nothing done but a value delivered: all ones for `kfirst`, else 0 (2 for a `vxch` without a peer); a
load that faults at an element k above 0 is performed below it and trims to k the `vl` of all that follows the same writer of
`vl`; a store that faults at k stores the elements below it and stands at k. -/
def Sys2Proof.ConvoyStops : Prop :=
  ∀ (s : State) (sid : Nat) (t : Strand) (e : Entry), Alone s sid t e →
    let w := ewOf e.vtype
    (∀ c, prepare e.i (e.px t s ⟨t.v, t.k⟩ e.vl true none false) = .fail c → exec (.convoyStart sid) s
      = .next ((s.endSvc (.queue sid)).put { t with vfault := some ⟨0, ⟨c, 0, 0, 0, false, e.pc⟩, 0, none⟩ }))
    ∧ (∀ (a : Vv), e.i = .vadd a →
      (groupOk a.vd.toNat (groupSize e.vtype w) = false →
        prepare e.i (e.px t s ⟨t.v, t.k⟩ e.vl true none false) = .fail .group)
      ∧ ∀ ty, Setting t e → groupOk a.vd.toNat (groupSize e.vtype w) = true → SourceGroup t e.vtype a.va w ty →
        SourceGroup t e.vtype a.vb w ty → Clear e.vtype a.vd w a.va w → Clear e.vtype a.vd w a.vb w →
        (ty.isInt = false ∨ a.ty ≠ .raw ∧ a.ty ≠ ty) →
        prepare e.i (e.px t s ⟨t.v, t.k⟩ e.vl true none false) = .fail .tag)
    ∧ (∀ (u : Strand) (m : Mop), e.vl = 0 → prepare e.i (e.px t s ⟨t.v, t.k⟩ 0 true none false) = .ok u m →
      Performs s sid e (some (emptyValue e.i)) fun s' t' =>
        s' = { s with strands := s'.strands, svcs := s'.svcs } ∧ t' = { t with viq := t'.viq, xch := .none, held := none })
    ∧ (∀ (a : Vmem) (ent : Nat → TlbEntry) (h : Nat → Nat) (k : Nat), Setting t e → w ≠ 4 → 0 < k → k < e.vl →
      groupOk a.vd.toNat (groupSize e.vtype w) = true → admits t.k a.m k = true → canonicalAll (unitVa e k) (w / 8) = false →
      (e.i = .vld a → (a.ty = .raw ∨ a.ty.width = some w) → Reads s t k (admits t.k a.m) (unitVa e) (w / 8) ent h →
        ∃ s' t', exec (.convoyStart sid) s = .next s' ∧ s'.strand sid = some t' ∧ SameOthers s s' sid
          ∧ t'.viq = [{ e with vl := k, done := true, result := none }]
          ∧ Wrote s s' { t with lbuf := t'.lbuf, vl := if t.gen = e.gen then k else t.vl } t' { e with vl := k } a.vd.toNat w a.ty fun n =>
            under t e a.m n (keptBits a.ty (loadedValue s t (unitVa e n) (w / 8) (ent n) (h n)), 0))
      ∧ ∀ ty, e.i = .vst a → s.memOk → SourceGroup t e.vtype a.vd w ty →
        Writes s t k (admits t.k a.m) (unitVa e) (w / 8) w ent h →
        ∃ s' t', exec (.convoyStart sid) s = .next s' ∧ s'.strand sid = some t' ∧ SameOthers s s' sid
          ∧ t'.vfault = some ⟨0, ⟨.addr, unitVa e k, 0, k, false, e.pc⟩, k, none⟩ ∧ t'.viq.map Entry.i = [e.i]
          ∧ (∀ x ∈ t'.viq, x.done = false)
          ∧ (∀ n < k, admits t.k a.m n = true → Memory.read s'.mem (h n) (w / 8) = keptBits ty (elem t e a.vd n))
          ∧ ∀ b, (∀ n < k, admits t.k a.m n = true → b < h n ∨ h n + w / 8 ≤ b) →
            Memory.get s'.mem b = Memory.get s.mem b)

/-! ## Convoys of several members -/

/-- The VIQ of a running strand holds the members of one closed convoy, as dispatch left them under one `vtype` and one `vl`; the
strand waits for nothing. -/
structure Sys2Proof.Together (s : State) (sid : Nat) (t : Strand) (es : List Entry) (vt : BitVec 12) (vl : Nat) : Prop where
  here : s.strand sid = some t
  only : t.viq = es
  joined : ∀ e ∈ es.tail, e.cs = false
  closed : t.copen = false
  runs : t.status = .running
  calm : t.qstall = false
  sound : t.vfault = none
  fresh : ∀ e ∈ es, (uses e.vtype e.i).isSome = true ∧ e.vtype = vt ∧ e.vl = vl ∧ e.pos = 0 ∧ e.perf = [] ∧ e.done = false
    ∧ e.given = false ∧ e.cap = none ∧ e.fin = false ∧ e.pins = []
  apart : t.xch = .none
  quiet : t.vamo = none
  older : t.acc = none
  served : s.waitsService (.queue sid) = false

/-- What integer element-wise instructions of one convoy leave in element n of a register group, one after another (R159):
each reads what those before it left in its own element, an inactive one leaves what MU gives. `f` is each one's operation. -/
def Sys2Proof.elementAfter (t : Strand) (es : List Entry) (f : Entry → Option (Vv × (Nat → Nat → Nat))) (n : Nat) : VReg → Nat :=
  es.foldl (fun val e => match f e with
    | none => val
    | some (a, op) => fun r => if r = a.vd then (under t e a.m n (op (val a.va) (val a.vb) % 2 ^ ewOf e.vtype, 0)).1.over (ewOf e.vtype) (val r)
      else val r)
    fun r => elemGet t.v t.q r.toNat ((es.head?.map fun e => ewOf e.vtype).getD 8) n

/-- Sum or difference, for the members of a convoy that are `vadd` or `vsub`. -/
def Sys2Proof.sumOrDifference (w : Nat) (e : Entry) : Option (Vv × (Nat → Nat → Nat)) :=
  match e.i with
  | .vadd a => some (a, fun x y => x + y)
  | .vsub a => some (a, fun x y => x + 2 ^ w - y)
  | _ => none

/-- Every group of a member that adds or subtracts is aligned and holds one integer tag, which the member names or leaves. -/
def Sys2Proof.integerMember (t : Strand) (vt : BitVec 12) (ty : Tag) (a : Vv) : Prop :=
  (a.ty = .raw ∨ a.ty = ty) ∧ ∀ r ∈ [a.vd, a.va, a.vb], SourceGroup t vt r (ewOf vt) ty

/-- R159, R160: a convoy of two members, `vadd` or `vsub`, has the effect of its members in turn: element by element each
reads what the one before it left. Tails follow TU in each destination, and no other register changes. -/
def Sys2Proof.ConvoyInOrder : Prop :=
  ∀ (s : State) (sid : Nat) (t : Strand) (e1 e2 : Entry) (a b : Vv) (vt : BitVec 12) (vl : Nat) (ty : Tag),
    Together s sid t [e1, e2] vt vl → Setting t e1 → ty.isInt = true →
    let w := ewOf vt
    (e1.i = .vadd a ∨ e1.i = .vsub a) → (e2.i = .vadd b ∨ e2.i = .vsub b) → integerMember t vt ty a → integerMember t vt ty b →
    ∃ s' t', exec (.convoyStart sid) s = .next s' ∧ s'.strand sid = some t' ∧ SameOthers s s' sid
      ∧ s' = { s with strands := s'.strands, svcs := s'.svcs }
      ∧ t'.viq = [e1.performed none, e2.performed none]
      ∧ t' = { t with v := t'.v, viq := t'.viq, xch := .none, held := none }
      ∧ (∀ r : VReg, (r = a.vd ∨ r = b.vd) → ∀ n < vlmaxOf t.q vt, elemGet t'.v t.q r.toNat w n =
        if n < vl then elementAfter t [e1, e2] (sumOrDifference w) n r
        else if tuOf vt then 0 else elemGet t.v t.q r.toNat w n)
      ∧ ∀ r < 64, OutsideGroup a.vd.toNat (groupSize vt w) r → OutsideGroup b.vd.toNat (groupSize vt w) r → regAt t'.v r = regAt t.v r

/-- R45, R159, R220: a `vadd` or `vsub` in one convoy with a load behind it that faults at element k above 0, at an address that
is not canonical: both are performed as if `vl` had been k from the start, the elements from k on being tail; `vl` is k for all that follows
the same writer of `vl`, and no trap is taken. -/
def Sys2Proof.ConvoyTrimmed : Prop :=
  ∀ (s : State) (sid : Nat) (t : Strand) (e1 e2 : Entry) (a : Vv) (b : Vmem) (vt : BitVec 12) (vl k : Nat) (ty : Tag)
    (ent : Nat → TlbEntry) (h : Nat → Nat),
    Together s sid t [e1, e2] vt vl → Setting t e1 → ty.isInt = true →
    let w := ewOf vt
    (e1.i = .vadd a ∨ e1.i = .vsub a) → e2.i = .vld b → w ≠ 4 → 0 < k → k < vl → integerMember t vt ty a →
    groupOk b.vd.toNat (groupSize vt w) = true → (b.ty = .raw ∨ b.ty.width = some w) →
    admits t.k b.m k = true → canonicalAll (unitVa e2 k) (w / 8) = false → Reads s t k (admits t.k b.m) (unitVa e2) (w / 8) ent h →
    ∃ s' t', exec (.convoyStart sid) s = .next s' ∧ s'.strand sid = some t' ∧ SameOthers s s' sid
      ∧ t'.viq = [{ e1.performed none with vl := k }, { e2.performed none with vl := k }] ∧ t'.vfault = none
      ∧ t'.vl = (if t.gen = e2.gen then k else t.vl) ∧ s'.mem = s.mem ∧ s'.lines = s.lines
      ∧ (a.vd ≠ b.vd → ∀ n < vlmaxOf t.q vt, elemGet t'.v t.q a.vd.toNat w n =
        if n < k then elementAfter t [e1] (sumOrDifference w) n a.vd else if tuOf vt then 0 else elemGet t.v t.q a.vd.toNat w n)
      ∧ ∀ n < vlmaxOf t.q vt, elemGet t'.v t.q b.vd.toNat w n =
        if n < k then (under t e2 b.m n (keptBits b.ty (loadedValue s t (unitVa e2 n) (w / 8) (ent n) (h n)), 0)).1.over w
          (elementAfter t [e1] (sumOrDifference w) n b.vd)
        else if tuOf vt then 0 else elemGet t.v t.q b.vd.toNat w n

/-- R26, R159, R221: a `vadd` or `vsub` in one convoy with a store behind it that faults at element k above 0, at an address that
is not canonical: every element below k is completed in both, none at or above it in either; the fault stands in the VIQ with
`epr` k and the store's element and address, and both members stay. -/
def Sys2Proof.ConvoyStopped : Prop :=
  ∀ (s : State) (sid : Nat) (t : Strand) (e1 e2 : Entry) (a : Vv) (b : Vmem) (vt : BitVec 12) (vl k : Nat) (ty tv : Tag)
    (ent : Nat → TlbEntry) (h : Nat → Nat), s.memOk →
    Together s sid t [e1, e2] vt vl → Setting t e1 → ty.isInt = true →
    let w := ewOf vt
    (e1.i = .vadd a ∨ e1.i = .vsub a) → e2.i = .vst b → w ≠ 4 → 0 < k → k < vl → integerMember t vt ty a →
    SourceGroup t vt b.vd w tv →
    admits t.k b.m k = true → canonicalAll (unitVa e2 k) (w / 8) = false → Writes s t k (admits t.k b.m) (unitVa e2) (w / 8) w ent h →
    ∃ s' t', exec (.convoyStart sid) s = .next s' ∧ s'.strand sid = some t' ∧ SameOthers s s' sid
      ∧ t'.viq.map Entry.i = [e1.i, e2.i] ∧ (∀ x ∈ t'.viq, x.done = false ∧ x.pos = k)
      ∧ t'.vfault = some ⟨0, ⟨.addr, unitVa e2 k, 0, k, false, e2.pc⟩, k, none⟩ ∧ t'.vl = t.vl
      ∧ (∀ n < vlmaxOf t.q vt, elemGet t'.v t.q a.vd.toNat w n =
        if n < k then elementAfter t [e1] (sumOrDifference w) n a.vd else elemGet t.v t.q a.vd.toNat w n)
      ∧ (∀ n < k, admits t.k b.m n = true → Memory.read s'.mem (h n) (w / 8)
        = keptBits (if b.vd = a.vd then ty else tv) (elementAfter t [e1] (sumOrDifference w) n b.vd))
      ∧ ∀ c, (∀ n < k, admits t.k b.m n = true → c < h n ∨ h n + w / 8 ≤ c) → Memory.get s'.mem c = Memory.get s.mem c

/-- R18, R20, R165: VIQ_ENTRY_COMPLETE retires the oldest entry once its convoy has performed it, counts it in `vcp`, and puts
its value in the result queue; where a fault waits at `vcp` it takes the exception with the entries left. RESULT_QUEUE_DELIVERY
writes the oldest value into its register, also in the scalar side to which a fault of an outstanding access goes back. -/
def Sys2Proof.QueueEvents : Prop :=
  ∀ (s : State) (sid : Nat) (t : Strand), s.strand sid = some t →
    (∀ e rest, t.viq = e :: rest → e.done = true → t.vfault = none →
      exec (.viqEntryComplete sid) s = .next (s.put { t with
        acc := t.acc.map fun a => { a with ahead := a.ahead - 1 }
        viq := rest, vcp := t.vcp + 1, moved := true, rq := t.rq ++ e.result.toList
        fresh := t.fresh || rest.isEmpty && !t.copen }))
    ∧ (∀ info epr perf, t.vfault = some ⟨0, info, epr, perf⟩ → t.acc = none →
      exec (.viqEntryComplete sid) s = .next (s.takeTrap t info (s.pcNext t) t.viq epr perf))
    ∧ ∀ r x rest, t.rq = (r, x) :: rest →
      exec (.resultQueueDelivery sid) s = .next (s.put { t.setS r x with
        rq := rest
        acc := t.acc.map fun a => if r = 0 then a else
          { a with back := { a.back with s := a.back.s.set r.toNat x r.isLt } } })

/-! ## Instructions that form a convoy by themselves -/

/-- The registers such an instruction reads, in the order of OPS, and those it writes (R156, R257 to R278). -/
def Sys2Proof.soloRegs : Instr → Option (List SReg × List SReg)
  | .acq sd sa sb => some ([sa, sb], [sd])
  | .rel sd sa => some ([sa], [sd])
  | .fenceG | .fenceD | .fenceS | .winMerge | .winClose => some ([], [])
  | .syncBind sd sa sb _ => some ([sd, sa, sb], [])
  | .syncUnbind sa | .barInit sa _ | .barArr sa | .barArrRlx sa | .barDrop sa | .barWait sa => some ([sa], [])
  | .vwait a => some ([a.sb], [a.sd])
  | .winOpen sa sb sc _ => some ([sa, sb, sc], [])
  | .cpy a | .cpyFl a | .cpyMove a => some ([a.sa, a.sb, a.sc], [a.sd])
  | .cpy2d a => some ([a.sa, a.sb, a.sc, a.se, a.sf, a.sg], [a.sd])
  | _ => none

/-- The strand past such an instruction, which closes the open convoy and stands behind the queued entries (R156, R161). -/
def Sys2Proof.entered (t : Strand) (i : Instr) (ops : List SReg) : Strand :=
  { t with
    pc := t.pc + 2, seq := true, moved := true, hold := none, copen := false, fresh := true
    viq := t.viq ++ [⟨i, t.pc, true, t.vl, t.vtype, ops.map t.getS, 0, [], false, none, false, none, t.gen, false, none, [], []⟩] }

/-- What a strand waits for besides the first entry of its VIQ: a younger `qdrain`. -/
def Sys2Proof.waitBehind (t : Strand) : Wait :=
  match t.wait with
  | .queue q sd => .queue q sd
  | _ => .none

/-- The strand once the first entry of its VIQ has completed, with the values it delivers (R18, R20): what stands behind it is
one entry nearer. -/
def Sys2Proof.firstDone (t : Strand) (rest : List Entry) (out : List (SReg × Word)) : Strand :=
  { t with
    viq := rest, vcp := t.vcp + 1, moved := true, wait := waitBehind t, held := none, rq := t.rq ++ out
    acc := t.acc.map fun a => { a with ahead := a.ahead - 1 }
    vfault := t.vfault.map fun f => { f with index := f.index - 1 } }

/-- An idle strand once such an instruction has been dispatched and has completed. -/
def Sys2Proof.finished (t : Strand) (out : List (SReg × Word)) : Strand :=
  firstDone { t with pc := t.pc + 2, seq := true, moved := true, hold := none, copen := false, fresh := true } [] out

/-- An idle strand once such an instruction has been dispatched and stands with a fault (R18, R256). -/
def Sys2Proof.refusedAt (t : Strand) (i : Instr) (ops : List SReg) (c : Cause) (addr : Word) (elem : Nat) : Strand :=
  { entered t i ops with vfault := some ⟨0, ⟨c, addr, 0, elem, false, t.pc⟩, 0, none⟩, wait := waitBehind t }

/-- Whether an instruction is a copy (R278). -/
def Sys2Proof.CopyForm (i : Instr) : Prop :=
  (∃ a, i = .cpy a ∨ i = .cpyFl a ∨ i = .cpyMove a) ∨ ∃ a, i = .cpy2d a

/-- R17, R20, R25, R110, R156, R161: such an instruction closes the open convoy and waits for a reserved or pending register
and for room in the VIQ and the result queue; else it enters the VIQ behind the queued entries, or acts at once where
nothing stands there and no access is on its way. A copy also waits for such an access and while 32 copies of its strand are
unfinished; its token is pending once it has entered. CONVOY_START has an entry that stands first act as it does at once. -/
def Sys2Proof.SoloDispatchWaits : Prop :=
  (∀ (i : Instr) (ops dst : List SReg) (s : State) (t : Strand), soloRegs i = some (ops, dst) → s.curStrand = some t →
    let full : Prop := 64 ≤ t.viq.length ∨ t.resultsFull i = true
    let free : Prop := t.mustWait (ops ++ dst) = false ∧ ¬ full
    let entry : Entry := ⟨i, t.pc, true, t.vl, t.vtype, ops.map t.getS, 0, [], false, none, false, none, t.gen, false, none, [], []⟩
    (t.mustWait (ops ++ dst) = true ∨ full →
      exec i s = .next (s.put { t with stalled := true, copen := false, fresh := true }))
    ∧ (¬ CopyForm i → free → t.viq ≠ [] ∨ t.acc.isSome = true → exec i s = .next (s.put (entered t i ops)))
    ∧ (¬ CopyForm i → free → t.viq = [] → t.acc = none →
      exec i s = .next (s.performSolo (entered t i ops) entry))
    ∧ (CopyForm i → free → t.acc.isSome = true ∨ 32 ≤ s.unfinished t → exec i s = .next (s.put { t with stalled := true }))
    ∧ ∀ tok, CopyForm i → dst = [tok] → free → t.viq ≠ [] → t.acc = none → s.unfinished t < 32 →
      exec i s = .next (s.put { entered t i ops with
        tokp := if tok = 0 then t.tokp else t.tokp ||| (1#32 <<< tok.toNat) }))
  ∧ ∀ (s : State) (sid : Nat) (t : Strand) (e : Entry) (rest : List Entry) (p : List SReg × List SReg), s.strand sid = some t →
    t.viq = e :: rest → soloRegs e.i = some p → (∀ sd sa, e.i ≠ .rel sd sa) → s.soloReady t = true →
    exec (.convoyStart sid) s = .next (s.performSolo t e)

/-- A sync word at `obj` that answers: its page carries no host attribute, its home byte is `h` (R257). -/
def Sys2Proof.SyncAt (s : State) (c : Ctx) (obj : Word) (need : Need) (h : Nat) : Prop :=
  ∃ e, Mapped s c obj 8 need e ∧ Served s c obj e h ∧ pteAttr e.pte ≠ attrHost

/-- The word at a home byte. -/
def Sys2Proof.wordAt (s : State) (h : Nat) : Word :=
  BitVec.ofNat 64 (Memory.read s.mem h 8)

/-- R258 to R261: `acq` reads its object: where it has reached sB, or sB is s0, it delivers the value and drops the lines of
the object's regions, else it waits; `rel` waits for its increment, which raises the object by 1 at its home, changes no other
byte, and delivers the new value; ACQ_SATISFIED ends a wait whose object has reached its target; `sync.bind` and
`sync.unbind` change the gang's bindings. -/
def Sys2Proof.SyncObjectResults : Prop :=
  (∀ (s : State) (t : Strand) (sd sa sb : SReg) (h : Nat), Ready s t [sa, sb, sd] → t.idle →
    SyncAt s t.qctx (t.getS sa) .read h →
    let v := wordAt s h
    let s1 := s.endSvc (.queue t.id.sid)
    (sb = 0 ∨ (v - t.getS sb).toNat < 2 ^ 63 → exec (.acq sd sa sb) s
      = .next (s1.put { finished t [(sd, v)] with lbuf := dropRegions t.lbuf (s.bindingsOf t) (t.getS sa) }))
    ∧ (sb ≠ 0 → 2 ^ 63 ≤ (v - t.getS sb).toNat → exec (.acq sd sa sb) s
      = .next (s1.put { entered t (.acq sd sa sb) [sa, sb] with wait := .object (t.getS sa) (t.getS sb), held := none })))
  ∧ (∀ (s : State) (sid : Nat) (t : Strand) (e : Entry) (rest : List Entry) (sd sa sb : SReg) (obj target : Word) (h : Nat),
    s.strand sid = some t → s.frontReady t = true → t.wait = .object obj target → t.viq = e :: rest → e.i = .acq sd sa sb →
    SyncAt s t.qctx obj .read h → (wordAt s h - target).toNat < 2 ^ 63 →
    exec (.acqSatisfied sid) s = .next ((s.endSvc (.queue sid)).put
      { firstDone t rest [(sd, wordAt s h)] with lbuf := dropRegions t.lbuf (s.bindingsOf t) obj }))
  ∧ (∀ (s : State) (t : Strand) (sd sa : SReg), Ready s t [sa, sd] → t.idle →
    exec (.rel sd sa) s = .next (s.put (entered t (.rel sd sa) [sa])))
  ∧ (∀ (s : State) (sid : Nat) (t : Strand) (e : Entry) (rest : List Entry) (sd sa : SReg) (h : Nat), s.memOk →
    s.strand sid = some t → t.viq = e :: rest → e.i = .rel sd sa → s.relReady t = true → s.issues (dieOf t.id.pclus) = true →
    SyncAt s t.qctx (e.ops.getD 0 0) .both h →
    ∃ s' t', exec (.relIncrement sid) s = .next s' ∧ s'.strand sid = some t' ∧ SameOthers s s' sid
      ∧ wordAt s' h = wordAt s h + 1 ∧ (∀ a, a < h ∨ h + 8 ≤ a → Memory.get s'.mem a = Memory.get s.mem a)
      ∧ (∀ l, s'.lineState l = s.lineState l)
      ∧ s' = { s with strands := s'.strands, svcs := s'.svcs, mem := s'.mem, lines := s'.lines }
      ∧ t' = { firstDone t rest [(sd, wordAt s h + 1)] with lbuf := t'.lbuf }
      ∧ ∀ b ∈ t'.lbuf, b ∈ t.lbuf ∧ b.home ≠ lineOf h)
  ∧ (∀ (s : State) (t : Strand) (sd sa sb : SReg) (scope : Scope) (e : TlbEntry), Ready s t [sd, sa, sb] → t.idle →
    Mapped s t.qctx (t.getS sd) 8 .read e → pteAttr e.pte ≠ attrHost → pteAttr e.pte ≠ attrFlash →
    let b : Binding := ⟨t.getS sa, t.getS sb, t.getS sd, scope⟩
    let old := s.bindingsOf t
    b.base.toNat % 128 = 0 → b.len.toNat % 128 = 0 → b.len ≠ 0 →
    (∀ x ∈ old, x.obj ≠ b.obj → x.base.toNat + x.len.toNat ≤ b.base.toNat ∨ b.base.toNat + b.len.toNat ≤ x.base.toNat) →
    (∀ x ∈ old, (x.base, x.len, x.obj) ≠ (b.base, b.len, b.obj)) → old.length < Config.maxBindings →
    exec (.syncBind sd sa sb scope) s = .next (((s.setGang t.id.handle fun g => { g with bindings := old ++ [b] }).endSvc
      (.queue t.id.sid)).put (finished t [])))
  ∧ ∀ (s : State) (t : Strand) (sa : SReg) (pre post : List Binding) (b : Binding), Ready s t [sa] → t.idle →
    s.bindingsOf t = pre ++ b :: post → b.base = t.getS sa → (∀ x ∈ pre, x.base ≠ t.getS sa) →
    exec (.syncUnbind sa) s = .next (((s.setGang t.id.handle fun g => { g with bindings := pre ++ post }).endSvc
      (.queue t.id.sid)).put (finished t []))

/-- R152, R262: a fence waits at its place until FENCE_COMPLETE, which finds every older access performed, empties the strand's
line buffer, lets no line it fetched before show old content again, and completes it. -/
def Sys2Proof.FenceResults : Prop :=
  (∀ (s : State) (t : Strand), s.curStrand = some t → t.idle → ∀ i ∈ [Instr.fenceG, .fenceD, .fenceS],
    exec i s = .next (s.put { entered t i [] with wait := .fence }))
  ∧ ∀ (s : State) (sid : Nat) (t : Strand) (e : Entry) (rest : List Entry), s.strand sid = some t → s.frontReady t = true →
    t.wait = .fence → t.viq = e :: rest → e.i ∈ [Instr.fenceG, .fenceD, .fenceS] →
    exec (.fenceComplete sid) s = .next (if t.acc.isSome then s
      else s.put { firstDone t rest [] with lbuf := [], ibuf := [] })

/-- R263, R264, R266: at a sync word that answers, `bar.init` makes a barrier of its gang there with its count and the word as
its counter, or finds its own of that count; arrivals go to a live barrier; `bar.wait` of the barrier's own gang goes on where
its phase has passed, with an empty line buffer, and else waits for it. Without a barrier an arrival or a wait stops with
BAR_STATE. -/
def Sys2Proof.BarrierInstructions : Prop :=
  ∀ (s : State) (t : Strand) (sa : SReg) (h : Nat), Ready s t [sa] → t.idle →
    let obj := t.getS sa
    let s1 := s.endSvc (.queue t.id.sid)
    let faulted (i : Instr) (c : Cause) : Strand :=
      refusedAt t i [sa] c 0 0
    (SyncAt s t.qctx obj .both h → ∀ nm1 : BitVec 6,
      (s.barrierOf h = none → (s.barriers.filter fun b => b.handle == t.id.handle).length < s.barsOf t.id.handle →
        exec (.barInit sa nm1) s = .next ((State.endSvc { s with
          barriers := s.barriers ++ [⟨s.nextBid, h, obj, t.id.handle, t.id.pclus, nm1.toNat + 1, nm1.toNat + 1, wordAt s h, [],
            0, []⟩]
          nextBid := s.nextBid + 1 } (.queue t.id.sid)).put (finished t [])))
      ∧ (s.barrierOf h = none → s.barsOf t.id.handle ≤ (s.barriers.filter fun b => b.handle == t.id.handle).length →
        exec (.barInit sa nm1) s = .next (s.put (faulted (.barInit sa nm1) .barFull)))
      ∧ ∀ b, s.barrierOf h = some b → s.arrivalAhead t b = false →
        exec (.barInit sa nm1) s = .next (if b.handle = t.id.handle ∧ b.made = nm1.toNat + 1 then s1.put (finished t [])
          else s.put (faulted (.barInit sa nm1) .barState)))
    ∧ (SyncAt s t.qctx obj .both h → ∀ p ∈ [(Instr.barArr sa, ArrKind.arr), (.barArrRlx sa, .rlx), (.barDrop sa, .drop)],
      (s.barrierOf h = none → exec p.1 s = .next (s.put (faulted p.1 .barState)))
      ∧ ∀ b, s.barrierOf h = some b → s.arrivalAhead t b = false →
        exec p.1 s = .next ((State.endSvc { s with arrivals := s.arrivals ++ [⟨b.bid, (t.id.handle, t.id.tid), p.2⟩] }
          (.queue t.id.sid)).put (finished t [])))
    ∧ (SyncAt s t.qctx obj .read h →
      (s.barrierOf h = none → exec (.barWait sa) s = .next (s.put (faulted (.barWait sa) .barState)))
      ∧ ∀ b, s.barrierOf h = some b → b.handle = t.id.handle →
        let phase := s.lastPhase t b
        let d := (b.counter - phase).toNat
        exec (.barWait sa) s = .next (s1.put (if 1 ≤ d ∧ d < 2 ^ 63 then { finished t [] with lbuf := [] }
          else { entered t (.barWait sa) [sa] with wait := .barrier b.bid phase })))

/-- R128, R264, R265, R288, R416: BARRIER_ARRIVAL_COUNT of arrivals of strands that have not arrived in the phase: below the
expected count they are kept; where they reach it the counter and the object's word advance by 1, the drops leave the expected
count, and the strands that wait for the phase go on in a later beat. While the object's line is in move or offline nothing
changes. -/
def Sys2Proof.BarrierPhases : Prop :=
  ∀ (s : State) (b : Barrier) (rest : List Barrier), s.memOk → s.barriers = b :: rest → (∀ x ∈ rest, x.bid ≠ b.bid) →
    (∀ g, s.gang b.handle = some g → g.state = .running) →
    let h := s.barrierHome b
    (s.lineState (lineOf h) = some .inMove ∨ s.offline (lineOf h) = true → exec (.barrierArrivalCount b.bid) s = .next s)
    ∧ (s.lineState (lineOf h) ≠ some .inMove → s.offline (lineOf h) = false → s.unreachable (lineOf h) = false →
    s.soft.contains (lineOf h) = false → b.held = [] → 1 ≤ b.expected →
    let as := s.arrivals.filter fun a => a.bid == b.bid
    let who := as.map Arrival.who
    let gone := b.drops + as.countP fun a => a.kind == .drop
    who.Nodup → (∀ a ∈ as, a.who ∉ b.arrived) → (b.arrived ++ who).length ≤ b.expected → gone < b.expected →
    ∃ s', exec (.barrierArrivalCount b.bid) s = .next s' ∧ s'.arrivals = s.arrivals.filter (fun a => a.bid != b.bid)
      ∧ ((b.arrived ++ who).length < b.expected →
        s'.barriers = { b with arrived := b.arrived ++ who, drops := gone } :: rest ∧ s'.mem = s.mem
        ∧ ∀ t ∈ s'.strands, ∃ u ∈ s.strands, t = { u with arrs := t.arrs })
      ∧ ((b.arrived ++ who).length = b.expected →
        s'.barriers = { b with counter := b.counter + 1, arrived := [], expected := b.expected - gone, drops := 0 } :: rest
        ∧ wordAt s' h = b.counter + 1 ∧ (∀ a, a < h ∨ h + 8 ≤ a → Memory.get s'.mem a = Memory.get s.mem a)
        ∧ ∀ sid t phase, s.strand sid = some t → t.wait = .barrier b.bid phase →
          let d := (b.counter + 1 - phase).toNat
          ∃ t', s'.strand sid = some t' ∧ (1 ≤ d ∧ d < 2 ^ 63 →
              (t'.wait = .none ∧ t'.lbuf = [] ∨ t.viq = []) ∧ t'.stalled = true)
            ∧ (¬ (1 ≤ d ∧ d < 2 ^ 63) → t'.wait = t.wait ∧ t'.viq = t.viq)))

/-- The words an active `vwait` watches: element, address, target (R268). -/
def Sys2Proof.watched (t : Strand) (a : Vwait) : List (Nat × Word × Word) :=
  ((List.range t.vl).filter (admits t.k a.m)).map fun n =>
    (n, BitVec.ofNat 64 (elemGet t.v t.q a.va.toNat 64 n), BitVec.ofNat 64 (elemGet t.v t.q a.vb.toNat 64 n))

/-- R46, R261, R268: with `vl` = 0 `vwait` delivers MET and leaves the mask; else it reads its words: with all at their targets it delivers MET, the mask it writes is clear below `vl`, and
the regions of its words are acquired; with none of its sB beats left it delivers TIMEOUT and the mask names the unmet
elements; else it waits. VWAIT_MET and VWAIT_TIMEOUT end the wait so. Where its first word cannot be reached it stands with the
fault, its element named, with nothing done. -/
def Sys2Proof.VectorWaitResults : Prop :=
  let ended (s : State) (t : Strand) (a : Vwait) (vl : Nat) (vt : BitVec 12) (ws : List (Nat × Word × Word))
      (left : List Nat) (u u' : Strand) : Prop :=
    u' = { u with lbuf := u'.lbuf, k := u'.k, rq := u.rq ++ [(a.sd, if left = [] then 0 else 1)] }
    ∧ u'.lbuf = (ws.filter fun w => !left.contains w.1).foldl (fun l w => dropRegions l (s.bindingsOf t) w.2.1) t.lbuf
    ∧ (∀ n < vlmaxOf t.q vt, maskBit u'.k a.kd n = if a.kd = 0 then true else if n < vl then left.contains n
      else if tuOf vt then false else maskBit t.k a.kd n)
    ∧ ∀ r, r ≠ a.kd → ∀ n < 262144, maskBit u'.k r n = maskBit t.k r n
  (∀ (s : State) (t : Strand) (a : Vwait) (ta tb : Tag) (h : Nat → Nat), Ready s t [a.sb, a.sd] → t.idle →
    vtypeOk t.vtype = true → 1 ≤ t.q ∧ t.q ≤ 4 → t.vl ≤ vlmaxOf t.q t.vtype →
    SourceGroup t t.vtype a.va 64 ta → SourceGroup t t.vtype a.vb 64 tb → (ta = .raw ∨ ta.isInt = true) →
    (tb = .raw ∨ tb.isInt = true) →
    let ws := watched t a
    (t.vl = 0 → exec (.vwait a) s = .next (s.put (finished t [(a.sd, 0)])))
    ∧ (∀ w more, 1 ≤ t.vl → ws = w :: more → canonicalAll w.2.1 8 = false →
      exec (.vwait a) s = .next (s.put (refusedAt t (.vwait a) [a.sb] .addr w.2.1 w.1)))
    ∧ (1 ≤ t.vl → (∀ w ∈ ws, SyncAt s t.qctx w.2.1 .read (h w.1)) →
    let left := (ws.filter fun w => 2 ^ 63 ≤ (wordAt s (h w.1) - w.2.2).toNat).map Prod.fst
    let s1 := s.endSvc (.queue t.id.sid)
    (left = [] ∨ t.getS a.sb = 0 → ∃ u', exec (.vwait a) s = .next (s1.put u')
      ∧ ended s t a t.vl t.vtype ws left (finished t []) u')
    ∧ (left ≠ [] → t.getS a.sb ≠ 0 → exec (.vwait a) s
      = .next (s1.put { entered t (.vwait a) [a.sb] with wait := .flags ws (t.getS a.sb).toNat, held := none }))))
  ∧ ∀ (s : State) (sid : Nat) (t : Strand) (e : Entry) (rest : List Entry) (a : Vwait) (ws : List (Nat × Word × Word))
      (beats : Nat) (h : Nat → Nat), s.strand sid = some t → s.frontReady t = true → t.wait = .flags ws beats →
    t.viq = e :: rest → e.i = .vwait a → vtypeOk e.vtype = true → 1 ≤ t.q ∧ t.q ≤ 4 → e.vl ≤ vlmaxOf t.q e.vtype →
    (∀ w ∈ ws, SyncAt s t.qctx w.2.1 .read (h w.1)) → (ws.map Prod.fst).Nodup →
    let left := (ws.filter fun w => 2 ^ 63 ≤ (wordAt s (h w.1) - w.2.2).toNat).map Prod.fst
    let u := firstDone t rest []
    (left = [] → ∃ u', exec (.vwaitMet sid) s = .next ((s.endSvc (.queue sid)).put u')
      ∧ ended s t a e.vl e.vtype ws [] u u')
    ∧ (left ≠ [] → exec (.vwaitMet sid) s = .next (s.put { t with held := none }))
    ∧ (beats = 0 → ∃ u', exec (.vwaitTimeout sid) s = .next ((s.endSvc (.queue sid)).put u')
      ∧ ended s t a e.vl e.vtype ws left u u')

/-- R275, R277: `win.open` of a window that fits, on pages that admit atomics, clears its bytes in every lane and opens it;
`win.merge` adds to each word of the window's memory the word of every lane, modulo 2^EW for integers, and clears them;
`win.close` closes it. Without a window the last two stop with WIN_STATE. -/
def Sys2Proof.WindowInstructions : Prop :=
  (∀ (s : State) (t : Strand) (sa sb sc : SReg) (ty : Tag) (e e' : TlbEntry), Ready s t [sa, sb, sc] → t.idle →
    t.win = none → ty ∈ [Tag.i32, .n32, .i64, .n64, .f32, .f64] →
    let base := t.getS sa
    let size := (t.getS sb).toNat
    let off := (t.getS sc).toNat
    base.toNat % 8 = 0 → size % 8 = 0 → 8 ≤ size → size ≤ 256 * t.q → off % 8 = 0 → off + size ≤ 256 * t.q → t.q ≤ 4 →
    (∀ p ∈ [(base, e), (base + t.getS sb - 1, e')], Mapped s t.qctx p.1 1 .write p.2 ∧ pteAttr p.2.pte ≠ attrHost
      ∧ pteAttr p.2.pte ≠ attrFlash ∧ pteAttr p.2.pte ≠ attrSlab) →
    ∃ t', exec (.winOpen sa sb sc ty) s = .next ((s.endSvc (.queue t.id.sid)).put t')
      ∧ t' = { finished t [] with lane := t'.lane, win := some ⟨base, size, off, ty⟩ }
      ∧ ∀ lane < 256, ∀ b < 1024, laneGet t'.lane lane (8 * b) 8
        = if off ≤ b ∧ b < off + size then 0 else laneGet t.lane lane (8 * b) 8)
  ∧ (∀ (s : State) (t : Strand), s.curStrand = some t → t.idle →
    exec .winClose s = .next (s.put (if t.win.isSome then { finished t [] with win := none }
      else refusedAt t .winClose [] .winState 0 0))
    ∧ (t.win = none → exec .winMerge s
      = .next (s.put (refusedAt t .winMerge [] .winState 0 0))))
  ∧ ∀ (s : State) (t : Strand) (wd : Window) (ent : Nat → TlbEntry) (h : Nat → Nat) (w : Nat), s.memOk → s.curStrand = some t →
    t.idle → t.win = some wd → wd.ty.width = some w → (w = 32 ∨ w = 64) → wd.ty.isInt = true → wd.size % (w / 8) = 0 →
    wd.off + wd.size ≤ 1024 →
    let va (n : Nat) : Word := wd.base + BitVec.ofNat 64 (n * (w / 8))
    let count := wd.size / (w / 8)
    (∀ n < count, Mapped s t.qctx (va n) (w / 8) .both (ent n) ∧ Served s t.qctx (va n) (ent n) (h n)
      ∧ pteAttr (ent n).pte ≠ attrHost) →
    (∀ n < count, ∀ k < count, n ≠ k → h n + w / 8 ≤ h k ∨ h k + w / 8 ≤ h n) →
    ∃ s' t', exec .winMerge s = .next s' ∧ s'.strand t.id.sid = some t' ∧ SameOthers s s' t.id.sid
      ∧ s' = { s with strands := s'.strands, svcs := s'.svcs, mem := s'.mem, lines := s'.lines }
      ∧ (∀ l, s'.lineState l = s.lineState l)
      ∧ (∀ n < count, Memory.read s'.mem (h n) (w / 8) = (Memory.read s.mem (h n) (w / 8)
          + ((List.range 256).map fun i => laneGet t.lane i (8 * (wd.off + n * (w / 8))) w).sum) % 2 ^ w)
      ∧ (∀ a, (∀ n < count, a < h n ∨ h n + w / 8 ≤ a) → Memory.get s'.mem a = Memory.get s.mem a)
      ∧ t' = { finished t [] with lane := t'.lane, lbuf := t'.lbuf }
      ∧ ∀ lane < 256, ∀ b < 1024, laneGet t'.lane lane (8 * b) 8
        = if wd.off ≤ b ∧ b < wd.off + wd.size then 0 else laneGet t.lane lane (8 * b) 8

/-- The copy `cpy`, `cpy.2d`, `cpy.fl` and `cpy.move` hand to their engine: the remainder and the alignments they check
first. -/
def Sys2Proof.copyOf (t : Strand) : Instr → Option (Remainder × List (Word × Nat))
  | .cpy a => some (⟨0, a.sd, t.getS a.sa, t.getS a.sb, (t.getS a.sc).toNat, 1, 0, 0, 0, 0⟩,
      [(t.getS a.sa, 8), (t.getS a.sb, 8), (t.getS a.sc, 8)])
  | .cpy2d a => some (⟨1, a.sd, t.getS a.sa, t.getS a.sb, (t.getS a.sc).toNat, (t.getS a.se).toNat, (t.getS a.sc).toNat,
      t.getS a.sf, t.getS a.sg, 0⟩,
      [(t.getS a.sa, 8), (t.getS a.sb, 8), (t.getS a.sc, 8), (t.getS a.sf, 8), (t.getS a.sg, 8)])
  | .cpyFl a => some (⟨2, a.sd, t.getS a.sa, t.getS a.sb, (t.getS a.sc).toNat, 1, 0, 0, 0, 0⟩,
      [(t.getS a.sa, 128), (t.getS a.sb, 4096), (t.getS a.sc, 4096)])
  | .cpyMove a => some (⟨3, a.sd, t.getS a.sa, t.getS a.sb, (t.getS a.sc).toNat, 1, 0, 0, 0, 0⟩,
      [(t.getS a.sa, 128), (t.getS a.sb, 128), (t.getS a.sc, 128)])
  | _ => none

/-- R110, R278, R280: a copy with aligned operands enters the copies of its strand with its token, which is pending from then
on unless it is s0, and completes as an instruction at once; an operand that is not aligned stops it with ALIGN. That the record
names the first such operand is the model's reading (log 43). -/
def Sys2Proof.CopyInstructions : Prop :=
  ∀ (s : State) (t : Strand) (i : Instr) (ops : List SReg) (rem : Remainder) (checks : List (Word × Nat)),
    copyOf t i = some (rem, checks) → soloRegs i = some (ops, [rem.token]) → Ready s t (ops ++ [rem.token]) → t.idle →
    (s.copiesOf t.id.sid).length < 32 →
    ((∀ p ∈ checks, p.1.toNat % p.2 = 0) → exec i s = .next (State.put { s with
      copies := s.copies ++ [⟨s.nextCid, some t.id.sid, t.id.asid, s.moverOf t, rem, none, false, none⟩]
      nextCid := s.nextCid + 1 } { finished t [] with
        tokp := if rem.token = 0 then t.tokp else t.tokp ||| (1#32 <<< rem.token.toNat) }))
    ∧ ∀ pre x a post, checks = pre ++ (x, a) :: post → (∀ p ∈ pre, p.1.toNat % p.2 = 0) → x.toNat % a ≠ 0 →
      exec i s = .next (s.put (refusedAt t i ops .align x 0))

/-! ## Heads that do not run, exchanges -/

/-- R152, R162, R165: a head that is refused, or whose line cannot be fetched, takes the exception at the PC once nothing older
is left, and until then the fault waits behind the entries of the VIQ with the convoy closed, unless one waits there already;
behind an access that has not delivered the head waits. SIDE 1 in its record is the model's reading (log 41). -/
def Sys2Proof.HeadFaults : Prop :=
  ∀ (s : State) (t : Strand) (c : Cause) (a v : Word), s.curStrand = some t →
    ∀ p ∈ [(Instr.illegalHead c, (⟨c, 0, 0, 0, true, t.pc⟩ : Trapped)),
        (.instructionFetchFault c a v, ⟨c, a, v, 0, true, t.pc⟩)],
      (t.idle → exec p.1 s = .next (s.takeTrap t p.2 t.pc [] 0 none))
      ∧ (t.acc = none → ¬ t.idle → exec p.1 s = .next (s.put { t with
          copen := false, fresh := true, vfault := t.vfault.orElse fun _ => some ⟨t.viq.length, p.2, 0, none⟩, stalled := true, hold := none }))
      ∧ (t.acc.isSome = true → exec p.1 s = .next (s.put { t with copen := false, fresh := true, stalled := true }))

/-- R231: two offers of one gang that name each other with one key and one element width end with the other's elements and
status 0; an offer 2,048 beats old ends with status 1 and nothing else, a younger one stays. The exchange that has ended writes,
with status 0, the peer's element into each active element of vD below `vl`, all-zero bits where the peer has none, gives vD
the peer's tag and sD 0; with status 1 it gives sD 1 and leaves vD. -/
def Sys2Proof.ExchangeEvents : Prop :=
  (∀ (s : State) (x y : Nat) (t u : Strand) (o p : Xoffer), x ≠ y → s.strand x = some t → s.strand y = some u →
    t.xch = .offered o → u.xch = .offered p → t.id.handle = u.id.handle → o.peer = u.id.tid → p.peer = t.id.tid →
    o.key = p.key → t.status ≠ .struck → u.status ≠ .struck → o.ew = p.ew →
    ∃ s', exec (.vxchMatch x y) s = .next s' ∧ s' = { s with strands := s'.strands, freeCtr := s'.freeCtr }
      ∧ s'.strand x = some { t with xch := .ended ⟨0, p.tag, p.data⟩ }
      ∧ s'.strand y = some { u with xch := .ended ⟨0, o.tag, o.data⟩ }
      ∧ ∀ n, n ≠ x → n ≠ y → s'.strand n = s.strand n)
  ∧ (∀ (s : State) (sid : Nat) (t : Strand) (o : Xoffer), s.strand sid = some t → t.xch = .offered o →
    exec (.vxchTimeout sid) s
      = .next (if s.tick - o.since ≥ 2048 then s.put { t with xch := .ended ⟨1, .raw, []⟩ } else s))
  ∧ ∀ (s : State) (sid : Nat) (t : Strand) (e : Entry) (a : Xch) (ty pt : Tag) (data : List Word), Alone s sid t e → Setting t e →
    e.i = .vxch a →
    let w := ewOf e.vtype
    let peer := (e.ops.getD 0 0).toNat
    groupOk a.vd.toNat (groupSize e.vtype w) = true → SourceGroup t e.vtype a.va w ty → Clear e.vtype a.vd w a.va w →
    peer < t.id.gsz → peer ≠ t.id.tid →
    let at_ (d : Xdone) : State := s.put { t with xch := .ended d }
    Performs (at_ ⟨0, pt, data⟩) sid e (some 0) (fun s' t' =>
      Wrote (at_ ⟨0, pt, data⟩) s' { t with xch := .ended ⟨0, pt, data⟩ } t' e a.vd.toNat w pt fun n =>
        under t e a.m n (keptBits pt (data.getD n 0).toNat, 0))
    ∧ Performs (at_ ⟨1, .raw, []⟩) sid e (some 1) fun s' t' =>
      Delivered (at_ ⟨1, .raw, []⟩) s' { t with xch := .ended ⟨1, .raw, []⟩ } t' e []

/-! ## Keystones -/

/-- Two requests that may combine (R272): one integer operation other than swp and cas, or float sums that both carry
`.reassoc`; one width, ordering, partition, home and way. -/
def Sys2Proof.Alike (a b : Request) (k : ReqKind) : Prop :=
  a.kind = k ∧ b.kind = k ∧ ((∃ op, k = .amo op ∧ op ≠ .swp ∧ op ≠ .cas) ∨ k = .fadd true) ∧ a.part = b.part
    ∧ a.home = b.home ∧ a.n = b.n ∧ a.ord = b.ord ∧ a.route = b.route

/-- A fold of words of `n` bytes (R273, R274): the operation of R176, or a float sum to nearest even with its flags. -/
def Sys2Proof.foldedWord (k : ReqKind) (n : Nat) (x y : Word) : Word × Flags :=
  let m := 2 ^ (8 * n)
  match k with
  | .amo op => (BitVec.ofNat 64 (atomicNew op n (x.toNat % m) y.toNat 0), 0)
  | .fadd _ =>
    let f := if n = 4 then fmtF32 else fmtF64
    let z := f.deliver .rne false (exAdd .rne (f.unpack (x.toNat % m)) (f.unpack (y.toNat % m)))
    (BitVec.ofNat 64 z.1, z.2)
  | _ => (x, 0)

/-- R138, R272 to R274: KEYSTONE_COMBINE folds two requests of a tick that may combine into one with the folded operand, which
leaves for their home, and keeps the pair in its wait buffer while that has room; KEYSTONE_SPLIT_REPLY gives the left part the
reply's value and the right part that value with the left operand applied (which parts carry the flags: log 31);
COMBINED_REDIRECT_REISSUE sends what came back as a redirect on, to the next keystone of its new way or to its home. That the
folded request keeps the left part's address space, strand, address and hops is the model's choice (log 69). -/
def Obligations.KeystoneEvents : Prop :=
  (∀ (s : State) (k : Keystone) (a b : Request) (op : ReqKind), s.keystones = [k] → k.queue = [a, b] → a.stalled = false →
    b.stalled = false → a.port ≤ b.port → Alike a b op → a.route = [] →
    exec (.keystoneCombine k.ks) s = .next (if k.buf.length < 32 then { s with
        nextRid := s.nextRid + 1
        keystones := [{ k with
          queue := [], buf := ⟨s.nextRid, a.rid, b.rid, a.data, op, a.n, (foldedWord op a.n a.data b.data).2⟩ :: k.buf }]
        requests := s.requests ++ [{ a with
          rid := s.nextRid, stalled := true, data := (foldedWord op a.n a.data b.data).1, via := a.via ++ b.via }] }
      else { s with
        keystones := [{ k with queue := [] }]
        requests := s.requests ++ [{ a with stalled := true }, { b with stalled := true }] }))
  ∧ (∀ (s : State) (k : Keystone) (w : WaitEntry) (post : List WaitEntry) (ans : Answer) (fl : Flags) (rest : List Reply),
    s.keystones = [k] → k.buf = w :: post → s.replies = ⟨w.rid, ans, fl⟩ :: rest → (∀ x ∈ post, x.rid ≠ w.rid) →
    (∀ x ∈ rest, x.rid ≠ w.rid) → (∀ t ∈ s.strands, t.vamo = none) →
    exec (.keystoneSplitReply k.ks) s = .next { s with
      replies := rest ++ [⟨w.left, ans, fl ||| w.flags⟩, match ans with
        | .value v => ⟨w.right, .value (foldedWord w.kind w.n v w.opnd).1,
            (fl ||| w.flags) ||| (foldedWord w.kind w.n v w.opnd).2⟩
        | f => ⟨w.right, f, fl ||| w.flags⟩]
      keystones := [{ k with buf := post }] })
  ∧ ∀ (s : State) (k x : Keystone) (r : Request) (port : Nat) (rest : List (Nat × Nat)), s.keystones = [k, x] → x.ks ≠ k.ks →
    k.redir = [r] →
    (r.route = [] → exec (.combinedRedirectReissue k.ks) s
      = .next { s with requests := s.requests ++ [r], keystones := [{ k with redir := [] }, x] })
    ∧ (r.route = (x.ks, port) :: rest → exec (.combinedRedirectReissue k.ks) s
      = .next { s with keystones := [{ k with redir := [] }, { x with queue := x.queue ++ [{ r with route := rest, port := port }] }] })

/-! ## Copies -/

/-- A copy whose engine may go on. -/
def Sys2Proof.Copying (s : State) (c : CopyOp) (form : BitVec 2) : Prop :=
  s.copies.find? (fun x => x.cid == c.cid) = some c ∧ s.copyReady c = true ∧ c.rem.form = form

/-- A line at an address of a copy's address space: a plain line that answers, on a page with line state that permits the
access (R127). -/
def Sys2Proof.LineAt (s : State) (c : CopyOp) (va : Word) (need : Need) (h : Nat) : Prop :=
  h % 128 = 0 ∧ ∃ e, Mapped s c.ctx va 128 need e ∧ Served s c.ctx va e h ∧ hasLines (pteAttr e.pte) = true

/-- R110, R111, R117, R121, R127, R128, R279, R311: MOVE_LINE_MARK sets a plain source line in move; MOVE_LINE_COMMIT gives the
destination its data and the source a record that names the destination, marks the source forwarded and goes on by a line;
COPY_COMPLETION of a move with no line left, or of a copy of whole lines that answer, ends it with completion value 0, and the
destination lines hold the bytes of the source lines; a move of the tier manager or of another service of the supervisor covers
every line of its object with MOVER kind 1 or 2, but the tier manager moves nothing of whose lines the placement map fixes a
byte, and in minimal mode neither acts (R408). -/
def Obligations.CopyEvents : Prop :=
  (∀ (s : State) (c : CopyOp) (h d : Nat), Copying s c 3 → c.moving = none → c.rem.left ≠ 0 →
    LineAt s c c.rem.nsrc .read h → LineAt s c c.rem.ndst .write d →
    exec (.moveLineMark c.cid) s = .next { s with
      lines := Cells.put s.lines (lineOf h) (some .inMove)
      copies := updWhere s.copies (fun x => x.cid == c.cid) fun _ => { c with moving := some ⟨lineOf h, 0⟩, held := none } })
  ∧ (∀ (s : State) (c : CopyOp) (m : Moving) (d : Nat), s.memOk → Copying s c 3 → c.moving = some m →
    LineAt s c c.rem.ndst .write d → lineOf d ≠ m.src → (∀ q ∈ s.requests, ∀ x, q.held = some x → x.1 ≠ m.src) →
    ∃ s', exec (.moveLineCommit c.cid) s = .next s'
      ∧ s'.lineData (lineOf d) = s.lineData m.src
      ∧ s'.lineData m.src
        = (BitVec.ofNat 16 (min (m.hops + 1) 65535) ++ c.mover ++ c.asid ++ c.rem.ndst : BitVec 128).setWidth 1024
      ∧ (∀ a, lineOf a ≠ lineOf d → lineOf a ≠ m.src → Memory.get s'.mem a = Memory.get s.mem a)
      ∧ s'.lineState m.src = some .forwarded ∧ (∀ l, l ≠ m.src → s'.lineState l = s.lineState l)
      ∧ s'.copies = updWhere s.copies (fun x => x.cid == c.cid) fun _ => { c with
          moving := none
          held := none
          rem := { c.rem with
            ndst := c.rem.ndst + 128, nsrc := c.rem.nsrc + 128, left := c.rem.left - 128, done := c.rem.done + 128 } })
  ∧ (∀ (s : State) (c : CopyOp) (sid : Nat) (t : Strand), s.strand sid = some t → c.owner = some sid → c.rem.token ≠ 0 →
    let ended (s' : State) : Prop := s'.copies = s.copies.filter (fun x => x.cid != c.cid) ∧ SameOthers s s' sid
      ∧ ∃ t', s'.strand sid = some t' ∧ t' = { t.setS c.rem.token 0 with
          tokp := t.tokp &&& ~~~(1#32 <<< c.rem.token.toNat), record := t'.record, lbuf := t'.lbuf
          acc := t.acc.map fun a => { a with back := { a.back with s := a.back.s.set c.rem.token.toNat 0 c.rem.token.isLt } } }
    (Copying s c 3 → c.moving = none → c.rem.left = 0 →
      ∃ s', exec (.copyCompletion c.cid) s = .next s' ∧ ended s' ∧ s'.mem = s.mem ∧ s'.lines = s.lines)
    ∧ ∀ (n : Nat) (h d : Nat → Nat), s.memOk → Copying s c 0 → c.rem.rows = 1 → c.rem.rowb = 0 → c.rem.left = 128 * n →
      (∀ i < n, LineAt s c (c.rem.nsrc + BitVec.ofNat 64 (128 * i)) .read (h i)
        ∧ LineAt s c (c.rem.ndst + BitVec.ofNat 64 (128 * i)) .write (d i)) →
      (∀ i < n, ∀ j < n, lineOf (h i) ≠ lineOf (d j) ∧ (i ≠ j → lineOf (d i) ≠ lineOf (d j))) →
      ∃ s', exec (.copyCompletion c.cid) s = .next s' ∧ ended s'
        ∧ (∀ i < n, s'.lineData (lineOf (d i)) = s.lineData (lineOf (h i)))
        ∧ (∀ a, (∀ i < n, lineOf a ≠ lineOf (d i)) → Memory.get s'.mem a = Memory.get s.mem a)
        ∧ ∀ l, s'.lineState l = s.lineState l)
  ∧ ∀ (s : State) (asid : BitVec 16) (src dst : Word) (len : Nat) (mover : Mover), 1 ≤ len →
    let moved : Prop := ∃ rem : Remainder, exec (.tierManagerMove asid src dst len mover) s = .next { s with
        copies := s.copies ++ [⟨s.nextCid, none, asid, BitVec.ofNat 32 ((if mover.other then 2 else 1) * 2 ^ 28 + mover.id.toNat), rem,
          none, false, none⟩]
        nextCid := s.nextCid + 1 }
      ∧ rem.form = 3 ∧ rem.token = 0 ∧ rem.done = 0
      ∧ rem.nsrc.toNat = src.toNat / 128 * 128 ∧ rem.ndst.toNat = dst.toNat / 128 * 128
      ∧ rem.left = ((src.toNat + len - 1) / 128 - src.toNat / 128 + 1) * 128
    let first := src.toNat % 2 ^ 52 / 128 * 128
    let fixed : Prop := ∃ p ∈ s.placement, p.asid = asid ∧ p.base.toNat % 2 ^ 52 < first + ((src.toNat + len - 1) / 128 - src.toNat / 128 + 1) * 128 ∧ first < p.base.toNat % 2 ^ 52 + p.len
    (s.boot.minimal = false → mover.other = true ∨ ¬ fixed → moved)
    ∧ (s.boot.minimal = true ∨ mover.other = false ∧ fixed → exec (.tierManagerMove asid src dst len mover) s = .next s)

/-! ## Faults delivered and answered -/

/-- R351, R356: FAULT_SERVICE_ANSWER ends the wait of every access of the address space at the page: one more try for a RETRY,
a denial else; WALK_MIG_RETRY lets an agent's walk start again 64 beats after it met a node under migration. -/
def Sys2Proof.FaultServices : Prop :=
  (∀ (s : State) (asid : BitVec 16) (page : Word) (retry : Bool),
    exec (.faultServiceAnswer asid page retry) s = .next { s with svcs := s.svcs.map fun v =>
      if v.asid = asid ∧ v.page = page.toNat % 2 ^ 52 / 2 ^ 16 ∧ v.state = SvcState.waiting then
        if retry then { v with tries := v.tries + 1, state := .retried } else { v with state := .denied }
      else v })
  ∧ ∀ (s : State) (sid : Nat), sid < 2304 →
    let mine (a : Agent) : Bool := match a with
      | .strand n | .queue n | .request n _ => n == sid
      | _ => false
    exec (.walkMigRetry sid) s = .next { s with
      svcs := s.svcs.map fun v => if mine v.who = true ∧ v.state = SvcState.migWait ∧ 64 ≤ s.tick - v.since
          then { v with state := .retried }
        else v }

/-- What is accessed from outside in an address space: an aligned word or block that answers (R351, R367). -/
def Sys2Proof.OutsideAt (s : State) (asid : BitVec 16) (va : Word) (n : Nat) (need : Need) (h : Nat) : Prop :=
  ∃ e, Mapped s (s.outsideCtx asid) va n need e ∧ Served s (s.outsideCtx asid) va e h

/-- The bytes a read from outside gives from `va` upward. -/
def Sys2Proof.OutsideBytes (s : State) (asid : BitVec 16) (va : Word) (bs : List Byte) : Prop :=
  ∀ i, ∀ b, bs[i]? = some b → ∃ h, OutsideAt s asid (va + BitVec.ofNat 64 i) 1 .read h ∧ Memory.get s.mem h = b

/-- A trapped strand and its record. -/
def Sys2Proof.TrappedWith (s : State) (sid : Nat) (t : Strand) (r : Record) : Prop :=
  s.strand sid = some t ∧ t.status = .trapped ∧ t.record = some r

/-- R134, R135, R347: FWD_CHAIN_REPAIR of a chain whose first line may be written and forwards no more dispatches the strand
again from its record, which passes its checks; where the relink faults, the record takes that cause and the trap is one for the
host. -/
def Sys2Proof.ChainRepair : Prop :=
  ∀ (s : State) (sid : Nat) (t : Strand) (r : Record), TrappedWith s sid t r → t.notice = false → t.unrepaired = false →
    r.info.cause = .fwdChain →
    let key := (s.partOf t.id.asid).toNat
    (∀ e, recordOk r.bytes = true → Mapped s (s.outsideCtx t.id.asid) r.info.value 1 .write e →
      (hasLines (pteAttr e.pte) = true → s.lineState (lineOf (entryHome e (va52 r.info.value))) ≠ some .inMove
        ∧ s.lineState (lineOf (entryHome e (va52 r.info.value))) ≠ some .forwarded
        ∧ s.closed (lineOf (entryHome e (va52 r.info.value))) = false) →
      exec (.fwdChainRepair sid) s = .next ((s.outsideDone key).resumeTrap t r))
    ∧ (canonical r.info.value = false →
      exec (.fwdChainRepair sid) s = .next ((s.outsideDone key).put
        { t with unrepaired := true, record := some { r with info := { r.info with cause := .addr } } }))

/-- R348: FAULT_NOTICE of a trap that is not repaired writes the 64 bytes of its notice at the ring entry of FR_TAIL, advances
FR_TAIL by 1 and keeps the notice for its answer; a full ring keeps it waiting. -/
def Sys2Proof.FaultNotices : Prop :=
  ∀ (s : State) (sid : Nat) (t : Strand) (r : Record) (p : Page) (h : Nat), s.memOk → TrappedWith s sid t r →
    t.notice = false → (r.info.cause = .fwdChain → t.unrepaired = true) → s.page t.id.asid = some p → p.frBase ≠ 0 →
    ((p.frTail - p.frHead).toNat = p.frSize.toNat → exec (.faultNotice sid) s = .next s)
    ∧ ((p.frTail - p.frHead).toNat ≠ p.frSize.toNat →
      OutsideAt s t.id.asid (p.frBase + BitVec.ofNat 64 (64 * (p.frTail.toNat % p.frSize.toNat))) 64 .write h →
      ∃ s', exec (.faultNotice sid) s = .next s'
        ∧ (wordAt s' h = r.info.pc ∧ wordAt s' (h + 8) = r.info.addr ∧ wordAt s' (h + 16) = r.info.value
          ∧ Memory.read s'.mem (h + 24) 4 = causeCode r.info.cause
          ∧ Memory.read s'.mem (h + 28) 4 = r.info.elem % 2 ^ 32 ∧ Memory.read s'.mem (h + 32) 4 = t.id.tid % 2 ^ 32
          ∧ Memory.read s'.mem (h + 36) 4 = t.id.gid.toNat ∧ Memory.read s'.mem (h + 40) 24 = 0)
        ∧ (∀ a, a < h ∨ h + 64 ≤ a → Memory.get s'.mem a = Memory.get s.mem a)
        ∧ s'.pages = updWhere s.pages (fun x => x.asid == t.id.asid) (fun x => { x with frTail := x.frTail + 1 })
        ∧ s'.notices = s.notices ++ [⟨t.id.asid, p.frTail, t.id.handle, t.id.tid, r.info.cause⟩]
        ∧ s'.strand sid = some { t with notice := true } ∧ SameOthers s s' sid)

/-- No request is held at a line in move. -/
def Sys2Proof.NoneHeld (s : State) : Prop :=
  ∀ c ∈ s.copies, ∀ m, c.moving = some m → ∀ q ∈ s.requests, ∀ x, q.held = some x → x.1 ≠ m.src

/-- No strand of the gang left, every other strand as before, the gang's quarters with this STATE. -/
structure Sys2Proof.GangGone (s s' : State) (g : Gang) (state : Nat) : Prop where
  gone : ∀ t ∈ s'.strands, t.id.handle ≠ g.handle
  others : ∀ t ∈ s.strands, t.id.handle ≠ g.handle → t ∈ s'.strands
  slots : Cells.rising s.slots = true → ∀ n ∈ s.slotsOf g, slotState (s'.slot n) = state

/-- The gang has been stopped and its task waits to complete with a status; until then its quarters are stopping (R362, R376,
R379). -/
def Sys2Proof.Failed (s s' : State) (g : Gang) (status : Nat) : Prop :=
  GangGone s s' g 5 ∧ s'.mem = s.mem ∧ (s'.gang g.handle).map Gang.state = some (.failing status) ∧ s'.cards = s.cards

/-- The gang has been stopped, its quarters are vacant, and its task is back in its queue (R362, R386). -/
def Sys2Proof.Requeued (s s' : State) (g : Gang) : Prop :=
  GangGone s s' g 0 ∧ s'.mem = s.mem ∧ s'.gang g.handle = none
    ∧ ∀ c ∈ s.cards, c.cid = g.card → ∃ c' ∈ s'.cards, c'.cid = c.cid ∧ (g.started = true → g.g ∈ c'.requeue)

/-- R347, R382: the three answers to an outstanding notice of a resident gang: a resume dispatches the trapped strand from its
record, which passes its checks, a resume past for a `brk` from the head after it, an end stops the gang with FAULTED; a resume
past for another cause, and any answer that names no outstanding notice, change nothing. -/
def Sys2Proof.FaultAnswers : Prop :=
  ∀ (s : State) (asid : BitVec 16) (n : BitVec 32),
    (∀ x g t r, s.notices.find? (fun y => y.asid == asid && y.n == n) = some x → s.gang x.handle = some g →
      g.state = .running → s.member x.handle x.tid = some t → t.status = .trapped → t.record = some r →
      let s1 : State := { s with notices := s.notices.filter fun y => !(y.asid == asid && y.n == n) }
      (recordOk r.bytes = true → exec (.fanswerResume asid n) s = .next (s1.resumeTrap t r))
      ∧ (NoneHeld s → ∃ s', exec (.fanswerEnd asid n) s = .next s' ∧ Failed s s' g 2)
      ∧ (x.cause = .brk → recordOk r.bytes = true → exec (.fanswerResumePast asid n) s
        = .next (s1.resumeTrap t { r with pcNext := r.pcNext + 2 }))
      ∧ (x.cause ≠ .brk → exec (.fanswerResumePast asid n) s = .next s))
    ∧ (s.notices.find? (fun y => y.asid == asid && y.n == n) = none →
      ∀ i ∈ [Instr.fanswerResume asid n, .fanswerEnd asid n, .fanswerResumePast asid n], exec i s = .next s)

/-! ## Ends of strands and gangs -/

/-- R29, R58: STRAND_RETIRE of a strand that has dispatched `end` and has nothing left marks it ended, its quarters read STATE 3,
and the flags of its lanes join those of the task; one that has something left stays. -/
def Sys2Proof.StrandRetires : Prop :=
  ∀ (s : State) (sid : Nat) (t : Strand), s.strand sid = some t →
    (t.status = .ending → t.viq = [] → t.rq = [] → t.acc = none → t.vfault = none → t.tokp = 0 → s.copiesOf sid = [] →
      ∃ s', exec (.strandRetire sid) s = .next s'
        ∧ s' = { s with strands := s'.strands, gangs := s'.gangs, slots := s'.slots }
        ∧ s'.strand sid = some { t with status := .ended } ∧ SameOthers s s' sid
        ∧ (∀ k ∈ t.slotIds, slotState (s'.slot k) = 3)
        ∧ (∀ k, k ∉ t.slotIds → s'.slot k = s.slot k)
        ∧ (∀ h, h ≠ t.id.handle → s'.gang h = s.gang h)
        ∧ ∀ g, s.gang t.id.handle = some g → ∃ f : BitVec 7, s'.gang t.id.handle = some { g with flags := f }
          ∧ ∀ b < 7, f.getLsbD b = (g.flags.getLsbD b || (List.range 256).any fun l => t.lflags.getLsbD (8 * l + b)))
    ∧ (t.status ≠ .ending ∨ t.viq ≠ [] ∨ t.rq ≠ [] ∨ t.acc ≠ none ∨ t.vfault ≠ none ∨ t.tokp ≠ 0 ∨ s.copiesOf sid ≠ [] →
      exec (.strandRetire sid) s = .next s)

/-- R15, R30, R378 to R380: GANG_COMPLETION writes the completion word, with its status, the task's flags and its number, and
the post word where the card has one; then the gang, its strands and quarters are free and the card counts one task more. It
does so for a gang whose strands have all ended (OK), for one stopped for good, and for an offered task outside its card's
range of vl (status 1). A task that never ran counts as started as it completes (R32). -/
def Sys2Proof.GangCompletes : Prop :=
  ∀ (s : State) (h : BitVec 16) (c : Card) (hb hp : Nat), s.memOk →
    let lands (n : Nat) : Prop := OutsideAt s c.asid (cardCwaddr c.bits + BitVec.ofNat 64 (8 * n)) 8 .write hb
      ∧ (cardPost c.bits = 0 ∨ OutsideAt s c.asid (cardPost c.bits) 8 .write hp ∧ (hp + 8 ≤ hb ∨ hb + 8 ≤ hp))
    let written (s' : State) (w : Word) : Prop := wordAt s' hb = w ∧ (cardPost c.bits ≠ 0 → wordAt s' hp = w)
      ∧ ∀ a, (a < hb ∨ hb + 8 ≤ a) → (cardPost c.bits = 0 ∨ a < hp ∨ hp + 8 ≤ a) → Memory.get s'.mem a = Memory.get s.mem a
    let counted (g : Gang) (x : Card) : Card :=
      if g.started then x else if x.requeue.contains g.g then { x with requeue := x.requeue.erase g.g }
      else { x with started := x.started + 1 }
    (∀ (g : Gang) (status : Nat), s.gang h = some g → s.cardOf g = some c → NoneHeld s → lands g.g →
      g.state = .failing status ∧ status < 7 ∨ (g.state = .running ∨ g.state = .saving) ∧ s.allEnded g = true ∧ status = 0 →
      ∃ s', exec (.gangCompletion h.toNat) s = .next s'
        ∧ written s' (BitVec.ofNat 64 (status * 2 ^ 48 + g.flags.toNat * 2 ^ 32 + g.g % 2 ^ 32))
        ∧ GangGone s s' g 0 ∧ s'.gang h = none
        ∧ s'.cards = (updWhere s.cards (fun x => x.cid == c.cid) fun x => { counted g x with done := x.done + 1 }).filter
          fun x => x.cid != c.cid || x.done < cardTasks x.bits)
    ∧ ∀ o, s.gang h = none → s.offers.find? (fun x => x.handle == h) = some o →
      s.cards.find? (fun x => x.cid == o.card) = some c → cardVlOk c.bits = false → lands o.g →
      ∃ s', exec (.gangCompletion h.toNat) s = .next s'
        ∧ written s' (BitVec.ofNat 64 (2 ^ 48 + o.g % 2 ^ 32))

/-! ## Submission -/

/-- R363 to R367, R190: SUBMIT_CARD of a card that passes the checks, with no footprint and no bindings, enters its queue and
succeeds; a full queue gives RETRY, every other card Unsupported Request; a posted write to the window only counts in DROPS. -/
def Sys2Proof.Submission : Prop :=
  ∀ (s : State) (asid : BitVec 16) (p : Page) (off : Nat) (data : List Byte), s.page asid = some p →
    let bits := BitVec.ofNat 1024 (leNat data)
    let queue := cardQueue bits
    let answered (x : Completion) : State := { s.outsideDone (s.partOf asid).toNat with completion := x }
    let well := off % 128 = 0 ∧ off < 0x8000 ∧ data.length = 128
    (¬ well → exec (.submitCard asid off data) s = .next { s with completion := .unsupported })
    ∧ (well → s.queueOpen asid queue = false ∨ s.cardFieldsOk asid bits = false →
      exec (.submitCard asid off data) s = .next (answered .unsupported))
    ∧ (well → s.queueOpen asid queue = true → s.cardFieldsOk asid bits = true → cardNfoot bits = 0 → cardNbind bits = 0 →
      (s.schedulerFull queue = true → exec (.submitCard asid off data) s = .next (answered .retry))
      ∧ (s.schedulerFull queue = false → ∃ s', exec (.submitCard asid off data) s = .next s' ∧ s'.completion = .success
        ∧ s'.cards = s.cards ++ [⟨s.nextCard, asid, queue, bits, [], [], [], 0, 0, [], [], s.tick⟩]
        ∧ s'.nextCard = s.nextCard + 1 ∧ s'.mem = s.mem ∧ s'.strands = s.strands))
    ∧ exec (.cardWindowPostedWrite asid) s
      = .next { s with pages := updWhere s.pages (fun x => x.asid == asid) fun x => { x with drops := x.drops + 1 } }

/-- R5, R311, R348, R350, R363, R365, R376, R382, R392, R393, R398, R405, R406: writes of the registers of submission pages and of
the supervisor's tables: a ring's base or size also clears its head and tail; a head moves; an error register clears; a PART is
taken by a vacant quarter only; a register that may only be read and an unlisted offset of a page keep what they hold; the card
window counts a drop; a host reads a page by offset, 0 at the window, FANSWER and unlisted offsets; a port takes its mode once;
a route, a decoder's base and a fixed range stand as written; in minimal mode the supervisor writes none of its own (R408). Where a
value holds a port's mode, a route, a decoder's base and a fixed range is the model's choice (log 25). -/
def Sys2Proof.RegisterWrites : Prop :=
  ∀ (s : State) (asid : BitVec 16) (size : Bool) (w : Word) (x : BitVec 128) (vf : BitVec 2) (n : Nat) (part : BitVec 2),
    let page (f : Page → Page) : State := { s with pages := updWhere s.pages (fun p => p.asid == asid) f }
    let written : List Nat := [0x8000, 0x8008, 0x8010, 0x8020, 0x8028, 0x8030]
    exec (.scrConfigWrite asid size w) s = .next (page fun p => if size then { p with scrSize := w, scrHead := 0, scrTail := 0 }
        else { p with scrBase := w, scrHead := 0, scrTail := 0 })
    ∧ exec (.frConfigWrite asid size w) s = .next (page fun p => if size then { p with frSize := w, frHead := 0, frTail := 0 }
        else { p with frBase := w, frHead := 0, frTail := 0 })
    ∧ exec (.faultRingHeadWrite asid w) s = .next (page fun p => { p with frHead := w.setWidth 32 })
    ∧ exec (.errorRegisterWrite vf w) s = .next { s with vfs := s.vfs.set vf.toNat { s.vfs[vf.toNat] with error := 0 } }
    ∧ exec (.slotPartWrite n part) s = .next (if n < 2304 ∧ slotState (s.slot n) = 0 ∧ s.boot.minimal = false then
        s.setSlot n (setSlice (s.slot n) 28 part) else s)
    ∧ (∀ r ∈ [RegName.frTail asid, .scrTail asid, .drops asid, .bootStatus], exec (.registerWrite r x) s = .next s)
    ∧ exec (.registerWrite (.scrHead asid) x) s = .next (page fun p => { p with scrHead := x.setWidth 32 })
    ∧ exec (.registerWrite (.vfReset vf) x) s = .next { s with
        vfs := s.vfs.set vf.toNat { s.vfs[vf.toNat] with
          reset := s.vfs[vf.toNat].reset &&& ~~~(x.setWidth 64 &&& 0xE000000000000000) } }
    ∧ (∀ off, off < 0x8000 → exec (.registerWrite (.pageOffset asid off) x) s
      = .next (page fun p => { p with drops := p.drops + 1 }))
    ∧ (∀ off, 0x8000 ≤ off → off ≠ 0x8040 → off ∉ written → exec (.registerWrite (.pageOffset asid off) x) s = .next s)
    ∧ exec (.registerWrite (.pageOffset asid 0x8030) x) s = .next (page fun p => { p with frHead := x.setWidth 32 })
    ∧ (∀ p, s.page asid = some p → s.pageRead asid 0x8018 = p.scrTail.setWidth 64 ∧ s.pageRead asid 0x8038 = p.frTail.setWidth 64
      ∧ s.pageRead asid 0x8048 = p.drops ∧ s.pageRead asid 0x8000 = p.scrBase)
    ∧ (∀ off, off ∉ written → off ≠ 0x8018 → off ≠ 0x8038 → off ≠ 0x8048 → s.pageRead asid off = 0)
    ∧ (∀ (port : Fin 16), exec (.registerWrite (.portMode port.val) 1) s = .next
      (if s.boot.minimal = false ∧ s.ports[port] = .none then { s with ports := s.ports.set port .cxl } else s))
    ∧ (s.boot.minimal = false →
      (∀ p : BitVec 6, exec (.registerWrite (.route p) x) s
        = .next { s with routes := s.routes.set p.toNat (x.setWidth 4) p.isLt })
      ∧ exec (.registerWrite (.fixed asid) x) s
        = .next { s with placement := s.placement ++ [⟨asid, x.setWidth 64, x.toNat / 2 ^ 64⟩] }
      ∧ exec (.registerWrite .watchdog x) s = .next { s with watchdog := x.toNat % 2 ^ 64 }
      ∧ ∀ d, s.hdm.find? (fun y => y.1 == n) = some (n, d) → ∃ s', exec (.registerWrite (.hdm n 0) x) s = .next s'
        ∧ s' = { s with hdm := s'.hdm } ∧ s'.hdm.find? (fun y => y.1 == n) = some (n, { d with base := x.toNat % 2 ^ 64 }))
    ∧ (s.boot.minimal = true → ∀ (p : BitVec 6) (k : Nat), ∀ r ∈ [RegName.route p, .fixed asid, .watchdog, .hdm n 0, .portMode k, .owner k,
      .root asid, .queueWeight k, .queueOwner k, .submissionPage asid, .packageNumber, .spillArea],
      exec (.registerWrite r x) s = .next s)

/-! ## Binding, dispatch -/

/-- R34, R372: CLASS_PROMOTION of a ready head whose class is not 0 and which has waited a further 10 ms raises it one class;
one that has not waited so long stays. -/
def Sys2Proof.ClassPromotion : Prop :=
  ∀ (s : State) (q : Queue) (c : Card) (g : Nat), s.queues.find? (fun x => x.num == q.num) = some q →
    s.headTask q.num = some (c, g) →
    let promoted := s.taskReady c = true ∧ q.promos < cardPrio c.bits ∧ q.promos < (s.tick - q.since) / 6000000
    (promoted → ∃ s' q', exec (.classPromotion q.num) s = .next s'
      ∧ s'.queues.find? (fun x => x.num == q.num) = some q' ∧ q' = { q with promos := q.promos + 1, round := q'.round, used := q'.used, serves := q'.serves }
      ∧ s'.cards = s.cards ∧ s'.mem = s.mem ∧ s'.strands = s.strands)
    ∧ (¬ promoted → exec (.classPromotion q.num) s = .next s)

/-- What the bind port asks of a record for a card (R375, R408). -/
structure Sys2Proof.Bindable (s : State) (r : BitVec 512) (c : Card) : Prop where
  mode : s.boot.minimal = false
  fields : fieldNat r 0 112 = 0 ∧ bindKind r ≠ 3 ∧ bindExt r ≠ 0 ∧ bindExt r % 4096 = 0
  quarters : (quartersOf (bindQmask r)).length = cardQuarters c.bits
  cluster : bindPclus r < 24
  cores : ∀ i < cardGang c.bits, bindCore r i < 24 ∧ ∀ j < i, bindCore r j ≠ bindCore r i
  free : ∀ k ∈ bindSlots r (cardGang c.bits), slotState (s.slot k) = 0 ∧ slotPart (s.slot k) = s.partOf c.asid
    ∧ ∀ g ∈ s.gangs, k ∉ s.slotsOf g
  barriers : s.barriersHeld (bindPclus r) + cardBars c.bits ≤ 16
  target : ∀ k ∈ bindSlots r (cardGang c.bits), ∀ v ∈ s.vacates, s.inTarget v k = false

/-- R9, R374 to R376: BIND_RECORD of a record the port takes binds an offered task as a gang, every strand at once, and its
slots name its strands; one of a saved gang binds that gang again; a record the port refuses changes nothing. That a record whose
TASK names neither changes nothing is the model's reading (log 21). -/
def Sys2Proof.BindRecords : Prop :=
  ∀ (s : State) (r : BitVec 512),
    (∀ o c, bindKind r = 0 → s.offers.find? (fun x => x.handle == bindTask r) = some o →
      s.cards.find? (fun x => x.cid == o.card) = some c → cardVlOk c.bits = true → s.gang (bindTask r) = none →
      bindTask r ≠ 0 →
      (Bindable s r c → ∃ s', exec (.bindRecord r) s = .next s'
        ∧ s'.gang (bindTask r)
          = some ⟨bindTask r, c.cid, o.g, c.asid, s.partOf c.asid, .bound, 0, r, [], 0, 0, 0, [], false, s.tick⟩ ∧ s'.cards = s.cards
        ∧ (∀ t < cardGang c.bits, ∀ k ∈ quartersOf (bindQmask r),
          let e := s'.slot (96 * bindPclus r + 4 * bindCore r t + k)
          e.extractLsb' 48 16 = bindTask r ∧ fieldNat e 43 5 = t % 32 ∧ fieldNat e 38 5 = bindCore r t
            ∧ fieldNat e 33 5 = bindPclus r ∧ slotState e = 0 ∧ slotPart e = s.partOf c.asid)
        ∧ s'.strands = s.strands ∧ s'.mem = s.mem)
      ∧ (¬ Bindable s r c → exec (.bindRecord r) s = .next s))
    ∧ (∀ g c, bindKind r ≠ 0 → s.gang (bindTask r) = some g → s.cardOf g = some c →
      (g.state = .saved → Bindable s r c → ∃ s', exec (.bindRecord r) s = .next s'
        ∧ s'.gang (bindTask r) = some { g with state := .bound, kind := bindKind r, bind := r }
        ∧ s'.strands = s.strands ∧ s'.mem = s.mem ∧ s'.cards = s.cards)
      ∧ (g.state ≠ .saved ∨ ¬ Bindable s r c → exec (.bindRecord r) s = .next s))
    ∧ (bindKind r = 0 → (∀ o ∈ s.offers, o.handle ≠ bindTask r) → exec (.bindRecord r) s = .next s)

/-- A soft error has rolled the gang back (R362, R389): a re-runnable task goes back to its queue, but at its third such rollback
waits to complete with INTEGRITY (3), as every other task does. -/
def Sys2Proof.RolledBack (s s' : State) (g : Gang) (c : Card) : Prop :=
  if cardRerun c.bits = true ∧ (c.rolled.filter fun x => x == g.g).length < 2 then Requeued s s' g
  else GangGone s s' g 5 ∧ s'.mem = s.mem ∧ (s'.gang g.handle).map Gang.state = some (.failing 3)

/-- R16, R98, R346, R347, R369, R377: DISPATCH_GANG of a first dispatch without images starts every strand of the gang with the
register values of R16, its card's bindings, an empty slab and STATE 1; of a resume it brings every saved strand back on the
quarters of the record, with the lanes its context in the vault holds: a running one restored from its restart record; one whose
record or context fails its checks rolls the gang back. The identity a resumed strand takes from its bind record is the model's
choice (log 75). -/
def Sys2Proof.GangDispatch : Prop :=
  ∀ (s : State) (g : Gang) (c : Card), s.gang g.handle = some g → s.cardOf g = some c → g.state = .bound →
    let n := cardGang c.bits
    (g.kind = 0 → cardImages c.bits = 0 → ∃ s', exec (.dispatchGang g.handle.toNat) s = .next s'
      ∧ s'.gang g.handle = some { g with state := .running, bindings := c.binds, started := true }
      ∧ (∀ t ∈ s.strands, t ∈ s'.strands)
      ∧ (∀ i < n, ∃ u ∈ s'.strands, u.id = identOf g.bind g n i ∧ u.pc = cardEntry c.bits ∧ u.status = .running
        ∧ u.fstat = 0 ∧ u.prog = 0 ∧ u.stlMem = 0 ∧ u.tokp = 0 ∧ u.vl = 0 ∧ u.vtype = 0x018 ∧ u.lflags = 0 ∧ u.win = none
        ∧ u.viq = [] ∧ u.rq = [] ∧ u.vcp = 0 ∧ u.acc = none ∧ u.lbuf = [] ∧ u.wait = .none ∧ u.record = none
        ∧ (∀ r : SReg, u.getS r = if r = 2
            then cardStack c.bits + BitVec.ofNat 64 ((g.g * n + i + 1) * cardStksz c.bits)
          else if r = 3 then cardGp c.bits
          else if 8 ≤ r.toNat ∧ r.toNat ≤ 11 then cardArg c.bits (r.toNat - 8) else 0)
        ∧ (∀ r : VReg, u.v[r.toNat]'r.isLt = ⟨.raw, 0⟩) ∧ (∀ r : KReg, u.k[r.toNat]'r.isLt = 0)
        ∧ (∀ lane < 256, ∀ b < 8192, laneGet u.lane lane b 1 = 0))
      ∧ (∀ i < n, ∀ k ∈ quartersOf (bindQmask g.bind),
        slotState (s'.slot (96 * bindPclus g.bind + 4 * bindCore g.bind i + k)) = 1
        ∧ ∀ off < 2 ^ 19, Memory.get s'.mem (slabByte (bindPclus g.bind) (bindCore g.bind i) k off) = 0)
      ∧ ∀ a, homeAttr a ≠ attrSlab → Memory.get s'.mem a = Memory.get s.mem a)
    ∧ (g.kind ≠ 0 → (∀ v ∈ s.vault, v.handle = g.handle → s.contextOk v g.kind (bindSpill g.bind) = true) → g.answers = [] →
      ∃ s', exec (.dispatchGang g.handle.toNat) s = .next s'
        ∧ (∀ t ∈ s.strands, t ∈ s'.strands)
        ∧ (∀ v ∈ s.vault, v.handle = g.handle → v.ctx.status = .running → ∃ u ∈ s'.strands,
          u = { v.ctx.restore v.record with
            id := identOf g.bind g n v.ctx.id.tid, v := u.v, k := u.k, m := u.m, lane := u.lane, lflags := u.lflags, win := u.win }
          ∧ (g.kind = 1 → u.v = ((v.ctx.restore v.record).loaded s.vaultMem (v.slots.map vaultPart) u.k).v))
        ∧ s'.gang g.handle = some { g with state := .running, answers := [] }
        ∧ s'.vault = s.vault.filter fun v => v.handle != g.handle)
    ∧ (g.kind ≠ 0 → (∃ v ∈ s.vault, v.handle = g.handle ∧ s.contextOk v g.kind (bindSpill g.bind) = false) → NoneHeld s →
      ∃ s', exec (.dispatchGang g.handle.toNat) s = .next s' ∧ RolledBack s s' g c)

/-! ## Saves and vacates -/

/-- A save of a running gang has started (R376, R383): its slots read STATE 4; where its queues are empty nothing else has
happened but that its open convoys have closed. -/
def Sys2Proof.SaveStarted (s s' : State) (g : Gang) : Prop :=
  s'.gang g.handle = some { g with state := .saving } ∧ s'.saves = s.saves ++ [⟨g.handle, s.tick⟩]
  ∧ (∀ k ∈ s.slotsOf g, slotState (s'.slot k) = 4)
  ∧ ((s.strands.map fun t => t.id.sid).Nodup → (∀ t ∈ s.strands, t.id.handle = g.handle → t.viq = []) →
    s'.mem = s.mem ∧ s'.strands = s.strands.map fun t => if t.id.handle = g.handle then
      { t with copen := false, fresh := true, held := none, hold := if t.busy then t.hold else none } else t)

/-- R376, R383: SAVE_GANG completes for every running gang that has not ended: it closes its convoys, sets its slots' STATE to 4
and stops its dispatch. SAVE_COMPLETE completes once every strand of the gang stands at its stop point: it writes each
strand's record to the vault and its masks to the context extension, spills what lay in the vault parts, and leaves the quarters
vacant. -/
def Sys2Proof.GangSaves : Prop :=
  (∀ (s : State) (g : Gang), s.gang g.handle = some g → g.state = .running → s.allEnded g = false →
    ∃ s', exec (.saveGang g.handle.toNat) s = .next s' ∧ SaveStarted s s' g)
  ∧ ∀ (s : State) (g : Gang), s.gang g.handle = some g → s.saveReady g = true →
    ∃ s', exec (.saveComplete g.handle.toNat) s = .next s'
      ∧ GangGone s s' g 0 ∧ s'.gang g.handle = some { g with state := .saved }
      ∧ (∀ t ∈ s.strands, t.id.handle = g.handle → ∃ v ∈ s'.vault, v.handle = g.handle ∧ v.slots = t.slotIds
        ∧ v.ctx.id = t.id ∧ v.ctx.v = t.v ∧ v.ctx.k = t.k ∧ v.ctx.m = t.m ∧ v.ctx.lane = t.lane ∧ v.ctx.lflags = t.lflags
        ∧ v.ctx.win = t.win ∧ v.ctx.status = t.status
        ∧ (t.status ≠ .trapped → v.record.s = t.s ∧ v.record.info.cause = .none ∧ v.record.pcNext = s.pcNext t
          ∧ v.record.vl = t.vl ∧ v.record.vtype = t.vtype ∧ v.record.fstat = t.fstat ∧ v.record.prog = t.prog
          ∧ v.record.viq = t.viq ∧ v.record.copies = (s.copiesOf t.id.sid).map CopyOp.rem))
      ∧ (∀ v ∈ s.vault, (if ∃ x ∈ s.vault, x.handle = v.handle ∧ x.spilled = false ∧ ∃ k ∈ x.slots, k ∈ s.slotsOf g then
          { v with spilled := true } else v) ∈ s'.vault)
      ∧ (s.vault = [] → (∀ t ∈ s.strands, t.id.handle = g.handle → t.id.pclus < 24 ∧ t.id.pcore < 24) →
        ∀ a, homeAttr a ≠ attrSlab → (∀ t ∈ s.strands, t.id.handle = g.handle →
          let e := extPart (bindExt g.bind) t.q t.id.tid
          a < e ∨ e + 57344 * t.q ≤ a) → Memory.get s'.mem a = Memory.get s.mem a)

/-- R386, R388: SAVE_TIMEOUT completes for a gang whose save began 200 µs ago, or which a vacate not yet delivered names whose
deadline is 2 µs away: a re-runnable gang is discarded and another killed, whose task completes with KILLED (4). Before that it
changes nothing. -/
def Sys2Proof.SaveTimeouts : Prop :=
  ∀ (s : State) (g : Gang), s.gang g.handle = some g → g.state = .saving → NoneHeld s →
    let late (v : Save) : Prop := 600000 ≤ 5 * (s.tick - v.since)
      ∨ ∃ x ∈ s.vacates, x.reported = false ∧ (∃ y ∈ x.gangs, y.1 = v.handle) ∧ x.deadline ≤ s.timeNs.toNat + 2000
    ((∃ v ∈ s.saves, v.handle = g.handle ∧ late v) → ∃ s', exec (.saveTimeout g.handle.toNat) s = .next s'
      ∧ if s.rerunnable g then Requeued s s' g else Failed s s' g 4)
    ∧ ((∀ v ∈ s.saves, v.handle = g.handle → ¬ late v) → exec (.saveTimeout g.handle.toNat) s = .next s)

/-- R31, R384 to R387: VACATE_RECORD is rejected where its deadline lies less than 120 µs ahead and it is not forced; else it is
accepted with a handle, the lowest that is free (the model's choice, log 50): a target without gangs is reported vacant at once; a running gang with no estimate is discarded where it
may be run again, and else checkpointed where the time is enough, or killed; one whose strands have all ended, and one stopped
for good, are let be. In minimal mode no record is passed (R408). -/
def Sys2Proof.VacateRecords : Prop :=
  ∀ (s : State) (r : BitVec 256), s.vacates = [] → NoneHeld s →
    let d := fieldNat r 0 64
    let now := s.timeNs.toNat
    let v : Vacate := ⟨0, r.extractLsb' 88 4, r.extractLsb' 64 24, d, bitAt r 95, [], [0, 0, 0, 0], false⟩
    let accepted (l : List (BitVec 16 × Decision × Nat)) : State :=
      { s with vacates := [{ v with gangs := l }], reports := s.reports ++ [.accepted 0] }
    (s.boot.minimal = true → exec (.vacateRecord r) s = .next s)
    ∧ (s.boot.minimal = false → d < now + 120000 → bitAt r 95 = false →
      exec (.vacateRecord r) s = .next { s with reports := s.reports ++ [.rejected] })
    ∧ (s.boot.minimal = false → now + 120000 ≤ d ∨ bitAt r 95 = true →
      ((∀ g ∈ s.gangs, ∀ k ∈ s.slotsOf g, s.inTarget v k = false) →
        ∃ s', exec (.vacateRecord r) s = .next s' ∧ s'.vacates = [{ v with reported := true }]
          ∧ s'.reports = s.reports ++ [.accepted 0, .vacated 0 s.time3 0 0 0 0]
          ∧ s'.strands = s.strands ∧ s'.mem = s.mem ∧ s'.gangs = s.gangs)
      ∧ ∀ g c, s.gangs = [g] → s.cardOf g = some c → (∃ k ∈ s.slotsOf g, s.inTarget v k = true) →
        (g.failing = true → exec (.vacateRecord r) s = .next (accepted []))
        ∧ (g.state = .running → s.allEnded g = true →
          exec (.vacateRecord r) s = .next (accepted [(g.handle, .run, 2 ^ 64)]))
        ∧ (g.state = .running → s.allEnded g = false → cardWork c.bits = 0 → cardDuration c.bits = 0 → s.vault = [] →
          (cardRerun c.bits = true → ∃ s', exec (.vacateRecord r) s = .next s' ∧ Requeued s s' g)
          ∧ (cardRerun c.bits = false → now + 70000 ≤ d →
            exec (.vacateRecord r) s = .next (accepted [(g.handle, .checkpoint, d - 70000)]))
          ∧ (cardRerun c.bits = false → d < now + 70000 →
            ∃ s', exec (.vacateRecord r) s = .next s' ∧ Failed s s' g 4)))

/-- R386, R387, R422: CHECKPOINT_START at the time of a decision starts the save of a gang to be checkpointed, and of one left to
run that has not ended by then and may not be run again. VACATE_RELEASE of an accepted vacate ends it, and reports one not yet
delivered as cancelled; gangs, strands and memory are as before. -/
def Sys2Proof.VacateSteps : Prop :=
  (∀ (s : State) (g : Gang) (c : Card) (v : Vacate) (dec : Decision) (at_ : Nat), s.gang g.handle = some g → g.state = .running →
    s.allEnded g = false → s.cardOf g = some c → s.vacates = [v] → v.reported = false → v.gangs = [(g.handle, dec, at_)] →
    at_ ≤ s.timeNs.toNat →
    dec = .checkpoint ∨ dec = .run ∧ 0 < at_ ∧ cardRerun c.bits = false →
    ∃ s', exec (.checkpointStart g.handle.toNat) s = .next s' ∧ SaveStarted s s' g)
  ∧ ∀ (s : State) (v : Vacate) (rest : List Vacate) (n0 n1 n2 n3 : Nat), s.vacates = v :: rest → (∀ x ∈ rest, x.handle ≠ v.handle) →
    v.counts = [n0, n1, n2, n3] → ∃ s', exec (.vacateRelease v.handle) s = .next s' ∧ s'.vacates = rest
      ∧ s'.reports = s.reports ++ (if v.reported then [] else [.cancelled v.handle n0 n1 n2 n3])
      ∧ s'.gangs = s.gangs ∧ s'.strands = s.strands ∧ s'.mem = s.mem

/-! ## Soft errors, timeouts, replacements -/

/-- R361, R362, R389: a soft error of a strand, of a gang or of a vault part that holds a saved strand rolls the gang back: a re-runnable task goes back to its queue, but at
its third such rollback waits to complete with INTEGRITY (3), as every other task does; one of a line marks the line; one of a
keystone where no entry stands does nothing. -/
def Sys2Proof.SoftErrors : Prop :=
  (∀ (s : State) (g : Gang) (c : Card), s.gang g.handle = some g → g.failing = false → s.cardOf g = some c → NoneHeld s →
    (∃ s', exec (.softError (.gang g.handle.toNat)) s = .next s' ∧ RolledBack s s' g c)
    ∧ (∀ sid t, s.strand sid = some t → t.id.handle = g.handle →
      ∃ s', exec (.softError (.strand sid)) s = .next s' ∧ RolledBack s s' g c)
    ∧ ∀ k v, s.vault.find? (fun v => v.slots.contains k && !v.spilled) = some v → v.handle = g.handle →
      ∃ s', exec (.softError (.vault k)) s = .next s' ∧ RolledBack s s' g c)
  ∧ (∀ (s : State) (l : Nat), ∃ s', exec (.softError (.line l)) s = .next s'
    ∧ s' = { s with soft := s'.soft, events := s'.events } ∧ ∀ x, x ∈ s'.soft ↔ x = l ∨ x ∈ s.soft)
  ∧ ∀ (s : State) (ks n : Nat), (∀ k ∈ s.keystones, k.ks = ks → k.buf.length ≤ n) → exec (.softError (.keystone ks n)) s = .next s

/-- R108, R359, R381, R399, R416: HANG_WATCHDOG_EXPIRY tells the supervisor of a running gang whose idle beats have reached the
interval; an access held more than 1 ms (600,000 beats) at an offline stack, or 1 ms without a route, gives its line a soft
error; TLB_INVALIDATE and TLB_REPLACEMENT drop cached translations, the first waiting for the accesses that used one;
LINE_BUFFER_REPLACEMENT drops a line of a strand. That an interval below the count is reported no more is the model's reading
(log 85). -/
def Sys2Proof.TimeoutsAndReplacements : Prop :=
  (∀ (s : State) (g : Gang), s.gang g.handle = some g → g.state = .running → s.watchdog ≠ 0 →
    exec (.hangWatchdogExpiry g.handle.toNat) s = .next (if g.idle = s.watchdog then { s with
        reports := s.reports ++ [.hang g.handle]
        gangs := updWhere s.gangs (fun x => x.handle == g.handle) fun x => { x with idle := x.idle + 1 } }
      else s))
  ∧ (∀ (s : State) (n l since : Nat), s.heldAccesses = [(n, l, since)] → l ∉ s.soft →
    let struck (i : Instr) : Prop := ∃ s', exec i s = .next s' ∧ s' = { s with soft := s'.soft, events := s'.events }
      ∧ ∀ x, x ∈ s'.soft ↔ x = l ∨ x ∈ s.soft
    let held : Prop := s.offline l = true ∧ 600000 < s.tick - since
    let unrouted : Prop := s.unreachable l = true ∧ 600000 ≤ s.tick - since
    (held → struck (.heldRequestTimeout n)) ∧ (¬ held → exec (.heldRequestTimeout n) s = .next s)
    ∧ (unrouted → struck (.routeTimeout n)) ∧ (¬ unrouted → exec (.routeTimeout n) s = .next s))
  ∧ ∀ (s : State) (asid : BitVec 16) (base len page sid line : Nat) (t : Strand), s.strand sid = some t →
    (∃ s', exec (.tlbInvalidate asid base len) s = .next s'
      ∧ s' = { s with tlb := s'.tlb, blocked := if s.translated asid then (4 + (s.partOf asid).toNat) :: s.blocked else s.blocked }
      ∧ ∀ e, e ∈ s'.tlb ↔ e ∈ s.tlb ∧ ¬ (e.asid = asid ∧ e.base < base + len ∧ base < e.base + e.size))
    ∧ (∃ s', exec (.tlbReplacement asid page) s = .next s' ∧ s' = { s with tlb := s'.tlb }
      ∧ ∀ e, e ∈ s'.tlb ↔ e ∈ s.tlb ∧ ¬ (e.asid = asid ∧ e.base ≤ page ∧ page < e.base + e.size))
    ∧ exec (.lineBufferReplacement sid line) s = .next (s.put { t with lbuf := t.lbuf.filter fun b => b.va != line })

/-! ## The host's window, links, the network engine -/

/-- A byte of the package's HBM4E that answers an access of the host that begins at physical address `a`: its line is plain, its
stack is not offline, no soft error stands there, and nothing waits there since before. -/
def Sys2Proof.HostByte (s : State) (a h : Nat) : Prop :=
  homeAttr h = attrLoc ∧ s.lineState (lineOf h) = some .plain ∧ s.offline (lineOf h) = false
    ∧ s.unreachable (lineOf h) = false ∧ s.soft.contains (lineOf h) = false ∧ s.waitsTurn (.outside (keyAt a)) (lineOf h) = false

/-- R390, R392: a host write or read of bytes that an HDM decoder maps to plain lines is performed at their home; a host
FetchAdd, Swap or CAS of an aligned word there stores the new value and returns the old one. That another operation, a
misaligned word and bytes that no decoder holds get Unsupported Request is the model's choice (log 22). -/
def Sys2Proof.HostWindow : Prop :=
  ∀ (s : State), s.memOk →
    let refused (i : Instr) : Prop := exec i s = .next { s with completion := .unsupported, hostReply := [] }
    (∀ (addr n a : Nat), s.hdmAddr addr n = some a → ∃ d ∈ s.hdm, d.2.base ≤ addr ∧ addr + n ≤ d.2.base + d.2.size
      ∧ a = d.2.paddr + (addr - d.2.base))
    ∧ (∀ (addr a : Nat) (data : List Byte), s.hdmAddr addr data.length = some a → 1 ≤ data.length → a % 128 + data.length ≤ 128 →
      let h := homeByte attrLoc 0 a
      HostByte s a h →
      ∃ s', exec (.hostHdmWrite addr data) s = .next s' ∧ s'.completion = .success ∧ Memory.bytes s'.mem h data.length = data
        ∧ (∀ a, a < h ∨ h + data.length ≤ a → Memory.get s'.mem a = Memory.get s.mem a) ∧ s'.lines = s.lines
        ∧ s'.strands = s.strands)
    ∧ (∀ (addr a n : Nat), s.hdmAddr addr n = some a → (∀ i < n, HostByte s a (homeByte attrLoc 0 a + i)) →
      exec (.hostHdmRead addr n) s = .next { s.outsideDone (keyAt a) with
        hostReply := Memory.bytes s.mem (homeByte attrLoc 0 a) n, completion := .success })
    ∧ (∀ (addr n : Nat) (data : List Byte), (∀ d ∈ s.hdm, addr < d.2.base ∨ d.2.base + d.2.size < addr + n) →
      refused (.hostHdmRead addr n) ∧ (data.length = n → refused (.hostHdmWrite addr data)))
    ∧ ∀ (addr a : Nat) (op : AmoOp) (wide : Bool) (x cmp : Word),
      let n := if wide then 8 else 4
      let h := homeByte attrLoc 0 a
      (s.hdmAddr addr n = some a → (op = .add ∨ op = .swp ∨ op = .cas) → addr % n = 0 → HostByte s a h →
        ∃ s', exec (.atomicopAsCompleter addr op wide x cmp) s = .next s' ∧ s'.completion = .success
          ∧ s'.hostReply = Memory.bytes s.mem h n
          ∧ Memory.read s'.mem h n = atomicNew op n (Memory.read s.mem h n) x.toNat cmp.toNat
          ∧ (∀ a, a < h ∨ h + n ≤ a → Memory.get s'.mem a = Memory.get s.mem a) ∧ s'.lines = s.lines)
      ∧ (op ≠ .add ∧ op ≠ .swp ∧ op ≠ .cas ∨ addr % n ≠ 0 → refused (.atomicopAsCompleter addr op wide x cmp))

/-- R398, R399: a retried flit changes nothing but time; LINK_FAILURE takes the link down and writes the routes the supervisor
gives. -/
def Sys2Proof.RidgeLinks : Prop :=
  ∀ (s : State) (link : Nat) (routes : List (BitVec 6 × BitVec 4)), exec (.flitRetry link) s = .next s
    ∧ ∃ s', exec (.linkFailure link routes) s = .next s' ∧ s' = { s with linkUp := s'.linkUp, routes := s'.routes }
      ∧ (∀ i < 16, s'.linkUp.getLsbD i = (s.linkUp.getLsbD i && i != link))
      ∧ ((routes.map Prod.fst).Nodup → ∀ p : BitVec 6,
        s'.routes[p.toNat]'p.isLt = ((routes.find? fun r => r.1 == p).map Prod.snd).getD (s.routes[p.toNat]'p.isLt))

/-- A queue pair that processes the send entry at its head. -/
def Sys2Proof.Sends (s : State) (q : Qp) (e : BitVec 512) : Prop :=
  s.qpOf q.qp = some q ∧ qpState q.ctx = 1 ∧ s.boot.minimal = false ∧ q.done = none ∧ q.shead ≠ q.stail
    ∧ OutsideBytes s (qpAsid q.ctx)
        (qpBase q.ctx false + BitVec.ofNat 64 (64 * (q.shead.toNat % 2 ^ qpLog q.ctx false))) (wordBytes 64 e)

/-- The pair once an entry has been worked on. -/
def Sys2Proof.worked (s : State) (q : Qp) (recv : Bool) (caddr : Word) (status bytes : Nat) : State :=
  let n := (if recv then q.rhead else q.shead).toNat
  { s with qps := updWhere s.qps (fun x => x.qp == q.qp) fun _ => { q with
      done := some (recv, caddr, BitVec.ofNat 64 (status * 2 ^ 56 + bytes % 2 ^ 32 * 2 ^ 24 + n % 2 ^ 24)) } }

/-- An entry whose reserved fields are zero. -/
def Sys2Proof.cleanEntry (e : BitVec 512) : Prop :=
  fieldNat e 9 23 = 0 ∧ fieldNat e 192 32 = 0 ∧ fieldNat e 320 192 = 0

/-- R401, R402: the send entry at a running pair's head: a NOP completes with OK and no bytes; a SEND or WRITE whose buffer can be
read with OK and LEN, or with what the remote side's answer gives; a READ's data lands in its local buffer; another OP or a
nonzero reserved field completes with BAD_ENTRY. That a LEN above 2^31 is taken as it stands is the model's choice (log 89). -/
def Sys2Proof.NetworkSends : Prop :=
  ∀ (s : State) (q : Qp) (e : BitVec 512), Sends s q e →
    let s1 := s.outsideDone (s.partOf (qpAsid q.ctx)).toNat
    let op := fieldNat e 0 8
    let len := fieldNat e 32 32
    let laddr : Word := e.extractLsb' 64 64
    let caddr : Word := e.extractLsb' 256 64
    (cleanEntry e → op = 0 → exec (.neNop q.qp) s = .next (worked s1 q false caddr 0 0))
    ∧ (∀ bs : List Byte, cleanEntry e → bs.length = len → OutsideBytes s (qpAsid q.ctx) laddr bs →
      ∀ p ∈ [(1, Instr.neSend q.qp), (2, .neWrite q.qp)], op = p.1 →
        (∀ data, exec (p.2 (.ok data)) s = .next (worked s1 q false caddr 0 len))
        ∧ exec (p.2 .nak) s = .next (worked s1 q false caddr 3 0)
        ∧ exec (p.2 .retryExceeded) s = .next (worked s1 q false caddr 4 0))
    ∧ (∀ (data : List Byte) (h : Nat), s.memOk → cleanEntry e → op = 3 → data.length = len → 1 ≤ len →
      laddr.toNat % 128 + len ≤ 128 → OutsideAt s (qpAsid q.ctx) laddr 1 .write h → canonicalAll laddr len = true →
      ∃ s', exec (.neRead q.qp (.ok data)) s = .next s' ∧ s'.qps = (worked s q false caddr 0 len).qps
        ∧ Memory.bytes s'.mem h len = data ∧ ∀ a, a < h ∨ h + len ≤ a → Memory.get s'.mem a = Memory.get s.mem a)
    ∧ (¬ cleanEntry e ∨ 3 < op → ∀ r : Remote, ∀ i ∈ [Instr.neNop q.qp, .neSend q.qp r, .neWrite q.qp r, .neRead q.qp r],
      exec i s = .next (worked s1 q false caddr 1 0))

/-- R402: an incoming SEND takes the receive entry at a running pair's head, writes its data there and completes it with OK and
its length; a SEND longer than the entry completes it with LOCAL_FAULT; without a posted entry it is not taken. -/
def Sys2Proof.NetworkReceives : Prop :=
  ∀ (s : State) (q : Qp) (e : BitVec 512) (data : List Byte), s.memOk → s.qpOf q.qp = some q → qpState q.ctx = 1 →
    s.boot.minimal = false → q.done = none →
    (q.rhead = q.rtail → exec (.neRecv q.qp data) s = .next s)
    ∧ (q.rhead ≠ q.rtail → OutsideBytes s (qpAsid q.ctx)
        (qpBase q.ctx true + BitVec.ofNat 64 (64 * (q.rhead.toNat % 2 ^ qpLog q.ctx true))) (wordBytes 64 e) →
      cleanEntry e → fieldNat e 0 8 = 4 →
      let len := fieldNat e 32 32
      let laddr : Word := e.extractLsb' 64 64
      let caddr : Word := e.extractLsb' 256 64
      (len < data.length → exec (.neRecv q.qp data) s = .next (worked (s.outsideDone (s.partOf (qpAsid q.ctx)).toNat) q true caddr 2 0))
      ∧ ∀ h, 1 ≤ data.length → data.length ≤ len → laddr.toNat % 128 + data.length ≤ 128 →
        OutsideAt s (qpAsid q.ctx) laddr 1 .write h → canonicalAll laddr data.length = true →
        ∃ s', exec (.neRecv q.qp data) s = .next s' ∧ s'.qps = (worked s q true caddr 0 data.length).qps
          ∧ Memory.bytes s'.mem h data.length = data
          ∧ ∀ a, a < h ∨ h + data.length ≤ a → Memory.get s'.mem a = Memory.get s.mem a)

/-- R400, R402: QP_CONTEXT_WRITE takes a context whose reserved bits, MTU and STATE are legal, with its counts at 0 where STATE is
0, and never from STATE 2 to 1; NE_TAIL_UPDATE takes the two tail words and puts a pair whose tail overruns its queue in STATE 2;
NE_ENTRY_COMPLETE writes the completion value at CADDR, then the head word, advances the head, and after a status other than OK
puts the pair in STATE 2, where the entries left complete with FLUSHED (5) and no bytes. What a context with a nonzero reserved
field does, and with a SQLOG or RQLOG below 4 or a word that is not aligned, is the model's choice (logs 65, 88). -/
def Sys2Proof.QueuePairs : Prop :=
  (∀ (s : State) (n : Nat) (c : BitVec 512),
    let bad := fieldNat c 84 2 = 3 ∨ qpState c = 3 ∨ fieldNat c 96 8 ≠ 0 ∨ fieldNat c 16 48 ≠ 0 ∨ 16384 ≤ n
    (bad → exec (.qpContextWrite n c) s = .next s)
    ∧ (¬ bad → s.qpOf n = none →
      exec (.qpContextWrite n c) s = .next { s with qps := s.qps ++ [⟨n, c, 0, 0, 0, 0, none⟩] })
    ∧ ∀ q, ¬ bad → s.qpOf n = some q → exec (.qpContextWrite n c) s = .next (
        if qpState q.ctx = 2 ∧ qpState c = 1 then s
        else s.setQp (if qpState c = 0 then ⟨n, c, 0, 0, 0, 0, none⟩ else { q with ctx := c })))
  ∧ (∀ (s : State) (q : Qp) (a b : Word), s.qpOf q.qp = some q → (qpState q.ctx = 1 ∨ qpState q.ctx = 2) →
    s.boot.minimal = false →
    OutsideBytes s (qpAsid q.ctx) (qpTailAt q.ctx false) (wordBytes 8 a) →
    OutsideBytes s (qpAsid q.ctx) (qpTailAt q.ctx true) (wordBytes 8 b) →
    let sa : BitVec 32 := a.setWidth 32
    let rb : BitVec 32 := b.setWidth 32
    let beyond := 2 ^ qpLog q.ctx false < (sa - q.shead).toNat ∨ 2 ^ qpLog q.ctx true < (rb - q.rhead).toNat
    ∃ q', exec (.neTailUpdate q.qp) s
        = .next { s.outsideDone (s.partOf (qpAsid q.ctx)).toNat with qps := updWhere s.qps (fun x => x.qp == q.qp) fun _ => q' }
      ∧ q' = { q with stail := sa, rtail := rb, ctx := q'.ctx } ∧ (beyond → qpState q'.ctx = 2) ∧ (¬ beyond → q'.ctx = q.ctx))
  ∧ (∀ (s : State) (q : Qp) (e : BitVec 512) (hc hh : Nat), s.memOk → s.qpOf q.qp = some q → s.boot.minimal = false →
    q.done = none → qpState q.ctx = 2 → q.shead ≠ q.stail →
    OutsideBytes s (qpAsid q.ctx) (qpBase q.ctx false + BitVec.ofNat 64 (64 * (q.shead.toNat % 2 ^ qpLog q.ctx false)))
      (wordBytes 64 e) →
    let caddr : Word := e.extractLsb' 256 64
    caddr ≠ 0 → OutsideAt s (qpAsid q.ctx) caddr 8 .write hc →
    OutsideAt s (qpAsid q.ctx) (qpHeadAt q.ctx false) 8 .write hh → (hc + 8 ≤ hh ∨ hh + 8 ≤ hc) →
    ∃ s', exec (.neEntryComplete q.qp) s = .next s'
      ∧ wordAt s' hc = BitVec.ofNat 64 (5 * 2 ^ 56 + q.shead.toNat % 2 ^ 24) ∧ wordAt s' hh = (q.shead + 1).setWidth 64
      ∧ s'.qps = updWhere s.qps (fun x => x.qp == q.qp) fun _ => { q with shead := q.shead + 1 })
  ∧ ∀ (s : State) (q : Qp) (recv : Bool) (caddr v : Word) (hc hh : Nat), s.memOk → s.qpOf q.qp = some q → s.boot.minimal = false →
    q.done = some (recv, caddr, v) → caddr ≠ 0 → OutsideAt s (qpAsid q.ctx) caddr 8 .write hc →
    OutsideAt s (qpAsid q.ctx) (qpHeadAt q.ctx recv) 8 .write hh → (hc + 8 ≤ hh ∨ hh + 8 ≤ hc) →
    let head := (if recv then q.rhead else q.shead) + 1
    ∃ s' q', exec (.neEntryComplete q.qp) s = .next s' ∧ wordAt s' hc = v ∧ wordAt s' hh = head.setWidth 64
      ∧ (∀ a, a < hc ∨ hc + 8 ≤ a → a < hh ∨ hh + 8 ≤ a → Memory.get s'.mem a = Memory.get s.mem a)
      ∧ s'.qps = updWhere s.qps (fun x => x.qp == q.qp) (fun _ => q')
      ∧ q' = { q with
        done := none, ctx := q'.ctx
        shead := if recv then q.shead else head, rhead := if recv then head else q.rhead }
      ∧ (if v.toNat < 2 ^ 56 then q'.ctx = q.ctx else qpState q'.ctx = 2)

/-- R404, R405: VF_RESET of a partition with no access on its way stops every gang of it, whose tasks wait to complete with RESET
(5) and are counted in TASKS, clears its submission pages, its queue pairs' STATE and its error register, and sets PARTIAL_COPY
where it cuts a copy; gangs and strands of other partitions stay, and memory where no vector atomic is half performed. -/
def Sys2Proof.VfReset : Prop :=
  ∀ (s : State) (vf : BitVec 2), (s.gangs.map Gang.handle).Nodup → (∀ r ∈ s.underWay, r.part ≠ vf) → NoneHeld s →
    (∀ t ∈ s.strands, t.id.part = vf → t.vamo = none ∧ ∀ e ∈ t.viq, e.pos = 0 ∧ e.perf = []) →
    let mine := s.gangs.filter fun g => g.part == vf && !g.failing
    let cut : Prop := ∃ c ∈ s.copies, ∃ t ∈ s.strands, c.owner = some t.id.sid ∧ ∃ g ∈ mine, g.handle = t.id.handle
    ∃ s', exec (.vfReset vf) s = .next s'
      ∧ (∀ g ∈ mine, (s'.gang g.handle).map Gang.state = some (.failing 5) ∧ (∀ t ∈ s'.strands, t.id.handle ≠ g.handle))
      ∧ (∀ g ∈ s.gangs, g.part ≠ vf → s'.gang g.handle = some g)
      ∧ (∀ t ∈ s.strands, (∀ g ∈ s.gangs, g.part = vf → g.handle ≠ t.id.handle) → t ∈ s'.strands)
      ∧ s'.pages = s.pages.map (fun p => if p.part = vf then ⟨p.asid, p.part, 0, 0, 0, 0, 0, 0, 0, 0, 0⟩ else p)
      ∧ (∀ q ∈ s'.qps, qpPart q.ctx = vf → qpState q.ctx = 0 ∧ q.shead = 0 ∧ q.stail = 0 ∧ q.rhead = 0 ∧ q.rtail = 0)
      ∧ s'.vfs[vf.toNat].error = 0 ∧ s'.mem = s.mem
      ∧ fieldNat s'.vfs[vf.toNat].reset 32 16 = min mine.length 65535
      ∧ (s'.vfs[vf.toNat].reset.getLsbD 61 = true ↔ s.vfs[vf.toNat].reset.getLsbD 61 = true ∨ cut)

/-! ## Bring-up, trust, heat -/

/-- R407 to R410, R417: PACKAGE_RESET with every die and stack good and at most eight stages that verify, those of the expansion
window or, where it is empty, of the serial flash, below three failed starts, takes every register to its reset value, keeps the
event ring and measures the stages in order; a die that fails its self-test, or a stack that does not
train, fails the start with REASON 3 or 2 and counts it. START_COMPLETE sets the time and clears the count; START_FAILURE and the
watchdog, after 2 s, count a failed start, at most to 3. In minimal mode after a failed start a stage that verifies starts a new
try, those after it are its later stages (log 94). Reset values are those of log 8, the parts of a stage those of log 14. -/
def Sys2Proof.Starts : Prop :=
  (∀ (s : State) (dies : BitVec 4) (hbm : BitVec 12) (fw : Firmware), s.boot.fails ≠ 3 →
    let stages := if fw.window = [] then fw.serial else fw.window
    (dies = 0xF → hbm = 0xFFF → stages.length ≤ 8 → (∀ st ∈ stages, stageOk st = true) →
      ∃ s', exec (.packageReset dies hbm fw) s = .next s'
        ∧ s' = { State.reset with
          boot := s'.boot, mem := s'.mem, lines := s'.lines, soft := s'.soft, events := s.events, agenda := s.agenda
          freeCtr := s.freeCtr }
        ∧ s'.boot.starting = true ∧ s'.boot.done = false ∧ s'.boot.minimal = false
        ∧ s'.boot.stage = BitVec.ofNat 8 stages.length
        ∧ (∀ (i : Nat) (st : List Byte), stages[i]? = some st → s'.boot.measure.toList[i]? = some (BitVec.ofNat 256 (leNat (shake256 32 st))))
        ∧ ∀ a, Memory.get s'.mem a
          = if homeAttr a = attrPeer ∨ homeAttr a = attrHost ∨ homeAttr a = attrFlash then Memory.get s.mem a else 0)
    ∧ (dies ≠ 0xF ∨ hbm ≠ 0xFFF → ∃ s', exec (.packageReset dies hbm fw) s = .next s'
        ∧ s'.boot.reason = (if dies ≠ 0xF then 3 else 2) ∧ s'.boot.starting = false ∧ s'.strands = []
        ∧ s'.boot.fails = (if s.boot.update = true ∧ fw.bySupervisor = true then 0 else s.boot.fails) + 1))
  ∧ (∀ (s : State) (c : StartCause) (hostTime : Word) (st : List Byte),
    let failed (b : Boot) (reason : BitVec 8) (s' : State) : Prop :=
      s' = { s with boot := s'.boot, events := s'.events }
        ∧ s'.boot = { b with
          reason := reason, fails := if s.boot.fails = 3 then 3 else s.boot.fails + 1, starting := false, done := false
          waitStage := s.boot.minimal }
    (s.boot.starting = true →
      exec (.startComplete hostTime) s = .next { s with
        boot := { s.boot with starting := false, done := true, fails := if s.boot.minimal then s.boot.fails else 0 }
        timeValid := true
        time3 := 3 * hostTime.toNat }
      ∧ (∃ s', exec (.startFailure c) s = .next s' ∧ failed s.boot (startReason c) s')
      ∧ (1200000000 ≤ s.tick - s.boot.since → ∃ s', exec .startWatchdogExpiry s = .next s' ∧ failed s.boot 4 s'))
    ∧ (s.boot.starting = false → ∀ i ∈ [Instr.startComplete hostTime, .startFailure c, .startWatchdogExpiry], exec i s = .next s)
    ∧ (s.boot.minimal = true → s.boot.waitStage = true →
      let b := { s.boot with waitStage := false, starting := true, written := true, since := s.tick, window := [st] }
      (stageOk st = true → exec (.minimalStageWrite st) s = .next { s with boot := { b with
        stage := 1, measure := s.boot.measure.set 0 (BitVec.ofNat 256 (leNat (shake256 32 st))) } })
      ∧ (stageOk st = false → ∃ s', exec (.minimalStageWrite st) s = .next s' ∧ failed b 1 s'))
    ∧ (s.boot.minimal = true → s.boot.waitStage = false → s.boot.starting = true → s.boot.written = true →
      let b := { s.boot with window := s.boot.window ++ [st] }
      let n := s.boot.window.length
      (∀ h : n < 8, stageOk st = true → exec (.minimalStageWrite st) s = .next { s with boot := { b with
        stage := BitVec.ofNat 8 (n + 1), measure := s.boot.measure.set n (BitVec.ofNat 256 (leNat (shake256 32 st))) h } })
      ∧ (n < 8 → stageOk st = false → ∃ s', exec (.minimalStageWrite st) s = .next s' ∧ failed b 1 s')
      ∧ (8 ≤ n → ∃ s', exec (.minimalStageWrite st) s = .next s' ∧ failed b 5 s'))
    ∧ (s.boot.minimal = true → s.boot.waitStage = false → s.boot.starting = false → s.boot.done = true →
      exec (.minimalStageWrite st) s
        = .next { s with boot := { s.boot with update := s.boot.update || stageOk st } })
    ∧ (s.boot.minimal = false → exec (.minimalStageWrite st) s = .next s))

/-- R2, R411: ATTESTATION_NONCE answers with a report that begins with the nonce and the eight measurements, and after it the
SLH-DSA-SHAKE-256s signature of 29,792 bytes by the identity key (the report's last fields: log 27; seeds and random value: log
14). -/
def Sys2Proof.Attestation : Prop :=
  ∀ (s : State) (nonce : BitVec 256), ∃ s' r, exec (.attestationNonce nonce) s = .next s'
    ∧ s' = { s with hostReply := r ++ s.signed r } ∧ (s.signed r).length = 29792
    ∧ (∃ sk prf seed rand : List Byte, s.signed r = slhSign sk prf seed rand r ∧ sk.length = 32 ∧ prf.length = 32 ∧ seed.length = 32
      ∧ sk ++ prf ++ seed = wordBytes 96 s.boot.identity)
    ∧ r.take 288 = wordBytes 32 nonce ++ s.boot.measure.toList.flatMap (fun m => wordBytes 32 m)
    ∧ (r.drop 288).take 8 = wordBytes 8 s.boot.word
    ∧ r.length = 288 + 8 + 2304 + 4096

/-- R412: THERMAL_TRIP halts every core, tells the supervisor and rolls back every gang that holds quarters. -/
def Sys2Proof.ThermalTrip : Prop :=
  ∀ s : State, (s.gangs.map Gang.handle).Nodup → NoneHeld s →
    ∃ s', exec .thermalTrip s = .next s' ∧ s'.halted = true ∧ s'.mem = s.mem
      ∧ (s.halted = true → s' = s)
      ∧ (s.halted = false → s'.reports = s.reports ++ [.thermalTrip] ++ s'.reports.drop (s.reports.length + 1)
        ∧ ∀ g ∈ s.gangs, g.holds = true → g.failing = false → ∀ t ∈ s'.strands, t.id.handle ≠ g.handle)

/-- R413 to R415: ALLOWANCE_APPLY puts the announced value whose time has come in force on every die of its group;
ALLOWANCE_REQUEST keeps the die's request and announces a changed allowance for at least 20 µs later; STACK_TEMP_SAMPLE puts a
stack in the band of its temperature: up at 85, 95 and 105 °C (band 3 at exactly 105 °C: log 53), down 2 °C under the boundary.
INLET_TEMPERATURE_CHANGE caps the
announced allowances at 127 above 55 °C. -/
def Sys2Proof.PowerAndHeat : Prop :=
  (∀ (s : State) (a : Announced), s.announced = [a] →
    exec (.allowanceApply a.group) s = .next (if a.at3 ≤ s.time3 then { s with
        announced := [], dies := s.dies.map fun d => if d.group = a.group then { d with allow := a.allow } else d
        foreign := s.foreign.map fun d => if d.2.group = a.group then (d.1, { d.2 with allow := a.allow }) else d }
      else s))
  ∧ (∀ (s : State) (die : Fin 4) (req : BitVec 8) (effective : Word), s.announced = [] → s.foreign = [] → s.leaders = [] → s.inlet ≤ 55 →
    (∀ k ∈ s.hbm.toList, k.band.toNat < 2) → (∀ i : Fin 4, i ≠ die → s.dies[i].group ≠ s.dies[die].group) →
    ∃ s', exec (.allowanceRequest die req effective) s = .next s'
      ∧ s' = { s with dies := s'.dies, announced := s'.announced, events := s'.events }
      ∧ s'.dies = s.dies.set die { s.dies[die] with request := req ||| 3 }
      ∧ s'.announced = if req ||| 3 = s.dies[die].allow then []
        else [⟨s.dies[die].group, req ||| 3, max (3 * effective.toNat) (s.time3 + 60000)⟩])
  ∧ (∀ (s : State) (k : Fin 12) (temp : Nat) (effective : Word), ∃ s', exec (.stackTempSample k temp effective) s = .next s'
    ∧ s' = { s with hbm := s'.hbm, events := s'.events, announced := s'.announced }
    ∧ (∀ j : Fin 12, j ≠ k → s'.hbm[j] = s.hbm[j])
    ∧ let old := s.hbm[k].band.toNat
      let new := s'.hbm[k].band.toNat
      let up := if temp < 850 then 0 else if temp < 950 then 1 else if temp < 1050 then 2 else 3
      (old ≤ up → new = up)
      ∧ (up < old → new ≤ old ∧ up ≤ new ∧ (new ≠ 0 → 730 + 100 * new ≤ temp) ∧ (new ≠ old → temp < 830 + 100 * new)))
  ∧ ∀ (s : State) (degrees : Nat) (effective : Word), ∃ s', exec (.inletTemperatureChange degrees effective) s = .next s'
    ∧ s'.inlet = degrees
    ∧ (degrees ≤ 60 → s' = { s with inlet := degrees, announced := s'.announced, events := s'.events })
    ∧ (60 < degrees → s'.halted = true)
    ∧ (55 < degrees → s.inlet ≤ 55 → ∀ i : Fin 4, s.leaderOf s.dies[i].group < 4 →
      let last := (s'.announced.filter fun x => x.group == s.dies[i].group).getLast?
      (∀ x, last = some x → x.allow.toNat ≤ 127)
      ∧ (last = none → ∀ d ∈ s'.groupMembers s.dies[i].group, d.allow.toNat ≤ 127))

/-! ## Encoding -/

/-- Words written out from the spec's layouts (R141, R142, R146, R153): a head, its tail and the instruction they stand for. -/
def Sys2Proof.specWords : List (BitVec 16 × BitVec 64 × Instr) :=
  [(0x0001, 0, .nop), (0x0002, 0, .finish), (0x0003, 0, .ret),
   (0x4400, 0x298E0000, .add 5 6 7), (0x4440, 0x2981FFFF, .addImm 5 6 (-1)),
   (0x4B83, 0x4B100000, .amoAdd 9 12 8 .acq true),
   (0x2240, 0x0007, .brk 7), (0x22C0, 0x1805, .progMark 3 5),
   (0x5F40, 0x28400000, .tokPoll 5 1), (0x9DC0, 0, .fenceG), (0xBE04, 0x4800, .barWait 9)]

/-- Each of those words decodes to its instruction. -/
def Obligations.SpecWordsDecode : Prop :=
  ∀ x ∈ specWords, decode x.1 x.2.1 = .ok x.2.2

/-- Decoding the encoding of a well-formed instruction gives it back, with every operand at every value. -/
def Obligations.DecodeEncode : Prop :=
  ∀ (i : Instr) (e : Enc), i.wf = true → encode i = some e → decode e.head e.tail = .ok i

/-- The well-formed instructions are those that have words: each has an encoding, an event has none, and what a head decodes to
is well formed and no event. -/
def Obligations.DecodedWellFormed : Prop :=
  (∀ i : Instr, (encode i).isSome = !i.isEvent)
    ∧ ∀ (h : BitVec 16) (t : BitVec 64) (i : Instr), decode h t = .ok i → i.wf = true ∧ i.isEvent = false

/-- MINOR values from 0 without a gap. -/
def Sys2Proof.below (k n : Nat) : Bool :=
  decide (n < k)

/-- The rows of the opcode map (R153): majors, which MINOR values each assigns, the T of its layout. -/
def Sys2Proof.opcodeMap : List (List Nat × (Nat → Bool) × Nat) :=
  [([0x00], fun n => decide (1 ≤ n ∧ n ≤ 3), 0), ([0x01, 0x02], below 1, 2), ([0x03], below 1, 2),
   ([0x04], below 6, 2), ([0x05], below 2, 2), ([0x06], below 2, 2), ([0x07], below 3, 2),
   ([0x08, 0x0A, 0x0C], below 1, 2), ([0x09], below 2, 1), ([0x0B], below 1, 1),
   ([0x10], below 9, 2), ([0x11], below 3, 2), ([0x12, 0x13], below 8, 2), ([0x14], below 4, 2),
   ([0x15, 0x16], below 6, 2), ([0x17], below 3, 2), ([0x18], below 2, 2), ([0x19], below 1, 3),
   ([0x1A, 0x1B], below 1, 2), ([0x2C], below 7, 2), ([0x2D], below 4, 2),
   ([0x2E], fun n => n / 2 % 4 != 3, 2), ([0x2F], fun n => (n / 8 == 4 || n / 8 == 5) && n / 2 % 4 != 3, 2),
   ([0x34], fun n => below 6 (n / 2), 2), ([0x35, 0x36], fun n => n / 2 == 0, 2), ([0x37], fun n => below 4 (n / 2), 2),
   ([0x38], below 10, 2),
   ([0x3C], below 7, 2), ([0x3D, 0x3F, 0x42, 0x44], below 6, 2), ([0x3E], below 13, 2),
   ([0x40, 0x43, 0x46, 0x4A, 0x4D, 0x4E], below 1, 2), ([0x41, 0x48, 0x49, 0x4C], below 2, 2),
   ([0x45, 0x4B], below 4, 2), ([0x47], below 3, 2),
   ([0x5C, 0x5E, 0x5F, 0x64], below 1, 2), ([0x5D, 0x60, 0x62, 0x63], below 1, 3), ([0x61], below 2, 2),
   ([0x68, 0x6A, 0x6E], below 3, 2), ([0x69, 0x6B], below 2, 2),
   ([0x6C], fun n => n / 8 == 0 && n / 2 % 4 != 3, 3), ([0x6D], below 1, 3),
   ([0x70, 0x73], below 2, 2), ([0x71], below 1, 2), ([0x72], below 1, 3), ([0x74], below 2, 3),
   ([0x75], below 3, 2), ([0x76], below 4, 2), ([0x77], below 3, 0), ([0x78], below 5, 1),
   ([0x79], below 1, 3), ([0x7A], fun n => n / 2 % 4 != 3, 3), ([0x7B, 0x7C], below 4, 3),
   ([0x7D, 0x7F], below 1, 2), ([0x7E], below 5, 2)]

/-- The bytes of the tails of the first k heads of a line, by the T of each head as written (R142, R143). -/
def Sys2Proof.tailBytes (l : Line) (k : Nat) : Nat :=
  ((List.range k).map fun j => [0, 2, 4, 8].getD ((l.head j).extractLsb' 13 2).toNat 0).sum

/-- R154: an unassigned MAJOR takes ILL_MAJOR, an unassigned MINOR of an assigned major ILL_MINOR, a T other than its layout's
ILL_RSV; and the tails of a line are placed by the T of its heads as written: that of head k ends where the tails of the heads
before it begin, the first at byte 63. A line holds head k where it and every head before it is nonzero and fits (R143). -/
def Obligations.UnassignedHeads : Prop :=
  (∀ (h : BitVec 16) (t : BitVec 64), h ≠ 0 →
    let maj := (h.extractLsb' 6 7).toNat
    let min := (h.extractLsb' 0 6).toNat
    let tl := (h.extractLsb' 13 2).toNat
    match opcodeMap.find? fun r => r.1.contains maj with
    | none => decode h t = .error .illMajor
    | some r => (r.2.1 min = false → decode h t = .error .illMinor)
      ∧ (r.2.1 min = true → tl ≠ r.2.2 → decode h t = .error .illRsv))
  ∧ ∀ (l : Line) (k : Nat),
    let fits := (List.range (k + 1)).all fun j => l.head j != 0 && decide (2 * j + 2 + tailBytes l (j + 1) ≤ 64)
    let at_ := 64 - tailBytes l (k + 1)
    let n := tailBytes l (k + 1) - tailBytes l k
    l.heads.1[k]? = if fits then some (l.head k, (l.extractLsb' (8 * at_) (8 * n)).setWidth 64) else none

/-- R140, R143, R144, R151: a line that holds the head and tail of a well-formed instruction alone has it in slot 0, and fetch goes
on at the next line after it. -/
def Obligations.LineOfOneHead : Prop :=
  ∀ (i : Instr) (e : Enc) (seq : Bool), i.wf = true → encode i = some e →
    Line.at (Line.single e.head e.tail) 0 seq = .head e.head e.tail
    ∧ Line.at (Line.single e.head e.tail) 1 true = .nextLine
    ∧ Line.at (Line.single e.head e.tail) 1 false = .illLine

/-! ## The step -/

/-- R148, R149, R151, R152, R162: where no event is due, the strand that takes the beat dispatches what stands at its PC: the
decoded instruction's meaning in the state in which it dispatches, ILLEGAL_HEAD for a head that is refused, the fault of a line
that cannot be fetched, the next line where the line ends; a line that waits is waited for. A head that waits instead is not counted
among the heads of its core's tick (R17, R22). The bytes of a plain line that may be
fetched are what stands there, unless the strand has fetched the line with other bytes since its last fence. -/
def Obligations.StepRunsDecoded : Prop :=
  ∀ (s : State) (core : Nat) (t : Strand), s.eventDue = none → s.pick = some (core, t) →
    let runs (i : Instr) (w : State) : Prop := ∃ s', exec i (w.enter core t.id.sid) = .next s' ∧
      let waits := s'.strands.any fun u => u.id.sid == t.id.sid && u.stalled && u.status == .running && u.vfault.isNone
      step s = .next { s' with heads := if waits then s'.heads - 1 else s'.heads }
    (∀ h tail w i, s.fetchHead t.ctx t.pc t.seq = .ok (.head h tail) w → decode h tail = .ok i → runs i (w.endFetch t))
    ∧ (∀ h tail w c, s.fetchHead t.ctx t.pc t.seq = .ok (.head h tail) w → decode h tail = .error c →
      runs (.illegalHead c) (w.endFetch t))
    ∧ (∀ w, s.fetchHead t.ctx t.pc t.seq = .ok .illLine w → runs (.illegalHead .illLine) (w.endFetch t))
    ∧ (∀ c a v w, s.fetchHead t.ctx t.pc t.seq = .flt c a v w → runs (.instructionFetchFault c a v) (s.keepWait w))
    ∧ (∀ w, s.fetchHead t.ctx t.pc t.seq = .wait w → step s = .next ((s.keepWait w).put { t with stalled := true }))
    ∧ (∀ w, s.fetchHead t.ctx t.pc t.seq = .ok .nextLine w →
      step s = .next ((w.endFetch t).put { (w.strand t.id.sid).getD t with pc := (t.pc &&& ~~~63) + 64, seq := true }))
    ∧ ∀ e h, canonical t.pc = true → t.pc.getLsbD 0 = false → s.strand t.id.sid = some t →
      Mapped s t.ctx (t.pc &&& ~~~63) 64 .fetch e → hasLines (pteAttr e.pte) = true →
      h = entryHome e (va52 (t.pc &&& ~~~63)) → Served s t.ctx (t.pc &&& ~~~63) e h →
      let l := BitVec.ofNat 512 (Memory.read s.mem h 64)
      (∀ x ∈ t.ibuf, x.1 = va52 (t.pc &&& ~~~63) / 64 → x.2 = l) →
      ∃ w u, s.fetchHead t.ctx t.pc t.seq = .ok (Line.at l (t.pc.toNat / 2 % 32) t.seq) w ∧ w = { s with strands := w.strands }
        ∧ w.strand t.id.sid = some u ∧ u = { t with ibuf := u.ibuf } ∧ SameOthers s w t.id.sid

/-- Every step of every state has a next state: the machine neither faults nor refuses on its own, since `step` names the strand
that an instruction acts on (log 5). -/
def Obligations.EveryStepCompletes : Prop :=
  ∀ s : State, Safe (step s)

/-- Every step keeps memory and the states of lines in their canonical form. -/
def Obligations.StepKeepsMemory : Prop :=
  ∀ s s' : State, s.memOk → step s = .next s' → s'.memOk

/-- Right after reset memory and the states of lines have their canonical form, nothing is bound, resident, queued or in flight,
no line has been produced, every queue pair, page and binding is absent, the allowance of every die is 255. -/
def Obligations.ResetState : Prop :=
  State.reset.memOk ∧ State.reset.strands = [] ∧ State.reset.gangs = [] ∧ State.reset.cards = [] ∧ State.reset.requests = []
    ∧ State.reset.copies = [] ∧ State.reset.vault = [] ∧ State.reset.tlb = [] ∧ State.reset.qps = []
    ∧ State.reset.pages = [] ∧ State.reset.queues = [] ∧ State.reset.offers = [] ∧ State.reset.barriers = [] ∧ State.reset.tick = 0
    ∧ State.reset.timeNs = 0 ∧ (∀ l, State.reset.lineState l = none) ∧ (∀ a, Memory.get State.reset.mem a = 0)
    ∧ (∀ d ∈ State.reset.dies.toList, d.allow = 255)

/-! ## The statements that combine those above -/

/-- Encodings and results of add, sub, mul, mulh, div and rem. -/
def Obligations.ScalarArithmetic : Prop :=
  ArithmeticEncodings ∧ AddSubMulResults ∧ DivisionResults

/-- Encodings and results of the logic operations, shifts and rotates. -/
def Obligations.LogicAndShifts : Prop :=
  LogicEncodings ∧ LogicShiftResults

/-- Encodings and results of min, max, compares and bit counts. -/
def Obligations.MinMaxComparesCounts : Prop :=
  CompareEncodings ∧ MinMaxCompareResults ∧ BitCountResults

/-- Encodings and results of bext and bins; results of li, lih and lea. -/
def Obligations.FieldsConstantsAddresses : Prop :=
  FieldEncodings ∧ BitFieldResults ∧ ConstantAddressResults

/-- The scalar registers, what a scalar instruction leaves unchanged, and where it waits. -/
def Obligations.ScalarRegistersAndFrame : Prop :=
  ScalarRegisterFile ∧ ScalarFrame ∧ ScalarWaits

/-- Branches, br, call, jr, ret, nop and end. -/
def Obligations.ControlTransfers : Prop :=
  ConditionalBranches ∧ Transfers ∧ EndOfStrand

/-- sget, sput, vsetvl, vsettype and prog.mark (the value read by sget of stl.mem is free: log 7). -/
def Obligations.SystemRegisters : Prop :=
  SystemRegisterAccess ∧ SetVectorLength ∧ SetVectorType ∧ ProgressMark

/-- brk, trap, illegal heads and fetch faults take the exception. -/
def Obligations.ExceptionsOfHeads : Prop :=
  BreakAndTrap ∧ HeadFaults

/-- Scalar float arithmetic, compares and conversions; the exact results, the quotients and roots, the special operands and the minima and maxima spelled out. -/
def Obligations.ScalarFloat : Prop :=
  ScalarFloatArithmetic ∧ ScalarFloatCompares ∧ ScalarFloatConversions ∧ SpecialOperands ∧ OrderMinimaMaxima ∧ ExactBeforeRounding ∧ QuotientsAndRoots ∧ SpecialResults

/-- Rounding of exact results in every direction. -/
def Obligations.Rounding : Prop :=
  RoundingResults ∧ RoundingToInteger ∧ ExactBeforeRounding ∧ QuotientsAndRoots ∧ SpecialResults

/-- Atomics from dispatch to their home and back. -/
def Obligations.ScalarAtomics : Prop :=
  ScalarAtomicRequests ∧ ScalarAtomicsOnHostPages ∧ HomeServesAtomic ∧ AccessDelivery

/-- qdrain, sys.call and task.post (order of their checks: log 49). -/
def Obligations.SchedulerCalls : Prop :=
  QueueDrain ∧ SystemCall ∧ TaskPost

/-- The forwarding instructions and tier.hint. -/
def Obligations.Forwarding : Prop :=
  TierHint ∧ ForwardingOffChain ∧ ForwardingOneHop

/-- Dispatch of a vector-queue instruction into a convoy. -/
def Obligations.ChainedDispatch : Prop :=
  ChainedDispatchClause ∧ ResultQueueLimit

/-- Float vector arithmetic and vfrcp.e; the exact results, the quotients and roots, the special operands and the minima and maxima spelled out. -/
def Obligations.VectorFloat : Prop :=
  VectorFloatResults ∧ ReciprocalEstimate ∧ SpecialOperands ∧ OrderMinimaMaxima ∧ ExactBeforeRounding ∧ QuotientsAndRoots ∧ SpecialResults

/-- Vector compares, mask operations, selects, moves and tags. -/
def Obligations.ComparesSelectsMoves : Prop :=
  CompareMaskSelectResults ∧ MoveAndTagResults

/-- vmerge.u of sorted rows. -/
def Obligations.Merges : Prop :=
  MergeOfSortedRows ∧ MergeResults

/-- Vector loads and the compressed block forms. -/
def Obligations.VectorLoads : Prop :=
  VectorLoadsClause ∧ CompressedBlocks

/-- Lane tables and updates of the accumulation window. -/
def Obligations.LaneTablesAndWindows : Prop :=
  LaneTableResults ∧ WindowUpdates

/-- Tile moves, memory forms and conversions. -/
def Obligations.Tiles : Prop :=
  TileMoves ∧ TileConversions

/-- vopa and vopa.s. -/
def Obligations.OuterProductAccumulation : Prop :=
  OuterProducts ∧ OuterProductSums

/-- Vector atomics: their requests, at their homes, and their old values. -/
def Obligations.VectorAtomicResults : Prop :=
  VectorAtomicSends ∧ VectorAtomicAtHome ∧ VectorAtomicReturns

/-- vxch: offer, match and timeout. -/
def Obligations.Exchanges : Prop :=
  ExchangeOffers ∧ ExchangeEvents

/-- Convoys of one and of two members, where they stop, and how their values leave the queue. -/
def Obligations.ConvoysAndQueues : Prop :=
  ConvoyStops ∧ ConvoyInOrder ∧ ConvoyTrimmed ∧ ConvoyStopped ∧ QueueEvents

/-- Where instructions that form a convoy alone wait; fences. -/
def Obligations.SoloInstructionsAndFences : Prop :=
  SoloDispatchWaits ∧ FenceResults

/-- acq, rel, sync.bind, sync.unbind, vwait and the ends of their waits. -/
def Obligations.SyncObjectsAndFlags : Prop :=
  SyncObjectResults ∧ VectorWaitResults

/-- Barrier instructions and phases. -/
def Obligations.Barriers : Prop :=
  BarrierInstructions ∧ BarrierPhases

/-- win.open, win.merge, win.close and the start of copies. -/
def Obligations.WindowsAndCopies : Prop :=
  WindowInstructions ∧ CopyInstructions

/-- Fault services, chain repair, fault notices and their answers. -/
def Obligations.FaultHandling : Prop :=
  FaultServices ∧ ChainRepair ∧ FaultNotices ∧ FaultAnswers

/-- Retiring of strands and completion of tasks. -/
def Obligations.EndsOfTasks : Prop :=
  StrandRetires ∧ GangCompletes

/-- Submission of cards, register writes, class promotion. -/
def Obligations.SubmissionAndQueues : Prop :=
  Submission ∧ RegisterWrites ∧ ClassPromotion

/-- Bind records, first dispatch and resume of gangs. -/
def Obligations.BindAndDispatch : Prop :=
  BindRecords ∧ GangDispatch

/-- SAVE_GANG, SAVE_COMPLETE and SAVE_TIMEOUT: where each completes and what it leaves. -/
def Obligations.GangsAreSaved : Prop :=
  GangSaves ∧ SaveTimeouts

/-- VACATE_RECORD, CHECKPOINT_START and VACATE_RELEASE: where each completes and what it leaves. -/
def Obligations.VacatingATarget : Prop :=
  VacateRecords ∧ VacateSteps

/-- Soft errors, watchdog, held requests, dropped translations and lines. -/
def Obligations.ErrorsAndTimeouts : Prop :=
  SoftErrors ∧ TimeoutsAndReplacements

/-- Host accesses to HBM4E, AtomicOps, ridge links (what gets Unsupported Request: log 22). -/
def Obligations.HostAndLinks : Prop :=
  HostWindow ∧ RidgeLinks

/-- Work entries, tails, completions and contexts of queue pairs (counts start at 0: log 23). -/
def Obligations.NetworkEngine : Prop :=
  NetworkSends ∧ NetworkReceives ∧ QueuePairs

/-- VF reset, starts, attestation (logs 8, 14, 26, 27, 94), allowances and heat (log 53). -/
def Obligations.Platform : Prop :=
  VfReset ∧ Starts ∧ Attestation ∧ ThermalTrip ∧ PowerAndHeat
end

