-- ==== Sys2Proof/Laws/Memory.lean ====
section
/-!
SUPPORT. Memory: what a read gives after a write, and that every memory operation keeps the canonical form.
-/

namespace Sys2Proof.Machine

variable {α : Type}

/-! ## Lists with rising keys -/

/-- Keys rise where the first lies below all others and the others rise. -/
theorem Cells.rising_cons (x : Nat × α) (t : List (Nat × α)) :
    Cells.rising (x :: t) = true ↔ (∀ y ∈ t, x.1 < y.1) ∧ Cells.rising t = true := by
  induction t generalizing x with
  | nil => simp [Cells.rising]
  | cons y t ih =>
    simp only [Cells.rising, Bool.and_eq_true, decide_eq_true_eq, List.mem_cons, forall_eq_or_imp]
    constructor
    · rintro ⟨h, hr⟩
      exact ⟨⟨h, fun z hz => h.trans (((ih y).1 hr).1 z hz)⟩, hr⟩
    · rintro ⟨⟨h, -⟩, hr⟩
      exact ⟨h, hr⟩

/-- An entry of a list with a key set is the new one or an old one of another key. -/
theorem Cells.mem_put {l : List (Nat × α)} {a : Nat} {v : Option α} {x : Nat × α} (h : x ∈ Cells.put l a v) :
    (x.1 = a ∧ v = some x.2) ∨ x ∈ l := by
  induction l with
  | nil =>
    cases v with
    | none => simp [Cells.put] at h
    | some w => simp only [Cells.put, List.mem_singleton] at h; subst h; exact .inl ⟨rfl, rfl⟩
  | cons y t ih =>
    simp only [Cells.put] at h
    split at h
    · cases v with
      | none => exact .inr h
      | some w =>
        rcases List.mem_cons.1 h with rfl | h
        · exact .inl ⟨rfl, rfl⟩
        · exact .inr h
    · split at h
      · cases v with
        | none => exact .inr (List.mem_cons_of_mem _ h)
        | some w =>
          rcases List.mem_cons.1 h with rfl | h
          · exact .inl ⟨rfl, rfl⟩
          · exact .inr (List.mem_cons_of_mem _ h)
      · rcases List.mem_cons.1 h with rfl | h
        · exact .inr (List.mem_cons_self ..)
        · exact (ih h).imp_right (List.mem_cons_of_mem _)

/-- Setting or removing a key keeps the keys rising. -/
theorem Cells.rising_put {l : List (Nat × α)} (h : Cells.rising l = true) (a : Nat) (v : Option α) :
    Cells.rising (Cells.put l a v) = true := by
  induction l with
  | nil => cases v <;> rfl
  | cons y t ih =>
    have hy := (Cells.rising_cons y t).1 h
    simp only [Cells.put]
    split
    · rename_i hlt
      cases v with
      | none => exact h
      | some w =>
        refine (Cells.rising_cons _ _).2 ⟨fun z hz => ?_, h⟩
        rcases List.mem_cons.1 hz with rfl | hz
        · exact hlt
        · exact hlt.trans (hy.1 z hz)
    · split
      · rename_i he
        cases v with
        | none => exact hy.2
        | some w => exact (Cells.rising_cons _ _).2 ⟨fun z hz => he ▸ hy.1 z hz, hy.2⟩
      · rename_i h1 h2
        refine (Cells.rising_cons _ _).2 ⟨fun z hz => ?_, ih hy.2⟩
        rcases Cells.mem_put hz with ⟨rfl, -⟩ | hz
        · omega
        · exact hy.1 z hz

/-- A key below all keys is not held. -/
theorem Cells.find_below {l : List (Nat × α)} {a : Nat} (h : ∀ y ∈ l, a < y.1) : Cells.find l a = none := by
  induction l with
  | nil => rfl
  | cons y t ih =>
    have := h y (List.mem_cons_self ..)
    simp only [Cells.find]
    rw [if_neg (by omega)]
    exact ih fun z hz => h z (List.mem_cons_of_mem _ hz)

/-- The key that was set reads as it was set. -/
theorem Cells.find_put_same {l : List (Nat × α)} (h : Cells.rising l = true) (a : Nat) (v : Option α) :
    Cells.find (Cells.put l a v) a = v := by
  induction l with
  | nil => cases v <;> simp [Cells.put, Cells.find]
  | cons y t ih =>
    have hy := (Cells.rising_cons y t).1 h
    simp only [Cells.put]
    split
    · rename_i hlt
      cases v with
      | none =>
        refine Cells.find_below fun z hz => ?_
        rcases List.mem_cons.1 hz with rfl | hz
        · exact hlt
        · exact hlt.trans (hy.1 z hz)
      | some w => simp [Cells.find]
    · split
      · rename_i he
        cases v with
        | none => exact Cells.find_below fun z hz => he ▸ hy.1 z hz
        | some w => simp [Cells.find]
      · rename_i h1 h2
        simp only [Cells.find]
        rw [if_neg (by omega)]
        exact ih hy.2

/-- Every other key reads as before. -/
theorem Cells.find_put_other (l : List (Nat × α)) {a b : Nat} (h : b ≠ a) (v : Option α) :
    Cells.find (Cells.put l a v) b = Cells.find l b := by
  induction l with
  | nil => cases v <;> simp [Cells.put, Cells.find, Ne.symm h]
  | cons y t ih =>
    simp only [Cells.put]
    split
    · cases v with
      | none => rfl
      | some w => simp [Cells.find, Ne.symm h]
    · split
      · rename_i he
        cases v with
        | none => simp [Cells.find, he ▸ Ne.symm h]
        | some w => simp [Cells.find, he ▸ Ne.symm h, Ne.symm h]
      · simp only [Cells.find, ih]

/-! ## Bytes -/

/-- The form of memory as a property of its entries. -/
theorem Memory.wf_iff (m : List Host.Cell) :
    Memory.wf m = true ↔ Cells.rising m = true ∧ ∀ c ∈ m, c.2 ≠ 0 := by
  simp [Memory.wf]

/-- Writing a byte keeps the canonical form. -/
theorem Memory.wf_set {m : List Host.Cell} (h : Memory.wf m = true) (a : Nat) (b : Byte) :
    Memory.wf (Memory.set m a b) = true := by
  rw [Memory.wf_iff] at h ⊢
  refine ⟨Cells.rising_put h.1 a _, fun c hc => ?_⟩
  rcases Cells.mem_put hc with ⟨-, hv⟩ | hc
  · split at hv
    · exact absurd hv (by simp)
    · rename_i hb
      injection hv with hv
      exact hv ▸ hb
  · exact h.2 c hc

/-- A byte reads as it was written. -/
theorem Memory.get_set_same {m : List Host.Cell} (h : Memory.wf m = true) (a : Nat) (b : Byte) :
    Memory.get (Memory.set m a b) a = b := by
  rw [Memory.get, Memory.set, Cells.find_put_same ((Memory.wf_iff m).1 h).1]
  split
  · rename_i hb; exact hb.symm
  · rfl

/-- Every other byte reads as before. -/
theorem Memory.get_set_other (m : List Host.Cell) {a c : Nat} (h : c ≠ a) (b : Byte) :
    Memory.get (Memory.set m a b) c = Memory.get m c := by
  rw [Memory.get, Memory.set, Cells.find_put_other m h, Memory.get]

/-- Writing bytes keeps the canonical form. -/
theorem Memory.wf_fill {m : List Host.Cell} (h : Memory.wf m = true) (a : Nat) (bs : List Byte) :
    Memory.wf (Memory.fill m a bs) = true := by
  induction bs generalizing m a with
  | nil => exact h
  | cons b t ih => exact ih (Memory.wf_set h a b) (a + 1)

/-- Writing a number keeps the canonical form. -/
theorem Memory.wf_write {m : List Host.Cell} (h : Memory.wf m = true) (a n v : Nat) :
    Memory.wf (Memory.write m a n v) = true :=
  Memory.wf_fill h a _

/-- A byte outside the bytes written reads as before. -/
theorem Memory.get_fill_other (m : List Host.Cell) (a : Nat) (bs : List Byte) {c : Nat}
    (h : c < a ∨ a + bs.length ≤ c) : Memory.get (Memory.fill m a bs) c = Memory.get m c := by
  induction bs generalizing m a with
  | nil => rfl
  | cons b t ih =>
    simp only [List.length_cons] at h
    rw [Memory.fill, ih _ _ (by omega), Memory.get_set_other m (by omega)]

/-- A byte among those written reads as it was written. -/
theorem Memory.get_fill {m : List Host.Cell} (h : Memory.wf m = true) (a : Nat) (bs : List Byte) {i : Nat}
    (hi : i < bs.length) : Memory.get (Memory.fill m a bs) (a + i) = bs[i] := by
  induction bs generalizing m a i with
  | nil => exact absurd hi (by simp)
  | cons b t ih =>
    cases i with
    | zero =>
      rw [Memory.fill, Memory.get_fill_other _ _ _ (by omega)]
      exact Memory.get_set_same h a b
    | succ i =>
      rw [Memory.fill, show a + (i + 1) = a + 1 + i by omega]
      exact ih (Memory.wf_set h a b) (a + 1) (by simpa using hi)

@[simp] theorem length_leBytes (n v : Nat) : (leBytes n v).length = n := by
  induction n generalizing v with
  | zero => rfl
  | succ n ih => simp [leBytes, ih]

/-- The bytes of a number read back as its low bytes. -/
theorem leNat_leBytes (n v : Nat) : leNat (leBytes n v) = v % 2 ^ (8 * n) := by
  induction n generalizing v with
  | zero => simp [leBytes, leNat, Nat.mod_one]
  | succ n ih =>
    simp only [leBytes, leNat, ih, BitVec.toNat_ofNat]
    rw [show 2 ^ (8 * (n + 1)) = 256 * 2 ^ (8 * n) by rw [show 8 * (n + 1) = 8 + 8 * n by omega, Nat.pow_add],
      Nat.mod_mul]

/-- The bytes from an address upward after they were written. -/
theorem Memory.bytes_fill {m : List Host.Cell} (h : Memory.wf m = true) (a : Nat) (bs : List Byte) :
    Memory.bytes (Memory.fill m a bs) a bs.length = bs := by
  induction bs generalizing m a with
  | nil => rfl
  | cons b t ih =>
    simp only [List.length_cons, Memory.bytes]
    rw [Memory.fill, ih (Memory.wf_set h a b), Memory.get_fill_other _ _ _ (by omega), Memory.get_set_same h]

/-- A number reads back as it was written. -/
theorem Memory.read_write_same {m : List Host.Cell} (h : Memory.wf m = true) (a n v : Nat) :
    Memory.read (Memory.write m a n v) a n = v % 2 ^ (8 * n) := by
  have := Memory.bytes_fill h a (leBytes n v)
  rw [length_leBytes] at this
  rw [Memory.read, Memory.write, this, leNat_leBytes]

/-- Bytes apart from those written read as before. -/
theorem Memory.bytes_fill_apart (m : List Host.Cell) (a : Nat) (bs : List Byte) (c n : Nat)
    (h : c + n ≤ a ∨ a + bs.length ≤ c) : Memory.bytes (Memory.fill m a bs) c n = Memory.bytes m c n := by
  induction n generalizing c with
  | zero => rfl
  | succ n ih =>
    simp only [Memory.bytes]
    rw [Memory.get_fill_other _ _ _ (by omega), ih _ (by omega)]

/-- A number apart from the bytes written reads as before. -/
theorem Memory.read_write_apart (m : List Host.Cell) (a n v c k : Nat) (h : c + k ≤ a ∨ a + n ≤ c) :
    Memory.read (Memory.write m a n v) c k = Memory.read m c k := by
  rw [Memory.read, Memory.write, Memory.bytes_fill_apart _ _ _ _ _ (by simpa using h), Memory.read]

/-! ## Lines -/

/-- A line set reads as it was set. -/
theorem State.lineState_setLine_same {s : State} (h : Cells.rising s.lines = true) (l : Nat) (x : LineState) :
    (s.setLine l x).lineState l = some x :=
  Cells.find_put_same h l _

/-- Every other line is in its state. -/
theorem State.lineState_setLine_other (s : State) {l k : Nat} (h : k ≠ l) (x : LineState) :
    (s.setLine l x).lineState k = s.lineState k :=
  Cells.find_put_other _ h _

end Sys2Proof.Machine
end

