-- ==== Sys2Proof/Laws/Access.lean ====
section
/-!
SUPPORT. What an attempt at memory can change: a read changes services, cached translations and the counter of the free
values alone; a write keeps memory and the lines in their canonical form.
-/

namespace Sys2Proof.Machine

/-! ## What a read may change -/

/-- `w` differs from `s` in services, cached translations and the counter of the free values alone. -/
def State.Reads (s w : State) : Prop :=
  s.keepWait w = w

theorem State.Reads.refl (s : State) : s.Reads s := rfl

theorem State.Reads.trans {s t u : State} (h : s.Reads t) (k : t.Reads u) : s.Reads u := by
  rw [State.Reads, ← k, ← h]; rfl

/-- What the states of an attempt meet. -/
def Res.Ends {α : Type} (x : Res α) (P : State → Prop) : Prop :=
  match x with
  | .ok _ w => P w
  | .flt _ _ _ w => P w
  | .wait w => P w
  | .held _ w => P w
  | .soft _ w => P w

theorem Res.Ends.mono {α : Type} {x : Res α} {P Q : State → Prop} (h : x.Ends P) (k : ∀ w, P w → Q w) : x.Ends Q := by
  cases x <;> exact k _ h

theorem Res.Ends.bind {α β : Type} {x : Res α} {f : α → State → Res β} {P : State → Prop}
    (h : x.Ends P) (k : ∀ a w, P w → (f a w).Ends P) : (x.bind f).Ends P := by
  cases x with
  | ok a w => exact k a w h
  | flt | wait | held | soft => exact h

/-- The continuation of a read reads on. -/
theorem Res.Ends.reads_bind {α β : Type} {s : State} {x : Res α} {f : α → State → Res β}
    (h : x.Ends s.Reads) (k : ∀ a w, (f a w).Ends w.Reads) : (x.bind f).Ends s.Reads :=
  Res.Ends.bind h fun a w hw => (k a w).mono fun _ => hw.trans

theorem State.reads_install (s : State) (e : TlbEntry) : s.Reads (s.install e) := rfl

theorem State.reads_setSvc (s : State) (v : Svc) : s.Reads (s.setSvc v) := rfl

theorem State.reads_endSvc (s : State) (w : Agent) : s.Reads (s.endSvc w) := rfl

/-! ## Reads -/

theorem State.service_reads {α : Type} (s : State) (c : Ctx) (addr : Word) (va sub owner : Nat) :
    (s.service c addr va sub owner : Res α).Ends s.Reads := by
  unfold State.service
  dsimp only
  split
  · exact rfl
  · split
    · exact rfl
    · split <;> try exact rfl
      split <;> exact rfl

theorem State.migrating_reads {α : Type} (s : State) (c : Ctx) (addr : Word) (va owner : Nat) :
    (s.migrating c addr va owner : Res α).Ends s.Reads := by
  unfold State.migrating
  dsimp only
  split
  · exact rfl
  · split <;> try exact rfl
    split
    · exact (State.service_reads _ _ _ _ _ _).mono fun _ => (State.reads_setSvc s _).trans
    · exact rfl

theorem State.walkFor_reads (s : State) (c : Ctx) (addr : Word) (va : Nat) : (s.walkFor c addr va).Ends s.Reads := by
  unfold State.walkFor
  split
  · exact rfl
  · exact State.service_reads ..
  · split
    · exact rfl
    · exact State.service_reads ..
  · exact State.migrating_reads ..
  · exact rfl
  · exact rfl

theorem State.shut_reads {α : Type} (s : State) (l : Nat) : (s.shut l : Res α).Ends s.Reads := by
  unfold State.shut
  split <;> exact rfl

theorem State.translate_reads (s : State) (c : Ctx) (addr : Word) (va : Nat) (need : Need) :
    (s.translate c addr va need).Ends s.Reads := by
  have walk : ((s.walkFor c addr va).bind fun e' s' => if ptePermits e'.pte need then Res.ok e' s' else .flt .perm addr 0 s').Ends
      s.Reads := (State.walkFor_reads ..).reads_bind fun a w => by split <;> exact rfl
  unfold State.translate
  split
  · exact rfl
  · split
    · split
      · exact rfl
      · exact walk
    · exact walk

theorem State.requested_reads (s : State) (c : Ctx) (va : Word) (n align : Nat) (need : Need) :
    (s.requested c va n align need).Ends s.Reads := by
  unfold State.requested
  split
  · exact rfl
  · split
    · exact rfl
    · exact State.translate_reads ..

theorem State.chase_reads (c : Ctx) (addr : Word) (need : Need) (fuel hops : Nat) (va : Word) (e : TlbEntry) (s : State) :
    (s.chase c addr need fuel hops va e).Ends s.Reads := by
  induction fuel generalizing hops va e s with
  | zero => exact rfl
  | succ fuel ih =>
    simp only [State.chase]
    split
    · exact State.shut_reads ..
    split
    · split
      · exact rfl
      · split
        · exact rfl
        · split
          · exact rfl
          · refine (State.translate_reads ..).reads_bind fun e' w => ?_
            split
            · exact ih ..
            · exact rfl
    · exact rfl

theorem State.resolve_reads (s : State) (c : Ctx) (va : Word) (n align : Nat) (need : Need) (k : Kind) :
    (s.resolve c va n align need k).Ends s.Reads := by
  unfold State.resolve
  refine (State.requested_reads ..).reads_bind fun e w => ?_
  dsimp only
  split
  · exact rfl
  · split
    · split <;> exact rfl
    · split
      · exact State.chase_reads ..
      · exact rfl

theorem State.atHome_reads (s : State) (c : Ctx) (addr : Word) (l : Loc) (need : Need) (whole : Bool) :
    (s.atHome c addr l need whole).Ends s.Reads := by
  unfold State.atHome
  dsimp only
  split
  · exact rfl
  · split
    · exact rfl
    · repeat' split
      all_goals exact rfl

theorem State.load_reads (s : State) (c : Ctx) (lb : List BufLine) (va : Word) (n : Nat) :
    (s.load c lb va n).Ends s.Reads := by
  unfold State.load
  refine (State.requested_reads ..).reads_bind fun e w => ?_
  dsimp only
  split
  · exact rfl
  · split
    · split
      · exact rfl
      · exact (State.atHome_reads ..).reads_bind fun l w2 => rfl
    · split
      · exact rfl
      · refine Res.Ends.reads_bind ?_ fun l w2 => (State.atHome_reads ..).reads_bind fun l w3 => ?_
        · split
          · exact State.chase_reads ..
          · exact rfl
        · dsimp only [Res.Ends]
          split <;> exact rfl

theorem State.readSync_reads (s : State) (c : Ctx) (va : Word) (need : Need) : (s.readSync c va need).Ends s.Reads := by
  unfold State.readSync
  exact (State.resolve_reads ..).reads_bind fun l w => (State.atHome_reads ..).reads_bind fun l w2 => rfl

theorem State.readBytes_reads (c : Ctx) (n : Nat) (va : Word) (s : State) : (s.readBytes c va n).Ends s.Reads := by
  induction n generalizing va s with
  | zero => exact rfl
  | succ n ih =>
    simp only [State.readBytes]
    exact (State.resolve_reads ..).reads_bind fun l w => (State.atHome_reads ..).reads_bind fun l w2 =>
      (ih ..).reads_bind fun t w3 => rfl

/-- `w` differs from `s` in services, cached translations, the counter of the free values and what strands have fetched alone. -/
def State.Fetches (s w : State) : Prop :=
  { s with svcs := w.svcs, tlb := w.tlb, freeCtr := w.freeCtr, strands := w.strands } = w

theorem State.Reads.fetches {s w : State} (h : s.Reads w) : s.Fetches w := by
  rw [State.Fetches, ← h]; rfl

theorem State.Reads.then_fetches {s w u : State} (h : s.Reads w) (k : w.Fetches u) : s.Fetches u := by
  rw [State.Fetches, ← k, ← h]; rfl

/-- A fetch after a read is a fetch. -/
theorem Res.Ends.fetches_bind {α β : Type} {s : State} {x : Res α} {f : α → State → Res β}
    (h : x.Ends s.Reads) (k : ∀ a w, (f a w).Ends w.Fetches) : (x.bind f).Ends s.Fetches := by
  cases x with
  | ok a w => exact (k a w).mono fun _ => State.Reads.then_fetches h
  | flt | wait | held | soft => exact State.Reads.fetches h

theorem State.fetched_fetches (s : State) (c : Ctx) (line : Nat) (new : BitVec 512) : s.Fetches (s.fetched c line new).2 := by
  unfold State.fetched
  split
  · split
    · split <;> exact rfl
    · exact rfl
  · exact rfl

theorem State.fetchLine_fetches (s : State) (c : Ctx) (pc : Word) : (s.fetchLine c pc).Ends s.Fetches := by
  unfold State.fetchLine
  split
  · exact rfl
  · refine (State.translate_reads ..).fetches_bind fun e w => ?_
    dsimp only
    split
    · exact rfl
    · split
      · exact rfl
      · refine Res.Ends.fetches_bind ?_ fun l w2 => (State.atHome_reads ..).fetches_bind fun l w3 => State.fetched_fetches ..
        split
        · exact State.chase_reads ..
        · exact rfl

theorem State.fetchHead_fetches (s : State) (c : Ctx) (pc : Word) (seq : Bool) : (s.fetchHead c pc seq).Ends s.Fetches := by
  unfold State.fetchHead
  split
  · exact rfl
  · split
    · exact rfl
    · exact (State.fetchLine_fetches ..).bind fun l w h => h

/-! ## The canonical form -/

/-- A state that differs elsewhere keeps the canonical form. -/
theorem State.memOk.congr {s w : State} (h : s.memOk) (hm : w.mem = s.mem) (hl : w.lines = s.lines) : w.memOk := by
  rw [State.memOk, hm, hl]; exact h

theorem State.Fetches.memOk {s w : State} (k : s.Fetches w) (h : s.memOk) : w.memOk :=
  h.congr (by rw [← k]) (by rw [← k])

theorem State.Reads.memOk {s w : State} (k : s.Reads w) (h : s.memOk) : w.memOk :=
  h.congr (by rw [← k]; rfl) (by rw [← k]; rfl)

theorem State.memOk_setLine {s : State} (h : s.memOk) (l : Nat) (x : LineState) : (s.setLine l x).memOk :=
  ⟨h.1, Cells.rising_put h.2 l _⟩

theorem State.memOk_setLineData {s : State} (h : s.memOk) (l : Nat) (d : BitVec 1024) : (s.setLineData l d).memOk := by
  unfold State.memOk State.setLineData
  dsimp only
  exact ⟨Memory.wf_write h.1 (128 * l) 128 d.toNat, h.2⟩

theorem State.memOk_writeHome {s : State} (h : s.memOk) (a : Nat) (bs : List Byte) : (s.writeHome a bs).memOk := by
  have h1 : ({ s with mem := Memory.fill s.mem a bs } : State).memOk := ⟨Memory.wf_fill h.1 a bs, h.2⟩
  unfold State.writeHome
  dsimp only
  split
  · exact State.memOk_setLine h1 _ _
  · exact h1

theorem State.memOk_amoAt {s : State} (h : s.memOk) (a : Nat) (op : AmoOp) (n b cmp : Nat) :
    (s.amoAt a op n b cmp).2.memOk :=
  State.memOk_writeHome h _ _

theorem State.store_memOk {s : State} (h : s.memOk) (c : Ctx) (lb : List BufLine) (va : Word) (n v : Nat) :
    (s.store c lb va n v).Ends State.memOk := by
  unfold State.store
  refine ((State.resolve_reads ..).mono fun w k => k.memOk h).bind fun l w hw =>
    ((State.atHome_reads ..).mono fun w2 k => k.memOk hw).bind fun l2 w2 hw2 => ?_
  exact State.memOk_writeHome hw2 _ _

theorem State.writeBytes_memOk {s : State} (h : s.memOk) (c : Ctx) (va : Word) (bs : List Byte) :
    (s.writeBytes c va bs).Ends State.memOk := by
  unfold State.writeBytes
  refine ((State.resolve_reads ..).mono fun w k => k.memOk h).bind fun l w hw =>
    ((State.atHome_reads ..).mono fun w2 k => k.memOk hw).bind fun l2 w2 hw2 => ?_
  have k := State.memOk_writeHome hw2 l2.home bs
  exact ⟨k.1, k.2⟩

end Sys2Proof.Machine
end

