-- ==== Sys2Proof/Laws/Codes.lean ====
section
/-!
SUPPORT. The codes and fields of an encoding read back as they were written (R63, R75, R141, R146, R198).
-/

namespace Sys2Proof

/-! ## Codes -/

@[simp] theorem Tag.ofCode_code (t : Tag) : Tag.ofCode t.code = some t := by cases t <;> rfl

@[simp] theorem Rm.ofCode_code (r : Rm) : Rm.ofCode r.code = r := by cases r <;> rfl

@[simp] theorem rmsOf_rmsCode (r : Option Rm) : rmsOf (rmsCode r) = some r := by
  cases r with
  | none => rfl
  | some r => cases r <;> rfl

@[simp] theorem Ord.ofCode_code (o : Ord) : Ord.ofCode o.code = some o := by cases o <;> rfl

@[simp] theorem Scope.ofCode_code (o : Scope) : Scope.ofCode o.code = some o := by cases o <;> rfl

@[simp] theorem Tier.ofCode_code (o : Tier) : Tier.ofCode o.code = some o := by cases o <;> rfl

@[simp] theorem bit1_eq_one (b : Bool) : (bit1 b == 1#1) = b := by cases b <;> rfl

/-- A scalar register in a 6-bit field. -/
@[simp] theorem sregOf_sreg6 (r : SReg) : sregOf (sreg6 r) = some r := by
  have h : r.toNat < 32 := r.isLt
  have e : (sreg6 r).toNat = r.toNat := by
    simp only [sreg6, BitVec.toNat_setWidth]; omega
  unfold sregOf
  rw [if_pos (by omega)]
  simp [sreg6]

/-- A mask register or a tile in a 6-bit field. -/
@[simp] theorem lowReg_low6 (r : BitVec 3) : lowReg (low6 r) = some r := by
  have h : r.toNat < 8 := r.isLt
  have e : (low6 r).toNat = r.toNat := by
    simp only [low6, BitVec.toNat_setWidth]; omega
  unfold lowReg
  rw [if_pos (by omega)]
  simp [low6]

/-! ## Heads and tails -/

/-- A field of a concatenation that lies in the low part. -/
theorem extract_append_low {n m : Nat} (x : BitVec n) (y : BitVec m) (s l : Nat) (h : s + l ≤ m) :
    (x ++ y).extractLsb' s l = y.extractLsb' s l := by
  ext i hi
  simp only [BitVec.getElem_extractLsb', BitVec.getLsbD_append]
  rw [if_pos (by omega)]

/-- A field of a concatenation that lies in the high part. -/
theorem extract_append_high {n m : Nat} (x : BitVec n) (y : BitVec m) (s l : Nat) (h : m ≤ s) :
    (x ++ y).extractLsb' s l = x.extractLsb' (s - m) l := by
  ext i hi
  simp only [BitVec.getElem_extractLsb', BitVec.getLsbD_append]
  rw [if_neg (by omega)]
  congr 1
  omega

/-- A field of a widened word. -/
theorem extract_setWidth {n m : Nat} (x : BitVec n) (s l : Nat) (h : s + l ≤ n) (hm : n ≤ m) :
    (x.setWidth m).extractLsb' s l = x.extractLsb' s l := by
  ext i hi
  simp only [BitVec.getElem_extractLsb', BitVec.getLsbD_setWidth]
  simp only [Bool.and_eq_right_iff_imp, decide_eq_true_eq]
  omega

@[simp] theorem Head.of_bits (h : Head) : Head.of h.bits = h := by
  obtain ⟨c, t, maj, min⟩ := h
  simp only [Head.of, Head.bits]
  congr 1
  · rw [extract_append_high _ _ _ _ (by decide), extract_append_high _ _ _ _ (by decide),
      extract_append_high _ _ _ _ (by decide)]
    simp
  · rw [extract_append_high _ _ _ _ (by decide), extract_append_high _ _ _ _ (by decide),
      extract_append_low _ _ _ _ (by decide)]
    simp
  · rw [extract_append_high _ _ _ _ (by decide), extract_append_low _ _ _ _ (by decide)]
    simp
  · rw [extract_append_low _ _ _ _ (by decide)]
    simp

@[simp] theorem T16.of_bits (x : T16) : T16.of x.bits = x := by
  obtain ⟨r, i⟩ := x
  simp only [T16.of, T16.bits]
  congr 1
  · rw [extract_setWidth _ _ _ (by decide) (by decide), extract_append_high _ _ _ _ (by decide)]
    simp
  · rw [extract_setWidth _ _ _ (by decide) (by decide), extract_append_low _ _ _ _ (by decide)]
    simp

@[simp] theorem S32.of_bits (x : S32) : S32.of x.bits = x := by
  obtain ⟨d, a, b, i⟩ := x
  simp only [S32.of, S32.bits]
  congr 1 <;> rw [extract_setWidth _ _ _ (by decide) (by decide)]
  · repeat rw [extract_append_high _ _ _ _ (by decide)]
    simp
  · rw [extract_append_high _ _ _ _ (by decide), extract_append_high _ _ _ _ (by decide),
      extract_append_low _ _ _ _ (by decide)]
    simp
  · rw [extract_append_high _ _ _ _ (by decide), extract_append_low _ _ _ _ (by decide)]
    simp
  · rw [extract_append_low _ _ _ _ (by decide)]
    simp

@[simp] theorem B32.of_bits (x : B32) : B32.of x.bits = x := by
  obtain ⟨a, b, o, l⟩ := x
  simp only [B32.of, B32.bits]
  congr 1 <;> rw [extract_setWidth _ _ _ (by decide) (by decide)]
  · repeat rw [extract_append_high _ _ _ _ (by decide)]
    simp
  · rw [extract_append_high _ _ _ _ (by decide), extract_append_high _ _ _ _ (by decide),
      extract_append_low _ _ _ _ (by decide)]
    simp
  · rw [extract_append_high _ _ _ _ (by decide), extract_append_low _ _ _ _ (by decide)]
    simp
  · rw [extract_append_low _ _ _ _ (by decide)]
    simp

@[simp] theorem V32.of_bits (x : V32) : V32.of x.bits = x := by
  obtain ⟨d, a, b, k, n, m⟩ := x
  simp only [V32.of, V32.bits]
  congr 1 <;> rw [extract_setWidth _ _ _ (by decide) (by decide)]
  · repeat rw [extract_append_high _ _ _ _ (by decide)]
    simp
  · iterate 4 rw [extract_append_high _ _ _ _ (by decide)]
    rw [extract_append_low _ _ _ _ (by decide)]
    simp
  · iterate 3 rw [extract_append_high _ _ _ _ (by decide)]
    rw [extract_append_low _ _ _ _ (by decide)]
    simp
  · iterate 2 rw [extract_append_high _ _ _ _ (by decide)]
    rw [extract_append_low _ _ _ _ (by decide)]
    simp
  · rw [extract_append_high _ _ _ _ (by decide), extract_append_low _ _ _ _ (by decide)]
    simp
  · rw [extract_append_low _ _ _ _ (by decide)]
    simp

@[simp] theorem E64.of_bits (x : E64) : E64.of x.bits = x := by
  obtain ⟨d, a, b, c, e, va, vb, k, n, m⟩ := x
  simp only [E64.of, E64.bits]
  congr 1
  · repeat rw [extract_append_high _ _ _ _ (by decide)]
    simp
  · iterate 8 rw [extract_append_high _ _ _ _ (by decide)]
    rw [extract_append_low _ _ _ _ (by decide)]
    simp
  · iterate 7 rw [extract_append_high _ _ _ _ (by decide)]
    rw [extract_append_low _ _ _ _ (by decide)]
    simp
  · iterate 6 rw [extract_append_high _ _ _ _ (by decide)]
    rw [extract_append_low _ _ _ _ (by decide)]
    simp
  · iterate 5 rw [extract_append_high _ _ _ _ (by decide)]
    rw [extract_append_low _ _ _ _ (by decide)]
    simp
  · iterate 4 rw [extract_append_high _ _ _ _ (by decide)]
    rw [extract_append_low _ _ _ _ (by decide)]
    simp
  · iterate 3 rw [extract_append_high _ _ _ _ (by decide)]
    rw [extract_append_low _ _ _ _ (by decide)]
    simp
  · iterate 2 rw [extract_append_high _ _ _ _ (by decide)]
    rw [extract_append_low _ _ _ _ (by decide)]
    simp
  · rw [extract_append_high _ _ _ _ (by decide), extract_append_low _ _ _ _ (by decide)]
    simp
  · rw [extract_append_low _ _ _ _ (by decide)]
    simp

/-! ## The modifier of R198 -/

@[simp] theorem modFields_modBits (ty : Tag) (sat : Bool) (rm : Option Rm) (f : Bool) :
    modFields (modBits ty sat rm f) = some (ty, sat, rm, f) := by
  cases ty <;> cases sat <;> cases f <;> cases rm with
  | none => rfl
  | some r => cases r <;> rfl

/-- What decides a head: its fields, its layout, and what its tail builds. -/
theorem decode_of_fields (c : Bool) (lay : Layout) (maj : BitVec 7) (min : BitVec 6) (t : BitVec 64) (i : Instr)
    (hl : layoutOf maj.toNat = some lay) (hm : minorOk maj.toNat min.toNat = true)
    (hc : c = true → clsOf maj.toNat min.toNat ≠ .s) (hs : clsOf maj.toNat min.toNat = .solo → c = true)
    (hb : build maj.toNat c min t = some i) (hw : i.wf = true) :
    decode (Head.bits ⟨c, lay.tcode, maj, min⟩) t = .ok i := by
  unfold decode
  simp only [Head.of_bits, hl, hm, hb, hw]
  cases c <;> simp_all

end Sys2Proof
end

