-- ==== Sys2Proof/Laws/Elements.lean ====
section
/-!
SUPPORT. Elements of vector groups, bits of masks and elements of lanes and tiles read back as they were written, and a
write leaves every other one alone (R37, R38, R47, R49, R104).
-/

namespace Sys2Proof.Machine

/-! ## Slices -/

/-- Bit i of a word with a slice replaced. -/
theorem getLsbD_setSlice {n w : Nat} (x : BitVec n) (off : Nat) (y : BitVec w) (i : Nat) (hi : i < n) :
    (setSlice x off y).getLsbD i = if off ≤ i ∧ i < off + w then y.getLsbD (i - off) else x.getLsbD i := by
  simp only [setSlice, BitVec.getLsbD_or, BitVec.getLsbD_and, BitVec.getLsbD_not, BitVec.getLsbD_shiftLeft,
    BitVec.getLsbD_setWidth, BitVec.getLsbD_allOnes]
  by_cases h1 : off ≤ i
  · have a : ¬ i < off := by omega
    have b : i - off < n := by omega
    by_cases h2 : i < off + w
    · have c : i - off < w := by omega
      simp [hi, a, b, h1, h2, c]
    · have c : ¬ i - off < w := by omega
      have e : y.getLsbD (i - off) = false := BitVec.getLsbD_of_ge _ _ (by omega)
      simp [hi, a, b, h1, h2, c, e]
  · have a : i < off := by omega
    simp [hi, a, h1]

/-- A slice reads back as it was written. -/
theorem extract_setSlice_same {n w : Nat} (x : BitVec n) (off : Nat) (y : BitVec w) (h : off + w ≤ n) :
    (setSlice x off y).extractLsb' off w = y := by
  apply BitVec.eq_of_getLsbD_eq
  intro i hi
  rw [BitVec.getLsbD_extractLsb', getLsbD_setSlice _ _ _ _ (by omega)]
  simp [hi]

/-- A slice apart from one that was written is as before. -/
theorem extract_setSlice_apart {n w v : Nat} (x : BitVec n) (off : Nat) (y : BitVec w) (o : Nat) (h : o + v ≤ n)
    (ha : o + v ≤ off ∨ off + w ≤ o) : (setSlice x off y).extractLsb' o v = x.extractLsb' o v := by
  apply BitVec.eq_of_getLsbD_eq
  intro i hi
  rw [BitVec.getLsbD_extractLsb', BitVec.getLsbD_extractLsb', getLsbD_setSlice _ _ _ _ (by omega), if_neg (by omega)]

/-! ## Elements of a group -/

/-- An element width a register holds evenly (R37): a divisor of 128 bits, at most four quarters. -/
def widthFits (q w : Nat) : Prop :=
  0 < q ∧ q ≤ 4 ∧ 0 < w ∧ w ∣ 128

/-- How many depth slots a width has. -/
theorem perReg_eq {q w : Nat} (h : widthFits q w) : ∃ k, 0 < k ∧ k * w = 128 * q ∧ perReg q w = 256 * k := by
  obtain ⟨h0, _, hw, ⟨c, hc⟩⟩ := h
  have hc0 : 0 < c := by
    rcases Nat.eq_zero_or_pos c with r | r
    · subst r; omega
    · exact r
  refine ⟨c * q, Nat.mul_pos hc0 h0, by rw [hc]; ring, ?_⟩
  unfold perReg
  have : 32768 * q = 256 * (c * q) * w := by
    calc 32768 * q = 256 * 128 * q := by norm_num
      _ = 256 * (w * c) * q := by rw [← hc]
      _ = 256 * (c * q) * w := by ring
  rw [this, Nat.mul_div_cancel _ hw]

/-- An element below a register's number lies within it. -/
theorem elemOff_lt {q w e : Nat} (h : widthFits q w) (he : e < perReg q w) : elemOff w e + w ≤ 131072 := by
  obtain ⟨k, _, hk, hp⟩ := perReg_eq h
  rw [hp] at he
  have h1 : e / 256 + 1 ≤ k := by omega
  have h2 : (e / 256 + 1) * w ≤ k * w := Nat.mul_le_mul_right w h1
  have h3 := h.2.1
  unfold elemOff
  have : e / 256 * w + w ≤ 512 := by
    calc e / 256 * w + w = (e / 256 + 1) * w := by ring
      _ ≤ k * w := h2
      _ = 128 * q := hk
      _ ≤ 512 := by omega
  omega

/-- Two elements of a register do not overlap. -/
theorem elemOff_apart {q w e f : Nat} (h : widthFits q w) (he : e < perReg q w) (hf : f < perReg q w) (ne : e ≠ f) :
    elemOff w f + w ≤ elemOff w e ∨ elemOff w e + w ≤ elemOff w f := by
  obtain ⟨k, _, hk, hp⟩ := perReg_eq h
  rw [hp] at he hf
  have h3 := h.2.1
  have b (x : Nat) (hx : x < 256 * k) : x / 256 * w + w ≤ 512 := by
    have h1 : x / 256 + 1 ≤ k := by omega
    have h2 : (x / 256 + 1) * w ≤ k * w := Nat.mul_le_mul_right w h1
    calc x / 256 * w + w = (x / 256 + 1) * w := by ring
      _ ≤ k * w := h2
      _ = 128 * q := hk
      _ ≤ 512 := by omega
  have be := b e he
  have bf := b f hf
  unfold elemOff
  rcases Nat.lt_trichotomy (e % 256) (f % 256) with g | g | g
  · right; omega
  · have : e / 256 ≠ f / 256 := by omega
    rcases Nat.lt_or_gt_of_ne this with l | l
    · right
      have : (e / 256 + 1) * w ≤ f / 256 * w := Nat.mul_le_mul_right w l
      have e1 : (e / 256 + 1) * w = e / 256 * w + w := by ring
      omega
    · left
      have : (f / 256 + 1) * w ≤ e / 256 * w := Nat.mul_le_mul_right w l
      have e1 : (f / 256 + 1) * w = f / 256 * w + w := by ring
      omega
  · left; omega

/-- A register of a register file with one replaced. -/
theorem regAt_set (v : Vector VecReg 64) (n m : Nat) (x : VecReg) (hn : n < 64) (hm : m < 64) :
    regAt (v.set n x hn) m = if n = m then x else regAt v m := by
  unfold regAt
  have : m % 64 = m := Nat.mod_eq_of_lt hm
  simp only [this, Vector.getElem_set]

/-- The first `n` elements of a group of `size` registers from `base` on lie in registers of the file. -/
structure Holds (q base w size n : Nat) : Prop where
  fits : widthFits q w
  inFile : base + size ≤ 64
  within : n ≤ size * perReg q w

/-- The register of an element. -/
theorem Holds.lt {q base w size n e : Nat} (h : Holds q base w size n) (he : e < n) : e / perReg q w < size := by
  obtain ⟨k, hk, _, hp⟩ := perReg_eq h.fits
  exact Nat.div_lt_of_lt_mul (by rw [Nat.mul_comm]; exact Nat.lt_of_lt_of_le he h.within)

/-- An element reads back as it was written. -/
theorem elemGet_elemSet_same {q base w size n e : Nat} (h : Holds q base w size n) (he : e < n) (v : Vector VecReg 64) (x : Nat) :
    elemGet (elemSet v q base w e x) q base w e = x % 2 ^ w := by
  obtain ⟨k, hk, _, hp⟩ := perReg_eq h.fits
  have hl : base + e / perReg q w < 64 := by have := h.lt he; have := h.inFile; omega
  unfold elemGet elemSet
  have hm : (base + e / perReg q w) % 64 = base + e / perReg q w := Nat.mod_eq_of_lt hl
  simp only [hm]
  rw [regAt_set _ _ _ _ hl hl, if_pos rfl]
  simp only
  have hq : e % perReg q w < perReg q w := Nat.mod_lt _ (by omega)
  rw [extract_setSlice_same _ _ _ (elemOff_lt h.fits hq), BitVec.toNat_ofNat]

/-- An element other than the one written is as before. -/
theorem elemGet_elemSet_other {q base w size n e f : Nat} (h : Holds q base w size n) (he : e < n) (hf : f < n) (ne : f ≠ e)
    (v : Vector VecReg 64) (x : Nat) : elemGet (elemSet v q base w e x) q base w f = elemGet v q base w f := by
  obtain ⟨k, hk, _, hp⟩ := perReg_eq h.fits
  have hl : base + e / perReg q w < 64 := by have := h.lt he; have := h.inFile; omega
  have hlf : base + f / perReg q w < 64 := by have := h.lt hf; have := h.inFile; omega
  have pp : 0 < perReg q w := by omega
  unfold elemGet elemSet
  have hm : (base + e / perReg q w) % 64 = base + e / perReg q w := Nat.mod_eq_of_lt hl
  simp only [hm]
  rw [regAt_set _ _ _ _ hl hlf]
  split
  · rename_i g
    have g' : e / perReg q w = f / perReg q w := by omega
    have ne' : e % perReg q w ≠ f % perReg q w := by
      intro c
      apply ne
      rw [← Nat.div_add_mod e (perReg q w), ← Nat.div_add_mod f (perReg q w), g', c]
    have he' : e % perReg q w < perReg q w := Nat.mod_lt _ pp
    have hf' : f % perReg q w < perReg q w := Nat.mod_lt _ pp
    simp only
    rw [extract_setSlice_apart _ _ _ _ (elemOff_lt h.fits hf') (elemOff_apart h.fits he' hf' ne'), g]
  · rfl

/-- A register outside the group written is as before. -/
theorem regAt_elemSet_other {q base w size n e r : Nat} (h : Holds q base w size n) (he : e < n) (hr : r < 64)
    (ho : r < base ∨ base + size ≤ r) (v : Vector VecReg 64) (x : Nat) :
    regAt (elemSet v q base w e x) r = regAt v r := by
  have hl : base + e / perReg q w < 64 := by have := h.lt he; have := h.inFile; omega
  have h1 := h.lt he
  unfold elemSet
  have hm : (base + e / perReg q w) % 64 = base + e / perReg q w := Nat.mod_eq_of_lt hl
  simp only [hm]
  have h0 := Nat.zero_le (e / perReg q w)
  rw [regAt_set _ _ _ _ hl hr, if_neg (by omega)]

/-- A write of an element keeps every tag. -/
theorem tag_elemSet (v : Vector VecReg 64) (q base w e x r : Nat) :
    (regAt (elemSet v q base w e x) r).tag = (regAt v r).tag := by
  have hn : (base + e / perReg q w) % 64 < 64 := Nat.mod_lt _ (by decide)
  unfold elemSet regAt
  simp only [Vector.getElem_set]
  split
  · rename_i g; simp only [Nat.mod_mod, g]
  · rfl

/-- Tags set do not change bits. -/
theorem bits_setTags (v : Vector VecReg 64) (base size : Nat) (t : Tag) (r : Nat) :
    (regAt (setTags v base size t) r).bits = (regAt v r).bits := by
  unfold setTags
  induction List.range size using List.reverseRecOn with
  | nil => rfl
  | append_singleton l i ih =>
    rw [List.foldl_append]
    simp only [List.foldl_cons, List.foldl_nil]
    rw [← ih]
    generalize List.foldl _ v l = u
    unfold regAt
    simp only [Vector.getElem_set]
    split
    · rename_i g; simp only [← g, regAt, Nat.mod_mod]
    · rfl

/-- An element after tags are set. -/
theorem elemGet_setTags (v : Vector VecReg 64) (base size : Nat) (t : Tag) (q b w e : Nat) :
    elemGet (setTags v base size t) q b w e = elemGet v q b w e := by
  unfold elemGet; simp only [bits_setTags]

/-- The registers a group's tag is set in, and the others. -/
theorem regAt_setTags (v : Vector VecReg 64) (base size : Nat) (t : Tag) (r : Nat) (hr : r < 64) (hb : base + size ≤ 64) :
    regAt (setTags v base size t) r = if base ≤ r ∧ r < base + size then { regAt v r with tag := t } else regAt v r := by
  induction size with
  | zero => simp [setTags]
  | succ n ih =>
    have e : setTags v base (n + 1) t = (setTags v base n t).set (base + n)
        { regAt (setTags v base n t) (base + n) with tag := t } (by omega) := by
      have hm : (base + n) % 64 = base + n := Nat.mod_eq_of_lt (by omega)
      unfold setTags
      rw [List.range_succ, List.foldl_append]
      simp only [List.foldl_cons, List.foldl_nil, hm]
    rw [e, regAt_set _ _ _ _ (by omega) hr]
    have ih' := ih (by omega)
    split
    · rename_i g
      subst g
      rw [if_pos (by omega)]
      have := bits_setTags v base n t (base + n)
      simp only [this]
    · rw [ih']
      by_cases c : base ≤ r ∧ r < base + n
      · rw [if_pos c, if_pos (by omega)]
      · rw [if_neg c, if_neg (by omega)]

/-! ## Masks -/

/-- Bits of a mask register after one is written: k0 reads all true and takes no write (R47). -/
theorem maskBit_maskSet (k : Vector KBits 8) (r q : KReg) (e f : Nat) (b : Bool) (he : e < 262144) (hf : f < 262144) :
    maskBit (maskSet k r e b) q f = if q = r ∧ r ≠ 0 ∧ f = e then b else maskBit k q f := by
  unfold maskBit maskSet
  by_cases hr : r = 0
  · subst hr; simp
  · simp only [hr, if_false]
    by_cases hq : q = 0
    · subst hq; simp; exact .inl (.inl fun h => hr h.symm)
    · simp only [hq, if_false]
      by_cases g : q = r
      · subst g
        have : ∀ i (hi : i < 8), (k.set q.toNat (setSlice (k[q.toNat]'q.isLt) e (bit1 b)) q.isLt)[i]'hi
            = if q.toNat = i then setSlice (k[q.toNat]'q.isLt) e (bit1 b) else k[i] := by
          intro i hi; simp [Vector.getElem_set]
        rw [this, if_pos rfl, getLsbD_setSlice _ _ _ _ hf]
        by_cases fe : f = e
        · subst fe; simp only [hq, if_false]; cases b <;> simp [hr, bit1] <;> first | exact fun h => absurd h hq | exact .inl hq
        · rw [if_neg (by omega)]; simp [fe]
      · have ne : r.toNat ≠ q.toNat := fun c => g (BitVec.eq_of_toNat_eq c.symm)
        simp [Vector.getElem_set, ne, g]

/-! ## Lanes and tiles -/

/-- Elements of a lane's store after one is written. -/
theorem laneGet_laneSet (l : Vector (BitVec 8192) 256) (i j o p w x : Nat) (hi : i < 256) (hj : j < 256)
    (ho : o + w ≤ 8192) (hp : p + w ≤ 8192) (ha : p = o ∨ p + w ≤ o ∨ o + w ≤ p) :
    laneGet (laneSet l i o w x) j p w = if j = i ∧ p = o then x % 2 ^ w else laneGet l j p w := by
  have mi : i % 256 = i := Nat.mod_eq_of_lt hi
  have mj : j % 256 = j := Nat.mod_eq_of_lt hj
  unfold laneGet laneSet
  simp only [mi, mj, Vector.getElem_set]
  by_cases g : i = j
  · subst g
    simp only [if_true, true_and]
    by_cases c : p = o
    · subst c; rw [if_pos rfl, extract_setSlice_same _ _ _ hp, BitVec.toNat_ofNat]
    · rw [if_neg c, extract_setSlice_apart _ _ _ _ hp (by omega)]
  · rw [if_neg g, if_neg (fun c => g c.1.symm)]

/-- Elements of a tile after one is written. -/
theorem tileGet_tileSet (m : Tile) (i j k l x : Nat) (hj : j < 128) (hl : l < 128) (hi : i < 128) (hk : k < 128) :
    tileGet (tileSet m i j x) k l = if k = i ∧ l = j then x % 2 ^ 32 else tileGet m k l := by
  unfold tileGet tileSet
  by_cases g : k = i ∧ l = j
  · obtain ⟨rfl, rfl⟩ := g
    simp only [and_self, if_true]
    rw [extract_setSlice_same _ _ _ (by omega), BitVec.toNat_ofNat]
  · rw [if_neg g, extract_setSlice_apart _ _ _ _ (by omega) (by omega)]

end Sys2Proof.Machine
end

