-- ==== Sys2Proof/Laws/State.lean ====
section
/-!
SUPPORT. Each named update of the package and of a strand leaves every other field as it was: one lemma per field per update.
-/

set_option Elab.async false

namespace Sys2Proof.Machine

/-! ### `State.put` -/

@[simp] theorem State.put_mem (s : State) (t : Strand) : (s.put t).mem = s.mem := rfl
@[simp] theorem State.put_lines (s : State) (t : Strand) : (s.put t).lines = s.lines := rfl
@[simp] theorem State.put_redirects (s : State) (t : Strand) : (s.put t).redirects = s.redirects := rfl
@[simp] theorem State.put_soft (s : State) (t : Strand) : (s.put t).soft = s.soft := rfl
@[simp] theorem State.put_roots (s : State) (t : Strand) : (s.put t).roots = s.roots := rfl
@[simp] theorem State.put_tlb (s : State) (t : Strand) : (s.put t).tlb = s.tlb := rfl
@[simp] theorem State.put_owners (s : State) (t : Strand) : (s.put t).owners = s.owners := rfl
@[simp] theorem State.put_svcs (s : State) (t : Strand) : (s.put t).svcs = s.svcs := rfl
@[simp] theorem State.put_requests (s : State) (t : Strand) : (s.put t).requests = s.requests := rfl
@[simp] theorem State.put_replies (s : State) (t : Strand) : (s.put t).replies = s.replies := rfl
@[simp] theorem State.put_keystones (s : State) (t : Strand) : (s.put t).keystones = s.keystones := rfl
@[simp] theorem State.put_copies (s : State) (t : Strand) : (s.put t).copies = s.copies := rfl
@[simp] theorem State.put_nextRid (s : State) (t : Strand) : (s.put t).nextRid = s.nextRid := rfl
@[simp] theorem State.put_nextCid (s : State) (t : Strand) : (s.put t).nextCid = s.nextCid := rfl
@[simp] theorem State.put_gangs (s : State) (t : Strand) : (s.put t).gangs = s.gangs := rfl
@[simp] theorem State.put_barriers (s : State) (t : Strand) : (s.put t).barriers = s.barriers := rfl
@[simp] theorem State.put_arrivals (s : State) (t : Strand) : (s.put t).arrivals = s.arrivals := rfl
@[simp] theorem State.put_cards (s : State) (t : Strand) : (s.put t).cards = s.cards := rfl
@[simp] theorem State.put_queues (s : State) (t : Strand) : (s.put t).queues = s.queues := rfl
@[simp] theorem State.put_offers (s : State) (t : Strand) : (s.put t).offers = s.offers := rfl
@[simp] theorem State.put_slots (s : State) (t : Strand) : (s.put t).slots = s.slots := rfl
@[simp] theorem State.put_vault (s : State) (t : Strand) : (s.put t).vault = s.vault := rfl
@[simp] theorem State.put_vaultMem (s : State) (t : Strand) : (s.put t).vaultMem = s.vaultMem := rfl
@[simp] theorem State.put_spillNext (s : State) (t : Strand) : (s.put t).spillNext = s.spillNext := rfl
@[simp] theorem State.put_saves (s : State) (t : Strand) : (s.put t).saves = s.saves := rfl
@[simp] theorem State.put_vacates (s : State) (t : Strand) : (s.put t).vacates = s.vacates := rfl
@[simp] theorem State.put_watchdog (s : State) (t : Strand) : (s.put t).watchdog = s.watchdog := rfl
@[simp] theorem State.put_reports (s : State) (t : Strand) : (s.put t).reports = s.reports := rfl
@[simp] theorem State.put_nextCard (s : State) (t : Strand) : (s.put t).nextCard = s.nextCard := rfl
@[simp] theorem State.put_nextBid (s : State) (t : Strand) : (s.put t).nextBid = s.nextBid := rfl
@[simp] theorem State.put_placement (s : State) (t : Strand) : (s.put t).placement = s.placement := rfl
@[simp] theorem State.put_pages (s : State) (t : Strand) : (s.put t).pages = s.pages := rfl
@[simp] theorem State.put_notices (s : State) (t : Strand) : (s.put t).notices = s.notices := rfl
@[simp] theorem State.put_vfs (s : State) (t : Strand) : (s.put t).vfs = s.vfs := rfl
@[simp] theorem State.put_completion (s : State) (t : Strand) : (s.put t).completion = s.completion := rfl
@[simp] theorem State.put_hostReply (s : State) (t : Strand) : (s.put t).hostReply = s.hostReply := rfl
@[simp] theorem State.put_hdm (s : State) (t : Strand) : (s.put t).hdm = s.hdm := rfl
@[simp] theorem State.put_ports (s : State) (t : Strand) : (s.put t).ports = s.ports := rfl
@[simp] theorem State.put_qps (s : State) (t : Strand) : (s.put t).qps = s.qps := rfl
@[simp] theorem State.put_routes (s : State) (t : Strand) : (s.put t).routes = s.routes := rfl
@[simp] theorem State.put_linkUp (s : State) (t : Strand) : (s.put t).linkUp = s.linkUp := rfl
@[simp] theorem State.put_pkg (s : State) (t : Strand) : (s.put t).pkg = s.pkg := rfl
@[simp] theorem State.put_tick (s : State) (t : Strand) : (s.put t).tick = s.tick := rfl
@[simp] theorem State.put_time3 (s : State) (t : Strand) : (s.put t).time3 = s.time3 := rfl
@[simp] theorem State.put_timeValid (s : State) (t : Strand) : (s.put t).timeValid = s.timeValid := rfl
@[simp] theorem State.put_dies (s : State) (t : Strand) : (s.put t).dies = s.dies := rfl
@[simp] theorem State.put_foreign (s : State) (t : Strand) : (s.put t).foreign = s.foreign := rfl
@[simp] theorem State.put_leaders (s : State) (t : Strand) : (s.put t).leaders = s.leaders := rfl
@[simp] theorem State.put_announced (s : State) (t : Strand) : (s.put t).announced = s.announced := rfl
@[simp] theorem State.put_hbm (s : State) (t : Strand) : (s.put t).hbm = s.hbm := rfl
@[simp] theorem State.put_inlet (s : State) (t : Strand) : (s.put t).inlet = s.inlet := rfl
@[simp] theorem State.put_halted (s : State) (t : Strand) : (s.put t).halted = s.halted := rfl
@[simp] theorem State.put_boot (s : State) (t : Strand) : (s.put t).boot = s.boot := rfl
@[simp] theorem State.put_events (s : State) (t : Strand) : (s.put t).events = s.events := rfl
@[simp] theorem State.put_cur (s : State) (t : Strand) : (s.put t).cur = s.cur := rfl
@[simp] theorem State.put_phase (s : State) (t : Strand) : (s.put t).phase = s.phase := rfl
@[simp] theorem State.put_core (s : State) (t : Strand) : (s.put t).core = s.core := rfl
@[simp] theorem State.put_heads (s : State) (t : Strand) : (s.put t).heads = s.heads := rfl
@[simp] theorem State.put_agenda (s : State) (t : Strand) : (s.put t).agenda = s.agenda := rfl
@[simp] theorem State.put_blocked (s : State) (t : Strand) : (s.put t).blocked = s.blocked := rfl
@[simp] theorem State.put_outHeld (s : State) (t : Strand) : (s.put t).outHeld = s.outHeld := rfl
@[simp] theorem State.put_freeCtr (s : State) (t : Strand) : (s.put t).freeCtr = s.freeCtr := rfl

/-! ### `State.setLine` -/

@[simp] theorem State.setLine_strands (s : State) (l : Nat) (x : LineState) : (s.setLine l x).strands = s.strands := rfl
@[simp] theorem State.setLine_mem (s : State) (l : Nat) (x : LineState) : (s.setLine l x).mem = s.mem := rfl
@[simp] theorem State.setLine_redirects (s : State) (l : Nat) (x : LineState) : (s.setLine l x).redirects = s.redirects := rfl
@[simp] theorem State.setLine_soft (s : State) (l : Nat) (x : LineState) : (s.setLine l x).soft = s.soft := rfl
@[simp] theorem State.setLine_roots (s : State) (l : Nat) (x : LineState) : (s.setLine l x).roots = s.roots := rfl
@[simp] theorem State.setLine_tlb (s : State) (l : Nat) (x : LineState) : (s.setLine l x).tlb = s.tlb := rfl
@[simp] theorem State.setLine_owners (s : State) (l : Nat) (x : LineState) : (s.setLine l x).owners = s.owners := rfl
@[simp] theorem State.setLine_svcs (s : State) (l : Nat) (x : LineState) : (s.setLine l x).svcs = s.svcs := rfl
@[simp] theorem State.setLine_requests (s : State) (l : Nat) (x : LineState) : (s.setLine l x).requests = s.requests := rfl
@[simp] theorem State.setLine_replies (s : State) (l : Nat) (x : LineState) : (s.setLine l x).replies = s.replies := rfl
@[simp] theorem State.setLine_keystones (s : State) (l : Nat) (x : LineState) : (s.setLine l x).keystones = s.keystones := rfl
@[simp] theorem State.setLine_copies (s : State) (l : Nat) (x : LineState) : (s.setLine l x).copies = s.copies := rfl
@[simp] theorem State.setLine_nextRid (s : State) (l : Nat) (x : LineState) : (s.setLine l x).nextRid = s.nextRid := rfl
@[simp] theorem State.setLine_nextCid (s : State) (l : Nat) (x : LineState) : (s.setLine l x).nextCid = s.nextCid := rfl
@[simp] theorem State.setLine_gangs (s : State) (l : Nat) (x : LineState) : (s.setLine l x).gangs = s.gangs := rfl
@[simp] theorem State.setLine_barriers (s : State) (l : Nat) (x : LineState) : (s.setLine l x).barriers = s.barriers := rfl
@[simp] theorem State.setLine_arrivals (s : State) (l : Nat) (x : LineState) : (s.setLine l x).arrivals = s.arrivals := rfl
@[simp] theorem State.setLine_cards (s : State) (l : Nat) (x : LineState) : (s.setLine l x).cards = s.cards := rfl
@[simp] theorem State.setLine_queues (s : State) (l : Nat) (x : LineState) : (s.setLine l x).queues = s.queues := rfl
@[simp] theorem State.setLine_offers (s : State) (l : Nat) (x : LineState) : (s.setLine l x).offers = s.offers := rfl
@[simp] theorem State.setLine_slots (s : State) (l : Nat) (x : LineState) : (s.setLine l x).slots = s.slots := rfl
@[simp] theorem State.setLine_vault (s : State) (l : Nat) (x : LineState) : (s.setLine l x).vault = s.vault := rfl
@[simp] theorem State.setLine_vaultMem (s : State) (l : Nat) (x : LineState) : (s.setLine l x).vaultMem = s.vaultMem := rfl
@[simp] theorem State.setLine_spillNext (s : State) (l : Nat) (x : LineState) : (s.setLine l x).spillNext = s.spillNext := rfl
@[simp] theorem State.setLine_saves (s : State) (l : Nat) (x : LineState) : (s.setLine l x).saves = s.saves := rfl
@[simp] theorem State.setLine_vacates (s : State) (l : Nat) (x : LineState) : (s.setLine l x).vacates = s.vacates := rfl
@[simp] theorem State.setLine_watchdog (s : State) (l : Nat) (x : LineState) : (s.setLine l x).watchdog = s.watchdog := rfl
@[simp] theorem State.setLine_reports (s : State) (l : Nat) (x : LineState) : (s.setLine l x).reports = s.reports := rfl
@[simp] theorem State.setLine_nextCard (s : State) (l : Nat) (x : LineState) : (s.setLine l x).nextCard = s.nextCard := rfl
@[simp] theorem State.setLine_nextBid (s : State) (l : Nat) (x : LineState) : (s.setLine l x).nextBid = s.nextBid := rfl
@[simp] theorem State.setLine_placement (s : State) (l : Nat) (x : LineState) : (s.setLine l x).placement = s.placement := rfl
@[simp] theorem State.setLine_pages (s : State) (l : Nat) (x : LineState) : (s.setLine l x).pages = s.pages := rfl
@[simp] theorem State.setLine_notices (s : State) (l : Nat) (x : LineState) : (s.setLine l x).notices = s.notices := rfl
@[simp] theorem State.setLine_vfs (s : State) (l : Nat) (x : LineState) : (s.setLine l x).vfs = s.vfs := rfl
@[simp] theorem State.setLine_completion (s : State) (l : Nat) (x : LineState) : (s.setLine l x).completion = s.completion := rfl
@[simp] theorem State.setLine_hostReply (s : State) (l : Nat) (x : LineState) : (s.setLine l x).hostReply = s.hostReply := rfl
@[simp] theorem State.setLine_hdm (s : State) (l : Nat) (x : LineState) : (s.setLine l x).hdm = s.hdm := rfl
@[simp] theorem State.setLine_ports (s : State) (l : Nat) (x : LineState) : (s.setLine l x).ports = s.ports := rfl
@[simp] theorem State.setLine_qps (s : State) (l : Nat) (x : LineState) : (s.setLine l x).qps = s.qps := rfl
@[simp] theorem State.setLine_routes (s : State) (l : Nat) (x : LineState) : (s.setLine l x).routes = s.routes := rfl
@[simp] theorem State.setLine_linkUp (s : State) (l : Nat) (x : LineState) : (s.setLine l x).linkUp = s.linkUp := rfl
@[simp] theorem State.setLine_pkg (s : State) (l : Nat) (x : LineState) : (s.setLine l x).pkg = s.pkg := rfl
@[simp] theorem State.setLine_tick (s : State) (l : Nat) (x : LineState) : (s.setLine l x).tick = s.tick := rfl
@[simp] theorem State.setLine_time3 (s : State) (l : Nat) (x : LineState) : (s.setLine l x).time3 = s.time3 := rfl
@[simp] theorem State.setLine_timeValid (s : State) (l : Nat) (x : LineState) : (s.setLine l x).timeValid = s.timeValid := rfl
@[simp] theorem State.setLine_dies (s : State) (l : Nat) (x : LineState) : (s.setLine l x).dies = s.dies := rfl
@[simp] theorem State.setLine_foreign (s : State) (l : Nat) (x : LineState) : (s.setLine l x).foreign = s.foreign := rfl
@[simp] theorem State.setLine_leaders (s : State) (l : Nat) (x : LineState) : (s.setLine l x).leaders = s.leaders := rfl
@[simp] theorem State.setLine_announced (s : State) (l : Nat) (x : LineState) : (s.setLine l x).announced = s.announced := rfl
@[simp] theorem State.setLine_hbm (s : State) (l : Nat) (x : LineState) : (s.setLine l x).hbm = s.hbm := rfl
@[simp] theorem State.setLine_inlet (s : State) (l : Nat) (x : LineState) : (s.setLine l x).inlet = s.inlet := rfl
@[simp] theorem State.setLine_halted (s : State) (l : Nat) (x : LineState) : (s.setLine l x).halted = s.halted := rfl
@[simp] theorem State.setLine_boot (s : State) (l : Nat) (x : LineState) : (s.setLine l x).boot = s.boot := rfl
@[simp] theorem State.setLine_events (s : State) (l : Nat) (x : LineState) : (s.setLine l x).events = s.events := rfl
@[simp] theorem State.setLine_cur (s : State) (l : Nat) (x : LineState) : (s.setLine l x).cur = s.cur := rfl
@[simp] theorem State.setLine_phase (s : State) (l : Nat) (x : LineState) : (s.setLine l x).phase = s.phase := rfl
@[simp] theorem State.setLine_core (s : State) (l : Nat) (x : LineState) : (s.setLine l x).core = s.core := rfl
@[simp] theorem State.setLine_heads (s : State) (l : Nat) (x : LineState) : (s.setLine l x).heads = s.heads := rfl
@[simp] theorem State.setLine_agenda (s : State) (l : Nat) (x : LineState) : (s.setLine l x).agenda = s.agenda := rfl
@[simp] theorem State.setLine_blocked (s : State) (l : Nat) (x : LineState) : (s.setLine l x).blocked = s.blocked := rfl
@[simp] theorem State.setLine_outHeld (s : State) (l : Nat) (x : LineState) : (s.setLine l x).outHeld = s.outHeld := rfl
@[simp] theorem State.setLine_freeCtr (s : State) (l : Nat) (x : LineState) : (s.setLine l x).freeCtr = s.freeCtr := rfl

/-! ### `State.setLineData` -/

@[simp] theorem State.setLineData_strands (s : State) (l : Nat) (d : BitVec 1024) : (s.setLineData l d).strands = s.strands := by
  simp only [State.setLineData]
@[simp] theorem State.setLineData_lines (s : State) (l : Nat) (d : BitVec 1024) : (s.setLineData l d).lines = s.lines := by
  simp only [State.setLineData]
@[simp] theorem State.setLineData_redirects (s : State) (l : Nat) (d : BitVec 1024) : (s.setLineData l d).redirects = s.redirects := by
  simp only [State.setLineData]
@[simp] theorem State.setLineData_soft (s : State) (l : Nat) (d : BitVec 1024) : (s.setLineData l d).soft = s.soft := by
  simp only [State.setLineData]
@[simp] theorem State.setLineData_roots (s : State) (l : Nat) (d : BitVec 1024) : (s.setLineData l d).roots = s.roots := by
  simp only [State.setLineData]
@[simp] theorem State.setLineData_tlb (s : State) (l : Nat) (d : BitVec 1024) : (s.setLineData l d).tlb = s.tlb := by
  simp only [State.setLineData]
@[simp] theorem State.setLineData_owners (s : State) (l : Nat) (d : BitVec 1024) : (s.setLineData l d).owners = s.owners := by
  simp only [State.setLineData]
@[simp] theorem State.setLineData_svcs (s : State) (l : Nat) (d : BitVec 1024) : (s.setLineData l d).svcs = s.svcs := by
  simp only [State.setLineData]
@[simp] theorem State.setLineData_requests (s : State) (l : Nat) (d : BitVec 1024) : (s.setLineData l d).requests = s.requests := by
  simp only [State.setLineData]
@[simp] theorem State.setLineData_replies (s : State) (l : Nat) (d : BitVec 1024) : (s.setLineData l d).replies = s.replies := by
  simp only [State.setLineData]
@[simp] theorem State.setLineData_keystones (s : State) (l : Nat) (d : BitVec 1024) : (s.setLineData l d).keystones = s.keystones := by
  simp only [State.setLineData]
@[simp] theorem State.setLineData_copies (s : State) (l : Nat) (d : BitVec 1024) : (s.setLineData l d).copies = s.copies := by
  simp only [State.setLineData]
@[simp] theorem State.setLineData_nextRid (s : State) (l : Nat) (d : BitVec 1024) : (s.setLineData l d).nextRid = s.nextRid := by
  simp only [State.setLineData]
@[simp] theorem State.setLineData_nextCid (s : State) (l : Nat) (d : BitVec 1024) : (s.setLineData l d).nextCid = s.nextCid := by
  simp only [State.setLineData]
@[simp] theorem State.setLineData_gangs (s : State) (l : Nat) (d : BitVec 1024) : (s.setLineData l d).gangs = s.gangs := by
  simp only [State.setLineData]
@[simp] theorem State.setLineData_barriers (s : State) (l : Nat) (d : BitVec 1024) : (s.setLineData l d).barriers = s.barriers := by
  simp only [State.setLineData]
@[simp] theorem State.setLineData_arrivals (s : State) (l : Nat) (d : BitVec 1024) : (s.setLineData l d).arrivals = s.arrivals := by
  simp only [State.setLineData]
@[simp] theorem State.setLineData_cards (s : State) (l : Nat) (d : BitVec 1024) : (s.setLineData l d).cards = s.cards := by
  simp only [State.setLineData]
@[simp] theorem State.setLineData_queues (s : State) (l : Nat) (d : BitVec 1024) : (s.setLineData l d).queues = s.queues := by
  simp only [State.setLineData]
@[simp] theorem State.setLineData_offers (s : State) (l : Nat) (d : BitVec 1024) : (s.setLineData l d).offers = s.offers := by
  simp only [State.setLineData]
@[simp] theorem State.setLineData_slots (s : State) (l : Nat) (d : BitVec 1024) : (s.setLineData l d).slots = s.slots := by
  simp only [State.setLineData]
@[simp] theorem State.setLineData_vault (s : State) (l : Nat) (d : BitVec 1024) : (s.setLineData l d).vault = s.vault := by
  simp only [State.setLineData]
@[simp] theorem State.setLineData_vaultMem (s : State) (l : Nat) (d : BitVec 1024) : (s.setLineData l d).vaultMem = s.vaultMem := by
  simp only [State.setLineData]
@[simp] theorem State.setLineData_spillNext (s : State) (l : Nat) (d : BitVec 1024) : (s.setLineData l d).spillNext = s.spillNext := by
  simp only [State.setLineData]
@[simp] theorem State.setLineData_saves (s : State) (l : Nat) (d : BitVec 1024) : (s.setLineData l d).saves = s.saves := by
  simp only [State.setLineData]
@[simp] theorem State.setLineData_vacates (s : State) (l : Nat) (d : BitVec 1024) : (s.setLineData l d).vacates = s.vacates := by
  simp only [State.setLineData]
@[simp] theorem State.setLineData_watchdog (s : State) (l : Nat) (d : BitVec 1024) : (s.setLineData l d).watchdog = s.watchdog := by
  simp only [State.setLineData]
@[simp] theorem State.setLineData_reports (s : State) (l : Nat) (d : BitVec 1024) : (s.setLineData l d).reports = s.reports := by
  simp only [State.setLineData]
@[simp] theorem State.setLineData_nextCard (s : State) (l : Nat) (d : BitVec 1024) : (s.setLineData l d).nextCard = s.nextCard := by
  simp only [State.setLineData]
@[simp] theorem State.setLineData_nextBid (s : State) (l : Nat) (d : BitVec 1024) : (s.setLineData l d).nextBid = s.nextBid := by
  simp only [State.setLineData]
@[simp] theorem State.setLineData_placement (s : State) (l : Nat) (d : BitVec 1024) : (s.setLineData l d).placement = s.placement := by
  simp only [State.setLineData]
@[simp] theorem State.setLineData_pages (s : State) (l : Nat) (d : BitVec 1024) : (s.setLineData l d).pages = s.pages := by
  simp only [State.setLineData]
@[simp] theorem State.setLineData_notices (s : State) (l : Nat) (d : BitVec 1024) : (s.setLineData l d).notices = s.notices := by
  simp only [State.setLineData]
@[simp] theorem State.setLineData_vfs (s : State) (l : Nat) (d : BitVec 1024) : (s.setLineData l d).vfs = s.vfs := by
  simp only [State.setLineData]
@[simp] theorem State.setLineData_completion (s : State) (l : Nat) (d : BitVec 1024) : (s.setLineData l d).completion = s.completion := by
  simp only [State.setLineData]
@[simp] theorem State.setLineData_hostReply (s : State) (l : Nat) (d : BitVec 1024) : (s.setLineData l d).hostReply = s.hostReply := by
  simp only [State.setLineData]
@[simp] theorem State.setLineData_hdm (s : State) (l : Nat) (d : BitVec 1024) : (s.setLineData l d).hdm = s.hdm := by
  simp only [State.setLineData]
@[simp] theorem State.setLineData_ports (s : State) (l : Nat) (d : BitVec 1024) : (s.setLineData l d).ports = s.ports := by
  simp only [State.setLineData]
@[simp] theorem State.setLineData_qps (s : State) (l : Nat) (d : BitVec 1024) : (s.setLineData l d).qps = s.qps := by
  simp only [State.setLineData]
@[simp] theorem State.setLineData_routes (s : State) (l : Nat) (d : BitVec 1024) : (s.setLineData l d).routes = s.routes := by
  simp only [State.setLineData]
@[simp] theorem State.setLineData_linkUp (s : State) (l : Nat) (d : BitVec 1024) : (s.setLineData l d).linkUp = s.linkUp := by
  simp only [State.setLineData]
@[simp] theorem State.setLineData_pkg (s : State) (l : Nat) (d : BitVec 1024) : (s.setLineData l d).pkg = s.pkg := by
  simp only [State.setLineData]
@[simp] theorem State.setLineData_tick (s : State) (l : Nat) (d : BitVec 1024) : (s.setLineData l d).tick = s.tick := by
  simp only [State.setLineData]
@[simp] theorem State.setLineData_time3 (s : State) (l : Nat) (d : BitVec 1024) : (s.setLineData l d).time3 = s.time3 := by
  simp only [State.setLineData]
@[simp] theorem State.setLineData_timeValid (s : State) (l : Nat) (d : BitVec 1024) : (s.setLineData l d).timeValid = s.timeValid := by
  simp only [State.setLineData]
@[simp] theorem State.setLineData_dies (s : State) (l : Nat) (d : BitVec 1024) : (s.setLineData l d).dies = s.dies := by
  simp only [State.setLineData]
@[simp] theorem State.setLineData_foreign (s : State) (l : Nat) (d : BitVec 1024) : (s.setLineData l d).foreign = s.foreign := by
  simp only [State.setLineData]
@[simp] theorem State.setLineData_leaders (s : State) (l : Nat) (d : BitVec 1024) : (s.setLineData l d).leaders = s.leaders := by
  simp only [State.setLineData]
@[simp] theorem State.setLineData_announced (s : State) (l : Nat) (d : BitVec 1024) : (s.setLineData l d).announced = s.announced := by
  simp only [State.setLineData]
@[simp] theorem State.setLineData_hbm (s : State) (l : Nat) (d : BitVec 1024) : (s.setLineData l d).hbm = s.hbm := by
  simp only [State.setLineData]
@[simp] theorem State.setLineData_inlet (s : State) (l : Nat) (d : BitVec 1024) : (s.setLineData l d).inlet = s.inlet := by
  simp only [State.setLineData]
@[simp] theorem State.setLineData_halted (s : State) (l : Nat) (d : BitVec 1024) : (s.setLineData l d).halted = s.halted := by
  simp only [State.setLineData]
@[simp] theorem State.setLineData_boot (s : State) (l : Nat) (d : BitVec 1024) : (s.setLineData l d).boot = s.boot := by
  simp only [State.setLineData]
@[simp] theorem State.setLineData_events (s : State) (l : Nat) (d : BitVec 1024) : (s.setLineData l d).events = s.events := by
  simp only [State.setLineData]
@[simp] theorem State.setLineData_cur (s : State) (l : Nat) (d : BitVec 1024) : (s.setLineData l d).cur = s.cur := by
  simp only [State.setLineData]
@[simp] theorem State.setLineData_phase (s : State) (l : Nat) (d : BitVec 1024) : (s.setLineData l d).phase = s.phase := by
  simp only [State.setLineData]
@[simp] theorem State.setLineData_core (s : State) (l : Nat) (d : BitVec 1024) : (s.setLineData l d).core = s.core := by
  simp only [State.setLineData]
@[simp] theorem State.setLineData_heads (s : State) (l : Nat) (d : BitVec 1024) : (s.setLineData l d).heads = s.heads := by
  simp only [State.setLineData]
@[simp] theorem State.setLineData_agenda (s : State) (l : Nat) (d : BitVec 1024) : (s.setLineData l d).agenda = s.agenda := by
  simp only [State.setLineData]
@[simp] theorem State.setLineData_blocked (s : State) (l : Nat) (d : BitVec 1024) : (s.setLineData l d).blocked = s.blocked := by
  simp only [State.setLineData]
@[simp] theorem State.setLineData_outHeld (s : State) (l : Nat) (d : BitVec 1024) : (s.setLineData l d).outHeld = s.outHeld := by
  simp only [State.setLineData]
@[simp] theorem State.setLineData_freeCtr (s : State) (l : Nat) (d : BitVec 1024) : (s.setLineData l d).freeCtr = s.freeCtr := by
  simp only [State.setLineData]

/-! ### `State.writeHome` -/

@[simp] theorem State.writeHome_strands (s : State) (h : Nat) (bs : List Byte) : (s.writeHome h bs).strands = s.strands := by
  unfold State.writeHome; split <;> rfl
@[simp] theorem State.writeHome_redirects (s : State) (h : Nat) (bs : List Byte) : (s.writeHome h bs).redirects = s.redirects := by
  unfold State.writeHome; split <;> rfl
@[simp] theorem State.writeHome_soft (s : State) (h : Nat) (bs : List Byte) : (s.writeHome h bs).soft = s.soft := by
  unfold State.writeHome; split <;> rfl
@[simp] theorem State.writeHome_roots (s : State) (h : Nat) (bs : List Byte) : (s.writeHome h bs).roots = s.roots := by
  unfold State.writeHome; split <;> rfl
@[simp] theorem State.writeHome_tlb (s : State) (h : Nat) (bs : List Byte) : (s.writeHome h bs).tlb = s.tlb := by
  unfold State.writeHome; split <;> rfl
@[simp] theorem State.writeHome_owners (s : State) (h : Nat) (bs : List Byte) : (s.writeHome h bs).owners = s.owners := by
  unfold State.writeHome; split <;> rfl
@[simp] theorem State.writeHome_svcs (s : State) (h : Nat) (bs : List Byte) : (s.writeHome h bs).svcs = s.svcs := by
  unfold State.writeHome; split <;> rfl
@[simp] theorem State.writeHome_requests (s : State) (h : Nat) (bs : List Byte) : (s.writeHome h bs).requests = s.requests := by
  unfold State.writeHome; split <;> rfl
@[simp] theorem State.writeHome_replies (s : State) (h : Nat) (bs : List Byte) : (s.writeHome h bs).replies = s.replies := by
  unfold State.writeHome; split <;> rfl
@[simp] theorem State.writeHome_keystones (s : State) (h : Nat) (bs : List Byte) : (s.writeHome h bs).keystones = s.keystones := by
  unfold State.writeHome; split <;> rfl
@[simp] theorem State.writeHome_copies (s : State) (h : Nat) (bs : List Byte) : (s.writeHome h bs).copies = s.copies := by
  unfold State.writeHome; split <;> rfl
@[simp] theorem State.writeHome_nextRid (s : State) (h : Nat) (bs : List Byte) : (s.writeHome h bs).nextRid = s.nextRid := by
  unfold State.writeHome; split <;> rfl
@[simp] theorem State.writeHome_nextCid (s : State) (h : Nat) (bs : List Byte) : (s.writeHome h bs).nextCid = s.nextCid := by
  unfold State.writeHome; split <;> rfl
@[simp] theorem State.writeHome_gangs (s : State) (h : Nat) (bs : List Byte) : (s.writeHome h bs).gangs = s.gangs := by
  unfold State.writeHome; split <;> rfl
@[simp] theorem State.writeHome_barriers (s : State) (h : Nat) (bs : List Byte) : (s.writeHome h bs).barriers = s.barriers := by
  unfold State.writeHome; split <;> rfl
@[simp] theorem State.writeHome_arrivals (s : State) (h : Nat) (bs : List Byte) : (s.writeHome h bs).arrivals = s.arrivals := by
  unfold State.writeHome; split <;> rfl
@[simp] theorem State.writeHome_cards (s : State) (h : Nat) (bs : List Byte) : (s.writeHome h bs).cards = s.cards := by
  unfold State.writeHome; split <;> rfl
@[simp] theorem State.writeHome_queues (s : State) (h : Nat) (bs : List Byte) : (s.writeHome h bs).queues = s.queues := by
  unfold State.writeHome; split <;> rfl
@[simp] theorem State.writeHome_offers (s : State) (h : Nat) (bs : List Byte) : (s.writeHome h bs).offers = s.offers := by
  unfold State.writeHome; split <;> rfl
@[simp] theorem State.writeHome_slots (s : State) (h : Nat) (bs : List Byte) : (s.writeHome h bs).slots = s.slots := by
  unfold State.writeHome; split <;> rfl
@[simp] theorem State.writeHome_vault (s : State) (h : Nat) (bs : List Byte) : (s.writeHome h bs).vault = s.vault := by
  unfold State.writeHome; split <;> rfl
@[simp] theorem State.writeHome_vaultMem (s : State) (h : Nat) (bs : List Byte) : (s.writeHome h bs).vaultMem = s.vaultMem := by
  unfold State.writeHome; split <;> rfl
@[simp] theorem State.writeHome_spillNext (s : State) (h : Nat) (bs : List Byte) : (s.writeHome h bs).spillNext = s.spillNext := by
  unfold State.writeHome; split <;> rfl
@[simp] theorem State.writeHome_saves (s : State) (h : Nat) (bs : List Byte) : (s.writeHome h bs).saves = s.saves := by
  unfold State.writeHome; split <;> rfl
@[simp] theorem State.writeHome_vacates (s : State) (h : Nat) (bs : List Byte) : (s.writeHome h bs).vacates = s.vacates := by
  unfold State.writeHome; split <;> rfl
@[simp] theorem State.writeHome_watchdog (s : State) (h : Nat) (bs : List Byte) : (s.writeHome h bs).watchdog = s.watchdog := by
  unfold State.writeHome; split <;> rfl
@[simp] theorem State.writeHome_reports (s : State) (h : Nat) (bs : List Byte) : (s.writeHome h bs).reports = s.reports := by
  unfold State.writeHome; split <;> rfl
@[simp] theorem State.writeHome_nextCard (s : State) (h : Nat) (bs : List Byte) : (s.writeHome h bs).nextCard = s.nextCard := by
  unfold State.writeHome; split <;> rfl
@[simp] theorem State.writeHome_nextBid (s : State) (h : Nat) (bs : List Byte) : (s.writeHome h bs).nextBid = s.nextBid := by
  unfold State.writeHome; split <;> rfl
@[simp] theorem State.writeHome_placement (s : State) (h : Nat) (bs : List Byte) : (s.writeHome h bs).placement = s.placement := by
  unfold State.writeHome; split <;> rfl
@[simp] theorem State.writeHome_pages (s : State) (h : Nat) (bs : List Byte) : (s.writeHome h bs).pages = s.pages := by
  unfold State.writeHome; split <;> rfl
@[simp] theorem State.writeHome_notices (s : State) (h : Nat) (bs : List Byte) : (s.writeHome h bs).notices = s.notices := by
  unfold State.writeHome; split <;> rfl
@[simp] theorem State.writeHome_vfs (s : State) (h : Nat) (bs : List Byte) : (s.writeHome h bs).vfs = s.vfs := by
  unfold State.writeHome; split <;> rfl
@[simp] theorem State.writeHome_completion (s : State) (h : Nat) (bs : List Byte) : (s.writeHome h bs).completion = s.completion := by
  unfold State.writeHome; split <;> rfl
@[simp] theorem State.writeHome_hostReply (s : State) (h : Nat) (bs : List Byte) : (s.writeHome h bs).hostReply = s.hostReply := by
  unfold State.writeHome; split <;> rfl
@[simp] theorem State.writeHome_hdm (s : State) (h : Nat) (bs : List Byte) : (s.writeHome h bs).hdm = s.hdm := by
  unfold State.writeHome; split <;> rfl
@[simp] theorem State.writeHome_ports (s : State) (h : Nat) (bs : List Byte) : (s.writeHome h bs).ports = s.ports := by
  unfold State.writeHome; split <;> rfl
@[simp] theorem State.writeHome_qps (s : State) (h : Nat) (bs : List Byte) : (s.writeHome h bs).qps = s.qps := by
  unfold State.writeHome; split <;> rfl
@[simp] theorem State.writeHome_routes (s : State) (h : Nat) (bs : List Byte) : (s.writeHome h bs).routes = s.routes := by
  unfold State.writeHome; split <;> rfl
@[simp] theorem State.writeHome_linkUp (s : State) (h : Nat) (bs : List Byte) : (s.writeHome h bs).linkUp = s.linkUp := by
  unfold State.writeHome; split <;> rfl
@[simp] theorem State.writeHome_pkg (s : State) (h : Nat) (bs : List Byte) : (s.writeHome h bs).pkg = s.pkg := by
  unfold State.writeHome; split <;> rfl
@[simp] theorem State.writeHome_tick (s : State) (h : Nat) (bs : List Byte) : (s.writeHome h bs).tick = s.tick := by
  unfold State.writeHome; split <;> rfl
@[simp] theorem State.writeHome_time3 (s : State) (h : Nat) (bs : List Byte) : (s.writeHome h bs).time3 = s.time3 := by
  unfold State.writeHome; split <;> rfl
@[simp] theorem State.writeHome_timeValid (s : State) (h : Nat) (bs : List Byte) : (s.writeHome h bs).timeValid = s.timeValid := by
  unfold State.writeHome; split <;> rfl
@[simp] theorem State.writeHome_dies (s : State) (h : Nat) (bs : List Byte) : (s.writeHome h bs).dies = s.dies := by
  unfold State.writeHome; split <;> rfl
@[simp] theorem State.writeHome_foreign (s : State) (h : Nat) (bs : List Byte) : (s.writeHome h bs).foreign = s.foreign := by
  unfold State.writeHome; split <;> rfl
@[simp] theorem State.writeHome_leaders (s : State) (h : Nat) (bs : List Byte) : (s.writeHome h bs).leaders = s.leaders := by
  unfold State.writeHome; split <;> rfl
@[simp] theorem State.writeHome_announced (s : State) (h : Nat) (bs : List Byte) : (s.writeHome h bs).announced = s.announced := by
  unfold State.writeHome; split <;> rfl
@[simp] theorem State.writeHome_hbm (s : State) (h : Nat) (bs : List Byte) : (s.writeHome h bs).hbm = s.hbm := by
  unfold State.writeHome; split <;> rfl
@[simp] theorem State.writeHome_inlet (s : State) (h : Nat) (bs : List Byte) : (s.writeHome h bs).inlet = s.inlet := by
  unfold State.writeHome; split <;> rfl
@[simp] theorem State.writeHome_halted (s : State) (h : Nat) (bs : List Byte) : (s.writeHome h bs).halted = s.halted := by
  unfold State.writeHome; split <;> rfl
@[simp] theorem State.writeHome_boot (s : State) (h : Nat) (bs : List Byte) : (s.writeHome h bs).boot = s.boot := by
  unfold State.writeHome; split <;> rfl
@[simp] theorem State.writeHome_events (s : State) (h : Nat) (bs : List Byte) : (s.writeHome h bs).events = s.events := by
  unfold State.writeHome; split <;> rfl
@[simp] theorem State.writeHome_cur (s : State) (h : Nat) (bs : List Byte) : (s.writeHome h bs).cur = s.cur := by
  unfold State.writeHome; split <;> rfl
@[simp] theorem State.writeHome_phase (s : State) (h : Nat) (bs : List Byte) : (s.writeHome h bs).phase = s.phase := by
  unfold State.writeHome; split <;> rfl
@[simp] theorem State.writeHome_core (s : State) (h : Nat) (bs : List Byte) : (s.writeHome h bs).core = s.core := by
  unfold State.writeHome; split <;> rfl
@[simp] theorem State.writeHome_heads (s : State) (h : Nat) (bs : List Byte) : (s.writeHome h bs).heads = s.heads := by
  unfold State.writeHome; split <;> rfl
@[simp] theorem State.writeHome_agenda (s : State) (h : Nat) (bs : List Byte) : (s.writeHome h bs).agenda = s.agenda := by
  unfold State.writeHome; split <;> rfl
@[simp] theorem State.writeHome_blocked (s : State) (h : Nat) (bs : List Byte) : (s.writeHome h bs).blocked = s.blocked := by
  unfold State.writeHome; split <;> rfl
@[simp] theorem State.writeHome_outHeld (s : State) (h : Nat) (bs : List Byte) : (s.writeHome h bs).outHeld = s.outHeld := by
  unfold State.writeHome; split <;> rfl
@[simp] theorem State.writeHome_freeCtr (s : State) (h : Nat) (bs : List Byte) : (s.writeHome h bs).freeCtr = s.freeCtr := by
  unfold State.writeHome; split <;> rfl

/-! ### `State.install` -/

@[simp] theorem State.install_strands (s : State) (e : TlbEntry) : (s.install e).strands = s.strands := rfl
@[simp] theorem State.install_mem (s : State) (e : TlbEntry) : (s.install e).mem = s.mem := rfl
@[simp] theorem State.install_lines (s : State) (e : TlbEntry) : (s.install e).lines = s.lines := rfl
@[simp] theorem State.install_redirects (s : State) (e : TlbEntry) : (s.install e).redirects = s.redirects := rfl
@[simp] theorem State.install_soft (s : State) (e : TlbEntry) : (s.install e).soft = s.soft := rfl
@[simp] theorem State.install_roots (s : State) (e : TlbEntry) : (s.install e).roots = s.roots := rfl
@[simp] theorem State.install_owners (s : State) (e : TlbEntry) : (s.install e).owners = s.owners := rfl
@[simp] theorem State.install_svcs (s : State) (e : TlbEntry) : (s.install e).svcs = s.svcs := rfl
@[simp] theorem State.install_requests (s : State) (e : TlbEntry) : (s.install e).requests = s.requests := rfl
@[simp] theorem State.install_replies (s : State) (e : TlbEntry) : (s.install e).replies = s.replies := rfl
@[simp] theorem State.install_keystones (s : State) (e : TlbEntry) : (s.install e).keystones = s.keystones := rfl
@[simp] theorem State.install_copies (s : State) (e : TlbEntry) : (s.install e).copies = s.copies := rfl
@[simp] theorem State.install_nextRid (s : State) (e : TlbEntry) : (s.install e).nextRid = s.nextRid := rfl
@[simp] theorem State.install_nextCid (s : State) (e : TlbEntry) : (s.install e).nextCid = s.nextCid := rfl
@[simp] theorem State.install_gangs (s : State) (e : TlbEntry) : (s.install e).gangs = s.gangs := rfl
@[simp] theorem State.install_barriers (s : State) (e : TlbEntry) : (s.install e).barriers = s.barriers := rfl
@[simp] theorem State.install_arrivals (s : State) (e : TlbEntry) : (s.install e).arrivals = s.arrivals := rfl
@[simp] theorem State.install_cards (s : State) (e : TlbEntry) : (s.install e).cards = s.cards := rfl
@[simp] theorem State.install_queues (s : State) (e : TlbEntry) : (s.install e).queues = s.queues := rfl
@[simp] theorem State.install_offers (s : State) (e : TlbEntry) : (s.install e).offers = s.offers := rfl
@[simp] theorem State.install_slots (s : State) (e : TlbEntry) : (s.install e).slots = s.slots := rfl
@[simp] theorem State.install_vault (s : State) (e : TlbEntry) : (s.install e).vault = s.vault := rfl
@[simp] theorem State.install_vaultMem (s : State) (e : TlbEntry) : (s.install e).vaultMem = s.vaultMem := rfl
@[simp] theorem State.install_spillNext (s : State) (e : TlbEntry) : (s.install e).spillNext = s.spillNext := rfl
@[simp] theorem State.install_saves (s : State) (e : TlbEntry) : (s.install e).saves = s.saves := rfl
@[simp] theorem State.install_vacates (s : State) (e : TlbEntry) : (s.install e).vacates = s.vacates := rfl
@[simp] theorem State.install_watchdog (s : State) (e : TlbEntry) : (s.install e).watchdog = s.watchdog := rfl
@[simp] theorem State.install_reports (s : State) (e : TlbEntry) : (s.install e).reports = s.reports := rfl
@[simp] theorem State.install_nextCard (s : State) (e : TlbEntry) : (s.install e).nextCard = s.nextCard := rfl
@[simp] theorem State.install_nextBid (s : State) (e : TlbEntry) : (s.install e).nextBid = s.nextBid := rfl
@[simp] theorem State.install_placement (s : State) (e : TlbEntry) : (s.install e).placement = s.placement := rfl
@[simp] theorem State.install_pages (s : State) (e : TlbEntry) : (s.install e).pages = s.pages := rfl
@[simp] theorem State.install_notices (s : State) (e : TlbEntry) : (s.install e).notices = s.notices := rfl
@[simp] theorem State.install_vfs (s : State) (e : TlbEntry) : (s.install e).vfs = s.vfs := rfl
@[simp] theorem State.install_completion (s : State) (e : TlbEntry) : (s.install e).completion = s.completion := rfl
@[simp] theorem State.install_hostReply (s : State) (e : TlbEntry) : (s.install e).hostReply = s.hostReply := rfl
@[simp] theorem State.install_hdm (s : State) (e : TlbEntry) : (s.install e).hdm = s.hdm := rfl
@[simp] theorem State.install_ports (s : State) (e : TlbEntry) : (s.install e).ports = s.ports := rfl
@[simp] theorem State.install_qps (s : State) (e : TlbEntry) : (s.install e).qps = s.qps := rfl
@[simp] theorem State.install_routes (s : State) (e : TlbEntry) : (s.install e).routes = s.routes := rfl
@[simp] theorem State.install_linkUp (s : State) (e : TlbEntry) : (s.install e).linkUp = s.linkUp := rfl
@[simp] theorem State.install_pkg (s : State) (e : TlbEntry) : (s.install e).pkg = s.pkg := rfl
@[simp] theorem State.install_tick (s : State) (e : TlbEntry) : (s.install e).tick = s.tick := rfl
@[simp] theorem State.install_time3 (s : State) (e : TlbEntry) : (s.install e).time3 = s.time3 := rfl
@[simp] theorem State.install_timeValid (s : State) (e : TlbEntry) : (s.install e).timeValid = s.timeValid := rfl
@[simp] theorem State.install_dies (s : State) (e : TlbEntry) : (s.install e).dies = s.dies := rfl
@[simp] theorem State.install_foreign (s : State) (e : TlbEntry) : (s.install e).foreign = s.foreign := rfl
@[simp] theorem State.install_leaders (s : State) (e : TlbEntry) : (s.install e).leaders = s.leaders := rfl
@[simp] theorem State.install_announced (s : State) (e : TlbEntry) : (s.install e).announced = s.announced := rfl
@[simp] theorem State.install_hbm (s : State) (e : TlbEntry) : (s.install e).hbm = s.hbm := rfl
@[simp] theorem State.install_inlet (s : State) (e : TlbEntry) : (s.install e).inlet = s.inlet := rfl
@[simp] theorem State.install_halted (s : State) (e : TlbEntry) : (s.install e).halted = s.halted := rfl
@[simp] theorem State.install_boot (s : State) (e : TlbEntry) : (s.install e).boot = s.boot := rfl
@[simp] theorem State.install_events (s : State) (e : TlbEntry) : (s.install e).events = s.events := rfl
@[simp] theorem State.install_cur (s : State) (e : TlbEntry) : (s.install e).cur = s.cur := rfl
@[simp] theorem State.install_phase (s : State) (e : TlbEntry) : (s.install e).phase = s.phase := rfl
@[simp] theorem State.install_core (s : State) (e : TlbEntry) : (s.install e).core = s.core := rfl
@[simp] theorem State.install_heads (s : State) (e : TlbEntry) : (s.install e).heads = s.heads := rfl
@[simp] theorem State.install_agenda (s : State) (e : TlbEntry) : (s.install e).agenda = s.agenda := rfl
@[simp] theorem State.install_blocked (s : State) (e : TlbEntry) : (s.install e).blocked = s.blocked := rfl
@[simp] theorem State.install_outHeld (s : State) (e : TlbEntry) : (s.install e).outHeld = s.outHeld := rfl
@[simp] theorem State.install_freeCtr (s : State) (e : TlbEntry) : (s.install e).freeCtr = s.freeCtr := rfl

/-! ### `State.setSvc` -/

@[simp] theorem State.setSvc_strands (s : State) (v : Svc) : (s.setSvc v).strands = s.strands := rfl
@[simp] theorem State.setSvc_mem (s : State) (v : Svc) : (s.setSvc v).mem = s.mem := rfl
@[simp] theorem State.setSvc_lines (s : State) (v : Svc) : (s.setSvc v).lines = s.lines := rfl
@[simp] theorem State.setSvc_redirects (s : State) (v : Svc) : (s.setSvc v).redirects = s.redirects := rfl
@[simp] theorem State.setSvc_soft (s : State) (v : Svc) : (s.setSvc v).soft = s.soft := rfl
@[simp] theorem State.setSvc_roots (s : State) (v : Svc) : (s.setSvc v).roots = s.roots := rfl
@[simp] theorem State.setSvc_tlb (s : State) (v : Svc) : (s.setSvc v).tlb = s.tlb := rfl
@[simp] theorem State.setSvc_owners (s : State) (v : Svc) : (s.setSvc v).owners = s.owners := rfl
@[simp] theorem State.setSvc_requests (s : State) (v : Svc) : (s.setSvc v).requests = s.requests := rfl
@[simp] theorem State.setSvc_replies (s : State) (v : Svc) : (s.setSvc v).replies = s.replies := rfl
@[simp] theorem State.setSvc_keystones (s : State) (v : Svc) : (s.setSvc v).keystones = s.keystones := rfl
@[simp] theorem State.setSvc_copies (s : State) (v : Svc) : (s.setSvc v).copies = s.copies := rfl
@[simp] theorem State.setSvc_nextRid (s : State) (v : Svc) : (s.setSvc v).nextRid = s.nextRid := rfl
@[simp] theorem State.setSvc_nextCid (s : State) (v : Svc) : (s.setSvc v).nextCid = s.nextCid := rfl
@[simp] theorem State.setSvc_gangs (s : State) (v : Svc) : (s.setSvc v).gangs = s.gangs := rfl
@[simp] theorem State.setSvc_barriers (s : State) (v : Svc) : (s.setSvc v).barriers = s.barriers := rfl
@[simp] theorem State.setSvc_arrivals (s : State) (v : Svc) : (s.setSvc v).arrivals = s.arrivals := rfl
@[simp] theorem State.setSvc_cards (s : State) (v : Svc) : (s.setSvc v).cards = s.cards := rfl
@[simp] theorem State.setSvc_queues (s : State) (v : Svc) : (s.setSvc v).queues = s.queues := rfl
@[simp] theorem State.setSvc_offers (s : State) (v : Svc) : (s.setSvc v).offers = s.offers := rfl
@[simp] theorem State.setSvc_slots (s : State) (v : Svc) : (s.setSvc v).slots = s.slots := rfl
@[simp] theorem State.setSvc_vault (s : State) (v : Svc) : (s.setSvc v).vault = s.vault := rfl
@[simp] theorem State.setSvc_vaultMem (s : State) (v : Svc) : (s.setSvc v).vaultMem = s.vaultMem := rfl
@[simp] theorem State.setSvc_spillNext (s : State) (v : Svc) : (s.setSvc v).spillNext = s.spillNext := rfl
@[simp] theorem State.setSvc_saves (s : State) (v : Svc) : (s.setSvc v).saves = s.saves := rfl
@[simp] theorem State.setSvc_vacates (s : State) (v : Svc) : (s.setSvc v).vacates = s.vacates := rfl
@[simp] theorem State.setSvc_watchdog (s : State) (v : Svc) : (s.setSvc v).watchdog = s.watchdog := rfl
@[simp] theorem State.setSvc_reports (s : State) (v : Svc) : (s.setSvc v).reports = s.reports := rfl
@[simp] theorem State.setSvc_nextCard (s : State) (v : Svc) : (s.setSvc v).nextCard = s.nextCard := rfl
@[simp] theorem State.setSvc_nextBid (s : State) (v : Svc) : (s.setSvc v).nextBid = s.nextBid := rfl
@[simp] theorem State.setSvc_placement (s : State) (v : Svc) : (s.setSvc v).placement = s.placement := rfl
@[simp] theorem State.setSvc_pages (s : State) (v : Svc) : (s.setSvc v).pages = s.pages := rfl
@[simp] theorem State.setSvc_notices (s : State) (v : Svc) : (s.setSvc v).notices = s.notices := rfl
@[simp] theorem State.setSvc_vfs (s : State) (v : Svc) : (s.setSvc v).vfs = s.vfs := rfl
@[simp] theorem State.setSvc_completion (s : State) (v : Svc) : (s.setSvc v).completion = s.completion := rfl
@[simp] theorem State.setSvc_hostReply (s : State) (v : Svc) : (s.setSvc v).hostReply = s.hostReply := rfl
@[simp] theorem State.setSvc_hdm (s : State) (v : Svc) : (s.setSvc v).hdm = s.hdm := rfl
@[simp] theorem State.setSvc_ports (s : State) (v : Svc) : (s.setSvc v).ports = s.ports := rfl
@[simp] theorem State.setSvc_qps (s : State) (v : Svc) : (s.setSvc v).qps = s.qps := rfl
@[simp] theorem State.setSvc_routes (s : State) (v : Svc) : (s.setSvc v).routes = s.routes := rfl
@[simp] theorem State.setSvc_linkUp (s : State) (v : Svc) : (s.setSvc v).linkUp = s.linkUp := rfl
@[simp] theorem State.setSvc_pkg (s : State) (v : Svc) : (s.setSvc v).pkg = s.pkg := rfl
@[simp] theorem State.setSvc_tick (s : State) (v : Svc) : (s.setSvc v).tick = s.tick := rfl
@[simp] theorem State.setSvc_time3 (s : State) (v : Svc) : (s.setSvc v).time3 = s.time3 := rfl
@[simp] theorem State.setSvc_timeValid (s : State) (v : Svc) : (s.setSvc v).timeValid = s.timeValid := rfl
@[simp] theorem State.setSvc_dies (s : State) (v : Svc) : (s.setSvc v).dies = s.dies := rfl
@[simp] theorem State.setSvc_foreign (s : State) (v : Svc) : (s.setSvc v).foreign = s.foreign := rfl
@[simp] theorem State.setSvc_leaders (s : State) (v : Svc) : (s.setSvc v).leaders = s.leaders := rfl
@[simp] theorem State.setSvc_announced (s : State) (v : Svc) : (s.setSvc v).announced = s.announced := rfl
@[simp] theorem State.setSvc_hbm (s : State) (v : Svc) : (s.setSvc v).hbm = s.hbm := rfl
@[simp] theorem State.setSvc_inlet (s : State) (v : Svc) : (s.setSvc v).inlet = s.inlet := rfl
@[simp] theorem State.setSvc_halted (s : State) (v : Svc) : (s.setSvc v).halted = s.halted := rfl
@[simp] theorem State.setSvc_boot (s : State) (v : Svc) : (s.setSvc v).boot = s.boot := rfl
@[simp] theorem State.setSvc_events (s : State) (v : Svc) : (s.setSvc v).events = s.events := rfl
@[simp] theorem State.setSvc_cur (s : State) (v : Svc) : (s.setSvc v).cur = s.cur := rfl
@[simp] theorem State.setSvc_phase (s : State) (v : Svc) : (s.setSvc v).phase = s.phase := rfl
@[simp] theorem State.setSvc_core (s : State) (v : Svc) : (s.setSvc v).core = s.core := rfl
@[simp] theorem State.setSvc_heads (s : State) (v : Svc) : (s.setSvc v).heads = s.heads := rfl
@[simp] theorem State.setSvc_agenda (s : State) (v : Svc) : (s.setSvc v).agenda = s.agenda := rfl
@[simp] theorem State.setSvc_blocked (s : State) (v : Svc) : (s.setSvc v).blocked = s.blocked := rfl
@[simp] theorem State.setSvc_outHeld (s : State) (v : Svc) : (s.setSvc v).outHeld = s.outHeld := rfl
@[simp] theorem State.setSvc_freeCtr (s : State) (v : Svc) : (s.setSvc v).freeCtr = s.freeCtr := rfl

/-! ### `State.endSvc` -/

@[simp] theorem State.endSvc_strands (s : State) (w : Agent) : (s.endSvc w).strands = s.strands := rfl
@[simp] theorem State.endSvc_mem (s : State) (w : Agent) : (s.endSvc w).mem = s.mem := rfl
@[simp] theorem State.endSvc_lines (s : State) (w : Agent) : (s.endSvc w).lines = s.lines := rfl
@[simp] theorem State.endSvc_redirects (s : State) (w : Agent) : (s.endSvc w).redirects = s.redirects := rfl
@[simp] theorem State.endSvc_soft (s : State) (w : Agent) : (s.endSvc w).soft = s.soft := rfl
@[simp] theorem State.endSvc_roots (s : State) (w : Agent) : (s.endSvc w).roots = s.roots := rfl
@[simp] theorem State.endSvc_tlb (s : State) (w : Agent) : (s.endSvc w).tlb = s.tlb := rfl
@[simp] theorem State.endSvc_owners (s : State) (w : Agent) : (s.endSvc w).owners = s.owners := rfl
@[simp] theorem State.endSvc_requests (s : State) (w : Agent) : (s.endSvc w).requests = s.requests := rfl
@[simp] theorem State.endSvc_replies (s : State) (w : Agent) : (s.endSvc w).replies = s.replies := rfl
@[simp] theorem State.endSvc_keystones (s : State) (w : Agent) : (s.endSvc w).keystones = s.keystones := rfl
@[simp] theorem State.endSvc_copies (s : State) (w : Agent) : (s.endSvc w).copies = s.copies := rfl
@[simp] theorem State.endSvc_nextRid (s : State) (w : Agent) : (s.endSvc w).nextRid = s.nextRid := rfl
@[simp] theorem State.endSvc_nextCid (s : State) (w : Agent) : (s.endSvc w).nextCid = s.nextCid := rfl
@[simp] theorem State.endSvc_gangs (s : State) (w : Agent) : (s.endSvc w).gangs = s.gangs := rfl
@[simp] theorem State.endSvc_barriers (s : State) (w : Agent) : (s.endSvc w).barriers = s.barriers := rfl
@[simp] theorem State.endSvc_arrivals (s : State) (w : Agent) : (s.endSvc w).arrivals = s.arrivals := rfl
@[simp] theorem State.endSvc_cards (s : State) (w : Agent) : (s.endSvc w).cards = s.cards := rfl
@[simp] theorem State.endSvc_queues (s : State) (w : Agent) : (s.endSvc w).queues = s.queues := rfl
@[simp] theorem State.endSvc_offers (s : State) (w : Agent) : (s.endSvc w).offers = s.offers := rfl
@[simp] theorem State.endSvc_slots (s : State) (w : Agent) : (s.endSvc w).slots = s.slots := rfl
@[simp] theorem State.endSvc_vault (s : State) (w : Agent) : (s.endSvc w).vault = s.vault := rfl
@[simp] theorem State.endSvc_vaultMem (s : State) (w : Agent) : (s.endSvc w).vaultMem = s.vaultMem := rfl
@[simp] theorem State.endSvc_spillNext (s : State) (w : Agent) : (s.endSvc w).spillNext = s.spillNext := rfl
@[simp] theorem State.endSvc_saves (s : State) (w : Agent) : (s.endSvc w).saves = s.saves := rfl
@[simp] theorem State.endSvc_vacates (s : State) (w : Agent) : (s.endSvc w).vacates = s.vacates := rfl
@[simp] theorem State.endSvc_watchdog (s : State) (w : Agent) : (s.endSvc w).watchdog = s.watchdog := rfl
@[simp] theorem State.endSvc_reports (s : State) (w : Agent) : (s.endSvc w).reports = s.reports := rfl
@[simp] theorem State.endSvc_nextCard (s : State) (w : Agent) : (s.endSvc w).nextCard = s.nextCard := rfl
@[simp] theorem State.endSvc_nextBid (s : State) (w : Agent) : (s.endSvc w).nextBid = s.nextBid := rfl
@[simp] theorem State.endSvc_placement (s : State) (w : Agent) : (s.endSvc w).placement = s.placement := rfl
@[simp] theorem State.endSvc_pages (s : State) (w : Agent) : (s.endSvc w).pages = s.pages := rfl
@[simp] theorem State.endSvc_notices (s : State) (w : Agent) : (s.endSvc w).notices = s.notices := rfl
@[simp] theorem State.endSvc_vfs (s : State) (w : Agent) : (s.endSvc w).vfs = s.vfs := rfl
@[simp] theorem State.endSvc_completion (s : State) (w : Agent) : (s.endSvc w).completion = s.completion := rfl
@[simp] theorem State.endSvc_hostReply (s : State) (w : Agent) : (s.endSvc w).hostReply = s.hostReply := rfl
@[simp] theorem State.endSvc_hdm (s : State) (w : Agent) : (s.endSvc w).hdm = s.hdm := rfl
@[simp] theorem State.endSvc_ports (s : State) (w : Agent) : (s.endSvc w).ports = s.ports := rfl
@[simp] theorem State.endSvc_qps (s : State) (w : Agent) : (s.endSvc w).qps = s.qps := rfl
@[simp] theorem State.endSvc_routes (s : State) (w : Agent) : (s.endSvc w).routes = s.routes := rfl
@[simp] theorem State.endSvc_linkUp (s : State) (w : Agent) : (s.endSvc w).linkUp = s.linkUp := rfl
@[simp] theorem State.endSvc_pkg (s : State) (w : Agent) : (s.endSvc w).pkg = s.pkg := rfl
@[simp] theorem State.endSvc_tick (s : State) (w : Agent) : (s.endSvc w).tick = s.tick := rfl
@[simp] theorem State.endSvc_time3 (s : State) (w : Agent) : (s.endSvc w).time3 = s.time3 := rfl
@[simp] theorem State.endSvc_timeValid (s : State) (w : Agent) : (s.endSvc w).timeValid = s.timeValid := rfl
@[simp] theorem State.endSvc_dies (s : State) (w : Agent) : (s.endSvc w).dies = s.dies := rfl
@[simp] theorem State.endSvc_foreign (s : State) (w : Agent) : (s.endSvc w).foreign = s.foreign := rfl
@[simp] theorem State.endSvc_leaders (s : State) (w : Agent) : (s.endSvc w).leaders = s.leaders := rfl
@[simp] theorem State.endSvc_announced (s : State) (w : Agent) : (s.endSvc w).announced = s.announced := rfl
@[simp] theorem State.endSvc_hbm (s : State) (w : Agent) : (s.endSvc w).hbm = s.hbm := rfl
@[simp] theorem State.endSvc_inlet (s : State) (w : Agent) : (s.endSvc w).inlet = s.inlet := rfl
@[simp] theorem State.endSvc_halted (s : State) (w : Agent) : (s.endSvc w).halted = s.halted := rfl
@[simp] theorem State.endSvc_boot (s : State) (w : Agent) : (s.endSvc w).boot = s.boot := rfl
@[simp] theorem State.endSvc_events (s : State) (w : Agent) : (s.endSvc w).events = s.events := rfl
@[simp] theorem State.endSvc_cur (s : State) (w : Agent) : (s.endSvc w).cur = s.cur := rfl
@[simp] theorem State.endSvc_phase (s : State) (w : Agent) : (s.endSvc w).phase = s.phase := rfl
@[simp] theorem State.endSvc_core (s : State) (w : Agent) : (s.endSvc w).core = s.core := rfl
@[simp] theorem State.endSvc_heads (s : State) (w : Agent) : (s.endSvc w).heads = s.heads := rfl
@[simp] theorem State.endSvc_agenda (s : State) (w : Agent) : (s.endSvc w).agenda = s.agenda := rfl
@[simp] theorem State.endSvc_blocked (s : State) (w : Agent) : (s.endSvc w).blocked = s.blocked := rfl
@[simp] theorem State.endSvc_outHeld (s : State) (w : Agent) : (s.endSvc w).outHeld = s.outHeld := rfl
@[simp] theorem State.endSvc_freeCtr (s : State) (w : Agent) : (s.endSvc w).freeCtr = s.freeCtr := rfl

/-! ### `State.setSlot` -/

@[simp] theorem State.setSlot_strands (s : State) (n : Nat) (w : Word) : (s.setSlot n w).strands = s.strands := rfl
@[simp] theorem State.setSlot_mem (s : State) (n : Nat) (w : Word) : (s.setSlot n w).mem = s.mem := rfl
@[simp] theorem State.setSlot_lines (s : State) (n : Nat) (w : Word) : (s.setSlot n w).lines = s.lines := rfl
@[simp] theorem State.setSlot_redirects (s : State) (n : Nat) (w : Word) : (s.setSlot n w).redirects = s.redirects := rfl
@[simp] theorem State.setSlot_soft (s : State) (n : Nat) (w : Word) : (s.setSlot n w).soft = s.soft := rfl
@[simp] theorem State.setSlot_roots (s : State) (n : Nat) (w : Word) : (s.setSlot n w).roots = s.roots := rfl
@[simp] theorem State.setSlot_tlb (s : State) (n : Nat) (w : Word) : (s.setSlot n w).tlb = s.tlb := rfl
@[simp] theorem State.setSlot_owners (s : State) (n : Nat) (w : Word) : (s.setSlot n w).owners = s.owners := rfl
@[simp] theorem State.setSlot_svcs (s : State) (n : Nat) (w : Word) : (s.setSlot n w).svcs = s.svcs := rfl
@[simp] theorem State.setSlot_requests (s : State) (n : Nat) (w : Word) : (s.setSlot n w).requests = s.requests := rfl
@[simp] theorem State.setSlot_replies (s : State) (n : Nat) (w : Word) : (s.setSlot n w).replies = s.replies := rfl
@[simp] theorem State.setSlot_keystones (s : State) (n : Nat) (w : Word) : (s.setSlot n w).keystones = s.keystones := rfl
@[simp] theorem State.setSlot_copies (s : State) (n : Nat) (w : Word) : (s.setSlot n w).copies = s.copies := rfl
@[simp] theorem State.setSlot_nextRid (s : State) (n : Nat) (w : Word) : (s.setSlot n w).nextRid = s.nextRid := rfl
@[simp] theorem State.setSlot_nextCid (s : State) (n : Nat) (w : Word) : (s.setSlot n w).nextCid = s.nextCid := rfl
@[simp] theorem State.setSlot_gangs (s : State) (n : Nat) (w : Word) : (s.setSlot n w).gangs = s.gangs := rfl
@[simp] theorem State.setSlot_barriers (s : State) (n : Nat) (w : Word) : (s.setSlot n w).barriers = s.barriers := rfl
@[simp] theorem State.setSlot_arrivals (s : State) (n : Nat) (w : Word) : (s.setSlot n w).arrivals = s.arrivals := rfl
@[simp] theorem State.setSlot_cards (s : State) (n : Nat) (w : Word) : (s.setSlot n w).cards = s.cards := rfl
@[simp] theorem State.setSlot_queues (s : State) (n : Nat) (w : Word) : (s.setSlot n w).queues = s.queues := rfl
@[simp] theorem State.setSlot_offers (s : State) (n : Nat) (w : Word) : (s.setSlot n w).offers = s.offers := rfl
@[simp] theorem State.setSlot_vault (s : State) (n : Nat) (w : Word) : (s.setSlot n w).vault = s.vault := rfl
@[simp] theorem State.setSlot_vaultMem (s : State) (n : Nat) (w : Word) : (s.setSlot n w).vaultMem = s.vaultMem := rfl
@[simp] theorem State.setSlot_spillNext (s : State) (n : Nat) (w : Word) : (s.setSlot n w).spillNext = s.spillNext := rfl
@[simp] theorem State.setSlot_saves (s : State) (n : Nat) (w : Word) : (s.setSlot n w).saves = s.saves := rfl
@[simp] theorem State.setSlot_vacates (s : State) (n : Nat) (w : Word) : (s.setSlot n w).vacates = s.vacates := rfl
@[simp] theorem State.setSlot_watchdog (s : State) (n : Nat) (w : Word) : (s.setSlot n w).watchdog = s.watchdog := rfl
@[simp] theorem State.setSlot_reports (s : State) (n : Nat) (w : Word) : (s.setSlot n w).reports = s.reports := rfl
@[simp] theorem State.setSlot_nextCard (s : State) (n : Nat) (w : Word) : (s.setSlot n w).nextCard = s.nextCard := rfl
@[simp] theorem State.setSlot_nextBid (s : State) (n : Nat) (w : Word) : (s.setSlot n w).nextBid = s.nextBid := rfl
@[simp] theorem State.setSlot_placement (s : State) (n : Nat) (w : Word) : (s.setSlot n w).placement = s.placement := rfl
@[simp] theorem State.setSlot_pages (s : State) (n : Nat) (w : Word) : (s.setSlot n w).pages = s.pages := rfl
@[simp] theorem State.setSlot_notices (s : State) (n : Nat) (w : Word) : (s.setSlot n w).notices = s.notices := rfl
@[simp] theorem State.setSlot_vfs (s : State) (n : Nat) (w : Word) : (s.setSlot n w).vfs = s.vfs := rfl
@[simp] theorem State.setSlot_completion (s : State) (n : Nat) (w : Word) : (s.setSlot n w).completion = s.completion := rfl
@[simp] theorem State.setSlot_hostReply (s : State) (n : Nat) (w : Word) : (s.setSlot n w).hostReply = s.hostReply := rfl
@[simp] theorem State.setSlot_hdm (s : State) (n : Nat) (w : Word) : (s.setSlot n w).hdm = s.hdm := rfl
@[simp] theorem State.setSlot_ports (s : State) (n : Nat) (w : Word) : (s.setSlot n w).ports = s.ports := rfl
@[simp] theorem State.setSlot_qps (s : State) (n : Nat) (w : Word) : (s.setSlot n w).qps = s.qps := rfl
@[simp] theorem State.setSlot_routes (s : State) (n : Nat) (w : Word) : (s.setSlot n w).routes = s.routes := rfl
@[simp] theorem State.setSlot_linkUp (s : State) (n : Nat) (w : Word) : (s.setSlot n w).linkUp = s.linkUp := rfl
@[simp] theorem State.setSlot_pkg (s : State) (n : Nat) (w : Word) : (s.setSlot n w).pkg = s.pkg := rfl
@[simp] theorem State.setSlot_tick (s : State) (n : Nat) (w : Word) : (s.setSlot n w).tick = s.tick := rfl
@[simp] theorem State.setSlot_time3 (s : State) (n : Nat) (w : Word) : (s.setSlot n w).time3 = s.time3 := rfl
@[simp] theorem State.setSlot_timeValid (s : State) (n : Nat) (w : Word) : (s.setSlot n w).timeValid = s.timeValid := rfl
@[simp] theorem State.setSlot_dies (s : State) (n : Nat) (w : Word) : (s.setSlot n w).dies = s.dies := rfl
@[simp] theorem State.setSlot_foreign (s : State) (n : Nat) (w : Word) : (s.setSlot n w).foreign = s.foreign := rfl
@[simp] theorem State.setSlot_leaders (s : State) (n : Nat) (w : Word) : (s.setSlot n w).leaders = s.leaders := rfl
@[simp] theorem State.setSlot_announced (s : State) (n : Nat) (w : Word) : (s.setSlot n w).announced = s.announced := rfl
@[simp] theorem State.setSlot_hbm (s : State) (n : Nat) (w : Word) : (s.setSlot n w).hbm = s.hbm := rfl
@[simp] theorem State.setSlot_inlet (s : State) (n : Nat) (w : Word) : (s.setSlot n w).inlet = s.inlet := rfl
@[simp] theorem State.setSlot_halted (s : State) (n : Nat) (w : Word) : (s.setSlot n w).halted = s.halted := rfl
@[simp] theorem State.setSlot_boot (s : State) (n : Nat) (w : Word) : (s.setSlot n w).boot = s.boot := rfl
@[simp] theorem State.setSlot_events (s : State) (n : Nat) (w : Word) : (s.setSlot n w).events = s.events := rfl
@[simp] theorem State.setSlot_cur (s : State) (n : Nat) (w : Word) : (s.setSlot n w).cur = s.cur := rfl
@[simp] theorem State.setSlot_phase (s : State) (n : Nat) (w : Word) : (s.setSlot n w).phase = s.phase := rfl
@[simp] theorem State.setSlot_core (s : State) (n : Nat) (w : Word) : (s.setSlot n w).core = s.core := rfl
@[simp] theorem State.setSlot_heads (s : State) (n : Nat) (w : Word) : (s.setSlot n w).heads = s.heads := rfl
@[simp] theorem State.setSlot_agenda (s : State) (n : Nat) (w : Word) : (s.setSlot n w).agenda = s.agenda := rfl
@[simp] theorem State.setSlot_blocked (s : State) (n : Nat) (w : Word) : (s.setSlot n w).blocked = s.blocked := rfl
@[simp] theorem State.setSlot_outHeld (s : State) (n : Nat) (w : Word) : (s.setSlot n w).outHeld = s.outHeld := rfl
@[simp] theorem State.setSlot_freeCtr (s : State) (n : Nat) (w : Word) : (s.setSlot n w).freeCtr = s.freeCtr := rfl

/-! ### `State.setGang` -/

@[simp] theorem State.setGang_strands (s : State) (h : BitVec 16) (f : Gang → Gang) : (s.setGang h f).strands = s.strands := rfl
@[simp] theorem State.setGang_mem (s : State) (h : BitVec 16) (f : Gang → Gang) : (s.setGang h f).mem = s.mem := rfl
@[simp] theorem State.setGang_lines (s : State) (h : BitVec 16) (f : Gang → Gang) : (s.setGang h f).lines = s.lines := rfl
@[simp] theorem State.setGang_redirects (s : State) (h : BitVec 16) (f : Gang → Gang) : (s.setGang h f).redirects = s.redirects := rfl
@[simp] theorem State.setGang_soft (s : State) (h : BitVec 16) (f : Gang → Gang) : (s.setGang h f).soft = s.soft := rfl
@[simp] theorem State.setGang_roots (s : State) (h : BitVec 16) (f : Gang → Gang) : (s.setGang h f).roots = s.roots := rfl
@[simp] theorem State.setGang_tlb (s : State) (h : BitVec 16) (f : Gang → Gang) : (s.setGang h f).tlb = s.tlb := rfl
@[simp] theorem State.setGang_owners (s : State) (h : BitVec 16) (f : Gang → Gang) : (s.setGang h f).owners = s.owners := rfl
@[simp] theorem State.setGang_svcs (s : State) (h : BitVec 16) (f : Gang → Gang) : (s.setGang h f).svcs = s.svcs := rfl
@[simp] theorem State.setGang_requests (s : State) (h : BitVec 16) (f : Gang → Gang) : (s.setGang h f).requests = s.requests := rfl
@[simp] theorem State.setGang_replies (s : State) (h : BitVec 16) (f : Gang → Gang) : (s.setGang h f).replies = s.replies := rfl
@[simp] theorem State.setGang_keystones (s : State) (h : BitVec 16) (f : Gang → Gang) : (s.setGang h f).keystones = s.keystones := rfl
@[simp] theorem State.setGang_copies (s : State) (h : BitVec 16) (f : Gang → Gang) : (s.setGang h f).copies = s.copies := rfl
@[simp] theorem State.setGang_nextRid (s : State) (h : BitVec 16) (f : Gang → Gang) : (s.setGang h f).nextRid = s.nextRid := rfl
@[simp] theorem State.setGang_nextCid (s : State) (h : BitVec 16) (f : Gang → Gang) : (s.setGang h f).nextCid = s.nextCid := rfl
@[simp] theorem State.setGang_barriers (s : State) (h : BitVec 16) (f : Gang → Gang) : (s.setGang h f).barriers = s.barriers := rfl
@[simp] theorem State.setGang_arrivals (s : State) (h : BitVec 16) (f : Gang → Gang) : (s.setGang h f).arrivals = s.arrivals := rfl
@[simp] theorem State.setGang_cards (s : State) (h : BitVec 16) (f : Gang → Gang) : (s.setGang h f).cards = s.cards := rfl
@[simp] theorem State.setGang_queues (s : State) (h : BitVec 16) (f : Gang → Gang) : (s.setGang h f).queues = s.queues := rfl
@[simp] theorem State.setGang_offers (s : State) (h : BitVec 16) (f : Gang → Gang) : (s.setGang h f).offers = s.offers := rfl
@[simp] theorem State.setGang_slots (s : State) (h : BitVec 16) (f : Gang → Gang) : (s.setGang h f).slots = s.slots := rfl
@[simp] theorem State.setGang_vault (s : State) (h : BitVec 16) (f : Gang → Gang) : (s.setGang h f).vault = s.vault := rfl
@[simp] theorem State.setGang_vaultMem (s : State) (h : BitVec 16) (f : Gang → Gang) : (s.setGang h f).vaultMem = s.vaultMem := rfl
@[simp] theorem State.setGang_spillNext (s : State) (h : BitVec 16) (f : Gang → Gang) : (s.setGang h f).spillNext = s.spillNext := rfl
@[simp] theorem State.setGang_saves (s : State) (h : BitVec 16) (f : Gang → Gang) : (s.setGang h f).saves = s.saves := rfl
@[simp] theorem State.setGang_vacates (s : State) (h : BitVec 16) (f : Gang → Gang) : (s.setGang h f).vacates = s.vacates := rfl
@[simp] theorem State.setGang_watchdog (s : State) (h : BitVec 16) (f : Gang → Gang) : (s.setGang h f).watchdog = s.watchdog := rfl
@[simp] theorem State.setGang_reports (s : State) (h : BitVec 16) (f : Gang → Gang) : (s.setGang h f).reports = s.reports := rfl
@[simp] theorem State.setGang_nextCard (s : State) (h : BitVec 16) (f : Gang → Gang) : (s.setGang h f).nextCard = s.nextCard := rfl
@[simp] theorem State.setGang_nextBid (s : State) (h : BitVec 16) (f : Gang → Gang) : (s.setGang h f).nextBid = s.nextBid := rfl
@[simp] theorem State.setGang_placement (s : State) (h : BitVec 16) (f : Gang → Gang) : (s.setGang h f).placement = s.placement := rfl
@[simp] theorem State.setGang_pages (s : State) (h : BitVec 16) (f : Gang → Gang) : (s.setGang h f).pages = s.pages := rfl
@[simp] theorem State.setGang_notices (s : State) (h : BitVec 16) (f : Gang → Gang) : (s.setGang h f).notices = s.notices := rfl
@[simp] theorem State.setGang_vfs (s : State) (h : BitVec 16) (f : Gang → Gang) : (s.setGang h f).vfs = s.vfs := rfl
@[simp] theorem State.setGang_completion (s : State) (h : BitVec 16) (f : Gang → Gang) : (s.setGang h f).completion = s.completion := rfl
@[simp] theorem State.setGang_hostReply (s : State) (h : BitVec 16) (f : Gang → Gang) : (s.setGang h f).hostReply = s.hostReply := rfl
@[simp] theorem State.setGang_hdm (s : State) (h : BitVec 16) (f : Gang → Gang) : (s.setGang h f).hdm = s.hdm := rfl
@[simp] theorem State.setGang_ports (s : State) (h : BitVec 16) (f : Gang → Gang) : (s.setGang h f).ports = s.ports := rfl
@[simp] theorem State.setGang_qps (s : State) (h : BitVec 16) (f : Gang → Gang) : (s.setGang h f).qps = s.qps := rfl
@[simp] theorem State.setGang_routes (s : State) (h : BitVec 16) (f : Gang → Gang) : (s.setGang h f).routes = s.routes := rfl
@[simp] theorem State.setGang_linkUp (s : State) (h : BitVec 16) (f : Gang → Gang) : (s.setGang h f).linkUp = s.linkUp := rfl
@[simp] theorem State.setGang_pkg (s : State) (h : BitVec 16) (f : Gang → Gang) : (s.setGang h f).pkg = s.pkg := rfl
@[simp] theorem State.setGang_tick (s : State) (h : BitVec 16) (f : Gang → Gang) : (s.setGang h f).tick = s.tick := rfl
@[simp] theorem State.setGang_time3 (s : State) (h : BitVec 16) (f : Gang → Gang) : (s.setGang h f).time3 = s.time3 := rfl
@[simp] theorem State.setGang_timeValid (s : State) (h : BitVec 16) (f : Gang → Gang) : (s.setGang h f).timeValid = s.timeValid := rfl
@[simp] theorem State.setGang_dies (s : State) (h : BitVec 16) (f : Gang → Gang) : (s.setGang h f).dies = s.dies := rfl
@[simp] theorem State.setGang_foreign (s : State) (h : BitVec 16) (f : Gang → Gang) : (s.setGang h f).foreign = s.foreign := rfl
@[simp] theorem State.setGang_leaders (s : State) (h : BitVec 16) (f : Gang → Gang) : (s.setGang h f).leaders = s.leaders := rfl
@[simp] theorem State.setGang_announced (s : State) (h : BitVec 16) (f : Gang → Gang) : (s.setGang h f).announced = s.announced := rfl
@[simp] theorem State.setGang_hbm (s : State) (h : BitVec 16) (f : Gang → Gang) : (s.setGang h f).hbm = s.hbm := rfl
@[simp] theorem State.setGang_inlet (s : State) (h : BitVec 16) (f : Gang → Gang) : (s.setGang h f).inlet = s.inlet := rfl
@[simp] theorem State.setGang_halted (s : State) (h : BitVec 16) (f : Gang → Gang) : (s.setGang h f).halted = s.halted := rfl
@[simp] theorem State.setGang_boot (s : State) (h : BitVec 16) (f : Gang → Gang) : (s.setGang h f).boot = s.boot := rfl
@[simp] theorem State.setGang_events (s : State) (h : BitVec 16) (f : Gang → Gang) : (s.setGang h f).events = s.events := rfl
@[simp] theorem State.setGang_cur (s : State) (h : BitVec 16) (f : Gang → Gang) : (s.setGang h f).cur = s.cur := rfl
@[simp] theorem State.setGang_phase (s : State) (h : BitVec 16) (f : Gang → Gang) : (s.setGang h f).phase = s.phase := rfl
@[simp] theorem State.setGang_core (s : State) (h : BitVec 16) (f : Gang → Gang) : (s.setGang h f).core = s.core := rfl
@[simp] theorem State.setGang_heads (s : State) (h : BitVec 16) (f : Gang → Gang) : (s.setGang h f).heads = s.heads := rfl
@[simp] theorem State.setGang_agenda (s : State) (h : BitVec 16) (f : Gang → Gang) : (s.setGang h f).agenda = s.agenda := rfl
@[simp] theorem State.setGang_blocked (s : State) (h : BitVec 16) (f : Gang → Gang) : (s.setGang h f).blocked = s.blocked := rfl
@[simp] theorem State.setGang_outHeld (s : State) (h : BitVec 16) (f : Gang → Gang) : (s.setGang h f).outHeld = s.outHeld := rfl
@[simp] theorem State.setGang_freeCtr (s : State) (h : BitVec 16) (f : Gang → Gang) : (s.setGang h f).freeCtr = s.freeCtr := rfl

/-! ### `State.keepWait` -/

@[simp] theorem State.keepWait_strands (s w : State) : (s.keepWait w).strands = s.strands := rfl
@[simp] theorem State.keepWait_mem (s w : State) : (s.keepWait w).mem = s.mem := rfl
@[simp] theorem State.keepWait_lines (s w : State) : (s.keepWait w).lines = s.lines := rfl
@[simp] theorem State.keepWait_redirects (s w : State) : (s.keepWait w).redirects = s.redirects := rfl
@[simp] theorem State.keepWait_soft (s w : State) : (s.keepWait w).soft = s.soft := rfl
@[simp] theorem State.keepWait_roots (s w : State) : (s.keepWait w).roots = s.roots := rfl
@[simp] theorem State.keepWait_owners (s w : State) : (s.keepWait w).owners = s.owners := rfl
@[simp] theorem State.keepWait_requests (s w : State) : (s.keepWait w).requests = s.requests := rfl
@[simp] theorem State.keepWait_replies (s w : State) : (s.keepWait w).replies = s.replies := rfl
@[simp] theorem State.keepWait_keystones (s w : State) : (s.keepWait w).keystones = s.keystones := rfl
@[simp] theorem State.keepWait_copies (s w : State) : (s.keepWait w).copies = s.copies := rfl
@[simp] theorem State.keepWait_nextRid (s w : State) : (s.keepWait w).nextRid = s.nextRid := rfl
@[simp] theorem State.keepWait_nextCid (s w : State) : (s.keepWait w).nextCid = s.nextCid := rfl
@[simp] theorem State.keepWait_gangs (s w : State) : (s.keepWait w).gangs = s.gangs := rfl
@[simp] theorem State.keepWait_barriers (s w : State) : (s.keepWait w).barriers = s.barriers := rfl
@[simp] theorem State.keepWait_arrivals (s w : State) : (s.keepWait w).arrivals = s.arrivals := rfl
@[simp] theorem State.keepWait_cards (s w : State) : (s.keepWait w).cards = s.cards := rfl
@[simp] theorem State.keepWait_queues (s w : State) : (s.keepWait w).queues = s.queues := rfl
@[simp] theorem State.keepWait_offers (s w : State) : (s.keepWait w).offers = s.offers := rfl
@[simp] theorem State.keepWait_slots (s w : State) : (s.keepWait w).slots = s.slots := rfl
@[simp] theorem State.keepWait_vault (s w : State) : (s.keepWait w).vault = s.vault := rfl
@[simp] theorem State.keepWait_vaultMem (s w : State) : (s.keepWait w).vaultMem = s.vaultMem := rfl
@[simp] theorem State.keepWait_spillNext (s w : State) : (s.keepWait w).spillNext = s.spillNext := rfl
@[simp] theorem State.keepWait_saves (s w : State) : (s.keepWait w).saves = s.saves := rfl
@[simp] theorem State.keepWait_vacates (s w : State) : (s.keepWait w).vacates = s.vacates := rfl
@[simp] theorem State.keepWait_watchdog (s w : State) : (s.keepWait w).watchdog = s.watchdog := rfl
@[simp] theorem State.keepWait_reports (s w : State) : (s.keepWait w).reports = s.reports := rfl
@[simp] theorem State.keepWait_nextCard (s w : State) : (s.keepWait w).nextCard = s.nextCard := rfl
@[simp] theorem State.keepWait_nextBid (s w : State) : (s.keepWait w).nextBid = s.nextBid := rfl
@[simp] theorem State.keepWait_placement (s w : State) : (s.keepWait w).placement = s.placement := rfl
@[simp] theorem State.keepWait_pages (s w : State) : (s.keepWait w).pages = s.pages := rfl
@[simp] theorem State.keepWait_notices (s w : State) : (s.keepWait w).notices = s.notices := rfl
@[simp] theorem State.keepWait_vfs (s w : State) : (s.keepWait w).vfs = s.vfs := rfl
@[simp] theorem State.keepWait_completion (s w : State) : (s.keepWait w).completion = s.completion := rfl
@[simp] theorem State.keepWait_hostReply (s w : State) : (s.keepWait w).hostReply = s.hostReply := rfl
@[simp] theorem State.keepWait_hdm (s w : State) : (s.keepWait w).hdm = s.hdm := rfl
@[simp] theorem State.keepWait_ports (s w : State) : (s.keepWait w).ports = s.ports := rfl
@[simp] theorem State.keepWait_qps (s w : State) : (s.keepWait w).qps = s.qps := rfl
@[simp] theorem State.keepWait_routes (s w : State) : (s.keepWait w).routes = s.routes := rfl
@[simp] theorem State.keepWait_linkUp (s w : State) : (s.keepWait w).linkUp = s.linkUp := rfl
@[simp] theorem State.keepWait_pkg (s w : State) : (s.keepWait w).pkg = s.pkg := rfl
@[simp] theorem State.keepWait_tick (s w : State) : (s.keepWait w).tick = s.tick := rfl
@[simp] theorem State.keepWait_time3 (s w : State) : (s.keepWait w).time3 = s.time3 := rfl
@[simp] theorem State.keepWait_timeValid (s w : State) : (s.keepWait w).timeValid = s.timeValid := rfl
@[simp] theorem State.keepWait_dies (s w : State) : (s.keepWait w).dies = s.dies := rfl
@[simp] theorem State.keepWait_foreign (s w : State) : (s.keepWait w).foreign = s.foreign := rfl
@[simp] theorem State.keepWait_leaders (s w : State) : (s.keepWait w).leaders = s.leaders := rfl
@[simp] theorem State.keepWait_announced (s w : State) : (s.keepWait w).announced = s.announced := rfl
@[simp] theorem State.keepWait_hbm (s w : State) : (s.keepWait w).hbm = s.hbm := rfl
@[simp] theorem State.keepWait_inlet (s w : State) : (s.keepWait w).inlet = s.inlet := rfl
@[simp] theorem State.keepWait_halted (s w : State) : (s.keepWait w).halted = s.halted := rfl
@[simp] theorem State.keepWait_boot (s w : State) : (s.keepWait w).boot = s.boot := rfl
@[simp] theorem State.keepWait_events (s w : State) : (s.keepWait w).events = s.events := rfl
@[simp] theorem State.keepWait_cur (s w : State) : (s.keepWait w).cur = s.cur := rfl
@[simp] theorem State.keepWait_phase (s w : State) : (s.keepWait w).phase = s.phase := rfl
@[simp] theorem State.keepWait_core (s w : State) : (s.keepWait w).core = s.core := rfl
@[simp] theorem State.keepWait_heads (s w : State) : (s.keepWait w).heads = s.heads := rfl
@[simp] theorem State.keepWait_agenda (s w : State) : (s.keepWait w).agenda = s.agenda := rfl
@[simp] theorem State.keepWait_blocked (s w : State) : (s.keepWait w).blocked = s.blocked := rfl
@[simp] theorem State.keepWait_outHeld (s w : State) : (s.keepWait w).outHeld = s.outHeld := rfl

/-! ### `State.keepTlb` -/

@[simp] theorem State.keepTlb_strands (s w : State) : (s.keepTlb w).strands = s.strands := rfl
@[simp] theorem State.keepTlb_mem (s w : State) : (s.keepTlb w).mem = s.mem := rfl
@[simp] theorem State.keepTlb_lines (s w : State) : (s.keepTlb w).lines = s.lines := rfl
@[simp] theorem State.keepTlb_redirects (s w : State) : (s.keepTlb w).redirects = s.redirects := rfl
@[simp] theorem State.keepTlb_soft (s w : State) : (s.keepTlb w).soft = s.soft := rfl
@[simp] theorem State.keepTlb_roots (s w : State) : (s.keepTlb w).roots = s.roots := rfl
@[simp] theorem State.keepTlb_owners (s w : State) : (s.keepTlb w).owners = s.owners := rfl
@[simp] theorem State.keepTlb_svcs (s w : State) : (s.keepTlb w).svcs = s.svcs := rfl
@[simp] theorem State.keepTlb_requests (s w : State) : (s.keepTlb w).requests = s.requests := rfl
@[simp] theorem State.keepTlb_replies (s w : State) : (s.keepTlb w).replies = s.replies := rfl
@[simp] theorem State.keepTlb_keystones (s w : State) : (s.keepTlb w).keystones = s.keystones := rfl
@[simp] theorem State.keepTlb_copies (s w : State) : (s.keepTlb w).copies = s.copies := rfl
@[simp] theorem State.keepTlb_nextRid (s w : State) : (s.keepTlb w).nextRid = s.nextRid := rfl
@[simp] theorem State.keepTlb_nextCid (s w : State) : (s.keepTlb w).nextCid = s.nextCid := rfl
@[simp] theorem State.keepTlb_gangs (s w : State) : (s.keepTlb w).gangs = s.gangs := rfl
@[simp] theorem State.keepTlb_barriers (s w : State) : (s.keepTlb w).barriers = s.barriers := rfl
@[simp] theorem State.keepTlb_arrivals (s w : State) : (s.keepTlb w).arrivals = s.arrivals := rfl
@[simp] theorem State.keepTlb_cards (s w : State) : (s.keepTlb w).cards = s.cards := rfl
@[simp] theorem State.keepTlb_queues (s w : State) : (s.keepTlb w).queues = s.queues := rfl
@[simp] theorem State.keepTlb_offers (s w : State) : (s.keepTlb w).offers = s.offers := rfl
@[simp] theorem State.keepTlb_slots (s w : State) : (s.keepTlb w).slots = s.slots := rfl
@[simp] theorem State.keepTlb_vault (s w : State) : (s.keepTlb w).vault = s.vault := rfl
@[simp] theorem State.keepTlb_vaultMem (s w : State) : (s.keepTlb w).vaultMem = s.vaultMem := rfl
@[simp] theorem State.keepTlb_spillNext (s w : State) : (s.keepTlb w).spillNext = s.spillNext := rfl
@[simp] theorem State.keepTlb_saves (s w : State) : (s.keepTlb w).saves = s.saves := rfl
@[simp] theorem State.keepTlb_vacates (s w : State) : (s.keepTlb w).vacates = s.vacates := rfl
@[simp] theorem State.keepTlb_watchdog (s w : State) : (s.keepTlb w).watchdog = s.watchdog := rfl
@[simp] theorem State.keepTlb_reports (s w : State) : (s.keepTlb w).reports = s.reports := rfl
@[simp] theorem State.keepTlb_nextCard (s w : State) : (s.keepTlb w).nextCard = s.nextCard := rfl
@[simp] theorem State.keepTlb_nextBid (s w : State) : (s.keepTlb w).nextBid = s.nextBid := rfl
@[simp] theorem State.keepTlb_placement (s w : State) : (s.keepTlb w).placement = s.placement := rfl
@[simp] theorem State.keepTlb_pages (s w : State) : (s.keepTlb w).pages = s.pages := rfl
@[simp] theorem State.keepTlb_notices (s w : State) : (s.keepTlb w).notices = s.notices := rfl
@[simp] theorem State.keepTlb_vfs (s w : State) : (s.keepTlb w).vfs = s.vfs := rfl
@[simp] theorem State.keepTlb_completion (s w : State) : (s.keepTlb w).completion = s.completion := rfl
@[simp] theorem State.keepTlb_hostReply (s w : State) : (s.keepTlb w).hostReply = s.hostReply := rfl
@[simp] theorem State.keepTlb_hdm (s w : State) : (s.keepTlb w).hdm = s.hdm := rfl
@[simp] theorem State.keepTlb_ports (s w : State) : (s.keepTlb w).ports = s.ports := rfl
@[simp] theorem State.keepTlb_qps (s w : State) : (s.keepTlb w).qps = s.qps := rfl
@[simp] theorem State.keepTlb_routes (s w : State) : (s.keepTlb w).routes = s.routes := rfl
@[simp] theorem State.keepTlb_linkUp (s w : State) : (s.keepTlb w).linkUp = s.linkUp := rfl
@[simp] theorem State.keepTlb_pkg (s w : State) : (s.keepTlb w).pkg = s.pkg := rfl
@[simp] theorem State.keepTlb_tick (s w : State) : (s.keepTlb w).tick = s.tick := rfl
@[simp] theorem State.keepTlb_time3 (s w : State) : (s.keepTlb w).time3 = s.time3 := rfl
@[simp] theorem State.keepTlb_timeValid (s w : State) : (s.keepTlb w).timeValid = s.timeValid := rfl
@[simp] theorem State.keepTlb_dies (s w : State) : (s.keepTlb w).dies = s.dies := rfl
@[simp] theorem State.keepTlb_foreign (s w : State) : (s.keepTlb w).foreign = s.foreign := rfl
@[simp] theorem State.keepTlb_leaders (s w : State) : (s.keepTlb w).leaders = s.leaders := rfl
@[simp] theorem State.keepTlb_announced (s w : State) : (s.keepTlb w).announced = s.announced := rfl
@[simp] theorem State.keepTlb_hbm (s w : State) : (s.keepTlb w).hbm = s.hbm := rfl
@[simp] theorem State.keepTlb_inlet (s w : State) : (s.keepTlb w).inlet = s.inlet := rfl
@[simp] theorem State.keepTlb_halted (s w : State) : (s.keepTlb w).halted = s.halted := rfl
@[simp] theorem State.keepTlb_boot (s w : State) : (s.keepTlb w).boot = s.boot := rfl
@[simp] theorem State.keepTlb_events (s w : State) : (s.keepTlb w).events = s.events := rfl
@[simp] theorem State.keepTlb_cur (s w : State) : (s.keepTlb w).cur = s.cur := rfl
@[simp] theorem State.keepTlb_phase (s w : State) : (s.keepTlb w).phase = s.phase := rfl
@[simp] theorem State.keepTlb_core (s w : State) : (s.keepTlb w).core = s.core := rfl
@[simp] theorem State.keepTlb_heads (s w : State) : (s.keepTlb w).heads = s.heads := rfl
@[simp] theorem State.keepTlb_agenda (s w : State) : (s.keepTlb w).agenda = s.agenda := rfl
@[simp] theorem State.keepTlb_blocked (s w : State) : (s.keepTlb w).blocked = s.blocked := rfl
@[simp] theorem State.keepTlb_outHeld (s w : State) : (s.keepTlb w).outHeld = s.outHeld := rfl
@[simp] theorem State.keepTlb_freeCtr (s w : State) : (s.keepTlb w).freeCtr = s.freeCtr := rfl

/-! ### `State.setRequest` -/

@[simp] theorem State.setRequest_strands (s : State) (r : Request) : (s.setRequest r).strands = s.strands := rfl
@[simp] theorem State.setRequest_mem (s : State) (r : Request) : (s.setRequest r).mem = s.mem := rfl
@[simp] theorem State.setRequest_lines (s : State) (r : Request) : (s.setRequest r).lines = s.lines := rfl
@[simp] theorem State.setRequest_redirects (s : State) (r : Request) : (s.setRequest r).redirects = s.redirects := rfl
@[simp] theorem State.setRequest_soft (s : State) (r : Request) : (s.setRequest r).soft = s.soft := rfl
@[simp] theorem State.setRequest_roots (s : State) (r : Request) : (s.setRequest r).roots = s.roots := rfl
@[simp] theorem State.setRequest_tlb (s : State) (r : Request) : (s.setRequest r).tlb = s.tlb := rfl
@[simp] theorem State.setRequest_owners (s : State) (r : Request) : (s.setRequest r).owners = s.owners := rfl
@[simp] theorem State.setRequest_svcs (s : State) (r : Request) : (s.setRequest r).svcs = s.svcs := rfl
@[simp] theorem State.setRequest_replies (s : State) (r : Request) : (s.setRequest r).replies = s.replies := rfl
@[simp] theorem State.setRequest_keystones (s : State) (r : Request) : (s.setRequest r).keystones = s.keystones := rfl
@[simp] theorem State.setRequest_copies (s : State) (r : Request) : (s.setRequest r).copies = s.copies := rfl
@[simp] theorem State.setRequest_nextRid (s : State) (r : Request) : (s.setRequest r).nextRid = s.nextRid := rfl
@[simp] theorem State.setRequest_nextCid (s : State) (r : Request) : (s.setRequest r).nextCid = s.nextCid := rfl
@[simp] theorem State.setRequest_gangs (s : State) (r : Request) : (s.setRequest r).gangs = s.gangs := rfl
@[simp] theorem State.setRequest_barriers (s : State) (r : Request) : (s.setRequest r).barriers = s.barriers := rfl
@[simp] theorem State.setRequest_arrivals (s : State) (r : Request) : (s.setRequest r).arrivals = s.arrivals := rfl
@[simp] theorem State.setRequest_cards (s : State) (r : Request) : (s.setRequest r).cards = s.cards := rfl
@[simp] theorem State.setRequest_queues (s : State) (r : Request) : (s.setRequest r).queues = s.queues := rfl
@[simp] theorem State.setRequest_offers (s : State) (r : Request) : (s.setRequest r).offers = s.offers := rfl
@[simp] theorem State.setRequest_slots (s : State) (r : Request) : (s.setRequest r).slots = s.slots := rfl
@[simp] theorem State.setRequest_vault (s : State) (r : Request) : (s.setRequest r).vault = s.vault := rfl
@[simp] theorem State.setRequest_vaultMem (s : State) (r : Request) : (s.setRequest r).vaultMem = s.vaultMem := rfl
@[simp] theorem State.setRequest_spillNext (s : State) (r : Request) : (s.setRequest r).spillNext = s.spillNext := rfl
@[simp] theorem State.setRequest_saves (s : State) (r : Request) : (s.setRequest r).saves = s.saves := rfl
@[simp] theorem State.setRequest_vacates (s : State) (r : Request) : (s.setRequest r).vacates = s.vacates := rfl
@[simp] theorem State.setRequest_watchdog (s : State) (r : Request) : (s.setRequest r).watchdog = s.watchdog := rfl
@[simp] theorem State.setRequest_reports (s : State) (r : Request) : (s.setRequest r).reports = s.reports := rfl
@[simp] theorem State.setRequest_nextCard (s : State) (r : Request) : (s.setRequest r).nextCard = s.nextCard := rfl
@[simp] theorem State.setRequest_nextBid (s : State) (r : Request) : (s.setRequest r).nextBid = s.nextBid := rfl
@[simp] theorem State.setRequest_placement (s : State) (r : Request) : (s.setRequest r).placement = s.placement := rfl
@[simp] theorem State.setRequest_pages (s : State) (r : Request) : (s.setRequest r).pages = s.pages := rfl
@[simp] theorem State.setRequest_notices (s : State) (r : Request) : (s.setRequest r).notices = s.notices := rfl
@[simp] theorem State.setRequest_vfs (s : State) (r : Request) : (s.setRequest r).vfs = s.vfs := rfl
@[simp] theorem State.setRequest_completion (s : State) (r : Request) : (s.setRequest r).completion = s.completion := rfl
@[simp] theorem State.setRequest_hostReply (s : State) (r : Request) : (s.setRequest r).hostReply = s.hostReply := rfl
@[simp] theorem State.setRequest_hdm (s : State) (r : Request) : (s.setRequest r).hdm = s.hdm := rfl
@[simp] theorem State.setRequest_ports (s : State) (r : Request) : (s.setRequest r).ports = s.ports := rfl
@[simp] theorem State.setRequest_qps (s : State) (r : Request) : (s.setRequest r).qps = s.qps := rfl
@[simp] theorem State.setRequest_routes (s : State) (r : Request) : (s.setRequest r).routes = s.routes := rfl
@[simp] theorem State.setRequest_linkUp (s : State) (r : Request) : (s.setRequest r).linkUp = s.linkUp := rfl
@[simp] theorem State.setRequest_pkg (s : State) (r : Request) : (s.setRequest r).pkg = s.pkg := rfl
@[simp] theorem State.setRequest_tick (s : State) (r : Request) : (s.setRequest r).tick = s.tick := rfl
@[simp] theorem State.setRequest_time3 (s : State) (r : Request) : (s.setRequest r).time3 = s.time3 := rfl
@[simp] theorem State.setRequest_timeValid (s : State) (r : Request) : (s.setRequest r).timeValid = s.timeValid := rfl
@[simp] theorem State.setRequest_dies (s : State) (r : Request) : (s.setRequest r).dies = s.dies := rfl
@[simp] theorem State.setRequest_foreign (s : State) (r : Request) : (s.setRequest r).foreign = s.foreign := rfl
@[simp] theorem State.setRequest_leaders (s : State) (r : Request) : (s.setRequest r).leaders = s.leaders := rfl
@[simp] theorem State.setRequest_announced (s : State) (r : Request) : (s.setRequest r).announced = s.announced := rfl
@[simp] theorem State.setRequest_hbm (s : State) (r : Request) : (s.setRequest r).hbm = s.hbm := rfl
@[simp] theorem State.setRequest_inlet (s : State) (r : Request) : (s.setRequest r).inlet = s.inlet := rfl
@[simp] theorem State.setRequest_halted (s : State) (r : Request) : (s.setRequest r).halted = s.halted := rfl
@[simp] theorem State.setRequest_boot (s : State) (r : Request) : (s.setRequest r).boot = s.boot := rfl
@[simp] theorem State.setRequest_events (s : State) (r : Request) : (s.setRequest r).events = s.events := rfl
@[simp] theorem State.setRequest_cur (s : State) (r : Request) : (s.setRequest r).cur = s.cur := rfl
@[simp] theorem State.setRequest_phase (s : State) (r : Request) : (s.setRequest r).phase = s.phase := rfl
@[simp] theorem State.setRequest_core (s : State) (r : Request) : (s.setRequest r).core = s.core := rfl
@[simp] theorem State.setRequest_heads (s : State) (r : Request) : (s.setRequest r).heads = s.heads := rfl
@[simp] theorem State.setRequest_agenda (s : State) (r : Request) : (s.setRequest r).agenda = s.agenda := rfl
@[simp] theorem State.setRequest_blocked (s : State) (r : Request) : (s.setRequest r).blocked = s.blocked := rfl
@[simp] theorem State.setRequest_outHeld (s : State) (r : Request) : (s.setRequest r).outHeld = s.outHeld := rfl
@[simp] theorem State.setRequest_freeCtr (s : State) (r : Request) : (s.setRequest r).freeCtr = s.freeCtr := rfl

/-! ### `State.setCopy` -/

@[simp] theorem State.setCopy_strands (s : State) (c : CopyOp) : (s.setCopy c).strands = s.strands := rfl
@[simp] theorem State.setCopy_mem (s : State) (c : CopyOp) : (s.setCopy c).mem = s.mem := rfl
@[simp] theorem State.setCopy_lines (s : State) (c : CopyOp) : (s.setCopy c).lines = s.lines := rfl
@[simp] theorem State.setCopy_redirects (s : State) (c : CopyOp) : (s.setCopy c).redirects = s.redirects := rfl
@[simp] theorem State.setCopy_soft (s : State) (c : CopyOp) : (s.setCopy c).soft = s.soft := rfl
@[simp] theorem State.setCopy_roots (s : State) (c : CopyOp) : (s.setCopy c).roots = s.roots := rfl
@[simp] theorem State.setCopy_tlb (s : State) (c : CopyOp) : (s.setCopy c).tlb = s.tlb := rfl
@[simp] theorem State.setCopy_owners (s : State) (c : CopyOp) : (s.setCopy c).owners = s.owners := rfl
@[simp] theorem State.setCopy_svcs (s : State) (c : CopyOp) : (s.setCopy c).svcs = s.svcs := rfl
@[simp] theorem State.setCopy_requests (s : State) (c : CopyOp) : (s.setCopy c).requests = s.requests := rfl
@[simp] theorem State.setCopy_replies (s : State) (c : CopyOp) : (s.setCopy c).replies = s.replies := rfl
@[simp] theorem State.setCopy_keystones (s : State) (c : CopyOp) : (s.setCopy c).keystones = s.keystones := rfl
@[simp] theorem State.setCopy_nextRid (s : State) (c : CopyOp) : (s.setCopy c).nextRid = s.nextRid := rfl
@[simp] theorem State.setCopy_nextCid (s : State) (c : CopyOp) : (s.setCopy c).nextCid = s.nextCid := rfl
@[simp] theorem State.setCopy_gangs (s : State) (c : CopyOp) : (s.setCopy c).gangs = s.gangs := rfl
@[simp] theorem State.setCopy_barriers (s : State) (c : CopyOp) : (s.setCopy c).barriers = s.barriers := rfl
@[simp] theorem State.setCopy_arrivals (s : State) (c : CopyOp) : (s.setCopy c).arrivals = s.arrivals := rfl
@[simp] theorem State.setCopy_cards (s : State) (c : CopyOp) : (s.setCopy c).cards = s.cards := rfl
@[simp] theorem State.setCopy_queues (s : State) (c : CopyOp) : (s.setCopy c).queues = s.queues := rfl
@[simp] theorem State.setCopy_offers (s : State) (c : CopyOp) : (s.setCopy c).offers = s.offers := rfl
@[simp] theorem State.setCopy_slots (s : State) (c : CopyOp) : (s.setCopy c).slots = s.slots := rfl
@[simp] theorem State.setCopy_vault (s : State) (c : CopyOp) : (s.setCopy c).vault = s.vault := rfl
@[simp] theorem State.setCopy_vaultMem (s : State) (c : CopyOp) : (s.setCopy c).vaultMem = s.vaultMem := rfl
@[simp] theorem State.setCopy_spillNext (s : State) (c : CopyOp) : (s.setCopy c).spillNext = s.spillNext := rfl
@[simp] theorem State.setCopy_saves (s : State) (c : CopyOp) : (s.setCopy c).saves = s.saves := rfl
@[simp] theorem State.setCopy_vacates (s : State) (c : CopyOp) : (s.setCopy c).vacates = s.vacates := rfl
@[simp] theorem State.setCopy_watchdog (s : State) (c : CopyOp) : (s.setCopy c).watchdog = s.watchdog := rfl
@[simp] theorem State.setCopy_reports (s : State) (c : CopyOp) : (s.setCopy c).reports = s.reports := rfl
@[simp] theorem State.setCopy_nextCard (s : State) (c : CopyOp) : (s.setCopy c).nextCard = s.nextCard := rfl
@[simp] theorem State.setCopy_nextBid (s : State) (c : CopyOp) : (s.setCopy c).nextBid = s.nextBid := rfl
@[simp] theorem State.setCopy_placement (s : State) (c : CopyOp) : (s.setCopy c).placement = s.placement := rfl
@[simp] theorem State.setCopy_pages (s : State) (c : CopyOp) : (s.setCopy c).pages = s.pages := rfl
@[simp] theorem State.setCopy_notices (s : State) (c : CopyOp) : (s.setCopy c).notices = s.notices := rfl
@[simp] theorem State.setCopy_vfs (s : State) (c : CopyOp) : (s.setCopy c).vfs = s.vfs := rfl
@[simp] theorem State.setCopy_completion (s : State) (c : CopyOp) : (s.setCopy c).completion = s.completion := rfl
@[simp] theorem State.setCopy_hostReply (s : State) (c : CopyOp) : (s.setCopy c).hostReply = s.hostReply := rfl
@[simp] theorem State.setCopy_hdm (s : State) (c : CopyOp) : (s.setCopy c).hdm = s.hdm := rfl
@[simp] theorem State.setCopy_ports (s : State) (c : CopyOp) : (s.setCopy c).ports = s.ports := rfl
@[simp] theorem State.setCopy_qps (s : State) (c : CopyOp) : (s.setCopy c).qps = s.qps := rfl
@[simp] theorem State.setCopy_routes (s : State) (c : CopyOp) : (s.setCopy c).routes = s.routes := rfl
@[simp] theorem State.setCopy_linkUp (s : State) (c : CopyOp) : (s.setCopy c).linkUp = s.linkUp := rfl
@[simp] theorem State.setCopy_pkg (s : State) (c : CopyOp) : (s.setCopy c).pkg = s.pkg := rfl
@[simp] theorem State.setCopy_tick (s : State) (c : CopyOp) : (s.setCopy c).tick = s.tick := rfl
@[simp] theorem State.setCopy_time3 (s : State) (c : CopyOp) : (s.setCopy c).time3 = s.time3 := rfl
@[simp] theorem State.setCopy_timeValid (s : State) (c : CopyOp) : (s.setCopy c).timeValid = s.timeValid := rfl
@[simp] theorem State.setCopy_dies (s : State) (c : CopyOp) : (s.setCopy c).dies = s.dies := rfl
@[simp] theorem State.setCopy_foreign (s : State) (c : CopyOp) : (s.setCopy c).foreign = s.foreign := rfl
@[simp] theorem State.setCopy_leaders (s : State) (c : CopyOp) : (s.setCopy c).leaders = s.leaders := rfl
@[simp] theorem State.setCopy_announced (s : State) (c : CopyOp) : (s.setCopy c).announced = s.announced := rfl
@[simp] theorem State.setCopy_hbm (s : State) (c : CopyOp) : (s.setCopy c).hbm = s.hbm := rfl
@[simp] theorem State.setCopy_inlet (s : State) (c : CopyOp) : (s.setCopy c).inlet = s.inlet := rfl
@[simp] theorem State.setCopy_halted (s : State) (c : CopyOp) : (s.setCopy c).halted = s.halted := rfl
@[simp] theorem State.setCopy_boot (s : State) (c : CopyOp) : (s.setCopy c).boot = s.boot := rfl
@[simp] theorem State.setCopy_events (s : State) (c : CopyOp) : (s.setCopy c).events = s.events := rfl
@[simp] theorem State.setCopy_cur (s : State) (c : CopyOp) : (s.setCopy c).cur = s.cur := rfl
@[simp] theorem State.setCopy_phase (s : State) (c : CopyOp) : (s.setCopy c).phase = s.phase := rfl
@[simp] theorem State.setCopy_core (s : State) (c : CopyOp) : (s.setCopy c).core = s.core := rfl
@[simp] theorem State.setCopy_heads (s : State) (c : CopyOp) : (s.setCopy c).heads = s.heads := rfl
@[simp] theorem State.setCopy_agenda (s : State) (c : CopyOp) : (s.setCopy c).agenda = s.agenda := rfl
@[simp] theorem State.setCopy_blocked (s : State) (c : CopyOp) : (s.setCopy c).blocked = s.blocked := rfl
@[simp] theorem State.setCopy_outHeld (s : State) (c : CopyOp) : (s.setCopy c).outHeld = s.outHeld := rfl
@[simp] theorem State.setCopy_freeCtr (s : State) (c : CopyOp) : (s.setCopy c).freeCtr = s.freeCtr := rfl

/-! ### `State.setPage` -/

@[simp] theorem State.setPage_strands (s : State) (a : BitVec 16) (f : Page → Page) : (s.setPage a f).strands = s.strands := rfl
@[simp] theorem State.setPage_mem (s : State) (a : BitVec 16) (f : Page → Page) : (s.setPage a f).mem = s.mem := rfl
@[simp] theorem State.setPage_lines (s : State) (a : BitVec 16) (f : Page → Page) : (s.setPage a f).lines = s.lines := rfl
@[simp] theorem State.setPage_redirects (s : State) (a : BitVec 16) (f : Page → Page) : (s.setPage a f).redirects = s.redirects := rfl
@[simp] theorem State.setPage_soft (s : State) (a : BitVec 16) (f : Page → Page) : (s.setPage a f).soft = s.soft := rfl
@[simp] theorem State.setPage_roots (s : State) (a : BitVec 16) (f : Page → Page) : (s.setPage a f).roots = s.roots := rfl
@[simp] theorem State.setPage_tlb (s : State) (a : BitVec 16) (f : Page → Page) : (s.setPage a f).tlb = s.tlb := rfl
@[simp] theorem State.setPage_owners (s : State) (a : BitVec 16) (f : Page → Page) : (s.setPage a f).owners = s.owners := rfl
@[simp] theorem State.setPage_svcs (s : State) (a : BitVec 16) (f : Page → Page) : (s.setPage a f).svcs = s.svcs := rfl
@[simp] theorem State.setPage_requests (s : State) (a : BitVec 16) (f : Page → Page) : (s.setPage a f).requests = s.requests := rfl
@[simp] theorem State.setPage_replies (s : State) (a : BitVec 16) (f : Page → Page) : (s.setPage a f).replies = s.replies := rfl
@[simp] theorem State.setPage_keystones (s : State) (a : BitVec 16) (f : Page → Page) : (s.setPage a f).keystones = s.keystones := rfl
@[simp] theorem State.setPage_copies (s : State) (a : BitVec 16) (f : Page → Page) : (s.setPage a f).copies = s.copies := rfl
@[simp] theorem State.setPage_nextRid (s : State) (a : BitVec 16) (f : Page → Page) : (s.setPage a f).nextRid = s.nextRid := rfl
@[simp] theorem State.setPage_nextCid (s : State) (a : BitVec 16) (f : Page → Page) : (s.setPage a f).nextCid = s.nextCid := rfl
@[simp] theorem State.setPage_gangs (s : State) (a : BitVec 16) (f : Page → Page) : (s.setPage a f).gangs = s.gangs := rfl
@[simp] theorem State.setPage_barriers (s : State) (a : BitVec 16) (f : Page → Page) : (s.setPage a f).barriers = s.barriers := rfl
@[simp] theorem State.setPage_arrivals (s : State) (a : BitVec 16) (f : Page → Page) : (s.setPage a f).arrivals = s.arrivals := rfl
@[simp] theorem State.setPage_cards (s : State) (a : BitVec 16) (f : Page → Page) : (s.setPage a f).cards = s.cards := rfl
@[simp] theorem State.setPage_queues (s : State) (a : BitVec 16) (f : Page → Page) : (s.setPage a f).queues = s.queues := rfl
@[simp] theorem State.setPage_offers (s : State) (a : BitVec 16) (f : Page → Page) : (s.setPage a f).offers = s.offers := rfl
@[simp] theorem State.setPage_slots (s : State) (a : BitVec 16) (f : Page → Page) : (s.setPage a f).slots = s.slots := rfl
@[simp] theorem State.setPage_vault (s : State) (a : BitVec 16) (f : Page → Page) : (s.setPage a f).vault = s.vault := rfl
@[simp] theorem State.setPage_vaultMem (s : State) (a : BitVec 16) (f : Page → Page) : (s.setPage a f).vaultMem = s.vaultMem := rfl
@[simp] theorem State.setPage_spillNext (s : State) (a : BitVec 16) (f : Page → Page) : (s.setPage a f).spillNext = s.spillNext := rfl
@[simp] theorem State.setPage_saves (s : State) (a : BitVec 16) (f : Page → Page) : (s.setPage a f).saves = s.saves := rfl
@[simp] theorem State.setPage_vacates (s : State) (a : BitVec 16) (f : Page → Page) : (s.setPage a f).vacates = s.vacates := rfl
@[simp] theorem State.setPage_watchdog (s : State) (a : BitVec 16) (f : Page → Page) : (s.setPage a f).watchdog = s.watchdog := rfl
@[simp] theorem State.setPage_reports (s : State) (a : BitVec 16) (f : Page → Page) : (s.setPage a f).reports = s.reports := rfl
@[simp] theorem State.setPage_nextCard (s : State) (a : BitVec 16) (f : Page → Page) : (s.setPage a f).nextCard = s.nextCard := rfl
@[simp] theorem State.setPage_nextBid (s : State) (a : BitVec 16) (f : Page → Page) : (s.setPage a f).nextBid = s.nextBid := rfl
@[simp] theorem State.setPage_placement (s : State) (a : BitVec 16) (f : Page → Page) : (s.setPage a f).placement = s.placement := rfl
@[simp] theorem State.setPage_notices (s : State) (a : BitVec 16) (f : Page → Page) : (s.setPage a f).notices = s.notices := rfl
@[simp] theorem State.setPage_vfs (s : State) (a : BitVec 16) (f : Page → Page) : (s.setPage a f).vfs = s.vfs := rfl
@[simp] theorem State.setPage_completion (s : State) (a : BitVec 16) (f : Page → Page) : (s.setPage a f).completion = s.completion := rfl
@[simp] theorem State.setPage_hostReply (s : State) (a : BitVec 16) (f : Page → Page) : (s.setPage a f).hostReply = s.hostReply := rfl
@[simp] theorem State.setPage_hdm (s : State) (a : BitVec 16) (f : Page → Page) : (s.setPage a f).hdm = s.hdm := rfl
@[simp] theorem State.setPage_ports (s : State) (a : BitVec 16) (f : Page → Page) : (s.setPage a f).ports = s.ports := rfl
@[simp] theorem State.setPage_qps (s : State) (a : BitVec 16) (f : Page → Page) : (s.setPage a f).qps = s.qps := rfl
@[simp] theorem State.setPage_routes (s : State) (a : BitVec 16) (f : Page → Page) : (s.setPage a f).routes = s.routes := rfl
@[simp] theorem State.setPage_linkUp (s : State) (a : BitVec 16) (f : Page → Page) : (s.setPage a f).linkUp = s.linkUp := rfl
@[simp] theorem State.setPage_pkg (s : State) (a : BitVec 16) (f : Page → Page) : (s.setPage a f).pkg = s.pkg := rfl
@[simp] theorem State.setPage_tick (s : State) (a : BitVec 16) (f : Page → Page) : (s.setPage a f).tick = s.tick := rfl
@[simp] theorem State.setPage_time3 (s : State) (a : BitVec 16) (f : Page → Page) : (s.setPage a f).time3 = s.time3 := rfl
@[simp] theorem State.setPage_timeValid (s : State) (a : BitVec 16) (f : Page → Page) : (s.setPage a f).timeValid = s.timeValid := rfl
@[simp] theorem State.setPage_dies (s : State) (a : BitVec 16) (f : Page → Page) : (s.setPage a f).dies = s.dies := rfl
@[simp] theorem State.setPage_foreign (s : State) (a : BitVec 16) (f : Page → Page) : (s.setPage a f).foreign = s.foreign := rfl
@[simp] theorem State.setPage_leaders (s : State) (a : BitVec 16) (f : Page → Page) : (s.setPage a f).leaders = s.leaders := rfl
@[simp] theorem State.setPage_announced (s : State) (a : BitVec 16) (f : Page → Page) : (s.setPage a f).announced = s.announced := rfl
@[simp] theorem State.setPage_hbm (s : State) (a : BitVec 16) (f : Page → Page) : (s.setPage a f).hbm = s.hbm := rfl
@[simp] theorem State.setPage_inlet (s : State) (a : BitVec 16) (f : Page → Page) : (s.setPage a f).inlet = s.inlet := rfl
@[simp] theorem State.setPage_halted (s : State) (a : BitVec 16) (f : Page → Page) : (s.setPage a f).halted = s.halted := rfl
@[simp] theorem State.setPage_boot (s : State) (a : BitVec 16) (f : Page → Page) : (s.setPage a f).boot = s.boot := rfl
@[simp] theorem State.setPage_events (s : State) (a : BitVec 16) (f : Page → Page) : (s.setPage a f).events = s.events := rfl
@[simp] theorem State.setPage_cur (s : State) (a : BitVec 16) (f : Page → Page) : (s.setPage a f).cur = s.cur := rfl
@[simp] theorem State.setPage_phase (s : State) (a : BitVec 16) (f : Page → Page) : (s.setPage a f).phase = s.phase := rfl
@[simp] theorem State.setPage_core (s : State) (a : BitVec 16) (f : Page → Page) : (s.setPage a f).core = s.core := rfl
@[simp] theorem State.setPage_heads (s : State) (a : BitVec 16) (f : Page → Page) : (s.setPage a f).heads = s.heads := rfl
@[simp] theorem State.setPage_agenda (s : State) (a : BitVec 16) (f : Page → Page) : (s.setPage a f).agenda = s.agenda := rfl
@[simp] theorem State.setPage_blocked (s : State) (a : BitVec 16) (f : Page → Page) : (s.setPage a f).blocked = s.blocked := rfl
@[simp] theorem State.setPage_outHeld (s : State) (a : BitVec 16) (f : Page → Page) : (s.setPage a f).outHeld = s.outHeld := rfl
@[simp] theorem State.setPage_freeCtr (s : State) (a : BitVec 16) (f : Page → Page) : (s.setPage a f).freeCtr = s.freeCtr := rfl

/-! ### `State.setQp` -/

@[simp] theorem State.setQp_strands (s : State) (q : Qp) : (s.setQp q).strands = s.strands := rfl
@[simp] theorem State.setQp_mem (s : State) (q : Qp) : (s.setQp q).mem = s.mem := rfl
@[simp] theorem State.setQp_lines (s : State) (q : Qp) : (s.setQp q).lines = s.lines := rfl
@[simp] theorem State.setQp_redirects (s : State) (q : Qp) : (s.setQp q).redirects = s.redirects := rfl
@[simp] theorem State.setQp_soft (s : State) (q : Qp) : (s.setQp q).soft = s.soft := rfl
@[simp] theorem State.setQp_roots (s : State) (q : Qp) : (s.setQp q).roots = s.roots := rfl
@[simp] theorem State.setQp_tlb (s : State) (q : Qp) : (s.setQp q).tlb = s.tlb := rfl
@[simp] theorem State.setQp_owners (s : State) (q : Qp) : (s.setQp q).owners = s.owners := rfl
@[simp] theorem State.setQp_svcs (s : State) (q : Qp) : (s.setQp q).svcs = s.svcs := rfl
@[simp] theorem State.setQp_requests (s : State) (q : Qp) : (s.setQp q).requests = s.requests := rfl
@[simp] theorem State.setQp_replies (s : State) (q : Qp) : (s.setQp q).replies = s.replies := rfl
@[simp] theorem State.setQp_keystones (s : State) (q : Qp) : (s.setQp q).keystones = s.keystones := rfl
@[simp] theorem State.setQp_copies (s : State) (q : Qp) : (s.setQp q).copies = s.copies := rfl
@[simp] theorem State.setQp_nextRid (s : State) (q : Qp) : (s.setQp q).nextRid = s.nextRid := rfl
@[simp] theorem State.setQp_nextCid (s : State) (q : Qp) : (s.setQp q).nextCid = s.nextCid := rfl
@[simp] theorem State.setQp_gangs (s : State) (q : Qp) : (s.setQp q).gangs = s.gangs := rfl
@[simp] theorem State.setQp_barriers (s : State) (q : Qp) : (s.setQp q).barriers = s.barriers := rfl
@[simp] theorem State.setQp_arrivals (s : State) (q : Qp) : (s.setQp q).arrivals = s.arrivals := rfl
@[simp] theorem State.setQp_cards (s : State) (q : Qp) : (s.setQp q).cards = s.cards := rfl
@[simp] theorem State.setQp_queues (s : State) (q : Qp) : (s.setQp q).queues = s.queues := rfl
@[simp] theorem State.setQp_offers (s : State) (q : Qp) : (s.setQp q).offers = s.offers := rfl
@[simp] theorem State.setQp_slots (s : State) (q : Qp) : (s.setQp q).slots = s.slots := rfl
@[simp] theorem State.setQp_vault (s : State) (q : Qp) : (s.setQp q).vault = s.vault := rfl
@[simp] theorem State.setQp_vaultMem (s : State) (q : Qp) : (s.setQp q).vaultMem = s.vaultMem := rfl
@[simp] theorem State.setQp_spillNext (s : State) (q : Qp) : (s.setQp q).spillNext = s.spillNext := rfl
@[simp] theorem State.setQp_saves (s : State) (q : Qp) : (s.setQp q).saves = s.saves := rfl
@[simp] theorem State.setQp_vacates (s : State) (q : Qp) : (s.setQp q).vacates = s.vacates := rfl
@[simp] theorem State.setQp_watchdog (s : State) (q : Qp) : (s.setQp q).watchdog = s.watchdog := rfl
@[simp] theorem State.setQp_reports (s : State) (q : Qp) : (s.setQp q).reports = s.reports := rfl
@[simp] theorem State.setQp_nextCard (s : State) (q : Qp) : (s.setQp q).nextCard = s.nextCard := rfl
@[simp] theorem State.setQp_nextBid (s : State) (q : Qp) : (s.setQp q).nextBid = s.nextBid := rfl
@[simp] theorem State.setQp_placement (s : State) (q : Qp) : (s.setQp q).placement = s.placement := rfl
@[simp] theorem State.setQp_pages (s : State) (q : Qp) : (s.setQp q).pages = s.pages := rfl
@[simp] theorem State.setQp_notices (s : State) (q : Qp) : (s.setQp q).notices = s.notices := rfl
@[simp] theorem State.setQp_vfs (s : State) (q : Qp) : (s.setQp q).vfs = s.vfs := rfl
@[simp] theorem State.setQp_completion (s : State) (q : Qp) : (s.setQp q).completion = s.completion := rfl
@[simp] theorem State.setQp_hostReply (s : State) (q : Qp) : (s.setQp q).hostReply = s.hostReply := rfl
@[simp] theorem State.setQp_hdm (s : State) (q : Qp) : (s.setQp q).hdm = s.hdm := rfl
@[simp] theorem State.setQp_ports (s : State) (q : Qp) : (s.setQp q).ports = s.ports := rfl
@[simp] theorem State.setQp_routes (s : State) (q : Qp) : (s.setQp q).routes = s.routes := rfl
@[simp] theorem State.setQp_linkUp (s : State) (q : Qp) : (s.setQp q).linkUp = s.linkUp := rfl
@[simp] theorem State.setQp_pkg (s : State) (q : Qp) : (s.setQp q).pkg = s.pkg := rfl
@[simp] theorem State.setQp_tick (s : State) (q : Qp) : (s.setQp q).tick = s.tick := rfl
@[simp] theorem State.setQp_time3 (s : State) (q : Qp) : (s.setQp q).time3 = s.time3 := rfl
@[simp] theorem State.setQp_timeValid (s : State) (q : Qp) : (s.setQp q).timeValid = s.timeValid := rfl
@[simp] theorem State.setQp_dies (s : State) (q : Qp) : (s.setQp q).dies = s.dies := rfl
@[simp] theorem State.setQp_foreign (s : State) (q : Qp) : (s.setQp q).foreign = s.foreign := rfl
@[simp] theorem State.setQp_leaders (s : State) (q : Qp) : (s.setQp q).leaders = s.leaders := rfl
@[simp] theorem State.setQp_announced (s : State) (q : Qp) : (s.setQp q).announced = s.announced := rfl
@[simp] theorem State.setQp_hbm (s : State) (q : Qp) : (s.setQp q).hbm = s.hbm := rfl
@[simp] theorem State.setQp_inlet (s : State) (q : Qp) : (s.setQp q).inlet = s.inlet := rfl
@[simp] theorem State.setQp_halted (s : State) (q : Qp) : (s.setQp q).halted = s.halted := rfl
@[simp] theorem State.setQp_boot (s : State) (q : Qp) : (s.setQp q).boot = s.boot := rfl
@[simp] theorem State.setQp_events (s : State) (q : Qp) : (s.setQp q).events = s.events := rfl
@[simp] theorem State.setQp_cur (s : State) (q : Qp) : (s.setQp q).cur = s.cur := rfl
@[simp] theorem State.setQp_phase (s : State) (q : Qp) : (s.setQp q).phase = s.phase := rfl
@[simp] theorem State.setQp_core (s : State) (q : Qp) : (s.setQp q).core = s.core := rfl
@[simp] theorem State.setQp_heads (s : State) (q : Qp) : (s.setQp q).heads = s.heads := rfl
@[simp] theorem State.setQp_agenda (s : State) (q : Qp) : (s.setQp q).agenda = s.agenda := rfl
@[simp] theorem State.setQp_blocked (s : State) (q : Qp) : (s.setQp q).blocked = s.blocked := rfl
@[simp] theorem State.setQp_outHeld (s : State) (q : Qp) : (s.setQp q).outHeld = s.outHeld := rfl
@[simp] theorem State.setQp_freeCtr (s : State) (q : Qp) : (s.setQp q).freeCtr = s.freeCtr := rfl

/-! ### `State.outsideDone` -/

@[simp] theorem State.outsideDone_strands (s : State) (k : Nat) : (s.outsideDone k).strands = s.strands := rfl
@[simp] theorem State.outsideDone_mem (s : State) (k : Nat) : (s.outsideDone k).mem = s.mem := rfl
@[simp] theorem State.outsideDone_lines (s : State) (k : Nat) : (s.outsideDone k).lines = s.lines := rfl
@[simp] theorem State.outsideDone_redirects (s : State) (k : Nat) : (s.outsideDone k).redirects = s.redirects := rfl
@[simp] theorem State.outsideDone_soft (s : State) (k : Nat) : (s.outsideDone k).soft = s.soft := rfl
@[simp] theorem State.outsideDone_roots (s : State) (k : Nat) : (s.outsideDone k).roots = s.roots := rfl
@[simp] theorem State.outsideDone_tlb (s : State) (k : Nat) : (s.outsideDone k).tlb = s.tlb := rfl
@[simp] theorem State.outsideDone_owners (s : State) (k : Nat) : (s.outsideDone k).owners = s.owners := rfl
@[simp] theorem State.outsideDone_requests (s : State) (k : Nat) : (s.outsideDone k).requests = s.requests := rfl
@[simp] theorem State.outsideDone_replies (s : State) (k : Nat) : (s.outsideDone k).replies = s.replies := rfl
@[simp] theorem State.outsideDone_keystones (s : State) (k : Nat) : (s.outsideDone k).keystones = s.keystones := rfl
@[simp] theorem State.outsideDone_copies (s : State) (k : Nat) : (s.outsideDone k).copies = s.copies := rfl
@[simp] theorem State.outsideDone_nextRid (s : State) (k : Nat) : (s.outsideDone k).nextRid = s.nextRid := rfl
@[simp] theorem State.outsideDone_nextCid (s : State) (k : Nat) : (s.outsideDone k).nextCid = s.nextCid := rfl
@[simp] theorem State.outsideDone_gangs (s : State) (k : Nat) : (s.outsideDone k).gangs = s.gangs := rfl
@[simp] theorem State.outsideDone_barriers (s : State) (k : Nat) : (s.outsideDone k).barriers = s.barriers := rfl
@[simp] theorem State.outsideDone_arrivals (s : State) (k : Nat) : (s.outsideDone k).arrivals = s.arrivals := rfl
@[simp] theorem State.outsideDone_cards (s : State) (k : Nat) : (s.outsideDone k).cards = s.cards := rfl
@[simp] theorem State.outsideDone_queues (s : State) (k : Nat) : (s.outsideDone k).queues = s.queues := rfl
@[simp] theorem State.outsideDone_offers (s : State) (k : Nat) : (s.outsideDone k).offers = s.offers := rfl
@[simp] theorem State.outsideDone_slots (s : State) (k : Nat) : (s.outsideDone k).slots = s.slots := rfl
@[simp] theorem State.outsideDone_vault (s : State) (k : Nat) : (s.outsideDone k).vault = s.vault := rfl
@[simp] theorem State.outsideDone_vaultMem (s : State) (k : Nat) : (s.outsideDone k).vaultMem = s.vaultMem := rfl
@[simp] theorem State.outsideDone_spillNext (s : State) (k : Nat) : (s.outsideDone k).spillNext = s.spillNext := rfl
@[simp] theorem State.outsideDone_saves (s : State) (k : Nat) : (s.outsideDone k).saves = s.saves := rfl
@[simp] theorem State.outsideDone_vacates (s : State) (k : Nat) : (s.outsideDone k).vacates = s.vacates := rfl
@[simp] theorem State.outsideDone_watchdog (s : State) (k : Nat) : (s.outsideDone k).watchdog = s.watchdog := rfl
@[simp] theorem State.outsideDone_reports (s : State) (k : Nat) : (s.outsideDone k).reports = s.reports := rfl
@[simp] theorem State.outsideDone_nextCard (s : State) (k : Nat) : (s.outsideDone k).nextCard = s.nextCard := rfl
@[simp] theorem State.outsideDone_nextBid (s : State) (k : Nat) : (s.outsideDone k).nextBid = s.nextBid := rfl
@[simp] theorem State.outsideDone_placement (s : State) (k : Nat) : (s.outsideDone k).placement = s.placement := rfl
@[simp] theorem State.outsideDone_pages (s : State) (k : Nat) : (s.outsideDone k).pages = s.pages := rfl
@[simp] theorem State.outsideDone_notices (s : State) (k : Nat) : (s.outsideDone k).notices = s.notices := rfl
@[simp] theorem State.outsideDone_vfs (s : State) (k : Nat) : (s.outsideDone k).vfs = s.vfs := rfl
@[simp] theorem State.outsideDone_completion (s : State) (k : Nat) : (s.outsideDone k).completion = s.completion := rfl
@[simp] theorem State.outsideDone_hostReply (s : State) (k : Nat) : (s.outsideDone k).hostReply = s.hostReply := rfl
@[simp] theorem State.outsideDone_hdm (s : State) (k : Nat) : (s.outsideDone k).hdm = s.hdm := rfl
@[simp] theorem State.outsideDone_ports (s : State) (k : Nat) : (s.outsideDone k).ports = s.ports := rfl
@[simp] theorem State.outsideDone_qps (s : State) (k : Nat) : (s.outsideDone k).qps = s.qps := rfl
@[simp] theorem State.outsideDone_routes (s : State) (k : Nat) : (s.outsideDone k).routes = s.routes := rfl
@[simp] theorem State.outsideDone_linkUp (s : State) (k : Nat) : (s.outsideDone k).linkUp = s.linkUp := rfl
@[simp] theorem State.outsideDone_pkg (s : State) (k : Nat) : (s.outsideDone k).pkg = s.pkg := rfl
@[simp] theorem State.outsideDone_tick (s : State) (k : Nat) : (s.outsideDone k).tick = s.tick := rfl
@[simp] theorem State.outsideDone_time3 (s : State) (k : Nat) : (s.outsideDone k).time3 = s.time3 := rfl
@[simp] theorem State.outsideDone_timeValid (s : State) (k : Nat) : (s.outsideDone k).timeValid = s.timeValid := rfl
@[simp] theorem State.outsideDone_dies (s : State) (k : Nat) : (s.outsideDone k).dies = s.dies := rfl
@[simp] theorem State.outsideDone_foreign (s : State) (k : Nat) : (s.outsideDone k).foreign = s.foreign := rfl
@[simp] theorem State.outsideDone_leaders (s : State) (k : Nat) : (s.outsideDone k).leaders = s.leaders := rfl
@[simp] theorem State.outsideDone_announced (s : State) (k : Nat) : (s.outsideDone k).announced = s.announced := rfl
@[simp] theorem State.outsideDone_hbm (s : State) (k : Nat) : (s.outsideDone k).hbm = s.hbm := rfl
@[simp] theorem State.outsideDone_inlet (s : State) (k : Nat) : (s.outsideDone k).inlet = s.inlet := rfl
@[simp] theorem State.outsideDone_halted (s : State) (k : Nat) : (s.outsideDone k).halted = s.halted := rfl
@[simp] theorem State.outsideDone_boot (s : State) (k : Nat) : (s.outsideDone k).boot = s.boot := rfl
@[simp] theorem State.outsideDone_events (s : State) (k : Nat) : (s.outsideDone k).events = s.events := rfl
@[simp] theorem State.outsideDone_cur (s : State) (k : Nat) : (s.outsideDone k).cur = s.cur := rfl
@[simp] theorem State.outsideDone_phase (s : State) (k : Nat) : (s.outsideDone k).phase = s.phase := rfl
@[simp] theorem State.outsideDone_core (s : State) (k : Nat) : (s.outsideDone k).core = s.core := rfl
@[simp] theorem State.outsideDone_heads (s : State) (k : Nat) : (s.outsideDone k).heads = s.heads := rfl
@[simp] theorem State.outsideDone_agenda (s : State) (k : Nat) : (s.outsideDone k).agenda = s.agenda := rfl
@[simp] theorem State.outsideDone_blocked (s : State) (k : Nat) : (s.outsideDone k).blocked = s.blocked := rfl
@[simp] theorem State.outsideDone_freeCtr (s : State) (k : Nat) : (s.outsideDone k).freeCtr = s.freeCtr := rfl

/-! ### `State.forgetGang` -/

@[simp] theorem State.forgetGang_strands (s : State) (h : BitVec 16) : (s.forgetGang h).strands = s.strands := rfl
@[simp] theorem State.forgetGang_mem (s : State) (h : BitVec 16) : (s.forgetGang h).mem = s.mem := rfl
@[simp] theorem State.forgetGang_lines (s : State) (h : BitVec 16) : (s.forgetGang h).lines = s.lines := rfl
@[simp] theorem State.forgetGang_redirects (s : State) (h : BitVec 16) : (s.forgetGang h).redirects = s.redirects := rfl
@[simp] theorem State.forgetGang_soft (s : State) (h : BitVec 16) : (s.forgetGang h).soft = s.soft := rfl
@[simp] theorem State.forgetGang_roots (s : State) (h : BitVec 16) : (s.forgetGang h).roots = s.roots := rfl
@[simp] theorem State.forgetGang_tlb (s : State) (h : BitVec 16) : (s.forgetGang h).tlb = s.tlb := rfl
@[simp] theorem State.forgetGang_owners (s : State) (h : BitVec 16) : (s.forgetGang h).owners = s.owners := rfl
@[simp] theorem State.forgetGang_svcs (s : State) (h : BitVec 16) : (s.forgetGang h).svcs = s.svcs := rfl
@[simp] theorem State.forgetGang_requests (s : State) (h : BitVec 16) : (s.forgetGang h).requests = s.requests := rfl
@[simp] theorem State.forgetGang_replies (s : State) (h : BitVec 16) : (s.forgetGang h).replies = s.replies := rfl
@[simp] theorem State.forgetGang_keystones (s : State) (h : BitVec 16) : (s.forgetGang h).keystones = s.keystones := rfl
@[simp] theorem State.forgetGang_copies (s : State) (h : BitVec 16) : (s.forgetGang h).copies = s.copies := rfl
@[simp] theorem State.forgetGang_nextRid (s : State) (h : BitVec 16) : (s.forgetGang h).nextRid = s.nextRid := rfl
@[simp] theorem State.forgetGang_nextCid (s : State) (h : BitVec 16) : (s.forgetGang h).nextCid = s.nextCid := rfl
@[simp] theorem State.forgetGang_barriers (s : State) (h : BitVec 16) : (s.forgetGang h).barriers = s.barriers := rfl
@[simp] theorem State.forgetGang_arrivals (s : State) (h : BitVec 16) : (s.forgetGang h).arrivals = s.arrivals := rfl
@[simp] theorem State.forgetGang_cards (s : State) (h : BitVec 16) : (s.forgetGang h).cards = s.cards := rfl
@[simp] theorem State.forgetGang_queues (s : State) (h : BitVec 16) : (s.forgetGang h).queues = s.queues := rfl
@[simp] theorem State.forgetGang_offers (s : State) (h : BitVec 16) : (s.forgetGang h).offers = s.offers := rfl
@[simp] theorem State.forgetGang_slots (s : State) (h : BitVec 16) : (s.forgetGang h).slots = s.slots := rfl
@[simp] theorem State.forgetGang_vault (s : State) (h : BitVec 16) : (s.forgetGang h).vault = s.vault := rfl
@[simp] theorem State.forgetGang_vaultMem (s : State) (h : BitVec 16) : (s.forgetGang h).vaultMem = s.vaultMem := rfl
@[simp] theorem State.forgetGang_spillNext (s : State) (h : BitVec 16) : (s.forgetGang h).spillNext = s.spillNext := rfl
@[simp] theorem State.forgetGang_saves (s : State) (h : BitVec 16) : (s.forgetGang h).saves = s.saves := rfl
@[simp] theorem State.forgetGang_watchdog (s : State) (h : BitVec 16) : (s.forgetGang h).watchdog = s.watchdog := rfl
@[simp] theorem State.forgetGang_reports (s : State) (h : BitVec 16) : (s.forgetGang h).reports = s.reports := rfl
@[simp] theorem State.forgetGang_nextCard (s : State) (h : BitVec 16) : (s.forgetGang h).nextCard = s.nextCard := rfl
@[simp] theorem State.forgetGang_nextBid (s : State) (h : BitVec 16) : (s.forgetGang h).nextBid = s.nextBid := rfl
@[simp] theorem State.forgetGang_placement (s : State) (h : BitVec 16) : (s.forgetGang h).placement = s.placement := rfl
@[simp] theorem State.forgetGang_pages (s : State) (h : BitVec 16) : (s.forgetGang h).pages = s.pages := rfl
@[simp] theorem State.forgetGang_notices (s : State) (h : BitVec 16) : (s.forgetGang h).notices = s.notices := rfl
@[simp] theorem State.forgetGang_vfs (s : State) (h : BitVec 16) : (s.forgetGang h).vfs = s.vfs := rfl
@[simp] theorem State.forgetGang_completion (s : State) (h : BitVec 16) : (s.forgetGang h).completion = s.completion := rfl
@[simp] theorem State.forgetGang_hostReply (s : State) (h : BitVec 16) : (s.forgetGang h).hostReply = s.hostReply := rfl
@[simp] theorem State.forgetGang_hdm (s : State) (h : BitVec 16) : (s.forgetGang h).hdm = s.hdm := rfl
@[simp] theorem State.forgetGang_ports (s : State) (h : BitVec 16) : (s.forgetGang h).ports = s.ports := rfl
@[simp] theorem State.forgetGang_qps (s : State) (h : BitVec 16) : (s.forgetGang h).qps = s.qps := rfl
@[simp] theorem State.forgetGang_routes (s : State) (h : BitVec 16) : (s.forgetGang h).routes = s.routes := rfl
@[simp] theorem State.forgetGang_linkUp (s : State) (h : BitVec 16) : (s.forgetGang h).linkUp = s.linkUp := rfl
@[simp] theorem State.forgetGang_pkg (s : State) (h : BitVec 16) : (s.forgetGang h).pkg = s.pkg := rfl
@[simp] theorem State.forgetGang_tick (s : State) (h : BitVec 16) : (s.forgetGang h).tick = s.tick := rfl
@[simp] theorem State.forgetGang_time3 (s : State) (h : BitVec 16) : (s.forgetGang h).time3 = s.time3 := rfl
@[simp] theorem State.forgetGang_timeValid (s : State) (h : BitVec 16) : (s.forgetGang h).timeValid = s.timeValid := rfl
@[simp] theorem State.forgetGang_dies (s : State) (h : BitVec 16) : (s.forgetGang h).dies = s.dies := rfl
@[simp] theorem State.forgetGang_foreign (s : State) (h : BitVec 16) : (s.forgetGang h).foreign = s.foreign := rfl
@[simp] theorem State.forgetGang_leaders (s : State) (h : BitVec 16) : (s.forgetGang h).leaders = s.leaders := rfl
@[simp] theorem State.forgetGang_announced (s : State) (h : BitVec 16) : (s.forgetGang h).announced = s.announced := rfl
@[simp] theorem State.forgetGang_hbm (s : State) (h : BitVec 16) : (s.forgetGang h).hbm = s.hbm := rfl
@[simp] theorem State.forgetGang_inlet (s : State) (h : BitVec 16) : (s.forgetGang h).inlet = s.inlet := rfl
@[simp] theorem State.forgetGang_halted (s : State) (h : BitVec 16) : (s.forgetGang h).halted = s.halted := rfl
@[simp] theorem State.forgetGang_boot (s : State) (h : BitVec 16) : (s.forgetGang h).boot = s.boot := rfl
@[simp] theorem State.forgetGang_events (s : State) (h : BitVec 16) : (s.forgetGang h).events = s.events := rfl
@[simp] theorem State.forgetGang_cur (s : State) (h : BitVec 16) : (s.forgetGang h).cur = s.cur := rfl
@[simp] theorem State.forgetGang_phase (s : State) (h : BitVec 16) : (s.forgetGang h).phase = s.phase := rfl
@[simp] theorem State.forgetGang_core (s : State) (h : BitVec 16) : (s.forgetGang h).core = s.core := rfl
@[simp] theorem State.forgetGang_heads (s : State) (h : BitVec 16) : (s.forgetGang h).heads = s.heads := rfl
@[simp] theorem State.forgetGang_agenda (s : State) (h : BitVec 16) : (s.forgetGang h).agenda = s.agenda := rfl
@[simp] theorem State.forgetGang_blocked (s : State) (h : BitVec 16) : (s.forgetGang h).blocked = s.blocked := rfl
@[simp] theorem State.forgetGang_outHeld (s : State) (h : BitVec 16) : (s.forgetGang h).outHeld = s.outHeld := rfl
@[simp] theorem State.forgetGang_freeCtr (s : State) (h : BitVec 16) : (s.forgetGang h).freeCtr = s.freeCtr := rfl

/-! ### `State.stall` -/

@[simp] theorem State.stall_mem (s : State) (t : Strand) : (s.stall t).mem = s.mem := rfl
@[simp] theorem State.stall_lines (s : State) (t : Strand) : (s.stall t).lines = s.lines := rfl
@[simp] theorem State.stall_redirects (s : State) (t : Strand) : (s.stall t).redirects = s.redirects := rfl
@[simp] theorem State.stall_soft (s : State) (t : Strand) : (s.stall t).soft = s.soft := rfl
@[simp] theorem State.stall_roots (s : State) (t : Strand) : (s.stall t).roots = s.roots := rfl
@[simp] theorem State.stall_tlb (s : State) (t : Strand) : (s.stall t).tlb = s.tlb := rfl
@[simp] theorem State.stall_owners (s : State) (t : Strand) : (s.stall t).owners = s.owners := rfl
@[simp] theorem State.stall_svcs (s : State) (t : Strand) : (s.stall t).svcs = s.svcs := rfl
@[simp] theorem State.stall_requests (s : State) (t : Strand) : (s.stall t).requests = s.requests := rfl
@[simp] theorem State.stall_replies (s : State) (t : Strand) : (s.stall t).replies = s.replies := rfl
@[simp] theorem State.stall_keystones (s : State) (t : Strand) : (s.stall t).keystones = s.keystones := rfl
@[simp] theorem State.stall_copies (s : State) (t : Strand) : (s.stall t).copies = s.copies := rfl
@[simp] theorem State.stall_nextRid (s : State) (t : Strand) : (s.stall t).nextRid = s.nextRid := rfl
@[simp] theorem State.stall_nextCid (s : State) (t : Strand) : (s.stall t).nextCid = s.nextCid := rfl
@[simp] theorem State.stall_gangs (s : State) (t : Strand) : (s.stall t).gangs = s.gangs := rfl
@[simp] theorem State.stall_barriers (s : State) (t : Strand) : (s.stall t).barriers = s.barriers := rfl
@[simp] theorem State.stall_arrivals (s : State) (t : Strand) : (s.stall t).arrivals = s.arrivals := rfl
@[simp] theorem State.stall_cards (s : State) (t : Strand) : (s.stall t).cards = s.cards := rfl
@[simp] theorem State.stall_queues (s : State) (t : Strand) : (s.stall t).queues = s.queues := rfl
@[simp] theorem State.stall_offers (s : State) (t : Strand) : (s.stall t).offers = s.offers := rfl
@[simp] theorem State.stall_slots (s : State) (t : Strand) : (s.stall t).slots = s.slots := rfl
@[simp] theorem State.stall_vault (s : State) (t : Strand) : (s.stall t).vault = s.vault := rfl
@[simp] theorem State.stall_vaultMem (s : State) (t : Strand) : (s.stall t).vaultMem = s.vaultMem := rfl
@[simp] theorem State.stall_spillNext (s : State) (t : Strand) : (s.stall t).spillNext = s.spillNext := rfl
@[simp] theorem State.stall_saves (s : State) (t : Strand) : (s.stall t).saves = s.saves := rfl
@[simp] theorem State.stall_vacates (s : State) (t : Strand) : (s.stall t).vacates = s.vacates := rfl
@[simp] theorem State.stall_watchdog (s : State) (t : Strand) : (s.stall t).watchdog = s.watchdog := rfl
@[simp] theorem State.stall_reports (s : State) (t : Strand) : (s.stall t).reports = s.reports := rfl
@[simp] theorem State.stall_nextCard (s : State) (t : Strand) : (s.stall t).nextCard = s.nextCard := rfl
@[simp] theorem State.stall_nextBid (s : State) (t : Strand) : (s.stall t).nextBid = s.nextBid := rfl
@[simp] theorem State.stall_placement (s : State) (t : Strand) : (s.stall t).placement = s.placement := rfl
@[simp] theorem State.stall_pages (s : State) (t : Strand) : (s.stall t).pages = s.pages := rfl
@[simp] theorem State.stall_notices (s : State) (t : Strand) : (s.stall t).notices = s.notices := rfl
@[simp] theorem State.stall_vfs (s : State) (t : Strand) : (s.stall t).vfs = s.vfs := rfl
@[simp] theorem State.stall_completion (s : State) (t : Strand) : (s.stall t).completion = s.completion := rfl
@[simp] theorem State.stall_hostReply (s : State) (t : Strand) : (s.stall t).hostReply = s.hostReply := rfl
@[simp] theorem State.stall_hdm (s : State) (t : Strand) : (s.stall t).hdm = s.hdm := rfl
@[simp] theorem State.stall_ports (s : State) (t : Strand) : (s.stall t).ports = s.ports := rfl
@[simp] theorem State.stall_qps (s : State) (t : Strand) : (s.stall t).qps = s.qps := rfl
@[simp] theorem State.stall_routes (s : State) (t : Strand) : (s.stall t).routes = s.routes := rfl
@[simp] theorem State.stall_linkUp (s : State) (t : Strand) : (s.stall t).linkUp = s.linkUp := rfl
@[simp] theorem State.stall_pkg (s : State) (t : Strand) : (s.stall t).pkg = s.pkg := rfl
@[simp] theorem State.stall_tick (s : State) (t : Strand) : (s.stall t).tick = s.tick := rfl
@[simp] theorem State.stall_time3 (s : State) (t : Strand) : (s.stall t).time3 = s.time3 := rfl
@[simp] theorem State.stall_timeValid (s : State) (t : Strand) : (s.stall t).timeValid = s.timeValid := rfl
@[simp] theorem State.stall_dies (s : State) (t : Strand) : (s.stall t).dies = s.dies := rfl
@[simp] theorem State.stall_foreign (s : State) (t : Strand) : (s.stall t).foreign = s.foreign := rfl
@[simp] theorem State.stall_leaders (s : State) (t : Strand) : (s.stall t).leaders = s.leaders := rfl
@[simp] theorem State.stall_announced (s : State) (t : Strand) : (s.stall t).announced = s.announced := rfl
@[simp] theorem State.stall_hbm (s : State) (t : Strand) : (s.stall t).hbm = s.hbm := rfl
@[simp] theorem State.stall_inlet (s : State) (t : Strand) : (s.stall t).inlet = s.inlet := rfl
@[simp] theorem State.stall_halted (s : State) (t : Strand) : (s.stall t).halted = s.halted := rfl
@[simp] theorem State.stall_boot (s : State) (t : Strand) : (s.stall t).boot = s.boot := rfl
@[simp] theorem State.stall_events (s : State) (t : Strand) : (s.stall t).events = s.events := rfl
@[simp] theorem State.stall_cur (s : State) (t : Strand) : (s.stall t).cur = s.cur := rfl
@[simp] theorem State.stall_phase (s : State) (t : Strand) : (s.stall t).phase = s.phase := rfl
@[simp] theorem State.stall_core (s : State) (t : Strand) : (s.stall t).core = s.core := rfl
@[simp] theorem State.stall_heads (s : State) (t : Strand) : (s.stall t).heads = s.heads := rfl
@[simp] theorem State.stall_agenda (s : State) (t : Strand) : (s.stall t).agenda = s.agenda := rfl
@[simp] theorem State.stall_blocked (s : State) (t : Strand) : (s.stall t).blocked = s.blocked := rfl
@[simp] theorem State.stall_outHeld (s : State) (t : Strand) : (s.stall t).outHeld = s.outHeld := rfl
@[simp] theorem State.stall_freeCtr (s : State) (t : Strand) : (s.stall t).freeCtr = s.freeCtr := rfl

/-! ### `State.enter` -/

@[simp] theorem State.enter_strands (s : State) (core sid : Nat) : (s.enter core sid).strands = s.strands := rfl
@[simp] theorem State.enter_mem (s : State) (core sid : Nat) : (s.enter core sid).mem = s.mem := rfl
@[simp] theorem State.enter_lines (s : State) (core sid : Nat) : (s.enter core sid).lines = s.lines := rfl
@[simp] theorem State.enter_redirects (s : State) (core sid : Nat) : (s.enter core sid).redirects = s.redirects := rfl
@[simp] theorem State.enter_soft (s : State) (core sid : Nat) : (s.enter core sid).soft = s.soft := rfl
@[simp] theorem State.enter_roots (s : State) (core sid : Nat) : (s.enter core sid).roots = s.roots := rfl
@[simp] theorem State.enter_tlb (s : State) (core sid : Nat) : (s.enter core sid).tlb = s.tlb := rfl
@[simp] theorem State.enter_owners (s : State) (core sid : Nat) : (s.enter core sid).owners = s.owners := rfl
@[simp] theorem State.enter_svcs (s : State) (core sid : Nat) : (s.enter core sid).svcs = s.svcs := rfl
@[simp] theorem State.enter_requests (s : State) (core sid : Nat) : (s.enter core sid).requests = s.requests := rfl
@[simp] theorem State.enter_replies (s : State) (core sid : Nat) : (s.enter core sid).replies = s.replies := rfl
@[simp] theorem State.enter_keystones (s : State) (core sid : Nat) : (s.enter core sid).keystones = s.keystones := rfl
@[simp] theorem State.enter_copies (s : State) (core sid : Nat) : (s.enter core sid).copies = s.copies := rfl
@[simp] theorem State.enter_nextRid (s : State) (core sid : Nat) : (s.enter core sid).nextRid = s.nextRid := rfl
@[simp] theorem State.enter_nextCid (s : State) (core sid : Nat) : (s.enter core sid).nextCid = s.nextCid := rfl
@[simp] theorem State.enter_gangs (s : State) (core sid : Nat) : (s.enter core sid).gangs = s.gangs := rfl
@[simp] theorem State.enter_barriers (s : State) (core sid : Nat) : (s.enter core sid).barriers = s.barriers := rfl
@[simp] theorem State.enter_arrivals (s : State) (core sid : Nat) : (s.enter core sid).arrivals = s.arrivals := rfl
@[simp] theorem State.enter_cards (s : State) (core sid : Nat) : (s.enter core sid).cards = s.cards := rfl
@[simp] theorem State.enter_queues (s : State) (core sid : Nat) : (s.enter core sid).queues = s.queues := rfl
@[simp] theorem State.enter_offers (s : State) (core sid : Nat) : (s.enter core sid).offers = s.offers := rfl
@[simp] theorem State.enter_slots (s : State) (core sid : Nat) : (s.enter core sid).slots = s.slots := rfl
@[simp] theorem State.enter_vault (s : State) (core sid : Nat) : (s.enter core sid).vault = s.vault := rfl
@[simp] theorem State.enter_vaultMem (s : State) (core sid : Nat) : (s.enter core sid).vaultMem = s.vaultMem := rfl
@[simp] theorem State.enter_spillNext (s : State) (core sid : Nat) : (s.enter core sid).spillNext = s.spillNext := rfl
@[simp] theorem State.enter_saves (s : State) (core sid : Nat) : (s.enter core sid).saves = s.saves := rfl
@[simp] theorem State.enter_vacates (s : State) (core sid : Nat) : (s.enter core sid).vacates = s.vacates := rfl
@[simp] theorem State.enter_watchdog (s : State) (core sid : Nat) : (s.enter core sid).watchdog = s.watchdog := rfl
@[simp] theorem State.enter_reports (s : State) (core sid : Nat) : (s.enter core sid).reports = s.reports := rfl
@[simp] theorem State.enter_nextCard (s : State) (core sid : Nat) : (s.enter core sid).nextCard = s.nextCard := rfl
@[simp] theorem State.enter_nextBid (s : State) (core sid : Nat) : (s.enter core sid).nextBid = s.nextBid := rfl
@[simp] theorem State.enter_placement (s : State) (core sid : Nat) : (s.enter core sid).placement = s.placement := rfl
@[simp] theorem State.enter_pages (s : State) (core sid : Nat) : (s.enter core sid).pages = s.pages := rfl
@[simp] theorem State.enter_notices (s : State) (core sid : Nat) : (s.enter core sid).notices = s.notices := rfl
@[simp] theorem State.enter_vfs (s : State) (core sid : Nat) : (s.enter core sid).vfs = s.vfs := rfl
@[simp] theorem State.enter_completion (s : State) (core sid : Nat) : (s.enter core sid).completion = s.completion := rfl
@[simp] theorem State.enter_hostReply (s : State) (core sid : Nat) : (s.enter core sid).hostReply = s.hostReply := rfl
@[simp] theorem State.enter_hdm (s : State) (core sid : Nat) : (s.enter core sid).hdm = s.hdm := rfl
@[simp] theorem State.enter_ports (s : State) (core sid : Nat) : (s.enter core sid).ports = s.ports := rfl
@[simp] theorem State.enter_qps (s : State) (core sid : Nat) : (s.enter core sid).qps = s.qps := rfl
@[simp] theorem State.enter_routes (s : State) (core sid : Nat) : (s.enter core sid).routes = s.routes := rfl
@[simp] theorem State.enter_linkUp (s : State) (core sid : Nat) : (s.enter core sid).linkUp = s.linkUp := rfl
@[simp] theorem State.enter_pkg (s : State) (core sid : Nat) : (s.enter core sid).pkg = s.pkg := rfl
@[simp] theorem State.enter_tick (s : State) (core sid : Nat) : (s.enter core sid).tick = s.tick := rfl
@[simp] theorem State.enter_time3 (s : State) (core sid : Nat) : (s.enter core sid).time3 = s.time3 := rfl
@[simp] theorem State.enter_timeValid (s : State) (core sid : Nat) : (s.enter core sid).timeValid = s.timeValid := rfl
@[simp] theorem State.enter_dies (s : State) (core sid : Nat) : (s.enter core sid).dies = s.dies := rfl
@[simp] theorem State.enter_foreign (s : State) (core sid : Nat) : (s.enter core sid).foreign = s.foreign := rfl
@[simp] theorem State.enter_leaders (s : State) (core sid : Nat) : (s.enter core sid).leaders = s.leaders := rfl
@[simp] theorem State.enter_announced (s : State) (core sid : Nat) : (s.enter core sid).announced = s.announced := rfl
@[simp] theorem State.enter_hbm (s : State) (core sid : Nat) : (s.enter core sid).hbm = s.hbm := rfl
@[simp] theorem State.enter_inlet (s : State) (core sid : Nat) : (s.enter core sid).inlet = s.inlet := rfl
@[simp] theorem State.enter_halted (s : State) (core sid : Nat) : (s.enter core sid).halted = s.halted := rfl
@[simp] theorem State.enter_boot (s : State) (core sid : Nat) : (s.enter core sid).boot = s.boot := rfl
@[simp] theorem State.enter_events (s : State) (core sid : Nat) : (s.enter core sid).events = s.events := rfl
@[simp] theorem State.enter_phase (s : State) (core sid : Nat) : (s.enter core sid).phase = s.phase := rfl
@[simp] theorem State.enter_agenda (s : State) (core sid : Nat) : (s.enter core sid).agenda = s.agenda := rfl
@[simp] theorem State.enter_blocked (s : State) (core sid : Nat) : (s.enter core sid).blocked = s.blocked := rfl
@[simp] theorem State.enter_outHeld (s : State) (core sid : Nat) : (s.enter core sid).outHeld = s.outHeld := rfl
@[simp] theorem State.enter_freeCtr (s : State) (core sid : Nat) : (s.enter core sid).freeCtr = s.freeCtr := rfl

/-! ### `Strand.advance` -/

@[simp] theorem Strand.advance_id (t : Strand) : (t.advance).id = t.id := rfl
@[simp] theorem Strand.advance_s (t : Strand) : (t.advance).s = t.s := rfl
@[simp] theorem Strand.advance_fstat (t : Strand) : (t.advance).fstat = t.fstat := rfl
@[simp] theorem Strand.advance_prog (t : Strand) : (t.advance).prog = t.prog := rfl
@[simp] theorem Strand.advance_stlMem (t : Strand) : (t.advance).stlMem = t.stlMem := rfl
@[simp] theorem Strand.advance_tokp (t : Strand) : (t.advance).tokp = t.tokp := rfl
@[simp] theorem Strand.advance_vl (t : Strand) : (t.advance).vl = t.vl := rfl
@[simp] theorem Strand.advance_vtype (t : Strand) : (t.advance).vtype = t.vtype := rfl
@[simp] theorem Strand.advance_v (t : Strand) : (t.advance).v = t.v := rfl
@[simp] theorem Strand.advance_k (t : Strand) : (t.advance).k = t.k := rfl
@[simp] theorem Strand.advance_m (t : Strand) : (t.advance).m = t.m := rfl
@[simp] theorem Strand.advance_lflags (t : Strand) : (t.advance).lflags = t.lflags := rfl
@[simp] theorem Strand.advance_lane (t : Strand) : (t.advance).lane = t.lane := rfl
@[simp] theorem Strand.advance_win (t : Strand) : (t.advance).win = t.win := rfl
@[simp] theorem Strand.advance_viq (t : Strand) : (t.advance).viq = t.viq := rfl
@[simp] theorem Strand.advance_vcp (t : Strand) : (t.advance).vcp = t.vcp := rfl
@[simp] theorem Strand.advance_copen (t : Strand) : (t.advance).copen = t.copen := rfl
@[simp] theorem Strand.advance_fresh (t : Strand) : (t.advance).fresh = t.fresh := rfl
@[simp] theorem Strand.advance_rq (t : Strand) : (t.advance).rq = t.rq := rfl
@[simp] theorem Strand.advance_vfault (t : Strand) : (t.advance).vfault = t.vfault := rfl
@[simp] theorem Strand.advance_xch (t : Strand) : (t.advance).xch = t.xch := rfl
@[simp] theorem Strand.advance_acc (t : Strand) : (t.advance).acc = t.acc := rfl
@[simp] theorem Strand.advance_vamo (t : Strand) : (t.advance).vamo = t.vamo := rfl
@[simp] theorem Strand.advance_lbuf (t : Strand) : (t.advance).lbuf = t.lbuf := rfl
@[simp] theorem Strand.advance_ibuf (t : Strand) : (t.advance).ibuf = t.ibuf := rfl
@[simp] theorem Strand.advance_status (t : Strand) : (t.advance).status = t.status := rfl
@[simp] theorem Strand.advance_wait (t : Strand) : (t.advance).wait = t.wait := rfl
@[simp] theorem Strand.advance_record (t : Strand) : (t.advance).record = t.record := rfl
@[simp] theorem Strand.advance_notice (t : Strand) : (t.advance).notice = t.notice := rfl
@[simp] theorem Strand.advance_unrepaired (t : Strand) : (t.advance).unrepaired = t.unrepaired := rfl
@[simp] theorem Strand.advance_stalled (t : Strand) : (t.advance).stalled = t.stalled := rfl
@[simp] theorem Strand.advance_qstall (t : Strand) : (t.advance).qstall = t.qstall := rfl
@[simp] theorem Strand.advance_held (t : Strand) : (t.advance).held = t.held := rfl
@[simp] theorem Strand.advance_arrs (t : Strand) : (t.advance).arrs = t.arrs := rfl
@[simp] theorem Strand.advance_gen (t : Strand) : (t.advance).gen = t.gen := rfl
@[simp] theorem Strand.advance_busy (t : Strand) : (t.advance).busy = t.busy := rfl

/-! ### `Strand.jump` -/

@[simp] theorem Strand.jump_id (t : Strand) (pc : Word) : (t.jump pc).id = t.id := rfl
@[simp] theorem Strand.jump_s (t : Strand) (pc : Word) : (t.jump pc).s = t.s := rfl
@[simp] theorem Strand.jump_fstat (t : Strand) (pc : Word) : (t.jump pc).fstat = t.fstat := rfl
@[simp] theorem Strand.jump_prog (t : Strand) (pc : Word) : (t.jump pc).prog = t.prog := rfl
@[simp] theorem Strand.jump_stlMem (t : Strand) (pc : Word) : (t.jump pc).stlMem = t.stlMem := rfl
@[simp] theorem Strand.jump_tokp (t : Strand) (pc : Word) : (t.jump pc).tokp = t.tokp := rfl
@[simp] theorem Strand.jump_vl (t : Strand) (pc : Word) : (t.jump pc).vl = t.vl := rfl
@[simp] theorem Strand.jump_vtype (t : Strand) (pc : Word) : (t.jump pc).vtype = t.vtype := rfl
@[simp] theorem Strand.jump_v (t : Strand) (pc : Word) : (t.jump pc).v = t.v := rfl
@[simp] theorem Strand.jump_k (t : Strand) (pc : Word) : (t.jump pc).k = t.k := rfl
@[simp] theorem Strand.jump_m (t : Strand) (pc : Word) : (t.jump pc).m = t.m := rfl
@[simp] theorem Strand.jump_lflags (t : Strand) (pc : Word) : (t.jump pc).lflags = t.lflags := rfl
@[simp] theorem Strand.jump_lane (t : Strand) (pc : Word) : (t.jump pc).lane = t.lane := rfl
@[simp] theorem Strand.jump_win (t : Strand) (pc : Word) : (t.jump pc).win = t.win := rfl
@[simp] theorem Strand.jump_viq (t : Strand) (pc : Word) : (t.jump pc).viq = t.viq := rfl
@[simp] theorem Strand.jump_vcp (t : Strand) (pc : Word) : (t.jump pc).vcp = t.vcp := rfl
@[simp] theorem Strand.jump_copen (t : Strand) (pc : Word) : (t.jump pc).copen = t.copen := rfl
@[simp] theorem Strand.jump_fresh (t : Strand) (pc : Word) : (t.jump pc).fresh = t.fresh := rfl
@[simp] theorem Strand.jump_rq (t : Strand) (pc : Word) : (t.jump pc).rq = t.rq := rfl
@[simp] theorem Strand.jump_vfault (t : Strand) (pc : Word) : (t.jump pc).vfault = t.vfault := rfl
@[simp] theorem Strand.jump_xch (t : Strand) (pc : Word) : (t.jump pc).xch = t.xch := rfl
@[simp] theorem Strand.jump_acc (t : Strand) (pc : Word) : (t.jump pc).acc = t.acc := rfl
@[simp] theorem Strand.jump_vamo (t : Strand) (pc : Word) : (t.jump pc).vamo = t.vamo := rfl
@[simp] theorem Strand.jump_lbuf (t : Strand) (pc : Word) : (t.jump pc).lbuf = t.lbuf := rfl
@[simp] theorem Strand.jump_ibuf (t : Strand) (pc : Word) : (t.jump pc).ibuf = t.ibuf := rfl
@[simp] theorem Strand.jump_status (t : Strand) (pc : Word) : (t.jump pc).status = t.status := rfl
@[simp] theorem Strand.jump_wait (t : Strand) (pc : Word) : (t.jump pc).wait = t.wait := rfl
@[simp] theorem Strand.jump_record (t : Strand) (pc : Word) : (t.jump pc).record = t.record := rfl
@[simp] theorem Strand.jump_notice (t : Strand) (pc : Word) : (t.jump pc).notice = t.notice := rfl
@[simp] theorem Strand.jump_unrepaired (t : Strand) (pc : Word) : (t.jump pc).unrepaired = t.unrepaired := rfl
@[simp] theorem Strand.jump_stalled (t : Strand) (pc : Word) : (t.jump pc).stalled = t.stalled := rfl
@[simp] theorem Strand.jump_qstall (t : Strand) (pc : Word) : (t.jump pc).qstall = t.qstall := rfl
@[simp] theorem Strand.jump_held (t : Strand) (pc : Word) : (t.jump pc).held = t.held := rfl
@[simp] theorem Strand.jump_arrs (t : Strand) (pc : Word) : (t.jump pc).arrs = t.arrs := rfl
@[simp] theorem Strand.jump_gen (t : Strand) (pc : Word) : (t.jump pc).gen = t.gen := rfl
@[simp] theorem Strand.jump_busy (t : Strand) (pc : Word) : (t.jump pc).busy = t.busy := rfl

/-! ### `Strand.closeConvoy` -/

@[simp] theorem Strand.closeConvoy_id (t : Strand) : (t.closeConvoy).id = t.id := rfl
@[simp] theorem Strand.closeConvoy_s (t : Strand) : (t.closeConvoy).s = t.s := rfl
@[simp] theorem Strand.closeConvoy_pc (t : Strand) : (t.closeConvoy).pc = t.pc := rfl
@[simp] theorem Strand.closeConvoy_seq (t : Strand) : (t.closeConvoy).seq = t.seq := rfl
@[simp] theorem Strand.closeConvoy_fstat (t : Strand) : (t.closeConvoy).fstat = t.fstat := rfl
@[simp] theorem Strand.closeConvoy_prog (t : Strand) : (t.closeConvoy).prog = t.prog := rfl
@[simp] theorem Strand.closeConvoy_stlMem (t : Strand) : (t.closeConvoy).stlMem = t.stlMem := rfl
@[simp] theorem Strand.closeConvoy_tokp (t : Strand) : (t.closeConvoy).tokp = t.tokp := rfl
@[simp] theorem Strand.closeConvoy_vl (t : Strand) : (t.closeConvoy).vl = t.vl := rfl
@[simp] theorem Strand.closeConvoy_vtype (t : Strand) : (t.closeConvoy).vtype = t.vtype := rfl
@[simp] theorem Strand.closeConvoy_v (t : Strand) : (t.closeConvoy).v = t.v := rfl
@[simp] theorem Strand.closeConvoy_k (t : Strand) : (t.closeConvoy).k = t.k := rfl
@[simp] theorem Strand.closeConvoy_m (t : Strand) : (t.closeConvoy).m = t.m := rfl
@[simp] theorem Strand.closeConvoy_lflags (t : Strand) : (t.closeConvoy).lflags = t.lflags := rfl
@[simp] theorem Strand.closeConvoy_lane (t : Strand) : (t.closeConvoy).lane = t.lane := rfl
@[simp] theorem Strand.closeConvoy_win (t : Strand) : (t.closeConvoy).win = t.win := rfl
@[simp] theorem Strand.closeConvoy_viq (t : Strand) : (t.closeConvoy).viq = t.viq := rfl
@[simp] theorem Strand.closeConvoy_vcp (t : Strand) : (t.closeConvoy).vcp = t.vcp := rfl
@[simp] theorem Strand.closeConvoy_rq (t : Strand) : (t.closeConvoy).rq = t.rq := rfl
@[simp] theorem Strand.closeConvoy_vfault (t : Strand) : (t.closeConvoy).vfault = t.vfault := rfl
@[simp] theorem Strand.closeConvoy_xch (t : Strand) : (t.closeConvoy).xch = t.xch := rfl
@[simp] theorem Strand.closeConvoy_acc (t : Strand) : (t.closeConvoy).acc = t.acc := rfl
@[simp] theorem Strand.closeConvoy_vamo (t : Strand) : (t.closeConvoy).vamo = t.vamo := rfl
@[simp] theorem Strand.closeConvoy_lbuf (t : Strand) : (t.closeConvoy).lbuf = t.lbuf := rfl
@[simp] theorem Strand.closeConvoy_ibuf (t : Strand) : (t.closeConvoy).ibuf = t.ibuf := rfl
@[simp] theorem Strand.closeConvoy_status (t : Strand) : (t.closeConvoy).status = t.status := rfl
@[simp] theorem Strand.closeConvoy_wait (t : Strand) : (t.closeConvoy).wait = t.wait := rfl
@[simp] theorem Strand.closeConvoy_record (t : Strand) : (t.closeConvoy).record = t.record := rfl
@[simp] theorem Strand.closeConvoy_notice (t : Strand) : (t.closeConvoy).notice = t.notice := rfl
@[simp] theorem Strand.closeConvoy_unrepaired (t : Strand) : (t.closeConvoy).unrepaired = t.unrepaired := rfl
@[simp] theorem Strand.closeConvoy_stalled (t : Strand) : (t.closeConvoy).stalled = t.stalled := rfl
@[simp] theorem Strand.closeConvoy_qstall (t : Strand) : (t.closeConvoy).qstall = t.qstall := rfl
@[simp] theorem Strand.closeConvoy_moved (t : Strand) : (t.closeConvoy).moved = t.moved := rfl
@[simp] theorem Strand.closeConvoy_held (t : Strand) : (t.closeConvoy).held = t.held := rfl
@[simp] theorem Strand.closeConvoy_arrs (t : Strand) : (t.closeConvoy).arrs = t.arrs := rfl
@[simp] theorem Strand.closeConvoy_gen (t : Strand) : (t.closeConvoy).gen = t.gen := rfl
@[simp] theorem Strand.closeConvoy_busy (t : Strand) : (t.closeConvoy).busy = t.busy := rfl
@[simp] theorem Strand.closeConvoy_hold (t : Strand) : (t.closeConvoy).hold = t.hold := rfl

/-! ### `Strand.setS` -/

@[simp] theorem Strand.setS_id (t : Strand) (r : SReg) (x : Word) : (t.setS r x).id = t.id := by
  unfold Strand.setS; split <;> rfl
@[simp] theorem Strand.setS_pc (t : Strand) (r : SReg) (x : Word) : (t.setS r x).pc = t.pc := by
  unfold Strand.setS; split <;> rfl
@[simp] theorem Strand.setS_seq (t : Strand) (r : SReg) (x : Word) : (t.setS r x).seq = t.seq := by
  unfold Strand.setS; split <;> rfl
@[simp] theorem Strand.setS_fstat (t : Strand) (r : SReg) (x : Word) : (t.setS r x).fstat = t.fstat := by
  unfold Strand.setS; split <;> rfl
@[simp] theorem Strand.setS_prog (t : Strand) (r : SReg) (x : Word) : (t.setS r x).prog = t.prog := by
  unfold Strand.setS; split <;> rfl
@[simp] theorem Strand.setS_stlMem (t : Strand) (r : SReg) (x : Word) : (t.setS r x).stlMem = t.stlMem := by
  unfold Strand.setS; split <;> rfl
@[simp] theorem Strand.setS_tokp (t : Strand) (r : SReg) (x : Word) : (t.setS r x).tokp = t.tokp := by
  unfold Strand.setS; split <;> rfl
@[simp] theorem Strand.setS_vl (t : Strand) (r : SReg) (x : Word) : (t.setS r x).vl = t.vl := by
  unfold Strand.setS; split <;> rfl
@[simp] theorem Strand.setS_vtype (t : Strand) (r : SReg) (x : Word) : (t.setS r x).vtype = t.vtype := by
  unfold Strand.setS; split <;> rfl
@[simp] theorem Strand.setS_v (t : Strand) (r : SReg) (x : Word) : (t.setS r x).v = t.v := by
  unfold Strand.setS; split <;> rfl
@[simp] theorem Strand.setS_k (t : Strand) (r : SReg) (x : Word) : (t.setS r x).k = t.k := by
  unfold Strand.setS; split <;> rfl
@[simp] theorem Strand.setS_m (t : Strand) (r : SReg) (x : Word) : (t.setS r x).m = t.m := by
  unfold Strand.setS; split <;> rfl
@[simp] theorem Strand.setS_lflags (t : Strand) (r : SReg) (x : Word) : (t.setS r x).lflags = t.lflags := by
  unfold Strand.setS; split <;> rfl
@[simp] theorem Strand.setS_lane (t : Strand) (r : SReg) (x : Word) : (t.setS r x).lane = t.lane := by
  unfold Strand.setS; split <;> rfl
@[simp] theorem Strand.setS_win (t : Strand) (r : SReg) (x : Word) : (t.setS r x).win = t.win := by
  unfold Strand.setS; split <;> rfl
@[simp] theorem Strand.setS_viq (t : Strand) (r : SReg) (x : Word) : (t.setS r x).viq = t.viq := by
  unfold Strand.setS; split <;> rfl
@[simp] theorem Strand.setS_vcp (t : Strand) (r : SReg) (x : Word) : (t.setS r x).vcp = t.vcp := by
  unfold Strand.setS; split <;> rfl
@[simp] theorem Strand.setS_copen (t : Strand) (r : SReg) (x : Word) : (t.setS r x).copen = t.copen := by
  unfold Strand.setS; split <;> rfl
@[simp] theorem Strand.setS_fresh (t : Strand) (r : SReg) (x : Word) : (t.setS r x).fresh = t.fresh := by
  unfold Strand.setS; split <;> rfl
@[simp] theorem Strand.setS_rq (t : Strand) (r : SReg) (x : Word) : (t.setS r x).rq = t.rq := by
  unfold Strand.setS; split <;> rfl
@[simp] theorem Strand.setS_vfault (t : Strand) (r : SReg) (x : Word) : (t.setS r x).vfault = t.vfault := by
  unfold Strand.setS; split <;> rfl
@[simp] theorem Strand.setS_xch (t : Strand) (r : SReg) (x : Word) : (t.setS r x).xch = t.xch := by
  unfold Strand.setS; split <;> rfl
@[simp] theorem Strand.setS_acc (t : Strand) (r : SReg) (x : Word) : (t.setS r x).acc = t.acc := by
  unfold Strand.setS; split <;> rfl
@[simp] theorem Strand.setS_vamo (t : Strand) (r : SReg) (x : Word) : (t.setS r x).vamo = t.vamo := by
  unfold Strand.setS; split <;> rfl
@[simp] theorem Strand.setS_lbuf (t : Strand) (r : SReg) (x : Word) : (t.setS r x).lbuf = t.lbuf := by
  unfold Strand.setS; split <;> rfl
@[simp] theorem Strand.setS_ibuf (t : Strand) (r : SReg) (x : Word) : (t.setS r x).ibuf = t.ibuf := by
  unfold Strand.setS; split <;> rfl
@[simp] theorem Strand.setS_status (t : Strand) (r : SReg) (x : Word) : (t.setS r x).status = t.status := by
  unfold Strand.setS; split <;> rfl
@[simp] theorem Strand.setS_wait (t : Strand) (r : SReg) (x : Word) : (t.setS r x).wait = t.wait := by
  unfold Strand.setS; split <;> rfl
@[simp] theorem Strand.setS_record (t : Strand) (r : SReg) (x : Word) : (t.setS r x).record = t.record := by
  unfold Strand.setS; split <;> rfl
@[simp] theorem Strand.setS_notice (t : Strand) (r : SReg) (x : Word) : (t.setS r x).notice = t.notice := by
  unfold Strand.setS; split <;> rfl
@[simp] theorem Strand.setS_unrepaired (t : Strand) (r : SReg) (x : Word) : (t.setS r x).unrepaired = t.unrepaired := by
  unfold Strand.setS; split <;> rfl
@[simp] theorem Strand.setS_stalled (t : Strand) (r : SReg) (x : Word) : (t.setS r x).stalled = t.stalled := by
  unfold Strand.setS; split <;> rfl
@[simp] theorem Strand.setS_qstall (t : Strand) (r : SReg) (x : Word) : (t.setS r x).qstall = t.qstall := by
  unfold Strand.setS; split <;> rfl
@[simp] theorem Strand.setS_moved (t : Strand) (r : SReg) (x : Word) : (t.setS r x).moved = t.moved := by
  unfold Strand.setS; split <;> rfl
@[simp] theorem Strand.setS_held (t : Strand) (r : SReg) (x : Word) : (t.setS r x).held = t.held := by
  unfold Strand.setS; split <;> rfl
@[simp] theorem Strand.setS_arrs (t : Strand) (r : SReg) (x : Word) : (t.setS r x).arrs = t.arrs := by
  unfold Strand.setS; split <;> rfl
@[simp] theorem Strand.setS_gen (t : Strand) (r : SReg) (x : Word) : (t.setS r x).gen = t.gen := by
  unfold Strand.setS; split <;> rfl
@[simp] theorem Strand.setS_busy (t : Strand) (r : SReg) (x : Word) : (t.setS r x).busy = t.busy := by
  unfold Strand.setS; split <;> rfl
@[simp] theorem Strand.setS_hold (t : Strand) (r : SReg) (x : Word) : (t.setS r x).hold = t.hold := by
  unfold Strand.setS; split <;> rfl

end Sys2Proof.Machine
end

