-- ==== Sys2Proof/Laws/Convoy.lean ====
section
/-!
SUPPORT. Strands found after they are put; a convoy of one instruction runs its elements in order and then finishes (R159);
what an element-wise instruction leaves in its destination (R48, R90).
-/

namespace Sys2Proof.Machine

/-! ## Strands -/

/-- The strand of a slot has that slot. -/
theorem strand_sid {s : State} {n : Nat} {t : Strand} (h : s.strand n = some t) : t.id.sid = n := by
  have := List.find?_some h
  simpa using this

/-- The strand that dispatches is resident in its slot. -/
theorem cur_strand {s : State} {t : Strand} (h : s.curStrand = some t) : s.strand t.id.sid = some t := by
  unfold State.curStrand at h
  split at h
  · simp at h
  · rename_i n _
    rw [strand_sid h]
    exact h

/-- A strand put in the place of a resident one is found there. -/
theorem strand_put {s : State} {t u : Strand} (h : s.strand t.id.sid = some u) : (s.put t).strand t.id.sid = some t := by
  unfold State.strand at h
  show (s.strands.map fun u => if u.id.sid = t.id.sid then t else u).find? (fun x => x.id.sid == t.id.sid) = some t
  generalize s.strands = l at h
  induction l with
  | nil => simp at h
  | cons a l ih =>
    rw [List.map_cons, List.find?_cons]
    rw [List.find?_cons] at h
    by_cases g : a.id.sid = t.id.sid
    · simp [g]
    · have e : (a.id.sid == t.id.sid) = false := by simpa using g
      simp only [e] at h
      simp only [if_neg g, e]
      exact ih h

/-- The strands of other slots are found as before. -/
theorem strand_put_other (s : State) (t : Strand) : SameOthers s (s.put t) t.id.sid := by
  intro n hn
  unfold State.strand State.put
  simp only
  induction s.strands with
  | nil => rfl
  | cons a l ih =>
    simp only [List.map_cons, List.find?_cons]
    by_cases g : a.id.sid = t.id.sid
    · have h1 : (t.id.sid == n) = false := by simp; exact fun h => hn h.symm
      have h2 : (a.id.sid == n) = false := by rw [g]; exact h1
      simp only [if_pos g, h1, h2, ih]
    · simp only [if_neg g, ih]

/-! ## The groups of one member (R159) -/

/-- Elements in two parts. -/
theorem eachElem_add (f : Nat → Run → Rr) (a b e : Nat) (r : Run) :
    eachElem f (a + b) e r = (eachElem f a e r).bind (eachElem f b (e + a)) := by
  induction a generalizing e r with
  | zero => simp [eachElem, Rr.bind]
  | succ n ih =>
    have : n + 1 + b = (n + b) + 1 := by omega
    rw [this]
    simp only [eachElem]
    cases f e r with
    | stop x => rfl
    | ok r' =>
      simp only [Rr.bind]
      rw [ih]
      have : e + 1 + n = e + (n + 1) := by omega
      rw [this]
      rfl

/-- Elements that deliver nothing leave nothing to deliver. -/
theorem eachElem_out {f : Nat → Run → Rr} (hf : ∀ e r r', f e r = .ok r' → r.out = none → r'.out = none)
    (n e : Nat) (r r' : Run) (h : eachElem f n e r = .ok r') (ho : r.out = none) : r'.out = none := by
  induction n generalizing e r with
  | zero => simp only [eachElem, Rr.ok.injEq] at h; rw [← h]; exact ho
  | succ n ih =>
    simp only [eachElem] at h
    cases g : f e r with
    | stop x => simp [g, Rr.bind] at h
    | ok r1 =>
      simp only [g, Rr.bind] at h
      exact ih _ _ h (hf _ _ _ g ho)

/-- The groups of a convoy of one: its elements in order, then its end. -/
theorem runGroups_one {f : Nat → Run → Rr} {fin : Run → Rr}
    (hf : ∀ e r r', f e r = .ok r' → r.out = none → r'.out = none) (vl k g : Nat) (r r1 r2 : Run)
    (hk : 0 < k) (hl : 256 * (g + k) ≥ vl) (hg : 256 * (g + k - 1) < vl)
    (ho : r.out = none) (h1 : eachElem f (vl - 256 * g) (256 * g) r = .ok r1) (h2 : fin r1 = .ok r2) :
    runGroups [⟨overElems f, fin⟩] vl 0 vl k g r [] = .ok { r2 with out := none } (match r2.out with
      | none => []
      | some w => [(0, w)]) := by
  induction k generalizing g r with
  | zero => omega
  | succ k ih =>
    simp only [runGroups, runGroup, Nat.max_zero]
    by_cases c : k = 0
    · subst c
      have e1 : min (min (256 * g + 256) vl) vl = vl := by omega
      have o1 : r1.out = none := eachElem_out hf _ _ _ _ h1 ho
      have e2 : ({ r1 with out := none } : Run) = r1 := by cases r1; simp_all
      rw [e1]
      simp only [overElems, h1, Rr.bind, BEq.rfl, le_refl, decide_true, Bool.and_self, if_true, e2, h2]
      cases h : r2.out with
      | none =>
        simp only [h, runGroups]
        have : ({ r2 with out := none } : Run) = r2 := by cases r2; simp_all
        rw [this]
      | some w => simp only [h, runGroups]
    · have e1 : min (min (256 * g + 256) vl) vl = 256 * g + 256 := by omega
      have e2 : vl - 256 * g = 256 + (vl - 256 * (g + 1)) := by omega
      have e3 : (k == 0) = false := by simpa using c
      rw [e2, eachElem_add] at h1
      rw [e1]
      have e4 : 256 * g + 256 - 256 * g = 256 := by omega
      simp only [overElems, e4, e3, Bool.false_and]
      cases g1 : eachElem f 256 (256 * g) r with
      | stop x => simp [g1, Rr.bind] at h1
      | ok ra =>
        simp only [g1, Rr.bind] at h1 ⊢
        have oa := eachElem_out hf _ _ _ _ g1 ho
        simp only [Bool.false_eq_true, if_false, oa]
        have e5 : 256 * g + 256 = 256 * (g + 1) := by ring
        rw [e5] at h1
        exact ih (g + 1) ra (by omega) (by have : g + 1 + k = g + (k + 1) := by omega
                                           rw [this]; exact hl)
          (by have : g + 1 + k - 1 = g + (k + 1) - 1 := by omega
              rw [this]; exact hg) oa h1

/-! ## CONVOY_START of one entry -/

/-- A strand without a fault, with its fault cleared. -/
theorem clear_vfault {t : Strand} (h : t.vfault = none) : ({ t with vfault := none } : Strand) = t := by
  cases t
  cases h
  rfl

/-- Once the one entry of a strand is prepared and its elements and its end are done, CONVOY_START leaves what they left. A
vector atomic is left out: it acts through its requests (R270). -/
theorem performs_of_run {s : State} {sid : Nat} {t : Strand} {e : Entry} (h : Alone s sid t e) (hv : 0 < e.vl)
    (ha : isVamo e.i = false) {t1 : Strand} {f : Nat → Run → Rr} {fin : Run → Rr} {r1 r2 : Run} {p : State → Strand → Prop}
    (hp : prepare e.i (e.px t s ⟨t.v, t.k⟩ e.vl true none false) = .ok t1 ⟨overElems f, fin⟩)
    (hf : ∀ e r r', f e r = .ok r' → r.out = none → r'.out = none)
    (h1 : eachElem f e.vl 0 (Run.start t1 s none) = .ok r1) (h2 : fin r1 = .ok r2)
    (hi : r2.t.id = t.id) (hs : r2.t.qstall = false) (hw : r2.t.vfault = none)
    (hst : SameOthers s r2.s sid) (hre : (r2.s.strand sid).isSome = true)
    (hq : ∀ (s' : State) (u : Strand), s' = { r2.s with freeCtr := s'.freeCtr, svcs := s'.svcs, strands := s'.strands } →
      u = { r2.t with stlMem := u.stlMem, viq := u.viq, xch := .none, held := none, vamo := none } →
      (e.loads = false → u.stlMem = r2.t.stlMem) → p s' u) :
    Performs s sid e r2.out p := by
  have hvl : ¬ e.vl = 0 := by omega
  have hat : attempt { t with vfault := none } s [e] e.vl e.vl none none false
      = .done { r2 with out := none } (match r2.out with
          | none => []
          | some w => [(0, w)]) [⟨overElems f, fin⟩] [⟨t.v, t.k⟩] := by
    have ht := clear_vfault h.sound
    rw [ht]
    unfold attempt
    have hps : convoyPos [e] = 0 := by simp [convoyPos, h.first]
    have hpr : prepareAll s e.vl 0 (([e] : List Entry).length == 1) none false 0 [e] t [] []
        = .ok t1 [⟨overElems f, fin⟩] [⟨t.v, t.k⟩] := by
      simp only [prepareAll, h.uncaptured, Option.getD_none, List.length_cons, List.length_nil, BEq.rfl, hp, h.first,
        h.unfinished, lt_self_iff_false, decide_false, Bool.or_self, Bool.false_eq_true, if_false,
        List.reverse_cons, List.reverse_nil, List.nil_append]
    rw [hps, hpr]
    simp only [hvl, if_false]
    rw [runGroups_one hf e.vl (groupsOf e.vl) 0 (Run.start t1 s none) r1 r2 (by unfold groupsOf; omega)
      (by unfold groupsOf; omega) (by unfold groupsOf; omega) rfl (by simpa using h1) h2]
  have hc : firstConvoy t.viq = ([e], []) := by rw [h.only]; rfl
  have hrdy : s.convoyReady t = true := by
    unfold State.convoyReady State.frontReady Strand.startable Strand.firstClosed
    rw [h.only, strand_sid h.here]
    simp [h.waiting, h.closed, h.calm, h.chained, h.runs, h.sound, h.apart, h.served, h.quiet, h.older]
  have hex : exec (.convoyStart sid) s = .next (s.runConvoy t none (s.beingSaved t)) := by
    show execConvoyStart sid s = _
    unfold execConvoyStart
    simp only [h.here, h.only, hrdy, if_true]
  have hcomp : completed (match r2.out with
      | none => []
      | some w => [(0, w)]) e.vl 0 [e] = [e.performed r2.out] := by
    cases ho : r2.out <;> simp [completed, Entry.performed, h.ungiven, h.unfinished]
  obtain ⟨u, s', hper, hu, hs', hcalm, hvf, hstl⟩ : ∃ u s', perform { t with vfault := none } [] none (convoyFuel [e]) s [e] e.vl e.vl none none
        = (u, s')
      ∧ u = { r2.t with stlMem := u.stlMem, viq := [e.performed r2.out], xch := .none, held := none, vamo := none }
      ∧ s' = { r2.s with freeCtr := s'.freeCtr } ∧ u.qstall = false ∧ u.vfault = none
      ∧ (e.loads = false → u.stlMem = r2.t.stlMem) := by
    have hfu : convoyFuel [e] = 11 + 1 := rfl
    rw [hfu]
    unfold perform
    simp only [hat]
    have hany : ([e].any fun x => isVamo x.i) = false := by simp [ha]
    have haft : ∀ y : Strand, y.after [e] e.vl = y := by intro y; simp [Strand.after]
    simp only [hany, Bool.and_false, Bool.false_eq_true, if_false]
    unfold finishConvoy
    simp only [hcomp, List.append_nil, haft]
    unfold waitedForLoads
    split
    · rename_i c
      refine ⟨_, _, rfl, rfl, rfl, hs, hw, fun d => ?_⟩
      simp only [List.any_cons, List.any_nil, Bool.or_false, Bool.and_eq_true] at c
      exact absurd (c.2.symm.trans d) (by simp)
    · exact ⟨_, _, rfl, rfl, rfl, hs, hw, fun _ => rfl⟩
  have hpc : s.runConvoy t none (s.beingSaved t) = (s'.endSvc (.queue t.id.sid)).put u := by
    unfold State.runConvoy
    simp only [hc]
    rw [clear_vfault h.sound] at hper
    generalize hz : ({ t with vfault := none } : Strand) = z
    obtain rfl : t = z := (clear_vfault h.sound).symm.trans hz
    clear hz
    simp only [h.quiet, convoyVl, hper, hcalm, h.sound, hvf, Bool.false_eq_true, if_false, Option.isNone_none, if_true,
      Option.map_none]
    have hu2 : ({ u with vfault := none, qstall := false } : Strand) = u := by
      clear hu hper
      cases u
      cases hvf
      cases hcalm
      rfl
    exact congrArg _ hu2
  have hid : u.id.sid = sid := by
    have : u.id = r2.t.id := by rw [hu]
    rw [this, hi]; exact strand_sid h.here
  have hstr : (s'.endSvc (.queue t.id.sid)).strands = r2.s.strands := by rw [hs']; rfl
  obtain ⟨w, hww⟩ := Option.isSome_iff_exists.mp hre
  have hfind : (s'.endSvc (.queue t.id.sid)).strand u.id.sid = some w := by
    rw [hid, ← hww]; unfold State.strand; rw [hstr]
  refine ⟨_, u, hex.trans (by rw [hpc]), ?_, ?_, by rw [hu], hq _ _ ?_ ?_ hstl⟩
  · rw [← hid]; exact strand_put hfind
  · intro n hn
    have a := strand_put_other (s'.endSvc (.queue t.id.sid)) u n (by rw [hid]; exact hn)
    rw [a, ← hst n hn]
    unfold State.strand; rw [hstr]
  · rw [hs']; rfl
  · rw [hu]

/-! ## Element-wise instructions -/

/-- One element of an element-wise instruction. -/
def elementStep (d : Dst) (f : Strand → Nat → Put × Flags) (t : Strand) (e : Nat) : Strand :=
  (t.putElem d e (f t e).1).raise e (f t e).2

/-- The elements of an element-wise instruction, as a change of the strand. -/
theorem eachElem_element (d : Dst) (f : Strand → Nat → Put × Flags) (n e : Nat) (r : Run) :
    eachElem (fun e r => let (p, fl) := f r.t e; .ok (r.upd fun t => (t.putElem d e p).raise e fl)) n e r
      = .ok { r with t := (List.range n).foldl (fun t i => elementStep d f t (e + i)) r.t } := by
  induction n generalizing e r with
  | zero => simp [eachElem]
  | succ n ih =>
    simp only [eachElem, Rr.bind]
    rw [ih, List.range_succ_eq_map, List.foldl_cons, List.foldl_map]
    have : ∀ i, e + 1 + i = e + (i + 1) := by intro i; omega
    simp only [this]
    rfl

/-- Bits of the lane flags after one lane's are raised. -/
theorem getLsbD_raiseLane (lf : BitVec 2048) (l : Nat) (f : Flags) (lane b : Nat) (hl : lane < 256) (hb : b < 7) :
    (raiseLane lf l f).getLsbD (8 * lane + b) = (lf.getLsbD (8 * lane + b) || (l == lane && f.getLsbD b)) := by
  unfold raiseLane
  rw [BitVec.getLsbD_or, BitVec.getLsbD_shiftLeft, BitVec.getLsbD_setWidth]
  congr 1
  have h1 : 8 * lane + b < 2048 := by omega
  by_cases c : l = lane
  · subst c
    have h2 : ¬ 8 * l + b < 8 * l := by omega
    have h3 : 8 * l + b - 8 * l = b := by omega
    have h4 : b < 2048 := by omega
    simp [h1, h2, h3, h4]
  · have c' : (l == lane) = false := by simpa using c
    rw [c', Bool.false_and]
    by_cases h2 : 8 * lane + b < 8 * l
    · simp [h2]
    · have : 7 ≤ 8 * lane + b - 8 * l := by omega
      rw [BitVec.getLsbD_of_ge _ _ this]
      simp

/-- What the elements from `lo` on of an element-wise instruction leave in its destination. -/
structure Folded (q base w size m lo n : Nat) (g : Nat → Put × Flags) (t u : Strand) : Prop where
  strand : u = { t with v := u.v, lflags := u.lflags }
  elems : ∀ e < m, elemGet u.v q base w e = if lo ≤ e ∧ e < lo + n then (g e).1.over w (elemGet t.v q base w e)
    else elemGet t.v q base w e
  others : ∀ r, OutsideGroup base size r → regAt u.v r = regAt t.v r
  tags : ∀ r, (regAt u.v r).tag = (regAt t.v r).tag
  flags : ∀ lane < 256, ∀ b < 7, u.lflags.getLsbD (8 * lane + b)
    = (t.lflags.getLsbD (8 * lane + b) || (List.range n).any fun i => (lo + i) % 256 == lane && (g (lo + i)).2.getLsbD b)

/-- What one element leaves. -/
theorem elementStep_folded {q base w size m e : Nat} (h : Holds q base w size m) (he : e < m) (f : Strand → Nat → Put × Flags)
    (t : Strand) (hq : t.q = q) :
    let u := elementStep (.vec base w) f t e
    u = { t with v := u.v, lflags := u.lflags }
    ∧ (∀ x < m, elemGet u.v q base w x = if x = e then (f t e).1.over w (elemGet t.v q base w x)
        else elemGet t.v q base w x)
    ∧ (∀ r, OutsideGroup base size r → regAt u.v r = regAt t.v r)
    ∧ (∀ r, (regAt u.v r).tag = (regAt t.v r).tag)
    ∧ ∀ lane < 256, ∀ b < 7, u.lflags.getLsbD (8 * lane + b)
        = (t.lflags.getLsbD (8 * lane + b) || (e % 256 == lane && (f t e).2.getLsbD b)) := by
  subst hq
  have raised : ∀ (y : Strand) (fl : Flags), y.raise e fl = { y with lflags := (y.raise e fl).lflags }
      ∧ ∀ lane < 256, ∀ b < 7, (y.raise e fl).lflags.getLsbD (8 * lane + b)
        = (y.lflags.getLsbD (8 * lane + b) || (e % 256 == lane && fl.getLsbD b)) := by
    intro y fl
    unfold Strand.raise
    split
    · rename_i z; refine ⟨rfl, fun lane _ b _ => ?_⟩; rw [z]; simp
    · exact ⟨rfl, fun lane hl b hb => getLsbD_raiseLane _ _ _ _ _ hl hb⟩
  have written : ∀ p : Put, t.putElem (.vec base w) e p = { t with v := (t.putElem (.vec base w) e p).v }
      ∧ (∀ x < m, elemGet (t.putElem (.vec base w) e p).v t.q base w x
          = if x = e then p.over w (elemGet t.v t.q base w x) else elemGet t.v t.q base w x)
      ∧ (∀ r, OutsideGroup base size r → regAt (t.putElem (.vec base w) e p).v r = regAt t.v r)
      ∧ ∀ r, (regAt (t.putElem (.vec base w) e p).v r).tag = (regAt t.v r).tag := by
    have wr : ∀ y, (∀ x < m, elemGet (elemSet t.v t.q base w e y) t.q base w x
          = if x = e then y % 2 ^ w else elemGet t.v t.q base w x)
        ∧ ∀ r, OutsideGroup base size r → regAt (elemSet t.v t.q base w e y) r = regAt t.v r := by
      refine fun y => ⟨fun x hx => ?_, fun r hr => regAt_elemSet_other h he hr.1 hr.2 _ _⟩
      by_cases c : x = e
      · subst c; rw [if_pos rfl]; exact elemGet_elemSet_same h he _ _
      · rw [if_neg c]; exact elemGet_elemSet_other h he hx c _ _
    intro p
    cases p with
    | val y => exact ⟨rfl, (wr y).1, (wr y).2, fun r => tag_elemSet _ _ _ _ _ _ _⟩
    | zero =>
      refine ⟨rfl, fun x hx => ?_, (wr 0).2, fun r => tag_elemSet _ _ _ _ _ _ _⟩
      have := (wr 0).1 x hx
      rw [Nat.zero_mod] at this
      exact this
    | keep =>
      refine ⟨rfl, fun x _ => ?_, fun r _ => rfl, fun r => rfl⟩
      show elemGet t.v t.q base w x = _
      split <;> rfl
  obtain ⟨a1, a2, a3, a4⟩ := written (f t e).1
  obtain ⟨b1, b2⟩ := raised (t.putElem (.vec base w) e (f t e).1) (f t e).2
  have hv : (elementStep (.vec base w) f t e).v = (t.putElem (.vec base w) e (f t e).1).v := by
    unfold elementStep; rw [b1]
  refine ⟨?_, ?_, ?_, ?_, ?_⟩
  · have e1 : elementStep (.vec base w) f t e
        = { t.putElem (.vec base w) e (f t e).1 with lflags := (elementStep (.vec base w) f t e).lflags } := b1
    rw [e1, a1]
  · intro x hx; rw [hv]; exact a2 x hx
  · intro r hr; rw [hv]; exact a3 r hr
  · intro r; rw [hv]; exact a4 r
  · intro lane hl b hb
    have := b2 lane hl b hb
    have hl2 : (t.putElem (.vec base w) e (f t e).1).lflags = t.lflags := by rw [a1]
    rw [hl2] at this
    exact this

/-- The elements of an element-wise instruction, where each is computed as from the strand before them all. -/
theorem element_fold {q base w size m : Nat} (h : Holds q base w size m) (t : Strand) (hq : t.q = q) (lo n : Nat)
    (hn : lo + n ≤ m) (f : Strand → Nat → Put × Flags) (g : Nat → Put × Flags)
    (hf : ∀ e, lo ≤ e → e < lo + n → ∀ u : Strand, u = { t with v := u.v, lflags := u.lflags } →
      (∀ x, e ≤ x → x < m → elemGet u.v q base w x = elemGet t.v q base w x) →
      (∀ r, OutsideGroup base size r → regAt u.v r = regAt t.v r) → f u e = g e) :
    Folded q base w size m lo n g t ((List.range n).foldl (fun t i => elementStep (.vec base w) f t (lo + i)) t) := by
  induction n with
  | zero =>
    refine ⟨rfl, fun e _ => ?_, fun r _ => rfl, fun r => rfl, fun lane _ b _ => by simp⟩
    rw [if_neg (by omega)]; rfl
  | succ n ih =>
    have ih := ih (by omega) fun e h1 h2 => hf e h1 (by omega)
    rw [List.range_succ, List.foldl_append]
    simp only [List.foldl_cons, List.foldl_nil]
    generalize (List.range n).foldl (fun t i => elementStep (.vec base w) f t (lo + i)) t = u at ih
    have uq : u.q = q := by rw [ih.strand]; exact hq
    obtain ⟨a1, a2, a3, a4, a5⟩ := elementStep_folded h (e := lo + n) (by omega) f u uq
    have fg : f u (lo + n) = g (lo + n) := by
      refine hf (lo + n) (by omega) (by omega) u ih.strand (fun x h1 h2 => ?_) ih.others
      rw [ih.elems x h2, if_neg (by omega)]
    rw [fg] at a2 a5
    refine ⟨?_, ?_, ?_, ?_, ?_⟩
    · rw [a1, ih.strand]
    · intro e he
      rw [a2 e he, ih.elems e he]
      by_cases c : e = lo + n
      · subst c
        rw [if_pos rfl, if_neg (by omega), if_pos (by omega)]
      · rw [if_neg c]
        by_cases d : lo ≤ e ∧ e < lo + n
        · rw [if_pos d, if_pos (by omega)]
        · rw [if_neg d, if_neg (by omega)]
    · intro r hr; rw [a3 r hr, ih.others r hr]
    · intro r; rw [a4 r, ih.tags r]
    · intro lane hl b hb
      rw [a5 lane hl b hb, ih.flags lane hl b hb, List.range_succ, List.any_append]
      simp [Bool.or_assoc]

/-- An element width of R39 is held evenly. -/
theorem widthFits_of {q w : Nat} (hq : 1 ≤ q ∧ q ≤ 4) (hw : w = 4 ∨ w = 8 ∨ w = 16 ∨ w = 32 ∨ w = 64) : widthFits q w := by
  refine ⟨by omega, hq.2, by omega, ?_⟩
  rcases hw with h | h | h | h | h <;> subst h <;> decide

/-- A group of width `w` under a legal `vtype` holds VLMAX elements. -/
theorem group_holds {t : Strand} {e : Entry} (h : Setting t e) (r : VReg) {w : Nat}
    (hw : w = 4 ∨ w = 8 ∨ w = 16 ∨ w = 32 ∨ w = 64) (hg : groupOk r.toNat (groupSize e.vtype w) = true) :
    Holds t.q r.toNat w (groupSize e.vtype w) (vlmaxOf t.q e.vtype) := by
  obtain ⟨hv, hq, _⟩ := h
  refine ⟨widthFits_of hq hw, ?_, ?_⟩
  · simp only [groupOk, Bool.and_eq_true, decide_eq_true_eq] at hg; exact hg.2
  · simp only [vtypeOk, Bool.and_eq_true, decide_eq_true_eq] at hv
    unfold groupSize vlmaxOf perReg grpOf ewOf
    obtain ⟨h1, h2⟩ := hv
    generalize fieldNat e.vtype 3 3 = a at h1
    generalize fieldNat e.vtype 0 3 = b at h2
    generalize t.q = q at hq
    obtain ⟨q1, q2⟩ := hq
    rcases hw with h | h | h | h | h <;> subst h <;> interval_cases a <;> interval_cases b <;> interval_cases q <;> decide

/-- EW under a legal `vtype`. -/
theorem ew_cases {vt : BitVec 12} (h : vtypeOk vt = true) :
    ewOf vt = 4 ∨ ewOf vt = 8 ∨ ewOf vt = 16 ∨ ewOf vt = 32 ∨ ewOf vt = 64 := by
  simp only [vtypeOk, Bool.and_eq_true, decide_eq_true_eq] at h
  obtain ⟨h1, _⟩ := h
  unfold ewOf
  generalize fieldNat vt 3 3 = a at h1
  interval_cases a <;> decide

/-- The tail under TU, as elements written. -/
theorem tail_fold (vt : BitVec 12) (d : Dst) (lo hi : Nat) (t : Strand) :
    t.tail vt d lo hi = (List.range (hi - lo)).foldl (fun u i =>
      elementStep d (fun _ _ => (if tuOf vt then .zero else .keep, 0)) u (lo + i)) t := by
  unfold Strand.tail
  split
  · rfl
  · symm
    generalize List.range (hi - lo) = l
    induction l generalizing t with
    | nil => rfl
    | cons a l ih => rw [List.foldl_cons]; exact ih t

/-- CONVOY_START of one element-wise instruction whose checks pass and whose elements are each computed as from the strand
before them all. -/
theorem performs_element {s : State} {sid : Nat} {t : Strand} {e : Entry} (h : Alone s sid t e) (hs : Setting t e)
    {vd : VReg} {w : Nat} (hw : w = 4 ∨ w = 8 ∨ w = 16 ∨ w = 32 ∨ w = 64)
    (hg : groupOk vd.toNat (groupSize e.vtype w) = true) {ty : Tag} {f : Strand → Nat → Put × Flags}
    {g : Nat → Put × Flags}
    (ha : isVamo e.i = false) (hp : prepare e.i (e.px t s ⟨t.v, t.k⟩ e.vl true none false)
      = .ok { t with v := setTags t.v vd.toNat (groupSize e.vtype w) ty }
          (elementMop e.vtype (.vec vd.toNat w) e.vl (vlmaxOf t.q e.vtype) f))
    (hf : ∀ n < e.vl, ∀ u : Strand, u = { t with v := u.v, lflags := u.lflags } →
      (∀ x, n ≤ x → x < vlmaxOf t.q e.vtype → elemGet u.v t.q vd.toNat w x = elemGet t.v t.q vd.toNat w x) →
      (∀ r, OutsideGroup vd.toNat (groupSize e.vtype w) r → regAt u.v r = regAt t.v r) → f u n = g n) :
    Performs s sid e none fun s' t' => Wrote s s' t t' e vd.toNat w ty g := by
  have hh := group_holds hs vd hw hg
  have hin := hh.inFile
  generalize ht1 : ({ t with v := setTags t.v vd.toNat (groupSize e.vtype w) ty } : Strand) = t1 at hp
  have t1v : t1.v = setTags t.v vd.toNat (groupSize e.vtype w) ty := by rw [← ht1]
  have t1q : t1.q = t.q := by rw [← ht1]; rfl
  have t1e : ∀ x, elemGet t1.v t.q vd.toNat w x = elemGet t.v t.q vd.toNat w x := by
    intro x; rw [t1v]; exact elemGet_setTags _ _ _ _ _ _ _ _
  have t1o : ∀ r, OutsideGroup vd.toNat (groupSize e.vtype w) r → regAt t1.v r = regAt t.v r := by
    intro r hr
    have := hr.2
    rw [t1v, regAt_setTags _ _ _ _ _ hr.1 hin, if_neg (by omega)]
  have t1s : t1 = { t with v := t1.v } := by rw [← ht1]
  -- the elements
  have body := element_fold hh t1 t1q 0 e.vl (by have := hs.length.2; omega) f g (by
    intro n _ hn u hu he ho
    refine hf n (by omega) u (by rw [hu, t1s]) (fun x h1 h2 => ?_) (fun r hr => ?_)
    · rw [he x h1 h2, t1e]
    · rw [ho r hr, t1o r hr])
  simp only [Nat.zero_add] at body
  generalize hu : (List.range e.vl).foldl (fun t i => elementStep (.vec vd.toNat w) f t i) t1 = u at body
  have uq : u.q = t.q := by rw [body.strand]; exact t1q
  -- the tail
  have tail := element_fold hh u uq e.vl (vlmaxOf t.q e.vtype - e.vl) (by have := hs.length.2; omega)
    (fun _ _ => (if tuOf e.vtype then .zero else .keep, 0)) (fun _ => (if tuOf e.vtype then .zero else .keep, 0))
    (fun _ _ _ _ _ _ _ => rfl)
  rw [← tail_fold] at tail
  generalize hz : u.tail e.vtype (.vec vd.toNat w) e.vl (vlmaxOf t.q e.vtype) = z at tail
  have zs : z = { t with v := z.v, lflags := z.lflags } := by rw [tail.strand, body.strand, t1s]
  have hst : s.strand sid = some t := h.here
  refine performs_of_run h (by have := hs.length.1; omega) ha hp (fun n r r' h1 h2 => ?_)
    (r1 := .start u s none) (r2 := .start z s none) ?_ ?_ ?_ ?_ ?_ ?_ ?_ ?_
  · simp only [Rr.ok.injEq] at h1
    rw [← h1]; exact h2
  · rw [eachElem_element]
    simp only [Run.start, Nat.zero_add, hu]
  · show Rr.ok _ = _
    simp only [Run.start, Run.upd, hz]
  · show z.id = t.id
    rw [zs]
  · show z.qstall = false
    rw [zs]; exact h.calm
  · show z.vfault = none
    rw [zs]; exact h.sound
  · intro n _; rfl
  · simp only [Run.start, hst, Option.isSome_some]
  · intro s' y hs' hy hstl
    simp only [Run.start] at hs' hy
    have yv : y.v = z.v := by rw [hy]
    have yl : y.lflags = z.lflags := by rw [hy]
    refine ⟨?_, ?_, fun d => (hstl d).trans (by rw [zs]; rfl), ?_, ?_, ?_, ?_, ?_⟩
    · rw [hs']
    · rw [hy, zs, h.quiet]
    · intro n hn
      have hm : n < vlmaxOf t.q e.vtype := by have := hs.length.2; omega
      rw [yv, tail.elems n hm, if_neg (by omega), body.elems n hm, if_pos (by omega), t1e]
    · intro n h1 h2
      have c1 : e.vl ≤ n ∧ n < e.vl + (vlmaxOf t.q e.vtype - e.vl) := by omega
      have c2 : ¬ (0 ≤ n ∧ n < 0 + e.vl) := by omega
      rw [yv, tail.elems n h2, body.elems n h2, t1e]
      simp only [c1, c2, and_self, if_true, if_false]
      split <;> rfl
    · intro r hr; rw [yv, tail.others r hr, body.others r hr, t1o r hr]
    · intro r h1 h2
      rw [yv, tail.tags r, body.tags r, t1v, regAt_setTags _ _ _ _ _ (by omega) hin, if_pos ⟨h1, h2⟩]
    · intro lane hl b hb
      have e1 : t1.lflags = t.lflags := by rw [← ht1]
      rw [yl, tail.flags lane hl b hb, body.flags lane hl b hb, e1]
      have : ((List.range (vlmaxOf t.q e.vtype - e.vl)).any fun i =>
          (e.vl + i) % 256 == lane && (0 : Flags).getLsbD b) = false := by simp
      rw [this, Bool.or_false]
      simp

/-! ## Instructions with a mask destination -/

/-- Flags raised in a lane. -/
theorem raise_bits (y : Strand) (e : Nat) (fl : Flags) : y.raise e fl = { y with lflags := (y.raise e fl).lflags }
    ∧ ∀ lane < 256, ∀ b < 7, (y.raise e fl).lflags.getLsbD (8 * lane + b)
      = (y.lflags.getLsbD (8 * lane + b) || (e % 256 == lane && fl.getLsbD b)) := by
  unfold Strand.raise
  split
  · rename_i z; refine ⟨rfl, fun lane _ b _ => ?_⟩; rw [z]; simp
  · exact ⟨rfl, fun lane hl b hb => getLsbD_raiseLane _ _ _ _ _ hl hb⟩

/-- What the elements from `lo` on leave in a mask register. -/
structure FoldedMask (kd : KReg) (lo n : Nat) (g : Nat → Put × Flags) (t u : Strand) : Prop where
  strand : u = { t with k := u.k, lflags := u.lflags }
  bits : kd ≠ 0 → ∀ e < 262144, maskBit u.k kd e = if lo ≤ e ∧ e < lo + n then (g e).1.overBit (maskBit t.k kd e)
    else maskBit t.k kd e
  others : ∀ k, k ≠ kd ∨ k = 0 → ∀ e < 262144, maskBit u.k k e = maskBit t.k k e
  flags : ∀ lane < 256, ∀ b < 7, u.lflags.getLsbD (8 * lane + b)
    = (t.lflags.getLsbD (8 * lane + b) || (List.range n).any fun i => (lo + i) % 256 == lane && (g (lo + i)).2.getLsbD b)

/-- What one element leaves in a mask register. -/
theorem maskStep_folded {kd : KReg} {e : Nat} (he : e < 262144) (f : Strand → Nat → Put × Flags) (t : Strand) :
    let u := elementStep (.mask kd) f t e
    u = { t with k := u.k, lflags := u.lflags }
    ∧ (kd ≠ 0 → ∀ x < 262144, maskBit u.k kd x = if x = e then (f t e).1.overBit (maskBit t.k kd x) else maskBit t.k kd x)
    ∧ (∀ k, k ≠ kd ∨ k = 0 → ∀ x < 262144, maskBit u.k k x = maskBit t.k k x)
    ∧ ∀ lane < 256, ∀ b < 7, u.lflags.getLsbD (8 * lane + b)
        = (t.lflags.getLsbD (8 * lane + b) || (e % 256 == lane && (f t e).2.getLsbD b)) := by
  have wr : ∀ y : Bool, (kd ≠ 0 → ∀ x < 262144, maskBit (maskSet t.k kd e y) kd x = if x = e then y else maskBit t.k kd x)
      ∧ ∀ k, k ≠ kd ∨ k = 0 → ∀ x < 262144, maskBit (maskSet t.k kd e y) k x = maskBit t.k k x := by
    refine fun y => ⟨fun hk x hx => ?_, fun k hk x hx => ?_⟩
    · rw [maskBit_maskSet _ _ _ _ _ _ he hx]
      simp [show ¬ kd = 0#3 from hk]
    · rw [maskBit_maskSet _ _ _ _ _ _ he hx, if_neg]
      rintro ⟨rfl, h2, _⟩
      rcases hk with h | h
      · exact h rfl
      · exact h2 h
  have written : ∀ p : Put, t.putElem (.mask kd) e p = { t with k := (t.putElem (.mask kd) e p).k }
      ∧ (kd ≠ 0 → ∀ x < 262144, maskBit (t.putElem (.mask kd) e p).k kd x
          = if x = e then p.overBit (maskBit t.k kd x) else maskBit t.k kd x)
      ∧ ∀ k, k ≠ kd ∨ k = 0 → ∀ x < 262144, maskBit (t.putElem (.mask kd) e p).k k x = maskBit t.k k x := by
    intro p
    cases p with
    | val y => exact ⟨rfl, (wr _).1, (wr _).2⟩
    | zero => exact ⟨rfl, (wr _).1, (wr _).2⟩
    | keep =>
      refine ⟨rfl, fun _ x _ => ?_, fun _ _ x _ => rfl⟩
      show maskBit t.k kd x = _
      split <;> rfl
  obtain ⟨a1, a2, a3⟩ := written (f t e).1
  obtain ⟨b1, b2⟩ := raise_bits (t.putElem (.mask kd) e (f t e).1) e (f t e).2
  have hk : (elementStep (.mask kd) f t e).k = (t.putElem (.mask kd) e (f t e).1).k := by
    unfold elementStep; rw [b1]
  refine ⟨?_, ?_, ?_, ?_⟩
  · have e1 : elementStep (.mask kd) f t e
        = { t.putElem (.mask kd) e (f t e).1 with lflags := (elementStep (.mask kd) f t e).lflags } := b1
    rw [e1, a1]
  · intro h x hx; rw [hk]; exact a2 h x hx
  · intro k h x hx; rw [hk]; exact a3 k h x hx
  · intro lane hl b hb
    have := b2 lane hl b hb
    have hl2 : (t.putElem (.mask kd) e (f t e).1).lflags = t.lflags := by rw [a1]
    rw [hl2] at this
    exact this

/-- The elements of an instruction with a mask destination, each computed as from the strand before them all. -/
theorem mask_fold {kd : KReg} (t : Strand) (lo n : Nat) (hn : lo + n ≤ 262144) (f : Strand → Nat → Put × Flags)
    (g : Nat → Put × Flags)
    (hf : ∀ e, lo ≤ e → e < lo + n → ∀ u : Strand, u = { t with k := u.k, lflags := u.lflags } →
      (∀ k x, e ≤ x → x < 262144 → maskBit u.k k x = maskBit t.k k x) → f u e = g e) :
    FoldedMask kd lo n g t ((List.range n).foldl (fun t i => elementStep (.mask kd) f t (lo + i)) t) := by
  induction n with
  | zero =>
    refine ⟨rfl, fun _ e _ => ?_, fun _ _ _ _ => rfl, fun lane _ b _ => by simp⟩
    rw [if_neg (by omega)]; rfl
  | succ n ih =>
    have ih := ih (by omega) fun e h1 h2 => hf e h1 (by omega)
    rw [List.range_succ, List.foldl_append]
    simp only [List.foldl_cons, List.foldl_nil]
    generalize (List.range n).foldl (fun t i => elementStep (.mask kd) f t (lo + i)) t = u at ih
    obtain ⟨a1, a2, a3, a5⟩ := maskStep_folded (kd := kd) (e := lo + n) (by omega) f u
    have fg : f u (lo + n) = g (lo + n) := by
      refine hf (lo + n) (by omega) (by omega) u ih.strand (fun k x h1 h2 => ?_)
      by_cases c : k ≠ kd ∨ k = 0
      · exact ih.others k c x h2
      · have c1 : k = kd := by
          by_contra d; exact c (.inl d)
        have c2 : kd ≠ 0 := fun d => c (.inr (c1.trans d))
        rw [c1, ih.bits c2 x h2, if_neg (by omega)]
    rw [fg] at a2 a5
    refine ⟨?_, ?_, ?_, ?_⟩
    · rw [a1, ih.strand]
    · intro hk e he
      rw [a2 hk e he, ih.bits hk e he]
      by_cases c : e = lo + n
      · subst c
        rw [if_pos rfl, if_neg (by omega), if_pos (by omega)]
      · rw [if_neg c]
        by_cases d : lo ≤ e ∧ e < lo + n
        · rw [if_pos d, if_pos (by omega)]
        · rw [if_neg d, if_neg (by omega)]
    · intro k hk e he; rw [a3 k hk e he, ih.others k hk e he]
    · intro lane hl b hb
      rw [a5 lane hl b hb, ih.flags lane hl b hb, List.range_succ, List.any_append]
      simp [Bool.or_assoc]

/-- VLMAX is at most the bits of a mask register. -/
theorem vlmax_le {t : Strand} {e : Entry} (h : Setting t e) : vlmaxOf t.q e.vtype ≤ 262144 := by
  obtain ⟨hv, hq, _⟩ := h
  simp only [vtypeOk, Bool.and_eq_true, decide_eq_true_eq] at hv
  unfold vlmaxOf grpOf ewOf
  obtain ⟨h1, h2⟩ := hv
  generalize fieldNat e.vtype 3 3 = a at h1
  generalize fieldNat e.vtype 0 3 = b at h2
  generalize t.q = q at hq
  obtain ⟨q1, q2⟩ := hq
  interval_cases a <;> interval_cases b <;> interval_cases q <;> decide

/-- CONVOY_START of one instruction with a mask destination whose checks pass. -/
theorem performs_mask {s : State} {sid : Nat} {t : Strand} {e : Entry} (h : Alone s sid t e) (hs : Setting t e)
    {kd : KReg} {f : Strand → Nat → Put × Flags} {g : Nat → Put × Flags}
    (ha : isVamo e.i = false) (hp : prepare e.i (e.px t s ⟨t.v, t.k⟩ e.vl true none false)
      = .ok t (elementMop e.vtype (.mask kd) e.vl (vlmaxOf t.q e.vtype) f))
    (hf : ∀ n < e.vl, ∀ u : Strand, u = { t with k := u.k, lflags := u.lflags } →
      (∀ k x, n ≤ x → x < 262144 → maskBit u.k k x = maskBit t.k k x) → f u n = g n) :
    Performs s sid e none fun s' t' => WroteMask s s' t t' e kd g := by
  have hm := vlmax_le hs
  have body := mask_fold (kd := kd) t 0 e.vl (by have := hs.length.2; omega) f g (by
    intro n _ hn u hu he
    exact hf n (by omega) u hu he)
  simp only [Nat.zero_add] at body
  generalize hu : (List.range e.vl).foldl (fun t i => elementStep (.mask kd) f t i) t = u at body
  have tail := mask_fold (kd := kd) u e.vl (vlmaxOf t.q e.vtype - e.vl) (by have := hs.length.2; omega)
    (fun _ _ => (if tuOf e.vtype then .zero else .keep, 0)) (fun _ => (if tuOf e.vtype then .zero else .keep, 0))
    (fun _ _ _ _ _ _ => rfl)
  rw [← tail_fold] at tail
  generalize hz : u.tail e.vtype (.mask kd) e.vl (vlmaxOf t.q e.vtype) = z at tail
  have zs : z = { t with k := z.k, lflags := z.lflags } := by rw [tail.strand, body.strand]
  have hst : s.strand sid = some t := h.here
  refine performs_of_run h (by have := hs.length.1; omega) ha hp (fun n r r' h1 h2 => ?_)
    (r1 := .start u s none) (r2 := .start z s none) ?_ ?_ ?_ ?_ ?_ ?_ ?_ ?_
  · simp only [Rr.ok.injEq] at h1
    rw [← h1]; exact h2
  · rw [eachElem_element]
    simp only [Run.start, Nat.zero_add, hu]
  · show Rr.ok _ = _
    simp only [Run.start, Run.upd, hz]
  · show z.id = t.id
    rw [zs]
  · show z.qstall = false
    rw [zs]; exact h.calm
  · show z.vfault = none
    rw [zs]; exact h.sound
  · intro n _; rfl
  · simp only [Run.start, hst, Option.isSome_some]
  · intro s' y hs' hy hstl
    simp only [Run.start] at hs' hy
    have yk : y.k = z.k := by rw [hy]
    have yl : y.lflags = z.lflags := by rw [hy]
    have hl := hs.length.2
    refine ⟨?_, ?_, fun d => (hstl d).trans (by rw [zs]; rfl), ?_, ?_, ?_, ?_⟩
    · rw [hs']
    · rw [hy, zs, h.quiet]
    · intro hk n hn
      rw [yk, tail.bits hk n (by omega), if_neg (by omega), body.bits hk n (by omega), if_pos (by omega)]
    · intro hk n h1 h2
      have c1 : e.vl ≤ n ∧ n < e.vl + (vlmaxOf t.q e.vtype - e.vl) := by omega
      have c2 : ¬ (0 ≤ n ∧ n < 0 + e.vl) := by omega
      rw [yk, tail.bits hk n (by omega), body.bits hk n (by omega)]
      simp only [c1, c2, and_self, if_true, if_false]
      split <;> rfl
    · intro k hk n hn; rw [yk, tail.others k hk n hn, body.others k hk n hn]
    · intro lane hl b hb
      rw [yl, tail.flags lane hl b hb, body.flags lane hl b hb]
      have : ((List.range (vlmaxOf t.q e.vtype - e.vl)).any fun i =>
          (e.vl + i) % 256 == lane && (0 : Flags).getLsbD b) = false := by simp
      rw [this, Bool.or_false]
      simp

/-! ## Instructions that deliver a value -/

/-- Groups that do nothing are elements that do nothing. -/
theorem idle_group : (fun (_ _ : Nat) (r : Run) => Rr.ok r) = overElems fun _ r => .ok r := by
  funext lo hi r
  unfold overElems
  generalize hi - lo = n
  generalize lo = a
  induction n generalizing a with
  | zero => rfl
  | succ n ih => exact ih (a + 1)

/-- Flags raised one after another. -/
theorem raise_all (fl : List (Nat × Flags)) (t : Strand) :
    let u := fl.foldl (fun u p => u.raise p.1 p.2) t
    u = { t with lflags := u.lflags } ∧ ∀ lane < 256, ∀ b < 7, u.lflags.getLsbD (8 * lane + b)
      = (t.lflags.getLsbD (8 * lane + b) || fl.any fun p => p.1 % 256 == lane && p.2.getLsbD b) := by
  induction fl generalizing t with
  | nil => exact ⟨rfl, fun _ _ _ _ => by simp⟩
  | cons p l ih =>
    obtain ⟨a1, a2⟩ := ih (t.raise p.1 p.2)
    obtain ⟨b1, b2⟩ := raise_bits t p.1 p.2
    refine ⟨?_, fun lane hl b hb => ?_⟩
    · rw [b1] at a1
      rw [List.foldl_cons, b1]; exact a1
    · rw [List.foldl_cons, a2 lane hl b hb, b2 lane hl b hb]
      simp [Bool.or_assoc]

/-- CONVOY_START of one instruction whose checks pass and which only delivers a value. -/
theorem performs_result {s : State} {sid : Nat} {t : Strand} {e : Entry} (h : Alone s sid t e) (hv : 0 < e.vl)
    {x : Word} {fl : List (Nat × Flags)} (ha : isVamo e.i = false)
    (hp : prepare e.i (e.px t s ⟨t.v, t.k⟩ e.vl true none false) = .ok t (resultMop x fl)) :
    Performs s sid e (some x) fun s' t' => Delivered s s' t t' e fl := by
  obtain ⟨a1, a2⟩ := raise_all fl t
  generalize hz : fl.foldl (fun u p => u.raise p.1 p.2) t = z at a1 a2
  have hst : s.strand sid = some t := h.here
  have hm : resultMop x fl = ⟨overElems fun _ r => .ok r,
      fun r => .ok { (r.upd fun t => fl.foldl (fun u p => u.raise p.1 p.2) t) with out := some x }⟩ := by
    unfold resultMop; rw [idle_group]
  rw [hm] at hp
  refine performs_of_run h hv ha hp (fun n r r' h1 h2 => ?_) (r1 := .start t s none) (r2 := ⟨z, s, [], some x, [], none, []⟩)
    ?_ ?_ ?_ ?_ ?_ ?_ ?_ ?_
  · simp only [Rr.ok.injEq] at h1
    rw [← h1]; exact h2
  · have := congrFun (congrFun (congrFun idle_group 0) e.vl) (.start t s none)
    exact this.symm
  · simp only [Run.start, Run.upd, hz]
  · show z.id = t.id
    rw [a1]
  · show z.qstall = false
    rw [a1]; exact h.calm
  · show z.vfault = none
    rw [a1]; exact h.sound
  · intro n _; rfl
  · simp only [Run.start, hst, Option.isSome_some]
  · intro s' y hs' hy hstl
    simp only [Run.start] at hs' hy
    refine ⟨by rw [hs'], by rw [hy, a1, h.quiet], fun d => (hstl d).trans (by rw [a1]), fun lane hl b hb => ?_⟩
    have yl : y.lflags = z.lflags := by rw [hy]
    rw [yl]; exact a2 lane hl b hb

end Sys2Proof.Machine
end

