-- ==== Sys2Proof/Laws/Ops.lean ====
section
/-!
SUPPORT. What each shared operation can do, said once: dispatch of a scalar instruction, an access that its translation permits
and its home answers, an access from outside.
-/

namespace Sys2Proof.Machine

/-! ## Dispatch -/

theorem State.withCur_of {s : State} {t : Strand} (h : s.curStrand = some t) (f : Strand → Out) : s.withCur f = f t := by
  simp [State.withCur, h]

/-- A scalar instruction that is ready takes its strand past its head. -/
theorem State.scalar_ready {s : State} {t : Strand} {regs : List SReg} (h : Ready s t regs) (f : Strand → Strand) :
    s.scalar regs f = .next (s.put (f t).advance) := by
  simp [State.scalar, State.withCur_of h.1, h.2]

/-- A scalar instruction that is not ready waits. -/
theorem State.scalar_waits {s : State} {t : Strand} {regs : List SReg} (h : s.curStrand = some t)
    (hw : t.mustWait regs = true) (f : Strand → Strand) : s.scalar regs f = .next (s.waitFor t regs) := by
  simp [State.scalar, State.withCur_of h, hw]

/-- A scalar instruction answers a next state wherever a strand dispatches. -/
theorem State.scalar_safe {s : State} {t : Strand} (h : s.curStrand = some t) (regs : List SReg) (f : Strand → Strand) :
    Safe (s.scalar regs f) := by
  cases hw : t.mustWait regs
  · exact ⟨_, State.scalar_ready ⟨h, hw⟩ f⟩
  · exact ⟨_, State.scalar_waits h hw f⟩

/-! ## Accesses that answer -/

theorem State.translate_hit {s : State} {c : Ctx} {va : Nat} {need : Need} {e : TlbEntry} (addr : Word)
    (h : s.tlbHit c.asid va = some e) (hp : ptePermits e.pte need = true) (hd : s.denied c va = none) :
    s.translate c addr va need = .ok e s := by
  simp [State.translate, h, hp, hd]

theorem State.requested_mapped {s : State} {c : Ctx} {va : Word} {n align : Nat} {need : Need} {e : TlbEntry}
    (h : Mapped s c va n need e) (ha : va.toNat % align = 0) : s.requested c va n align need = .ok e s := by
  simp [State.requested, h.canon, ha, State.translate_hit va h.hit h.permits h.undenied]

/-- A mapped access whose home answers resolves to that home. -/
theorem State.resolve_served {s : State} {c : Ctx} {va : Word} {n align hb : Nat} {need : Need} {e : TlbEntry} {k : Kind}
    (h : Mapped s c va n need e) (ha : va.toNat % align = 0) (hs : Served s c va e hb)
    (hk : attrCause (pteAttr e.pte) k = none) :
    s.resolve c va n align need k = .ok ⟨hb, va, 0, pteAttr e.pte, some .plain⟩ s := by
  simp only [State.resolve, State.requested_mapped h ha, Res.bind, hk]
  obtain ⟨_, hs⟩ := hs
  split at hs
  · rename_i hx
    simp [hx, hs]
  · rename_i hx
    rw [if_neg hx]
    obtain ⟨rfl, hs⟩ := hs
    rcases hs with hs | ⟨hl, hp, ho, hu⟩
    · simp [hs, hasLines, attrHost]
    · simp [hl, State.chase, hp, State.closed, ho, hu]

/-- The home of a served access serves it. -/
theorem State.atHome_served {s : State} {c : Ctx} {va : Word} {hb : Nat} {e : TlbEntry} (hs : Served s c va e hb)
    (addr : Word) (need : Need) (whole : Bool) :
    s.atHome c addr ⟨hb, va, 0, pteAttr e.pte, some .plain⟩ need whole = .ok ⟨hb, va, 0, pteAttr e.pte, some .plain⟩ s := by
  obtain ⟨⟨hsoft, hbehind, hturn⟩, hs⟩ := hs
  simp only [State.atHome, hsoft, hbehind, hturn, Bool.false_and, Bool.and_false, Bool.or_false]
  split at hs
  · rename_i hx
    simp [hx, hasLines, attrSlab]
  · rcases hs with ⟨_, hs | ⟨_, _, ho, hu⟩⟩
    · simp [hs, hasLines, attrHost]
    · simp [State.closed, ho, hu]

/-- A served page is no flash page. -/
theorem Served.attr {s : State} {c : Ctx} {va : Word} {hb : Nat} {e : TlbEntry} (hs : Served s c va e hb) :
    pteAttr e.pte ≠ attrFlash := by
  intro hf
  obtain ⟨_, hs⟩ := hs
  rw [hf] at hs
  rw [if_neg (by decide)] at hs
  rcases hs with ⟨_, hs | ⟨hl, _⟩⟩
  · exact absurd hs (by decide)
  · exact absurd hl (by decide)

/-- A word or block written from outside where its home answers. -/
theorem State.writeBytes_served {s : State} {c : Ctx} {va : Word} {hb : Nat} {e : TlbEntry} {bs : List Byte}
    (h : Mapped s c va bs.length .write e) (hs : Served s c va e hb) (hl : bs.length ≠ 128) :
    s.writeBytes c va bs = .ok () (s.writeHome hb bs) := by
  have hk : attrCause (pteAttr e.pte) .data = none := by simp [attrCause, hs.attr]
  have hn : (bs.length == 128) = false := by simpa using hl
  simp [State.writeBytes, State.resolve_served h (Nat.mod_one _) hs hk, Res.bind, State.atHome_served hs, hn]
  simp [hl, State.writeHome]
  split <;> simp_all [State.setLine]

/-- Bytes read from outside where their homes answer. -/
theorem State.readBytes_served (c : Ctx) (s : State) (bs : List Byte) (va : Word)
    (h : ∀ i b, bs[i]? = some b → ∃ e hb, Mapped s c (va + BitVec.ofNat 64 i) 1 .read e
      ∧ Served s c (va + BitVec.ofNat 64 i) e hb ∧ Memory.get s.mem hb = b) :
    s.readBytes c va bs.length = .ok bs s := by
  induction bs generalizing va with
  | nil => simp [State.readBytes]
  | cons x xs ih =>
    obtain ⟨e, hb, hm, hs, hg⟩ := h 0 x rfl
    simp only [BitVec.ofNat_eq_ofNat, BitVec.add_zero] at hm hs
    have hk : attrCause (pteAttr e.pte) .data = none := by simp [attrCause, hs.attr]
    simp only [List.length_cons, State.readBytes, State.resolve_served hm (Nat.mod_one _) hs hk, Res.bind,
      State.atHome_served hs]
    rw [ih (va + 1)]
    · simp [hg]
    · intro i b hi
      obtain ⟨e, hb, r⟩ := h (i + 1) b (by simpa using hi)
      refine ⟨e, hb, ?_⟩
      have : va + 1 + BitVec.ofNat 64 i = va + BitVec.ofNat 64 (i + 1) := by
        rw [BitVec.add_assoc, show (1 : Word) = BitVec.ofNat 64 1 from rfl, ← BitVec.ofNat_add, Nat.add_comm]
      rw [this]
      exact r

/-! ## Services, accesses from outside -/

@[simp] theorem State.endSvc_endSvc (s : State) (w : Agent) : (s.endSvc w).endSvc w = s.endSvc w := by
  simp [State.endSvc]

@[simp] theorem State.keepWait_self (s : State) : s.keepWait s = s := rfl

theorem State.outside_ok {α : Type} (s : State) (key : Nat) (a : α) (w : State) (bad : State → State)
    (f : α → State → State) : s.outside key (.ok a w) bad f = f a (w.outsideDone key) := rfl

end Sys2Proof.Machine
end

