-- ==== Sys2Proof/Laws/PerInstr.lean ====
section
/-!
SUPPORT. Every well-formed instruction has words (R141, R153): the statement for one instruction, and its case for each
constructor.
-/

set_option Elab.async false

namespace Sys2Proof.Laws.Encoding

/-- A well-formed instruction that is no event has an encoding. -/
def Statement (i : Instr) : Prop :=
  i.wf = true → i.isEvent = false → (encode i).isSome = true

theorem nop : Statement .nop := fun _ _ => rfl
theorem finish : Statement .finish := fun _ _ => rfl
theorem ret : Statement .ret := fun _ _ => rfl
theorem br (x0 x1) : Statement (.br x0 x1) := fun _ _ => rfl
theorem call (x0 x1) : Statement (.call x0 x1) := fun _ _ => rfl
theorem jr (x0 x1 x2) : Statement (.jr x0 x1 x2) := fun _ _ => rfl
theorem beq (x0 x1 x2 x3) : Statement (.beq x0 x1 x2 x3) := fun _ _ => rfl
theorem bne (x0 x1 x2 x3) : Statement (.bne x0 x1 x2 x3) := fun _ _ => rfl
theorem blt (x0 x1 x2 x3) : Statement (.blt x0 x1 x2 x3) := fun _ _ => rfl
theorem bge (x0 x1 x2 x3) : Statement (.bge x0 x1 x2 x3) := fun _ _ => rfl
theorem bltn (x0 x1 x2 x3) : Statement (.bltn x0 x1 x2 x3) := fun _ _ => rfl
theorem bgen (x0 x1 x2 x3) : Statement (.bgen x0 x1 x2 x3) := fun _ _ => rfl
theorem bz (x0 x1 x2) : Statement (.bz x0 x1 x2) := fun _ _ => rfl
theorem bnz (x0 x1 x2) : Statement (.bnz x0 x1 x2) := fun _ _ => rfl
theorem sget (x0 x1) : Statement (.sget x0 x1) := fun _ _ => rfl
theorem sput (x0 x1) : Statement (.sput x0 x1) := fun _ _ => rfl
theorem vsetvl (x0 x1) : Statement (.vsetvl x0 x1) := fun _ _ => rfl
theorem vsettype (x0 x1) : Statement (.vsettype x0 x1) := fun _ _ => rfl
theorem vsettypeImm (x0 x1) : Statement (.vsettypeImm x0 x1) := fun _ _ => rfl
theorem qdrain (x0 x1) : Statement (.qdrain x0 x1) := fun _ _ => rfl
theorem brk (x0) : Statement (.brk x0) := fun _ _ => rfl
theorem trap (x0 x1) : Statement (.trap x0 x1) := fun _ _ => rfl
theorem sysCall (x0 x1) : Statement (.sysCall x0 x1) := fun _ _ => rfl
theorem progMark (x0 x1) : Statement (.progMark x0 x1) := fun _ _ => rfl
theorem taskPost (x0 x1 x2) : Statement (.taskPost x0 x1 x2) := fun _ _ => rfl
theorem add (x0 x1 x2) : Statement (.add x0 x1 x2) := fun _ _ => rfl
theorem sub (x0 x1 x2) : Statement (.sub x0 x1 x2) := fun _ _ => rfl
theorem mul (x0 x1 x2) : Statement (.mul x0 x1 x2) := fun _ _ => rfl
theorem mulh (x0 x1 x2) : Statement (.mulh x0 x1 x2) := fun _ _ => rfl
theorem mulhN (x0 x1 x2) : Statement (.mulhN x0 x1 x2) := fun _ _ => rfl
theorem div (x0 x1 x2) : Statement (.div x0 x1 x2) := fun _ _ => rfl
theorem divN (x0 x1 x2) : Statement (.divN x0 x1 x2) := fun _ _ => rfl
theorem rem (x0 x1 x2) : Statement (.rem x0 x1 x2) := fun _ _ => rfl
theorem remN (x0 x1 x2) : Statement (.remN x0 x1 x2) := fun _ _ => rfl
theorem addImm (x0 x1 x2) : Statement (.addImm x0 x1 x2) := fun _ _ => rfl
theorem subImm (x0 x1 x2) : Statement (.subImm x0 x1 x2) := fun _ _ => rfl
theorem mulImm (x0 x1 x2) : Statement (.mulImm x0 x1 x2) := fun _ _ => rfl
theorem and (x0 x1 x2) : Statement (.and x0 x1 x2) := fun _ _ => rfl
theorem or (x0 x1 x2) : Statement (.or x0 x1 x2) := fun _ _ => rfl
theorem xor (x0 x1 x2) : Statement (.xor x0 x1 x2) := fun _ _ => rfl
theorem andn (x0 x1 x2) : Statement (.andn x0 x1 x2) := fun _ _ => rfl
theorem shl (x0 x1 x2) : Statement (.shl x0 x1 x2) := fun _ _ => rfl
theorem shr (x0 x1 x2) : Statement (.shr x0 x1 x2) := fun _ _ => rfl
theorem sar (x0 x1 x2) : Statement (.sar x0 x1 x2) := fun _ _ => rfl
theorem rot (x0 x1 x2) : Statement (.rot x0 x1 x2) := fun _ _ => rfl
theorem andImm (x0 x1 x2) : Statement (.andImm x0 x1 x2) := fun _ _ => rfl
theorem orImm (x0 x1 x2) : Statement (.orImm x0 x1 x2) := fun _ _ => rfl
theorem xorImm (x0 x1 x2) : Statement (.xorImm x0 x1 x2) := fun _ _ => rfl
theorem andnImm (x0 x1 x2) : Statement (.andnImm x0 x1 x2) := fun _ _ => rfl
theorem shlImm (x0 x1 x2) : Statement (.shlImm x0 x1 x2) := fun _ _ => rfl
theorem shrImm (x0 x1 x2) : Statement (.shrImm x0 x1 x2) := fun _ _ => rfl
theorem sarImm (x0 x1 x2) : Statement (.sarImm x0 x1 x2) := fun _ _ => rfl
theorem rotImm (x0 x1 x2) : Statement (.rotImm x0 x1 x2) := fun _ _ => rfl
theorem min (x0 x1 x2) : Statement (.min x0 x1 x2) := fun _ _ => rfl
theorem max (x0 x1 x2) : Statement (.max x0 x1 x2) := fun _ _ => rfl
theorem minN (x0 x1 x2) : Statement (.minN x0 x1 x2) := fun _ _ => rfl
theorem maxN (x0 x1 x2) : Statement (.maxN x0 x1 x2) := fun _ _ => rfl
theorem cmpEq (x0 x1 x2) : Statement (.cmpEq x0 x1 x2) := fun _ _ => rfl
theorem cmpNe (x0 x1 x2) : Statement (.cmpNe x0 x1 x2) := fun _ _ => rfl
theorem cmpLt (x0 x1 x2) : Statement (.cmpLt x0 x1 x2) := fun _ _ => rfl
theorem cmpGe (x0 x1 x2) : Statement (.cmpGe x0 x1 x2) := fun _ _ => rfl
theorem cmpLtN (x0 x1 x2) : Statement (.cmpLtN x0 x1 x2) := fun _ _ => rfl
theorem cmpGeN (x0 x1 x2) : Statement (.cmpGeN x0 x1 x2) := fun _ _ => rfl
theorem cmpEqImm (x0 x1 x2) : Statement (.cmpEqImm x0 x1 x2) := fun _ _ => rfl
theorem cmpNeImm (x0 x1 x2) : Statement (.cmpNeImm x0 x1 x2) := fun _ _ => rfl
theorem cmpLtImm (x0 x1 x2) : Statement (.cmpLtImm x0 x1 x2) := fun _ _ => rfl
theorem cmpGeImm (x0 x1 x2) : Statement (.cmpGeImm x0 x1 x2) := fun _ _ => rfl
theorem cmpLtNImm (x0 x1 x2) : Statement (.cmpLtNImm x0 x1 x2) := fun _ _ => rfl
theorem cmpGeNImm (x0 x1 x2) : Statement (.cmpGeNImm x0 x1 x2) := fun _ _ => rfl
theorem clz (x0 x1) : Statement (.clz x0 x1) := fun _ _ => rfl
theorem ctz (x0 x1) : Statement (.ctz x0 x1) := fun _ _ => rfl
theorem pop (x0 x1) : Statement (.pop x0 x1) := fun _ _ => rfl
theorem bext (x0 x1 x2 x3) : Statement (.bext x0 x1 x2 x3) := fun _ _ => rfl
theorem bins (x0 x1 x2 x3) : Statement (.bins x0 x1 x2 x3) := fun _ _ => rfl
theorem li (x0 x1) : Statement (.li x0 x1) := fun _ _ => rfl
theorem lih (x0 x1 x2) : Statement (.lih x0 x1 x2) := fun _ _ => rfl
theorem lea (x0 x1 x2 x3 x4) : Statement (.lea x0 x1 x2 x3 x4) := fun _ _ => rfl
theorem ldB (x0 x1 x2) : Statement (.ldB x0 x1 x2) := fun _ _ => rfl
theorem ldH (x0 x1 x2) : Statement (.ldH x0 x1 x2) := fun _ _ => rfl
theorem ldW (x0 x1 x2) : Statement (.ldW x0 x1 x2) := fun _ _ => rfl
theorem ldD (x0 x1 x2) : Statement (.ldD x0 x1 x2) := fun _ _ => rfl
theorem ldBN (x0 x1 x2) : Statement (.ldBN x0 x1 x2) := fun _ _ => rfl
theorem ldHN (x0 x1 x2) : Statement (.ldHN x0 x1 x2) := fun _ _ => rfl
theorem ldWN (x0 x1 x2) : Statement (.ldWN x0 x1 x2) := fun _ _ => rfl
theorem stB (x0 x1 x2) : Statement (.stB x0 x1 x2) := fun _ _ => rfl
theorem stH (x0 x1 x2) : Statement (.stH x0 x1 x2) := fun _ _ => rfl
theorem stW (x0 x1 x2) : Statement (.stW x0 x1 x2) := fun _ _ => rfl
theorem stD (x0 x1 x2) : Statement (.stD x0 x1 x2) := fun _ _ => rfl
theorem amoAdd (x0 x1 x2 x3 x4) : Statement (.amoAdd x0 x1 x2 x3 x4) := fun _ _ => rfl
theorem amoAnd (x0 x1 x2 x3 x4) : Statement (.amoAnd x0 x1 x2 x3 x4) := fun _ _ => rfl
theorem amoOr (x0 x1 x2 x3 x4) : Statement (.amoOr x0 x1 x2 x3 x4) := fun _ _ => rfl
theorem amoXor (x0 x1 x2 x3 x4) : Statement (.amoXor x0 x1 x2 x3 x4) := fun _ _ => rfl
theorem amoMin (x0 x1 x2 x3 x4) : Statement (.amoMin x0 x1 x2 x3 x4) := fun _ _ => rfl
theorem amoMax (x0 x1 x2 x3 x4) : Statement (.amoMax x0 x1 x2 x3 x4) := fun _ _ => rfl
theorem amoSwp (x0 x1 x2 x3 x4) : Statement (.amoSwp x0 x1 x2 x3 x4) := fun _ _ => rfl
theorem amoCas (x0 x1 x2 x3 x4) : Statement (.amoCas x0 x1 x2 x3 x4) := fun _ _ => rfl
theorem amoMinN (x0 x1 x2 x3 x4) : Statement (.amoMinN x0 x1 x2 x3 x4) := fun _ _ => rfl
theorem amoMaxN (x0 x1 x2 x3 x4) : Statement (.amoMaxN x0 x1 x2 x3 x4) := fun _ _ => rfl
theorem vadd (x0) : Statement (.vadd x0) := fun _ _ => rfl
theorem vsub (x0) : Statement (.vsub x0) := fun _ _ => rfl
theorem vmul (x0) : Statement (.vmul x0) := fun _ _ => rfl
theorem vmulh (x0) : Statement (.vmulh x0) := fun _ _ => rfl
theorem vmadd (x0) : Statement (.vmadd x0) := fun _ _ => rfl
theorem vmin (x0) : Statement (.vmin x0) := fun _ _ => rfl
theorem vmax (x0) : Statement (.vmax x0) := fun _ _ => rfl
theorem vand (x0) : Statement (.vand x0) := fun _ _ => rfl
theorem vor (x0) : Statement (.vor x0) := fun _ _ => rfl
theorem vxor (x0) : Statement (.vxor x0) := fun _ _ => rfl
theorem vshl (x0) : Statement (.vshl x0) := fun _ _ => rfl
theorem vshr (x0) : Statement (.vshr x0) := fun _ _ => rfl
theorem vsar (x0) : Statement (.vsar x0) := fun _ _ => rfl
theorem vaddX (x0) : Statement (.vaddX x0) := fun _ _ => rfl
theorem vsubX (x0) : Statement (.vsubX x0) := fun _ _ => rfl
theorem vmulX (x0) : Statement (.vmulX x0) := fun _ _ => rfl
theorem vmulhX (x0) : Statement (.vmulhX x0) := fun _ _ => rfl
theorem vmaddX (x0) : Statement (.vmaddX x0) := fun _ _ => rfl
theorem vminX (x0) : Statement (.vminX x0) := fun _ _ => rfl
theorem vmaxX (x0) : Statement (.vmaxX x0) := fun _ _ => rfl
theorem vandX (x0) : Statement (.vandX x0) := fun _ _ => rfl
theorem vorX (x0) : Statement (.vorX x0) := fun _ _ => rfl
theorem vxorX (x0) : Statement (.vxorX x0) := fun _ _ => rfl
theorem vshlX (x0) : Statement (.vshlX x0) := fun _ _ => rfl
theorem vshrX (x0) : Statement (.vshrX x0) := fun _ _ => rfl
theorem vsarX (x0) : Statement (.vsarX x0) := fun _ _ => rfl
theorem vfadd (x0) : Statement (.vfadd x0) := fun _ _ => rfl
theorem vfsub (x0) : Statement (.vfsub x0) := fun _ _ => rfl
theorem vfmul (x0) : Statement (.vfmul x0) := fun _ _ => rfl
theorem vfdiv (x0) : Statement (.vfdiv x0) := fun _ _ => rfl
theorem vfmin (x0) : Statement (.vfmin x0) := fun _ _ => rfl
theorem vfmax (x0) : Statement (.vfmax x0) := fun _ _ => rfl
theorem vfma (x0) : Statement (.vfma x0) := fun _ _ => rfl
theorem vfsqrt (x0) : Statement (.vfsqrt x0) := fun _ _ => rfl
theorem vfrcpE (x0) : Statement (.vfrcpE x0) := fun _ _ => rfl
theorem vfaddX (x0) : Statement (.vfaddX x0) := fun _ _ => rfl
theorem vfsubX (x0) : Statement (.vfsubX x0) := fun _ _ => rfl
theorem vfmulX (x0) : Statement (.vfmulX x0) := fun _ _ => rfl
theorem vfdivX (x0) : Statement (.vfdivX x0) := fun _ _ => rfl
theorem vfminX (x0) : Statement (.vfminX x0) := fun _ _ => rfl
theorem vfmaxX (x0) : Statement (.vfmaxX x0) := fun _ _ => rfl
theorem vscale (x0) : Statement (.vscale x0) := fun _ _ => rfl
theorem vcmpEq (x0) : Statement (.vcmpEq x0) := fun _ _ => rfl
theorem vcmpNe (x0) : Statement (.vcmpNe x0) := fun _ _ => rfl
theorem vcmpLt (x0) : Statement (.vcmpLt x0) := fun _ _ => rfl
theorem vcmpGe (x0) : Statement (.vcmpGe x0) := fun _ _ => rfl
theorem vcmpLtN (x0) : Statement (.vcmpLtN x0) := fun _ _ => rfl
theorem vcmpGeN (x0) : Statement (.vcmpGeN x0) := fun _ _ => rfl
theorem vcmpFeq (x0) : Statement (.vcmpFeq x0) := fun _ _ => rfl
theorem vcmpFlt (x0) : Statement (.vcmpFlt x0) := fun _ _ => rfl
theorem vcmpFle (x0) : Statement (.vcmpFle x0) := fun _ _ => rfl
theorem vcmpFun (x0) : Statement (.vcmpFun x0) := fun _ _ => rfl
theorem vsel (x0) : Statement (.vsel x0) := fun _ _ => rfl
theorem kand (x0 x1 x2 x3) : Statement (.kand x0 x1 x2 x3) := fun _ _ => rfl
theorem kor (x0 x1 x2 x3) : Statement (.kor x0 x1 x2 x3) := fun _ _ => rfl
theorem knot (x0 x1 x2) : Statement (.knot x0 x1 x2) := fun _ _ => rfl
theorem kpop (x0 x1 x2 x3) : Statement (.kpop x0 x1 x2 x3) := fun _ _ => rfl
theorem kfirst (x0 x1 x2 x3) : Statement (.kfirst x0 x1 x2 x3) := fun _ _ => rfl
theorem vmvSx (x0 x1 x2 x3 x4) : Statement (.vmvSx x0 x1 x2 x3 x4) := fun _ _ => rfl
theorem vbcast (x0 x1 x2 x3 x4) : Statement (.vbcast x0 x1 x2 x3 x4) := fun _ _ => rfl
theorem vmvXs (x0 x1 x2 x3) : Statement (.vmvXs x0 x1 x2 x3) := fun _ _ => rfl
theorem vredAddO (x0) : Statement (.vredAddO x0) := fun _ _ => rfl
theorem vredAddT (x0) : Statement (.vredAddT x0) := fun _ _ => rfl
theorem vredMin (x0) : Statement (.vredMin x0) := fun _ _ => rfl
theorem vredMax (x0) : Statement (.vredMax x0) := fun _ _ => rfl
theorem vcvtH (x0) : Statement (.vcvtH x0) := fun _ _ => rfl
theorem vcvtD (x0) : Statement (.vcvtD x0) := fun _ _ => rfl
theorem vcvtF32E2m1 (x0) : Statement (.vcvtF32E2m1 x0) := fun _ _ => rfl
theorem vtag (x0 x1 x2 x3) : Statement (.vtag x0 x1 x2 x3) := fun _ _ => rfl
theorem vld (x0) : Statement (.vld x0) := fun _ _ => rfl
theorem vlds (x0) : Statement (.vlds x0) := fun _ _ => rfl
theorem vldx (x0) : Statement (.vldx x0) := fun _ _ => rfl
theorem vst (x0) : Statement (.vst x0) := fun _ _ => rfl
theorem vsts (x0) : Statement (.vsts x0) := fun _ _ => rfl
theorem vstxO (x0) : Statement (.vstxO x0) := fun _ _ => rfl
theorem vstxN (x0) : Statement (.vstxN x0) := fun _ _ => rfl
theorem vldc (x0) : Statement (.vldc x0) := fun _ _ => rfl
theorem vstc (x0) : Statement (.vstc x0) := fun _ _ => rfl
theorem vfwdRes (x0) : Statement (.vfwdRes x0) := fun _ _ => rfl
theorem vperm (x0) : Statement (.vperm x0) := fun _ _ => rfl
theorem vzip (x0) : Statement (.vzip x0) := fun _ _ => rfl
theorem vunzip (x0) : Statement (.vunzip x0) := fun _ _ => rfl
theorem vslideUp (x0) : Statement (.vslideUp x0) := fun _ _ => rfl
theorem vslideDn (x0) : Statement (.vslideDn x0) := fun _ _ => rfl
theorem vrepBlk (x0) : Statement (.vrepBlk x0) := fun _ _ => rfl
theorem vcompress (x0) : Statement (.vcompress x0) := fun _ _ => rfl
theorem vexpand (x0) : Statement (.vexpand x0) := fun _ _ => rfl
theorem vscanAdd (x0) : Statement (.vscanAdd x0) := fun _ _ => rfl
theorem vscanAddx (x0) : Statement (.vscanAddx x0) := fun _ _ => rfl
theorem vmergeUAdd (x0) : Statement (.vmergeUAdd x0) := fun _ _ => rfl
theorem vmergeUSub (x0) : Statement (.vmergeUSub x0) := fun _ _ => rfl
theorem vmergeUMax (x0) : Statement (.vmergeUMax x0) := fun _ _ => rfl
theorem vxch (x0) : Statement (.vxch x0) := fun _ _ => rfl
theorem vltLd (x0) : Statement (.vltLd x0) := fun _ _ => rfl
theorem vltSt (x0) : Statement (.vltSt x0) := fun _ _ => rfl
theorem vltFill (x0) : Statement (.vltFill x0) := fun _ _ => rfl
theorem mzero (x0 x1 x2) : Statement (.mzero x0 x1 x2) := fun _ _ => rfl
theorem mtag (x0 x1 x2) : Statement (.mtag x0 x1 x2) := fun _ _ => rfl
theorem vopa (x0) : Statement (.vopa x0) := fun _ _ => rfl
theorem vopaS (x0) : Statement (.vopaS x0) := fun _ _ => rfl
theorem mrd (x0) : Statement (.mrd x0) := fun _ _ => rfl
theorem mwr (x0) : Statement (.mwr x0) := fun _ _ => rfl
theorem mld (x0) : Statement (.mld x0) := fun _ _ => rfl
theorem mst (x0) : Statement (.mst x0) := fun _ _ => rfl
theorem mcvtI32Trio (x0) : Statement (.mcvtI32Trio x0) := fun _ _ => rfl
theorem mcvtF32I32 (x0) : Statement (.mcvtF32I32 x0) := fun _ _ => rfl
theorem mcvtBf16F32 (x0) : Statement (.mcvtBf16F32 x0) := fun _ _ => rfl
theorem acq (x0 x1 x2) : Statement (.acq x0 x1 x2) := fun _ _ => rfl
theorem rel (x0 x1) : Statement (.rel x0 x1) := fun _ _ => rfl
theorem fenceG : Statement .fenceG := fun _ _ => rfl
theorem fenceD : Statement .fenceD := fun _ _ => rfl
theorem fenceS : Statement .fenceS := fun _ _ => rfl
theorem barWait (x0) : Statement (.barWait x0) := fun _ _ => rfl
theorem vwait (x0) : Statement (.vwait x0) := fun _ _ => rfl
theorem vamoAdd (x0) : Statement (.vamoAdd x0) := fun _ _ => rfl
theorem vamoAnd (x0) : Statement (.vamoAnd x0) := fun _ _ => rfl
theorem vamoOr (x0) : Statement (.vamoOr x0) := fun _ _ => rfl
theorem vamoXor (x0) : Statement (.vamoXor x0) := fun _ _ => rfl
theorem vamoMin (x0) : Statement (.vamoMin x0) := fun _ _ => rfl
theorem vamoMax (x0) : Statement (.vamoMax x0) := fun _ _ => rfl
theorem vamoSwp (x0) : Statement (.vamoSwp x0) := fun _ _ => rfl
theorem vamoCas (x0) : Statement (.vamoCas x0) := fun _ _ => rfl
theorem vwaccAdd (x0) : Statement (.vwaccAdd x0) := fun _ _ => rfl
theorem syncBind (x0 x1 x2 x3) : Statement (.syncBind x0 x1 x2 x3) := fun _ _ => rfl
theorem syncUnbind (x0) : Statement (.syncUnbind x0) := fun _ _ => rfl
theorem barInit (x0 x1) : Statement (.barInit x0 x1) := fun _ _ => rfl
theorem barArr (x0) : Statement (.barArr x0) := fun _ _ => rfl
theorem barArrRlx (x0) : Statement (.barArrRlx x0) := fun _ _ => rfl
theorem barDrop (x0) : Statement (.barDrop x0) := fun _ _ => rfl
theorem winOpen (x0 x1 x2 x3) : Statement (.winOpen x0 x1 x2 x3) := fun _ _ => rfl
theorem winMerge : Statement .winMerge := fun _ _ => rfl
theorem winClose : Statement .winClose := fun _ _ => rfl
theorem cpy (x0) : Statement (.cpy x0) := fun _ _ => rfl
theorem cpy2d (x0) : Statement (.cpy2d x0) := fun _ _ => rfl
theorem cpyFl (x0) : Statement (.cpyFl x0) := fun _ _ => rfl
theorem cpyMove (x0) : Statement (.cpyMove x0) := fun _ _ => rfl
theorem tokPoll (x0 x1) : Statement (.tokPoll x0 x1) := fun _ _ => rfl
theorem fwdRes (x0 x1) : Statement (.fwdRes x0 x1) := fun _ _ => rfl
theorem fwdCmp (x0 x1 x2) : Statement (.fwdCmp x0 x1 x2) := fun _ _ => rfl
theorem fwdStat (x0 x1) : Statement (.fwdStat x0 x1) := fun _ _ => rfl
theorem fwdRelink (x0) : Statement (.fwdRelink x0) := fun _ _ => rfl
theorem fwdClear (x0) : Statement (.fwdClear x0) := fun _ _ => rfl
theorem tierHint (x0 x1 x2) : Statement (.tierHint x0 x1 x2) := fun _ _ => rfl
theorem fadd (x0 x1 x2 x3) : Statement (.fadd x0 x1 x2 x3) := fun _ _ => rfl
theorem fsub (x0 x1 x2 x3) : Statement (.fsub x0 x1 x2 x3) := fun _ _ => rfl
theorem fmul (x0 x1 x2 x3) : Statement (.fmul x0 x1 x2 x3) := fun _ _ => rfl
theorem fdiv (x0 x1 x2 x3) : Statement (.fdiv x0 x1 x2 x3) := fun _ _ => rfl
theorem fmin (x0 x1 x2 x3) : Statement (.fmin x0 x1 x2 x3) := fun _ _ => rfl
theorem fmax (x0 x1 x2 x3) : Statement (.fmax x0 x1 x2 x3) := fun _ _ => rfl
theorem fma (x0 x1 x2 x3) : Statement (.fma x0 x1 x2 x3) := fun _ _ => rfl
theorem fsqrt (x0 x1 x2) : Statement (.fsqrt x0 x1 x2) := fun _ _ => rfl
theorem fcmpEq (x0 x1 x2 x3) : Statement (.fcmpEq x0 x1 x2 x3) := fun _ _ => rfl
theorem fcmpLt (x0 x1 x2 x3) : Statement (.fcmpLt x0 x1 x2 x3) := fun _ _ => rfl
theorem fcmpLe (x0 x1 x2 x3) : Statement (.fcmpLe x0 x1 x2 x3) := fun _ _ => rfl
theorem fcmpUn (x0 x1 x2 x3) : Statement (.fcmpUn x0 x1 x2 x3) := fun _ _ => rfl
theorem fcvtF32F64 (x0 x1 x2) : Statement (.fcvtF32F64 x0 x1 x2) := fun _ _ => rfl
theorem fcvtF64F32 (x0 x1 x2) : Statement (.fcvtF64F32 x0 x1 x2) := fun _ _ => rfl
theorem fcvtF32I64 (x0 x1 x2) : Statement (.fcvtF32I64 x0 x1 x2) := fun _ _ => rfl
theorem fcvtF32N64 (x0 x1 x2) : Statement (.fcvtF32N64 x0 x1 x2) := fun _ _ => rfl
theorem fcvtF64I64 (x0 x1 x2) : Statement (.fcvtF64I64 x0 x1 x2) := fun _ _ => rfl
theorem fcvtF64N64 (x0 x1 x2) : Statement (.fcvtF64N64 x0 x1 x2) := fun _ _ => rfl
theorem fcvtI64F32 (x0 x1 x2) : Statement (.fcvtI64F32 x0 x1 x2) := fun _ _ => rfl
theorem fcvtN64F32 (x0 x1 x2) : Statement (.fcvtN64F32 x0 x1 x2) := fun _ _ => rfl
theorem fcvtI64F64 (x0 x1 x2) : Statement (.fcvtI64F64 x0 x1 x2) := fun _ _ => rfl
theorem fcvtN64F64 (x0 x1 x2) : Statement (.fcvtN64F64 x0 x1 x2) := fun _ _ => rfl
theorem illegalHead (x0) : Statement (.illegalHead x0) := fun _ h => nomatch h
theorem resultQueueDelivery (x0) : Statement (.resultQueueDelivery x0) := fun _ h => nomatch h
theorem scalarAccessDelivery (x0) : Statement (.scalarAccessDelivery x0) := fun _ h => nomatch h
theorem convoyStart (x0) : Statement (.convoyStart x0) := fun _ h => nomatch h
theorem viqEntryComplete (x0) : Statement (.viqEntryComplete x0) := fun _ h => nomatch h
theorem memoryAccessPerform (x0) : Statement (.memoryAccessPerform x0) := fun _ h => nomatch h
theorem keystoneCombine (x0) : Statement (.keystoneCombine x0) := fun _ h => nomatch h
theorem keystoneSplitReply (x0) : Statement (.keystoneSplitReply x0) := fun _ h => nomatch h
theorem combinedRedirectReissue (x0) : Statement (.combinedRedirectReissue x0) := fun _ h => nomatch h
theorem moveLineMark (x0) : Statement (.moveLineMark x0) := fun _ h => nomatch h
theorem moveLineCommit (x0) : Statement (.moveLineCommit x0) := fun _ h => nomatch h
theorem copyCompletion (x0) : Statement (.copyCompletion x0) := fun _ h => nomatch h
theorem relIncrement (x0) : Statement (.relIncrement x0) := fun _ h => nomatch h
theorem acqSatisfied (x0) : Statement (.acqSatisfied x0) := fun _ h => nomatch h
theorem barrierArrivalCount (x0) : Statement (.barrierArrivalCount x0) := fun _ h => nomatch h
theorem vwaitMet (x0) : Statement (.vwaitMet x0) := fun _ h => nomatch h
theorem vwaitTimeout (x0) : Statement (.vwaitTimeout x0) := fun _ h => nomatch h
theorem vxchMatch (x0 x1) : Statement (.vxchMatch x0 x1) := fun _ h => nomatch h
theorem vxchTimeout (x0) : Statement (.vxchTimeout x0) := fun _ h => nomatch h
theorem qdrainComplete (x0) : Statement (.qdrainComplete x0) := fun _ h => nomatch h
theorem fenceComplete (x0) : Statement (.fenceComplete x0) := fun _ h => nomatch h
theorem strandRetire (x0) : Statement (.strandRetire x0) := fun _ h => nomatch h
theorem gangCompletion (x0) : Statement (.gangCompletion x0) := fun _ h => nomatch h
theorem faultServiceAnswer (x0 x1 x2) : Statement (.faultServiceAnswer x0 x1 x2) := fun _ h => nomatch h
theorem walkMigRetry (x0) : Statement (.walkMigRetry x0) := fun _ h => nomatch h
theorem fwdChainRepair (x0) : Statement (.fwdChainRepair x0) := fun _ h => nomatch h
theorem faultNotice (x0) : Statement (.faultNotice x0) := fun _ h => nomatch h
theorem fanswerResume (x0 x1) : Statement (.fanswerResume x0 x1) := fun _ h => nomatch h
theorem fanswerEnd (x0 x1) : Statement (.fanswerEnd x0 x1) := fun _ h => nomatch h
theorem fanswerResumePast (x0 x1) : Statement (.fanswerResumePast x0 x1) := fun _ h => nomatch h
theorem submitCard (x0 x1 x2) : Statement (.submitCard x0 x1 x2) := fun _ h => nomatch h
theorem cardWindowPostedWrite (x0) : Statement (.cardWindowPostedWrite x0) := fun _ h => nomatch h
theorem scrConfigWrite (x0 x1 x2) : Statement (.scrConfigWrite x0 x1 x2) := fun _ h => nomatch h
theorem frConfigWrite (x0 x1 x2) : Statement (.frConfigWrite x0 x1 x2) := fun _ h => nomatch h
theorem errorRegisterWrite (x0 x1) : Statement (.errorRegisterWrite x0 x1) := fun _ h => nomatch h
theorem slotPartWrite (x0 x1) : Statement (.slotPartWrite x0 x1) := fun _ h => nomatch h
theorem registerWrite (x0 x1) : Statement (.registerWrite x0 x1) := fun _ h => nomatch h
theorem classPromotion (x0) : Statement (.classPromotion x0) := fun _ h => nomatch h
theorem bindRecord (x0) : Statement (.bindRecord x0) := fun _ h => nomatch h
theorem dispatchGang (x0) : Statement (.dispatchGang x0) := fun _ h => nomatch h
theorem tlbInvalidate (x0 x1 x2) : Statement (.tlbInvalidate x0 x1 x2) := fun _ h => nomatch h
theorem saveGang (x0) : Statement (.saveGang x0) := fun _ h => nomatch h
theorem saveComplete (x0) : Statement (.saveComplete x0) := fun _ h => nomatch h
theorem saveTimeout (x0) : Statement (.saveTimeout x0) := fun _ h => nomatch h
theorem vacateRecord (x0) : Statement (.vacateRecord x0) := fun _ h => nomatch h
theorem checkpointStart (x0) : Statement (.checkpointStart x0) := fun _ h => nomatch h
theorem vacateRelease (x0) : Statement (.vacateRelease x0) := fun _ h => nomatch h
theorem softError (x0) : Statement (.softError x0) := fun _ h => nomatch h
theorem hangWatchdogExpiry (x0) : Statement (.hangWatchdogExpiry x0) := fun _ h => nomatch h
theorem hostHdmWrite (x0 x1) : Statement (.hostHdmWrite x0 x1) := fun _ h => nomatch h
theorem hostHdmRead (x0 x1) : Statement (.hostHdmRead x0 x1) := fun _ h => nomatch h
theorem flitRetry (x0) : Statement (.flitRetry x0) := fun _ h => nomatch h
theorem linkFailure (x0 x1) : Statement (.linkFailure x0 x1) := fun _ h => nomatch h
theorem routeTimeout (x0) : Statement (.routeTimeout x0) := fun _ h => nomatch h
theorem qpContextWrite (x0 x1) : Statement (.qpContextWrite x0 x1) := fun _ h => nomatch h
theorem neTailUpdate (x0) : Statement (.neTailUpdate x0) := fun _ h => nomatch h
theorem neNop (x0) : Statement (.neNop x0) := fun _ h => nomatch h
theorem neSend (x0 x1) : Statement (.neSend x0 x1) := fun _ h => nomatch h
theorem neWrite (x0 x1) : Statement (.neWrite x0 x1) := fun _ h => nomatch h
theorem neRead (x0 x1) : Statement (.neRead x0 x1) := fun _ h => nomatch h
theorem neRecv (x0 x1) : Statement (.neRecv x0 x1) := fun _ h => nomatch h
theorem neEntryComplete (x0) : Statement (.neEntryComplete x0) := fun _ h => nomatch h
theorem vfReset (x0) : Statement (.vfReset x0) := fun _ h => nomatch h
theorem packageReset (x0 x1 x2) : Statement (.packageReset x0 x1 x2) := fun _ h => nomatch h
theorem startComplete (x0) : Statement (.startComplete x0) := fun _ h => nomatch h
theorem startFailure (x0) : Statement (.startFailure x0) := fun _ h => nomatch h
theorem startWatchdogExpiry : Statement .startWatchdogExpiry := fun _ h => nomatch h
theorem minimalStageWrite (x0) : Statement (.minimalStageWrite x0) := fun _ h => nomatch h
theorem attestationNonce (x0) : Statement (.attestationNonce x0) := fun _ h => nomatch h
theorem thermalTrip : Statement .thermalTrip := fun _ h => nomatch h
theorem allowanceRequest (x0 x1 x2) : Statement (.allowanceRequest x0 x1 x2) := fun _ h => nomatch h
theorem allowanceApply (x0) : Statement (.allowanceApply x0) := fun _ h => nomatch h
theorem stackTempSample (x0 x1 x2) : Statement (.stackTempSample x0 x1 x2) := fun _ h => nomatch h
theorem heldRequestTimeout (x0) : Statement (.heldRequestTimeout x0) := fun _ h => nomatch h
theorem lineBufferReplacement (x0 x1) : Statement (.lineBufferReplacement x0 x1) := fun _ h => nomatch h
theorem tlbReplacement (x0 x1) : Statement (.tlbReplacement x0 x1) := fun _ h => nomatch h
theorem tierManagerMove (x0 x1 x2 x3 x4) : Statement (.tierManagerMove x0 x1 x2 x3 x4) := fun _ h => nomatch h
theorem faultRingHeadWrite (x0 x1) : Statement (.faultRingHeadWrite x0 x1) := fun _ h => nomatch h
theorem inletTemperatureChange (x0 x1) : Statement (.inletTemperatureChange x0 x1) := fun _ h => nomatch h
theorem instructionFetchFault (x0 x1 x2) : Statement (.instructionFetchFault x0 x1 x2) := fun _ h => nomatch h
theorem atomicopAsCompleter (x0 x1 x2 x3 x4) : Statement (.atomicopAsCompleter x0 x1 x2 x3 x4) := fun _ h => nomatch h

end Sys2Proof.Laws.Encoding
end

