-- ==== Sys2Proof/Laws/Signature.lean ====
section
/-!
SUPPORT. The lengths of what the hash and the signature give (R2, R411): n bytes of SHAKE256, 32 bytes of every node, 29,792
bytes of a signature.
-/

namespace Sys2Proof.Machine

@[simp] theorem leBytes_length (n v : Nat) : (leBytes n v).length = n := by
  induction n generalizing v with
  | zero => rfl
  | succ n ih => simp [leBytes, ih]

@[simp] theorem wordBytes_length (n : Nat) {w : Nat} (x : BitVec w) : (wordBytes n x).length = n :=
  leBytes_length n x.toNat

/-- The lengths of lists all of one length add up. -/
theorem flatten_length_of (n : Nat) (l : List (List Byte)) (h : ∀ x ∈ l, x.length = n) : l.flatten.length = n * l.length := by
  induction l with
  | nil => rfl
  | cons x l ih =>
    rw [List.flatten_cons, List.length_append, h x List.mem_cons_self, ih fun y hy => h y (List.mem_cons_of_mem _ hy), List.length_cons]
    ring

theorem squeeze_length (n : Nat) (a : Keccak) : (Keccak.squeeze n a).length = 136 * n := by
  induction n generalizing a with
  | zero => rfl
  | succ n ih =>
    have h : ((a.toList.take 17).flatMap (wordBytes 8)).length = 136 := by
      rw [List.length_flatMap]
      simp
    rw [Keccak.squeeze, List.length_append, h, ih]
    ring

@[simp] theorem shake256_length (n : Nat) (bs : List Byte) : (shake256 n bs).length = n := by
  simp only [shake256, List.length_take, squeeze_length, shakeRate]
  omega

@[simp] theorem slhHash_length (seed : List Byte) (a : Adrs) (m : List Byte) : (slhHash seed a m).length = 32 :=
  shake256_length _ _

theorem wotsChain_length (seed : List Byte) (a : Adrs) (s i : Nat) (x : List Byte) (h : x.length = 32) :
    (wotsChain seed a s i x).length = 32 := by
  induction s generalizing i x with
  | zero => exact h
  | succ s ih => exact ih _ _ (slhHash_length ..)

@[simp] theorem treeNode_length (sk seed : List Byte) (a : Adrs) (z i : Nat) : (treeNode sk seed a z i).length = 32 := by
  cases z <;> exact slhHash_length ..

@[simp] theorem forsNode_length (sk seed : List Byte) (a : Adrs) (z i : Nat) : (forsNode sk seed a z i).length = 32 := by
  cases z <;> exact slhHash_length ..

/-- A one-time signature with its path: 75 pieces of 32 bytes. -/
theorem treeSign_pieces (sk seed : List Byte) (a : Adrs) (leaf : Nat) (m : List Byte) :
    (treeSign sk seed a leaf m).length = 75 ∧ ∀ x ∈ treeSign sk seed a leaf m, x.length = 32 := by
  constructor
  · simp [treeSign, wotsSign, wotsDigits, slhDigits, slhHeight]
  · intro x hx
    rcases List.mem_append.1 hx with h | h
    · obtain ⟨d, -, rfl⟩ := List.mem_map.1 h
      exact wotsChain_length _ _ _ _ _ (slhHash_length ..)
    · obtain ⟨j, -, rfl⟩ := List.mem_map.1 h
      exact treeNode_length ..

theorem hyperSign_length (sk seed : List Byte) (n j tree leaf : Nat) (m : List Byte) :
    (hyperSign sk seed n j tree leaf m).flatten.length = 2400 * n := by
  induction n generalizing j tree leaf m with
  | zero => rfl
  | succ n ih =>
    have h := treeSign_pieces sk seed ⟨j, tree, 0, 0, 0, 0⟩ leaf m
    rw [hyperSign, List.flatten_append, List.length_append, flatten_length_of 32 _ h.2, h.1, ih]
    ring

theorem forsSign_length (sk seed : List Byte) (a : Adrs) (md : List Byte) : (forsSign sk seed a md).flatten.length = 10560 := by
  have p : ∀ x ∈ forsSign sk seed a md, x.length = 32 := by
    intro x hx
    obtain ⟨d, -, h⟩ := List.mem_flatMap.1 hx
    rcases List.mem_cons.1 h with rfl | h
    · exact slhHash_length ..
    · obtain ⟨j, -, rfl⟩ := List.mem_map.1 h
      exact forsNode_length ..
  rw [flatten_length_of 32 _ p, forsSign, List.length_flatMap]
  simp [slhDigits, forsHeight, forsTrees]

/-- A signature has the length R2 gives. -/
theorem slhSign_length (sk prf seed rand m : List Byte) : (slhSign sk prf seed rand m).length = slhSignature := by
  simp only [slhSign, List.length_append, shake256_length, forsSign_length, hyperSign_length]
  rfl

end Sys2Proof.Machine
end

