-- ==== Sys2Proof/Tests/Slice0.lean ====
section
/-!
SUPPORT. Tests: words of the spec's encodings and what they decode to, terms without an encoding, single steps whose results
are worked out from the rules by hand, and for the statements a state and operands that meet what they assume.
-/

namespace Sys2Proof.Tests

open Sys2Proof.Machine

set_option maxRecDepth 4096
set_option Elab.async false

/-! ## Decoding (R141, R146, R153): fields written out as the layouts place them -/

/-- A head: C, T, MAJOR, MINOR. -/
abbrev hd (c : BitVec 1) (t : BitVec 2) (maj : BitVec 7) (min : BitVec 6) : BitVec 16 := c ++ t ++ maj ++ min

/-- A T16 tail. -/
abbrev t16 (r : BitVec 5) (imm : BitVec 11) : BitVec 64 := (r ++ imm : BitVec 16).setWidth 64

/-- An S32 tail. -/
abbrev s32 (d a b : BitVec 5) (imm : BitVec 17) : BitVec 64 := (d ++ a ++ b ++ imm : BitVec 32).setWidth 64

/-- A B32 tail. -/
abbrev b32 (a b : BitVec 5) (disp : BitVec 17) (slot : BitVec 5) : BitVec 64 := (a ++ b ++ disp ++ slot : BitVec 32).setWidth 64

/-- A V32 tail. -/
abbrev v32 (d a b : BitVec 6) (k : BitVec 3) (sense : BitVec 1) (low : BitVec 10) : BitVec 64 :=
  (d ++ a ++ b ++ k ++ sense ++ low : BitVec 32).setWidth 64

/-- An E64 tail. -/
abbrev e64 (d a b c e : BitVec 5) (va vb : BitVec 6) (k : BitVec 3) (sense : BitVec 1) (low : BitVec 23) : BitVec 64 :=
  d ++ a ++ b ++ c ++ e ++ va ++ vb ++ k ++ sense ++ low

/-- The modifier of R198: TY, SAT, RMS, F. -/
abbrev md (ty : BitVec 5) (sat : BitVec 1) (rms : BitVec 3) (f : BitVec 1) : BitVec 10 := ty ++ sat ++ rms ++ f

/-- No mask. -/
abbrev all : MaskOp := ⟨0, false⟩

/-- Words the spec prints: R199, R247, R261, R262, R269. -/
theorem test_decode_printed :
    decode 0xD000 0x18415160 = .ok (.vfma ⟨true, 6, 4, 5, .f32, false, none, ⟨2, false⟩⟩)
    ∧ decode 0xF740 0x029600000108B000 = .ok (.vlds ⟨true, 4, 10, 11, .f32, ⟨1, false⟩⟩)
    ∧ decode 0xDC00 0x00000160 = .ok (.mzero true 0 .f32)
    ∧ decode 0xDD80 0x5D580000 = .ok (.acq 11 21 12)
    ∧ decode 0x9DC1 0 = .ok .fenceD
    ∧ decode 0xFE80 0x0280000610010000 = .ok (.vamoAdd ⟨true, 0, 10, 3, 2, 2, .rlx, false, false, all⟩) := by
  repeat' apply And.intro
  all_goals rfl

/-- Majors 0x00 to 0x0C (R185 to R196): LDISP -1 and SLOT 3, imm17 -1, a system register, a `vtype`. -/
theorem test_decode_control :
    decode (hd 0 0 0 1) 0 = .ok .nop
    ∧ decode (hd 0 2 0x01 0) (b32 0 0 (-1) 3) = .ok (.br (-1) 3)
    ∧ decode (hd 0 2 0x02 0) (b32 0 0 4 0) = .ok (.call 4 0)
    ∧ decode (hd 0 2 0x03 0) (s32 1 9 0 (-1)) = .ok (.jr 1 9 (-1))
    ∧ decode (hd 0 2 0x04 3) (b32 5 6 (-2) 31) = .ok (.bge 5 6 (-2) 31)
    ∧ decode (hd 0 2 0x05 1) (b32 7 0 1 2) = .ok (.bnz 7 1 2)
    ∧ decode (hd 0 2 0x06 0) (s32 9 0 0 0x010) = .ok (.sget 9 0x010)
    ∧ decode (hd 0 2 0x06 1) (s32 0 9 0 0x008) = .ok (.sput 0x008 9)
    ∧ decode (hd 0 2 0x07 0) (s32 9 8 0 0) = .ok (.vsetvl 9 8)
    ∧ decode (hd 0 2 0x07 2) (s32 9 0 0 0x018) = .ok (.vsettypeImm 9 0x018)
    ∧ decode (hd 0 2 0x08 0) (s32 3 4 0 0) = .ok (.qdrain 3 4)
    ∧ decode (hd 0 1 0x09 1) (t16 6 5) = .ok (.trap 6 5)
    ∧ decode (hd 0 2 0x0A 0) (s32 3 4 0 0) = .ok (.sysCall 3 4)
    ∧ decode (hd 0 1 0x0B 0) (t16 3 5) = .ok (.progMark 3 5)
    ∧ decode (hd 0 2 0x0C 0) (s32 3 4 5 0) = .ok (.taskPost 3 4 5) := by
  repeat' apply And.intro
  all_goals rfl

/-- Majors 0x10 to 0x1B (R167 to R173). -/
theorem test_decode_integer :
    decode (hd 0 2 0x10 4) (s32 5 6 7 0) = .ok (.mulhN 5 6 7)
    ∧ decode (hd 0 2 0x11 1) (s32 5 6 0 0x10000) = .ok (.subImm 5 6 (-65536))
    ∧ decode (hd 0 2 0x12 3) (s32 5 6 7 0) = .ok (.andn 5 6 7)
    ∧ decode (hd 0 2 0x13 6) (s32 5 6 0 63) = .ok (.sarImm 5 6 63)
    ∧ decode (hd 0 2 0x14 2) (s32 5 6 7 0) = .ok (.minN 5 6 7)
    ∧ decode (hd 0 2 0x15 3) (s32 5 6 7 0) = .ok (.cmpGe 5 6 7)
    ∧ decode (hd 0 2 0x16 4) (s32 5 6 0 (-1)) = .ok (.cmpLtNImm 5 6 (-1))
    ∧ decode (hd 0 2 0x17 1) (s32 5 6 0 0) = .ok (.ctz 5 6)
    ∧ decode (hd 0 2 0x18 0) (s32 5 6 0 (0#5 ++ 8#6 ++ 55#6)) = .ok (.bext 5 6 8 55)
    ∧ decode (hd 0 3 0x19 0) (5#5 ++ -2#59) = .ok (.li 5 (-2))
    ∧ decode (hd 0 2 0x1A 0) (s32 5 6 0 31) = .ok (.lih 5 6 31)
    ∧ decode (hd 0 2 0x1B 0) (s32 5 6 7 (-8192#14 ++ 3#3)) = .ok (.lea 5 6 7 3 (-8192)) := by
  repeat' apply And.intro
  all_goals rfl

/-- Majors 0x2C to 0x38 (R174 to R184): a store names its data in the sB field. -/
theorem test_decode_scalar_memory_and_float :
    decode (hd 0 2 0x2C 5) (s32 5 6 0 (-4)) = .ok (.ldHN 5 6 (-4))
    ∧ decode (hd 0 2 0x2D 3) (s32 0 6 5 8) = .ok (.stD 5 6 8)
    ∧ decode (hd 0 2 0x2E (7#3 ++ 2#2 ++ 1#1)) (s32 5 6 7 0) = .ok (.amoCas 5 6 7 .rel true)
    ∧ decode (hd 0 2 0x2F (5#3 ++ 0#2 ++ 0#1)) (s32 5 6 7 0) = .ok (.amoMaxN 5 6 7 .rlx false)
    ∧ decode (hd 0 2 0x34 (3#5 ++ 1#1)) (s32 5 6 7 0) = .ok (.fdiv true 5 6 7)
    ∧ decode (hd 0 2 0x35 0) (s32 5 6 7 0) = .ok (.fma false 5 6 7)
    ∧ decode (hd 0 2 0x36 1) (s32 5 6 0 0) = .ok (.fsqrt true 5 6)
    ∧ decode (hd 0 2 0x37 (2#5 ++ 0#1)) (s32 5 6 7 0) = .ok (.fcmpLe false 5 6 7)
    ∧ decode (hd 0 2 0x38 8) (s32 5 6 0 5) = .ok (.fcvtI64F64 5 6 (some .rtz)) := by
  repeat' apply And.intro
  all_goals rfl

/-- Majors 0x3C to 0x45 (R203 to R207). -/
theorem test_decode_vector_arithmetic :
    decode (hd 1 2 0x3C 0) (v32 3 4 5 2 1 (md 5 1 0 0)) = .ok (.vadd ⟨true, 3, 4, 5, .i32, true, none, ⟨2, true⟩⟩)
    ∧ decode (hd 0 2 0x3D 5) (v32 3 4 5 0 0 0) = .ok (.vsar ⟨false, 3, 4, 5, .raw, false, none, all⟩)
    ∧ decode (hd 1 2 0x3E 4) (v32 3 3 9 0 0 0) = .ok (.vmaddX ⟨true, 3, 3, 9, .raw, false, none, all⟩)
    ∧ decode (hd 1 2 0x3F 3) (v32 3 4 5 0 0 (md 11 1 7 0)) = .ok (.vfdiv ⟨true, 3, 4, 5, .f32, true, some .rup, all⟩)
    ∧ decode (hd 1 2 0x41 1) (v32 3 4 0 0 0 (md 9 0 0 0)) = .ok (.vfrcpE ⟨true, 3, 4, .f16, false, none, all⟩)
    ∧ decode (hd 1 2 0x42 0) (v32 3 3 9 0 0 (md 11 0 0 0)) = .ok (.vfaddX ⟨true, 3, 3, 9, .f32, false, none, all⟩)
    ∧ decode (hd 1 2 0x43 0) (v32 3 4 5 0 0 (md 11 0 6 0)) = .ok (.vscale ⟨true, 3, 4, 5, .f32, false, some .rdn, all⟩)
    ∧ decode (hd 1 2 0x44 5) (v32 2 4 5 1 0 0) = .ok (.vcmpGeN ⟨true, 2, 4, 5, .raw, ⟨1, false⟩⟩)
    ∧ decode (hd 1 2 0x45 1) (v32 2 4 5 0 0 (md 11 0 0 0)) = .ok (.vcmpFlt ⟨true, 2, 4, 5, .f32, all⟩) := by
  repeat' apply And.intro
  all_goals rfl

/-- Majors 0x46 to 0x4E (R208 to R216). -/
theorem test_decode_masks_moves_conversions :
    decode (hd 1 2 0x46 0) (v32 3 4 5 1 0 0) = .ok (.vsel ⟨true, 3, 4, 5, ⟨1, false⟩⟩)
    ∧ decode (hd 1 2 0x47 0) (v32 3 4 5 0 0 0) = .ok (.kand true 3 4 5)
    ∧ decode (hd 1 2 0x47 2) (v32 3 4 0 0 0 0) = .ok (.knot true 3 4)
    ∧ decode (hd 1 2 0x48 1) (v32 9 4 0 1 1 0) = .ok (.kfirst true 9 4 ⟨1, true⟩)
    ∧ decode (hd 1 2 0x49 0) (v32 3 9 10 0 0 (md 5 0 0 0)) = .ok (.vmvSx true 3 9 10 .i32)
    ∧ decode (hd 1 2 0x49 1) (v32 3 9 0 1 0 (md 11 0 0 0)) = .ok (.vbcast true 3 9 .f32 ⟨1, false⟩)
    ∧ decode (hd 1 2 0x4A 0) (v32 9 3 10 0 0 0) = .ok (.vmvXs true 9 3 10)
    ∧ decode (hd 1 2 0x4B 1) (v32 9 10 3 0 0 (md 11 0 0 1)) = .ok (.vredAddT ⟨true, 9, 10, 3, .f32, false, none, true, all⟩)
    ∧ decode (hd 1 2 0x4C 0) (v32 3 4 0 0 0 (md 10 1 4 0)) = .ok (.vcvtH ⟨true, 3, 4, .bf16, true, some .rne, all⟩)
    ∧ decode (hd 1 2 0x4D 0) (v32 3 4 0 0 0 0) = .ok (.vcvtF32E2m1 ⟨true, 3, 4, .raw, false, none, all⟩)
    ∧ decode (hd 1 2 0x4E 0) (v32 3 4 0 0 0 (md 11 0 0 0)) = .ok (.vtag true 3 4 .f32) := by
  repeat' apply And.intro
  all_goals rfl

/-- Majors 0x5C to 0x64 (R217, R222, R224). -/
theorem test_decode_vector_memory :
    decode (hd 1 2 0x5C 0) (v32 3 10 0 1 0 (11#5 ++ 0#5)) = .ok (.vld ⟨true, 3, 10, .f32, ⟨1, false⟩⟩)
    ∧ decode (hd 1 2 0x5E 0) (v32 3 10 5 0 0 (5#5 ++ 0#3 ++ 2#2)) = .ok (.vldx ⟨true, 3, 10, 5, .i32, 2, all⟩)
    ∧ decode (hd 0 2 0x5F 0) (v32 3 10 0 0 0 0) = .ok (.vst ⟨false, 3, 10, .raw, all⟩)
    ∧ decode (hd 1 3 0x60 0) (e64 0 10 11 0 0 0 0 0 0 (3#6 ++ 0#17)) = .ok (.vsts ⟨true, 3, 10, 11, .raw, all⟩)
    ∧ decode (hd 1 2 0x61 1) (v32 3 10 5 0 0 3) = .ok (.vstxN ⟨true, 3, 10, 5, .raw, 3, all⟩)
    ∧ decode (hd 1 3 0x62 0) (e64 0 10 0 0 0 0 0 0 0 (3#6 ++ 10#5 ++ 0#12)) = .ok (.vldc ⟨true, 3, 10, .bf16, all⟩)
    ∧ decode (hd 1 3 0x63 0) (e64 9 10 11 0 0 0 0 0 0 (3#6 ++ 0#16 ++ 1#1)) = .ok (.vstc ⟨true, 9, 3, 10, 11, true, all⟩)
    ∧ decode (hd 1 2 0x64 0) (v32 3 4 0 0 0 0) = .ok (.vfwdRes ⟨true, 3, 4, all⟩) := by
  repeat' apply And.intro
  all_goals rfl

/-- Majors 0x68 to 0x6E (R226 to R232). -/
theorem test_decode_cross_element :
    decode (hd 1 2 0x68 1) (v32 3 4 5 0 0 0) = .ok (.vzip ⟨true, 3, 4, 5, all⟩)
    ∧ decode (hd 1 2 0x69 1) (v32 3 4 9 0 0 0) = .ok (.vslideDn ⟨true, 3, 4, 9, all⟩)
    ∧ decode (hd 1 2 0x6A 2) (v32 3 4 0 1 0 0) = .ok (.vexpand ⟨true, 3, 4, ⟨1, false⟩⟩)
    ∧ decode (hd 1 2 0x6B 1) (v32 3 4 0 0 0 (md 11 0 0 0)) = .ok (.vscanAddx ⟨true, 3, 4, .f32, false, none, all⟩)
    ∧ decode (hd 1 3 0x6C (0#3 ++ 1#2 ++ 1#1)) (e64 9 10 11 0 0 8 12 0 0 (16#6 ++ 5#3 ++ 0#14))
      = .ok (.vmergeUSub ⟨true, 9, 16, 8, 10, 12, 11, true, some .rtz⟩)
    ∧ decode (hd 1 3 0x6D 0) (e64 9 10 11 0 0 4 0 1 0 (3#6 ++ 0#17)) = .ok (.vxch ⟨true, 9, 3, 4, 10, 11, ⟨1, false⟩⟩)
    ∧ decode (hd 1 2 0x6E 0) (v32 3 0 5 0 0 (md 10 0 0 0)) = .ok (.vltLd ⟨true, 3, 5, .bf16, all⟩)
    ∧ decode (hd 1 2 0x6E 2) (v32 20 0 0 0 0 0) = .ok (.vltFill ⟨true, 20, 0, 0, all⟩) := by
  repeat' apply And.intro
  all_goals rfl

/-- Majors 0x70 to 0x75 (R237 to R253). -/
theorem test_decode_tiles :
    decode (hd 1 2 0x70 1) (v32 3 0 0 0 0 (10#5 ++ 0#5)) = .ok (.mtag true 3 .bf16)
    ∧ decode (hd 1 2 0x71 0) (v32 2 8 16 0 0 (10#5 ++ 3#3 ++ 0#2)) = .ok (.vopa ⟨true, 2, 8, 16, .bf16, 3, all⟩)
    ∧ decode (hd 1 3 0x72 0) (e64 0 0 0 0 0 8 16 1 0 (24#6 ++ 25#6 ++ 2#3 ++ 1#3 ++ 13#5))
      = .ok (.vopaS ⟨true, 2, 8, 16, 24, 25, .e4m3, 1, ⟨1, false⟩⟩)
    ∧ decode (hd 1 2 0x73 0) (v32 8 2 9 0 0 0) = .ok (.mrd ⟨true, 8, 2, 9, all⟩)
    ∧ decode (hd 1 2 0x73 1) (v32 2 8 9 0 0 0) = .ok (.mwr ⟨true, 8, 2, 9, all⟩)
    ∧ decode (hd 1 3 0x74 0) (e64 0 10 11 12 13 0 0 0 0 (2#6 ++ 11#5 ++ 0#12)) = .ok (.mld ⟨true, 2, 10, 11, 12, 13, .f32⟩)
    ∧ decode (hd 1 2 0x75 2) (v32 3 2 24 0 0 (2#2 ++ 0#3 ++ 1#1 ++ 4#3 ++ 0#1))
      = .ok (.mcvtBf16F32 ⟨true, 3, 2, .row 24, true, some .rne⟩) := by
  repeat' apply And.intro
  all_goals rfl

/-- Majors 0x76 to 0x7F (R259 to R283). -/
theorem test_decode_synchronisation :
    decode (hd 1 2 0x76 2) (s32 21 20 9 1) = .ok (.syncBind 21 20 9 .d)
    ∧ decode (hd 1 1 0x78 0) (t16 9 7) = .ok (.barInit 9 7)
    ∧ decode (hd 1 3 0x79 0) (e64 9 0 10 0 0 4 5 1 0 (2#3 ++ 0#20)) = .ok (.vwait ⟨9, 2, 4, 5, 10, ⟨1, false⟩⟩)
    ∧ decode (hd 1 3 0x7A (7#3 ++ 1#2 ++ 1#1)) (e64 0 10 0 0 0 3 2 0 0 (6#6 ++ 3#2 ++ 0#15))
      = .ok (.vamoCas ⟨true, 6, 10, 3, 2, 3, .acq, true, false, all⟩)
    ∧ decode (hd 1 3 0x7B 0) (e64 0 10 11 12 0 0 0 0 0 (0#6 ++ 11#5 ++ 0#12)) = .ok (.winOpen 10 11 12 .f32)
    ∧ decode (hd 0 3 0x7B 1) (e64 0 0 0 0 0 3 2 0 0 (0#6 ++ 4#3 ++ 2#2 ++ 0#12)) = .ok (.vwaccAdd ⟨false, 2, 3, 2, some .rne, all⟩)
    ∧ decode (hd 1 3 0x7C 1) (e64 9 10 11 12 13 0 0 0 0 (14#5 ++ 15#5 ++ 0#13)) = .ok (.cpy2d ⟨9, 10, 11, 12, 13, 14, 15⟩)
    ∧ decode (hd 0 2 0x7D 0) (s32 5 1 0 0) = .ok (.tokPoll 5 1)
    ∧ decode (hd 0 2 0x7E 1) (s32 5 6 7 0) = .ok (.fwdCmp 5 6 7)
    ∧ decode (hd 0 2 0x7F 0) (s32 0 6 7 2) = .ok (.tierHint 6 7 .none) := by
  repeat' apply And.intro
  all_goals rfl

/-- Patterns that take ILL_RSV, ILL_MINOR or ILL_MAJOR (R47, R147, R154, R172, R198, R205, R281). -/
theorem test_decode_refused :
    decode (hd 0 2 0x0D 0) 0 = .error .illMajor
    ∧ decode (hd 0 2 0x10 9) (s32 5 6 7 0) = .error .illMinor
    ∧ decode (hd 0 2 0x10 0) (s32 5 6 7 1) = .error .illRsv
    ∧ decode (hd 0 2 0x13 4) (s32 5 6 0 64) = .error .illRsv
    ∧ decode (hd 0 2 0x18 0) (s32 5 6 0 (0#5 ++ 8#6 ++ 56#6)) = .error .illRsv
    ∧ decode (hd 0 2 0x2E (0#3 ++ 3#2 ++ 0#1)) (s32 5 6 7 0) = .error .illMinor
    ∧ decode (hd 0 2 0x38 8) (s32 5 6 0 3) = .error .illRsv
    ∧ decode (hd 1 2 0x3C 0) (v32 3 4 5 0 1 0) = .error .illRsv
    ∧ decode (hd 1 2 0x3C 2) (v32 3 4 5 0 0 (md 5 1 0 0)) = .error .illRsv
    ∧ decode (hd 1 2 0x3C 0) (v32 3 4 5 0 0 (md 22 0 0 0)) = .error .illRsv
    ∧ decode (hd 1 2 0x3E 0) (v32 3 4 32 0 0 0) = .error .illRsv
    ∧ decode (hd 1 2 0x41 1) (v32 3 4 0 0 0 (md 9 0 4 0)) = .error .illRsv
    ∧ decode (hd 1 2 0x47 0) (v32 8 4 5 0 0 0) = .error .illRsv
    ∧ decode (hd 1 2 0x70 0) (v32 8 0 0 0 0 (11#5 ++ 0#5)) = .error .illRsv
    ∧ decode (hd 0 2 0x7D 0) (s32 5 5 0 0) = .error .illRsv := by
  repeat' apply And.intro
  all_goals rfl

/-! ## Terms without an encoding (WellFormed) -/

/-- Scalar fields: a system register R56 does not list, a field past bit 63, a token polled into itself. -/
theorem test_wf_scalar :
    (Instr.sget 9 0x005).wf = false ∧ (Instr.sput 0x00A 9).wf = false ∧ (Instr.bext 5 6 8 56).wf = false
      ∧ (Instr.bins 5 6 63 1).wf = false ∧ (Instr.tokPoll 5 5).wf = false ∧ (Instr.sget 9 0x023).wf = true
      ∧ (Instr.bins 5 6 63 0).wf = true ∧ (Instr.tokPoll 5 6).wf = true := by decide

/-- Vector arithmetic: mask field 0 with sense 1, SAT and RMS where an entry fixes them. -/
theorem test_wf_vector_arithmetic :
    (Instr.vadd ⟨true, 3, 4, 5, .i32, true, some .rne, all⟩).wf = false
      ∧ (Instr.vsubX ⟨true, 3, 4, 5, .i32, false, some .rtz, all⟩).wf = false
      ∧ (Instr.vmul ⟨true, 3, 4, 5, .i32, true, none, all⟩).wf = false
      ∧ (Instr.vsarX ⟨true, 3, 4, 5, .raw, true, none, all⟩).wf = false
      ∧ (Instr.vfmin ⟨true, 3, 4, 5, .f32, false, some .rup, all⟩).wf = false
      ∧ (Instr.vfmaxX ⟨true, 3, 4, 5, .f32, true, none, all⟩).wf = false
      ∧ (Instr.vfadd ⟨true, 3, 4, 5, .f32, true, some .rup, ⟨0, true⟩⟩).wf = false
      ∧ (Instr.vfdivX ⟨true, 3, 4, 5, .f32, false, none, ⟨0, true⟩⟩).wf = false
      ∧ (Instr.vfrcpE ⟨true, 3, 4, .f32, true, none, all⟩).wf = false
      ∧ (Instr.vfsqrt ⟨true, 3, 4, .f32, true, none, ⟨0, true⟩⟩).wf = false
      ∧ (Instr.vadd ⟨true, 3, 4, 5, .i32, true, none, ⟨1, true⟩⟩).wf = true := by decide

/-- Compares, selects, moves, reductions and conversions. -/
theorem test_wf_masks_moves_conversions :
    (Instr.vcmpEq ⟨true, 2, 4, 5, .raw, ⟨0, true⟩⟩).wf = false ∧ (Instr.vsel ⟨true, 3, 4, 5, ⟨0, true⟩⟩).wf = false
      ∧ (Instr.kpop true 9 4 ⟨0, true⟩).wf = false ∧ (Instr.vbcast true 3 9 .f32 ⟨0, true⟩).wf = false
      ∧ (Instr.vredMin ⟨true, 9, 10, 3, .f32, false, none, true, ⟨0, true⟩⟩).wf = false
      ∧ (Instr.vcvtH ⟨true, 3, 4, .raw, false, none, all⟩).wf = false
      ∧ (Instr.vcvtF32E2m1 ⟨true, 3, 4, .e2m1, false, none, all⟩).wf = false
      ∧ (Instr.vcvtD ⟨true, 3, 4, .f64, false, none, all⟩).wf = true := by decide

/-- Vector memory, permutes, merges and lane tables: a store names no tag, `vlt.fill` no vA. -/
theorem test_wf_memory_and_cross_element :
    (Instr.vst ⟨true, 3, 10, .f32, all⟩).wf = false ∧ (Instr.vsts ⟨true, 3, 10, 11, .f32, all⟩).wf = false
      ∧ (Instr.vstxN ⟨true, 3, 10, 5, .i32, 2, all⟩).wf = false ∧ (Instr.vld ⟨true, 3, 10, .f32, ⟨0, true⟩⟩).wf = false
      ∧ (Instr.vlds ⟨true, 3, 10, 11, .f32, ⟨0, true⟩⟩).wf = false ∧ (Instr.vldx ⟨true, 3, 10, 5, .i32, 2, ⟨0, true⟩⟩).wf = false
      ∧ (Instr.vstc ⟨true, 9, 3, 10, 11, true, ⟨0, true⟩⟩).wf = false ∧ (Instr.vexpand ⟨true, 3, 4, ⟨0, true⟩⟩).wf = false
      ∧ (Instr.vslideUp ⟨true, 3, 4, 9, ⟨0, true⟩⟩).wf = false ∧ (Instr.vxch ⟨true, 9, 3, 4, 10, 11, ⟨0, true⟩⟩).wf = false
      ∧ (Instr.vltSt ⟨true, 3, 5, .bf16, all⟩).wf = false ∧ (Instr.vltFill ⟨true, 20, 1, 0, all⟩).wf = false
      ∧ (Instr.vltFill ⟨true, 20, 0, 0, all⟩).wf = true := by decide

/-- Tiles: tags a tile cannot hold, what `mcvt` fixes. -/
theorem test_wf_tiles :
    (Instr.mzero true 3 .i32).wf = false ∧ (Instr.mtag true 3 .f16).wf = false
      ∧ (Instr.vopa ⟨true, 2, 8, 16, .bf16, 3, ⟨0, true⟩⟩).wf = false ∧ (Instr.mrd ⟨true, 8, 2, 9, ⟨0, true⟩⟩).wf = false
      ∧ (Instr.mld ⟨true, 2, 10, 11, 12, 13, .f64⟩).wf = false ∧ (Instr.mst ⟨true, 2, 10, 11, 12, 13, .f32⟩).wf = false
      ∧ (Instr.mcvtI32Trio ⟨true, 3, 2, .tile 9, false, none⟩).wf = false
      ∧ (Instr.mcvtI32Trio ⟨true, 3, 2, .none, false, some .rne⟩).wf = false
      ∧ (Instr.mcvtF32I32 ⟨true, 3, 2, .none, true, none⟩).wf = false
      ∧ (Instr.mcvtBf16F32 ⟨true, 3, 2, .row 24, true, some .rne⟩).wf = true := by decide

/-- Vector atomics and waits: `cas` returns its old values. -/
theorem test_wf_synchronisation :
    (Instr.vamoCas ⟨true, 6, 10, 3, 2, 3, .acq, false, false, all⟩).wf = false
      ∧ (Instr.vamoAdd ⟨true, 6, 10, 3, 2, 3, .acq, false, false, ⟨0, true⟩⟩).wf = false
      ∧ (Instr.vwait ⟨9, 2, 4, 5, 10, ⟨0, true⟩⟩).wf = false
      ∧ (Instr.vwaccAdd ⟨true, 2, 3, 2, none, ⟨0, true⟩⟩).wf = false
      ∧ (Instr.vamoCas ⟨true, 6, 10, 3, 2, 3, .acq, true, false, all⟩).wf = true := by decide

/-! ## A small package: one strand of one gang, one page of lines, one of the host, one of flash -/

/-- A strand on the four quarters of core 0 of cluster 0: gang 1, address space 1, `tid` 0 of 2. -/
abbrev id0 : Ident := ⟨0, 1, 1, 0, 0, 2, 0, 0, 0, 0, 0, 15⟩

/-- Scalar registers from a list. -/
abbrev regs (l : List (Nat × Word)) : Vector Word 32 :=
  Vector.ofFn fun i => ((l.find? fun p => p.1 == i.val).map Prod.snd).getD 0

/-- The strand at its first issue beat with these registers, at PC 0x1000. -/
abbrev strandOf (l : List (Nat × Word)) : Strand := entryStrand id0 (regs l) 0x1000 (Vector.replicate 256 0)

/-- The page of addresses 0x0000 to 0xFFFF: loc, every permission, physical base 0x10000 (R353). -/
abbrev locPage : TlbEntry := ⟨1, 0, 0x10000, 0x1003F⟩

/-- A page of the host at address 0x20000, and one of flash at 0x30000. -/
abbrev hostPage : TlbEntry := ⟨1, 0x20000, 0x10000, 0x200FF⟩
abbrev flashPage : TlbEntry := ⟨1, 0x30000, 0x10000, 0x3013F⟩

/-- The gang of the strand. -/
abbrev gang1 : Gang := ⟨1, 0, 0, 1, 0, .running, 0, 0, [], 0, 0, 0, [], true, 0⟩

/-- A package with a strand that dispatches, and the lines and bytes given: line 512 holds addresses 0 to 127. -/
abbrev pkg (t : Strand) (lines : List (Nat × LineState)) (mem : List Host.Cell) : State :=
  { State.reset with
    strands := [t], cur := some 0, tlb := [locPage, hostPage, flashPage], gangs := [gang1], lines := lines, mem := mem }

/-- Lines 512 to 543 plain: addresses 0x0000 to 0x0FFF. -/
abbrev plain32 : List (Nat × LineState) := (List.range 32).map fun i => (512 + i, .plain)

/-- A package whose strand stands before a head, with plain lines. -/
abbrev pk (t : Strand) : State := pkg t plain32 []

/-- What one step of an instruction leaves in a register, and where the strand goes on. -/
def after (i : Instr) (s : State) (r : SReg) : Option (Word × Word) :=
  match exec i s with
  | .next s' => (s'.strand 0).map fun t => (t.getS r, t.pc)
  | _ => none

/-- A package with nothing on its way and nothing that waits at a line. -/
structure Calm (s : State) : Prop where
  svcs : s.svcs = []
  requests : s.requests = []
  keystones : s.keystones = []
  outHeld : s.outHeld = []
  strands : (s.strands.all fun t => t.held.isNone && t.hold.isNone) = true
  copies : (s.copies.all fun c => c.held.isNone) = true

theorem Calm.undenied {s : State} (h : s.svcs = []) (c : Ctx) (va : Nat) : s.denied c va = none := by
  simp [State.denied, State.svcOf, h]

theorem Calm.before {s : State} (h : Calm s) (line since : Nat) : s.heldBefore line since = false := by
  have a := h.strands
  have b := h.copies
  simp only [List.all_eq_true, Bool.and_eq_true, Option.isNone_iff_eq_none] at a b
  simp only [State.heldBefore, h.requests, h.outHeld, List.any_nil, Bool.or_false, Bool.or_eq_false_iff, List.any_eq_false]
  exact ⟨fun t ht => by simp [a t ht], fun c hc => by simp [b c hc]⟩

theorem Calm.turn {s : State} (h : Calm s) (who : Agent) (line : Nat) :
    s.behindRequest who line = false ∧ s.waitsTurn who line = false := by
  refine ⟨?_, h.before _ _⟩
  unfold State.behindRequest
  split <;> simp [h.requests, h.keystones]

/-- The home of a line answers: no stack is offline and the line is no other package's. -/
theorem open_home {s : State} {l : Nat} (h : s.hbm.toList.any (fun k => k.band == 3) = false)
    (hl : (homeAttr (128 * l) == attrPeer) = false) : s.closed l = false := by
  simp only [State.closed, State.offline, State.unreachable, h, hl, Bool.and_false, Bool.false_and, Bool.or_false]

/-- A served access of a plain line of the page. -/
theorem served_loc {s : State} {c : Ctx} {va : Word} {h : Nat} (hc : Calm s) (h0 : s.soft = []) (h1 : h = entryHome locPage (va52 va))
    (h2 : s.lineState (lineOf h) = some .plain) (h3 : s.offline (lineOf h) = false) (h4 : s.unreachable (lineOf h) = false) :
    Served s c va locPage h := by
  refine ⟨⟨by simp [h0], hc.turn _ _⟩, ?_⟩
  rw [if_neg (by decide)]
  exact ⟨h1, .inr ⟨by decide, h2, h3, h4⟩⟩

/-- A served access of the host's page. -/
theorem served_host {s : State} {c : Ctx} {va : Word} {h : Nat} (hc : Calm s) (h0 : s.soft = []) (h1 : h = entryHome hostPage (va52 va)) :
    Served s c va hostPage h := by
  refine ⟨⟨by simp [h0], hc.turn _ _⟩, ?_⟩
  rw [if_neg (by decide)]
  exact ⟨h1, .inl (by decide)⟩

/-- Such a package is calm. -/
theorem calm {l : List (Nat × Word)} : Calm (pk (strandOf l)) := ⟨rfl, rfl, rfl, rfl, rfl, rfl⟩

/-! ## Scalar instructions -/

/-- R167: 2^63 - 1 + 1 wraps to -2^63; the high product of -1 and -1 is 0; the source may be the destination. -/
theorem test_scalar_arithmetic :
    after (.add 5 5 6) (pk (strandOf [(5, 0x7FFFFFFFFFFFFFFF), (6, 1)])) 5 = some (0x8000000000000000, 0x1002)
    ∧ after (.mulh 7 5 6) (pk (strandOf [(5, -1), (6, -1)])) 7 = some (0, 0x1002)
    ∧ after (.mulhN 7 5 6) (pk (strandOf [(5, -1), (6, -1)])) 7 = some (-2, 0x1002)
    ∧ after (.subImm 7 5 (-65536)) (pk (strandOf [(5, 1)])) 7 = some (65537, 0x1002)
    ∧ after (.add 0 5 6) (pk (strandOf [(5, 3), (6, 1)])) 0 = some (0, 0x1002) := by
  repeat' apply And.intro
  all_goals rfl

/-- R168: -7 / 2 = -3 remainder -1; by zero all ones and the dividend; -2^63 / -1 gives -2^63 remainder 0. -/
theorem test_scalar_division :
    after (.div 7 5 6) (pk (strandOf [(5, -7), (6, 2)])) 7 = some (-3, 0x1002)
    ∧ after (.rem 7 5 6) (pk (strandOf [(5, -7), (6, 2)])) 7 = some (-1, 0x1002)
    ∧ after (.divN 7 5 6) (pk (strandOf [(5, 9)])) 7 = some (-1, 0x1002)
    ∧ after (.remN 7 5 6) (pk (strandOf [(5, 9)])) 7 = some (9, 0x1002)
    ∧ after (.div 7 5 6) (pk (strandOf [(5, 0x8000000000000000), (6, -1)])) 7 = some (0x8000000000000000, 0x1002)
    ∧ after (.rem 7 5 6) (pk (strandOf [(5, 0x8000000000000000), (6, -1)])) 7 = some (0, 0x1002) := by
  repeat' apply And.intro
  all_goals rfl

/-- R169: a register count is sB[5:0], so 65 shifts by 1; R170: compares of -1 and 1; R171: 64 for zero. -/
theorem test_scalar_logic :
    after (.shl 7 5 6) (pk (strandOf [(5, 3), (6, 65)])) 7 = some (6, 0x1002)
    ∧ after (.sar 7 5 6) (pk (strandOf [(5, -8), (6, 2)])) 7 = some (-2, 0x1002)
    ∧ after (.rotImm 7 5 4) (pk (strandOf [(5, 0xF000000000000001)])) 7 = some (0x1F, 0x1002)
    ∧ after (.andn 7 5 6) (pk (strandOf [(5, 0xF), (6, 5)])) 7 = some (0xA, 0x1002)
    ∧ after (.cmpLt 7 5 6) (pk (strandOf [(5, -1), (6, 1)])) 7 = some (1, 0x1002)
    ∧ after (.cmpLtN 7 5 6) (pk (strandOf [(5, -1), (6, 1)])) 7 = some (0, 0x1002)
    ∧ after (.clz 7 5) (pk (strandOf [])) 7 = some (64, 0x1002)
    ∧ after (.ctz 7 5) (pk (strandOf [(5, 8)])) 7 = some (3, 0x1002) := by
  repeat' apply And.intro
  all_goals rfl

/-- R172, R173: fields of 8 bits at 60 - 4; `lih` puts its immediate above bit 59; `lea` scales sB only. -/
theorem test_scalar_fields :
    after (.bext 7 5 56 7) (pk (strandOf [(5, 0xAB00000000000000)])) 7 = some (0xAB, 0x1002)
    ∧ after (.bins 7 5 8 7) (pk (strandOf [(5, 0x12), (7, 0xFFFF)])) 7 = some (0x12FF, 0x1002)
    ∧ after (.li 7 (-1)) (pk (strandOf [])) 7 = some (-1, 0x1002)
    ∧ after (.lih 7 5 1) (pk (strandOf [(5, -1)])) 7 = some (0x0FFFFFFFFFFFFFFF, 0x1002)
    ∧ after (.lea 7 5 6 3 (-1)) (pk (strandOf [(5, 0x100), (6, 2)])) 7 = some (0x10F, 0x1002) := by
  repeat' apply And.intro
  all_goals rfl

/-- R150, R185, R186: a target two lines back at slot 31; a branch not taken goes on. -/
theorem test_branches :
    after (.beq 5 6 (-2) 31) (pk (strandOf [])) 0 = some (0, 0xFBE)
    ∧ after (.bne 5 6 (-2) 31) (pk (strandOf [])) 0 = some (0, 0x1002)
    ∧ after .ret (pk (strandOf [(1, 0x2040)])) 0 = some (0, 0x2040)
    ∧ after (.progMark 5 3) (pk (strandOf [(5, -1)])) 0 = some (0, 0x1002) := by
  repeat' apply And.intro
  all_goals rfl

/-- R174: little-endian bytes, sign and zero extension; a store writes the low bytes only. -/
theorem test_scalar_memory :
    after (.ldH 7 5 2) (pkg (strandOf [(5, 0x100)]) plain32 [(0x10102, 0x34), (0x10103, 0xF2)]) 7
      = some (0xFFFFFFFFFFFFF234, 0x1002)
    ∧ after (.ldHN 7 5 2) (pkg (strandOf [(5, 0x100)]) plain32 [(0x10102, 0x34), (0x10103, 0xF2)]) 7 = some (0xF234, 0x1002)
    ∧ (match exec (.stH 6 5 0) (pkg (strandOf [(5, 0x100), (6, 0x1234)]) plain32 []) with
      | .next s => s.mem
      | _ => []) = [(0x10100, 0x34), (0x10101, 0x12)] := by
  repeat' apply And.intro
  all_goals decide +kernel

/-- A request at the home of a plain line, or of another byte. -/
abbrev req : Request :=
  ⟨7, 0, 0, 1, .amo .add, 8, .rlx, 0, 0x10000, 0, 1, 0, 0, [], [], false, false, false, 0, false, none, 0⟩

/-- R176, R391: `swp` at a word of the host stores the new one and returns the old one. -/
theorem test_host_atomic :
    (match exec (.memoryAccessPerform 7) { pkg (strandOf []) plain32 [(homeByte 3 0 0x20103, 0x80)] with
      requests := [{ req with kind := .amo .swp, n := 4, va := 0x20100, home := homeByte 3 0 0x20100, data := 9 }] } with
      | .next s => (s.mem, s.requests, s.replies)
      | _ => ([], [], [])) = ([(homeByte 3 0 0x20100, 9)], [], [⟨7, .value 0x80000000, 0⟩]) := by
  decide +kernel

/-- R180 to R184: 1.0 + 2^-53 in f64 is 1.0 with NX; 1.0 / 0 is infinite; truncation of -1.5; an f32 result has zeros above. -/
theorem test_scalar_float :
    after (.fadd true 7 5 6) (pk (strandOf [(5, 0x3FF0000000000000), (6, 0x3CA0000000000000)])) 7
      = some (0x3FF0000000000000, 0x1002)
    ∧ after (.fdiv false 7 5 6) (pk (strandOf [(5, 0x3F800000)])) 7 = some (0x7F800000, 0x1002)
    ∧ after (.fcvtI64F64 7 5 (some .rtz)) (pk (strandOf [(5, 0xBFF8000000000000)])) 7 = some (-1, 0x1002)
    ∧ after (.fcmpUn false 7 5 6) (pk (strandOf [(5, 0x7FC00000)])) 7 = some (1, 0x1002) := by
  repeat' apply And.intro
  all_goals decide +kernel

/-! ## What the statements assume: scalar instructions -/

theorem test_meets_LogicEncodings : (63 : BitVec 17).toNat < 64 ∧ 64 ≤ (64 : BitVec 17).toNat := by decide

theorem test_meets_FieldEncodings : (63 : BitVec 6).toNat + ((0 : BitVec 6).toNat + 1) ≤ 64
    ∧ 64 < (63 : BitVec 6).toNat + ((1 : BitVec 6).toNat + 1) ∧ (1 : BitVec 5) ≠ 0 ∧ (1 : BitVec 6).toNat < 2 := by decide

/-- A strand that is ready with an empty VIQ, whatever the three registers: every statement that assumes no more. -/
theorem test_meets_Ready : Ready (pk (strandOf [])) (strandOf []) [31, 1, 0] ∧ (strandOf []).viq = [] ∧ (strandOf []).idle :=
  ⟨⟨rfl, rfl⟩, rfl, rfl, rfl, rfl⟩

theorem test_meets_BitFieldResults : (63 : BitVec 6).toNat + (0 : BitVec 6).toNat < 64 ∧ 7 < 8 := by decide

/-- An entry of the VIQ: a `kpop` of s9 with its value given away or not, a load. -/
abbrev popEntry (given : Bool) : Entry := ⟨.kpop true 9 1 all, 0, true, 0, 0x018, [], 0, [], false, none, given, none, 0, false, none, [], []⟩
abbrev loadEntry : Entry :=
  ⟨.vld ⟨true, 20, 10, .raw, all⟩, 0, true, 1, 0x018, [0], 0, [], false, none, false, none, 0, false, none, [], []⟩

/-- One register reserved by a value of the result queue, one a pending token, one whose value the open convoy gave away. -/
theorem test_meets_ScalarWaits :
    namedRegs (.add 5 6 7) = some [5, 6, 7]
    ∧ (pk { strandOf [] with rq := [(6, 1)] }).curStrand = some { strandOf [] with rq := [(6, 1)] }
    ∧ { strandOf [] with rq := [(6, 1)] }.mustWait [5, 6, 7] = true
    ∧ { strandOf [] with tokp := 128 }.mustWait [5, 6, 7] = true
    ∧ [5, 6, 7].any { strandOf [] with tokp := 128 }.openNames = false
    ∧ { strandOf [] with viq := [popEntry true], copen := true }.mustWait [9] = true
    ∧ [9].any { strandOf [] with viq := [popEntry true], copen := true }.openNames = true := by
  refine ⟨rfl, rfl, rfl, rfl, rfl, rfl, rfl⟩

/-- A line with a `nop` in slots 0 and 1, a strand at the first: its next head is at hand; it must not be passed where its line is struck. -/
theorem test_meets_Transfers :
    let t : Strand := { strandOf [] with pc := 0 }
    let s : State := pkg t plain32 [(0x10000, 1), (0x10002, 1)]
    (∃ w, s.fetchHead t.ctx 2 true = .ok (.head 1 0) w) ∧ s.awaitNext t = none
      ∧ ({ s with soft := [512] }.awaitNext t).isSome = true :=
  ⟨⟨_, rfl⟩, rfl, rfl⟩

/-- No window; one open; one that an instruction in the queue will open or close. -/
theorem test_meets_EndOfStrand :
    let w (l : List Instr) (win : Option Window) : Strand :=
      { strandOf [] with win := win, viq := l.map fun i => ⟨i, 0x1000, true, 2, 0x018, [], 0, [], false, none, false, none, 0, false, none, [], []⟩ }
    let opened (t : Strand) : Bool := (lastWindow t.viq).getD t.win.isSome
    opened (w [] none) = false ∧ opened (w [] (some ⟨0, 8, 0, .i32⟩)) = true ∧ (w [] (some ⟨0, 8, 0, .i32⟩)).idle
      ∧ opened (w [.winClose] (some ⟨0, 8, 0, .i32⟩)) = false ∧ opened (w [.winClose, .winOpen 10 11 12 .f32] none) = true
      ∧ (w [.winClose, .winOpen 10 11 12 .f32] none).viq ≠ [] ∧ (w [.winClose, .winOpen 10 11 12 .f32] none).vfault = none
      ∧ (w [.winClose] none).acc = none :=
  ⟨rfl, rfl, ⟨rfl, rfl, rfl⟩, rfl, rfl, List.cons_ne_nil _ _, rfl, rfl⟩

/-- The last number of the list; a `vl` that a load may still trim, and the counts of an entry; no load is left. -/
theorem test_meets_SystemRegisterAccess :
    let t : Strand := { strandOf [] with viq := [loadEntry] }
    (0x023, 0) ∈ systemRegisters (pk (strandOf [])) (strandOf []) ∧ Ready (pk t) t [9]
      ∧ sgetMustWait t 0x000 ∧ sgetMustWait t 0x009 ∧ ¬ sgetMustWait { t with viq := [popEntry false] } 0x000 := by
  refine ⟨?_, ⟨rfl, rfl⟩, .inl ⟨.inl rfl, loadEntry, List.mem_singleton.2 rfl, rfl, rfl⟩, .inr ⟨.inl rfl, List.cons_ne_nil _ _⟩, ?_⟩
  · simp [systemRegisters]
    rfl
  · rintro (⟨-, e, he, -, h⟩ | ⟨h, -⟩)
    · rw [List.mem_singleton.1 he] at h
      exact Bool.noConfusion h
    · revert h
      decide

/-- The greatest legal codes, a reserved GRP, a bit above the register; a load that has not passed its checks. -/
theorem test_meets_SetVectorType :
    let legal (w : Word) : Prop := w.toNat < 4096 ∧ w.toNat % 8 ≤ 3 ∧ w.toNat / 8 % 8 ≤ 4
    let passed (t : Strand) : Prop := ∀ e ∈ t.viq, e.loads = true → e.done = true
    legal 0xFE3 ∧ ¬ legal 0xFE4 ∧ ¬ legal 0xFEB ∧ ¬ legal 0x1000 ∧ passed (strandOf [])
      ∧ ¬ passed { strandOf [] with viq := [loadEntry] } := by
  refine ⟨?_, ?_, ?_, ?_, fun e h => absurd h List.not_mem_nil, fun h => ?_⟩
  · decide
  · decide
  · decide
  · decide
  · exact Bool.noConfusion (h loadEntry (List.mem_singleton.2 rfl) rfl)

theorem test_meets_TakingAnException : (pk (strandOf [])).strand (strandOf []).id.sid = some (strandOf []) := rfl

/-- 1.5 rounds to itself in every format; 1 + 2^-60 does not. -/
theorem test_meets_Rounding :
    (fmtE2m1.round .rne false false 3 (-1)).2 &&& (flagOf ||| flagSat) = 0
      ∧ (fmtF64.round .rup true true (2 ^ 60 + 1) (-60)).2 &&& (flagOf ||| flagSat) = 0
      ∧ (fmtF64.round .rup true true (2 ^ 60 + 1) (-60)).2 &&& flagNx ≠ 0 := by decide

/-! ## What the statements assume: scalar accesses -/

/-- A mapped, served access of 1 and of 8 bytes at the end of the plain lines, and on the host's page. -/
theorem mapped_loc (t : Strand) (need : Need) (ls : List (Nat × LineState)) (m : List Host.Cell) (q : Nat) (ag : Agent) (va : Word) (n : Nat)
    (h : canonicalAll va n = true) (ha : va.toNat % n = 0) (hv : va52 va < 0x10000) (hp : ptePermits 0x1003F need = true) :
    Mapped (pkg t ls m) ⟨ag, 1, q⟩ va n need locPage := by
  refine ⟨h, ha, ?_, hp, Calm.undenied rfl _ _⟩
  simp [State.tlbHit, hv]

theorem test_meets_ScalarAccesses :
    Mapped (pk (strandOf [])) (strandOf []).ctx 0xFF8 8 .read locPage ∧ Mapped (pk (strandOf [])) (strandOf []).ctx 0xFFF 1 .write locPage
      ∧ Mapped (pk (strandOf [])) (strandOf []).ctx 0 8 .both locPage
      ∧ Served (pk (strandOf [])) (strandOf []).ctx 0xFF8 locPage 0x10FF8 ∧ Served (pk (strandOf [])) (strandOf []).ctx 0 locPage 0x10000
      ∧ (pk (strandOf [])).memOk ∧ pteAttr locPage.pte ≠ attrHost := by
  refine ⟨⟨rfl, rfl, rfl, rfl, rfl⟩, ⟨rfl, rfl, rfl, rfl, rfl⟩, ⟨rfl, rfl, rfl, rfl, rfl⟩, served_loc calm rfl rfl rfl rfl rfl,
    served_loc calm rfl rfl rfl rfl rfl, ⟨rfl, rfl⟩, by decide⟩

theorem test_meets_ScalarAtomicsOnHostPages :
    Mapped (pk (strandOf [])) (strandOf []).ctx 0x20000 4 .both hostPage
      ∧ Served (pk (strandOf [])) (strandOf []).ctx 0x20000 hostPage (homeByte 3 0 0x20000) ∧ pteAttr hostPage.pte = attrHost
      ∧ (.amoSwp 5 6 7 .rlx false, .swp) ∈ atomics 5 6 7 .rlx false ∧ (.amoXor 5 6 7 .rlx false, .xor) ∈ atomics 5 6 7 .rlx false := by
  refine ⟨⟨rfl, rfl, rfl, rfl, rfl⟩, served_host calm rfl rfl, rfl, by simp [atomics], by simp [atomics]⟩

/-- Addresses that are not canonical, misaligned, on flash, on a slab page no strand maps; a page whose service has been denied; a
page whose cached translation and whose tables permit no store. -/
theorem test_meets_ScalarAccessFaults :
    let s (pte : Word) : State := { pk (strandOf []) with tlb := [⟨1, 0, 0x10000, pte⟩] }
    let denied : State := { s 0x1003F with svcs := [⟨.strand 0, 1, 0, 3, 0, 0, 0, .denied, 0⟩] }
    let tables : State := { s 0x10037 with
      roots := [(1, 0x100000)]
      mem := [(0x100000, 1), (0x100001, 0x10), (0x100002, 0x10), (0x101000, 1), (0x101001, 0x20), (0x101002, 0x10), (0x102000, 1),
        (0x102001, 0x30), (0x102002, 0x10), (0x103000, 0x37), (0x103002, 1)] }
    canonicalAll 0x0008000000000000 1 = false ∧ canonicalAll 0x1001 8 = true ∧ (0x1001 : Word).toNat % 8 ≠ 0
      ∧ Mapped (pk (strandOf [])) (strandOf []).ctx 0x30000 8 .read flashPage ∧ pteAttr flashPage.pte = attrFlash
      ∧ Mapped (s 0x17F) (strandOf []).ctx 0x40 8 .read ⟨1, 0, 0x10000, 0x17F⟩ ∧ pteAttr 0x17F = attrSlab
      ∧ (s 0x17F).slabHome 1 0x40 = none
      ∧ (denied.denied (strandOf []).ctx (va52 0x40)).isSome = true
      ∧ tables.denied (strandOf []).ctx (va52 0x40) = none ∧ tables.tlbHit 1 (va52 0x40) = some ⟨1, 0, 0x10000, 0x10037⟩
      ∧ ptePermits 0x10037 .write = false
      ∧ tables.walk (strandOf []).ctx.who 1 (va52 0x40) = .leaf 0x10037 := by
  refine ⟨rfl, rfl, by decide, ⟨rfl, rfl, rfl, rfl, rfl⟩, rfl, ⟨rfl, rfl, rfl, rfl, rfl⟩, rfl, rfl, rfl, rfl, rfl, rfl, by decide +kernel⟩

/-- At a plain line; at one never produced; at a slab slot that is gone. -/
theorem test_meets_HomeServesAtomic :
    let s (r : Request) : State := { pk (strandOf []) with requests := [r] }
    let slab : Request := { req with home := slabByte 0 0 0 0 }
    ∀ r ∈ [req, { req with home := 0x20000 }, slab], (s r).memOk ∧ (s r).requests.find? (fun x => x.rid == r.rid) = some r
      ∧ r.kind = .amo .add ∧ r.n ≤ 8 ∧ (s r).requestReady r = true ∧ r.again = false ∧ (s r).soft.contains (lineOf r.home) = false
      ∧ (s r).heldBefore (lineOf r.home) ((s r).tick + 1) = false ∧ r.held = none ∧ (∀ t ∈ (s r).strands, t.vamo = none)
      ∧ (r.home < 2 ^ 58 → (s r).offline (lineOf r.home) = false ∧ (s r).unreachable (lineOf r.home) = false)
      ∧ (r = req → hasLines (homeAttr r.home) = true ∧ (s r).lineState (lineOf r.home) = some .plain)
      ∧ (r.home = 0x20000 → hasLines (homeAttr r.home) = true ∧ (s r).lineState (lineOf r.home) = none)
      ∧ (r = slab → homeAttr r.home = attrSlab ∧ (s r).slabHome r.asid r.va = none) := by
  intro s slab r hr
  simp only [List.mem_cons, List.not_mem_nil, or_false] at hr
  have no : ∀ t ∈ [strandOf []], t.vamo = none := fun t ht => by
    rw [List.mem_singleton.1 ht]
    rfl
  rcases hr with rfl | rfl | rfl
  · exact ⟨⟨rfl, rfl⟩, rfl, rfl, by decide, rfl, rfl, rfl, rfl, rfl, no, fun _ => ⟨rfl, rfl⟩, fun _ => ⟨rfl, rfl⟩,
      fun h => absurd h (by decide), fun h => absurd (congrArg Request.home h) (by decide)⟩
  · exact ⟨⟨rfl, rfl⟩, rfl, rfl, by decide, rfl, rfl, rfl, rfl, rfl, no, fun _ => ⟨rfl, rfl⟩,
      fun h => absurd (congrArg Request.home h) (by decide), fun _ => ⟨rfl, rfl⟩, fun h => absurd (congrArg Request.home h) (by decide)⟩
  · exact ⟨⟨rfl, rfl⟩, rfl, rfl, by decide, rfl, rfl, rfl, rfl, rfl, no, fun h => absurd h (by decide +kernel),
      fun h => absurd (congrArg Request.home h) (by decide), fun h => absurd h (by decide),
      fun _ => ⟨(by decide +kernel : homeAttr (slabByte 0 0 0 0) = attrSlab), rfl⟩⟩

/-- A strand whose access has its value, or its fault, at hand. -/
theorem test_meets_AccessDelivery :
    let a : Access := ⟨7, 5, 8, true, 0, true, false, ⟨regs [], 0xFFE, true, 0, 0, 0, 0x018, 0⟩, 0⟩
    let t : Strand := { strandOf [] with acc := some a }
    ∀ ans ∈ [Answer.value 3, .fault .check 0],
      ({ pk t with replies := [⟨7, ans, 0⟩] } : State).strand 0 = some t ∧ t.acc = some a
      ∧ ([⟨7, ans, 0⟩] : List Reply).find? (fun x => x.rid == a.rid) = some ⟨7, ans, 0⟩
      ∧ t.viq.take a.ahead = [] ∧ t.rq = [] := by
  intro a t ans h
  simp only [List.mem_cons, List.not_mem_nil, or_false] at h
  rcases h with rfl | rfl <;> exact ⟨rfl, rfl, rfl, rfl, rfl⟩

/-- Behind an access of another line that does not acquire a load goes on, and waits behind one that does. -/
theorem test_meets_ScalarAtomicRequests :
    HomeByte (pk (strandOf [])) 1 0x100 locPage 0x10100 ∧ pteAttr locPage.pte ≠ attrFlash
      ∧ HomeByte (pk (strandOf [])) 1 0x20100 hostPage (homeByte 3 0 0x20100) ∧ (strandOf []).acc = none
      ∧ ∀ a ∈ (some (⟨7, 5, 8, true, 0x80, true, false, ⟨regs [], 0xFFE, true, 0, 0, 0, 0x018, 0⟩, 0⟩ : Access)),
        a.acq = false ∧ lineVa a.va ≠ lineVa 0x100 := by
  refine ⟨rfl, by decide, rfl, rfl, fun a h => ?_⟩
  obtain rfl := Option.some.inj h
  exact ⟨rfl, by decide⟩

/-- Exceptions that leave a waiting queue's number, and a return whose record holds an entry. -/
theorem test_meets_Exceptions_wait :
    { strandOf [] with wait := .queue 9 5 }.wait = .queue 9 5
      ∧ (pk { strandOf [] with wait := .queue 9 5 }).strand 0 = some { strandOf [] with wait := .queue 9 5 } := ⟨rfl, rfl⟩

/-! ## What the statements assume: encoding and the step -/

theorem test_meets_Encoding :
    (Instr.add 5 6 7).wf = true ∧ encode (.add 5 6 7) = some ⟨0x4400, 0x298E0000⟩ ∧ (0x4400 : BitVec 16) ≠ 0
      ∧ decode 0x4400 0x298E0000 = .ok (.add 5 6 7) := by
  refine ⟨rfl, rfl, by decide, rfl⟩

/-- A strand at the start of a line that holds `add s5, s6, s7` (R143: the tail of the first head ends the line). -/
abbrev stepping : State :=
  pkg { strandOf [(6, 2), (7, 3)] with pc := 0 } plain32
    [(0x10001, 0x44), (0x1003E, 0x8E), (0x1003F, 0x29)]

theorem test_meets_StepRunsDecoded :
    stepping.eventDue = none ∧ stepping.pick = some (0, { strandOf [(6, 2), (7, 3)] with pc := 0 })
      ∧ (∃ w, stepping.fetchHead (strandOf []).ctx 0 false = .ok (.head 0x4400 0x298E0000) w)
      ∧ (∃ w, stepping.fetchHead (strandOf []).ctx 2 true = .ok .nextLine w)
      ∧ (∃ w, stepping.fetchHead (strandOf []).ctx 2 false = .ok .illLine w)
      ∧ (∃ w, (pkg (strandOf []) plain32 [(0x10001, 0x03), (0x10000, 0x40)]).fetchHead (strandOf []).ctx 0 false
        = .ok (.head 0x0340 0) w) ∧ decode 0x0340 0 = .error .illMajor
      ∧ stepping.tlbHit 1 (va52 (0 &&& ~~~63)) = some locPage ∧ pteX locPage.pte = true
      ∧ stepping.lineState (lineOf (entryHome locPage (va52 0))) = some .plain := by
  refine ⟨rfl, rfl, ⟨_, rfl⟩, ⟨_, rfl⟩, ⟨_, rfl⟩, ⟨_, rfl⟩, rfl, rfl, rfl, by decide +kernel⟩

/-- The step decodes and runs it: 2 + 3 = 5. -/
theorem test_step_runs_add : (match step stepping with
    | .next s => (s.strand 0).map fun t => (t.getS 5, t.pc)
    | _ => none) = some (5, 2) := by
  decide +kernel

theorem test_meets_StepKeepsMemory : stepping.memOk ∧ ∃ s', step stepping = .next s' := by
  refine ⟨⟨rfl, rfl⟩, ?_⟩
  cases h : step stepping with
  | next s => exact ⟨s, rfl⟩
  | fault _ => exact absurd test_step_runs_add (by rw [h]; simp)
  | refused _ => exact absurd test_step_runs_add (by rw [h]; simp)

/-! ## What the statements assume: exceptions, services, forwarding -/

/-- A strand that may trap at once, and one that may not: a value waits in its result queue. -/
theorem test_meets_Exceptions :
    (strandOf []).idle ∧ (strandOf []).mustWait [5] = false ∧ ¬ { strandOf [] with rq := [(5, 1)] }.idle
      ∧ { strandOf [] with rq := [(5, 1)] }.mustWait [6] = false ∧ (pk (strandOf [])).curStrand = some (strandOf []) := by
  refine ⟨⟨rfl, rfl, rfl⟩, rfl, ?_, rfl, rfl⟩
  simp [Strand.idle]

/-- The card of a task of 2 strands on 4 quarters each: ENTRY 0x1000, CWADDR 0x200, one task, VLLO = VLHI = 4096. -/
abbrev card1 : BitVec 1024 :=
  BitVec.ofNat 1024 (0x1000 + 0x200 * 2 ^ 640 + 2 ^ 768 + 4096 * 2 ^ 864 + 4096 * 2 ^ 880 + 2 * 2 ^ 952 + 4 * 2 ^ 960)

/-- Queue 9, open to address space 1. -/
abbrev queue9 : Queue := ⟨9, 1, 1, Vector.replicate 4 0, Vector.replicate 4 0, none, 0, 0⟩

/-- A submission page with a system-call ring of two entries at 0x400 and a fault ring of one entry at 0x500. -/
abbrev page1 : Page := ⟨1, 0, 0x400, 2, 0, 0, 0x500, 1, 0, 0, 0⟩

theorem test_meets_QueueDrain :
    let s : State := { pk { strandOf [] with wait := .queue 9 5 } with queues := [queue9] }
    s.queueOpen 1 9 = true ∧ s.queueOpen 1 8 = false ∧ s.strand 0 = some { strandOf [] with wait := .queue 9 5 }
      ∧ s.queueDrained { strandOf [] with wait := .queue 9 5 } 9 = true := by
  refine ⟨rfl, rfl, rfl, rfl⟩

/-- A request at 0x40 that reads, with no ring, a ring without a base, a full ring, a ring with room. -/
theorem test_meets_SystemCall :
    let s (p : Page) : State := { pk (strandOf [(6, 0x40)]) with pages := [p] }
    let c := (strandOf []).ctx
    (∃ bs, (s page1).readAligned c 0x40 64 = .ok bs (s page1)) ∧ (pk (strandOf [])).page 1 = none
      ∧ (s { page1 with scrBase := 0 }).page 1 = some { page1 with scrBase := 0 }
      ∧ ({ page1 with scrTail := 2 }.scrTail - page1.scrHead).toNat = page1.scrSize.toNat
      ∧ (page1.scrTail - page1.scrHead).toNat ≠ page1.scrSize.toNat ∧ page1.scrBase ≠ 0
      ∧ ∃ w, (s page1).writeRange c 3 (page1.scrBase + BitVec.ofNat 64 (64 * (page1.scrTail.toNat % page1.scrSize.toNat)))
        ([] ++ wordBytes 8 (page1.scrTail.setWidth 16 ++ BitVec.ofNat 8 0 ++ 0#8 ++ 1#32)) = .ok () w := by
  refine ⟨⟨_, rfl⟩, rfl, rfl, by decide, by decide, by decide, ⟨_, rfl⟩⟩

/-- A good card, one without a task, a card list that reads, a full and an open queue. -/
theorem test_meets_TaskPost :
    let s : State := { pk (strandOf [(6, 0x80)]) with queues := [queue9] }
    (∃ bs, s.readAligned (strandOf []).ctx 0x80 128 = .ok bs s) ∧ s.queueOpen 1 9 = true ∧ s.queueOpen 1 10 = false
      ∧ s.cardFieldsOk 1 card1 = true ∧ s.cardFieldsOk 1 0 = false
      ∧ (∃ w, s.cardLists (strandOf []).ctx card1 = .ok (some ([], [])) w) ∧ s.schedulerFull 9 = false
      ∧ { s with cards := List.replicate 256 ⟨3, 1, 9, card1, [], [], [], 0, 0, [], [], 0⟩ }.schedulerFull 9 = true := by
  refine ⟨⟨_, rfl⟩, rfl, rfl, ?_, rfl, ⟨_, rfl⟩, rfl, ?_⟩
  all_goals decide +kernel

/-- A card whose footprint list lies on an address that is not canonical. -/
theorem test_meets_TaskPost_no_list :
    ∃ w, (pk (strandOf [])).cardLists (strandOf []).ctx (BitVec.ofNat 1024 (2 ^ 51 * 2 ^ 448 + 2 ^ 976)) = .ok none w :=
  ⟨_, rfl⟩

theorem test_meets_TokenPoll : (5 : SReg) ≠ 6 ∧ (0 : SReg) = 0 ∧ (0 : BitVec 17) = 0
    ∧ Ready (pk { strandOf [] with tokp := 64 }) { strandOf [] with tokp := 64 } [5] := ⟨by decide, rfl, rfl, rfl, rfl⟩

/-- Addresses whose lines are plain, in move or never produced, and one on the host's page. -/
theorem test_meets_ForwardingOffChain :
    let s := pkg (strandOf []) [(512, .plain), (513, .inMove)] []
    let c := (strandOf []).ctx
    Unforwarded s c 8 .read ∧ Unforwarded s c 128 .read ∧ Unforwarded s c 256 .write ∧ Unforwarded s c 256 .reclaim
      ∧ Itself s c 8 ∧ Itself s c 0x20000
      ∧ s.lineState (lineOf (entryHome locPage (va52 256))) ≠ some .inMove := by
  have h (va : Word) (need : Need) (st : Option LineState) (h1 : canonical va = true)
      (h2 : (pkg (strandOf []) [(512, .plain), (513, .inMove)] []).tlbHit 1 (va52 va) = some locPage)
      (h3 : (pkg (strandOf []) [(512, .plain), (513, .inMove)] []).lineState (lineOf (entryHome locPage (va52 va))) = st)
      (h4 : st ≠ some .forwarded) (h5 : ptePermits locPage.pte need = true)
      (h6 : (homeAttr (128 * lineOf (entryHome locPage (va52 va))) == attrPeer) = false) :
      Unforwarded (pkg (strandOf []) [(512, .plain), (513, .inMove)] []) (strandOf []).ctx va need :=
    ⟨h1, Calm.undenied rfl _ _, locPage, h2, h5, rfl, by rw [h3]; exact h4, open_home (by decide) h6, rfl⟩
  exact ⟨h 8 .read (some .plain) (by decide +kernel) (by decide +kernel) (by decide +kernel) (by decide) rfl (by decide +kernel), h 128 .read (some .inMove) (by decide +kernel) (by decide +kernel) (by decide +kernel) (by decide) rfl (by decide +kernel),
    h 256 .write none (by decide +kernel) (by decide +kernel) (by decide +kernel) (by decide) rfl (by decide +kernel), h 256 .reclaim none (by decide +kernel) (by decide +kernel) (by decide +kernel) (by decide) rfl (by decide +kernel),
    .inl (h 8 .read (some .plain) (by decide +kernel) (by decide +kernel) (by decide +kernel) (by decide) rfl (by decide +kernel)), .inr ⟨rfl, rfl, hostPage, rfl, rfl, rfl⟩, by decide +kernel⟩

/-- Line 512 forwards to address 0x80: a record of address space 1 in its first bytes (R120). -/
abbrev forwarding : State :=
  pkg (strandOf [(6, 8)]) [(512, .forwarded), (513, .plain)] [(0x10000, 0x80), (0x10008, 1)]

theorem test_meets_ForwardingOneHop :
    forwarding.memOk ∧ canonical 8 = true ∧ forwarding.tlbHit 1 (va52 8) = some locPage ∧ hasLines (pteAttr locPage.pte) = true
      ∧ forwarding.lineState (lineOf (entryHome locPage (va52 8))) = some .forwarded ∧ recAsid (forwarding.lineRecord 512) = 1
      ∧ recTarget (forwarding.lineRecord 512) ||| (8 &&& 127) = 0x88 ∧ forwarding.tlbHit 1 (va52 0x88) = some locPage
      ∧ forwarding.lineState (lineOf (entryHome locPage (va52 0x88))) ≠ some .forwarded
      ∧ ptePermits locPage.pte .reclaim = true ∧ Cells.find forwarding.redirects 512 = none := by
  refine ⟨⟨rfl, rfl⟩, rfl, rfl, rfl, ?_, ?_, ?_, rfl, ?_, rfl, rfl⟩
  all_goals decide +kernel

/-- R131: `fwd.res` of address 8 follows the record to 0x88. -/
theorem test_fwd_res : after (.fwdRes 7 6) forwarding 7 = some (0x88, 0x1002) := by
  decide +kernel

/-- R122: a load through a forwarded line reads the destination. -/
theorem test_load_forwarded : after (.ldBN 7 6 0)
    (pkg (strandOf [(6, 8)]) [(512, .forwarded), (513, .plain)] [(0x10000, 0x80), (0x10008, 1), (0x10088, 77)]) 7
      = some (77, 0x1002) := by
  decide +kernel

/-! ## Vector instructions: a convoy of one instruction, EW 32, GRP 1, `vl` = 2 -/

/-- The bits of a register whose first two elements, in lanes 0 and 1, are these (R37). -/
abbrev two (a b : Nat) : VBits := BitVec.ofNat 131072 (a + b * 2 ^ 512)

/-- v4 = (5, -1) and v5 = (3, 2) as I32; v6 = (1.5, -2.0) and v7 = (0.5, 4.0) as F32; v8 = (127, 128) as E8M0, one byte each;
v9 RAW; v10, v11 a group of I64 (0, 1); v12, v13 a group of N64; v14 = (0, 4) and v15 = (0, 0xFFFFFFFF) as N32. -/
abbrev vregs : Vector VecReg 64 := Vector.ofFn fun i =>
  (([(4, ⟨.i32, two 5 0xFFFFFFFF⟩), (5, ⟨.i32, two 3 2⟩), (6, ⟨.f32, two 0x3FC00000 0xC0000000⟩),
    (7, ⟨.f32, two 0x3F000000 0x40800000⟩), (8, ⟨.e8m0, two 127 128⟩), (10, ⟨.i64, two 0 1⟩), (11, ⟨.i64, 0⟩),
    (12, ⟨.n64, two 0x80 0x88⟩), (13, ⟨.n64, 0⟩), (14, ⟨.n32, two 0 4⟩), (15, ⟨.n32, two 0 0xFFFFFFFF⟩)] :
    List (Nat × VecReg)).find? fun p => p.1 == i.val).elim ⟨.raw, 0⟩ Prod.snd

/-- k1 admits element 1 only. -/
abbrev kregs : Vector KBits 8 := Vector.ofFn fun i => if i.val = 1 then 2 else 0

/-- The entry of an instruction with its scalar operands. -/
abbrev entry (i : Instr) (ops : List Word) : Entry := ⟨i, 0x1000, true, 2, 0x018, ops, 0, [], false, none, false, none, 0, false, none, [], []⟩

/-- The strand that holds it. -/
abbrev holding (i : Instr) (ops : List Word) : Strand :=
  { strandOf [] with vl := 2, v := vregs, k := kregs, viq := [entry i ops] }

/-- Every instruction that chains stands alone so, under a legal setting. -/
theorem alone (i : Instr) (ops : List Word) (ls : List (Nat × LineState)) (m : List Host.Cell)
    (h : (uses 0x018 i).isSome = true) :
    Alone (pkg (holding i ops) ls m) 0 (holding i ops) (entry i ops) :=
  ⟨rfl, rfl, h, rfl, rfl, rfl, rfl, rfl, rfl, rfl, rfl, rfl, rfl, rfl, rfl, rfl, rfl, rfl⟩

theorem quarters4 : (quartersOf 15).length = 4 := by decide

theorem setting (i : Instr) (ops : List Word) : Setting (holding i ops) (entry i ops) := by
  have q : (holding i ops).q = 4 := quarters4
  have h : vlmaxOf 4 0x018 = 4096 := by decide
  have o : vtypeOk 0x018 = true := by decide
  refine ⟨o, ⟨by rw [q]; decide, by rw [q]⟩, ⟨?_, ?_⟩⟩
  · exact (by decide : 1 ≤ 2)
  · rw [q, h]; exact (by decide : 2 ≤ 4096)

/-- A source group, from its size and the tags of its registers. -/
theorem source (t : Strand) (vt : BitVec 12) (r : VReg) (w : Nat) (ty : Tag) (k : Nat) (hk : groupSize vt w = k)
    (h1 : groupOk r.toNat k = true) (h2 : (List.range k).all (fun i => (regAt t.v (r.toNat + i)).tag == ty) = true)
    (h3 : ty = .raw ∨ ty.width = some w) : SourceGroup t vt r w ty := by
  refine ⟨by rw [hk]; exact h1, fun n ha hb => ?_, h3⟩
  rw [hk] at hb
  have := List.all_eq_true.1 h2 (n - r.toNat) (List.mem_range.2 (by omega))
  have e : r.toNat + (n - r.toNat) = n := by omega
  rw [e] at this
  exact eq_of_beq this

/-- Groups of one register with nothing in common. -/
theorem clear (d r : VReg) (dw w : Nat) (h : d.toNat + groupSize 0x018 dw ≤ r.toNat ∨ r.toNat + groupSize 0x018 w ≤ d.toNat) :
    Clear 0x018 d dw r w := .inr h

theorem src4 (i : Instr) (ops : List Word) : SourceGroup (holding i ops) 0x018 4 32 .i32 := source _ _ _ _ _ 1 rfl rfl rfl (.inr rfl)
theorem src5 (i : Instr) (ops : List Word) : SourceGroup (holding i ops) 0x018 5 32 .i32 := source _ _ _ _ _ 1 rfl rfl rfl (.inr rfl)
theorem src6 (i : Instr) (ops : List Word) : SourceGroup (holding i ops) 0x018 6 32 .f32 := source _ _ _ _ _ 1 rfl rfl rfl (.inr rfl)
theorem src7 (i : Instr) (ops : List Word) : SourceGroup (holding i ops) 0x018 7 32 .f32 := source _ _ _ _ _ 1 rfl rfl rfl (.inr rfl)
theorem src8 (i : Instr) (ops : List Word) : SourceGroup (holding i ops) 0x018 8 8 .e8m0 := source _ _ _ _ _ 1 rfl rfl rfl (.inr rfl)
theorem src9 (i : Instr) (ops : List Word) : SourceGroup (holding i ops) 0x018 9 32 .raw := source _ _ _ _ _ 1 rfl rfl rfl (.inl rfl)
theorem src10 (i : Instr) (ops : List Word) : SourceGroup (holding i ops) 0x018 10 64 .i64 := source _ _ _ _ _ 2 rfl rfl rfl (.inr rfl)
theorem src12 (i : Instr) (ops : List Word) : SourceGroup (holding i ops) 0x018 12 64 .n64 := source _ _ _ _ _ 2 rfl rfl rfl (.inr rfl)
theorem src14 (i : Instr) (ops : List Word) : SourceGroup (holding i ops) 0x018 14 32 .n32 := source _ _ _ _ _ 1 rfl rfl rfl (.inr rfl)
theorem src15 (i : Instr) (ops : List Word) : SourceGroup (holding i ops) 0x018 15 32 .n32 := source _ _ _ _ _ 1 rfl rfl rfl (.inr rfl)

/-- The first two elements of a register, its tag, and the strand's flags, after the convoy of an instruction. -/
noncomputable def vec (i : Instr) (ops : List Word) (r w : Nat) (mem : List Host.Cell) : Option (Nat × Nat × Tag × Nat) :=
  match exec (.convoyStart 0) (pkg (holding i ops) plain32 mem) with
  | .next s => (s.strand 0).map fun t =>
    (elemGet t.v 4 r w 0, elemGet t.v 4 r w 1, (regAt t.v r).tag, (allLanes t.lflags).toNat)
  | _ => none

/-- The value the convoy of an instruction delivers. -/
noncomputable def delivered (i : Instr) (ops : List Word) : Option Word :=
  match exec (.convoyStart 0) (pkg (holding i ops) plain32 []) with
  | .next s => (s.strand 0).bind fun t => t.viq.head?.bind fun e => e.result.map Prod.snd
  | _ => none

/-- R203, R67: (5, -1) + (3, 2); (3, 2) - (5, -1); an element the mask shuts out keeps its bits; -1 × 2 + v9; shifts take the low
bits of their count. -/
theorem test_vector_integer :
    vec (.vadd ⟨true, 20, 4, 5, .i32, false, none, all⟩) [] 20 32 [] = some (8, 1, .i32, 0)
    ∧ vec (.vsub ⟨true, 20, 5, 4, .raw, false, none, ⟨1, false⟩⟩) [] 20 32 [] = some (0, 3, .i32, 0)
    ∧ vec (.vaddX ⟨true, 20, 4, 9, .raw, true, none, all⟩) [0x7FFFFFFF] 20 32 [] = some (0x7FFFFFFF, 0x7FFFFFFE, .i32, 32)
    ∧ vec (.vmulh ⟨true, 20, 4, 4, .raw, false, none, all⟩) [] 20 32 [] = some (0, 0, .i32, 0)
    ∧ vec (.vmin ⟨true, 20, 4, 5, .raw, false, none, all⟩) [] 20 32 [] = some (3, 0xFFFFFFFF, .i32, 0)
    ∧ vec (.vsar ⟨true, 20, 4, 5, .raw, false, none, all⟩) [] 20 32 [] = some (0, 0xFFFFFFFF, .i32, 0) := by
  repeat' apply And.intro
  all_goals decide +kernel

/-- R204 to R206: 1.5 + 0.5, -2.0 + 4.0; 1.5 / 0.5, -2.0 / 4.0; 1.5 × 2^0, -2.0 × 2^1; the estimate of 1/1.5 to 8 bits. -/
theorem test_vector_float :
    vec (.vfadd ⟨true, 20, 6, 7, .f32, false, none, all⟩) [] 20 32 [] = some (0x40000000, 0x40000000, .f32, 0)
    ∧ vec (.vfdiv ⟨true, 20, 6, 7, .raw, false, none, all⟩) [] 20 32 [] = some (0x40400000, 0xBF000000, .f32, 0)
    ∧ vec (.vscale ⟨true, 20, 6, 8, .raw, false, none, all⟩) [] 20 32 [] = some (0x3FC00000, 0xC0800000, .f32, 0)
    ∧ vec (.vfrcpE ⟨true, 20, 6, .raw, false, none, all⟩) [] 20 32 [] = some (0x3F2A0000, 0xBF000000, .f32, 0)
    ∧ vec (.vfsqrt ⟨true, 20, 6, .raw, false, none, ⟨1, false⟩⟩) [] 20 32 [] = some (0, 0x7FC00000, .f32, 1) := by
  repeat' apply And.intro
  all_goals decide +kernel

/-- R208, R211, R214: selects, broadcasts and conversions. -/
theorem test_vector_moves :
    vec (.vsel ⟨true, 20, 4, 5, ⟨1, false⟩⟩) [] 20 32 [] = some (3, 0xFFFFFFFF, .i32, 0)
    ∧ vec (.vbcast true 20 9 .f32 all) [0x13F800000] 20 32 [] = some (0x3F800000, 0x3F800000, .f32, 0)
    ∧ vec (.vmvSx true 20 9 10 .i32) [7, 1] 20 32 [] = some (0, 7, .i32, 0)
    ∧ vec (.vcvtD ⟨true, 20, 6, .i64, false, some .rtz, all⟩) [] 20 64 [] = some (1, 0xFFFFFFFFFFFFFFFE, .i64, 16)
    ∧ vec (.vcvtH ⟨true, 20, 4, .i16, false, none, all⟩) [] 20 16 [] = some (5, 0xFFFF, .i16, 0) := by
  repeat' apply And.intro
  all_goals decide +kernel

/-- R226 to R229, R232: an index at or beyond `vl` gives 0; element 0 keeps its bits in a slide up by 1; scans. -/
theorem test_vector_cross_element :
    vec (.vperm ⟨true, 20, 5, 14, all⟩) [] 20 32 [] = some (3, 0, .i32, 0)
    ∧ vec (.vzip ⟨true, 20, 4, 5, all⟩) [] 20 32 [] = some (5, 3, .i32, 0)
    ∧ vec (.vslideUp ⟨true, 20, 5, 9, all⟩) [1] 20 32 [] = some (0, 3, .i32, 0)
    ∧ vec (.vslideDn ⟨true, 20, 5, 9, all⟩) [1] 20 32 [] = some (2, 0, .i32, 0)
    ∧ vec (.vcompress ⟨true, 20, 5, ⟨1, false⟩⟩) [] 20 32 [] = some (2, 0, .i32, 0)
    ∧ vec (.vexpand ⟨true, 20, 5, ⟨1, false⟩⟩) [] 20 32 [] = some (0, 3, .i32, 0)
    ∧ vec (.vscanAdd ⟨true, 20, 4, .raw, false, none, all⟩) [] 20 32 [] = some (5, 4, .i32, 0)
    ∧ vec (.vscanAddx ⟨true, 20, 4, .raw, false, none, all⟩) [] 20 32 [] = some (0, 5, .i32, 0) := by
  repeat' apply And.intro
  all_goals decide +kernel

/-- R210, R212, R213: counts, a moved element sign-extended, sums and minima. -/
theorem test_vector_to_scalar :
    delivered (.kpop true 9 1 all) [] = some 1
    ∧ delivered (.kfirst true 9 1 ⟨1, true⟩) [] = some (-1)
    ∧ delivered (.vmvXs true 9 4 10) [1] = some (-1)
    ∧ delivered (.vredAddO ⟨true, 9, 10, 4, .raw, false, none, true, all⟩) [10] = some 14
    ∧ delivered (.vredMax ⟨true, 9, 10, 4, .raw, false, none, false, all⟩) [0] = some 5
    ∧ delivered (.vredAddT ⟨true, 9, 10, 6, .raw, false, none, false, all⟩) [0] = some 0xBF000000 := by
  repeat' apply And.intro
  all_goals decide +kernel

/-- R217, R218: unit stride, a stride of -4 bytes, indices shifted by 2. -/
theorem test_vector_loads :
    vec (.vld ⟨true, 20, 10, .f32, all⟩) [0x100] 20 32 [(0x10100, 1), (0x10104, 2)] = some (1, 2, .f32, 0)
    ∧ vec (.vlds ⟨true, 20, 10, 11, .raw, all⟩) [0x104, -4] 20 32 [(0x10100, 1), (0x10104, 2)] = some (2, 1, .raw, 0)
    ∧ vec (.vldx ⟨true, 20, 10, 14, .i32, 2, all⟩) [0x100] 20 32 [(0x10100, 1), (0x10110, 9)] = some (1, 9, .i32, 0) := by
  repeat' apply And.intro
  all_goals decide +kernel

/-! ## What the statements assume: vector instructions -/

/-- What every statement about a convoy of one instruction assumes. -/
def Meets (i : Instr) (ops : List Word) : Prop :=
  Alone (pk (holding i ops)) 0 (holding i ops) (entry i ops) ∧ Setting (holding i ops) (entry i ops) ∧ (pk (holding i ops)).memOk

theorem meets (i : Instr) (ops : List Word) (h : (uses 0x018 i).isSome = true) : Meets i ops :=
  ⟨alone i ops _ _ h, setting i ops, rfl, rfl⟩

theorem size32 : groupSize 0x018 32 = 1 := by decide

theorem clear1 (d r : VReg) (h : d.toNat ≠ r.toNat) : Clear 0x018 d 32 r 32 := by
  refine clear d r 32 32 ?_
  rw [size32]
  omega

/-- A destination that is a source (`vmadd`), and RAW sources. -/
theorem test_meets_VectorIntegerResults :
    let i : Instr := .vmadd ⟨true, 5, 4, 5, .i32, false, none, ⟨1, true⟩⟩
    let j : Instr := .vand ⟨true, 20, 9, 9, .raw, false, none, all⟩
    Meets i [] ∧ Meets j [] ∧ Meets (.vsarX ⟨true, 20, 9, 10, .raw, false, none, all⟩) [1]
      ∧ SourceGroup (holding i []) 0x018 4 32 .i32 ∧ SourceGroup (holding i []) 0x018 5 32 .i32
      ∧ SourceGroup (holding j []) 0x018 9 32 .raw ∧ groupOk 20 (groupSize 0x018 32) = true
      ∧ Clear 0x018 5 32 4 32 ∧ Clear 0x018 5 32 5 32 ∧ Clear 0x018 20 32 9 32 := by
  refine ⟨meets _ _ rfl, meets _ _ rfl, meets _ _ rfl, src4 _ _, src5 _ _, src9 _ _, by decide, clear1 _ _ (by decide),
    .inl ⟨rfl, rfl⟩, clear1 _ _ (by decide)⟩

theorem test_meets_VectorFloat :
    let i : Instr := .vfma ⟨true, 7, 6, 7, .f32, false, some .rup, all⟩
    let j : Instr := .vscale ⟨true, 20, 6, 8, .f32, false, none, all⟩
    Meets i [] ∧ Meets j [] ∧ Meets (.vfsqrt ⟨true, 20, 6, .raw, false, none, all⟩) []
      ∧ Meets (.vfmaxX ⟨true, 20, 6, 9, .f32, false, none, all⟩) [0]
      ∧ SourceGroup (holding i []) 0x018 6 32 .f32 ∧ SourceGroup (holding i []) 0x018 7 32 .f32
      ∧ SourceGroup (holding j []) 0x018 8 8 .e8m0 ∧ Clear 0x018 20 32 8 8 ∧ Clear 0x018 20 32 6 32
      ∧ floatAccept .f32 .f32 = true := by
  refine ⟨meets _ _ rfl, meets _ _ rfl, meets _ _ rfl, meets _ _ rfl, src6 _ _, src7 _ _, src8 _ _, ?_,
    clear1 _ _ (by decide), rfl⟩
  exact clear _ _ _ _ (by decide)

/-- An infinity, a NaN, a zero, and values whose reciprocals lie within and beyond the format. -/
theorem test_meets_ReciprocalEstimate :
    fmtBf16.unpack 0xFF80 = .inf true ∧ fmtF32.unpack 0x7F800001 = .nan true ∧ fmtF16.unpack 0x8000 = .fin true 0 (-24)
      ∧ fmtF64.unpack 1 = .fin false 1 (-1074) ∧ fmtF32 ∈ [fmtF16, fmtBf16, fmtF32, fmtF64] := by
  refine ⟨rfl, rfl, rfl, ?_, by simp⟩
  decide +kernel

theorem test_meets_CompareMaskSelectResults :
    let i : Instr := .vcmpGeN ⟨true, 2, 4, 5, .i32, all⟩
    let j : Instr := .vcmpFle ⟨true, 0, 6, 7, .f32, all⟩
    Meets i [] ∧ Meets j [] ∧ Meets (.kand true 2 1 0) [] ∧ Meets (.kor true 2 1 0) [] ∧ Meets (.knot true 0 1) []
      ∧ Meets (.vsel ⟨true, 20, 4, 5, ⟨1, false⟩⟩) []
      ∧ SourceGroup (holding i []) 0x018 4 32 .i32 ∧ SourceGroup (holding i []) 0x018 5 32 .i32
      ∧ SourceGroup (holding j []) 0x018 6 32 .f32 ∧ SourceGroup (holding j []) 0x018 7 32 .f32
      ∧ Clear 0x018 20 32 4 32 ∧ Clear 0x018 20 32 5 32 := by
  exact ⟨meets _ _ rfl, meets _ _ rfl, meets _ _ rfl, meets _ _ rfl, meets _ _ rfl, meets _ _ rfl, src4 _ _, src5 _ _,
    src6 _ _, src7 _ _, clear1 _ _ (by decide), clear1 _ _ (by decide)⟩

theorem test_meets_MoveAndTagResults :
    Meets (.vbcast true 20 9 .f32 ⟨1, false⟩) [1] ∧ Meets (.vmvSx true 20 9 10 .raw) [7, 2] ∧ Meets (.vmvXs true 9 4 10) [2]
      ∧ Meets (.vtag true 20 4 .f32) [] ∧ SourceGroup (holding (.vmvXs true 9 4 10) [2]) 0x018 4 32 .i32
      ∧ groupOk 20 (groupSize 0x018 32) = true ∧ groupOk 4 (groupSize 0x018 32) = true ∧ Tag.f32.width = some 32
      ∧ Clear 0x018 20 32 4 32 := by
  exact ⟨meets _ _ rfl, meets _ _ rfl, meets _ _ rfl, meets _ _ rfl, src4 _ _, by decide, by decide, rfl,
    clear1 _ _ (by decide)⟩

/-- A mask with a bit at the last element, one with none; the tree of two elements has one level. -/
theorem test_meets_ReductionResults :
    let a : Red := ⟨true, 9, 10, 4, .i32, false, none, true, all⟩
    let b : Red := ⟨true, 9, 10, 6, .f32, false, none, false, all⟩
    Meets (.kpop true 9 1 all) [] ∧ Meets (.kfirst true 9 1 all) [] ∧ Meets (.kfirst true 9 2 all) []
      ∧ Meets (.vredAddO a) [1] ∧ Meets (.vredMin a) [1] ∧ Meets (.vredMax a) [1] ∧ Meets (.vredAddT b) [0]
      ∧ SourceGroup (holding (.vredAddO a) [1]) 0x018 4 32 .i32 ∧ SourceGroup (holding (.vredAddT b) [0]) 0x018 6 32 .f32
      ∧ (maskBit kregs 1 1 && admits kregs all 1) = true ∧ (maskBit kregs 1 0 && admits kregs all 0) = false
      ∧ (maskBit kregs 2 0 && admits kregs all 0) = false ∧ (maskBit kregs 2 1 && admits kregs all 1) = false
      ∧ 2 ≤ 2 ^ 1 ∧ 2 ^ (1 - 1) < 2 ∧ admits kregs all 0 = true := by
  exact ⟨meets _ _ rfl, meets _ _ rfl, meets _ _ rfl, meets _ _ rfl, meets _ _ rfl, meets _ _ rfl, meets _ _ rfl, src4 _ _,
    src6 _ _, by decide +kernel, by decide +kernel, by decide +kernel, by decide +kernel, by decide, by decide, rfl⟩

theorem test_meets_VectorConversions :
    let i : Instr := .vcvtH ⟨true, 20, 4, .i16, true, none, all⟩
    let j : Instr := .vcvtD ⟨true, 20, 6, .f64, false, none, all⟩
    let k : Instr := .vcvtF32E2m1 ⟨true, 20, 6, .raw, false, none, all⟩
    Meets i [] ∧ Meets j [] ∧ Meets k [] ∧ SourceGroup (holding i []) 0x018 4 32 .i32 ∧ SourceGroup (holding j []) 0x018 6 32 .f32
      ∧ Tag.i16.width = some 16 ∧ Tag.f64.width = some 64 ∧ groupOk 20 (groupSize 0x018 16) = true
      ∧ groupOk 20 (groupSize 0x018 64) = true ∧ groupOk 20 (groupSize 0x018 4) = true ∧ Clear 0x018 20 16 4 32
      ∧ Clear 0x018 20 64 6 32 ∧ Clear 0x018 20 4 6 32 := by
  exact ⟨meets _ _ rfl, meets _ _ rfl, meets _ _ rfl, src4 _ _, src6 _ _, rfl, rfl, by decide, by decide, by decide,
    clear _ _ _ _ (by decide), clear _ _ _ _ (by decide), clear _ _ _ _ (by decide)⟩

theorem test_meets_CrossElementResults :
    let i : Instr := .vperm ⟨true, 20, 4, 14, all⟩
    Meets i [] ∧ Meets (.vzip ⟨true, 20, 4, 5, all⟩) [] ∧ Meets (.vunzip ⟨true, 20, 4, all⟩) []
      ∧ Meets (.vslideUp ⟨true, 20, 4, 9, all⟩) [1] ∧ Meets (.vslideDn ⟨true, 20, 4, 9, all⟩) [2]
      ∧ Meets (.vrepBlk ⟨true, 20, 4, all⟩) [] ∧ Meets (.vcompress ⟨true, 20, 4, ⟨1, false⟩⟩) []
      ∧ Meets (.vexpand ⟨true, 20, 4, ⟨1, false⟩⟩) [] ∧ Meets (.vscanAdd ⟨true, 20, 4, .i32, false, none, all⟩) []
      ∧ Meets (.vscanAddx ⟨true, 20, 4, .raw, false, none, all⟩) []
      ∧ SourceGroup (holding i []) 0x018 4 32 .i32 ∧ SourceGroup (holding i []) 0x018 14 32 .n32 ∧ Clear 0x018 20 32 14 32 := by
  exact ⟨meets _ _ rfl, meets _ _ rfl, meets _ _ rfl, meets _ _ rfl, meets _ _ rfl, meets _ _ rfl, meets _ _ rfl,
    meets _ _ rfl, meets _ _ rfl, meets _ _ rfl, src4 _ _, src14 _ _, clear1 _ _ (by decide)⟩

/-- A key in both rows, one in the second only. -/
theorem test_meets_MergeOfSortedRows :
    let as : List (Nat × Nat) := [(1, 5)]
    let bs : List (Nat × Nat) := [(1, 3), (2, 4)]
    as.Pairwise (fun p q => Tag.n32.intValue p.1 < Tag.n32.intValue q.1)
      ∧ bs.Pairwise (fun p q => Tag.n32.intValue p.1 < Tag.n32.intValue q.1) ∧ (∀ p ∈ as ++ bs, p.1 < 2 ^ 32)
      ∧ as.length + bs.length ≤ 3 ∧ Tag.n32.isInt = true ∧ Tag.n32.width = some 32 := by
  refine ⟨?_, ?_, ?_, ?_, rfl, rfl⟩ <;> decide

/-- Rows of counts 2 and 1 that merge into three, a count above `vl`. -/
theorem test_meets_MergeResults :
    let i : Instr := .vmergeUAdd ⟨true, 9, 20, 14, 10, 14, 11, false, none⟩
    Meets i [2, 1] ∧ Meets (.vmergeUSub ⟨true, 9, 20, 14, 10, 14, 11, true, some .rne⟩) [2, 1]
      ∧ Meets (.vmergeUMax ⟨true, 9, 20, 14, 10, 14, 11, false, none⟩) [3, 0]
      ∧ (14 : VReg).toNat % 1 = 0 ∧ (14 : VReg).toNat + 2 * 1 ≤ 64 ∧ (20 : VReg).toNat + 2 * 1 ≤ 64
      ∧ (regAt vregs 14).tag = .n32 ∧ (regAt vregs 15).tag = .n32
      ∧ (mergeLoop .add .n32 .n32 32 .rne false 4096 4 0 [(0, 0), (4, 0xFFFFFFFF)] [(0, 0)] [] []).isSome = true := by
  exact ⟨meets _ _ rfl, meets _ _ rfl, meets _ _ rfl, by decide, by decide, by decide, rfl, rfl, by decide⟩

/-- With one quarter and EW 64 VLMAX is 512: 512 rows of key 0 and 512 of key 1 do not fit. -/
theorem test_meets_MergeResults_overflow :
    mergeLoop .add .n64 .n64 64 .rne false 512 1025 0 (List.replicate 512 (0, 0)) (List.replicate 512 (1, 0)) [] [] = none := by
  decide +kernel

/-! ## What the statements assume: vector memory -/

theorem canonical_small (x : Nat) (h : x < 2 ^ 51) : canonical (BitVec.ofNat 64 x) = true := by
  have e : (BitVec.ofNat 64 x).setWidth 52 = BitVec.ofNat 52 x := by
    apply BitVec.eq_of_toNat_eq
    simp only [BitVec.toNat_setWidth, BitVec.toNat_ofNat]
    omega
  have m : (BitVec.ofNat 52 x).msb = false := by
    rw [BitVec.msb_eq_decide]
    simp only [BitVec.toNat_ofNat, decide_eq_false_iff_not]
    omega
  rw [canonical, e, BitVec.signExtend_eq_setWidth_of_msb_false m]
  apply beq_of_eq
  apply BitVec.eq_of_toNat_eq
  simp only [BitVec.toNat_setWidth, BitVec.toNat_ofNat]
  omega

/-- An access of `n` bytes on the page of lines. -/
theorem mapped_at (s : State) (c : Ctx) (x n : Nat) (need : Need) (ha : c.asid = 1) (hx : x + n ≤ 0x10000) (hn : 1 ≤ n)
    (hd : x % n = 0) (hp : ptePermits 0x1003F need = true) (ht : s.tlb = [locPage, hostPage, flashPage])
    (hs : s.svcs = [] := by rfl) :
    Mapped s c (BitVec.ofNat 64 x) n need locPage := by
  have e : BitVec.ofNat 64 x + BitVec.ofNat 64 (n - 1) = BitVec.ofNat 64 (x + (n - 1)) := by
    apply BitVec.eq_of_toNat_eq
    simp only [BitVec.toNat_add, BitVec.toNat_ofNat]
    omega
  have hx64 : (BitVec.ofNat 64 x).toNat = x := by
    rw [BitVec.toNat_ofNat]
    omega
  refine ⟨?_, by rw [hx64]; exact hd, ?_, hp, Calm.undenied hs _ _⟩
  · rw [canonicalAll, e, canonical_small x (by omega), canonical_small _ (by omega)]
    rfl
  · have v : va52 (BitVec.ofNat 64 x) = x := by
      rw [va52, hx64]
      omega
    rw [v, State.tlbHit, ht, ha]
    have h1 : decide (x < 0x10000) = true := by
      rw [decide_eq_true_eq]
      omega
    simp [h1]

theorem home_at (x : Nat) (hx : x < 0x10000) : entryHome locPage (va52 (BitVec.ofNat 64 x)) = 0x10000 + x := by
  have v : va52 (BitVec.ofNat 64 x) = x := by
    rw [va52, BitVec.toNat_ofNat]
    omega
  have h0 : pteAddr (0x1003F : Word) = 0x10000 := by decide
  have h1 : pteAttr (0x1003F : Word) = 0 := by decide
  simp only [entryHome, v, h0, h1, homeByte, Nat.mod_eq_of_lt hx]
  simp [attrPeer, attrCxl, attrFlash]

theorem plain_line (k : Nat) (hk : k < 32) (t : Strand) (m : List Host.Cell) : (pkg t plain32 m).lineState (512 + k) = some .plain := by
  show Cells.find plain32 (512 + k) = some .plain
  interval_cases k <;> decide

/-- Addresses below 0x1000 are served by their plain lines. -/
theorem served_at (t : Strand) (m : List Host.Cell) (c : Ctx) (x : Nat) (hx : x < 0x1000)
    (ht : (t.held.isNone && t.hold.isNone) = true := by rfl) :
    Served (pkg t plain32 m) c (BitVec.ofNat 64 x) locPage (0x10000 + x) := by
  have l : lineOf (0x10000 + x) = 512 + x / 128 := by
    rw [lineOf]
    omega
  refine served_loc ⟨rfl, rfl, rfl, rfl, by simpa using ht, rfl⟩ rfl (home_at x (by omega)).symm ?_ ?_ ?_
  · rw [l]
    exact plain_line _ (by omega) t m
  · have : (pkg t plain32 m).hbm.toList.any (fun k => k.band == 3) = false :=
      (by decide : State.reset.hbm.toList.any (fun k => k.band == 3) = false)
    simp only [State.offline, this, Bool.and_false, Bool.false_and]
  · have : homeAttr (128 * lineOf (0x10000 + x)) = 0 := by
      rw [l, homeAttr]
      omega
    simp [State.unreachable, this, attrPeer]

/-- The loads of `count` elements of `nb` bytes from `base` on. -/
theorem reads_at (t : Strand) (m : List Host.Cell) (count base nb : Nat) (act : Nat → Bool) (va : Nat → Word) (hq : t.id.asid = 1)
    (hv : ∀ n < count, va n = BitVec.ofNat 64 (base + n * nb)) (hnb : 1 ≤ nb) (hd : base % nb = 0) (hb : base + count * nb ≤ 0x1000)
    (hl : t.lbuf = []) (hc : count ≤ 256 * t.q) (ht : (t.held.isNone && t.hold.isNone) = true := by rfl) :
    Reads (pkg t plain32 m) t count act va nb (fun _ => locPage) (fun n => 0x10000 + (base + n * nb)) := by
  have hx : ∀ n < count, base + n * nb + nb ≤ 0x1000 := by
    intro n hn
    have : (n + 1) * nb ≤ count * nb := Nat.mul_le_mul_right _ hn
    rw [Nat.add_mul] at this
    omega
  have lt : ∀ n < count, (va n).toNat = base + n * nb := by
    intro n hn
    have := hx n hn
    rw [hv n hn, BitVec.toNat_ofNat]
    omega
  refine ⟨?_, ?_, ?_, ?_, .inl (by rw [hl]; simpa using hc)⟩
  · intro n hn _
    have := hx n hn
    rw [hv n hn]
    refine mapped_at _ _ _ _ _ hq (by omega) hnb ?_ rfl rfl
    rw [Nat.add_mul_mod_self_right]
    exact hd
  · intro n hn _
    have := hx n hn
    rw [hv n hn]
    exact served_at t m _ _ (by omega) ht
  · intro n hn _ _
    show (0x10000 + (base + n * nb)) % 128 = (va n).toNat % 128
    rw [lt n hn]
    omega
  · intro n hn k hk _ _ h
    have a := hx n hn
    have b := hx k hk
    rw [va52, va52, lt n hn, lt k hk] at h
    show (0x10000 + (base + n * nb)) / 128 = (0x10000 + (base + k * nb)) / 128
    generalize base + n * nb = X at *
    generalize base + k * nb = Y at *
    omega

/-- The stores of `count` elements of `nb` bytes from `base` on. -/
theorem writes_at (t : Strand) (m : List Host.Cell) (count base nb w : Nat) (act : Nat → Bool) (va : Nat → Word)
    (hq : t.id.asid = 1) (hv : ∀ n < count, va n = BitVec.ofNat 64 (base + n * nb)) (hnb : 1 ≤ nb) (hd : base % nb = 0)
    (hb : base + count * nb ≤ 0x1000) (ht : (t.held.isNone && t.hold.isNone) = true := by rfl) :
    Writes (pkg t plain32 m) t count act va nb w (fun _ => locPage) (fun n => 0x10000 + (base + n * nb)) := by
  have hx : ∀ n < count, base + n * nb + nb ≤ 0x1000 := by
    intro n hn
    have : (n + 1) * nb ≤ count * nb := Nat.mul_le_mul_right _ hn
    rw [Nat.add_mul] at this
    omega
  refine ⟨?_, ?_, ?_⟩
  · intro n hn _
    have := hx n hn
    rw [hv n hn]
    refine mapped_at _ _ _ _ _ hq (by omega) hnb ?_ rfl rfl
    rw [Nat.add_mul_mod_self_right]
    exact hd
  · intro n hn _
    have := hx n hn
    rw [hv n hn]
    exact served_at t m _ _ (by omega) ht
  · intro n hn k hk _ _ h
    rcases Nat.lt_or_gt_of_ne h with h | h
    · have : (n + 1) * nb ≤ k * nb := Nat.mul_le_mul_right _ h
      rw [Nat.add_mul] at this
      exact .inl (by omega)
    · have : (k + 1) * nb ≤ n * nb := Nat.mul_le_mul_right _ h
      rw [Nat.add_mul] at this
      exact .inr (.inl (by omega))

theorem byte_at (n : Nat) (h : n < 2 ^ 32) : (0x100 : Word) + BitVec.ofNat 64 n = BitVec.ofNat 64 (0x100 + n * 1) := by
  apply BitVec.eq_of_toNat_eq
  have h0 : (0x100 : Word).toNat = 0x100 := rfl
  rw [BitVec.toNat_add, BitVec.toNat_ofNat, BitVec.toNat_ofNat, h0]
  omega

theorem two_cases {n : Nat} (h : n < 2) : n = 0 ∨ n = 1 := by omega

theorem test_meets_VectorLoads :
    let i : Instr := .vld ⟨true, 20, 10, .f32, all⟩
    let j : Instr := .vlds ⟨true, 20, 10, 11, .raw, all⟩
    Meets i [0xFF8] ∧ Meets j [0x100, 4]
      ∧ Reads (pk (holding i [0xFF8])) (holding i [0xFF8]) 2 (admits kregs all) (unitVa (entry i [0xFF8])) 4 (fun _ => locPage)
        (fun n => 0x10000 + (0xFF8 + n * 4))
      ∧ Reads (pk (holding j [0x100, 4])) (holding j [0x100, 4]) 2 (admits kregs all) (strideVa (entry j [0x100, 4])) 4
        (fun _ => locPage) (fun n => 0x10000 + (0x100 + n * 4))
      ∧ groupOk 20 (groupSize 0x018 32) = true := by
  refine ⟨meets _ _ rfl, meets _ _ rfl, reads_at _ _ _ _ _ _ _ rfl ?_ (by decide) (by decide) (by decide) rfl ?_,
    reads_at _ _ _ _ _ _ _ rfl ?_ (by decide) (by decide) (by decide) rfl ?_, by decide⟩
  · intro n hn
    rcases two_cases hn with rfl | rfl <;> decide
  · show 2 ≤ 256 * (quartersOf 15).length
    decide
  · intro n hn
    rcases two_cases hn with rfl | rfl <;> decide
  · show 2 ≤ 256 * (quartersOf 15).length
    decide

/-- Indices (0, 1) in v16, shifted by 2. -/
theorem test_meets_IndexedAccesses :
    let v : Vector VecReg 64 := vregs.set 16 ⟨.n32, two 0 1⟩
    let i : Instr := .vldx ⟨true, 20, 10, 16, .f32, 2, all⟩
    let j : Instr := .vstxN ⟨true, 4, 10, 16, .raw, 2, all⟩
    let t (i : Instr) : Strand := { holding i [0x100] with v := v }
    Alone (pk (t i)) 0 (t i) (entry i [0x100]) ∧ SourceGroup (t i) 0x018 16 32 .n32 ∧ SourceGroup (t j) 0x018 4 32 .i32
      ∧ Clear 0x018 20 32 16 32
      ∧ Reads (pk (t i)) (t i) 2 (admits kregs all) (indexVa (t i) (entry i [0x100]) 16 .n32 2) 4 (fun _ => locPage)
        (fun n => 0x10000 + (0x100 + n * 4))
      ∧ Writes (pk (t j)) (t j) 2 (admits kregs all) (indexVa (t j) (entry j [0x100]) 16 .n32 2) 4 32 (fun _ => locPage)
        (fun n => 0x10000 + (0x100 + n * 4)) := by
  refine ⟨⟨rfl, rfl, rfl, rfl, rfl, rfl, rfl, rfl, rfl, rfl, rfl, rfl, rfl, rfl, rfl, rfl, rfl, rfl⟩, source _ _ _ _ _ 1 rfl rfl rfl (.inr rfl),
    source _ _ _ _ _ 1 rfl rfl rfl (.inr rfl), clear1 _ _ (by decide),
    reads_at _ _ _ _ _ _ _ rfl ?_ (by decide) (by decide) (by decide) rfl ?_,
    writes_at _ _ _ _ _ _ _ _ rfl ?_ (by decide) (by decide) (by decide)⟩
  · intro n hn
    rcases two_cases hn with rfl | rfl <;> decide +kernel
  · show 2 ≤ 256 * (quartersOf 15).length
    decide
  · intro n hn
    rcases two_cases hn with rfl | rfl <;> decide +kernel

/-- A group of addresses that are their own. -/
theorem test_meets_VectorForwarding :
    let i : Instr := .vfwdRes ⟨true, 20, 12, all⟩
    Meets i [] ∧ SourceGroup (holding i []) 0x018 12 64 .n64 ∧ Clear 0x018 20 64 12 64 ∧ groupOk 20 (groupSize 0x018 64) = true
      ∧ ∀ n < 2, Itself (pk (holding i [])) (holding i []).ctx (BitVec.ofNat 64 (elemGet vregs 4 12 64 n)) := by
  refine ⟨meets _ _ rfl, src12 _ _, clear _ _ _ _ (by decide), by decide, fun n hn => .inl ?_⟩
  rcases two_cases hn with rfl | rfl
  · exact ⟨by decide +kernel, Calm.undenied rfl _ _, locPage, by decide +kernel, rfl, rfl, by decide +kernel, open_home (by decide) (by decide +kernel), rfl⟩
  · exact ⟨by decide +kernel, Calm.undenied rfl _ _, locPage, by decide +kernel, rfl, rfl, by decide +kernel, open_home (by decide) (by decide +kernel), rfl⟩

theorem test_meets_VectorStores :
    let i : Instr := .vst ⟨true, 4, 10, .raw, all⟩
    let j : Instr := .vsts ⟨true, 4, 10, 11, .raw, ⟨1, false⟩⟩
    Meets i [0] ∧ Meets j [0x100, 4] ∧ SourceGroup (holding i [0]) 0x018 4 32 .i32
      ∧ Writes (pk (holding i [0])) (holding i [0]) 2 (admits kregs all) (unitVa (entry i [0])) 4 32 (fun _ => locPage)
        (fun n => 0x10000 + (0 + n * 4))
      ∧ Writes (pk (holding j [0x100, 4])) (holding j [0x100, 4]) 2 (admits kregs ⟨1, false⟩) (strideVa (entry j [0x100, 4])) 4 32
        (fun _ => locPage) (fun n => 0x10000 + (0x100 + n * 4)) := by
  refine ⟨meets _ _ rfl, meets _ _ rfl, src4 _ _, writes_at _ _ _ _ _ _ _ _ rfl ?_ (by decide) (by decide) (by decide),
    writes_at _ _ _ _ _ _ _ _ rfl ?_ (by decide) (by decide) (by decide)⟩
  · intro n hn
    rcases two_cases hn with rfl | rfl <;> decide
  · intro n hn
    rcases two_cases hn with rfl | rfl <;> decide

/-- A block of two present elements in exactly its room, one with a byte too little, and a block with none present. -/
theorem test_meets_CompressedBlocks :
    let i : Instr := .vstc ⟨true, 9, 4, 10, 11, true, all⟩
    let j : Instr := .vldc ⟨true, 20, 10, .raw, all⟩
    let m : List Host.Cell := [(0x10104, 2), (0x10106, 5)]
    let t := holding j [0x100]
    Meets i [0x100, 24] ∧ Meets i [0x100, 23] ∧ SourceGroup (holding i [0x100, 24]) 0x018 4 32 .i32
      ∧ 8 + 8 + ((keptElems (holding i [0x100, 24]) (entry i [0x100, 24]) ⟨true, 9, 4, 10, 11, true, all⟩ .i32).length * 32 + 7) / 8 = 24
      ∧ Writes (pk (holding i [0x100, 24])) (holding i [0x100, 24]) 24 (fun _ => true) (fun n => 0x100 + BitVec.ofNat 64 n) 1 8
        (fun _ => locPage) (fun n => 0x10000 + (0x100 + n * 1))
      ∧ Alone (pkg t plain32 m) 0 t (entry j [0x100])
      ∧ Reads (pkg t plain32 m) t 16 (fun _ => true) (fun n => 0x100 + BitVec.ofNat 64 n) 1 (fun _ => locPage)
        (fun n => 0x10000 + (0x100 + n * 1))
      ∧ bytesNum (fun n => loadedValue (pkg t plain32 m) t (0x100 + BitVec.ofNat 64 n) 1 locPage (0x10000 + (0x100 + n * 1))) 16
        = 2 ^ 32 * 2 + 2 ^ 48 * Tag.i32.code.toNat ∧ Tag.i32.width = some 32 := by
  refine ⟨meets _ _ rfl, meets _ _ rfl, src4 _ _, by decide +kernel, writes_at _ _ _ _ _ _ _ _ rfl ?_ (by decide) (by decide)
    (by decide), alone _ _ _ _ rfl, reads_at _ _ _ _ _ _ _ rfl ?_ (by decide) (by decide) (by decide) rfl ?_,
    by decide +kernel, rfl⟩
  · intro n hn
    exact byte_at n (by omega)
  · intro n hn
    exact byte_at n (by omega)
  · show 16 ≤ 256 * (quartersOf 15).length
    decide

/-! ## What the statements assume: lane stores, tiles, atomics, exchanges -/

/-- Indices (0, 4); the greatest index of `vlt.fill` that 1,024 bytes hold. -/
theorem test_meets_LaneTableResults :
    let i : Instr := .vltLd ⟨true, 20, 14, .f32, all⟩
    let j : Instr := .vltFill ⟨true, 4, 0, 9, all⟩
    Meets i [] ∧ Meets (.vltSt ⟨true, 4, 14, .raw, all⟩) [] ∧ Meets j [254]
      ∧ SourceGroup (holding i []) 0x018 14 32 .n32 ∧ SourceGroup (holding j [254]) 0x018 4 32 .i32
      ∧ (∀ n < 2, (elemGet vregs 4 14 32 n + 1) * 32 ≤ 2048 * 4) ∧ (∀ n < 2, (254 + n + 1) * 32 ≤ 2048 * 4)
      ∧ groupOk 20 (groupSize 0x018 32) = true ∧ Clear 0x018 20 32 14 32 := by
  refine ⟨meets _ _ rfl, meets _ _ rfl, meets _ _ rfl, src14 _ _, src4 _ _, ?_, ?_, by decide, clear1 _ _ (by decide)⟩
  · intro n hn
    rcases two_cases hn with rfl | rfl <;> decide +kernel
  · intro n hn
    omega

/-- A window of 64 bytes at lane-store byte 0x100; offsets 0 and 16. -/
theorem test_meets_WindowUpdates :
    let i : Instr := .vwaccAdd ⟨true, 14, 4, 2, none, all⟩
    let wd : Window := ⟨0x100, 64, 0x100, .i32⟩
    let t : Strand := { holding i [] with win := some wd }
    Alone (pk t) 0 t (entry i []) ∧ SourceGroup t 0x018 4 32 wd.ty ∧ SourceGroup t 0x018 14 32 .n32
      ∧ ∀ n < 2, let off := (indexWord .n32 32 (elemGet vregs 4 14 32 n) 2).toNat
        off < wd.size ∧ off % 4 = 0 ∧ 8 * (wd.off + off) + 32 ≤ 8192 := by
  refine ⟨⟨rfl, rfl, rfl, rfl, rfl, rfl, rfl, rfl, rfl, rfl, rfl, rfl, rfl, rfl, rfl, rfl, rfl, rfl⟩, source _ _ _ _ _ 1 rfl rfl rfl (.inr rfl),
    source _ _ _ _ _ 1 rfl rfl rfl (.inr rfl), fun n hn => ?_⟩
  rcases two_cases hn with rfl | rfl <;> decide +kernel

/-- The highest tile, the last row, one row of memory. -/
theorem test_meets_TileMoves :
    let i : Instr := .mrd ⟨true, 20, 7, 9, all⟩
    let j : Instr := .mwr ⟨true, 4, 7, 9, all⟩
    let k : Instr := .mld ⟨true, 7, 10, 11, 12, 13, .f32⟩
    let l : Instr := .mst ⟨true, 7, 10, 11, 12, 13, .raw⟩
    let ops : List Word := [0x100, 512, 127, 1]
    let va (n : Nat) : Word := 0x100 + BitVec.ofNat 64 (n / 128) * 512 + BitVec.ofNat 64 (n % 128 * 4)
    Meets (.mzero true 7 .trio) [] ∧ Meets (.mtag true 7 .bf16) [] ∧ Meets i [127] ∧ Meets j [127] ∧ Meets k ops ∧ Meets l ops
      ∧ (7 : TReg).toNat < 2 * (holding i [127]).q ∧ 127 + (2 + 127) / 128 ≤ 128
      ∧ tileBits ((holding i [127]).tile 7).tag = 32 ∧ ((holding i [127]).tile 7).tag = .raw
      ∧ SourceGroup (holding j [127]) 0x018 4 32 .i32
      ∧ Reads (pk (holding k ops)) (holding k ops) 128 (fun _ => true) va 4 (fun _ => locPage) (fun n => 0x10000 + (0x100 + n * 4))
      ∧ Writes (pk (holding l ops)) (holding l ops) 128 (fun _ => true) va 4 32 (fun _ => locPage)
        (fun n => 0x10000 + (0x100 + n * 4)) := by
  have h : ∀ n < 128, (0x100 : Word) + BitVec.ofNat 64 (n / 128) * 512 + BitVec.ofNat 64 (n % 128 * 4)
      = BitVec.ofNat 64 (0x100 + n * 4) := by
    intro n hn
    rw [Nat.div_eq_of_lt hn, Nat.mod_eq_of_lt hn]
    have := byte_at (n * 4) (by omega)
    rw [Nat.mul_one] at this
    rw [← this]
    rfl
  refine ⟨meets _ _ rfl, meets _ _ rfl, meets _ _ rfl, meets _ _ rfl, meets _ _ rfl, meets _ _ rfl, ?_, by decide, rfl, rfl,
    src4 _ _, reads_at _ _ _ _ _ _ _ rfl h (by decide) (by decide) (by decide) rfl ?_,
    writes_at _ _ _ _ _ _ _ _ rfl h (by decide) (by decide) (by decide)⟩
  · show 7 < 2 * (quartersOf 15).length
    decide
  · show 128 ≤ 256 * (quartersOf 15).length
    decide

/-- A TRIO tile, an I32 tile under a tile scale, an F32 tile under row scales. -/
theorem test_meets_TileConversions :
    let t (i : Instr) (ty : Tag) : Strand := { holding i [127] with m := Vector.replicate 8 ⟨ty, 0⟩ }
    let i : Instr := .mcvtI32Trio ⟨true, 6, 7, .none, false, none⟩
    let j : Instr := .mcvtF32I32 ⟨true, 6, 7, .tile 9, false, none⟩
    let k : Instr := .mcvtBf16F32 ⟨true, 7, 7, .row 8, true, none⟩
    Alone (pk (t i .trio)) 0 (t i .trio) (entry i [127]) ∧ ((t i .trio).tile 7).tag = .trio
      ∧ Alone (pk (t j .i32)) 0 (t j .i32) (entry j [127]) ∧ ((t j .i32).tile 7).tag = .i32
      ∧ Alone (pk (t k .f32)) 0 (t k .f32) (entry k [127]) ∧ ((t k .f32).tile 7).tag = .f32
      ∧ SourceGroup (t k .f32) 0x018 8 8 .e8m0 ∧ (7 : TReg).toNat < 2 * (holding k [127]).q := by
  refine ⟨⟨rfl, rfl, rfl, rfl, rfl, rfl, rfl, rfl, rfl, rfl, rfl, rfl, rfl, rfl, rfl, rfl, rfl, rfl⟩, rfl,
    ⟨rfl, rfl, rfl, rfl, rfl, rfl, rfl, rfl, rfl, rfl, rfl, rfl, rfl, rfl, rfl, rfl, rfl, rfl⟩, rfl,
    ⟨rfl, rfl, rfl, rfl, rfl, rfl, rfl, rfl, rfl, rfl, rfl, rfl, rfl, rfl, rfl, rfl, rfl, rfl⟩, rfl,
    source _ _ _ _ _ 1 rfl rfl rfl (.inr rfl), ?_⟩
  show 7 < 2 * (quartersOf 15).length
  decide

/-- An F32 product into the last tile; an E4M3 product with scales of blocks of 16 into two tiles. -/
theorem test_meets_OuterProducts :
    let i : Instr := .vopa ⟨true, 7, 6, 7, .f32, 0, all⟩
    let j : Instr := .vopaS ⟨true, 6, 4, 6, 8, 9, .e4m3, 1, all⟩
    let e : Entry := ⟨j, 0x1000, true, 2, 0x048, [], 0, [], false, none, false, none, 0, false, none, [], []⟩
    let t (i : Instr) (m : Vector VecReg 64) (e : Entry) : Strand :=
      { holding i [] with m := Vector.replicate 8 ⟨.f32, 0⟩, v := m, viq := [e] }
    let v8 : Vector VecReg 64 := Vector.ofFn fun r => if r.val < 8 then ⟨.e4m3, 0⟩ else ⟨.e8m0, 0⟩
    Alone (pk (t i vregs (entry i []))) 0 (t i vregs (entry i [])) (entry i [])
      ∧ Alone (pk (t j v8 e)) 0 (t j v8 e) e ∧ opaKind false .f32 = some (32, 1, false) ∧ opaKind true .e4m3 = some (8, 2, false)
      ∧ ewOf 0x018 = 32 ∧ ewOf 0x048 = 8 ∧ blkOf 0x048 = 16 ∧ vtypeOk 0x048 = true ∧ 2 ≤ vlmaxOf 4 0x048
      ∧ groupOk 6 (grpOf 0x018) = true ∧ (regAt vregs 6).tag = .f32 ∧ (regAt vregs 7).tag = .f32
      ∧ (∀ n, 4 ≤ n → n < 4 + grpOf 0x048 → (regAt v8 n).tag = .e4m3) ∧ (regAt v8 6).tag = .e4m3 ∧ (regAt v8 7).tag = .e4m3
      ∧ (regAt v8 8).tag = .e8m0 ∧ (regAt v8 9).tag = .e8m0 ∧ (regAt v8 10).tag = .e8m0
      ∧ 7 + 0 + 1 ≤ 2 * 4 ∧ 6 + 1 + 1 ≤ 2 * 4 := by
  refine ⟨⟨rfl, rfl, rfl, rfl, rfl, rfl, rfl, rfl, rfl, rfl, rfl, rfl, rfl, rfl, rfl, rfl, rfl, rfl⟩,
    ⟨rfl, rfl, rfl, rfl, rfl, rfl, rfl, rfl, rfl, rfl, rfl, rfl, rfl, rfl, rfl, rfl, rfl, rfl⟩, rfl, rfl, by decide, by decide, by decide, by decide,
    by decide, by decide, rfl, rfl, fun n h1 h2 => ?_, rfl, rfl, rfl, rfl, rfl, by decide, by decide⟩
  have h : grpOf 0x048 = 1 := by decide
  obtain rfl : n = 4 := by omega
  rfl

/-- A NaN, a signalling one and a finite element; infinities of one sign and of both, a NaN, and a product with NV. -/
theorem test_meets_OuterProductSums :
    let ps : List Exact := [⟨.inf true, 0⟩, ⟨.fin false 1 0, 0⟩]
    (fmtF32.unpack 0x7FC00000).isNan = true ∧ fmtF32.unpack 0x7F800001 = .nan true ∧ (∃ n m k, fmtF32.unpack 0x3F800000 = .fin n m k)
      ∧ (∃ p ∈ ps, p.v = .inf true) ∧ (∀ p ∈ ps, p.v.isNan = false ∧ p.v ≠ .inf (!true))
      ∧ (∃ p ∈ (⟨.inf false, 0⟩ :: ps : List Exact), p.v = .inf false) ∧ (∃ p ∈ ([⟨.nan false, 1⟩] : List Exact), p.v.isNan = true ∧ p.flags.getLsbD 0 = true) := by
  refine ⟨by decide, by decide, ⟨_, _, _, rfl⟩, ⟨_, List.mem_cons_self, rfl⟩, by decide, ⟨_, List.mem_cons_self, rfl⟩,
    ⟨_, List.mem_cons_self, rfl, rfl⟩⟩

/-- A strand that holds a `vamo.cas` with indices (0, 1) in v16, shifted by 2. -/
abbrev casStrand : Strand :=
  { holding (.vamoCas ⟨true, 5, 10, 4, 16, 2, .rlx, true, false, all⟩) [0x100] with v := vregs.set 16 ⟨.n32, two 0 1⟩ }

abbrev casEntry : Entry := entry (.vamoCas ⟨true, 5, 10, 4, 16, 2, .rlx, true, false, all⟩) [0x100]

theorem cas_addresses : indexVa casStrand casEntry 16 .n32 2 0 = 0x100 ∧ indexVa casStrand casEntry 16 .n32 2 1 = 0x104 := by
  refine ⟨?_, ?_⟩ <;> decide +kernel

/-- Integer words apart, whose old values are asked for; both elements are active. -/
theorem test_meets_VectorAtomicSends :
    Alone (pk casStrand) 0 casStrand casEntry ∧ (pk casStrand).memOk ∧ SourceGroup casStrand 0x018 4 32 .i32
      ∧ SourceGroup casStrand 0x018 5 32 .i32 ∧ SourceGroup casStrand 0x018 16 32 .n32 ∧ groupOk 5 (groupSize 0x018 32) = true
      ∧ Clear 0x018 5 32 4 32 ∧ Clear 0x018 5 32 16 32
      ∧ (∀ n < 2, let va := indexVa casStrand casEntry 16 .n32 2 n
        Mapped (pk casStrand) casStrand.ctx va 4 .both locPage
          ∧ Served (pk casStrand) casStrand.ctx va locPage (0x10000 + (0x100 + n * 4)))
      ∧ pteAttr locPage.pte ≠ attrHost ∧ Setting casStrand casEntry
      ∧ (List.range (min 256 casEntry.vl)).filter (admits casStrand.k all) ≠ [] := by
  refine ⟨⟨rfl, rfl, rfl, rfl, rfl, rfl, rfl, rfl, rfl, rfl, rfl, rfl, rfl, rfl, rfl, rfl, rfl, rfl⟩, ⟨rfl, rfl⟩,
    source _ _ _ _ _ 1 rfl rfl rfl (.inr rfl), source _ _ _ _ _ 1 rfl rfl rfl (.inr rfl),
    source _ _ _ _ _ 1 rfl rfl rfl (.inr rfl), by decide, clear1 _ _ (by decide), clear1 _ _ (by decide), fun n hn => ?_, by decide,
    ⟨rfl, by decide, by decide, by decide⟩, by decide⟩
  rcases two_cases hn with rfl | rfl
  · show Mapped _ _ (indexVa casStrand casEntry 16 .n32 2 0) _ _ _ ∧ Served _ _ (indexVa casStrand casEntry 16 .n32 2 0) _ _
    rw [cas_addresses.1]
    exact ⟨mapped_at _ _ 0x100 _ _ rfl (by decide) (by decide) (by decide) rfl rfl, served_at _ _ _ 0x100 (by decide)⟩
  · show Mapped _ _ (indexVa casStrand casEntry 16 .n32 2 1) _ _ _ ∧ Served _ _ (indexVa casStrand casEntry 16 .n32 2 1) _ _
    rw [cas_addresses.2]
    exact ⟨mapped_at _ _ 0x104 _ _ rfl (by decide) (by decide) (by decide) rfl rfl, served_at _ _ _ 0x104 (by decide)⟩

/-- The strand while the element 0 of its atomic is on its way, and once both have returned. -/
abbrev casAway (sent : List (Nat × Nat × Word)) (got : List (Nat × Word × BitVec 7)) : Strand :=
  { casStrand with
    viq := [{ casEntry with cap := some ⟨casStrand.v, casStrand.k⟩ }]
    vamo := some ⟨2, 2, none, 2, casStrand.before, sent, got, [], [(0, 0), (1, 0)], []⟩ }

/-- Its request at a plain line, before which nothing waits. -/
theorem test_meets_VectorAtomicAtHome :
    let r : Request := { req with kind := .amo .cas, n := 4, vec := true }
    let t := casAway [(0, 7, 0)] [(1, 5, 0)]
    let s : State := { pk t with requests := [r] }
    s.memOk ∧ s.requests.find? (fun x => x.rid == r.rid) = some r ∧ s.requestReady r = true ∧ r.again = false
      ∧ s.soft.contains (lineOf r.home) = false ∧ s.heldBefore (lineOf r.home) (s.tick + 1) = false
      ∧ homeAttr r.home ≠ attrSlab ∧ s.offline (lineOf r.home) = false ∧ s.unreachable (lineOf r.home) = false
      ∧ s.lineState (lineOf r.home) = some .plain ∧ s.strands = [t] ∧ (t.vamo.map VecAmo.sent) = some [(0, r.rid, 0)] := by
  exact ⟨⟨rfl, rfl⟩, rfl, by decide, rfl, rfl, rfl, by decide, rfl, rfl, rfl, rfl, rfl⟩

/-- Both elements have returned. -/
theorem test_meets_VectorAtomicReturns :
    let t := casAway [] [(0, 3, 0), (1, 5, 0)]
    (pk t).strand 0 = some t ∧ (pk t).waitsService (.queue 0) = false ∧ Setting t { casEntry with cap := some ⟨casStrand.v, casStrand.k⟩ }
      ∧ (∀ n < 2, (((t.vamo.map VecAmo.got).getD []).find? fun g => g.1 == n) = some (n, if n = 0 then 3 else 5, 0)) := by
  refine ⟨rfl, rfl, ⟨rfl, by decide, by decide, by decide⟩, fun n hn => ?_⟩
  rcases two_cases hn with rfl | rfl <;> rfl

/-- `tid` 0 of two strands: a peer, the strand itself, one beyond the gang. -/
theorem test_meets_ExchangeOffers :
    let i : Instr := .vxch ⟨true, 9, 20, 4, 10, 11, all⟩
    Meets i [1, 7] ∧ Meets i [0, 7] ∧ Meets i [2, 7] ∧ SourceGroup (holding i [1, 7]) 0x018 4 32 .i32
      ∧ groupOk 20 (groupSize 0x018 32) = true ∧ Clear 0x018 20 32 4 32 ∧ 1 < id0.gsz ∧ 1 ≠ id0.tid ∧ id0.gsz ≤ 2 := by
  exact ⟨meets _ _ rfl, meets _ _ rfl, meets _ _ rfl, src4 _ _, by decide, clear1 _ _ (by decide), by decide, by decide,
    by decide⟩

/-- A convoy that fails its checks, one with `vl` = 0, one whose second element lies on an address that is not canonical. -/
theorem test_meets_ConvoyStops :
    let i : Instr := .vadd ⟨true, 5, 6, 6, .raw, false, none, all⟩
    let j : Instr := .vld ⟨true, 20, 10, .f32, all⟩
    let k : Instr := .vst ⟨true, 4, 10, .raw, all⟩
    let e0 : Entry := { entry j [0x100] with vl := 0 }
    let hi : Word := 0x0007FFFFFFFFFFFC
    let top : TlbEntry := ⟨1, 2 ^ 51 - 0x10000, 0x10000, 0x1003F⟩
    let s (i : Instr) : State :=
      { pkg (holding i [hi]) ((List.range 512).map fun n => (512 + n, .plain)) [] with tlb := [top] }
    Meets i [] ∧ prepare i ((entry i []).px (holding i []) (pk (holding i [])) ⟨vregs, kregs⟩ 2 true none false) = .fail .tag
      ∧ SourceGroup (holding i []) 0x018 6 32 .f32 ∧ Tag.f32.isInt = false
      ∧ groupOk 64 (groupSize 0x018 32) = false
      ∧ Alone (pk { holding j [0x100] with viq := [e0] }) 0 { holding j [0x100] with viq := [e0] } e0
      ∧ (∃ u m, prepare j (e0.px { holding j [0x100] with viq := [e0] } (pk (holding j [0x100])) ⟨vregs, kregs⟩ 0 true none false) = .ok u m)
      ∧ Alone (s j) 0 (holding j [hi]) (entry j [hi]) ∧ Alone (s k) 0 (holding k [hi]) (entry k [hi]) ∧ (s k).memOk
      ∧ canonicalAll (unitVa (entry j [hi]) 1) 4 = false ∧ admits kregs all 1 = true
      ∧ Reads (s j) (holding j [hi]) 1 (admits kregs all) (unitVa (entry j [hi])) 4 (fun _ => top) (fun _ => 0x1FFFC)
      ∧ Writes (s k) (holding k [hi]) 1 (admits kregs all) (unitVa (entry k [hi])) 4 32 (fun _ => top) (fun _ => 0x1FFFC)
      ∧ SourceGroup (holding k [hi]) 0x018 4 32 .i32 := by
  refine ⟨meets _ _ rfl, by rfl, src6 _ _, rfl, by decide, ⟨rfl, rfl, rfl, rfl, rfl, rfl, rfl, rfl, rfl, rfl, rfl, rfl, rfl, rfl, rfl, rfl, rfl, rfl⟩,
    ⟨_, _, rfl⟩, ⟨rfl, rfl, rfl, rfl, rfl, rfl, rfl, rfl, rfl, rfl, rfl, rfl, rfl, rfl, rfl, rfl, rfl, rfl⟩,
    ⟨rfl, rfl, rfl, rfl, rfl, rfl, rfl, rfl, rfl, rfl, rfl, rfl, rfl, rfl, rfl, rfl, rfl, rfl⟩, ⟨rfl, by decide +kernel⟩, by decide +kernel, rfl,
    ⟨?_, ?_, ?_, ?_, .inr fun n _ _ b hb => absurd hb List.not_mem_nil⟩, ⟨?_, ?_, ?_⟩, src4 _ _⟩
  · intro n hn _
    obtain rfl : n = 0 := by omega
    exact ⟨by decide +kernel, by decide +kernel, by decide +kernel, rfl, Calm.undenied rfl _ _⟩
  · intro n hn _
    obtain rfl : n = 0 := by omega
    refine ⟨⟨rfl, Calm.turn ⟨rfl, rfl, rfl, rfl, rfl, rfl⟩ _ _⟩, ?_⟩
    rw [if_neg (by decide)]
    exact ⟨by decide +kernel, .inr ⟨rfl, by decide +kernel, by rfl, by rfl⟩⟩
  · intro n hn _ _
    obtain rfl : n = 0 := by omega
    decide +kernel
  · intro n hn k hk _ _ _
    rfl
  · intro n hn _
    obtain rfl : n = 0 := by omega
    exact ⟨by decide +kernel, by decide +kernel, by decide +kernel, rfl, Calm.undenied rfl _ _⟩
  · intro n hn _
    obtain rfl : n = 0 := by omega
    refine ⟨⟨rfl, Calm.turn ⟨rfl, rfl, rfl, rfl, rfl, rfl⟩ _ _⟩, ?_⟩
    rw [if_neg (by decide)]
    exact ⟨by decide +kernel, .inr ⟨rfl, by decide +kernel, by rfl, by rfl⟩⟩
  · intro n hn k hk _ _ h
    omega

/-- Two members of one convoy, the second joined to the first, under EW 32, GRP 1 and `vl` = 2. -/
abbrev pair (i j : Instr) (ops : List Word) : List Entry := [entry i [], { entry j ops with cs := false }]

abbrev holdingPair (i j : Instr) (ops : List Word) : Strand := { holding i [] with viq := pair i j ops }

theorem together (i j : Instr) (ops : List Word) (s : State) (hs : s.strand 0 = some (holdingPair i j ops))
    (hv : s.waitsService (.queue 0) = false) (hi : (uses 0x018 i).isSome = true) (hj : (uses 0x018 j).isSome = true) :
    Together s 0 (holdingPair i j ops) (pair i j ops) 0x018 2 := by
  refine ⟨hs, rfl, fun e he => ?_, rfl, rfl, rfl, rfl, fun e he => ?_, rfl, rfl, rfl, hv⟩
  · rw [List.mem_singleton.1 he]
  · simp only [List.mem_cons, List.not_mem_nil, or_false] at he
    rcases he with rfl | rfl
    · exact ⟨hi, rfl, rfl, rfl, rfl, rfl, rfl, rfl, rfl, rfl⟩
    · exact ⟨hj, rfl, rfl, rfl, rfl, rfl, rfl, rfl, rfl, rfl⟩

/-- For ConvoyInOrder, ConvoyTrimmed and ConvoyStopped: a sum, and a difference that reads it and replaces a source; a load and a store behind a sum, whose second element lies on an address
that is not canonical. -/
theorem test_meets_Convoys :
    let a : Vv := ⟨true, 4, 4, 5, .i32, false, none, all⟩
    let b : Vv := ⟨true, 5, 4, 5, .raw, false, none, ⟨1, false⟩⟩
    let ld : Vmem := ⟨true, 4, 10, .i32, all⟩
    let st : Vmem := ⟨true, 4, 10, .raw, all⟩
    let hi : Word := 0x0007FFFFFFFFFFFC
    let top : TlbEntry := ⟨1, 2 ^ 51 - 0x10000, 0x10000, 0x1003F⟩
    let s (j : Instr) : State :=
      { pkg (holdingPair (.vadd a) j [hi]) ((List.range 512).map fun n => (512 + n, .plain)) [] with tlb := [top] }
    let t (j : Instr) : Strand := holdingPair (.vadd a) j [hi]
    let e (j : Instr) : Entry := { entry j [hi] with cs := false }
    (∀ j ∈ [Instr.vsub b, .vld ld, .vst st], Together (s j) 0 (t j) (pair (.vadd a) j [hi]) 0x018 2
      ∧ Setting (t j) (entry (.vadd a) []) ∧ integerMember (t j) 0x018 .i32 a)
      ∧ integerMember (t (.vsub b)) 0x018 .i32 b ∧ SourceGroup (t (.vst st)) 0x018 4 32 .i32 ∧ (s (.vst st)).memOk
      ∧ groupOk 4 (groupSize 0x018 32) = true ∧ admits kregs all 1 = true ∧ canonicalAll (unitVa (e (.vld ld)) 1) 4 = false
      ∧ Reads (s (.vld ld)) (t (.vld ld)) 1 (admits kregs all) (unitVa (e (.vld ld))) 4 (fun _ => top) (fun _ => 0x1FFFC)
      ∧ Writes (s (.vst st)) (t (.vst st)) 1 (admits kregs all) (unitVa (e (.vst st))) 4 32 (fun _ => top) (fun _ => 0x1FFFC) := by
  have m (j : Instr) (v : Vv) (hv : v.ty = .raw ∨ v.ty = .i32) (h : v.vd = 4 ∨ v.vd = 5) (ha : v.va = 4) (hb : v.vb = 5) :
      integerMember (holdingPair (.vadd ⟨true, 4, 4, 5, .i32, false, none, all⟩) j [0x0007FFFFFFFFFFFC]) 0x018 .i32 v := by
    refine ⟨hv, fun r hr => ?_⟩
    simp only [List.mem_cons, List.not_mem_nil, or_false] at hr
    have : r = 4 ∨ r = 5 := by
      rcases hr with rfl | rfl | rfl
      · exact h
      · exact .inl ha
      · exact .inr hb
    rcases this with rfl | rfl <;> exact source _ _ _ _ _ 1 rfl rfl rfl (.inr rfl)
  refine ⟨fun j hj => ?_, m _ _ (.inl rfl) (.inr rfl) rfl rfl, source _ _ _ _ _ 1 rfl rfl rfl (.inr rfl), ⟨rfl, by decide +kernel⟩,
    by decide, rfl, by decide +kernel, ⟨?_, ?_, ?_, ?_, .inr fun n _ _ b hb => absurd hb List.not_mem_nil⟩, ⟨?_, ?_, ?_⟩⟩
  · simp only [List.mem_cons, List.not_mem_nil, or_false] at hj
    rcases hj with rfl | rfl | rfl <;>
      exact ⟨together _ _ _ _ rfl rfl rfl rfl, ⟨rfl, by decide, by decide, by decide⟩, m _ _ (.inr rfl) (.inl rfl) rfl rfl⟩
  · intro n hn _
    obtain rfl : n = 0 := by omega
    exact ⟨by decide +kernel, by decide +kernel, by decide +kernel, rfl, Calm.undenied rfl _ _⟩
  · intro n hn _
    obtain rfl : n = 0 := by omega
    refine ⟨⟨rfl, Calm.turn ⟨rfl, rfl, rfl, rfl, rfl, rfl⟩ _ _⟩, ?_⟩
    rw [if_neg (by decide)]
    exact ⟨by decide +kernel, .inr ⟨rfl, by decide +kernel, by rfl, by rfl⟩⟩
  · intro n hn _ _
    obtain rfl : n = 0 := by omega
    decide +kernel
  · intro n hn k hk _ _ _
    rfl
  · intro n hn _
    obtain rfl : n = 0 := by omega
    exact ⟨by decide +kernel, by decide +kernel, by decide +kernel, rfl, Calm.undenied rfl _ _⟩
  · intro n hn _
    obtain rfl : n = 0 := by omega
    refine ⟨⟨rfl, Calm.turn ⟨rfl, rfl, rfl, rfl, rfl, rfl⟩ _ _⟩, ?_⟩
    rw [if_neg (by decide)]
    exact ⟨by decide +kernel, .inr ⟨rfl, by decide +kernel, by rfl, by rfl⟩⟩
  · intro n hn k hk _ _ h
    omega

theorem test_meets_QueueEvents :
    let e : Entry := { entry (.kpop true 9 1 all) [] with done := true, result := some (9, 1) }
    let t : Strand := { holding .nop [] with viq := [e] }
    (pk t).strand 0 = some t ∧ e.done = true ∧ t.vfault = none
      ∧ (pk { t with vfault := some ⟨0, ⟨.tag, 0, 0, 0, false, 0⟩, 0, none⟩ }).strand 0
        = some { t with vfault := some ⟨0, ⟨.tag, 0, 0, 0, false, 0⟩, 0, none⟩ } ∧ t.acc = none
      ∧ (pk { t with rq := [(9, 1)] }).strand 0 = some { t with rq := [(9, 1)] } := ⟨rfl, rfl, rfl, rfl, rfl, rfl⟩

/-! ## What the statements assume: dispatch into the queue -/

/-- A head that starts a convoy; one that joins an open convoy; a second of a class that takes one, which may not. -/
theorem test_meets_ChainedDispatch :
    let i (c : Bool) : Instr := .vadd ⟨c, 20, 4, 5, .raw, false, none, all⟩
    let open_ (e : Instr) : Strand := { holding e [] with copen := true, fresh := false }
    (∃ u, uses 0x018 (i true) = some u ∧ u.c = true ∧ (strandOf []).mustWait (u.scalars (i true)) = false)
      ∧ (∃ u, uses 0x018 (.vaddX ⟨true, 20, 4, 9, .raw, false, none, all⟩) = some u
        ∧ { strandOf [] with tokp := 512 }.mustWait (u.scalars (.vaddX ⟨true, 20, 4, 9, .raw, false, none, all⟩)) = true)
      ∧ (∃ u, uses 0x018 (i false) = some u ∧ u.c = false ∧ (open_ (i true)).fresh = false
        ∧ joinCause (open_ (.vld ⟨true, 4, 10, .i32, all⟩)).viq (i false) u = none
        ∧ (open_ (i true)).resultsFull (i false) = false ∧ (open_ (i true)).viq.length < Config.viqEntries)
      ∧ (∃ u, uses 0x018 (.vldc ⟨false, 20, 10, .raw, all⟩) = some u ∧ u.c = false
        ∧ joinCause (open_ (i true)).viq (.vldc ⟨false, 20, 10, .raw, all⟩) u = some .illConvoy)
      ∧ (open_ (i true)).viq ≠ [] := by
  refine ⟨⟨_, rfl, rfl, rfl⟩, ⟨_, rfl, rfl⟩, ⟨_, rfl, rfl, rfl, ?_, rfl, by decide⟩, ⟨_, rfl, rfl, ?_⟩, by decide⟩ <;> decide +kernel

/-- A full VIQ, whose entries leave room in every class. -/
theorem test_meets_ChainedDispatch_full :
    let i : Instr := .vadd ⟨false, 20, 4, 5, .raw, false, none, all⟩
    let viq := List.replicate 64 (entry .nop [])
    viq.length ≥ Config.viqEntries ∧ ∃ u, uses 0x018 i = some u ∧ joinCause viq i u = none
      ∧ { strandOf [] with viq := viq }.mustWait (u.scalars i) = false := by
  refine ⟨by decide, _, rfl, ?_, rfl⟩
  decide +kernel

/-! ## What the statements assume: instructions alone in their convoy -/

/-- A state whose pages, lines and stacks are those of the small package. -/
structure Plain (s : State) : Prop where
  tlb : s.tlb = [locPage, hostPage, flashPage]
  lines : s.lines = plain32
  soft : s.soft = []
  hbm : s.hbm = State.reset.hbm
  calm : Calm s

theorem Plain.line {s : State} (p : Plain s) (k : Nat) (hk : k < 32) : s.lineState (512 + k) = some .plain := by
  rw [State.lineState, p.lines]
  interval_cases k <;> decide

theorem Plain.online {s : State} (p : Plain s) (l : Nat) : s.offline l = false := by
  have : s.hbm.toList.any (fun k => k.band == 3) = false := by
    rw [p.hbm]
    decide
  simp only [State.offline, this, Bool.and_false, Bool.false_and]

theorem Plain.served {s : State} (p : Plain s) (c : Ctx) (x : Nat) (hx : x < 0x1000) :
    Served s c (BitVec.ofNat 64 x) locPage (0x10000 + x) := by
  have l : lineOf (0x10000 + x) = 512 + x / 128 := by
    rw [lineOf]
    omega
  refine served_loc p.calm p.soft (home_at x (by omega)).symm ?_ (p.online _) ?_
  · rw [l]
    exact p.line _ (by omega)
  · have : homeAttr (128 * lineOf (0x10000 + x)) = 0 := by
      rw [l, homeAttr]
      omega
    simp [State.unreachable, this, attrPeer]

theorem Plain.mapped {s : State} (p : Plain s) (c : Ctx) (x n : Nat) (need : Need) (ha : c.asid = 1) (hx : x + n ≤ 0x10000)
    (hn : 1 ≤ n) (hd : x % n = 0) (hp : ptePermits 0x1003F need = true) : Mapped s c (BitVec.ofNat 64 x) n need locPage :=
  mapped_at s c x n need ha hx hn hd hp p.tlb p.calm.svcs

theorem Plain.outside {s : State} (p : Plain s) (x n : Nat) (need : Need) (hx : x + n ≤ 0x1000) (hn : 1 ≤ n) (hd : x % n = 0)
    (hp : ptePermits 0x1003F need = true) : OutsideAt s 1 (BitVec.ofNat 64 x) n need (0x10000 + x) :=
  ⟨locPage, p.mapped _ x n need rfl (by omega) hn hd hp, p.served _ x (by omega)⟩

theorem Plain.line_at {s : State} (p : Plain s) (c : CopyOp) (x : Nat) (need : Need) (ha : c.asid = 1) (hx : x + 128 ≤ 0x1000)
    (hd : x % 128 = 0) (hp : ptePermits 0x1003F need = true) : LineAt s c (BitVec.ofNat 64 x) need (0x10000 + x) :=
  ⟨by omega, locPage, p.mapped _ x 128 need ha (by omega) (by decide) hd hp, p.served _ x (by omega), by decide⟩

/-- Bytes read from outside: those of memory. -/
theorem Plain.bytes {s : State} (p : Plain s) (x : Nat) (bs : List Byte) (hx : x + bs.length ≤ 0x1000)
    (h : ∀ i < bs.length, Memory.get s.mem (0x10000 + (x + i)) = bs.getD i 0) : OutsideBytes s 1 (BitVec.ofNat 64 x) bs := by
  intro i b hb
  have hi : i < bs.length := (List.getElem?_eq_some_iff.mp hb).1
  have e : BitVec.ofNat 64 x + BitVec.ofNat 64 i = BitVec.ofNat 64 (x + i) := by
    apply BitVec.eq_of_toNat_eq
    simp only [BitVec.toNat_add, BitVec.toNat_ofNat]
    omega
  refine ⟨0x10000 + (x + i), ?_, ?_⟩
  · rw [e]
    exact p.outside _ 1 .read (by omega) (by decide) (Nat.mod_one _) (by decide)
  · rw [h i hi, List.getD, hb]
    rfl

/-- A sync word on a plain line of such a state. -/
theorem Plain.sync {s : State} (p : Plain s) (c : Ctx) (x : Nat) (need : Need) (ha : c.asid = 1) (hx : x + 8 ≤ 0x1000)
    (hd : x % 8 = 0) (hp : ptePermits 0x1003F need = true) : SyncAt s c (BitVec.ofNat 64 x) need (0x10000 + x) :=
  ⟨locPage, p.mapped _ x 8 need ha (by omega) (by decide) hd hp, p.served _ x (by omega), by decide⟩

/-- A sync word on a plain line. -/
theorem sync_at (t : Strand) (m : List Host.Cell) (c : Ctx) (x : Nat) (need : Need) (ha : c.asid = 1) (hx : x + 8 ≤ 0x1000)
    (hd : x % 8 = 0) (hp : ptePermits 0x1003F need = true) (ht : (t.held.isNone && t.hold.isNone) = true := by rfl) :
    SyncAt (pkg t plain32 m) c (BitVec.ofNat 64 x) need (0x10000 + x) :=
  ⟨locPage, mapped_at _ _ _ _ _ ha (by omega) (by decide) hd hp rfl, served_at _ _ _ _ (by omega) ht, by decide⟩

/-- Instructions that stand alone behind an entry, behind a pending token, and a copy behind 32 copies. -/
theorem test_meets_SoloDispatchWaits :
    let c : CopyOp := ⟨0, some 0, 1, 0, ⟨0, 9, 0, 0, 0, 1, 0, 0, 0, 0⟩, none, false, none⟩
    soloRegs (.acq 9 10 11) = some ([10, 11], [9]) ∧ (holding .nop []).viq ≠ []
      ∧ { strandOf [] with tokp := 512 }.mustWait [10, 11, 9] = true
      ∧ soloRegs (.cpy ⟨9, 10, 11, 12⟩) = some ([10, 11, 12], [9])
      ∧ 32 ≤ (({ pk (strandOf []) with copies := List.replicate 32 c } : State).copiesOf 0).length
      ∧ 32 ≤ ({ pk (strandOf []) with copies := List.replicate 32 c } : State).unfinished (strandOf [])
      ∧ (pk (holding (.acq 9 10 11) [0x40, 5])).strand 0 = some (holding (.acq 9 10 11) [0x40, 5])
      ∧ (pk (holding (.acq 9 10 11) [0x40, 5])).soloReady (holding (.acq 9 10 11) [0x40, 5]) = true := by
  refine ⟨rfl, by decide, rfl, rfl, by decide, by decide, rfl, rfl⟩

/-- An object of value 5 at address 0x40: reached by a target of 5, not by 6; waits that may end. -/
theorem test_meets_SyncObjectResults :
    let m : List Host.Cell := [(0x10040, 5)]
    let t : Strand := strandOf [(10, 0x40), (11, 6)]
    let w : Strand := { holding (.acq 9 10 11) [0x40, 5] with wait := .object 0x40 5 }
    let r : Strand := holding (.rel 9 10) [0x40]
    Ready (pkg t plain32 m) t [10, 11, 9] ∧ SyncAt (pkg t plain32 m) t.ctx (t.getS 10) .read 0x10040
      ∧ (wordAt (pkg t plain32 m) 0x10040 - 5).toNat < 2 ^ 63 ∧ 2 ^ 63 ≤ (wordAt (pkg t plain32 m) 0x10040 - t.getS 11).toNat
      ∧ (pkg w plain32 m).strand 0 = some w ∧ (pkg w plain32 m).frontReady w = true
      ∧ SyncAt (pkg w plain32 m) w.ctx 0x40 .read 0x10040
      ∧ (pkg r plain32 m).frontReady r = true ∧ r.viq = [entry (.rel 9 10) [0x40]] ∧ (pkg r plain32 m).memOk
      ∧ SyncAt (pkg r plain32 m) r.ctx 0x40 .both 0x10040
      ∧ (pkg r plain32 m).relReady r = true ∧ (pkg r plain32 m).issues (dieOf r.id.pclus) = true := by
  refine ⟨⟨rfl, rfl⟩, sync_at _ _ _ 0x40 _ rfl (by decide) (by decide) rfl, by decide +kernel, by decide +kernel, rfl, rfl,
    sync_at _ _ _ 0x40 _ rfl (by decide) (by decide) rfl, rfl, rfl, ⟨rfl, rfl⟩,
    sync_at _ _ _ 0x40 _ rfl (by decide) (by decide) rfl, rfl, by decide +kernel⟩

/-- A region of one line beside a bound one; the first binding of a base behind one of another base. -/
theorem test_meets_Bindings :
    let b : Binding := ⟨0x100, 0x80, 0x40, .g⟩
    let s : State := { pk (strandOf [(9, 0x48), (10, 0x180), (11, 0x80)]) with gangs := [{ gang1 with bindings := [b, ⟨0x300, 0x80, 0x40, .d⟩] }] }
    let t : Strand := strandOf [(9, 0x48), (10, 0x180), (11, 0x80)]
    Mapped s t.ctx (t.getS 9) 8 .read locPage ∧ s.bindingsOf t = [b, ⟨0x300, 0x80, 0x40, .d⟩]
      ∧ (t.getS 10).toNat % 128 = 0 ∧ (t.getS 11).toNat % 128 = 0 ∧ t.getS 11 ≠ 0
      ∧ (∀ x ∈ s.bindingsOf t, x.base.toNat + x.len.toNat ≤ 0x180 ∨ 0x180 + 0x80 ≤ x.base.toNat)
      ∧ (s.bindingsOf t).length < Config.maxBindings ∧ (∀ x ∈ [b], x.base ≠ 0x300) := by
  refine ⟨mapped_at _ _ 0x48 _ _ rfl (by decide) (by decide) (by decide) rfl rfl, rfl, by decide, by decide, by decide, ?_, by decide,
    by decide⟩
  have h : ({ pk (strandOf [(9, 0x48), (10, 0x180), (11, 0x80)]) with gangs := [{ gang1 with bindings := [⟨0x100, 0x80, 0x40, .g⟩,
    ⟨0x300, 0x80, 0x40, .d⟩] }] } : State).bindingsOf (strandOf [(9, 0x48), (10, 0x180), (11, 0x80)])
      = [⟨0x100, 0x80, 0x40, .g⟩, ⟨0x300, 0x80, 0x40, .d⟩] := rfl
  show ∀ x ∈ State.bindingsOf _ _, _
  rw [h]
  decide

theorem test_meets_FenceResults :
    let t : Strand := { holding .fenceS [] with wait := .fence }
    (pk t).strand 0 = some t ∧ (pk t).frontReady t = true ∧ t.viq = [entry .fenceS []] ∧ (entry .fenceS []).i ∈ [Instr.fenceG, .fenceD, .fenceS] := by
  refine ⟨rfl, rfl, rfl, by simp⟩

/-- A gang without a barrier that may have one, one that may have none, one with a barrier of 2 at address 0x40. -/
theorem test_meets_BarrierInstructions :
    let bars (n : Nat) : Card := ⟨0, 1, 9, BitVec.ofNat 1024 (n * 2 ^ 963), [], [], [], 1, 0, [], [], 0⟩
    let b : Barrier := ⟨3, 0x10040, 0x40, 1, 0, 2, 2, 7, [], 0, []⟩
    let t : Strand := strandOf [(9, 0x40)]
    let s (c : Card) (bs : List Barrier) : State := { pk t with cards := [c], barriers := bs }
    (∀ need ∈ [Need.both, .read], SyncAt (s (bars 4) []) t.ctx (t.getS 9) need 0x10040) ∧ (s (bars 4) []).barrierOf 0x10040 = none
      ∧ ((s (bars 4) []).barriers.filter fun x => x.handle == t.id.handle).length < (s (bars 4) []).barsOf t.id.handle
      ∧ (s (bars 0) []).barsOf t.id.handle ≤ ((s (bars 0) []).barriers.filter fun x => x.handle == t.id.handle).length
      ∧ (s (bars 4) [b]).barrierOf 0x10040 = some b ∧ (s (bars 4) [b]).arrivalAhead t b = false ∧ b.handle = t.id.handle := by
  have p : Plain { pk (strandOf [(9, 0x40)]) with cards := [⟨0, 1, 9, BitVec.ofNat 1024 (4 * 2 ^ 963), [], [], [], 1, 0, [], [], 0⟩] } :=
    ⟨rfl, rfl, rfl, rfl, ⟨rfl, rfl, rfl, rfl, rfl, rfl⟩⟩
  refine ⟨fun need hn => ?_, rfl, by decide +kernel, by decide +kernel, rfl, rfl, rfl⟩
  simp only [List.mem_cons, List.not_mem_nil, or_false] at hn
  rcases hn with rfl | rfl
  · exact p.sync _ 0x40 .both rfl (by decide) (by decide) rfl
  · exact p.sync _ 0x40 .read rfl (by decide) (by decide) rfl

/-- Two arrivals that complete a phase of two, one of them a drop of a barrier of three. -/
theorem test_meets_BarrierPhases :
    let b : Barrier := ⟨3, 0x10040, 0x40, 1, 0, 3, 3, 7, [(1, 2)], 0, []⟩
    let a : List Arrival := [⟨3, (1, 0), .arr⟩, ⟨3, (1, 1), .drop⟩]
    let s : State := { pk (strandOf []) with barriers := [b], arrivals := a }
    s.memOk ∧ (∀ g, s.gang b.handle = some g → g.state = .running) ∧ 1 ≤ b.expected ∧ (a.map Arrival.who).Nodup
      ∧ (∀ x ∈ a, x.who ∉ b.arrived) ∧ (b.arrived ++ a.map Arrival.who).length = b.expected
      ∧ b.drops + (a.countP fun x => x.kind == .drop) < b.expected
      ∧ s.lineState (lineOf (s.barrierHome b)) = some .plain ∧ s.offline (lineOf (s.barrierHome b)) = false
      ∧ ({ s with lines := [(lineOf 0x10040, .inMove)] } : State).lineState (lineOf 0x10040) = some .inMove := by
  refine ⟨⟨rfl, rfl⟩, fun g hg => ?_, by decide, by decide, by decide, by decide, by decide, by decide +kernel, by decide +kernel, rfl⟩
  obtain rfl : gang1 = g := Option.some.inj hg
  rfl

/-- Words watched at addresses 0x80 and 0x88 with targets 0 and 1: the first is met, the second is not. -/
theorem test_meets_VectorWaitResults :
    let a : Vwait := ⟨9, 2, 12, 10, 11, all⟩
    let t : Strand := { strandOf [(11, 5)] with vl := 2, v := vregs, k := kregs }
    let ws : List (Nat × Word × Word) := [(0, 0x80, 0), (1, 0x88, 1)]
    let w : Strand := { holding (.vwait a) [5] with wait := .flags ws 0 }
    Ready (pk t) t [11, 9] ∧ SourceGroup t 0x018 12 64 .n64 ∧ SourceGroup t 0x018 10 64 .i64 ∧ watched t a = ws
      ∧ (∀ x ∈ ws, SyncAt (pk t) t.ctx x.2.1 .read (0x10000 + x.2.1.toNat)) ∧ 2 ≤ vlmaxOf t.q t.vtype
      ∧ (ws.filter fun x => 2 ^ 63 ≤ (wordAt (pk t) (0x10000 + x.2.1.toNat) - x.2.2).toNat).map Prod.fst = [1] ∧ t.getS 11 ≠ 0
      ∧ (pk w).strand 0 = some w ∧ (pk w).frontReady w = true ∧ w.viq = [entry (.vwait a) [5]] ∧ (ws.map Prod.fst).Nodup
      ∧ watched { t with vl := 1, v := vregs.set 12 ⟨.n64, 0x0008000000000000⟩ } a = [(0, 0x0008000000000000, 0)]
      ∧ canonicalAll 0x0008000000000000 8 = false := by
  refine ⟨⟨rfl, rfl⟩, source _ _ _ _ _ 2 rfl rfl rfl (.inr rfl), source _ _ _ _ _ 2 rfl rfl rfl (.inr rfl), by decide +kernel, ?_,
    by decide, by decide +kernel, by decide, rfl, rfl, rfl, by decide, by decide +kernel, by decide⟩
  intro x hx
  simp only [List.mem_cons, List.not_mem_nil, or_false] at hx
  rcases hx with rfl | rfl
  · exact sync_at _ _ _ 0x80 _ rfl (by decide) (by decide) rfl
  · exact sync_at _ _ _ 0x88 _ rfl (by decide) (by decide) rfl

/-- The greatest window of four quarters; a window of two words to merge. -/
theorem test_meets_WindowInstructions :
    let t : Strand := strandOf [(10, 0x100), (11, 1024), (12, 0)]
    let wd : Window := ⟨0x100, 8, 1016, .n32⟩
    let u : Strand := { strandOf [] with win := some wd }
    t.win = none ∧ Tag.n32 ∈ [Tag.i32, .n32, .i64, .n64, .f32, .f64] ∧ t.q = 4 ∧ (t.getS 11).toNat = 1024
      ∧ (∀ x ∈ [t.getS 10, t.getS 10 + t.getS 11 - 1], Mapped (pk t) t.ctx x 1 .write locPage)
      ∧ pteAttr locPage.pte ≠ attrHost ∧ pteAttr locPage.pte ≠ attrFlash ∧ pteAttr locPage.pte ≠ attrSlab
      ∧ (pk u).memOk ∧ wd.ty.width = some 32 ∧ wd.ty.isInt = true ∧ wd.off + wd.size ≤ 1024
      ∧ ∀ n < 2, Mapped (pk u) u.ctx (wd.base + BitVec.ofNat 64 (n * 4)) 4 .both locPage
        ∧ Served (pk u) u.ctx (wd.base + BitVec.ofNat 64 (n * 4)) locPage (0x10000 + (0x100 + n * 4)) := by
  refine ⟨rfl, by simp, quarters4, rfl, ?_, by decide, by decide, by decide, ⟨rfl, rfl⟩, rfl, rfl, by decide, ?_⟩
  · intro x hx
    simp only [List.mem_cons, List.not_mem_nil, or_false] at hx
    rcases hx with rfl | rfl
    · exact mapped_at _ _ 0x100 _ _ rfl (by decide) (by decide) (by decide) rfl rfl
    · exact mapped_at _ _ 0x4FF _ _ rfl (by decide) (by decide) (by decide) rfl rfl
  · intro n hn
    rcases two_cases hn with rfl | rfl
    · exact ⟨mapped_at _ _ 0x100 _ _ rfl (by decide) (by decide) (by decide) rfl rfl, served_at _ _ _ 0x100 (by decide)⟩
    · exact ⟨mapped_at _ _ 0x104 _ _ rfl (by decide) (by decide) (by decide) rfl rfl, served_at _ _ _ 0x104 (by decide)⟩

/-- Aligned operands, and a byte count that is not. -/
theorem test_meets_CopyInstructions :
    let t : Strand := strandOf [(10, 0x100), (11, 0x200), (12, 0x80)]
    let u : Strand := strandOf [(10, 0x100), (11, 0x200), (12, 0x84)]
    (∃ rem checks, copyOf t (.cpyMove ⟨9, 10, 11, 12⟩) = some (rem, checks) ∧ rem.token = 9 ∧ ∀ p ∈ checks, p.1.toNat % p.2 = 0)
      ∧ soloRegs (.cpyMove ⟨9, 10, 11, 12⟩) = some ([10, 11, 12], [9]) ∧ Ready (pk t) t [10, 11, 12, 9]
      ∧ (∃ rem, copyOf u (.cpyMove ⟨9, 10, 11, 12⟩) = some (rem, [(0x100, 128), (0x200, 128)] ++ (0x84, 128) :: []))
      ∧ (0x84 : Word).toNat % 128 ≠ 0 ∧ ((pk t).copiesOf 0).length < 32 := by
  refine ⟨⟨_, _, rfl, rfl, ?_⟩, rfl, ⟨rfl, rfl⟩, ⟨_, rfl⟩, by decide, by decide⟩
  decide

/-- R260, R275: the object is raised by one; a window's bytes are cleared and it is open. -/
theorem test_sync_and_window :
    (match exec (.relIncrement 0) (pkg (holding (.rel 9 10) [0x40]) plain32 [(0x10040, 255)]) with
      | .next s => s.mem
      | _ => []) = [(0x10041, 1)]
    ∧ (match exec (.winOpen 10 11 12 .i32) (pk (strandOf [(10, 0x100), (11, 8), (12, 16)])) with
      | .next s => (s.strand 0).bind Strand.win
      | _ => none) = some ⟨0x100, 8, 16, .i32⟩ := by
  repeat' apply And.intro
  all_goals decide +kernel

/-! ## What the statements assume: events of the memory, of faults and of the end of a task -/

theorem test_meets_HeadFaults :
    let t : Strand := { strandOf [] with acc := some ⟨7, 5, 8, true, 0, false, false, ⟨regs [], 0xFFE, true, 0, 0, 0, 0x018, 0⟩, 0⟩ }
    (strandOf []).idle ∧ ¬ (holding .nop []).idle ∧ (pk (holding .nop [])).curStrand = some (holding .nop [])
      ∧ (holding .nop []).acc = none ∧ t.acc.isSome = true ∧ (pk t).curStrand = some t := by
  refine ⟨⟨rfl, rfl, rfl⟩, fun h => ?_, rfl, rfl, rfl, rfl⟩
  cases h.1

/-- Strands 0 and 1 of gang 1 offer each other's partner with key 7 from beat 0; the clock stands at 2048. The instruction whose
exchange has ended is that of test_meets_ExchangeOffers. -/
theorem test_meets_ExchangeEvents :
    let o (peer : Nat) : Xoffer := ⟨peer, 7, 2, 64, .i64, [1, 2], 0⟩
    let t : Strand := { strandOf [] with xch := .offered (o 1) }
    let u : Strand := { entryStrand { id0 with sid := 1, tid := 1 } (regs []) 0x1000 (Vector.replicate 256 0) with xch := .offered (o 0) }
    let s : State := { pk t with strands := [t, u], tick := 2048 }
    s.strand 0 = some t ∧ s.strand 1 = some u ∧ t.xch = .offered (o 1) ∧ u.xch = .offered (o 0) ∧ t.id.handle = u.id.handle
      ∧ (o 1).peer = u.id.tid ∧ (o 0).peer = t.id.tid ∧ t.status ≠ .struck ∧ u.status ≠ .struck
      ∧ s.tick - (o 1).since ≥ 2048 := by
  refine ⟨rfl, rfl, rfl, rfl, rfl, rfl, rfl, Status.noConfusion, Status.noConfusion, by decide⟩

/-- Two additions of 4 bytes to one home at a keystone, integer and float; a pair in its wait buffer and the reply for it; one that has
come back as a redirect, to its home and by keystone 4. -/
theorem test_meets_KeystoneEvents :
    let a (op : ReqKind) : Request :=
      ⟨0, 0, 0, 1, op, 4, .rlx, 0x40, 0x10040, 0, 1, 0, 0, [], [], false, false, false, 0, false, none, 0⟩
    let b (op : ReqKind) : Request := { a op with rid := 1, sid := 1, port := 1 }
    let k (op : ReqKind) : Keystone := ⟨3, [a op, b op], [], []⟩
    let w : WaitEntry := ⟨5, 0, 1, 1, .amo .add, 4, 0⟩
    let s (op : ReqKind) : State := { pk (strandOf []) with keystones := [k op], nextRid := 2 }
    let r : State := { pk (strandOf []) with keystones := [{ k .load with queue := [], buf := [w] }], replies := [⟨5, .value 9, 0⟩] }
    let back (way : List (Nat × Nat)) : State :=
      { pk (strandOf []) with keystones := [⟨3, [], [], [{ a .load with route := way }]⟩, ⟨4, [], [], []⟩] }
    (∀ op ∈ [ReqKind.amo .add, .fadd true], (s op).keystones = [k op] ∧ (k op).queue = [a op, b op] ∧ (a op).stalled = false
      ∧ (a op).port ≤ (b op).port ∧ Alike (a op) (b op) op ∧ (a op).route = [] ∧ (k op).buf.length < 32)
      ∧ 32 ≤ (List.replicate 32 w).length ∧ r.replies = ⟨w.rid, .value 9, 0⟩ :: [] ∧ (∀ t ∈ r.strands, t.vamo = none)
      ∧ ∀ way ∈ [[], [(4, 2)]], ∃ k x, (back way).keystones = [k, x] ∧ x.ks ≠ k.ks ∧ k.redir = [{ a .load with route := way }] := by
  refine ⟨fun op h => ?_, by decide, rfl, fun t ht => ?_, fun way _ => ⟨_, _, rfl, (by decide : 4 ≠ 3), rfl⟩⟩
  · simp only [List.mem_cons, List.not_mem_nil, or_false] at h
    rcases h with rfl | rfl
    · exact ⟨rfl, rfl, rfl, by decide, ⟨rfl, rfl, .inl ⟨.add, rfl, by decide, by decide⟩, rfl, rfl, rfl, rfl, rfl⟩, rfl, by decide⟩
    · exact ⟨rfl, rfl, rfl, by decide, ⟨rfl, rfl, .inr rfl, rfl, rfl, rfl, rfl, rfl⟩, rfl, by decide⟩
  · rw [List.mem_singleton.1 ht]
    rfl

/-- A move of one line from address 0 to address 128, not begun, with its line marked, and with none left; a copy of two lines. -/
theorem test_meets_CopyEvents :
    let c : CopyOp := ⟨0, some 0, 1, 0, ⟨3, 9, 0x80, 0, 128, 1, 0, 0, 0, 0⟩, none, false, none⟩
    let m : CopyOp := { c with moving := some ⟨512, 0⟩ }
    let e : CopyOp := { c with rem := { c.rem with left := 0 } }
    let w : CopyOp := { c with rem := { c.rem with form := 0, ndst := 0x100, left := 128 * 2 } }
    let s (c : CopyOp) : State := { pk (strandOf []) with copies := [c] }
    Copying (s c) c 3 ∧ c.moving = none ∧ c.rem.left ≠ 0 ∧ LineAt (s c) c c.rem.nsrc .read 0x10000
      ∧ LineAt (s c) c c.rem.ndst .write 0x10080 ∧ (s m).memOk ∧ Copying (s m) m 3 ∧ LineAt (s m) m m.rem.ndst .write 0x10080
      ∧ lineOf 0x10080 ≠ 512 ∧ (s e).strand 0 = some (strandOf []) ∧ e.owner = some 0 ∧ e.rem.token ≠ 0 ∧ Copying (s e) e 3
      ∧ Copying (s w) w 0 ∧ w.rem.rows = 1 ∧ w.rem.rowb = 0 ∧ w.rem.left = 128 * 2
      ∧ (∀ i < 2, LineAt (s w) w (w.rem.nsrc + BitVec.ofNat 64 (128 * i)) .read (0x10000 + 128 * i)
        ∧ LineAt (s w) w (w.rem.ndst + BitVec.ofNat 64 (128 * i)) .write (0x10100 + 128 * i))
      ∧ ∀ i < 2, ∀ j < 2, lineOf (0x10000 + 128 * i) ≠ lineOf (0x10100 + 128 * j)
        ∧ (i ≠ j → lineOf (0x10100 + 128 * i) ≠ lineOf (0x10100 + 128 * j)) := by
  have p (c : CopyOp) (h : c.held = none) : Plain { pk (strandOf []) with copies := [c] } :=
    ⟨rfl, rfl, rfl, rfl, ⟨rfl, rfl, rfl, rfl, rfl, by simp [h]⟩⟩
  refine ⟨⟨rfl, rfl, rfl⟩, rfl, by decide, (p _ rfl).line_at _ 0 _ rfl (by decide) rfl rfl, (p _ rfl).line_at _ 0x80 _ rfl (by decide) rfl rfl,
    ⟨rfl, rfl⟩, ⟨rfl, rfl, rfl⟩, (p _ rfl).line_at _ 0x80 _ rfl (by decide) rfl rfl, by decide, rfl, rfl, by decide, ⟨rfl, rfl, rfl⟩,
    ⟨rfl, rfl, rfl⟩, rfl, rfl, rfl, ?_, by decide⟩
  intro i hi
  rcases two_cases hi with rfl | rfl
  · exact ⟨(p _ rfl).line_at _ 0 _ rfl (by decide) rfl rfl, (p _ rfl).line_at _ 0x100 _ rfl (by decide) rfl rfl⟩
  · exact ⟨(p _ rfl).line_at _ 0x80 _ rfl (by decide) rfl rfl, (p _ rfl).line_at _ 0x180 _ rfl (by decide) rfl rfl⟩

/-- The placement map fixes bytes of the lines of an object, at the first and the last of them, or none; minimal mode. -/
theorem test_meets_CopyEvents_placed :
    let fixed (base len : Nat) : State := { pk (strandOf []) with placement := [⟨1, BitVec.ofNat 64 base, len⟩] }
    let s : State := pk (strandOf [])
    (fixed 0x90 8).placed 1 0x80 8 = true ∧ (fixed 0xFF 1).placed 1 0x80 8 = true ∧ (fixed 0x100 8).placed 1 0x80 8 = false
      ∧ (fixed 0x90 8).placed 2 0x80 8 = false ∧ s.boot.minimal = false
      ∧ ({ s with boot := { s.boot with minimal := true } } : State).boot.minimal = true := by
  refine ⟨by decide +kernel, by decide +kernel, by decide +kernel, by decide +kernel, rfl, rfl⟩

/-- A card of one task of one strand on four quarters, in queue 9: completion word at 0x200, post word at 0x300; and a card in
the package. -/
abbrev card2 : BitVec 1024 :=
  BitVec.ofNat 1024 (0x1000 + 0x200 * 2 ^ 640 + 0x300 * 2 ^ 704 + 2 ^ 768 + 4096 * 2 ^ 864 + 4096 * 2 ^ 880 + 9 * 2 ^ 928 + 2 ^ 952
    + 4 * 2 ^ 960)
abbrev inQueue (bits : BitVec 1024) : Card := ⟨0, 1, 9, bits, [], [], [], 1, 0, [], [], 0⟩

/-- A restart record of a trap. -/
abbrev recordOf (c : Cause) (value : Word) : Record :=
  ⟨0x1000, ⟨c, 0, value, 0, false, 0x1000⟩, 0, 0, 0, 0x018, 0, 0, false, 0, none, regs [], 0, 0, 0, [], []⟩

/-- A trapped strand. -/
abbrev trappedBy (c : Cause) (value : Word) : Strand :=
  { strandOf [] with status := .trapped, record := some (recordOf c value) }

theorem test_meets_FaultServices : 2303 < 2304 := by decide

/-- A chain whose first line is at address 0x40, and one whose address is not canonical. -/
theorem test_meets_ChainRepair :
    let t := trappedBy .fwdChain 0x40
    let u := trappedBy .fwdChain 0x1000000000000000
    TrappedWith (pk t) 0 t (recordOf .fwdChain 0x40) ∧ t.notice = false ∧ t.unrepaired = false
      ∧ recordOk (recordOf .fwdChain 0x40).bytes = true ∧ Mapped (pk t) ((pk t).outsideCtx t.id.asid) 0x40 1 .write locPage
      ∧ (pk t).lineState (lineOf (entryHome locPage (va52 0x40))) = some .plain
      ∧ TrappedWith (pk u) 0 u (recordOf .fwdChain 0x1000000000000000) ∧ canonical 0x1000000000000000 = false := by
  refine ⟨⟨rfl, rfl, rfl⟩, rfl, rfl, by decide +kernel,
    mapped_at _ _ 0x40 _ _ rfl (by decide) (by decide) (by decide) rfl rfl, by decide +kernel, ⟨rfl, rfl, rfl⟩, by decide⟩

/-- A fault ring of one entry at 0x500 with room, and one that is full. -/
theorem test_meets_FaultNotices :
    let t := trappedBy .brk 0
    let full : Page := { page1 with frTail := 1 }
    let s (p : Page) : State := { pk t with pages := [p] }
    (s page1).memOk ∧ TrappedWith (s page1) 0 t (recordOf .brk 0) ∧ t.notice = false
      ∧ (s page1).page t.id.asid = some page1 ∧ (s full).page t.id.asid = some full ∧ page1.frBase ≠ 0
      ∧ (full.frTail - full.frHead).toNat = full.frSize.toNat ∧ (page1.frTail - page1.frHead).toNat ≠ page1.frSize.toNat
      ∧ OutsideAt (s page1) t.id.asid
        (page1.frBase + BitVec.ofNat 64 (64 * (page1.frTail.toNat % page1.frSize.toNat))) 64 .write 0x10500 := by
  have p : Plain { pk (trappedBy .brk 0) with pages := [page1] } := ⟨rfl, rfl, rfl, rfl, ⟨rfl, rfl, rfl, rfl, rfl, rfl⟩⟩
  refine ⟨⟨rfl, rfl⟩, ⟨rfl, rfl, rfl⟩, rfl, rfl, rfl, by decide, by decide, by decide, p.outside 0x500 _ _ ?_ ?_ rfl rfl⟩
  · decide
  · decide

/-- A notice of a strand of a running gang, by `brk` and by another cause; an answer that names no notice. -/
theorem test_meets_FaultAnswers :
    let t (c : Cause) := trappedBy c 0
    let x (c : Cause) : Notice := ⟨1, 5, 1, 0, c⟩
    let s (c : Cause) : State := { pk (t c) with notices := [x c] }
    ∀ c ∈ [Cause.brk, .align], (s c).notices.find? (fun y => y.asid == 1 && y.n == 5) = some (x c)
      ∧ (s c).gang (x c).handle = some gang1 ∧ gang1.state = .running ∧ (s c).member (x c).handle (x c).tid = some (t c)
      ∧ (t c).status = .trapped ∧ (t c).record = some (recordOf c 0) ∧ recordOk (recordOf c 0).bytes = true ∧ NoneHeld (s c)
      ∧ (s c).notices.find? (fun y => y.asid == 1 && y.n == 6) = none := by
  intro t x s c hc
  simp only [List.mem_cons, List.not_mem_nil, or_false] at hc
  rcases hc with rfl | rfl
  · exact ⟨rfl, rfl, rfl, rfl, rfl, rfl, by decide +kernel, fun c h => absurd h List.not_mem_nil, rfl⟩
  · exact ⟨rfl, rfl, rfl, rfl, rfl, rfl, by decide +kernel, fun c h => absurd h List.not_mem_nil, rfl⟩

/-- A strand that has dispatched `end` with nothing left; one that has a result to deliver. -/
theorem test_meets_StrandRetires :
    let t : Strand := { strandOf [] with status := .ending }
    let u : Strand := { t with rq := [(9, 0)] }
    (pk t).strand 0 = some t ∧ t.viq = [] ∧ t.rq = [] ∧ t.acc = none ∧ t.vfault = none ∧ t.tokp = 0 ∧ (pk t).copiesOf 0 = []
      ∧ (pk u).strand 0 = some u ∧ u.rq ≠ [] := by
  refine ⟨rfl, rfl, rfl, rfl, rfl, rfl, rfl, rfl, ?_⟩
  exact List.cons_ne_nil _ _

/-- A gang whose one strand has ended, one that has failed, an offer of a task whose card asks for a longer vl. -/
theorem test_meets_GangCompletes :
    let ended : Strand := { strandOf [] with status := .ended }
    let s : State := { pk ended with cards := [inQueue card2] }
    let f : Gang := { gang1 with state := .failing 2 }
    let b : BitVec 1024 := card2 + BitVec.ofNat 1024 (4096 * 2 ^ 880 + 4096 * 2 ^ 864)
    let o : State := { pk (strandOf []) with gangs := [], cards := [inQueue b], offers := [⟨7, 0, 0⟩] }
    s.memOk ∧ NoneHeld s ∧ s.gang 1 = some gang1 ∧ s.cardOf gang1 = some (inQueue card2) ∧ gang1.state = .running ∧ s.allEnded gang1 = true
      ∧ ({ s with gangs := [f] } : State).gang 1 = some f ∧ f.state = .failing 2
      ∧ OutsideAt s 1 (cardCwaddr card2 + BitVec.ofNat 64 (8 * gang1.g)) 8 .write 0x10200
      ∧ OutsideAt s 1 (cardPost card2) 8 .write 0x10300 ∧ (0x10300 + 8 ≤ 0x10200 ∨ 0x10200 + 8 ≤ 0x10300)
      ∧ o.gang 7 = none ∧ o.offers.find? (fun x => x.handle == 7) = some ⟨7, 0, 0⟩
      ∧ o.cards.find? (fun x => x.cid == 0) = some (inQueue b) ∧ cardVlOk b = false := by
  have p : Plain { pk { strandOf [] with status := .ended } with cards := [inQueue card2] } := ⟨rfl, rfl, rfl, rfl, ⟨rfl, rfl, rfl, rfl, rfl, rfl⟩⟩
  have a : cardCwaddr card2 + BitVec.ofNat 64 (8 * gang1.g) = BitVec.ofNat 64 0x200 := by decide +kernel
  have b : cardPost card2 = BitVec.ofNat 64 0x300 := by decide +kernel
  refine ⟨⟨rfl, rfl⟩, fun c h => absurd h List.not_mem_nil, rfl, rfl, rfl, by decide +kernel, rfl, rfl, ?_, ?_, by decide, rfl, rfl,
    rfl, by decide +kernel⟩
  · rw [a]
    exact p.outside _ _ _ (by decide) (by decide) (by decide) rfl
  · rw [b]
    exact p.outside _ _ _ (by decide) (by decide) (by decide) rfl

/-- Queue 9 is open to address space 1 and takes a card; one of partition 0 with no slot of its own is refused; the scheduler is
full with 64 pending cards. -/
theorem test_meets_Submission :
    let data : List Byte := wordBytes 128 card2
    let s : State := { pk (strandOf []) with pages := [page1], queues := [queue9] }
    let full : State := { s with cards := List.replicate Config.maxPending { inQueue card2 with started := 0 } }
    s.page 1 = some page1 ∧ 0x80 % 128 = 0 ∧ 0x80 < 0x8000 ∧ data.length = 128 ∧ ¬ (0x84 % 128 = 0)
      ∧ BitVec.ofNat 1024 (leNat data) = card2 ∧ s.queueOpen 1 (cardQueue card2) = true ∧ s.cardFieldsOk 1 card2 = true
      ∧ s.cardFieldsOk 1 0 = false ∧ cardNfoot card2 = 0 ∧ cardNbind card2 = 0 ∧ s.schedulerFull 9 = false
      ∧ full.schedulerFull 9 = true := by
  refine ⟨rfl, by decide, by decide, by decide +kernel, by decide, by decide +kernel, by decide +kernel, by decide +kernel,
    by decide +kernel, by decide +kernel, by decide +kernel, by decide +kernel, by decide +kernel⟩

/-- A head of class 2 that has waited 10 ms (6,000,000 beats), and has not. -/
theorem test_meets_ClassPromotion :
    let c : Card := { inQueue (card2 + BitVec.ofNat 1024 (2 * 2 ^ 968)) with started := 0 }
    let s (n : Nat) : State := { pk (strandOf []) with gangs := [], cards := [c], queues := [queue9], tick := n }
    (s 6000000).queues.find? (fun x => x.num == queue9.num) = some queue9 ∧ (s 6000000).headTask queue9.num = some (c, 0)
      ∧ (s 6000000).taskReady c = true ∧ queue9.promos < cardPrio c.bits
      ∧ queue9.promos < ((s 6000000).tick - queue9.since) / 6000000
      ∧ ¬ queue9.promos < ((s 5999999).tick - queue9.since) / 6000000 := by
  refine ⟨rfl, by decide +kernel, by decide +kernel, by decide +kernel, by decide +kernel, by decide +kernel⟩

/-- A page, a decoder, the first and last of the offsets that take no write, and one beside each register; minimal mode and not. -/
theorem test_meets_RegisterWrites :
    let s : State := { pk (strandOf []) with pages := [page1], hdm := [(3, ⟨0x1000, 0x1000, 0⟩)] }
    let written : List Nat := [0x8000, 0x8008, 0x8010, 0x8020, 0x8028, 0x8030]
    s.page 1 = some page1 ∧ s.hdm.find? (fun y => y.1 == 3) = some (3, ⟨0x1000, 0x1000, 0⟩) ∧ 0x7FFF < 0x8000
      ∧ (∀ off ∈ [0x8018, 0x8038, 0x8048, 0x8050], 0x8000 ≤ off ∧ off ≠ 0x8040 ∧ off ∉ written)
      ∧ (∀ off ∈ [0, 0x7FFF, 0x8040, 0x8050], off ∉ written ∧ off ≠ 0x8018 ∧ off ≠ 0x8038 ∧ off ≠ 0x8048)
      ∧ s.boot.minimal = false ∧ ({ s with boot := { s.boot with minimal := true } } : State).boot.minimal = true := by
  refine ⟨rfl, rfl, by decide, by decide, by decide, rfl, rfl⟩

/-- A bind record for task 7: core 0 of cluster 0, four quarters, an extension of 4,096 bytes. -/
abbrev bindOf (kind : Nat) : BitVec 512 :=
  BitVec.ofNat 512 (4096 * 2 ^ 112 + kind * 2 ^ 176 + 15 * 2 ^ 178 + 7 * 2 ^ 192)

/-- The gang of task 7 on those quarters. -/
abbrev gang7 (st : GangState) (kind : Nat) : Gang := ⟨7, 0, 0, 1, 0, st, BitVec.ofNat 2 kind, bindOf kind, [], 0, 0, 0, [], true, 0⟩

/-- The card in the package, with gangs. -/
abbrev withGangs (bits : BitVec 1024) (gs : List Gang) : State :=
  { pk (strandOf []) with strands := [], gangs := gs, cards := [inQueue bits] }

/-- Such a record is one the bind port takes, of an offered task and of a saved gang. -/
theorem bindable (k : Nat) (hk : k < 3) (s : State) (h : s = { withGangs card2 [] with offers := [⟨7, 0, 0⟩] }
    ∨ s = withGangs card2 [gang7 .saved 0]) : Bindable s (bindOf k) (inQueue card2) := by
  rcases h with rfl | rfl <;> interval_cases k <;>
    exact ⟨rfl, by decide +kernel, by decide +kernel, by decide +kernel, by decide +kernel, by decide +kernel, by decide +kernel,
      by decide +kernel⟩

/-- A first binding, and one of a saved gang; a record the port refuses (quarters of cluster 0 that a gang holds); no such task. -/
theorem test_meets_BindRecords :
    let s : State := { withGangs card2 [] with offers := [⟨7, 0, 0⟩] }
    let v : State := withGangs card2 [gang7 .saved 0]
    let x : State := { withGangs card2 [{ gang7 .running 0 with handle := 3 }] with offers := [⟨7, 0, 0⟩] }
    bindKind (bindOf 0) = 0 ∧ bindTask (bindOf 0) = 7 ∧ bindTask (bindOf 0) ≠ 0 ∧ s.offers.find? (fun o => o.handle == 7) = some ⟨7, 0, 0⟩
      ∧ s.cards.find? (fun c => c.cid == 0) = some (inQueue card2) ∧ cardVlOk card2 = true ∧ s.gang 7 = none
      ∧ Bindable s (bindOf 0) (inQueue card2)
      ∧ x.cards.find? (fun c => c.cid == 0) = some (inQueue card2) ∧ x.gang 7 = none ∧ ¬ Bindable x (bindOf 0) (inQueue card2)
      ∧ bindKind (bindOf 1) ≠ 0 ∧ v.gang (bindTask (bindOf 1)) = some (gang7 .saved 0)
      ∧ v.cardOf (gang7 .saved 0) = some (inQueue card2) ∧ Bindable v (bindOf 1) (inQueue card2)
      ∧ ∀ o ∈ v.offers, o.handle ≠ bindTask (bindOf 0) := by
  refine ⟨by decide +kernel, by decide +kernel, by decide +kernel, rfl, rfl, by decide +kernel, rfl, bindable 0 (by decide) _ (.inl rfl), rfl, rfl,
    fun h => ?_, by decide +kernel, by decide +kernel, rfl, bindable 1 (by decide) _ (.inr rfl), fun o h => by cases h⟩
  exact absurd (h.free 0 (by decide +kernel)).2.2 (by decide +kernel)

/-- The bytes of a record as its vault part holds them; every other byte of the vault is 0. -/
abbrev vaultWith (r : Record) : List Host.Cell :=
  (r.bytes.zipIdx.filter fun x => x.1 != 0).map fun x => (recordOffset + x.2, x.1)

/-- A saved strand of gang 7 that ran. -/
abbrev saved7 : Saved := ⟨7, [0, 1, 2, 3], false, { strandOf [] with id := { id0 with handle := 7 } }, recordOf .none 0⟩

/-- A bound gang on its first dispatch, without images; one that resumes a strand saved as it ran; one whose record is lost. -/
theorem test_meets_GangDispatch :
    let s : State := withGangs card2 [gang7 .bound 0]
    let r (m : List Host.Cell) : State := { withGangs card2 [gang7 .bound 1] with vault := [saved7], vaultMem := m }
    s.gang 7 = some (gang7 .bound 0) ∧ s.cardOf (gang7 .bound 0) = some (inQueue card2) ∧ cardImages card2 = 0
      ∧ (∀ m, (r m).gang 7 = some (gang7 .bound 1) ∧ (r m).cardOf (gang7 .bound 1) = some (inQueue card2) ∧ NoneHeld (r m))
      ∧ (gang7 .bound 1).kind ≠ 0 ∧ (gang7 .bound 1).answers = [] ∧ saved7.ctx.status = .running
      ∧ (r (vaultWith saved7.record)).contextOk saved7 1 (bindSpill (bindOf 1)) = true
      ∧ (r []).contextOk saved7 1 (bindSpill (bindOf 1)) = false := by
  refine ⟨rfl, rfl, by decide +kernel, fun m => ⟨rfl, rfl, fun c h => absurd h List.not_mem_nil⟩, by decide, rfl, rfl,
    by decide +kernel, by decide +kernel⟩

/-- The strand of gang 7, its gang in a state, its card. -/
abbrev resident (bits : BitVec 1024) (st : GangState) : State :=
  { withGangs bits [gang7 st 0] with strands := [{ strandOf [] with id := { id0 with handle := 7 } }] }

theorem test_meets_GangSaves :
    (resident card2 .running).gang 7 = some (gang7 .running 0) ∧ (resident card2 .running).allEnded (gang7 .running 0) = false
      ∧ ((resident card2 .running).strands.map fun t => t.id.sid).Nodup
      ∧ (∀ t ∈ (resident card2 .running).strands, t.viq = [])
      ∧ (resident card2 .saving).gang 7 = some (gang7 .saving 0) ∧ (resident card2 .saving).saveReady (gang7 .saving 0) = true
      ∧ (resident card2 .saving).vault = [] ∧ ∀ t ∈ (resident card2 .saving).strands, t.id.pclus < 24 ∧ t.id.pcore < 24 := by
  refine ⟨rfl, by decide +kernel, by decide +kernel, fun t h => ?_, rfl, by decide +kernel, rfl, fun t h => ?_⟩
  · rw [List.mem_singleton.1 h]
    rfl
  · rw [List.mem_singleton.1 h]
    decide

/-- A vacate of gang 7 with a decision and the time of it. -/
abbrev vacate7 (dec : Decision) (at_ deadline : Nat) : Vacate := ⟨0, 1, 1, deadline, false, [(7, dec, at_)], [0, 0, 0, 0], false⟩

/-- A save begun 120,000 beats (200 µs) ago, one begun now, one whose vacate's deadline is 2 µs away, one with more time. -/
theorem test_meets_SaveTimeouts :
    let s (tick d : Nat) : State :=
      { resident card2 .saving with tick := tick, saves := [⟨7, 0⟩], vacates := [vacate7 .checkpoint 0 d] }
    let late (s : State) (v : Save) : Prop := 600000 ≤ 5 * (s.tick - v.since)
      ∨ ∃ x ∈ s.vacates, x.reported = false ∧ (∃ y ∈ x.gangs, y.1 = v.handle) ∧ x.deadline ≤ s.timeNs.toNat + 2000
    (∀ n d, (s n d).gang 7 = some (gang7 .saving 0) ∧ (s n d).saves = [⟨7, 0⟩] ∧ NoneHeld (s n d))
      ∧ late (s 120000 2001) ⟨7, 0⟩ ∧ late (s 0 2000) ⟨7, 0⟩ ∧ ¬ late (s 119999 2001) ⟨7, 0⟩ := by
  refine ⟨fun n d => ⟨rfl, rfl, fun c h => absurd h List.not_mem_nil⟩, .inl (by decide), .inr ⟨vacate7 .checkpoint 0 2000,
    List.mem_singleton.2 rfl, rfl, ⟨(7, .checkpoint, 0), List.mem_singleton.2 rfl, rfl⟩, by decide⟩, ?_⟩
  rintro (h | ⟨x, hx, -, -, h⟩)
  · revert h
    decide
  · rw [List.mem_singleton.1 hx] at h
    revert h
    decide

/-- A card that may be run again. -/
abbrev card3 : BitVec 1024 := card2 + BitVec.ofNat 1024 (2 ^ 971)

/-- Records of partition 0 in cluster 0: their deadline and whether they are forced. -/
abbrev vacateOf (deadline force : Nat) : BitVec 256 :=
  BitVec.ofNat 256 (deadline + 2 ^ 64 + 2 ^ 88 + force * 2 ^ 95)

/-- Deadlines too near and near enough, a forced one; a gang that runs, one stopped for good, one whose strands have ended. -/
theorem test_meets_VacateRecords :
    let s : State := resident card2 .running
    let t : Vacate := ⟨0, (vacateOf 120000 0).extractLsb' 88 4, (vacateOf 120000 0).extractLsb' 64 24, 120000, false, [], [0, 0, 0, 0], false⟩
    let x : State := { s with strands := [{ strandOf [] with id := { id0 with handle := 7 }, status := .ended }] }
    s.timeNs.toNat = 0 ∧ NoneHeld s ∧ fieldNat (vacateOf 119999 0) 0 64 < 120000 ∧ bitAt (vacateOf 119999 0) 95 = false
      ∧ 120000 ≤ fieldNat (vacateOf 120000 0) 0 64
      ∧ bitAt (vacateOf 69999 1) 95 = true ∧ fieldNat (vacateOf 69999 1) 0 64 < 70000
      ∧ (withGangs card2 []).vacates = [] ∧ s.gangs = [gang7 .running 0] ∧ s.vault = []
      ∧ s.cardOf (gang7 .running 0) = some (inQueue card2)
      ∧ (∃ k ∈ s.slotsOf (gang7 .running 0), s.inTarget t k = true)
      ∧ cardWork card2 = 0 ∧ cardDuration card2 = 0 ∧ cardRerun card2 = false ∧ cardRerun card3 = true
      ∧ s.allEnded (gang7 .running 0) = false ∧ x.allEnded (gang7 .running 0) = true ∧ (gang7 (.failing 2) 0).failing = true
      ∧ (resident card2 (.failing 2)).gangs = [gang7 (.failing 2) 0]
      ∧ (∃ k ∈ (resident card2 (.failing 2)).slotsOf (gang7 (.failing 2) 0), (resident card2 (.failing 2)).inTarget t k = true)
      ∧ s.boot.minimal = false ∧ ({ s with boot := { s.boot with minimal := true } } : State).boot.minimal = true := by
  refine ⟨by decide, fun c h => absurd h List.not_mem_nil, by decide +kernel, by decide +kernel, by decide +kernel, by decide +kernel,
    by decide +kernel, rfl, rfl, rfl, rfl, ⟨0, by decide +kernel, by decide +kernel⟩, by decide +kernel, by decide +kernel,
    by decide +kernel, by decide +kernel, by decide +kernel, by decide +kernel, rfl, rfl, ⟨0, by decide +kernel, by decide +kernel⟩, rfl, rfl⟩

/-- A gang to be checkpointed now, and one left to run until now that may not be run again; a vacate to release. -/
theorem test_meets_VacateSteps :
    let s (dec : Decision) (at_ : Nat) : State :=
      { resident card2 .running with vacates := [vacate7 dec at_ 0], timeValid := true, time3 := 3 }
    (∀ dec n, (s dec n).gang 7 = some (gang7 .running 0) ∧ (s dec n).allEnded (gang7 .running 0) = false
      ∧ (s dec n).cardOf (gang7 .running 0) = some (inQueue card2) ∧ (s dec n).vacates = vacate7 dec n 0 :: []
      ∧ (vacate7 dec n 0).reported = false ∧ (vacate7 dec n 0).counts = [0, 0, 0, 0])
      ∧ 0 ≤ (s .checkpoint 0).timeNs.toNat ∧ 1 ≤ (s .run 1).timeNs.toNat ∧ cardRerun card2 = false := by
  refine ⟨fun dec n => ⟨rfl, ?_, rfl, rfl, rfl, rfl⟩, Nat.zero_le _, by decide, by decide +kernel⟩
  exact (by decide +kernel : (resident card2 .running).allEnded (gang7 .running 0) = false)

/-- A re-runnable task rolled back twice before, and never; one that may not be run again; the vault part of a saved strand; entry 1
of a keystone that holds one. -/
theorem test_meets_SoftErrors :
    let w : WaitEntry := ⟨5, 0, 1, 1, .amo .add, 4, 0⟩
    let s : State := { resident card3 .running with cards := [{ inQueue card3 with rolled := [0, 0] }], keystones := [⟨2, [], [w], []⟩] }
    let v : State := { withGangs card3 [gang7 .saved 0] with vault := [saved7] }
    (resident card3 .running).gang 7 = some (gang7 .running 0) ∧ (gang7 .running 0).failing = false ∧ NoneHeld s ∧ NoneHeld v
      ∧ (resident card3 .running).cardOf (gang7 .running 0) = some (inQueue card3) ∧ cardRerun card3 = true
      ∧ (resident card2 .running).cardOf (gang7 .running 0) = some (inQueue card2) ∧ cardRerun card2 = false
      ∧ s.cardOf (gang7 .running 0) = some { inQueue card3 with rolled := [0, 0] } ∧ ¬ (([0, 0].filter fun x => x == 0).length < 2)
      ∧ s.strand 0 = some { strandOf [] with id := { id0 with handle := 7 } }
      ∧ v.gang 7 = some (gang7 .saved 0) ∧ (gang7 .saved 0).failing = false ∧ v.cardOf (gang7 .saved 0) = some (inQueue card3)
      ∧ v.vault.find? (fun v => v.slots.contains 3 && !v.spilled) = some saved7 ∧ saved7.handle = 7
      ∧ ∀ k ∈ s.keystones, k.ks = 2 → k.buf.length ≤ 1 := by
  refine ⟨rfl, rfl, fun c h => absurd h List.not_mem_nil, fun c h => absurd h List.not_mem_nil, rfl, by decide +kernel, rfl,
    by decide +kernel, rfl, by decide, rfl, rfl, rfl, rfl, rfl, rfl, fun k h _ => ?_⟩
  rw [List.mem_singleton.mp h]
  decide

/-- A gang idle for the watchdog's interval of 5; a strand that has held an access of line 512 for 600,001 beats while its stack
stands in band 3; one that has waited 600,000 beats for a line of package 1 while no link is up. -/
theorem test_meets_TimeoutsAndReplacements :
    let s : State := { resident card2 .running with watchdog := 5, gangs := [{ gang7 .running 0 with idle := 5 }] }
    let far := lineOf (homeByte attrPeer 1 0)
    let t (l : Nat) : Strand := { strandOf [] with held := some (l, 0) }
    let x : State := { pk (t 512) with hbm := Vector.replicate 12 ⟨3, 0⟩, tick := 600001 }
    let y : State := { pk (t far) with linkUp := 0, tick := 600000 }
    s.gang 7 = some { gang7 .running 0 with idle := 5 } ∧ s.watchdog ≠ 0 ∧ x.heldAccesses = [(0, 512, 0)] ∧ 512 ∉ x.soft
      ∧ x.offline 512 = true ∧ 600000 < x.tick - 0 ∧ y.heldAccesses = [(0, far, 0)] ∧ y.unreachable far = true
      ∧ 600000 ≤ y.tick - 0 ∧ y.offline far = false := by
  refine ⟨rfl, by decide, rfl, List.not_mem_nil, ?_, by decide, rfl, by decide +kernel, by decide, by decide +kernel⟩
  have h (k : Fin 12) : (Vector.replicate 12 (⟨3, 0⟩ : Stack))[k] = ⟨3, 0⟩ := Vector.getElem_replicate ..
  show (_ && _ && (Vector.replicate 12 (⟨3, 0⟩ : Stack))[(Config.stackOfLine 512).val].band == 3) = true
  simp only [Vector.getElem_replicate]
  decide

/-- A cached translation of a page, and an access under way that used it. -/
theorem test_meets_TlbInvalidate :
    (pk (strandOf [])).translated 1 = false ∧ ({ pk (strandOf []) with requests := [req] } : State).translated 1 = true := ⟨rfl, rfl⟩

/-- A decoder of 4 KiB from host address 0x7000; the first and the last byte of the package's plain lines there; a word that is not
aligned, and one no decoder holds. -/
theorem test_meets_HostWindow :
    let s : State := { pk (strandOf []) with hdm := [(0, ⟨0x7000, 0x1000, 0x10000⟩)] }
    s.hdmAddr 0x7000 2 = some 0x10000 ∧ s.hdmAddr 0x7FF8 8 = some 0x10FF8 ∧ homeByte attrLoc 0 0x10000 = 0x10000 ∧ s.memOk
      ∧ (∀ i < 0x1000, HostByte s 0x10000 (0x10000 + i)) ∧ 0x10000 % 128 + ([1, 2] : List Byte).length ≤ 128 ∧ 0x7000 % 8 = 0
      ∧ 0x7004 % 8 ≠ 0 ∧ (∀ d ∈ s.hdm, 0x6FFF < d.2.base ∨ d.2.base + d.2.size < 0x6FFF + 2)
      ∧ (∀ d ∈ s.hdm, 0x7FFF < d.2.base ∨ d.2.base + d.2.size < 0x7FFF + 2)
      ∧ AmoOp.and ≠ .add ∧ AmoOp.and ≠ .swp ∧ AmoOp.and ≠ .cas := by
  have p : Plain { pk (strandOf []) with hdm := [(0, ⟨0x7000, 0x1000, 0x10000⟩)] } := ⟨rfl, rfl, rfl, rfl, ⟨rfl, rfl, rfl, rfl, rfl, rfl⟩⟩
  refine ⟨rfl, rfl, by decide, ⟨rfl, rfl⟩, fun i hi => ?_, by decide, by decide, by decide, fun d hd => ?_, fun d hd => ?_, by decide,
    by decide, by decide⟩
  · have l : lineOf (0x10000 + i) = 512 + i / 128 := by
      rw [lineOf]
      omega
    refine ⟨by rw [homeAttr, attrLoc]; omega, ?_, p.online _, ?_, rfl, (p.calm.turn _ _).2⟩
    · rw [l]
      exact p.line (i / 128) (by omega)
    · have : homeAttr (128 * lineOf (0x10000 + i)) = 0 := by
        rw [l, homeAttr]
        omega
      simp [State.unreachable, this, attrPeer]
  · rw [List.mem_singleton.1 hd]
    decide
  · rw [List.mem_singleton.1 hd]
    decide

theorem test_meets_RidgeLinks : ([((3 : BitVec 6), (1 : BitVec 4)), (4, 2)].map Prod.fst).Nodup := by decide

/-- A running queue pair of address space 1: queues of two entries at 0x100 and 0x200, tails at 0x300 and 0x308, heads at 0x310
and 0x318, an entry in each queue. -/
abbrev pairCtx (st : Nat) : BitVec 512 :=
  BitVec.ofNat 512 (0x100 * 2 ^ 448 + 0x200 * 2 ^ 384 + 0x300 * 2 ^ 320 + 0x308 * 2 ^ 256 + 0x310 * 2 ^ 192 + 0x318 * 2 ^ 128
    + 2 ^ 92 + 2 ^ 88 + st * 2 ^ 82 + 2 ^ 64)
abbrev pair1 : Qp := ⟨5, pairCtx 1, 0, 1, 0, 1, none⟩

/-- An entry of operation `op`, for two bytes at 0x400, with its completion value at 0x500. -/
abbrev qpEntry (op : Nat) : BitVec 512 :=
  BitVec.ofNat 512 (op + 2 * 2 ^ 32 + 0x400 * 2 ^ 64 + 0x500 * 2 ^ 256)

/-- The package with a pair and the entry `op` in both queues, or an empty one where `op` is 0; 7 in both tail words. -/
abbrev withPair (op : Nat) (q : Qp) : State :=
  { pk (strandOf []) with
    qps := [q]
    mem := (if op = 0 then [] else [(0x10100, BitVec.ofNat 8 op), (0x10104, 2), (0x10109, 4), (0x10121, 5),
        (0x10200, BitVec.ofNat 8 op), (0x10204, 2), (0x10209, 4), (0x10221, 5)])
      ++ [(0x10300, 1), (0x10308, 7)] }

theorem plain_pair (op : Nat) (q : Qp) : Plain (withPair op q) := ⟨rfl, rfl, rfl, rfl, ⟨rfl, rfl, rfl, rfl, rfl, rfl⟩⟩

theorem pair_fields : qpAsid (pairCtx 1) = 1 ∧ qpState (pairCtx 1) = 1
    ∧ qpBase (pairCtx 1) false + BitVec.ofNat 64 (64 * ((0 : BitVec 32).toNat % 2 ^ qpLog (pairCtx 1) false)) = BitVec.ofNat 64 0x100
    ∧ qpBase (pairCtx 1) true + BitVec.ofNat 64 (64 * ((0 : BitVec 32).toNat % 2 ^ qpLog (pairCtx 1) true)) = BitVec.ofNat 64 0x200
    ∧ qpTailAt (pairCtx 1) false = BitVec.ofNat 64 0x300 ∧ qpTailAt (pairCtx 1) true = BitVec.ofNat 64 0x308
    ∧ qpHeadAt (pairCtx 1) false = BitVec.ofNat 64 0x310 ∧ qpHeadAt (pairCtx 1) true = BitVec.ofNat 64 0x318 := by
  refine ⟨by decide +kernel, by decide +kernel, by decide +kernel, by decide +kernel, by decide +kernel, by decide +kernel,
    by decide +kernel, by decide +kernel⟩

/-- NOP with no field set, SEND, WRITE, READ of two bytes at 0x400, an operation 4. -/
theorem test_meets_NetworkSends :
    Sends (withPair 0 pair1) pair1 0 ∧ cleanEntry 0
      ∧ (∀ op ∈ [1, 2, 3, 4], Sends (withPair op pair1) pair1 (qpEntry op) ∧ cleanEntry (qpEntry op)
        ∧ fieldNat (qpEntry op) 0 8 = op ∧ fieldNat (qpEntry op) 32 32 = 2 ∧ (qpEntry op).extractLsb' 64 64 = BitVec.ofNat 64 0x400
        ∧ OutsideBytes (withPair op pair1) (qpAsid pair1.ctx) (BitVec.ofNat 64 0x400) [0, 0]
        ∧ OutsideAt (withPair op pair1) (qpAsid pair1.ctx) (BitVec.ofNat 64 0x400) 1 .write 0x10400
        ∧ (withPair op pair1).memOk ∧ canonicalAll (BitVec.ofNat 64 0x400) 2 = true)
      ∧ 0x400 % 128 + 2 ≤ 128 ∧ ¬ cleanEntry (BitVec.ofNat 512 (2 ^ 9)) := by
  obtain ⟨ha, hs, hb, -⟩ := pair_fields
  refine ⟨⟨rfl, hs, rfl, rfl, by decide, ?_⟩, ⟨by decide +kernel, by decide +kernel, by decide +kernel⟩, ?_, by decide,
    fun h => absurd h.1 (by decide +kernel)⟩
  · show OutsideBytes _ (qpAsid (pairCtx 1)) _ _
    rw [ha, hb]
    exact (plain_pair 0 pair1).bytes 0x100 _ (by decide +kernel) (by decide +kernel)
  · intro op h
    simp only [List.mem_cons, List.not_mem_nil, or_false] at h
    rcases h with rfl | rfl | rfl | rfl
    all_goals
      refine ⟨⟨rfl, hs, rfl, rfl, by decide, ?_⟩, ⟨by decide +kernel, by decide +kernel, by decide +kernel⟩, by decide +kernel,
        by decide +kernel, by decide +kernel, ?_, ?_, ⟨by decide +kernel, by decide +kernel⟩, by decide +kernel⟩
      · show OutsideBytes _ (qpAsid (pairCtx 1)) _ _
        rw [ha, hb]
        exact (plain_pair _ pair1).bytes 0x100 _ (by decide +kernel) (by decide +kernel)
      · show OutsideBytes _ (qpAsid (pairCtx 1)) _ _
        rw [ha]
        exact (plain_pair _ pair1).bytes 0x400 _ (by decide +kernel) (by decide +kernel)
      · show OutsideAt _ (qpAsid (pairCtx 1)) _ _ _ _
        rw [ha]
        exact (plain_pair _ pair1).outside 0x400 _ _ (by decide) (by decide) rfl rfl

/-- A receive entry of two bytes at 0x400: for a message of one byte, for one of three; no entry posted. -/
theorem test_meets_NetworkReceives :
    (withPair 4 pair1).memOk ∧ (withPair 4 pair1).qpOf 5 = some pair1 ∧ qpState pair1.ctx = 1 ∧ pair1.rhead ≠ pair1.rtail
      ∧ OutsideBytes (withPair 4 pair1) (qpAsid pair1.ctx)
        (qpBase pair1.ctx true + BitVec.ofNat 64 (64 * (pair1.rhead.toNat % 2 ^ qpLog pair1.ctx true))) (wordBytes 64 (qpEntry 4))
      ∧ cleanEntry (qpEntry 4) ∧ fieldNat (qpEntry 4) 0 8 = 4 ∧ fieldNat (qpEntry 4) 32 32 < ([1, 2, 3] : List Byte).length
      ∧ ([1] : List Byte).length ≤ fieldNat (qpEntry 4) 32 32
      ∧ (qpEntry 4).extractLsb' 64 64 = BitVec.ofNat 64 0x400
      ∧ OutsideAt (withPair 4 pair1) (qpAsid pair1.ctx) (BitVec.ofNat 64 0x400) 1 .write 0x10400
      ∧ { pair1 with rtail := 0 }.rhead = { pair1 with rtail := 0 }.rtail := by
  obtain ⟨ha, hs, -, hb, -⟩ := pair_fields
  refine ⟨⟨by decide +kernel, by decide +kernel⟩, rfl, hs, by decide, ?_, ⟨by decide +kernel, by decide +kernel, by decide +kernel⟩,
    by decide +kernel, by decide +kernel, by decide +kernel, by decide +kernel, ?_, rfl⟩
  · show OutsideBytes _ (qpAsid (pairCtx 1)) (qpBase (pairCtx 1) true + BitVec.ofNat 64 (64 * ((0 : BitVec 32).toNat % 2 ^ qpLog (pairCtx 1) true))) _
    rw [ha, hb]
    exact (plain_pair 4 pair1).bytes 0x200 _ (by decide +kernel) (by decide +kernel)
  · show OutsideAt _ (qpAsid (pairCtx 1)) _ _ _ _
    rw [ha]
    exact (plain_pair 4 pair1).outside 0x400 _ _ (by decide) (by decide) rfl rfl

/-- A context that is taken and one of STATE 3; tail words of 1 and 7, the second beyond a queue of two; a completion due; an
entry left in STATE 2. -/
theorem test_meets_QueuePairs :
    let d : Qp := { pair1 with done := some (false, 0x500, 0) }
    ¬ (fieldNat (pairCtx 1) 84 2 = 3 ∨ qpState (pairCtx 1) = 3 ∨ fieldNat (pairCtx 1) 96 8 ≠ 0 ∨ fieldNat (pairCtx 1) 16 48 ≠ 0
        ∨ 16384 ≤ 16383)
      ∧ qpState (pairCtx 3) = 3 ∧ (withPair 4 pair1).qpOf 5 = some pair1 ∧ (withPair 4 pair1).qpOf 6 = none ∧ qpState pair1.ctx = 1
      ∧ OutsideBytes (withPair 4 pair1) (qpAsid pair1.ctx) (qpTailAt pair1.ctx false) (wordBytes 8 (1 : Word))
      ∧ OutsideBytes (withPair 4 pair1) (qpAsid pair1.ctx) (qpTailAt pair1.ctx true) (wordBytes 8 (7 : Word))
      ∧ (2 ^ qpLog pair1.ctx true < ((7 : BitVec 32) - pair1.rhead).toNat ∧ ¬ 2 ^ qpLog pair1.ctx false < ((1 : BitVec 32) - pair1.shead).toNat)
      ∧ (withPair 4 d).memOk ∧ (withPair 4 d).qpOf 5 = some d ∧ (0x500 : Word) ≠ 0
      ∧ OutsideAt (withPair 4 d) (qpAsid d.ctx) 0x500 8 .write 0x10500
      ∧ OutsideAt (withPair 4 d) (qpAsid d.ctx) (qpHeadAt d.ctx false) 8 .write 0x10310 := by
  obtain ⟨ha, hs, -, -, h1, h2, h3, -⟩ := pair_fields
  refine ⟨by decide +kernel, by decide +kernel, rfl, rfl, hs, ?_, ?_, by decide +kernel, ⟨by decide +kernel, by decide +kernel⟩, rfl,
    by decide, ?_, ?_⟩
  · show OutsideBytes _ (qpAsid (pairCtx 1)) (qpTailAt (pairCtx 1) false) _
    rw [ha, h1]
    exact (plain_pair 4 pair1).bytes 0x300 _ (by decide +kernel) (by decide +kernel)
  · show OutsideBytes _ (qpAsid (pairCtx 1)) (qpTailAt (pairCtx 1) true) _
    rw [ha, h2]
    exact (plain_pair 4 pair1).bytes 0x308 _ (by decide +kernel) (by decide +kernel)
  · show OutsideAt _ (qpAsid (pairCtx 1)) _ _ _ _
    rw [ha]
    exact (plain_pair 4 _).outside 0x500 _ _ (by decide) (by decide) rfl rfl
  · show OutsideAt _ (qpAsid (pairCtx 1)) (qpHeadAt (pairCtx 1) false) _ _ _
    rw [ha, h3]
    exact (plain_pair 4 _).outside 0x310 _ _ (by decide) (by decide) rfl rfl

/-- In STATE 2 the tails are taken too, and the entry at the head is the one at 0x100. -/
theorem test_meets_QueuePairs_flush :
    let q : Qp := { pair1 with ctx := pairCtx 2 }
    (withPair 4 q).memOk ∧ (withPair 4 q).qpOf 5 = some q ∧ q.done = none ∧ qpState q.ctx = 2 ∧ q.shead ≠ q.stail
      ∧ OutsideBytes (withPair 4 q) (qpAsid q.ctx) (qpBase q.ctx false + BitVec.ofNat 64 (64 * (q.shead.toNat % 2 ^ qpLog q.ctx false)))
        (wordBytes 64 (qpEntry 4))
      ∧ (qpEntry 4).extractLsb' 256 64 = (0x500 : Word)
      ∧ OutsideAt (withPair 4 q) (qpAsid q.ctx) 0x500 8 .write 0x10500
      ∧ OutsideAt (withPair 4 q) (qpAsid q.ctx) (qpHeadAt q.ctx false) 8 .write 0x10310 := by
  have ha : qpAsid (pairCtx 2) = 1 := by decide +kernel
  have hb : qpBase (pairCtx 2) false + BitVec.ofNat 64 (64 * ((0 : BitVec 32).toNat % 2 ^ qpLog (pairCtx 2) false))
      = BitVec.ofNat 64 0x100 := by decide +kernel
  have hh : qpHeadAt (pairCtx 2) false = BitVec.ofNat 64 0x310 := by decide +kernel
  refine ⟨⟨by decide +kernel, by decide +kernel⟩, rfl, rfl, by decide +kernel, by decide, ?_, by decide +kernel, ?_, ?_⟩
  · show OutsideBytes _ (qpAsid (pairCtx 2)) (qpBase (pairCtx 2) false
      + BitVec.ofNat 64 (64 * ((0 : BitVec 32).toNat % 2 ^ qpLog (pairCtx 2) false))) _
    rw [ha, hb]
    exact (plain_pair 4 _).bytes 0x100 _ (by decide +kernel) (by decide +kernel)
  · show OutsideAt _ (qpAsid (pairCtx 2)) _ _ _ _
    rw [ha]
    exact (plain_pair 4 _).outside 0x500 _ _ (by decide) (by decide) rfl rfl
  · show OutsideAt _ (qpAsid (pairCtx 2)) (qpHeadAt (pairCtx 2) false) _ _ _
    rw [ha, hh]
    exact (plain_pair 4 _).outside 0x310 _ _ (by decide) (by decide) rfl rfl

theorem test_meets_VfReset : ((resident card2 .running).gangs.map Gang.handle).Nodup ∧ (gang7 .running 0).part = 0
    ∧ (gang7 .running 0).failing = false ∧ (gang7 .running 0).part ≠ 1 ∧ (∀ r ∈ (resident card2 .running).underWay, r.part ≠ 0)
    ∧ NoneHeld (resident card2 .running)
    ∧ ∀ t ∈ (resident card2 .running).strands, t.vamo = none ∧ ∀ e ∈ t.viq, e.pos = 0 ∧ e.perf = [] := by
  refine ⟨by decide, rfl, rfl, by decide, fun r h => absurd h List.not_mem_nil, fun c h => absurd h List.not_mem_nil, fun t h => ?_⟩
  rw [List.mem_singleton.1 h]
  exact ⟨rfl, fun e he => absurd he List.not_mem_nil⟩

/-- Below three failed starts, with no stage; a start under way for 2 s; minimal mode that waits for a stage, that starts from eight
written ones or fewer, and that runs. Whether a stage verifies is a matter of the fused digest, which has no value here (log 14). -/
theorem test_meets_Starts :
    let b (minimal starting wait done : Bool) : State := { State.reset with
      tick := 1200000000
      boot := { State.reset.boot with minimal := minimal, starting := starting, waitStage := wait, done := done } }
    let later (n : Nat) : State := { b true true false false with
      boot := { (b true true false false).boot with written := true, window := List.replicate n [] } }
    State.reset.boot.fails ≠ 3 ∧ ([] : List (List Byte)).length ≤ 8 ∧ (∀ st ∈ ([] : List (List Byte)), stageOk st = true)
      ∧ (b false true false false).boot.starting = true ∧ 1200000000 ≤ (b false true false false).tick - (b false true false false).boot.since
      ∧ (b false false false true).boot.starting = false ∧ (b false false false true).boot.minimal = false
      ∧ (b true false true false).boot.minimal = true ∧ (b true false true false).boot.waitStage = true
      ∧ (b true false false true).boot.waitStage = false ∧ (b true false false true).boot.done = true
      ∧ ∀ n, (later n).boot.minimal = true ∧ (later n).boot.waitStage = false ∧ (later n).boot.starting = true
        ∧ (later n).boot.written = true ∧ (later n).boot.window.length = n := by
  refine ⟨by decide, by decide, fun st h => absurd h List.not_mem_nil, rfl, Nat.le_refl _, rfl, rfl, rfl, rfl, rfl, rfl,
    fun n => ⟨rfl, rfl, rfl, rfl, List.length_replicate⟩⟩

theorem test_meets_ThermalTrip : ((resident card2 .running).gangs.map Gang.handle).Nodup
    ∧ (resident card2 .running).halted = false ∧ (gang7 .running 0).holds = true ∧ (gang7 .running 0).failing = false
    ∧ NoneHeld (resident card2 .running) := by
  refine ⟨by decide, rfl, rfl, rfl, fun c h => absurd h List.not_mem_nil⟩

/-- Dies in groups of their own, stacks in band 0, an inlet of 20 °C; an announced allowance whose time has come. -/
theorem test_meets_PowerAndHeatClause :
    let s : State := { State.reset with dies := Vector.ofFn fun i => ⟨i.val, 255, 255⟩ }
    let a : State := { s with announced := [⟨2, 127, 60000⟩], time3 := 60000 }
    a.announced = [⟨2, 127, 60000⟩] ∧ 60000 ≤ a.time3 ∧ s.announced = [] ∧ s.inlet ≤ 55 ∧ (∀ k ∈ s.hbm.toList, k.band.toNat < 2)
      ∧ (∀ i : Fin 4, i ≠ 1 → s.dies[i].group ≠ s.dies[(1 : Fin 4)].group) ∧ s.foreign = [] ∧ s.leaders = []
      ∧ ∀ i : Fin 4, s.leaderOf s.dies[i].group < 4 := by
  refine ⟨rfl, by decide, rfl, by decide, by decide, by decide, rfl, rfl, by decide⟩

/-! ## The words the spec prints for its programs (12_assembly to 17_prog_bitmask, 22_prog_thermal) -/

/-- Whether a head and a tail decode to an instruction. -/
noncomputable def reads (l : List (BitVec 16 × BitVec 64 × Instr)) : Bool :=
  l.all fun p => match decode p.1 p.2.1 with
    | .ok i => i == p.2.2
    | .error _ => false

/-- R306, R307: the image that doubles four values. -/
theorem test_printed_image :
    reads [(0x41C0, 0x4A000000, .vsetvl 9 8), (0xD700, 0x04A00160, .vld ⟨true, 1, 10, .f32, all⟩),
      (0x4FC0, 0x08104000, .vfadd ⟨false, 2, 1, 1, .raw, false, none, all⟩), (0x57C0, 0x08B00000, .vst ⟨false, 2, 11, .raw, all⟩),
      (0x4180, 0x48000000, .sget 9 0), (0x4401, 0x42120000, .sub 8 8 9), (0x46C0, 0x52920002, .lea 10 10 9 2 0),
      (0x46C0, 0x5AD20002, .lea 11 11 9 2 0), (0x4141, 0x40000000, .bnz 8 0 0), (0x0002, 0, .finish)] = true := by
  decide +kernel

/-- Scalar and SOLO instructions of the programs. -/
theorem test_printed_scalar :
    reads [(0x4B81, 0x350E0000, .amoAdd 6 20 7 .rlx true), (0x4BB9, 0x76DE0000, .amoCas 14 27 15 .rlx true),
      (0x4600, 0x6B000201, .bext 13 12 8 1), (0x4B03, 0x6A800008, .ldD 13 10 8), (0x4B43, 0x029C0010, .stD 14 10 16),
      (0x46C0, 0x7AC800C3, .lea 15 11 4 3 24), (0x4180, 0x60000022, .sget 12 0x022), (0x4180, 0x20000010, .sget 4 0x010),
      (0x2241, 0x7001, .trap 14 1), (0x41C2, 0x00000010, .vsettypeImm 0 0x010), (0xBE00, 0x5803, .barInit 11 3),
      (0xBE01, 0xA800, .barArr 21), (0xBE03, 0x5800, .barDrop 11), (0xBE04, 0xA800, .barWait 21),
      (0xFF03, 0x7358F00000000000, .cpyMove ⟨14, 13, 12, 15⟩)] = true := by
  decide +kernel

/-- Vector and tile instructions of the programs. -/
theorem test_printed_vector :
    reads [(0x4F02, 0x08104000, .vmul ⟨false, 2, 1, 1, .raw, false, none, all⟩), (0xD241, 0x11400000, .vbcast true 4 20 .raw all),
      (0xD700, 0x186001A0, .vld ⟨true, 6, 6, .e4m3, all⟩), (0xF880, 0x030000000004A000, .vldc ⟨true, 2, 12, .bf16, all⟩),
      (0xD780, 0x08A040A2, .vldx ⟨true, 2, 10, 1, .i32, 2, all⟩), (0xF8C0, 0x731A000000020000, .vstc ⟨true, 14, 1, 12, 13, false, all⟩),
      (0xFB01, 0xA56C0002180A0000, .vmergeUAdd ⟨true, 20, 5, 1, 21, 3, 22, true, none⟩), (0xD280, 0x64968000, .vmvXs true 25 9 26),
      (0xD2C0, 0x7C020000, .vredAddO ⟨true, 31, 0, 8, .raw, false, none, false, all⟩),
      (0xDAC1, 0x24800000, .vscanAddx ⟨true, 9, 8, .raw, false, none, all⟩), (0xD380, 0x041000A0, .vtag true 1 1 .i32),
      (0xDC00, 0x00000160, .mzero true 0 .f32), (0xDC40, 0x004181A0, .vopa ⟨true, 0, 4, 6, .e4m3, 0, all⟩),
      (0xDD42, 0x00000000, .mcvtBf16F32 ⟨true, 0, 0, .none, false, none⟩),
      (0xFD01, 0x01B00C8000000000, .mst ⟨true, 0, 6, 24, 0, 25, .raw⟩)] = true := by
  decide +kernel

end Sys2Proof.Tests
end

section
/-!
SUPPORT. What a head alone decides (R153, R154), where the tails of a line stand (R143), and the statement about both.
-/

namespace Sys2Proof

/-! ## A head outside the opcode map (R154) -/

/-- R154: ILL_MAJOR. -/
theorem decode_of_major_unassigned {h : BitVec 16} (t : BitVec 64) (hl : layoutOf (Head.of h).major.toNat = none) :
    decode h t = .error .illMajor := by
  simp only [decode, hl]

/-- R154: ILL_MINOR, whatever T the head has. -/
theorem decode_of_minor_unassigned {h : BitVec 16} {lay : Layout} (t : BitVec 64)
    (hl : layoutOf (Head.of h).major.toNat = some lay)
    (hm : minorOk (Head.of h).major.toNat (Head.of h).minor.toNat = false) :
    decode h t = .error .illMinor := by
  simp [decode, hl, hm]

/-- R154: ILL_RSV for a T that is not the layout's. -/
theorem decode_of_tcode_ne {h : BitVec 16} {lay : Layout} (t : BitVec 64)
    (hl : layoutOf (Head.of h).major.toNat = some lay)
    (hm : minorOk (Head.of h).major.toNat (Head.of h).minor.toNat = true) (ht : (Head.of h).t ≠ lay.tcode) :
    decode h t = .error .illRsv := by
  simp [decode, hl, hm, ht]

/-- The row of the opcode map that assigns a major. -/
def opcodeRow (maj : Nat) : Option (List Nat × (Nat → Bool) × Nat) :=
  opcodeMap.find? fun r => r.1.contains maj

/-- The opcode map assigns the majors that have a layout, and its T is that layout's. -/
theorem opcodeRow_tcode (maj : BitVec 7) :
    (opcodeRow maj.toNat).map (·.2.2) = (layoutOf maj.toNat).map fun lay => lay.tcode.toNat := by
  revert maj
  decide

/-- Row by row, the opcode map assigns the MINOR values that the decoder takes for the row's majors. -/
theorem opcodeMap_minor (n : Nat) : ∀ r ∈ opcodeMap, ∀ maj ∈ r.1, r.2.1 n = minorOk maj n := by
  simp only [opcodeMap, List.forall_mem_cons]
  simp [minorOk, minorCount, below, bne, Bool.beq_eq_decide_eq, Bool.and_comm]

theorem layoutOf_of_opcodeRow_none {maj : BitVec 7} (hrow : opcodeRow maj.toNat = none) :
    layoutOf maj.toNat = none := by
  simpa [hrow] using (opcodeRow_tcode maj).symm

/-- A row of the opcode map names the layout's T and the MINOR values that the decoder takes. -/
theorem layoutOf_of_opcodeRow_some {maj : BitVec 7} {r : List Nat × (Nat → Bool) × Nat}
    (hrow : opcodeRow maj.toNat = some r) :
    (∃ lay, layoutOf maj.toNat = some lay ∧ lay.tcode.toNat = r.2.2) ∧ ∀ n, r.2.1 n = minorOk maj.toNat n := by
  have hmaj : maj.toNat ∈ r.1 := by simpa using List.find?_some hrow
  exact ⟨by simpa [hrow] using (opcodeRow_tcode maj).symm,
    fun n => opcodeMap_minor n r (List.mem_of_find?_eq_some hrow) _ hmaj⟩

/-! ## The heads of a line (R143) -/

/-- R142: the T codes' lengths as a table. -/
theorem tailLen_eq_getD (t : BitVec 2) : tailLen t = [0, 2, 4, 8].getD t.toNat 0 := by
  revert t
  decide

@[simp] theorem tailBytes_zero (l : Line) : tailBytes l 0 = 0 := rfl

theorem tailBytes_succ (l : Line) (k : Nat) :
    tailBytes l (k + 1) = tailBytes l k + tailLen ((l.head k).extractLsb' 13 2) := by
  simp [tailBytes, List.range_succ, tailLen_eq_getD]

/-- Head k of a line is no terminator and fits with its tail above the heads before it. -/
def slotFits (l : Line) (k : Nat) : Bool :=
  l.head k != 0 && decide (2 * k + 2 + tailBytes l (k + 1) ≤ 64)

/-- The tail of head k where the lengths of the tails before it place it. -/
def tailAt (l : Line) (k : Nat) : BitVec 64 :=
  (l.extractLsb' (8 * (64 - tailBytes l (k + 1))) (8 * (tailBytes l (k + 1) - tailBytes l k))).setWidth 64

/-- The scan cuts the tail of head k out by its own length, below the tails before it. -/
theorem tailAt_eq (l : Line) (k : Nat) :
    let len := tailLen ((l.head k).extractLsb' 13 2)
    tailAt l k = (l.extractLsb' (8 * (64 - tailBytes l k - len)) (8 * len)).setWidth 64 := by
  have hlen : tailBytes l (k + 1) - tailBytes l k = tailLen ((l.head k).extractLsb' 13 2) := by
    rw [tailBytes_succ, Nat.add_sub_cancel_left]
  simp only [tailAt]
  rw [hlen, tailBytes_succ, Nat.sub_sub]

theorem slot_lt_of_slotFits {l : Line} {k : Nat} (h : slotFits l k = true) : k < 32 := by
  simp only [slotFits, Bool.and_eq_true, decide_eq_true_eq] at h
  omega

/-- Where head k does not fit or is the terminator, the line ends before it. -/
theorem scan_of_not_slotFits {l : Line} {k : Nat} (h : slotFits l k = false) (fuel : Nat) :
    (l.scan fuel k (tailBytes l k)).1 = [] := by
  cases fuel with
  | zero => rfl
  | succ fuel =>
    simp only [Line.scan]
    split
    · rfl
    next hroom =>
      push Not at hroom
      rw [if_pos]
      simp only [slotFits, tailBytes_succ, Bool.and_eq_false_iff, bne_eq_false_iff_eq, decide_eq_false_iff_not] at h
      have := h.resolve_left hroom.2
      omega

/-- Where head k fits, it stands in slot k with its tail, and the heads after it follow. -/
theorem scan_of_slotFits {l : Line} {k : Nat} (h : slotFits l k = true) (fuel : Nat) :
    (l.scan (fuel + 1) k (tailBytes l k)).1
      = (l.head k, tailAt l k) :: (l.scan fuel (k + 1) (tailBytes l (k + 1))).1 := by
  simp only [slotFits, Bool.and_eq_true, bne_iff_ne, decide_eq_true_eq] at h
  obtain ⟨hhead, hroom⟩ := h
  rw [tailBytes_succ] at hroom
  simp only [Line.scan]
  rw [if_neg (not_or.mpr ⟨by omega, hhead⟩), if_neg (by omega), tailAt_eq, tailBytes_succ]

/-- Heads k to k + i fit where head k and the i heads after it fit. -/
theorem all_slotFits_succ (l : Line) (k i : Nat) :
    ((List.range (i + 1)).all fun j => slotFits l (k + j))
      = (slotFits l k && (List.range i).all fun j => slotFits l (k + 1 + j)) := by
  simp only [List.range_succ_eq_map, List.all_cons, List.all_map, Nat.add_zero, Function.comp_def, Nat.succ_eq_add_one,
    Nat.add_assoc, Nat.add_comm 1]

/-- The scan from head k on, with fuel for the rest of the line. -/
theorem scan_getElem? (l : Line) (fuel k i : Nat) (hfuel : 32 ≤ k + fuel) :
    (l.scan fuel k (tailBytes l k)).1[i]?
      = if (List.range (i + 1)).all fun j => slotFits l (k + j) then some (l.head (k + i), tailAt l (k + i)) else none := by
  induction fuel generalizing k i with
  | zero =>
    have hfit : slotFits l k = false := Bool.eq_false_iff.mpr fun h => by have := slot_lt_of_slotFits h; omega
    simp [scan_of_not_slotFits hfit, all_slotFits_succ, hfit]
  | succ fuel ih =>
    cases hfit : slotFits l k with
    | false => simp [scan_of_not_slotFits hfit, all_slotFits_succ, hfit]
    | true =>
      rw [scan_of_slotFits hfit, all_slotFits_succ, hfit, Bool.true_and]
      cases i with
      | zero => rfl
      | succ i =>
        rw [List.getElem?_cons_succ, ih (k + 1) i (by omega), Nat.add_assoc k 1 i, Nat.add_comm 1 i]

end Sys2Proof

open Sys2Proof

/-- Settles O4: a row of the opcode map and the decoder's tables agree on the major, its MINOR values and its T, and the scan of
a line places each tail by the lengths of those before it. -/
theorem unassignedHeads : Obligations.UnassignedHeads := by
  unfold Obligations.UnassignedHeads
  refine ⟨fun h t _ => ?_, fun l k => ?_⟩
  · simp only
    split
    case h_1 hrow => exact decode_of_major_unassigned t (layoutOf_of_opcodeRow_none hrow)
    case h_2 r hrow =>
      obtain ⟨⟨lay, hl, htcode⟩, hminor⟩ := layoutOf_of_opcodeRow_some hrow
      rw [hminor, ← htcode]
      exact ⟨decode_of_minor_unassigned t hl,
        fun hm ht => decode_of_tcode_ne t hl hm fun he => ht (congrArg BitVec.toNat he)⟩
  · have hscan := scan_getElem? l 32 0 k (by decide)
    simp only [Nat.zero_add] at hscan
    exact hscan
end

section
/-!
SUPPORT. What decodes from the heads of one S32 major (R146, R153, R154), and the scalar integer majors by it (R167 to R172).
-/

namespace Sys2Proof

/-! ## The heads of one S32 major -/

/-- A major of class S and layout S32 whose MINOR values run from 0 to `count` - 1 (R146, R153). -/
structure IsS32Major (maj count : Nat) : Prop where
  layout : layoutOf maj = some .s32
  minors : ∀ n, minorOk maj n = decide (n < count)
  scalar : ∀ n, clsOf maj n = .s

/-- R153: the scalar integer majors but those of `li`, `lih` and `lea`. -/
theorem isS32Major_scalarInt {maj : Nat} (hmaj : 0x10 ≤ maj ∧ maj ≤ 0x18) : IsS32Major maj (minorCount maj) := by
  obtain ⟨hlow, hhigh⟩ := hmaj
  interval_cases maj <;> exact ⟨rfl, fun _ => rfl, fun _ => rfl⟩

theorem sHead_eq_bits (maj : BitVec 7) (min : BitVec 6) :
    sHead 2 maj min = Head.bits ⟨false, Layout.s32.tcode, maj, min⟩ := rfl

theorem s32Tail_eq_bits (d a b : SReg) (imm : BitVec 17) : s32Tail d a b imm = S32.bits ⟨d, a, b, imm⟩ := rfl

section
variable {maj : BitVec 7} {count : Nat} (hmaj : IsS32Major maj.toNat count) {min : BitVec 6} {t : BitVec 64}
include hmaj

theorem IsS32Major.decode_ok {i : Instr} (hmin : min.toNat < count) (hb : build maj.toNat false min t = some i)
    (hw : i.wf = true) : decode (sHead 2 maj min) t = .ok i := by
  rw [sHead_eq_bits]
  exact decode_of_fields false .s32 maj min t i hmaj.layout (by simp [hmaj.minors, hmin]) nofun
    (by simp [hmaj.scalar]) hb hw

theorem IsS32Major.decode_illMinor (hmin : count ≤ min.toNat) : decode (sHead 2 maj min) t = .error .illMinor := by
  rw [sHead_eq_bits]
  refine decode_of_minor_unassigned (lay := .s32) t ?_ ?_ <;> rw [Head.of_bits]
  · exact hmaj.layout
  · simpa [hmaj.minors] using hmin

/-- An assigned MINOR with a tail that no instruction, or none that is well formed, has. -/
theorem IsS32Major.decode_illRsv (hmin : min.toNat < count)
    (hb : ∀ i, build maj.toNat false min t = some i → i.wf = false) : decode (sHead 2 maj min) t = .error .illRsv := by
  have hm : minorOk maj.toNat min.toNat = true := by simp [hmaj.minors, hmin]
  rw [sHead_eq_bits, decode]
  simp only [Head.of_bits, hmaj.layout, hm]
  cases hbuild : build maj.toNat false min t with
  | none => simp
  | some i => simp [hb i hbuild]

/-- `Holds` where the major builds the instructions listed, all well formed. -/
theorem IsS32Major.holds {is : List Instr} (hlen : is.length = count)
    (hb : ∀ min, build maj.toNat false min t = is[min.toNat]?) (hw : is.all Instr.wf = true) : Holds maj t is := by
  intro min
  by_cases hmin : min.toNat < count
  · have hget : is[min.toNat]? = some (is[min.toNat]'(by omega)) := List.getElem?_eq_getElem _
    rw [hget]
    exact hmaj.decode_ok hmin ((hb min).trans hget) (List.all_eq_true.mp hw _ (List.getElem_mem _))
  · rw [List.getElem?_eq_none (by omega)]
    exact hmaj.decode_illMinor (by omega)

end

/-- MINOR picks a constructor of a list, and the fields of the tail give it its operands. -/
theorem getElem?_bind_of_eq_some {F : Type} {fs : List F} {k : F → Option Instr} {g : F → Instr}
    (h : ∀ f, k f = some (g f)) (n : Nat) : fs[n]?.bind k = (fs.map g)[n]? := by
  rw [List.getElem?_map, Option.map_eq_bind, funext h]
  rfl

/-- `Holds` for a major whose instructions all have one shape. -/
theorem holds_of_shape {F : Type} {maj : BitVec 7} {d a b : SReg} {imm : BitVec 17} (shape : S32 → F → Option Instr)
    (fs : List F) (g : F → Instr) (hmaj : IsS32Major maj.toNat fs.length)
    (hbuild : ∀ min t, build maj.toNat false min t = fs[min.toNat]?.bind (shape (S32.of t)))
    (hshape : ∀ f, shape ⟨d, a, b, imm⟩ f = some (g f)) (hw : (fs.map g).all Instr.wf = true) :
    Holds maj (s32Tail d a b imm) (fs.map g) := by
  refine hmaj.holds (by simp) (fun min => ?_) hw
  rw [hbuild, s32Tail_eq_bits, S32.of_bits, getElem?_bind_of_eq_some hshape]

/-! ## The shapes of immediate shifts and bit fields (R169, R172) -/

/-- R169: imm17[16:6] is 0 where imm17 is below 64. -/
theorem extractLsb'_six_eq_zero_iff (imm : BitVec 17) : imm.extractLsb' 6 11 = 0 ↔ imm.toNat < 64 := by
  have himm := imm.isLt
  rw [← BitVec.toNat_inj, BitVec.extractLsb'_toNat, Nat.shiftRight_eq_div_pow]
  simp only [BitVec.ofNat_eq_ofNat, BitVec.toNat_ofNat]
  omega

/-- R169: an immediate shift whose count lies in imm17[5:0]. -/
theorem S32.shift_of_lt (d a : SReg) {imm : BitVec 17} (himm : imm.toNat < 64) (f : SReg → SReg → BitVec 6 → Instr) :
    S32.shift ⟨d, a, 0, imm⟩ f = some (f d a (imm.setWidth 6)) := by
  have htop : imm.extractLsb' 6 11 = 0 := by rwa [extractLsb'_six_eq_zero_iff]
  simp [S32.shift, htop, BitVec.setWidth_eq_extractLsb']

/-- R169: a nonzero imm17[16:6]. -/
theorem S32.shift_of_ge (d a : SReg) {imm : BitVec 17} (himm : 64 ≤ imm.toNat) (f : SReg → SReg → BitVec 6 → Instr) :
    S32.shift ⟨d, a, 0, imm⟩ f = none := by
  have htop : ¬ imm.extractLsb' 6 11 = 0 := by rw [extractLsb'_six_eq_zero_iff]; omega
  exact if_neg fun h => htop h.2

/-- R172: the position in imm17[11:6], the width less 1 in imm17[5:0]; the bits above them must be 0. -/
theorem S32.field_of_append (d a : SReg) (top : BitVec 5) (pos wm1 : BitVec 6)
    (f : SReg → SReg → BitVec 6 → BitVec 6 → Instr) :
    S32.field ⟨d, a, 0, top ++ pos ++ wm1⟩ f = if top = 0 then some (f d a pos wm1) else none := by
  have htop : (top ++ pos ++ wm1).extractLsb' 12 5 = top := by
    rw [extract_append_high _ _ _ _ (by decide), extract_append_high _ _ _ _ (by decide)]
    simp
  have hpos : (top ++ pos ++ wm1).extractLsb' 6 6 = pos := by
    rw [extract_append_high _ _ _ _ (by decide), extract_append_low _ _ _ _ (by decide)]
    simp
  have hwidth : (top ++ pos ++ wm1).extractLsb' 0 6 = wm1 := by
    rw [extract_append_low _ _ _ _ (by decide)]
    simp
  simp only [S32.field]
  rw [htop, hpos, hwidth]
  simp

/-! ## The majors 0x10 to 0x18 -/

/-! ### Arithmetic, compares, counts (R167, R168, R170, R171) -/

theorem arithmeticEncodings : ArithmeticEncodings := fun d a b imm =>
  ⟨holds_of_shape S32.r3 [.add, .sub, .mul, .mulh, .mulhN, .div, .divN, .rem, .remN] (fun f => f d a b)
      (isS32Major_scalarInt (by decide)) (fun _ _ => rfl) (fun _ => rfl) rfl,
    holds_of_shape S32.ri [.addImm, .subImm, .mulImm] (fun f => f d a imm)
      (isS32Major_scalarInt (by decide)) (fun _ _ => rfl) (fun _ => rfl) rfl⟩

theorem compareEncodings : CompareEncodings := fun d a b imm =>
  ⟨holds_of_shape S32.r3 [.min, .max, .minN, .maxN] (fun f => f d a b)
      (isS32Major_scalarInt (by decide)) (fun _ _ => rfl) (fun _ => rfl) rfl,
    holds_of_shape S32.r3 [.cmpEq, .cmpNe, .cmpLt, .cmpGe, .cmpLtN, .cmpGeN] (fun f => f d a b)
      (isS32Major_scalarInt (by decide)) (fun _ _ => rfl) (fun _ => rfl) rfl,
    holds_of_shape S32.ri [.cmpEqImm, .cmpNeImm, .cmpLtImm, .cmpGeImm, .cmpLtNImm, .cmpGeNImm] (fun f => f d a imm)
      (isS32Major_scalarInt (by decide)) (fun _ _ => rfl) (fun _ => rfl) rfl,
    holds_of_shape S32.r2 [.clz, .ctz, .pop] (fun f => f d a)
      (isS32Major_scalarInt (by decide)) (fun _ _ => rfl) (fun _ => rfl) rfl⟩

/-! ### Logic and shifts (R169) -/

/-- The immediate forms of major 0x13 with MINOR 0 to 3. -/
def logicImmForms : List (SReg → SReg → BitVec 17 → Instr) :=
  [.andImm, .orImm, .xorImm, .andnImm]

/-- The immediate forms of major 0x13 with MINOR 4 to 7. -/
def shiftImmForms : List (SReg → SReg → BitVec 6 → Instr) :=
  [.shlImm, .shrImm, .sarImm, .rotImm]

theorem isS32Major_logicImm : IsS32Major (0x13 : BitVec 7).toNat 8 :=
  isS32Major_scalarInt (by decide)

section
variable (d a : SReg) (imm : BitVec 17) {min : BitVec 6}

/-- Major 0x13: the first four MINOR values take the whole immediate, the others a count. -/
theorem build_logicImm : build 0x13 false min (s32Tail d a 0 imm)
    = if min.toNat < 4 then (logicImmForms.map fun f => f d a imm)[min.toNat]?
      else shiftImmForms[min.toNat - 4]?.bind (S32.shift ⟨d, a, 0, imm⟩) := by
  have hb : ∀ t, build 0x13 false min t = if min.toNat < 4 then logicImmForms[min.toNat]?.bind (S32.of t).ri
    else shiftImmForms[min.toNat - 4]?.bind (S32.of t).shift := fun _ => rfl
  have hri : ∀ f, S32.ri ⟨d, a, 0, imm⟩ f = some (f d a imm) := fun _ => rfl
  rw [hb, s32Tail_eq_bits, S32.of_bits, getElem?_bind_of_eq_some hri]

theorem holds_logicImm (himm : imm.toNat < 64) : Holds 0x13 (s32Tail d a 0 imm)
    ((logicImmForms.map fun f => f d a imm) ++ shiftImmForms.map fun f => f d a (imm.setWidth 6)) := by
  refine isS32Major_logicImm.holds rfl (fun min => ?_) rfl
  rw [List.getElem?_append, ← getElem?_bind_of_eq_some (S32.shift_of_lt d a himm)]
  exact build_logicImm d a imm

theorem decode_logicImm_of_ge (himm : 64 ≤ imm.toNat) (min : BitVec 6) :
    decode (sHead 2 0x13 min) (s32Tail d a 0 imm)
      = if min.toNat < 4 then .ok ((logicImmForms.map fun f => f d a imm).getD min.toNat .nop)
        else if min.toNat < 8 then .error .illRsv else .error .illMinor := by
  have hb := build_logicImm d a imm (min := min)
  split
  next hlogic =>
    rw [if_pos hlogic, List.getElem?_eq_getElem (by simpa [logicImmForms] using hlogic)] at hb
    rw [List.getD_eq_getElem?_getD, List.getElem?_eq_getElem (by simpa [logicImmForms] using hlogic)]
    have hw : (logicImmForms.map fun f => f d a imm).all Instr.wf = true := rfl
    exact isS32Major_logicImm.decode_ok (by omega) hb (List.all_eq_true.mp hw _ (List.getElem_mem _))
  next hshift =>
    rw [if_neg hshift, funext (S32.shift_of_ge d a himm), Option.bind_fun_none] at hb
    split
    next hmin => exact isS32Major_logicImm.decode_illRsv hmin fun i hi => nomatch hb.symm.trans hi
    next hmin => exact isS32Major_logicImm.decode_illMinor (by omega)

end

theorem logicEncodings : LogicEncodings := fun d a b imm =>
  ⟨holds_of_shape S32.r3 [.and, .or, .xor, .andn, .shl, .shr, .sar, .rot] (fun f => f d a b)
      (isS32Major_scalarInt (by decide)) (fun _ _ => rfl) (fun _ => rfl) rfl,
    holds_logicImm d a imm, decode_logicImm_of_ge d a imm⟩

/-! ### Bit fields (R172) -/

theorem isS32Major_field : IsS32Major (0x18 : BitVec 7).toNat 2 :=
  isS32Major_scalarInt (by decide)

/-- The two instructions of major 0x18. -/
def fieldForms (d a : SReg) (pos wm1 : BitVec 6) : List Instr :=
  [.bext d a pos wm1, .bins d a pos wm1]

theorem wf_of_mem_fieldForms {d a : SReg} {pos wm1 : BitVec 6} {i : Instr} (hi : i ∈ fieldForms d a pos wm1) :
    i.wf = fieldFits pos wm1 := by
  obtain rfl | rfl := List.mem_pair.mp hi <;> rfl

theorem build_field (d a : SReg) (top : BitVec 5) (pos wm1 min : BitVec 6) :
    build 0x18 false min (s32Tail d a 0 (top ++ pos ++ wm1))
      = if top = 0 then (fieldForms d a pos wm1)[min.toNat]? else none := by
  have hb : ∀ t, build 0x18 false min t = [Instr.bext, .bins][min.toNat]?.bind (S32.of t).field := fun _ => rfl
  rw [hb, s32Tail_eq_bits, S32.of_bits, funext (S32.field_of_append d a top pos wm1)]
  split
  · exact getElem?_bind_of_eq_some (fun _ => rfl) _
  · exact Option.bind_fun_none _

theorem fieldEncodings : FieldEncodings := by
  intro d a top pos wm1
  refine ⟨fun htop hfit => ?_, fun hbad min hmin => ?_⟩
  · have hfits : fieldFits pos wm1 = true := decide_eq_true (by omega)
    exact isS32Major_field.holds (is := fieldForms d a pos wm1) rfl
      (fun min => (build_field d a top pos wm1 min).trans (if_pos htop))
      (List.all_eq_true.mpr fun i hi => (wf_of_mem_fieldForms hi).trans hfits)
  · refine isS32Major_field.decode_illRsv hmin fun i hi => ?_
    have hb := (build_field d a top pos wm1 min).symm.trans hi
    split at hb
    next htop =>
      have hout := hbad.resolve_left (· htop)
      have hfits : fieldFits pos wm1 = false := decide_eq_false (by omega)
      exact (wf_of_mem_fieldForms (List.mem_of_getElem? hb)).trans hfits
    next => exact nomatch hb

end Sys2Proof
end

section
/-!
SUPPORT. What the scalar integer operations compute (R166 to R173).
-/

namespace Sys2Proof.Machine

/-! ## Sums and products (R166, R167) -/

/-- R166: an imm17 field stands for its signed value. -/
@[simp] theorem toInt_imm64 (imm : BitVec 17) : (imm64 imm).toInt = imm.toInt :=
  BitVec.toInt_signExtend_of_le (by decide)

theorem add_eq_ofInt (a b : Word) : a + b = BitVec.ofInt 64 (a.toInt + b.toInt) := by
  simp [BitVec.ofInt_add]

theorem sub_eq_ofInt (a b : Word) : a - b = BitVec.ofInt 64 (a.toInt - b.toInt) := by
  simp [Int.sub_eq_add_neg, BitVec.ofInt_add, BitVec.ofInt_neg, BitVec.sub_eq_add_neg]

theorem mul_eq_ofInt (a b : Word) : a * b = BitVec.ofInt 64 (a.toInt * b.toInt) := by
  simp [BitVec.ofInt_mul]

theorem mulHigh_eq_ofInt (a b : Word) : mulHigh a b = BitVec.ofInt 64 (a.toInt * b.toInt / 2 ^ 64) := by
  have hwide : a.signExtend 128 * b.signExtend 128 = BitVec.ofInt 128 (a.toInt * b.toInt) := (BitVec.ofInt_mul ..).symm
  apply BitVec.eq_of_toNat_eq
  rw [mulHigh, hwide]
  generalize a.toInt * b.toInt = p
  simp only [BitVec.toNat_setWidth, BitVec.toNat_ushiftRight, BitVec.toNat_ofInt, Nat.shiftRight_eq_div_pow]
  omega

theorem mulHighN_eq_ofNat (a b : Word) : mulHighN a b = BitVec.ofNat 64 (a.toNat * b.toNat / 2 ^ 64) := by
  have hwide : a.setWidth 128 * b.setWidth 128 = BitVec.ofNat 128 (a.toNat * b.toNat) := by
    rw [BitVec.ofNat_mul, BitVec.ofNat_toNat, BitVec.ofNat_toNat]
  apply BitVec.eq_of_toNat_eq
  rw [mulHighN, hwide]
  generalize a.toNat * b.toNat = p
  simp only [BitVec.toNat_setWidth, BitVec.toNat_ushiftRight, BitVec.toNat_ofNat, Nat.shiftRight_eq_div_pow]
  omega

/-! ## Quotients and remainders (R168) -/

theorem sdiv_eq_ofInt (a b : Word) : a.sdiv b = BitVec.ofInt 64 (a.toInt.tdiv b.toInt) :=
  BitVec.eq_of_toInt_eq (by rw [BitVec.toInt_sdiv, BitVec.toInt_ofInt])

theorem srem_eq_ofInt (a b : Word) : a.srem b = BitVec.ofInt 64 (a.toInt.tmod b.toInt) := by
  rw [← BitVec.toInt_srem, BitVec.ofInt_toInt]

theorem udiv_eq_ofNat (a b : Word) : a / b = BitVec.ofNat 64 (a.toNat / b.toNat) := by
  rw [← BitVec.toNat_udiv, BitVec.ofNat_toNat, BitVec.setWidth_eq]

theorem umod_eq_ofNat (a b : Word) : a % b = BitVec.ofNat 64 (a.toNat % b.toNat) := by
  rw [← BitVec.toNat_umod, BitVec.ofNat_toNat, BitVec.setWidth_eq]

/-! ## Minima, maxima, compares (R170) -/

theorem ite_slt_eq_min (a b : Word) : (if a.slt b then a else b) = BitVec.ofInt 64 (min a.toInt b.toInt) := by
  simp [BitVec.slt_iff_toInt_lt, min_def_lt, apply_ite (BitVec.ofInt 64)]

theorem ite_slt_eq_max (a b : Word) : (if a.slt b then b else a) = BitVec.ofInt 64 (max a.toInt b.toInt) := by
  simp [BitVec.slt_iff_toInt_lt, max_def_lt, apply_ite (BitVec.ofInt 64)]

theorem ite_lt_eq_min (a b : Word) : (if a < b then a else b) = BitVec.ofNat 64 (min a.toNat b.toNat) := by
  simp [BitVec.lt_def, min_def_lt, apply_ite (BitVec.ofNat 64)]

theorem ite_lt_eq_max (a b : Word) : (if a < b then b else a) = BitVec.ofNat 64 (max a.toNat b.toNat) := by
  simp [BitVec.lt_def, max_def_lt, apply_ite (BitVec.ofNat 64)]

/-- A compare writes 1 where its relation holds and 0 where not. -/
theorem boolWord_eq_ite {c : Bool} {p : Prop} [Decidable p] (h : c = true ↔ p) : boolWord c = if p then 1 else 0 := by
  simp [boolWord, h]

theorem boolWord_not_eq_ite {c : Bool} {p : Prop} [Decidable p] (h : c = true ↔ p) :
    boolWord (!c) = if p then 0 else 1 := by
  cases c <;> simp [boolWord, ← h]

theorem beq_iff_toNat_eq (a b : Word) : (a == b) = true ↔ a.toNat = b.toNat := by
  rw [beq_iff_eq, BitVec.toNat_inj]

theorem not_slt_iff_toInt_le (a b : Word) : (!a.slt b) = true ↔ b.toInt ≤ a.toInt := by
  rw [← BitVec.sle_eq_not_slt, BitVec.sle_iff_toInt_le]

theorem not_ult_iff_toNat_le (a b : Word) : (!a.ult b) = true ↔ b.toNat ≤ a.toNat := by
  rw [← BitVec.ule_eq_not_ult, BitVec.ule_iff_toNat_le]

theorem beq_imm64_iff (a : Word) (imm : BitVec 17) : (a == imm64 imm) = true ↔ a.toInt = imm.toInt := by
  rw [beq_iff_eq, ← BitVec.toInt_inj, toInt_imm64]

/-! ## Logic, shifts, rotates (R169) -/

/-- The results of the eight operations of R169, in the order of their MINOR values. -/
def logicWords (a b : Word) (n : Nat) : List Word :=
  [a &&& b, a ||| b, a ^^^ b, a &&& ~~~b, a <<< n, a >>> n, a.sshiftRight n, a.rotateLeft n]

theorem getLsbD_sshiftRight_min (a : Word) (n : Nat) {i : Nat} (hi : i < 64) :
    (a.sshiftRight n).getLsbD i = a.getLsbD (min (i + n) 63) := by
  rw [BitVec.getLsbD_sshiftRight, decide_eq_false (by omega), Nat.add_comm n i]
  split
  next h => rw [min_eq_left (by omega)]; rfl
  next h => rw [min_eq_right (by omega)]; rfl

theorem getLsbD_rotateLeft_mod (a : Word) {n i : Nat} (hn : n < 64) (hi : i < 64) :
    (a.rotateLeft n).getLsbD i = a.getLsbD ((i + 64 - n) % 64) := by
  rw [BitVec.getLsbD_rotateLeft, Nat.mod_eq_of_lt hn]
  by_cases h : i < n
  · rw [decide_eq_true h, cond_true, Nat.mod_eq_of_lt (by omega)]
    congr 1
    omega
  · rw [decide_eq_false h, cond_false, decide_eq_true hi, Bool.true_and, Nat.sub_add_comm (by omega), Nat.add_mod_right,
      Nat.mod_eq_of_lt (by omega)]

/-- Each bit of a result is the one R169 gives. -/
theorem logicWords_getLsbD (a b : Word) {n k i : Nat} (hn : n < 64) (hk : k < 8) (hi : i < 64) :
    ((logicWords a b n).getD k 0).getLsbD i = (logicBits a b n).getD k (fun _ => false) i := by
  match k, hk with
  | 0, _ => exact BitVec.getLsbD_and
  | 1, _ => exact BitVec.getLsbD_or
  | 2, _ => exact BitVec.getLsbD_xor
  | 3, _ => simp [logicWords, logicBits, hi]
  | 4, _ =>
    refine (BitVec.getLsbD_shiftLeft a n).trans ?_
    rw [decide_eq_true hi, Bool.true_and, ← decide_not, decide_eq_decide.mpr Nat.not_lt]
    rfl
  | 5, _ => exact (BitVec.getLsbD_ushiftRight ..).trans (by rw [Nat.add_comm]; rfl)
  | 6, _ => exact getLsbD_sshiftRight_min a n hi
  | 7, _ => exact getLsbD_rotateLeft_mod a hn hi

/-! ## Bit counts (R171) -/

theorem leadingCount_eq_findIdx (l : List Bool) : leadingCount (fun b => !b) l = l.findIdx id := by
  simp only [leadingCount, List.takeWhile_eq_take_findIdx_not, List.length_take, Bool.not_not,
    min_eq_left List.findIdx_le_length]
  rfl

theorem leadingCount_of_not_mem {l : List Bool} (h : true ∉ l) : leadingCount (fun b => !b) l = l.length := by
  rw [leadingCount_eq_findIdx, List.findIdx_eq_length]
  exact fun x hx => Bool.eq_false_iff.mpr fun hx' => h (hx' ▸ hx)

theorem getElem?_leadingCount {l : List Bool} (h : true ∈ l) : l[leadingCount (fun b => !b) l]? = some true := by
  have hlt : l.findIdx id < l.length := List.findIdx_lt_length.mpr ⟨true, h, rfl⟩
  rw [leadingCount_eq_findIdx, List.getElem?_eq_getElem hlt]
  exact congrArg some (List.findIdx_getElem (p := id))

theorem getElem?_of_lt_leadingCount {l : List Bool} {i : Nat} (h : i < leadingCount (fun b => !b) l) :
    l[i]? = some false := by
  rw [leadingCount_eq_findIdx] at h
  rw [List.getElem?_eq_getElem (h.trans_le List.findIdx_le_length)]
  exact congrArg some (List.not_of_lt_findIdx h)

@[simp] theorem length_bitsUp (a : Word) : (bitsUp a).length = 64 := by
  simp [bitsUp]

theorem getElem?_bitsUp_eq_some {a : Word} {i : Nat} {b : Bool} : (bitsUp a)[i]? = some b ↔ i < 64 ∧ a.getLsbD i = b := by
  by_cases hi : i < 64 <;> simp [bitsUp, bitAt, hi]

theorem getElem?_reverse_bitsUp_eq_some {a : Word} {i : Nat} {b : Bool} :
    (bitsUp a).reverse[i]? = some b ↔ i < 64 ∧ a.getLsbD (63 - i) = b := by
  by_cases hi : i < 64
  · rw [List.getElem?_reverse (by simpa using hi), length_bitsUp, getElem?_bitsUp_eq_some]
    simp [hi, show 63 - i < 64 by omega]
  · simp [hi]

theorem true_mem_bitsUp {a : Word} : true ∈ bitsUp a ↔ a ≠ 0 := by
  rw [List.mem_iff_getElem?]
  constructor
  · rintro ⟨i, hi⟩ rfl
    simpa using (getElem?_bitsUp_eq_some.mp hi).2
  · intro ha
    by_contra hno
    refine ha (BitVec.eq_of_getLsbD_eq fun i hi => ?_)
    refine (Bool.eq_false_iff.mpr fun hbit => ?_).trans BitVec.getLsbD_zero.symm
    exact hno ⟨i, getElem?_bitsUp_eq_some.mpr ⟨hi, hbit⟩⟩

theorem ctzOf_zero : ctzOf 0 = 64 :=
  (leadingCount_of_not_mem (by simp [true_mem_bitsUp])).trans (length_bitsUp 0)

theorem ctzOf_of_ne_zero {a : Word} (ha : a ≠ 0) :
    a.getLsbD (ctzOf a) = true ∧ ∀ i < ctzOf a, a.getLsbD i = false :=
  ⟨(getElem?_bitsUp_eq_some.mp (getElem?_leadingCount (true_mem_bitsUp.mpr ha))).2,
    fun _ hi => (getElem?_bitsUp_eq_some.mp (getElem?_of_lt_leadingCount hi)).2⟩

theorem clzOf_zero : clzOf 0 = 64 :=
  (leadingCount_of_not_mem (by simp [true_mem_bitsUp])).trans (by simp)

theorem clzOf_of_ne_zero {a : Word} (ha : a ≠ 0) :
    2 ^ (63 - clzOf a) ≤ a.toNat ∧ a.toNat < 2 ^ (64 - clzOf a) ∧ clzOf a < 64 := by
  obtain ⟨hlt, htop⟩ := getElem?_reverse_bitsUp_eq_some.mp
    (getElem?_leadingCount (List.mem_reverse.mpr (true_mem_bitsUp.mpr ha)))
  have habove : ∀ i ≥ 64 - clzOf a, a.toNat.testBit i = false := fun i hi => by
    rw [BitVec.testBit_toNat]
    by_cases hi64 : i < 64
    · have hbit := getElem?_reverse_bitsUp_eq_some.mp
        (getElem?_of_lt_leadingCount (show 63 - i < clzOf a by omega))
      rw [show i = 63 - (63 - i) by omega]
      exact hbit.2
    · exact BitVec.getLsbD_of_ge a i (by omega)
  exact ⟨Nat.ge_two_pow_of_testBit ((BitVec.testBit_toNat a).trans htop), Nat.lt_pow_two_of_testBit _ habove, hlt⟩

theorem popOf_eq_countP (a : Word) : popOf a = (List.range 64).countP fun i => a.getLsbD i := by
  rw [popOf, bitsUp, ← List.countP_eq_length_filter, List.countP_map]
  rfl

/-! ## Bit fields (R172) -/

theorem getLsbD_onesMask {w : Nat} (hw : w ≤ 64) (i : Nat) : (onesMask w).getLsbD i = decide (i < w) := by
  rw [onesMask, BitVec.getLsbD_ushiftRight, BitVec.getLsbD_allOnes]
  exact decide_eq_decide.mpr (by omega)

theorem getLsbD_bextOf (a : Word) {p w : Nat} (hw : w ≤ 64) (i : Nat) :
    (bextOf a p w).getLsbD i = (decide (i < w) && a.getLsbD (p + i)) := by
  rw [bextOf, BitVec.getLsbD_and, getLsbD_onesMask hw, BitVec.getLsbD_ushiftRight, Bool.and_comm]

theorem getLsbD_binsOf (d a : Word) {p w i : Nat} (hw : w ≤ 64) (hi : i < 64) :
    (binsOf d a p w).getLsbD i = if p ≤ i ∧ i < p + w then a.getLsbD (i - p) else d.getLsbD i := by
  simp only [binsOf, BitVec.getLsbD_or, BitVec.getLsbD_and, BitVec.getLsbD_not, BitVec.getLsbD_shiftLeft,
    getLsbD_onesMask hw, hi, decide_true, Bool.true_and]
  by_cases hlow : i < p
  · simp [hlow]
  · by_cases hhigh : i < p + w
    · simp [hlow, hhigh, show i - p < w by omega, show p ≤ i by omega]
    · simp [hlow, hhigh, show ¬ i - p < w by omega]

/-! ## Constants and addresses (R173) -/

theorem append_eq_ofNat (hi : BitVec 5) (a : Word) :
    hi ++ a.extractLsb' 0 59 = BitVec.ofNat 64 (hi.toNat * 2 ^ 59 + a.toNat % 2 ^ 59) := by
  apply BitVec.eq_of_toNat_eq
  rw [BitVec.toNat_append, ← Nat.shiftLeft_add_eq_or_of_lt (BitVec.isLt _), Nat.shiftLeft_eq, BitVec.extractLsb'_toNat,
    Nat.shiftRight_zero, BitVec.toNat_ofNat]
  omega

theorem shiftLeft_eq_ofInt (a : Word) (n : Nat) : a <<< n = BitVec.ofInt 64 (a.toInt * 2 ^ n) := by
  have hpow : BitVec.ofInt 64 (2 ^ n) = BitVec.twoPow 64 n := by
    have hnat : BitVec.ofInt 64 (2 ^ n) = BitVec.ofNat 64 (2 ^ n) := by
      rw [← BitVec.ofInt_natCast, Nat.cast_pow, Nat.cast_ofNat]
    rw [hnat]
    exact BitVec.eq_of_toNat_eq (by rw [BitVec.toNat_ofNat, BitVec.toNat_twoPow])
  rw [BitVec.ofInt_mul, BitVec.ofInt_toInt, hpow, BitVec.shiftLeft_eq_mul_twoPow]

theorem lea_eq_ofInt (a b : Word) (sh : BitVec 3) (d : BitVec 14) : a + (b <<< sh.toNat) + d.signExtend 64
    = BitVec.ofInt 64 (a.toInt + b.toInt * 2 ^ sh.toNat + d.toInt) := by
  rw [BitVec.ofInt_add, BitVec.ofInt_add, BitVec.ofInt_toInt, ← shiftLeft_eq_ofInt]
  rfl

end Sys2Proof.Machine
end

section
/-!
SUPPORT. What the scalar integer instructions leave (R167 to R173), and the statements of 07_scalar about them.
-/

namespace Sys2Proof

open Machine

/-! ## One result -/

theorem scalarTo_ready {sd : SReg} {srcs : List SReg} {s : State} {t : Strand} (h : Ready s t (sd :: srcs))
    (f : Strand → Word) : s.scalarTo sd srcs f = .next (s.put (t.setS sd (f t)).advance) :=
  State.scalar_ready h _

/-- An instruction with one result, whose value the statement gives in another form. -/
theorem computes_of_scalarTo {i : Instr} {sd : SReg} {srcs : List SReg} {f g : Strand → Word}
    (hexec : ∀ s, exec i s = s.scalarTo sd srcs f) (hval : ∀ t, f t = g t) : Computes i sd srcs g := by
  intro s t h
  rw [hexec, scalarTo_ready h, hval]

theorem addSubMulResults : AddSubMulResults := fun sd sa sb imm =>
  ⟨computes_of_scalarTo (fun _ => rfl) fun _ => add_eq_ofInt _ _,
    computes_of_scalarTo (fun _ => rfl) fun _ => sub_eq_ofInt _ _,
    computes_of_scalarTo (fun _ => rfl) fun _ => mul_eq_ofInt _ _,
    computes_of_scalarTo (fun _ => rfl) fun _ => mulHigh_eq_ofInt _ _,
    computes_of_scalarTo (fun _ => rfl) fun _ => mulHighN_eq_ofNat _ _,
    computes_of_scalarTo (fun _ => rfl) fun _ => by rw [add_eq_ofInt, toInt_imm64],
    computes_of_scalarTo (fun _ => rfl) fun _ => by rw [sub_eq_ofInt, toInt_imm64],
    computes_of_scalarTo (fun _ => rfl) fun _ => by rw [mul_eq_ofInt, toInt_imm64]⟩

theorem divisionResults : DivisionResults := fun sd sa sb =>
  ⟨computes_of_scalarTo (fun _ => rfl) fun _ => by rw [divS, sdiv_eq_ofInt],
    computes_of_scalarTo (fun _ => rfl) fun _ => by rw [remS, srem_eq_ofInt],
    computes_of_scalarTo (fun _ => rfl) fun _ => by rw [divU, udiv_eq_ofNat],
    computes_of_scalarTo (fun _ => rfl) fun _ => by rw [remU, umod_eq_ofNat]⟩

theorem minMaxCompareResults : MinMaxCompareResults := fun sd sa sb imm =>
  ⟨computes_of_scalarTo (fun _ => rfl) fun _ => ite_slt_eq_min _ _,
    computes_of_scalarTo (fun _ => rfl) fun _ => ite_slt_eq_max _ _,
    computes_of_scalarTo (fun _ => rfl) fun _ => ite_lt_eq_min _ _,
    computes_of_scalarTo (fun _ => rfl) fun _ => ite_lt_eq_max _ _,
    computes_of_scalarTo (fun _ => rfl) fun _ => boolWord_eq_ite (beq_iff_toNat_eq _ _),
    computes_of_scalarTo (fun _ => rfl) fun _ => boolWord_not_eq_ite (beq_iff_toNat_eq _ _),
    computes_of_scalarTo (fun _ => rfl) fun _ => boolWord_eq_ite BitVec.slt_iff_toInt_lt,
    computes_of_scalarTo (fun _ => rfl) fun _ => boolWord_eq_ite (not_slt_iff_toInt_le _ _),
    computes_of_scalarTo (fun _ => rfl) fun _ => boolWord_eq_ite BitVec.ult_iff_toNat_lt,
    computes_of_scalarTo (fun _ => rfl) fun _ => boolWord_eq_ite (not_ult_iff_toNat_le _ _),
    computes_of_scalarTo (fun _ => rfl) fun _ => boolWord_eq_ite (beq_imm64_iff _ _),
    computes_of_scalarTo (fun _ => rfl) fun _ => boolWord_not_eq_ite (beq_imm64_iff _ _),
    computes_of_scalarTo (fun _ => rfl) fun _ => boolWord_eq_ite (by rw [BitVec.slt_iff_toInt_lt, toInt_imm64]),
    computes_of_scalarTo (fun _ => rfl) fun _ => boolWord_eq_ite (by rw [not_slt_iff_toInt_le, toInt_imm64]),
    computes_of_scalarTo (fun _ => rfl) fun _ => boolWord_eq_ite BitVec.ult_iff_toNat_lt,
    computes_of_scalarTo (fun _ => rfl) fun _ => boolWord_eq_ite (not_ult_iff_toNat_le _ _)⟩

theorem constantAddressResults : ConstantAddressResults := fun _ _ _ _ _ _ _ =>
  ⟨computes_of_scalarTo (fun _ => rfl) fun _ => rfl,
    computes_of_scalarTo (fun _ => rfl) fun _ => append_eq_ofNat _ _,
    computes_of_scalarTo (fun _ => rfl) fun _ => lea_eq_ofInt _ _ _ _⟩

/-! ## Results stated bit by bit -/

theorem logicShiftResults : LogicShiftResults := by
  intro sd sa sb imm cnt s t k hk
  refine ⟨fun h => ⟨(logicWords (t.getS sa) (t.getS sb) (count6 (t.getS sb))).getD k 0, ?_,
      fun i hi => logicWords_getLsbD _ _ (Nat.mod_lt _ (by decide)) hk hi⟩,
    fun h => ⟨(logicWords (t.getS sa) (imm64 imm) cnt.toNat).getD k 0, ?_,
      fun i hi => logicWords_getLsbD _ _ cnt.isLt hk hi⟩⟩
  · interval_cases k <;> exact scalarTo_ready h _
  · interval_cases k <;> exact scalarTo_ready h _

theorem bitCountResults : BitCountResults := by
  intro sd sa s t h
  refine ⟨⟨clzOf (t.getS sa), scalarTo_ready h _, fun hzero => ?_, clzOf_of_ne_zero⟩,
    ⟨ctzOf (t.getS sa), scalarTo_ready h _, fun hzero => ?_, ctzOf_of_ne_zero⟩, ?_⟩
  · rw [hzero, clzOf_zero]
  · rw [hzero, ctzOf_zero]
  · rw [← popOf_eq_countP]
    exact scalarTo_ready h _

theorem bitFieldResults : BitFieldResults := by
  intro sd sa pos wm1 s t h hfit
  refine ⟨⟨bextOf (t.getS sa) pos.toNat (wm1.toNat + 1), scalarTo_ready h _, fun i _ => ?_⟩,
    ⟨binsOf (t.getS sd) (t.getS sa) pos.toNat (wm1.toNat + 1), scalarTo_ready h _, fun i hi => ?_⟩⟩
  · rw [getLsbD_bextOf _ (by omega), decide_eq_decide.mpr Nat.lt_succ_iff]
  · rw [getLsbD_binsOf _ _ (by omega) hi]
    exact if_congr (and_congr_right' Nat.lt_succ_iff) rfl rfl

end Sys2Proof

open Sys2Proof

/-- Settles O10: MINOR picks the operation of a major in order, and each operation's word is the integer R167 and R168 give,
modulo 2^64. -/
theorem scalarArithmetic : Obligations.ScalarArithmetic :=
  ⟨arithmeticEncodings, addSubMulResults, divisionResults⟩

/-- Settles O11: only the shapes of the immediate shifts refuse an immediate of 64 or more, and each bit of a result is a bit of
the operands. -/
theorem logicAndShifts : Obligations.LogicAndShifts :=
  ⟨logicEncodings, logicShiftResults⟩

/-- Settles O12: words compare as their signed or unsigned values do, and a count is the place of the first set bit from its
end. -/
theorem minMaxComparesCounts : Obligations.MinMaxComparesCounts :=
  ⟨compareEncodings, minMaxCompareResults, bitCountResults⟩

/-- Settles O13: a field that leaves the register is not well formed, and one within it is cut out by a mask of ones at its
position. -/
theorem fieldsConstantsAddresses : Obligations.FieldsConstantsAddresses :=
  ⟨fieldEncodings, bitFieldResults, constantAddressResults⟩

end

section
/-!
SUPPORT. What decodes as `tok.poll`, what it writes, and the statement about both (R281).
-/

namespace Sys2Proof

open Machine

/-! ## The heads of major 0x7D -/

theorem isS32Major_tokPoll : IsS32Major (0x7D : BitVec 7).toNat 1 :=
  ⟨rfl, fun _ => rfl, fun _ => rfl⟩

section
variable (sd sa b : SReg) (imm : BitVec 17)

theorem build_tokPoll (min : BitVec 6) :
    build 0x7D false min (s32Tail sd sa b imm) = if b = 0 ∧ imm = 0 then some (.tokPoll sd sa) else none := by
  have hb : ∀ t, build 0x7D false min t = (S32.of t).r2 .tokPoll := fun _ => rfl
  rw [hb, s32Tail_eq_bits, S32.of_bits, S32.r2]

theorem wf_tokPoll : (Instr.tokPoll sd sa).wf = true ↔ sd ≠ sa :=
  bne_iff_ne

theorem decode_tokPoll : decode 0x5F40 (s32Tail sd sa b imm)
    = if sd ≠ sa ∧ b = 0 ∧ imm = 0 then .ok (.tokPoll sd sa) else .error .illRsv := by
  have hhead : (0x5F40 : BitVec 16) = sHead 2 0x7D 0 := rfl
  have hbuild := build_tokPoll sd sa b imm 0
  rw [hhead]
  split
  next hok =>
    obtain ⟨hregs, hzero⟩ := hok
    exact isS32Major_tokPoll.decode_ok (by decide) (hbuild.trans (if_pos hzero)) ((wf_tokPoll sd sa).mpr hregs)
  next hbad =>
    refine isS32Major_tokPoll.decode_illRsv (by decide) fun i hi => ?_
    obtain ⟨hzero, hi⟩ := Option.ite_none_right_eq_some.mp (hbuild.symm.trans hi)
    obtain rfl := Option.some.inj hi
    exact Bool.eq_false_iff.mpr fun hw => hbad ⟨(wf_tokPoll sd sa).mp hw, hzero⟩

end

/-! ## The word it writes -/

theorem isPending_iff (t : Strand) (r : SReg) : t.isPending r = true ↔ r ≠ 0 ∧ t.tokp.getLsbD r.toNat = true := by
  rw [Strand.isPending, Bool.and_eq_true, bne_iff_ne, bitAt]

/-- R281: sA is no register that `tok.poll` waits for. -/
theorem computes_tokPoll (sd sa : SReg) :
    Computes (.tokPoll sd sa) sd [] fun t => if sa ≠ 0 ∧ t.tokp.getLsbD sa.toNat = true then 1 else 0 :=
  computes_of_scalarTo (fun _ => rfl) fun t => if_congr (isPending_iff t sa) rfl rfl

end Sys2Proof

open Sys2Proof

/-- Settles O27: only the fields of S32 with sB and imm17 zero build a `tok.poll`, only two different registers make it well
formed, and it writes whether sA is pending. -/
theorem tokenPoll : Obligations.TokenPoll := fun sd sa b imm =>
  ⟨decode_tokPoll sd sa b imm, fun _ => computes_tokPoll sd sa⟩

end

section
/-!
SUPPORT. What each shape of the encoder builds, and that an instruction's word decodes to it (R141, R146, R153).
-/

namespace Sys2Proof

/-! ## A head from the opcode map -/

/-- A major and MINOR that the opcode map assigns, with the layout of its tail and its class (R153). -/
structure Assigned (maj : BitVec 7) (min : BitVec 6) (lay : Layout) (cls : Cls) : Prop where
  layout : layoutOf maj.toNat = some lay
  minor : minorOk maj.toNat min.toNat = true
  cls : clsOf maj.toNat min.toNat = cls

section
variable {maj : BitVec 7} {min : BitVec 6} {lay : Layout} {cls : Cls} {c : Bool} {t : BitVec 64} {i : Instr} {e : Enc}

/-- A head of class S decodes to what its tail builds. -/
theorem decode_encS (h : encS lay maj min t = some e) (ha : Assigned maj min lay .s)
    (hb : build maj.toNat false min t = some i) (hw : i.wf = true) : decode e.head e.tail = .ok i := by
  obtain rfl := Option.some.inj h
  exact decode_of_fields false lay maj min t i ha.layout ha.minor nofun (by simp [ha.cls]) hb hw

/-- A head of the vector queue decodes to what its tail builds, whatever its C bit. -/
theorem decode_encV (h : encV c lay maj min t = some e) (ha : Assigned maj min lay cls) (hq : cls ≠ .s ∧ cls ≠ .solo)
    (hb : build maj.toNat c min t = some i) (hw : i.wf = true) : decode e.head e.tail = .ok i := by
  obtain rfl := Option.some.inj h
  obtain ⟨hs, hsolo⟩ := hq
  refine decode_of_fields c lay maj min t i ha.layout ha.minor (fun _ => ?_) (fun hc => ?_) hb hw
  · rwa [ha.cls]
  · exact absurd (ha.cls.symm.trans hc) hsolo

/-- A head that forms a convoy alone has its C bit set. -/
theorem decode_encV_solo (h : encV true lay maj min t = some e) (ha : Assigned maj min lay .solo)
    (hb : build maj.toNat true min t = some i) (hw : i.wf = true) : decode e.head e.tail = .ok i := by
  obtain rfl := Option.some.inj h
  exact decode_of_fields true lay maj min t i ha.layout ha.minor (fun _ => by simp [ha.cls]) (fun _ => rfl) hb hw

end

/-! ## Fields of a concatenation -/

section
variable {n m k l : Nat} (x : BitVec n) (y : BitVec m) (z : BitVec k) (w : BitVec l)

theorem fields_append : (x ++ y).extractLsb' m n = x ∧ (x ++ y).extractLsb' 0 m = y := by
  rw [extract_append_high _ _ _ _ le_rfl, extract_append_low _ _ _ _ (by omega)]
  simp

theorem fields_setWidth : (y.setWidth (n + m)).extractLsb' m n = 0 ∧ (y.setWidth (n + m)).extractLsb' 0 m = y := by
  constructor <;> ext i hi
  · simp
  · simp [hi, show i < n + m by omega]

theorem fields_append₃ : (x ++ y ++ z).extractLsb' (m + k) n = x ∧ (x ++ y ++ z).extractLsb' k m = y
    ∧ (x ++ y ++ z).extractLsb' 0 k = z := by
  obtain ⟨hx, hy⟩ := fields_append x y
  obtain ⟨-, hz⟩ := fields_append (x ++ y) z
  refine ⟨?_, ?_, hz⟩
  · rw [extract_append_high _ _ _ _ (by omega), Nat.add_sub_cancel, hx]
  · rw [extract_append_high _ _ _ _ le_rfl, Nat.sub_self, hy]

theorem fields_append₄ : (x ++ y ++ z ++ w).extractLsb' (m + k + l) n = x
    ∧ (x ++ y ++ z ++ w).extractLsb' (k + l) m = y ∧ (x ++ y ++ z ++ w).extractLsb' l k = z
    ∧ (x ++ y ++ z ++ w).extractLsb' 0 l = w := by
  obtain ⟨hx, hy, hz⟩ := fields_append₃ x y z
  obtain ⟨-, hw⟩ := fields_append (x ++ y ++ z) w
  refine ⟨?_, ?_, ?_, hw⟩
  · rw [extract_append_high _ _ _ _ (by omega), Nat.add_sub_cancel, hx]
  · rw [extract_append_high _ _ _ _ (by omega), Nat.add_sub_cancel, hy]
  · rw [extract_append_high _ _ _ _ le_rfl, Nat.sub_self, hz]

end

/-! ## Scalar tails -/

section
variable (d a b : SReg)

theorem S32.r3_bits (f : SReg → SReg → SReg → Instr) :
    (S32.of (S32.bits ⟨d, a, b, 0⟩)).r3 f = some (f d a b) := by
  simp [S32.r3]

theorem S32.r2_bits (f : SReg → SReg → Instr) : (S32.of (S32.bits ⟨d, a, 0, 0⟩)).r2 f = some (f d a) := by
  simp [S32.r2]

theorem S32.ri_bits (imm : BitVec 17) (f : SReg → SReg → BitVec 17 → Instr) :
    (S32.of (S32.bits ⟨d, a, 0, imm⟩)).ri f = some (f d a imm) := by
  simp [S32.ri]

theorem S32.shift_bits (cnt : BitVec 6) (f : SReg → SReg → BitVec 6 → Instr) :
    (S32.of (S32.bits ⟨d, a, 0, cnt.setWidth 17⟩)).shift f = some (f d a cnt) := by
  rw [S32.of_bits, S32.shift_of_lt d a (by have := cnt.isLt; simp; omega)]
  simp

theorem S32.field_bits (pos wm1 : BitVec 6) (f : SReg → SReg → BitVec 6 → BitVec 6 → Instr) :
    (S32.of (S32.bits ⟨d, a, 0, 0#5 ++ pos ++ wm1⟩)).field f = some (f d a pos wm1) := by
  rw [S32.of_bits, S32.field_of_append]
  simp

theorem S32.fcvt_bits (rm : Option Rm) (f : SReg → SReg → Option Rm → Instr) :
    (S32.of (S32.bits ⟨d, a, 0, 0#14 ++ rmsCode rm⟩)).fcvt f = some (f d a rm) := by
  obtain ⟨hhigh, hlow⟩ := fields_append 0#14 (rmsCode rm)
  simp only [S32.fcvt, S32.of_bits]
  rw [hhigh, hlow]
  simp

end

/-! ## Vector tails -/

theorem V32.mask_bits (d a b : BitVec 6) (m : MaskOp) (x : BitVec 10) :
    V32.mask ⟨d, a, b, m.k, bit1 m.sense, x⟩ = m := by
  simp [V32.mask]

theorem E64.mask_bits (d a b c e : SReg) (va vb : BitVec 6) (m : MaskOp) (x : BitVec 23) :
    E64.mask ⟨d, a, b, c, e, va, vb, m.k, bit1 m.sense, x⟩ = m := by
  simp [E64.mask]

theorem lowReg_zero : lowReg 0#6 = some 0#3 := rfl

theorem tyOnly_modBits (ty : Tag) : tyOnly (modBits ty false none false) = some ty := by
  simp [tyOnly]

theorem V32.vv_bits (a : Vv) (f : Vv → Instr) :
    (V32.of (V32.bits ⟨a.vd, a.va, a.vb, a.m.k, bit1 a.m.sense, modBits a.ty a.sat a.rm false⟩)).vv a.c f = some (f a) := by
  simp [V32.vv, V32.mask_bits]

theorem V32.vx_bits (a : Vx) (f : Vx → Instr) :
    (V32.of (V32.bits ⟨a.vd, a.va, sreg6 a.sb, a.m.k, bit1 a.m.sense, modBits a.ty a.sat a.rm false⟩)).vx a.c f
      = some (f a) := by
  simp [V32.vx, V32.mask_bits]

theorem V32.v1_bits (a : V1) (f : V1 → Instr) :
    (V32.of (V32.bits ⟨a.vd, a.va, 0, a.m.k, bit1 a.m.sense, modBits a.ty a.sat a.rm false⟩)).v1 a.c f = some (f a) := by
  simp [V32.v1, V32.mask_bits]

theorem V32.vk_bits (a : Vk) (f : Vk → Instr) :
    (V32.of (V32.bits ⟨low6 a.kd, a.va, a.vb, a.m.k, bit1 a.m.sense, modBits a.ty false none false⟩)).vk a.c f
      = some (f a) := by
  simp [V32.vk, V32.mask_bits]

theorem V32.vp_bits (a : Vp) (f : Vp → Instr) :
    (V32.of (V32.bits ⟨a.vd, a.va, a.vb, a.m.k, bit1 a.m.sense, 0⟩)).vp a.c f = some (f a) := by
  simp [V32.vp, V32.mask_bits]

theorem V32.vu_bits (a : Vu) (f : Vu → Instr) :
    (V32.of (V32.bits ⟨a.vd, a.va, 0, a.m.k, bit1 a.m.sense, 0⟩)).vu a.c f = some (f a) := by
  simp [V32.vu, V32.mask_bits]

theorem V32.vs_bits (a : Vs) (f : Vs → Instr) :
    (V32.of (V32.bits ⟨a.vd, a.va, sreg6 a.sb, a.m.k, bit1 a.m.sense, 0⟩)).vs a.c f = some (f a) := by
  simp [V32.vs, V32.mask_bits]

theorem V32.red_bits (a : Red) (f : Red → Instr) :
    (V32.of (V32.bits ⟨sreg6 a.sd, sreg6 a.sa, a.vb, a.m.k, bit1 a.m.sense, modBits a.ty a.sat a.rm a.seed⟩)).red a.c f
      = some (f a) := by
  simp [V32.red, V32.mask_bits]

theorem V32.vmem_bits (a : Vmem) (f : Vmem → Instr) :
    (V32.of (V32.bits ⟨a.vd, sreg6 a.sa, 0, a.m.k, bit1 a.m.sense, a.ty.code ++ 0#5⟩)).vmem a.c f = some (f a) := by
  obtain ⟨hty, hlow⟩ := fields_append a.ty.code 0#5
  simp only [V32.vmem, V32.of_bits]
  rw [hty, hlow]
  simp [V32.mask_bits]

theorem V32.vidx_bits (a : Vidx) (f : Vidx → Instr) :
    (V32.of (V32.bits ⟨a.vd, sreg6 a.sa, a.vb, a.m.k, bit1 a.m.sense, a.ty.code ++ 0#3 ++ a.sh⟩)).vidx a.c f
      = some (f a) := by
  obtain ⟨hty, hmid, hsh⟩ := fields_append₃ a.ty.code 0#3 a.sh
  simp only [V32.vidx, V32.of_bits]
  rw [hty, hmid, hsh]
  simp [V32.mask_bits]

theorem V32.vlt_bits (a : Vlt) (f : Vlt → Instr) :
    (V32.of (V32.bits ⟨a.vd, 0, a.vb, a.m.k, bit1 a.m.sense, modBits a.ty false none false⟩)).vlt a.c f = some (f a) := by
  simp [V32.vlt, V32.mask_bits, tyOnly_modBits]

/-- R232: the field of vA is 0. -/
theorem V32.fill_bits (a : Vs) (hva : a.va = 0) :
    (V32.of (V32.bits ⟨a.vd, 0, sreg6 a.sb, a.m.k, bit1 a.m.sense, 0⟩)).fill a.c = some (.vltFill a) := by
  simp [V32.fill, V32.mask_bits, ← hva]

theorem V32.mrow_bits_read (a : Mrow) :
    (V32.of (V32.bits ⟨a.v, low6 a.t, sreg6 a.sb, a.m.k, bit1 a.m.sense, 0⟩)).mrow a.c true = some (.mrd a) := by
  simp [V32.mrow, V32.mask_bits]

theorem V32.mrow_bits_write (a : Mrow) :
    (V32.of (V32.bits ⟨low6 a.t, a.v, sreg6 a.sb, a.m.k, bit1 a.m.sense, 0⟩)).mrow a.c false = some (.mwr a) := by
  simp [V32.mrow, V32.mask_bits]

/-- R253: what SC and vB name. -/
theorem V32.mcvt_bits (a : Mcvt) {sc : BitVec 2} {vb : BitVec 6} (hscale : scaleOf sc vb = some a.scale)
    (f : Mcvt → Instr) :
    (V32.of (V32.bits ⟨low6 a.md, low6 a.ms, vb, 0, 0, sc ++ 0#3 ++ bit1 a.sat ++ rmsCode a.rm ++ 0#1⟩)).mcvt a.c f
      = some (f a) := by
  obtain ⟨hrest, hrm, hlow⟩ := fields_append₃ (sc ++ 0#3 ++ bit1 a.sat) (rmsCode a.rm) 0#1
  have hword : (sc ++ 0#3 ++ bit1 a.sat ++ rmsCode a.rm ++ 0#1 : BitVec 10)
      = sc ++ 0#3 ++ bit1 a.sat ++ (rmsCode a.rm ++ 0#1) := by rw [BitVec.append_assoc]; rfl
  obtain ⟨hsc, hmid, hsat, -⟩ := fields_append₄ sc 0#3 (bit1 a.sat) (rmsCode a.rm ++ 0#1)
  rw [← hword] at hsc hmid hsat
  simp only [V32.mcvt, V32.of_bits]
  rw [hsc, hmid, hsat, hrm, hlow]
  simp [hscale]

/-! ## Wide vector tails -/

theorem E64.vstr_bits (a : Vstr) (f : Vstr → Instr) :
    (E64.of (E64.bits ⟨0, a.sa, a.sb, 0, 0, 0, 0, a.m.k, bit1 a.m.sense, a.vd ++ a.ty.code ++ 0#12⟩)).vstr a.c f
      = some (f a) := by
  obtain ⟨hvd, hty, hlow⟩ := fields_append₃ a.vd a.ty.code 0#12
  simp only [E64.vstr, E64.of_bits]
  rw [hvd, hty, hlow]
  simp [E64.mask_bits]

theorem E64.vldc_bits (a : Vmem) :
    (E64.of (E64.bits ⟨0, a.sa, 0, 0, 0, 0, 0, a.m.k, bit1 a.m.sense, a.vd ++ a.ty.code ++ 0#12⟩)).vldc a.c
      = some (.vldc a) := by
  obtain ⟨hvd, hty, hlow⟩ := fields_append₃ a.vd a.ty.code 0#12
  simp only [E64.vldc, E64.of_bits]
  rw [hvd, hty, hlow]
  simp [E64.mask_bits]

theorem E64.vstc_bits (a : Vstc) :
    (E64.of (E64.bits ⟨a.sd, a.sa, a.sb, 0, 0, 0, 0, a.m.k, bit1 a.m.sense, a.vd ++ 0#16 ++ bit1 a.q⟩)).vstc a.c
      = some (.vstc a) := by
  obtain ⟨hvd, hmid, hq⟩ := fields_append₃ a.vd 0#16 (bit1 a.q)
  simp only [E64.vstc, E64.of_bits]
  rw [hvd, hmid, hq]
  simp [E64.mask_bits]

theorem E64.merge_bits (a : Merge) (f : Merge → Instr) :
    (E64.of (E64.bits ⟨a.sd, a.sa, a.sb, 0, 0, a.va, a.vb, 0, 0, a.vd ++ rmsCode a.rm ++ 0#14⟩)).merge a.c a.dz f
      = some (f a) := by
  obtain ⟨hvd, hrm, hlow⟩ := fields_append₃ a.vd (rmsCode a.rm) 0#14
  simp only [E64.merge, E64.of_bits]
  rw [hvd, hrm, hlow]
  simp

theorem E64.xch_bits (a : Xch) :
    (E64.of (E64.bits ⟨a.sd, a.sa, a.sb, 0, 0, a.va, 0, a.m.k, bit1 a.m.sense, a.vd ++ 0#17⟩)).xch a.c
      = some (.vxch a) := by
  obtain ⟨hvd, hlow⟩ := fields_append a.vd 0#17
  simp only [E64.xch, E64.of_bits]
  rw [hvd, hlow]
  simp [E64.mask_bits]

theorem E64.opaS_bits (a : OpaS) :
    (E64.of (E64.bits ⟨0, 0, 0, 0, 0, a.va, a.vb, a.m.k, bit1 a.m.sense, a.vsa ++ a.vsb ++ a.t ++ a.rep ++ a.ty.code⟩)).opaS
      a.c = some (.vopaS a) := by
  obtain ⟨-, hrep, hty⟩ := fields_append₃ (a.vsa ++ a.vsb ++ a.t) a.rep a.ty.code
  have hword : (a.vsa ++ a.vsb ++ a.t ++ a.rep ++ a.ty.code : BitVec 23)
      = a.vsa ++ a.vsb ++ a.t ++ (a.rep ++ a.ty.code) := by rw [BitVec.append_assoc]; rfl
  obtain ⟨hvsa, hvsb, ht, -⟩ := fields_append₄ a.vsa a.vsb a.t (a.rep ++ a.ty.code)
  rw [← hword] at hvsa hvsb ht
  simp only [E64.opaS, E64.of_bits]
  rw [hvsa, hvsb, ht, hrep, hty]
  simp [E64.mask_bits]

theorem E64.mmem_bits (a : Mmem) (f : Mmem → Instr) :
    (E64.of (E64.bits ⟨0, a.sa, a.sb, a.sc, a.se, 0, 0, 0, 0, low6 a.t ++ a.ty.code ++ 0#12⟩)).mmem a.c f
      = some (f a) := by
  obtain ⟨ht, hty, hlow⟩ := fields_append₃ (low6 a.t) a.ty.code 0#12
  simp only [E64.mmem, E64.of_bits]
  rw [ht, hty, hlow]
  simp

theorem E64.vwait_bits (a : Vwait) :
    (E64.of (E64.bits ⟨a.sd, 0, a.sb, 0, 0, a.va, a.vb, a.m.k, bit1 a.m.sense, a.kd ++ 0#20⟩)).vwait
      = some (.vwait a) := by
  obtain ⟨hkd, hlow⟩ := fields_append a.kd 0#20
  simp only [E64.vwait, E64.of_bits]
  rw [hkd, hlow]
  simp [E64.mask_bits]

/-- R176, R269: ORD and the last bit of MINOR name the order and whether the old values come back. -/
theorem E64.vamo_bits (a : Vamo) {min : BitVec 6} (hord : Ord.ofCode (min.extractLsb' 1 2) = some a.ord)
    (hret : (min.extractLsb' 0 1 == 1) = a.ret) (f : Vamo → Instr) :
    (E64.of (E64.bits ⟨0, a.sa, 0, 0, 0, a.va, a.vb, a.m.k, bit1 a.m.sense, a.vd ++ a.sh ++ bit1 a.ra ++ 0#14⟩)).vamo
      a.c min f = some (f a) := by
  obtain ⟨hvd, hsh, hra, hlow⟩ := fields_append₄ a.vd a.sh (bit1 a.ra) 0#14
  simp only [E64.vamo, E64.of_bits]
  rw [hvd, hsh, hra, hlow, hord, hret]
  simp [E64.mask_bits]

theorem E64.winOpen_bits (a b c : SReg) (ty : Tag) :
    (E64.of (E64.bits ⟨0, a, b, c, 0, 0, 0, 0, 0, 0#6 ++ ty.code ++ 0#12⟩)).winOpen = some (.winOpen a b c ty) := by
  obtain ⟨hhigh, hty, hlow⟩ := fields_append₃ 0#6 ty.code 0#12
  simp only [E64.winOpen, E64.of_bits]
  rw [hhigh, hty, hlow]
  simp

theorem E64.vwacc_bits (a : Vwacc) :
    (E64.of (E64.bits ⟨0, 0, 0, 0, 0, a.va, a.vb, a.m.k, bit1 a.m.sense, 0#6 ++ rmsCode a.rm ++ a.sh ++ 0#12⟩)).vwacc a.c
      = some (.vwaccAdd a) := by
  obtain ⟨hhigh, hrm, hsh, hlow⟩ := fields_append₄ 0#6 (rmsCode a.rm) a.sh 0#12
  simp only [E64.vwacc, E64.of_bits]
  rw [hhigh, hrm, hsh, hlow]
  simp [E64.mask_bits]

theorem E64.cpy_bits (a : Cpy) (f : Cpy → Instr) :
    (E64.of (E64.bits ⟨a.sd, a.sa, a.sb, a.sc, 0, 0, 0, 0, 0, 0⟩)).cpy f = some (f a) := by
  simp [E64.cpy]

theorem E64.cpy2d_bits (a : Cpy2d) :
    (E64.of (E64.bits ⟨a.sd, a.sa, a.sb, a.sc, a.se, 0, 0, 0, 0, a.sf ++ a.sg ++ 0#13⟩)).cpy2d = some (.cpy2d a) := by
  obtain ⟨hsf, hsg, hlow⟩ := fields_append₃ a.sf a.sg 0#13
  simp only [E64.cpy2d, E64.of_bits]
  rw [hsf, hsg, hlow]
  simp

/-! ## Atomics -/

/-- R176, R269: MINOR of an atomic holds its operation, its order and one bit more. -/
theorem fields_atomicMinor (op : BitVec 3) (ord : Ord) (last : Bool) :
    Ord.ofCode ((op ++ ord.code ++ bit1 last : BitVec 6).extractLsb' 1 2) = some ord
      ∧ ((op ++ ord.code ++ bit1 last : BitVec 6).extractLsb' 0 1 == 1) = last
      ∧ (op ++ ord.code ++ bit1 last : BitVec 6).toNat / 8 = op.toNat
      ∧ (op ++ ord.code ++ bit1 last : BitVec 6).toNat / 2 % 4 ≠ 3 := by
  revert op
  cases ord <;> cases last <;> decide

section
variable (d a b : SReg) (ord : Ord) (wide : Bool) {op : BitVec 3} {f : SReg → SReg → SReg → Ord → Bool → Instr}

theorem build_amo (hf : [Instr.amoAdd, .amoAnd, .amoOr, .amoXor, .amoMin, .amoMax, .amoSwp, .amoCas][op.toNat]? = some f) :
    build 0x2E false (op ++ ord.code ++ bit1 wide) (S32.bits ⟨d, a, b, 0⟩) = some (f d a b ord wide) := by
  obtain ⟨hord, hwide, hop, -⟩ := fields_atomicMinor op ord wide
  have hbuild : ∀ min t, build 0x2E false min t = (Ord.ofCode (min.extractLsb' 1 2)).bind fun o =>
    ([Instr.amoAdd, .amoAnd, .amoOr, .amoXor, .amoMin, .amoMax, .amoSwp, .amoCas][min.toNat / 8]?).bind fun g =>
      (S32.of t).r3 fun d a b => g d a b o (min.extractLsb' 0 1 == 1) := fun _ _ => rfl
  rw [hbuild, hord, hwide, hop, hf]
  exact S32.r3_bits d a b fun d a b => f d a b ord wide

theorem build_amoUnsigned (hf : [Instr.amoMinN, .amoMaxN][op.toNat - 4]? = some f) :
    build 0x2F false (op ++ ord.code ++ bit1 wide) (S32.bits ⟨d, a, b, 0⟩) = some (f d a b ord wide) := by
  obtain ⟨hord, hwide, hop, -⟩ := fields_atomicMinor op ord wide
  have hbuild : ∀ min t, build 0x2F false min t = (Ord.ofCode (min.extractLsb' 1 2)).bind fun o =>
    ([Instr.amoMinN, .amoMaxN][min.toNat / 8 - 4]?).bind fun g =>
      (S32.of t).r3 fun d a b => g d a b o (min.extractLsb' 0 1 == 1) := fun _ _ => rfl
  rw [hbuild, hord, hwide, hop, hf]
  exact S32.r3_bits d a b fun d a b => f d a b ord wide

end

theorem build_vamo (a : Vamo) {op : BitVec 3} {f : Vamo → Instr}
    (hf : [Instr.vamoAdd, .vamoAnd, .vamoOr, .vamoXor, .vamoMin, .vamoMax, .vamoSwp, .vamoCas][op.toNat]? = some f) :
    build 0x7A a.c (op ++ a.ord.code ++ bit1 a.ret)
      (E64.bits ⟨0, a.sa, 0, 0, 0, a.va, a.vb, a.m.k, bit1 a.m.sense, a.vd ++ a.sh ++ bit1 a.ra ++ 0#14⟩) = some (f a) := by
  obtain ⟨hord, hret, hop, -⟩ := fields_atomicMinor op a.ord a.ret
  have hbuild : ∀ min t, build 0x7A a.c min t =
    ([Instr.vamoAdd, .vamoAnd, .vamoOr, .vamoXor, .vamoMin, .vamoMax, .vamoSwp, .vamoCas][min.toNat / 8]?).bind
      ((E64.of t).vamo a.c min) := fun _ _ => rfl
  rw [hbuild, hop, hf]
  exact E64.vamo_bits a hord hret f

theorem decode_encode_vamo (a : Vamo) {op : BitVec 3} {f : Vamo → Instr} {e : Enc} (he : eVamo op a = some e)
    (hf : [Instr.vamoAdd, .vamoAnd, .vamoOr, .vamoXor, .vamoMin, .vamoMax, .vamoSwp, .vamoCas][op.toNat]? = some f)
    (hw : (f a).wf = true) : decode e.head e.tail = .ok (f a) := by
  obtain ⟨-, -, -, hord⟩ := fields_atomicMinor op a.ord a.ret
  exact decode_encV (cls := .sy) he ⟨rfl, decide_eq_true hord, rfl⟩ (by decide) (build_vamo a hf) hw

/-! ## Merges -/

/-- R230: MINOR of a merge holds its operation and `.dz`. -/
theorem fields_mergeMinor (op : BitVec 2) (dz : Bool) :
    ((0#3 ++ op ++ bit1 dz : BitVec 6).extractLsb' 0 1 == 1) = dz ∧ (0#3 ++ op ++ bit1 dz : BitVec 6).toNat / 2 = op.toNat := by
  revert op
  cases dz <;> decide

theorem build_merge (a : Merge) {op : BitVec 2} {f : Merge → Instr}
    (hf : [Instr.vmergeUAdd, .vmergeUSub, .vmergeUMax][op.toNat]? = some f) :
    build 0x6C a.c (0#3 ++ op ++ bit1 a.dz)
      (E64.bits ⟨a.sd, a.sa, a.sb, 0, 0, a.va, a.vb, 0, 0, a.vd ++ rmsCode a.rm ++ 0#14⟩) = some (f a) := by
  obtain ⟨hdz, hop⟩ := fields_mergeMinor op a.dz
  have hbuild : ∀ min t, build 0x6C a.c min t =
    ([Instr.vmergeUAdd, .vmergeUSub, .vmergeUMax][min.toNat / 2]?).bind ((E64.of t).merge a.c (min.extractLsb' 0 1 == 1)) :=
    fun _ _ => rfl
  rw [hbuild, hdz, hop, hf]
  exact E64.merge_bits a f

/-! ## The rows of the opcode map -/

theorem decode_encode (i : Instr) (e : Enc) (hw : i.wf = true) (he : encode i = some e) :
    decode e.head e.tail = .ok i := by
  cases i with
  | nop | finish | ret => exact decode_encS he ⟨rfl, rfl, rfl⟩ rfl hw
  | br | call | beq | bne | blt | bge | bltn | bgen | bz | bnz =>
    exact decode_encS he ⟨rfl, rfl, rfl⟩ (by simp [build, buildScalar]) hw
  | sget | sput | vsettypeImm =>
    exact decode_encS he ⟨rfl, rfl, rfl⟩ (by simpa [build, buildScalar] using fields_append 0#5 _) hw
  | brk | trap | progMark => exact decode_encS he ⟨rfl, rfl, rfl⟩ (by simp [build, buildScalar]) hw
  | li => exact decode_encS he ⟨rfl, rfl, rfl⟩ (by simpa [build, buildScalar] using fields_append _ _) hw
  | lih => exact decode_encS he ⟨rfl, rfl, rfl⟩ (by simpa [build, buildScalar] using fields_setWidth _) hw
  | lea => exact decode_encS he ⟨rfl, rfl, rfl⟩ (by simpa [build, buildScalar] using (fields_append _ _).symm) hw
  | stB | stH | stW | stD => exact decode_encS he ⟨rfl, rfl, rfl⟩ (by simp [build, buildMemFloat]) hw
  | fwdRelink | fwdClear => exact decode_encS he ⟨rfl, rfl, rfl⟩ (by simp [build, buildEngine]) hw
  | tierHint a b tier =>
    obtain ⟨hhigh, hlow⟩ := fields_append 0#15 tier.code
    exact decode_encS he ⟨rfl, rfl, rfl⟩ (by simp [build, buildEngine, hhigh, hlow]) hw
  | add | sub | mul | mulh | mulhN | div | divN | rem | remN | and | or | xor | andn | shl | shr | sar | rot | min | max
  | minN | maxN | cmpEq | cmpNe | cmpLt | cmpGe | cmpLtN | cmpGeN | taskPost | fwdCmp =>
    exact decode_encS he ⟨rfl, rfl, rfl⟩ (S32.r3_bits ..) hw
  | vsetvl | vsettype | qdrain | sysCall | clz | ctz | pop | tokPoll | fwdRes | fwdStat =>
    exact decode_encS he ⟨rfl, rfl, rfl⟩ (S32.r2_bits ..) hw
  | jr | addImm | subImm | mulImm | andImm | orImm | xorImm | andnImm | cmpEqImm | cmpNeImm | cmpLtImm | cmpGeImm
  | cmpLtNImm | cmpGeNImm | ldB | ldH | ldW | ldD | ldBN | ldHN | ldWN =>
    exact decode_encS he ⟨rfl, rfl, rfl⟩ (S32.ri_bits ..) hw
  | shlImm | shrImm | sarImm | rotImm => exact decode_encS he ⟨rfl, rfl, rfl⟩ (S32.shift_bits ..) hw
  | bext | bins => exact decode_encS he ⟨rfl, rfl, rfl⟩ (S32.field_bits ..) hw
  | amoAdd d a b ord wide | amoAnd d a b ord wide | amoOr d a b ord wide | amoXor d a b ord wide | amoMin d a b ord wide
  | amoMax d a b ord wide | amoSwp d a b ord wide | amoCas d a b ord wide =>
    exact decode_encS he ⟨rfl, by cases ord <;> cases wide <;> rfl, rfl⟩ (build_amo d a b ord wide rfl) hw
  | amoMinN d a b ord wide | amoMaxN d a b ord wide =>
    exact decode_encS he ⟨rfl, by cases ord <;> cases wide <;> rfl, rfl⟩ (build_amoUnsigned d a b ord wide rfl) hw
  | fadd wide | fsub wide | fmul wide | fdiv wide | fmin wide | fmax wide | fma wide | fcmpEq wide | fcmpLt wide
  | fcmpLe wide | fcmpUn wide =>
    cases wide <;> exact decode_encS he ⟨rfl, rfl, rfl⟩ (S32.r3_bits ..) hw
  | fsqrt wide => cases wide <;> exact decode_encS he ⟨rfl, rfl, rfl⟩ (S32.r2_bits ..) hw
  | fcvtF32F64 | fcvtF64F32 | fcvtF32I64 | fcvtF32N64 | fcvtF64I64 | fcvtF64N64 | fcvtI64F32 | fcvtN64F32 | fcvtI64F64
  | fcvtN64F64 => exact decode_encS he ⟨rfl, rfl, rfl⟩ (S32.fcvt_bits ..) hw
  | vadd a | vsub a | vmul a | vmulh a | vmadd a | vmin a | vmax a | vand a | vor a | vxor a | vshl a | vshr a | vsar a
  | vfadd a | vfsub a | vfmul a | vfdiv a | vfmin a | vfmax a | vfma a | vscale a =>
    exact decode_encV he ⟨rfl, rfl, rfl⟩ (by decide) (V32.vv_bits a _) hw
  | vaddX a | vsubX a | vmulX a | vmulhX a | vmaddX a | vminX a | vmaxX a | vandX a | vorX a | vxorX a | vshlX a
  | vshrX a | vsarX a | vfaddX a | vfsubX a | vfmulX a | vfdivX a | vfminX a | vfmaxX a =>
    exact decode_encV he ⟨rfl, rfl, rfl⟩ (by decide) (V32.vx_bits a _) hw
  | vfsqrt a | vfrcpE a | vcvtH a | vcvtD a | vcvtF32E2m1 a | vscanAdd a | vscanAddx a =>
    exact decode_encV he ⟨rfl, rfl, rfl⟩ (by decide) (V32.v1_bits a _) hw
  | vcmpEq a | vcmpNe a | vcmpLt a | vcmpGe a | vcmpLtN a | vcmpGeN a | vcmpFeq a | vcmpFlt a | vcmpFle a | vcmpFun a =>
    exact decode_encV he ⟨rfl, rfl, rfl⟩ (by decide) (V32.vk_bits a _) hw
  | vsel a | vperm a | vzip a => exact decode_encV he ⟨rfl, rfl, rfl⟩ (by decide) (V32.vp_bits a _) hw
  | vfwdRes a | vunzip a | vrepBlk a | vcompress a | vexpand a =>
    exact decode_encV he ⟨rfl, rfl, rfl⟩ (by decide) (V32.vu_bits a _) hw
  | vslideUp a | vslideDn a => exact decode_encV he ⟨rfl, rfl, rfl⟩ (by decide) (V32.vs_bits a _) hw
  | vredAddO a | vredAddT a | vredMin a | vredMax a =>
    exact decode_encV he ⟨rfl, rfl, rfl⟩ (by decide) (V32.red_bits a _) hw
  | vld a | vst a => exact decode_encV he ⟨rfl, rfl, rfl⟩ (by decide) (V32.vmem_bits a _) hw
  | vldx a | vstxO a | vstxN a => exact decode_encV he ⟨rfl, rfl, rfl⟩ (by decide) (V32.vidx_bits a _) hw
  | vlds a | vsts a => exact decode_encV he ⟨rfl, rfl, rfl⟩ (by decide) (E64.vstr_bits a _) hw
  | vldc a => exact decode_encV he ⟨rfl, rfl, rfl⟩ (by decide) (E64.vldc_bits a) hw
  | vstc a => exact decode_encV he ⟨rfl, rfl, rfl⟩ (by decide) (E64.vstc_bits a) hw
  | vxch a => exact decode_encV he ⟨rfl, rfl, rfl⟩ (by decide) (E64.xch_bits a) hw
  | vltLd a | vltSt a => exact decode_encV he ⟨rfl, rfl, rfl⟩ (by decide) (V32.vlt_bits a _) hw
  | vopaS a => exact decode_encV he ⟨rfl, rfl, rfl⟩ (by decide) (E64.opaS_bits a) hw
  | mrd a => exact decode_encV he ⟨rfl, rfl, rfl⟩ (by decide) (V32.mrow_bits_read a) hw
  | mwr a => exact decode_encV he ⟨rfl, rfl, rfl⟩ (by decide) (V32.mrow_bits_write a) hw
  | mld a | mst a => exact decode_encV he ⟨rfl, rfl, rfl⟩ (by decide) (E64.mmem_bits a _) hw
  | cpy a | cpyFl a | cpyMove a => exact decode_encV_solo he ⟨rfl, rfl, rfl⟩ (E64.cpy_bits a _) hw
  | cpy2d a => exact decode_encV_solo he ⟨rfl, rfl, rfl⟩ (E64.cpy2d_bits a) hw
  | vwaccAdd a => exact decode_encV he ⟨rfl, rfl, rfl⟩ (by decide) (E64.vwacc_bits a) hw
  | winOpen a b c ty => exact decode_encV_solo he ⟨rfl, rfl, rfl⟩ (E64.winOpen_bits a b c ty) hw
  | vwait a => exact decode_encV_solo he ⟨rfl, rfl, rfl⟩ (E64.vwait_bits a) hw
  | fenceG | fenceD | fenceS | winMerge | winClose => exact decode_encV_solo he ⟨rfl, rfl, rfl⟩ rfl hw
  | acq => exact decode_encV_solo he ⟨rfl, rfl, rfl⟩ (S32.r3_bits ..) hw
  | rel => exact decode_encV_solo he ⟨rfl, rfl, rfl⟩ (S32.r2_bits ..) hw
  | kand | kor | knot | kpop | kfirst | vmvSx | vbcast | vmvXs | vtag =>
    exact decode_encV he ⟨rfl, rfl, rfl⟩ (by decide)
      (by simp [build, buildVector, V32.mask_bits, tyOnly_modBits, lowReg_zero]) hw
  | mzero | mtag =>
    exact decode_encV he ⟨rfl, rfl, rfl⟩ (by decide) (by simp [build, buildEngine, tyOnly_modBits]) hw
  | vamoAdd a | vamoAnd a | vamoOr a | vamoXor a | vamoMin a | vamoMax a | vamoSwp a | vamoCas a =>
    exact decode_encode_vamo a he rfl hw
  | vmergeUAdd a | vmergeUSub a | vmergeUMax a =>
    exact decode_encV (cls := .px) he ⟨rfl, by cases a.dz <;> rfl, rfl⟩ (by decide) (build_merge a rfl) hw
  | vltFill a =>
    have hva : a.va = 0 := eq_of_beq (Bool.and_eq_true_iff.mp (show (a.m.wf && a.va == 0) = true from hw)).2
    exact decode_encV he ⟨rfl, rfl, rfl⟩ (by decide) (V32.fill_bits a hva) hw
  | mcvtI32Trio a | mcvtF32I32 a | mcvtBf16F32 a =>
    obtain ⟨c, md, ms, scale, sat, rm⟩ := a
    cases scale with
    | none => exact decode_encV he ⟨rfl, rfl, rfl⟩ (by decide) (V32.mcvt_bits ⟨c, md, ms, .none, sat, rm⟩ rfl _) hw
    | tile sb =>
      exact decode_encV he ⟨rfl, rfl, rfl⟩ (by decide) (V32.mcvt_bits ⟨c, md, ms, .tile sb, sat, rm⟩ (by simp [scaleOf]) _) hw
    | row vb => exact decode_encV he ⟨rfl, rfl, rfl⟩ (by decide) (V32.mcvt_bits ⟨c, md, ms, .row vb, sat, rm⟩ rfl _) hw
  | barInit =>
    exact decode_encV_solo he ⟨rfl, rfl, rfl⟩ (by simpa [build, buildEngine] using fields_setWidth (n := 5) _) hw
  | barArr | barArrRlx | barDrop | barWait =>
    exact decode_encV_solo he ⟨rfl, rfl, rfl⟩ (by simp [build, buildEngine]) hw
  | syncBind d a b scope =>
    obtain ⟨hhigh, hlow⟩ := fields_append 0#15 scope.code
    exact decode_encV_solo he ⟨rfl, rfl, rfl⟩ (by simp [build, buildEngine, hhigh, hlow]) hw
  | syncUnbind => exact decode_encV_solo he ⟨rfl, rfl, rfl⟩ (by simp [build, buildEngine]) hw
  | vopa a =>
    obtain ⟨hty, hrep, hlow⟩ := fields_append₃ a.ty.code a.rep 0#2
    exact decode_encV he ⟨rfl, rfl, rfl⟩ (by decide) (by simp [build, buildEngine, V32.mask_bits, hty, hrep, hlow]) hw
  | _ => cases he

end Sys2Proof

open Sys2Proof

/-- Settles O2: each shape of the encoder builds its operands back, and each row of the opcode map has the layout and the class that
its shape writes. -/
theorem decodeEncode : Obligations.DecodeEncode := decode_encode

end

section
/-!
SUPPORT. Which instructions have words, and that no word decodes to an event (R153).
-/

namespace Sys2Proof

theorem encode_isSome (i : Instr) : (encode i).isSome = !i.isEvent := by
  cases i with
  | mcvtI32Trio a | mcvtF32I32 a | mcvtBf16F32 a =>
    obtain ⟨c, md, ms, scale, sat, rm⟩ := a
    cases scale <;> rfl
  | _ => rfl

/-- The events are the constructors after the 263 instructions. -/
theorem isEvent_eq_ctorIdx (i : Instr) : i.isEvent = decide (263 ≤ i.ctorIdx) := by
  cases i <;> rfl

/-- What a tail builds, if anything, is an instruction. -/
def IsInstr (o : Option Instr) : Prop :=
  ∀ i, o = some i → i.isEvent = false

theorem isInstr_none : IsInstr none := fun _ => nofun

theorem isInstr_some {i : Instr} : IsInstr (some i) ↔ i.ctorIdx < 263 := by
  simp [IsInstr, isEvent_eq_ctorIdx]

theorem isInstr_ite {p : Prop} [Decidable p] {a b : Option Instr} :
    IsInstr (if p then a else b) ↔ (p → IsInstr a) ∧ (¬ p → IsInstr b) := by
  split <;> simp_all

theorem isInstr_bind {α : Type} {o : Option α} {k : α → Option Instr} :
    IsInstr (o.bind k) ↔ ∀ a, o = some a → IsInstr (k a) := by
  cases o <;> simp [IsInstr]

theorem option_ite_bind {α β : Type} {p : Prop} [Decidable p] (a b : Option α) (k : α → Option β) :
    (if p then a else b).bind k = if p then a.bind k else b.bind k := by
  split <;> rfl

section
variable (maj : Nat) (c : Bool) (min : BitVec 6) (t : BitVec 64)

theorem isInstr_buildScalar : IsInstr (buildScalar maj min t) := by
  unfold buildScalar
  split <;> simp [isInstr_none, isInstr_some, isInstr_ite, List.getElem?_cons, option_ite_bind, Option.map_eq_bind, Instr.ctorIdx, S32.r3, S32.r2, S32.ri, S32.shift, S32.field]

theorem isInstr_buildMemFloat : IsInstr (buildMemFloat maj min t) := by
  unfold buildMemFloat
  split <;> simp [isInstr_none, isInstr_some, isInstr_ite, isInstr_bind, List.getElem?_cons, option_ite_bind, Option.map_eq_bind, Instr.ctorIdx, S32.r3, S32.r2, S32.ri, S32.fcvt]

theorem isInstr_buildVector : IsInstr (buildVector maj c min t) := by
  unfold buildVector
  split <;> simp [isInstr_none, isInstr_some, isInstr_ite, isInstr_bind, List.getElem?_cons, option_ite_bind, Option.map_eq_bind, Instr.ctorIdx, V32.vv, V32.vx, V32.v1, V32.vk, V32.vp, V32.red]

theorem isInstr_buildVecMem : IsInstr (buildVecMem maj c min t) := by
  unfold buildVecMem
  split <;> simp [isInstr_none, isInstr_some, isInstr_ite, isInstr_bind, List.getElem?_cons, option_ite_bind, Instr.ctorIdx,
    V32.v1, V32.vp, V32.vu, V32.vs, V32.vmem, V32.vidx, V32.vlt, V32.fill, E64.vstr, E64.vldc, E64.vstc, E64.merge, E64.xch]

theorem isInstr_mrow (x : V32) (read : Bool) : IsInstr (x.mrow c read) := by
  cases read <;> simp [V32.mrow, isInstr_none, isInstr_some, isInstr_ite, isInstr_bind, Instr.ctorIdx]

theorem isInstr_buildEngine : IsInstr (buildEngine maj c min t) := by
  unfold buildEngine
  split
  case h_7 =>
    cases hscope : Scope.ofCode ((S32.of t).imm.extractLsb' 0 2) <;>
      simp [hscope, isInstr_none, isInstr_some, isInstr_ite, Instr.ctorIdx, S32.r3, S32.r2]
  case h_16 =>
    cases htier : Tier.ofCode ((S32.of t).imm.extractLsb' 0 2) <;>
      simp [htier, isInstr_none, isInstr_some, isInstr_ite, Instr.ctorIdx]
  all_goals
    simp [isInstr_none, isInstr_some, isInstr_ite, isInstr_bind, List.getElem?_cons, option_ite_bind, Option.map_eq_bind,
      isInstr_mrow, Instr.ctorIdx, S32.r3, S32.r2, V32.mcvt, E64.opaS, E64.mmem, E64.vwait, E64.vamo, E64.winOpen, E64.vwacc,
      E64.cpy, E64.cpy2d]

/-- No major and no MINOR builds an event. -/
theorem isInstr_build : IsInstr (build maj c min t) := by
  simp only [build, isInstr_ite]
  exact ⟨fun _ => isInstr_buildScalar maj min t, fun _ => ⟨fun _ => isInstr_buildMemFloat maj min t, fun _ =>
    ⟨fun _ => isInstr_buildVector maj c min t, fun _ => ⟨fun _ => isInstr_buildVecMem maj c min t,
      fun _ => isInstr_buildEngine maj c min t⟩⟩⟩⟩

end

/-- What decodes was built from the tail of an assigned head and meets the field rules. -/
theorem build_of_decode {h : BitVec 16} {t : BitVec 64} {i : Instr} (hd : decode h t = .ok i) :
    build (Head.of h).major.toNat (Head.of h).c (Head.of h).minor t = some i ∧ i.wf = true := by
  simp only [decode] at hd
  repeat' split at hd
  all_goals simp_all

end Sys2Proof

open Sys2Proof

/-- Settles O3: the encoder answers for every constructor but the events, and no major builds an event. -/
theorem decodedWellFormed : Obligations.DecodedWellFormed :=
  ⟨encode_isSome, fun _ _ i hd =>
    have ⟨hb, hw⟩ := build_of_decode hd
    ⟨hw, isInstr_build _ _ _ _ i hb⟩⟩

end

section
/-!
SUPPORT. The line that holds one head alone with its tail (R140, R143, R144).
-/

namespace Sys2Proof

open Machine

/-! ## Tails that fill their layout -/

theorem T16.bits_lt (x : T16) : x.bits.toNat < 2 ^ (8 * tailLen Layout.t16.tcode) := by
  rw [T16.bits, BitVec.toNat_setWidth]
  exact (Nat.mod_le _ _).trans_lt (BitVec.isLt _)

theorem S32.bits_lt (x : S32) : x.bits.toNat < 2 ^ (8 * tailLen Layout.s32.tcode) := by
  rw [S32.bits, BitVec.toNat_setWidth]
  exact (Nat.mod_le _ _).trans_lt (BitVec.isLt _)

theorem B32.bits_lt (x : B32) : x.bits.toNat < 2 ^ (8 * tailLen Layout.b32.tcode) := by
  rw [B32.bits, BitVec.toNat_setWidth]
  exact (Nat.mod_le _ _).trans_lt (BitVec.isLt _)

theorem V32.bits_lt (x : V32) : x.bits.toNat < 2 ^ (8 * tailLen Layout.v32.tcode) := by
  rw [V32.bits, BitVec.toNat_setWidth]
  exact (Nat.mod_le _ _).trans_lt (BitVec.isLt _)

/-- The T code of a head gives its tail the room it needs (R142). -/
def Enc.Fits (e : Enc) : Prop :=
  e.tail.toNat < 2 ^ (8 * tailLen (e.head.extractLsb' 13 2))

theorem Enc.fits_of_encV {c : Bool} {lay : Layout} {maj : BitVec 7} {min : BitVec 6} {t : BitVec 64} {e : Enc}
    (ht : t.toNat < 2 ^ (8 * tailLen lay.tcode)) (h : encV c lay maj min t = some e) : e.Fits := by
  obtain rfl := Option.some.inj h
  have hcode : (Head.bits ⟨c, lay.tcode, maj, min⟩).extractLsb' 13 2 = lay.tcode := congrArg Head.t (Head.of_bits _)
  rwa [Enc.Fits, hcode]

theorem Enc.fits_of_encode {i : Instr} {e : Enc} (h : encode i = some e) : e.Fits := by
  cases i with
  | nop | finish | ret | fenceG | fenceD | fenceS => exact fits_of_encV (by decide) h
  | brk | trap | progMark | barInit | barArr | barArrRlx | barDrop | barWait => exact fits_of_encV (T16.bits_lt _) h
  | br | call | beq | bne | blt | bge | bltn | bgen | bz | bnz => exact fits_of_encV (B32.bits_lt _) h
  | mcvtI32Trio a | mcvtF32I32 a | mcvtBf16F32 a => exact fits_of_encV (V32.bits_lt _) h
  | vadd | vsub | vmul | vmulh | vmadd | vmin | vmax | vand | vor | vxor | vshl | vshr | vsar | vfadd | vfsub | vfmul
  | vfdiv | vfmin | vfmax | vfma | vscale | vaddX | vsubX | vmulX | vmulhX | vmaddX | vminX | vmaxX | vandX | vorX
  | vxorX | vshlX | vshrX | vsarX | vfaddX | vfsubX | vfmulX | vfdivX | vfminX | vfmaxX | vfsqrt | vfrcpE | vcvtH
  | vcvtD | vcvtF32E2m1 | vscanAdd | vscanAddx | vcmpEq | vcmpNe | vcmpLt | vcmpGe | vcmpLtN | vcmpGeN | vcmpFeq
  | vcmpFlt | vcmpFle | vcmpFun | vsel | vperm | vzip | vfwdRes | vunzip | vrepBlk | vcompress | vexpand | vslideUp
  | vslideDn | vredAddO | vredAddT | vredMin | vredMax | vld | vst | vldx | vstxO | vstxN | kand | kor | knot | kpop
  | kfirst | vmvSx | vbcast | vmvXs | vtag | vltLd | vltSt | vltFill | mzero | mtag | vopa | mrd | mwr =>
    exact fits_of_encV (V32.bits_lt _) h
  | li | vlds | vsts | vldc | vstc | vmergeUAdd | vmergeUSub | vmergeUMax | vxch | vopaS | mld | mst | vwait | vamoAdd
  | vamoAnd | vamoOr | vamoXor | vamoMin | vamoMax | vamoSwp | vamoCas | winOpen | vwaccAdd | winMerge | winClose
  | cpy | cpy2d | cpyFl | cpyMove => exact fits_of_encV (BitVec.isLt _) h
  | jr | sget | sput | vsetvl | vsettype | vsettypeImm | qdrain | sysCall | taskPost | add | sub | mul | mulh | mulhN
  | div | divN | rem | remN | addImm | subImm | mulImm | and | or | xor | andn | shl | shr | sar | rot | andImm | orImm
  | xorImm | andnImm | shlImm | shrImm | sarImm | rotImm | min | max | minN | maxN | cmpEq | cmpNe | cmpLt | cmpGe
  | cmpLtN | cmpGeN | cmpEqImm | cmpNeImm | cmpLtImm | cmpGeImm | cmpLtNImm | cmpGeNImm | clz | ctz | pop | bext | bins
  | lih | lea | ldB | ldH | ldW | ldD | ldBN | ldHN | ldWN | stB | stH | stW | stD | amoAdd | amoAnd | amoOr | amoXor
  | amoMin | amoMax | amoSwp | amoCas | amoMinN | amoMaxN | fadd | fsub | fmul | fdiv | fmin | fmax | fma | fsqrt
  | fcmpEq | fcmpLt | fcmpLe | fcmpUn | fcvtF32F64 | fcvtF64F32 | fcvtF32I64 | fcvtF32N64 | fcvtF64I64 | fcvtF64N64
  | fcvtI64F32 | fcvtN64F32 | fcvtI64F64 | fcvtN64F64 | acq | rel | syncBind | syncUnbind | tokPoll | fwdRes | fwdCmp
  | fwdStat | fwdRelink | fwdClear | tierHint => exact fits_of_encV (S32.bits_lt _) h
  | _ => cases h

/-! ## One head in a line -/

theorem tailLen_le (t : BitVec 2) : tailLen t ≤ 8 := by
  revert t
  decide

/-- Bit `i` of a line of one head: the head's below bit 16, the tail's at the upper end. -/
theorem getLsbD_single (h : BitVec 16) {t : BitVec 64} {i : Nat} (hi : i < 512)
    (ht : t.toNat < 2 ^ (8 * tailLen (h.extractLsb' 13 2))) :
    (Line.single h t).getLsbD i = (h.getLsbD i
      || (decide (8 * (64 - tailLen (h.extractLsb' 13 2)) ≤ i) && t.getLsbD (i - 8 * (64 - tailLen (h.extractLsb' 13 2))))) := by
  have hlen := tailLen_le (h.extractLsb' 13 2)
  have hmask : t &&& (BitVec.allOnes 64 >>> (8 * (8 - tailLen (h.extractLsb' 13 2)))) = t := by
    apply BitVec.eq_of_getLsbD_eq
    intro k hk
    by_cases hbit : k < 8 * tailLen (h.extractLsb' 13 2)
    · rw [BitVec.getLsbD_and, BitVec.getLsbD_ushiftRight, BitVec.getLsbD_allOnes, decide_eq_true (by omega), Bool.and_true]
    · simp [BitVec.getLsbD, Nat.testBit_lt_two_pow (ht.trans_le (Nat.pow_le_pow_right (by decide) (not_lt.mp hbit)))]
  simp only [Line.single]
  rw [hmask, BitVec.getLsbD_or, BitVec.getLsbD_shiftLeft, BitVec.getLsbD_setWidth, BitVec.getLsbD_setWidth]
  by_cases hlow : i < 8 * (64 - tailLen (h.extractLsb' 13 2))
  · simp [hi, hlow]
  · simp [hi, hlow, show i - 8 * (64 - tailLen (h.extractLsb' 13 2)) < 512 by omega, not_lt.mp hlow]

theorem head_single_zero (h : BitVec 16) {t : BitVec 64} (ht : t.toNat < 2 ^ (8 * tailLen (h.extractLsb' 13 2))) :
    (Line.single h t).head 0 = h := by
  have hlen := tailLen_le (h.extractLsb' 13 2)
  apply BitVec.eq_of_getLsbD_eq
  intro i hi
  rw [Line.head, BitVec.getLsbD_extractLsb', getLsbD_single h (by omega) ht]
  simp [hi]
  omega

theorem head_single_one (h : BitVec 16) {t : BitVec 64} (ht : t.toNat < 2 ^ (8 * tailLen (h.extractLsb' 13 2))) :
    (Line.single h t).head 1 = 0 := by
  have hlen := tailLen_le (h.extractLsb' 13 2)
  apply BitVec.eq_of_getLsbD_eq
  intro i hi
  rw [Line.head, BitVec.getLsbD_extractLsb', getLsbD_single h (by omega) ht]
  simp [hi]
  omega

/-- The tail of the one head stands at the upper end of its line. -/
theorem tail_single (h : BitVec 16) {t : BitVec 64} (ht : t.toNat < 2 ^ (8 * tailLen (h.extractLsb' 13 2))) :
    ((Line.single h t).extractLsb' (8 * (64 - tailLen (h.extractLsb' 13 2))) (8 * tailLen (h.extractLsb' 13 2))).setWidth 64
      = t := by
  have hlen := tailLen_le (h.extractLsb' 13 2)
  apply BitVec.eq_of_getLsbD_eq
  intro i hi
  rw [BitVec.getLsbD_setWidth, BitVec.getLsbD_extractLsb']
  by_cases hbit : i < 8 * tailLen (h.extractLsb' 13 2)
  · rw [getLsbD_single h (by omega) ht]
    simp [hi, hbit, BitVec.getLsbD_of_ge h _ (show 16 ≤ 8 * (64 - tailLen (h.extractLsb' 13 2)) + i by omega)]
  · simp [hbit, BitVec.getLsbD, Nat.testBit_lt_two_pow (ht.trans_le (Nat.pow_le_pow_right (by decide) (not_lt.mp hbit)))]

theorem heads_single {h : BitVec 16} {t : BitVec 64} (hne : h ≠ 0)
    (ht : t.toNat < 2 ^ (8 * tailLen (h.extractLsb' 13 2))) : (Line.single h t).heads = ([(h, t)], false) := by
  have hlen := tailLen_le (h.extractLsb' 13 2)
  have hend : (Line.single h t).scan (30 + 1) 1 (tailLen (h.extractLsb' 13 2)) = ([], false) := by
    rw [Line.scan]
    exact if_pos (Or.inr (head_single_one h ht))
  change (Line.single h t).scan (31 + 1) 0 0 = _
  rw [Line.scan, head_single_zero h ht]
  dsimp only
  rw [if_neg (not_or.mpr ⟨by omega, hne⟩), if_neg (by omega), Nat.zero_add, Nat.zero_add, Nat.sub_zero, hend, tail_single h ht]

/-- No word of an instruction is the terminator. -/
theorem head_ne_zero {i : Instr} {e : Enc} (hw : i.wf = true) (he : encode i = some e) : e.head ≠ 0 := by
  intro hzero
  have hdecode := decode_encode i e hw he
  rw [hzero, decode_of_minor_unassigned (lay := .none) _ rfl rfl] at hdecode
  cases hdecode

end Sys2Proof

open Sys2Proof

/-- Settles O5: the line holds the head in slot 0 and the terminator after it, so that only a fetch in order goes on from
there. -/
theorem lineOfOneHead : Obligations.LineOfOneHead := by
  intro i e seq hw he
  have hheads := heads_single (head_ne_zero hw he) (Enc.fits_of_encode he)
  refine ⟨?_, ?_, ?_⟩ <;> simp [Machine.Line.at, hheads]

end

section
/-!
SUPPORT. The scalar registers, what a scalar instruction leaves unchanged, and where it waits (R36, R20, R110, R161, R164).
-/

namespace Sys2Proof.Machine

/-! ## The scalar registers -/

@[simp] theorem Strand.getS_zero (t : Strand) : t.getS 0 = 0 := rfl

@[simp] theorem Strand.setS_zero (t : Strand) (x : Word) : t.setS 0 x = t := rfl

theorem Strand.getS_setS (t : Strand) (r q : SReg) (x : Word) :
    (t.setS r x).getS q = if q = r ∧ r ≠ 0 then x else t.getS q := by
  by_cases hr : r = 0
  · subst hr
    rw [Strand.setS_zero, if_neg fun h => h.2 rfl]
  by_cases hq : q = 0
  · subst hq
    rw [Strand.getS_zero, Strand.getS_zero, if_neg fun h => hr h.1.symm]
  rw [Strand.setS, if_neg hr, Strand.getS, if_neg hq, Strand.getS, if_neg hq, Vector.getElem_set]
  simp only [← BitVec.toNat_inj, hr, ne_eq, not_false_eq_true, and_true, eq_comm]

theorem Strand.setS_frame (t : Strand) (r : SReg) (x : Word) : t.setS r x = { t with s := (t.setS r x).s } := by
  unfold Strand.setS
  split <;> rfl

theorem Strand.getS_advance (t : Strand) (r : SReg) : t.advance.getS r = t.getS r := rfl

/-! ## Waits -/

/-- Register s0 is never waited for. -/
theorem Strand.mustWait_zero (t : Strand) (a : SReg) : t.mustWait [a, 0] = t.mustWait [a] := by
  simp [Strand.mustWait, Strand.isReserved, Strand.isPending, Strand.openGave]

theorem State.waitFor_zero (s : State) (t : Strand) (a : SReg) : s.waitFor t [a, 0] = s.waitFor t [a] := by
  simp [State.waitFor, Strand.openNames]

/-- An instruction that looks first whether it must wait for its registers, and must, waits. -/
theorem waits_of_mustWait {o : Out} {s : State} {t : Strand} {regs : List SReg} {f : Strand → State}
    (ho : o = s.withCur fun t => .next (if t.mustWait regs then s.waitFor t regs else f t))
    (h : s.curStrand = some t) (hw : t.mustWait regs = true) : o = .next (s.waitFor t regs) := by
  rw [ho, State.withCur_of h, if_pos hw]

/-- Each scalar instruction looks first whether it must wait for a register it names. -/
theorem exec_waits {i : Instr} {regs : List SReg} {s : State} {t : Strand} (hn : namedRegs i = some regs)
    (h : s.curStrand = some t) (hw : t.mustWait regs = true) : exec i s = .next (s.waitFor t regs) := by
  cases i with
  | bz | bnz =>
    cases hn
    rw [← State.waitFor_zero]
    rw [← Strand.mustWait_zero] at hw
    exact waits_of_mustWait rfl h hw
  | add | sub | mul | mulh | mulhN | div | divN | rem | remN | and | or | xor | andn | shl | shr | sar | rot | min | max
  | minN | maxN | cmpEq | cmpNe | cmpLt | cmpGe | cmpLtN | cmpGeN | lea | addImm | subImm | mulImm | andImm | orImm | xorImm
  | andnImm | shlImm | shrImm | sarImm | rotImm | cmpEqImm | cmpNeImm | cmpLtImm | cmpGeImm | cmpLtNImm | cmpGeNImm | clz
  | ctz | pop | bext | bins | lih | li | fadd | fsub | fmul | fdiv | fmin | fmax | fma | fcmpEq | fcmpLt | fcmpLe | fcmpUn
  | fsqrt | fcvtF32F64 | fcvtF64F32 | fcvtF32I64 | fcvtF32N64 | fcvtF64I64 | fcvtF64N64 | fcvtI64F32 | fcvtN64F32
  | fcvtI64F64 | fcvtN64F64 | ldB | ldH | ldW | ldD | ldBN | ldHN | ldWN | stB | stH | stW | stD | amoAdd | amoAnd | amoOr
  | amoXor | amoMin | amoMax | amoSwp | amoCas | amoMinN | amoMaxN | beq | bne | blt | bge | bltn | bgen | call | ret | jr
  | sget | sput | progMark | trap | vsetvl | vsettype | qdrain | sysCall | vsettypeImm | taskPost | tokPoll | tierHint
  | fwdRes | fwdStat | fwdCmp | fwdRelink | fwdClear =>
    cases hn
    exact waits_of_mustWait rfl h hw
  | _ => cases hn

theorem State.waitFor_eq (s : State) (t : Strand) (regs : List SReg) :
    s.waitFor t regs = s.put (if regs.any t.openNames then { t with stalled := true, copen := false, fresh := true }
      else { t with stalled := true }) := by
  unfold State.waitFor
  split <;> rfl

/-! ## The clauses -/

theorem scalarRegisterFile : ScalarRegisterFile := fun t r q x =>
  ⟨t.getS_zero, t.setS_zero x, t.getS_setS r q x, t.setS_frame r x⟩

theorem scalarFrame : ScalarFrame := by
  intro s t sd x h
  have hid : (t.setS sd x).advance.id = t.id := by rw [Strand.setS_frame]; rfl
  refine ⟨rfl, fun n hn => strand_put_other s _ n (by rwa [hid]), (t.setS sd x).advance, ?_, ?_, ?_, ?_⟩
  · rw [← hid]
    exact strand_put (by rw [hid, cur_strand h])
  · rw [Strand.setS_frame]; rfl
  · intro r
    rw [Strand.getS_advance, Strand.getS_setS]
  · rw [Strand.setS_frame]; rfl

theorem scalarWaits : ScalarWaits := fun _ regs s t hn h hw =>
  (exec_waits hn h hw).trans (by rw [s.waitFor_eq t regs])

end Sys2Proof.Machine

open Sys2Proof Sys2Proof.Machine

/-- Settles O14: the register file is a vector with s0 apart, and each scalar instruction looks first at the registers it
names. -/
theorem scalarRegistersAndFrame : Obligations.ScalarRegistersAndFrame :=
  ⟨scalarRegisterFile, scalarFrame, scalarWaits⟩

end

section
/-!
SUPPORT. Transfers and `end` (R149, R150, R185, R186, R196), heads that trap (R152, R162, R165, R195).
-/

namespace Sys2Proof.Machine

/-! ## A fault of the scalar side -/

theorem State.scalarTrap_idle {s : State} {t : Strand} (h : t.idle) (c : Cause) (a v : Word) (n : Nat) :
    s.scalarTrap t c a v n = s.takeTrap t ⟨c, a, v, n, true, t.pc⟩ t.pc [] 0 none := by
  obtain ⟨hv, hr, ha⟩ := h
  simp [State.scalarTrap, hv, hr, ha]

theorem State.scalarTrap_access {s : State} {t : Strand} (h : t.acc.isSome = true) (c : Cause) (a v : Word) (n : Nat) :
    s.scalarTrap t c a v n = s.stallClosing t := by
  rw [State.scalarTrap, if_pos h]

theorem Strand.idle_iff_of_no_access {t : Strand} (h : t.acc = none) :
    t.idle ↔ (t.viq.isEmpty && t.rq.isEmpty) = true := by
  simp [Strand.idle, h]

theorem State.scalarTrap_queued {s : State} {t : Strand} (ha : t.acc = none) (h : ¬ t.idle) (c : Cause) (a v : Word) (n : Nat) :
    s.scalarTrap t c a v n = s.put { t.closeConvoy with
      vfault := t.vfault.orElse fun _ => some ⟨t.viq.length, ⟨c, a, v, n, true, t.pc⟩, 0, none⟩, stalled := true, hold := none } := by
  rw [Strand.idle_iff_of_no_access ha] at h
  rw [State.scalarTrap, if_neg (by simp [ha]), if_neg h]

theorem State.trapOnceIdle_idle {s : State} {t : Strand} (h : t.idle) (info : Trapped) (pc : Word) :
    s.trapOnceIdle t info pc = s.takeTrap t info pc [] 0 none := by
  obtain ⟨hv, hr, ha⟩ := h
  simp [State.trapOnceIdle, hv, hr, ha]

theorem State.trapOnceIdle_busy {s : State} {t : Strand} (h : ¬ t.idle) (info : Trapped) (pc : Word) :
    s.trapOnceIdle t info pc = s.stallClosing t := by
  rw [State.trapOnceIdle, if_neg]
  simpa [Strand.idle, and_assoc] using h

/-! ## Transfers -/

/-- The low six bits of an address cleared. -/
theorem and_not_63 (pc : Word) : pc &&& ~~~(63 : Word) = BitVec.ofNat 64 (64 * (pc.toNat / 64)) := by
  have h : pc &&& ~~~(63 : Word) = pc >>> 6 <<< 6 := by
    rw [show (63 : Word) = (BitVec.allOnes 6).setWidth 64 from rfl]
    ext i hi
    rcases Nat.lt_or_ge i 6 with h6 | h6
    all_goals simp only [BitVec.getElem_and, BitVec.getElem_not, BitVec.getElem_setWidth, BitVec.getLsbD_allOnes,
      BitVec.getElem_shiftLeft]
    · simp [h6]
    · simp [Nat.not_lt.mpr h6, Nat.add_sub_cancel' h6, BitVec.getLsbD_eq_getElem hi]
  rw [h]
  apply BitVec.eq_of_toNat_eq
  rw [BitVec.toNat_shiftLeft, BitVec.toNat_ushiftRight, BitVec.toNat_ofNat, Nat.shiftLeft_eq, Nat.shiftRight_eq_div_pow]
  omega

theorem branchTarget_eq_targetOf (pc : Word) (off : BitVec 17) (slot : BitVec 5) :
    branchTarget pc off slot = targetOf pc off slot := by
  have hslot : 2 * slot.setWidth 64 = BitVec.ofInt 64 (2 * (slot.toNat : Int)) := by
    rw [BitVec.ofInt_mul, BitVec.ofInt_natCast, BitVec.ofNat_toNat]
    rfl
  have hoff : off.signExtend 64 * 64 = BitVec.ofInt 64 (64 * off.toInt) := by
    rw [Int.mul_comm, BitVec.ofInt_mul]
    rfl
  have hpc : BitVec.ofNat 64 (64 * (pc.toNat / 64)) = BitVec.ofInt 64 (64 * ((pc.toNat / 64 : Nat) : Int)) := by
    rw [← BitVec.ofInt_natCast, Nat.cast_mul]
    rfl
  rw [branchTarget, targetOf, and_not_63, hslot, hoff, hpc, ← BitVec.ofInt_add, ← BitVec.ofInt_add, Int.mul_add]

/-- A branch that finds its registers ready goes to its target or on, by what it asks of the two. -/
theorem moves_of_branch {i : Instr} {sa sb : SReg} {off : BitVec 17} {slot : BitVec 5} {c : Word → Word → Bool}
    {p : Strand → Prop} [DecidablePred p] (hi : ∀ s, exec i s = s.branch sa sb off slot c)
    (hp : ∀ t : Strand, c (t.getS sa) (t.getS sb) = true ↔ p t) :
    Moves i [sa, sb] (fun _ t => if p t then t.jump (targetOf t.pc off slot) else t.advance) := by
  rintro s t ⟨hc, hw⟩
  rw [hi, State.branch, State.withCur_of hc, hw, branchTarget_eq_targetOf]
  by_cases h : p t
  · simp [h, (hp t).mpr h]
  · simp [h, mt (hp t).mp h]

theorem moves_zero {i : Instr} {sa : SReg} {f : State → Strand → Strand} (h : Moves i [sa, 0] f) : Moves i [sa] f :=
  fun s t ⟨hc, hw⟩ => h s t ⟨hc, by rwa [Strand.mustWait_zero]⟩

theorem conditionalBranches : ConditionalBranches := by
  intro sa sb off slot
  exact
    ⟨moves_of_branch (fun _ => rfl) fun t => beq_iff_toNat_eq _ _,
      moves_of_branch (fun _ => rfl) fun t => by rw [bne_iff_ne, Ne, ← BitVec.toNat_inj],
      moves_of_branch (fun _ => rfl) fun t => BitVec.slt_iff_toInt_lt,
      moves_of_branch (c := fun a b => !a.slt b) (fun _ => rfl) fun t => not_slt_iff_toInt_le _ _,
      moves_of_branch (fun _ => rfl) fun t => BitVec.ult_iff_toNat_lt,
      moves_of_branch (c := fun a b => !a.ult b) (fun _ => rfl) fun t => not_ult_iff_toNat_le _ _,
      moves_zero (moves_of_branch (fun _ => rfl) fun t => beq_iff_toNat_eq _ 0),
      moves_zero (moves_of_branch (fun _ => rfl) fun t => by rw [bne_iff_ne, Ne, ← BitVec.toNat_inj]; rfl)⟩

theorem State.headFrom_of_head {s w : State} {c : Ctx} {pc : Word} {h : BitVec 16} {tl : BitVec 64} {fuel : Nat}
    (hf : s.fetchHead c pc true = .ok (.head h tl) w) (hn : fuel ≠ 0) : s.headFrom c fuel pc = (pc, .ok () w) := by
  cases fuel with
  | zero => exact absurd rfl hn
  | succ n => rw [State.headFrom, hf]

/-- The head two bytes on, where the line holds one there, is the next in fetch order (R149). -/
theorem State.afterHead_of_head {s w : State} {t : Strand} {h : BitVec 16} {tl : BitVec 64}
    (hf : s.fetchHead t.ctx (t.pc + 2) true = .ok (.head h tl) w) : s.afterHead t = (t.pc + 2, .ok () w) :=
  State.headFrom_of_head hf (Nat.two_pow_pos 58).ne'

/-- A transfer that writes the next head's address acts once the search for it need not wait. -/
theorem next_of_ready {i : Instr} {s : State} {t : Strand} {regs : List SReg} {f : Strand → State}
    (hi : exec i s = s.withCur fun t => .next (if t.mustWait regs then s.waitFor t regs else (s.awaitNext t).getD (f t)))
    (h : Ready s t regs) :
    (s.awaitNext t = none → exec i s = .next (f t)) ∧ ∀ w, s.awaitNext t = some w → exec i s = .next w := by
  rw [hi, State.withCur_of h.1, h.2]
  exact ⟨fun hn => by rw [hn]; rfl, fun w hw => by rw [hw]; rfl⟩

theorem transfers : Transfers := by
  intro sd sa imm off slot
  refine ⟨?_, ?_, ?_, ?_, fun s t h => State.scalar_ready h id, ?_⟩
  · rintro s t ⟨hc, -⟩
    show execBr off slot s = _
    rw [execBr, State.withCur_of hc, branchTarget_eq_targetOf]
  · intro s t h
    rw [← branchTarget_eq_targetOf]
    exact next_of_ready (i := .call off slot) (by rfl) h
  · intro s t h
    rw [BitVec.ofInt_add, BitVec.ofInt_toInt]
    exact next_of_ready (i := .jr sd sa imm) (by rfl) h
  · rintro s t ⟨hc, hw⟩
    show execRet s = _
    rw [execRet, State.withCur_of hc, hw]
    rfl
  · intro s w t h tl hf
    rw [State.nextHead, State.awaitNext, State.afterHead_of_head hf]
    exact ⟨rfl, rfl⟩

/-! ## `end` -/

/-- The window a queue leaves is that of its youngest window instruction, else the one open before. -/
theorem foldl_window_eq (l : List Entry) (b : Bool) :
    (l.filter fun e => !e.done).foldl (fun b e => match e.i with
      | .winOpen _ _ _ _ => true
      | .winClose => false
      | _ => b) b = (lastWindow l).getD b := by
  induction l generalizing b with
  | nil => rfl
  | cons e l ih =>
    rw [lastWindow, List.filterMap_cons, List.filter_cons]
    cases hd : e.done
    · rw [if_pos (by simp), List.foldl_cons, ih]
      split <;> simp_all [lastWindow, List.getLast?_cons]
    · rw [if_neg (by simp), ih]
      rfl

theorem Strand.winAfter_eq (t : Strand) : t.winAfter = (lastWindow t.viq).getD t.win.isSome :=
  foldl_window_eq t.viq t.win.isSome

theorem execFinish_of {s : State} {t : Strand} (h : s.curStrand = some t) :
    execFinish s = .next (if t.acc.isSome then s.stallClosing t
      else if (lastWindow t.viq).getD t.win.isSome then s.scalarTrap t .winState 0 0 0
      else s.put { t.closeConvoy with status := .ending, moved := true }) := by
  rw [execFinish, State.withCur_of h, Strand.winAfter_eq]

theorem endOfStrand : EndOfStrand := by
  intro s t hc opened info
  have hexec := execFinish_of hc
  refine ⟨fun ho ha => ?_, fun ho hi => ?_, fun ho ha hq hf => ?_, fun ha => ?_⟩
  · exact hexec.trans (by rw [if_neg (by simp [ha]), if_neg (by simpa using ho)]; rfl)
  · exact hexec.trans (by rw [if_neg (by simp [hi.2.2]), if_pos ho, State.scalarTrap_idle hi])
  · have hi : ¬ t.idle := by
      rintro ⟨hv, hr, -⟩
      exact hq.elim (· hv) (· hr)
    exact hexec.trans (by rw [if_neg (by simp [ha]), if_pos ho, State.scalarTrap_queued ha hi, hf]; rfl)
  · exact hexec.trans (by rw [if_pos ha]; rfl)

/-! ## Heads that trap -/

theorem breakAndTrap : BreakAndTrap := by
  intro s t sa imm hc
  have hbrk : exec (.brk imm) s = .next (s.trapOnceIdle t ⟨.brk, 0, 0, imm.toNat, true, t.pc⟩ t.pc) :=
    State.withCur_of hc _
  have htrap (hw : t.mustWait [sa] = false) (hn : s.awaitNext t = none) : exec (.trap sa imm) s =
      .next (s.trapOnceIdle t ⟨.trap, 0, t.getS sa, imm.toNat, true, t.pc⟩ (s.nextHead t)) :=
    (next_of_ready (i := .trap sa imm) (by rfl) ⟨hc, hw⟩).1 hn
  exact ⟨fun hi => hbrk.trans (by rw [State.trapOnceIdle_idle hi]),
    fun hi hw hn => (htrap hw hn).trans (by rw [State.trapOnceIdle_idle hi]),
    fun hi => hbrk.trans (by rw [State.trapOnceIdle_busy hi]; rfl),
    fun hi hw hn => (htrap hw hn).trans (by rw [State.trapOnceIdle_busy hi]; rfl)⟩

/-- A head that is a fault of the scalar side takes it, leaves it to the queue, or waits behind an access. -/
theorem headFault {o : Out} {s : State} {t : Strand} {c : Cause} {a v : Word} (hc : s.curStrand = some t)
    (ho : o = s.withCur fun t => .next (s.scalarTrap t c a v 0)) :
    (t.idle → o = .next (s.takeTrap t ⟨c, a, v, 0, true, t.pc⟩ t.pc [] 0 none))
    ∧ (t.acc = none → ¬ t.idle → o = .next (s.put { t with
        copen := false, fresh := true,
        vfault := t.vfault.orElse fun _ => some ⟨t.viq.length, ⟨c, a, v, 0, true, t.pc⟩, 0, none⟩,
        stalled := true, hold := none }))
    ∧ (t.acc.isSome = true → o = .next (s.put { t with copen := false, fresh := true, stalled := true })) := by
  rw [ho, State.withCur_of hc]
  exact ⟨fun hi => by rw [State.scalarTrap_idle hi], fun ha hi => by rw [State.scalarTrap_queued ha hi]; rfl,
    fun ha => by rw [State.scalarTrap_access ha]; rfl⟩

theorem headFaults : HeadFaults := by
  intro s t c a v hc p hp
  rcases List.mem_pair.mp hp with rfl | rfl
  · exact headFault hc rfl
  · exact headFault hc rfl

end Sys2Proof.Machine

open Sys2Proof Sys2Proof.Machine

/-- Settles O15: branches compare two registers and add line offsets; `end` looks at the youngest window instruction. -/
theorem controlTransfers : Obligations.ControlTransfers :=
  ⟨conditionalBranches, transfers, endOfStrand⟩

/-- Settles O18: `brk` and `trap` wait until the strand is idle, a faulty head is a fault of the scalar side. -/
theorem exceptionsOfHeads : Obligations.ExceptionsOfHeads :=
  ⟨breakAndTrap, headFaults⟩

end

section
/-!
SUPPORT. System registers and configuration (R40, R41, R44, R56, R187 to R189, R194); taking an exception and returning from
one (R341, R342, R346, R376).
-/

namespace Sys2Proof.Machine

/-! ## System registers -/

theorem setWidth_eq_ofNat {n m : Nat} (x : BitVec n) : x.setWidth m = BitVec.ofNat m x.toNat := by
  rw [BitVec.ofNat_toNat]

theorem ofNat_mod_word (x : Nat) : BitVec.ofNat 64 (x % 2 ^ 64) = BitVec.ofNat 64 x :=
  BitVec.eq_of_toNat_eq (by rw [BitVec.toNat_ofNat, BitVec.toNat_ofNat, Nat.mod_mod])

theorem ofNat_toNat_word (x : Word) : BitVec.ofNat 64 x.toNat = x := by
  rw [BitVec.ofNat_toNat, BitVec.setWidth_eq]

theorem State.timeNs_eq (s : State) : s.timeNs = BitVec.ofNat 64 (if s.timeValid then s.time3 / 3 % 2 ^ 64 else 0) := by
  unfold State.timeNs
  split
  · rw [ofNat_mod_word]
  · rfl

/-- The register file of R56 that the model reads is the one listed. -/
theorem sysReg_of_mem {s : State} {t : Strand} {n x : Nat} (h : (n, x) ∈ systemRegisters s t) :
    s.sysReg t n = BitVec.ofNat 64 x := by
  suffices hall : ∀ p ∈ systemRegisters s t, s.sysReg t p.1 = BitVec.ofNat 64 p.2 from hall _ h
  simp only [systemRegisters, List.forall_mem_cons, List.not_mem_nil, false_implies, implies_true, and_true, State.sysReg,
    setWidth_eq_ofNat, ofNat_mod_word, State.beatCount, State.timeNs_eq, true_and, ofNat_toNat_word]
  rfl

theorem closesConvoy_iff (num : BitVec 12) :
    closesConvoy num.toNat = true ↔ num ∈ [0x000#12, 0x004#12, 0x009#12, 0x023#12] := by
  simp only [closesConvoy, Bool.or_eq_true, beq_iff_eq, List.mem_cons, List.not_mem_nil, or_false, ← BitVec.toNat_inj,
    or_assoc]
  rfl

theorem Strand.loadsPending_iff (t : Strand) :
    t.loadsPending = true ↔ ∃ e ∈ t.viq, e.done = false ∧ e.loads = true := by
  simp only [Strand.loadsPending, List.any_eq_true, Bool.and_eq_true, Bool.not_eq_true', Entry.loads]

theorem Strand.sgetWaits_iff (t : Strand) (num : BitVec 12) : t.sgetWaits num.toNat = true ↔ sgetMustWait t num := by
  have h (k : Nat) (hk : k < 2 ^ 12) : num.toNat = k ↔ num = BitVec.ofNat 12 k := by
    rw [← BitVec.toNat_inj, BitVec.toNat_ofNat, Nat.mod_eq_of_lt hk]
  simp only [Strand.sgetWaits, sgetMustWait, ← Strand.loadsPending_iff, Bool.or_eq_true, beq_iff_eq, h 0 (by decide),
    h 4 (by decide)]
  by_cases h0 : num = 0#12 ∨ num = 4#12
  · have h9 : ¬ (num = 9#12 ∨ num = 35#12) := by
      rcases h0 with rfl | rfl <;> decide
    simp [h0, h9]
  · simp [h0, h 9 (by decide), h 35 (by decide)]

theorem execSget_ready {s : State} {t : Strand} {sd : SReg} (num : BitVec 12) (h : Ready s t [sd]) :
    execSget sd num s = .next (if t.sgetWaits num.toNat then s.stallClosing t
      else s.put ((if closesConvoy num.toNat then t.closeConvoy else t).setS sd (s.sysReg t num.toNat)).advance) := by
  rw [execSget, State.withCur_of h.1, h.2]
  rfl

theorem systemRegisterAccess : SystemRegisterAccess := by
  refine ⟨?_, ?_, ?_⟩
  · intro s t sd num x h hw hx
    refine (execSget_ready num h).trans ?_
    simp only [mt (Strand.sgetWaits_iff t num).mp hw, closesConvoy_iff, sysReg_of_mem hx]
    rfl
  · intro s t sd num h hw
    refine (execSget_ready num h).trans ?_
    rw [if_pos ((Strand.sgetWaits_iff t num).mpr hw)]
    rfl
  · intro num sa s t h
    refine (State.scalar_ready h _).trans ?_
    simp only [setWidth_eq_ofNat]

/-! ## Configuration -/

theorem fieldNat_eq {n : Nat} (x : BitVec n) (off w : Nat) : fieldNat x off w = x.toNat / 2 ^ off % 2 ^ w := by
  rw [fieldNat, BitVec.extractLsb'_toNat, Nat.shiftRight_eq_div_pow]

theorem vlmaxOf_eq (q : Nat) (vt : BitVec 12) :
    vlmaxOf q vt = 32768 * q * 2 ^ (vt.toNat % 8) / (4 * 2 ^ (vt.toNat / 8 % 8)) := by
  rw [vlmaxOf, grpOf, ewOf, fieldNat_eq, fieldNat_eq, Nat.pow_zero, Nat.div_one]
  rfl

theorem State.configure_ready {s : State} {t : Strand} {regs : List SReg} (h : Ready s t regs) (reads : Bool)
    (f : Strand → State) : s.configure regs reads f
      = .next (if reads && t.loadsPending then s.stallClosing t else f t.closeConvoy) := by
  rw [State.configure, State.withCur_of h.1, h.2]
  rfl

theorem setVectorLength : SetVectorLength := by
  intro s t sd sa h vl
  show execVsetvl sd sa s = _
  rw [execVsetvl, State.configure_ready h]
  simp only [vlmaxOf_eq]
  rfl

/-- A word is a legal `vtype` where it has 12 bits and no reserved code. -/
theorem legalVtype_iff (w : Word) : ¬ (w >>> 12 ≠ 0 ∨ (!vtypeOk (w.setWidth 12)) = true)
    ↔ w.toNat < 4096 ∧ w.toNat % 8 ≤ 3 ∧ w.toNat / 8 % 8 ≤ 4 := by
  have hshift : w >>> 12 = 0 ↔ w.toNat < 4096 := by
    rw [← BitVec.toNat_inj, BitVec.toNat_ushiftRight, Nat.shiftRight_eq_div_pow]
    show w.toNat / 4096 = 0 ↔ _
    omega
  simp only [not_or, not_not, Bool.not_eq_true', Bool.not_eq_false, vtypeOk, Bool.and_eq_true, decide_eq_true_eq,
    fieldNat_eq, BitVec.toNat_setWidth, ne_eq, hshift]
  omega

theorem State.setVtype_legal {s : State} {t : Strand} {w : Word} (sd : SReg)
    (h : w.toNat < 4096 ∧ w.toNat % 8 ≤ 3 ∧ w.toNat / 8 % 8 ≤ 4) :
    let vl := min t.vl (32768 * t.q * 2 ^ (w.toNat % 8) / (4 * 2 ^ (w.toNat / 8 % 8)))
    s.setVtype t sd w
      = s.put ({ t with vtype := BitVec.ofNat 12 w.toNat, vl := vl, gen := t.gen + 1 }.setS sd (BitVec.ofNat 64 vl)).advance := by
  have hw : (w.setWidth 12).toNat = w.toNat := by
    rw [BitVec.toNat_setWidth, Nat.mod_eq_of_lt h.1]
  simp only [State.setVtype, if_neg ((legalVtype_iff w).mpr h), vlmaxOf_eq, hw, BitVec.ofNat_toNat]

theorem State.setVtype_reserved {s : State} {t : Strand} {w : Word} (sd : SReg)
    (h : ¬ (w.toNat < 4096 ∧ w.toNat % 8 ≤ 3 ∧ w.toNat / 8 % 8 ≤ 4)) :
    s.setVtype t sd w = s.scalarTrap t .vtype 0 0 0 :=
  if_pos (not_not.mp (mt (legalVtype_iff w).mp h))

/-- `vsettype` of a word: it waits for older vector loads, takes a legal word, traps at another. -/
theorem configure_setVtype {s : State} {t : Strand} {regs : List SReg} (h : Ready s t regs) (sd : SReg) (w : Strand → Word)
    (hw : w t.closeConvoy = w t) :
    let passed : Prop := ∀ e ∈ t.viq, e.loads = true → e.done = true
    let legal : Prop := (w t).toNat < 4096 ∧ (w t).toNat % 8 ≤ 3 ∧ (w t).toNat / 8 % 8 ≤ 4
    let vl := min t.vl (32768 * t.q * 2 ^ ((w t).toNat % 8) / (4 * 2 ^ ((w t).toNat / 8 % 8)))
    let o := s.configure regs true fun t => s.setVtype t sd (w t)
    (passed → legal → o = .next (s.put ({ t with
        vtype := BitVec.ofNat 12 (w t).toNat, vl := vl, copen := false, fresh := true, gen := t.gen + 1 }.setS sd
          (BitVec.ofNat 64 vl)).advance))
    ∧ (¬ legal → t.idle → o = .next (s.takeTrap { t with copen := false, fresh := true } ⟨.vtype, 0, 0, 0, true, t.pc⟩
        t.pc [] 0 none))
    ∧ (¬ passed → o = .next (s.put { t with stalled := true, copen := false, fresh := true })) := by
  intro passed legal vl o
  have hp : passed ↔ ¬ t.loadsPending = true := by
    rw [Strand.loadsPending_iff]
    simp only [passed, not_exists, not_and, Bool.not_eq_true]
    exact forall₂_congr fun e _ => ⟨fun h1 h2 => by simpa [h2] using h1, fun h1 h2 => by simpa [h2] using h1⟩
  have ho : o = .next (if t.loadsPending then s.stallClosing t else s.setVtype t.closeConvoy sd (w t)) := by
    rw [← hw]
    exact State.configure_ready h true _
  refine ⟨fun h1 h2 => ho.trans ?_, fun h2 hi => ho.trans ?_, fun h1 => ho.trans ?_⟩
  · rw [if_neg (hp.mp h1), State.setVtype_legal sd h2]
    rfl
  · have hq : ¬ t.loadsPending = true := by simp [Strand.loadsPending, hi.1]
    rw [if_neg hq, State.setVtype_reserved sd h2, State.scalarTrap_idle (t := t.closeConvoy) hi]
    rfl
  · rw [if_pos (not_not.mp (mt hp.mpr h1))]
    rfl

theorem setVectorType : SetVectorType := fun _ _ sd sa imm =>
  ⟨fun h => configure_setVtype h sd (fun u => u.getS sa) rfl,
    fun h => configure_setVtype h sd (fun _ => imm.setWidth 64) rfl⟩

theorem progressMark : ProgressMark := fun _ _ _ _ h => State.scalar_ready h _

/-! ## The slot table -/

/-- A value put under a key is found there, whatever the list. -/
theorem Cells.find_put_some {α : Type} (l : List (Nat × α)) (a : Nat) (w : α) :
    Cells.find (Cells.put l a (some w)) a = some w := by
  induction l with
  | nil => simp [Cells.put, Cells.find]
  | cons y l ih =>
    simp only [Cells.put]
    split
    · simp [Cells.find]
    · split
      · simp [Cells.find]
      · rename_i h
        simp [Cells.find, Ne.symm h, ih]

theorem State.slot_setSlot_same {s : State} {n : Nat} {w : Word} (h : w ≠ 0) : (s.setSlot n w).slot n = w := by
  rw [State.slot, State.setSlot, if_neg h, Cells.find_put_some]
  rfl

theorem State.slot_setSlot_other (s : State) {n m : Nat} (w : Word) (h : m ≠ n) : (s.setSlot n w).slot m = s.slot m := by
  rw [State.slot, State.setSlot, Cells.find_put_other _ h]
  rfl

theorem slotState_setSlice (w : Word) (code : BitVec 3) : slotState (setSlice w 30 code) = code.toNat := by
  rw [slotState, fieldNat, extract_setSlice_same _ _ _ (by decide)]

theorem setSlice_ne_zero (w : Word) {code : BitVec 3} (h : code ≠ 0) : setSlice w 30 code ≠ 0 := by
  intro hz
  have := slotState_setSlice w code
  rw [hz] at this
  exact h (BitVec.eq_of_toNat_eq this.symm)

theorem State.markSlots_cons (s : State) (n : Nat) (ids : List Nat) (code : BitVec 3) :
    s.markSlots (n :: ids) code = (s.setSlot n (setSlice (s.slot n) 30 code)).markSlots ids code := rfl

/-- Marking slots changes the slot table alone. -/
theorem State.markSlots_frame (s : State) (ids : List Nat) (code : BitVec 3) :
    s.markSlots ids code = { s with slots := (s.markSlots ids code).slots } := by
  induction ids generalizing s with
  | nil => rfl
  | cons n ids ih =>
    rw [State.markSlots_cons, ih]
    rfl

@[simp] theorem State.markSlots_mem (s : State) (ids : List Nat) (code : BitVec 3) : (s.markSlots ids code).mem = s.mem := by
  rw [State.markSlots_frame]

@[simp] theorem State.markSlots_lines (s : State) (ids : List Nat) (code : BitVec 3) :
    (s.markSlots ids code).lines = s.lines := by
  rw [State.markSlots_frame]

@[simp] theorem State.markSlots_strand (s : State) (ids : List Nat) (code : BitVec 3) (n : Nat) :
    (s.markSlots ids code).strand n = s.strand n := by
  rw [State.markSlots_frame]
  rfl

theorem State.slot_markSlots_other (s : State) {ids : List Nat} (code : BitVec 3) {n : Nat} (h : n ∉ ids) :
    (s.markSlots ids code).slot n = s.slot n := by
  induction ids generalizing s with
  | nil => rfl
  | cons m ids ih =>
    rw [List.mem_cons, not_or] at h
    rw [State.markSlots_cons, ih _ h.2, State.slot_setSlot_other _ _ h.1]

/-- A slot marked reads the STATE it was given. -/
theorem State.slotState_markSlots (s : State) {ids : List Nat} {code : BitVec 3} (hc : code ≠ 0) {n : Nat} (h : n ∈ ids) :
    slotState ((s.markSlots ids code).slot n) = code.toNat := by
  induction ids generalizing s with
  | nil => cases h
  | cons m ids ih =>
    rw [State.markSlots_cons]
    by_cases hn : n ∈ ids
    · exact ih _ hn
    · obtain rfl := (List.mem_cons.mp h).resolve_right hn
      rw [State.slot_markSlots_other _ _ hn, State.slot_setSlot_same (setSlice_ne_zero _ hc), slotState_setSlice]

/-! ## Exceptions -/

/-- Delivering the result queue changes scalar registers and empties the queue. -/
theorem Strand.flush_frame (t : Strand) : t.flush = { t with s := t.flush.s, rq := [] } := by
  suffices h : ∀ (l : List (SReg × Word)) (u : Strand),
      l.foldl (fun u x => u.setS x.1 x.2) u = { u with s := (l.foldl (fun u x => u.setS x.1 x.2) u).s } from h _ _
  intro l
  induction l with
  | nil => exact fun _ => rfl
  | cons x l ih =>
    intro u
    rw [List.foldl_cons, ih, Strand.setS_frame]

theorem Strand.flush_of_empty {t : Strand} (h : t.rq = []) : t.flush.s = t.s := by
  simp only [Strand.flush, h, List.foldl_nil]

/-- What a strand stands as once it has taken an exception. -/
theorem State.strand_takeTrap {s : State} {t : Strand} (h : s.strand t.id.sid = some t) (info : Trapped) (pc : Word)
    (viq : List Entry) (epr : Nat) (perf : Option (List Nat)) :
    let u := { t.flush with viq := viq }
    (s.takeTrap t info pc viq epr perf).strand t.id.sid = some
      { u with
        status := .trapped, record := some (u.recordOf info pc viq epr perf []), held := none, hold := none
        notice := false, unrepaired := false, viq := [], vfault := none, copen := false, fresh := true, stalled := true
        busy := false, vamo := none
        xch := match u.xch with
          | .ended d => .ended d
          | _ => .none } := by
  have hid : t.flush.id = t.id := by rw [Strand.flush_frame]
  rw [State.takeTrap, State.markSlots_strand, ← hid]
  refine strand_put (u := t) ?_
  show (s.endStrand t.id.sid).strand t.flush.id.sid = some t
  rw [hid]
  exact h

/-! ## Returning from an exception -/

/-- Resuming changes where entries stand, not which they are. -/
theorem map_i_resumeEntries (epr : Nat) (perf : List Nat) (left : Option Nat) (l : List Entry) :
    (resumeEntries epr perf left l).map Entry.i = l.map Entry.i := by
  cases l with
  | nil => rfl
  | cons e l =>
    rw [resumeEntries, List.map_append, List.map_cons, List.map_map, List.map_map, List.cons_append, List.map_cons]
    congr 1
    have h := congrArg (List.map Entry.i) (List.takeWhile_append_dropWhile (p := fun x => !x.cs) (l := l))
    rwa [List.map_append] at h

theorem pos_head_resumeEntries {epr : Nat} {perf : List Nat} {left : Option Nat} {l : List Entry} {e : Entry}
    (h : e ∈ (resumeEntries epr perf left l).head?) : e.pos = epr := by
  cases l with
  | nil => cases h
  | cons x l =>
    obtain rfl := Option.mem_some.mp h
    rfl

end Sys2Proof.Machine

open Sys2Proof Sys2Proof.Machine

/-- Settles O16: the registers read are those listed; a word is a legal `vtype` exactly where its fields are. -/
theorem systemRegisters : Obligations.SystemRegisters :=
  ⟨systemRegisterAccess, setVectorLength, setVectorType, progressMark⟩

/-- Settles O17: the record is written from the strand with its result queue delivered, and its slots are marked. -/
theorem takingAnException : Obligations.TakingAnException := by
  intro s t info pc viq epr perf h s'
  have hid : t.flush.id = t.id := by rw [Strand.flush_frame]
  have hs : s'.strand t.id.sid = _ := State.strand_takeTrap h info pc viq epr perf
  refine ⟨State.markSlots_mem .., State.markSlots_lines .., fun n hn => ?_,
    fun n hn => State.slotState_markSlots _ (by decide) hn, fun n hn => State.slot_markSlots_other _ _ hn, _, _, hs, rfl, rfl,
    rfl, rfl, ?_, ?_, rfl, rfl, rfl, rfl, rfl, ?_⟩
  · refine (State.markSlots_strand ..).trans (strand_put_other (s.endStrand t.id.sid) _ n ?_)
    rwa [hid]
  all_goals rw [Strand.flush_frame]
  · cases t.wait <;> simp [Strand.recordOf]
  · cases t.wait <;> simp [Record.value, Strand.recordOf]
  · exact ⟨rfl, rfl, rfl, rfl, rfl, rfl, rfl, rfl, rfl, rfl, rfl, rfl, rfl, Strand.flush_of_empty⟩

/-- Settles O19: the strand is restored from the record, and its slots are marked. -/
theorem returningFromAnException : Obligations.ReturningFromAnException := by
  intro s t r h s'
  have hs : s'.strand t.id.sid = some (t.restore r) :=
    (State.markSlots_strand ..).trans (strand_put (s := s.endStrand t.id.sid) (t := t.restore r) (u := t) h)
  refine ⟨State.markSlots_mem .., State.markSlots_lines .., fun n hn => ?_,
    fun n hn => State.slotState_markSlots _ (by decide) hn, fun n hn => State.slot_markSlots_other _ _ hn, _, hs, rfl, rfl,
    rfl, fun q => ?_, rfl, rfl, rfl, rfl, rfl, rfl, rfl, rfl, rfl, map_i_resumeEntries .., fun e he => pos_head_resumeEntries he,
    rfl, rfl, rfl, rfl, rfl, rfl⟩
  · exact (State.markSlots_strand ..).trans (strand_put_other (s.endStrand t.id.sid) (t.restore r) n hn)
  · by_cases hq : q = 0
    · simp only [hq, Strand.getS_zero, if_true]
    · have hne : 0 ≠ q.toNat := fun h0 => hq (BitVec.eq_of_toNat_eq h0.symm)
      rw [Strand.getS, if_neg hq, if_neg hq]
      exact Vector.getElem_set_ne (by decide) _ hne

end

section
open Sys2Proof Sys2Proof.Machine

/-- Settles O1: each word is the encoding of its instruction, by evaluation of the decoder. -/
theorem specWordsDecode : Obligations.SpecWordsDecode := by
  unfold Obligations.SpecWordsDecode
  decide +kernel

/-- Settles O9: the reset state has an empty memory, and its dies start with the allowance 255. -/
theorem resetState : Obligations.ResetState := by
  refine ⟨⟨rfl, rfl⟩, rfl, rfl, rfl, rfl, rfl, rfl, rfl, rfl, rfl, rfl, rfl, rfl, rfl, rfl, fun _ => rfl, fun _ => rfl, ?_⟩
  decide +kernel

end

section
/-!
SUPPORT. Scalar loads and stores (R91 to R98, R107, R108, R119, R165, R174): what an access gives that its home serves, and where
one faults.
-/

namespace Sys2Proof.Machine

/-! ## Addresses and values -/

theorem add_imm64 (a : Word) (imm : BitVec 17) : a + imm64 imm = BitVec.ofInt 64 (a.toInt + imm.toInt) := by
  rw [BitVec.ofInt_add, BitVec.ofInt_toInt]
  rfl

theorem signedOf_eq_toInt {w : Nat} (hw : 0 < w) (x : Nat) : signedOf w x = (BitVec.ofNat w x).toInt := by
  have hpow : 2 ^ w = 2 * 2 ^ (w - 1) := by rw [← Nat.pow_succ', Nat.succ_eq_add_one, Nat.sub_add_cancel hw]
  rw [signedOf, BitVec.toInt_eq_toNat_cond, BitVec.toNat_ofNat]
  by_cases h : x % 2 ^ w < 2 ^ (w - 1)
  · rw [if_pos h, if_pos (by omega)]
  · rw [if_neg h, if_neg (by omega)]

theorem extendBytes_eq (sext : Bool) {n : Nat} (hn : 0 < n) (v : Nat) :
    extendBytes sext n v = if sext then (BitVec.ofNat (8 * n) v).signExtend 64 else BitVec.ofNat 64 v := by
  rw [extendBytes, sextBytes, signedOf_eq_toInt (by omega)]
  rfl

theorem canonicalAll_one {va : Word} {n : Nat} (h : canonicalAll va n = true) : canonicalAll va 1 = true := by
  simp only [canonicalAll, Bool.and_eq_true] at h ⊢
  exact ⟨h.1, by rw [Nat.sub_self, BitVec.add_zero]; exact h.1⟩

theorem Mapped.byte {s : State} {c : Ctx} {va : Word} {n : Nat} {need : Need} {e : TlbEntry} (h : Mapped s c va n need e) :
    Mapped s c va 1 need e :=
  ⟨canonicalAll_one h.canon, Nat.mod_one _, h.hit, h.permits, h.undenied⟩

theorem Served.dataCause {s : State} {c : Ctx} {va : Word} {hb : Nat} {e : TlbEntry} (hs : Served s c va e hb) :
    attrCause (pteAttr e.pte) .data = none :=
  if_neg hs.attr

/-- A served page without lines that is no slab page is a host page. -/
theorem Served.host {s : State} {c : Ctx} {va : Word} {hb : Nat} {e : TlbEntry} (hs : Served s c va e hb)
    (hx : pteAttr e.pte ≠ attrSlab) (hl : ¬ hasLines (pteAttr e.pte) = true) :
    pteAttr e.pte = attrHost ∧ hb = entryHome e (va52 va) := by
  obtain ⟨-, hs⟩ := hs
  rw [if_neg hx] at hs
  exact ⟨hs.2.resolve_right fun h => hl h.1, hs.1⟩

theorem Served.lines {s : State} {c : Ctx} {va : Word} {hb : Nat} {e : TlbEntry} (hs : Served s c va e hb)
    (hx : pteAttr e.pte ≠ attrSlab) (hl : hasLines (pteAttr e.pte) = true) :
    hb = entryHome e (va52 va) ∧ s.lineState (lineOf hb) = some .plain ∧ s.closed (lineOf hb) = false := by
  obtain ⟨-, hs⟩ := hs
  rw [if_neg hx] at hs
  obtain ⟨hh, hs⟩ := hs
  rcases hs with hs | ⟨-, hp, ho, hu⟩
  · rw [hs] at hl
    exact absurd hl (by decide)
  · exact ⟨hh, hp, by simp [State.closed, ho, hu]⟩

/-- The home byte an entry gives has at least the number of its kind of memory. -/
theorem attr_le_homeAttr (e : TlbEntry) (va : Nat) : pteAttr e.pte ≤ homeAttr (entryHome e va) := by
  simp only [homeAttr, entryHome, homeByte]
  omega

theorem homeAttr_slabHome {s : State} {asid : BitVec 16} {va : Word} {h : Nat} (hs : s.slabHome asid va = some h) :
    attrSlab ≤ homeAttr h := by
  simp only [State.slabHome] at hs
  split at hs
  · cases hs
  · split at hs
    · cases hs
    · split at hs
      · cases hs
      · split at hs
        · cases hs
        · rw [← Option.some.inj hs]
          simp only [homeAttr, slabByte, homeByte, attrSlab]
          omega

/-- The line of a served home is plain wherever its home keeps line states. -/
theorem Served.plain {s : State} {c : Ctx} {va : Word} {hb : Nat} {e : TlbEntry} (hs : Served s c va e hb)
    (hl : hasLines (homeAttr hb) = true) : s.lineState (lineOf hb) = some .plain := by
  have hle : homeAttr hb ≤ 2 := by simpa [hasLines] using hl
  have hserved := hs.2
  split at hserved
  · have := homeAttr_slabHome hserved
    exact absurd (this.trans hle) (by decide)
  · obtain ⟨hh, hhost | ⟨-, hp, -⟩⟩ := hserved
    · have := attr_le_homeAttr e (va52 va)
      rw [← hh, hhost] at this
      exact absurd (this.trans hle) (by decide)
    · exact hp

/-! ## Accesses that are served -/

/-- A load that its home serves gives the value of R95 and R107; of the package only the counter of the free values changes. -/
theorem State.load_served {s : State} {t : Strand} {va : Word} {n : Nat} {e : TlbEntry} {h : Nat}
    (hm : Mapped s t.ctx va n .read e) (hs : Served s t.ctx va e h) :
    ∃ lb w, s.load t.ctx t.lbuf va n = .ok (loadedValue s t va n e h, lb) w ∧ w = { s with freeCtr := w.freeCtr } := by
  simp only [State.load, State.requested_mapped hm hm.aligned, Res.bind, hs.dataCause, loadedValue]
  by_cases hx : pteAttr e.pte = attrSlab
  · have hh := hs.2
    rw [if_pos hx] at hh
    have hhome := State.atHome_served hs va .read false
    rw [if_pos hx, if_pos hx, hh]
    exact ⟨t.lbuf, s, by simp only [hhome], rfl⟩
  · rw [if_neg hx, if_neg hx]
    cases t.lbuf.find? fun b => b.va == va52 va / 128 with
    | some b => exact ⟨_, s, rfl, rfl⟩
    | none =>
      have hhome := State.atHome_served hs va .read false
      have hfound : (if hasLines (pteAttr e.pte) = true then s.chase t.ctx va .read 4 0 va e
          else .ok ⟨entryHome e (va52 va), va, 0, pteAttr e.pte, some .plain⟩ s)
          = .ok ⟨h, va, 0, pteAttr e.pte, some .plain⟩ s := by
        by_cases hl : hasLines (pteAttr e.pte) = true
        · obtain ⟨rfl, hp, hc⟩ := hs.lines hx hl
          simp [hl, State.chase, hp, hc]
        · rw [if_neg hl, (hs.host hx hl).2]
      simp only [hfound, hhome]
      refine ⟨_, _, rfl, ?_⟩
      split <;> rfl

/-- A store that its home serves writes there. -/
theorem State.store_served {s : State} {c : Ctx} {lb : List BufLine} {va : Word} {n v : Nat} {e : TlbEntry} {h : Nat}
    (hm : Mapped s c va n .write e) (hs : Served s c va e h) :
    s.store c lb va n v = .ok (dropLines lb va (lineOf h)) (s.writeHome h (leBytes n v)) := by
  simp only [State.store, State.resolve_served hm hm.aligned hs hs.dataCause, Res.bind, State.atHome_served hs]

theorem State.writeHome_mem (s : State) (h : Nat) (bs : List Byte) : (s.writeHome h bs).mem = Memory.fill s.mem h bs := by
  unfold State.writeHome
  dsimp only
  split <;> rfl

/-- A write changes memory and the states of lines alone. -/
theorem State.writeHome_frame (s : State) (h : Nat) (bs : List Byte) :
    s.writeHome h bs = { s with mem := (s.writeHome h bs).mem, lines := (s.writeHome h bs).lines } := by
  unfold State.writeHome
  dsimp only
  split <;> rfl

/-- A write to a line that is plain leaves every line in its state. -/
theorem State.lineState_writeHome {s : State} {h : Nat} (hp : hasLines (homeAttr h) = true → s.lineState (lineOf h) = some .plain)
    (bs : List Byte) (l : Nat) : (s.writeHome h bs).lineState l = s.lineState l := by
  unfold State.writeHome
  dsimp only
  split
  · rename_i hl
    by_cases he : l = lineOf h
    · rw [he, hp hl]
      exact Cells.find_put_some _ _ _
    · exact Cells.find_put_other _ he _
  · rfl

theorem State.writeHome_lineState_served {s : State} {c : Ctx} {va : Word} {e : TlbEntry} {h : Nat} (hs : Served s c va e h)
    (bs : List Byte) (l : Nat) : (s.writeHome h bs).lineState l = s.lineState l :=
  State.lineState_writeHome hs.plain bs l

theorem mem_dropLines {lb : List BufLine} {va : Word} {l : Nat} {b : BufLine} (h : b ∈ dropLines lb va l) :
    b ∈ lb ∧ b.home ≠ l := by
  obtain ⟨hb, hd⟩ := List.mem_filter.mp h
  exact ⟨hb, fun he => by simp [he] at hd⟩

/-! ## The instructions -/

/-- A strand replaced in a state that holds the strands of another: it stands there, the others as in that one. -/
theorem put_replaces {s z : State} {t u : Strand} (h : s.strand t.id.sid = some t) (hz : z.strands = s.strands)
    (hid : u.id = t.id) : (z.put u).strand t.id.sid = some u ∧ SameOthers s (z.put u) t.id.sid := by
  have hsame (n : Nat) : z.strand n = s.strand n := by rw [State.strand, hz]; rfl
  rw [← hid] at h ⊢
  exact ⟨strand_put ((hsame _).trans h), fun n hn => (strand_put_other z u n hn).trans (hsame n)⟩

theorem State.behindQueue_of_empty {s : State} {t : Strand} (h : t.viq = []) (va : Word) (n : Nat) (wr all : Bool) :
    s.behindQueue t va n wr all = none := by
  simp [State.behindQueue, h]

theorem State.pinLoad_of_empty {s : State} {t : Strand} (h : t.viq = []) (va : Word) (n v : Nat) : s.pinLoad t va n v = t := by
  simp [State.pinLoad, h]

/-- A scalar load that need not wait does with its attempt what `settle` says, or delivers at once behind an access. -/
theorem State.scalarLoad_ready {s : State} {t : Strand} {n : Nat} {sext : Bool} {sd sa : SReg} {imm : BitVec 17}
    (h : Ready s t [sd, sa]) (hq : t.viq = []) (hb : s.loadBehind t (BitVec.ofInt 64 ((t.getS sa).toInt + imm.toInt)) = false) :
    let va := BitVec.ofInt 64 ((t.getS sa).toInt + imm.toInt)
    let done (p : Nat × List BufLine) (s' : State) : State :=
      s'.put ({ t with lbuf := p.2 }.setS sd (extendBytes sext n p.1)).advance
    s.scalarLoad n sext sd sa imm = .next (match t.acc with
      | none => s.settle t (s.load t.ctx t.lbuf va n) (fun l => s.heldAccess t sd sext .load n va 0 l) done
      | some _ =>
        match s.load t.ctx t.lbuf va n with
        | .ok p s' => done p s'
        | _ => s.stall t) := by
  intro va done
  rw [State.scalarLoad, State.withCur_of h.1]
  simp only [add_imm64, h.2, hb, State.behindQueue_of_empty hq, State.pinLoad_of_empty hq]
  rfl

/-- A load does not wait for an access that holds nothing back and is to another line. -/
theorem State.loadBehind_eq_false {s : State} {t : Strand} {va : Word} {n h : Nat} {e : TlbEntry}
    (hm : Mapped s t.ctx va n .read e) (hs : Served s t.ctx va e h)
    (ha : ∀ a ∈ t.acc, a.acq = false ∧ lineVa a.va ≠ lineVa va
      ∧ ∃ l w, s.resolve t.ctx a.va 1 1 (if a.wr then .write else .read) .data = .ok l w ∧ lineOf l.home ≠ lineOf h) :
    s.loadBehind t va = false := by
  unfold State.loadBehind
  cases hacc : t.acc with
  | none => rfl
  | some a =>
    obtain ⟨hacq, hva, l, w, hl, hne⟩ := ha a hacc
    simp [hacq, hva, hl, State.resolve_served hm.byte (Nat.mod_one _) hs hs.dataCause, hne]

theorem extendBytes_load {t u : Strand} (sd : SReg) (x : Word) (lb : List BufLine)
    (hu : u = ({ t with lbuf := lb }.setS sd x).advance) : u = { (t.setS sd x).advance with lbuf := u.lbuf } := by
  rw [hu, Strand.setS, Strand.setS]
  split <;> rfl

/-- A load that is served, of an instruction that is `scalarLoad`. -/
theorem scalarLoad_served {s : State} {t : Strand} {n : Nat} {sext : Bool} {sd sa : SReg} {imm : BitVec 17}
    (h : Ready s t [sd, sa]) (hq : t.viq = []) (hn : 0 < n) {e : TlbEntry} {hb : Nat}
    (hm : Mapped s t.ctx (BitVec.ofInt 64 ((t.getS sa).toInt + imm.toInt)) n .read e)
    (hs : Served s t.ctx (BitVec.ofInt 64 ((t.getS sa).toInt + imm.toInt)) e hb)
    (ha : ∀ a ∈ t.acc, a.acq = false ∧ lineVa a.va ≠ lineVa (BitVec.ofInt 64 ((t.getS sa).toInt + imm.toInt))
      ∧ ∃ l w, s.resolve t.ctx a.va 1 1 (if a.wr then .write else .read) .data = .ok l w ∧ lineOf l.home ≠ lineOf hb) :
    let v := loadedValue s t (BitVec.ofInt 64 ((t.getS sa).toInt + imm.toInt)) n e hb
    ∃ s' t', s.scalarLoad n sext sd sa imm = .next s' ∧ s'.strand t.id.sid = some t' ∧ SameOthers s s' t.id.sid
      ∧ s' = { s with strands := s'.strands, svcs := s'.svcs, freeCtr := s'.freeCtr }
      ∧ t' = { (t.setS sd (if sext then (BitVec.ofNat (8 * n) v).signExtend 64 else BitVec.ofNat 64 v)).advance with
          lbuf := t'.lbuf } := by
  intro v
  obtain ⟨lb, w, hload, hw⟩ := State.load_served hm hs
  have hexec := State.scalarLoad_ready (n := n) (sext := sext) h hq (State.loadBehind_eq_false hm hs ha)
  simp only [hload] at hexec
  let u := ({ t with lbuf := lb }.setS sd (extendBytes sext n v)).advance
  have hid : u.id = t.id := by rw [show u = _ from extendBytes_load sd _ lb rfl, Strand.setS_frame]; rfl
  rw [← extendBytes_eq sext hn]
  split at hexec
  · obtain ⟨hsome, hothers⟩ := put_replaces (z := w.endSvc (.strand t.id.sid)) (cur_strand h.1) (by rw [hw]; rfl) hid
    exact ⟨_, u, hexec, hsome, hothers, by rw [hw]; rfl, extendBytes_load sd _ lb rfl⟩
  · obtain ⟨hsome, hothers⟩ := put_replaces (z := w) (cur_strand h.1) (by rw [hw]) hid
    exact ⟨_, u, hexec, hsome, hothers, by rw [hw]; rfl, extendBytes_load sd _ lb rfl⟩

/-- A scalar store that need not wait for a register or the queue waits for an access, or does with its attempt what `settle`
says. -/
theorem State.scalarStore_ready {s : State} {t : Strand} {n : Nat} {sb sa : SReg} {imm : BitVec 17}
    (h : Ready s t [sb, sa]) (hq : t.viq = []) :
    let va := BitVec.ofInt 64 ((t.getS sa).toInt + imm.toInt)
    s.scalarStore n sb sa imm = .next (if t.acc.isSome then s.stall t
      else s.settle t (s.store t.ctx t.lbuf va n (t.getS sb).toNat) (fun l => s.heldAccess t 0 false .store n va (t.getS sb) l)
        fun lb s' => s'.put { t.advance with lbuf := lb }) := by
  intro va
  rw [State.scalarStore, State.withCur_of h.1]
  simp only [add_imm64, h.2, State.behindAccess, State.behindQueue_of_empty hq]
  cases t.acc <;> rfl

/-- A store that is served, of an instruction that is `scalarStore`. -/
theorem scalarStore_served {s : State} {t : Strand} {n : Nat} {sb sa : SReg} {imm : BitVec 17} (hok : s.memOk)
    (h : Ready s t [sb, sa]) (hq : t.viq = []) {e : TlbEntry} {hb : Nat} (hacc : t.acc = none)
    (hm : Mapped s t.ctx (BitVec.ofInt 64 ((t.getS sa).toInt + imm.toInt)) n .write e)
    (hs : Served s t.ctx (BitVec.ofInt 64 ((t.getS sa).toInt + imm.toInt)) e hb) :
    ∃ s' t', s.scalarStore n sb sa imm = .next s' ∧ s'.strand t.id.sid = some t' ∧ SameOthers s s' t.id.sid
      ∧ Memory.read s'.mem hb n = (t.getS sb).toNat % 2 ^ (8 * n)
      ∧ (∀ a, a < hb ∨ hb + n ≤ a → Memory.get s'.mem a = Memory.get s.mem a)
      ∧ (∀ l, s'.lineState l = s.lineState l)
      ∧ s' = { s with strands := s'.strands, svcs := s'.svcs, mem := s'.mem, lines := s'.lines }
      ∧ t' = { t.advance with lbuf := t'.lbuf } ∧ (∀ b ∈ t'.lbuf, b ∈ t.lbuf ∧ b.home ≠ lineOf hb) := by
  have hexec := State.scalarStore_ready (n := n) (imm := imm) h hq
  dsimp only at hexec
  rw [if_neg (by simp [hacc]), State.store_served hm hs] at hexec
  have hmem : (s.writeHome hb (leBytes n (t.getS sb).toNat)).mem = Memory.write s.mem hb n (t.getS sb).toNat :=
    State.writeHome_mem ..
  let u := { t.advance with lbuf := dropLines t.lbuf (BitVec.ofInt 64 ((t.getS sa).toInt + imm.toInt)) (lineOf hb) }
  obtain ⟨hsome, hothers⟩ := put_replaces (z := (s.writeHome hb (leBytes n (t.getS sb).toNat)).endSvc (.strand t.id.sid))
    (u := u) (cur_strand h.1) (State.writeHome_strands ..) rfl
  refine ⟨_, u, hexec, hsome, hothers, ?_, fun a ha => ?_, fun l => State.writeHome_lineState_served hs _ l, ?_, rfl,
    fun b hb => mem_dropLines hb⟩
  · show Memory.read (s.writeHome hb _).mem hb n = _
    rw [hmem, Memory.read_write_same hok.1]
  · show Memory.get (s.writeHome hb _).mem a = _
    rw [hmem, Memory.write, Memory.get_fill_other _ _ _ (by simpa using ha)]
  · show State.put _ _ = _
    rw [State.writeHome_frame]
    rfl

/-! ## Faults -/

theorem State.requested_noncanonical {s : State} {c : Ctx} {va : Word} {n : Nat} (h : canonicalAll va n = false) (align : Nat)
    (need : Need) : s.requested c va n align need = .flt .addr va 0 s := by
  simp [State.requested, h]

theorem State.requested_misaligned {s : State} {c : Ctx} {va : Word} {n align : Nat} (hc : canonicalAll va n = true)
    (h : va.toNat % align ≠ 0) (need : Need) : s.requested c va n align need = .flt .align va 0 s := by
  simp [State.requested, hc, h]

theorem State.requested_aligned {s : State} {c : Ctx} {va : Word} {n align : Nat} (hc : canonicalAll va n = true)
    (h : va.toNat % align = 0) (need : Need) : s.requested c va n align need = s.translate c va (va52 va) need := by
  simp [State.requested, hc, h]

theorem State.translate_denied {s : State} {c : Ctx} {va : Nat} {v : Svc} (h : s.denied c va = some v) (addr : Word)
    (need : Need) : s.translate c addr va need = .flt (if v.sub = 0 then .page else .table) addr (BitVec.ofNat 64 v.sub) s := by
  simp [State.translate, h]

/-- A permission that a cached translation and a fresh walk both refuse faults; the fresh translation stays (R358). -/
theorem State.translate_refused {s : State} {c : Ctx} {va : Nat} {need : Need} {e : TlbEntry} {pte : Word} (addr : Word)
    (hd : s.denied c va = none) (hh : s.tlbHit c.asid va = some e) (hp : ptePermits e.pte need = false)
    (hw : s.walk c.who c.asid va = .leaf pte) (hp' : ptePermits pte need = false) :
    s.translate c addr va need = .flt .perm addr 0 (s.install (leafEntry c.asid va pte)) := by
  simp [State.translate, hd, hh, hp, State.walkFor, hw, Res.bind, leafEntry, hp']

/-- An idle strand whose access faults takes the exception at its own PC. -/
theorem settle_flt {α : Type} {s w : State} {t : Strand} {c : Cause} {a v : Word} (hi : t.idle)
    (held : Nat → State) (f : α → State → State) :
    s.settle t (.flt c a v w) held f = (s.keepWait w).takeTrap t ⟨c, a, v, 0, true, t.pc⟩ t.pc [] 0 none :=
  State.scalarTrap_idle hi ..

/-- The access whose fault an instruction takes: a load or a store of `n` bytes at an address. -/
def FaultsLike (s : State) (t : Strand) (va : Word) (n : Nat) (need : Need) (o : Out) : Prop :=
  (∀ c a v w, s.requested t.ctx va n n need = .flt c a v w →
    o = .next ((s.keepWait w).takeTrap t ⟨c, a, v, 0, true, t.pc⟩ t.pc [] 0 none))
  ∧ ∀ e, s.requested t.ctx va n n need = .ok e s →
    (pteAttr e.pte = attrSlab → s.slabHome t.id.asid va = none →
      o = .next (s.takeTrap t ⟨.slabAbsent, va, 0, 0, true, t.pc⟩ t.pc [] 0 none))
    ∧ (pteAttr e.pte = attrFlash → o = .next (s.takeTrap t ⟨.flashDirect, va, 0, 0, true, t.pc⟩ t.pc [] 0 none))

theorem scalarLoad_faults {s : State} {t : Strand} {sd sa : SReg} {imm : BitVec 17} (h : Ready s t [sd, sa]) (hi : t.idle)
    (n : Nat) (sext : Bool) :
    FaultsLike s t (BitVec.ofInt 64 ((t.getS sa).toInt + imm.toInt)) n .read (s.scalarLoad n sext sd sa imm) := by
  have hb : s.loadBehind t (BitVec.ofInt 64 ((t.getS sa).toInt + imm.toInt)) = false := by
    simp [State.loadBehind, hi.2.2]
  have hexec := State.scalarLoad_ready (n := n) (sext := sext) h hi.1 hb
  simp only [hi.2.2] at hexec
  refine ⟨fun c a v w hr => ?_, fun e hr => ⟨fun hx hn => ?_, fun hx => ?_⟩⟩
  · rw [hexec, State.load, hr, Res.bind, settle_flt hi]
  · rw [hexec, State.load, hr]
    simp only [Res.bind, hx, show attrCause attrSlab .data = none from rfl, if_true]
    rw [show s.slabHome t.ctx.asid _ = none from hn]
    exact congrArg _ (settle_flt hi ..)
  · rw [hexec, State.load, hr]
    simp only [Res.bind, hx, show attrCause attrFlash .data = some .flashDirect from rfl]
    exact congrArg _ (settle_flt hi ..)

theorem scalarStore_faults {s : State} {t : Strand} {sb sa : SReg} {imm : BitVec 17} (h : Ready s t [sb, sa]) (hi : t.idle)
    (n : Nat) : FaultsLike s t (BitVec.ofInt 64 ((t.getS sa).toInt + imm.toInt)) n .write (s.scalarStore n sb sa imm) := by
  have hexec := State.scalarStore_ready (n := n) (imm := imm) h hi.1
  dsimp only at hexec
  rw [if_neg (by simp [hi.2.2])] at hexec
  refine ⟨fun c a v w hr => ?_, fun e hr => ⟨fun hx hn => ?_, fun hx => ?_⟩⟩
  · rw [hexec, State.store, State.resolve, hr, Res.bind, Res.bind, settle_flt hi]
  · rw [hexec, State.store, State.resolve, hr]
    simp only [Res.bind, hx, show attrCause attrSlab .data = none from rfl, if_true]
    rw [show s.slabHome t.ctx.asid _ = none from hn]
    exact congrArg _ (settle_flt hi ..)
  · rw [hexec, State.store, State.resolve, hr]
    simp only [Res.bind, hx, show attrCause attrFlash .data = some .flashDirect from rfl]
    exact congrArg _ (settle_flt hi ..)

/-- What an instruction that faults as its access does takes, cause by cause. -/
theorem FaultsLike.causes {s : State} {t : Strand} {va : Word} {n : Nat} {need : Need} {o : Out}
    (h : FaultsLike s t va n need o) :
    (canonicalAll va n = false → o = .next (s.takeTrap t ⟨.addr, va, 0, 0, true, t.pc⟩ t.pc [] 0 none))
    ∧ (canonicalAll va n = true → va.toNat % n ≠ 0 → o = .next (s.takeTrap t ⟨.align, va, 0, 0, true, t.pc⟩ t.pc [] 0 none))
    ∧ (canonicalAll va n = true → va.toNat % n = 0 →
      (∀ v, s.denied t.ctx (va52 va) = some v → o = .next (s.takeTrap t
        ⟨if v.sub = 0 then .page else .table, va, BitVec.ofNat 64 v.sub, 0, true, t.pc⟩ t.pc [] 0 none))
      ∧ ∀ e pte, s.denied t.ctx (va52 va) = none → s.tlbHit t.id.asid (va52 va) = some e → ptePermits e.pte need = false →
        s.walk t.ctx.who t.id.asid (va52 va) = .leaf pte → ptePermits pte need = false →
        o = .next ((s.install (leafEntry t.id.asid (va52 va) pte)).takeTrap t ⟨.perm, va, 0, 0, true, t.pc⟩ t.pc [] 0 none))
    ∧ (∀ e, Mapped s t.ctx va n need e → pteAttr e.pte = attrSlab → s.slabHome t.id.asid va = none →
      o = .next (s.takeTrap t ⟨.slabAbsent, va, 0, 0, true, t.pc⟩ t.pc [] 0 none))
    ∧ (∀ e, Mapped s t.ctx va n need e → pteAttr e.pte = attrFlash →
      o = .next (s.takeTrap t ⟨.flashDirect, va, 0, 0, true, t.pc⟩ t.pc [] 0 none)) := by
  obtain ⟨hflt, hok⟩ := h
  refine ⟨fun hc => hflt _ _ _ _ (State.requested_noncanonical hc ..), fun hc ha => hflt _ _ _ _ (State.requested_misaligned hc ha _),
    fun hc ha => ⟨fun v hd => ?_, fun e pte hd hh hp hw hp' => ?_⟩,
    fun e hm => (hok e (State.requested_mapped hm hm.aligned)).1, fun e hm => (hok e (State.requested_mapped hm hm.aligned)).2⟩
  · exact hflt _ _ _ _ ((State.requested_aligned hc ha _).trans (State.translate_denied hd ..))
  · exact hflt _ _ _ _ ((State.requested_aligned hc ha _).trans (State.translate_refused va hd hh hp hw hp'))

end Sys2Proof.Machine

open Sys2Proof Sys2Proof.Machine

/-- Settles O22: each load instruction is `scalarLoad` of its size and extension. -/
theorem scalarLoads : Obligations.ScalarLoads := by
  intro s t sd sa imm h hq va p hp e hb hm hs ha
  simp only [List.mem_cons, List.not_mem_nil, or_false] at hp
  rcases hp with rfl | rfl | rfl | rfl | rfl | rfl | rfl
  all_goals exact scalarLoad_served h hq (by decide) hm hs ha

/-- Settles O23: each store instruction is `scalarStore` of its size. -/
theorem scalarStores : Obligations.ScalarStores := by
  intro s t sb sa imm hok h hq va p hp
  have hwaits (n : Nat) (hacc : t.acc.isSome = true) :
      s.scalarStore n sb sa imm = .next (s.put { t with stalled := true }) :=
    (State.scalarStore_ready h hq).trans (by rw [if_pos hacc]; rfl)
  simp only [List.mem_cons, List.not_mem_nil, or_false] at hp
  rcases hp with rfl | rfl | rfl | rfl
  all_goals exact ⟨hwaits _, fun e hb hacc hm hs => scalarStore_served hok h hq hacc hm hs⟩

/-- Settles O24: a load or store takes the fault its access meets. -/
theorem scalarAccessFaults : Obligations.ScalarAccessFaults := by
  intro s t sd sa imm h hi va p hp
  simp only [List.mem_cons, List.not_mem_nil, or_false] at hp
  rcases hp with rfl | rfl | rfl | rfl | rfl | rfl | rfl | rfl | rfl | rfl | rfl
  iterate 7 exact (scalarLoad_faults h hi _ _).causes
  all_goals exact (scalarStore_faults h hi _).causes

end

section
/-!
SUPPORT. Scalar atomics (R95, R164, R165, R176, R272, R284): the request, the home that serves it, the delivery of its value.
-/

namespace Sys2Proof.Machine

/-! ## Homes -/

theorem entryHome_lt (e : TlbEntry) (va : Word) :
    pteAddr e.pte + va52 va % e.size < 2 ^ 53 := by
  have h1 : fieldNat e.pte 12 40 < 2 ^ 40 := BitVec.isLt _
  have h2 : va52 va % e.size ≤ va52 va := Nat.mod_le _ _
  have h3 : va52 va < 2 ^ 52 := Nat.mod_lt _ (by decide)
  rw [pteAddr]
  omega

/-- The home byte of an address on a host page is one of the host. -/
theorem homeAttr_host {e : TlbEntry} (h : pteAttr e.pte = attrHost) (va : Word) : homeAttr (entryHome e (va52 va)) = attrHost := by
  have hlt := entryHome_lt e va
  rw [entryHome, h, if_neg (by decide), homeByte, homeAttr, attrHost]
  omega

theorem routeTo_host {h : Nat} (hh : homeAttr h = attrHost) (pclus pcore : Nat) : routeTo pclus pcore h = [] := by
  rw [routeTo, if_pos hh]

/-- A mapped address whose page admits the access translates to its home byte. -/
theorem State.firstHome_mapped {s : State} {c : Ctx} {va : Word} {n : Nat} {need : Need} {e : TlbEntry} {h : Nat} {k : Kind}
    (hm : Mapped s c va n need e) (hh : HomeByte s c.asid va e h) (hk : attrCause (pteAttr e.pte) k = none) :
    s.firstHome c va n need k = .ok (h, pteAttr e.pte) s := by
  simp only [State.firstHome, State.requested_mapped hm hm.aligned, Res.bind, hk]
  rw [HomeByte] at hh
  split at hh
  · rename_i hx
    rw [if_pos hx, hh, hx]
  · rename_i hx
    rw [if_neg hx, hh]

theorem attrCause_amo {attr : Nat} {op : AmoOp} (hf : attr ≠ attrFlash)
    (hh : attr = attrHost → op = .add ∨ op = .swp ∨ op = .cas) : attrCause attr (.amo (amoHostOk op)) = none := by
  rw [attrCause, if_neg hf]
  by_cases h : attr = attrHost
  · rcases hh h with rfl | rfl | rfl <;> simp [amoHostOk]
  · simp [h]

theorem attrCause_amo_host {op : AmoOp} (ha : op ≠ .add) (hs : op ≠ .swp) (hc : op ≠ .cas) :
    attrCause attrHost (.amo (amoHostOk op)) = some .hostAmo := by
  have h : amoHostOk op = false := by
    cases op with
    | add => exact absurd rfl ha
    | swp => exact absurd rfl hs
    | cas => exact absurd rfl hc
    | and | or | xor | min | max | minN | maxN => rfl
  rw [h]
  rfl

/-! ## Requests -/

theorem State.place_frame (s : State) (r : Request) :
    s.place r = { s with requests := (s.place r).requests, keystones := (s.place r).keystones } := by
  unfold State.place
  split
  · rfl
  · dsimp only
    split <;> rfl

/-- A request placed stands at the first keystone of its way, or at its home. -/
theorem State.place_stands (s : State) (r : Request) :
    ∃ q, q = { r with route := q.route, port := q.port }
      ∧ (q ∈ (s.place r).requests ∨ ∃ k ∈ (s.place r).keystones, q ∈ k.queue) ∧ (r.route = [] → q ∈ (s.place r).requests) := by
  unfold State.place
  split
  · exact ⟨r, rfl, .inl (by simp), fun _ => by simp⟩
  · rename_i ks port rest hr
    refine ⟨{ r with route := rest, port := port }, rfl, .inr ?_, fun h => by rw [hr] at h; cases h⟩
    dsimp only
    split
    · rename_i k hk
      refine ⟨_, List.mem_map.mpr ⟨k, List.mem_of_find?_eq_some hk, rfl⟩, ?_⟩
      rw [if_pos (List.find?_some hk)]
      simp
    · exact ⟨_, List.mem_append_right _ (List.mem_singleton_self _), List.mem_singleton_self _⟩

theorem State.send_frame (s : State) (r : Request) : s.send r = { s with
    requests := (s.send r).requests, keystones := (s.send r).keystones, nextRid := s.nextRid + 1 } := by
  rw [State.send, State.place_frame]

/-- A scalar atomic that need not wait for a register or the queue waits for an access, or is sent where its address
translates. -/
theorem State.scalarAmo_ready {s : State} {t : Strand} {sd sa sb : SReg} (h : Ready s t [sd, sa, sb]) (hq : t.viq = [])
    (op : AmoOp) (ord : Ord) (d : Bool) :
    s.scalarAmo op sd sa sb ord d = .next (if t.acc.isSome then s.stall t
      else s.settle t (s.firstHome t.ctx (t.getS sa) (if d then 8 else 4) .both (.amo (amoHostOk op)))
        (fun l => s.put (s.holdHead t l)) fun h s1 =>
          s1.request { t with lbuf := dropLines t.lbuf (t.getS sa) (lineOf h.1) } sd (d || !(op == .minN || op == .maxN)) true
            { accessRequest (.amo op) (if d then 8 else 4) ord (t.getS sa) (t.getS sb) (t.getS sd) h.1 with
              route := routeTo t.id.pclus t.id.pcore h.1 }) := by
  rw [State.scalarAmo, State.withCur_of h.1]
  simp only [h.2, State.behindAccess, State.behindQueue_of_empty hq]
  cases t.acc <;> rfl

/-- Each atomic instruction is `scalarAmo` of its operation. -/
theorem exec_atomic {sd sa sb : SReg} {ord : Ord} {d : Bool} {p : Instr × AmoOp} (hp : p ∈ atomics sd sa sb ord d) (s : State) :
    exec p.1 s = s.scalarAmo p.2 sd sa sb ord d := by
  simp only [atomics, List.mem_cons, List.not_mem_nil, or_false] at hp
  rcases hp with rfl | rfl | rfl | rfl | rfl | rfl | rfl | rfl | rfl | rfl
  all_goals rfl

theorem scalarAtomicRequests : ScalarAtomicRequests := by
  intro s t sd sa sb ord d h hq p hp
  have hexec := (exec_atomic hp s).trans (State.scalarAmo_ready h hq p.2 ord d)
  refine ⟨fun hacc => hexec.trans (by rw [if_pos hacc]; rfl), fun e hb hacc hm hhome hflash hhost => ?_⟩
  rw [if_neg (by simp [hacc]), State.firstHome_mapped hm hhome (attrCause_amo hflash hhost)] at hexec
  let n := if d then 8 else 4
  let sext := d || !(p.2 == .minN || p.2 == .maxN)
  let u := { t with lbuf := dropLines t.lbuf (t.getS sa) (lineOf hb) }
  let a : Access := ⟨s.nextRid, sd, n, sext, t.getS sa, true, ord == .acq, u.checkpoint, t.viq.length⟩
  let v : Strand := { u.advance with acc := some a }
  let z := (s.endSvc (.strand t.id.sid)).put v
  let q0 : Request := { accessRequest (.amo p.2) n ord (t.getS sa) (t.getS sb) (t.getS sd) hb with
    route := routeTo t.id.pclus t.id.pcore hb, sid := t.id.sid, part := t.id.part, asid := t.id.asid }
  have hexec : exec p.1 s = .next (z.send q0) := hexec
  obtain ⟨q, hq0, hstands, hown⟩ := State.place_stands z { q0 with rid := z.nextRid }
  obtain ⟨hsome, hothers⟩ := put_replaces (z := s.endSvc (.strand t.id.sid)) (u := v) (cur_strand h.1) rfl rfl
  have hstrand (m : Nat) : (z.send q0).strand m = z.strand m := by rw [State.send_frame]; rfl
  refine ⟨z.send q0, v, q, a, hexec, (hstrand _).trans hsome, fun m hm => (hstrand m).trans (hothers m hm), ?_, ?_, ?_, rfl,
    rfl, rfl, rfl, rfl, rfl, rfl, rfl, ?_, rfl, hstands, fun hx => hown ?_, ?_⟩
  · rw [State.send_frame]; rfl
  · rw [State.send_frame]; rfl
  · rw [State.send_frame]; rfl
  · exact congrArg List.length hq
  · refine routeTo_host ?_ _ _
    rw [HomeByte, if_neg (by rw [hx]; decide)] at hhome
    rw [hhome, homeAttr_host hx]
  · rw [hq0]
    exact ⟨rfl, rfl, rfl, rfl, rfl, rfl, rfl, rfl, rfl, rfl⟩

theorem scalarAtomicsOnHostPages : ScalarAtomicsOnHostPages := by
  intro s t sd sa sb ord d h hi p hp e hm hhost hadd hswp hcas
  have hexec := (exec_atomic hp s).trans (State.scalarAmo_ready h hi.1 p.2 ord d)
  have hflt : s.firstHome t.ctx (t.getS sa) (if d then 8 else 4) .both (.amo (amoHostOk p.2)) = .flt .hostAmo (t.getS sa) 0 s := by
    simp only [State.firstHome, State.requested_mapped hm hm.aligned, Res.bind, hhost, attrCause_amo_host hadd hswp hcas]
  rw [if_neg (by simp [hi.2.2]), hflt, settle_flt hi] at hexec
  exact hexec

/-! ## The home -/

theorem leNat_lt (bs : List Byte) : leNat bs < 2 ^ (8 * bs.length) := by
  induction bs with
  | nil => exact Nat.one_pos
  | cons b t ih =>
    have hb : b.toNat < 256 := b.isLt
    have hpow : 2 ^ (8 * (b :: t).length) = 256 * 2 ^ (8 * t.length) := by
      rw [List.length_cons, Nat.mul_add, Nat.pow_add, Nat.mul_comm]
    rw [leNat, hpow]
    omega

theorem Memory.length_bytes (m : List Host.Cell) (a n : Nat) : (Memory.bytes m a n).length = n := by
  induction n generalizing a with
  | zero => rfl
  | succ n ih => rw [Memory.bytes, List.length_cons, ih]

theorem Memory.read_lt (m : List Host.Cell) (a n : Nat) : Memory.read m a n < 2 ^ (8 * n) := by
  have h := leNat_lt (Memory.bytes m a n)
  rwa [Memory.length_bytes] at h

theorem signedOf_eq (w x : Nat) : signedOf w x = (BitVec.ofNat w x).toInt := by
  rcases Nat.eq_zero_or_pos w with rfl | hw
  · rw [BitVec.toInt_zero_length]
    simp [signedOf, Nat.mod_one]
  · exact signedOf_eq_toInt hw x

theorem ite_lt_eq_ite_le {α : Type} (a b : Int) (x y : α) : (if b < a then x else y) = if a ≤ b then y else x := by
  by_cases h : a ≤ b
  · rw [if_pos h, if_neg (by omega)]
  · rw [if_neg h, if_pos (by omega)]

theorem amoNew_eq_atomicNew (op : AmoOp) (n old b cmp : Nat) : amoNew op n old b cmp = atomicNew op n old b cmp := by
  cases op with
  | add | and | or | xor | swp | cas => rfl
  | min => simp only [amoNew, atomicNew, signedOf_eq, ite_lt_eq_ite_le]
  | max => simp only [amoNew, atomicNew, signedOf_eq, ite_lt_eq_ite_le]
  | minN =>
    simp only [amoNew, atomicNew]
    split <;> omega
  | maxN =>
    simp only [amoNew, atomicNew]
    split <;> omega

/-- The new value of an atomic fits its word. -/
theorem atomicNew_lt (op : AmoOp) {n old : Nat} (h : old < 2 ^ (8 * n)) (b cmp : Nat) : atomicNew op n old b cmp < 2 ^ (8 * n) := by
  have hx : b % 2 ^ (8 * n) < 2 ^ (8 * n) := Nat.mod_lt _ (Nat.two_pow_pos _)
  cases op with
  | add => exact Nat.mod_lt _ (Nat.two_pow_pos _)
  | and => exact Nat.and_lt_two_pow _ hx
  | or => exact Nat.or_lt_two_pow h hx
  | xor => exact Nat.xor_lt_two_pow h hx
  | min | max | cas => simp only [atomicNew]; split <;> assumption
  | minN => exact (Nat.min_le_left _ _).trans_lt h
  | maxN => exact Nat.max_lt.mpr ⟨h, hx⟩
  | swp => exact hx

theorem State.strand_updWhere {s z : State} {p : Strand → Bool} {f : Strand → Strand} (hz : z.strands = updWhere s.strands p f)
    (hf : ∀ t, (f t).id = t.id) (n : Nat) : z.strand n = (s.strand n).map fun t => if p t then f t else t := by
  rw [State.strand, hz, State.strand, updWhere, List.find?_map]
  congr 2
  funext t
  simp only [Function.comp]
  split
  · rw [hf]
  · rfl

/-- A strand whose line buffer alone has lost lines. -/
def Strand.Unbuffers (t t' : Strand) : Prop :=
  t' = { t with lbuf := t'.lbuf } ∧ ∀ b ∈ t'.lbuf, b ∈ t.lbuf

theorem State.dropCarried_unbuffers (s : State) (r : Request) (line n : Nat) (t : Strand) (h : s.strand n = some t) :
    ∃ t', (s.dropCarried r line).strand n = some t' ∧ t.Unbuffers t' := by
  have hmap := State.strand_updWhere (s := s) (z := s.dropCarried r line) (p := fun t => (s.carried r.rid).contains t.id.sid)
    (f := fun t => { t with lbuf := t.lbuf.filter fun b => b.home != line }) rfl (fun _ => rfl) n
  rw [h, Option.map_some] at hmap
  refine ⟨_, hmap, ?_⟩
  split
  · exact ⟨rfl, fun b hb => (List.mem_filter.mp hb).1⟩
  · exact ⟨rfl, fun b hb => hb⟩

/-- A reply to no vector atomic waits for its delivery. -/
theorem State.reply_scalar {s : State} (h : ∀ t ∈ s.strands, t.vamo = none) (r : Reply) :
    s.reply r = { s with replies := s.replies ++ [r] } := by
  have hnone : (s.strands.find? fun t => t.vamo.any fun a => a.sent.any fun x => x.2.1 == r.rid) = none := by
    rw [List.find?_eq_none]
    intro t ht
    simp [h t ht]
  rw [State.reply, hnone]

/-- What an answer leaves where no vector atomic waits: the request is gone and its reply waits. -/
theorem State.answer_scalar {s : State} (h : ∀ t ∈ s.strands, t.vamo = none) (r : Request) (a : Answer) (fl : Flags) :
    s.answer r a fl = { s.dropRequest r with replies := s.replies ++ [⟨r.rid, a, fl⟩] } :=
  State.reply_scalar (s := s.dropRequest r) h _

theorem dropCarried_vamo {s : State} (h : ∀ t ∈ s.strands, t.vamo = none) (r : Request) (line : Nat) :
    ∀ t ∈ (s.dropCarried r line).strands, t.vamo = none := by
  intro t ht
  obtain ⟨u, hu, rfl⟩ := List.mem_map.mp ht
  split
  · exact h u hu
  · exact h u hu

/-- A request that has its turn at a home that is not struck: what its home does with it. -/
theorem State.performAt_turn {s : State} {r : Request} {op : AmoOp} (hk : r.kind = .amo op) (ha : r.again = false)
    (hsoft : s.soft.contains (lineOf r.home) = false)
    (hturn : s.heldBefore (lineOf r.home) (match r.held with
      | some (l, since) => if l = lineOf r.home then since else s.tick + 1
      | none => s.tick + 1) = false) :
    let q := { r with tried := true }
    s.performAt r = if homeAttr r.home = attrSlab then
        match s.slabHome r.asid r.va with
        | some h => s.serve q h
        | none => s.answer q (.fault .slabAbsent 0) 0
      else if !hasLines (homeAttr r.home) then s.serve q r.home
      else if s.offline (lineOf r.home) || s.unreachable (lineOf r.home) then s.holdRequest q (lineOf r.home)
      else
        match s.lineState (lineOf r.home) with
        | some .plain => s.serve q r.home
        | some .inMove => s.holdRequest q (lineOf r.home)
        | some .forwarded => s.followRecord q (lineOf r.home)
        | none => s.answer q (.fault .check 0) 0 := by
  intro q
  have hload : ¬ r.kind = .load := by rw [hk]; nofun
  have hstore : ¬ r.kind = .store := by rw [hk]; nofun
  rw [State.performAt]
  dsimp only
  rw [if_neg (by simp [ha]), if_neg (by simp only [hsoft, Bool.false_eq_true, not_false_eq_true])]
  refine (if_neg fun h => Bool.false_ne_true (hturn.symm.trans (Bool.and_eq_true_iff.mp h).2)).trans ?_
  simp only [hload, hstore, if_false]
  rfl

/-- A served atomic: the word takes its new value, the old one is the reply. -/
theorem State.serve_amo {s : State} (hok : s.memOk) {r : Request} {op : AmoOp} (hk : r.kind = .amo op)
    (hv : ∀ t ∈ s.strands, t.vamo = none)
    (hp : hasLines (homeAttr r.home) = true → s.lineState (lineOf r.home) = some .plain) :
    let old := Memory.read s.mem r.home r.n
    let s' := s.serve r r.home
    Memory.read s'.mem r.home r.n = atomicNew op r.n old r.data.toNat r.cmp.toNat
    ∧ (∀ a, a < r.home ∨ r.home + r.n ≤ a → Memory.get s'.mem a = Memory.get s.mem a)
    ∧ (∀ l, s'.lineState l = s.lineState l)
    ∧ s'.replies = s.replies ++ [⟨r.rid, .value (BitVec.ofNat 64 old), 0⟩]
    ∧ s'.requests = s.requests.filter (fun x => x.rid != r.rid)
    ∧ ∀ n t, s.strand n = some t → ∃ t', s'.strand n = some t' ∧ t.Unbuffers t' := by
  intro old s'
  let bs := leBytes r.n (amoNew op r.n old r.data.toNat r.cmp.toNat)
  let w := s.writeHome r.home bs
  have hws : w.strands = s.strands := State.writeHome_strands ..
  have hs' : s' = { (w.dropCarried r (lineOf r.home)).dropRequest r with
      replies := w.replies ++ [⟨r.rid, .value (BitVec.ofNat 64 old), 0⟩] } := by
    have hserve : s' = (w.dropCarried r (lineOf r.home)).answer r (.value (BitVec.ofNat 64 old)) 0 := by
      simp only [s', State.serve, hk, State.amoAt]
      rfl
    rw [hserve]
    exact State.answer_scalar (dropCarried_vamo (by rw [hws]; exact hv) r _) r _ 0
  have hmem : s'.mem = Memory.write s.mem r.home r.n (amoNew op r.n old r.data.toNat r.cmp.toNat) := by
    rw [hs']
    exact State.writeHome_mem ..
  refine ⟨?_, fun a ha => ?_, fun l => ?_, ?_, ?_, fun n t ht => ?_⟩
  · rw [hmem, Memory.read_write_same hok.1, amoNew_eq_atomicNew,
      Nat.mod_eq_of_lt (atomicNew_lt op (Memory.read_lt _ _ _) _ _)]
  · rw [hmem, Memory.write, Memory.get_fill_other _ _ _ (by simpa using ha)]
  · rw [hs']
    exact State.lineState_writeHome hp bs l
  · rw [hs', State.writeHome_replies]
  · rw [hs']
    exact congrArg (List.filter _) (State.writeHome_requests ..)
  · rw [hs']
    exact State.dropCarried_unbuffers w r _ n t (by rw [State.strand, hws]; exact ht)

/-- A request that is answered with a fault: nothing in memory changes. -/
theorem State.answer_fault {s : State} (r : Request) (hv : ∀ t ∈ s.strands, t.vamo = none) (c : Cause) (v : Word) :
    let s' := s.answer r (.fault c v) 0
    s'.mem = s.mem ∧ s'.lines = s.lines ∧ s'.replies = s.replies ++ [⟨r.rid, .fault c v, 0⟩]
    ∧ s'.requests = s.requests.filter (fun x => x.rid != r.rid)
    ∧ ∀ n t, s.strand n = some t → ∃ t', s'.strand n = some t' ∧ t.Unbuffers t' := by
  intro s'
  have hs' : s' = { s.dropRequest r with replies := s.replies ++ [⟨r.rid, .fault c v, 0⟩] } := State.answer_scalar hv r _ 0
  rw [hs']
  exact ⟨rfl, rfl, rfl, rfl, fun n t ht => ⟨t, ht, rfl, fun _ hb => hb⟩⟩

theorem homeServesAtomic : HomeServesAtomic := by
  intro s r op hok hfind hk hn hready hagain hsoft hturn hv old replied answers
  have hexec : exec (.memoryAccessPerform r.rid) s = .next (s.performAt r) := by
    show execMemoryAccessPerform r.rid s = _
    rw [execMemoryAccessPerform, hfind]
    dsimp only
    rw [if_pos hready]
  have hperform := State.performAt_turn hk hagain hsoft hturn
  let q := { r with tried := true }
  have hserved (hp : hasLines (homeAttr r.home) = true → s.lineState (lineOf r.home) = some .plain)
      (hs : s.performAt r = s.serve q r.home) : ∃ s', exec (.memoryAccessPerform r.rid) s = .next s'
        ∧ Memory.read s'.mem r.home r.n = atomicNew op r.n old r.data.toNat r.cmp.toNat
        ∧ (∀ a, a < r.home ∨ r.home + r.n ≤ a → Memory.get s'.mem a = Memory.get s.mem a)
        ∧ (∀ l, s'.lineState l = s.lineState l) ∧ replied s' (.value (BitVec.ofNat 64 old)) := by
    obtain ⟨hread, hrest, hlines, hreplies⟩ := State.serve_amo (r := q) hok hk hv hp
    exact ⟨s.serve q r.home, hexec.trans (by rw [hs]), hread, hrest, hlines, hreplies⟩
  have hfaulted {c : Cause} (hs : s.performAt r = s.answer q (.fault c 0) 0) : ∃ s', exec (.memoryAccessPerform r.rid) s = .next s'
      ∧ s'.mem = s.mem ∧ s'.lines = s.lines ∧ replied s' (.fault c 0) := by
    obtain ⟨hmem, hlines, hreplies⟩ := State.answer_fault q hv c 0
    exact ⟨s.answer q (.fault c 0) 0, hexec.trans (by rw [hs]), hmem, hlines, hreplies⟩
  refine ⟨fun h => ?_, fun hl ⟨ho, hu⟩ hnone => hfaulted ?_, fun hx hnone => hfaulted ?_⟩
  · by_cases hx : homeAttr r.home = attrSlab
    · rw [if_pos hx] at h
      refine hserved (fun hl => ?_) ?_
      · rw [hx] at hl
        exact absurd hl (by decide)
      · rw [hperform, if_pos hx, h]
    · rw [if_neg hx] at h
      by_cases hl : hasLines (homeAttr r.home) = true
      · obtain ⟨⟨ho, hu⟩, hp⟩ := h hl
        exact hserved (fun _ => hp) (by simp only [hperform, hx, hl, ho, hu, hp]; rfl)
      · exact hserved (fun h => absurd h hl) (by simp only [hperform, hx, hl]; rfl)
  · have hx : homeAttr r.home ≠ attrSlab := fun hx => by rw [hx] at hl; exact absurd hl (by decide)
    simp only [hperform, hx, hl, ho, hu, hnone]
    rfl
  · rw [hperform, if_pos hx, hnone]

/-! ## Delivery -/

theorem isForwardCause_iff (c : Cause) : isForwardCause c = true ↔ c = .fwdAsid ∨ c = .fwdChain ∨ c = .fwdTarget := by
  simp only [isForwardCause, Bool.or_eq_true, beq_iff_eq, or_assoc]

theorem accessDelivery : AccessDelivery := by
  intro s sid t a r h ha hr s1 back
  refine ⟨fun v hv => ?_, fun c v hv hq hrq => ?_⟩
  · let u := { t with acc := none }.setS a.sd (extendBytes a.sext a.n v.toNat)
    have hexec : exec (.scalarAccessDelivery sid) s = .next ((s1.endSvc (.strand sid)).put u) := by
      show execScalarAccessDelivery sid s = _
      simp only [execScalarAccessDelivery, h, ha, hr, hv]
      rfl
    have hsid := strand_sid h
    subst hsid
    obtain ⟨hsome, hothers⟩ := put_replaces (z := s1.endSvc (.strand t.id.sid)) (u := u) h rfl (Strand.setS_id ..)
    exact ⟨_, hexec, rfl, hothers, hsome⟩
  · have hexec : exec (.scalarAccessDelivery sid) s
        = .next (s1.scalarTrap back c a.va (if isForwardCause c then lineVa a.va else v) 0) := by
      show execScalarAccessDelivery sid s = _
      simp only [execScalarAccessDelivery, h, ha, hr, hv]
      rfl
    have hi : back.idle := ⟨hq, hrq, rfl⟩
    rw [hexec, State.scalarTrap_idle hi]
    simp only [isForwardCause_iff]
    rfl

end Sys2Proof.Machine

open Sys2Proof Sys2Proof.Machine

/-- Settles O25: a request enters its way, its home serves or refuses it, and its reply is delivered or discards what was
dispatched past it. -/
theorem scalarAtomics : Obligations.ScalarAtomics :=
  ⟨scalarAtomicRequests, scalarAtomicsOnHostPages, homeServesAtomic, accessDelivery⟩

end

section
/-!
SUPPORT. Services of the scheduler (R190 to R193) and the forwarding instructions (R131 to R136, R282, R283).
-/

namespace Sys2Proof.Machine

/-! ## Queues, rings, cards -/

theorem queueDrain : QueueDrain := by
  refine ⟨fun s t sd sa h hacc => ?_, fun s sid t q sd h hw hr hd => ?_⟩
  · have hexec : exec (.qdrain sd sa) s = .next (if s.queueOpen t.id.asid (t.getS sa).toNat then
        s.put { t.advance with wait := .queue (t.getS sa).toNat sd } else s.put (t.setS sd 2).advance) := by
      show execQdrain sd sa s = _
      rw [execQdrain, State.withCur_of h.1, h.2, if_neg Bool.false_ne_true, if_neg (by simp [hacc])]
    exact ⟨fun ho => hexec.trans (by rw [ho]; rfl), fun ho => hexec.trans (by rw [ho]; rfl)⟩
  · show execQdrainComplete sid s = _
    simp only [execQdrainComplete, h, hw, hr, hd]
    rfl

theorem State.behindStores_idle {s : State} {t : Strand} (hq : t.viq = []) (ha : t.acc = none) : s.behindStores t = none := by
  simp [State.behindStores, hq, ha]

/-- What a call of the scheduler does once nothing older holds it back and its attempt ends with a code. -/
theorem State.callSettle_ok {s w : State} {t : Strand} {sd : SReg} {code : Nat} :
    s.callSettle t sd (.ok code w)
      = (w.endSvc (.strand t.id.sid)).put ({ t with busy := false }.setS sd (BitVec.ofNat 64 code)).advance := rfl

theorem execSysCall_ready {s : State} {t : Strand} {sd sa : SReg} {bs : List Byte} (h : Ready s t [sd, sa]) (hq : t.viq = [])
    (ha : t.acc = none) (hr : s.readAligned t.ctx (t.getS sa) 64 = .ok bs s) :
    execSysCall sd sa s = .next (s.callSettle t sd (s.callRing t bs)) := by
  rw [execSysCall, State.withCur_of h.1, h.2, State.behindStores_idle hq ha, hr]
  rfl

theorem systemCall : SystemCall := by
  intro s t sd sa bs h hq ha hr
  have hexec := execSysCall_ready h hq ha hr
  refine ⟨fun p hp hnone => hexec.trans ?_, fun g hg hbase hfull => hexec.trans ?_, fun g w hg hbase hfull hw => hexec.trans ?_⟩
  · have hring : s.callRing t bs = .ok 3 s := by
      rcases hnone with rfl | ⟨g, rfl, hbase⟩
      · simp only [State.callRing, hp]
      · simp only [State.callRing, hp, hbase, if_true]
    rw [hring]
    rfl
  · have hring : s.callRing t bs = .ok 1 s := by
      simp only [State.callRing, hg, hbase, if_false, ringFull, hfull, beq_self_eq_true, if_true]
    rw [hring]
    rfl
  · have hnot : ringFull g.scrSize g.scrHead g.scrTail = false := by simpa [ringFull] using hfull
    have hring : s.callRing t bs = .ok 0 (w.setPage t.id.asid fun p => { p with scrTail := p.scrTail + 1 }) := by
      simp only [State.callRing, hg, hbase, if_false, hnot, Bool.false_eq_true]
      rw [show s.writeRange t.ctx 3 (ringEntry g.scrBase g.scrSize g.scrTail)
        (bs.take 56 ++ wordBytes 8 (callWord (g.scrTail.setWidth 16) t)) = .ok () w from hw]
      rfl
    rw [hring]
    rfl

theorem execTaskPost_ready {s : State} {t : Strand} {sd sa sb : SReg} {bs : List Byte} (h : Ready s t [sd, sa, sb])
    (hq : t.viq = []) (ha : t.acc = none) (hr : s.readAligned t.ctx (t.getS sa) 128 = .ok bs s) {code : Nat} {w : State}
    (hc : s.acceptCard t.ctx (t.getS sb).toNat (BitVec.ofNat 1024 (leNat bs)) (s.ownCard t) = .ok code w) :
    execTaskPost sd sa sb s
      = .next ((w.refreshOffers.endSvc (.strand t.id.sid)).put ({ t with busy := false }.setS sd (BitVec.ofNat 64 code)).advance) := by
  rw [execTaskPost, State.withCur_of h.1, h.2, State.behindStores_idle hq ha, hr, Res.bind, hc]
  rfl

theorem taskPost : TaskPost := by
  intro s t sd sa sb bs h hq ha hr card q done
  have hexec {code : Nat} {w : State} (hc : s.acceptCard t.ctx q card (s.ownCard t) = .ok code w) :
      exec (.taskPost sd sa sb) s = done w (BitVec.ofNat 64 code) :=
    execTaskPost_ready h hq ha hr hc
  refine ⟨fun ho => hexec (code := 2) ?_, fun ho hf => hexec (code := 4) ?_, fun ho hf l w hl => ⟨fun hn => hexec (code := 4) ?_,
    fun foot binds hb => ⟨fun hfull => hexec (code := 1) ?_, fun hfull => hexec (code := 0) ?_⟩⟩⟩
  all_goals rw [State.acceptCard, show s.queueOpen t.ctx.asid q = _ from ho]
  · rfl
  all_goals rw [show s.cardFieldsOk t.ctx.asid card = _ from hf]
  · rfl
  all_goals simp only [hl, Res.bind, Bool.not_true, Bool.false_eq_true, if_false]
  · rw [hn]
  · simp only [hb, hfull, if_true]
  · simp only [hb, hfull, Bool.false_eq_true, if_false]
    rfl

/-! ## Forwarding -/

theorem tierHint : TierHint := fun _ _ _ _ _ h => State.scalar_ready h id

/-- A forwarding instruction whose attempt ends goes on with what the attempt gave. -/
theorem State.forwarding_ok {α : Type} {s w : State} {t : Strand} {regs : List SReg} {x : Strand → Res α} {a : α}
    (h : Ready s t regs) (ha : t.acc = none) (hx : x t = .ok a w) (f : Strand → α → State → State) :
    s.forwarding regs x f = .next (f { t with busy := false } a (w.endSvc (.strand t.id.sid))) := by
  rw [State.forwarding, State.withCur_of h.1, h.2, State.behindAccess, hx]
  simp only [ha]
  rfl

theorem canonicalAll_of_canonical {va : Word} (h : canonical va = true) : canonicalAll va 1 = true := by
  simp [canonicalAll, h]

/-- A byte address whose page is cached and permits the access. -/
theorem State.requested_byte {s : State} {c : Ctx} {va : Word} {need : Need} {e : TlbEntry} (hc : canonical va = true)
    (hd : s.denied c (va52 va) = none) (hh : s.tlbHit c.asid (va52 va) = some e) (hp : ptePermits e.pte need = true) :
    s.requested c va 1 1 need = .ok e s := by
  rw [State.requested_aligned (canonicalAll_of_canonical hc) (Nat.mod_one _), State.translate_hit va hh hp hd]

theorem State.chase_unforwarded {s : State} {c : Ctx} {e : TlbEntry} {va : Word}
    (hl : s.lineState (lineOf (entryHome e (va52 va))) ≠ some .forwarded) (hc : s.closed (lineOf (entryHome e (va52 va))) = false)
    (addr : Word) (need : Need) (fuel hops : Nat) :
    s.chase c addr need (fuel + 1) hops va e
      = .ok ⟨entryHome e (va52 va), va, hops, pteAttr e.pte, s.lineState (lineOf (entryHome e (va52 va)))⟩ s := by
  rw [State.chase]
  dsimp only
  rw [if_neg (by simp [hc])]
  cases hst : s.lineState (lineOf (entryHome e (va52 va))) with
  | none => rfl
  | some st =>
    cases st with
    | forwarded => exact absurd hst hl
    | plain | inMove => rfl

/-- An address that is its own resolves to itself. -/
theorem State.resolveVa_itself {s : State} {c : Ctx} {va : Word} (h : Itself s c va) : s.resolveVa c va = .ok va s := by
  rcases h with ⟨hc, hd, e, hh, hp, hl, hst, hclosed, -⟩ | ⟨hc, hd, e, hh, hp, hl⟩
  · rw [State.resolveVa, State.requested_byte hc hd hh hp, Res.bind, if_pos hl, State.chase_unforwarded hst hclosed]
    rfl
  · rw [State.resolveVa, State.requested_byte hc hd hh hp, Res.bind, if_neg (by simp [hl])]

theorem State.resolvePair_itself {s : State} {c : Ctx} {x y : Word} (hx : Itself s c x) (hy : Itself s c y) :
    s.resolvePair c x y = .ok (x, y) s := by
  simp only [State.resolvePair, State.resolveVa_itself hx, State.resolveVa_itself hy, Res.bind]

theorem compareVa_eq (x y : Word) :
    compareVa x y = if x.toNat = y.toNat then 0 else if y.toNat < x.toNat then 1 else BitVec.allOnes 64 := by
  rw [compareVa, BitVec.ult]
  simp only [BitVec.toNat_inj, decide_eq_true_eq]

/-- The value `fwd.stat` gives for a line that is not forwarded: its state, and the state its chain ends in, the same. -/
def unforwardedStat (st : Option LineState) : Word :=
  BitVec.ofNat 64 (match st with
    | some .plain => 0 | some .inMove => 1 + 16 * 1 | some .forwarded => 2 | none => 3 + 16 * 3)

theorem statWord_unforwarded {st : Option LineState} (h : st ≠ some .forwarded) (r : BitVec 128) :
    statWord st r ⟨0, stateCode st, false, false⟩ = unforwardedStat st := by
  simp only [statWord, beq_eq_false_iff_ne.mpr h, Bool.false_eq_true, if_false]
  cases st with
  | none => decide
  | some st =>
    cases st with
    | forwarded => exact absurd rfl h
    | plain | inMove => decide

theorem State.statOf_unforwarded {s : State} {c : Ctx} {va : Word} {e : TlbEntry} (hc : canonical va = true)
    (hd : s.denied c (va52 va) = none) (hh : s.tlbHit c.asid (va52 va) = some e) (hp : ptePermits e.pte .read = true)
    (hl : hasLines (pteAttr e.pte) = true) (hst : s.lineState (lineOf (entryHome e (va52 va))) ≠ some .forwarded)
    (hclosed : s.closed (lineOf (entryHome e (va52 va))) = false)
    (hsoft : s.soft.contains (lineOf (entryHome e (va52 va))) = false) :
    s.statOf c va = .ok (unforwardedStat (s.lineState (lineOf (entryHome e (va52 va))))) s := by
  have hchain : s.statChain c va 4 0 va e
      = .ok ⟨0, stateCode (s.lineState (lineOf (entryHome e (va52 va)))), false, false⟩ s := by
    rw [State.statChain]
    simp only [hsoft, hclosed, ne_eq, hst, not_false_eq_true, Bool.false_eq_true, if_false, if_true]
  simp only [State.statOf, State.requested_byte hc hd hh hp, Res.bind, hl, hchain, statWord_unforwarded hst, Bool.not_true,
    Bool.false_eq_true, if_false]

/-- A line that is neither in move nor forwarded is left as it is by `fwd.relink`. -/
theorem State.relink_unforwarded {s : State} {c : Ctx} {va : Word} (h : Unforwarded s c va .write)
    (hm : ∀ e, s.tlbHit c.asid (va52 va) = some e → s.lineState (lineOf (entryHome e (va52 va))) ≠ some .inMove) :
    s.relink c va = .ok () s := by
  obtain ⟨hc, hd, e, hh, hp, hl, hst, hclosed, -⟩ := h
  have hmove := hm e hh
  rw [State.relink, State.requested_byte hc hd hh hp, Res.bind, if_neg (by simp [hl])]
  dsimp only
  rw [if_neg (by simp [hclosed])]
  cases hs : s.lineState (lineOf (entryHome e (va52 va))) with
  | none => rfl
  | some st =>
    cases st with
    | forwarded => exact absurd hs hst
    | inMove => exact absurd hs hmove
    | plain => rfl

/-- `fwd.clear` of an address whose page may be reclaimed looks at the state of its line. -/
theorem State.clearLine_reclaimed {s : State} {c : Ctx} {va : Word} {e : TlbEntry} (hc : canonical va = true)
    (hd : s.denied c (va52 va) = none) (hh : s.tlbHit c.asid (va52 va) = some e) (hp : ptePermits e.pte .reclaim = true)
    (hl : hasLines (pteAttr e.pte) = true) (hclosed : s.closed (lineOf (entryHome e (va52 va))) = false) :
    let l := lineOf (entryHome e (va52 va))
    (s.lineState l ≠ some .forwarded → s.lineState l ≠ some .inMove → s.clearLine c va = .ok () s)
    ∧ (s.lineState l = some .forwarded → Cells.find s.redirects l = none → s.awaited c.asid l = false →
      s.clearLine c va = .ok () ((s.setLineData l 0).setLine l .plain)) := by
  intro l
  have hany := State.translate_hit (need := .any) va hh rfl hd
  have hrec := State.translate_hit va hh hp hd
  refine ⟨fun hst hmove => ?_, fun hst hr hw => ?_⟩
  · simp only [State.clearLine, hc, hany, hrec, Res.bind, hl, hclosed, Bool.not_true, Bool.false_eq_true, if_false]
    cases hs : s.lineState (lineOf (entryHome e (va52 va))) with
    | none => rfl
    | some st =>
      cases st with
      | forwarded => exact absurd hs hst
      | inMove => exact absurd hs hmove
      | plain => rfl
  · simp only [State.clearLine, hc, hany, hrec, Res.bind, hl, hclosed, Bool.not_true, Bool.false_eq_true, if_false]
    simp only [show s.lineState (lineOf (entryHome e (va52 va))) = _ from hst,
      show Cells.find s.redirects (lineOf (entryHome e (va52 va))) = none from hr,
      show s.awaited c.asid (lineOf (entryHome e (va52 va))) = false from hw]
    rfl

theorem forwardingOffChain : ForwardingOffChain := by
  intro s t sd sa sb hacc done clear
  refine ⟨fun h hi => ?_, fun h hx hy => ?_, fun h hu => ?_, fun h hu hm => ?_, fun h hu hm => ?_⟩
  · exact State.forwarding_ok (x := fun t => s.resolveVa t.ctx (t.getS sa)) h hacc (State.resolveVa_itself hi)
      (fun u va w => w.put (u.setS sd va).advance)
  · refine (State.forwarding_ok (x := fun t => s.resolvePair t.ctx (t.getS sa) (t.getS sb)) h hacc
      (State.resolvePair_itself hx hy) (fun u p w => w.put (u.setS sd (compareVa p.1 p.2)).advance)).trans ?_
    rw [compareVa_eq]
  · obtain ⟨hc, hd, e, hh, hp, hl, hst, hclosed, hsoft⟩ := hu
    exact ⟨e, hh, State.forwarding_ok (x := fun t => s.statOf t.ctx (t.getS sa)) h hacc
      (State.statOf_unforwarded hc hd hh hp hl hst hclosed hsoft)
      (fun u x w => w.put (u.setS sd x).advance)⟩
  · exact State.forwarding_ok (x := fun t => s.relink t.ctx (t.getS sa)) h hacc (State.relink_unforwarded hu hm)
      (fun u _ w => w.put u.advance)
  · obtain ⟨hc, hd, e, hh, hp, hl, hst, hclosed, -⟩ := hu
    exact State.forwarding_ok (x := fun t => s.clearLine t.ctx (t.getS sa)) h hacc
      ((State.clearLine_reclaimed hc hd hh hp hl hclosed).1 hst (hm e hh)) (fun u _ w => w.put u.advance)

/-- On a forwarded line with a record of its own address space an address resolves to the one the record names. -/
theorem State.resolveVa_oneHop {s : State} {c : Ctx} {va va' : Word} {e e' : TlbEntry} (hc : canonical va = true)
    (hd : s.denied c (va52 va) = none) (hh : s.tlbHit c.asid (va52 va) = some e) (hp : ptePermits e.pte .read = true)
    (hl : hasLines (pteAttr e.pte) = true) (hst : s.lineState (lineOf (entryHome e (va52 va))) = some .forwarded)
    (hsoft : s.soft.contains (lineOf (entryHome e (va52 va))) = false)
    (hclosed : s.closed (lineOf (entryHome e (va52 va))) = false)
    (hasid : recAsid (s.lineRecord (lineOf (entryHome e (va52 va)))) = c.asid)
    (hva : va' = recTarget (s.lineRecord (lineOf (entryHome e (va52 va)))) ||| (va &&& 127))
    (hd' : s.denied c (va52 va') = none) (hh' : s.tlbHit c.asid (va52 va') = some e') (hp' : ptePermits e'.pte .read = true)
    (hl' : hasLines (pteAttr e'.pte) = true) (hst' : s.lineState (lineOf (entryHome e' (va52 va'))) ≠ some .forwarded)
    (hclosed' : s.closed (lineOf (entryHome e' (va52 va'))) = false) :
    s.resolveVa c va = .ok va' s := by
  have hchase : s.chase c va .read 4 0 va e = s.chase c va .read 3 1 va' e' := by
    rw [State.chase]
    simp only [hclosed, hst, hsoft, hasid, ← hva, State.translate_hit va hh' hp' hd', Res.bind, hl', ne_eq, not_true_eq_false,
      Bool.false_eq_true, if_false, if_true, Nat.zero_add]
    rw [if_neg (by decide)]
  rw [State.resolveVa, State.requested_byte hc hd hh hp, Res.bind, if_pos hl, hchase, State.chase_unforwarded hst' hclosed']
  rfl

/-- Bytes cleared read 0. -/
theorem get_fill_zero {m : List Host.Cell} (h : Memory.wf m = true) (a : Nat) {n i : Nat} (hi : i < n) :
    Memory.get (Memory.fill m a (leBytes n 0)) (a + i) = 0 := by
  have hzero : ∀ (n : Nat), ∀ b ∈ leBytes n 0, b = 0 := by
    intro n
    induction n with
    | zero => nofun
    | succ n ih =>
      intro b hb
      rcases List.mem_cons.mp hb with rfl | hb
      · rfl
      · exact ih b hb
  have hlen : i < (leBytes n 0).length := by rwa [length_leBytes]
  rw [Memory.get_fill h a _ hlen]
  exact hzero n _ (List.getElem_mem hlen)

theorem State.setLineData_mem (s : State) (l : Nat) (d : BitVec 1024) :
    (s.setLineData l d).mem = Memory.write s.mem (128 * l) 128 d.toNat := by
  simp only [State.setLineData]

/-- A line whose data is cleared reads 0, the others as before. -/
theorem get_setLineData_zero {s : State} (h : s.memOk) (l a : Nat) :
    Memory.get (s.setLineData l 0).mem a = if a / 128 = l then 0 else Memory.get s.mem a := by
  have hmem : (s.setLineData l 0).mem = Memory.fill s.mem (128 * l) (leBytes 128 0) := by
    have hzero : (0 : BitVec 1024).toNat = 0 := by simp
    rw [State.setLineData_mem, hzero, Memory.write]
  rw [hmem]
  split
  · rename_i hl
    have hget := get_fill_zero h.1 (128 * l) (Nat.mod_lt a (by decide : 128 > 0))
    rw [← hl, Nat.div_add_mod] at hget
    rw [← hl, hget]
  · rw [Memory.get_fill_other]
    rw [length_leBytes]
    omega

theorem forwardingOneHop : ForwardingOneHop := by
  intro s t sd sa e e' va l r va' hok hacc hd hd' hc hh hl hst hsoft hclosed
  refine ⟨fun h hp hasid hh' hp' hl' hst' hclosed' => ?_, fun h hp hr hw => ?_⟩
  · exact State.forwarding_ok (x := fun t => s.resolveVa t.ctx (t.getS sa)) h hacc
      (State.resolveVa_oneHop hc hd hh hp hl hst hsoft hclosed hasid rfl hd' hh' hp' hl' hst' hclosed')
      (fun u va w => w.put (u.setS sd va).advance)
  · have hexec : exec (.fwdClear sa) s = _ := State.forwarding_ok (x := fun t => s.clearLine t.ctx (t.getS sa)) h hacc
      ((State.clearLine_reclaimed hc hd hh hp hl hclosed).2 hst hr hw) (fun u _ w => w.put u.advance)
    have hstrands : (((s.setLineData l 0).setLine l .plain).endSvc (.strand t.id.sid)).strands = s.strands := by
      rw [State.endSvc_strands, State.setLine_strands, State.setLineData_strands]
    obtain ⟨hsome, -⟩ := put_replaces (u := { t with busy := false }.advance) (cur_strand h.1) hstrands rfl
    have hlines (k : Nat) : (s.setLineData l 0).lineState k = s.lineState k := by
      rw [State.lineState, State.setLineData_lines]
      rfl
    have hmem : ((((s.setLineData l 0).setLine l .plain).endSvc (.strand t.id.sid)).put { t with busy := false }.advance).mem
        = (s.setLineData l 0).mem := by
      rw [State.put_mem, State.endSvc_mem, State.setLine_mem]
    refine ⟨_, hexec, hsome, Cells.find_put_some _ _ _, fun k hk => ?_, fun a => ?_⟩
    · exact (State.lineState_setLine_other _ hk _).trans (hlines k)
    · rw [hmem]
      exact get_setLineData_zero hok l a

end Sys2Proof.Machine

open Sys2Proof Sys2Proof.Machine

/-- Settles O26: each call's attempt ends with the code of the first check that fails, or with OK. -/
theorem schedulerCalls : Obligations.SchedulerCalls :=
  ⟨queueDrain, systemCall, taskPost⟩

/-- Settles O28: an address resolves to itself, or over one record; a line is cleared once nothing waits for it. -/
theorem forwarding : Obligations.Forwarding :=
  ⟨tierHint, forwardingOffChain, forwardingOneHop⟩

end

section
/-!
SUPPORT. Dispatch of the chained vector-queue instructions (R17, R20, R156 to R158, R161, R162).
-/

namespace Sys2Proof.Machine

/-- An instruction that names groups, masks or operands of a convoy is dispatched into one. -/
theorem exec_chained {i : Instr} {vt : BitVec 12} {u : Uses} (h : uses vt i = some u) (s : State) :
    exec i s = s.dispatchChained i := by
  cases i with
  | mzero | mtag | vopa | vopaS | mrd | mwr | mld | mst | mcvtI32Trio | mcvtF32I32 | mcvtBf16F32 | vperm | vzip | vunzip |
  vslideUp | vslideDn | vrepBlk | vcompress | vexpand | vscanAdd | vscanAddx | vmergeUAdd | vmergeUSub | vmergeUMax | vxch
  | vfadd | vfsub | vfmul | vfdiv | vfmin | vfmax | vfma | vfsqrt | vfrcpE | vfaddX | vfsubX | vfmulX | vfdivX | vfminX |
  vfmaxX | vscale | vadd | vsub | vmul | vmulh | vmadd | vmin | vmax | vand | vor | vxor | vshl | vshr | vsar | vaddX |
  vsubX | vmulX | vmulhX | vmaddX | vminX | vmaxX | vandX | vorX | vxorX | vshlX | vshrX | vsarX | vcmpEq | vcmpNe |
  vcmpLt | vcmpGe | vcmpLtN | vcmpGeN | vcmpFeq | vcmpFlt | vcmpFle | vcmpFun | vsel | kand | kor | knot | kpop | kfirst |
  vmvSx | vbcast | vmvXs | vredAddO | vredAddT | vredMin | vredMax | vcvtH | vcvtD | vcvtF32E2m1 | vtag | vld | vlds |
  vldx | vst | vsts | vstxO | vstxN | vldc | vstc | vfwdRes | vltLd | vltSt | vltFill | vamoAdd | vamoAnd | vamoOr |
  vamoXor | vamoMin | vamoMax | vamoSwp | vamoCas | vwaccAdd => rfl
  | _ => cases h

theorem Strand.noRoom_iff (t : Strand) (i : Instr) : t.noRoom i = true ↔ t.resultsFull i = true ∨ 64 ≤ t.viq.length := by
  simp [Strand.noRoom, Config.viqEntries]

/-- What a chained instruction does that starts a convoy, and one that joins the open one or may not. -/
theorem dispatchChained_of {s : State} {t : Strand} {i : Instr} {u : Uses} (h : s.curStrand = some t)
    (hu : uses t.vtype i = some u) :
    ((u.c || t.fresh) = true → s.dispatchChained i = .next (if t.mustWait (u.scalars i) || t.noRoom i then s.stallClosing t
      else s.put (t.pushEntry i true u.ops)))
    ∧ ((u.c || t.fresh) = false →
      (joinCause t.openConvoy i u = none → (∀ r ∈ u.scalars i, t.isReserved r = false ∧ t.isPending r = false) →
        s.dispatchChained i = .next (if t.noRoom i then s.stall t else s.put (t.pushEntry i false u.ops)))
      ∧ ∀ c, joinCause t.openConvoy i u = some c → s.dispatchChained i = .next (s.scalarTrap t c 0 0 0)) := by
  have hdisp : s.dispatchChained i = _ := State.withCur_of h _
  simp only [hu] at hdisp
  rw [hdisp]
  refine ⟨fun hc => ?_, fun hc => ⟨fun hj hr => ?_, fun c hj => ?_⟩⟩
  · rw [if_pos hc]
    split <;> rfl
  · have hpend : ((u.scalars i).any t.isPending) = false := by
      simpa using fun r hm => (hr r hm).2
    have hres : ((u.scalars i).any t.isReserved) = false := by
      simpa using fun r hm => (hr r hm).1
    have hopen : ((u.scalars i).any fun r => t.isReserved r && !t.openNames r) = false := by
      simpa using fun r hm hx => absurd hx (by simp [(hr r hm).1])
    simp only [hc, hj, hpend, hres, hopen, Bool.false_eq_true, if_false]
    split <;> rfl
  · simp only [hc, hj, Bool.false_eq_true, if_false]

theorem chainedDispatchClause : ChainedDispatchClause := by
  intro s t i u h hu entered full
  obtain ⟨hstarts, hjoins⟩ := dispatchChained_of h hu
  rw [← exec_chained hu] at hstarts hjoins
  have hfull : full ↔ t.noRoom i = true := (t.noRoom_iff i).symm
  refine ⟨fun hc => ?_, fun hc hf => ?_⟩
  · have hexec := hstarts (by simpa using hc)
    refine ⟨fun hw hn => hexec.trans ?_, fun hw => hexec.trans ?_⟩
    · rw [if_neg (by simp [hw, mt hfull.mpr hn])]
      rfl
    · rw [if_pos (by simpa [hfull] using hw)]
      rfl
  · obtain ⟨hnone, hsome⟩ := hjoins (by simp [hc, hf])
    refine ⟨fun hj hr => ⟨fun hn => (hnone hj hr).trans ?_, fun hn => (hnone hj hr).trans ?_⟩, fun c hj hacc hq => ?_⟩
    · rw [if_neg (mt hfull.mpr hn)]
      rfl
    · rw [if_pos (hfull.mp hn)]
      rfl
    · rw [hsome c hj, State.scalarTrap_queued hacc fun hi => hq hi.1]
      rfl

theorem resultQueueLimit : ResultQueueLimit := by
  intro t i
  simp only [Strand.resultsFull, Bool.and_eq_true, decide_eq_true_eq, List.countP_eq_length_filter]
  rfl

end Sys2Proof.Machine

open Sys2Proof Sys2Proof.Machine

/-- Settles O29: a chained instruction starts a convoy, joins the open one, or leaves the fault of joining behind the queue. -/
theorem chainedDispatch : Obligations.ChainedDispatch :=
  ⟨chainedDispatchClause, resultQueueLimit⟩

end

section
/-!
SUPPORT. What reads and writes of memory keep, a convoy keeps: the instructions it is made of.
-/

namespace Sys2Proof.Machine

/-! ## What is kept through a convoy -/

/-- A property of states that no access of a strand changes, nor what its registers become. -/
class State.Closed (P : State → Prop) : Prop where
  reads : ∀ {s w : State}, s.Reads w → P s → P w
  writes : ∀ {s : State}, P s → ∀ a bs, P (s.writeHome a bs)
  sends : ∀ {s : State}, P s → ∀ r, P (s.send r)
  puts : ∀ {s : State}, P s → ∀ t, P (s.put t)

theorem State.closed_memOk : State.Closed State.memOk where
  reads := fun k h => k.memOk h
  writes := fun h => State.memOk_writeHome h
  sends := fun h r => by
    unfold State.send State.place
    split
    · exact h
    · dsimp only
      split <;> exact h
  puts := fun h _ => h


/-- Of a stop, a convoy keeps the run of its last member or of its vector atomic; of any other at most cached translations. -/
def Stop.Kept (P : State → Prop) : Stop → Prop
  | .last _ _ r => P r.s
  | .send _ r => P r.s
  | _ => True

/-- The run an outcome holds has the property. -/
def Rr.Kept (P : State → Prop) : Rr → Prop
  | .ok r => P r.s
  | .stop x => x.Kept P

/-- A prepared instruction keeps the property in its groups and at its place in the last one. -/
structure Mop.Kept (P : State → Prop) (m : Mop) : Prop where
  group : ∀ lo hi r, P r.s → (m.group lo hi r).Kept P
  final : ∀ r, P r.s → (m.final r).Kept P

/-- An instruction that has been prepared keeps the property. -/
def Prep.Kept (P : State → Prop) : Prep → Prop
  | .fail _ => True
  | .stop x => x.Kept P
  | .ok _ m => m.Kept P

/-- A read ends in a state of canonical form. -/
theorem Res.Ends.memOk {α : Type} {s : State} {x : Res α} (h : x.Ends s.Reads) (hs : s.memOk) : x.Ends State.memOk :=
  h.mono fun _ k => k.memOk hs

section
variable {P : State → Prop}

theorem Rr.kept_bind {x : Rr} {f : Run → Rr} (h : x.Kept P) (k : ∀ r, P r.s → (f r).Kept P) : (x.bind f).Kept P := by
  cases x with
  | ok r => exact k r h
  | stop y => exact h

theorem eachElem_kept {f : Nat → Run → Rr} (h : ∀ e r, P r.s → (f e r).Kept P) (n e : Nat) {r : Run} (hr : P r.s) :
    (eachElem f n e r).Kept P := by
  induction n generalizing e r with
  | zero => exact hr
  | succ n ih => exact Rr.kept_bind (h e r hr) fun r' hr' => ih (e + 1) hr'

theorem overElems_kept {f : Nat → Run → Rr} (h : ∀ e r, P r.s → (f e r).Kept P) (lo hi : Nat) (r : Run) (hr : P r.s) :
    (overElems f lo hi r).Kept P :=
  eachElem_kept h _ _ hr

theorem elementMop_kept (vt : BitVec 12) (d : Dst) (vl vlmax : Nat) (f : Strand → Nat → Put × Flags) :
    (elementMop vt d vl vlmax f).Kept P where
  group := overElems_kept fun _ _ h => h
  final := fun _ h => h

theorem maskedMop_kept (vt : BitVec 12) (m : MaskOp) (d : Dst) (vl vlmax : Nat) (f : Strand → Nat → Nat × Flags) :
    (maskedMop vt m d vl vlmax f).Kept P :=
  elementMop_kept ..

theorem resultMop_kept (x : Word) (fl : List (Nat × Flags)) : (resultMop x fl).Kept P where
  group := fun _ _ _ h => h
  final := fun _ h => h

theorem idleMop_kept : idleMop.Kept P where
  group := fun _ _ _ h => h
  final := fun _ h => h

theorem Mop.kept_resumed {m : Mop} (h : m.Kept P) (pos : Nat) (fin : Bool) : (m.resumed pos fin).Kept P where
  group := fun _ hi r hr => h.group _ hi r hr
  final := fun r hr => by
    cases fin
    · exact h.final r hr
    · exact hr

theorem Px.kept_checked (x : Px) {α : Type} (c : Except Cause α) {f : α → Prep} (h : ∀ a, (f a).Kept P) :
    (x.checked c f).Kept P := by
  cases c with
  | error e => trivial
  | ok a => exact h a

theorem Px.kept_done (x : Px) (d : Option (VReg × Nat × Tag)) {m : Mop} (h : m.Kept P) : (x.done d m).Kept P := by
  unfold Px.done
  split
  · exact h
  · split <;> exact h

theorem Px.kept_tileOnly (x : Px) {f : Run → Rr} (h : ∀ r, P r.s → (f r).Kept P) : (x.tileOnly f).Kept P := by
  unfold Px.tileOnly
  split
  · exact idleMop_kept
  · exact ⟨fun _ _ _ hr => hr, h⟩

/-! ## Accesses of an element -/

theorem ofLoad_kept {α : Type} (r : Run) (e : Nat) {x : Res α} {f : α → Run → Rr} (h : x.Ends P)
    (k : ∀ a r', P r'.s → (f a r').Kept P) : (ofLoad r e x f).Kept P := by
  cases x with
  | ok a w => exact k a _ h
  | flt | wait | held | soft => trivial

theorem ofPrecise_kept {α : Type} (r : Run) (e : Nat) {x : Res α} {f : α → Run → Rr} (h : x.Ends P)
    (k : ∀ a r', P r'.s → (f a r').Kept P) : (ofPrecise r e x f).Kept P := by
  cases x with
  | ok a w => exact k a _ h
  | flt | wait | held | soft => trivial

theorem Rr.kept_asLast [State.Closed P] {x : Rr} {r : Run} (h : x.Kept P) (hr : P r.s) : (x.asLast r).Kept P := by
  unfold Rr.asLast
  split
  · exact State.Closed.reads (s := r.s) rfl hr
  · exact State.Closed.reads (s := r.s) rfl hr
  · exact State.Closed.reads (s := r.s) rfl hr
  · exact h

/-- A read keeps the property. -/
theorem Res.Ends.kept [State.Closed P] {α : Type} {s : State} {x : Res α} (h : x.Ends s.Reads) (hs : P s) : x.Ends P :=
  h.mono fun _ k => State.Closed.reads k hs

theorem Run.touchVa_s (r : Run) (va : Word) (n : Nat) (need : Need) : (r.touchVa va n need).s = r.s := by
  unfold Run.touchVa
  split <;> rfl

theorem Run.touchSpan_s (r : Run) (va : Word) (n : Nat) (need : Need) : (r.touchSpan va n need).s = r.s := by
  unfold Run.touchSpan
  induction List.range (n / 128 + 2) generalizing r with
  | nil => rfl
  | cons i l ih =>
    rw [List.foldl_cons, ih]
    dsimp only
    split
    · exact Run.touchVa_s ..
    · rfl

theorem State.firstHome_reads (s : State) (c : Ctx) (va : Word) (n : Nat) (need : Need) (k : Kind) :
    (s.firstHome c va n need k).Ends s.Reads := by
  unfold State.firstHome
  refine (State.requested_reads ..).reads_bind fun e w => ?_
  split
  · exact rfl
  · split
    · split <;> exact rfl
    · exact rfl

theorem State.resolveVa_reads (s : State) (c : Ctx) (va : Word) : (s.resolveVa c va).Ends s.Reads := by
  unfold State.resolveVa
  refine (State.requested_reads ..).reads_bind fun e w => ?_
  split
  · exact (State.chase_reads ..).reads_bind fun l w2 => rfl
  · exact rfl

theorem State.store_kept [State.Closed P] (s : State) (c : Ctx) (lb : List BufLine) (va : Word) (n v : Nat) (h : P s) :
    (s.store c lb va n v).Ends P := by
  unfold State.store
  exact ((State.resolve_reads ..).kept h).bind fun l w hw => ((State.atHome_reads ..).kept hw).bind fun l2 w2 hw2 =>
    State.Closed.writes hw2 _ _

/-! ## What the instructions of a convoy keep -/

theorem prepElement_kept (x : Px) (vd va : VReg) (b : Second) (ty : Tag) (m : MaskOp) (useD : Bool) (accept : Tag → Bool)
    (f : Tag → Nat → Nat → Nat → Nat × Flags) : (prepElement x vd va b ty m useD accept f).Kept P :=
  x.kept_checked _ fun _ => x.kept_done _ (maskedMop_kept ..)

theorem prepScale_kept (a : Vv) (x : Px) : (prepScale a x).Kept P :=
  x.kept_checked _ fun _ => x.kept_done _ (maskedMop_kept ..)

theorem prepCompare_kept (r : Rel) (a : Vk) (x : Px) : (prepCompare r a x).Kept P :=
  x.kept_checked _ fun _ => x.kept_done _ (maskedMop_kept ..)

theorem prepSel_kept (a : Vp) (x : Px) : (prepSel a x).Kept P :=
  x.kept_checked _ fun _ => x.kept_done _ (elementMop_kept ..)

theorem prepKpop_kept (ka : KReg) (m : MaskOp) (x : Px) : (prepKpop ka m x).Kept P :=
  x.kept_done _ (resultMop_kept ..)

theorem prepKfirst_kept (ka : KReg) (m : MaskOp) (x : Px) : (prepKfirst ka m x).Kept P :=
  x.kept_done _ (resultMop_kept ..)

theorem prepMvSx_kept (vd : VReg) (ty : Tag) (x : Px) : (prepMvSx vd ty x).Kept P :=
  x.kept_checked _ fun _ => x.kept_done _ (elementMop_kept ..)

theorem prepBcast_kept (vd : VReg) (ty : Tag) (m : MaskOp) (x : Px) : (prepBcast vd ty m x).Kept P :=
  x.kept_checked _ fun _ => x.kept_done _ (maskedMop_kept ..)

theorem prepMvXs_kept (va : VReg) (x : Px) : (prepMvXs va x).Kept P :=
  x.kept_checked _ fun _ => x.kept_done _ (resultMop_kept ..)

theorem prepReduce_kept (o : RedOp) (a : Red) (x : Px) : (prepReduce o a x).Kept P := by
  refine x.kept_checked _ fun t => ?_
  split
  · exact x.kept_done _ (resultMop_kept ..)
  · dsimp only
    split <;> exact x.kept_done _ (resultMop_kept ..)

theorem prepCvt_kept (half : Bool) (a : V1) (x : Px) : (prepCvt half a x).Kept P :=
  x.kept_checked _ fun _ => x.kept_done _ (maskedMop_kept ..)

theorem prepCvtE2m1_kept (a : V1) (x : Px) : (prepCvtE2m1 a x).Kept P :=
  x.kept_checked _ fun _ => x.kept_done _ (maskedMop_kept ..)

theorem prepVtag_kept (vd va : VReg) (ty : Tag) (x : Px) : (prepVtag vd va ty x).Kept P :=
  x.kept_checked _ fun _ => x.kept_done _ ⟨overElems_kept fun _ _ h => h, fun _ h => h⟩

theorem prepLoad_kept [State.Closed P] (f : Form) (vd : VReg) (ty : Tag) (m : MaskOp) (x : Px) : (prepLoad f vd ty m x).Kept P := by
  refine x.kept_checked _ fun u => x.kept_done _ ⟨overElems_kept fun e r h => ?_, fun _ h => h⟩
  split
  · exact ofLoad_kept _ _ ((State.load_reads ..).kept h) fun _ _ h' => h'
  · exact h

theorem storeElem_kept [State.Closed P] (r : Run) (w e : Nat) (va : Word) (v : Nat) (h : P r.s) : (storeElem r w e va v).Kept P := by
  unfold storeElem
  split
  · exact ofPrecise_kept _ _ ((State.resolve_reads ..).kept h) fun l r1 h1 =>
      ofPrecise_kept _ _ ((State.atHome_reads ..).kept h1) fun l2 r2 h2 => State.Closed.writes h2 _ _
  · exact ofPrecise_kept _ _ (State.store_kept _ _ _ _ _ _ h) fun _ _ h' => h'

theorem prepStore_kept [State.Closed P] (f : Form) (ordered : Bool) (vd : VReg) (m : MaskOp) (x : Px) : (prepStore f ordered vd m x).Kept P := by
  refine x.kept_checked _ fun u => x.kept_done _ ⟨overElems_kept fun e r h => ?_, fun r h => ?_⟩
  · split
    · dsimp only
      split
      · exact storeElem_kept _ _ _ _ _ h
      · exact ofPrecise_kept _ _ ((State.resolve_reads ..).kept h) fun _ _ h' => h'
    · exact h
  · cases ordered
    · exact State.Closed.reads (s := r.s) rfl h
    · exact h

theorem prepFwdRes_kept [State.Closed P] (a : Vu) (x : Px) : (prepFwdRes a x).Kept P := by
  refine x.kept_checked _ fun u => x.kept_done _ ⟨overElems_kept fun e r h => ?_, fun _ h => h⟩
  split
  · exact ofLoad_kept _ _ ((State.resolveVa_reads ..).kept h) fun _ _ h' => h'
  · exact h

theorem storeBytes_kept [State.Closed P] (e : Nat) (va : Word) (l : List Nat) (r : Run) (h : P r.s) : (storeBytes r e va l).Kept P := by
  induction l generalizing r va with
  | nil => exact h
  | cons b l ih => exact ofPrecise_kept _ _ (State.store_kept _ _ _ _ _ _ h) fun lb r' h' => ih _ _ h'

theorem probeStore_kept [State.Closed P] (e n : Nat) (va : Word) (r : Run) (h : P r.s) : (probeStore r e n va).Kept P := by
  induction n generalizing r va with
  | zero => exact h
  | succ n ih =>
    exact ofPrecise_kept _ _ ((State.resolve_reads ..).kept h) fun l r1 h1 =>
      ofPrecise_kept _ _ ((State.atHome_reads ..).kept h1) fun l2 r2 h2 => ih _ _ h2

theorem writeStc_kept [State.Closed P] (w : Nat) (t : Tag) (base : Word) (vl m s start upto : Nat) (kept : List (Nat × Nat)) (r : Run)
    (h : P r.s) : (writeStc w t base vl m s start upto kept r).Kept P := by
  refine Rr.kept_asLast ?_ h
  refine Rr.kept_bind (probeStore_kept _ _ _ _ h) fun r0 h0 => Rr.kept_bind (probeStore_kept _ _ _ _ h0) fun r1 h1 =>
    Rr.kept_bind (storeBytes_kept _ _ _ _ h1) fun r2 h2 => ?_
  split
  · exact h2
  · exact Rr.kept_bind (storeBytes_kept _ _ _ _ h2) fun r3 h3 => Rr.kept_bind (storeBytes_kept _ _ _ _ h3) fun r4 h4 => h4

theorem prepStc_kept [State.Closed P] (a : Vstc) (x : Px) : (prepStc a x).Kept P := by
  refine x.kept_checked _ fun t => ?_
  split
  · exact resultMop_kept ..
  · refine ⟨fun _ _ _ h => h, fun r h => ?_⟩
    dsimp only
    split
    · exact h
    split
    · exact h
    split
    · split <;> exact h
    · exact writeStc_kept _ _ _ _ _ _ _ _ _ _ h

theorem prepLdc_kept (a : Vmem) (x : Px) : (prepLdc a x).Kept P := by
  refine x.kept_checked _ fun _ => ?_
  split
  · exact idleMop_kept
  dsimp only
  split
  · trivial
  split
  · trivial
  split
  case h_1 hb lb s _ =>
    split
    · trivial
    split
    · trivial
    split
    case h_1 mb lb2 s2 _ =>
      split
      · trivial
      split
      case h_1 vb lb3 s3 _ =>
        refine ⟨fun lo hi r h => ?_, fun _ h => h⟩
        refine overElems_kept (fun _ _ h => ?_) _ _ _ ?_
        · exact h
        · rw [Run.touchSpan_s]
          exact h
      all_goals trivial
    all_goals trivial
  all_goals trivial

theorem prepLtLd_kept (a : Vlt) (x : Px) : (prepLtLd a x).Kept P := by
  refine x.kept_checked _ fun _ => x.kept_done _ ⟨overElems_kept fun e r h => ?_, fun _ h => h⟩
  split
  · split
    · trivial
    · exact h
  · exact h

theorem prepLtSt_kept (a : Vlt) (x : Px) : (prepLtSt a x).Kept P := by
  refine x.kept_checked _ fun _ => x.kept_done _ ⟨overElems_kept fun e r h => ?_, fun _ h => h⟩
  split
  · split
    · trivial
    · exact h
  · exact h

theorem prepLtFill_kept (a : Vs) (x : Px) : (prepLtFill a x).Kept P := by
  refine x.kept_checked _ fun _ => x.kept_done _ ⟨overElems_kept fun e r h => ?_, fun _ h => h⟩
  split
  · split
    · trivial
    · simpa only [Rr.Kept, Run.upd] using h
  · exact h

theorem VamoJob.send_kept [State.Closed P] (j : VamoJob) (es : List Nat) (l : List (Nat × Request)) (r : Run) (h : P r.s) :
    (j.send es l r).Kept P := by
  induction es generalizing l r with
  | nil => exact h
  | cons e es ih => exact ofPrecise_kept _ _ ((State.firstHome_reads ..).kept h) fun _ _ h' => ih _ _ h'

theorem VamoJob.perform_kept [State.Closed P] (j : VamoJob) (r : Run) (e : Nat) (h : P r.s) : (j.perform r e).Ends P := by
  unfold VamoJob.perform
  refine ((State.resolve_reads ..).kept h).bind fun l s1 h1 => ((State.atHome_reads ..).kept h1).bind fun l2 s2 h2 => ?_
  dsimp only
  split
  · exact State.Closed.writes h2 _ _
  · exact State.Closed.writes h2 _ _

theorem VamoJob.step_kept [State.Closed P] (j : VamoJob) (m : MaskOp) (skip : List Nat) (ret : Option VReg) (vt : BitVec 12)
    (above : Nat → List Nat) (e : Nat) (r : Run) (h : P r.s) : (j.step m skip ret vt above e r).Kept P := by
  unfold VamoJob.step
  split
  · exact h
  split
  · split <;> exact h
  split
  · exact h
  refine ofPrecise_kept _ _ ((State.firstHome_reads ..).kept h) fun _ _ _ => ?_
  have hp := j.perform_kept r e h
  split
  · rename_i hx
    rw [hx] at hp
    exact hp
  all_goals trivial

theorem prepVamo_kept [State.Closed P] (o : AmoOp) (a : Vamo) (x : Px) : (prepVamo o a x).Kept P := by
  refine x.kept_checked _ fun u => x.kept_done _ ⟨fun lo hi r h => ?_, fun r h => ?_⟩
  · dsimp only
    split
    · exact VamoJob.send_kept _ _ _ _ h
    · exact overElems_kept (VamoJob.step_kept _ _ _ _ _ _) _ _ _ h
  · dsimp only
    split <;> exact h

theorem Run.settle_s (r : Run) : r.settle.s = r.s := by
  unfold Run.settle
  suffices h : ∀ (l : List WinAdd) (q : Run) (f : Run → WinAdd → Run), (∀ q p, (f q p).s = q.s) → (l.foldl f q).s = q.s from
    h _ _ _ fun _ _ => rfl
  intro l q f hf
  induction l generalizing q with
  | nil => rfl
  | cons p l ih => rw [List.foldl_cons, ih, hf]

theorem prepWacc_kept (a : Vwacc) (x : Px) : (prepWacc a x).Kept P := by
  refine x.kept_checked _ fun u => ?_
  dsimp only
  split
  · split
    · exact idleMop_kept
    · trivial
  · refine x.kept_done _ ⟨overElems_kept fun e r h => ?_, fun r h => ?_⟩
    · split
      · split
        · trivial
        · exact h
      · exact h
    · show P r.settle.s
      rw [Run.settle_s]
      exact h

theorem opaGroups_kept (trio : Bool) (a : Array (Option Exact)) (bs : List (Nat × Array (Option Exact))) (t0 r n g : Nat)
    (run : Run) (h : P run.s) : (opaGroups trio a bs t0 r n g run).Kept P := by
  unfold opaGroups
  split <;> exact h

theorem prepOpa_kept (t0 : TReg) (va vb : VReg) (ty : Tag) (rep : BitVec 3) (m : MaskOp) (scales : Option (VReg × VReg))
    (x : Px) : (prepOpa t0 va vb ty rep m scales x).Kept P := by
  refine x.kept_checked _ fun u => ?_
  dsimp only
  split
  · exact idleMop_kept
  · exact ⟨fun _ _ _ h => opaGroups_kept _ _ _ _ _ _ _ _ h, fun _ h => opaGroups_kept _ _ _ _ _ _ _ _ h⟩

theorem withinTile_kept (row0 : Nat) {m : Mop} (h : m.Kept P) : (withinTile row0 m).Kept P where
  group := fun lo hi r hr => by
    refine Rr.kept_bind (h.group _ _ _ hr) fun r' hr' => ?_
    split
    · trivial
    · exact hr'
  final := h.final

theorem prepMrd_kept [State.Closed P] (a : Mrow) (x : Px) : (prepMrd a x).Kept P := by
  refine x.kept_checked _ fun _ => ?_
  split
  · exact idleMop_kept
  split
  · trivial
  refine x.kept_done _ ?_
  split
  · exact withinTile_kept _ (elementMop_kept ..)
  · exact elementMop_kept ..

theorem prepMwr_kept (a : Mrow) (x : Px) : (prepMwr a x).Kept P := by
  refine x.kept_checked _ fun _ => ?_
  split
  · exact idleMop_kept
  split
  · trivial
  · exact ⟨fun _ _ _ h => h, fun _ h => h⟩

theorem Px.kept_tileRows (x : Px) {f : Nat → Run → Rr} (h : ∀ e r, P r.s → (f e r).Kept P) (r : Run) (hr : P r.s) :
    (x.tileRows f r).Kept P := by
  unfold Px.tileRows
  dsimp only
  split
  · exact hr
  split
  · exact hr
  refine Rr.kept_bind (overElems_kept h _ _ _ hr) fun r' hr' => ?_
  split <;> exact hr'

theorem prepMld_kept [State.Closed P] (a : Mmem) (x : Px) : (prepMld a x).Kept P := by
  refine x.kept_checked _ fun _ => ⟨fun _ _ _ h => h, x.kept_tileRows fun e r h => Rr.kept_asLast ?_ h⟩
  exact ofPrecise_kept _ _ ((State.load_reads ..).kept h) fun _ _ h' => h'

theorem prepMst_kept [State.Closed P] (a : Mmem) (x : Px) : (prepMst a x).Kept P := by
  refine x.kept_checked _ fun _ => ⟨fun _ _ _ h => h, x.kept_tileRows fun e r h => Rr.kept_asLast ?_ h⟩
  exact ofPrecise_kept _ _ (State.store_kept _ _ _ _ _ _ h) fun _ _ h' => h'

theorem prepMcvt_kept (o : McvtOp) (a : Mcvt) (x : Px) : (prepMcvt o a x).Kept P :=
  x.kept_checked _ fun _ => x.kept_tileOnly fun r h => by simpa only [Rr.Kept, Run.upd] using h

theorem prepMerge_kept (o : MergeOp) (a : Merge) (x : Px) : (prepMerge o a x).Kept P := by
  refine x.kept_checked _ fun u => ?_
  dsimp only
  split
  · exact resultMop_kept ..
  split
  · trivial
  split
  · trivial
  · exact ⟨overElems_kept fun _ _ h => h, fun _ h => h⟩

theorem prepXch_kept (a : Xch) (x : Px) : (prepXch a x).Kept P := by
  refine x.kept_checked _ fun u => ?_
  dsimp only
  split
  · exact resultMop_kept ..
  split
  · split
    · exact x.kept_done _ ⟨overElems_kept fun _ _ h => h, fun _ h => h⟩
    · exact resultMop_kept ..
  all_goals trivial

/-- A captured cross-element instruction that puts each element. -/
theorem checked_element_kept (x : Px) {α : Type} (c : Except Cause α) (d : α → Option (VReg × Nat × Tag)) (vt : BitVec 12)
    (r : Dst) (vl vlmax : Nat) (f : α → Strand → Nat → Put × Flags) :
    (x.checked c fun a => x.done (d a) (elementMop vt r vl vlmax (f a))).Kept P :=
  x.kept_checked _ fun _ => x.kept_done _ (elementMop_kept ..)

theorem prepMask_kept (kd : KReg) (f : Strand → Nat → Bool) (x : Px) : (prepMask kd f x).Kept P :=
  x.kept_done _ (elementMop_kept ..)

theorem prepare_kept [State.Closed P] (i : Instr) (x : Px) : (prepare i x).Kept P := by
  cases i
  case vadd | vsub | vmul | vmulh | vmadd | vmin | vmax | vand | vor | vxor | vshl | vshr | vsar | vaddX | vsubX | vmulX | vmulhX
      | vmaddX | vminX | vmaxX | vandX | vorX | vxorX | vshlX | vshrX | vsarX | vfadd | vfsub | vfmul | vfdiv | vfmin | vfmax
      | vfma | vfsqrt | vfrcpE | vfaddX | vfsubX | vfmulX | vfdivX | vfminX | vfmaxX => exact prepElement_kept ..
  case vscale => exact prepScale_kept ..
  case vcmpEq | vcmpNe | vcmpLt | vcmpGe | vcmpLtN | vcmpGeN | vcmpFeq | vcmpFlt | vcmpFle | vcmpFun => exact prepCompare_kept ..
  case vsel => exact prepSel_kept ..
  case kand | kor | knot => exact prepMask_kept ..
  case kpop => exact prepKpop_kept ..
  case kfirst => exact prepKfirst_kept ..
  case vmvSx => exact prepMvSx_kept ..
  case vbcast => exact prepBcast_kept ..
  case vmvXs => exact prepMvXs_kept ..
  case vredAddO | vredAddT | vredMin | vredMax => exact prepReduce_kept ..
  case vcvtH | vcvtD => exact prepCvt_kept ..
  case vcvtF32E2m1 => exact prepCvtE2m1_kept ..
  case vtag => exact prepVtag_kept ..
  case vld | vlds | vldx => exact prepLoad_kept ..
  case vst | vsts | vstxO | vstxN => exact prepStore_kept ..
  case vldc => exact prepLdc_kept ..
  case vstc => exact prepStc_kept ..
  case vfwdRes => exact prepFwdRes_kept ..
  case vperm | vzip | vunzip | vslideUp | vslideDn | vrepBlk | vcompress | vexpand | vscanAdd | vscanAddx =>
    exact checked_element_kept ..
  case vmergeUAdd | vmergeUSub | vmergeUMax => exact prepMerge_kept ..
  case vxch => exact prepXch_kept ..
  case vltLd => exact prepLtLd_kept ..
  case vltSt => exact prepLtSt_kept ..
  case vltFill => exact prepLtFill_kept ..
  case mzero | mtag => exact x.kept_checked _ fun _ => x.kept_tileOnly fun _ h => h
  case vopa a => exact prepOpa_kept a.t a.va a.vb a.ty a.rep a.m none x
  case vopaS a => exact prepOpa_kept a.t a.va a.vb a.ty a.rep a.m (some (a.vsa, a.vsb)) x
  case mrd => exact prepMrd_kept ..
  case mwr => exact prepMwr_kept ..
  case mld => exact prepMld_kept ..
  case mst => exact prepMst_kept ..
  case mcvtI32Trio | mcvtF32I32 | mcvtBf16F32 => exact prepMcvt_kept ..
  case vamoAdd | vamoAnd | vamoOr | vamoXor | vamoMin | vamoMax | vamoSwp | vamoCas => exact prepVamo_kept ..
  case vwaccAdd => exact prepWacc_kept ..
  all_goals exact idleMop_kept

end

end Sys2Proof.Machine
end

section
/-!
SUPPORT. A convoy performed keeps what accesses keep; what an exception, a stall and a return leave of memory's canonical form.
-/

namespace Sys2Proof.Machine

/-! ## The groups of a convoy -/

/-- The run a group ends with has the property. -/
def Gr.Kept (P : State → Prop) : Gr → Prop
  | .ok r _ => P r.s
  | .stop _ x _ => x.Kept P
  | .sent x => P x.run.s

/-- The same of a run of a convoy; its members keep it. -/
def Attempt.Kept (P : State → Prop) : Attempt → Prop
  | .fail _ _ => True
  | .stop _ x _ => x.Kept P
  | .sent x _ => P x.run.s
  | .done r _ ms _ => P r.s ∧ ∀ m ∈ ms, Mop.Kept P m

/-- The same of the members prepared. -/
def Prepared.Kept (P : State → Prop) : Prepared → Prop
  | .ok _ ms _ => ∀ m ∈ ms, Mop.Kept P m
  | .fail _ _ => True
  | .stop _ x => x.Kept P

section
variable {P : State → Prop}

theorem runGroup_kept (lo hi : Nat) (last : Bool) (ms : List Mop) (hm : ∀ m ∈ ms, Mop.Kept P m) (n : Nat) (r : Run) (outs : Outs)
    (h : P r.s) : (runGroup lo hi last n ms r outs).Kept P := by
  induction ms generalizing n r outs with
  | nil => exact h
  | cons m ms ih =>
    have hx : ((m.group lo hi r).bind fun r' => if last then m.final { r' with out := none } else .ok r').Kept P :=
      Rr.kept_bind ((hm m (by simp)).group lo hi r h) fun r' h' => by
        split
        · exact (hm m (by simp)).final _ h'
        · exact h'
    unfold runGroup
    split
    · rename_i hy
      rw [hy] at hx
      exact hx
    · rename_i hy
      rw [hy] at hx
      split <;> exact ih (fun m' h' => hm m' (by simp [h'])) _ _ _ hx

theorem runGroups_kept (ms : List Mop) (hm : ∀ m ∈ ms, Mop.Kept P m) (vl pos stop fuel g : Nat) (r : Run) (outs : Outs)
    (h : P r.s) : (runGroups ms vl pos stop fuel g r outs).Kept P := by
  induction fuel generalizing g r outs with
  | zero => exact h
  | succ fuel ih =>
    have hg := fun lo hi last => runGroup_kept lo hi last ms hm 0 r outs h
    unfold runGroups
    dsimp only
    split
    · rename_i hy
      have := hg (max (256 * g) pos) (min (min (256 * g + 256) vl) stop) (fuel == 0 && vl ≤ stop)
      rw [hy] at this
      exact this
    · rename_i hy
      have := hg (max (256 * g) pos) (min (min (256 * g + 256) vl) stop) (fuel == 0 && vl ≤ stop)
      rw [hy] at this
      exact this
    · rename_i hy
      have := hg (max (256 * g) pos) (min (min (256 * g + 256) vl) stop) (fuel == 0 && vl ≤ stop)
      rw [hy] at this
      exact this
    · rename_i hy
      have := hg (max (256 * g) pos) (min (min (256 * g + 256) vl) stop) (fuel == 0 && vl ≤ stop)
      rw [hy] at this
      exact ih _ _ _ this

/-- Waiting for an access, and what it has translated, are no more than a read. -/
theorem State.kept_keepWait [State.Closed P] {s : State} (h : P s) (w : State) : P (s.keepWait w) :=
  State.Closed.reads (s := s) rfl h

theorem State.kept_keepTlb [State.Closed P] {s : State} (h : P s) (w : State) : P (s.keepTlb w) :=
  State.Closed.reads (s := s) rfl h

theorem prepareAll_kept [State.Closed P] (s : State) (vl pos : Nat) (alone : Bool) (halt : Option Nat) (lax : Bool) (es : List Entry) (n : Nat)
    (t : Strand) (ms : List Mop) (caps : List Captured) (hm : ∀ m ∈ ms, Mop.Kept P m) :
    (prepareAll s vl pos alone halt lax n es t ms caps).Kept P := by
  induction es generalizing n t ms caps with
  | nil => intro m h; exact hm m (List.mem_reverse.1 h)
  | cons e es ih =>
    have hp := prepare_kept (P := P) e.i (e.px t s (e.cap.getD ⟨t.v, t.k⟩) vl alone halt lax)
    unfold prepareAll
    dsimp only
    split
    · trivial
    · rename_i hy
      rw [hy] at hp
      exact hp
    · rename_i hy
      rw [hy] at hp
      refine ih _ _ _ _ fun m h => ?_
      rcases List.mem_cons.1 h with rfl | h
      · split
        · exact Mop.kept_resumed hp _ _
        · exact hp
      · exact hm m h

theorem attempt_kept [State.Closed P] (t : Strand) (s : State) (es : List Entry) (vl stop : Nat) (halt : Option Nat)
    (got : Option (List (Nat × Word × BitVec 7))) (lax : Bool) (h : P s) : (attempt t s es vl stop halt got lax).Kept P := by
  have hp := prepareAll_kept (P := P) s vl (convoyPos es) (es.length == 1) halt lax es 0 t [] [] (by simp)
  unfold attempt
  split
  · trivial
  · rename_i hy
    rw [hy] at hp
    exact hp
  · rename_i hy
    rw [hy] at hp
    split
    · exact ⟨h, hp⟩
    · rename_i t' ms caps _
      have hr := runGroups_kept ms hp vl (convoyPos es) stop (groupsOf vl) 0 (Run.start t' s got) [] h
      split
      all_goals
        rename_i hz
        rw [hz] at hr
      · exact ⟨hr, hp⟩
      · exact hr
      · exact hr

/-! ## The end of a convoy -/

theorem waitedForLoads_kept [State.Closed P] (t : Strand) {s : State} (h : P s) (es : List Entry) (vl : Nat) :
    P (waitedForLoads t s es vl).2 := by
  unfold waitedForLoads
  split
  · exact State.Closed.reads (s := s) rfl h
  · exact h

theorem finishConvoy_kept [State.Closed P] (es rest : List Entry) (vl : Nat) {r : Run} (h : P r.s) (outs : Outs) :
    P (finishConvoy es rest vl r outs).2 :=
  waitedForLoads_kept r.t h es vl

theorem performAbove_kept {m : Mop} (hm : m.Kept P) (es : List Nat) {r : Run} (h : P r.s) (ok : List Nat) :
    P (performAbove m es r ok).1.s := by
  induction es generalizing r ok with
  | nil => exact h
  | cons e es ih =>
    have hg := hm.group e (e + 1) r h
    unfold performAbove
    split
    · rename_i hy
      rw [hy] at hg
      exact ih hg _
    · exact ih h _

theorem Run.above_kept {r : Run} (h : P r.s) (es : List Entry) (ms : List Mop) (hm : ∀ m ∈ ms, Mop.Kept P m) (stop : Nat)
    (more : List Nat) : P (r.above es ms stop more).1.s := by
  unfold Run.above
  split
  · exact h
  · rename_i m perf hx
    have hmem : Mop.Kept P m := by
      unfold amoMember at hx
      obtain ⟨p, hp, hq⟩ := Option.map_eq_some_iff.1 hx
      have := List.mem_of_find?_eq_some hp
      obtain ⟨rfl, -⟩ := Prod.mk.inj hq
      exact hm _ (List.of_mem_zip this).2
    dsimp only
    exact performAbove_kept hmem more (r := { (performAbove m _ r []).1 with got := none }) (performAbove_kept hmem _ h _) []

theorem stopConvoy_kept (t : Strand) (es rest : List Entry) (vl stop : Nat) (cut : Cut) {r : Run} (h : P r.s)
    (ms : List Mop) (hm : ∀ m ∈ ms, Mop.Kept P m) (caps : List Captured) :
    P (stopConvoy t es rest vl stop cut r ms caps).2 := by
  have h1 : P r.settle.s := by rw [Run.settle_s]; exact h
  unfold stopConvoy
  dsimp only
  refine Run.above_kept ?_ es ms hm stop _
  split
  · split <;> exact h1
  · exact h1

theorem sendAll_kept [State.Closed P] (l : List (Nat × Request)) {s : State} (h : P s) (sent : List (Nat × Nat × Word)) :
    P (sendAll s l sent).1 := by
  induction l generalizing s sent with
  | nil => exact h
  | cons x l ih => exact ih (s := s.send x.2) (State.Closed.sends h _) _

theorem lastStop_kept [State.Closed P] (t : Strand) {s : State} (hs : P s) (es rest : List Entry) (vl e : Nat) (why : Why) {r : Run}
    (h : P r.s) (outs : Outs) : P (lastStop t s es rest vl e why r outs).2 := by
  have hw := waitedForLoads_kept r.t h es vl
  unfold lastStop
  dsimp only
  split
  · exact hw
  · exact hw
  · split
    · exact State.kept_keepWait hs _
    · exact hw
  · split
    · exact State.kept_keepWait hs _
    · exact hw

theorem perform_kept [State.Closed P] (halt : Option Nat) (fuel : Nat) (t : Strand) (rest : List Entry) {s : State} (hs : P s)
    (es : List Entry) (vl stop : Nat) (cut : Option Cut) (got : Option (List (Nat × Word × BitVec 7))) :
    P (perform t rest halt fuel s es vl stop cut got).2 := by
  induction fuel generalizing t rest s es vl stop cut got with
  | zero => exact hs
  | succ fuel ih =>
    have ha := attempt_kept t s es vl stop halt got false hs
    unfold perform
    dsimp only
    split
    case h_1 n c _ =>
      split
      · exact hs
      · split
        · exact State.kept_keepWait hs _
        · exact State.kept_keepWait hs _
        · exact ih _ _ hs _ _ _ _ _
    case h_2 r outs ms caps hx =>
      rw [hx] at ha
      split
      · exact ih _ _ hs _ _ _ _ _
      · split
        · exact finishConvoy_kept _ _ _ ha.1 _
        · exact stopConvoy_kept _ _ _ _ _ _ ha.1 _ ha.2 _
    case h_3 x caps hx =>
      rw [hx] at ha
      exact sendAll_kept _ ha _
    case h_4 n x outs hx =>
      rw [hx] at ha
      split
      · split
        · exact State.kept_keepTlb hs _
        · exact ih _ _ (State.kept_keepTlb hs _) _ _ _ _ _
      · split
        · split
          · exact hs
          · exact ih _ _ (State.kept_keepTlb hs _) _ _ _ _ _
        · exact ih _ _ (State.kept_keepTlb hs _) _ _ _ _ _
      · exact ih _ _ (State.kept_keepTlb hs _) _ _ _ _ _
      · exact lastStop_kept _ hs _ _ _ _ _ ha _
      · split
        · exact ih _ _ hs _ _ _ _ _
        · exact State.kept_keepWait hs _
      · split
        · exact ih _ _ hs _ _ _ _ _
        · exact State.kept_keepWait hs _
      · exact hs
      · exact hs
      · exact hs

theorem resumeAmo_kept [State.Closed P] (t : Strand) {s : State} (h : P s) (es rest : List Entry) (a : VecAmo) (saving : Bool) :
    P (resumeAmo t s es rest a saving).2 := by
  unfold resumeAmo
  split
  · exact perform_kept _ _ _ _ h _ _ _ _ _
  · split <;> exact perform_kept _ _ _ _ h _ _ _ _ _

theorem State.kept_runConvoy [State.Closed P] {s : State} (h : P s) (t : Strand) (halt : Option Nat) (saving : Bool) :
    P (s.runConvoy t halt saving) := by
  unfold State.runConvoy
  dsimp only
  have key {x : Strand × State} {f : Option Nat} (hx : P x.2) :
      P ((if x.1.qstall then x.2 else x.2.endSvc (.queue t.id.sid)).put
        (if x.1.vfault.isNone then { x.1 with vfault := t.vfault.map fun f => { f with index := x.1.viq.length } } else x.1)) := by
    refine State.Closed.puts ?_ _
    split
    · exact hx
    · exact State.Closed.reads (s := x.2) rfl hx
  refine key (f := none) ?_
  split
  · exact resumeAmo_kept _ h _ _ _ _
  · split
    · exact State.kept_keepWait h _
    · exact State.kept_keepWait h _
    · split
      · exact perform_kept _ _ _ _ h _ _ _ _ _
      · split
        · exact perform_kept _ _ _ _ h _ _ _ _ _
        · split <;> exact perform_kept _ _ _ _ h _ _ _ _ _

end

/-! ## Stalls, exceptions, returns -/

theorem State.memOk_runConvoy {s : State} (h : s.memOk) (t : Strand) (halt : Option Nat) (saving : Bool) :
    (s.runConvoy t halt saving).memOk :=
  haveI := State.closed_memOk
  State.kept_runConvoy h t halt saving

theorem State.memOk_place {s : State} (h : s.memOk) (r : Request) : (s.place r).memOk := by
  unfold State.place
  split
  · exact h
  · dsimp only
    split <;> exact h

/-- A change made number by number keeps what each keeps. -/
theorem foldl_memOk {α : Type} {f : State → α → State} (hf : ∀ s x, s.memOk → (f s x).memOk) (l : List α) {s : State}
    (h : s.memOk) : (l.foldl f s).memOk := by
  induction l generalizing s with
  | nil => exact h
  | cons x l ih => exact ih (hf s x h)

theorem State.memOk_markSlots {s : State} (h : s.memOk) (ids : List Nat) (code : BitVec 3) : (s.markSlots ids code).memOk :=
  foldl_memOk (f := fun a n => a.setSlot n (setSlice (a.slot n) 30 code)) (fun _ _ h => h) ids h

theorem State.memOk_takeTrap {s : State} (h : s.memOk) (t : Strand) (info : Trapped) (pcNext : Word) (viq : List Entry) (epr : Nat)
    (perf : Option (List Nat)) : (s.takeTrap t info pcNext viq epr perf).memOk :=
  State.memOk_markSlots (s := (s.endStrand t.id.sid).put _) h _ _

theorem State.memOk_scalarTrap {s : State} (h : s.memOk) (t : Strand) (c : Cause) (addr value : Word) (elem : Nat) :
    (s.scalarTrap t c addr value elem).memOk := by
  unfold State.scalarTrap
  dsimp only
  split
  · exact h
  split
  · exact State.memOk_takeTrap h _ _ _ _ _ _
  · exact h

theorem State.memOk_resumeTrap {s : State} (h : s.memOk) (t : Strand) (r : Record) : (s.resumeTrap t r).memOk :=
  State.memOk_markSlots (s := (s.endStrand t.id.sid).put _) h _ _

theorem State.memOk_waitFor {s : State} (h : s.memOk) (t : Strand) (regs : List SReg) : (s.waitFor t regs).memOk := by
  unfold State.waitFor
  split <;> exact h

/-- The state in which a head waits for the line of the next head has the canonical form of the one before it. -/
theorem State.awaitNext_memOk {s w : State} (h : s.memOk) {t : Strand} (hw : s.awaitNext t = some w) : w.memOk := by
  unfold State.awaitNext at hw
  split at hw
  · cases hw
  · cases hw
  all_goals
    rw [← Option.some.inj hw]
    exact h

end Sys2Proof.Machine
end

section
/-!
SUPPORT. Every step answers a next state and keeps the canonical form of memory: the queue looked ahead, scalar accesses, requests at
their homes, keystones, instructions that form a convoy alone.
-/

namespace Sys2Proof.Machine

/-- The outcome is a next state, whose memory has its canonical form where that of `s` has. -/
def State.Keeps (s : State) (o : Out) : Prop :=
  ∃ w, o = .next w ∧ (s.memOk → w.memOk)

theorem State.Keeps.next {s w : State} (h : s.memOk → w.memOk) : s.Keeps (.next w) :=
  ⟨w, rfl, h⟩

theorem State.Keeps.same (s : State) : s.Keeps (.next s) :=
  ⟨s, rfl, id⟩

/-- A state with the same memory and lines serves as well. -/
theorem State.Keeps.of {s s1 : State} {o : Out} (h : s1.Keeps o) (k : s.memOk → s1.memOk) : s.Keeps o :=
  let ⟨w, e, m⟩ := h
  ⟨w, e, fun x => m (k x)⟩

/-! ## The queue looked ahead -/

theorem dryQueue_wait {s : State} {fuel : Nat} {t : Strand} {w : State} {l : List (Bool × Nat × Nat × Bool)} {z : State}
    (h : dryQueue s fuel t w l = .wait z) : ∃ v, z = s.keepWait v := by
  induction fuel generalizing t w l with
  | zero => cases h
  | succ fuel ih =>
    unfold dryQueue at h
    split at h
    · cases h
    · dsimp only at h
      split at h
      · cases h
      · split at h
        · exact ih h
        · cases h
          exact ⟨_, rfl⟩
        · cases h

theorem State.behindQueue_memOk {s w : State} (h : s.memOk) {t : Strand} {va : Word} {n : Nat} {wr all : Bool}
    (hw : s.behindQueue t va n wr all = some w) : w.memOk := by
  have stall (o : Bool) : (s.stallFor t o).memOk := by
    unfold State.stallFor
    split <;> exact h
  unfold State.behindQueue at hw
  split at hw
  · cases hw
  split at hw
  · rw [← Option.some.inj hw]
    exact stall _
  split at hw
  · rename_i z hz
    obtain ⟨v, rfl⟩ := dryQueue_wait hz
    rw [← Option.some.inj hw]
    exact h
  · rw [← Option.some.inj hw]
    exact stall _
  · split at hw
    · rw [← Option.some.inj hw]
      exact stall _
    · split at hw
      · have key (o : Bool) (met why : List (Bool × Nat × Nat × Bool))
            (hk : (if !why.isEmpty then some (s.stallFor t o)
              else if met.any fun x => !x.1 then some (s.stall t) else none) = some w) : w.memOk := by
          split at hk
          · rw [← Option.some.inj hk]
            exact stall _
          · split at hk
            · rw [← Option.some.inj hk]
              exact h
            · cases hk
        exact key _ _ _ hw
      · cases hw

theorem State.behindAccess_memOk {s w : State} (h : s.memOk) {t : Strand} (hw : s.behindAccess t = some w) : w.memOk := by
  unfold State.behindAccess at hw
  split at hw
  · rw [← Option.some.inj hw]
    exact h
  · cases hw

/-- A wait, if there is one, else the state that follows. -/
theorem Option.getD_memOk {x : Option State} {w : State} (h : ∀ y, x = some y → y.memOk) (hw : w.memOk) : (x.getD w).memOk := by
  cases x with
  | none => exact hw
  | some y => exact h y rfl

theorem Option.orElse_memOk {x : Option State} {y : Option State} (h : ∀ w, x = some w → w.memOk)
    (k : ∀ w, y = some w → w.memOk) (w : State) (hw : (x.orElse fun _ => y) = some w) : w.memOk := by
  cases x with
  | none => exact k w hw
  | some z => exact h w hw

/-! ## Scalar accesses -/

theorem State.memOk_send {s : State} (h : s.memOk) (r : Request) : (s.send r).memOk :=
  State.memOk_place h { r with rid := s.nextRid }

theorem State.memOk_request {s : State} (h : s.memOk) (t : Strand) (sd : SReg) (sext wr : Bool) (r : Request) :
    (s.request t sd sext wr r).memOk := by
  unfold State.request
  exact State.memOk_send (s := s.put _) h _

theorem State.memOk_heldAccess {s : State} (h : s.memOk) (t : Strand) (sd : SReg) (sext : Bool) (kind : ReqKind) (n : Nat)
    (va data : Word) (line : Nat) : (s.heldAccess t sd sext kind n va data line).memOk := by
  have key (ls : List Nat) : (if !ls.contains line then s.put (s.holdHead t line)
      else ((ls.takeWhile (· != line)).foldl State.countRedirect s).request t sd sext (kind = .store)
        { accessRequest kind n .rlx va data 0 (128 * line + va.toNat % 128) with
          stalled := true, tried := true, held := some (line, s.tick), hops := (ls.takeWhile (· != line)).length,
          via := ls.takeWhile (· != line) }).memOk := by
    split
    · exact h
    · exact State.memOk_request (foldl_memOk (f := State.countRedirect) (fun _ _ h => h) _ h) _ _ _ _ _
  exact key _

theorem State.memOk_settle {α : Type} {s : State} (h : s.memOk) (t : Strand) {x : Res α} {held : Nat → State}
    {f : α → State → State} (hx : x.Ends State.memOk) (hh : ∀ l, (held l).memOk) (hf : ∀ a w, w.memOk → (f a w).memOk) :
    (s.settle t x held f).memOk := by
  cases x with
  | ok a w => exact hf a _ hx
  | flt c a v w => exact State.memOk_scalarTrap (s := s.keepWait w) h t c a v 0
  | wait w => exact h
  | held l w => exact hh l
  | soft l w => exact h

theorem State.keeps_withCur {s : State} {t : Strand} (hc : s.curStrand = some t) {f : Strand → Out} (h : s.Keeps (f t)) :
    s.Keeps (s.withCur f) := by
  rw [State.withCur_of hc]
  exact h

theorem State.keeps_scalarLoad {s : State} {t : Strand} (hc : s.curStrand = some t) (n : Nat) (sext : Bool) (sd sa : SReg)
    (imm : BitVec 17) : s.Keeps (s.scalarLoad n sext sd sa imm) := by
  refine State.keeps_withCur hc (State.Keeps.next fun h => ?_)
  split
  · exact State.memOk_waitFor h _ _
  split
  · exact h
  refine Option.getD_memOk (fun y hy => State.behindQueue_memOk h hy) ?_
  have hl := (State.load_reads s t.ctx t.lbuf (t.getS sa + imm64 imm) n).memOk h
  split
  · exact State.memOk_settle h t hl (fun l => State.memOk_heldAccess h _ _ _ _ _ _ _ _) fun _ _ hw => hw
  · split
    · rename_i hx
      rw [hx] at hl
      exact hl
    · exact h

theorem State.keeps_scalarStore {s : State} {t : Strand} (hc : s.curStrand = some t) (n : Nat) (sb sa : SReg)
    (imm : BitVec 17) : s.Keeps (s.scalarStore n sb sa imm) := by
  refine State.keeps_withCur hc (State.Keeps.next fun h => ?_)
  split
  · exact State.memOk_waitFor h _ _
  refine Option.getD_memOk (Option.orElse_memOk (fun y hy => State.behindAccess_memOk h hy)
    fun y hy => State.behindQueue_memOk h hy) ?_
  exact State.memOk_settle h t (State.store_memOk h ..) (fun l => State.memOk_heldAccess h _ _ _ _ _ _ _ _) fun _ _ hw => hw

theorem State.keeps_scalarAmo {s : State} {t : Strand} (hc : s.curStrand = some t) (op : AmoOp) (sd sa sb : SReg) (ord : Ord)
    (d : Bool) : s.Keeps (s.scalarAmo op sd sa sb ord d) := by
  refine State.keeps_withCur hc (State.Keeps.next fun h => ?_)
  split
  · exact State.memOk_waitFor h _ _
  refine Option.getD_memOk (Option.orElse_memOk (fun y hy => State.behindAccess_memOk h hy)
    fun y hy => State.behindQueue_memOk h hy) ?_
  exact State.memOk_settle h t ((State.firstHome_reads ..).memOk h) (fun l => h)
    fun _ _ hw => State.memOk_request hw _ _ _ _ _

theorem State.keeps_scalar {s : State} {t : Strand} (hc : s.curStrand = some t) (regs : List SReg) (f : Strand → Strand) :
    s.Keeps (s.scalar regs f) := by
  refine State.keeps_withCur hc (State.Keeps.next fun h => ?_)
  split
  · exact State.memOk_waitFor h _ _
  · exact h

theorem State.keeps_branch {s : State} {t : Strand} (hc : s.curStrand = some t) (sa sb : SReg) (off : BitVec 17)
    (slot : BitVec 5) (p : Word → Word → Bool) : s.Keeps (s.branch sa sb off slot p) := by
  refine State.keeps_withCur hc (State.Keeps.next fun h => ?_)
  split
  · exact State.memOk_waitFor h _ _
  · exact h

theorem State.keeps_configure {s : State} {t : Strand} (hc : s.curStrand = some t) (regs : List SReg) (readsVl : Bool)
    {f : Strand → State} (hf : ∀ u, s.memOk → (f u).memOk) : s.Keeps (s.configure regs readsVl f) := by
  refine State.keeps_withCur hc (State.Keeps.next fun h => ?_)
  split
  · exact State.memOk_waitFor h _ _
  split
  · exact h
  · exact hf _ h

theorem State.memOk_setVtype {s : State} (h : s.memOk) (t : Strand) (sd : SReg) (new : Word) : (s.setVtype t sd new).memOk := by
  unfold State.setVtype
  dsimp only
  split
  · exact State.memOk_scalarTrap h _ _ _ _ _
  · exact h

theorem State.memOk_trapOnceIdle {s : State} (h : s.memOk) (t : Strand) (info : Trapped) (pcNext : Word) :
    (s.trapOnceIdle t info pcNext).memOk := by
  unfold State.trapOnceIdle
  split
  · exact State.memOk_takeTrap h _ _ _ _ _ _
  · exact h

theorem State.keeps_forwarding {α : Type} {s : State} {t : Strand} (hc : s.curStrand = some t) (regs : List SReg)
    {x : Strand → Res α} {f : Strand → α → State → State} (hx : ∀ t, s.memOk → (x t).Ends State.memOk)
    (hf : ∀ t a w, w.memOk → (f t a w).memOk) : s.Keeps (s.forwarding regs x f) := by
  refine State.keeps_withCur hc (State.Keeps.next fun h => ?_)
  split
  · exact State.memOk_waitFor h _ _
  refine Option.getD_memOk (fun y hy => State.behindAccess_memOk h hy) ?_
  exact State.memOk_settle h _ (hx t h) (fun l => h) (hf _)

/-! ## Forwarding instructions -/

theorem State.statChain_reads (c : Ctx) (addr : Word) (fuel hops : Nat) (va : Word) (e : TlbEntry) (s : State) :
    (s.statChain c addr fuel hops va e).Ends s.Reads := by
  induction fuel generalizing hops va e s with
  | zero => exact rfl
  | succ fuel ih =>
    unfold State.statChain
    dsimp only
    split
    · exact rfl
    split
    · exact rfl
    split
    · exact rfl
    split
    · exact rfl
    split
    · exact rfl
    have ht := State.translate_reads s c addr (va52 (recTarget (s.lineRecord (lineOf (entryHome e (va52 va)))) ||| (va &&& 127))) .read
    split
    all_goals
      rename_i hx
      rw [hx] at ht
    · split
      · exact (ih ..).mono fun _ => ht.trans
      · exact ht
    all_goals exact ht

theorem State.statOf_reads (s : State) (c : Ctx) (va : Word) : (s.statOf c va).Ends s.Reads := by
  unfold State.statOf
  refine (State.requested_reads ..).reads_bind fun e w => ?_
  dsimp only
  split
  · exact rfl
  · exact (State.statChain_reads ..).reads_bind fun x w2 => rfl

theorem State.farEnd_reads (c : Ctx) (addr : Word) (fuel : Nat) (va : Word) (e : TlbEntry) (s : State) :
    (s.farEnd c addr fuel va e).Ends s.Reads := by
  induction fuel generalizing va e s with
  | zero =>
    unfold State.farEnd
    dsimp only
    split
    · exact State.shut_reads ..
    split
    · exact rfl
    split
    · exact rfl
    split <;> exact rfl
  | succ fuel ih =>
    unfold State.farEnd
    dsimp only
    split
    · exact State.shut_reads ..
    split
    · exact rfl
    split
    · exact rfl
    split
    · exact rfl
    refine (State.translate_reads ..).reads_bind fun e' w => ?_
    split
    · exact ih ..
    · exact rfl

theorem State.relink_memOk {s : State} (h : s.memOk) (c : Ctx) (va : Word) : (s.relink c va).Ends State.memOk := by
  unfold State.relink
  refine ((State.requested_reads ..).memOk h).bind fun e w hw => ?_
  dsimp only
  split
  · exact hw
  split
  · exact (State.shut_reads ..).memOk hw
  split
  · exact hw
  · exact ((State.farEnd_reads ..).memOk hw).bind fun t w2 h2 => State.memOk_setLineData h2 _ _
  · exact hw

theorem State.clearLine_memOk {s : State} (h : s.memOk) (c : Ctx) (va : Word) : (s.clearLine c va).Ends State.memOk := by
  unfold State.clearLine
  split
  · exact h
  refine ((State.translate_reads ..).memOk h).bind fun e w hw => ?_
  split
  · exact hw
  refine ((State.translate_reads ..).memOk hw).bind fun e2 w2 h2 => ?_
  dsimp only
  split
  · exact (State.shut_reads ..).memOk h2
  split
  · exact h2
  · split
    · exact h2
    · exact State.memOk_setLine (State.memOk_setLineData h2 _ _) _ _
  · exact h2

/-! ## Requests at their homes -/

theorem State.memOk_reply {s : State} (h : s.memOk) (r : Reply) : (s.reply r).memOk := by
  unfold State.reply
  split <;> exact h

theorem State.memOk_answer {s : State} (h : s.memOk) (r : Request) (a : Answer) (fl : Flags) : (s.answer r a fl).memOk :=
  State.memOk_reply (s := s.dropRequest r) h _

theorem State.memOk_redirect {s : State} (h : s.memOk) (r : Request) (line home : Nat) : (s.redirect r line home).memOk := by
  unfold State.redirect
  dsimp only
  split
  · exact State.memOk_place (s := { s.countRedirect line with requests := _ }) h _
  · exact h

theorem State.memOk_serve {s : State} (h : s.memOk) (r : Request) (home : Nat) : (s.serve r home).memOk := by
  have drop {w : State} (hw : w.memOk) : (w.dropCarried r (lineOf home)).memOk := hw
  unfold State.serve
  dsimp only
  split
  · refine State.memOk_answer ?_ _ _ _
    split
    · exact h
    · split <;> exact h
  · exact State.memOk_answer (drop (State.memOk_writeHome h _ _)) _ _ _
  · exact State.memOk_answer (drop (State.memOk_amoAt h _ _ _ _ _)) _ _ _
  · exact State.memOk_answer (drop (State.memOk_writeHome h _ _)) _ _ _

theorem State.memOk_followRecord {s : State} (h : s.memOk) (r : Request) (line : Nat) : (s.followRecord r line).memOk := by
  unfold State.followRecord
  dsimp only
  split
  · exact State.memOk_answer h _ _ _
  split
  · exact State.memOk_answer h _ _ _
  have ht := (State.translate_reads s (s.requestCtx r) r.va (va52 (recTarget (s.lineRecord line) ||| (r.va &&& 127)))
    r.kind.need).memOk h
  split
  · rename_i hx
    rw [hx] at ht
    split
    · exact State.memOk_redirect ht _ _ _
    · exact State.memOk_answer ht _ _ _
  · rename_i w _
    exact State.memOk_answer (s := s.keepWait w) h _ _ _
  all_goals exact h

theorem State.memOk_performAt {s : State} (h : s.memOk) (r : Request) : (s.performAt r).memOk := by
  unfold State.performAt
  dsimp only
  split
  · have hf (q : Request) := (State.firstHome_reads s (s.requestCtx q) q.va q.n q.kind.need q.kind.check).memOk h
    split
    · rename_i w hx
      have hw := hf { r with tried := true }
      rw [hx] at hw
      have hq (l : List Request) : ({ w with requests := l } : State).memOk := hw
      split <;> exact State.memOk_place (hq _) _
    · rename_i w _
      exact State.memOk_answer (s := s.keepWait w) h _ _ _
    all_goals exact h
  · split
    · exact h
    split
    · exact h
    split
    · split
      · exact State.memOk_serve h _ _
      · exact State.memOk_answer h _ _ _
    split
    · exact State.memOk_serve h _ _
    split
    · exact h
    split
    · exact State.memOk_serve h _ _
    · split
      · exact State.memOk_serve h _ _
      · exact h
    · exact State.memOk_followRecord h _ _
    · split
      · exact State.memOk_serve h _ _
      · exact State.memOk_answer h _ _ _

theorem State.memOk_releaseHeld {s : State} (h : s.memOk) (line : Nat) : (s.releaseHeld line).memOk :=
  foldl_memOk (f := fun (a : State) (r : Request) => a.followRecord { r with tried := true } line) (fun _ _ h => State.memOk_followRecord h _ _) _ h

theorem State.memOk_serveHeld {s : State} (h : s.memOk) (line : Nat) : (s.serveHeld line).memOk :=
  foldl_memOk (f := fun (a : State) (r : Request) => a.performAt { r with stalled := false }) (fun _ _ h => State.memOk_performAt h _) _ h

/-! ## Instructions that form a convoy alone -/

theorem State.memOk_settleSolo {α : Type} {s : State} (h : s.memOk) (t : Strand) (elem epr : Nat) {x : Res α}
    {f : α → State → State} (hx : x.Ends State.memOk) (hf : ∀ a w, w.memOk → (f a w).memOk) :
    (s.settleSolo t elem epr x f).memOk := by
  cases x with
  | ok a w => exact hf a w hx
  | flt | wait | held | soft => exact h

theorem State.memOk_bind {s : State} (h : s.memOk) (t : Strand) (obj base len : Word) (scope : Scope) :
    (s.bind t obj base len scope).memOk := by
  refine State.memOk_settleSolo h t 0 0 ?_ fun _ w hw => ?_
  · unfold State.checkObject
    refine ((State.requested_reads ..).memOk h).bind fun e w hw => ?_
    split <;> exact hw
  · split <;> exact hw

theorem State.memOk_unbind {s : State} (h : s.memOk) (t : Strand) (base : Word) : (s.unbind t base).memOk := by
  unfold State.unbind
  split <;> exact h

theorem State.memOk_acqTest {s : State} (h : s.memOk) (t : Strand) (obj target : Word) (force : Bool) :
    (s.acqTest t obj target force).memOk :=
  State.memOk_settleSolo h t 0 0 ((State.readSync_reads ..).memOk h) fun _ w hw => by
    dsimp only
    split <;> exact hw

theorem State.memOk_relRaise {s : State} (h : s.memOk) (t : Strand) (obj : Word) : (s.relRaise t obj).memOk :=
  State.memOk_settleSolo h t 0 0 ((State.readSync_reads ..).memOk h) fun _ _ hw => State.memOk_writeHome hw _ _

theorem State.memOk_atBarrier {s : State} (h : s.memOk) (t : Strand) (home : Nat) {f : Option Barrier → State}
    (hf : ∀ b, (f b).memOk) : (s.atBarrier t home f).memOk := by
  unfold State.atBarrier
  split
  · split
    · exact h
    · exact hf _
  · exact hf _

theorem State.memOk_barInit {s : State} (h : s.memOk) (t : Strand) (obj : Word) (n : Nat) : (s.barInit t obj n).memOk :=
  State.memOk_settleSolo h t 0 0 ((State.readSync_reads ..).memOk h) fun _ w hw => State.memOk_atBarrier hw t _ fun b => by
    cases b
    all_goals
      dsimp only
      split <;> exact hw

theorem State.memOk_arrive {s : State} (h : s.memOk) (t : Strand) (obj : Word) (k : ArrKind) : (s.arrive t obj k).memOk :=
  State.memOk_settleSolo h t 0 0 ((State.readSync_reads ..).memOk h) fun _ w hw => State.memOk_atBarrier hw t _ fun b => by
    cases b <;> exact hw

theorem State.memOk_barWait {s : State} (h : s.memOk) (t : Strand) (obj : Word) : (s.barWait t obj).memOk :=
  State.memOk_settleSolo h t 0 0 ((State.readSync_reads ..).memOk h) fun _ w hw => by
    dsimp only
    split
    · exact hw
    split
    · exact hw
    split <;> exact hw

theorem State.readWords_reads (c : Ctx) (words : List (Nat × Word × Word)) (acc : List (Nat × Word)) (s : State) :
    (s.readWords c words acc).2.Ends s.Reads := by
  induction words generalizing acc s with
  | nil => exact rfl
  | cons x words ih =>
    obtain ⟨e, va, v⟩ := x
    have hr := State.readSync_reads s c va .read
    unfold State.readWords
    split
    all_goals
      rename_i hx
      rw [hx] at hr
    · exact (ih ..).mono fun _ => hr.trans
    all_goals exact hr

theorem State.memOk_vwaitTest {s : State} (h : s.memOk) (t : Strand) (a : Vwait) (vl : Nat) (vt : BitVec 12)
    (words : List (Nat × Word × Word)) (beats : Nat) : (s.vwaitTest t a vl vt words beats).memOk :=
  State.memOk_settleSolo h t _ 0 ((State.readWords_reads ..).memOk h) fun _ w hw => by
    dsimp only
    split <;> exact hw

theorem State.memOk_vwaitStart {s : State} (h : s.memOk) (t : Strand) (e : Entry) (a : Vwait) : (s.vwaitStart t e a).memOk := by
  unfold State.vwaitStart
  dsimp only
  split
  · exact h
  split
  · exact h
  · exact State.memOk_vwaitTest h _ _ _ _ _ _

theorem State.windowByte_reads (s : State) (c : Ctx) (va : Word) : (s.windowByte c va).Ends s.Reads := by
  unfold State.windowByte
  refine (State.requested_reads ..).reads_bind fun e w => ?_
  split
  · exact rfl
  · split <;> exact rfl

theorem State.memOk_winOpen {s : State} (h : s.memOk) (t : Strand) (base size off : Word) (ty : Tag) :
    (s.winOpen t base size off ty).memOk := by
  unfold State.winOpen
  dsimp only
  split
  · exact h
  split
  · exact h
  split
  · exact h
  · refine State.memOk_settleSolo h t 0 0 ?_ fun _ w hw => hw
    exact (Res.Ends.reads_bind (State.windowByte_reads ..) fun _ w => State.windowByte_reads ..).memOk h

theorem State.memOk_mergeWords (wd : Window) (count n : Nat) (t : Strand) {s : State} (h : s.memOk) :
    (s.mergeWords wd count n t).memOk := by
  induction count generalizing n t s with
  | zero => exact h
  | succ count ih =>
    have hx := ((State.resolve_reads s t.qctx (wd.base + BitVec.ofNat 64 (n * ((wd.ty.width).getD 64 / 8)))
      ((wd.ty.width).getD 64 / 8) ((wd.ty.width).getD 64 / 8) .both (.amo false)).reads_bind
      (f := fun l s1 => s1.atHome t.qctx (wd.base + BitVec.ofNat 64 (n * ((wd.ty.width).getD 64 / 8))) l .both false)
      fun l s1 => State.atHome_reads ..).memOk h
    unfold State.mergeWords
    dsimp only
    split
    · rename_i hy
      rw [hy] at hx
      exact ih _ _ (State.memOk_writeHome hx _ _)
    · exact State.memOk_settleSolo h _ _ _ hx fun _ _ hw => hw

theorem State.memOk_winMerge {s : State} (h : s.memOk) (t : Strand) (start : Nat) : (s.winMerge t start).memOk := by
  unfold State.winMerge
  split
  · exact h
  · exact State.memOk_mergeWords _ _ _ _ h

theorem State.memOk_winClose {s : State} (h : s.memOk) (t : Strand) : (s.winClose t).memOk := by
  unfold State.winClose
  split <;> exact h

theorem State.memOk_copyAt {s : State} (h : s.memOk) (t : Strand) (checks : List (Word × Nat)) (rem : Remainder) :
    (s.copyAt t checks rem).memOk := by
  unfold State.copyAt
  split <;> exact h

theorem State.memOk_performSolo {s : State} (h : s.memOk) (t : Strand) (e : Entry) : (s.performSolo t e).memOk := by
  obtain ⟨i, pc, cs, vl, vtype, ops, pos, perf⟩ := e
  cases i
  case acq => exact State.memOk_acqTest h _ _ _ _
  case barWait => exact State.memOk_barWait h _ _
  case vwait => exact State.memOk_vwaitStart h _ _ _
  case syncBind => exact State.memOk_bind h _ _ _ _ _
  case syncUnbind => exact State.memOk_unbind h _ _
  case barInit => exact State.memOk_barInit h _ _ _
  case barArr | barArrRlx | barDrop => exact State.memOk_arrive h _ _ _
  case winOpen => exact State.memOk_winOpen h _ _ _ _ _
  case winMerge => exact State.memOk_winMerge h _ _
  case winClose => exact State.memOk_winClose h _
  case cpy | cpy2d | cpyFl | cpyMove => exact State.memOk_copyAt h _ _ _
  all_goals exact h

theorem State.memOk_enterSolo {s : State} (h : s.memOk) (t : Strand) (i : Instr) (ops : List SReg) (mark : Strand → Strand) :
    (s.enterSolo t i ops mark).memOk := by
  unfold State.enterSolo
  dsimp only
  split
  · exact State.memOk_performSolo h _ _
  · exact h

theorem State.keeps_dispatchSolo {s : State} {t : Strand} (hc : s.curStrand = some t) (i : Instr) (ops dst : List SReg) :
    s.Keeps (s.dispatchSolo i ops dst) := by
  refine State.keeps_withCur hc (State.Keeps.next fun h => ?_)
  split
  · exact h
  · exact State.memOk_enterSolo h _ _ _ _

theorem State.keeps_dispatchCopy {s : State} {t : Strand} (hc : s.curStrand = some t) (i : Instr) (ops : List SReg) (tok : SReg) :
    s.Keeps (s.dispatchCopy i ops tok) := by
  refine State.keeps_withCur hc (State.Keeps.next fun h => ?_)
  split
  · exact h
  split
  · exact h
  · exact State.memOk_enterSolo h _ _ _ _

/-! ## Dispatch into a convoy -/

theorem State.memOk_offerEarly {s : State} (h : s.memOk) (t : Strand) (o : Xoffer) : (s.offerEarly t o).memOk := by
  unfold State.offerEarly
  split <;> exact h

theorem State.memOk_deliverEarly {s : State} (h : s.memOk) (t : Strand) : (s.deliverEarly t).memOk := by
  unfold State.deliverEarly
  split
  · exact h
  · dsimp only
    split
    all_goals
      split
      · exact h
      · split
        · exact State.memOk_offerEarly h _ _
        · split <;> exact h

theorem State.keeps_dispatchChained {s : State} {t : Strand} (hc : s.curStrand = some t) (i : Instr) :
    s.Keeps (s.dispatchChained i) := by
  refine State.keeps_withCur hc ?_
  split
  · exact State.Keeps.same s
  dsimp only
  split
  · split <;> exact State.Keeps.next fun h => h
  split
  · exact State.Keeps.next fun h => State.memOk_scalarTrap h _ _ _ _ _
  split
  · exact State.Keeps.next fun h => h
  split
  · exact State.Keeps.next fun h => h
  split
  · exact State.Keeps.next fun h => State.memOk_deliverEarly h _
  split <;> exact State.Keeps.next fun h => h

end Sys2Proof.Machine
end

section
/-!
SUPPORT. Every step answers a next state and keeps the canonical form of memory: accesses from outside, copies, cards, gangs, saves,
the host, the network engine, starts.
-/

namespace Sys2Proof.Machine

/-! ## Memory with cells left out -/

theorem Cells.rising_filter {α : Type} {l : List (Nat × α)} (h : Cells.rising l = true) (p : Nat × α → Bool) :
    Cells.rising (l.filter p) = true := by
  induction l with
  | nil => rfl
  | cons x t ih =>
    rw [Cells.rising_cons] at h
    rw [List.filter_cons]
    split
    · rw [Cells.rising_cons]
      exact ⟨fun y hy => h.1 y (List.mem_filter.1 hy).1, ih h.2⟩
    · exact ih h.2

theorem Memory.wf_filter {m : List Host.Cell} (h : Memory.wf m = true) (p : Host.Cell → Bool) : Memory.wf (m.filter p) = true := by
  rw [Memory.wf_iff] at h ⊢
  exact ⟨Cells.rising_filter h.1 p, fun c hc => h.2 c (List.mem_filter.1 hc).1⟩

/-- A change of memory made piece by piece keeps what each keeps. -/
theorem foldl_wf {α : Type} {f : List Host.Cell → α → List Host.Cell} (hf : ∀ m x, Memory.wf m = true → Memory.wf (f m x) = true)
    (l : List α) {m : List Host.Cell} (h : Memory.wf m = true) : Memory.wf (l.foldl f m) = true := by
  induction l generalizing m with
  | nil => exact h
  | cons x l ih => exact ih (hf m x h)

theorem Memory.wf_replace {m : List Host.Cell} (h : Memory.wf m = true) (a n : Nat) (bs : List Byte) :
    Memory.wf (Memory.replace m a n bs) = true :=
  Memory.wf_fill (Memory.wf_filter h _) _ _

theorem Memory.wf_place {m : List Host.Cell} (h : Memory.wf m = true) (a : Nat) (cs : List Host.Cell) :
    Memory.wf (Memory.place m a cs) = true :=
  foldl_wf (f := fun x (c : Host.Cell) => Memory.set x (a + c.1) c.2) (fun _ _ h => Memory.wf_set h _ _) cs h

theorem wf_dropSlab {m : List Host.Cell} (h : Memory.wf m = true) (id : Ident) : Memory.wf (dropSlab m id) = true :=
  Memory.wf_filter h _

theorem wf_putSlab {m : List Host.Cell} (h : Memory.wf m = true) (id : Ident) (bytes : List Host.Cell) :
    Memory.wf (putSlab m id bytes) = true := by
  unfold putSlab
  refine foldl_wf (fun m c hm => ?_) bytes (wf_dropSlab h id)
  split
  · exact Memory.wf_set hm _ _
  · exact hm

/-- A state whose memory alone is replaced. -/
theorem State.memOk_of_wf {s w : State} (h : s.memOk) (hm : Memory.wf w.mem = true) (hl : w.lines = s.lines) : w.memOk :=
  ⟨hm, by rw [hl]; exact h.2⟩

/-! ## Accesses from outside -/

theorem State.memOk_outside {α : Type} {s : State} (h : s.memOk) (key : Nat) {x : Res α} {bad : State → State}
    {f : α → State → State} (hx : x.Ends State.memOk) (hb : ∀ w, w.memOk → (bad w).memOk) (hf : ∀ a w, w.memOk → (f a w).memOk) :
    (s.outside key x bad f).memOk := by
  cases x with
  | ok a w => exact hf a _ hx
  | flt c a v w => exact hb ((s.keepWait w).outsideDone key) h
  | wait w => exact h
  | held l w => exact h
  | soft l w => exact hb (s.outsideDone key) h

theorem Res.Ends.orElse {α : Type} {x : Res α} {f : State → Res α} {P : State → Prop} (h : x.Ends P)
    (hf : ∀ w, P w → (f w).Ends P) : (x.orElse f).Ends P := by
  cases x with
  | flt c a v w => exact hf w h
  | soft l w => exact hf w h
  | ok | wait | held => exact h

theorem State.writeRange_memOk (c : Ctx) (fuel : Nat) (va : Word) (bs : List Byte) {s : State} (h : s.memOk) :
    (s.writeRange c fuel va bs).Ends State.memOk := by
  induction fuel generalizing va bs s with
  | zero => exact h
  | succ fuel ih =>
    unfold State.writeRange
    split
    · exact h
    · exact (State.writeBytes_memOk h ..).bind fun _ w hw => ih _ _ hw

/-! ## Copies -/

/-- What the states of a piece meet. -/
def Piece.Ends (p : Piece) (P : State → Prop) : Prop :=
  match p with
  | .all _ w => P w
  | .cut _ _ w => P w
  | .wait w => P w
  | .held _ w => P w
  | .struck w => P w

theorem State.readPiece_reads (s : State) (c : CopyOp) (va : Word) (n : Nat) : (s.readPiece c va n).Ends s.Reads := by
  unfold State.readPiece
  split
  · have hr := State.requested_reads s c.ctx va n 1 .read
    split
    all_goals
      rename_i hx
      rw [hx] at hr
    · split
      · exact hr
      · dsimp only
        split <;> exact hr
    all_goals exact hr
  · have hr := State.resolve_reads s c.ctx va n 1 .read .data
    split
    all_goals
      rename_i hx
      rw [hx] at hr
    · exact hr
    · exact hr
    · exact hr
    · unfold State.softPiece
      split <;> exact hr
    · rename_i l s1
      have ha := State.atHome_reads s1 c.ctx va l .read false
      split
      all_goals
        rename_i hy
        rw [hy] at ha
        exact State.Reads.trans hr ha

theorem State.readBlock_reads (s : State) (c : CopyOp) (va : Word) (n : Nat) : (s.readBlock c va n).Ends s.Reads := by
  have hp := State.readPiece_reads s c va (min n (128 - va.toNat % 128))
  unfold State.readBlock
  dsimp only
  split
  · rename_i bs s1 hx
    rw [hx] at hp
    split
    · exact hp
    · have hq := State.readPiece_reads s1 c (va + BitVec.ofNat 64 (min n (128 - va.toNat % 128))) (n - min n (128 - va.toNat % 128))
      split
      · rename_i hy
        rw [hy] at hq
        exact State.Reads.trans hp hq
      · rename_i hy
        rw [hy] at hq
        exact State.Reads.trans hp hq
      · generalize s1.readPiece c _ _ = p at hq ⊢
        cases p <;> exact State.Reads.trans hp hq
  · exact hp

theorem State.writeBlock_memOk {s : State} (h : s.memOk) (c : CopyOp) (bs : List Byte) :
    match s.writeBlock c bs with
    | .ok s2 _ => s2.memOk
    | .flt _ _ _ w => w.memOk
    | .wait w => w.memOk
    | .held _ w => w.memOk
    | .soft _ w => w.memOk := by
  have hr := (State.resolve_reads s c.ctx c.rem.ndst bs.length 1 .write .data).memOk h
  unfold State.writeBlock
  generalize s.resolve c.ctx c.rem.ndst bs.length 1 .write .data = x at hr ⊢
  cases x with
  | ok l s1 =>
    have ha := (State.atHome_reads s1 c.ctx c.rem.ndst l .write (bs.length == 128)).memOk hr
    simp only [Res.bind]
    generalize s1.atHome c.ctx c.rem.ndst l .write (bs.length == 128) = y at ha ⊢
    cases y with
    | ok l2 s2 => exact (State.memOk_writeHome ha l2.home bs : _)
    | flt | wait | held | soft => exact ha
  | flt | wait | held | soft => exact hr

/-- The state a copy has got to has memory in its canonical form. -/
def Progress.memOk : Progress → Prop
  | .done s => s.memOk
  | .wait _ s => s.memOk
  | .struck _ s => s.memOk
  | .fail _ _ s => s.memOk

theorem State.copyBlocks_memOk (fuel : Nat) {s : State} (h : s.memOk) (c : CopyOp) : (State.copyBlocks fuel s c).memOk := by
  induction fuel generalizing s c with
  | zero => exact h
  | succ fuel ih =>
    have write (bs : List Byte) (s1 : State) (h1 : s1.memOk) (f : State → Progress) (hf : ∀ w, w.memOk → (f w).memOk) :
        Progress.memOk (match s1.writeBlock c bs with
          | .ok s2 _ => f s2
          | .flt k _ _ s2 => .fail c.rem.done (dstCause k) s2
          | .wait w => .wait c w
          | .held l w => .wait (c.heldAt w l) w
          | .soft _ s2 => .struck c s2) := by
      have hw := State.writeBlock_memOk h1 c bs
      generalize s1.writeBlock c bs = x at hw ⊢
      cases x with
      | ok s2 w => exact hf s2 hw
      | flt | wait | held | soft => exact hw
    unfold State.copyBlocks
    split
    · exact h
    have hb := State.readBlock_reads s c c.rem.nsrc (min c.rem.left (128 - c.rem.ndst.toNat % 128))
    dsimp only
    split
    all_goals
      rename_i hx
      rw [hx] at hb
      have hm := State.Reads.memOk hb h
    · exact hm
    · exact hm
    · exact hm
    · exact write _ _ hm _ fun w hw => ih hw _
    · exact hm
    · exact write _ _ hm _ fun w hw => hw

theorem State.memOk_unmark {s : State} (h : s.memOk) (c : CopyOp) : (s.unmark c).memOk := by
  unfold State.unmark
  split
  · exact State.memOk_serveHeld (State.memOk_setLine h _ _) _
  · exact h

theorem State.memOk_failMove {s : State} (h : s.memOk) (c : CopyOp) (cause : Nat) : (s.failMove c cause).memOk :=
  State.memOk_unmark (s := s.endCopy c (copyValue c.rem.done cause)) h c

theorem State.memOk_strikeMove {s : State} (h : s.memOk) (c : CopyOp) : (s.strikeMove c).memOk :=
  State.memOk_unmark (s := s.strikeOwner { c with moving := none }) h c

theorem State.moveTarget_reads (s : State) (c : CopyOp) : (s.moveTarget c).Ends s.Reads := by
  unfold State.moveTarget
  refine (State.requested_reads ..).reads_bind fun e w => ?_
  split
  · exact rfl
  · exact (State.translate_reads ..).reads_bind fun e' w2 => rfl

theorem State.moveSource_reads (s : State) (c : CopyOp) : (s.moveSource c).Ends s.Reads := by
  unfold State.moveSource
  refine (State.requested_reads ..).reads_bind fun e w => ?_
  split
  · exact rfl
  · exact (State.translate_reads ..).reads_bind fun e' w2 => (State.chase_reads ..).reads_bind fun l w3 => rfl

theorem State.memOk_dropCopies {s : State} (h : s.memOk) (sids : List Nat) : (s.dropCopies sids).memOk := by
  unfold State.dropCopies
  exact foldl_memOk (f := fun (a : State) (c : CopyOp) => (a.endSvc (.copy c.cid)).unmark c)
    (fun a c ha => State.memOk_unmark (s := a.endSvc (.copy c.cid)) ha c) _ h

theorem execCopyCompletion_keeps (cid : Nat) (s : State) : s.Keeps (execCopyCompletion cid s) := by
  unfold execCopyCompletion
  split
  · exact State.Keeps.same s
  rename_i c _
  split
  · exact State.Keeps.same s
  split
  · refine State.Keeps.next fun h => ?_
    split <;> exact h
  · refine State.Keeps.next fun h => ?_
    have hp := State.copyBlocks_memOk c.rem.blocks h c
    split
    all_goals
      rename_i hx
      rw [hx] at hp
      exact hp

theorem execMoveLineMark_keeps (cid : Nat) (s : State) : s.Keeps (execMoveLineMark cid s) := by
  unfold execMoveLineMark
  split
  · exact State.Keeps.same s
  rename_i c _
  split
  · exact State.Keeps.same s
  refine State.Keeps.next fun h => ?_
  have hs := State.moveSource_reads s c
  split
  all_goals
    rename_i hx
    rw [hx] at hs
    have h1 := State.Reads.memOk hs h
  · exact h
  · exact h
  · split
    · exact State.memOk_failMove h1 _ _
    · exact State.memOk_strikeMove h1 _
  · exact State.memOk_failMove h1 _ _
  · exact State.memOk_failMove h1 _ _
  · rename_i l s1
    have ha := State.atHome_reads s1 c.ctx c.rem.nsrc l .read false
    split
    all_goals
      rename_i hy
      rw [hy] at ha
      have h2 := State.Reads.memOk ha h1
    · exact h
    · exact h
    · exact State.memOk_failMove h2 _ _
    · exact State.memOk_failMove h2 _ _
    · split
      · exact h
      · rename_i l2 s2 _
        have ht := State.moveTarget_reads s2 c
        split
        all_goals
          rename_i hz
          rw [hz] at ht
          have h3 := State.Reads.memOk ht h2
        · exact h
        · exact h
        · exact State.memOk_strikeMove h3 _
        · exact State.memOk_failMove h3 _ _
        · exact State.memOk_failMove h3 _ _
        · exact State.memOk_setLine h3 _ _

theorem execMoveLineCommit_keeps (cid : Nat) (s : State) : s.Keeps (execMoveLineCommit cid s) := by
  unfold execMoveLineCommit
  split
  · exact State.Keeps.same s
  rename_i c _
  split
  · exact State.Keeps.same s
  split
  · exact State.Keeps.same s
  refine State.Keeps.next fun h => ?_
  have ht := State.moveTarget_reads s c
  split
  all_goals
    rename_i hx
    rw [hx] at ht
    have h1 := State.Reads.memOk ht h
  · exact h
  · exact h
  · exact State.memOk_strikeMove h1 _
  · exact State.memOk_failMove h1 _ _
  · exact State.memOk_failMove h1 _ _
  · split
    · exact h
    split
    · exact State.memOk_failMove h1 _ _
    · refine State.memOk_releaseHeld ?_ _
      have moved (w : State) (hw : w.memOk) (l : Nat) (va : Word) (home : Nat) (k : CopyOp) :
          (((w.forgetLine l).dropOwnLines c va home).setCopy k).memOk := hw
      have erased (w : State) (hw : w.memOk) (l : List Nat) : ({ w with soft := l } : State).memOk := hw
      exact moved _ (State.memOk_setLine (State.memOk_setLineData (erased _ (State.memOk_setLineData h1 _ _) _) _ _) _ _) _ _ _ _

end Sys2Proof.Machine
end

section
/-!
SUPPORT. Every step answers a next state and keeps the canonical form of memory: cards, calls, gangs, saves, vacates.
-/

namespace Sys2Proof.Machine

/-! ## Cards -/

theorem State.memOk_offerQueue {s : State} (h : s.memOk) (q : Queue) : (s.offerQueue q).memOk := by
  unfold State.offerQueue
  dsimp only
  split
  · split
    · exact h
    split
    · exact h
    split
    · exact h
    split <;> exact h
  · exact h

theorem State.memOk_refreshOffers {s : State} (h : s.memOk) : s.refreshOffers.memOk :=
  foldl_memOk (f := State.offerQueue) (fun _ _ h => State.memOk_offerQueue h _) s.queues h

theorem State.cardLists_reads (s : State) (c : Ctx) (bits : BitVec 1024) : (s.cardLists c bits).Ends s.Reads := by
  unfold State.cardLists
  refine Res.Ends.orElse ?_ fun w hw => hw
  exact (State.readBytes_reads ..).reads_bind fun f w => (State.readBytes_reads ..).reads_bind fun b w2 => rfl

theorem State.acceptCard_memOk {s : State} (h : s.memOk) (c : Ctx) (queue : Nat) (bits : BitVec 1024) (poster : Option Nat) :
    (s.acceptCard c queue bits poster).Ends State.memOk := by
  unfold State.acceptCard
  split
  · exact h
  split
  · exact h
  refine ((State.cardLists_reads ..).memOk h).bind fun l w hw => ?_
  split
  · exact hw
  · split <;> exact hw

theorem State.behindStores_memOk {s w : State} (h : s.memOk) {t : Strand} (hw : s.behindStores t = some w) : w.memOk := by
  have stall (o : Bool) : (s.stallFor t o).memOk := by
    unfold State.stallFor
    split <;> exact h
  unfold State.behindStores at hw
  split at hw
  · rw [← Option.some.inj hw]
    exact h
  split at hw
  · cases hw
  split at hw
  · rename_i z hz
    obtain ⟨v, rfl⟩ := dryQueue_wait hz
    rw [← Option.some.inj hw]
    exact h
  · rw [← Option.some.inj hw]
    exact stall _
  · dsimp only at hw
    split at hw
    · cases hw
    · rw [← Option.some.inj hw]
      exact stall _

theorem State.readAligned_reads (s : State) (c : Ctx) (va : Word) (n : Nat) : (s.readAligned c va n).Ends s.Reads := by
  unfold State.readAligned
  exact (State.resolve_reads ..).reads_bind fun l w => (State.atHome_reads ..).reads_bind fun l w2 => rfl

theorem State.callRing_memOk {s : State} (h : s.memOk) (t : Strand) (req : List Byte) : (s.callRing t req).Ends State.memOk := by
  unfold State.callRing
  split
  · exact h
  split
  · exact h
  split
  · exact h
  · exact ((State.writeRange_memOk _ _ _ _ h).orElse fun w hw => by exact hw).bind fun _ w hw => by exact hw

theorem State.memOk_callSettle {s : State} (h : s.memOk) (t : Strand) (sd : SReg) {x : Res Nat} (hx : x.Ends State.memOk) :
    (s.callSettle t sd x).memOk :=
  State.memOk_settle h _ hx (fun _ => h) fun _ _ hw => hw

theorem execSysCall_keeps {s : State} {t : Strand} (hc : s.curStrand = some t) (sd sa : SReg) : s.Keeps (execSysCall sd sa s) := by
  refine State.keeps_withCur hc (State.Keeps.next fun h => ?_)
  split
  · exact State.memOk_waitFor h _ _
  refine Option.getD_memOk (fun y hy => State.behindStores_memOk h hy) ?_
  exact State.memOk_callSettle h _ _ (((State.readAligned_reads ..).memOk h).bind fun _ w hw => State.callRing_memOk hw _ _)

theorem execTaskPost_keeps {s : State} {t : Strand} (hc : s.curStrand = some t) (sd sa sb : SReg) :
    s.Keeps (execTaskPost sd sa sb s) := by
  refine State.keeps_withCur hc (State.Keeps.next fun h => ?_)
  split
  · exact State.memOk_waitFor h _ _
  refine Option.getD_memOk (fun y hy => State.behindStores_memOk h hy) ?_
  exact State.memOk_callSettle h _ _ (((State.readAligned_reads ..).memOk h).bind fun _ w hw =>
    (State.acceptCard_memOk hw _ _ _ _).bind fun _ w2 h2 => State.memOk_refreshOffers h2)

theorem execSubmitCard_keeps (asid : BitVec 16) (off : Nat) (data : List Byte) (s : State) :
    s.Keeps (execSubmitCard asid off data s) := by
  unfold execSubmitCard
  dsimp only
  split
  · exact State.Keeps.next fun h => h
  · refine State.Keeps.next fun h => State.memOk_outside h _ (State.acceptCard_memOk h _ _ _ _) (fun w hw => hw) fun code w hw => ?_
    split
    · exact State.memOk_refreshOffers (s := { w with completion := .success }) hw
    · exact hw
    · exact hw

theorem execClassPromotion_keeps (queue : Nat) (s : State) : s.Keeps (execClassPromotion queue s) := by
  refine State.Keeps.next fun h => ?_
  split
  · split
    · exact State.memOk_refreshOffers (s := { s with queues := _ }) h
    · exact h
  · exact h

/-! ## Gangs -/

theorem State.memOk_vacateSlots {s : State} (h : s.memOk) (ids : List Nat) : (s.vacateSlots ids).memOk :=
  foldl_memOk (f := fun (a : State) n => a.setSlot n (slotEntry 0 0 0 0 0 (a.slot n))) (fun _ _ h => h) ids h

theorem State.memOk_reportVacates {s : State} (h : s.memOk) : s.reportVacates.memOk := by
  unfold State.reportVacates
  refine foldl_memOk (fun a v ha => ?_) _ h
  dsimp only
  split <;> exact ha

theorem State.memOk_dropRequests {s : State} (h : s.memOk) (sids : List Nat) : (s.dropRequests sids).memOk :=
  foldl_memOk (f := State.dropRequest) (fun _ _ h => h) _ h

theorem State.memOk_clearGang {s : State} (h : s.memOk) (g : BitVec 16) : (s.clearGang g).memOk := by
  have drop (sids : List Nat) := State.memOk_dropCopies (State.memOk_dropRequests h sids) sids
  unfold State.clearGang
  split
  · exact h
  · exact drop _

theorem State.memOk_stopGang {s : State} (h : s.memOk) (g : BitVec 16) : (s.stopGang g).memOk :=
  State.memOk_clearGang h g

theorem State.memOk_release {s : State} (h : s.memOk) (g : BitVec 16) : (s.release g).memOk := by
  unfold State.release
  split
  · exact h
  · exact State.memOk_vacateSlots h _

theorem State.memOk_failGang {s : State} (h : s.memOk) (g : BitVec 16) (status : Nat) : (s.failGang g status).memOk := by
  unfold State.failGang
  split
  · exact h
  · exact State.memOk_reportVacates (State.memOk_markSlots (s := (s.stopGang g).setGang g _) (State.memOk_stopGang h g) _ _)

theorem State.memOk_requeueGang {s : State} (h : s.memOk) (g : BitVec 16) : (s.requeueGang g).memOk := by
  have h1 : (((s.release g).stopGang g).forgetGang g).memOk := State.memOk_stopGang (State.memOk_release h g) g
  unfold State.requeueGang
  split
  · exact h
  · refine State.memOk_refreshOffers (State.memOk_reportVacates ?_)
    split <;> exact h1

theorem State.memOk_rollback {s : State} (h : s.memOk) (g : BitVec 16) (counts : Bool) : (s.rollback g counts).memOk := by
  unfold State.rollback
  split
  · exact h
  split
  · exact h
  split
  · exact State.memOk_failGang h _ _
  · have fin (w : State) (hw : w.memOk) (n : Nat) : (if n ≥ 3 then w.failGang g 3 else w.requeueGang g).memOk := by
      split
      · exact State.memOk_failGang hw _ _
      · exact State.memOk_requeueGang hw _
    refine fin _ ?_ _
    split <;> exact h

theorem State.writeCompletion_memOk {s : State} (h : s.memOk) (c : Card) (g status : Nat) (flags : BitVec 7) :
    (s.writeCompletion c g status flags).Ends State.memOk := by
  unfold State.writeCompletion
  dsimp only
  refine ((State.writeBytes_memOk h _ _ _).orElse fun w hw => by exact hw).bind fun _ w hw => ?_
  split
  · exact hw
  · exact (State.writeBytes_memOk hw _ _ _).orElse fun w2 h2 => by exact h2

theorem State.memOk_taskDone {s : State} (h : s.memOk) (cid : Nat) : (s.taskDone cid).memOk := by
  unfold State.taskDone
  exact State.memOk_refreshOffers (s := { s with cards := _ }) h

theorem State.memOk_freeGang {s : State} (h : s.memOk) (g : BitVec 16) : (s.freeGang g).memOk :=
  State.memOk_reportVacates (s := (((s.release g).clearGang g).forgetGang g)) (State.memOk_clearGang (State.memOk_release h g) g)

theorem State.memOk_resetDone {s : State} (h : s.memOk) (part : BitVec 2) : (s.resetDone part).memOk := by
  unfold State.resetDone
  split <;> exact h

theorem execGangCompletion_keeps (gid : Nat) (s : State) : s.Keeps (execGangCompletion gid s) := by
  unfold execGangCompletion
  dsimp only
  split
  · split
    · exact State.Keeps.same s
    · refine State.Keeps.next fun h => State.memOk_outside h _ (State.writeCompletion_memOk h _ _ _ _) (fun w hw => hw)
        fun _ w hw => State.memOk_taskDone (s := w.taskStarted _ _ _) hw _
  · split
    · exact State.Keeps.same s
    · rename_i g _ _ c _
      have complete (status : Nat) (f : State → State) (hf : ∀ w, w.memOk → (f w).memOk) (h : s.memOk) :
          (s.outside (s.partOf c.asid).toNat (s.writeCompletion c g.g status g.flags) id fun _ s1 =>
            if status = 5 then
              (((f (if g.started then s1 else s1.taskStarted c g.g (if status = 6 then s1.tick else g.boundAt))).freeGang
                (BitVec.ofNat 16 gid)).taskDone c.cid).resetDone g.part
            else ((f (if g.started then s1 else s1.taskStarted c g.g (if status = 6 then s1.tick else g.boundAt))).freeGang
              (BitVec.ofNat 16 gid)).taskDone c.cid).memOk := by
        refine State.memOk_outside h _ (State.writeCompletion_memOk h _ _ _ _) (fun w hw => hw) fun _ w hw => ?_
        have h2 : (if g.started then w else w.taskStarted c g.g (if status = 6 then w.tick else g.boundAt)).memOk := by
          split <;> exact hw
        have h3 := State.memOk_taskDone (State.memOk_freeGang (hf _ h2) (BitVec.ofNat 16 gid)) c.cid
        split
        · exact State.memOk_resetDone h3 _
        · exact h3
      split
      · rename_i status _
        exact State.Keeps.next (complete status id fun w hw => hw)
      · split
        · exact State.Keeps.next (complete 0 (fun x => x.countVacates (BitVec.ofNat 16 gid) 0) fun w hw => hw)
        · exact State.Keeps.same s

theorem State.memOk_rollbackOf {s : State} (h : s.memOk) (sids : List Nat) : (s.rollbackOf sids).memOk :=
  foldl_memOk (f := fun (a : State) x => a.rollback x true) (fun _ _ h => State.memOk_rollback h _ _) _ h

theorem execSoftError_keeps (what : Struck) (s : State) : s.Keeps (execSoftError what s) := by
  have roll (src : Source) (d : BitVec 128) (g : BitVec 16) (h : s.memOk) : ((s.record src .softError d).rollback g true).memOk :=
    State.memOk_rollback (s := s.record src .softError d) h _ _
  unfold execSoftError
  split
  · split
    · exact State.Keeps.same s
    · exact State.Keeps.next (roll _ _ _)
  · dsimp only
    split
    · exact State.Keeps.same s
    · exact State.Keeps.next (roll _ _ _)
  · exact State.Keeps.next fun h => h
  · split
    · exact State.Keeps.same s
    · exact State.Keeps.next (roll _ _ _)
  · split
    · exact State.Keeps.same s
    · refine State.Keeps.next fun h => State.memOk_rollbackOf ?_ _
      exact foldl_memOk (f := State.dropRequest) (fun _ _ h => h) _ h

theorem execHeldRequestTimeout_keeps (n : Nat) (s : State) : s.Keeps (execHeldRequestTimeout n s) := by
  unfold execHeldRequestTimeout
  split
  · exact execSoftError_keeps _ s
  · exact State.Keeps.same s

theorem execRouteTimeout_keeps (n : Nat) (s : State) : s.Keeps (execRouteTimeout n s) := by
  unfold execRouteTimeout
  split
  · exact execSoftError_keeps _ s
  · exact State.Keeps.same s

theorem execHangWatchdogExpiry_keeps (n : Nat) (s : State) : s.Keeps (execHangWatchdogExpiry n s) := by
  unfold execHangWatchdogExpiry
  dsimp only
  split
  · exact State.Keeps.same s
  · refine State.Keeps.next fun h => ?_
    split <;> exact h

theorem execStrandRetire_keeps (sid : Nat) (s : State) : s.Keeps (execStrandRetire sid s) := by
  unfold execStrandRetire
  split
  · exact State.Keeps.same s
  split
  · exact State.Keeps.same s
  · exact State.Keeps.next fun h => State.memOk_markSlots (s := (s.setGang _ _).put _) h _ _

/-! ## Faults and answers -/

theorem State.memOk_resumeChecked {s : State} (h : s.memOk) (t : Strand) (r : Record) (pcNext : Word) :
    (s.resumeChecked t r pcNext).memOk := by
  unfold State.resumeChecked
  split
  · exact State.memOk_resumeTrap h _ _
  · exact State.memOk_rollback (s := s.record _ .softError _) h _ _

theorem execFwdChainRepair_keeps (sid : Nat) (s : State) : s.Keeps (execFwdChainRepair sid s) := by
  unfold execFwdChainRepair
  split
  · exact State.Keeps.same s
  split
  · exact State.Keeps.same s
  split
  · exact State.Keeps.same s
  · refine State.Keeps.next fun h => ?_
    rename_i t _ _ r _ _
    have hr := State.relink_memOk h (s.outsideCtx t.id.asid) r.info.value
    split
    · rename_i w hx
      rw [hx] at hr
      exact State.memOk_resumeChecked (s := w.outsideDone _) hr _ _ _
    all_goals exact h

theorem execFaultNotice_keeps (sid : Nat) (s : State) : s.Keeps (execFaultNotice sid s) := by
  unfold execFaultNotice
  split
  · exact State.Keeps.same s
  split
  · exact State.Keeps.same s
  split
  · exact State.Keeps.same s
  split
  · exact State.Keeps.next fun h => State.memOk_failGang h _ _
  split
  · exact State.Keeps.next fun h => State.memOk_failGang h _ _
  split
  · exact State.Keeps.same s
  · exact State.Keeps.next fun h => State.memOk_outside h _ ((State.writeRange_memOk _ _ _ _ h).orElse fun w hw => by exact hw)
      (fun w hw => hw) fun _ w hw => hw

theorem State.memOk_applyAnswer {s : State} (h : s.memOk) (g : BitVec 16) (tid code : Nat) : (s.applyAnswer g tid code).memOk := by
  unfold State.applyAnswer
  split
  · exact State.memOk_failGang h _ _
  split
  · exact h
  split
  · exact h
  split
  · exact h
  · exact State.memOk_resumeChecked h _ _ _

theorem State.memOk_answerNotice {s : State} (h : s.memOk) (asid : BitVec 16) (n : BitVec 32) (code : Nat) :
    (s.answerNotice asid n code).memOk := by
  unfold State.answerNotice
  split
  · exact h
  split
  · exact h
  dsimp only
  split
  · exact h
  split
  · have h1 (l : List Notice) : ({ s with notices := l } : State).memOk := h
    exact State.memOk_applyAnswer (h1 _) _ _ _
  · exact h

/-! ## Binding and dispatch -/

theorem State.memOk_labelSlots {s : State} (h : s.memOk) (r : BitVec 512) (n : Nat) (code : Nat → BitVec 3) :
    (s.labelSlots r n code).memOk := by
  unfold State.labelSlots
  refine foldl_memOk (fun a t ha => ?_) _ h
  exact foldl_memOk (f := fun (b : State) k => b.setSlot k (slotEntry (bindTask r) (BitVec.ofNat 5 t) (BitVec.ofNat 5 (bindCoreOf r t))
    (BitVec.ofNat 5 (bindClus r)) (code t) (b.slot k))) (fun _ _ h => h) _ ha

theorem execBindRecord_keeps (r : BitVec 512) (s : State) : s.Keeps (execBindRecord r s) := by
  unfold execBindRecord
  split
  · exact State.Keeps.same s
  split
  · exact State.Keeps.same s
  · refine State.Keeps.next fun h => ?_
    split
    · exact State.memOk_refreshOffers (s := { s.labelSlots r _ _ with gangs := _ }) (State.memOk_labelSlots h _ _ _)
    · exact State.memOk_labelSlots h _ _ _

theorem State.readImages_reads (s : State) (c : Ctx) (bits : BitVec 1024) : (s.readImages c bits).Ends s.Reads := by
  unfold State.readImages
  dsimp only
  split
  · exact rfl
  · refine (State.readBytes_reads ..).reads_bind fun d w => ?_
    split
    · exact rfl
    · exact (State.readBytes_reads ..).reads_bind fun lt w2 => (State.readBytes_reads ..).reads_bind fun sl w3 => rfl

theorem State.memOk_installGang {s : State} (h : s.memOk) (g : Gang) (c : Card) (lt slab : List Byte) :
    (s.installGang g c lt slab).memOk := by
  have put (ids : List Ident) (bytes : List Host.Cell) : Memory.wf (ids.foldl (fun m id => putSlab m id bytes) s.mem) = true :=
    foldl_wf (fun _ _ hm => wf_putSlab hm _ _) ids h.1
  have label (ids : List Ident) (bytes : List Host.Cell) (ts : List Strand) (f : Gang → Gang) :=
    State.memOk_labelSlots (s := State.setGang { s with
      strands := ts
      mem := ids.foldl (fun m id => putSlab m id bytes) s.mem } g.handle f) ⟨put ids bytes, h.2⟩ g.bind (cardGang c.bits) fun _ => 1
  have started (w : State) (hw : w.memOk) : (w.taskStarted c g.g g.boundAt).memOk := hw
  exact State.memOk_refreshOffers (started _ (label _ _ _ _))

theorem State.memOk_resumeStrand {s : State} (h : s.memOk) (g : Gang) (n : Nat) (v : Saved) : (s.resumeStrand g n v).memOk :=
  State.memOk_of_wf h (wf_putSlab h.1 _ _) rfl

theorem State.memOk_resumeGang {s : State} (h : s.memOk) (g : Gang) (n : Nat) : (s.resumeGang g n).memOk := by
  have strands (l : List Saved) : (l.foldl (fun (a : State) v => a.resumeStrand g n v) s).memOk :=
    foldl_memOk (fun _ _ h => State.memOk_resumeStrand h _ _ _) l h
  unfold State.resumeGang
  refine foldl_memOk (f := fun (a : State) (x : BitVec 2 × Nat × Nat) => a.applyAnswer g.handle x.2.1 x.1.toNat)
    (fun _ _ h => State.memOk_applyAnswer h _ _ _) _ ?_
  have freed {w : State} (hw : w.memOk) (vs : List Saved) (bs : List Barrier) (f : Gang → Gang) :
      (State.setGang { w with vault := vs, barriers := bs } g.handle f).memOk := hw
  exact State.memOk_labelSlots (freed (strands _) _ _ _) _ _ _

theorem execDispatchGang_keeps (n : Nat) (s : State) : s.Keeps (execDispatchGang n s) := by
  have failed (h : BitVec 16) (w : State) (hw : w.memOk) : ((w.release h).failGang h 6).memOk :=
    State.memOk_failGang (State.memOk_release hw h) h 6
  unfold execDispatchGang
  dsimp only
  split
  · exact State.Keeps.same s
  split
  · exact State.Keeps.same s
  split
  · exact State.Keeps.same s
  split
  · refine State.Keeps.next fun h => State.memOk_outside h _ ((State.readImages_reads ..).memOk h) (failed _) fun x w hw => ?_
    split
    · exact failed _ _ hw
    · exact State.memOk_installGang hw _ _ _ _
  split
  · exact State.Keeps.next fun h => State.memOk_rollback (s := s.record .talus .softError _) h _ _
  · exact State.Keeps.next fun h => State.memOk_resumeGang h _ _

/-! ## Saves and vacates -/

theorem State.memOk_drainStrand {s : State} (h : s.memOk) (sid : Nat) : (s.drainStrand sid).memOk := by
  unfold State.drainStrand
  split
  · exact h
  · have fin (w : State) (hw : w.memOk) (u : Strand) : (if w.runsOn u && u.vamo.isNone then
        { w.runConvoy u (some (Config.stopBoundary w.freeCtr)) true with freeCtr := w.freeCtr + 1 } else w).memOk := by
      split
      · have counted {w : State} (hw : w.memOk) (n : Nat) : ({ w with freeCtr := n } : State).memOk := hw
        exact counted (State.memOk_runConvoy hw _ _ _) _
      · exact hw
    exact fin (s.put _) h _

theorem State.memOk_startSave {s : State} (h : s.memOk) (g : BitVec 16) : (s.startSave g).memOk := by
  unfold State.startSave
  split
  · exact h
  split
  · exact h
  · refine foldl_memOk (f := State.drainStrand) (fun _ _ h => State.memOk_drainStrand h _) _ ?_
    exact State.memOk_markSlots (s := State.setGang { s with saves := _ } g _) h _ _

theorem State.memOk_writeMasks {s : State} (h : s.memOk) (t : Strand) (ext : Nat) : (s.writeMasks t ext).memOk :=
  State.memOk_of_wf h (foldl_wf (f := fun m i => Memory.replace m (extPart ext t.q t.id.tid + i * 8192 * t.q) (8192 * t.q)
    (wordBytes (8192 * t.q) (t.k.toList.getD (i + 1) 0))) (fun _ _ hm => Memory.wf_replace hm _ _ _) _ h.1) rfl

theorem State.memOk_spillTo {s : State} (h : s.memOk) (vs : List Saved) (a : Nat) : (s.spillTo vs a).memOk :=
  State.memOk_of_wf h (foldl_wf (f := fun m (x : Nat × Nat) =>
    Memory.place (Memory.replace m (homeByte attrLoc 0 (a + x.2 * 2 ^ 20)) (2 ^ 20) [])
      (homeByte attrLoc 0 (a + x.2 * 2 ^ 20)) (Memory.range s.vaultMem (vaultPart x.1) (2 ^ 20)))
    (fun _ _ hm => Memory.wf_place (Memory.wf_replace hm _ _ _) _ _) _ h.1) rfl

theorem State.memOk_spill {s : State} (h : s.memOk) (g : BitVec 16) : (s.spill g).memOk := by
  unfold State.spill
  dsimp only
  split
  · exact h
  · exact State.memOk_spillTo h _ _

theorem State.memOk_saveStrand {s : State} (h : s.memOk) (ext : Nat) (x : Strand × Record) : (s.saveStrand ext x).memOk :=
  State.memOk_writeMasks (s := s.writeVault x.1 x.2) h _ _

theorem execSaveComplete_keeps (n : Nat) (s : State) : s.Keeps (execSaveComplete n s) := by
  unfold execSaveComplete
  dsimp only
  split
  · exact State.Keeps.same s
  split
  · exact State.Keeps.same s
  · refine State.Keeps.next fun h => State.memOk_reportVacates ?_
    have written (ext : Nat) (slots : List Nat) (recs : List (Strand × Record)) (mine : List Strand) (hs : List (BitVec 16)) :
        (mine.foldl (fun (a : State) t => a.endStrand t.id.sid)
          ((recs.foldl (fun (a : State) x => a.saveStrand ext x) (hs.foldl State.spill s)).vacateSlots slots)).memOk :=
      foldl_memOk (f := fun (a : State) (t : Strand) => a.endStrand t.id.sid) (fun _ _ h => h) mine (State.memOk_vacateSlots
        (foldl_memOk (f := fun (a : State) (x : Strand × Record) => a.saveStrand ext x) (fun _ _ h => State.memOk_saveStrand h _ _)
          recs (foldl_memOk (f := State.spill) (fun _ _ h => State.memOk_spill h _) hs h)) slots)
    refine State.memOk_of_wf (written _ _ _ _ _) ?_ rfl
    exact foldl_wf (f := fun m (t : Strand) => dropSlab m t.id) (fun _ _ hm => wf_dropSlab hm _) _ (written _ _ _ _ _).1

theorem State.memOk_discardOrKill {s : State} (h : s.memOk) (g : BitVec 16) : (s.discardOrKill g).memOk := by
  unfold State.discardOrKill
  split
  · exact h
  split
  · exact State.memOk_requeueGang (s := s.countVacates g 2) h _
  · exact State.memOk_failGang (s := s.countVacates g 3) h _ _

theorem State.memOk_carryOut {s : State} (h : s.memOk) (g : BitVec 16) (d : Decision) : (s.carryOut g d).memOk := by
  unfold State.carryOut
  split
  · exact State.memOk_requeueGang (s := s.countVacates g 2) h _
  · exact State.memOk_failGang (s := s.countVacates g 3) h _ _
  · exact h

theorem execVacateRecord_keeps (r : BitVec 256) (s : State) : s.Keeps (execVacateRecord r s) := by
  unfold execVacateRecord
  dsimp only
  split
  · exact State.Keeps.same s
  split
  · exact State.Keeps.next fun h => h
  split
  · exact State.Keeps.next fun h => h
  · refine State.Keeps.next fun h => State.memOk_reportVacates ?_
    exact foldl_memOk (f := fun (a : State) (x : BitVec 16 × Decision × Nat) => a.carryOut x.1 x.2.1)
      (fun _ _ h => State.memOk_carryOut h _ _) _ (show State.memOk { s with vacates := _, reports := _ } from h)

theorem State.memOk_giveUp {s : State} (h : s.memOk) (g : Gang) : (s.giveUp g).memOk := by
  unfold State.giveUp
  split
  · exact State.memOk_requeueGang (s := s.countVacates _ 2) h _
  · exact State.memOk_reportVacates (s := State.setGang _ g.handle _) (State.memOk_release (s := s.countVacates _ 1) h _)

theorem execCheckpointStart_keeps (n : Nat) (s : State) : s.Keeps (execCheckpointStart n s) := by
  unfold execCheckpointStart
  dsimp only
  split
  · split
    · exact State.Keeps.same s
    · refine State.Keeps.next fun h => ?_
      split
      · split
        · exact State.memOk_giveUp h _
        · exact State.memOk_startSave (s := s.setDecision _ _) h _
      · exact State.memOk_carryOut (s := s.setDecision _ _) h _ _
  · exact State.Keeps.same s

theorem execVacateRelease_keeps (v : BitVec 8) (s : State) : s.Keeps (execVacateRelease v s) := by
  unfold execVacateRelease
  split
  · exact State.Keeps.same s
  · refine State.Keeps.next fun h => ?_
    dsimp only
    split <;> exact h

end Sys2Proof.Machine
end

section
/-!
SUPPORT. The host, the links, the network engine, resets and the platform keep memory in its form.
-/

namespace Sys2Proof.Machine

/-! ## The host's window -/

theorem State.hostChase_reads (key : Nat) (need : Need) (fuel : Nat) (asid : Option (BitVec 16)) (h : Nat) (s : State) :
    (s.hostChase key need fuel asid h).Ends s.Reads := by
  induction fuel generalizing asid h s with
  | zero => exact rfl
  | succ fuel ih =>
    unfold State.hostChase
    dsimp only
    split
    · exact State.shut_reads ..
    split
    · exact rfl
    split
    · exact rfl
    split
    · exact rfl
    · refine (State.translate_reads ..).reads_bind fun e w => ?_
      split
      · exact ih ..
      · exact rfl

theorem State.hostHome_reads (s : State) (key addr : Nat) (need : Need) (whole : Bool) :
    (s.hostHome key addr need whole).Ends s.Reads :=
  (State.hostChase_reads ..).reads_bind fun _ _ => (State.atHome_reads ..).reads_bind fun _ _ => rfl

theorem State.memOk_hostStore {s : State} (h : s.memOk) (a : Nat) (bs : List Byte) : (s.hostStore a bs).memOk := by
  have corrected {w : State} (hw : w.memOk) (l : List Nat) : ({ w with soft := l } : State).memOk := hw
  exact corrected (State.memOk_writeHome h a bs) _

theorem State.hostWrite_memOk (key fuel addr : Nat) (bs : List Byte) {s : State} (h : s.memOk) :
    (s.hostWrite key fuel addr bs).Ends State.memOk := by
  induction fuel generalizing addr bs s with
  | zero => exact h
  | succ fuel ih =>
    unfold State.hostWrite
    split
    · exact h
    · dsimp only
      refine Res.Ends.bind (Res.Ends.orElse ?_ fun w hw => by exact hw) fun _ w hw => ih _ _ hw
      exact ((State.hostHome_reads ..).memOk h).bind fun a w hw => State.memOk_hostStore hw _ _

theorem State.hostRead_memOk (key n addr : Nat) {s : State} (h : s.memOk) : (s.hostRead key n addr).Ends State.memOk := by
  induction n generalizing addr s with
  | zero => exact h
  | succ n ih =>
    unfold State.hostRead
    refine Res.Ends.bind (Res.Ends.orElse ?_ fun w hw => by exact hw) fun b w hw => (ih _ hw).bind fun bs w2 hw2 => by exact hw2
    exact ((State.hostHome_reads ..).memOk h).bind fun a w hw => by exact hw

theorem execHostHdmWrite_keeps (addr : Nat) (data : List Byte) (s : State) : s.Keeps (execHostHdmWrite addr data s) := by
  unfold execHostHdmWrite
  split
  · exact State.Keeps.next fun h => h
  · exact State.Keeps.next fun h => State.memOk_outside h _ (State.hostWrite_memOk _ _ _ _ h) (fun w hw => hw) fun _ w hw => hw

theorem execHostHdmRead_keeps (addr n : Nat) (s : State) : s.Keeps (execHostHdmRead addr n s) := by
  unfold execHostHdmRead
  split
  · exact State.Keeps.next fun h => h
  · exact State.Keeps.next fun h => State.memOk_outside h _ (State.hostRead_memOk _ _ _ h) (fun w hw => hw) fun _ w hw => hw

theorem execAtomicopAsCompleter_keeps (addr : Nat) (op : AmoOp) (wide : Bool) (operand compare : Word) (s : State) :
    s.Keeps (execAtomicopAsCompleter addr op wide operand compare s) := by
  unfold execAtomicopAsCompleter
  dsimp only
  generalize (if wide then 8 else 4) = n
  split
  · exact State.Keeps.next fun h => h
  split
  · exact State.Keeps.next fun h => h
  · have replied {w : State} (hw : w.memOk) (c : Completion) (l : List Byte) :
        ({ w with completion := c, hostReply := l } : State).memOk := hw
    exact State.Keeps.next fun h => State.memOk_outside h _ ((State.hostHome_reads ..).memOk h) (fun w hw => hw)
      fun a w hw => replied (State.memOk_amoAt hw a op _ _ _) _ _

theorem execLinkFailure_keeps (link : Nat) (routes : List (BitVec 6 × BitVec 4)) (s : State) :
    s.Keeps (execLinkFailure link routes s) :=
  State.Keeps.next fun h => h

/-! ## The network engine -/

theorem execQpContextWrite_keeps (qp : Nat) (ctx : BitVec 512) (s : State) : s.Keeps (execQpContextWrite qp ctx s) := by
  unfold execQpContextWrite
  dsimp only
  split
  · exact State.Keeps.same s
  split
  · exact State.Keeps.next fun h => h
  split
  · exact State.Keeps.same s
  split <;> exact State.Keeps.next fun h => h

theorem State.countWord_reads (s : State) (c : BitVec 512) (va : Word) : (s.countWord c va).Ends s.Reads :=
  (State.readBytes_reads ..).reads_bind fun _ _ => rfl

theorem State.readEntry_reads (s : State) (c : BitVec 512) (recv : Bool) (n : BitVec 32) : (s.readEntry c recv n).Ends s.Reads :=
  (State.readBytes_reads ..).reads_bind fun _ _ => rfl

theorem execNeTailUpdate_keeps (qp : Nat) (s : State) : s.Keeps (execNeTailUpdate qp s) := by
  unfold execNeTailUpdate
  split
  · exact State.Keeps.same s
  split
  · exact State.Keeps.same s
  · refine State.Keeps.next fun h => State.memOk_outside h _ ?_ (fun w hw => hw) fun _ w hw => hw
    exact Res.Ends.memOk ((State.countWord_reads ..).reads_bind fun _ _ => (State.countWord_reads ..).reads_bind fun _ _ => rfl) h

theorem State.memOk_neWork {s : State} (h : s.memOk) (qp op : Nat) {f : Ctx → WorkEntry → State → Res (Nat × Nat)}
    (hf : ∀ c e w, w.memOk → (f c e w).Ends State.memOk) : (s.neWork qp op f).memOk := by
  unfold State.neWork
  split
  · exact h
  split
  · exact h
  · refine State.memOk_outside h _ ((State.readEntry_reads ..).memOk h) (fun w hw => hw) fun e w hw => ?_
    split
    · exact hw
    split
    · exact h
    · exact State.memOk_outside hw _ (hf _ _ _ hw) (fun w hw => hw) fun r w hw => hw

theorem execNeNop_keeps (qp : Nat) (s : State) : s.Keeps (execNeNop qp s) :=
  State.Keeps.next fun h => State.memOk_neWork h _ _ fun _ _ w hw => by exact hw

theorem sendBuffer_memOk (r : Remote) (c : Ctx) (e : WorkEntry) (w : State) (hw : w.memOk) :
    ((w.readBytes c e.laddr e.len).bind fun _ w1 =>
      (.ok (remoteStatus r, if remoteStatus r = 0 then e.len else 0) w1 : Res (Nat × Nat))).Ends State.memOk :=
  Res.Ends.memOk ((State.readBytes_reads ..).reads_bind fun _ _ => rfl) hw

theorem execNeSend_keeps (qp : Nat) (r : Remote) (s : State) : s.Keeps (execNeSend qp r s) :=
  State.Keeps.next fun h => State.memOk_neWork h _ _ (sendBuffer_memOk r)

theorem execNeWrite_keeps (qp : Nat) (r : Remote) (s : State) : s.Keeps (execNeWrite qp r s) :=
  State.Keeps.next fun h => State.memOk_neWork h _ _ (sendBuffer_memOk r)

theorem execNeRead_keeps (qp : Nat) (r : Remote) (s : State) : s.Keeps (execNeRead qp r s) := by
  refine State.Keeps.next fun h => State.memOk_neWork h _ _ fun c e w hw => ?_
  cases r with
  | ok data => exact (State.writeRange_memOk _ _ _ _ hw).bind fun _ w hw => by exact hw
  | nak => exact hw
  | retryExceeded => exact hw

theorem execNeRecv_keeps (qp : Nat) (data : List Byte) (s : State) : s.Keeps (execNeRecv qp data s) := by
  unfold execNeRecv
  split
  · exact State.Keeps.same s
  split
  · exact State.Keeps.same s
  · refine State.Keeps.next fun h => State.memOk_outside h _ ((State.readEntry_reads ..).memOk h) (fun w hw => hw) fun e w hw => ?_
    split
    · exact hw
    split
    · exact hw
    · exact State.memOk_outside hw _ (State.writeRange_memOk _ _ _ _ hw) (fun w hw => hw) fun r w hw => hw

theorem State.neWrites_memOk {s : State} (h : s.memOk) (q : Qp) (recv : Bool) (caddr value : Word) :
    (s.neWrites q recv caddr value).Ends State.memOk := by
  unfold State.neWrites
  dsimp only
  refine Res.Ends.bind (P := State.memOk) ?_ fun _ w hw =>
    (State.writeRange_memOk _ _ _ _ hw).orElse fun w hw => by exact hw
  split
  · exact h
  · exact (State.writeRange_memOk _ _ _ _ h).orElse fun w hw => by exact hw

theorem execNeEntryComplete_keeps (qp : Nat) (s : State) : s.Keeps (execNeEntryComplete qp s) := by
  unfold execNeEntryComplete
  dsimp only
  split
  · exact State.Keeps.same s
  split
  · exact State.Keeps.same s
  split
  · exact State.Keeps.next fun h => State.memOk_outside h _ (State.neWrites_memOk h _ _ _ _) (fun w hw => hw) fun _ w hw => hw
  split
  · exact State.Keeps.same s
  · rename_i q _ _ _ _ _
    refine State.Keeps.next fun h => ?_
    have flushed (recv : Bool) := State.memOk_outside h (s.qpKey q) (bad := id)
      (((State.readEntry_reads s q.ctx recv (q.ends recv).1).memOk h).orElse
        (f := fun w => .ok (workEntry 0) w) fun w hw => by exact hw)
      (fun w hw => hw) (f := fun e s1 => s1.outside (s.qpKey q)
        (s1.neWrites q recv e.caddr (neValue 5 0 (q.ends recv).1)) id fun _ s2 => s2.setQp (q.advance recv))
      fun e w hw => State.memOk_outside hw _ (State.neWrites_memOk hw _ _ _ _) (fun w hw => hw) fun _ w hw => hw
    split
    · exact flushed false
    split
    · exact flushed true
    · exact h

/-! ## Resets of a partition -/

theorem State.memOk_dropRequest {s : State} (h : s.memOk) (r : Request) : (s.dropRequest r).memOk := h

theorem State.memOk_completeAlone {s : State} (h : s.memOk) (r : Request) : (s.completeAlone r).memOk := by
  have alone {w : State} (hw : w.memOk) (l : List Request) : ({ w with requests := l } : State).memOk := hw
  exact State.memOk_performAt (alone (State.memOk_dropRequest h { r with via := [] }) _) _

theorem State.memOk_resetRequests {s : State} (h : s.memOk) (vf : BitVec 2) : (s.resetRequests vf).memOk := by
  have dead {w : State} (hw : w.memOk) : w.dropDead.memOk := hw
  exact dead (foldl_memOk (f := State.dropRequest) (fun _ _ h => State.memOk_dropRequest h _) _
    (foldl_memOk (f := State.completeAlone) (fun _ _ h => State.memOk_completeAlone h _) _ h))

theorem State.memOk_finishSubs (t : Strand) (es : List Entry) (vl stop : Nat) (subs : List Nat) (fuel : Nat) {s : State}
    (h : s.memOk) (got : List (Nat × Word × BitVec 7)) : (State.finishSubs t es vl stop subs fuel s got).1.memOk := by
  induction fuel generalizing s got with
  | zero => exact h
  | succ fuel ih =>
    unfold State.finishSubs
    split
    · have numbered {w : State} (hw : w.memOk) (n : Nat) : ({ w with nextRid := n } : State).memOk := hw
      refine ih (foldl_memOk (f := fun (a : State) (q : Nat × Request) =>
        ({ a with nextRid := a.nextRid + 1 } : State).completeAlone { q.2 with rid := a.nextRid }) (fun w q hw => ?_) _ h) _
      exact State.memOk_completeAlone (numbered hw _) _
    · exact h
    · exact h

theorem State.memOk_finishAmos (s : State) {s0 : State} (h : s0.memOk) (vf : BitVec 2) : (s.finishAmos s0 vf).1.memOk := by
  have one (a : State × Bool) (t : Strand) (ha : a.1.memOk) : ((match t.amoLeft with
      | none => a
      | some (vl, stop, got) =>
        let (s1, cut) := State.finishSubs { t with vamo := none } (firstConvoy t.viq).1 vl stop (s.subsOf t) (groupsOf vl + 1) a.1 got
        (s1, a.2 || cut)) : State × Bool).1.memOk := by
    split
    · exact ha
    · exact State.memOk_finishSubs _ _ _ _ _ _ ha _
  have all (l : List Strand) (a : State × Bool) (ha : a.1.memOk) := List.foldlRecOn
    (motive := fun (a : State × Bool) => a.1.memOk) l _ ha fun a ha t _ => one a t ha
  exact all _ (s0, false) h

theorem State.memOk_failBound {s : State} (h : s.memOk) (g : BitVec 16) (f : Gang → Gang) : ((s.failGang g 5).setGang g f).memOk :=
  State.memOk_failGang h g 5

theorem execVfReset_keeps (vf : BitVec 2) (s : State) : s.Keeps (execVfReset vf s) := by
  refine State.Keeps.next fun h => ?_
  have cleared {w : State} (hw : w.memOk) (cs : List Card) (os : List Offer) (ps : List Page) (qs : List Qp)
      (vs : Vector Vf 4) :
      State.memOk { w with cards := cs, offers := os, pages := ps, qps := qs, vfs := vs } := hw
  refine State.memOk_resetDone (cleared ?_ _ _ _ _ _) vf
  exact foldl_memOk (f := fun (a : State) (h : BitVec 16) => (a.failGang h 5).setGang h fun g => { g with started := true })
    (fun _ _ h => State.memOk_failBound h _ _) _ (State.memOk_finishAmos s (State.memOk_resetRequests h vf) vf)

theorem execErrorRegisterWrite_keeps (vf : BitVec 2) (w : Word) (s : State) : s.Keeps (execErrorRegisterWrite vf w s) :=
  State.Keeps.next fun h => h

/-! ## Registers -/

theorem State.memOk_openQueue {s : State} (h : s.memOk) (n : Nat) (asid : BitVec 16) : (s.openQueue n asid).memOk := by
  unfold State.openQueue
  split
  · exact h
  split <;> exact h

theorem State.memOk_fanswer {s : State} (h : s.memOk) (asid : BitVec 16) (w : BitVec 128) : (s.fanswer asid w).memOk := by
  unfold State.fanswer
  dsimp only
  split
  · exact h
  · exact State.memOk_answerNotice h _ _ _

theorem State.memOk_announce {s : State} (h : s.memOk) (g : Nat) (effective : Word) : (s.announce g effective).memOk := by
  unfold State.announce
  dsimp only
  split <;> exact h

theorem State.memOk_setDie {s : State} (h : s.memOk) (die : Nat) (d : Die) : (s.setDie die d).memOk := by
  unfold State.setDie
  split <;> exact h

theorem State.memOk_setGroup {s : State} (h : s.memOk) (die g : Nat) : (s.setGroup die g).memOk :=
  State.memOk_announce (State.memOk_announce (State.memOk_setDie h _ _) _ _) _ _

theorem State.memOk_setPortMode {s : State} (h : s.memOk) (port mode : Nat) : (s.setPortMode port mode).memOk := by
  unfold State.setPortMode
  split <;> exact h

theorem State.memOk_storageWrite {s : State} (h : s.memOk) (port block : Nat) (asid : BitVec 16) (va : Word) :
    (s.storageWrite port block asid va).memOk := by
  unfold State.storageWrite
  split
  · exact h
  · exact State.memOk_outside h _ ((State.readBytes_reads ..).memOk h) (fun w hw => hw) fun bs w hw =>
      State.memOk_of_wf hw (Memory.wf_fill hw.1 _ _) rfl

theorem execRegisterWrite_keeps (r : RegName) (w : BitVec 128) (s : State) : s.Keeps (execRegisterWrite r w s) := by
  refine State.Keeps.next fun h => ?_
  split
  · exact h
  · cases r
    case fanswer asid => exact State.memOk_fanswer h _ _
    case queueOwner n => exact State.memOk_openQueue h _ _
    case throttleGroup die => exact State.memOk_setGroup h _ _
    case portMode port => exact State.memOk_setPortMode h _ _
    case storageWrite port block => exact State.memOk_storageWrite h _ _ _ _
    case owner n => dsimp only; split <;> exact h
    case submissionPage asid => dsimp only; split <;> exact h
    case announcement g a => dsimp only; split <;> exact h
    case pageOffset asid off =>
      dsimp only
      split
      · exact State.memOk_fanswer h _ _
      · exact h
    all_goals exact h

/-! ## The platform -/

theorem State.memOk_failStart {s : State} (h : s.memOk) (c : StartCause) : (s.failStart c).memOk := h

theorem State.memOk_runStages (n : Nat) (l : List (List Byte)) {s : State} (h : s.memOk) : (s.runStages n l).memOk := by
  induction l generalizing n s with
  | nil => exact h
  | cons st rest ih =>
    unfold State.runStages
    split
    · split
      · exact ih (n + 1) (show State.memOk { s with boot := _ } from h)
      · exact State.memOk_failStart h _
    · exact State.memOk_failStart h _

theorem execPackageReset_keeps (dies : BitVec 4) (hbm : BitVec 12) (stages : Firmware) (s : State) :
    s.Keeps (execPackageReset dies hbm stages s) := by
  refine State.Keeps.next fun h => ?_
  have fresh {w : State} (hm : w.mem = s.mem.filter fun c => outlives c.1)
      (hl : w.lines = s.lines.filter fun l => outlives (128 * l.1)) : w.memOk := by
    refine ⟨?_, ?_⟩
    · rw [hm]
      exact Memory.wf_filter h.1 _
    · rw [hl]
      exact Cells.rising_filter h.2 _
  have run (w : State) (hw : w.memOk) (a b : Bool) (l : List (List Byte)) : (if a then w.failStart .selfTest
      else if b then w.failStart .training else w.runStages 0 l).memOk := by
    split
    · exact State.memOk_failStart hw _
    split
    · exact State.memOk_failStart hw _
    · exact State.memOk_runStages _ _ hw
  exact run _ (fresh rfl rfl) _ _ _

theorem execStartComplete_keeps (t : Word) (s : State) : s.Keeps (execStartComplete t s) := by
  refine State.Keeps.next fun h => ?_
  split <;> exact h

theorem execStartFailure_keeps (c : StartCause) (s : State) : s.Keeps (execStartFailure c s) := by
  refine State.Keeps.next fun h => ?_
  split <;> exact h

theorem execStartWatchdogExpiry_keeps (s : State) : s.Keeps (execStartWatchdogExpiry s) := by
  refine State.Keeps.next fun h => ?_
  split <;> exact h

theorem execMinimalStageWrite_keeps (stage : List Byte) (s : State) : s.Keeps (execMinimalStageWrite stage s) := by
  refine State.Keeps.next fun h => ?_
  have booted {w : State} (hw : w.memOk) (b : Boot) : ({ w with boot := b } : State).memOk := hw
  split
  · exact h
  split
  · exact State.memOk_runStages _ _ (booted h _)
  split
  · exact State.memOk_runStages _ _ (booted h _)
  split
  · exact booted h _
  · exact h

theorem execAttestationNonce_keeps (nonce : BitVec 256) (s : State) : s.Keeps (execAttestationNonce nonce s) :=
  State.Keeps.next fun h => h

theorem execAllowanceRequest_keeps (die : Nat) (req : BitVec 8) (effective : Word) (s : State) :
    s.Keeps (execAllowanceRequest die req effective s) := by
  unfold execAllowanceRequest
  split
  · exact State.Keeps.same s
  · exact State.Keeps.next fun h => State.memOk_announce (State.memOk_setDie h _ _) _ _

theorem execAllowanceApply_keeps (g : Nat) (s : State) : s.Keeps (execAllowanceApply g s) := by
  unfold execAllowanceApply
  dsimp only
  split
  · exact State.Keeps.same s
  · exact State.Keeps.next fun h => h

theorem State.memOk_record {s : State} (h : s.memOk) (u : Source) (k : EvKind) (d : BitVec 128) : (s.record u k d).memOk := h

theorem State.memOk_trip {s : State} (h : s.memOk) : s.trip.memOk := by
  unfold State.trip
  split
  · exact h
  · refine State.memOk_record (foldl_memOk (f := fun (a : State) (h : BitVec 16) => a.rollback h false)
      (fun _ _ h => State.memOk_rollback h _ _) _ ?_) _ _ _
    exact h

theorem execThermalTrip_keeps (s : State) : s.Keeps (execThermalTrip s) :=
  State.Keeps.next State.memOk_trip

theorem execStackTempSample_keeps (stack temp : Nat) (effective : Word) (s : State) :
    s.Keeps (execStackTempSample stack temp effective s) := by
  unfold execStackTempSample
  dsimp only
  split
  · exact State.Keeps.same s
  split
  · exact State.Keeps.same s
  · refine State.Keeps.next fun h => ?_
    have banded {w : State} (hw : w.memOk) (l : Vector Stack 12) : ({ w with hbm := l } : State).memOk := hw
    split
    · exact State.memOk_announce (State.memOk_record (banded h _) _ _ _) _ _
    · exact State.memOk_record (banded h _) _ _ _

theorem execInletTemperatureChange_keeps (degrees : Nat) (effective : Word) (s : State) :
    s.Keeps (execInletTemperatureChange degrees effective s) := by
  unfold execInletTemperatureChange
  dsimp only
  refine State.Keeps.next fun h => ?_
  have warm : (if degrees > 55 ∧ s.inlet ≤ 55 then
      (s.dies.toList.map Die.group).eraseDups.foldl (fun (a : State) g => a.announce g effective)
        (({ s with inlet := degrees } : State).record (.die 0) .thermal (BitVec.ofNat 128 degrees))
      else ({ s with inlet := degrees } : State).record (.die 0) .thermal (BitVec.ofNat 128 degrees)).memOk := by
    split
    · exact foldl_memOk (f := fun (a : State) (g : Nat) => a.announce g effective) (fun _ _ h => State.memOk_announce h _ _) _ h
    · exact h
  split
  · exact State.memOk_trip warm
  · exact warm

end Sys2Proof.Machine
end

section
/-!
SUPPORT. The events of strands, of requests and of waits keep memory in its form.
-/

namespace Sys2Proof.Machine

/-- An event of a strand that is found: what it does keeps memory in its form. -/
theorem State.keeps_ofStrand {s : State} (o : Option Strand) {f : Strand → Out} (hf : ∀ t, s.Keeps (f t)) :
    s.Keeps (match o with
      | none => .next s
      | some t => f t) := by
  cases o with
  | none => exact State.Keeps.same s
  | some t => exact hf t

theorem execResultQueueDelivery_keeps (sid : Nat) (s : State) : s.Keeps (execResultQueueDelivery sid s) := by
  refine State.keeps_ofStrand _ fun t => ?_
  split
  · exact State.Keeps.same s
  · exact State.Keeps.next fun h => h

theorem execScalarAccessDelivery_keeps (sid : Nat) (s : State) : s.Keeps (execScalarAccessDelivery sid s) := by
  refine State.keeps_ofStrand _ fun t => ?_
  split
  · exact State.Keeps.same s
  split
  · exact State.Keeps.same s
  · refine State.Keeps.next fun h => ?_
    have taken (l : List Reply) : ({ s with replies := l } : State).memOk := h
    split
    · exact h
    · exact State.memOk_scalarTrap (taken _) _ _ _ _ _

theorem execConvoyStart_keeps (sid : Nat) (s : State) : s.Keeps (execConvoyStart sid s) := by
  refine State.keeps_ofStrand _ fun t => ?_
  split
  · exact State.Keeps.same s
  · refine State.Keeps.next fun h => ?_
    split
    · exact State.memOk_runConvoy h _ _ _
    split
    · exact State.memOk_performSolo h _ _
    · exact h

theorem execViqEntryComplete_keeps (sid : Nat) (s : State) : s.Keeps (execViqEntryComplete sid s) := by
  refine State.keeps_ofStrand _ fun t => ?_
  split
  · split
    · exact State.Keeps.same s
    · exact State.Keeps.next fun h => State.memOk_takeTrap h _ _ _ _ _ _
  split
  · exact State.Keeps.same s
  split
  · exact State.Keeps.same s
  · exact State.Keeps.next fun h => h

theorem execMemoryAccessPerform_keeps (rid : Nat) (s : State) : s.Keeps (execMemoryAccessPerform rid s) := by
  unfold execMemoryAccessPerform
  split
  · exact State.Keeps.same s
  · refine State.Keeps.next fun h => ?_
    split
    · exact State.memOk_performAt h _
    · exact h

theorem execKeystoneCombine_keeps (ks : Nat) (s : State) : s.Keeps (execKeystoneCombine ks s) := by
  unfold execKeystoneCombine
  split
  · exact State.Keeps.same s
  · refine State.Keeps.next fun h => ?_
    exact foldl_memOk (f := State.sendOn) (fun _ _ h => State.memOk_place h _) _ (show State.memOk { s with nextRid := _, keystones := _ } from h)

theorem execKeystoneSplitReply_keeps (ks : Nat) (s : State) : s.Keeps (execKeystoneSplitReply ks s) := by
  unfold execKeystoneSplitReply
  split
  · exact State.Keeps.same s
  split
  · exact State.Keeps.same s
  split
  · exact State.Keeps.same s
  · have taken (h : s.memOk) (l : List Reply) (ks : List Keystone) : ({ s with replies := l, keystones := ks } : State).memOk := h
    exact State.Keeps.next fun h => State.memOk_reply (State.memOk_reply (taken h _ _) _) _

theorem execCombinedRedirectReissue_keeps (ks : Nat) (s : State) : s.Keeps (execCombinedRedirectReissue ks s) := by
  unfold execCombinedRedirectReissue
  split
  · exact State.Keeps.same s
  · refine State.Keeps.next fun h => ?_
    exact foldl_memOk (f := State.place) (fun _ _ h => State.memOk_place h _) _ (show State.memOk { s with keystones := _ } from h)

theorem execRelIncrement_keeps (sid : Nat) (s : State) : s.Keeps (execRelIncrement sid s) := by
  refine State.keeps_ofStrand _ fun t => State.Keeps.next fun h => ?_
  split
  · exact State.memOk_relRaise h _ _
  · exact h

theorem execAcqSatisfied_keeps (sid : Nat) (s : State) : s.Keeps (execAcqSatisfied sid s) := by
  refine State.keeps_ofStrand _ fun t => ?_
  split
  · exact State.Keeps.same s
  split
  · exact State.Keeps.next fun h => State.memOk_acqTest h _ _ _ _
  · exact State.Keeps.same s

theorem execVwaitMet_keeps (sid : Nat) (s : State) : s.Keeps (execVwaitMet sid s) := by
  refine State.keeps_ofStrand _ fun t => ?_
  split
  · exact State.Keeps.same s
  split
  · exact State.Keeps.same s
  · refine State.Keeps.next fun h => ?_
    split
    · split
      · exact State.memOk_vwaitTest h _ _ _ _ _ _
      · exact h
    · exact State.memOk_vwaitTest h _ _ _ _ _ _

theorem execVwaitTimeout_keeps (sid : Nat) (s : State) : s.Keeps (execVwaitTimeout sid s) := by
  refine State.keeps_ofStrand _ fun t => ?_
  split
  · exact State.Keeps.same s
  split
  · exact State.Keeps.next fun h => State.memOk_vwaitTest h _ _ _ _ _ _
  · exact State.Keeps.same s

theorem execFenceComplete_keeps (sid : Nat) (s : State) : s.Keeps (execFenceComplete sid s) := by
  refine State.keeps_ofStrand _ fun t => ?_
  split
  · exact State.Keeps.same s
  split
  · exact State.Keeps.next fun h => h
  · exact State.Keeps.same s

theorem execVxchMatch_keeps (sid sid' : Nat) (s : State) : s.Keeps (execVxchMatch sid sid' s) := by
  unfold execVxchMatch
  split
  · split
    · split
      · exact State.Keeps.next fun h => h
      · exact State.Keeps.same s
    · exact State.Keeps.same s
  · exact State.Keeps.same s

theorem execVxchTimeout_keeps (sid : Nat) (s : State) : s.Keeps (execVxchTimeout sid s) := by
  refine State.keeps_ofStrand _ fun t => ?_
  split
  · split
    · exact State.Keeps.next fun h => h
    · exact State.Keeps.same s
  · exact State.Keeps.same s

theorem execQdrainComplete_keeps (sid : Nat) (s : State) : s.Keeps (execQdrainComplete sid s) := by
  refine State.keeps_ofStrand _ fun t => ?_
  split
  · split
    · exact State.Keeps.next fun h => h
    · exact State.Keeps.same s
  · exact State.Keeps.same s

theorem execBarrierArrivalCount_keeps (bid : Nat) (s : State) : s.Keeps (execBarrierArrivalCount bid s) := by
  unfold execBarrierArrivalCount
  split
  · exact State.Keeps.next fun h => h
  split
  · exact State.Keeps.same s
  split
  · exact State.Keeps.next fun h => h
  · have counted (h : s.memOk) (as : List Arrival) (bs : List Barrier) (ts : List Strand) :
        ({ s with arrivals := as, barriers := bs, strands := ts } : State).memOk := h
    have woken {w : State} (hw : w.memOk) (ts : List Strand) : ({ w with strands := ts } : State).memOk := hw
    dsimp only
    split
    · exact State.Keeps.next fun h => counted h _ _ _
    · exact State.Keeps.next fun h => woken (State.memOk_writeHome (counted h _ _ _) _ _) _

/-! ## Events of the tables -/

theorem execSlotPartWrite_keeps (n : Nat) (part : BitVec 2) (s : State) : s.Keeps (execSlotPartWrite n part s) := by
  refine State.Keeps.next fun h => ?_
  split <;> exact h

theorem execTierManagerMove_keeps (asid : BitVec 16) (src dst : Word) (len : Nat) (mover : Mover) (s : State) :
    s.Keeps (execTierManagerMove asid src dst len mover s) := by
  refine State.Keeps.next fun h => ?_
  split <;> exact h

theorem execTlbInvalidate_keeps (asid : BitVec 16) (base len : Nat) (s : State) : s.Keeps (execTlbInvalidate asid base len s) := by
  refine State.Keeps.next fun h => ?_
  split <;> exact h

theorem execLineBufferReplacement_keeps (sid line : Nat) (s : State) : s.Keeps (execLineBufferReplacement sid line s) := by
  refine State.keeps_ofStrand _ fun t => ?_
  exact State.Keeps.next fun h => h

theorem execSaveTimeout_keeps (n : Nat) (s : State) : s.Keeps (execSaveTimeout n s) := by
  refine State.Keeps.next fun h => ?_
  split
  · exact State.memOk_discardOrKill h _
  · exact h

/-- Every event that may stand on the agenda. -/
theorem exec_keeps_input {i : Instr} (hi : isInput i = true) (s : State) : s.Keeps (exec i s) := by
  cases i
  case resultQueueDelivery => exact execResultQueueDelivery_keeps ..
  case scalarAccessDelivery => exact execScalarAccessDelivery_keeps ..
  case convoyStart => exact execConvoyStart_keeps ..
  case viqEntryComplete => exact execViqEntryComplete_keeps ..
  case memoryAccessPerform => exact execMemoryAccessPerform_keeps ..
  case keystoneCombine => exact execKeystoneCombine_keeps ..
  case keystoneSplitReply => exact execKeystoneSplitReply_keeps ..
  case combinedRedirectReissue => exact execCombinedRedirectReissue_keeps ..
  case moveLineMark => exact execMoveLineMark_keeps ..
  case moveLineCommit => exact execMoveLineCommit_keeps ..
  case copyCompletion => exact execCopyCompletion_keeps ..
  case relIncrement => exact execRelIncrement_keeps ..
  case acqSatisfied => exact execAcqSatisfied_keeps ..
  case barrierArrivalCount => exact execBarrierArrivalCount_keeps ..
  case vwaitMet => exact execVwaitMet_keeps ..
  case vwaitTimeout => exact execVwaitTimeout_keeps ..
  case vxchMatch => exact execVxchMatch_keeps ..
  case vxchTimeout => exact execVxchTimeout_keeps ..
  case qdrainComplete => exact execQdrainComplete_keeps ..
  case fenceComplete => exact execFenceComplete_keeps ..
  case strandRetire => exact execStrandRetire_keeps ..
  case gangCompletion => exact execGangCompletion_keeps ..
  case fwdChainRepair => exact execFwdChainRepair_keeps ..
  case faultNotice => exact execFaultNotice_keeps ..
  case fanswerResume => exact State.Keeps.next fun h => State.memOk_answerNotice h _ _ _
  case fanswerEnd => exact State.Keeps.next fun h => State.memOk_answerNotice h _ _ _
  case fanswerResumePast => exact State.Keeps.next fun h => State.memOk_answerNotice h _ _ _
  case submitCard => exact execSubmitCard_keeps ..
  case slotPartWrite => exact execSlotPartWrite_keeps ..
  case registerWrite => exact execRegisterWrite_keeps ..
  case classPromotion => exact execClassPromotion_keeps ..
  case bindRecord => exact execBindRecord_keeps ..
  case dispatchGang => exact execDispatchGang_keeps ..
  case tlbInvalidate => exact execTlbInvalidate_keeps ..
  case saveGang => exact State.Keeps.next fun h => State.memOk_startSave h _
  case saveComplete => exact execSaveComplete_keeps ..
  case saveTimeout => exact execSaveTimeout_keeps ..
  case vacateRecord => exact execVacateRecord_keeps ..
  case checkpointStart => exact execCheckpointStart_keeps ..
  case vacateRelease => exact execVacateRelease_keeps ..
  case softError => exact execSoftError_keeps ..
  case hangWatchdogExpiry => exact execHangWatchdogExpiry_keeps ..
  case hostHdmWrite => exact execHostHdmWrite_keeps ..
  case hostHdmRead => exact execHostHdmRead_keeps ..
  case routeTimeout => exact execRouteTimeout_keeps ..
  case qpContextWrite => exact execQpContextWrite_keeps ..
  case neTailUpdate => exact execNeTailUpdate_keeps ..
  case neNop => exact execNeNop_keeps ..
  case neSend => exact execNeSend_keeps ..
  case neWrite => exact execNeWrite_keeps ..
  case neRead => exact execNeRead_keeps ..
  case neRecv => exact execNeRecv_keeps ..
  case neEntryComplete => exact execNeEntryComplete_keeps ..
  case vfReset => exact execVfReset_keeps ..
  case packageReset => exact execPackageReset_keeps ..
  case startComplete => exact execStartComplete_keeps ..
  case startFailure => exact execStartFailure_keeps ..
  case startWatchdogExpiry => exact execStartWatchdogExpiry_keeps ..
  case minimalStageWrite => exact execMinimalStageWrite_keeps ..
  case thermalTrip => exact execThermalTrip_keeps ..
  case allowanceRequest => exact execAllowanceRequest_keeps ..
  case allowanceApply => exact execAllowanceApply_keeps ..
  case stackTempSample => exact execStackTempSample_keeps ..
  case heldRequestTimeout => exact execHeldRequestTimeout_keeps ..
  case lineBufferReplacement => exact execLineBufferReplacement_keeps ..
  case tierManagerMove => exact execTierManagerMove_keeps ..
  case inletTemperatureChange => exact execInletTemperatureChange_keeps ..
  case atomicopAsCompleter => exact execAtomicopAsCompleter_keeps ..
  case faultServiceAnswer | walkMigRetry | cardWindowPostedWrite | scrConfigWrite | frConfigWrite | errorRegisterWrite
      | flitRetry | linkFailure | attestationNonce | tlbReplacement | faultRingHeadWrite =>
    exact State.Keeps.next fun h => h
  all_goals exact Bool.noConfusion hi

end Sys2Proof.Machine
end

section
/-!
SUPPORT. An instruction of the strand that dispatches keeps memory in its form, and the strand that takes a beat dispatches.
-/

namespace Sys2Proof.Machine

theorem execFinish_keeps {s : State} {t : Strand} (hc : s.curStrand = some t) : s.Keeps (execFinish s) := by
  refine State.keeps_withCur hc (State.Keeps.next fun h => ?_)
  split
  · exact h
  split
  · exact State.memOk_scalarTrap h _ _ _ _ _
  · exact h

theorem execRet_keeps {s : State} {t : Strand} (hc : s.curStrand = some t) : s.Keeps (execRet s) := by
  refine State.keeps_withCur hc (State.Keeps.next fun h => ?_)
  split
  · exact State.memOk_waitFor h _ _
  · exact h

theorem execCall_keeps {s : State} {t : Strand} (hc : s.curStrand = some t) (off : BitVec 17) (slot : BitVec 5) :
    s.Keeps (execCall off slot s) := by
  refine State.keeps_withCur hc (State.Keeps.next fun h => ?_)
  split
  · exact State.memOk_waitFor h _ _
  · exact Option.getD_memOk (fun _ hw => State.awaitNext_memOk h hw) h

theorem execJr_keeps {s : State} {t : Strand} (hc : s.curStrand = some t) (sd sa : SReg) (imm : BitVec 17) :
    s.Keeps (execJr sd sa imm s) := by
  refine State.keeps_withCur hc (State.Keeps.next fun h => ?_)
  split
  · exact State.memOk_waitFor h _ _
  · exact Option.getD_memOk (fun _ hw => State.awaitNext_memOk h hw) h

theorem execSget_keeps {s : State} {t : Strand} (hc : s.curStrand = some t) (sd : SReg) (num : BitVec 12) :
    s.Keeps (execSget sd num s) := by
  refine State.keeps_withCur hc (State.Keeps.next fun h => ?_)
  split
  · exact State.memOk_waitFor h _ _
  split <;> exact h

theorem execTrap_keeps {s : State} {t : Strand} (hc : s.curStrand = some t) (sa : SReg) (imm : BitVec 11) :
    s.Keeps (execTrap sa imm s) := by
  refine State.keeps_withCur hc (State.Keeps.next fun h => ?_)
  split
  · exact State.memOk_waitFor h _ _
  · exact Option.getD_memOk (fun _ hw => State.awaitNext_memOk h hw) (State.memOk_trapOnceIdle h _ _ _)

theorem execQdrain_keeps {s : State} {t : Strand} (hc : s.curStrand = some t) (sd sa : SReg) : s.Keeps (execQdrain sd sa s) := by
  refine State.keeps_withCur hc (State.Keeps.next fun h => ?_)
  split
  · exact State.memOk_waitFor h _ _
  split
  · exact h
  dsimp only
  split <;> exact h

theorem State.resolvePair_reads (s : State) (c : Ctx) (a b : Word) : (s.resolvePair c a b).Ends s.Reads :=
  (State.resolveVa_reads ..).reads_bind fun _ _ => (State.resolveVa_reads ..).reads_bind fun _ _ => rfl

theorem execVsetvl_keeps {s : State} {t : Strand} (hc : s.curStrand = some t) (sd sa : SReg) : s.Keeps (execVsetvl sd sa s) := by
  unfold execVsetvl
  exact State.keeps_configure hc _ _ fun _ h => h

theorem execVsettype_keeps {s : State} {t : Strand} (hc : s.curStrand = some t) (sd sa : SReg) : s.Keeps (execVsettype sd sa s) := by
  unfold execVsettype
  exact State.keeps_configure hc _ _ fun _ h => State.memOk_setVtype h _ _ _

theorem execVsettypeImm_keeps {s : State} {t : Strand} (hc : s.curStrand = some t) (sd : SReg) (imm : BitVec 12) :
    s.Keeps (execVsettypeImm sd imm s) := by
  unfold execVsettypeImm
  exact State.keeps_configure hc _ _ fun _ h => State.memOk_setVtype h _ _ _

theorem execFwdRes_keeps {s : State} {t : Strand} (hc : s.curStrand = some t) (sd sa : SReg) : s.Keeps (execFwdRes sd sa s) := by
  unfold execFwdRes
  exact State.keeps_forwarding hc _ (fun _ h => (State.resolveVa_reads ..).memOk h) fun _ _ _ hw => hw

theorem execFwdCmp_keeps {s : State} {t : Strand} (hc : s.curStrand = some t) (sd sa sb : SReg) :
    s.Keeps (execFwdCmp sd sa sb s) := by
  unfold execFwdCmp
  exact State.keeps_forwarding hc _ (fun _ h => (State.resolvePair_reads ..).memOk h) fun _ _ _ hw => hw

theorem execFwdStat_keeps {s : State} {t : Strand} (hc : s.curStrand = some t) (sd sa : SReg) : s.Keeps (execFwdStat sd sa s) := by
  unfold execFwdStat
  exact State.keeps_forwarding hc _ (fun _ h => (State.statOf_reads ..).memOk h) fun _ _ _ hw => hw

theorem execFwdRelink_keeps {s : State} {t : Strand} (hc : s.curStrand = some t) (sa : SReg) : s.Keeps (execFwdRelink sa s) := by
  unfold execFwdRelink
  exact State.keeps_forwarding hc _ (fun _ h => State.relink_memOk h _ _) fun _ _ _ hw => hw

theorem execFwdClear_keeps {s : State} {t : Strand} (hc : s.curStrand = some t) (sa : SReg) : s.Keeps (execFwdClear sa s) := by
  unfold execFwdClear
  exact State.keeps_forwarding hc _ (fun _ h => State.clearLine_memOk h _ _) fun _ _ _ hw => hw

/-- What an instruction does that is no event, and not chained: the rest of the forms. -/
theorem exec_keeps_own {s : State} {t : Strand} (hc : s.curStrand = some t) {i : Instr} (hi : isInput i = false)
    (hu : uses 0 i = none) : s.Keeps (exec i s) := by
  cases i
  case illegalHead => exact State.keeps_withCur hc (State.Keeps.next fun h => State.memOk_scalarTrap h _ _ _ _ _)
  case instructionFetchFault => exact State.keeps_withCur hc (State.Keeps.next fun h => State.memOk_scalarTrap h _ _ _ _ _)
  case finish => exact execFinish_keeps hc
  case ret => exact execRet_keeps hc
  case br => exact State.keeps_withCur hc (State.Keeps.next fun h => h)
  case call => exact execCall_keeps hc _ _
  case jr => exact execJr_keeps hc _ _ _
  case beq | bne | blt | bltn | bz | bnz => exact State.keeps_branch hc _ _ _ _ _
  case bge sa sb off slot => exact State.keeps_branch hc sa sb off slot fun a b => !a.slt b
  case bgen sa sb off slot => exact State.keeps_branch hc sa sb off slot fun a b => !a.ult b
  case sget => exact execSget_keeps hc _ _
  case vsetvl => exact execVsetvl_keeps hc _ _
  case vsettype => exact execVsettype_keeps hc _ _
  case vsettypeImm => exact execVsettypeImm_keeps hc _ _
  case qdrain => exact execQdrain_keeps hc _ _
  case brk => exact State.keeps_withCur hc (State.Keeps.next fun h => State.memOk_trapOnceIdle h _ _ _)
  case trap => exact execTrap_keeps hc _ _
  case sysCall => exact execSysCall_keeps hc _ _
  case taskPost => exact execTaskPost_keeps hc _ _ _
  case ldB | ldH | ldW | ldD | ldBN | ldHN | ldWN => exact State.keeps_scalarLoad hc _ _ _ _ _
  case stB | stH | stW | stD => exact State.keeps_scalarStore hc _ _ _ _
  case amoAdd | amoAnd | amoOr | amoXor | amoMin | amoMax | amoSwp | amoCas | amoMinN | amoMaxN =>
    exact State.keeps_scalarAmo hc _ _ _ _ _ _
  case acq | rel | fenceG | fenceD | fenceS | barWait | vwait | syncBind | syncUnbind | barInit | barArr | barArrRlx | barDrop
      | winOpen | winMerge | winClose => exact State.keeps_dispatchSolo hc _ _ _
  case cpy | cpy2d | cpyFl | cpyMove => exact State.keeps_dispatchCopy hc _ _ _
  case fwdRes => exact execFwdRes_keeps hc _ _
  case fwdCmp => exact execFwdCmp_keeps hc _ _ _
  case fwdStat => exact execFwdStat_keeps hc _ _
  case fwdRelink => exact execFwdRelink_keeps hc _
  case fwdClear => exact execFwdClear_keeps hc _
  case nop | sput | progMark | add | sub | mul | mulh | mulhN | div | divN | rem | remN | addImm | subImm | mulImm | and | or
      | xor | andn | shl | shr | sar | rot | andImm | orImm | xorImm | andnImm | shlImm | shrImm | sarImm | rotImm | min | max
      | minN | maxN | cmpEq | cmpNe | cmpLt | cmpGe | cmpLtN | cmpGeN | cmpEqImm | cmpNeImm | cmpLtImm | cmpGeImm | cmpLtNImm
      | cmpGeNImm | clz | ctz | pop | bext | bins | li | lih | lea | tokPoll | tierHint | fadd | fsub | fmul | fdiv | fmin
      | fmax | fma | fsqrt | fcmpEq | fcmpLt | fcmpLe | fcmpUn | fcvtF32F64 | fcvtF64F32 | fcvtF32I64 | fcvtF32N64
      | fcvtF64I64 | fcvtF64N64 | fcvtI64F32 | fcvtN64F32 | fcvtI64F64 | fcvtN64F64 => exact State.keeps_scalar hc _ _
  case mzero | mtag | vopa | vopaS | mrd | mwr | mld | mst | mcvtI32Trio | mcvtF32I32 | mcvtBf16F32 | vperm | vzip
      | vunzip | vslideUp | vslideDn | vrepBlk | vcompress | vexpand | vscanAdd | vscanAddx | vmergeUAdd | vmergeUSub
      | vmergeUMax | vxch | vfadd | vfsub | vfmul | vfdiv | vfmin | vfmax | vfma | vfsqrt | vfrcpE | vfaddX | vfsubX
      | vfmulX | vfdivX | vfminX | vfmaxX | vscale | vadd | vsub | vmul | vmulh | vmadd | vmin | vmax | vand | vor
      | vxor | vshl | vshr | vsar | vaddX | vsubX | vmulX | vmulhX | vmaddX | vminX | vmaxX | vandX | vorX | vxorX
      | vshlX | vshrX | vsarX | vcmpEq | vcmpNe | vcmpLt | vcmpGe | vcmpLtN | vcmpGeN | vcmpFeq | vcmpFlt | vcmpFle
      | vcmpFun | vsel | kand | kor | knot | kpop | kfirst | vmvSx | vbcast | vmvXs | vredAddO | vredAddT | vredMin
      | vredMax | vcvtH | vcvtD | vcvtF32E2m1 | vtag | vld | vlds | vldx | vst | vsts | vstxO | vstxN | vldc | vstc
      | vfwdRes | vltLd | vltSt | vltFill | vamoAdd | vamoAnd | vamoOr | vamoXor | vamoMin | vamoMax | vamoSwp | vamoCas
      | vwaccAdd => cases hu
  all_goals cases hi

/-- What an instruction does to the state of the strand that dispatches it, and an event to any state. -/
theorem exec_keeps {s : State} {t : Strand} (hc : s.curStrand = some t) (i : Instr) : s.Keeps (exec i s) := by
  cases hi : isInput i with
  | true => exact exec_keeps_input hi s
  | false =>
    cases hu : uses 0 i with
    | none => exact exec_keeps_own hc hi hu
    | some u =>
      rw [exec_chained hu]
      exact State.keeps_dispatchChained hc i

/-! ## The strand that takes the beat -/

theorem mem_of_leastBy {α : Type} {f : α → Nat} {l : List α} {x : α} (h : leastBy f l = some x) : x ∈ l := by
  induction l generalizing x with
  | nil => cases h
  | cons y t ih =>
    unfold leastBy at h
    split at h
    · rw [← Option.some.inj h]
      exact List.mem_cons_self
    · rename_i z hz
      split at h
      · rw [← Option.some.inj h]
        exact List.mem_cons_of_mem _ (ih hz)
      · rw [← Option.some.inj h]
        exact List.mem_cons_self

theorem State.mem_of_pickOn {s : State} {core : Nat} {t : Strand} (h : s.pickOn core = some t) : t ∈ s.strands :=
  (List.mem_filter.1 (List.mem_filter.1 (mem_of_leastBy h)).1).1

theorem State.mem_of_pick {s : State} {core : Nat} {t : Strand} (h : s.pick = some (core, t)) : t ∈ s.strands := by
  obtain ⟨c, -, hc⟩ := List.mem_filterMap.1 (mem_of_leastBy h)
  obtain ⟨u, hu, hx⟩ := Option.map_eq_some_iff.1 hc
  cases hx
  exact State.mem_of_pickOn hu

/-- The strands of `w` stand at the places of those of `s`. -/
def State.SameSids (s w : State) : Prop :=
  w.strands.map (fun t => t.id.sid) = s.strands.map fun t => t.id.sid

theorem State.SameSids.of_eq {s w : State} (h : w.strands = s.strands) : s.SameSids w := by
  rw [State.SameSids, h]

theorem State.Reads.sameSids {s w : State} (h : s.Reads w) : s.SameSids w :=
  .of_eq (by rw [← h]; rfl)

theorem State.SameSids.trans {s w u : State} (h : s.SameSids w) (k : w.SameSids u) : s.SameSids u :=
  Eq.trans k h

/-- A strand of `s` has its place in `w`. -/
theorem State.SameSids.strand {s w : State} (h : s.SameSids w) {t : Strand} (ht : t ∈ s.strands) :
    ∃ u, w.strand t.id.sid = some u := by
  have hm : t.id.sid ∈ w.strands.map fun t => t.id.sid := h ▸ List.mem_map_of_mem ht
  obtain ⟨u, hu, he⟩ := List.mem_map.1 hm
  exact Option.isSome_iff_exists.1 (List.find?_isSome.2 ⟨u, hu, by simp [he]⟩)

theorem sids_updWhere (l : List Strand) (p : Strand → Bool) (f : Strand → Strand) (hf : ∀ t, (f t).id = t.id) :
    (updWhere l p f).map (fun t => t.id.sid) = l.map fun t => t.id.sid := by
  rw [updWhere, List.map_map]
  refine List.map_congr_left fun t _ => ?_
  show (if p t = true then f t else t).id.sid = t.id.sid
  split
  · rw [hf]
  · rfl

theorem State.fetched_sameSids (s : State) (c : Ctx) (line : Nat) (new : BitVec 512) : s.SameSids (s.fetched c line new).2 := by
  unfold State.fetched
  split
  · split
    · split
      · exact .of_eq rfl
      · exact sids_updWhere _ _ _ fun _ => rfl
    · exact sids_updWhere _ _ _ fun _ => rfl
  · exact .of_eq rfl

/-- After a read the attempt goes on from the same strands. -/
theorem Res.Ends.sameSids_bind {α β : Type} {s : State} {x : Res α} {f : α → State → Res β}
    (h : x.Ends s.Reads) (k : ∀ a w, (f a w).Ends w.SameSids) : (x.bind f).Ends s.SameSids := by
  cases x with
  | ok a w => exact (k a w).mono fun _ => (State.Reads.sameSids h).trans
  | flt | wait | held | soft => exact State.Reads.sameSids h

theorem State.fetchLine_sameSids (s : State) (c : Ctx) (pc : Word) : (s.fetchLine c pc).Ends s.SameSids := by
  unfold State.fetchLine
  split
  · exact rfl
  refine (State.translate_reads ..).sameSids_bind fun e w => ?_
  dsimp only
  split
  · exact rfl
  split
  · exact rfl
  · refine Res.Ends.sameSids_bind ?_ fun l w2 => (State.atHome_reads ..).sameSids_bind fun l w3 => State.fetched_sameSids ..
    split
    · exact State.chase_reads ..
    · exact rfl

theorem State.fetchHead_sameSids (s : State) (c : Ctx) (pc : Word) (seq : Bool) : (s.fetchHead c pc seq).Ends s.SameSids := by
  unfold State.fetchHead
  split
  · exact rfl
  split
  · exact rfl
  · exact (State.fetchLine_sameSids ..).bind fun l w h => h

end Sys2Proof.Machine
end

section
/-!
SUPPORT. A step is an event that is due, a head that is dispatched or the end of the tick: each completes and keeps memory in
its form.
-/

namespace Sys2Proof.Machine

/-! ## Choices -/

/-- Every outcome that a choice may give keeps the form of `s`. -/
def State.KeepsAll (s : State) (o : Option Out) : Prop :=
  ∀ x, o = some x → s.Keeps x

theorem State.KeepsAll.none (s : State) : s.KeepsAll none := fun _ h => absurd h (by simp)

theorem State.KeepsAll.some {s : State} {x : Out} (h : s.Keeps x) : s.KeepsAll (some x) := fun _ k => Option.some.inj k ▸ h

theorem State.KeepsAll.due {s : State} {b : Bool} {x : Out} (h : s.Keeps x) : s.KeepsAll (due b x) := by
  unfold Machine.due
  split
  · exact .some h
  · exact .none s

theorem State.KeepsAll.orElse {s : State} {o : Option Out} {f : Unit → Option Out} (h : s.KeepsAll o) (k : s.KeepsAll (f ())) :
    s.KeepsAll (o.orElse f) := by
  cases o with
  | none => exact k
  | some x => exact h

theorem State.KeepsAll.firstOf {α : Type} {s : State} {f : α → Option Out} (hf : ∀ a, s.KeepsAll (f a)) (l : List α) :
    s.KeepsAll (firstOf f l) := by
  induction l with
  | nil => exact .none s
  | cons a l ih =>
    unfold Machine.firstOf
    have ha := hf a
    split
    · rename_i y hy
      rw [hy] at ha
      exact ha
    · exact ih

theorem State.KeepsAll.map {α : Type} {s : State} (o : Option α) {f : α → Out} (hf : ∀ a, s.Keeps (f a)) :
    s.KeepsAll (o.map f) := by
  cases o with
  | none => exact .none s
  | some a => exact .some (hf a)

theorem State.KeepsAll.ite {s : State} {p : Prop} [Decidable p] {a b : Option Out} (ha : s.KeepsAll a) (hb : s.KeepsAll b) :
    s.KeepsAll (if p then a else b) := by
  split
  · exact ha
  · exact hb

/-! ## Events that are due -/

theorem State.keeps_takeInput (s : State) (e : Instr) (rest : List Instr) : s.Keeps (s.takeInput e rest) := by
  unfold State.takeInput
  split
  · exact State.Keeps.next fun h => h
  · rename_i hi
    obtain ⟨w, hw, hk⟩ := exec_keeps_input (s := { s with agenda := rest }) (by simpa using hi)
    rw [hw]
    refine State.Keeps.next fun h => ?_
    have kept : w.memOk := hk h
    split
    · exact kept
    · exact kept

theorem State.keepsAll_input (s : State) : s.KeepsAll s.input :=
  .map _ fun x => s.keeps_takeInput x.1 x.2

theorem State.keepsAll_drainDue (s : State) (t : Strand) : s.KeepsAll (s.drainDue t) := by
  unfold State.drainDue
  split
  · exact .due (execQdrainComplete_keeps _ s)
  · exact .none s

theorem State.keepsAll_wakeDue (s : State) (t : Strand) : s.KeepsAll (s.wakeDue t) := by
  unfold State.wakeDue
  dsimp only
  split
  · exact .none s
  · exact .none s
  · exact .due (execAcqSatisfied_keeps _ s)
  · exact .ite (.some (execVwaitTimeout_keeps _ s)) (.due (execVwaitMet_keeps _ s))
  · exact .due (execFenceComplete_keeps _ s)
  · exact .none s

theorem State.keepsAll_exchangeDue (s : State) (t : Strand) : s.KeepsAll (s.exchangeDue t) := by
  unfold State.exchangeDue
  split
  · exact .map _ fun u => execVxchMatch_keeps _ _ s
  · exact .none s

theorem State.keepsAll_withdrawalDue (s : State) (t : Strand) : s.KeepsAll (s.withdrawalDue t) := by
  unfold State.withdrawalDue
  split
  · exact .due (execVxchTimeout_keeps _ s)
  · exact .none s

theorem State.keepsAll_strandDue (s : State) (t : Strand) : s.KeepsAll (s.strandDue t) := by
  unfold State.strandDue
  refine .ite (.due (execSoftError_keeps _ s)) (.ite (.some (execResultQueueDelivery_keeps _ s))
    (.ite (.some (execViqEntryComplete_keeps _ s)) (.ite (.some (execScalarAccessDelivery_keeps _ s))
    (.ite (.some (execStrandRetire_keeps _ s)) (.ite (.some (execFwdChainRepair_keeps _ s))
    (.ite (.some (execFaultNotice_keeps _ s)) (.ite (.some (execConvoyStart_keeps _ s)) ?_)))))))
  have hx := s.keepsAll_exchangeDue t
  split
  · rename_i o ho
    rw [ho] at hx
    exact hx
  · exact .ite (.none s) (.orElse (.due (execRelIncrement_keeps _ s)) (.ite (s.keepsAll_wakeDue t) (.none s)))

theorem State.keepsAll_gangDue (s : State) (g : Gang) : s.KeepsAll (s.gangDue g) := by
  unfold State.gangDue
  dsimp only
  split
  · exact .due (execGangCompletion_keeps _ s)
  · exact .ite (.some (execCheckpointStart_keeps _ s)) (.due (execDispatchGang_keeps _ s))
  · exact .none s
  · exact .ite (.due (execGangCompletion_keeps _ s)) (.ite (.some (execCheckpointStart_keeps _ s))
      (.due (execHangWatchdogExpiry_keeps _ s)))
  · exact .ite (.due (execGangCompletion_keeps _ s)) (.ite (.some (execSaveComplete_keeps _ s)) (.due (execSaveTimeout_keeps _ s)))

theorem State.keepsAll_pairDue (s : State) (q : Qp) : s.KeepsAll (s.pairDue q) :=
  .ite (.none s) (.ite (.some (execNeEntryComplete_keeps _ s)) (.ite (.some (execNeTailUpdate_keeps _ s))
    (.ite (.due (execNeEntryComplete_keeps _ s)) (.due (execNeNop_keeps _ s)))))

theorem State.keepsAll_queueDue (s : State) (q : Queue) : s.KeepsAll (s.queueDue q) := by
  unfold State.queueDue
  split
  · exact .due (execClassPromotion_keeps _ s)
  · exact .none s

theorem State.keepsAll_eventDue (s : State) : s.KeepsAll s.eventDue :=
  .orElse (.firstOf s.keepsAll_drainDue _) <| .orElse s.keepsAll_input <| .orElse (.firstOf s.keepsAll_strandDue _) <|
  .orElse (.firstOf (fun _ => .due (execKeystoneSplitReply_keeps _ s)) _) <| .orElse (.firstOf s.keepsAll_gangDue _) <|
  .orElse (.firstOf (fun _ => .due (execGangCompletion_keeps _ s)) _) <|
  .orElse (.firstOf (fun _ => .orElse (.due (execHeldRequestTimeout_keeps _ s)) (.due (execRouteTimeout_keeps _ s))) _) <|
  .orElse (.firstOf s.keepsAll_pairDue _) <| .orElse (.firstOf s.keepsAll_queueDue _) <|
  .orElse (.firstOf (fun _ => .due (execAllowanceApply_keeps _ s)) _) (.due (execStartWatchdogExpiry_keeps s))

/-! ## The end of a tick -/

theorem State.keepsAll_copyDue (s : State) (c : CopyOp) : s.KeepsAll (s.copyDue c) :=
  .ite (.due (execCopyCompletion_keeps _ s)) (.ite (.due (execMoveLineCommit_keeps _ s)) (.ite (.none s)
    (.ite (.some (execCopyCompletion_keeps _ s)) (.due (execMoveLineMark_keeps _ s)))))

theorem State.keepsAll_arrivalDue (s : State) (a : Arrival) : s.KeepsAll (s.arrivalDue a) := by
  unfold State.arrivalDue
  split
  · exact .due (execBarrierArrivalCount_keeps _ s)
  · exact .some (execBarrierArrivalCount_keeps _ s)

theorem State.keepsAll_keystoneDue (s : State) (k : Keystone) : s.KeepsAll (s.keystoneDue k) :=
  .ite (.some (execKeystoneCombine_keeps _ s)) (.due (execCombinedRedirectReissue_keeps _ s))

theorem execWalkMigRetry_keeps (n : Nat) (s : State) : s.Keeps (execWalkMigRetry n s) :=
  State.Keeps.next fun h => h

theorem State.keepsAll_lateDue (s : State) : s.KeepsAll s.lateDue :=
  .orElse (.firstOf s.keepsAll_arrivalDue _) <| .orElse (.firstOf s.keepsAll_keystoneDue _) <|
  .orElse (.firstOf (fun _ => .due (execMemoryAccessPerform_keeps _ s)) _) <| .orElse (.firstOf s.keepsAll_copyDue _) <|
  .orElse (.firstOf s.keepsAll_withdrawalDue _) <| .firstOf (fun _ => .due (execWalkMigRetry_keeps _ s)) _

theorem State.memOk_seal {s : State} (h : s.memOk) : s.seal.memOk := h

theorem State.memOk_endTick {s : State} (h : s.memOk) : s.endTick.memOk := by
  unfold State.endTick
  split
  · exact h
  · exact h

/-! ## A head -/

theorem State.memOk_giveBack {s : State} (h : s.memOk) (sid : Nat) : (s.giveBack sid).memOk := by
  unfold State.giveBack
  split <;> exact h

/-- A head tried in a state that has the strand. -/
theorem State.keeps_tried {s w : State} (core sid : Nat) {u : Strand} (hu : w.strand sid = some u) (i : Instr)
    (h : s.memOk → w.memOk) : s.Keeps (tried sid (exec i (w.enter core sid))) := by
  have hc : (w.enter core sid).curStrand = some u := hu
  obtain ⟨v, hv, hk⟩ := exec_keeps hc i
  rw [hv]
  exact State.Keeps.next fun hs => State.memOk_giveBack (hk (h hs)) sid

theorem State.keeps_dispatch {s : State} (core : Nat) {t : Strand} (ht : t ∈ s.strands) : s.Keeps (s.dispatch core t) := by
  have hf := State.fetchHead_fetches s t.ctx t.pc t.seq
  have hs := State.fetchHead_sameSids s t.ctx t.pc t.seq
  have here {w : State} (h : s.SameSids w) (k : s.Fetches w) (i : Instr) :
      s.Keeps (tried t.id.sid (exec i ((w.endFetch t).enter core t.id.sid))) := by
    obtain ⟨u, hu⟩ := h.strand ht
    exact State.keeps_tried core _ (w := w.endFetch t) hu i fun hm => k.memOk hm
  unfold State.dispatch
  dsimp only
  split
  all_goals
    rename_i hx
    rw [hx] at hf hs
  · split
    · exact here hs hf _
    · exact here hs hf _
  · exact here hs hf _
  · rename_i w
    exact State.Keeps.next fun h => show w.memOk from State.Fetches.memOk hf h
  · rename_i w
    obtain ⟨u, hu⟩ := (State.SameSids.of_eq (w := s.keepWait w) rfl).strand ht
    exact State.keeps_tried core _ hu _ fun h => h
  · exact State.Keeps.next fun h => h
  · exact State.Keeps.next fun h => h
  · exact State.Keeps.next fun h => h

/-- A step completes, and keeps memory and the states of lines in their form. -/
theorem step_keeps (s : State) : s.Keeps (step s) := by
  unfold step
  have he := s.keepsAll_eventDue
  split
  · rename_i o ho
    exact he o ho
  split
  · rename_i hp
    exact State.keeps_dispatch _ (State.mem_of_pick hp)
  have hl := s.seal.keepsAll_lateDue
  split
  · rename_i o ho
    obtain ⟨w, hw, hk⟩ := hl o ho
    exact ⟨w, hw, fun h => hk (State.memOk_seal h)⟩
  · exact State.Keeps.next State.memOk_endTick

end Sys2Proof.Machine

open Sys2Proof Sys2Proof.Machine

/-- Settles O7: each of the events, heads and ends of ticks that a step may be has a next state, since the strand that takes the
beat still stands when its head has been fetched. -/
theorem everyStepCompletes : Obligations.EveryStepCompletes := by
  unfold Obligations.EveryStepCompletes
  intro s
  obtain ⟨w, hw, -⟩ := step_keeps s
  exact ⟨w, hw⟩

/-- Settles O8: every write of the model goes through the operations that keep memory and the states of lines in their form. -/
theorem stepKeepsMemory : Obligations.StepKeepsMemory := by
  unfold Obligations.StepKeepsMemory
  intro s s' h hs
  obtain ⟨w, hw, hk⟩ := step_keeps s
  rw [hw] at hs
  cases hs
  exact hk h
end

section
/-!
SUPPORT. The head that stands at a program counter, and the step that dispatches it.
-/

namespace Sys2Proof.Machine

/-! ## Heads tried -/

theorem tried_next (sid : Nat) (s : State) :
    tried sid (.next s) = .next { s with heads :=
      if (s.strands.any fun u => u.id.sid == sid && u.stalled && u.status == .running && u.vfault.isNone) = true then s.heads - 1
      else s.heads } := by
  show Host.Outcome.next (s.giveBack sid) = _
  unfold State.giveBack
  split <;> rfl

theorem step_dispatches {s : State} {core : Nat} {t : Strand} (he : s.eventDue = none) (hp : s.pick = some (core, t)) :
    step s = s.dispatch core t := by
  simp only [step, he, hp]

/-- A head fetched into `w` runs there. -/
theorem runs_of_tried {s w : State} {core : Nat} {t u : Strand} {i : Instr} (hu : w.strand t.id.sid = some u)
    (h : step s = tried t.id.sid (exec i (w.enter core t.id.sid))) :
    ∃ s', exec i (w.enter core t.id.sid) = .next s' ∧
      step s = .next { s' with heads := if (s'.strands.any fun u => u.id.sid == t.id.sid && u.stalled && u.status == .running
        && u.vfault.isNone) = true then s'.heads - 1 else s'.heads } := by
  have hc : (w.enter core t.id.sid).curStrand = some u := hu
  obtain ⟨s', hs, -⟩ := exec_keeps hc i
  exact ⟨s', hs, by rw [h, hs, tried_next]⟩

/-! ## A plain line fetched -/

theorem not_flash_of_hasLines {a : Nat} (h : hasLines a = true) : a ≠ attrFlash := by
  rintro rfl
  cases h

theorem not_slab_of_hasLines {a : Nat} (h : hasLines a = true) : a ≠ attrSlab := by
  rintro rfl
  cases h

/-- What a fetch of a line leaves: the strand's own record of lines alone may change, and it reads what stands there. -/
theorem State.fetched_current {s : State} {t : Strand} (ht : s.strand t.id.sid = some t) {line : Nat} {new : BitVec 512}
    (hb : ∀ x ∈ t.ibuf, x.1 = line → x.2 = new) :
    ∃ w u, s.fetched t.ctx line new = (new, w) ∧ w = { s with strands := w.strands } ∧ w.strand t.id.sid = some u
      ∧ u = { t with ibuf := u.ibuf } ∧ SameOthers s w t.id.sid := by
  have hfind : (s.strands.find? fun u => u.id.sid == t.id.sid) = some t := ht
  unfold State.fetched
  simp only [Strand.ctx, hfind, Option.bind_some]
  cases hx : t.ibuf.find? fun x => x.1 == line with
  | some x =>
    have hnew : x.2 = new := hb x (List.mem_of_find?_eq_some hx) (by simpa using List.find?_some hx)
    dsimp only
    rw [if_pos hnew]
    exact ⟨s, t, rfl, rfl, ht, rfl, fun _ _ => rfl⟩
  | none =>
    refine ⟨_, { t with ibuf := (line, new) :: t.ibuf }, rfl, rfl, ?_, rfl, ?_⟩
    · rw [State.strand_updWhere (p := fun u => u.id.sid == t.id.sid)
        (f := fun u => { u with ibuf := (line, new) :: u.ibuf }) rfl fun _ => rfl, ht]
      simp
    · intro n hn
      rw [State.strand_updWhere (p := fun u => u.id.sid == t.id.sid)
        (f := fun u => { u with ibuf := (line, new) :: u.ibuf }) rfl fun _ => rfl]
      cases hs : s.strand n with
      | none => rfl
      | some v =>
        have hv : v.id.sid ≠ t.id.sid := by rw [strand_sid hs]; exact hn
        simp [hv]

/-- A served access to a page with lines meets a plain line whose home answers. -/
theorem Served.line {s : State} {c : Ctx} {va : Word} {e : TlbEntry} {h : Nat} (hs : Served s c va e h)
    (hl : hasLines (pteAttr e.pte) = true) :
    s.lineState (lineOf h) = some .plain ∧ s.offline (lineOf h) = false ∧ s.unreachable (lineOf h) = false := by
  have hserved := hs.2
  rw [if_neg (not_slab_of_hasLines hl)] at hserved
  obtain ⟨-, hhost | ⟨-, hrest⟩⟩ := hserved
  · rw [hhost] at hl
    cases hl
  · exact hrest

theorem State.fetchLine_plain {s : State} {c : Ctx} {pc va : Word} {e : TlbEntry} {h : Nat} (hv : pc &&& ~~~63 = va)
    (hc : canonical pc = true) (hm : Mapped s c va 64 .fetch e) (hl : hasLines (pteAttr e.pte) = true)
    (hh : h = entryHome e (va52 va)) (hs : Served s c va e h) :
    ∃ x, x = s.fetched c (va52 va / 64) (BitVec.ofNat 512 (Memory.read s.mem h 64)) ∧ s.fetchLine c pc = .ok x.1 x.2 := by
  subst hh
  obtain ⟨hst, ho, hu⟩ := hs.line hl
  have hclosed : s.closed (lineOf (entryHome e (va52 va))) = false := by simp [State.closed, ho, hu]
  have hchase := State.chase_unforwarded (s := s) (c := c) (e := e) (va := va) (by rw [hst]; decide) hclosed va .fetch 3 0
  rw [hst] at hchase
  refine ⟨_, rfl, ?_⟩
  rw [State.fetchLine, if_neg (by rw [hc]; decide)]
  simp only [hv, State.translate_hit va hm.hit hm.permits hm.undenied, Res.bind, if_neg (not_flash_of_hasLines hl),
    if_neg (not_slab_of_hasLines hl), if_pos hl, hchase, State.atHome_served hs]

end Sys2Proof.Machine

open Sys2Proof Sys2Proof.Machine

/-- Settles O6: where no event is due the step is the dispatch of what the fetch finds, and the strand still stands in the state
that the fetch leaves. -/
theorem stepRunsDecoded : Obligations.StepRunsDecoded := by
  unfold Obligations.StepRunsDecoded
  intro s core t he hp
  have hstep := step_dispatches he hp
  have hmem := State.mem_of_pick hp
  have hsids := State.fetchHead_sameSids s t.ctx t.pc t.seq
  have fetched {f : Fetched} {w : State} (hf : s.fetchHead t.ctx t.pc t.seq = .ok f w) : ∃ u, (w.endFetch t).strand t.id.sid = some u := by
    rw [hf] at hsids
    exact State.SameSids.strand hsids hmem
  dsimp only
  refine ⟨?_, ?_, ?_, ?_, ?_, ?_, ?_⟩
  · intro h tail w i hf hd
    obtain ⟨u, hu⟩ := fetched hf
    exact runs_of_tried hu (by rw [hstep, State.dispatch, hf]; simp only [hd])
  · intro h tail w c hf hd
    obtain ⟨u, hu⟩ := fetched hf
    exact runs_of_tried hu (by rw [hstep, State.dispatch, hf]; simp only [hd])
  · intro w hf
    obtain ⟨u, hu⟩ := fetched hf
    exact runs_of_tried hu (by rw [hstep, State.dispatch, hf])
  · intro c a v w hf
    obtain ⟨u, hu⟩ := (State.SameSids.of_eq (w := s.keepWait w) rfl).strand hmem
    exact runs_of_tried hu (by rw [hstep, State.dispatch, hf])
  · intro w hf
    rw [hstep, State.dispatch, hf]
    rfl
  · intro w hf
    rw [hstep, State.dispatch, hf]
    rfl
  · intro e h hc hodd ht hm hl hh hs hb
    obtain ⟨w, u, hw, hrest⟩ := State.fetched_current ht (line := va52 (t.pc &&& ~~~63) / 64) hb
    refine ⟨w, u, ?_, hrest⟩
    obtain ⟨x, hx, hline⟩ := State.fetchLine_plain rfl hc hm hl hh hs
    rw [State.fetchHead, if_neg (by rw [hc]; decide), if_neg (by rw [bitAt, hodd]; decide), hline, hx, hw]
    rfl
end

section
/-!
SUPPORT. Instructions that form a convoy alone: where they wait, how they enter the queue, and the fences.
-/

namespace Sys2Proof.Machine

/-- An instruction that forms a convoy alone, other than a copy, is dispatched the common way. -/
theorem exec_solo {i : Instr} {ops dst : List SReg} (h : soloRegs i = some (ops, dst)) (hc : ¬ CopyForm i) (s : State) :
    exec i s = s.dispatchSolo i ops dst := by
  cases i with
  | cpy a => exact absurd (.inl ⟨a, .inl rfl⟩) hc
  | cpyFl a => exact absurd (.inl ⟨a, .inr (.inl rfl)⟩) hc
  | cpyMove a => exact absurd (.inl ⟨a, .inr (.inr rfl)⟩) hc
  | cpy2d a => exact absurd (.inr ⟨a, rfl⟩) hc
  | acq | rel | fenceG | fenceD | fenceS | winMerge | winClose | syncBind | syncUnbind | barInit | barArr | barArrRlx | barDrop
  | barWait | vwait | winOpen =>
    cases h
    rfl
  | _ => cases h

/-- A copy is dispatched with its token. -/
theorem exec_copy {i : Instr} {ops dst : List SReg} (h : soloRegs i = some (ops, dst)) (hc : CopyForm i) :
    ∃ tok, dst = [tok] ∧ ∀ s, exec i s = s.dispatchCopy i ops tok := by
  obtain ⟨a, rfl | rfl | rfl⟩ | ⟨a, rfl⟩ := hc
  all_goals
    cases h
    exact ⟨a.sd, rfl, fun _ => rfl⟩

theorem Strand.noRoom_false {t : Strand} {i : Instr} (h : ¬ (64 ≤ t.viq.length ∨ t.resultsFull i = true)) : t.noRoom i = false := by
  rw [← Bool.not_eq_true, Strand.noRoom_iff]
  exact fun k => h k.symm

theorem State.dispatchSolo_of {s : State} {t : Strand} (hc : s.curStrand = some t) (i : Instr) (ops dst : List SReg) :
    s.dispatchSolo i ops dst
      = .next (if t.mustWait (ops ++ dst) || t.noRoom i then s.stallClosing t else s.enterSolo t i ops id) :=
  State.withCur_of hc _

theorem State.dispatchCopy_of {s : State} {t : Strand} (hc : s.curStrand = some t) (i : Instr) (ops : List SReg) (tok : SReg) :
    s.dispatchCopy i ops tok
      = .next (if t.mustWait (ops ++ [tok]) || t.noRoom i then s.stallClosing t
        else if t.acc.isSome || s.unfinished t ≥ Config.maxCopies then s.stall t
        else s.enterSolo t i ops fun u => u.pending tok) :=
  State.withCur_of hc _

/-- Behind queued entries, or behind an access on its way, the instruction only enters the queue. -/
theorem State.enterSolo_behind {s : State} {t : Strand} (h : t.viq ≠ [] ∨ t.acc.isSome = true) (i : Instr) (ops : List SReg)
    (mark : Strand → Strand) : s.enterSolo t i ops mark = s.put (mark (entered t i ops)) := by
  unfold State.enterSolo
  dsimp only
  rw [if_neg]
  · rfl
  · rcases h with h | h
    · simp [h]
    · cases ha : t.acc with
      | none => simp [ha] at h
      | some a => simp

/-- Where nothing stands before it, the instruction acts at once. -/
theorem State.enterSolo_first {s : State} {t : Strand} (hv : t.viq = []) (ha : t.acc = none) (i : Instr) (ops : List SReg) :
    s.enterSolo t i ops id = s.performSolo (entered t i ops) (t.entryOf i true ops) := by
  unfold State.enterSolo
  dsimp only
  rw [if_pos (by simp [hv, ha])]
  rfl

theorem State.soloReady_not_convoyReady {s : State} {t : Strand} (h : s.soloReady t = true) : s.convoyReady t = false := by
  unfold State.soloReady at h
  unfold State.convoyReady
  cases hv : t.viq with
  | nil => rfl
  | cons e rest =>
    rw [hv] at h
    have hu : (uses e.vtype e.i).isNone = true := by
      simp only [Bool.and_eq_true] at h
      exact h.1.1.1.2
    have : (uses e.vtype e.i).isSome = false := by
      rw [Option.isNone_iff_eq_none] at hu
      rw [hu]
      rfl
    simp [this]

theorem soloDispatchWaits : SoloDispatchWaits := by
  refine ⟨fun i ops dst s t hi hc => ?_, fun s sid t e rest p ht hv hp hr hready => ?_⟩
  · have hroom (h : ¬ (64 ≤ t.viq.length ∨ t.resultsFull i = true)) := Strand.noRoom_false h
    refine ⟨fun h => ?_, fun hn hf hb => ?_, fun hn hf hv ha => ?_, fun hcopy hf hb => ?_, fun tok hcopy hd hf hv ha hu => ?_⟩
    · have hw : (t.mustWait (ops ++ dst) || t.noRoom i) = true := by
        rw [Bool.or_eq_true, Strand.noRoom_iff]
        exact h.imp_right Or.symm
      by_cases hcopy : CopyForm i
      · obtain ⟨tok, rfl, hx⟩ := exec_copy hi hcopy
        rw [hx, State.dispatchCopy_of hc, if_pos hw]
        rfl
      · rw [exec_solo hi hcopy, State.dispatchSolo_of hc, if_pos hw]
        rfl
    · rw [exec_solo hi hn, State.dispatchSolo_of hc, if_neg (by simp [hf.1, hroom hf.2]), State.enterSolo_behind hb]
      rfl
    · rw [exec_solo hi hn, State.dispatchSolo_of hc, if_neg (by simp [hf.1, hroom hf.2]), State.enterSolo_first hv ha]
      rfl
    · obtain ⟨tok, rfl, hx⟩ := exec_copy hi hcopy
      rw [hx, State.dispatchCopy_of hc, if_neg (by simp [hf.1, hroom hf.2]), if_pos (by simpa [Config.maxCopies] using hb)]
      rfl
    · obtain ⟨tok', rfl, hx⟩ := exec_copy hi hcopy
      cases hd
      rw [hx, State.dispatchCopy_of hc, if_neg (by simp [hf.1, hroom hf.2]), if_neg (by simpa [Config.maxCopies, ha] using hu),
        State.enterSolo_behind (.inl hv)]
      rfl
  · show execConvoyStart sid s = _
    unfold execConvoyStart
    simp only [ht, hv, State.soloReady_not_convoyReady hready, hready, if_true, Bool.false_eq_true, if_false]

/-! ## Fences -/

theorem resultReg_fence {i : Instr} (h : i ∈ [Instr.fenceG, .fenceD, .fenceS]) : resultReg i = none := by
  simp only [List.mem_cons, List.not_mem_nil, or_false] at h
  obtain rfl | rfl | rfl := h <;> rfl

theorem fence_enters {s : State} {t : Strand} (hc : s.curStrand = some t) (hidle : t.idle) {i : Instr}
    (hs : ∀ u, exec i u = u.dispatchSolo i [] []) (hi : resultReg i = none)
    (hp : ∀ (u : State) (v : Strand) (e : Entry), e.i = i → u.performSolo v e = u.put { v with wait := .fence }) :
    exec i s = .next (s.put { entered t i [] with wait := .fence }) := by
  obtain ⟨hv, hq, ha⟩ := hidle
  have hroom : t.noRoom i = false := Strand.noRoom_false (by simp [hv, Strand.resultsFull, hi])
  rw [hs, State.dispatchSolo_of hc, if_neg (by simp [hroom, Strand.mustWait]), State.enterSolo_first hv ha, hp _ _ _ rfl]

theorem Strand.soloDone_fence {t : Strand} {e : Entry} {rest : List Entry} (hw : t.wait = .fence) (hv : t.viq = e :: rest)
    (hi : resultReg e.i = none) : t.soloDone none = firstDone t rest [] := by
  unfold Strand.soloDone
  simp only [hv, hi]
  simp [firstDone, Strand.popped, Strand.otherWait, waitBehind, hw]

theorem fenceResults : FenceResults := by
  refine ⟨fun s t hc hidle i hi => ?_, fun s sid t e rest ht hf hw hv hi => ?_⟩
  · simp only [List.mem_cons, List.not_mem_nil, or_false] at hi
    obtain rfl | rfl | rfl := hi
    all_goals
      refine fence_enters hc hidle (fun _ => rfl) rfl fun u v e he => ?_
      unfold State.performSolo
      simp only [he]
  · show execFenceComplete sid s = _
    unfold execFenceComplete
    have hdone := Strand.soloDone_fence (t := { t with lbuf := [], ibuf := [] }) hw hv (resultReg_fence hi)
    rw [ht]
    dsimp only
    rw [hf]
    cases ha : t.acc.isSome with
    | true => rfl
    | false =>
      split
      · rename_i h
        cases h
      split
      · exact congrArg (fun u => Host.Outcome.next (s.put u)) hdone
      · rename_i h
        exact absurd hw (by simpa using h)

end Sys2Proof.Machine

open Sys2Proof Sys2Proof.Machine

/-- Settles O45: by the two ways of dispatch of instructions that form a convoy alone, and what a fence does there. -/
theorem soloInstructionsAndFences : Obligations.SoloInstructionsAndFences :=
  ⟨soloDispatchWaits, fenceResults⟩
end

section
/-!
SUPPORT. What stopping a gang leaves: its strands are gone, the others and memory as before, its quarters marked.
-/

namespace Sys2Proof.Machine

/-! ## Lists changed where a condition holds -/

theorem find_updWhere {α : Type} (l : List α) (p q : α → Bool) (f : α → α) (hq : ∀ x, q (f x) = q x) :
    (updWhere l p f).find? q = (l.find? q).map fun x => if p x then f x else x := by
  rw [updWhere, List.find?_map]
  congr 2
  funext x
  simp only [Function.comp]
  split
  · exact hq x
  · rfl

theorem updWhere_updWhere {α : Type} (l : List α) (p : α → Bool) (f g : α → α) (hp : ∀ x, p (f x) = p x) :
    updWhere (updWhere l p f) p g = updWhere l p fun x => g (f x) := by
  rw [updWhere, updWhere, updWhere, List.map_map]
  refine List.map_congr_left fun x _ => ?_
  simp only [Function.comp]
  by_cases h : p x = true
  · rw [if_pos h, if_pos (by rw [hp]; exact h), if_pos h]
  · rw [if_neg h, if_neg h, if_neg h]

theorem State.gang_handle {s : State} {h : BitVec 16} {g : Gang} (hg : s.gang h = some g) : g.handle = h := by
  simpa using List.find?_some hg

theorem State.gang_updWhere {s w : State} {h : BitVec 16} {f : Gang → Gang} (hw : w.gangs = updWhere s.gangs (fun x => x.handle == h) f)
    (hf : ∀ x, (f x).handle = x.handle) (n : BitVec 16) : w.gang n = (s.gang n).map fun x => if x.handle == h then f x else x := by
  rw [State.gang, hw, find_updWhere _ _ _ _ fun x => by rw [hf]]
  rfl

/-! ## What is dropped with a gang -/

/-- `w` differs from `s` in requests, copies, lines and services alone, and no request has come in. -/
structure State.Drops (s w : State) : Prop where
  frame : w = { s with
    redirects := w.redirects, svcs := w.svcs, requests := w.requests, keystones := w.keystones, lines := w.lines, copies := w.copies }
  requests : ∀ q ∈ w.requests, q ∈ s.requests

theorem State.Drops.refl (s : State) : s.Drops s := ⟨rfl, fun _ h => h⟩

theorem State.Drops.trans {s w u : State} (h : s.Drops w) (k : w.Drops u) : s.Drops u :=
  ⟨by rw [k.frame, h.frame], fun q hq => h.requests q (k.requests q hq)⟩

theorem State.dropRequest_drops (s : State) (r : Request) : s.Drops (s.dropRequest r) :=
  ⟨rfl, fun _ h => (List.mem_filter.1 h).1⟩

theorem State.dropRequests_drops (s : State) (sids : List Nat) : s.Drops (s.dropRequests sids) :=
  List.foldlRecOn (motive := s.Drops) _ _ (.refl s) fun w h r _ => h.trans (w.dropRequest_drops r)

/-- No request is held at a copy's line in move. -/
theorem State.heldAt_nil {s w : State} (hn : NoneHeld s) (hr : ∀ q ∈ w.requests, q ∈ s.requests) {c : CopyOp} (hc : c ∈ s.copies)
    {m : Moving} (hm : c.moving = some m) : w.heldAt m.src = [] := by
  unfold State.heldAt
  rw [List.filter_eq_nil_iff.2]
  · rfl
  intro q hq hx
  rw [Bool.and_eq_true] at hx
  cases hh : q.held with
  | none => simp [hh] at hx
  | some x =>
    have := hn c hc m hm q (hr q hq) x hh
    simp [hh, this] at hx

theorem State.unmark_drops {s w : State} (hn : NoneHeld s) (hw : s.Drops w) {c : CopyOp} (hc : c ∈ s.copies) :
    s.Drops ((w.endSvc (.copy c.cid)).unmark c) := by
  unfold State.unmark
  split
  · rename_i m hm
    have hnil : ((w.endSvc (.copy c.cid)).setLine m.src .plain).heldAt m.src = [] := State.heldAt_nil hn hw.requests hc hm
    rw [State.serveHeld, hnil, List.foldl_nil]
    exact hw.trans ⟨rfl, fun _ h => h⟩
  · exact hw.trans ⟨rfl, fun _ h => h⟩

theorem State.dropCopies_drops {s w : State} (hn : NoneHeld s) (hw : s.Drops w) (hc : w.copies = s.copies) (sids : List Nat) :
    s.Drops (w.dropCopies sids) := by
  have h1 := List.foldlRecOn (motive := s.Drops) (w.copies.filter fun c => c.owner.any fun o => sids.contains o)
    (fun (a : State) (c : CopyOp) => (a.endSvc (.copy c.cid)).unmark c) hw
    fun a ha c hm => State.unmark_drops hn ha (hc ▸ (List.mem_filter.1 hm).1)
  exact h1.trans ⟨rfl, fun _ h => h⟩

/-- The requests dropped leave the copies. -/
theorem State.dropRequests_copies (s : State) (sids : List Nat) : (s.dropRequests sids).copies = s.copies :=
  List.foldlRecOn (motive := fun (w : State) => w.copies = s.copies) _ _ rfl fun _ h _ _ => h

/-! ## A gang stopped -/

/-- `w` differs from `s` in what belongs to the gang of a handle: its strands are gone, and `f` has changed its entry. -/
def State.Stops (s w : State) (h : BitVec 16) (f : Gang → Gang) : Prop :=
  w = { s with
    redirects := w.redirects, svcs := w.svcs, requests := w.requests, keystones := w.keystones, lines := w.lines
    copies := w.copies, strands := s.strands.filter fun t => t.id.handle != h
    replies := w.replies, barriers := w.barriers, notices := w.notices, vault := w.vault, saves := w.saves, arrivals := w.arrivals
    gangs := updWhere s.gangs (fun x => x.handle == h) f }

/-- What a stop does to the entry of a gang. -/
def Gang.Stopped (f : Gang → Gang) : Prop :=
  ∀ x, f x = { x with bindings := [], state := .failing 0, flags := (f x).flags }

/-- The entry of a gang once it has been stopped: its flags are those of its strands, resident or saved. -/
def State.clearedGang (s : State) (h : BitVec 16) (x : Gang) : Gang :=
  { x with
    bindings := [], state := .failing 0
    flags := ((s.strands.filter fun t => t.id.handle == h) ++ (s.vault.filter fun v => v.handle == h).map Saved.ctx).foldl
      (fun a t => a ||| allLanes t.lflags) x.flags }

theorem State.clearGang_stops {s : State} {h : BitVec 16} {g : Gang} (hg : s.gang h = some g) (hn : NoneHeld s) :
    ∃ f, Gang.Stopped f ∧ s.Stops (s.clearGang h) h f := by
  have hd (sids : List Nat) := State.dropCopies_drops hn (State.dropRequests_drops s sids) (State.dropRequests_copies s sids) sids
  unfold State.clearGang
  simp only [hg]
  have hf := (hd ((s.strands.filter fun t => t.id.handle == h).map fun t => t.id.sid)).frame
  refine ⟨s.clearedGang h, fun x => rfl, ?_⟩
  unfold State.Stops
  rw [hf]
  rfl

theorem State.stopGang_stops {s : State} {h : BitVec 16} {g : Gang} (hg : s.gang h = some g) (hn : NoneHeld s) :
    ∃ f, Gang.Stopped f ∧ s.Stops (s.stopGang h) h f := by
  obtain ⟨f, hf, hw⟩ := State.clearGang_stops hg hn
  refine ⟨f, hf, ?_⟩
  unfold State.stopGang State.Stops
  dsimp only
  rw [hw]

/-! ## Reports and offers -/

theorem State.reportVacates_frame (s : State) :
    s.reportVacates = { s with
      vacates := s.reportVacates.vacates, reports := s.reportVacates.reports, events := s.reportVacates.events } := by
  unfold State.reportVacates
  refine List.foldlRecOn (motive := fun (w : State) =>
    w = { s with vacates := w.vacates, reports := w.reports, events := w.events }) _ _ rfl fun w hw v _ => ?_
  dsimp only
  split
  · exact hw
  · rw [hw]
    rfl

theorem State.offerQueue_frame (s : State) (q : Queue) :
    s.offerQueue q = { s with offers := (s.offerQueue q).offers, queues := (s.offerQueue q).queues } := by
  unfold State.offerQueue
  dsimp only
  split
  · split
    · rfl
    split
    · rfl
    split
    · rfl
    split
    · rfl
    · rfl
  · rfl

theorem State.refreshOffers_frame (s : State) :
    s.refreshOffers = { s with offers := s.refreshOffers.offers, queues := s.refreshOffers.queues } := by
  have h1 : s.queues.foldl State.offerQueue s = { s with
      offers := (s.queues.foldl State.offerQueue s).offers, queues := (s.queues.foldl State.offerQueue s).queues } :=
    List.foldlRecOn (motive := fun (w : State) => w = { s with offers := w.offers, queues := w.queues }) _ _ rfl
      fun w hw q _ => by rw [State.offerQueue_frame, hw]
  unfold State.refreshOffers
  dsimp only
  rw [h1]

/-! ## Quarters made vacant -/

theorem State.vacateSlots_cons (s : State) (n : Nat) (ids : List Nat) :
    s.vacateSlots (n :: ids) = (s.setSlot n (slotEntry 0 0 0 0 0 (s.slot n))).vacateSlots ids := rfl

theorem State.vacateSlots_frame (s : State) (ids : List Nat) :
    s.vacateSlots ids = { s with slots := (s.vacateSlots ids).slots } := by
  induction ids generalizing s with
  | nil => rfl
  | cons n ids ih =>
    rw [State.vacateSlots_cons, ih]
    rfl

theorem slotState_slotEntry_vacant (w : Word) : slotState (slotEntry 0 0 0 0 0 w) = 0 := by
  have h : ∀ p : BitVec 2, fieldNat (0#16 ++ 0#5 ++ 0#5 ++ 0#5 ++ 0#3 ++ p ++ 0#28 : BitVec 64) 30 3 = 0 := by decide
  exact h (slotPart w)

theorem State.slot_vacateSlots_other (s : State) {ids : List Nat} {n : Nat} (h : n ∉ ids) :
    (s.vacateSlots ids).slot n = s.slot n := by
  induction ids generalizing s with
  | nil => rfl
  | cons m ids ih =>
    rw [List.mem_cons, not_or] at h
    rw [State.vacateSlots_cons, ih _ h.2, State.slot_setSlot_other _ _ h.1]

theorem State.slot_setSlot {s : State} (hr : Cells.rising s.slots = true) (n : Nat) (w : Word) : (s.setSlot n w).slot n = w := by
  rw [State.slot, State.setSlot, Cells.find_put_same hr]
  split
  · rename_i h
    exact h.symm
  · rfl

theorem State.rising_setSlot {s : State} (hr : Cells.rising s.slots = true) (n : Nat) (w : Word) :
    Cells.rising (s.setSlot n w).slots = true :=
  Cells.rising_put hr _ _

/-- A slot made vacant reads STATE 0. -/
theorem State.slotState_vacateSlots (s : State) (hr : Cells.rising s.slots = true) {ids : List Nat} {n : Nat} (h : n ∈ ids) :
    slotState ((s.vacateSlots ids).slot n) = 0 := by
  induction ids generalizing s with
  | nil => cases h
  | cons m ids ih =>
    rw [State.vacateSlots_cons]
    by_cases hn : n ∈ ids
    · exact ih _ (State.rising_setSlot hr _ _) hn
    · obtain rfl := (List.mem_cons.mp h).resolve_right hn
      rw [State.slot_vacateSlots_other _ hn, State.slot_setSlot hr, slotState_slotEntry_vacant]

end Sys2Proof.Machine
end

section
/-!
SUPPORT. A gang stopped for good, put back in its queue or rolled back.
-/

namespace Sys2Proof.Machine

section
variable {s w : State} {h : BitVec 16} {f : Gang → Gang} (k : s.Stops w h f)
include k

theorem State.Stops.strands : w.strands = s.strands.filter fun t => t.id.handle != h := by
  unfold State.Stops at k
  rw [k]

theorem State.Stops.mem : w.mem = s.mem := by
  unfold State.Stops at k
  rw [k]

theorem State.Stops.slots : w.slots = s.slots := by
  unfold State.Stops at k
  rw [k]

theorem State.Stops.cards : w.cards = s.cards := by
  unfold State.Stops at k
  rw [k]

theorem State.Stops.gangs : w.gangs = updWhere s.gangs (fun x => x.handle == h) f := by
  unfold State.Stops at k
  rw [k]

end

/-- The slots a gang's task holds stand with its card. -/
theorem State.slotsOf_congr {s w : State} {g g' : Gang} (hb : g'.bind = g.bind) (hh : g'.holds = g.holds)
    (hs : w.sizeOf g' = s.sizeOf g) : w.slotsOf g' = s.slotsOf g := by
  rw [State.slotsOf, State.slotsOf, hb, hh, hs]

theorem State.sizeOf_congr {s w : State} {g g' : Gang} (hc : g'.card = g.card) (hw : w.cards = s.cards) : w.sizeOf g' = s.sizeOf g := by
  rw [State.sizeOf, State.sizeOf, State.cardOf, State.cardOf, hw, hc]

theorem State.cardOf_updWhere {s w : State} {p : Card → Bool} {f : Card → Card} (hw : w.cards = updWhere s.cards p f)
    (hf : ∀ c, (f c).cid = c.cid) (g : Gang) : w.cardOf g = (s.cardOf g).map fun c => if p c then f c else c := by
  rw [State.cardOf, hw, find_updWhere _ _ _ _ fun c => by rw [hf c]]
  rfl

/-- Changes of cards that keep their numbers and bits leave the sizes of gangs. -/
theorem State.sizeOf_updWhere {s w : State} {p : Card → Bool} {f : Card → Card} (hw : w.cards = updWhere s.cards p f)
    (hf : ∀ c, (f c).cid = c.cid ∧ (f c).bits = c.bits) (g : Gang) : w.sizeOf g = s.sizeOf g := by
  have hbits (c : Card) : (if p c then f c else c).bits = c.bits := by
    split
    · exact (hf c).2
    · rfl
  rw [State.sizeOf, State.sizeOf, State.cardOf_updWhere hw fun c => (hf c).1]
  cases s.cardOf g with
  | none => rfl
  | some c => simp only [Option.map_some, hbits]

/-- A state in which a gang's strands are gone and its quarters marked. -/
theorem gangGone_of {s w : State} {g : Gang} {code : Nat} (hs : w.strands = s.strands.filter fun t => t.id.handle != g.handle)
    (hm : Cells.rising s.slots = true → ∀ n ∈ s.slotsOf g, slotState (w.slot n) = code) : GangGone s w g code := by
  refine ⟨fun t ht => ?_, fun t ht hn => ?_, hm⟩
  · rw [hs, List.mem_filter] at ht
    simpa using ht.2
  · rw [hs, List.mem_filter]
    exact ⟨ht, by simpa using hn⟩

section
variable (s : State)

@[simp] theorem State.reportVacates_strands : s.reportVacates.strands = s.strands := by rw [State.reportVacates_frame]
@[simp] theorem State.reportVacates_mem : s.reportVacates.mem = s.mem := by rw [State.reportVacates_frame]
@[simp] theorem State.reportVacates_slots : s.reportVacates.slots = s.slots := by rw [State.reportVacates_frame]
@[simp] theorem State.reportVacates_cards : s.reportVacates.cards = s.cards := by rw [State.reportVacates_frame]
@[simp] theorem State.reportVacates_gangs : s.reportVacates.gangs = s.gangs := by rw [State.reportVacates_frame]

@[simp] theorem State.refreshOffers_strands : s.refreshOffers.strands = s.strands := by rw [State.refreshOffers_frame]
@[simp] theorem State.refreshOffers_mem : s.refreshOffers.mem = s.mem := by rw [State.refreshOffers_frame]
@[simp] theorem State.refreshOffers_slots : s.refreshOffers.slots = s.slots := by rw [State.refreshOffers_frame]
@[simp] theorem State.refreshOffers_cards : s.refreshOffers.cards = s.cards := by rw [State.refreshOffers_frame]
@[simp] theorem State.refreshOffers_gangs : s.refreshOffers.gangs = s.gangs := by rw [State.refreshOffers_frame]

variable (ids : List Nat)

@[simp] theorem State.markSlots_strands (code : BitVec 3) : (s.markSlots ids code).strands = s.strands := by
  rw [State.markSlots_frame]
@[simp] theorem State.markSlots_cards (code : BitVec 3) : (s.markSlots ids code).cards = s.cards := by rw [State.markSlots_frame]
@[simp] theorem State.markSlots_gangs (code : BitVec 3) : (s.markSlots ids code).gangs = s.gangs := by rw [State.markSlots_frame]

@[simp] theorem State.vacateSlots_strands : (s.vacateSlots ids).strands = s.strands := by rw [State.vacateSlots_frame]
@[simp] theorem State.vacateSlots_mem : (s.vacateSlots ids).mem = s.mem := by rw [State.vacateSlots_frame]
@[simp] theorem State.vacateSlots_cards : (s.vacateSlots ids).cards = s.cards := by rw [State.vacateSlots_frame]
@[simp] theorem State.vacateSlots_gangs : (s.vacateSlots ids).gangs = s.gangs := by rw [State.vacateSlots_frame]

end

theorem State.slot_congr {s w : State} (h : w.slots = s.slots) (n : Nat) : w.slot n = s.slot n := by
  rw [State.slot, State.slot, h]

/-- A gang stopped for good. -/
theorem State.failGang_failed {s : State} {g : Gang} (hg : s.gang g.handle = some g) (hn : NoneHeld s) (status : Nat) :
    Failed s (s.failGang g.handle status) g status := by
  obtain ⟨f, hf, hw⟩ := State.stopGang_stops hg hn
  unfold State.failGang
  simp only [hg]
  refine ⟨gangGone_of ?_ fun _ n hm => ?_, ?_, ?_, ?_⟩
  · simp [State.setGang, hw.strands]
  · rw [State.slot_congr (State.reportVacates_slots _), State.slotState_markSlots _ (by decide) hm]
    rfl
  · simp [State.setGang, hw.mem]
  · have hh (x : Gang) : (f x).handle = x.handle := by rw [hf x]
    have hgangs : (((s.stopGang g.handle).setGang g.handle fun x =>
        { x with state := .failing status, bind := if (s.slotsOf g).isEmpty then 0 else x.bind }).markSlots
          (s.slotsOf g) 5).reportVacates.gangs = updWhere s.gangs (fun x => x.handle == g.handle) fun x =>
            { f x with state := .failing status, bind := if (s.slotsOf g).isEmpty then 0 else (f x).bind } := by
      rw [State.reportVacates_gangs, State.markSlots_gangs]
      show updWhere (s.stopGang g.handle).gangs _ _ = _
      rw [hw.gangs, updWhere_updWhere _ _ _ _ fun x => by rw [hh]]
    rw [State.gang_updWhere hgangs hh, hg]
    simp
  · simp [State.setGang, hw.cards]

theorem mem_insertTask (g : Nat) (l : List Nat) : g ∈ insertTask g l := by
  induction l with
  | nil => exact List.mem_cons_self
  | cons x xs ih =>
    unfold insertTask
    split
    · exact List.mem_cons_of_mem _ ih
    · exact List.mem_cons_self

/-- A gang's quarters made vacant: only the slot table and the gang's entry change. -/
theorem State.release_of {s : State} {g : Gang} (hg : s.gang g.handle = some g) :
    s.release g.handle = (s.vacateSlots (s.slotsOf g)).setGang g.handle fun x => { x with bind := 0 } := by
  unfold State.release
  simp only [hg]

theorem State.release_frame {s : State} {g : Gang} (hg : s.gang g.handle = some g) :
    s.release g.handle = { s with
      slots := (s.vacateSlots (s.slotsOf g)).slots
      gangs := updWhere s.gangs (fun x => x.handle == g.handle) fun x => { x with bind := 0 } } := by
  rw [State.release_of hg, State.vacateSlots_frame]
  rfl

theorem State.gang_release {s : State} {g : Gang} (hg : s.gang g.handle = some g) :
    (s.release g.handle).gang g.handle = some { g with bind := 0 } := by
  have hgangs : (s.release g.handle).gangs = updWhere s.gangs (fun x => x.handle == g.handle) fun x => { x with bind := 0 } := by
    rw [State.release_frame hg]
  rw [State.gang_updWhere hgangs fun _ => rfl, hg]
  simp

theorem noneHeld_congr {s w : State} (hn : NoneHeld s) (hc : w.copies = s.copies) (hr : w.requests = s.requests) : NoneHeld w := by
  unfold NoneHeld
  rw [hc, hr]
  exact hn

/-- A gang's quarters are vacant and its strands gone. -/
theorem State.release_stop_gone {s w : State} {g : Gang} (hg : s.gang g.handle = some g) {f : Gang → Gang}
    (hw : (s.release g.handle).Stops w g.handle f) : w.strands = (s.strands.filter fun t => t.id.handle != g.handle)
      ∧ w.mem = s.mem ∧ w.cards = s.cards
      ∧ (Cells.rising s.slots = true → ∀ n ∈ s.slotsOf g, slotState (w.slot n) = 0) := by
  have hr := State.release_frame hg
  refine ⟨by rw [hw.strands, hr], by rw [hw.mem, hr], by rw [hw.cards, hr], fun hrise n hm => ?_⟩
  rw [State.slot_congr hw.slots, State.slot_congr (w := s.release g.handle) (s := s.vacateSlots (s.slotsOf g)) (by rw [hr])]
  exact State.slotState_vacateSlots s hrise hm

theorem find_filter_none (l : List Gang) (h : BitVec 16) : (l.filter fun x => x.handle != h).find? (fun x => x.handle == h) = none := by
  rw [List.find?_eq_none]
  intro x hx
  rw [List.mem_filter] at hx
  simpa using hx.2

/-- A task put back in its queue, once offers and reports have been brought up to date. -/
theorem requeued_of {s w : State} {g : Gang} (h1 : w.strands = s.strands.filter fun t => t.id.handle != g.handle)
    (h2 : w.mem = s.mem) (h3 : w.gang g.handle = none)
    (h4 : w.cards = updWhere s.cards (fun c => c.cid == g.card && g.started) fun c => { c with requeue := insertTask g.g c.requeue })
    (h5 : Cells.rising s.slots = true → ∀ n ∈ s.slotsOf g, slotState (w.slot n) = 0) :
    Requeued s w.reportVacates.refreshOffers g := by
  refine ⟨gangGone_of (by simp [h1]) fun hr n hm => ?_, by simp [h2], ?_, fun c hc hcid => ?_⟩
  · rw [State.slot_congr (w := w.reportVacates.refreshOffers) (s := w) (by simp)]
    exact h5 hr n hm
  · rw [State.gang, State.refreshOffers_gangs, State.reportVacates_gangs]
    exact h3
  · refine ⟨if (c.cid == g.card && g.started) = true then { c with requeue := insertTask g.g c.requeue } else c, ?_, ?_, fun hst => ?_⟩
    · rw [State.refreshOffers_cards, State.reportVacates_cards, h4]
      exact List.mem_map_of_mem hc
    · split <;> rfl
    · rw [if_pos (by simp [hcid, hst])]
      exact mem_insertTask _ _

/-- A gang put back in its queue. -/
theorem State.requeueGang_requeued {s : State} {g : Gang} (hg : s.gang g.handle = some g) (hn : NoneHeld s) :
    Requeued s (s.requeueGang g.handle) g := by
  have hr := State.release_frame hg
  obtain ⟨f, hf, hw⟩ := State.stopGang_stops (State.gang_release hg) (noneHeld_congr hn (w := s.release g.handle) (by rw [hr]) (by rw [hr]))
  obtain ⟨hstrands, hmem, hcards, hslots⟩ := State.release_stop_gone hg hw
  have hnone : (((s.release g.handle).stopGang g.handle).forgetGang g.handle).gang g.handle = none := find_filter_none _ _
  have hc : updWhere (((s.release g.handle).stopGang g.handle).forgetGang g.handle).cards (fun c => c.cid == g.card && g.started)
      (fun c => { c with requeue := insertTask g.g c.requeue })
      = updWhere s.cards (fun c => c.cid == g.card && g.started) fun c => { c with requeue := insertTask g.g c.requeue } :=
    congrArg (fun l => updWhere l _ _) hcards
  unfold State.requeueGang
  simp only [hg]
  split
  · exact requeued_of hstrands hmem hnone hc hslots
  · exact requeued_of hstrands hmem hnone hc hslots

/-! ## Rollback -/

theorem Gang.failing_iff (g : Gang) : g.failing = true ↔ ∃ n, g.state = .failing n := by
  unfold Gang.failing
  split
  · rename_i n h
    exact ⟨fun _ => ⟨n, h⟩, fun _ => rfl⟩
  · rename_i h
    exact ⟨fun k => Bool.noConfusion k, fun ⟨n, hn⟩ => absurd hn (h n)⟩

theorem gangGone_congr {s s' w : State} {g : Gang} {code : Nat} (h : GangGone s' w g code) (hs : s'.strands = s.strands)
    (hsl : s'.slots = s.slots) (hz : s'.sizeOf g = s.sizeOf g) : GangGone s w g code := by
  obtain ⟨gone, others, slots⟩ := h
  refine ⟨gone, fun t ht => others t (hs ▸ ht), fun hr n hm => slots (hsl ▸ hr) n ?_⟩
  rw [State.slotsOf_congr rfl rfl hz]
  exact hm

/-- A soft error counted in the card of a gang. -/
def State.countRolled (s : State) (g : Gang) : State :=
  { s with cards := updWhere s.cards (fun c => c.cid == g.card) fun c => { c with rolled := g.g :: c.rolled } }

theorem State.sizeOf_countRolled (s : State) (g : Gang) : (s.countRolled g).sizeOf g = s.sizeOf g :=
  State.sizeOf_updWhere (p := fun c => c.cid == g.card) (f := fun c => { c with rolled := g.g :: c.rolled }) rfl
    (fun _ => ⟨rfl, rfl⟩) g

theorem State.cardOf_countRolled {s : State} {g : Gang} {c : Card} (hc : s.cardOf g = some c) :
    (s.countRolled g).cardOf g = some { c with rolled := g.g :: c.rolled } := by
  have hcid : c.cid = g.card := by simpa using List.find?_some hc
  rw [State.cardOf_updWhere (p := fun c => c.cid == g.card) (f := fun c => { c with rolled := g.g :: c.rolled }) rfl
    (fun _ => rfl) g, hc]
  simp [hcid]

/-- A rollback of a gang that has not been stopped for good. -/
theorem State.rollback_of {s : State} {g : Gang} (hg : s.gang g.handle = some g) (hf : g.failing = false) (counts : Bool) :
    s.rollback g.handle counts = if !s.rerunnable g then s.failGang g.handle 3 else
      let s1 : State := if counts then s.countRolled g else s
      let n : Nat := ((s1.cardOf g).map fun c => (c.rolled.filter fun x => x == g.g).length).getD 0
      if n ≥ 3 then s1.failGang g.handle 3 else s1.requeueGang g.handle := by
  unfold State.rollback
  simp only [hg]
  cases hs : g.state with
  | failing n =>
    rw [Gang.failing, hs] at hf
    cases hf
  | bound | running | saving | saved => rfl

theorem State.rollback_counted {s : State} {g : Gang} {c : Card} (hg : s.gang g.handle = some g) (hf : g.failing = false)
    (hc : s.cardOf g = some c) (hn : NoneHeld s) : RolledBack s (s.rollback g.handle true) g c := by
  have hcid : c.cid = g.card := by simpa using List.find?_some hc
  have hn1 : NoneHeld (s.countRolled g) := hn
  have hg1 : (s.countRolled g).gang g.handle = some g := hg
  have hz := s.sizeOf_countRolled g
  have hre : s.rerunnable g = cardRerun c.bits := by
    rw [State.rerunnable, hc]
    rfl
  have hroll := State.rollback_of hg hf true
  rw [hre] at hroll
  by_cases hr : cardRerun c.bits = true
  · have hcount : (((s.countRolled g).cardOf g).map fun c => (c.rolled.filter fun x => x == g.g).length).getD 0
        = (c.rolled.filter fun x => x == g.g).length + 1 := by
      rw [State.cardOf_countRolled hc]
      simp
    rw [if_neg (by simp [hr])] at hroll
    dsimp only at hroll
    rw [if_pos rfl, hcount] at hroll
    by_cases hl : (c.rolled.filter fun x => x == g.g).length < 2
    · rw [if_neg (by omega)] at hroll
      rw [RolledBack, if_pos ⟨hr, hl⟩, hroll]
      obtain ⟨hgone, hmem, hnone, hcards⟩ := State.requeueGang_requeued hg1 hn1
      refine ⟨gangGone_congr hgone rfl rfl hz, hmem, hnone, fun x hx hxc => ?_⟩
      obtain ⟨x', hx', hcid', hreq⟩ := hcards (if x.cid == g.card then { x with rolled := g.g :: x.rolled } else x)
        (List.mem_map_of_mem hx) (by split <;> exact hxc)
      exact ⟨x', hx', by rw [hcid']; split <;> rfl, hreq⟩
    · rw [if_pos (by omega)] at hroll
      rw [RolledBack, if_neg fun k => hl k.2, hroll]
      obtain ⟨hgone, hmem, hstate, -⟩ := State.failGang_failed hg1 hn1 3
      exact ⟨gangGone_congr hgone rfl rfl hz, hmem, hstate⟩
  · rw [if_pos (by simpa using hr)] at hroll
    rw [RolledBack, if_neg fun k => hr k.1, hroll]
    obtain ⟨hgone, hmem, hstate, -⟩ := State.failGang_failed hg hn 3
    exact ⟨hgone, hmem, hstate⟩

/-! ## A gang freed -/

/-- A gang whose task has completed: nothing of it is left. -/
theorem State.freeGang_gone {s : State} {g : Gang} (hg : s.gang g.handle = some g) (hn : NoneHeld s) :
    GangGone s (s.freeGang g.handle) g 0 ∧ (s.freeGang g.handle).mem = s.mem ∧ (s.freeGang g.handle).cards = s.cards
      ∧ (s.freeGang g.handle).gang g.handle = none := by
  have hr := State.release_frame hg
  obtain ⟨f, hf, hw⟩ := State.clearGang_stops (State.gang_release hg) (noneHeld_congr hn (w := s.release g.handle) (by rw [hr]) (by rw [hr]))
  obtain ⟨hstrands, hmem, hcards, hslots⟩ := State.release_stop_gone hg hw
  unfold State.freeGang
  refine ⟨gangGone_of ?_ fun hrise n hm => ?_, ?_, ?_, ?_⟩
  · rw [State.reportVacates_strands]
    exact hstrands
  · rw [State.slot_congr (State.reportVacates_slots _)]
    exact hslots hrise n hm
  · rw [State.reportVacates_mem]
    exact hmem
  · rw [State.reportVacates_cards]
    exact hcards
  · rw [State.gang, State.reportVacates_gangs]
    exact find_filter_none _ _

end Sys2Proof.Machine
end

section
/-!
SUPPORT. Soft errors, timeouts and replacements.
-/

namespace Sys2Proof.Machine

/-! ## Soft errors -/

theorem rolledBack_congr {s s' w : State} {g : Gang} {c : Card} (h : RolledBack s' w g c) (hs : s'.strands = s.strands)
    (hsl : s'.slots = s.slots) (hc : s'.cards = s.cards) (hm : s'.mem = s.mem) : RolledBack s w g c := by
  have hz : s'.sizeOf g = s.sizeOf g := State.sizeOf_congr rfl hc
  unfold RolledBack at h ⊢
  split
  · rename_i hif
    rw [if_pos hif] at h
    obtain ⟨hgone, hmem, hnone, hcards⟩ := h
    exact ⟨gangGone_congr hgone hs hsl hz, hmem.trans hm, hnone, hc ▸ hcards⟩
  · rename_i hif
    rw [if_neg hif] at h
    obtain ⟨hgone, hmem, hstate⟩ := h
    exact ⟨gangGone_congr hgone hs hsl hz, hmem.trans hm, hstate⟩

/-- A recorded soft error rolls its gang back. -/
theorem State.rollback_recorded {s : State} {g : Gang} {c : Card} (hg : s.gang g.handle = some g) (hf : g.failing = false)
    (hc : s.cardOf g = some c) (hn : NoneHeld s) (src : Source) (d : BitVec 128) :
    RolledBack s ((s.record src .softError d).rollback g.handle true) g c :=
  rolledBack_congr (State.rollback_counted (s := s.record src .softError d) hg hf hc hn) rfl rfl rfl rfl

theorem ofNat_handle (h : BitVec 16) : BitVec.ofNat 16 h.toNat = h := by simp

/-- The lines that hold a soft error, and one more. -/
theorem execSoftError_line (s : State) (l : Nat) : ∃ s', execSoftError (.line l) s = .next s'
    ∧ s' = { s with soft := s'.soft, events := s'.events } ∧ ∀ x, x ∈ s'.soft ↔ x = l ∨ x ∈ s.soft := by
  refine ⟨_, rfl, rfl, fun x => ?_⟩
  show x ∈ (if s.soft.contains l then s.soft else l :: s.soft) ↔ _
  split
  · rename_i h
    have hl : l ∈ s.soft := by simpa using h
    exact ⟨.inr, fun k => k.elim (fun e => e ▸ hl) id⟩
  · exact List.mem_cons

theorem exec_softError (what : Struck) (s : State) : exec (.softError what) s = execSoftError what s := rfl

theorem softErrors : SoftErrors := by
  refine ⟨fun s g c hg hf hc hn => ⟨?_, fun sid t ht hh => ?_, fun k v hv hh => ?_⟩, execSoftError_line, fun s ks n hk => ?_⟩
  · simp only [exec_softError, execSoftError, ofNat_handle, hg]
    exact ⟨_, rfl, State.rollback_recorded hg hf hc hn _ _⟩
  · simp only [exec_softError, execSoftError, ht, hh]
    exact ⟨_, rfl, State.rollback_recorded hg hf hc hn _ _⟩
  · have hv' : s.vault.find? (fun v => !v.spilled && v.slots.contains k) = some v := by
      rw [← hv]
      congr 1
      funext x
      exact Bool.and_comm _ _
    simp only [exec_softError, execSoftError, hv', hh]
    exact ⟨_, rfl, State.rollback_recorded hg hf hc hn _ _⟩
  · rw [exec_softError]
    have hnone : ((s.keystones.find? fun k => k.ks == ks).bind fun k => k.buf[n]?) = none := by
      cases hx : s.keystones.find? fun k => k.ks == ks with
      | none => rfl
      | some k => exact List.getElem?_eq_none (hk k (List.mem_of_find?_eq_some hx) (by simpa using List.find?_some hx))
    simp only [execSoftError, hnone]

/-! ## Timeouts and replacements -/

theorem heldTooLong_one {s : State} {n l since : Nat} (h : s.heldAccesses = [(n, l, since)]) (hl : l ∉ s.soft) :
    s.heldTooLong n = if s.offline l = true ∧ 600000 < s.tick - since then some l else none := by
  have hs : s.soft.contains l = false := by simpa using hl
  rw [State.heldTooLong, h, List.find?_singleton]
  by_cases h1 : s.offline l = true
  · simp [h1, hl, beatsPerMs, apply_ite (Option.map _)]
  · simp [h1]

theorem unroutedTooLong_one {s : State} {n l since : Nat} (h : s.heldAccesses = [(n, l, since)]) (hl : l ∉ s.soft) :
    s.unroutedTooLong n = if s.unreachable l = true ∧ 600000 ≤ s.tick - since then some l else none := by
  have hs : s.soft.contains l = false := by simpa using hl
  rw [State.unroutedTooLong, h, List.find?_singleton]
  by_cases h1 : s.unreachable l = true
  · simp [h1, hl, beatsPerMs, apply_ite (Option.map _)]
  · simp [h1]

theorem hang_of {s : State} {g : Gang} (hg : s.gang g.handle = some g) (hr : g.state = .running) (hw : s.watchdog ≠ 0) :
    exec (.hangWatchdogExpiry g.handle.toNat) s = .next (if g.idle = s.watchdog then { s with
        reports := s.reports ++ [.hang g.handle]
        gangs := updWhere s.gangs (fun x => x.handle == g.handle) fun x => { x with idle := x.idle + 1 } }
      else s) := by
  show execHangWatchdogExpiry _ s = _
  have hw' : (s.watchdog != 0) = true := by simpa using hw
  simp only [execHangWatchdogExpiry, ofNat_handle, hg, hr, hw', beq_self_eq_true, Bool.true_and, beq_iff_eq]
  rfl

theorem timeoutsAndReplacements : TimeoutsAndReplacements := by
  refine ⟨fun s g => hang_of, fun s n l since hh hl => ⟨fun h => ?_, fun h => ?_, fun h => ?_, fun h => ?_⟩,
    fun s asid base len page sid line t ht => ⟨?_, ?_, ?_⟩⟩
  · show ∃ s', execHeldRequestTimeout n s = _ ∧ _
    rw [execHeldRequestTimeout, heldTooLong_one hh hl, if_pos h]
    exact execSoftError_line s l
  · show execHeldRequestTimeout n s = _
    rw [execHeldRequestTimeout, heldTooLong_one hh hl, if_neg h]
  · show ∃ s', execRouteTimeout n s = _ ∧ _
    rw [execRouteTimeout, unroutedTooLong_one hh hl, if_pos h]
    exact execSoftError_line s l
  · show execRouteTimeout n s = _
    rw [execRouteTimeout, unroutedTooLong_one hh hl, if_neg h]
  · refine ⟨_, rfl, ?_, fun e => ?_⟩
    · split <;> rfl
    · have htlb (w : State) (b : Bool) (bl : List Nat) : (if b then { w with blocked := bl } else w).tlb = w.tlb := by
        cases b <;> rfl
      rw [htlb, List.mem_filter]
      simp only [rangesMeet, Bool.not_eq_true', Bool.and_eq_false_iff, beq_eq_false_iff_ne, decide_eq_false_iff_not]
      grind
  · refine ⟨_, rfl, rfl, fun e => ?_⟩
    rw [List.mem_filter]
    simp only [Bool.not_eq_true', Bool.and_eq_false_iff, beq_eq_false_iff_ne, decide_eq_false_iff_not]
    grind
  · show execLineBufferReplacement sid line s = _
    rw [execLineBufferReplacement, ht]

end Sys2Proof.Machine

open Sys2Proof Sys2Proof.Machine

/-- Settles O57: by the rollback of a gang, and what each timeout and replacement reads. -/
theorem errorsAndTimeouts : Obligations.ErrorsAndTimeouts :=
  ⟨softErrors, timeoutsAndReplacements⟩
end

section
/-!
SUPPORT. Words written from outside, the retiring of strands and the completion of tasks.
-/

namespace Sys2Proof.Machine

/-! ## Words and blocks written from outside -/

/-- A write where its line is plain leaves what other accesses from outside meet. -/
theorem outsideAt_writeHome {s : State} {asid : BitVec 16} {va : Word} {n h : Nat} {need : Need} (ho : OutsideAt s asid va n need h)
    {hb : Nat} (hp : hasLines (homeAttr hb) = true → s.lineState (lineOf hb) = some .plain) (bs : List Byte) :
    OutsideAt (s.writeHome hb bs) asid va n need h := by
  obtain ⟨e, hm, ⟨hcalm, hs⟩⟩ := ho
  have hline := State.lineState_writeHome hp bs
  have hf := State.writeHome_frame s hb bs
  generalize s.writeHome hb bs = w at hf hline
  have hctx : w.outsideCtx asid = s.outsideCtx asid := by rw [hf]; rfl
  refine ⟨e, ⟨hm.canon, hm.aligned, ?_, hm.permits, ?_⟩, ?_, ?_⟩
  · rw [hctx, hf]
    exact hm.hit
  · rw [hctx, hf]
    exact hm.undenied
  · rw [hctx, hf]
    exact hcalm
  · split
    · rename_i hx
      rw [if_pos hx] at hs
      rw [hctx, hf]
      exact hs
    · rename_i hx
      rw [if_neg hx] at hs
      refine ⟨hs.1, hs.2.imp_right fun hl => ⟨hl.1, ?_, ?_⟩⟩
      · rw [hline]
        exact hl.2.1
      · rw [hf]
        exact hl.2.2

/-- A word or block written from outside where it answers. -/
theorem outsideAt_writes {s : State} {asid : BitVec 16} {va : Word} {h : Nat} {bs : List Byte}
    (ho : OutsideAt s asid va bs.length .write h) (hl : bs.length ≠ 128) :
    s.writeBytes (s.outsideCtx asid) va bs = .ok () (s.writeHome h bs) := by
  obtain ⟨e, hm, hs⟩ := ho
  exact State.writeBytes_served hm hs hl

theorem outsideAt_plain {s : State} {asid : BitVec 16} {va : Word} {n h : Nat} {need : Need} (ho : OutsideAt s asid va n need h) :
    hasLines (homeAttr h) = true → s.lineState (lineOf h) = some .plain := by
  obtain ⟨e, hm, hs⟩ := ho
  exact hs.plain

@[simp] theorem length_wordBytes (n : Nat) {w : Nat} (x : BitVec w) : (wordBytes n x).length = n :=
  length_leBytes n x.toNat

theorem writeHome_wordBytes_mem (s : State) (h : Nat) (x : Word) :
    (s.writeHome h (wordBytes 8 x)).mem = Memory.write s.mem h 8 x.toNat :=
  State.writeHome_mem s h _

theorem wordAt_writeHome {s : State} (hm : s.memOk) (h : Nat) (x : Word) : wordAt (s.writeHome h (wordBytes 8 x)) h = x := by
  rw [wordAt, writeHome_wordBytes_mem, Memory.read_write_same hm.1]
  apply BitVec.eq_of_toNat_eq
  simpa using x.isLt

theorem wordAt_writeHome_apart (s : State) {h a : Nat} (x : Word) (ha : a + 8 ≤ h ∨ h + 8 ≤ a) :
    wordAt (s.writeHome h (wordBytes 8 x)) a = wordAt s a := by
  rw [wordAt, writeHome_wordBytes_mem, Memory.read_write_apart _ _ _ _ _ _ ha, wordAt]

theorem get_writeHome_apart (s : State) {h a : Nat} (x : Word) (ha : a < h ∨ h + 8 ≤ a) :
    Memory.get (s.writeHome h (wordBytes 8 x)).mem a = Memory.get s.mem a := by
  rw [State.writeHome_mem]
  exact Memory.get_fill_other _ _ _ (by simpa using ha)

/-! ## Strands retire -/

theorem getLsbD_foldl_or {α : Type} (l : List α) (f : α → BitVec 7) (a : BitVec 7) (b : Nat) :
    (l.foldl (fun a x => a ||| f x) a).getLsbD b = (a.getLsbD b || l.any fun x => (f x).getLsbD b) := by
  induction l generalizing a with
  | nil => simp
  | cons x l ih => rw [List.foldl_cons, ih, BitVec.getLsbD_or, List.any_cons, Bool.or_assoc]

theorem getLsbD_allLanes (lf : BitVec 2048) {b : Nat} (hb : b < 7) :
    (allLanes lf).getLsbD b = (List.range 256).any fun l => lf.getLsbD (8 * l + b) := by
  rw [allLanes, getLsbD_foldl_or]
  simp [hb]

theorem State.retires_iff (s : State) (t : Strand) : s.retires t = true ↔ t.status = .ending ∧ t.viq = [] ∧ t.rq = []
    ∧ t.acc = none ∧ t.vfault = none ∧ t.tokp = 0 ∧ s.copiesOf t.id.sid = [] := by
  simp [State.retires, and_assoc]

/-- What retiring leaves: the strand ended, its flags with the task's, its quarters marked. -/
theorem strandRetires : StrandRetires := by
  intro s sid t ht
  have hsid := strand_sid ht
  refine ⟨fun h1 h2 h3 h4 h5 h6 h7 => ?_, fun h => ?_⟩
  · have hr : s.retires t = true := (s.retires_iff t).2 ⟨h1, h2, h3, h4, h5, h6, hsid ▸ h7⟩
    have hexec : exec (.strandRetire sid) s = .next (((s.setGang t.id.handle fun g =>
        { g with flags := g.flags ||| allLanes t.lflags }).put { t with status := .ended }).markSlots t.slotIds 3) := by
      show execStrandRetire sid s = _
      simp only [execStrandRetire, ht, hr, Bool.not_true, Bool.false_eq_true, if_false]
    have hgang (n : BitVec 16) : (((s.setGang t.id.handle fun g => { g with flags := g.flags ||| allLanes t.lflags }).put
        { t with status := .ended }).markSlots t.slotIds 3).gang n
          = (s.gang n).map fun x => if x.handle == t.id.handle then { x with flags := x.flags ||| allLanes t.lflags } else x := by
      refine State.gang_updWhere (f := fun x => { x with flags := x.flags ||| allLanes t.lflags }) ?_ (fun _ => rfl) n
      rw [State.markSlots_gangs]
      rfl
    refine ⟨_, hexec, ?_, ?_, ?_, ?_, ?_, ?_, ?_⟩
    · rw [State.markSlots_frame]
      rfl
    · rw [State.markSlots_strand]
      have := strand_put (s := s.setGang t.id.handle fun g => { g with flags := g.flags ||| allLanes t.lflags })
        (t := { t with status := .ended }) (u := t) (by rw [← ht, ← hsid]; rfl)
      rw [← hsid]
      exact this
    · intro n hn
      rw [State.markSlots_strand]
      exact strand_put_other _ { t with status := .ended } n (hsid ▸ hn)
    · intro k hk
      exact State.slotState_markSlots _ (by decide) hk
    · intro k hk
      exact State.slot_markSlots_other _ _ hk
    · intro h hh
      rw [hgang]
      cases hg : s.gang h with
      | none => rfl
      | some g => simp [State.gang_handle hg, hh]
    · intro g hg
      refine ⟨g.flags ||| allLanes t.lflags, ?_, fun b hb => ?_⟩
      · rw [hgang, hg]
        simp [State.gang_handle hg]
      · rw [BitVec.getLsbD_or, getLsbD_allLanes _ hb]
  · have hr : s.retires t = false := by
      rw [← Bool.not_eq_true, s.retires_iff t, hsid]
      tauto
    show execStrandRetire sid s = _
    simp only [execStrandRetire, ht, hr, Bool.not_false, if_true]

/-! ## Completion of tasks -/

theorem completionWord_eq {status : Nat} (hs : status < 7) (flags : BitVec 7) (g : Nat) :
    completionWord status flags g = BitVec.ofNat 64 (status * 2 ^ 48 + flags.toNat * 2 ^ 32 + g % 2 ^ 32) := by
  apply BitVec.eq_of_toNat_eq
  have hf := flags.isLt
  have hlo : g % 2 ^ 32 < 2 ^ 32 := Nat.mod_lt _ (by decide)
  rw [completionWord, BitVec.toNat_append, ← Nat.shiftLeft_add_eq_or_of_lt (BitVec.isLt _), BitVec.toNat_append,
    ← Nat.shiftLeft_add_eq_or_of_lt (BitVec.isLt _)]
  simp only [BitVec.toNat_ofNat, BitVec.toNat_setWidth, Nat.shiftLeft_eq]
  rw [Nat.mod_eq_of_lt (a := status) (by omega), Nat.mod_eq_of_lt (a := flags.toNat) (by omega), Nat.mod_eq_of_lt (b := 2 ^ 64) (by omega)]
  omega

/-- Where the completion word of task `g` of a card and its post land. -/
def CompletionLands (s : State) (c : Card) (g hb hp : Nat) : Prop :=
  OutsideAt s c.asid (cardCwaddr c.bits + BitVec.ofNat 64 (8 * g)) 8 .write hb
    ∧ (cardPost c.bits = 0 ∨ OutsideAt s c.asid (cardPost c.bits) 8 .write hp ∧ (hp + 8 ≤ hb ∨ hb + 8 ≤ hp))

/-- What they leave. -/
def CompletionWritten (s s' : State) (c : Card) (hb hp : Nat) (w : Word) : Prop :=
  wordAt s' hb = w ∧ (cardPost c.bits ≠ 0 → wordAt s' hp = w)
    ∧ ∀ a, (a < hb ∨ hb + 8 ≤ a) → (cardPost c.bits = 0 ∨ a < hp ∨ hp + 8 ≤ a) → Memory.get s'.mem a = Memory.get s.mem a

theorem completionWritten_congr {s w w' : State} {c : Card} {hb hp : Nat} {x : Word} (h : CompletionWritten s w c hb hp x)
    (hm : w'.mem = w.mem) : CompletionWritten s w' c hb hp x := by
  unfold CompletionWritten wordAt at h ⊢
  rw [hm]
  exact h

theorem State.writeCompletion_lands {s : State} (hm : s.memOk) {c : Card} {g hb hp : Nat} (hl : CompletionLands s c g hb hp)
    {status : Nat} (hs : status < 7) (flags : BitVec 7) :
    ∃ w, s.writeCompletion c g status flags = .ok () w ∧ w = { s with mem := w.mem, lines := w.lines }
      ∧ CompletionWritten s w c hb hp (BitVec.ofNat 64 (status * 2 ^ 48 + flags.toNat * 2 ^ 32 + g % 2 ^ 32)) := by
  obtain ⟨hc, hpost⟩ := hl
  rw [← completionWord_eq hs]
  generalize hx : completionWord status flags g = x
  have h1 : s.writeBytes (s.outsideCtx c.asid) (cardCwaddr c.bits + BitVec.ofNat 64 (8 * g)) (wordBytes 8 x)
      = .ok () (s.writeHome hb (wordBytes 8 x)) := outsideAt_writes (by rw [length_wordBytes]; exact hc) (by simp)
  unfold State.writeCompletion
  dsimp only
  rw [hx, h1]
  simp only [Res.orElse, Res.bind]
  by_cases h0 : cardPost c.bits = 0
  · rw [if_pos h0]
    refine ⟨_, rfl, State.writeHome_frame _ _ _, wordAt_writeHome hm hb x, fun h => absurd h0 h, fun a ha _ => get_writeHome_apart s x ha⟩
  · rw [if_neg h0]
    obtain ⟨hpo, happart⟩ := hpost.resolve_left h0
    have hpo' := outsideAt_writeHome hpo (outsideAt_plain hc) (wordBytes 8 x)
    have hctx : (s.writeHome hb (wordBytes 8 x)).outsideCtx c.asid = s.outsideCtx c.asid := by rw [State.writeHome_frame]; rfl
    have h2 : (s.writeHome hb (wordBytes 8 x)).writeBytes (s.outsideCtx c.asid) (cardPost c.bits) (wordBytes 8 x)
        = .ok () ((s.writeHome hb (wordBytes 8 x)).writeHome hp (wordBytes 8 x)) := by
      rw [← hctx]
      exact outsideAt_writes (by rw [length_wordBytes]; exact hpo') (by simp)
    rw [h2]
    refine ⟨_, rfl, ?_, ?_, fun _ => wordAt_writeHome (State.memOk_writeHome hm _ _) hp x, fun a ha hap => ?_⟩
    · rw [State.writeHome_frame (s.writeHome hb (wordBytes 8 x)), State.writeHome_frame s]
    · rw [wordAt_writeHome_apart _ x happart.symm, wordAt_writeHome hm]
    · rw [get_writeHome_apart _ x (hap.resolve_left h0), get_writeHome_apart s x ha]

theorem gangGone_after {s w w' : State} {g : Gang} {code : Nat} (h : GangGone s w g code) (hs : w'.strands = w.strands)
    (hsl : w'.slots = w.slots) : GangGone s w' g code := by
  obtain ⟨gone, others, slots⟩ := h
  exact ⟨fun t ht => gone t (hs ▸ ht), fun t ht hn => hs ▸ others t ht hn, fun hr n hm => by
    rw [State.slot_congr hsl]; exact slots hr n hm⟩

/-- A task counted as started in its card. -/
def startedIn (g : Nat) (x : Card) : Card :=
  if x.requeue.contains g then { x with requeue := x.requeue.erase g } else { x with started := x.started + 1 }

theorem State.taskStarted_frame (s : State) (c : Card) (g at_ : Nat) :
    s.taskStarted c g at_ = { s with
      offers := (s.taskStarted c g at_).offers, queues := (s.taskStarted c g at_).queues
      cards := updWhere s.cards (fun x => x.cid == c.cid) (startedIn g) } := rfl

theorem State.taskDone_cards (s : State) (cid : Nat) :
    (s.taskDone cid).cards = (updWhere s.cards (fun c => c.cid == cid) fun c => { c with done := c.done + 1 }).filter
      fun c => c.cid != cid || c.done < cardTasks c.bits :=
  State.refreshOffers_cards _

theorem State.resetDone_frame (s : State) (part : BitVec 2) : s.resetDone part = { s with vfs := (s.resetDone part).vfs } := by
  unfold State.resetDone
  split <;> rfl

theorem startedIn_frame (g : Nat) (c : Card) : (startedIn g c).cid = c.cid ∧ (startedIn g c).bits = c.bits
    ∧ (startedIn g c).done = c.done := by
  unfold startedIn
  split <;> exact ⟨rfl, rfl, rfl⟩

/-- A gang's task counted as started where it had not been. -/
def startedOf (g : Gang) (x : Card) : Card :=
  if g.started then x else startedIn g.g x

theorem startedOf_frame (g : Gang) (c : Card) : (startedOf g c).cid = c.cid ∧ (startedOf g c).bits = c.bits
    ∧ (startedOf g c).done = c.done := by
  unfold startedOf
  split
  · exact ⟨rfl, rfl, rfl⟩
  · exact startedIn_frame _ _

/-- A gang freed once its task's words stand, and its card counting one task more. -/
theorem State.freed_done {s w : State} {g : Gang} {c : Card} (hg : s.gang g.handle = some g) (hn : NoneHeld s)
    (hs : w.strands = s.strands) (hgs : w.gangs = s.gangs) (hsl : w.slots = s.slots) (hcp : w.copies = s.copies)
    (hrq : w.requests = s.requests) (hc : w.cards = updWhere s.cards (fun x => x.cid == c.cid) (startedOf g)) :
    GangGone s ((w.freeGang g.handle).taskDone c.cid) g 0 ∧ ((w.freeGang g.handle).taskDone c.cid).mem = w.mem
      ∧ ((w.freeGang g.handle).taskDone c.cid).gang g.handle = none
      ∧ ((w.freeGang g.handle).taskDone c.cid).cards = (updWhere s.cards (fun x => x.cid == c.cid) fun x =>
        { startedOf g x with done := x.done + 1 }).filter fun x => x.cid != c.cid || x.done < cardTasks x.bits := by
  have hgw : w.gang g.handle = some g := by
    rw [State.gang, hgs]
    exact hg
  obtain ⟨hgone, hmem, hcards, hnone⟩ := State.freeGang_gone hgw (noneHeld_congr hn hcp hrq)
  have hz : w.sizeOf g = s.sizeOf g := State.sizeOf_updWhere hc (fun x => ⟨(startedOf_frame g x).1, (startedOf_frame g x).2.1⟩) g
  refine ⟨gangGone_after (gangGone_congr hgone hs hsl hz) (State.refreshOffers_strands _) (State.refreshOffers_slots _),
    (State.refreshOffers_mem _).trans hmem, ?_, ?_⟩
  · rw [State.gang, State.taskDone, State.refreshOffers_gangs]
    exact hnone
  · rw [State.taskDone_cards, hcards, hc, updWhere_updWhere _ _ _ _ fun x => by rw [(startedOf_frame g x).1]]
    congr 2
    funext x
    rw [(startedOf_frame g x).2.2]

/-- What a completion leaves whose words land. -/
theorem completes_gang {s : State} {g : Gang} {c : Card} {hb hp status : Nat} (hm : s.memOk) (hg : s.gang g.handle = some g)
    (hn : NoneHeld s) (hl : CompletionLands s c g.g hb hp) (hs : status < 7) (f : State → State)
    (hf : ∀ w, f w = { w with vacates := (f w).vacates })
    (hexec : execGangCompletion g.handle.toNat s = .next (s.outside (s.partOf c.asid).toNat (s.writeCompletion c g.g status g.flags) id
      fun _ s1 =>
        let s2 := if g.started then s1 else s1.taskStarted c g.g (if status = 6 then s1.tick else g.boundAt)
        let s3 := ((f s2).freeGang g.handle).taskDone c.cid
        if status = 5 then s3.resetDone g.part else s3)) :
    ∃ s', execGangCompletion g.handle.toNat s = .next s'
      ∧ CompletionWritten s s' c hb hp (BitVec.ofNat 64 (status * 2 ^ 48 + g.flags.toNat * 2 ^ 32 + g.g % 2 ^ 32))
      ∧ GangGone s s' g 0 ∧ s'.gang g.handle = none
      ∧ s'.cards = (updWhere s.cards (fun x => x.cid == c.cid) fun x => { startedOf g x with done := x.done + 1 }).filter
        fun x => x.cid != c.cid || x.done < cardTasks x.bits := by
  obtain ⟨w, hw, hwf, hwritten⟩ := State.writeCompletion_lands hm hl hs g.flags
  rw [hw, State.outside_ok] at hexec
  dsimp only at hexec
  have h2 : ∃ s2 : State, (if g.started then w.outsideDone (s.partOf c.asid).toNat else
        (w.outsideDone (s.partOf c.asid).toNat).taskStarted c g.g
          (if status = 6 then (w.outsideDone (s.partOf c.asid).toNat).tick else g.boundAt)) = s2
      ∧ s2.strands = s.strands ∧ s2.gangs = s.gangs ∧ s2.slots = s.slots ∧ s2.copies = s.copies ∧ s2.requests = s.requests
      ∧ s2.cards = updWhere s.cards (fun x => x.cid == c.cid) (startedOf g) ∧ s2.mem = w.mem := by
    refine ⟨_, rfl, ?_⟩
    by_cases hst : g.started = true
    · rw [if_pos hst]
      refine ⟨by rw [hwf]; rfl, by rw [hwf]; rfl, by rw [hwf]; rfl, by rw [hwf]; rfl, by rw [hwf]; rfl, ?_, rfl⟩
      have hid : (startedOf g) = fun x => x := by
        funext x
        rw [startedOf, if_pos hst]
      rw [hid, hwf]
      simp [updWhere]
    · rw [if_neg hst, State.taskStarted_frame]
      refine ⟨by rw [hwf]; rfl, by rw [hwf]; rfl, by rw [hwf]; rfl, by rw [hwf]; rfl, by rw [hwf]; rfl, ?_, rfl⟩
      have hid : (startedOf g) = startedIn g.g := by
        funext x
        rw [startedOf, if_neg hst]
      rw [hid, hwf]
      rfl
  obtain ⟨s2, he, hss, hgs, hsl, hcp, hrq, hcd, hmm⟩ := h2
  rw [he] at hexec
  have hfs := hf s2
  obtain ⟨hgone, hmem, hnone, hcards⟩ := State.freed_done (w := f s2) hg hn (by rw [hfs]; exact hss) (by rw [hfs]; exact hgs)
    (by rw [hfs]; exact hsl) (by rw [hfs]; exact hcp) (by rw [hfs]; exact hrq) (by rw [hfs]; exact hcd)
  have hmem' : (((f s2).freeGang g.handle).taskDone c.cid).mem = w.mem := by
    rw [hmem, hfs]
    exact hmm
  refine ⟨_, hexec, ?_⟩
  split
  · rw [State.resetDone_frame]
    exact ⟨completionWritten_congr hwritten hmem', gangGone_after hgone rfl rfl, hnone, hcards⟩
  · exact ⟨completionWritten_congr hwritten hmem', hgone, hnone, hcards⟩

theorem gangCompletes : GangCompletes := by
  intro s h c hb hp hm
  refine ⟨fun g status hg hc hn hl hst => ?_, fun o hg ho hc hv hl => ?_⟩
  · obtain rfl := State.gang_handle hg
    obtain ⟨hs, hlt⟩ | ⟨hs, hend, rfl⟩ := hst
    · refine completes_gang hm hg hn hl hlt id (fun _ => rfl) ?_
      simp only [execGangCompletion, ofNat_handle, hg, hc, hs]
    · refine completes_gang hm hg hn hl (by decide) (fun x => x.countVacates g.handle 0) (fun _ => rfl) ?_
      simp only [execGangCompletion, ofNat_handle, hg, hc]
      obtain hs | hs := hs
      all_goals simp only [hs, hend, if_true]
  · show ∃ s', execGangCompletion h.toNat s = _ ∧ _
    obtain ⟨w, hw, hwf, hwritten⟩ := State.writeCompletion_lands hm hl (status := 1) (by decide) 0
    have hvl : s.vlFails h = some (c, o.g) := by
      simp only [State.vlFails, ho, hc, hv, Bool.false_eq_true, if_false]
    simp only [execGangCompletion, ofNat_handle, hg, hvl, hw, State.outside_ok]
    refine ⟨_, rfl, ?_⟩
    have hword : BitVec.ofNat 64 (1 * 2 ^ 48 + (0 : BitVec 7).toNat * 2 ^ 32 + o.g % 2 ^ 32) = BitVec.ofNat 64 (2 ^ 48 + o.g % 2 ^ 32) := by
      congr 1
    rw [hword] at hwritten
    exact completionWritten_congr hwritten (State.refreshOffers_mem _)

end Sys2Proof.Machine

open Sys2Proof Sys2Proof.Machine

/-- Settles O52: by what retiring marks, and what freeing a gang leaves once its completion word and post stand. -/
theorem endsOfTasks : Obligations.EndsOfTasks :=
  ⟨strandRetires, gangCompletes⟩
end

section
/-!
SUPPORT. Fault services, chain repair, notices of traps and their answers.
-/

namespace Sys2Proof.Machine

/-! ## Blocks of several fields -/

theorem Memory.fill_append (m : List Host.Cell) (a : Nat) (xs ys : List Byte) :
    Memory.fill m a (xs ++ ys) = Memory.fill (Memory.fill m a xs) (a + xs.length) ys := by
  induction xs generalizing m a with
  | nil => rfl
  | cons x xs ih =>
    rw [List.cons_append, Memory.fill, ih, Memory.fill, List.length_cons]
    congr 1
    omega

/-- A part of a block that has been written reads as it stands in the block. -/
theorem Memory.bytes_fill_part {m : List Host.Cell} (h : Memory.wf m = true) (a : Nat) (pre mid post : List Byte) :
    Memory.bytes (Memory.fill m a (pre ++ (mid ++ post))) (a + pre.length) mid.length = mid := by
  rw [Memory.fill_append, Memory.fill_append, Memory.bytes_fill_apart _ _ _ _ _ (.inl (Nat.le_refl _)),
    Memory.bytes_fill (Memory.wf_fill h a pre)]

/-- A field of a block that has been written. -/
theorem Memory.read_fill_field {m : List Host.Cell} (h : Memory.wf m = true) {a k n v : Nat} {bs : List Byte} (pre post : List Byte)
    (hb : bs = pre ++ (leBytes n v ++ post)) (hk : pre.length = k) : Memory.read (Memory.fill m a bs) (a + k) n = v % 2 ^ (8 * n) := by
  have := Memory.bytes_fill_part h a pre (leBytes n v) post
  rw [length_leBytes, hk, ← hb] at this
  rw [Memory.read, this, leNat_leBytes]

/-! ## Fault services -/

theorem faultServices : FaultServices := by
  refine ⟨fun s asid page retry => ?_, fun s sid hs => ?_⟩
  · show execFaultServiceAnswer asid page retry s = _
    refine congrArg (fun l => Host.Outcome.next { s with svcs := l }) (List.map_congr_left fun v _ => ?_)
    simp only [va52, Bool.and_eq_true, beq_iff_eq, and_assoc]
  · show execWalkMigRetry sid s = _
    refine congrArg (fun l => Host.Outcome.next { s with svcs := l }) (List.map_congr_left fun v _ => ?_)
    dsimp only
    have hmine : (v.who.number == sid) = (match v.who with
        | .strand n | .queue n | .request n _ => n == sid
        | _ => false) := by
      cases hw : v.who with
      | strand n | queue n | request n r => rfl
      | outside k | copy k =>
        simp only [Agent.number, beq_eq_false_iff_ne]
        omega
    refine if_congr ?_ rfl rfl
    rw [hmine]
    simp only [Bool.and_eq_true, beq_iff_eq, and_assoc, decide_eq_true_eq, ge_iff_le] <;> exact Iff.rfl

/-! ## Chain repair -/

theorem State.resumeChecked_ok (s : State) (t : Strand) {r : Record} (h : recordOk r.bytes = true) (pc : Word) :
    s.resumeChecked t r pc = s.resumeTrap t { r with pcNext := pc } :=
  if_pos h

/-- The relink of a line that forwards no more has nothing to do. -/
theorem State.relink_plain {s : State} {c : Ctx} {va : Word} {e : TlbEntry} (hm : Mapped s c va 1 .write e)
    (hl : hasLines (pteAttr e.pte) = true → s.lineState (lineOf (entryHome e (va52 va))) ≠ some .inMove
      ∧ s.lineState (lineOf (entryHome e (va52 va))) ≠ some .forwarded ∧ s.closed (lineOf (entryHome e (va52 va))) = false) :
    s.relink c va = .ok () s := by
  rw [State.relink, State.requested_mapped hm (Nat.mod_one _), Res.bind]
  by_cases hx : hasLines (pteAttr e.pte) = true
  · obtain ⟨h1, h2, h3⟩ := hl hx
    rw [if_neg (by simp [hx])]
    dsimp only
    rw [if_neg (by simp [h3])]
    cases hs : s.lineState (lineOf (entryHome e (va52 va))) with
    | none => rfl
    | some st =>
      cases st with
      | plain => rfl
      | inMove => exact absurd hs h1
      | forwarded => exact absurd hs h2
  · rw [if_pos (by simpa using hx)]

theorem State.repairDue_of {t : Strand} {r : Record} (ht : t.status = .trapped) (hr : t.record = some r) (hn : t.notice = false)
    (hu : t.unrepaired = false) (hc : r.info.cause = .fwdChain) : t.repairDue = true := by
  simp [Strand.repairDue, ht, hr, hn, hu, hc]

theorem canonicalAll_false {va : Word} (h : canonical va = false) : canonicalAll va 1 = false := by
  simp [canonicalAll, h]

theorem chainRepair : ChainRepair := by
  intro s sid t r ⟨ht, hs, hr⟩ hn hu hc
  have hdue := State.repairDue_of hs hr hn hu hc
  refine ⟨fun e hok hm hl => ?_, fun hcan => ?_⟩
  · show execFwdChainRepair sid s = _
    simp only [execFwdChainRepair, ht, hr, hdue, State.relink_plain hm hl, State.resumeChecked_ok _ _ hok, Bool.not_true,
      Bool.false_eq_true, if_false]
  · show execFwdChainRepair sid s = _
    have hrel : s.relink (s.outsideCtx t.id.asid) r.info.value = .flt .addr r.info.value 0 s := by
      rw [State.relink, State.requested_noncanonical (canonicalAll_false hcan)]
      rfl
    simp only [execFwdChainRepair, ht, hr, hdue, hrel, Bool.not_true, Bool.false_eq_true, if_false]
    rfl

/-! ## Notices -/

theorem causeCode_lt (c : Cause) : causeCode c < 2 ^ 32 := by
  cases c <;> decide

theorem length_noticeBytes (t : Strand) (r : Record) : (noticeBytes t r).length = 64 := by
  simp [noticeBytes]

/-- A block of 64 bytes at an aligned address is written in one access. -/
theorem State.writeRange_block {s : State} {asid : BitVec 16} {va : Word} {h : Nat} {bs : List Byte} (hl : bs.length = 64)
    (ho : OutsideAt s asid va 64 .write h) : s.writeRange (s.outsideCtx asid) 3 va bs = .ok () (s.writeHome h bs) := by
  have hal : va.toNat % 64 = 0 := by
    obtain ⟨e, hm, -⟩ := ho
    exact hm.aligned
  have hmin : min bs.length (128 - va.toNat % 128) = bs.length := by
    have : va.toNat % 128 % 64 = 0 := by omega
    omega
  have hne : bs.isEmpty = false := by
    cases bs with
    | nil => cases hl
    | cons b bs => rfl
  unfold State.writeRange
  rw [hne]
  simp only [Bool.false_eq_true, if_false, hmin, List.take_length, List.drop_length]
  rw [outsideAt_writes (by rw [hl]; exact ho) (by omega)]
  rfl

theorem wordAt_field {m : List Host.Cell} (h : Memory.wf m = true) {s : State} {a k : Nat} {v : Word} {bs : List Byte}
    (hs : s.mem = Memory.fill m a bs) (pre post : List Byte) (hb : bs = pre ++ (wordBytes 8 v ++ post)) (hk : pre.length = k) :
    wordAt s (a + k) = v := by
  rw [wordAt, hs, Memory.read_fill_field h pre post hb hk]
  apply BitVec.eq_of_toNat_eq
  simpa using v.isLt

theorem noticeBytes_read {m : List Host.Cell} (hm : Memory.wf m = true) {s : State} {h : Nat} {t : Strand} {r : Record}
    (hs : s.mem = Memory.fill m h (noticeBytes t r)) :
    wordAt s h = r.info.pc ∧ wordAt s (h + 8) = r.info.addr ∧ wordAt s (h + 16) = r.info.value
      ∧ Memory.read s.mem (h + 24) 4 = causeCode r.info.cause
      ∧ Memory.read s.mem (h + 28) 4 = r.info.elem % 2 ^ 32 ∧ Memory.read s.mem (h + 32) 4 = t.id.tid % 2 ^ 32
      ∧ Memory.read s.mem (h + 36) 4 = t.id.gid.toNat ∧ Memory.read s.mem (h + 40) 24 = 0 := by
  have hb : noticeBytes t r = wordBytes 8 r.info.pc ++ (wordBytes 8 r.info.addr ++ (wordBytes 8 r.info.value
      ++ (leBytes 4 (causeCode r.info.cause) ++ (leBytes 4 r.info.elem ++ (leBytes 4 t.id.tid ++ (wordBytes 4 t.id.gid
      ++ (leBytes 24 0 ++ []))))))) := by
    simp only [noticeBytes, List.append_assoc, List.append_nil]
    rfl
  generalize noticeBytes t r = bs at hs hb
  have h1 := hb.trans (List.append_assoc _ _ _).symm
  have h2 := h1.trans (List.append_assoc _ _ _).symm
  have h3 := h2.trans (List.append_assoc _ _ _).symm
  have h4 := h3.trans (List.append_assoc _ _ _).symm
  have h5 := h4.trans (List.append_assoc _ _ _).symm
  have h6 := h5.trans (List.append_assoc _ _ _).symm
  have hgid : t.id.gid.toNat % 2 ^ 32 = t.id.gid.toNat := Nat.mod_eq_of_lt t.id.gid.isLt
  refine ⟨wordAt_field hm (k := 0) hs [] _ hb rfl, wordAt_field hm hs _ _ hb (length_wordBytes _ _),
    wordAt_field hm hs _ _ h1 (by simp), ?_, ?_, ?_, ?_, ?_⟩
  · rw [hs, Memory.read_fill_field hm _ _ h2 (by simp)]
    exact Nat.mod_eq_of_lt (causeCode_lt _)
  · rw [hs, Memory.read_fill_field hm _ _ h3 (by simp)]
  · rw [hs, Memory.read_fill_field hm _ _ h4 (by simp)]
  · rw [hs, Memory.read_fill_field hm (n := 4) (v := t.id.gid.toNat) _ _ h5 (by simp)]
    exact hgid
  · rw [hs, Memory.read_fill_field hm _ _ h6 (by simp)]
    rfl

theorem State.noticeDue_of {t : Strand} {r : Record} (ht : t.status = .trapped) (hr : t.record = some r) (hn : t.notice = false)
    (hu : r.info.cause = .fwdChain → t.unrepaired = true) : t.noticeDue = true := by
  have hrep : t.repairDue = false := by
    rw [← Bool.not_eq_true]
    intro h
    simp only [Strand.repairDue, hr, Option.any_some, Bool.and_eq_true, Bool.not_eq_true', beq_iff_eq] at h
    rw [hu h.2] at h
    exact Bool.noConfusion h.1.2
  simp [Strand.noticeDue, ht, hr, hn, hrep]

theorem faultNotices : FaultNotices := by
  intro s sid t r p h hm ⟨ht, hs, hr⟩ hn hu hp hb
  have hdue := State.noticeDue_of hs hr hn hu
  have hsid := strand_sid ht
  refine ⟨fun hfull => ?_, fun hroom ho => ?_⟩
  · show execFaultNotice sid s = _
    have hf : ringFull p.frSize p.frHead p.frTail = true := by simpa [ringFull] using hfull
    simp only [execFaultNotice, ht, hr, hdue, hp, hb, hf, Bool.not_true, Bool.false_eq_true, if_false, if_true]
  · have hf : ringFull p.frSize p.frHead p.frTail = false := by simpa [ringFull] using hroom
    have hw := State.writeRange_block (length_noticeBytes t r) ho
    have hexec : exec (.faultNotice sid) s = .next
        (let s1 := (s.writeHome h (noticeBytes t r)).outsideDone (s.partOf t.id.asid).toNat
         let s2 := s1.setPage t.id.asid fun p => { p with frTail := p.frTail + 1 }
         { s2.put { t with notice := true } with
           notices := s2.notices ++ [⟨t.id.asid, p.frTail, t.id.handle, t.id.tid, r.info.cause⟩] }) := by
      show execFaultNotice sid s = _
      simp only [execFaultNotice, ht, hr, hdue, hp, hb, hf, Bool.not_true, Bool.false_eq_true, if_false]
      rw [show s.writeRange (s.outsideCtx t.id.asid) 3 (ringEntry p.frBase p.frSize p.frTail) (noticeBytes t r) = _ from hw]
      rfl
    have hframe := State.writeHome_frame s h (noticeBytes t r)
    have hmem := State.writeHome_mem s h (noticeBytes t r)
    generalize s.writeHome h (noticeBytes t r) = w at hexec hframe hmem
    have hstrand (n : Nat) : w.strand n = s.strand n := by rw [hframe]; rfl
    refine ⟨_, hexec, noticeBytes_read hm.1 hmem, fun a ha => ?_, ?_, ?_, ?_, ?_⟩
    · show Memory.get w.mem a = _
      rw [hmem]
      exact Memory.get_fill_other _ _ _ (by rw [length_noticeBytes]; exact ha)
    · rw [hframe]
      rfl
    · rw [hframe]
      rfl
    · have := strand_put (s := w) (t := { t with notice := true }) (u := t) (by rw [hstrand, ← ht, hsid])
      rw [← hsid]
      exact this
    · intro n hne
      rw [← hstrand]
      exact strand_put_other w { t with notice := true } n (hsid ▸ hne)

/-! ## Answers -/

theorem State.answerNotice_of {s : State} {asid : BitVec 16} {n : BitVec 32} {x : Notice} {g : Gang} {code : Nat}
    (hx : s.notices.find? (fun y => y.asid == asid && y.n == n) = some x) (hg : s.gang x.handle = some g) (hr : g.state = .running)
    (hc : ¬ (code = 3 ∧ x.cause ≠ .brk)) : s.answerNotice asid n code
      = ({ s with notices := s.notices.filter fun y => !(y.asid == asid && y.n == n) } : State).applyAnswer x.handle x.tid code := by
  unfold State.answerNotice
  simp only [hx]
  rw [if_neg (by simpa using hc)]
  split
  · rename_i h
    exact absurd (hg.symm.trans h) (by simp)
  · rename_i h
    cases hg.symm.trans h
    rw [if_pos hr]

theorem State.applyAnswer_resume {s : State} {h : BitVec 16} {tid code : Nat} {t : Strand} {r : Record} (hm : s.member h tid = some t)
    (hs : t.status = .trapped) (hr : t.record = some r) (hok : recordOk r.bytes = true) (hc : code ≠ 2) :
    s.applyAnswer h tid code = s.resumeTrap t { r with pcNext := if code = 3 then r.pcNext + 2 else r.pcNext } := by
  unfold State.applyAnswer
  rw [if_neg hc]
  simp only [hm, hr, hs, State.resumeChecked_ok _ _ hok]
  rw [if_neg (by simp)]

theorem faultAnswers : FaultAnswers := by
  intro s asid n
  refine ⟨fun x g t r hx hg hrun hm hs hr => ⟨fun hok => ?_, fun hn => ?_, fun hc hok => ?_, fun hc => ?_⟩, fun hx i hi => ?_⟩
  · show Host.Outcome.next (s.answerNotice asid n 1) = _
    rw [State.answerNotice_of hx hg hrun (by simp)]
    exact congrArg _ (State.applyAnswer_resume hm hs hr hok (by decide))
  · refine ⟨_, rfl, ?_⟩
    rw [State.answerNotice_of hx hg hrun (by simp)]
    have hh := State.gang_handle hg
    rw [← hh] at hg ⊢
    obtain ⟨hgone, hmem, hst, hcards⟩ := State.failGang_failed
      (s := { s with notices := s.notices.filter fun y => !(y.asid == asid && y.n == n) }) hg hn 2
    exact ⟨gangGone_congr hgone rfl rfl rfl, hmem, hst, hcards⟩
  · show Host.Outcome.next (s.answerNotice asid n 3) = _
    rw [State.answerNotice_of hx hg hrun (by simp [hc])]
    exact congrArg _ (State.applyAnswer_resume hm hs hr hok (by decide))
  · show Host.Outcome.next (s.answerNotice asid n 3) = _
    unfold State.answerNotice
    simp only [hx]
    rw [if_pos (by simpa using hc)]
  · have hnone (code : Nat) : s.answerNotice asid n code = s := by
      unfold State.answerNotice
      simp only [hx]
    simp only [List.mem_cons, List.not_mem_nil, or_false] at hi
    obtain rfl | rfl | rfl := hi
    · exact congrArg _ (hnone 1)
    · exact congrArg _ (hnone 2)
    · exact congrArg _ (hnone 3)

end Sys2Proof.Machine

open Sys2Proof Sys2Proof.Machine

/-- Settles O51: by what the services, the relink, the ring entry and the answer of a trap come to. -/
theorem faultHandling : Obligations.FaultHandling :=
  ⟨faultServices, chainRepair, faultNotices, faultAnswers⟩
end

section
/-!
SUPPORT. The start of a save: what runs to its boundary leaves gangs, saves and slots.
-/

namespace Sys2Proof.Machine

/-! ## What a convoy leaves of the gangs -/

/-- Two states with the same gangs, saves and slots. -/
def State.SameGangs (s w : State) : Prop :=
  w.gangs = s.gangs ∧ w.saves = s.saves ∧ w.slots = s.slots

theorem State.SameGangs.refl (s : State) : s.SameGangs s := ⟨rfl, rfl, rfl⟩

theorem State.SameGangs.trans {s w u : State} (h : s.SameGangs w) (k : w.SameGangs u) : s.SameGangs u :=
  ⟨k.1.trans h.1, k.2.1.trans h.2.1, k.2.2.trans h.2.2⟩

theorem State.closed_sameGangs (s : State) : State.Closed s.SameGangs where
  reads := fun k h => by
    rw [← k]
    exact h
  writes := fun h a bs => by
    rw [State.writeHome_frame]
    exact h
  sends := fun h r => by
    unfold State.send State.place
    split
    · exact h
    · dsimp only
      split <;> exact h
  puts := fun h _ => h

theorem State.runConvoy_sameGangs (s : State) (t : Strand) (halt : Option Nat) (saving : Bool) :
    s.SameGangs (s.runConvoy t halt saving) :=
  haveI := s.closed_sameGangs
  State.kept_runConvoy (.refl s) t halt saving

/-- A strand at the start of a save, before what stands first in its queue runs on. -/
def Strand.drained (t : Strand) : Strand :=
  { t.closeConvoy with held := none, hold := if t.busy then t.hold else none }

theorem State.drainStrand_of {s : State} {sid : Nat} {t : Strand} (ht : s.strand sid = some t) :
    s.drainStrand sid = if ((s.put t.drained).runsOn t.drained && t.drained.vamo.isNone) = true then
      { (s.put t.drained).runConvoy t.drained (some (Config.stopBoundary (s.put t.drained).freeCtr)) true with
        freeCtr := (s.put t.drained).freeCtr + 1 }
    else s.put t.drained := by
  unfold State.drainStrand
  rw [ht]
  rfl

theorem State.drainStrand_none {s : State} {sid : Nat} (ht : s.strand sid = none) : s.drainStrand sid = s := by
  unfold State.drainStrand
  rw [ht]

theorem State.drainStrand_sameGangs (s : State) (sid : Nat) : s.SameGangs (s.drainStrand sid) := by
  cases ht : s.strand sid with
  | none => rw [State.drainStrand_none ht]; exact .refl s
  | some t =>
    rw [State.drainStrand_of ht]
    split
    · have h : s.SameGangs ((s.put t.drained).runConvoy t.drained (some (Config.stopBoundary (s.put t.drained).freeCtr)) true) :=
        State.runConvoy_sameGangs (s.put t.drained) _ _ _
      exact ⟨h.1, h.2.1, h.2.2⟩
    · exact .refl s

theorem State.drainStrands_sameGangs (s : State) (sids : List Nat) : s.SameGangs (sids.foldl State.drainStrand s) :=
  List.foldlRecOn (motive := s.SameGangs) sids State.drainStrand (.refl s) fun w h sid _ => h.trans (w.drainStrand_sameGangs sid)

/-! ## Strands with nothing queued -/

theorem State.drainStrand_of_empty {s : State} {sid : Nat} {t : Strand} (ht : s.strand sid = some t) (hq : t.viq = []) :
    s.drainStrand sid = s.put t.drained := by
  have hc : (s.put t.drained).convoyReady t.drained = false := by
    have : t.drained.viq = [] := hq
    unfold State.convoyReady
    rw [this]
  rw [State.drainStrand_of ht, State.runsOn, hc]
  rfl

theorem Strand.drained_drained (t : Strand) : t.drained.drained = t.drained := by
  unfold Strand.drained
  cases hb : t.busy <;> simp [Strand.closeConvoy, hb]

theorem strand_unique {s : State} (hn : (s.strands.map fun t => t.id.sid).Nodup) {sid : Nat} {t u : Strand}
    (ht : s.strand sid = some t) (hu : u ∈ s.strands) (hs : u.id.sid = sid) : u = t :=
  List.inj_on_of_nodup_map hn hu (List.mem_of_find?_eq_some ht) (hs.trans (strand_sid ht).symm)

/-- Strands with nothing queued only close their convoys at the start of a save. -/
theorem State.drainStrands_of_empty (sids : List Nat) {s : State} (hn : (s.strands.map fun t => t.id.sid).Nodup)
    (hq : ∀ t ∈ s.strands, t.id.sid ∈ sids → t.viq = []) :
    sids.foldl State.drainStrand s
      = { s with strands := s.strands.map fun t => if t.id.sid ∈ sids then t.drained else t } := by
  induction sids generalizing s with
  | nil => simp
  | cons sid sids ih =>
    have hstep : s.drainStrand sid = { s with strands := s.strands.map fun t => if t.id.sid = sid then t.drained else t } := by
      cases ht : s.strand sid with
      | none =>
        rw [State.drainStrand_none ht]
        have hno : s.strands.map (fun t => if t.id.sid = sid then t.drained else t) = s.strands := by
          refine (List.map_congr_left fun t hm => if_neg fun h => ?_).trans (List.map_id s.strands)
          exact absurd (List.find?_eq_none.1 ht t hm) (by simp [h])
        rw [hno]
      | some t =>
        rw [State.drainStrand_of_empty ht (hq t (List.mem_of_find?_eq_some ht) (by simp [strand_sid ht]))]
        refine congrArg (fun l => { s with strands := l }) (List.map_congr_left fun u hu => ?_)
        have hsid : t.drained.id.sid = sid := by
          have := strand_sid ht
          exact this
        rw [hsid]
        split
        · rename_i h
          rw [strand_unique hn ht hu h]
        · rfl
    have hsid (t : Strand) : (if t.id.sid = sid then t.drained else t).id.sid = t.id.sid := by split <;> rfl
    rw [List.foldl_cons, hstep, ih]
    · refine congrArg (fun l => { s with strands := l }) ?_
      rw [List.map_map]
      refine List.map_congr_left fun t _ => ?_
      simp only [Function.comp, hsid]
      by_cases h : t.id.sid = sid
      · simp only [h, if_pos, List.mem_cons, true_or, Strand.drained_drained, ite_self]
      · simp [h]
    · rw [List.map_map]
      convert hn using 2
      exact funext hsid
    · intro t ht hm
      obtain ⟨u, hu, rfl⟩ := List.mem_map.1 ht
      have := hq u hu (List.mem_cons_of_mem _ (by rw [← hsid u]; exact hm))
      split
      · exact this
      · exact this

/-! ## The start of a save -/

/-- A save of a running gang starts. -/
theorem State.startSave_started {s : State} {g : Gang} (hg : s.gang g.handle = some g) (hr : g.state = .running)
    (he : s.allEnded g = false) : SaveStarted s (s.startSave g.handle) g := by
  have hfold : s.startSave g.handle = ((s.strands.filter fun t => t.id.handle == g.handle).map fun t => t.id.sid).foldl
      State.drainStrand ((({ s with saves := s.saves ++ [⟨g.handle, s.tick⟩] } : State).setGang g.handle fun x =>
        { x with state := .saving }).markSlots (s.slotsOf g) 4) := by
    unfold State.startSave
    simp only [hg]
    rw [if_neg (by simp [hr, he])]
  have hframe := State.markSlots_frame (({ s with saves := s.saves ++ [⟨g.handle, s.tick⟩] } : State).setGang g.handle fun x =>
        { x with state := .saving }) (s.slotsOf g) 4
  obtain ⟨hgangs, hsaves, hslots⟩ := State.drainStrands_sameGangs ((({ s with saves := s.saves ++ [⟨g.handle, s.tick⟩] } : State).setGang
    g.handle fun x => { x with state := .saving }).markSlots (s.slotsOf g) 4)
      ((s.strands.filter fun t => t.id.handle == g.handle).map fun t => t.id.sid)
  rw [← hfold] at hgangs hsaves hslots
  refine ⟨?_, ?_, fun k hk => ?_, fun hn hq => ?_⟩
  · have h : (s.startSave g.handle).gangs = updWhere s.gangs (fun x => x.handle == g.handle) fun x => { x with state := .saving } := by
      rw [hgangs, hframe]
      rfl
    rw [State.gang_updWhere h fun _ => rfl, hg]
    simp
  · rw [hsaves, hframe]
    rfl
  · rw [State.slot_congr hslots, State.slotState_markSlots _ (by decide) hk]
    rfl
  · have hmem (t : Strand) (ht : t ∈ s.strands) :
        t.id.sid ∈ ((s.strands.filter fun t => t.id.handle == g.handle).map fun t => t.id.sid) ↔ t.id.handle = g.handle := by
      simp only [List.mem_map, List.mem_filter, beq_iff_eq]
      refine ⟨fun ⟨u, ⟨hu, hh⟩, hs⟩ => ?_, fun h => ⟨t, ⟨ht, h⟩, rfl⟩⟩
      rw [← List.inj_on_of_nodup_map hn hu ht hs]
      exact hh
    have hstrands : ((({ s with saves := s.saves ++ [⟨g.handle, s.tick⟩] } : State).setGang g.handle fun x =>
        { x with state := .saving }).markSlots (s.slotsOf g) 4).strands = s.strands := by
      rw [hframe]
      rfl
    rw [hfold, State.drainStrands_of_empty _ (by rw [hstrands]; exact hn) fun t ht hm => hq t (hstrands ▸ ht)
      ((hmem t (hstrands ▸ ht)).1 hm)]
    refine ⟨?_, ?_⟩
    · rw [hframe]
      rfl
    · dsimp only
      rw [hstrands]
      exact List.map_congr_left fun t ht => if_congr (hmem t ht) rfl rfl

end Sys2Proof.Machine
end

section
/-!
SUPPORT. A save completed: what the vault holds, what is left of the gang.
-/

namespace Sys2Proof.Machine

/-! ## Memory outside a range -/

theorem Cells.find_filter {α : Type} (l : List (Nat × α)) (p : Nat → Bool) {a : Nat} (h : p a = true) :
    Cells.find (l.filter fun c => p c.1) a = Cells.find l a := by
  induction l with
  | nil => rfl
  | cons x l ih =>
    by_cases hx : p x.1 = true
    · rw [List.filter_cons_of_pos (p := fun c : Nat × α => p c.1) hx, Cells.find, Cells.find, ih]
    · have hne : x.1 ≠ a := fun k => hx (k ▸ h)
      rw [List.filter_cons_of_neg (p := fun c : Nat × α => p c.1) hx, ih, Cells.find, if_neg hne]

theorem Memory.get_filter (m : List Host.Cell) (p : Nat → Bool) {a : Nat} (h : p a = true) :
    Memory.get (m.filter fun c => p c.1) a = Memory.get m a :=
  congrArg (fun x => x.getD Memory.unlisted) (Cells.find_filter m p h)

/-- A range replaced leaves the bytes outside it. -/
theorem Memory.get_replace_other (m : List Host.Cell) {a n c : Nat} (bs : List Byte) (h : c < a ∨ a + n ≤ c) :
    Memory.get (Memory.replace m a n bs) c = Memory.get m c := by
  have hl : (bs.take n).length ≤ n := List.length_take_le n bs
  rw [Memory.replace, Memory.get_fill_other _ _ _ (by omega)]
  exact Memory.get_filter m (fun x => decide (x < a) || decide (a + n ≤ x)) (by simpa using h)

theorem get_dropSlab (m : List Host.Cell) {id : Ident} (hc : id.pclus < 24 ∧ id.pcore < 24) {a : Nat} (ha : homeAttr a ≠ attrSlab) :
    Memory.get (dropSlab m id) a = Memory.get m a := by
  refine Memory.get_filter m (fun x => !(slabBases id).any fun b => decide (b.2 ≤ x) && decide (x < b.2 + 2 ^ 19)) ?_
  rw [Bool.not_eq_true', List.any_eq_false]
  intro b hb hx
  unfold slabBases at hb
  obtain ⟨x, hm, rfl⟩ := List.mem_map.1 hb
  have hq : x.1 < 4 := by
    have h4 := (List.mem_filter.1 (List.fst_mem_of_mem_zipIdx hm)).1
    exact List.mem_range.1 h4
  rw [Bool.and_eq_true] at hx
  have h1 : slabByte id.pclus id.pcore x.1 0 ≤ a := of_decide_eq_true hx.1
  have h2 : a < slabByte id.pclus id.pcore x.1 0 + 2 ^ 19 := of_decide_eq_true hx.2
  have h3 : homeAttr a = attrSlab := by
    simp only [slabByte, homeByte, Config.coresPerCluster, attrSlab] at h1 h2
    rw [homeAttr, attrSlab]
    obtain ⟨hp, hq'⟩ := hc
    omega
  exact ha h3

theorem get_dropSlabs (l : List Strand) (m : List Host.Cell) (hc : ∀ t ∈ l, t.id.pclus < 24 ∧ t.id.pcore < 24) {a : Nat}
    (ha : homeAttr a ≠ attrSlab) : Memory.get (l.foldl (fun m t => dropSlab m t.id) m) a = Memory.get m a := by
  induction l generalizing m with
  | nil => rfl
  | cons t l ih =>
    rw [List.foldl_cons, ih _ fun u hu => hc u (List.mem_cons_of_mem _ hu), get_dropSlab _ (hc t List.mem_cons_self) ha]

/-- The masks of a strand are written within its part of the context extension. -/
theorem State.get_writeMasks (s : State) (t : Strand) (ext : Nat) {a : Nat}
    (h : a < extPart ext t.q t.id.tid ∨ extPart ext t.q t.id.tid + 57344 * t.q ≤ a) :
    Memory.get (s.writeMasks t ext).mem a = Memory.get s.mem a := by
  unfold State.writeMasks
  refine List.foldlRecOn (motive := fun m => Memory.get m a = Memory.get s.mem a) _ _ rfl fun m hm i hi => ?_
  have hi7 : i ≤ 6 := Nat.lt_succ_iff.1 (List.mem_range.1 hi)
  have hle : i * 8192 * t.q ≤ 6 * 8192 * t.q := Nat.mul_le_mul_right _ (Nat.mul_le_mul_right _ hi7)
  rw [Memory.get_replace_other _ _ (by omega), hm]

/-! ## What a save leaves -/

/-- `w` differs from `s` in memory, the vault and what the supervisor is told. -/
def State.Spills (s w : State) : Prop :=
  w = { s with mem := w.mem, vault := w.vault, vaultMem := w.vaultMem, spillNext := w.spillNext, reports := w.reports }

theorem State.spill_spills (s : State) (h : BitVec 16) : s.Spills (s.spill h) := by
  unfold State.spill State.Spills
  dsimp only
  split
  · rfl
  · rfl

theorem State.Spills.trans {s w u : State} (h : s.Spills w) (k : w.Spills u) : s.Spills u := by
  unfold State.Spills at *
  rw [k, h]

theorem State.spills_spills (s : State) (l : List (BitVec 16)) : s.Spills (l.foldl State.spill s) :=
  List.foldlRecOn (motive := s.Spills) l State.spill rfl fun w h x _ => h.trans (w.spill_spills x)

theorem State.saveStrands_spills (s : State) (ext : Nat) (l : List (Strand × Record)) :
    s.Spills (l.foldl (fun (a : State) x => a.saveStrand ext x) s) :=
  List.foldlRecOn (motive := s.Spills) l (fun (a : State) x => a.saveStrand ext x) rfl fun _ h _ _ => h.trans rfl

theorem State.saveStrands_vault (s : State) (ext : Nat) (l : List (Strand × Record)) :
    (l.foldl (fun (a : State) x => a.saveStrand ext x) s).vault = s.vault :=
  List.foldlRecOn (motive := fun (w : State) => w.vault = s.vault) l (fun (a : State) x => a.saveStrand ext x) rfl
    fun _ h _ _ => h

theorem State.endStrands_frame (s : State) (l : List Strand) :
    l.foldl (fun (a : State) t => a.endStrand t.id.sid) s
      = { s with svcs := (l.foldl (fun (a : State) t => a.endStrand t.id.sid) s).svcs } :=
  List.foldlRecOn (motive := fun (w : State) => w = { s with svcs := w.svcs }) l
    (fun (a : State) t => a.endStrand t.id.sid) rfl fun w h x _ => by
      rw [h]
      rfl

/-- Whether a gang has a context in the vault parts. -/
def State.unspilled (s : State) (h : BitVec 16) : Bool :=
  s.vault.any fun x => x.handle == h && !x.spilled

theorem State.vault_spill (s : State) (h : BitVec 16) :
    (s.spill h).vault = s.vault.map fun v => if v.handle = h ∧ s.unspilled h = true then { v with spilled := true } else v := by
  unfold State.spill
  dsimp only
  by_cases hu : s.unspilled h = true
  · have hne : (s.vault.filter fun v => v.handle == h && !v.spilled).isEmpty = false := by
      rw [List.isEmpty_eq_false_iff, Ne, List.filter_eq_nil_iff]
      intro hk
      obtain ⟨x, hx, hp⟩ := List.any_eq_true.1 hu
      exact hk x hx hp
    rw [hne, if_neg Bool.false_ne_true]
    refine List.map_congr_left fun v _ => if_congr ?_ rfl rfl
    simp [hu]
  · have hem : (s.vault.filter fun v => v.handle == h && !v.spilled).isEmpty = true := by
      rw [List.isEmpty_iff, List.filter_eq_nil_iff]
      intro x hx hp
      exact hu (List.any_eq_true.2 ⟨x, hx, hp⟩)
    rw [if_pos hem]
    exact ((List.map_congr_left fun v _ => if_neg fun k => hu k.2).trans (List.map_id _)).symm

/-- Each context spilled is marked so; the others stand. -/
theorem State.vault_spills (l : List (BitVec 16)) (s : State) :
    (l.foldl State.spill s).vault
      = s.vault.map fun v => if v.handle ∈ l ∧ s.unspilled v.handle = true then { v with spilled := true } else v := by
  induction l generalizing s with
  | nil => simp
  | cons h l ih =>
    have hun (k : BitVec 16) (hk : k ≠ h) : (s.spill h).unspilled k = s.unspilled k := by
      rw [State.unspilled, State.vault_spill, List.any_map]
      refine congrArg s.vault.any (funext fun v => ?_)
      simp only [Function.comp]
      by_cases hv : v.handle = h
      · have hne : (v.handle == k) = false := by simpa [hv] using fun e => hk e.symm
        split <;> simp [hne]
      · rw [if_neg fun e => hv e.1]
    rw [List.foldl_cons, ih, State.vault_spill, List.map_map]
    refine List.map_congr_left fun v _ => ?_
    simp only [Function.comp]
    by_cases hv : v.handle = h
    · by_cases hu : s.unspilled h = true
      · rw [if_pos (c := v.handle = h ∧ s.unspilled h = true) ⟨hv, hu⟩, if_pos (c := v.handle ∈ h :: l ∧ _) ⟨by simp [hv], by rw [hv]; exact hu⟩]
        exact ite_self _
      · have hsame : (s.spill h).vault = s.vault := by
          rw [State.vault_spill]
          exact (List.map_congr_left fun v _ => if_neg fun k => hu k.2).trans (List.map_id _)
        rw [if_neg (c := v.handle = h ∧ s.unspilled h = true) fun k => hu k.2, State.unspilled, hsame, hv]
        exact (if_neg fun k => hu k.2).trans (if_neg fun k => hu k.2).symm
    · rw [if_neg (c := v.handle = h ∧ s.unspilled h = true) fun k => hv k.1, hun _ hv]
      refine if_congr ?_ rfl rfl
      simp [hv]

/-- What a save writes: contexts in the way are spilled, then each strand's record, context and masks. -/
def State.written (s : State) (g : Gang) : State :=
  ((s.strands.filter fun t => t.id.handle == g.handle).map fun t =>
    (t, s.saveRecord t ((s.copiesOf t.id.sid).map CopyOp.rem))).foldl
      (fun a x => a.saveStrand (bindExt g.bind) x) ((s.contextsIn (s.slotsOf g)).foldl State.spill s)

/-- The state with a gang in the vault. -/
def State.stored (s : State) (g : Gang) : State :=
  let mine := s.strands.filter fun t => t.id.handle == g.handle
  let s2 := mine.foldl (fun (a : State) t => a.endStrand t.id.sid) ((s.written g).vacateSlots (s.slotsOf g))
  let s3 : State := { s2 with
    strands := s2.strands.filter fun t => t.id.handle != g.handle
    copies := s2.copies.filter fun c => !c.owner.any fun o => (mine.map fun t => t.id.sid).contains o
    mem := mine.foldl (fun m t => dropSlab m t.id) s2.mem
    vault := s2.vault ++ (mine.map fun t => (t, s.saveRecord t ((s.copiesOf t.id.sid).map CopyOp.rem))).map fun x =>
      ⟨g.handle, x.1.slotIds, false, x.1.saved, x.2⟩
    saves := s2.saves.filter fun v => v.handle != g.handle
    reports := s2.reports ++ [.saved g.handle] }
  (s3.setGang g.handle fun x => { x with state := .saved }).countVacates g.handle 1

theorem ofNat_toNat_handle (g : Gang) : BitVec.ofNat 16 g.handle.toNat = g.handle := by simp

theorem exec_saveComplete {s : State} {g : Gang} (hg : s.gang g.handle = some g) (hr : s.saveReady g = true) :
    exec (.saveComplete g.handle.toNat) s = .next (s.stored g).reportVacates := by
  show execSaveComplete g.handle.toNat s = _
  unfold execSaveComplete
  rw [ofNat_toNat_handle]
  simp only [hg]
  rw [if_neg (by simp [hr])]
  rfl

theorem State.written_spills (s : State) (g : Gang) : s.Spills (s.written g) :=
  (s.spills_spills _).trans (State.saveStrands_spills _ _ _)

theorem State.ended_frame (s : State) (g : Gang) (l : List Strand) :
    l.foldl (fun (a : State) t => a.endStrand t.id.sid) ((s.written g).vacateSlots (s.slotsOf g))
      = { s.written g with
          svcs := (l.foldl (fun (a : State) t => a.endStrand t.id.sid) ((s.written g).vacateSlots (s.slotsOf g))).svcs
          slots := ((s.written g).vacateSlots (s.slotsOf g)).slots } := by
  rw [State.endStrands_frame, State.vacateSlots_frame]

theorem State.stored_strands (s : State) (g : Gang) :
    (s.stored g).strands = s.strands.filter fun t => t.id.handle != g.handle := by
  show (_ : State).strands.filter _ = _
  rw [State.ended_frame, State.written_spills s g]

theorem State.stored_gangs (s : State) (g : Gang) :
    (s.stored g).gangs = updWhere s.gangs (fun x => x.handle == g.handle) fun x => { x with state := .saved } := by
  show updWhere (_ : State).gangs _ _ = _
  rw [State.ended_frame, State.written_spills s g]

theorem State.stored_slots (s : State) (g : Gang) : (s.stored g).slots = ((s.written g).vacateSlots (s.slotsOf g)).slots := by
  show ((s.strands.filter fun t => t.id.handle == g.handle).foldl (fun (a : State) t => a.endStrand t.id.sid)
    ((s.written g).vacateSlots (s.slotsOf g))).slots = _
  rw [State.ended_frame]

theorem State.stored_vault (s : State) (g : Gang) :
    (s.stored g).vault = (s.written g).vault ++ (s.strands.filter fun t => t.id.handle == g.handle).map fun t =>
      ⟨g.handle, t.slotIds, false, t.saved, s.saveRecord t ((s.copiesOf t.id.sid).map CopyOp.rem)⟩ := by
  show (_ : State).vault ++ _ = _
  rw [State.ended_frame, List.map_map]
  rfl

theorem State.stored_mem (s : State) (g : Gang) :
    (s.stored g).mem = (s.strands.filter fun t => t.id.handle == g.handle).foldl (fun m t => dropSlab m t.id) (s.written g).mem := by
  show List.foldl _ (_ : State).mem _ = _
  rw [State.ended_frame]

theorem State.written_vault (s : State) (g : Gang) :
    (s.written g).vault = ((s.contextsIn (s.slotsOf g)).foldl State.spill s).vault :=
  State.saveStrands_vault _ _ _

/-- The gangs whose contexts a save spills are those with one in the vault parts of its quarters. -/
theorem State.mem_contextsIn (s : State) (slots : List Nat) (h : BitVec 16) :
    h ∈ s.contextsIn slots ↔ ∃ x ∈ s.vault, x.handle = h ∧ x.spilled = false ∧ ∃ k ∈ x.slots, k ∈ slots := by
  rw [State.contextsIn, List.mem_eraseDups, List.mem_map]
  simp only [List.mem_filter, Bool.and_eq_true, Bool.not_eq_true', List.any_eq_true, List.contains_iff_mem]
  exact ⟨fun ⟨x, ⟨hx, hs, hk⟩, hh⟩ => ⟨x, hx, hh, hs, hk⟩, fun ⟨x, hx, hh, hs, hk⟩ => ⟨x, ⟨hx, hs, hk⟩, hh⟩⟩

theorem State.mem_written_vault (s : State) (g : Gang) {v : Saved} (hv : v ∈ s.vault) :
    (if ∃ x ∈ s.vault, x.handle = v.handle ∧ x.spilled = false ∧ ∃ k ∈ x.slots, k ∈ s.slotsOf g then { v with spilled := true } else v)
      ∈ (s.written g).vault := by
  rw [State.written_vault, State.vault_spills]
  refine List.mem_map.2 ⟨v, hv, if_congr ?_ rfl rfl⟩
  rw [State.mem_contextsIn, State.unspilled, List.any_eq_true]
  refine ⟨fun h => h.1, fun h => ⟨h, ?_⟩⟩
  obtain ⟨x, hx, hh, hs, -⟩ := h
  exact ⟨x, hx, by simp [hh, hs]⟩

/-- A strand that has not trapped is saved with a record without a cause. -/
theorem State.saveRecord_running (s : State) {t : Strand} (h : t.status ≠ .trapped) (rems : List Remainder) :
    ∃ epr perf, s.saveRecord t rems = t.recordOf ⟨.none, 0, t.waitValue, 0, false, 0⟩ (s.pcNext t) t.viq epr perf rems := by
  unfold State.saveRecord
  split
  · contradiction
  · split
    rename_i epr perf _
    exact ⟨epr, perf, rfl⟩

/-- A save with no context in the vault writes only the masks of its strands. -/
theorem State.get_written {s : State} {g : Gang} (hv : s.vault = []) {a : Nat}
    (h : ∀ t ∈ s.strands, t.id.handle = g.handle →
      a < extPart (bindExt g.bind) t.q t.id.tid ∨ extPart (bindExt g.bind) t.q t.id.tid + 57344 * t.q ≤ a) :
    Memory.get (s.written g).mem a = Memory.get s.mem a := by
  have hc : s.contextsIn (s.slotsOf g) = [] := by
    rw [State.contextsIn, hv]
    rfl
  unfold State.written
  rw [hc, List.foldl_nil]
  refine List.foldlRecOn (motive := fun (w : State) => Memory.get w.mem a = Memory.get s.mem a) _
    (fun (b : State) x => b.saveStrand (bindExt g.bind) x) rfl fun w hw x hx => ?_
  obtain ⟨t, ht, rfl⟩ := List.mem_map.1 hx
  obtain ⟨hm, hh⟩ := List.mem_filter.1 ht
  exact (State.get_writeMasks _ _ _ (h t hm (by simpa using hh))).trans hw

theorem State.saveComplete_gone {s : State} {g : Gang} : GangGone s (s.stored g).reportVacates g 0 := by
  refine gangGone_of ?_ fun hr n hn => ?_
  · rw [State.reportVacates_strands, State.stored_strands]
  · rw [State.slot_congr (State.reportVacates_slots _), State.slot_congr (State.stored_slots s g)]
    refine State.slotState_vacateSlots _ ?_ hn
    rw [State.written_spills s g]
    exact hr

/-! ## Saves abandoned -/

theorem requeued_congr {s s' w : State} {g : Gang} (h : Requeued s' w g) (hs : s'.strands = s.strands) (hsl : s'.slots = s.slots)
    (hm : s'.mem = s.mem) (hc : s'.cards = s.cards) : Requeued s w g := by
  obtain ⟨hgone, hmem, hgang, hcards⟩ := h
  exact ⟨gangGone_congr hgone hs hsl (State.sizeOf_congr rfl hc), hmem.trans hm, hgang, hc ▸ hcards⟩

theorem failed_congr {s s' w : State} {g : Gang} {status : Nat} (h : Failed s' w g status) (hs : s'.strands = s.strands)
    (hsl : s'.slots = s.slots) (hm : s'.mem = s.mem) (hc : s'.cards = s.cards) : Failed s w g status := by
  obtain ⟨hgone, hmem, hgang, hcards⟩ := h
  exact ⟨gangGone_congr hgone hs hsl (State.sizeOf_congr rfl hc), hmem.trans hm, hgang, hcards.trans hc⟩

theorem State.discardOrKill_of {s : State} {g : Gang} (hg : s.gang g.handle = some g) (hn : NoneHeld s) :
    if s.rerunnable g then Requeued s (s.discardOrKill g.handle) g else Failed s (s.discardOrKill g.handle) g 4 := by
  unfold State.discardOrKill
  simp only [hg]
  split
  · exact requeued_congr (State.requeueGang_requeued (s := s.countVacates g.handle 2) hg hn) rfl rfl rfl rfl
  · exact failed_congr (State.failGang_failed (s := s.countVacates g.handle 3) hg hn 4) rfl rfl rfl rfl

theorem State.saveExpired_iff (s : State) (v : Save) : s.saveExpired v = true ↔ 600000 ≤ 5 * (s.tick - v.since)
    ∨ ∃ x ∈ s.vacates, x.reported = false ∧ (∃ y ∈ x.gangs, y.1 = v.handle) ∧ x.deadline ≤ s.timeNs.toNat + 2000 := by
  simp [State.saveExpired, List.any_eq_true, and_assoc]

end Sys2Proof.Machine

open Sys2Proof Sys2Proof.Machine

theorem gangSaves : GangSaves := by
  refine ⟨fun s g hg hr he => ?_, fun s g hg hr => ?_⟩
  · refine ⟨s.startSave g.handle, ?_, State.startSave_started hg hr he⟩
    show execSaveGang g.handle.toNat s = _
    rw [execSaveGang, ofNat_toNat_handle]
  refine ⟨_, exec_saveComplete hg hr, State.saveComplete_gone, ?_, fun t ht hh => ?_, fun v hv => ?_, fun hv hc a ha h => ?_⟩
  · have hk : (s.stored g).reportVacates.gangs = updWhere s.gangs (fun x => x.handle == g.handle) fun x => { x with state := .saved } := by
      rw [State.reportVacates_gangs, State.stored_gangs]
    rw [State.gang_updWhere hk fun _ => rfl, hg]
    simp
  · refine ⟨⟨g.handle, t.slotIds, false, t.saved, s.saveRecord t ((s.copiesOf t.id.sid).map CopyOp.rem)⟩, ?_, rfl, rfl, rfl, rfl,
      rfl, rfl, rfl, rfl, rfl, rfl, fun hs => ?_⟩
    · rw [State.reportVacates_frame]
      show _ ∈ (s.stored g).vault
      rw [State.stored_vault]
      exact List.mem_append_right _ (List.mem_map.2 ⟨t, List.mem_filter.2 ⟨ht, by simp [hh]⟩, rfl⟩)
    · obtain ⟨epr, perf, hk⟩ := s.saveRecord_running hs ((s.copiesOf t.id.sid).map CopyOp.rem)
      simp only [hk]
      exact ⟨rfl, rfl, rfl, rfl, rfl, rfl, rfl, rfl, rfl⟩
  · rw [State.reportVacates_frame]
    show _ ∈ (s.stored g).vault
    rw [State.stored_vault]
    exact List.mem_append_left _ (s.mem_written_vault g hv)
  · rw [State.reportVacates_mem, State.stored_mem, get_dropSlabs _ _ _ ha, State.get_written hv h]
    intro t ht
    obtain ⟨hm, hh⟩ := List.mem_filter.1 ht
    exact hc t hm (by simpa using hh)

theorem saveTimeouts : SaveTimeouts := by
  intro s g hg _ hn late
  have hex : exec (.saveTimeout g.handle.toNat) s
      = .next (if s.saves.any fun v => v.handle == g.handle && s.saveExpired v then s.discardOrKill g.handle else s) := by
    show execSaveTimeout g.handle.toNat s = _
    rw [execSaveTimeout, ofNat_toNat_handle]
  refine ⟨fun ⟨v, hv, hh, hl⟩ => ⟨s.discardOrKill g.handle, ?_, State.discardOrKill_of hg hn⟩, fun h => ?_⟩
  · rw [hex, if_pos]
    exact List.any_eq_true.2 ⟨v, hv, by simpa [hh] using (s.saveExpired_iff v).2 hl⟩
  · rw [hex, if_neg]
    intro k
    obtain ⟨v, hv, hp⟩ := List.any_eq_true.1 k
    rw [Bool.and_eq_true, beq_iff_eq] at hp
    exact h v hv hp.1 ((s.saveExpired_iff v).1 hp.2)

/-- Settles O55: a save starts by closing convoys, ends by writing its strands to the vault, or is abandoned. -/
theorem gangsAreSaved : Obligations.GangsAreSaved :=
  ⟨gangSaves, saveTimeouts⟩

end

section
/-!
SUPPORT. A vacate recorded, acted on and released.
-/

namespace Sys2Proof.Machine

/-! ## The gang of a target -/

theorem requeued_reportVacates {s w : State} {g : Gang} (h : Requeued s w g) : Requeued s w.reportVacates g := by
  obtain ⟨hgone, hmem, hgang, hcards⟩ := h
  refine ⟨gangGone_after hgone (State.reportVacates_strands w) (State.reportVacates_slots w), ?_, ?_, ?_⟩
  · rw [State.reportVacates_mem, hmem]
  · rw [State.gang, State.reportVacates_gangs]
    exact hgang
  · rw [State.reportVacates_cards]
    exact hcards

theorem failed_reportVacates {s w : State} {g : Gang} {status : Nat} (h : Failed s w g status) :
    Failed s w.reportVacates g status := by
  obtain ⟨hgone, hmem, hgang, hcards⟩ := h
  refine ⟨gangGone_after hgone (State.reportVacates_strands w) (State.reportVacates_slots w), ?_, ?_, ?_⟩
  · rw [State.reportVacates_mem, hmem]
  · rw [State.gang, State.reportVacates_gangs]
    exact hgang
  · rw [State.reportVacates_cards, hcards]

/-- A vacate record as it is noted, before its gangs. -/
def vacateOf (r : BitVec 256) : Vacate :=
  ⟨0, r.extractLsb' 88 4, r.extractLsb' 64 24, fieldNat r 0 64, bitAt r 95, [], [0, 0, 0, 0], false⟩

/-- The state in which the first vacate has been accepted with these decisions. -/
def State.acceptedWith (s : State) (r : BitVec 256) (l : List (BitVec 16 × Decision × Nat)) : State :=
  { s with vacates := [{ vacateOf r with gangs := l }], reports := s.reports ++ [.accepted 0] }

/-- The gangs a vacate record decides. -/
def State.targets (s : State) (r : BitVec 256) : List Gang :=
  s.gangs.filter fun g => !g.failing && (s.slotsOf g).any fun k => s.inTarget (vacateOf r) k

theorem exec_vacateRecord_accepted {s : State} {r : BitVec 256} (hv : s.vacates = []) (hm : s.boot.minimal = false)
    (hd : s.timeNs.toNat + 120000 ≤ fieldNat r 0 64 ∨ bitAt r 95 = true) :
    exec (.vacateRecord r) s = .next ((((s.targets r).map fun g => s.entryFor g (fieldNat r 0 64) s.timeNs.toNat).foldl
      (fun (a : State) x => a.carryOut x.1 x.2.1)
      (s.acceptedWith r ((s.targets r).map fun g => s.entryFor g (fieldNat r 0 64) s.timeNs.toNat))).reportVacates) := by
  have hrej : (decide (fieldNat r 0 64 < s.timeNs.toNat + 120000) && !bitAt r 95) = false := by
    rcases hd with h | h
    · rw [decide_eq_false (by omega)]
      rfl
    · rw [h, Bool.not_true, Bool.and_false]
  show execVacateRecord r s = _
  unfold execVacateRecord
  dsimp only
  rw [hm, hv, if_neg Bool.false_ne_true, hrej]
  rfl

/-- A target with a gang in it is not reported. -/
theorem State.reportVacates_occupied {s : State} {v : Vacate} (hv : s.vacates = [v]) (h : s.targetVacant v = false) :
    s.reportVacates = s := by
  rw [State.reportVacates, hv, List.foldl_cons, List.foldl_nil]
  exact if_pos (by simp [h])

/-- A vacant target is reported. -/
theorem State.reportVacates_vacant {s : State} {v : Vacate} (hv : s.vacates = [v]) (hr : v.reported = false)
    (h : s.targetVacant v = true) (n0 n1 n2 n3 : Nat) (hn : v.counts = [n0, n1, n2, n3]) :
    s.reportVacates.vacates = [{ v with reported := true }]
      ∧ s.reportVacates.reports = s.reports ++ [.vacated v.handle s.time3 n0 n1 n2 n3] := by
  have hstep : s.reportVacates = ({ s with
      vacates := updWhere s.vacates (fun x => x.handle == v.handle) fun x => { x with reported := true }
      reports := s.reports ++ [.vacated v.handle s.time3 n0 n1 n2 n3] } : State).record .talus .vacate (v.handle.setWidth 128) := by
    rw [State.reportVacates, hv, List.foldl_cons, List.foldl_nil, if_neg (by simp [hr, h]), hn, hv]
    rfl
  rw [hstep]
  refine ⟨?_, rfl⟩
  show updWhere s.vacates _ _ = _
  rw [hv]
  simp [updWhere]

/-- The decision for a running gang without an estimate and with nothing of it in the way. -/
theorem State.judge_unestimated {s : State} {g : Gang} {c : Card} (hc : s.cardOf g = some c) (hw : cardWork c.bits = 0)
    (hd : cardDuration c.bits = 0) (slack : Int) (n : Nat) (first : Bool) :
    s.judge g slack n first = if cardRerun c.bits = true then .discard else if (n : Int) ≤ slack then .checkpoint else .kill := by
  unfold State.judge
  simp only [hc, Option.map_some, Option.getD_some, hw, hd]
  cases hr : cardRerun c.bits <;> simp

/-- A gang that may not be run again, with its time for a save just left, is checkpointed. -/
theorem State.judge_late {s : State} {g : Gang} {c : Card} (hc : s.cardOf g = some c) (hr : cardRerun c.bits = false) (n : Nat) :
    s.judge g (n : Int) n false = .checkpoint := by
  unfold State.judge
  simp only [hc, Option.map_some, Option.getD_some, hr, Bool.false_and, Bool.false_eq_true, if_false, le_refl, if_true]

theorem State.entryFor_ended {s : State} {g : Gang} (h : s.allEnded g = true) (d now : Nat) :
    s.entryFor g d now = (g.handle, .run, 2 ^ 64) :=
  if_pos h

/-- The decision for a running gang where no vacate stands and the vault is empty. -/
theorem State.entryFor_running {s : State} {g : Gang} (h : s.allEnded g = false) (hr : g.state = .running) (hv : s.vacates = [])
    (hz : s.vault = []) (d now : Nat) : s.entryFor g d now
      = (g.handle, s.judge g ((d : Int) - now) 70000 true, if d < now + 70000 then 0 else d - 70000) := by
  have hd : s.deadlineOf g.handle d = d := by
    rw [State.deadlineOf, hv]
    rfl
  have hb : s.saveBound g = 70000 := by
    rw [State.saveBound, hz]
    rfl
  unfold State.entryFor
  rw [hd, hb, if_neg (by simp [h]), if_neg (by simp [hr])]

theorem exec_checkpointStart {s : State} {g : Gang} {c : Card} {v : Vacate} {dec : Decision} {at_ : Nat}
    (hg : s.gang g.handle = some g) (hs : g.state = .running) (he : s.allEnded g = false) (hc : s.cardOf g = some c)
    (hv : s.vacates = [v]) (hr : v.reported = false) (hgs : v.gangs = [(g.handle, dec, at_)]) (ht : at_ ≤ s.timeNs.toNat)
    (hdec : dec = .checkpoint ∨ dec = .run ∧ 0 < at_ ∧ cardRerun c.bits = false) :
    exec (.checkpointStart g.handle.toNat) s = .next ((s.setDecision g.handle .checkpoint).startSave g.handle) := by
  have hdue : s.dueDecision g.handle = some (dec, at_) := by
    rw [State.dueDecision, hv, List.filter_cons_of_pos (by simp [hr])]
    rcases hdec with rfl | ⟨rfl, -, -⟩ <;> simp [hgs, ht]
  have hd1 : (if dec = .run then
      (if at_ = 0 then s.judge g ((s.deadlineOf g.handle (2 ^ 64) : Int) - s.timeNs.toNat) (s.saveBound g) false
        else s.judge g ((s.deadlineOf g.handle (2 ^ 64) - at_ : Nat) : Int) (s.deadlineOf g.handle (2 ^ 64) - at_) false)
      else dec) = .checkpoint := by
    rcases hdec with rfl | ⟨rfl, hpos, hre⟩
    · rfl
    · rw [if_pos rfl, if_neg (by omega), State.judge_late hc hre]
  show execCheckpointStart g.handle.toNat s = _
  unfold execCheckpointStart
  rw [ofNat_toNat_handle]
  simp only [hg, hdue]
  rw [if_neg (by simp [hs, he]), hd1]
  simp [hs]

theorem saveStarted_setDecision {s w : State} {g : Gang} {d : Decision} (h : SaveStarted (s.setDecision g.handle d) w g) :
    SaveStarted s w g := by
  obtain ⟨h1, h2, h3, h4⟩ := h
  exact ⟨h1, h2, h3, h4⟩

end Sys2Proof.Machine

open Sys2Proof Sys2Proof.Machine

theorem vacateRecords : VacateRecords := by
  intro s r hv hn d now v accepted
  refine ⟨fun hm => ?_, fun hm hd hf => ?_, fun hm hd => ⟨fun hout => ?_, fun g c hg hc hin => ?_⟩⟩
  · show execVacateRecord r s = _
    unfold execVacateRecord
    dsimp only
    rw [hm]
    rfl
  · show execVacateRecord r s = _
    unfold execVacateRecord
    dsimp only
    rw [hm, hv, hf, if_neg Bool.false_ne_true]
    exact if_pos (by simpa using hd)
  · have ht : s.targets r = [] := by
      refine List.filter_eq_nil_iff.2 fun g hg hk => ?_
      obtain ⟨k, hm, hi⟩ := List.any_eq_true.1 (Bool.and_eq_true_iff.1 hk).2
      exact Bool.noConfusion ((hout g hg k hm).symm.trans hi)
    have hvac : (s.acceptedWith r []).targetVacant (vacateOf r) = true := by
      rw [State.targetVacant, Bool.not_eq_true', List.any_eq_false]
      intro g hg hk
      obtain ⟨k, hm, hi⟩ := List.any_eq_true.1 hk
      exact Bool.noConfusion ((hout g hg k hm).symm.trans hi)
    have hex := exec_vacateRecord_accepted hv hm hd
    rw [ht] at hex
    obtain ⟨hvacs, hreps⟩ := State.reportVacates_vacant (s := s.acceptedWith r []) rfl rfl hvac 0 0 0 0 rfl
    refine ⟨_, hex, hvacs, ?_, ?_, ?_, ?_⟩
    · refine hreps.trans ?_
      show (s.reports ++ [_]) ++ [_] = _
      rw [List.append_assoc]
      rfl
    · exact State.reportVacates_strands _
    · exact State.reportVacates_mem _
    · exact State.reportVacates_gangs _
  have hgang : s.gang g.handle = some g := by
    rw [State.gang, hg]
    simp
  have hany : ((s.slotsOf g).any fun k => s.inTarget (vacateOf r) k) = true := List.any_eq_true.2 hin
  have hex := exec_vacateRecord_accepted hv hm hd
  have hocc (l : List (BitVec 16 × Decision × Nat)) : (s.acceptedWith r l).reportVacates = s.acceptedWith r l := by
    refine State.reportVacates_occupied rfl ?_
    rw [State.targetVacant, Bool.not_eq_false', List.any_eq_true]
    exact ⟨g, by show g ∈ s.gangs; simp [hg], hany⟩
  have hone (hf : g.failing = false) : s.targets r = [g] := by
    rw [State.targets, hg, List.filter_cons_of_pos (by rw [hf, hany]; rfl)]
    rfl
  have hrun (h : g.state = .running) : g.failing = false := by
    rw [Gang.failing, h]
  refine ⟨fun hf => ?_, fun hr he => ?_, fun hr he hw hdur hz => ?_⟩
  · have ht : s.targets r = [] := by
      rw [State.targets, hg, List.filter_cons_of_neg (by simp [hf])]
      rfl
    rw [hex, ht]
    exact congrArg Host.Outcome.next (hocc [])
  · rw [hex, hone (hrun hr), List.map_cons, List.map_nil, State.entryFor_ended he]
    exact congrArg Host.Outcome.next (hocc _)
  · rw [hone (hrun hr), List.map_cons, List.map_nil, State.entryFor_running he hr hv hz, State.judge_unestimated hc hw hdur] at hex
    refine ⟨fun hre => ?_, fun hre hle => ?_, fun hre hlt => ?_⟩
    · rw [if_pos hre] at hex
      exact ⟨_, hex, requeued_reportVacates (requeued_congr (State.requeueGang_requeued hgang hn) rfl rfl rfl rfl)⟩
    · rw [if_neg (by simp [hre]), if_pos (by omega), if_neg (by omega)] at hex
      rw [hex]
      exact congrArg Host.Outcome.next (hocc _)
    · rw [if_neg (by simp [hre]), if_neg (by omega)] at hex
      exact ⟨_, hex, failed_reportVacates (failed_congr (State.failGang_failed (s := (s.acceptedWith r _).countVacates g.handle 3) hgang hn 4) rfl rfl rfl rfl)⟩

theorem vacateSteps : VacateSteps := by
  refine ⟨fun s g c v dec at_ hg hs he hc hv hr hgs ht hdec => ?_, fun s v rest n0 n1 n2 n3 hv hne hn => ?_⟩
  · exact ⟨_, exec_checkpointStart hg hs he hc hv hr hgs ht hdec,
      saveStarted_setDecision (State.startSave_started (s := s.setDecision g.handle .checkpoint) hg hs he)⟩
  · have hfind : s.vacates.find? (fun x => x.handle == v.handle) = some v := by
      rw [hv]
      simp
    have hrest : s.vacates.filter (fun x => x.handle != v.handle) = rest := by
      rw [hv, List.filter_cons_of_neg (by simp)]
      exact List.filter_eq_self.2 fun x hx => by simpa using hne x hx
    show ∃ s', execVacateRelease v.handle s = .next s' ∧ _
    unfold execVacateRelease
    simp only [hfind, hrest, hn]
    refine ⟨_, rfl, ?_⟩
    split
    · exact ⟨rfl, (List.append_nil _).symm, rfl, rfl, rfl⟩
    · exact ⟨rfl, rfl, rfl, rfl, rfl⟩

/-- Settles O56: a vacate is rejected or decides its gangs; its decisions are acted on; it is released. -/
theorem vacatingATarget : Obligations.VacatingATarget :=
  ⟨vacateRecords, vacateSteps⟩

end

section
/-!
SUPPORT. Accesses of the host's window, links of the ridge.
-/

namespace Sys2Proof.Machine

/-! ## Lines that stand -/

/-- A key's value put again. -/
theorem Cells.put_find {α : Type} {l : List (Nat × α)} (h : Cells.rising l = true) {a : Nat} {v : α} (hf : Cells.find l a = some v) :
    Cells.put l a (some v) = l := by
  induction l with
  | nil => cases hf
  | cons x l ih =>
    obtain ⟨hlt, hr⟩ := (Cells.rising_cons x l).1 h
    obtain ⟨k, w⟩ := x
    rw [Cells.find] at hf
    by_cases hk : k = a
    · rw [if_pos hk] at hf
      cases hf
      subst hk
      rw [Cells.put, if_neg (Nat.lt_irrefl _), if_pos rfl]
    · rw [if_neg hk] at hf
      have hka : k < a := by
        by_contra hc
        rw [Cells.find_below fun y hy => lt_of_le_of_lt (Nat.le_of_not_lt hc) (hlt y hy)] at hf
        cases hf
      rw [Cells.put, if_neg (by omega), if_neg (Ne.symm hk), ih hr hf]

/-- A write to a plain line leaves the states of lines. -/
theorem State.lines_writeHome {s : State} (hm : s.memOk) {h : Nat}
    (hp : hasLines (homeAttr h) = true → s.lineState (lineOf h) = some .plain) (bs : List Byte) :
    (s.writeHome h bs).lines = s.lines := by
  unfold State.writeHome
  dsimp only
  split
  · rename_i hl
    exact Cells.put_find hm.2 (hp hl)
  · rfl

/-! ## The host's window -/

theorem State.hdmAddr_some {s : State} {addr n a : Nat} (h : s.hdmAddr addr n = some a) :
    ∃ d ∈ s.hdm, d.2.base ≤ addr ∧ addr + n ≤ d.2.base + d.2.size ∧ a = d.2.paddr + (addr - d.2.base) := by
  obtain ⟨d, hd, rfl⟩ := Option.map_eq_some_iff.1 h
  have hp := List.find?_some hd
  simp only [Bool.and_eq_true, decide_eq_true_eq] at hp
  exact ⟨d, List.mem_of_find?_eq_some hd, hp.1, hp.2, rfl⟩

theorem State.hdmAddr_none {s : State} {addr n : Nat}
    (h : ∀ d ∈ s.hdm, addr < d.2.base ∨ d.2.base + d.2.size < addr + n) : s.hdmAddr addr n = none := by
  rw [State.hdmAddr, Option.map_eq_none_iff, List.find?_eq_none]
  intro d hd hk
  simp only [Bool.and_eq_true, decide_eq_true_eq] at hk
  rcases h d hd with h | h <;> omega

/-- A byte of the window that answers. -/
theorem State.hostHome_answers {s : State} {a b : Nat} (hb : HostByte s a (homeByte attrLoc 0 b)) (need : Need) (whole : Bool) :
    s.hostHome (keyAt a) b need whole = .ok (homeByte attrLoc 0 b) s := by
  obtain ⟨hattr, hplain, hoff, hunr, hsoft, hturn⟩ := hb
  have hclosed : s.closed (lineOf (homeByte attrLoc 0 b)) = false := by
    rw [State.closed, hoff, hunr]
    rfl
  have hchase : s.hostChase (keyAt a) need 4 none (homeByte attrLoc 0 b) = .ok (homeByte attrLoc 0 b) s := by
    rw [State.hostChase]
    dsimp only
    rw [hclosed, if_neg Bool.false_ne_true, hplain]
    exact if_pos (by simp)
  have hhome : s.atHome (hostCtx (keyAt a) 0) 0 ⟨homeByte attrLoc 0 b, 0, 0, homeAttr (homeByte attrLoc 0 b),
      s.lineState (lineOf (homeByte attrLoc 0 b))⟩ need whole
      = .ok ⟨homeByte attrLoc 0 b, 0, 0, homeAttr (homeByte attrLoc 0 b), s.lineState (lineOf (homeByte attrLoc 0 b))⟩ s := by
    have hbehind : s.behindRequest (hostCtx (keyAt a) 0).who (lineOf (homeByte attrLoc 0 b)) = false := rfl
    have hwait : s.waitsTurn (hostCtx (keyAt a) 0).who (lineOf (homeByte attrLoc 0 b)) = false := hturn
    unfold State.atHome
    dsimp only
    rw [hsoft, hbehind, hwait, Bool.false_and, Bool.false_or, Bool.and_false, if_neg Bool.false_ne_true, if_neg Bool.false_ne_true,
      hclosed, if_neg Bool.false_ne_true, hplain]
    exact ite_self _
  rw [State.hostHome, hchase]
  dsimp only [Res.bind]
  rw [hhome]

theorem homeByte_add (a i : Nat) : homeByte attrLoc 0 a + i = homeByte attrLoc 0 (a + i) := by
  simp only [homeByte]
  omega

/-- A read of bytes that answer. -/
theorem State.hostRead_answers {s : State} {a : Nat} (n b : Nat) (h : ∀ i < n, HostByte s a (homeByte attrLoc 0 (b + i))) :
    s.hostRead (keyAt a) n b = .ok (Memory.bytes s.mem (homeByte attrLoc 0 b) n) s := by
  induction n generalizing b with
  | zero => rfl
  | succ n ih =>
    have h0 := h 0 (by omega)
    rw [Nat.add_zero] at h0
    rw [State.hostRead, State.hostHome_answers h0]
    dsimp only [Res.bind, Res.orElse]
    rw [ih (b + 1) fun i hi => by
      rw [Nat.add_right_comm, Nat.add_assoc]
      exact h (i + 1) (by omega)]
    show Res.ok _ s = _
    rw [Memory.bytes, homeByte_add]

/-- A write within a line that answers. -/
theorem State.hostWrite_answers {s : State} {a : Nat} {data : List Byte} (h1 : 1 ≤ data.length) (hl : a % 128 + data.length ≤ 128)
    (hb : HostByte s a (homeByte attrLoc 0 a)) :
    s.hostWrite (keyAt a) (data.length + 1) a data = .ok () (s.hostStore (homeByte attrLoc 0 a) data) := by
  have hn : min data.length (128 - a % 128) = data.length := by omega
  have hne : data.isEmpty = false := by
    cases data with
    | nil => simp at h1
    | cons => rfl
  obtain ⟨k, hk⟩ := Nat.exists_eq_add_of_le h1
  rw [State.hostWrite]
  dsimp only
  rw [hne, if_neg Bool.false_ne_true, hn, State.hostHome_answers hb, List.take_length, List.drop_length]
  dsimp only [Res.bind, Res.orElse]
  rw [hk, Nat.add_comm 1 k, State.hostWrite]
  rfl

theorem leBytes_leNat (bs : List Byte) : leBytes bs.length (leNat bs) = bs := by
  induction bs with
  | nil => rfl
  | cons b bs ih =>
    have hb := b.isLt
    rw [List.length_cons, leBytes, leNat]
    congr 1
    · apply BitVec.eq_of_toNat_eq
      simp only [BitVec.toNat_ofNat]
      omega
    · have : (b.toNat + 256 * leNat bs) / 256 = leNat bs := by omega
      rw [this, ih]

theorem Memory.leBytes_read (m : List Host.Cell) (a n : Nat) : leBytes n (Memory.read m a n) = Memory.bytes m a n := by
  have h := leBytes_leNat (Memory.bytes m a n)
  rw [Memory.length_bytes] at h
  exact h

/-- A completer AtomicOp on an aligned word that answers. -/
theorem exec_atomicop {s : State} {addr a : Nat} {op : AmoOp} {wide : Bool} (ha : s.hdmAddr addr (if wide then 8 else 4) = some a)
    (hok : amoHostOk op = true) (hal : addr % (if wide then 8 else 4) = 0) (hb : HostByte s a (homeByte attrLoc 0 a)) (x cmp : Word) :
    exec (.atomicopAsCompleter addr op wide x cmp) s = .next
      { ((s.outsideDone (keyAt a)).amoAt (homeByte attrLoc 0 a) op (if wide then 8 else 4) x.toNat cmp.toNat).2 with
        completion := .success
        hostReply := leBytes (if wide then 8 else 4) (Memory.read s.mem (homeByte attrLoc 0 a) (if wide then 8 else 4)) } := by
  show execAtomicopAsCompleter addr op wide x cmp s = _
  unfold execAtomicopAsCompleter
  dsimp only
  rw [ha]
  dsimp only
  rw [if_neg (by simp [hok, hal]), State.hostHome_answers hb]
  rfl

theorem exec_atomicop_refused (s : State) {addr : Nat} {op : AmoOp} {wide : Bool}
    (h : amoHostOk op = false ∨ addr % (if wide then 8 else 4) ≠ 0) (x cmp : Word) :
    exec (.atomicopAsCompleter addr op wide x cmp) s = .next s.unsupported := by
  show execAtomicopAsCompleter addr op wide x cmp s = _
  unfold execAtomicopAsCompleter
  dsimp only
  split
  · rfl
  · exact if_pos (by rcases h with h | h <;> simp [h])

/-! ## Ridge links -/

/-- Routes written one by one: the last of a peer stands. -/
theorem routes_foldl (l : List (BitVec 6 × BitVec 4)) (v : Vector (BitVec 4) 64) (hn : (l.map Prod.fst).Nodup) (p : BitVec 6) :
    (l.foldl (fun v r => v.set r.1.toNat r.2) v)[p.toNat]'p.isLt
      = ((l.find? fun r => r.1 == p).map Prod.snd).getD (v[p.toNat]'p.isLt) := by
  induction l generalizing v with
  | nil => rfl
  | cons x l ih =>
    rw [List.map_cons, List.nodup_cons] at hn
    rw [List.foldl_cons, ih _ hn.2, List.find?_cons]
    by_cases hx : x.1 = p
    · have hno : l.find? (fun r => r.1 == p) = none := by
        rw [List.find?_eq_none]
        intro y hy hk
        exact hn.1 (List.mem_map.2 ⟨y, hy, by simpa [hx] using hk⟩)
      subst hx
      rw [hno]
      simp
    · have hne : x.1.toNat ≠ p.toNat := fun k => hx (BitVec.eq_of_toNat_eq k)
      have hb : (x.1 == p) = false := by simpa using hx
      rw [hb]
      dsimp only
      rw [Vector.getElem_set_ne _ _ hne]

end Sys2Proof.Machine

open Sys2Proof Sys2Proof.Machine

theorem hostWindow : HostWindow := by
  intro s hm refused
  have hunsupported (addr n : Nat) (h : s.hdmAddr addr n = none) : refused (.hostHdmRead addr n) := by
    show execHostHdmRead addr n s = _
    rw [execHostHdmRead, h]
    rfl
  refine ⟨fun addr n a h => State.hdmAddr_some h, ?_, ?_, ?_, ?_⟩
  · intro addr a data ha h1 hl h hb
    have hex : exec (.hostHdmWrite addr data) s
        = .next { (s.hostStore h data).outsideDone (keyAt a) with completion := .success } := by
      show execHostHdmWrite addr data s = _
      rw [execHostHdmWrite, ha]
      dsimp only
      rw [State.hostWrite_answers h1 hl hb]
      rfl
    have hf := s.writeHome_frame h data
    refine ⟨_, hex, rfl, ?_, fun b hlt => ?_, ?_, ?_⟩
    · show Memory.bytes (s.writeHome h data).mem h data.length = data
      rw [State.writeHome_mem]
      exact Memory.bytes_fill hm.1 h data
    · show Memory.get (s.writeHome h data).mem b = _
      rw [State.writeHome_mem]
      exact Memory.get_fill_other _ _ _ hlt
    · exact State.lines_writeHome hm (fun _ => hb.2.1) data
    · show (s.writeHome h data).strands = _
      rw [hf]
  · intro addr a n ha hb
    show execHostHdmRead addr n s = _
    rw [execHostHdmRead, ha]
    dsimp only
    rw [State.hostRead_answers n a fun i hi => by rw [← homeByte_add]; exact hb i hi]
    rfl
  · intro addr n data h
    refine ⟨hunsupported addr n (State.hdmAddr_none h), fun hlen => ?_⟩
    show execHostHdmWrite addr data s = _
    rw [execHostHdmWrite, State.hdmAddr_none (n := data.length) (by rw [hlen]; exact h)]
    rfl
  · intro addr a op wide x cmp n h
    refine ⟨fun ha hop hal hb => ?_, fun hbad => ?_⟩
    · have hok : amoHostOk op = true := by rcases hop with rfl | rfl | rfl <;> rfl
      refine ⟨_, exec_atomicop ha hok hal hb x cmp, rfl, Memory.leBytes_read s.mem h n, ?_, fun b hlt => ?_,
        State.lines_writeHome (s := s.outsideDone (keyAt a)) hm (fun _ => hb.2.1) _⟩
      · show Memory.read ((s.outsideDone (keyAt a)).writeHome h (leBytes n (amoNew op n (Memory.read s.mem h n) x.toNat cmp.toNat))).mem h n = _
        rw [State.writeHome_mem, amoNew_eq_atomicNew]
        exact (Memory.read_write_same hm.1 h n _).trans (Nat.mod_eq_of_lt (atomicNew_lt op (Memory.read_lt ..) _ _))
      · show Memory.get ((s.outsideDone (keyAt a)).writeHome h (leBytes n _)).mem b = _
        rw [State.writeHome_mem]
        exact Memory.get_fill_other _ _ _ (by rw [length_leBytes]; exact hlt)
    · refine exec_atomicop_refused s (hbad.imp_left fun hop => ?_) x cmp
      cases op with
      | add | swp | cas => simp at hop
      | and | or | xor | min | max | minN | maxN => rfl

theorem ridgeLinks : RidgeLinks := by
  intro s link routes
  refine ⟨rfl, _, rfl, rfl, fun i hi => ?_, fun hn p => routes_foldl routes s.routes hn p⟩
  show (s.linkUp &&& ~~~(1#16 <<< link)).getLsbD i = _
  rw [BitVec.getLsbD_and, BitVec.getLsbD_not, decide_eq_true hi, Bool.true_and, BitVec.getLsbD_shiftLeft, BitVec.getLsbD_one,
    decide_eq_true hi]
  by_cases hl : i = link
  · subst hl
    simp
  · have hne : i < link ∨ i - link ≠ 0 := by omega
    rcases hne with h | h <;> simp [h, hl]

/-- Settles O58: the host's window reaches plain lines at their home; links fail and routes are written. -/
theorem hostAndLinks : Obligations.HostAndLinks :=
  ⟨hostWindow, ridgeLinks⟩

end

section
/-!
SUPPORT. An engine that waits for its turn at one line and reads another loses its place: a counterexample to O59.
-/

namespace Sys2Proof.Machine

/-- A page of the host of address space 1 at addresses 0 to 0xFFFF. -/
def turnPage : TlbEntry := ⟨1, 0, 0x10000, 0x100FF⟩

/-- The home byte of address 0 in that page. -/
def turnHome : Nat := homeByte attrHost 0 0x10000

/-- A running pair of address space 1 with one send entry, at address 0x100. -/
def turnPair : Qp := ⟨5, BitVec.ofNat 512 (0x100 * 2 ^ 448 + 2 ^ 82 + 2 ^ 64), 0, 1, 0, 0, none⟩

/-- A SEND of the byte at address 0x400. -/
def turnEntry : BitVec 512 := BitVec.ofNat 512 (1 + 2 ^ 32 + 0x400 * 2 ^ 64)

/-- The engine (key 0) waits at the line of address 0x400 since beat 0, another access (key 1) since beat 5. -/
def lateTurn : State :=
  { State.reset with
    tlb := [turnPage]
    mem := [(turnHome + 0x100, 1), (turnHome + 0x104, 1), (turnHome + 0x109, 4)]
    qps := [turnPair]
    tick := 10
    outHeld := [(0, lineOf (turnHome + 0x400), 0), (1, lineOf (turnHome + 0x400), 5)] }

theorem lateTurn_turn (l : Nat) : lateTurn.waitsTurn (.outside 0) l = false := by
  by_cases h : lineOf (turnHome + 0x400) = l
  · simp [State.waitsTurn, State.heldSince, State.heldBefore, lateTurn, State.reset, h]
  · simp [State.waitsTurn, State.heldSince, State.heldBefore, lateTurn, State.reset, h]

theorem lateTurn_at {x : Nat} (hx : x < 0x1000) : OutsideAt lateTurn 1 (BitVec.ofNat 64 x) 1 .read (turnHome + x) := by
  have hv : va52 (BitVec.ofNat 64 x) = x := by
    rw [va52, BitVec.toNat_ofNat]
    omega
  have hp : pteAddr turnPage.pte = 0x10000 ∧ pteAttr turnPage.pte = attrHost := by decide
  have hhome : turnHome + x = entryHome turnPage (va52 (BitVec.ofNat 64 x)) := by
    simp only [entryHome, hv, hp.1, hp.2, turnHome, homeByte, attrHost, attrPeer, attrCxl, attrFlash]
    simp [turnPage]
    omega
  have hcanon : canonical (BitVec.ofNat 64 x) = true := by
    have hw : ((BitVec.ofNat 64 x).setWidth 52).toNat = x := by
      rw [BitVec.toNat_setWidth, BitVec.toNat_ofNat]
      omega
    have hmsb : ((BitVec.ofNat 64 x).setWidth 52).msb = false := by
      rw [BitVec.msb_eq_decide, hw, decide_eq_false]
      omega
    rw [canonical, beq_iff_eq, BitVec.signExtend_eq_setWidth_of_msb_false hmsb]
    apply BitVec.eq_of_toNat_eq
    rw [BitVec.toNat_setWidth, hw, BitVec.toNat_ofNat]
  refine ⟨turnPage, ⟨?_, Nat.mod_one _, ?_, by decide, rfl⟩, ⟨⟨rfl, rfl, lateTurn_turn _⟩, ?_⟩⟩
  · rw [canonicalAll, hcanon]
    simpa using hcanon
  · rw [hv]
    simp [State.tlbHit, lateTurn, turnPage, State.outsideCtx]
    omega
  · rw [if_neg (by decide)]
    exact ⟨hhome, .inl (by decide)⟩

theorem lateTurn_bytes {x : Nat} {bs : List Byte} (hx : x + bs.length ≤ 0x1000)
    (h : ∀ i < bs.length, Memory.get lateTurn.mem (turnHome + (x + i)) = bs.getD i 0) :
    OutsideBytes lateTurn 1 (BitVec.ofNat 64 x) bs := by
  intro i b hb
  have hi : i < bs.length := (List.getElem?_eq_some_iff.mp hb).1
  refine ⟨turnHome + (x + i), ?_, ?_⟩
  · rw [← BitVec.ofNat_add]
    exact lateTurn_at (by omega)
  · rw [h i hi, List.getD, hb]
    rfl

theorem lateTurn_sends : Sends lateTurn turnPair turnEntry := by
  have ha : qpAsid turnPair.ctx = 1 := by decide +kernel
  have hb : qpBase turnPair.ctx false + BitVec.ofNat 64 (64 * (turnPair.shead.toNat % 2 ^ qpLog turnPair.ctx false))
      = BitVec.ofNat 64 0x100 := by decide +kernel
  refine ⟨rfl, by decide +kernel, rfl, rfl, by decide, ?_⟩
  rw [ha, hb]
  exact lateTurn_bytes (by decide +kernel) (by decide +kernel)

/-- Whether a state's pair has worked on its entry. -/
def anyDone (o : Out) : Bool :=
  match o with
  | .next z => z.qps.any fun q => q.done.isSome
  | _ => false

end Sys2Proof.Machine

open Sys2Proof Sys2Proof.Machine

/-- Refutes O59: an access from outside that has been served gives up the place it held. The engine holds the first place at the line of
its local buffer, reads its work entry elsewhere, and then stands behind the access that came second. -/
theorem not_networkEngine : ¬ Obligations.NetworkEngine := by
  intro h
  have hclean : cleanEntry turnEntry := ⟨by decide +kernel, by decide +kernel, by decide +kernel⟩
  have hbuffer : OutsideBytes lateTurn (qpAsid turnPair.ctx) (turnEntry.extractLsb' 64 64) [0] := by
    have ha : qpAsid turnPair.ctx = 1 := by decide +kernel
    have hl : turnEntry.extractLsb' 64 64 = BitVec.ofNat 64 0x400 := by decide +kernel
    rw [ha, hl]
    exact lateTurn_bytes (by decide) (by decide +kernel)
  obtain ⟨-, hsend, -⟩ := h.1 lateTurn turnPair turnEntry lateTurn_sends
  obtain ⟨hok, -⟩ := hsend [0] hclean (by decide +kernel) hbuffer (1, .neSend turnPair.qp) (by simp) (by decide +kernel)
  have hwaits : anyDone (exec (.neSend turnPair.qp (.ok [])) lateTurn) = false := by decide +kernel
  rw [hok []] at hwaits
  exact absurd hwaits (by decide +kernel)

end

section
/-!
SUPPORT. What accesses at homes leave: the tables of tasks, of the fabric and of the platform.
-/

namespace Sys2Proof.Machine

/-- `w` differs from `s` in what accesses change: strands, memory and lines, translations, requests and their way. -/
def State.Accesses (s w : State) : Prop :=
  w = { s with
    strands := w.strands, mem := w.mem, lines := w.lines, redirects := w.redirects, tlb := w.tlb, svcs := w.svcs
    requests := w.requests, replies := w.replies, keystones := w.keystones, nextRid := w.nextRid, freeCtr := w.freeCtr }

theorem State.Accesses.refl (s : State) : s.Accesses s := rfl

theorem State.Accesses.trans {s w u : State} (h : s.Accesses w) (k : w.Accesses u) : s.Accesses u := by
  unfold State.Accesses at *
  rw [k, h]

theorem State.Reads.accesses {s w : State} (h : s.Reads w) : s.Accesses w := by
  rw [← h]
  rfl

theorem State.foldl_accesses {α : Type} {f : State → α → State} (hf : ∀ (s : State) x, s.Accesses (f s x)) (l : List α) (s : State) :
    s.Accesses (l.foldl f s) :=
  List.foldlRecOn (motive := s.Accesses) l f (.refl s) fun w h x _ => h.trans (hf w x)

theorem State.writeHome_accesses (s : State) (h : Nat) (bs : List Byte) : s.Accesses (s.writeHome h bs) := by
  rw [State.writeHome_frame]
  rfl

theorem State.place_accesses (s : State) (r : Request) : s.Accesses (s.place r) := by
  unfold State.place
  split
  · rfl
  · dsimp only
    split <;> rfl

theorem State.reply_accesses (s : State) (r : Reply) : s.Accesses (s.reply r) := by
  unfold State.reply
  split <;> rfl

theorem State.answer_accesses (s : State) (r : Request) (a : Answer) (fl : Flags) : s.Accesses (s.answer r a fl) :=
  .trans (w := s.dropRequest r) rfl (State.reply_accesses _ _)

theorem State.redirect_accesses (s : State) (r : Request) (line home : Nat) : s.Accesses (s.redirect r line home) := by
  unfold State.redirect
  dsimp only
  split
  · exact .trans (w := { s.countRedirect line with requests := s.requests.filter fun x => x.rid != r.rid }) rfl
      (State.place_accesses _ _)
  · rfl

theorem State.dropCarried_answer_accesses {s w : State} (h : s.Accesses w) (r : Request) (line : Nat) (a : Answer) (fl : Flags) :
    s.Accesses ((w.dropCarried r line).answer r a fl) :=
  (h.trans (u := w.dropCarried r line) rfl).trans (State.answer_accesses _ _ _ _)

theorem State.serve_accesses (s : State) (r : Request) (home : Nat) : s.Accesses (s.serve r home) := by
  unfold State.serve
  dsimp only
  split
  · refine .trans ?_ (State.answer_accesses _ _ _ _)
    split
    · rfl
    · split <;> rfl
  · exact State.dropCarried_answer_accesses (s.writeHome_accesses _ _) _ _ _ _
  · exact State.dropCarried_answer_accesses (s.writeHome_accesses _ _) _ _ _ _
  · exact State.dropCarried_answer_accesses (s.writeHome_accesses _ _) _ _ _ _

theorem State.followRecord_accesses (s : State) (r : Request) (line : Nat) : s.Accesses (s.followRecord r line) := by
  unfold State.followRecord
  dsimp only
  split
  · exact State.answer_accesses _ _ _ _
  split
  · exact State.answer_accesses _ _ _ _
  have ht := State.translate_reads s (s.requestCtx r) r.va (va52 (recTarget (s.lineRecord line) ||| (r.va &&& 127))) r.kind.need
  split
  · rename_i hx
    rw [hx] at ht
    split
    · exact ht.accesses.trans (State.redirect_accesses _ _ _ _)
    · exact ht.accesses.trans (State.answer_accesses _ _ _ _)
  · rename_i w _
    exact .trans (w := s.keepWait w) rfl (State.answer_accesses _ _ _ _)
  · rfl
  · rfl
  · rfl

theorem State.performAt_accesses (s : State) (r : Request) : s.Accesses (s.performAt r) := by
  have fault (w : State) (q : Request) (a : Answer) : s.Accesses ((s.keepWait w).answer q a 0) :=
    .trans (w := s.keepWait w) rfl (State.answer_accesses _ _ _ _)
  have struck (q : Request) (l : List Nat) : s.Accesses ((s.strikeAll l).dropRequest q) := rfl
  unfold State.performAt
  dsimp only
  split
  · have hf (q : Request) := State.firstHome_reads s (s.requestCtx q) q.va q.n q.kind.need q.kind.check
    split
    · rename_i w hx
      have hw := hf { r with tried := true }
      rw [hx] at hw
      have hq (l : List Request) : s.Accesses ({ w with requests := l } : State) := hw.accesses.trans rfl
      split <;> exact (hq _).trans (State.place_accesses _ _)
    · exact fault _ _ _
    · exact struck _ _
    · rfl
    · rfl
  · split
    · exact struck _ _
    split
    · rfl
    split
    · split
      · exact State.serve_accesses _ _ _
      · exact State.answer_accesses _ _ _ _
    split
    · exact State.serve_accesses _ _ _
    split
    · rfl
    split
    · exact State.serve_accesses _ _ _
    · split
      · exact State.serve_accesses _ _ _
      · rfl
    · exact State.followRecord_accesses _ _ _
    · split
      · exact State.serve_accesses _ _ _
      · exact State.answer_accesses _ _ _ _

theorem State.serveHeld_accesses (s : State) (line : Nat) : s.Accesses (s.serveHeld line) :=
  State.foldl_accesses (f := fun (a : State) (r : Request) => a.performAt { r with stalled := false })
    (fun _ _ => State.performAt_accesses _ _) _ s

theorem State.unmark_accesses (s : State) (c : CopyOp) : s.Accesses (s.unmark c) := by
  unfold State.unmark
  split
  · rename_i m _
    exact .trans (w := s.setLine m.src .plain) rfl (State.serveHeld_accesses _ _)
  · rfl

/-! ## A gang rolled back -/

/-- `w` differs from `s` in what the stop of a gang changes, and tells the supervisor no less. -/
structure State.Rolls (s w : State) : Prop where
  frame : w = { s with
    strands := w.strands, mem := w.mem, lines := w.lines, redirects := w.redirects, tlb := w.tlb, svcs := w.svcs
    requests := w.requests, replies := w.replies, keystones := w.keystones, nextRid := w.nextRid, freeCtr := w.freeCtr
    copies := w.copies, barriers := w.barriers, notices := w.notices, vault := w.vault, saves := w.saves, arrivals := w.arrivals
    gangs := w.gangs, slots := w.slots, vacates := w.vacates, reports := w.reports, events := w.events, cards := w.cards
    offers := w.offers, queues := w.queues }
  reports : s.reports <+: w.reports

theorem State.Rolls.refl (s : State) : s.Rolls s := ⟨rfl, List.prefix_rfl⟩

theorem State.Rolls.trans {s w u : State} (h : s.Rolls w) (k : w.Rolls u) : s.Rolls u :=
  ⟨by rw [k.frame, h.frame], h.reports.trans k.reports⟩

theorem State.Accesses.rolls {s w : State} (h : s.Accesses w) : s.Rolls w := by
  unfold State.Accesses at h
  refine ⟨?_, ?_⟩
  · rw [h]
  · rw [h]

theorem State.foldl_rolls {α : Type} {f : State → α → State} (hf : ∀ (s : State) x, s.Rolls (f s x)) (l : List α) (s : State) :
    s.Rolls (l.foldl f s) :=
  List.foldlRecOn (motive := s.Rolls) l f (.refl s) fun w h x _ => h.trans (hf w x)

theorem State.clearGang_rolls (s : State) (h : BitVec 16) : s.Rolls (s.clearGang h) := by
  have drop (sids : List Nat) : s.Rolls ((s.dropRequests sids).dropCopies sids) := by
    have h1 : s.Accesses (s.dropRequests sids) := State.foldl_accesses (f := State.dropRequest) (fun _ _ => rfl) _ s
    have h2 (w : State) (l : List CopyOp) : w.Accesses (l.foldl (fun (a : State) c => (a.endSvc (.copy c.cid)).unmark c) w) :=
      State.foldl_accesses (f := fun (a : State) (c : CopyOp) => (a.endSvc (.copy c.cid)).unmark c)
        (fun w c => .trans (w := w.endSvc (.copy c.cid)) rfl (State.unmark_accesses _ _)) l w
    exact (h1.trans (h2 _ _)).rolls.trans ⟨rfl, List.prefix_rfl⟩
  unfold State.clearGang
  split
  · exact .refl s
  · exact (drop _).trans ⟨rfl, List.prefix_rfl⟩

theorem State.stopGang_rolls (s : State) (h : BitVec 16) : s.Rolls (s.stopGang h) :=
  (s.clearGang_rolls h).trans ⟨rfl, List.prefix_rfl⟩

theorem State.reportVacates_rolls (s : State) : s.Rolls s.reportVacates := by
  refine State.foldl_rolls (fun w v => ?_) s.vacates s
  dsimp only
  split
  · exact .refl w
  · exact ⟨rfl, List.prefix_append _ _⟩

theorem State.refreshOffers_rolls (s : State) : s.Rolls s.refreshOffers := by
  rw [State.refreshOffers_frame]
  exact ⟨rfl, List.prefix_rfl⟩

theorem State.markSlots_rolls (s : State) (ids : List Nat) (code : BitVec 3) : s.Rolls (s.markSlots ids code) := by
  rw [State.markSlots_frame]
  exact ⟨rfl, List.prefix_rfl⟩

theorem State.release_rolls (s : State) (h : BitVec 16) : s.Rolls (s.release h) := by
  unfold State.release
  split
  · exact .refl s
  · rw [State.vacateSlots_frame]
    exact ⟨rfl, List.prefix_rfl⟩

theorem State.failGang_rolls (s : State) (h : BitVec 16) (status : Nat) : s.Rolls (s.failGang h status) := by
  unfold State.failGang
  split
  · exact .refl s
  · refine .trans ?_ (State.reportVacates_rolls _)
    refine .trans ?_ (State.markSlots_rolls _ _ _)
    exact (s.stopGang_rolls h).trans ⟨rfl, List.prefix_rfl⟩

theorem State.requeueGang_rolls (s : State) (h : BitVec 16) : s.Rolls (s.requeueGang h) := by
  have h1 : s.Rolls (((s.release h).stopGang h).forgetGang h) :=
    ((s.release_rolls h).trans (State.stopGang_rolls _ h)).trans ⟨rfl, List.prefix_rfl⟩
  unfold State.requeueGang
  split
  · exact .refl s
  · refine .trans ?_ (State.refreshOffers_rolls _)
    refine .trans ?_ (State.reportVacates_rolls _)
    split
    · exact h1.trans ⟨rfl, List.prefix_rfl⟩
    · exact h1.trans ⟨rfl, List.prefix_rfl⟩

theorem State.rollback_rolls (s : State) (h : BitVec 16) (counts : Bool) : s.Rolls (s.rollback h counts) := by
  have ends {w : State} (hw : s.Rolls w) (n : Nat) : s.Rolls (if n ≥ 3 then w.failGang h 3 else w.requeueGang h) := by
    split
    · exact hw.trans (State.failGang_rolls _ _ _)
    · exact hw.trans (State.requeueGang_rolls _ _)
  unfold State.rollback
  split
  · exact .refl s
  split
  · exact .refl s
  split
  · exact State.failGang_rolls _ _ _
  · dsimp only
    split
    · exact ends (w := { s with cards := updWhere s.cards _ _ }) ⟨rfl, List.prefix_rfl⟩ _
    · exact ends (.refl s) _

theorem State.rollbacks_rolls (s : State) (hs : List (BitVec 16)) : s.Rolls (hs.foldl (fun (a : State) h => a.rollback h false) s) :=
  State.foldl_rolls (f := fun (a : State) (h : BitVec 16) => a.rollback h false) (fun w h => w.rollback_rolls h false) hs s

/-! ## What stays in order -/

/-- No request and no copy has come in. -/
def State.Fewer (s w : State) : Prop :=
  (∀ q ∈ w.requests, q ∈ s.requests) ∧ ∀ c ∈ w.copies, c ∈ s.copies

theorem State.Fewer.refl (s : State) : s.Fewer s := ⟨fun _ h => h, fun _ h => h⟩

theorem State.Fewer.trans {s w u : State} (h : s.Fewer w) (k : w.Fewer u) : s.Fewer u :=
  ⟨fun q hq => h.1 q (k.1 q hq), fun c hc => h.2 c (k.2 c hc)⟩

theorem State.Fewer.noneHeld {s w : State} (h : s.Fewer w) (hn : NoneHeld s) : NoneHeld w :=
  fun c hc m hm q hq x hx => hn c (h.2 c hc) m hm q (h.1 q hq) x hx

theorem State.Drops.fewer {s w : State} (h : s.Drops w) (hc : ∀ c ∈ w.copies, c ∈ s.copies) : s.Fewer w := ⟨h.requests, hc⟩

end Sys2Proof.Machine
end

section
/-!
SUPPORT. The reset of a virtual function.
-/

namespace Sys2Proof.Machine

/-! ## Gangs stopped one after another -/

theorem State.clearGang_fewer {s : State} {h : BitVec 16} {g : Gang} (hg : s.gang h = some g) (hn : NoneHeld s) :
    s.Fewer (s.clearGang h) := by
  have hcopies (sids : List Nat) (w : State) (l : List CopyOp) :
      (l.foldl (fun (a : State) c => (a.endSvc (.copy c.cid)).unmark c) w).copies = w.copies := by
    have h2 : w.Accesses _ := State.foldl_accesses (f := fun (a : State) (c : CopyOp) => (a.endSvc (.copy c.cid)).unmark c)
      (fun w c => .trans (w := w.endSvc (.copy c.cid)) rfl (State.unmark_accesses _ _)) l w
    rw [h2]
  have hd (sids : List Nat) := State.dropCopies_drops hn (State.dropRequests_drops s sids) (State.dropRequests_copies s sids) sids
  unfold State.clearGang
  simp only [hg]
  refine ⟨(hd _).requests, fun c hc => ?_⟩
  have hm := (List.mem_filter.1 hc).1
  rw [hcopies [], State.dropRequests_copies] at hm
  exact hm

/-- What a gang stopped for good leaves of the package. -/
structure State.Fails (s w : State) (h : BitVec 16) (status : Nat) : Prop where
  rolls : s.Rolls w
  fewer : s.Fewer w
  strands : w.strands = s.strands.filter fun t => t.id.handle != h
  gangs : ∃ f : Gang → Gang, (∀ x, (f x).handle = x.handle ∧ (f x).state = .failing status)
    ∧ w.gangs = updWhere s.gangs (fun x => x.handle == h) f
  mem : w.mem = s.mem

theorem State.failGang_fails {s : State} {h : BitVec 16} {g : Gang} (hg : s.gang h = some g) (hn : NoneHeld s) (status : Nat) :
    s.Fails (s.failGang h status) h status := by
  obtain ⟨f, hf, hw⟩ := State.stopGang_stops hg hn
  have hfew : s.Fewer (s.stopGang h) := State.clearGang_fewer hg hn
  have hroll := State.failGang_rolls s h status
  unfold State.failGang at hroll ⊢
  simp only [hg] at hroll ⊢
  refine ⟨hroll, ?_, ?_, ⟨fun x => { f x with state := .failing status, bind := if (s.slotsOf g).isEmpty then 0 else (f x).bind },
    fun x => ⟨?_, rfl⟩, ?_⟩, ?_⟩
  · rw [State.reportVacates_frame, State.markSlots_frame]
    exact hfew
  · rw [State.reportVacates_strands, State.markSlots_strands]
    exact hw.strands
  · show (f x).handle = x.handle
    rw [hf x]
  · rw [State.reportVacates_gangs, State.markSlots_gangs]
    show updWhere (s.stopGang h).gangs _ _ = _
    rw [hw.gangs, updWhere_updWhere _ _ _ _ fun x => by rw [hf x]]
  · rw [State.reportVacates_mem, State.markSlots_mem]
    exact hw.mem

/-- A gang stopped by a reset counts as started. -/
def State.resetGang (s : State) (h : BitVec 16) : State :=
  (s.failGang h 5).setGang h fun g => { g with started := true }

/-- What a reset of the gangs of these handles leaves. -/
structure State.ResetsGangs (s w : State) (hs : List (BitVec 16)) : Prop where
  rolls : s.Rolls w
  fewer : s.Fewer w
  strands : w.strands = s.strands.filter fun t => !hs.contains t.id.handle
  stopped : ∀ h ∈ hs, (w.gang h).map Gang.state = some (.failing 5)
  others : ∀ h, h ∉ hs → w.gang h = s.gang h
  present : ∀ h, (w.gang h).isSome = (s.gang h).isSome
  mem : w.mem = s.mem

theorem State.resetGang_gangs {s : State} {h : BitVec 16} (hg : (s.gang h).isSome = true) (hn : NoneHeld s) :
    s.ResetsGangs (s.resetGang h) [h] := by
  obtain ⟨g, hg⟩ := Option.isSome_iff_exists.1 hg
  obtain ⟨rolls, fewer, strands, ⟨f, hf, hgangs⟩, mem⟩ := State.failGang_fails hg hn 5
  have hk : (s.resetGang h).gangs = updWhere s.gangs (fun x => x.handle == h) fun x => { f x with started := true } := by
    show updWhere (s.failGang h 5).gangs _ _ = _
    rw [hgangs, updWhere_updWhere _ _ _ _ fun x => by rw [(hf x).1]]
  have hgang := State.gang_updWhere hk fun x => (hf x).1
  have hh := State.gang_handle hg
  refine ⟨rolls.trans ⟨rfl, List.prefix_rfl⟩, fewer, ?_, fun x hx => ?_, fun x hx => ?_, fun x => ?_, mem⟩
  · show (s.failGang h 5).strands = _
    rw [strands]
    refine List.filter_congr fun t _ => ?_
    rw [List.contains_cons, List.contains_nil, Bool.or_false]
    rfl
  · rw [List.mem_singleton.1 hx, hgang, hg]
    simp [hh, (hf g).2]
  · rw [hgang]
    cases hx' : s.gang x with
    | none => rfl
    | some y =>
      have : y.handle = x := State.gang_handle hx'
      simp only [Option.map_some]
      rw [if_neg]
      rw [this]
      simpa using hx
  · rw [hgang]
    cases s.gang x <;> rfl

theorem State.resetGangs_gangs (hs : List (BitVec 16)) {s : State} (hg : ∀ h ∈ hs, (s.gang h).isSome = true) (hn : NoneHeld s) :
    s.ResetsGangs (hs.foldl State.resetGang s) hs := by
  induction hs generalizing s with
  | nil => exact ⟨.refl s, .refl s, (List.filter_eq_self.2 fun _ _ => rfl).symm, fun _ h => (nomatch h),
    fun _ _ => rfl, fun _ => rfl, rfl⟩
  | cons h hs ih =>
    have h1 := State.resetGang_gangs (hg h List.mem_cons_self) hn
    have h2 := ih (s := s.resetGang h) (fun x hx => by rw [h1.present]; exact hg x (List.mem_cons_of_mem _ hx)) (h1.fewer.noneHeld hn)
    refine ⟨h1.rolls.trans h2.rolls, h1.fewer.trans h2.fewer, ?_, fun x hx => ?_, fun x hx => ?_, fun x => (h2.present x).trans (h1.present x),
      h2.mem.trans h1.mem⟩
    · rw [List.foldl_cons, h2.strands, h1.strands, List.filter_filter]
      refine List.filter_congr fun t _ => ?_
      simp only [List.contains_cons, List.contains_nil, Bool.or_false, Bool.not_or, Bool.and_comm]
    · by_cases hm : x ∈ hs
      · exact h2.stopped x hm
      · obtain rfl := (List.mem_cons.1 hx).resolve_right hm
        rw [List.foldl_cons, h2.others x hm]
        exact h1.stopped x List.mem_cons_self
    · rw [List.mem_cons, not_or] at hx
      rw [List.foldl_cons, h2.others x hx.2, h1.others x (by simpa using hx.1)]

/-! ## Requests and vector atomics of a partition without accesses -/

theorem State.resetRequests_none {s : State} {vf : BitVec 2} (h : ∀ r ∈ s.underWay, r.part ≠ vf) : s.resetRequests vf = s.dropDead := by
  have hm : s.underWay.filter (fun r => r.part == vf) = [] := List.filter_eq_nil_iff.2 fun r hr => by simpa using h r hr
  unfold State.resetRequests
  rw [hm]
  rfl

theorem Strand.amoLeft_none {t : Strand} (hv : t.vamo = none) (hq : ∀ e ∈ t.viq, e.pos = 0 ∧ e.perf = []) : t.amoLeft = none := by
  have hfirst : ∀ e ∈ (firstConvoy t.viq).1, e ∈ t.viq := by
    intro e he
    unfold firstConvoy at he
    split at he
    · cases he
    · rename_i x xs hx
      rw [hx]
      rcases List.mem_cons.1 he with rfl | he
      · exact List.mem_cons_self
      · exact List.mem_cons_of_mem _ (List.takeWhile_subset _ he)
  unfold Strand.amoLeft
  rw [hv]
  dsimp only
  rw [Option.map_eq_none_iff, List.find?_eq_none]
  intro e he
  obtain ⟨hp, hf⟩ := hq e (hfirst e he)
  simp [hp, hf]

theorem State.finishAmos_none {s : State} {vf : BitVec 2} (s0 : State) (h : ∀ t ∈ s.strands, t.id.part = vf → t.amoLeft = none) :
    s.finishAmos s0 vf = (s0, false) := by
  unfold State.finishAmos
  refine List.foldlRecOn (motive := fun (p : State × Bool) => p = (s0, false)) _ _ rfl fun p hp t ht => ?_
  obtain ⟨hm, hpart⟩ := List.mem_filter.1 ht
  rw [h t hm (by simpa using hpart)]
  exact hp

/-! ## The reset -/

/-- The gangs a reset stops. -/
def State.resettable (s : State) (vf : BitVec 2) : List Gang :=
  s.gangs.filter fun g => g.part == vf && !g.failing

/-- The register a reset leaves: its flags, the tasks stopped and the cards discarded. -/
def resetRegister (flags : BitVec 3) (n m : BitVec 16) : Word :=
  flags ++ 0#13 ++ n ++ m ++ 0#16

theorem resetRegister_tasks (flags : BitVec 3) (n m : BitVec 16) {r : Word}
    (h : ∀ i < 63, r.getLsbD i = (resetRegister flags n m).getLsbD i) : fieldNat r 32 16 = n.toNat := by
  rw [fieldNat]
  congr 1
  apply BitVec.eq_of_getLsbD_eq
  intro i hi
  rw [BitVec.getLsbD_extractLsb', h _ (by omega), decide_eq_true hi, Bool.true_and, resetRegister]
  simp only [BitVec.getLsbD_append]
  rw [if_neg (by omega), if_neg (by omega), if_pos (by omega)]
  congr 1
  omega

theorem resetRegister_cut (flags : BitVec 3) (n m : BitVec 16) {r : Word}
    (h : ∀ i < 63, r.getLsbD i = (resetRegister flags n m).getLsbD i) : r.getLsbD 61 = flags.getLsbD 0 := by
  rw [h _ (by omega), resetRegister]
  simp only [BitVec.getLsbD_append]
  rfl

/-- The state a reset leaves, but for DONE. -/
def State.resetTo (s1 : State) (vf : BitVec 2) (cards : List Card) (offers : List Offer) (reg : Word) : State :=
  { s1 with
    cards := cards
    offers := offers
    pages := s1.pages.map fun p => if p.part = vf then ⟨p.asid, p.part, 0, 0, 0, 0, 0, 0, 0, 0, 0⟩ else p
    qps := s1.qps.map fun q => if qpPart q.ctx = vf then ⟨q.qp, setSlice q.ctx 82 (0 : BitVec 2), 0, 0, 0, 0, none⟩ else q
    vfs := s1.vfs.set vf.toNat ⟨reg, 0⟩ }

theorem State.resetDone_register {s : State} {vf : BitVec 2} {reg err : Word} (h : s.vfs[vf.toNat] = ⟨reg, err⟩) :
    (s.resetDone vf).vfs[vf.toNat].error = err ∧ ∀ i < 63, (s.resetDone vf).vfs[vf.toNat].reset.getLsbD i = reg.getLsbD i := by
  unfold State.resetDone
  split
  · rw [h]
    exact ⟨rfl, fun _ _ => rfl⟩
  · simp only [h, Vector.getElem_set_self]
    refine ⟨trivial, fun i hi => ?_⟩
    rw [BitVec.getLsbD_or]
    have h1 : ((1 <<< 63 : Word)).getLsbD i = false := by
      have : ∀ j : Fin 63, ((1 <<< 63 : Word)).getLsbD j = false := by decide
      exact this ⟨i, hi⟩
    rw [h1, Bool.or_false]

/-- Whether a reset cuts a copy. -/
def State.cutsCopy (s : State) (vf : BitVec 2) : Bool :=
  s.copies.any fun c => c.owner.any fun o =>
    ((s.strands.filter fun t => ((s.resettable vf).map Gang.handle).contains t.id.handle).map fun t => t.id.sid).contains o

theorem State.cutsCopy_iff (s : State) (vf : BitVec 2) : s.cutsCopy vf = true ↔
    ∃ c ∈ s.copies, ∃ t ∈ s.strands, c.owner = some t.id.sid ∧ ∃ g ∈ s.resettable vf, g.handle = t.id.handle := by
  simp only [State.cutsCopy, List.any_eq_true, Option.any_eq_true, List.contains_iff_mem, List.mem_map, List.mem_filter]
  constructor
  · rintro ⟨c, hc, o, ho, t, ⟨ht, g, hg, hh⟩, rfl⟩
    exact ⟨c, hc, t, ht, ho, g, hg, hh⟩
  · rintro ⟨c, hc, t, ht, ho, g, hg, hh⟩
    exact ⟨c, hc, _, ho, t, ⟨ht, g, hg, hh⟩, rfl⟩

/-- The flags a reset leaves: those set before, PARTIAL_COPY and PARTIAL_VAMO. -/
def State.resetFlags (s : State) (vf : BitVec 2) : BitVec 3 :=
  s.vfs[vf.toNat].reset.extractLsb' 61 3 ||| (if s.cutsCopy vf then 1 else 0) ||| (if s.cutsAmo vf || false then 2 else 0)

theorem State.resetFlags_cut (s : State) (vf : BitVec 2) :
    (s.resetFlags vf).getLsbD 0 = (s.vfs[vf.toNat].reset.getLsbD 61 || s.cutsCopy vf) := by
  have h : (if s.cutsAmo vf || false then (2 : BitVec 3) else 0).getLsbD 0 = false := by split <;> rfl
  rw [State.resetFlags, BitVec.getLsbD_or, BitVec.getLsbD_or, BitVec.getLsbD_extractLsb', h]
  cases s.cutsCopy vf <;> simp

theorem exec_vfReset {s : State} {vf : BitVec 2} (hcalm : s.finishAmos (s.resetRequests vf) vf = (s.dropDead, false)) :
    ∃ cards offers gone,
      exec (.vfReset vf) s = .next ((State.resetTo (((s.resettable vf).map Gang.handle).foldl State.resetGang s.dropDead) vf cards offers
        (resetRegister (s.resetFlags vf) (saturate16 ((s.resettable vf).map Gang.handle).length) gone)).resetDone vf) := by
  refine ⟨?_, ?_, ?_, ?_⟩
  pick_goal 4
  · show execVfReset vf s = _
    unfold execVfReset
    dsimp only
    rw [hcalm]
    rfl

end Sys2Proof.Machine

open Sys2Proof Sys2Proof.Machine

theorem vfReset : VfReset := by
  intro s vf hnodup hway hn hamo mine cut
  have hcalm : s.finishAmos (s.resetRequests vf) vf = (s.dropDead, false) := by
    rw [State.resetRequests_none hway]
    exact State.finishAmos_none _ fun t ht hp => Strand.amoLeft_none (hamo t ht hp).1 (hamo t ht hp).2
  have hfind (g : Gang) (hg : g ∈ s.gangs) : s.gang g.handle = some g := by
    cases hf : s.gang g.handle with
    | none => exact absurd (List.find?_eq_none.1 hf g hg) (by simp)
    | some x => rw [List.inj_on_of_nodup_map hnodup (List.mem_of_find?_eq_some hf) hg (State.gang_handle hf)]
  have hout (g : Gang) (hg : g ∈ s.gangs) (hp : g.part ≠ vf) : g.handle ∉ (s.resettable vf).map Gang.handle := by
    intro hm
    obtain ⟨x, hx, hh⟩ := List.mem_map.1 hm
    obtain ⟨hx1, hx2⟩ := List.mem_filter.1 hx
    rw [List.inj_on_of_nodup_map hnodup hx1 hg hh] at hx2
    simp [hp] at hx2
  obtain ⟨cards, offers, gone, hex⟩ := exec_vfReset hcalm
  have hgangs := State.resetGangs_gangs ((s.resettable vf).map Gang.handle) (s := s.dropDead) (fun h hh => by
    obtain ⟨g, hg, rfl⟩ := List.mem_map.1 hh
    exact Option.isSome_iff_exists.2 ⟨g, hfind g (List.mem_filter.1 hg).1⟩) hn
  generalize ((s.resettable vf).map Gang.handle).foldl State.resetGang s.dropDead = s1 at hex hgangs
  have hf := hgangs.rolls.frame
  obtain ⟨herr, hreg⟩ := State.resetDone_register (s := s1.resetTo vf cards offers
    (resetRegister (s.resetFlags vf) (saturate16 ((s.resettable vf).map Gang.handle).length) gone)) (vf := vf)
    (reg := resetRegister (s.resetFlags vf) (saturate16 ((s.resettable vf).map Gang.handle).length) gone) (err := 0)
    (Vector.getElem_set_self ..)
  have hdone := State.resetDone_frame (s1.resetTo vf cards offers
    (resetRegister (s.resetFlags vf) (saturate16 ((s.resettable vf).map Gang.handle).length) gone)) vf
  refine ⟨_, hex, fun g hg => ⟨?_, fun t ht => ?_⟩, fun g hg hp => ?_, fun t ht ho => ?_, ?_, fun q hq hp => ?_, herr, ?_, ?_, ?_⟩
  · rw [hdone]
    exact hgangs.stopped _ (List.mem_map_of_mem hg)
  · rw [hdone] at ht
    have ht1 : t ∈ s1.strands := ht
    rw [hgangs.strands] at ht1
    have hx := (List.mem_filter.1 ht1).2
    intro hh
    have hin : g.handle ∈ (s.resettable vf).map Gang.handle := List.mem_map_of_mem hg
    rw [hh, List.contains_iff_mem.2 hin] at hx
    cases hx
  · rw [hdone]
    exact (hgangs.others _ (hout g hg hp)).trans (hfind g hg)
  · rw [hdone]
    show t ∈ s1.strands
    rw [hgangs.strands]
    refine List.mem_filter.2 ⟨ht, ?_⟩
    rw [Bool.not_eq_true', ← Bool.not_eq_true, List.contains_iff_mem]
    intro hm
    obtain ⟨x, hx, hh⟩ := List.mem_map.1 hm
    obtain ⟨hx1, hx2⟩ := List.mem_filter.1 hx
    exact ho x hx1 (by simpa using (Bool.and_eq_true_iff.1 hx2).1) hh
  · rw [hdone]
    show s1.pages.map _ = _
    rw [hf]
    rfl
  · rw [hdone] at hq
    obtain ⟨x, -, rfl⟩ := List.mem_map.1 hq
    split
    · refine ⟨?_, rfl, rfl, rfl, rfl⟩
      show fieldNat (setSlice x.ctx 82 (0 : BitVec 2)) 82 2 = 0
      rw [fieldNat, extract_setSlice_same _ _ _ (by decide)]
      rfl
    · rename_i h
      rw [if_neg h] at hp
      exact absurd hp h
  · rw [hdone]
    exact hgangs.mem
  · rw [resetRegister_tasks _ _ _ hreg, saturate16, BitVec.toNat_ofNat, List.length_map]
    exact Nat.mod_eq_of_lt (by omega)
  · rw [resetRegister_cut _ _ _ hreg, State.resetFlags_cut, Bool.or_eq_true, State.cutsCopy_iff]
    exact Iff.rfl

end

section
/-!
SUPPORT. Starts of the package, attestation, heat and power.
-/

namespace Sys2Proof.Machine

/-! ## Stages -/

/-- Stages that verify are measured in order. -/
theorem State.runStages_ok (stages : List (List Byte)) {n : Nat} (s : State) (hl : n + stages.length ≤ 8)
    (ho : ∀ st ∈ stages, stageOk st = true) :
    ∃ m : Vector (BitVec 256) 8, s.runStages n stages = { s with boot := { s.boot with
        stage := if stages = [] then s.boot.stage else BitVec.ofNat 8 (n + stages.length), measure := m } }
      ∧ (∀ (i : Nat) (st : List Byte), stages[i]? = some st → m.toList[n + i]? = some (digest st))
      ∧ ∀ j < n, m.toList[j]? = s.boot.measure.toList[j]? := by
  induction stages generalizing n s with
  | nil => exact ⟨s.boot.measure, rfl, fun i st h => by simp at h, fun _ _ => rfl⟩
  | cons x stages ih =>
    rw [List.length_cons] at hl
    have hn : n < 8 := by omega
    have hx : s.runStages n (x :: stages) = ({ s with boot := { s.boot with
        stage := BitVec.ofNat 8 (n + 1), measure := s.boot.measure.set n (digest x) hn } } : State).runStages (n + 1) stages := by
      rw [State.runStages, dif_pos hn, if_pos (ho x List.mem_cons_self)]
    obtain ⟨m, hm, hnew, hold⟩ := ih (n := n + 1) ({ s with boot := { s.boot with
        stage := BitVec.ofNat 8 (n + 1), measure := s.boot.measure.set n (digest x) hn } } : State) (by omega)
      fun st hst => ho st (List.mem_cons_of_mem _ hst)
    refine ⟨m, ?_, fun i st hi => ?_, fun j hj => ?_⟩
    · have hstage : (if stages = [] then BitVec.ofNat 8 (n + 1) else BitVec.ofNat 8 (n + 1 + stages.length))
          = BitVec.ofNat 8 (n + (stages.length + 1)) := by
        split
        · rename_i h
          rw [h, List.length_nil]
        · congr 1
          omega
      rw [hx, hm]
      simp only [reduceCtorEq, if_false, List.length_cons, hstage]
    · cases i with
      | zero =>
        rw [List.getElem?_cons_zero] at hi
        obtain rfl := Option.some.inj hi
        rw [Nat.add_zero, hold n (by omega)]
        simp [hn]
      | succ i =>
        rw [List.getElem?_cons_succ] at hi
        have := hnew i st hi
        rwa [Nat.add_right_comm, Nat.add_assoc] at this
    · rw [hold j (by omega)]
      simp [Nat.ne_of_gt hj]

/-- A stage that does not verify fails the start. -/
theorem State.runStage_bad (s : State) {n : Nat} (hn : n < 8) {st : List Byte} (h : stageOk st = false) :
    s.runStages n [st] = s.failStart .signature := by
  rw [State.runStages, dif_pos hn, if_neg (by simp [h])]

theorem State.runStage_over (s : State) {n : Nat} (hn : 8 ≤ n) (st : List Byte) : s.runStages n [st] = s.failStart .overflow := by
  rw [State.runStages, dif_neg (by omega)]

theorem State.runStage_ok (s : State) {n : Nat} (hn : n < 8) {st : List Byte} (h : stageOk st = true) :
    s.runStages n [st] = { s with boot := { s.boot with
      stage := BitVec.ofNat 8 (n + 1), measure := s.boot.measure.set n (digest st) hn } } := by
  rw [State.runStages, dif_pos hn, if_pos h, State.runStages]

/-- What a failed start leaves. -/
theorem State.failStart_failed (s : State) (b : Boot) (c : StartCause) :
    let s' := ({ s with boot := b } : State).failStart c
    s' = { s with boot := s'.boot, events := s'.events } ∧ s'.boot = { b with
      reason := startReason c, fails := if b.fails = 3 then 3 else b.fails + 1, starting := false, done := false
      waitStage := b.minimal } :=
  ⟨rfl, rfl⟩

theorem Cells.find_filter_out {α : Type} (l : List (Nat × α)) (p : Nat → Bool) {a : Nat} (h : p a = false) :
    Cells.find (l.filter fun c => p c.1) a = none := by
  induction l with
  | nil => rfl
  | cons x l ih =>
    by_cases hx : p x.1 = true
    · have hne : x.1 ≠ a := fun k => by
        rw [k, h] at hx
        cases hx
      rw [List.filter_cons_of_pos (p := fun c : Nat × α => p c.1) hx, Cells.find, if_neg hne, ih]
    · rw [List.filter_cons_of_neg (p := fun c : Nat × α => p c.1) hx, ih]

theorem get_outlives (m : List Host.Cell) (a : Nat) : Memory.get (m.filter fun c => outlives c.1) a
    = if homeAttr a = attrPeer ∨ homeAttr a = attrHost ∨ homeAttr a = attrFlash then Memory.get m a else 0 := by
  by_cases h : outlives a = true
  · rw [Memory.get_filter m outlives h, if_pos (by simpa [outlives, or_assoc] using h)]
  · rw [Memory.get, Cells.find_filter_out m outlives (by simpa using h), if_neg (by simpa [outlives, or_assoc] using h)]
    rfl

/-- The boot a reset of the package begins with. -/
def State.resetBoot (s : State) (dies : BitVec 4) (hbm : BitVec 12) (fw : Firmware) (fails : BitVec 2) : Boot :=
  { State.reset.boot with
    hbm := if fails == 3 then hbm &&& (7#12 <<< (3 * (lowestDie dies).getD 0)) else hbm
    dies := dies
    reason := s.boot.reason
    fails := fails
    minimal := fails == 3
    starting := true
    window := fw.window
    serial := fw.serial
    identity := Config.identityKey }

/-- The package right after a reset, outside minimal mode, before its stages. -/
def State.resetPackage (s : State) (b : Boot) : State :=
  { State.reset with
    boot := b
    mem := s.mem.filter fun c => outlives c.1
    lines := s.lines.filter fun l => outlives (128 * l.1)
    soft := s.soft.filter fun l => outlives (128 * l)
    events := s.events
    agenda := s.agenda
    freeCtr := s.freeCtr }

theorem exec_packageReset {s : State} (dies : BitVec 4) (hbm : BitVec 12) (fw : Firmware)
    {fails : BitVec 2} (hf : (if s.boot.update && fw.bySupervisor then 0 else s.boot.fails) = fails) (h3 : (fails == 3) = false) :
    exec (.packageReset dies hbm fw) s = .next (if !(dies == 0xF) then (s.resetPackage (s.resetBoot dies hbm fw fails)).failStart .selfTest
      else if !(hbm == 0xFFF) then (s.resetPackage (s.resetBoot dies hbm fw fails)).failStart .training
      else (s.resetPackage (s.resetBoot dies hbm fw fails)).runStages 0 (s.resetBoot dies hbm fw fails).stages) := by
  show execPackageReset dies hbm fw s = _
  unfold execPackageReset
  dsimp only
  rw [hf, h3]
  unfold State.resetBoot
  rw [h3]
  rfl

theorem exec_minimalStageWrite_waiting {s : State} (hm : s.boot.minimal = true) (hw : s.boot.waitStage = true) (st : List Byte) :
    exec (.minimalStageWrite st) s = .next (({ s with boot := { s.boot with
      waitStage := false, starting := true, written := true, since := s.tick, window := [st] } } : State).runStages 0 [st]) := by
  show execMinimalStageWrite st s = _
  unfold execMinimalStageWrite
  dsimp only
  rw [if_neg (by simp [hm]), if_pos hw]

theorem exec_minimalStageWrite_later {s : State} (hm : s.boot.minimal = true) (hw : s.boot.waitStage = false)
    (hs : s.boot.starting = true) (hwr : s.boot.written = true) (st : List Byte) :
    exec (.minimalStageWrite st) s = .next (({ s with boot := { s.boot with window := s.boot.window ++ [st] } } : State).runStages
      s.boot.window.length [st]) := by
  show execMinimalStageWrite st s = _
  unfold execMinimalStageWrite
  dsimp only
  rw [if_neg (by simp [hm]), if_neg (by simp [hw]), if_pos (by simp [hs, hwr])]

end Sys2Proof.Machine

open Sys2Proof Sys2Proof.Machine

theorem starts : Starts := by
  refine ⟨?_, ?_⟩
  · intro s dies hbm fw hne stages
    have h3 : ((if s.boot.update && fw.bySupervisor then 0 else s.boot.fails) == (3 : BitVec 2)) = false := by
      split
      · rfl
      · simpa using hne
    have hex := exec_packageReset (s := s) dies hbm fw rfl h3
    generalize hfails : (if s.boot.update && fw.bySupervisor then 0 else s.boot.fails) = fails at hex h3
    refine ⟨fun hd hh hl ho => ?_, fun hbad => ?_⟩
    · rw [hd, hh] at hex
      have hst : (s.resetBoot 0xF 0xFFF fw fails).stages = stages := by
        show (if fw.window.isEmpty = true then fw.serial else fw.window) = if fw.window = [] then fw.serial else fw.window
        exact if_congr List.isEmpty_iff rfl rfl
      obtain ⟨m, hm, hnew, -⟩ := State.runStages_ok stages (n := 0) (s.resetPackage (s.resetBoot 0xF 0xFFF fw fails)) (by omega) ho
      rw [hst, hm] at hex
      rw [hd, hh]
      refine ⟨_, hex, rfl, rfl, rfl, h3, ?_, fun i x hx => ?_, fun a => ?_⟩
      · show (if stages = [] then (0 : BitVec 8) else BitVec.ofNat 8 (0 + stages.length)) = _
        split
        · rename_i h
          rw [h]
          rfl
        · rw [Nat.zero_add]
      · have := hnew i x hx
        rw [Nat.zero_add] at this
        exact this
      · exact get_outlives s.mem a
    · have hfails' : fails = if s.boot.update = true ∧ fw.bySupervisor = true then 0 else s.boot.fails := by
        rw [← hfails]
        exact if_congr Bool.and_eq_true_iff rfl rfl
      have hinc : (if fails = 3 then 3 else fails + 1) = fails + 1 := if_neg (by simpa using h3)
      by_cases hd : dies = 0xF
      · have hh : hbm ≠ 0xFFF := hbad.resolve_left fun h => h hd
        rw [if_neg (by simp [hd]), if_pos (by rw [Bool.not_eq_true', beq_eq_false_iff_ne]; exact hh)] at hex
        refine ⟨_, hex, ?_, rfl, rfl, ?_⟩
        · rw [if_neg (by simp [hd])]
          rfl
        · rw [← hfails']
          exact hinc
      · rw [if_pos (by rw [Bool.not_eq_true', beq_eq_false_iff_ne]; exact hd)] at hex
        refine ⟨_, hex, ?_, rfl, rfl, ?_⟩
        · rw [if_pos hd]
          rfl
        · rw [← hfails']
          exact hinc
  · intro s c hostTime st failed
    refine ⟨fun hs => ⟨?_, ⟨_, ?_, State.failStart_failed s s.boot c⟩, fun ht => ⟨_, ?_, State.failStart_failed s s.boot .watchdog⟩⟩,
      fun hs i hi => ?_, fun hm hw => ⟨fun ho => ?_, fun ho => ⟨_, ?_, State.failStart_failed s _ .signature⟩⟩,
      fun hm hw hs hwr => ⟨fun hn ho => ?_, fun hn ho => ⟨_, ?_, State.failStart_failed s _ .signature⟩,
        fun hn => ⟨_, ?_, State.failStart_failed s _ .overflow⟩⟩, fun hm hw hs hd => ?_, fun hm => ?_⟩
    · show execStartComplete hostTime s = _
      rw [execStartComplete, hs]
      rfl
    · show execStartFailure c s = _
      rw [execStartFailure, if_pos hs]
    · show execStartWatchdogExpiry s = _
      rw [execStartWatchdogExpiry, if_pos]
      rw [State.startLate, hs, Bool.true_and, decide_eq_true_eq]
      exact ht
    · have hlate : s.startLate = false := by
        rw [State.startLate, hs]
        rfl
      rcases List.mem_cons.1 hi with rfl | hi
      · show execStartComplete hostTime s = _
        rw [execStartComplete, hs]
        rfl
      rcases List.mem_cons.1 hi with rfl | hi
      · show execStartFailure c s = _
        rw [execStartFailure, hs]
        rfl
      · rw [List.mem_singleton.1 hi]
        show execStartWatchdogExpiry s = _
        rw [execStartWatchdogExpiry, hlate]
        rfl
    · exact (exec_minimalStageWrite_waiting hm hw st).trans (congrArg Host.Outcome.next (State.runStage_ok _ (by decide) ho))
    · exact (exec_minimalStageWrite_waiting hm hw st).trans (congrArg Host.Outcome.next (State.runStage_bad _ (by decide) ho))
    · exact (exec_minimalStageWrite_later hm hw hs hwr st).trans (congrArg Host.Outcome.next (State.runStage_ok _ hn ho))
    · exact (exec_minimalStageWrite_later hm hw hs hwr st).trans (congrArg Host.Outcome.next (State.runStage_bad _ hn ho))
    · exact (exec_minimalStageWrite_later hm hw hs hwr st).trans (congrArg Host.Outcome.next (State.runStage_over _ hn st))
    · show execMinimalStageWrite st s = _
      unfold execMinimalStageWrite
      dsimp only
      rw [hm, hw, hs, hd]
      rfl
    · show execMinimalStageWrite st s = _
      unfold execMinimalStageWrite
      dsimp only
      rw [hm]
      rfl

theorem length_flatMap_const {f : Nat → List Byte} {k : Nat} (h : ∀ n, (f n).length = k) (l : List Nat) :
    (l.flatMap f).length = l.length * k := by
  induction l with
  | nil => simp
  | cons a l ih => rw [List.flatMap_cons, List.length_append, h, ih, List.length_cons, Nat.succ_mul, Nat.add_comm]

theorem attestation : Attestation := by
  intro s nonce
  have hsplit : s.reportBytes nonce = (wordBytes 32 nonce ++ s.boot.measure.toList.flatMap fun m => wordBytes 32 m)
      ++ (wordBytes 8 s.boot.word ++ ((List.range 2304).map (fun n => (slotPart (s.slot n)).setWidth 8)
        ++ (List.range 256).flatMap fun n => wordBytes 16 ((Cells.find s.owners n).getD 0))) := by
    simp only [State.reportBytes, List.append_assoc]
  have hhead : (wordBytes 32 nonce ++ s.boot.measure.toList.flatMap fun m => wordBytes 32 m).length = 288 := by
    simp [List.length_flatMap]
  have hkey : (wordBytes 96 s.boot.identity).length = 96 := length_wordBytes _ _
  refine ⟨_, s.reportBytes nonce, rfl, rfl, slhSign_length _ _ _ _ _, ⟨_, _, _, _, rfl, ?_, ?_, ?_, ?_⟩, ?_, ?_, ?_⟩
  · rw [List.length_take, hkey]
    rfl
  · rw [List.length_take, List.length_drop, hkey]
    rfl
  · rw [List.length_drop, hkey]
  · rw [List.append_assoc]
    have h64 : (wordBytes 96 s.boot.identity).drop 64 = ((wordBytes 96 s.boot.identity).drop 32).drop 32 := by rw [List.drop_drop]
    rw [h64, List.take_append_drop, List.take_append_drop]
  · rw [hsplit, ← hhead, List.take_left]
  · rw [hsplit, ← hhead, List.drop_left]
    exact List.take_left' (length_wordBytes _ _)
  · rw [hsplit, List.length_append, hhead, List.length_append, length_wordBytes, List.length_append, List.length_map,
      List.length_range, length_flatMap_const (k := 16) fun n => length_wordBytes 16 ((Cells.find s.owners n).getD 0),
      List.length_range]

end

section
/-!
SUPPORT. Heat: the trip of the package rolls back its gangs one after another.
-/

namespace Sys2Proof.Machine

/-- What a rollback that an event of the package asks for leaves of a gang with this handle and of the others. -/
structure State.RollsBack (s w : State) (h : BitVec 16) : Prop where
  fewer : s.Fewer w
  mem : w.mem = s.mem
  strands : ∀ t ∈ w.strands, t ∈ s.strands
  gone : ∀ g, s.gang h = some g → g.failing = false → ∀ t ∈ w.strands, t.id.handle ≠ h
  others : ∀ x, x ≠ h → w.gang x = s.gang x

theorem State.gang_updWhere_other {s w : State} {h x : BitVec 16} {f : Gang → Gang}
    (hw : w.gangs = updWhere s.gangs (fun g => g.handle == h) f) (hf : ∀ g, (f g).handle = g.handle) (hx : x ≠ h) :
    w.gang x = s.gang x := by
  rw [State.gang_updWhere hw hf]
  cases hg : s.gang x with
  | none => rfl
  | some g =>
    have : g.handle = x := State.gang_handle hg
    simp only [Option.map_some]
    rw [if_neg]
    rw [this]
    simpa using hx

theorem State.gang_filter_other {s w : State} {h x : BitVec 16} (hw : w.gangs = s.gangs.filter fun g => g.handle != h) (hx : x ≠ h) :
    w.gang x = s.gang x := by
  unfold State.gang
  rw [hw, List.find?_filter]
  congr 1
  funext g
  by_cases hg : g.handle = x
  · subst hg
    simp [hx]
  · simp [hg]

theorem State.Fails.rollsBack {s w : State} {h : BitVec 16} {status : Nat} (k : s.Fails w h status) : s.RollsBack w h := by
  obtain ⟨_, fewer, strands, ⟨f, hf, hgangs⟩, mem⟩ := k
  refine ⟨fewer, mem, fun t ht => ?_, fun _ _ _ t ht => ?_, fun x hx => State.gang_updWhere_other hgangs (fun y => (hf y).1) hx⟩
  · rw [strands] at ht
    exact (List.mem_filter.1 ht).1
  · rw [strands] at ht
    simpa using (List.mem_filter.1 ht).2

theorem State.requeueGang_rollsBack {s : State} {g : Gang} (hg : s.gang g.handle = some g) (hn : NoneHeld s) :
    s.RollsBack (s.requeueGang g.handle) g.handle := by
  have hr := State.release_frame hg
  have hg1 := State.gang_release hg
  have hn1 := noneHeld_congr hn (w := s.release g.handle) (by rw [hr]) (by rw [hr])
  obtain ⟨f, hf, hw⟩ := State.stopGang_stops hg1 hn1
  have hfew : (s.release g.handle).Fewer ((s.release g.handle).stopGang g.handle) := State.clearGang_fewer hg1 hn1
  have hgone := (State.release_stop_gone hg hw).1
  have hmem := (State.release_stop_gone hg hw).2.1
  have hothers (x : BitVec 16) (hx : x ≠ g.handle) :
      (((s.release g.handle).stopGang g.handle).forgetGang g.handle).gang x = s.gang x :=
    calc _ = ((s.release g.handle).stopGang g.handle).gang x := State.gang_filter_other rfl hx
      _ = (s.release g.handle).gang x := State.gang_updWhere_other hw.gangs (fun y => by rw [hf y]) hx
      _ = s.gang x := State.gang_updWhere_other (f := fun x => { x with bind := 0 }) (by rw [hr]) (fun _ => rfl) hx
  have all {w : State} (hc : w.copies = ((s.release g.handle).stopGang g.handle).copies)
      (hq : w.requests = ((s.release g.handle).stopGang g.handle).requests) (hm : w.mem = ((s.release g.handle).stopGang g.handle).mem)
      (ht : w.strands = ((s.release g.handle).stopGang g.handle).strands)
      (hgs : w.gangs = (((s.release g.handle).stopGang g.handle).forgetGang g.handle).gangs) :
      s.RollsBack w.reportVacates.refreshOffers g.handle := by
    refine ⟨⟨fun q h => ?_, fun c h => ?_⟩, by simp [hm, hmem], fun t h => ?_, fun _ _ _ t h => ?_, fun x hx => ?_⟩
    · have := hfew.1 q (by rw [← hq]; rw [State.refreshOffers_frame, State.reportVacates_frame] at h; exact h)
      rwa [hr] at this
    · have := hfew.2 c (by rw [← hc]; rw [State.refreshOffers_frame, State.reportVacates_frame] at h; exact h)
      rwa [hr] at this
    · simp [ht, hgone] at h
      exact h.1
    · simp [ht, hgone] at h
      exact h.2
    · rw [← hothers x hx]
      exact congrArg (List.find? _) (by simp [hgs])
  unfold State.requeueGang
  simp only [hg]
  split
  · exact all rfl rfl rfl rfl rfl
  · exact all rfl rfl rfl rfl rfl

theorem State.rollback_rollsBack {s : State} (h : BitVec 16) (hn : NoneHeld s) : s.RollsBack (s.rollback h false) h := by
  have same (hf : ∀ g, s.gang h = some g → g.failing = true) : s.RollsBack s h :=
    ⟨.refl s, rfl, fun _ k => k, fun g hg k => (Bool.noConfusion (k.symm.trans (hf g hg))), fun _ _ => rfl⟩
  cases hg : s.gang h with
  | none =>
    unfold State.rollback
    simp only [hg]
    exact same fun g k => by rw [hg] at k; cases k
  | some g =>
    obtain rfl : g.handle = h := State.gang_handle hg
    cases hf : g.failing with
    | true =>
      obtain ⟨n, hs⟩ := (Gang.failing_iff g).1 hf
      unfold State.rollback
      simp only [hg, hs]
      exact same fun x k => by rw [hg] at k; cases k; exact hf
    | false =>
      rw [State.rollback_of hg hf]
      dsimp only
      rw [if_neg Bool.false_ne_true]
      split
      · exact (State.failGang_fails hg hn 3).rollsBack
      · split
        · exact (State.failGang_fails hg hn 3).rollsBack
        · exact State.requeueGang_rollsBack hg hn

/-- Gangs rolled back one after another: memory stays, and none of them has a strand left. -/
theorem State.rollbacks_gone (hs : List (BitVec 16)) {s : State} (hn : NoneHeld s) :
    (hs.foldl (fun (a : State) h => a.rollback h false) s).mem = s.mem
    ∧ (∀ t ∈ (hs.foldl (fun (a : State) h => a.rollback h false) s).strands, t ∈ s.strands)
    ∧ ∀ h ∈ hs, ∀ g, s.gang h = some g → g.failing = false →
      ∀ t ∈ (hs.foldl (fun (a : State) h => a.rollback h false) s).strands, t.id.handle ≠ h := by
  induction hs generalizing s with
  | nil => exact ⟨rfl, fun _ h => h, fun _ h => nomatch h⟩
  | cons h hs ih =>
    have k := State.rollback_rollsBack h hn
    obtain ⟨hm, ht, hgone⟩ := ih (k.fewer.noneHeld hn)
    refine ⟨hm.trans k.mem, fun t h => k.strands t (ht t h), fun x hx g hg hf t h' => ?_⟩
    by_cases hxh : x = h
    · subst hxh
      exact k.gone g hg hf t (ht t h')
    · exact hgone x ((List.mem_cons.1 hx).resolve_left hxh) g (by rw [k.others x hxh]; exact hg) hf t h'

/-- The package once its gangs have been rolled back by the trip. -/
theorem State.trip_rolls {s : State} (h : s.halted = false) :
    ∃ w : State, ({ s with halted := true, reports := s.reports ++ [.thermalTrip] } : State).Rolls w
      ∧ s.trip = w.record (.die 0) .thermal 0 := by
  refine ⟨_, State.rollbacks_rolls _ ((s.gangs.filter Gang.holds).map Gang.handle), ?_⟩
  rw [State.trip, h, if_neg Bool.false_ne_true]

theorem State.trip_halted (s : State) : s.trip.halted = true := by
  cases h : s.halted with
  | true => rw [State.trip, if_pos h, h]
  | false =>
    obtain ⟨w, hw, ht⟩ := State.trip_rolls h
    rw [ht, State.record, hw.frame]

/-- The trip leaves heat, throttle groups and what was announced for them as they were. -/
theorem State.trip_kept (s : State) : s.trip.inlet = s.inlet ∧ s.trip.announced = s.announced ∧ s.trip.dies = s.dies
    ∧ s.trip.foreign = s.foreign := by
  cases h : s.halted with
  | true => rw [State.trip, if_pos h]; exact ⟨rfl, rfl, rfl, rfl⟩
  | false =>
    obtain ⟨w, hw, ht⟩ := State.trip_rolls h
    rw [ht, State.record, hw.frame]
    exact ⟨rfl, rfl, rfl, rfl⟩

end Sys2Proof.Machine

namespace Sys2Proof.Machine

theorem prefix_append_drop {α : Type} {a w : List α} (x : α) (h : a ++ [x] <+: w) : w = a ++ [x] ++ w.drop (a.length + 1) := by
  obtain ⟨l, rfl⟩ := h
  have hl : a.length + 1 = (a ++ [x]).length := by simp
  rw [hl, List.drop_left]

theorem State.gang_of_mem {s : State} (hn : (s.gangs.map Gang.handle).Nodup) {g : Gang} (hg : g ∈ s.gangs) :
    s.gang g.handle = some g := by
  cases h : s.gang g.handle with
  | none =>
    have := List.find?_eq_none.1 h g hg
    simp at this
  | some x =>
    have hx : x.handle = g.handle := State.gang_handle h
    rw [List.inj_on_of_nodup_map hn (List.mem_of_find?_eq_some h) hg hx]

theorem thermalTrip : ThermalTrip := by
  intro s hnd hn
  refine ⟨s.trip, rfl, s.trip_halted, ?_, fun h => ?_, fun h => ?_⟩
  · unfold State.trip
    split
    · rfl
    · exact (State.rollbacks_gone _ (s := { s with halted := true, reports := s.reports ++ [.thermalTrip] }) hn).1
  · rw [State.trip, if_pos h]
  · rw [State.trip, h, if_neg Bool.false_ne_true]
    refine ⟨?_, fun g hg hh hf => ?_⟩
    · exact prefix_append_drop _ (State.rollbacks_rolls { s with halted := true, reports := s.reports ++ [.thermalTrip] }
        ((s.gangs.filter Gang.holds).map Gang.handle)).reports
    · exact (State.rollbacks_gone _ (s := { s with halted := true, reports := s.reports ++ [.thermalTrip] }) hn).2.2 g.handle
        (List.mem_map.2 ⟨g, List.mem_filter.2 ⟨hg, hh⟩, rfl⟩) g (State.gang_of_mem hnd hg) hf


/-! ## Allowances and temperatures -/

theorem State.announce_frame (s : State) (g : Nat) (e : Word) : s.announce g e
    = { s with announced := (s.announce g e).announced, events := (s.announce g e).events } := by
  unfold State.announce
  dsimp only
  split <;> rfl

/-- An announcement of a group that a die of the package leads: its allowance stands as the last announced, or in force. -/
theorem State.announce_announced (s : State) (g : Nat) (e : Word) (hl : s.leaderOf g < 4) : (s.announce g e).announced =
    if s.announcedAs g (s.groupAllowance g) then s.announced
    else s.announced ++ [⟨g, s.groupAllowance g, max (3 * e.toNat) (s.time3 + 60000)⟩] := by
  unfold State.announce
  dsimp only
  by_cases h : s.announcedAs g (s.groupAllowance g) = true
  · rw [if_pos h, if_pos (by simp [h])]
  · rw [if_neg h, if_neg (by simp [h, hl])]
    rfl

theorem State.groupMembers_congr {s w : State} (h : w.dies = s.dies) (hf : w.foreign = s.foreign) (g : Nat) :
    w.groupMembers g = s.groupMembers g := by
  rw [State.groupMembers, h, hf]
  rfl

theorem State.leaderOf_congr {s w : State} (h : w.dies = s.dies) (hf : w.leaders = s.leaders) (g : Nat) :
    w.leaderOf g = s.leaderOf g := by
  rw [State.leaderOf, hf, State.groupDies, h]
  rfl

/-- Above 55 °C no group is given more than 127. -/
theorem State.groupAllowance_le (s : State) (g : Nat) (h : 55 < s.inlet) : (s.groupAllowance g).toNat ≤ 127 := by
  unfold State.groupAllowance
  dsimp only
  rw [if_pos (Or.inr h), BitVec.toNat_ofNat, Nat.mod_eq_of_lt (by omega)]
  exact Nat.min_le_right _ _

/-- What was announced last for a group, or is in force on each of its dies, is at most 127. -/
def State.CappedAt (s : State) (g : Nat) : Prop :=
  (∀ x, (s.announced.filter fun x => x.group == g).getLast? = some x → x.allow.toNat ≤ 127)
  ∧ ((s.announced.filter fun x => x.group == g).getLast? = none → ∀ d ∈ s.groupMembers g, d.allow.toNat ≤ 127)

theorem State.cappedAt_congr {s w : State} {g : Nat} (h : (w.announced.filter fun x => x.group == g) = s.announced.filter fun x => x.group == g)
    (hd : w.dies = s.dies) (hf : w.foreign = s.foreign) (hs : s.CappedAt g) : w.CappedAt g := by
  rw [State.CappedAt, h, State.groupMembers_congr hd hf]
  exact hs

theorem State.announce_capped {s : State} {g : Nat} (e : Word) (hi : 55 < s.inlet) (hl : s.leaderOf g < 4) :
    (s.announce g e).CappedAt g := by
  have hle := s.groupAllowance_le g hi
  have ha := s.announce_announced g e hl
  have hm : (s.announce g e).groupMembers g = s.groupMembers g :=
    State.groupMembers_congr (by rw [State.announce_frame]) (by rw [State.announce_frame]) g
  unfold State.CappedAt
  rw [ha, hm]
  by_cases h : s.announcedAs g (s.groupAllowance g) = true
  · rw [if_pos h]
    unfold State.announcedAs at h
    refine ⟨fun x hx => ?_, fun hx d hd => ?_⟩
    · rw [hx] at h
      rw [eq_of_beq h]
      exact hle
    · rw [hx] at h
      rw [eq_of_beq (List.all_eq_true.1 h d hd)]
      exact hle
  · rw [if_neg h]
    have hlast (y : Announced) (hy : y.group = g) : ((s.announced ++ [y]).filter fun x => x.group == g).getLast? = some y := by
      simp [hy]
    rw [hlast _ rfl]
    exact ⟨fun x hx => by cases hx; exact hle, fun hx => nomatch hx⟩

theorem State.announce_filter_other (s : State) {g j : Nat} (e : Word) (h : j ≠ g) :
    ((s.announce j e).announced.filter fun x => x.group == g) = s.announced.filter fun x => x.group == g := by
  unfold State.announce
  dsimp only
  split
  · rfl
  · rw [State.record]
    simp [h]

/-- The announcements of the capped allowances of a list of groups. -/
def State.announceAll (s : State) (gs : List Nat) (e : Word) : State :=
  gs.foldl (fun a g => a.announce g e) s

/-- `w` differs from `s` in announcements and events alone. -/
def State.Announces (s w : State) : Prop :=
  w = { s with announced := w.announced, events := w.events }

theorem State.Announces.trans {s w u : State} (h : s.Announces w) (k : w.Announces u) : s.Announces u := by
  unfold State.Announces at *
  rw [k, h]

theorem State.announceAll_announces (s : State) (gs : List Nat) (e : Word) : s.Announces (s.announceAll gs e) :=
  List.foldlRecOn (motive := s.Announces) gs (fun (a : State) g => a.announce g e) rfl
    fun w h g _ => h.trans (w.announce_frame g e)

theorem State.announceAll_capped {s : State} {gs : List Nat} {g : Nat} (e : Word) (hi : 55 < s.inlet) (hl : s.leaderOf g < 4)
    (hg : g ∈ gs) : (s.announceAll gs e).CappedAt g := by
  have keep (l : List Nat) : ∀ w : State, 55 < w.inlet → w.leaderOf g < 4 → w.CappedAt g → (w.announceAll l e).CappedAt g := by
    induction l with
    | nil => exact fun _ _ _ h => h
    | cons j l ih =>
      intro w hw hlw hc
      have hi' : 55 < (w.announce j e).inlet := by rw [State.announce_frame]; exact hw
      have hl' : (w.announce j e).leaderOf g < 4 := by
        rw [State.leaderOf_congr (s := w) (by rw [State.announce_frame]) (by rw [State.announce_frame])]
        exact hlw
      refine ih (w.announce j e) hi' hl' ?_
      by_cases hj : j = g
      · subst hj
        exact State.announce_capped e hw hlw
      · exact State.cappedAt_congr (w.announce_filter_other e hj) (by rw [State.announce_frame]) (by rw [State.announce_frame]) hc
  induction gs generalizing s with
  | nil => exact nomatch hg
  | cons j l ih =>
    have hi' : 55 < (s.announce j e).inlet := by rw [State.announce_frame]; exact hi
    have hl' : (s.announce j e).leaderOf g < 4 := by
      rw [State.leaderOf_congr (s := s) (by rw [State.announce_frame]) (by rw [State.announce_frame])]
      exact hl
    by_cases hj : j = g
    · subst hj
      exact keep l (s.announce j e) hi' hl' (State.announce_capped e hi hl)
    · exact ih hi' hl' ((List.mem_cons.1 hg).resolve_left (Ne.symm hj))

theorem fallBand_le (temp b : Nat) : fallBand temp b ≤ b := by
  induction b with
  | zero => exact le_rfl
  | succ b ih =>
    rw [fallBand]
    split
    · omega
    · exact le_rfl

/-- The band that a temperature leaves: it lies 2 °C under every boundary that it has left, not under that of its band. -/
theorem fallBand_spec (temp b : Nat) : (fallBand temp b ≠ 0 → 730 + 100 * fallBand temp b ≤ temp)
    ∧ (fallBand temp b ≠ b → temp < 830 + 100 * fallBand temp b) := by
  induction b with
  | zero => exact ⟨fun h => absurd rfl h, fun h => absurd rfl h⟩
  | succ b ih =>
    have hle := fallBand_le temp b
    rw [fallBand, bandFloor, if_neg (Nat.succ_ne_zero b)]
    split
    · refine ⟨ih.1, fun _ => ?_⟩
      by_cases hb : fallBand temp b = b
      · omega
      · exact ih.2 hb
    · exact ⟨fun _ => by omega, fun h => absurd rfl h⟩

theorem nextBand_lt {band temp : Nat} (h : band < 4) : nextBand band temp < 4 := by
  have := fallBand_le temp band
  unfold nextBand
  dsimp only
  split_ifs <;> omega

theorem nextBand_spec (band temp : Nat) :
    let up := if temp < 850 then 0 else if temp < 950 then 1 else if temp < 1050 then 2 else 3
    (band ≤ up → nextBand band temp = up)
    ∧ (up < band → nextBand band temp ≤ band ∧ up ≤ nextBand band temp
      ∧ (nextBand band temp ≠ 0 → 730 + 100 * nextBand band temp ≤ temp)
      ∧ (nextBand band temp ≠ band → temp < 830 + 100 * nextBand band temp)) := by
  intro up
  have hup : (if temp ≥ 1050 then 3 else if temp ≥ 950 then 2 else if temp ≥ 850 then 1 else 0) = up := by
    simp only [up]
    split_ifs <;> omega
  unfold nextBand
  rw [hup]
  obtain ⟨h1, h2⟩ := fallBand_spec temp band
  have hle := fallBand_le temp band
  have hlow : 750 + 100 * up ≤ temp ∨ up = 0 := by
    simp only [up]
    split_ifs <;> omega
  dsimp only
  refine ⟨fun h => ?_, fun h => ?_⟩
  · split
    · rfl
    · obtain rfl : band = up := by omega
      by_contra hne
      have := h2 hne
      omega
  · rw [if_neg (by omega)]
    refine ⟨hle, ?_, h1, h2⟩
    by_contra hlt
    have := h2 (by omega)
    omega

/-! ## The four events -/

theorem exec_allowanceApply {s : State} {a : Announced} (h : s.announced = [a]) :
    exec (.allowanceApply a.group) s = .next (if a.at3 ≤ s.time3 then { s with
        announced := [], dies := s.dies.map fun d => if d.group = a.group then { d with allow := a.allow } else d
        foreign := s.foreign.map fun d => if d.2.group = a.group then (d.1, { d.2 with allow := a.allow }) else d }
      else s) := by
  show execAllowanceApply a.group s = _
  unfold execAllowanceApply
  rw [h]
  by_cases ht : a.at3 ≤ s.time3
  · simp [ht]
  · simp [ht]

theorem State.leaderOf_lt {s : State} (h : s.leaders = []) (g : Nat) : s.leaderOf g < 4 := by
  rw [State.leaderOf, h]
  show (s.groupDies g).headD 0 < 4
  cases hd : s.groupDies g with
  | nil => decide
  | cons i l =>
    have : i ∈ s.groupDies g := hd ▸ List.mem_cons_self
    exact List.mem_range.1 (List.mem_filter.1 this).1

theorem filter_group_set (v : Vector Die 4) (i : Fin 4) (d : Die) (h : ∀ j : Fin 4, j ≠ i → v[j].group ≠ d.group) :
    (v.set i d).toList.filter (fun x => x.group == d.group) = [d] := by
  obtain ⟨a, b, c, e, rfl⟩ : ∃ a b c e, v = #v[a, b, c, e] := by
    refine ⟨v[0], v[1], v[2], v[3], ?_⟩
    apply Vector.ext
    intro j hj
    match j, hj with
    | 0, _ | 1, _ | 2, _ | 3, _ => rfl
  have h0 := h 0
  have h1 := h 1
  have h2 := h 2
  have h3 := h 3
  fin_cases i <;> simp_all

theorem exec_allowanceRequest {s : State} (die : Fin 4) (req : BitVec 8) (effective : Word) (ha : s.announced = [])
    (hf : s.foreign = []) (hl : s.leaders = []) (hi : s.inlet ≤ 55) (hb : ∀ k ∈ s.hbm.toList, k.band.toNat < 2)
    (hg : ∀ i : Fin 4, i ≠ die → s.dies[i].group ≠ s.dies[die].group) :
    ∃ s', exec (.allowanceRequest die req effective) s = .next s'
      ∧ s' = { s with dies := s'.dies, announced := s'.announced, events := s'.events }
      ∧ s'.dies = s.dies.set die { s.dies[die] with request := req ||| 3 }
      ∧ s'.announced = if req ||| 3 = s.dies[die].allow then []
        else [⟨s.dies[die].group, req ||| 3, max (3 * effective.toNat) (s.time3 + 60000)⟩] := by
  let s1 : State := { s with dies := s.dies.set die { s.dies[die] with request := req ||| 3 } }
  have hset : s.setDie die { s.dies[die] with request := req ||| 3 } = s1 := by
    rw [State.setDie, if_pos die.isLt]
    refine congrArg (fun x => { s with dies := x }) (Vector.ext fun j hj => ?_)
    rw [Vector.getElem_mapIdx, Vector.getElem_set]
    exact if_congr eq_comm rfl rfl
  have hmembers : s1.groupMembers s.dies[die].group = [{ s.dies[die] with request := req ||| 3 }] := by
    show (s1.dies.toList ++ s.foreign.map fun d => d.2).filter _ = _
    rw [hf, List.map_nil, List.append_nil]
    exact filter_group_set s.dies die { s.dies[die] with request := req ||| 3 } hg
  have hcool (g : Nat) : (s1.groupDies g).any (fun i => (List.range 3).any fun j =>
      ((s.hbm.toList.map Stack.band).getD (3 * i + j) 0).toNat ≥ 2) = false := by
    simp only [List.any_eq_false]
    intro i _ hany
    obtain ⟨j, _, hj⟩ := List.any_eq_true.1 hany
    rw [decide_eq_true_eq, List.getD_eq_getElem?_getD, List.getElem?_map] at hj
    cases hk : s.hbm.toList[3 * i + j]? with
    | none =>
      rw [hk] at hj
      exact absurd hj (by decide)
    | some k =>
      rw [hk] at hj
      exact absurd (hb k (List.mem_of_getElem? hk)) (Nat.not_lt.2 hj)
  have hallow : s1.groupAllowance s.dies[die].group = req ||| 3 := by
    have hlt : (req ||| 3).toNat < 256 := (req ||| 3).isLt
    unfold State.groupAllowance
    rw [hmembers]
    dsimp only [List.foldl_cons, List.foldl_nil]
    rw [hcool, if_neg (by simp; exact hi), Nat.min_eq_right (by omega), BitVec.ofNat_toNat, BitVec.setWidth_eq]
  refine ⟨s1.announce s.dies[die].group effective, ?_, ?_, ?_, ?_⟩
  · show execAllowanceRequest die req effective s = _
    unfold execAllowanceRequest
    have hd : s.dieNumbered die = some s.dies[die] := by
      rw [State.dieNumbered, if_pos die.isLt]
      exact List.getElem?_eq_getElem _
    rw [hd]
    dsimp only
    rw [hset]
  · conv_lhs => rw [State.announce_frame]
    rw [State.announce_frame]
  · rw [State.announce_frame]
  · have hin : s1.announcedAs s.dies[die].group (req ||| 3) = decide (s.dies[die].allow = req ||| 3) := by
      unfold State.announcedAs
      rw [show s1.announced = [] from ha, hmembers]
      simp
      rfl
    refine (s1.announce_announced _ effective (State.leaderOf_lt (s := s1) hl _)).trans ?_
    rw [hallow, show s1.announced = [] from ha]
    exact if_congr (by rw [hin, decide_eq_true_eq]; exact eq_comm) rfl rfl

theorem exec_stackTempSample (s : State) (k : Fin 12) (temp : Nat) (effective : Word) :
    ∃ s', exec (.stackTempSample k temp effective) s = .next s'
    ∧ s' = { s with hbm := s'.hbm, events := s'.events, announced := s'.announced }
    ∧ (∀ j : Fin 12, j ≠ k → s'.hbm[j] = s.hbm[j])
    ∧ s'.hbm[k].band.toNat = nextBand s.hbm[k].band.toNat temp := by
  have hk : s.hbm.toList[k.val]? = some s.hbm[k] := List.getElem?_eq_getElem _
  by_cases hb : nextBand s.hbm[k].band.toNat temp = s.hbm[k].band.toNat
  · refine ⟨s, ?_, rfl, fun _ _ => rfl, hb.symm⟩
    show execStackTempSample k temp effective s = _
    unfold execStackTempSample
    rw [hk]
    dsimp only
    rw [if_pos hb]
  · let s2 : State := ({ s with hbm := s.hbm.mapIdx fun i x =>
      if i = k then ⟨BitVec.ofNat 2 (nextBand s.hbm[k].band.toNat temp), s.tick⟩ else x }).record (.stack k) .band
        (BitVec.ofNat 128 (nextBand s.hbm[k].band.toNat temp))
    have all (w : State) (hw : s2.Announces w) : w = { s with hbm := w.hbm, events := w.events, announced := w.announced }
        ∧ (∀ j : Fin 12, j ≠ k → w.hbm[j] = s.hbm[j]) ∧ w.hbm[k].band.toNat = nextBand s.hbm[k].band.toNat temp := by
      have hh : w.hbm = s2.hbm := by rw [hw]
      refine ⟨?_, fun j hj => ?_, ?_⟩
      · unfold State.Announces at hw
        rw [hw]
        rfl
      · rw [hh]
        exact (Vector.getElem_mapIdx ..).trans (if_neg fun h => hj (Fin.ext h))
      · rw [hh]
        refine (congrArg (fun x : Stack => x.band.toNat) ((Vector.getElem_mapIdx ..).trans (if_pos rfl))).trans ?_
        exact (BitVec.toNat_ofNat _ _).trans (Nat.mod_eq_of_lt (nextBand_lt s.hbm[k].band.isLt))
    refine ⟨_, ?_, all (if nextBand s.hbm[k].band.toNat temp ≥ 2 ∧ s.hbm[k].band.toNat < 2 then
      s2.announce (((s.dies.toList.map Die.group)[k.val / 3]?).getD 0) effective else s2) ?_⟩
    · show execStackTempSample k temp effective s = _
      unfold execStackTempSample
      rw [hk]
      dsimp only
      rw [if_neg hb]
    · split
      · exact s2.announce_frame _ _
      · rfl

theorem exec_inletTemperatureChange (s : State) (degrees : Nat) (effective : Word) :
    ∃ s', exec (.inletTemperatureChange degrees effective) s = .next s'
    ∧ s'.inlet = degrees
    ∧ (degrees ≤ 60 → s' = { s with inlet := degrees, announced := s'.announced, events := s'.events })
    ∧ (60 < degrees → s'.halted = true)
    ∧ (55 < degrees → s.inlet ≤ 55 → ∀ i : Fin 4, s.leaderOf s.dies[i].group < 4 → s'.CappedAt s.dies[i].group) := by
  let s1 : State := ({ s with inlet := degrees }).record (.die 0) .thermal (BitVec.ofNat 128 degrees)
  let s2 : State := if degrees > 55 ∧ s.inlet ≤ 55 then s1.announceAll ((s.dies.toList.map Die.group).eraseDups) effective else s1
  have h2 : s1.Announces s2 := by
    simp only [s2]
    split
    · exact s1.announceAll_announces _ _
    · rfl
  have hcap (h : 55 < degrees) (hs : s.inlet ≤ 55) (i : Fin 4) (hl : s.leaderOf s.dies[i].group < 4) :
      s2.CappedAt s.dies[i].group := by
    simp only [s2]
    rw [if_pos ⟨h, hs⟩]
    refine State.announceAll_capped (s := s1) effective h hl ?_
    rw [List.mem_eraseDups]
    exact List.mem_map_of_mem (Vector.mem_toList_iff.2 (Vector.getElem_mem _))
  have hinlet : s2.inlet = degrees := by rw [h2]; rfl
  by_cases hd : degrees > 60
  · refine ⟨s2.trip, ?_, ?_, fun h => absurd h (Nat.not_le.2 hd), fun _ => s2.trip_halted, fun h hs i hl => ?_⟩
    · show execInletTemperatureChange degrees effective s = _
      unfold execInletTemperatureChange
      dsimp only
      rw [if_pos hd]
      rfl
    · exact s2.trip_kept.1.trans hinlet
    · obtain ⟨_, ha, hdies, hforeign⟩ := s2.trip_kept
      exact State.cappedAt_congr (by rw [ha]) hdies hforeign (hcap h hs i hl)
  · refine ⟨s2, ?_, hinlet, fun _ => ?_, fun h => absurd h hd, hcap⟩
    · show execInletTemperatureChange degrees effective s = _
      unfold execInletTemperatureChange
      dsimp only
      rw [if_neg hd]
      rfl
    · unfold State.Announces at h2
      rw [h2]
      rfl

theorem powerAndHeat : PowerAndHeat := by
  refine ⟨fun s a h => exec_allowanceApply h, fun s die req e ha hf hl hi hb hg => exec_allowanceRequest die req e ha hf hl hi hb hg,
    ?_, ?_⟩
  · intro s k temp e
    obtain ⟨s', h, hframe, hother, hk⟩ := exec_stackTempSample s k temp e
    refine ⟨s', h, hframe, hother, ?_⟩
    rw [hk]
    exact nextBand_spec _ _
  · exact exec_inletTemperatureChange

end Sys2Proof.Machine

open Sys2Proof Sys2Proof.Machine

/-- Settles O60: a reset of a virtual function, a trip and an inlet temperature go through the frame of a stopped gang, starts
through the stages verified in order, allowances through what a group's last announcement is. -/
theorem platform : Obligations.Platform := by
  unfold Obligations.Platform
  exact ⟨vfReset, starts, attestation, thermalTrip, powerAndHeat⟩

end

section
/-!
SUPPORT. The keystones: how they fold the requests of a tick.
-/

namespace Sys2Proof.Machine

theorem foldValue_eq (k : ReqKind) (n : Nat) (x y : Word) : foldValue k n x y = foldedWord k n x y := by
  cases k with
  | amo op =>
    unfold foldValue foldedWord
    dsimp only
    rw [amoNew_eq_atomicNew]
  | load | store | fadd r => rfl

theorem combines_of_alike {a b : Request} {op : ReqKind} (h : Alike a b op) : combines a b = true := by
  obtain ⟨ha, hb, hop, hpart, hhome, hn, hord, hroute⟩ := h
  have hk : kindsCombine a.kind b.kind = true := by
    rw [ha, hb]
    rcases hop with ⟨o, rfl, hswp, hcas⟩ | rfl
    · cases o with
      | swp => exact absurd rfl hswp
      | cas => exact absurd rfl hcas
      | add | and | or | xor | min | max | minN | maxN => rfl
    · rfl
  simp [combines, hk, hpart, hhome, hn, hord, hroute]

/-- Two requests of a tick fold into one where the wait buffer has room, and leave one after the other where it has none. -/
theorem foldAll_pair {a b : Request} {op : ReqKind} (h : Alike a b op) (buf : List WaitEntry) (rid : Nat) :
    foldAll [a, b] [] buf rid = if buf.length < 32 then
      ([{ a with rid := rid, data := (foldedWord op a.n a.data b.data).1, via := a.via ++ b.via }],
        ⟨rid, a.rid, b.rid, a.data, op, a.n, (foldedWord op a.n a.data b.data).2⟩ :: buf, rid + 1)
    else ([a, b], buf, rid) := by
  have hc := combines_of_alike h
  simp only [foldAll, fold1]
  by_cases hb : buf.length < 32
  · have hfree : Config.waitBuffer - buf.length > 0 := Nat.sub_pos_of_lt hb
    simp [hfree, hc, hb, foldValue_eq, h.1]
  · have hfree : ¬ Config.waitBuffer - buf.length > 0 := by
      show ¬ 32 - buf.length > 0
      omega
    simp [hfree, hb]

theorem State.sendOn_home {s : State} {r : Request} (h : r.route = []) :
    s.sendOn r = { s with requests := s.requests ++ [{ r with stalled := true }] } := by
  unfold State.sendOn State.place
  dsimp only
  rw [h]

/-- Two requests at the only keystone, on the last leg of one way. -/
theorem exec_keystoneCombine {s : State} {k : Keystone} {a b : Request} {op : ReqKind} (hk : s.keystones = [k])
    (hq : k.queue = [a, b]) (ha : a.stalled = false) (hb : b.stalled = false) (hp : a.port ≤ b.port) (h : Alike a b op)
    (hr : a.route = []) : exec (.keystoneCombine k.ks) s = .next (if k.buf.length < 32 then { s with
        nextRid := s.nextRid + 1
        keystones := [{ k with
          queue := [], buf := ⟨s.nextRid, a.rid, b.rid, a.data, op, a.n, (foldedWord op a.n a.data b.data).2⟩ :: k.buf }]
        requests := s.requests ++ [{ a with
          rid := s.nextRid, stalled := true, data := (foldedWord op a.n a.data b.data).1, via := a.via ++ b.via }] }
      else { s with
        keystones := [{ k with queue := [] }]
        requests := s.requests ++ [{ a with stalled := true }, { b with stalled := true }] }) := by
  have hbr : b.route = [] := by
    obtain ⟨_, _, _, _, _, _, _, hroute⟩ := h
    rw [← hroute, hr]
  have hfind : s.keystones.find? (fun x => x.ks == k.ks) = some k := by rw [hk]; simp
  have hport : byPort [a, b] = [a, b] := by
    simp [byPort, sortBy, insertBy, hp]
  have hnow : k.queue.filter (fun r => !r.stalled) = [a, b] := by rw [hq]; simp [ha, hb]
  have hrest : k.queue.filter (fun r => r.stalled) = [] := by rw [hq]; simp [ha, hb]
  show execKeystoneCombine k.ks s = _
  unfold execKeystoneCombine
  rw [hfind]
  dsimp only
  rw [hnow, hport, foldAll_pair h, hrest]
  refine congrArg Host.Outcome.next ?_
  by_cases hfree : k.buf.length < 32
  · rw [if_pos hfree, if_pos hfree]
    refine Eq.trans (State.sendOn_home ?_) ?_
    · exact hr
    · simp [hk, updWhere]
  · rw [if_neg hfree, if_neg hfree]
    refine (congrArg (fun w : State => w.sendOn b) (State.sendOn_home hr)).trans ((State.sendOn_home hbr).trans ?_)
    simp [hk, updWhere]

theorem State.reply_waiting {s : State} (h : ∀ t ∈ s.strands, t.vamo = none) (r : Reply) :
    s.reply r = { s with replies := s.replies ++ [r] } := by
  have hnone : s.strands.find? (fun t => t.vamo.any fun a => a.sent.any fun x => x.2.1 == r.rid) = none :=
    List.find?_eq_none.2 fun t ht => by simp [h t ht]
  unfold State.reply
  rw [hnone]

theorem State.reply_two {s : State} (h : ∀ t ∈ s.strands, t.vamo = none) (a b : Reply) :
    (s.reply a).reply b = { s with replies := s.replies ++ [a, b] } := by
  rw [State.reply_waiting h]
  refine (State.reply_waiting (s := { s with replies := s.replies ++ [a] }) h b).trans ?_
  simp

theorem exec_keystoneSplitReply {s : State} {k : Keystone} {w : WaitEntry} {post : List WaitEntry} {ans : Answer} {fl : Flags}
    {rest : List Reply} (hk : s.keystones = [k]) (hbuf : k.buf = w :: post)
    (hpost : ∀ x ∈ post, x.rid ≠ w.rid) (hrest : ∀ x ∈ rest, x.rid ≠ w.rid) (hv : ∀ t ∈ s.strands, t.vamo = none) :
    s.replies = ⟨w.rid, ans, fl⟩ :: rest → exec (.keystoneSplitReply k.ks) s = .next { s with
      replies := rest ++ [⟨w.left, ans, fl ||| w.flags⟩, match ans with
        | .value v => ⟨w.right, .value (foldedWord w.kind w.n v w.opnd).1,
            (fl ||| w.flags) ||| (foldedWord w.kind w.n v w.opnd).2⟩
        | f => ⟨w.right, f, fl ||| w.flags⟩]
      keystones := [{ k with buf := post }] } := by
  intro hrep
  have hfind : s.keystones.find? (fun x => x.ks == k.ks) = some k := by rw [hk]; simp
  have hentry : k.buf.find? (fun w => s.replies.any fun r => r.rid == w.rid) = some w := by rw [hbuf, hrep]; simp
  have hreply : s.replies.find? (fun r => r.rid == w.rid) = some ⟨w.rid, ans, fl⟩ := by rw [hrep]; simp
  have hleft : s.replies.filter (fun x => x.rid != w.rid) = rest := by
    rw [hrep, List.filter_cons_of_neg (by simp), List.filter_eq_self]
    exact fun x hx => by simpa using hrest x hx
  have hkept : k.buf.filter (fun y => y.rid != w.rid) = post := by
    rw [hbuf, List.filter_cons_of_neg (by simp), List.filter_eq_self]
    exact fun x hx => by simpa using hpost x hx
  show execKeystoneSplitReply k.ks s = _
  unfold execKeystoneSplitReply
  rw [hfind]
  dsimp only
  rw [hentry]
  dsimp only
  rw [hreply]
  dsimp only
  refine congrArg Host.Outcome.next ?_
  refine Eq.trans (State.reply_two ?_ _ _) ?_
  · exact hv
  rw [hleft, hk]
  cases ans with
  | value v => simp [updWhere, hkept, foldValue_eq]
  | fault c v => simp [updWhere, hkept]

theorem exec_combinedRedirectReissue {s : State} {k x : Keystone} {r : Request} (hk : s.keystones = [k, x]) (hx : x.ks ≠ k.ks)
    (hr : k.redir = [r]) : exec (.combinedRedirectReissue k.ks) s
      = .next (({ s with keystones := [{ k with redir := [] }, x] } : State).place r) := by
  have hfind : s.keystones.find? (fun y => y.ks == k.ks) = some k := by rw [hk]; simp
  show execCombinedRedirectReissue k.ks s = _
  unfold execCombinedRedirectReissue
  rw [hfind]
  dsimp only
  rw [hr, hk]
  simp [updWhere, hx]

end Sys2Proof.Machine

open Sys2Proof Sys2Proof.Machine

/-- Settles O49: two requests that may combine are folded as the list of those that leave is built, and a reply of the folded
one finds its entry. -/
theorem keystoneEvents : Obligations.KeystoneEvents := by
  unfold Obligations.KeystoneEvents
  refine ⟨fun s k a b op hk hq ha hb hp h hr => exec_keystoneCombine hk hq ha hb hp h hr,
    fun s k w post ans fl rest hk hbuf hrep hpost hrest hv => exec_keystoneSplitReply hk hbuf hpost hrest hv hrep,
    fun s k x r port rest hk hx hr => ⟨fun h => ?_, fun h => ?_⟩⟩
  · rw [exec_combinedRedirectReissue hk hx hr, State.place, h]
  · rw [exec_combinedRedirectReissue hk hx hr, State.place, h]
    simp [updWhere, Ne.symm hx]

end

section
/-!
SUPPORT. Copies and moves: lines that answer go on answering while lines are written.
-/

namespace Sys2Proof.Machine

/-! ## Lines that answer -/

/-- A strand's line buffer rewritten, where the strand owns a copy. -/
def OwnBuffer (o : Option Nat) (f : Strand → Strand) : Prop :=
  ∀ t, f t = { t with lbuf := (f t).lbuf } ∧ ((o == some t.id.sid) = false → f t = t)

/-- `w` differs from `s` in memory, line states and the line buffer of the strand `o` alone; every line has the state it had. -/
structure State.WritesLines (s w : State) (o : Option Nat) : Prop where
  frame : ∃ f, OwnBuffer o f ∧ w = { s with strands := s.strands.map f, mem := w.mem, lines := w.lines }
  same : ∀ l, w.lineState l = s.lineState l

theorem State.WritesLines.refl (s : State) (o : Option Nat) : s.WritesLines s o :=
  ⟨⟨id, fun _ => ⟨rfl, fun _ => rfl⟩, by rw [List.map_id]⟩, fun _ => rfl⟩

theorem State.WritesLines.trans {s w u : State} {o : Option Nat} (h : s.WritesLines w o) (k : w.WritesLines u o) : s.WritesLines u o := by
  obtain ⟨⟨f, hf, hw⟩, hs⟩ := h
  obtain ⟨⟨g, hg, hu⟩, hl⟩ := k
  refine ⟨⟨g ∘ f, fun t => ⟨?_, fun ho => ?_⟩, ?_⟩, fun l => (hl l).trans (hs l)⟩
  · rw [Function.comp, (hg (f t)).1, (hf t).1]
  · rw [Function.comp, (hf t).2 ho, (hg t).2 ho]
  · rw [hu, hw]
    simp

theorem State.WritesLines.strand {s w : State} {o : Option Nat} (h : s.WritesLines w o) :
    ∃ f, OwnBuffer o f ∧ ∀ n, w.strand n = (s.strand n).map f := by
  obtain ⟨⟨f, hf, hw⟩, -⟩ := h
  refine ⟨f, hf, fun n => ?_⟩
  rw [hw]
  show (s.strands.map f).find? _ = (s.strands.find? _).map f
  rw [List.find?_map]
  congr 2
  funext t
  rw [Function.comp, (hf t).1]

theorem lineAt_writes {s w : State} {o : Option Nat} (hw : s.WritesLines w o) {c : CopyOp} {va : Word} {need : Need} {h : Nat} (hl : LineAt s c va need h) :
    LineAt w c va need h := by
  obtain ⟨⟨f, hf, hframe⟩, hsame⟩ := hw
  obtain ⟨hal, e, hm, ⟨⟨hsoft, hbehind, hturn⟩, hserved⟩, hlines⟩ := hl
  rw [if_neg (not_slab_of_hasLines hlines)] at hserved
  obtain ⟨hh, hserved⟩ := hserved
  have hline : w.lineState (lineOf h) = s.lineState (lineOf h) := hsame _
  refine ⟨hal, e, ⟨hm.canon, hm.aligned, ?_, hm.permits, ?_⟩, ⟨⟨?_, ?_, ?_⟩, ?_⟩, hlines⟩
  · rw [hframe]
    exact hm.hit
  · rw [hframe]
    exact hm.undenied
  · rw [hframe]
    exact hsoft
  · rw [hframe]
    exact hbehind
  · rw [← hturn, hframe]
    unfold State.waitsTurn State.heldBefore
    dsimp only
    have hany (p : Strand → Bool) (hp : ∀ t, p (f t) = p t) : (s.strands.map f).any p = s.strands.any p := by
      rw [List.any_map, show p ∘ f = p from funext hp]
    rw [hany _ fun t => by rw [(hf t).1]]
    rfl
  · rw [if_neg (not_slab_of_hasLines hlines)]
    refine ⟨hh, hserved.imp_right fun k => ⟨k.1, hline.trans k.2.1, ?_⟩⟩
    rw [hframe]
    exact k.2.2

theorem lineAt_ctx {s : State} {c k : CopyOp} {va : Word} {need : Need} {h : Nat} (hk : k.ctx = c.ctx) (hl : LineAt s c va need h) :
    LineAt s k va need h := by
  unfold LineAt at hl ⊢
  rw [hk]
  exact hl

/-! ## One line written by a copy -/

/-- What is left where a copy has written a line. -/
def State.lineWritten (s : State) (c : CopyOp) (va : Word) (h : Nat) (bs : List Byte) : State :=
  (s.writeHome h bs).dropOwnLines c va (lineOf h)

theorem State.lineWritten_writes {s : State} {c : CopyOp} {va : Word} {need : Need} {h : Nat} (hl : LineAt s c va need h)
    (bs : List Byte) : s.WritesLines (s.lineWritten c va h bs) c.owner := by
  obtain ⟨_, e, _, hserved, _⟩ := hl
  refine ⟨⟨fun t => if c.owner == some t.id.sid then { t with lbuf := dropLines t.lbuf va (lineOf h) } else t,
    fun t => ⟨?_, fun ho => ?_⟩, ?_⟩,
    fun l => State.lineState_writeHome hserved.plain bs l⟩
  · dsimp only
    split <;> rfl
  · dsimp only
    rw [ho, if_neg Bool.false_ne_true]
  · unfold State.lineWritten
    rw [State.writeHome_frame]
    rfl

theorem State.lineWritten_mem (s : State) (c : CopyOp) (va : Word) (h : Nat) (bs : List Byte) :
    (s.lineWritten c va h bs).mem = Memory.fill s.mem h bs :=
  State.writeHome_mem s h bs

theorem State.writeBlock_line {s : State} {c : CopyOp} {h : Nat} {bs : List Byte} (hl : LineAt s c c.rem.ndst .write h)
    (hb : bs.length = 128) : s.writeBlock c bs = .ok (s.lineWritten c c.rem.ndst h bs) (s.lineWritten c c.rem.ndst h bs) := by
  obtain ⟨_, e, hm, hserved, _⟩ := hl
  have hm' : Mapped s c.ctx c.rem.ndst bs.length .write e := hb ▸ hm
  have hsoft : (s.lineWritten c c.rem.ndst h bs).soft.erase (lineOf h) = (s.lineWritten c c.rem.ndst h bs).soft := by
    refine List.erase_of_not_mem fun hmem => ?_
    have hs : (s.lineWritten c c.rem.ndst h bs).soft = s.soft := by
      unfold State.lineWritten
      rw [State.writeHome_frame]
      rfl
    rw [hs] at hmem
    have := hserved.1.1
    rw [List.contains_iff_mem.2 hmem] at this
    cases this
  unfold State.writeBlock
  rw [State.resolve_served hm' (Nat.mod_one _) hserved hserved.dataCause, Res.bind, State.atHome_served hserved, Res.bind]
  dsimp only
  rw [if_pos hb]
  show Res.ok { s.lineWritten c c.rem.ndst h bs with soft := (s.lineWritten c c.rem.ndst h bs).soft.erase (lineOf h) } _ = _
  rw [hsoft]
  rfl

theorem State.readPiece_line {s : State} {c : CopyOp} {va : Word} {h : Nat} (hl : LineAt s c va .read h) (hf : c.rem.form ≠ 2) :
    s.readPiece c va 128 = .all (Memory.bytes s.mem h 128) s := by
  obtain ⟨_, e, hm, hserved, _⟩ := hl
  unfold State.readPiece
  rw [if_neg hf, State.resolve_served hm (Nat.mod_one _) hserved hserved.dataCause]
  dsimp only
  rw [State.atHome_served hserved]

theorem State.readBlock_line {s : State} {c : CopyOp} {va : Word} {h : Nat} (hl : LineAt s c va .read h) (hf : c.rem.form ≠ 2) :
    s.readBlock c va 128 = .all (Memory.bytes s.mem h 128) s := by
  have hal : va.toNat % 128 = 0 := by
    obtain ⟨_, e, hm, _⟩ := hl
    exact hm.aligned
  unfold State.readBlock
  rw [hal]
  simp only [Nat.sub_zero, min_self]
  rw [State.readPiece_line hl hf]
  rfl

/-- The data of a line as memory gives it. -/
theorem State.lineData_written {s : State} (hm : s.memOk) {h k : Nat} (hh : h % 128 = 0) (hk : k % 128 = 0) {w : State}
    (hw : w.mem = Memory.fill s.mem h (Memory.bytes s.mem k 128)) : w.lineData (lineOf h) = s.lineData (lineOf k) := by
  have hh' : 128 * lineOf h = h := by unfold lineOf; omega
  have hk' : 128 * lineOf k = k := by unfold lineOf; omega
  rw [State.lineData, State.lineData, hh', hk', hw, ← Memory.leBytes_read]
  refine congrArg (BitVec.ofNat 1024) ?_
  refine (Memory.read_write_same hm.1 h 128 _).trans ?_
  exact Nat.mod_eq_of_lt (Memory.read_lt _ _ _)

theorem Memory.bytes_congr {m k : List Host.Cell} {a n : Nat} (h : ∀ i < n, Memory.get m (a + i) = Memory.get k (a + i)) :
    Memory.bytes m a n = Memory.bytes k a n := by
  induction n generalizing a with
  | zero => rfl
  | succ n ih =>
    rw [Memory.bytes, Memory.bytes, show Memory.get m a = Memory.get k a from h 0 (Nat.succ_pos n), ih fun i hi => ?_]
    rw [Nat.add_right_comm]
    exact h (i + 1) (Nat.succ_lt_succ hi)

theorem State.lineData_congr {s w : State} {l : Nat} (h : ∀ a, lineOf a = l → Memory.get w.mem a = Memory.get s.mem a) :
    w.lineData l = s.lineData l := by
  have hb : Memory.bytes w.mem (128 * l) 128 = Memory.bytes s.mem (128 * l) 128 := by
    refine Memory.bytes_congr fun i hi => h _ ?_
    unfold lineOf
    omega
  rw [State.lineData, State.lineData, Memory.read, Memory.read, hb]

theorem State.lineWritten_apart {s : State} {c : CopyOp} {va : Word} {h a : Nat} {bs : List Byte} (hh : h % 128 = 0)
    (hb : bs.length = 128) (ha : lineOf a ≠ lineOf h) : Memory.get (s.lineWritten c va h bs).mem a = Memory.get s.mem a := by
  rw [State.lineWritten_mem]
  refine Memory.get_fill_other _ _ _ ?_
  rw [hb]
  unfold lineOf at ha
  omega

theorem State.lineWritten_memOk {s : State} (hm : s.memOk) {c : CopyOp} {va : Word} {h : Nat} {bs : List Byte} :
    (s.lineWritten c va h bs).memOk := by
  refine ⟨?_, ?_⟩
  · rw [State.lineWritten_mem]
    exact Memory.wf_fill hm.1 _ _
  · show Cells.rising (s.writeHome h bs).lines = true
    unfold State.writeHome
    dsimp only
    split
    · exact Cells.rising_put hm.2 _ _
    · exact hm.2

/-! ## The blocks of a copy of whole lines -/

/-- What a copy has left to do: `n` whole lines of one row. -/
structure CopyOp.LinesLeft (c : CopyOp) (n : Nat) : Prop where
  form : c.rem.form = 0
  left : c.rem.left = 128 * n
  row : n ≠ 0 → c.rem.rows = 1
  flat : c.rem.rowb = 0

/-- A copy once it has written its next line. -/
def CopyOp.next (c : CopyOp) : CopyOp :=
  { c with rem := c.rem.past 128, held := none }

theorem CopyOp.next_ctx (c : CopyOp) : c.next.ctx = c.ctx := by
  unfold CopyOp.ctx CopyOp.next
  rfl

theorem CopyOp.next_owner (c : CopyOp) : c.next.owner = c.owner := by
  simp only [CopyOp.next]

theorem CopyOp.next_left {c : CopyOp} {n : Nat} (h : c.LinesLeft (n + 1)) : c.next.LinesLeft n
    ∧ (n ≠ 0 → c.next.rem.ndst = c.rem.ndst + 128 ∧ c.next.rem.nsrc = c.rem.nsrc + 128) := by
  obtain ⟨hf, hl, hr, hz⟩ := h
  by_cases hn : n = 0
  · subst hn
    have : c.rem.left - 128 = 0 := by omega
    refine ⟨⟨?_, ?_, fun h => absurd rfl h, ?_⟩, fun h => absurd rfl h⟩ <;>
      simp [CopyOp.next, Remainder.past, this, hf, hz]
  · have : ¬ c.rem.left - 128 = 0 := by omega
    refine ⟨⟨?_, ?_, fun _ => ?_, ?_⟩, fun _ => ⟨?_, ?_⟩⟩ <;>
      simp [CopyOp.next, Remainder.past, this, hf, hz, hr]
    omega

theorem State.copyBlocks_next {s : State} {c : CopyOp} {n h d : Nat} (hc : c.LinesLeft (n + 1)) (hsrc : LineAt s c c.rem.nsrc .read h)
    (hdst : LineAt s c c.rem.ndst .write d) (fuel : Nat) :
    State.copyBlocks (fuel + 1) s c = State.copyBlocks fuel (s.lineWritten c c.rem.ndst d (Memory.bytes s.mem h 128)) c.next := by
  obtain ⟨hf, hl, hr, hz⟩ := hc
  have hal : c.rem.ndst.toNat % 128 = 0 := by
    obtain ⟨_, e, hm, _⟩ := hdst
    exact hm.aligned
  have hn : min c.rem.left (128 - c.rem.ndst.toNat % 128) = 128 := by omega
  have hgo : ¬ (c.rem.rows = 0 ∨ c.rem.left = 0) := by
    rw [hr (Nat.succ_ne_zero n)]
    omega
  rw [State.copyBlocks, if_neg hgo]
  dsimp only
  rw [hn, State.readBlock_line hsrc (by rw [hf]; decide)]
  dsimp only
  rw [State.writeBlock_line hdst (Memory.length_bytes _ _ _)]
  rfl

/-- What a copy of whole lines leaves: the destination lines hold what the source lines held, nothing else has changed. -/
structure State.LinesCopied (s s' : State) (o : Option Nat) (n : Nat) (h d : Nat → Nat) : Prop where
  writes : s.WritesLines s' o
  data : ∀ i < n, s'.lineData (lineOf (d i)) = s.lineData (lineOf (h i))
  others : ∀ a, (∀ i < n, lineOf a ≠ lineOf (d i)) → Memory.get s'.mem a = Memory.get s.mem a

theorem ofNat_lines_succ (v : Word) (i : Nat) : v + BitVec.ofNat 64 (128 * (i + 1)) = v + 128 + BitVec.ofNat 64 (128 * i) := by
  rw [BitVec.add_assoc]
  congr 1
  apply BitVec.eq_of_toNat_eq
  simp [Nat.mul_add, Nat.add_comm]

/-- Every line of a copy answers, and no line is both read and written, or written twice. -/
structure State.LinesApart (s : State) (c : CopyOp) (n : Nat) (h d : Nat → Nat) : Prop where
  answer : ∀ i < n, LineAt s c (c.rem.nsrc + BitVec.ofNat 64 (128 * i)) .read (h i)
    ∧ LineAt s c (c.rem.ndst + BitVec.ofNat 64 (128 * i)) .write (d i)
  apart : ∀ i < n, ∀ j < n, lineOf (h i) ≠ lineOf (d j) ∧ (i ≠ j → lineOf (d i) ≠ lineOf (d j))

theorem State.LinesApart.next {s : State} {c : CopyOp} {n : Nat} {h d : Nat → Nat} (hl : s.LinesApart c (n + 1) h d)
    (hc : c.LinesLeft (n + 1)) {w : State} (hw : s.WritesLines w c.owner) :
    w.LinesApart c.next n (fun i => h (i + 1)) fun i => d (i + 1) := by
  refine ⟨fun i hi => ?_, fun i hi j hj => ?_⟩
  · obtain ⟨hdst, hsrc⟩ := (CopyOp.next_left hc).2 (by omega)
    obtain ⟨hr, hwr⟩ := hl.answer (i + 1) (by omega)
    rw [ofNat_lines_succ] at hr hwr
    rw [hdst, hsrc]
    exact ⟨lineAt_ctx (c := c) c.next_ctx (lineAt_writes hw hr), lineAt_ctx (c := c) c.next_ctx (lineAt_writes hw hwr)⟩
  · obtain ⟨h1, h2⟩ := hl.apart (i + 1) (by omega) (j + 1) (by omega)
    exact ⟨h1, fun hij => h2 (by omega)⟩

theorem State.copyBlocks_lines (n : Nat) : ∀ (h d : Nat → Nat) (s : State) (c : CopyOp) (fuel : Nat), n < fuel → s.memOk →
    c.LinesLeft n → s.LinesApart c n h d → ∃ s', State.copyBlocks fuel s c = .done s' ∧ s.LinesCopied s' c.owner n h d := by
  induction n with
  | zero =>
    intro h d s c fuel hfuel hm hc hl
    obtain ⟨fuel, rfl⟩ := Nat.exists_eq_succ_of_ne_zero (Nat.ne_of_gt hfuel)
    exact ⟨s, by rw [Nat.succ_eq_add_one, State.copyBlocks, if_pos (Or.inr hc.left)], .refl s _, fun _ hi => absurd hi (Nat.not_lt_zero _), fun _ _ => rfl⟩
  | succ n ih =>
    intro h d s c fuel hfuel hm hc hl
    obtain ⟨fuel, rfl⟩ := Nat.exists_eq_succ_of_ne_zero (Nat.ne_of_gt (Nat.zero_lt_of_lt hfuel))
    obtain ⟨hsrc, hdst⟩ := hl.answer 0 (Nat.succ_pos n)
    simp only [Nat.mul_zero, BitVec.add_zero] at hsrc hdst
    have hb : (Memory.bytes s.mem (h 0) 128).length = 128 := Memory.length_bytes _ _ _
    have hw := State.lineWritten_writes hdst (Memory.bytes s.mem (h 0) 128)
    have hal : d 0 % 128 = 0 := hdst.1
    obtain ⟨s', hrun, hwrites, hdata, hothers⟩ := ih (fun i => h (i + 1)) (fun i => d (i + 1)) _ c.next fuel (Nat.lt_of_succ_lt_succ hfuel)
      (State.lineWritten_memOk hm (c := c) (va := c.rem.ndst) (h := d 0) (bs := Memory.bytes s.mem (h 0) 128))
      (CopyOp.next_left hc).1 (hl.next hc hw)
    rw [c.next_owner] at hwrites
    refine ⟨s', (State.copyBlocks_next hc hsrc hdst fuel).trans hrun, hw.trans hwrites, fun i hi => ?_, fun a ha => ?_⟩
    · cases i with
      | zero =>
        have hkeep : s'.lineData (lineOf (d 0)) = (s.lineWritten c c.rem.ndst (d 0) (Memory.bytes s.mem (h 0) 128)).lineData (lineOf (d 0)) := by
          refine State.lineData_congr fun a ha => hothers a fun i hi => ?_
          rw [ha]
          exact (hl.apart 0 (Nat.succ_pos n) (i + 1) (by omega)).2 (by omega)
        rw [hkeep]
        exact State.lineData_written hm hal hsrc.1 (State.lineWritten_mem _ _ _ _ _)
      | succ i =>
        rw [hdata i (by omega)]
        refine State.lineData_congr fun a ha => State.lineWritten_apart hal hb ?_
        rw [ha]
        exact (hl.apart (i + 1) hi 0 (Nat.succ_pos n)).1
    · rw [hothers a fun i hi => ha (i + 1) (by omega)]
      exact State.lineWritten_apart hal hb (ha 0 (Nat.succ_pos n))

/-! ## Moves line by line -/

/-- A copy that may go on is not held and waits for no service. -/
theorem copying_ready {s : State} {c : CopyOp} {form : BitVec 2} (h : Copying s c form) :
    c.stalled = false ∧ s.waitsService (.copy c.cid) = false := by
  obtain ⟨-, hr, -⟩ := h
  unfold State.copyReady at hr
  rw [Bool.and_eq_true, Bool.and_eq_true, Bool.not_eq_true', Bool.not_eq_true'] at hr
  exact hr.1

theorem State.requested_line {s : State} {c : CopyOp} {va : Word} {need : Need} {e : TlbEntry} (hm : Mapped s c.ctx va 128 need e) :
    s.requested c.ctx va 128 1 .any = .ok e s :=
  State.requested_mapped ⟨hm.canon, hm.aligned, hm.hit, rfl, hm.undenied⟩ (Nat.mod_one _)

theorem State.moveTarget_line {s : State} {c : CopyOp} {d : Nat} (hl : LineAt s c c.rem.ndst .write d) :
    s.moveTarget c = .ok (some (lineOf d)) s := by
  obtain ⟨_, e, hm, hserved, hlines⟩ := hl
  have hd : d = entryHome e (va52 c.rem.ndst) := (hserved.lines (not_slab_of_hasLines hlines) hlines).1
  rw [State.moveTarget, State.requested_line hm, Res.bind]
  rw [hlines, if_neg (by decide), State.translate_hit _ hm.hit hm.permits hm.undenied, Res.bind, ← hd]

theorem State.moveSource_line {s : State} {c : CopyOp} {h : Nat} (hl : LineAt s c c.rem.nsrc .read h) :
    ∃ a, s.moveSource c = .ok (some ⟨h, c.rem.nsrc, 0, a, some .plain⟩) s
      ∧ s.atHome c.ctx c.rem.nsrc ⟨h, c.rem.nsrc, 0, a, some .plain⟩ .read false = .ok ⟨h, c.rem.nsrc, 0, a, some .plain⟩ s := by
  obtain ⟨_, e, hm, hserved, hlines⟩ := hl
  obtain ⟨hd, hp, hclosed⟩ := hserved.lines (not_slab_of_hasLines hlines) hlines
  refine ⟨pteAttr e.pte, ?_, State.atHome_served hserved _ _ _⟩
  rw [State.moveSource, State.requested_line hm, Res.bind]
  rw [hlines, if_neg (by decide), State.translate_hit _ hm.hit hm.permits hm.undenied, Res.bind, State.chase]
  dsimp only
  rw [← hd, hclosed, if_neg (by decide), hp]
  rfl

theorem exec_moveLineMark {s : State} {c : CopyOp} {h d : Nat} (hc : Copying s c 3) (hmv : c.moving = none) (hleft : c.rem.left ≠ 0)
    (hsrc : LineAt s c c.rem.nsrc .read h) (hdst : LineAt s c c.rem.ndst .write d) :
    exec (.moveLineMark c.cid) s = .next { s with
      lines := Cells.put s.lines (lineOf h) (some .inMove)
      copies := updWhere s.copies (fun x => x.cid == c.cid) fun _ => { c with moving := some ⟨lineOf h, 0⟩, held := none } } := by
  obtain ⟨hfind, hready, hform⟩ := hc
  obtain ⟨a, hs, hh⟩ := State.moveSource_line hsrc
  have hgo : (!s.copyReady c || c.rem.form != 3 || c.moving.isSome || c.rem.left == 0) = false := by
    simp [hready, hform, hmv, hleft]
  show execMoveLineMark c.cid s = _
  unfold execMoveLineMark
  rw [hfind]
  dsimp only
  rw [hgo, if_neg Bool.false_ne_true, hs]
  dsimp only
  rw [hh]
  dsimp only
  rw [if_neg (by decide), State.moveTarget_line hdst]
  rfl

theorem toNat_lineVa (va : Word) : (lineVa va).toNat = va.toNat / 128 * 128 := by
  have h : lineVa va = va >>> 7 <<< 7 := by
    refine BitVec.eq_of_getLsbD_eq fun i hi => ?_
    have h127 : (127 : BitVec 64).getLsbD i = decide (i < 7) := by
      rw [BitVec.getLsbD, show (127 : BitVec 64).toNat = 2 ^ 7 - 1 from rfl, Nat.testBit_two_pow_sub_one]
    rw [lineVa, BitVec.getLsbD_and, BitVec.getLsbD_not, h127, BitVec.getLsbD_shiftLeft, BitVec.getLsbD_ushiftRight]
    by_cases h7 : i < 7
    · simp [h7]
    · simp [h7, hi, Nat.add_sub_cancel' (Nat.le_of_not_lt h7)]
  have hlt := va.isLt
  rw [h, BitVec.toNat_shiftLeft, BitVec.toNat_ushiftRight, Nat.shiftRight_eq_div_pow, Nat.shiftLeft_eq]
  omega

/-- The record that a line moved away leaves at its source. -/
def CopyOp.moveRecord (c : CopyOp) (m : Moving) : BitVec 1024 :=
  (BitVec.ofNat 16 (min (m.hops + 1) 65535) ++ c.mover ++ c.asid ++ c.rem.ndst : BitVec 128).setWidth 1024

theorem CopyOp.moveRecord_eq (c : CopyOp) (m : Moving) (h : c.rem.ndst.toNat % 128 = 0) :
    fwdRecord (BitVec.ofNat 16 (min (m.hops + 1) 65535)) c.mover c.asid c.rem.ndst = c.moveRecord m := by
  have hv : lineVa c.rem.ndst = c.rem.ndst := BitVec.eq_of_toNat_eq (by rw [toNat_lineVa]; omega)
  rw [fwdRecord, hv, CopyOp.moveRecord]

/-- A move that has gone on by a line. -/
def CopyOp.lineOn (c : CopyOp) : CopyOp :=
  { c with
    moving := none
    held := none
    rem := { c.rem with
      ndst := c.rem.ndst + 128, nsrc := c.rem.nsrc + 128, left := c.rem.left - 128, done := c.rem.done + 128 } }

theorem State.releaseHeld_none {s : State} {line : Nat} (h : ∀ q ∈ s.requests, ∀ x, q.held = some x → x.1 ≠ line) :
    s.releaseHeld line = s := by
  have hnone : s.requests.filter (fun r => lineOf r.home == line && r.held.any fun h => h.1 == line) = [] := by
    rw [List.filter_eq_nil_iff]
    intro r hr hx
    rw [Bool.and_eq_true] at hx
    cases hh : r.held with
    | none =>
      rw [hh] at hx
      exact Bool.noConfusion hx.2
    | some x =>
      rw [hh] at hx
      exact h r hr x hh (by simpa using hx.2)
  unfold State.releaseHeld State.heldAt
  rw [hnone]
  rfl

/-- The state once the data of line `src` stand in line `d` and its record `r` in their place. -/
def State.lineMoved (s : State) (c c1 : CopyOp) (src d : Nat) (r : BitVec 1024) : State :=
  let s2 : State := { s.setLineData d (s.lineData src) with soft := s.soft.erase d }
  ((((s2.setLineData src r).setLine src .forwarded).forgetLine src).dropOwnLines c c.rem.ndst d).setCopy c1

section
variable (s : State) (c c1 : CopyOp) (src d : Nat) (r : BitVec 1024)

theorem State.lineMoved_requests : (s.lineMoved c c1 src d r).requests = s.requests := by
  simp only [State.lineMoved, State.setCopy, State.dropOwnLines, State.forgetLine, State.setLine, State.setLineData]

theorem State.lineMoved_copies : (s.lineMoved c c1 src d r).copies = updWhere s.copies (fun x => x.cid == c1.cid) fun _ => c1 := by
  simp only [State.lineMoved, State.setCopy, State.dropOwnLines, State.forgetLine, State.setLine, State.setLineData]

theorem State.lineMoved_lines : (s.lineMoved c c1 src d r).lines = Cells.put s.lines src (some .forwarded) := by
  simp only [State.lineMoved, State.setCopy, State.dropOwnLines, State.forgetLine, State.setLine, State.setLineData]

theorem State.lineMoved_mem : (s.lineMoved c c1 src d r).mem = ((s.setLineData d (s.lineData src)).setLineData src r).mem := by
  simp only [State.lineMoved, State.setCopy, State.dropOwnLines, State.forgetLine, State.setLine, State.setLineData]

end

theorem exec_moveLineCommit {s : State} {c : CopyOp} {m : Moving} {d : Nat} (hc : Copying s c 3) (hmv : c.moving = some m)
    (hdst : LineAt s c c.rem.ndst .write d) (hq : ∀ q ∈ s.requests, ∀ x, q.held = some x → x.1 ≠ m.src) :
    exec (.moveLineCommit c.cid) s = .next (s.lineMoved c c.lineOn m.src (lineOf d) (c.moveRecord m)) := by
  obtain ⟨hstall, hwait⟩ := copying_ready hc
  obtain ⟨hfind, hready, hform⟩ := hc
  have hal : c.rem.ndst.toNat % 128 = 0 := by
    obtain ⟨_, e, hm, _⟩ := hdst
    exact hm.aligned
  have hline := hdst
  obtain ⟨_, e, hm, hserved, hlines⟩ := hline
  obtain ⟨hp, ho, hu⟩ := hserved.line hlines
  have hgo : (c.stalled || s.waitsService (.copy c.cid)) = false := by rw [hstall, hwait, Bool.or_self]
  show execMoveLineCommit c.cid s = _
  unfold execMoveLineCommit
  rw [hfind]
  dsimp only
  rw [hmv]
  dsimp only
  rw [hgo, if_neg Bool.false_ne_true, State.moveTarget_line hdst]
  dsimp only
  rw [ho, hu, Bool.or_self, if_neg Bool.false_ne_true, hp, if_neg (by decide), c.moveRecord_eq m hal]
  refine congrArg Host.Outcome.next ?_
  have hq' : ∀ q ∈ (s.lineMoved c c.lineOn m.src (lineOf d) (c.moveRecord m)).requests, ∀ x, q.held = some x → x.1 ≠ m.src := by
    rw [State.lineMoved_requests]
    exact hq
  exact State.releaseHeld_none hq'

theorem ofNat_toNat_mod {n : Nat} (x : BitVec n) : BitVec.ofNat n (x.toNat % 2 ^ n) = x := by
  rw [Nat.mod_eq_of_lt x.isLt, BitVec.ofNat_toNat, BitVec.setWidth_eq]

theorem State.lineData_setLineData {s : State} (hm : Memory.wf s.mem = true) (l : Nat) (x : BitVec 1024) :
    (s.setLineData l x).lineData l = x := by
  rw [State.lineData, State.setLineData]
  dsimp only
  rw [Memory.read_write_same hm]
  exact ofNat_toNat_mod (n := 8 * 128) x

theorem State.lineData_setLineData_other (s : State) {l k : Nat} (h : k ≠ l) (x : BitVec 1024) :
    (s.setLineData l x).lineData k = s.lineData k := by
  rw [State.lineData, State.setLineData, State.lineData]
  dsimp only
  rw [Memory.read_write_apart]
  omega

theorem get_setLineData_other (s : State) {l a : Nat} (h : lineOf a ≠ l) (x : BitVec 1024) :
    Memory.get (s.setLineData l x).mem a = Memory.get s.mem a := by
  rw [State.setLineData]
  dsimp only
  rw [Memory.write, Memory.get_fill_other]
  rw [length_leBytes]
  unfold lineOf at h
  omega

/-! ## The end of a copy -/

/-- The strand that owned a copy once it has ended. -/
theorem State.endCopy_strand {s : State} {c : CopyOp} {sid : Nat} {t : Strand} (ht : s.strand sid = some t) (ho : c.owner = some sid)
    (x : Word) : (s.endCopy c x).strand sid = some (t.tokenWritten c.rem.token x)
      ∧ SameOthers s (s.endCopy c x) sid := by
  have hs : (s.endCopy c x).strands = updWhere s.strands (fun t => c.owner == some t.id.sid) fun t => t.tokenWritten c.rem.token x := rfl
  have hid (t : Strand) : (t.tokenWritten c.rem.token x).id = t.id := by
    unfold Strand.tokenWritten
    split
    · rfl
    · exact Strand.setS_id _ _ _
  refine ⟨?_, fun n hn => ?_⟩
  · rw [State.strand_updWhere hs hid, ht, Option.map_some, ho, strand_sid ht]
    simp
  · rw [State.strand_updWhere hs hid]
    cases hu : s.strand n with
    | none => rfl
    | some u =>
      rw [Option.map_some, ho, strand_sid hu, if_neg]
      simpa using Ne.symm hn

/-- What the end of a copy with value 0 leaves of its list of copies and of the strands. -/
def CopyEnded (s s' : State) (c : CopyOp) (sid : Nat) (t : Strand) : Prop :=
  s'.copies = s.copies.filter (fun x => x.cid != c.cid) ∧ SameOthers s s' sid
    ∧ ∃ t', s'.strand sid = some t' ∧ t' = { t.setS c.rem.token 0 with
        tokp := t.tokp &&& ~~~(1#32 <<< c.rem.token.toNat), record := t'.record, lbuf := t'.lbuf
        acc := t.acc.map fun a => { a with back := { a.back with s := a.back.s.set c.rem.token.toNat 0 c.rem.token.isLt } } }

theorem endCopy_ended {s w : State} {c : CopyOp} {sid : Nat} {t : Strand} (ht : s.strand sid = some t) (ho : c.owner = some sid)
    (htok : c.rem.token ≠ 0) (hw : s.WritesLines w c.owner) : CopyEnded s (w.endCopy c 0) c sid t := by
  obtain ⟨f, hf, hstrand⟩ := hw.strand
  have hft : w.strand sid = some (f t) := by rw [hstrand, ht]; rfl
  obtain ⟨hend, hothers⟩ := State.endCopy_strand hft ho 0
  refine ⟨?_, fun n hn => ?_, _, hend, ?_⟩
  · show w.copies.filter _ = _
    obtain ⟨⟨g, -, hframe⟩, -⟩ := hw
    rw [hframe]
  · rw [hothers n hn, hstrand]
    cases hu : s.strand n with
    | none => rfl
    | some u =>
      rw [Option.map_some, (hf u).2]
      rw [ho, strand_sid hu]
      simpa using Ne.symm hn
  · unfold Strand.tokenWritten
    rw [if_neg htok]
    dsimp only
    rw [(hf t).1]
    unfold Strand.deliver Strand.setS
    simp only [if_neg htok]

theorem exec_copyCompletion_move {s : State} {c : CopyOp} (hc : Copying s c 3) (hmv : c.moving = none) (hleft : c.rem.left = 0) :
    exec (.copyCompletion c.cid) s = .next (s.endCopy c 0) := by
  obtain ⟨hfind, hready, hform⟩ := hc
  show execCopyCompletion c.cid s = _
  unfold execCopyCompletion
  rw [hfind]
  dsimp only
  rw [hready, if_neg (by decide), if_pos hform, hmv, hleft]
  rfl

theorem exec_copyCompletion_done {s w : State} {c : CopyOp} (hc : Copying s c 0)
    (hrun : State.copyBlocks c.rem.blocks s c = .done w) : exec (.copyCompletion c.cid) s = .next (w.endCopy c 0) := by
  obtain ⟨hfind, hready, hform⟩ := hc
  show execCopyCompletion c.cid s = _
  unfold execCopyCompletion
  rw [hfind]
  dsimp only
  rw [hready, if_neg (by decide), hform, if_neg (by decide), hrun]

theorem CopyOp.blocks_enough {c : CopyOp} {n : Nat} (h : c.rem.left = 128 * n) : n < c.rem.blocks := by
  unfold Remainder.blocks
  omega

/-! ## Moves of the supervisor -/

theorem tierManagerMoves (s : State) (asid : BitVec 16) (src dst : Word) (len : Nat) (mover : Mover) (hlen : 1 ≤ len) :
    let moved : Prop := ∃ rem : Remainder, exec (.tierManagerMove asid src dst len mover) s = .next { s with
        copies := s.copies ++ [⟨s.nextCid, none, asid, BitVec.ofNat 32 ((if mover.other then 2 else 1) * 2 ^ 28 + mover.id.toNat), rem,
          none, false, none⟩]
        nextCid := s.nextCid + 1 }
      ∧ rem.form = 3 ∧ rem.token = 0 ∧ rem.done = 0
      ∧ rem.nsrc.toNat = src.toNat / 128 * 128 ∧ rem.ndst.toNat = dst.toNat / 128 * 128
      ∧ rem.left = ((src.toNat + len - 1) / 128 - src.toNat / 128 + 1) * 128
    let first := src.toNat % 2 ^ 52 / 128 * 128
    let fixed : Prop := ∃ p ∈ s.placement, p.asid = asid ∧ p.base.toNat % 2 ^ 52 < first + ((src.toNat + len - 1) / 128 - src.toNat / 128 + 1) * 128 ∧ first < p.base.toNat % 2 ^ 52 + p.len
    (s.boot.minimal = false → mover.other = true ∨ ¬ fixed → moved)
    ∧ (s.boot.minimal = true ∨ mover.other = false ∧ fixed → exec (.tierManagerMove asid src dst len mover) s = .next s) := by
  intro moved first fixed
  have hlines : 128 * ((src.toNat % 128 + len + 127) / 128) = ((src.toNat + len - 1) / 128 - src.toNat / 128 + 1) * 128 := by omega
  have hplaced : s.placed asid src len = true ↔ fixed := by
    unfold State.placed
    dsimp only
    rw [List.any_eq_true]
    refine exists_congr fun p => and_congr_right fun _ => ?_
    rw [Bool.and_eq_true, beq_iff_eq, rangesMeet, Bool.and_eq_true, decide_eq_true_eq, decide_eq_true_eq, hlines]
    exact Iff.rfl
  refine ⟨fun hmin hor => ?_, fun hor => ?_⟩
  · have hgo : (s.boot.minimal || !mover.other && s.placed asid src len) = false := by
      rw [hmin, Bool.false_or]
      rcases hor with h | h
      · rw [h]; rfl
      · rw [Bool.eq_false_iff.2 fun hp => h (hplaced.1 hp), Bool.and_false]
    refine ⟨⟨3, 0, lineVa dst, lineVa src, 128 * ((src.toNat % 128 + len + 127) / 128), 1, 0, 0, 0, 0⟩, ?_, rfl, rfl, rfl,
      toNat_lineVa src, toNat_lineVa dst, hlines⟩
    show execTierManagerMove asid src dst len mover s = _
    unfold execTierManagerMove
    dsimp only
    rw [hgo, if_neg Bool.false_ne_true]
    have hid : ((if mover.other then (2 : BitVec 4) else 1) ++ mover.id : BitVec 32)
        = BitVec.ofNat 32 ((if mover.other then 2 else 1) * 2 ^ 28 + mover.id.toNat) := by
      have hlt := mover.id.isLt
      refine BitVec.eq_of_toNat_eq ?_
      rw [BitVec.toNat_append, BitVec.toNat_ofNat, ← Nat.shiftLeft_add_eq_or_of_lt hlt, Nat.shiftLeft_eq]
      cases mover.other
      · simp only [Bool.false_eq_true, if_false]
        rw [Nat.mod_eq_of_lt (by omega)]
        rfl
      · simp only [if_true]
        rw [Nat.mod_eq_of_lt (by omega)]
        rfl
    rw [hid]
  · have hstop : (s.boot.minimal || !mover.other && s.placed asid src len) = true := by
      rcases hor with h | ⟨ho, hf⟩
      · rw [h, Bool.true_or]
      · rw [ho, hplaced.2 hf]
        exact Bool.or_true _
    show execTierManagerMove asid src dst len mover s = _
    unfold execTierManagerMove
    dsimp only
    rw [hstop, if_pos rfl]

end Sys2Proof.Machine

open Sys2Proof Sys2Proof.Machine

/-- Settles O50: a copy of whole lines by induction on the lines left, each of which still answers once the one before it has
been written; a move through the two steps of a line. -/
theorem copyEvents : Obligations.CopyEvents := by
  unfold Obligations.CopyEvents
  refine ⟨fun s c h d hc hmv hleft hsrc hdst => exec_moveLineMark hc hmv hleft hsrc hdst, ?_, ?_, ?_⟩
  · intro s c m d hm hc hmv hdst hne hq
    have hmem := s.lineMoved_mem c c.lineOn m.src (lineOf d) (c.moveRecord m)
    have hlines := s.lineMoved_lines c c.lineOn m.src (lineOf d) (c.moveRecord m)
    have hdata (l : Nat) : (s.lineMoved c c.lineOn m.src (lineOf d) (c.moveRecord m)).lineData l
        = ((s.setLineData (lineOf d) (s.lineData m.src)).setLineData m.src (c.moveRecord m)).lineData l := by
      rw [State.lineData, hmem]
      rfl
    refine ⟨_, exec_moveLineCommit hc hmv hdst hq, ?_, ?_, fun a had has => ?_, ?_, fun l hl => ?_,
      s.lineMoved_copies c c.lineOn m.src (lineOf d) (c.moveRecord m)⟩
    · rw [hdata, State.lineData_setLineData_other _ hne, State.lineData_setLineData hm.1]
    · rw [hdata]
      exact State.lineData_setLineData (Memory.wf_write hm.1 _ _ _) _ _
    · rw [hmem, get_setLineData_other _ has, get_setLineData_other _ had]
    · rw [State.lineState, hlines, Cells.find_put_same hm.2]
    · rw [State.lineState, hlines, Cells.find_put_other _ hl]
      rfl
  · intro s c sid t ht ho htok ended
    refine ⟨fun hc hmv hleft => ⟨_, exec_copyCompletion_move hc hmv hleft, ?_, rfl, rfl⟩, fun n h d hm hc hrows hflat hleft hl ha => ?_⟩
    · exact endCopy_ended ht ho htok (.refl s _)
    · obtain ⟨w, hrun, hw⟩ := State.copyBlocks_lines n h d s c c.rem.blocks (CopyOp.blocks_enough hleft) hm
        ⟨hc.2.2, hleft, fun _ => hrows, hflat⟩ ⟨hl, ha⟩
      refine ⟨w.endCopy c 0, exec_copyCompletion_done hc hrun, endCopy_ended ht ho htok hw.writes, hw.data, hw.others, hw.writes.same⟩
  · intro s asid src dst len mover hlen
    exact tierManagerMoves s asid src dst len mover hlen

end

section
/-!
SUPPORT. Cards submitted by the host, writes of registers, and the class of a queue.
-/

namespace Sys2Proof.Machine

/-! ## Cards from the host -/

theorem State.readBytes_nil (s : State) (c : Ctx) (va : Word) : s.readBytes c va 0 = .ok [] s := by
  unfold State.readBytes
  rfl

/-- A card without a footprint and without bindings. -/
theorem State.acceptCard_bare {s : State} {c : Ctx} {queue : Nat} {bits : BitVec 1024} (ho : s.queueOpen c.asid queue = true)
    (hf : s.cardFieldsOk c.asid bits = true) (hn : cardNfoot bits = 0) (hb : cardNbind bits = 0) :
    s.acceptCard c queue bits none = if s.schedulerFull queue then .ok 1 s else .ok 0 (s.enqueue c.asid queue bits [] [] none) := by
  have hlists : s.cardLists c bits = .ok (some ([], [])) s := by
    rw [State.cardLists, hn, hb, State.readBytes_nil, Res.bind, State.readBytes_nil, Res.bind]
    rfl
  rw [State.acceptCard, ho, hf, hlists]
  rfl

theorem State.enqueue_bare (s : State) (asid : BitVec 16) (queue : Nat) (bits : BitVec 1024) :
    s.enqueue asid queue bits [] [] none = { s with
      cards := s.cards ++ [⟨s.nextCard, asid, queue, bits, [], [], [], 0, 0, [], [], s.tick⟩]
      nextCard := s.nextCard + 1
      queues := (s.enqueue asid queue bits [] [] none).queues } := by
  have hafter : (s.cards.filter fun y => y.asid == asid && (none : Option Nat) != some y.cid && footprintsMeet [] y.foot) = [] := by
    rw [List.filter_eq_nil_iff]
    intro y _
    rw [Bool.and_eq_true]
    exact fun h => Bool.noConfusion h.2
  unfold State.enqueue
  dsimp only
  rw [hafter]
  rfl

theorem exec_submitCard {s : State} {asid : BitVec 16} {p : Page} {off : Nat} {data : List Byte} {bits : BitVec 1024}
    (hbits : BitVec.ofNat 1024 (leNat data) = bits) (hp : s.page asid = some p)
    (hal : off % 128 = 0) (hoff : off < 0x8000) (hlen : data.length = 128) :
    exec (.submitCard asid off data) s = .next (s.outside (s.partOf asid).toNat
      (s.acceptCard (s.outsideCtx asid) (cardQueue bits) bits none)
      (fun w => { w with completion := .unsupported }) fun code s1 => match code with
        | 0 => { s1 with completion := .success }.refreshOffers
        | 1 => { s1 with completion := .retry }
        | _ => { s1 with completion := .unsupported }) := by
  have hgood : ¬ ((s.page asid).isNone ∨ off % 128 ≠ 0 ∨ off ≥ 0x8000 ∨ data.length ≠ 128) := by
    rw [hp]
    simp [hal, hlen]
    omega
  show execSubmitCard asid off data s = _
  unfold execSubmitCard
  dsimp only
  rw [hbits, if_neg hgood] <;> rfl

theorem exec_submitCard_ill {s : State} {asid : BitVec 16} {off : Nat} {data : List Byte}
    (h : ¬ (off % 128 = 0 ∧ off < 0x8000 ∧ data.length = 128)) :
    exec (.submitCard asid off data) s = .next { s with completion := .unsupported } := by
  show execSubmitCard asid off data s = _
  unfold execSubmitCard
  dsimp only
  rw [if_pos]
  by_contra hnot
  simp only [not_or, Decidable.not_not] at hnot
  exact h ⟨hnot.2.1, by omega, hnot.2.2.2⟩

/-- A card whose queue is not open or whose fields do not pass gets no place. -/
theorem State.acceptCard_refused {s : State} {c : Ctx} {queue : Nat} {bits : BitVec 1024}
    (h : s.queueOpen c.asid queue = false ∨ s.cardFieldsOk c.asid bits = false) :
    s.acceptCard c queue bits none = .ok 2 s ∨ s.acceptCard c queue bits none = .ok 4 s := by
  unfold State.acceptCard
  cases hq : s.queueOpen c.asid queue with
  | false => exact Or.inl rfl
  | true =>
    rw [h.resolve_left (by rw [hq]; decide)]
    exact Or.inr rfl

theorem submission : Submission := by
  intro s asid p off data hp
  dsimp only
  generalize hbits : BitVec.ofNat 1024 (leNat data) = bits
  refine ⟨exec_submitCard_ill, fun ⟨hal, hoff, hlen⟩ hno => ?_, fun ⟨hal, hoff, hlen⟩ ho hf hn hb => ⟨fun hfull => ?_, fun hfull => ?_⟩, rfl⟩
  · rw [exec_submitCard hbits hp hal hoff hlen]
    rcases State.acceptCard_refused (c := s.outsideCtx asid) (queue := cardQueue bits) hno with h | h
    · rw [h]
      rfl
    · rw [h]
      rfl
  · rw [exec_submitCard hbits hp hal hoff hlen, State.acceptCard_bare (c := s.outsideCtx asid) ho hf hn hb, if_pos hfull]
    rfl
  · let w : State := { (s.enqueue asid (cardQueue bits) bits [] [] none).outsideDone (s.partOf asid).toNat with completion := .success }
    have hw : w = { s with
        cards := s.cards ++ [⟨s.nextCard, asid, cardQueue bits, bits, [], [], [], 0, 0, [], [], s.tick⟩]
        nextCard := s.nextCard + 1
        queues := w.queues, svcs := w.svcs, outHeld := w.outHeld, completion := .success } := by
      simp only [w]
      rw [State.enqueue_bare]
      rfl
    refine ⟨w.refreshOffers, (exec_submitCard hbits hp hal hoff hlen).trans ?_, ?_⟩
    · rw [State.acceptCard_bare (c := s.outsideCtx asid) ho hf hn hb, if_neg (by rw [hfull]; decide)]
      rfl
    · rw [State.refreshOffers_frame, hw]
      exact ⟨rfl, rfl, rfl, rfl, rfl⟩

/-! ## Registers -/

theorem updWhere_id {α : Type} (l : List α) (p : α → Bool) : updWhere l p (fun x => x) = l := by
  unfold updWhere
  simp

theorem State.setPage_id (s : State) (asid : BitVec 16) : s.setPage asid (fun p => p) = s := by
  rw [State.setPage, updWhere_id]

/-- The offsets of a submission page at which the host reads a register. -/
theorem Page.read_unlisted (p : Page) {off : Nat} (h : off ∉ [0x8000, 0x8008, 0x8010, 0x8020, 0x8028, 0x8030]) (h1 : off ≠ 0x8018)
    (h2 : off ≠ 0x8038) (h3 : off ≠ 0x8048) : p.read off = 0 := by
  unfold Page.read
  split <;> simp_all

theorem Page.write_unlisted (p : Page) {off : Nat} (h : off ∉ [0x8000, 0x8008, 0x8010, 0x8020, 0x8028, 0x8030]) (hoff : 0x8000 ≤ off) (w : Word) :
    p.write off w = p := by
  unfold Page.write
  rw [if_neg (Nat.not_lt.2 hoff)]
  split <;> simp_all

theorem Page.scrConfig_eq (size : Bool) (w : Word) : (fun p : Page => p.scrConfig size w) = fun p => if size then
    { p with scrSize := w, scrHead := 0, scrTail := 0 } else { p with scrBase := w, scrHead := 0, scrTail := 0 } := by
  funext p
  cases size <;> rfl

theorem Page.frConfig_eq (size : Bool) (w : Word) : (fun p : Page => p.frConfig size w) = fun p => if size then
    { p with frSize := w, frHead := 0, frTail := 0 } else { p with frBase := w, frHead := 0, frTail := 0 } := by
  funext p
  cases size <;> rfl

/-- The registers that only the supervisor writes stay in minimal mode. -/
theorem exec_registerWrite_minimal {s : State} {r : RegName} (hm : s.boot.minimal = true) (hr : supervisorWrites r = true) (x : BitVec 128) :
    exec (.registerWrite r x) s = .next s := by
  show execRegisterWrite r x s = _
  unfold execRegisterWrite
  rw [hm, hr]
  rfl

theorem exec_registerWrite_fixed (s : State) {r : RegName} (x : BitVec 128) {asid : BitVec 16}
    (hr : r ∈ [RegName.frTail asid, .scrTail asid, .drops asid, .bootStatus]) : exec (.registerWrite r x) s = .next s := by
  have hs : supervisorWrites r = false := by
    fin_cases hr <;> rfl
  show execRegisterWrite r x s = _
  unfold execRegisterWrite
  rw [hs, Bool.and_false, if_neg Bool.false_ne_true]
  fin_cases hr <;> rfl

theorem exec_pageOffset (s : State) (asid : BitVec 16) {off : Nat} (h : off ≠ 0x8040) (x : BitVec 128) :
    exec (.registerWrite (.pageOffset asid off) x) s = .next (s.setPage asid fun p => p.write off (x.setWidth 64)) := by
  show execRegisterWrite (.pageOffset asid off) x s = _
  unfold execRegisterWrite
  rw [show supervisorWrites (.pageOffset asid off) = false from rfl, Bool.and_false, if_neg Bool.false_ne_true]
  dsimp only
  rw [if_neg h]

theorem exec_portMode (s : State) (port : Fin 16) : exec (.registerWrite (.portMode port.val) 1) s = .next
    (if s.boot.minimal = false ∧ s.ports[port] = .none then { s with ports := s.ports.set port .cxl } else s) := by
  have hport : s.ports.toList[port.val]? = some s.ports[port] := List.getElem?_eq_getElem _
  show execRegisterWrite (.portMode port.val) 1 s = _
  unfold execRegisterWrite
  rw [show supervisorWrites (.portMode port.val) = true from rfl, Bool.and_true]
  cases hm : s.boot.minimal with
  | true => rfl
  | false =>
    rw [if_neg Bool.false_ne_true]
    show Host.Outcome.next (s.setPortMode port.val 1) = _
    unfold State.setPortMode
    by_cases hp : s.ports[port] = .none
    · have hgo : (s.boot.minimal || s.ports.toList[port.val]? != some .none) = false := by rw [hm, hport, hp]; rfl
      rw [hgo, if_neg Bool.false_ne_true, if_pos (show false = false ∧ s.ports[port] = .none from ⟨rfl, hp⟩)]
      refine congrArg (fun v => Host.Outcome.next { s with ports := v }) (Vector.ext fun j hj => ?_)
      rw [Vector.getElem_mapIdx, Vector.getElem_set]
      exact if_congr eq_comm rfl rfl
    · have hgo : (s.boot.minimal || s.ports.toList[port.val]? != some .none) = true := by rw [hm, hport]; simpa using hp
      rw [hgo, if_pos rfl, if_neg fun h => hp h.2]

theorem fieldNat_low (x : BitVec 128) : fieldNat x 0 64 = x.toNat % 2 ^ 64 := by
  rw [fieldNat_eq, Nat.pow_zero, Nat.div_one]

theorem fieldNat_high (x : BitVec 128) : fieldNat x 64 64 = x.toNat / 2 ^ 64 := by
  rw [fieldNat_eq, Nat.mod_eq_of_lt]
  have := x.isLt
  omega

/-- The registers of the supervisor where it may write them. -/
theorem exec_registerWrite_supervisor {s : State} (hm : s.boot.minimal = false) (x : BitVec 128) (asid : BitVec 16) (n : Nat) :
    (∀ p : BitVec 6, exec (.registerWrite (.route p) x) s
      = .next { s with routes := s.routes.set p.toNat (x.setWidth 4) p.isLt })
    ∧ exec (.registerWrite (.fixed asid) x) s
      = .next { s with placement := s.placement ++ [⟨asid, x.setWidth 64, x.toNat / 2 ^ 64⟩] }
    ∧ exec (.registerWrite .watchdog x) s = .next { s with watchdog := x.toNat % 2 ^ 64 }
    ∧ ∀ d, s.hdm.find? (fun y => y.1 == n) = some (n, d) → ∃ s', exec (.registerWrite (.hdm n 0) x) s = .next s'
      ∧ s' = { s with hdm := s'.hdm } ∧ s'.hdm.find? (fun y => y.1 == n) = some (n, { d with base := x.toNat % 2 ^ 64 }) := by
  refine ⟨fun p => ?_, ?_, ?_, fun d hd => ⟨s.setHdm n 0 (fieldNat x 0 64), ?_, rfl, ?_⟩⟩
  · show execRegisterWrite (.route p) x s = _
    unfold execRegisterWrite
    rw [hm, Bool.false_and, if_neg Bool.false_ne_true]
    dsimp only
    rw [show x.extractLsb' 0 4 = x.setWidth 4 from BitVec.eq_of_toNat_eq (by simp [BitVec.extractLsb'_toNat])]
  · show execRegisterWrite (.fixed asid) x s = _
    unfold execRegisterWrite
    rw [hm, Bool.false_and, if_neg Bool.false_ne_true]
    dsimp only
    rw [fieldNat_high]
  · show execRegisterWrite .watchdog x s = _
    unfold execRegisterWrite
    rw [hm, Bool.false_and, if_neg Bool.false_ne_true]
    dsimp only
    rw [fieldNat_low]
  · show execRegisterWrite (.hdm n 0) x s = _
    unfold execRegisterWrite
    rw [hm, Bool.false_and, if_neg Bool.false_ne_true]
  · unfold State.setHdm
    rw [hd, fieldNat_low]
    simp

theorem registerWrites : RegisterWrites := by
  intro s asid size w x vf n part
  dsimp only
  refine ⟨?_, ?_, rfl, rfl, ?_, fun r hr => exec_registerWrite_fixed s x hr, ?_, ?_, fun off hoff => ?_, fun off hoff h40 hno => ?_, ?_,
    fun p hp => ?_, fun off hno h1 h2 h3 => ?_, exec_portMode s, fun hm => exec_registerWrite_supervisor hm x asid n,
    fun hm p k r hr => exec_registerWrite_minimal hm ?_ x⟩
  · exact congrArg (fun f => Host.Outcome.next (s.setPage asid f)) (Page.scrConfig_eq size w)
  · exact congrArg (fun f => Host.Outcome.next (s.setPage asid f)) (Page.frConfig_eq size w)
  · show execSlotPartWrite n part s = _
    unfold execSlotPartWrite
    refine congrArg Host.Outcome.next (if_congr ?_ rfl rfl)
    simp [and_assoc]
  · show execRegisterWrite (.scrHead asid) x s = _
    unfold execRegisterWrite
    rw [show supervisorWrites (.scrHead asid) = false from rfl, Bool.and_false, if_neg Bool.false_ne_true]
    rfl
  · show execRegisterWrite (.vfReset vf) x s = _
    unfold execRegisterWrite
    rw [show supervisorWrites (.vfReset vf) = false from rfl, Bool.and_false, if_neg Bool.false_ne_true]
  · rw [exec_pageOffset s asid (by omega) x]
    refine congrArg (fun f => Host.Outcome.next (s.setPage asid f)) (funext fun p => ?_)
    unfold Page.write
    rw [if_pos hoff]
    rfl
  · rw [exec_pageOffset s asid h40 x]
    refine congrArg Host.Outcome.next (.trans ?_ (s.setPage_id asid))
    exact congrArg (s.setPage asid) (funext fun p => p.write_unlisted hno hoff _)
  · rw [exec_pageOffset s asid (by decide) x]
    refine congrArg (fun f => Host.Outcome.next (s.setPage asid f)) (funext fun p => ?_)
    unfold Page.write
    rw [if_neg (by decide)]
    show { p with frHead := (x.setWidth 64).setWidth 32 } = { p with frHead := x.setWidth 32 }
    simp
  · rw [State.pageRead, State.pageRead, State.pageRead, State.pageRead, hp]
    exact ⟨rfl, rfl, rfl, rfl⟩
  · rw [State.pageRead]
    cases s.page asid with
    | none => rfl
    | some p => exact p.read_unlisted hno h1 h2 h3
  · fin_cases hr <;> rfl

/-! ## Classes -/

/-- A queue changed only in the rounds it is served in. -/
def Queue.Served (f : Queue → Queue) : Prop :=
  ∀ q, f q = { q with round := (f q).round, used := (f q).used, serves := (f q).serves }

/-- `w` has the queues of `s`, changed only in the rounds they are served in. -/
def State.QueuesServed (s w : State) : Prop :=
  ∃ f, Queue.Served f ∧ w.queues = s.queues.map f

theorem State.QueuesServed.trans {s w u : State} (h : s.QueuesServed w) (k : w.QueuesServed u) : s.QueuesServed u := by
  obtain ⟨f, hf, hw⟩ := h
  obtain ⟨g, hg, hu⟩ := k
  refine ⟨g ∘ f, fun q => ?_, by rw [hu, hw, List.map_map]⟩
  rw [Function.comp, hg, hf]

theorem State.QueuesServed.refl (s : State) : s.QueuesServed s := ⟨id, fun _ => rfl, by rw [List.map_id]⟩

theorem State.queuesServed_updWhere {s w : State} {p : Queue → Bool} {f : Queue → Queue} (hf : Queue.Served f)
    (hw : w.queues = updWhere s.queues p f) : s.QueuesServed w := by
  refine ⟨fun q => if p q then f q else q, fun q => ?_, hw⟩
  dsimp only
  split
  · exact hf q
  · rfl

theorem State.offerQueue_served (s : State) (q : Queue) : s.QueuesServed (s.offerQueue q) := by
  have hidle : Queue.Served fun x : Queue => { x with serves := none } := fun _ => rfl
  have hjoin (c : Card) : Queue.Served fun x : Queue =>
      if x.serves = some (classIx (x.cls c)) then x
      else x.joined (classIx (x.cls c)) (s.leastRound x (classIx (x.cls c))) (s.newRound x (classIx (x.cls c))) := fun x => by
    dsimp only
    split <;> rfl
  unfold State.offerQueue
  dsimp only
  split
  · split
    · exact State.queuesServed_updWhere hidle rfl
    · split
      · exact .refl _
      · split
        · exact State.queuesServed_updWhere (hjoin _) rfl
        · split
          · exact .refl _
          · exact State.queuesServed_updWhere (hjoin _) rfl
  · exact State.queuesServed_updWhere hidle rfl

theorem State.refreshOffers_served (s : State) : s.QueuesServed s.refreshOffers := by
  have h : s.QueuesServed (s.queues.foldl State.offerQueue s) :=
    List.foldlRecOn (motive := s.QueuesServed) s.queues State.offerQueue (.refl s) fun w h q _ => h.trans (w.offerQueue_served q)
  obtain ⟨f, hf, hw⟩ := h
  exact ⟨f, hf, hw⟩

/-- A queue found by its number after queues have changed only in the rounds they are served in. -/
theorem State.QueuesServed.find {s w : State} (h : s.QueuesServed w) {n : Nat} {q : Queue}
    (hq : s.queues.find? (fun x => x.num == n) = some q) :
    ∃ q', w.queues.find? (fun x => x.num == n) = some q' ∧ q' = { q with round := q'.round, used := q'.used, serves := q'.serves } := by
  obtain ⟨f, hf, hw⟩ := h
  refine ⟨f q, ?_, hf q⟩
  rw [hw, List.find?_map]
  have hcomp : (fun x : Queue => x.num == n) ∘ f = fun x => x.num == n := by
    funext x
    rw [Function.comp, hf]
  rw [hcomp, hq]
  rfl

theorem classPromotion : ClassPromotion := by
  intro s q c g hq ht promoted
  have hcond : (s.taskReady c && q.cls c != 0 && (s.tick - q.since) / (10 * beatsPerMs) > q.promos) = true ↔ promoted := by
    simp only [Bool.and_eq_true, bne_iff_ne, decide_eq_true_eq, promoted, Queue.cls, and_assoc]
    exact and_congr_right fun _ => and_congr (by omega) Iff.rfl
  have hexec : exec (.classPromotion q.num) s = .next (if s.taskReady c && q.cls c != 0 && (s.tick - q.since) / (10 * beatsPerMs) > q.promos then
        { s with queues := updWhere s.queues (fun x => x.num == q.num) fun x => { x with promos := x.promos + 1 } }.refreshOffers
      else s) := by
    show execClassPromotion q.num s = _
    unfold execClassPromotion
    rw [hq, ht]
  rw [hexec]
  refine ⟨fun hp => ?_, fun hp => by rw [if_neg fun h => hp (hcond.1 h)]⟩
  rw [if_pos (hcond.2 hp)]
  let w : State := { s with queues := updWhere s.queues (fun x => x.num == q.num) fun x => { x with promos := x.promos + 1 } }
  have hfind : w.queues.find? (fun x => x.num == q.num) = some { q with promos := q.promos + 1 } := by
    refine (find_updWhere s.queues _ _ (fun x => { x with promos := x.promos + 1 }) fun _ => rfl).trans ?_
    rw [hq]
    simp
  obtain ⟨q', hq', hsame⟩ := w.refreshOffers_served.find hfind
  exact ⟨w.refreshOffers, q', rfl, hq', hsame, State.refreshOffers_cards _, State.refreshOffers_mem _, State.refreshOffers_strands _⟩

end Sys2Proof.Machine

open Sys2Proof Sys2Proof.Machine

/-- Settles O53: cards through the order in which the scheduler judges them, registers one by one, a promotion through what
the refreshed offers leave of the queues. -/
theorem submissionAndQueues : Obligations.SubmissionAndQueues := by
  unfold Obligations.SubmissionAndQueues
  exact ⟨submission, registerWrites, classPromotion⟩

end

section
/-!
SUPPORT. Slots labelled with their strands, and the records that the bind port takes.
-/

namespace Sys2Proof.Machine

/-! ## The fields of a slot entry -/

section
variable (task : BitVec 16) (tid lcore lclus : BitVec 5) (state : BitVec 3) (old : Word)

/-- A field above the low `w` bits of a word put together from two. -/
theorem extract_above {v w start len : Nat} (hi : BitVec v) (lo : BitVec w) :
    (hi ++ lo).extractLsb' (start + w) len = hi.extractLsb' start len := by
  rw [BitVec.extractLsb'_append_eq_of_le (Nat.le_add_left w start), Nat.add_sub_cancel]

theorem slotEntry_task : (slotEntry task tid lcore lclus state old).extractLsb' 48 16 = task :=
  calc _ = (task ++ tid ++ lcore ++ lclus ++ state ++ slotPart old).extractLsb' 20 16 := extract_above _ 0#28
    _ = (task ++ tid ++ lcore ++ lclus ++ state).extractLsb' 18 16 := extract_above _ (slotPart old)
    _ = (task ++ tid ++ lcore ++ lclus).extractLsb' 15 16 := extract_above _ state
    _ = (task ++ tid ++ lcore).extractLsb' 10 16 := extract_above _ lclus
    _ = (task ++ tid).extractLsb' 5 16 := extract_above _ lcore
    _ = task := BitVec.extractLsb'_append_eq_left

theorem slotEntry_tid : fieldNat (slotEntry task tid lcore lclus state old) 43 5 = tid.toNat :=
  congrArg BitVec.toNat <|
  calc _ = (task ++ tid ++ lcore ++ lclus ++ state ++ slotPart old).extractLsb' 15 5 := extract_above _ 0#28
    _ = (task ++ tid ++ lcore ++ lclus ++ state).extractLsb' 13 5 := extract_above _ (slotPart old)
    _ = (task ++ tid ++ lcore ++ lclus).extractLsb' 10 5 := extract_above _ state
    _ = (task ++ tid ++ lcore).extractLsb' 5 5 := extract_above _ lclus
    _ = (task ++ tid).extractLsb' 0 5 := extract_above _ lcore
    _ = tid := BitVec.extractLsb'_append_eq_right

theorem slotEntry_lcore : fieldNat (slotEntry task tid lcore lclus state old) 38 5 = lcore.toNat :=
  congrArg BitVec.toNat <|
  calc _ = (task ++ tid ++ lcore ++ lclus ++ state ++ slotPart old).extractLsb' 10 5 := extract_above _ 0#28
    _ = (task ++ tid ++ lcore ++ lclus ++ state).extractLsb' 8 5 := extract_above _ (slotPart old)
    _ = (task ++ tid ++ lcore ++ lclus).extractLsb' 5 5 := extract_above _ state
    _ = (task ++ tid ++ lcore).extractLsb' 0 5 := extract_above _ lclus
    _ = lcore := BitVec.extractLsb'_append_eq_right

theorem slotEntry_lclus : fieldNat (slotEntry task tid lcore lclus state old) 33 5 = lclus.toNat :=
  congrArg BitVec.toNat <|
  calc _ = (task ++ tid ++ lcore ++ lclus ++ state ++ slotPart old).extractLsb' 5 5 := extract_above _ 0#28
    _ = (task ++ tid ++ lcore ++ lclus ++ state).extractLsb' 3 5 := extract_above _ (slotPart old)
    _ = (task ++ tid ++ lcore ++ lclus).extractLsb' 0 5 := extract_above _ state
    _ = lclus := BitVec.extractLsb'_append_eq_right

theorem slotEntry_state : slotState (slotEntry task tid lcore lclus state old) = state.toNat :=
  congrArg BitVec.toNat <|
  calc _ = (task ++ tid ++ lcore ++ lclus ++ state ++ slotPart old).extractLsb' 2 3 := extract_above _ 0#28
    _ = (task ++ tid ++ lcore ++ lclus ++ state).extractLsb' 0 3 := extract_above _ (slotPart old)
    _ = state := BitVec.extractLsb'_append_eq_right

theorem slotEntry_part : slotPart (slotEntry task tid lcore lclus state old) = slotPart old :=
  calc _ = (task ++ tid ++ lcore ++ lclus ++ state ++ slotPart old).extractLsb' 0 2 := extract_above _ 0#28
    _ = slotPart old := BitVec.extractLsb'_append_eq_right

theorem slotEntry_ne_zero (h : task ≠ 0 ∨ state ≠ 0) : slotEntry task tid lcore lclus state old ≠ 0 := by
  intro hz
  rcases h with h | h
  · have := slotEntry_task task tid lcore lclus state old
    rw [hz] at this
    exact h (this.symm.trans (by decide))
  · have := slotEntry_state task tid lcore lclus state old
    rw [hz] at this
    exact h (BitVec.eq_of_toNat_eq (this.symm.trans (by decide)))

end

theorem slotEntry_congr {task : BitVec 16} {tid lcore lclus : BitVec 5} {state : BitVec 3} {x y : Word} (h : slotPart x = slotPart y) :
    slotEntry task tid lcore lclus state x = slotEntry task tid lcore lclus state y := by
  rw [slotEntry, slotEntry, h]

/-! ## Slots labelled -/

/-- The slots of strand `t` under a bind record. -/
def strandSlots (r : BitVec 512) (t : Nat) : List Nat :=
  (quartersOf (bindQmask r)).map fun k => 96 * bindPclus r + 4 * bindCore r t + k

/-- The entry of a slot of strand `t` in a STATE; its owner stays. -/
def strandEntry (r : BitVec 512) (t : Nat) (code : BitVec 3) (old : Word) : Word :=
  slotEntry (bindTask r) (BitVec.ofNat 5 t) (BitVec.ofNat 5 (bindCoreOf r t)) (BitVec.ofNat 5 (bindClus r)) code old

/-- The slots of one strand labelled. -/
def State.labelStrand (s : State) (r : BitVec 512) (t : Nat) (code : BitVec 3) (ids : List Nat) : State :=
  ids.foldl (fun b k => b.setSlot k (strandEntry r t code (b.slot k))) s

theorem State.labelSlots_succ (s : State) (r : BitVec 512) (n : Nat) (code : Nat → BitVec 3) :
    s.labelSlots r (n + 1) code = (s.labelSlots r n code).labelStrand r n (code n) (strandSlots r n) := by
  unfold State.labelSlots
  rw [List.range_succ, List.foldl_append]
  rfl

theorem State.labelStrand_frame (s : State) (r : BitVec 512) (t : Nat) (code : BitVec 3) (ids : List Nat) :
    s.labelStrand r t code ids = { s with slots := (s.labelStrand r t code ids).slots } := by
  induction ids generalizing s with
  | nil => rfl
  | cons k ids ih =>
    show (s.setSlot k _).labelStrand r t code ids = { s with slots := ((s.setSlot k _).labelStrand r t code ids).slots }
    rw [ih]
    rfl

theorem State.labelSlots_frame (s : State) (r : BitVec 512) (n : Nat) (code : Nat → BitVec 3) :
    s.labelSlots r n code = { s with slots := (s.labelSlots r n code).slots } := by
  induction n with
  | zero => rfl
  | succ n ih =>
    rw [State.labelSlots_succ, State.labelStrand_frame, ih]

theorem State.slot_labelStrand (s : State) {r : BitVec 512} {t : Nat} {code : BitVec 3} (h : bindTask r ≠ 0 ∨ code ≠ 0) (ids : List Nat) (k : Nat) :
    (s.labelStrand r t code ids).slot k = if k ∈ ids then strandEntry r t code (s.slot k) else s.slot k := by
  induction ids generalizing s with
  | nil => rfl
  | cons j ids ih =>
    have hne (old : Word) : strandEntry r t code old ≠ 0 := slotEntry_ne_zero _ _ _ _ _ _ h
    show ((s.setSlot j (strandEntry r t code (s.slot j))).labelStrand r t code ids).slot k = _
    rw [ih]
    by_cases hj : k = j
    · subst hj
      rw [State.slot_setSlot_same (hne _), if_pos List.mem_cons_self]
      split
      · exact slotEntry_congr (slotEntry_part _ _ _ _ _ _)
      · rfl
    · rw [State.slot_setSlot_other _ _ hj]
      simp [hj]

/-- The owner of a slot stays as slots are labelled. -/
theorem State.slotPart_labelSlots (s : State) {r : BitVec 512} {code : Nat → BitVec 3} (h : ∀ t, bindTask r ≠ 0 ∨ code t ≠ 0) (n k : Nat) :
    slotPart ((s.labelSlots r n code).slot k) = slotPart (s.slot k) := by
  induction n with
  | zero => rfl
  | succ n ih =>
    rw [State.labelSlots_succ, State.slot_labelStrand _ (h n)]
    split
    · rw [strandEntry, slotEntry_part, ih]
    · exact ih

/-- Where the strands of a gang have quarters of their own, each slot names its strand. -/
theorem State.slot_labelSlots (s : State) {r : BitVec 512} {code : Nat → BitVec 3} (h : ∀ t, bindTask r ≠ 0 ∨ code t ≠ 0) {n t k : Nat}
    (ht : t < n) (hk : k ∈ strandSlots r t) (happ : ∀ i < n, ∀ j < n, i ≠ j → ∀ x ∈ strandSlots r i, x ∉ strandSlots r j) :
    (s.labelSlots r n code).slot k = strandEntry r t (code t) (s.slot k) := by
  induction n with
  | zero => exact absurd ht (Nat.not_lt_zero t)
  | succ n ih =>
    rw [State.labelSlots_succ, State.slot_labelStrand _ (h n)]
    by_cases hn : t = n
    · subst hn
      rw [if_pos hk]
      exact slotEntry_congr (s.slotPart_labelSlots h t k)
    · rw [if_neg (happ t ht n (Nat.lt_succ_self n) hn k hk)]
      exact ih (by omega) fun i hi j hj => happ i (by omega) j (by omega)

/-- Where every strand of a gang is given one STATE, every slot of it reads it. -/
theorem State.slotState_labelSlots (s : State) {r : BitVec 512} {code : BitVec 3} (h : code ≠ 0) {n t k : Nat}
    (ht : t < n) (hk : k ∈ strandSlots r t) : slotState ((s.labelSlots r n fun _ => code).slot k) = code.toNat := by
  induction n with
  | zero => exact absurd ht (Nat.not_lt_zero t)
  | succ n ih =>
    rw [State.labelSlots_succ, State.slot_labelStrand _ (Or.inr h)]
    split
    · exact slotEntry_state _ _ _ _ _ _
    · rename_i hno
      refine ih ?_
      have : t ≠ n := fun hn => hno (hn ▸ hk)
      omega

/-! ## What the port takes -/

theorem length_eraseDups_le {α : Type} [BEq α] [LawfulBEq α] (l : List α) : l.eraseDups.length ≤ l.length := by
  induction hn : l.length using Nat.strong_induction_on generalizing l with
  | _ n ih =>
    cases l with
    | nil => simp
    | cons a l =>
      have hf : (l.filter fun b => !b == a).length ≤ l.length := List.length_filter_le _ _
      have := ih _ (by rw [← hn, List.length_cons]; omega) (l.filter fun b => !b == a) rfl
      rw [List.eraseDups_cons, List.length_cons]
      rw [List.length_cons] at hn
      omega

theorem length_eraseDups_eq_iff {α : Type} [BEq α] [LawfulBEq α] (l : List α) : l.length = l.eraseDups.length ↔ l.Nodup := by
  induction hn : l.length using Nat.strong_induction_on generalizing l with
  | _ n ih =>
    cases l with
    | nil => simp [← hn]
    | cons a l =>
      have hf : (l.filter fun b => !b == a).length ≤ l.length := List.length_filter_le _ _
      have hd := length_eraseDups_le (l.filter fun b => !b == a)
      rw [List.eraseDups_cons, List.length_cons, List.nodup_cons, ← hn, List.length_cons]
      have hfilter : (l.filter fun b => !b == a) = l ↔ a ∉ l := by
        rw [List.filter_eq_self]
        exact ⟨fun h ha => by simpa using h a ha, fun h b hb => by simpa using fun he : b = a => h (he ▸ hb)⟩
      constructor
      · intro h
        have hl : (l.filter fun b => !b == a) = l := List.length_filter_eq_length_iff.1 (by omega) |> List.filter_eq_self.2
        rw [hl] at h
        exact ⟨hfilter.1 hl, (ih l.length (by rw [← hn, List.length_cons]; omega) l rfl).1 (by omega)⟩
      · rintro ⟨ha, hnd⟩
        rw [hfilter.2 ha, ← (ih l.length (by rw [← hn, List.length_cons]; omega) l rfl).2 hnd]

theorem distinct_cores_iff (r : BitVec 512) (n : Nat) :
    ((List.range n).map (bindCore r)).Nodup ↔ ∀ i < n, ∀ j < i, bindCore r j ≠ bindCore r i := by
  rw [List.nodup_map_iff_inj_on List.nodup_range]
  constructor
  · intro h i hi j hj he
    have := h j (List.mem_range.2 (by omega)) i (List.mem_range.2 hi) he
    omega
  · intro h i hi j hj he
    rw [List.mem_range] at hi hj
    by_contra hne
    rcases Nat.lt_or_gt_of_ne hne with hlt | hgt
    · exact h j hj i hlt he
    · exact h i hi j hgt he.symm

theorem bindOk_iff (s : State) (r : BitVec 512) (c : Card) : s.bindOk r c = true ↔ Bindable s r c := by
  have hcores : ((List.range (cardGang c.bits)).map (bindCore r)).length == ((List.range (cardGang c.bits)).map (bindCore r)).eraseDups.length
      ↔ ∀ i < cardGang c.bits, ∀ j < i, bindCore r j ≠ bindCore r i := by
    rw [beq_iff_eq, length_eraseDups_eq_iff, distinct_cores_iff]
  have hsmall : ((List.range (cardGang c.bits)).map (bindCore r)).all (fun k => decide (k < 24)) = true
      ↔ ∀ i < cardGang c.bits, bindCore r i < 24 := by
    simp
  have hfree : (bindSlots r (cardGang c.bits)).all (fun k => (slotState (s.slot k) == 0 && !s.gangs.any fun g => (s.slotsOf g).contains k)
        && slotPart (s.slot k) == s.partOf c.asid) = true
      ↔ ∀ k ∈ bindSlots r (cardGang c.bits), slotState (s.slot k) = 0 ∧ slotPart (s.slot k) = s.partOf c.asid
        ∧ ∀ g ∈ s.gangs, k ∉ s.slotsOf g := by
    simp only [List.all_eq_true, Bool.and_eq_true, beq_iff_eq, Bool.not_eq_true', List.any_eq_false, List.contains_iff_mem]
    exact forall_congr' fun k => forall_congr' fun _ => by tauto
  have htarget : (!(bindSlots r (cardGang c.bits)).any fun k => s.vacates.any fun v => s.inTarget v k) = true
      ↔ ∀ k ∈ bindSlots r (cardGang c.bits), ∀ v ∈ s.vacates, s.inTarget v k = false := by
    simp
  unfold State.bindOk
  dsimp only
  rw [Bool.and_eq_true, Bool.and_eq_true, Bool.and_eq_true, Bool.and_eq_true, Bool.and_eq_true, Bool.and_eq_true, Bool.and_eq_true,
    Bool.and_eq_true, Bool.and_eq_true, Bool.and_eq_true, Bool.and_eq_true, hcores, hsmall, hfree, htarget]
  simp only [Bool.not_eq_true', beq_iff_eq, bne_iff_ne, decide_eq_true_eq]
  constructor
  · rintro ⟨⟨⟨⟨⟨⟨⟨⟨⟨⟨⟨hm, h0⟩, hk⟩, he⟩, ha⟩, hq⟩, hd⟩, hs⟩, hp⟩, hf⟩, hb⟩, ht⟩
    exact ⟨hm, ⟨h0, hk, he, ha⟩, hq, hp, fun i hi => ⟨hs i hi, hd i hi⟩, hf, hb, ht⟩
  · rintro ⟨hm, ⟨h0, hk, he, ha⟩, hq, hp, hc, hf, hb, ht⟩
    exact ⟨⟨⟨⟨⟨⟨⟨⟨⟨⟨⟨hm, h0⟩, hk⟩, he⟩, ha⟩, hq⟩, fun i hi => (hc i hi).2⟩, fun i hi => (hc i hi).1⟩, hp⟩, hf⟩, hb⟩, ht⟩

/-! ## BIND_RECORD -/

theorem exec_bindRecord_none {s : State} {r : BitVec 512} (h : s.boundTask r = none) : exec (.bindRecord r) s = .next s := by
  show execBindRecord r s = _
  unfold execBindRecord
  rw [h]

theorem exec_bindRecord_refused {s : State} {r : BitVec 512} {c : Card} {g : Nat} (h : s.boundTask r = some (c, g)) (hb : ¬ Bindable s r c) :
    exec (.bindRecord r) s = .next s := by
  show execBindRecord r s = _
  unfold execBindRecord
  rw [h]
  dsimp only
  rw [Bool.eq_false_iff.2 fun hok => hb ((bindOk_iff s r c).1 hok)]
  rfl

theorem exec_bindRecord_taken {s : State} {r : BitVec 512} {c : Card} {g : Nat} (h : s.boundTask r = some (c, g)) (hb : Bindable s r c) :
    exec (.bindRecord r) s = .next (if bindKind r = 0 then
        ({ s.labelSlots r (cardGang c.bits) (fun _ => 0) with gangs := s.gangs ++
          [⟨bindTask r, c.cid, g, c.asid, s.partOf c.asid, .bound, 0, r, [], 0, 0, 0, [], false, s.tick⟩] } : State).refreshOffers
      else (s.labelSlots r (cardGang c.bits) fun _ => 0).setGang (bindTask r) fun x => { x with state := .bound, kind := bindKind r, bind := r }) := by
  have hg : (s.labelSlots r (cardGang c.bits) fun _ => 0).gangs = s.gangs := by rw [State.labelSlots_frame]
  show execBindRecord r s = _
  unfold execBindRecord
  rw [h]
  dsimp only
  rw [(bindOk_iff s r c).2 hb, if_neg (by decide), hg]

theorem State.gang_append_new {s w : State} {g : Gang} (hw : w.gangs = s.gangs ++ [g]) (hn : s.gang g.handle = none) :
    w.gang g.handle = some g := by
  rw [State.gang] at hn ⊢
  rw [hw, List.find?_append, hn]
  simp

theorem strandSlots_apart {s : State} {r : BitVec 512} {c : Card} (hb : Bindable s r c) :
    ∀ i < cardGang c.bits, ∀ j < cardGang c.bits, i ≠ j → ∀ x ∈ strandSlots r i, x ∉ strandSlots r j := by
  intro i hi j hj hij x hx hx'
  obtain ⟨k, hk, rfl⟩ := List.mem_map.1 hx
  obtain ⟨l, hl, he⟩ := List.mem_map.1 hx'
  have hk4 : k < 4 := List.mem_range.1 (List.mem_filter.1 hk).1
  have hl4 : l < 4 := List.mem_range.1 (List.mem_filter.1 hl).1
  have hc : bindCore r i = bindCore r j := by omega
  rcases Nat.lt_or_gt_of_ne hij with h | h
  · exact (hb.cores j hj).2 i h hc
  · exact (hb.cores i hi).2 j h hc.symm

theorem mem_bindSlots {r : BitVec 512} {n t k : Nat} (ht : t < n) (hk : k ∈ strandSlots r t) : k ∈ bindSlots r n :=
  List.mem_flatMap.2 ⟨t, List.mem_range.2 ht, hk⟩

/-- The entry of a slot that a first dispatch's record has bound. -/
theorem slot_bound {s w : State} {r : BitVec 512} {c : Card} (hb : Bindable s r c) (hz : bindTask r ≠ 0) (hk0 : bindKind r = 0)
    (hw : ∀ n, w.slot n = (s.labelSlots r (cardGang c.bits) fun _ => 0).slot n) {t k : Nat} (ht : t < cardGang c.bits)
    (hk : k ∈ quartersOf (bindQmask r)) :
    let e := w.slot (96 * bindPclus r + 4 * bindCore r t + k)
    e.extractLsb' 48 16 = bindTask r ∧ fieldNat e 43 5 = t % 32 ∧ fieldNat e 38 5 = bindCore r t
      ∧ fieldNat e 33 5 = bindPclus r ∧ slotState e = 0 ∧ slotPart e = s.partOf c.asid := by
  intro e
  have hin : 96 * bindPclus r + 4 * bindCore r t + k ∈ strandSlots r t := List.mem_map.2 ⟨k, hk, rfl⟩
  have he : e = strandEntry r t 0 (s.slot (96 * bindPclus r + 4 * bindCore r t + k)) :=
    (hw _).trans (s.slot_labelSlots (code := fun _ => 0) (fun _ => Or.inl hz) ht hin (strandSlots_apart hb))
  have hcore : bindCoreOf r t = bindCore r t := if_pos hk0
  have hclus : bindClus r = bindPclus r := if_pos hk0
  have h24 := (hb.cores t ht).1
  have hp24 := hb.cluster
  rw [he, strandEntry, hcore, hclus, slotEntry_task, slotEntry_tid, slotEntry_lcore, slotEntry_lclus, slotEntry_state, slotEntry_part,
    BitVec.toNat_ofNat, BitVec.toNat_ofNat, BitVec.toNat_ofNat]
  exact ⟨rfl, rfl, Nat.mod_eq_of_lt (by omega), Nat.mod_eq_of_lt (by omega), rfl, (hb.free _ (mem_bindSlots ht hin)).2.1⟩

theorem bindRecords : BindRecords := by
  intro s r
  refine ⟨fun o c hk ho hc hvl hg hz => ?_, fun g c hk hg hc => ?_, fun hk ho => ?_⟩
  · have hbound : s.boundTask r = some (c, o.g) := by
      rw [State.boundTask, if_pos hk, ho]
      dsimp only
      rw [hc, Option.bind_some, if_pos hvl]
    refine ⟨fun hb => ⟨_, exec_bindRecord_taken hbound hb, ?_⟩, exec_bindRecord_refused hbound⟩
    rw [if_pos hk]
    refine ⟨?_, ?_, fun t ht k hkq => ?_, ?_, ?_⟩
    · rw [State.gang, State.refreshOffers_gangs]
      exact State.gang_append_new (s := s)
        (g := ⟨bindTask r, c.cid, o.g, c.asid, s.partOf c.asid, .bound, 0, r, [], 0, 0, 0, [], false, s.tick⟩) rfl hg
    · rw [State.refreshOffers_cards, State.labelSlots_frame]
    · refine slot_bound hb hz hk (fun n => ?_) ht hkq
      exact State.slot_congr (State.refreshOffers_slots _) n
    · rw [State.refreshOffers_strands, State.labelSlots_frame]
    · rw [State.refreshOffers_mem, State.labelSlots_frame]
  · have hbound : s.boundTask r = if g.state = .saved then some (c, g.g) else none := by
      rw [State.boundTask, if_neg hk, hg]
      dsimp only
      rw [hc]
      rfl
    refine ⟨fun hs hb => ⟨_, exec_bindRecord_taken (hbound.trans (if_pos hs)) hb, ?_⟩, fun hno => ?_⟩
    · rw [if_neg hk]
      refine ⟨?_, ?_, ?_, ?_⟩
      · rw [State.labelSlots_frame]
        refine (State.gang_updWhere (s := s) (f := fun x => { x with state := .bound, kind := bindKind r, bind := r }) rfl (fun _ => rfl) _).trans ?_
        rw [hg, Option.map_some, State.gang_handle hg, if_pos (beq_self_eq_true _)]
      · rw [State.labelSlots_frame]; rfl
      · rw [State.labelSlots_frame]; rfl
      · rw [State.labelSlots_frame]; rfl
    · by_cases hs : g.state = .saved
      · exact exec_bindRecord_refused (hbound.trans (if_pos hs)) (hno.resolve_left fun h => h hs)
      · exact exec_bindRecord_none (hbound.trans (if_neg hs))
  · refine exec_bindRecord_none ?_
    have hfind : s.offers.find? (fun o => o.handle == bindTask r) = none :=
      List.find?_eq_none.2 fun o hm => by simpa using ho o hm
    rw [State.boundTask, if_pos hk, hfind]

end Sys2Proof.Machine
end

section
/-!
SUPPORT. The dispatch of a gang: its strands at their entry, or brought back from the vault.
-/

namespace Sys2Proof.Machine

/-! ## Slabs -/

/-- The memory a slab byte lies in, whatever cluster and core a bind record names. -/
theorem homeAttr_slab {p c q x : Nat} (hp : p < 32) (hc : c < 32) (hq : q < 4) (hx : x < 2 ^ 19) : homeAttr (slabByte p c q 0 + x) = attrSlab := by
  simp only [slabByte, homeByte, Config.coresPerCluster, homeAttr, attrSlab]
  omega

theorem mem_slabBases {id : Ident} {b : Nat × Nat} (hb : b ∈ slabBases id) : ∃ k < 4, b.2 = slabByte id.pclus id.pcore k 0 := by
  unfold slabBases at hb
  obtain ⟨x, hm, rfl⟩ := List.mem_map.1 hb
  exact ⟨x.1, List.mem_range.1 (List.mem_filter.1 (List.fst_mem_of_mem_zipIdx hm)).1, rfl⟩

theorem get_dropSlab_other (m : List Host.Cell) {id : Ident} (hp : id.pclus < 32) (hc : id.pcore < 32) {a : Nat} (ha : homeAttr a ≠ attrSlab) :
    Memory.get (dropSlab m id) a = Memory.get m a := by
  refine Memory.get_filter m (fun x => !(slabBases id).any fun b => decide (b.2 ≤ x) && decide (x < b.2 + 2 ^ 19)) ?_
  rw [Bool.not_eq_true', List.any_eq_false]
  intro b hb hx
  obtain ⟨k, hk, he⟩ := mem_slabBases hb
  rw [Bool.and_eq_true, decide_eq_true_eq, decide_eq_true_eq] at hx
  refine ha ?_
  rw [show a = slabByte id.pclus id.pcore k 0 + (a - b.2) by omega]
  exact homeAttr_slab hp hc hk (by omega)

theorem get_dropSlab_own (m : List Host.Cell) {id : Ident} {k off : Nat} (hk : k ∈ quartersOf id.qmask) (hoff : off < 2 ^ 19) :
    Memory.get (dropSlab m id) (slabByte id.pclus id.pcore k off) = 0 := by
  have hbase : slabByte id.pclus id.pcore k off = slabByte id.pclus id.pcore k 0 + off := by
    simp only [slabByte, homeByte]
    omega
  have hin : ((slabBases id).any fun b => decide (b.2 ≤ slabByte id.pclus id.pcore k off) && decide (slabByte id.pclus id.pcore k off < b.2 + 2 ^ 19)) = true := by
    obtain ⟨n, hn, he⟩ := List.mem_iff_getElem.1 hk
    refine List.any_eq_true.2 ⟨(n, slabByte id.pclus id.pcore k 0), List.mem_map.2 ⟨(k, n), ?_, rfl⟩, ?_⟩
    · exact List.mem_zipIdx_iff_getElem?.2 (by rw [← he]; exact List.getElem?_eq_getElem hn)
    · rw [Bool.and_eq_true, decide_eq_true_eq, decide_eq_true_eq]
      dsimp only
      omega
  unfold Memory.get dropSlab
  rw [Cells.find_filter_out m (fun x => !(slabBases id).any fun b => decide (b.2 ≤ x) && decide (x < b.2 + 2 ^ 19)) (by rw [hin]; rfl)]
  rfl

theorem get_dropSlab_zero {m : List Host.Cell} {a : Nat} (h : Memory.get m a = 0) (id : Ident) : Memory.get (dropSlab m id) a = 0 := by
  cases hp : !(slabBases id).any fun b => decide (b.2 ≤ a) && decide (a < b.2 + 2 ^ 19) with
  | true => exact (Memory.get_filter m (fun x => !(slabBases id).any fun b => decide (b.2 ≤ x) && decide (x < b.2 + 2 ^ 19)) hp).trans h
  | false =>
    unfold Memory.get dropSlab
    rw [Cells.find_filter_out m (fun x => !(slabBases id).any fun b => decide (b.2 ≤ x) && decide (x < b.2 + 2 ^ 19)) hp]
    rfl

theorem get_emptySlabs_zero (ids : List Ident) {m : List Host.Cell} {a : Nat} (h : Memory.get m a = 0) :
    Memory.get (ids.foldl dropSlab m) a = 0 := by
  induction ids generalizing m with
  | nil => exact h
  | cons id ids ih => exact ih (get_dropSlab_zero h id)

theorem get_emptySlabs_own (ids : List Ident) {m : List Host.Cell} {id : Ident} (hid : id ∈ ids) {k off : Nat} (hk : k ∈ quartersOf id.qmask)
    (hoff : off < 2 ^ 19) : Memory.get (ids.foldl dropSlab m) (slabByte id.pclus id.pcore k off) = 0 := by
  induction ids generalizing m with
  | nil => exact nomatch hid
  | cons x ids ih =>
    rcases List.mem_cons.1 hid with rfl | hid
    · exact get_emptySlabs_zero ids (get_dropSlab_own m hk hoff)
    · exact ih hid

theorem get_emptySlabs_other (ids : List Ident) {m : List Host.Cell} (hc : ∀ id ∈ ids, id.pclus < 32 ∧ id.pcore < 32) {a : Nat}
    (ha : homeAttr a ≠ attrSlab) : Memory.get (ids.foldl dropSlab m) a = Memory.get m a := by
  induction ids generalizing m with
  | nil => rfl
  | cons id ids ih =>
    obtain ⟨hp, hq⟩ := hc id List.mem_cons_self
    rw [List.foldl_cons, ih fun x hx => hc x (List.mem_cons_of_mem _ hx), get_dropSlab_other m hp hq ha]

/-! ## The entry of a strand -/

theorem entryRegs_get (bits : BitVec 1024) (g t : Nat) (r : SReg) : (entryRegs bits g t)[r.toNat]'r.isLt = if r = 2
      then cardStack bits + BitVec.ofNat 64 ((g * cardGang bits + t + 1) * cardStksz bits)
    else if r = 3 then cardGp bits
    else if 8 ≤ r.toNat ∧ r.toNat ≤ 11 then cardArg bits (r.toNat - 8) else 0 := by
  have hr (k : Nat) (hk : k < 32) (he : r.toNat = k) : r = BitVec.ofNat 5 k :=
    BitVec.eq_of_toNat_eq (by rw [he, BitVec.toNat_ofNat, Nat.mod_eq_of_lt hk])
  unfold entryRegs
  rw [Vector.getElem_ofFn]
  dsimp only
  split
  · rename_i he
    rw [hr 2 (by decide) he]
    rfl
  · rename_i he
    rw [hr 3 (by decide) he]
    rfl
  · rename_i he
    rw [hr 8 (by decide) he]
    rfl
  · rename_i he
    rw [hr 9 (by decide) he]
    rfl
  · rename_i he
    rw [hr 10 (by decide) he]
    rfl
  · rename_i he
    rw [hr 11 (by decide) he]
    rfl
  · rename_i h2 h3 h8 h9 h10 h11
    rw [if_neg fun he : r = 2 => h2 (by rw [he]; rfl), if_neg fun he : r = 3 => h3 (by rw [he]; rfl), if_neg]
    have : r.toNat ≠ 8 ∧ r.toNat ≠ 9 ∧ r.toNat ≠ 10 ∧ r.toNat ≠ 11 := ⟨h8, h9, h10, h11⟩
    omega

theorem laneGet_emptyImage (lane off w : Nat) : laneGet (lanesOf []) lane off w = 0 := by
  unfold laneGet lanesOf
  rw [Vector.getElem_replicate, BitVec.extractLsb'_toNat, show leNat [] = 0 from rfl, BitVec.toNat_zero,
    Nat.zero_shiftRight, Nat.zero_mod]

/-! ## A first dispatch -/

/-- The identities of a gang's strands under its bind record. -/
def gangIdents (g : Gang) (n : Nat) : List Ident :=
  (List.range n).map (identOf g.bind g n)

theorem gangIdents_bounds {g : Gang} {n : Nat} {id : Ident} (h : id ∈ gangIdents g n) : id.pclus < 32 ∧ id.pcore < 32 := by
  obtain ⟨t, -, rfl⟩ := List.mem_map.1 h
  exact ⟨(BitVec.isLt _ : (g.bind.extractLsb' 187 5).toNat < 2 ^ 5), (BitVec.isLt _ : (g.bind.extractLsb' (272 + 5 * t) 5).toNat < 2 ^ 5)⟩

/-- The state once the strands of a gang without images stand at their entry. -/
def State.entered (s : State) (g : Gang) (c : Card) : State :=
  { s with
    strands := s.strands ++ (gangIdents g (cardGang c.bits)).map fun id =>
      entryStrand id (entryRegs c.bits g.g id.tid) (cardEntry c.bits) (lanesOf [])
    mem := (gangIdents g (cardGang c.bits)).foldl dropSlab s.mem
    gangs := updWhere s.gangs (fun x => x.handle == g.handle) fun x => { x with state := .running, bindings := c.binds, started := true } }

theorem State.installGang_empty (s : State) (g : Gang) (c : Card) : s.installGang g c [] []
    = (((s.entered g c).labelSlots g.bind (cardGang c.bits) fun _ => 1).taskStarted c g.g g.boundAt).refreshOffers := rfl

theorem exec_dispatchGang_first {s : State} {g : Gang} {c : Card} (hg : s.gang g.handle = some g) (hc : s.cardOf g = some c)
    (hs : g.state = .bound) (hk : g.kind = 0) (hi : cardImages c.bits = 0) :
    exec (.dispatchGang g.handle.toNat) s = .next ((s.outsideDone (s.partOf g.asid).toNat).installGang g c [] []) := by
  show execDispatchGang g.handle.toNat s = _
  unfold execDispatchGang
  dsimp only
  rw [ofNat_handle, hg]
  dsimp only
  rw [hc]
  dsimp only
  rw [if_neg (by rw [hs]; decide), if_pos hk, State.readImages, if_pos hi]
  rfl

/-- What an installed gang leaves of the package but offers, queues, cards and slots. -/
theorem State.installGang_frame (s : State) (g : Gang) (c : Card) : s.installGang g c [] [] = { s.entered g c with
    slots := (s.installGang g c [] []).slots, offers := (s.installGang g c [] []).offers, queues := (s.installGang g c [] []).queues
    cards := (s.installGang g c [] []).cards } := by
  rw [State.installGang_empty, State.refreshOffers_frame, State.taskStarted_frame, State.labelSlots_frame]

theorem State.installGang_slot (s : State) (g : Gang) (c : Card) (n : Nat) :
    (s.installGang g c [] []).slot n = ((s.entered g c).labelSlots g.bind (cardGang c.bits) fun _ => 1).slot n := by
  rw [State.installGang_empty]
  refine State.slot_congr ?_ n
  rw [State.refreshOffers_slots, State.taskStarted_frame]

/-- What R16 says of a strand at its first issue beat. -/
def AtEntry (g : Gang) (c : Card) (i : Nat) (u : Strand) : Prop :=
  u.id = identOf g.bind g (cardGang c.bits) i ∧ u.pc = cardEntry c.bits ∧ u.status = .running
    ∧ u.fstat = 0 ∧ u.prog = 0 ∧ u.stlMem = 0 ∧ u.tokp = 0 ∧ u.vl = 0 ∧ u.vtype = 0x018 ∧ u.lflags = 0 ∧ u.win = none
    ∧ u.viq = [] ∧ u.rq = [] ∧ u.vcp = 0 ∧ u.acc = none ∧ u.lbuf = [] ∧ u.wait = .none ∧ u.record = none
    ∧ (∀ r : SReg, u.getS r = if r = 2
        then cardStack c.bits + BitVec.ofNat 64 ((g.g * cardGang c.bits + i + 1) * cardStksz c.bits)
      else if r = 3 then cardGp c.bits
      else if 8 ≤ r.toNat ∧ r.toNat ≤ 11 then cardArg c.bits (r.toNat - 8) else 0)
    ∧ (∀ r : VReg, u.v[r.toNat]'r.isLt = ⟨.raw, 0⟩) ∧ (∀ r : KReg, u.k[r.toNat]'r.isLt = 0)
    ∧ (∀ lane < 256, ∀ b < 8192, laneGet u.lane lane b 1 = 0)

theorem atEntry_entryStrand (g : Gang) (c : Card) (i : Nat) : AtEntry g c i
    (entryStrand (identOf g.bind g (cardGang c.bits) i) (entryRegs c.bits g.g i) (cardEntry c.bits) (lanesOf [])) := by
  refine ⟨rfl, rfl, rfl, rfl, rfl, rfl, rfl, rfl, rfl, rfl, rfl, rfl, rfl, rfl, rfl, rfl, rfl, rfl, fun r => ?_, fun r => ?_, fun r => ?_,
    fun lane _ b _ => laneGet_emptyImage lane b 1⟩
  · unfold Strand.getS
    by_cases hr : r = 0
    · subst hr
      rfl
    · rw [if_neg hr]
      exact entryRegs_get c.bits g.g i r
  · exact Vector.getElem_replicate _
  · exact Vector.getElem_replicate _

/-- A first dispatch without images. -/
theorem State.installGang_entered {s : State} {g : Gang} {c : Card} (hg : s.gang g.handle = some g) :
    let s' := s.installGang g c [] []
    s'.gang g.handle = some { g with state := .running, bindings := c.binds, started := true }
    ∧ (∀ t ∈ s.strands, t ∈ s'.strands)
    ∧ (∀ i < cardGang c.bits, ∃ u ∈ s'.strands, AtEntry g c i u)
    ∧ (∀ i < cardGang c.bits, ∀ k ∈ quartersOf (bindQmask g.bind),
      slotState (s'.slot (96 * bindPclus g.bind + 4 * bindCore g.bind i + k)) = 1
      ∧ ∀ off < 2 ^ 19, Memory.get s'.mem (slabByte (bindPclus g.bind) (bindCore g.bind i) k off) = 0)
    ∧ ∀ a, homeAttr a ≠ attrSlab → Memory.get s'.mem a = Memory.get s.mem a := by
  intro s'
  have hf : s' = { s.entered g c with slots := s'.slots, offers := s'.offers, queues := s'.queues, cards := s'.cards } :=
    s.installGang_frame g c
  have hstrands : s'.strands = (s.entered g c).strands := by rw [hf]
  have hmem : s'.mem = (gangIdents g (cardGang c.bits)).foldl dropSlab s.mem := by rw [hf]; rfl
  have hgangs : s'.gangs = (s.entered g c).gangs := by rw [hf]
  have hident (i : Nat) (hi : i < cardGang c.bits) : identOf g.bind g (cardGang c.bits) i ∈ gangIdents g (cardGang c.bits) :=
    List.mem_map.2 ⟨i, List.mem_range.2 hi, rfl⟩
  refine ⟨?_, fun t ht => ?_, fun i hi => ⟨_, ?_, atEntry_entryStrand g c i⟩, fun i hi k hk => ⟨?_, fun off hoff => ?_⟩, fun a ha => ?_⟩
  · refine (State.gang_updWhere (s := s) (f := fun x => { x with state := .running, bindings := c.binds, started := true }) hgangs
      (fun _ => rfl) _).trans ?_
    rw [hg, Option.map_some, if_pos (beq_self_eq_true _)]
  · rw [hstrands]
    exact List.mem_append_left _ ht
  · rw [hstrands]
    exact List.mem_append_right _ (List.mem_map.2 ⟨_, hident i hi, rfl⟩)
  · rw [s.installGang_slot g c]
    exact State.slotState_labelSlots _ (by decide) hi (List.mem_map.2 ⟨k, hk, rfl⟩)
  · rw [hmem]
    exact get_emptySlabs_own _ (hident i hi) hk hoff
  · rw [hmem]
    exact get_emptySlabs_other _ (fun id h => gangIdents_bounds h) ha

/-! ## A resume -/

/-- The strand of a saved context as a state brings it back. -/
def State.broughtBack (s : State) (g : Gang) (n : Nat) (v : Saved) : Strand :=
  (restoredStrand v (identOf g.bind g n v.ctx.id.tid)).loaded (s.contextAt v g.kind (bindSpill g.bind)).1
    (s.contextAt v g.kind (bindSpill g.bind)).2
    (s.readMasks (bindExt g.bind) (s.contextAt v g.kind (bindSpill g.bind)).2.length v.ctx.id.tid)

/-- What the resume of saved strands leaves. -/
structure State.BringsBack (s w : State) (g : Gang) (n : Nat) (vs : List Saved) : Prop where
  frame : w = { s with strands := w.strands, mem := w.mem, copies := w.copies, nextCid := w.nextCid }
  stay : ∀ t ∈ s.strands, t ∈ w.strands
  back : ∀ v ∈ vs, ∃ a : State, a.vaultMem = s.vaultMem ∧ a.broughtBack g n v ∈ w.strands

theorem State.resumeStrands (g : Gang) (n : Nat) (vs : List Saved) (s : State) :
    s.BringsBack (vs.foldl (fun (a : State) v => a.resumeStrand g n v) s) g n vs := by
  induction vs generalizing s with
  | nil => exact ⟨rfl, fun _ h => h, fun _ h => nomatch h⟩
  | cons v vs ih =>
    obtain ⟨hf, hstay, hback⟩ := ih (s.resumeStrand g n v)
    have hone : (s.resumeStrand g n v).strands = s.strands ++ [s.broughtBack g n v] := rfl
    have hv : (s.resumeStrand g n v).vaultMem = s.vaultMem := rfl
    refine ⟨?_, fun t ht => hstay t ?_, fun x hx => ?_⟩
    · rw [List.foldl_cons, hf]
      rfl
    · rw [hone]
      exact List.mem_append_left _ ht
    · rcases List.mem_cons.1 hx with rfl | hx
      · refine ⟨s, rfl, hstay _ ?_⟩
        rw [hone]
        exact List.mem_append_right _ List.mem_cons_self
      · obtain ⟨a, ha, hin⟩ := hback x hx
        exact ⟨a, ha.trans hv, hin⟩

theorem exec_dispatchGang_resume {s : State} {g : Gang} {c : Card} (hg : s.gang g.handle = some g) (hc : s.cardOf g = some c)
    (hs : g.state = .bound) (hk : g.kind ≠ 0) : exec (.dispatchGang g.handle.toNat) s
      = .next (if s.vault.any fun v => v.handle == g.handle && !s.contextOk v g.kind (bindSpill g.bind) then
          (s.record .talus .softError (BitVec.ofNat 128 g.handle.toNat)).rollback g.handle true
        else s.resumeGang g (cardGang c.bits)) := by
  show execDispatchGang g.handle.toNat s = _
  unfold execDispatchGang
  dsimp only
  rw [ofNat_handle, hg]
  dsimp only
  rw [hc]
  dsimp only
  rw [if_neg (by rw [hs]; decide), if_neg hk]
  split <;> rfl

/-- A strand that was running when its gang was saved, brought back. -/
theorem State.broughtBack_running {s : State} {g : Gang} {n : Nat} {v : Saved} (h : v.ctx.status = .running) :
    s.broughtBack g n v = { v.ctx.restore v.record with
        id := identOf g.bind g n v.ctx.id.tid, v := (s.broughtBack g n v).v, k := (s.broughtBack g n v).k, m := (s.broughtBack g n v).m
        lane := (s.broughtBack g n v).lane, lflags := (s.broughtBack g n v).lflags, win := (s.broughtBack g n v).win } := by
  have hr : restoredStrand v (identOf g.bind g n v.ctx.id.tid) = { v.ctx.restore v.record with id := identOf g.bind g n v.ctx.id.tid } := by
    unfold restoredStrand
    dsimp only
    rw [h]
  unfold State.broughtBack Strand.loaded
  rw [hr]

theorem State.broughtBack_v {s : State} {g : Gang} {n : Nat} {v : Saved} (h : g.kind = 1) :
    (s.broughtBack g n v).v = ((v.ctx.restore v.record).loaded s.vaultMem (v.slots.map vaultPart) (s.broughtBack g n v).k).v := by
  have hat : s.contextAt v g.kind (bindSpill g.bind) = (s.vaultMem, v.slots.map vaultPart) := by
    rw [State.contextAt, h]
    rfl
  unfold State.broughtBack
  rw [hat]
  rfl

theorem State.resumeGang_resumed {s : State} {g : Gang} {n : Nat} (hg : s.gang g.handle = some g) (ha : g.answers = []) :
    let s' := s.resumeGang g n
    (∀ t ∈ s.strands, t ∈ s'.strands)
    ∧ (∀ v ∈ s.vault, v.handle = g.handle → v.ctx.status = .running → ∃ u ∈ s'.strands,
      u = { v.ctx.restore v.record with
        id := identOf g.bind g n v.ctx.id.tid, v := u.v, k := u.k, m := u.m, lane := u.lane, lflags := u.lflags, win := u.win }
      ∧ (g.kind = 1 → u.v = ((v.ctx.restore v.record).loaded s.vaultMem (v.slots.map vaultPart) u.k).v))
    ∧ s'.gang g.handle = some { g with state := .running, answers := [] }
    ∧ s'.vault = s.vault.filter fun v => v.handle != g.handle := by
  intro s'
  obtain ⟨hf, hstay, hback⟩ := State.resumeStrands g n (s.vault.filter fun v => v.handle == g.handle) s
  let w := (s.vault.filter fun v => v.handle == g.handle).foldl (fun (a : State) v => a.resumeStrand g n v) s
  have hw : s' = { w with
      vault := w.vault.filter fun v => v.handle != g.handle, barriers := s'.barriers, slots := s'.slots
      gangs := updWhere w.gangs (fun x => x.handle == g.handle) fun x => { x with state := .running, answers := [] } } := by
    simp only [s']
    unfold State.resumeGang
    rw [ha, List.foldl_nil, State.labelSlots_frame]
    rfl
  have hwgangs : w.gangs = s.gangs := by simp only [w]; rw [hf]
  have hwvault : w.vault = s.vault := by simp only [w]; rw [hf]
  have hstrands : s'.strands = w.strands := by rw [hw]
  refine ⟨fun t ht => hstrands ▸ hstay t ht, fun v hv hh hrun => ?_, ?_, ?_⟩
  · obtain ⟨a, hvm, hin⟩ := hback v (List.mem_filter.2 ⟨hv, by rw [hh]; exact beq_self_eq_true _⟩)
    refine ⟨a.broughtBack g n v, hstrands ▸ hin, State.broughtBack_running hrun, fun hk => ?_⟩
    rw [← hvm]
    exact State.broughtBack_v hk
  · refine (State.gang_updWhere (s := s) (h := g.handle) (f := fun x => { x with state := .running, answers := [] }) ?_ (fun _ => rfl) _).trans ?_
    · rw [hw, hwgangs]
    · rw [hg, Option.map_some, if_pos (beq_self_eq_true _)]
  · rw [hw, hwvault]

theorem gangDispatch : GangDispatch := by
  intro s g c hg hc hs
  dsimp only
  refine ⟨fun hk hi => ?_, fun hk hok ha => ?_, fun hk ⟨v, hv, hh, hbad⟩ hn => ?_⟩
  · exact ⟨_, exec_dispatchGang_first hg hc hs hk hi, State.installGang_entered (s := s.outsideDone (s.partOf g.asid).toNat) hg⟩
  · have hall : (s.vault.any fun v => v.handle == g.handle && !s.contextOk v g.kind (bindSpill g.bind)) = false := by
      rw [List.any_eq_false]
      intro v hv h
      rw [Bool.and_eq_true, beq_iff_eq, Bool.not_eq_true'] at h
      rw [hok v hv h.1] at h
      exact Bool.noConfusion h.2
    refine ⟨_, exec_dispatchGang_resume hg hc hs hk, ?_⟩
    rw [hall, if_neg Bool.false_ne_true]
    exact State.resumeGang_resumed hg ha
  · have hany : (s.vault.any fun v => v.handle == g.handle && !s.contextOk v g.kind (bindSpill g.bind)) = true :=
      List.any_eq_true.2 ⟨v, hv, by rw [hh, hbad, beq_self_eq_true]; rfl⟩
    have hf : g.failing = false := by
      rw [Gang.failing, hs]
    refine ⟨_, exec_dispatchGang_resume hg hc hs hk, ?_⟩
    rw [hany, if_pos rfl]
    exact rolledBack_congr (State.rollback_counted (s := s.record .talus .softError (BitVec.ofNat 128 g.handle.toNat)) hg hf hc hn)
      rfl rfl rfl rfl

end Sys2Proof.Machine

open Sys2Proof Sys2Proof.Machine

/-- Settles O54: a record the port takes through the slots it labels, a dispatch through the strands it enters or brings back. -/
theorem bindAndDispatch : Obligations.BindAndDispatch := by
  unfold Obligations.BindAndDispatch
  exact ⟨bindRecords, gangDispatch⟩

end

section
/-!
SUPPORT. Instructions that form a convoy alone act at their place: sync words, and what completes or stops such an instruction.
-/

namespace Sys2Proof.Machine

/-! ## Sync words -/

/-- A sync word that answers is read where it stands. -/
theorem State.readSync_at {s : State} {c : Ctx} {obj : Word} {need : Need} {h : Nat} (hs : SyncAt s c obj need h) :
    ∃ l : Loc, l.home = h ∧ s.readSync c obj need = .ok (l, wordAt s h) s := by
  obtain ⟨e, hm, hserved, hhost⟩ := hs
  have hk : attrCause (pteAttr e.pte) .sync = none := by
    unfold attrCause
    dsimp only
    rw [if_neg]
    exact fun k => k.elim hserved.attr hhost
  refine ⟨⟨h, obj, 0, pteAttr e.pte, some .plain⟩, rfl, ?_⟩
  rw [State.readSync, State.resolve_served hm hm.aligned hserved hk, Res.bind, State.atHome_served hserved, Res.bind]
  rfl

theorem State.settleSolo_ok {α : Type} (s w : State) (t : Strand) (elem epr : Nat) (a : α) (f : α → State → State) :
    s.settleSolo t elem epr (.ok a w) f = f a w := rfl

/-! ## Completion and faults -/

/-- What a completed instruction delivers. -/
def delivered (i : Instr) (x : Option Word) : List (SReg × Word) :=
  match resultReg i, x with
  | some r, some w => [(r, w)]
  | _, _ => []

theorem Strand.soloDone_first {t : Strand} {e : Entry} {rest : List Entry} (h : t.viq = e :: rest) (x : Option Word) :
    t.soloDone x = firstDone t rest (delivered e.i x) := by
  unfold Strand.soloDone
  rw [h]
  rfl

theorem Strand.soloDone_entered {t : Strand} (h : t.idle) (i : Instr) (ops : List SReg) (x : Option Word) :
    (entered t i ops).soloDone x = finished t (delivered i x) := by
  obtain ⟨hv, -, -⟩ := h
  refine (Strand.soloDone_first (e := ⟨i, t.pc, true, t.vl, t.vtype, ops.map t.getS, 0, [], false, none, false, none, t.gen, false,
    none, [], []⟩) (rest := []) ?_ x).trans rfl
  show t.viq ++ _ = _
  rw [hv]
  rfl

theorem Strand.soloFault_entered {t : Strand} (h : t.idle) (i : Instr) (ops : List SReg) (c : Cause) (addr : Word) (elem : Nat) :
    (entered t i ops).soloFault c addr 0 elem 0 = refusedAt t i ops c addr elem := by
  obtain ⟨hv, -, -⟩ := h
  unfold Strand.soloFault refusedAt
  have hpc : (((entered t i ops).viq.head?).map Entry.pc).getD 0 = t.pc := by
    show (((t.viq ++ _).head?).map Entry.pc).getD 0 = t.pc
    rw [hv]
    rfl
  rw [hpc]
  rfl

theorem Strand.soloRefused_entered {t : Strand} (h : t.idle) (i : Instr) (ops : List SReg) (c : Cause) :
    (entered t i ops).soloRefused c = refusedAt t i ops c 0 0 :=
  Strand.soloFault_entered h i ops c 0 0

/-- Where nothing stands before it and nothing waits, an instruction that forms a convoy alone acts at once. -/
theorem exec_solo_acts {i : Instr} {ops dst : List SReg} (hi : soloRegs i = some (ops, dst)) (hn : ¬ CopyForm i) {s : State} {t : Strand}
    (hr : Ready s t (ops ++ dst)) (h : t.idle) :
    exec i s = .next (s.performSolo (entered t i ops) (t.entryOf i true ops)) := by
  obtain ⟨hc, hw⟩ := hr
  have hroom : t.noRoom i = false := by
    obtain ⟨hv, hq, -⟩ := h
    refine Strand.noRoom_false ?_
    rw [hv, Strand.resultsFull, hv, hq]
    simp [Config.resultEntries]
  rw [exec_solo hi hn, State.dispatchSolo_of hc, hw, hroom, Bool.or_self, if_neg Bool.false_ne_true, State.enterSolo_first h.1 h.2.2]

/-- The operands of an entry as dispatch noted them. -/
theorem Strand.entryOf_op (t : Strand) (i : Instr) (ops : List SReg) (n : Nat) :
    (t.entryOf i true ops).ops.getD n 0 = (ops.map t.getS).getD n 0 := rfl

/-! ## Barrier instructions -/

theorem State.atBarrier_none {s : State} {t : Strand} {h : Nat} (hb : s.barrierOf h = none) (f : Option Barrier → State) :
    s.atBarrier t h f = f none := by
  rw [State.atBarrier, hb]

theorem State.atBarrier_some {s : State} {t : Strand} {h : Nat} {b : Barrier} (hb : s.barrierOf h = some b) (ha : s.arrivalAhead t b = false)
    (f : Option Barrier → State) : s.atBarrier t h f = f (some b) := by
  rw [State.atBarrier, hb]
  dsimp only
  rw [ha, if_neg Bool.false_ne_true]

section
variable {s : State} {t : Strand} {sa : SReg} {h : Nat} (hr : Ready s t [sa]) (hidle : t.idle)
include hr hidle

theorem exec_barInit {nm1 : BitVec 6} (hs : SyncAt s t.qctx (t.getS sa) .both h) : ∃ l : Loc, l.home = h
    ∧ exec (.barInit sa nm1) s = .next (s.atBarrier (entered t (.barInit sa nm1) [sa]) l.home fun
      | some b =>
        if b.handle = t.id.handle ∧ b.made = nm1.toNat + 1 then s.soloEnd (entered t (.barInit sa nm1) [sa]) none
        else s.put ((entered t (.barInit sa nm1) [sa]).soloRefused .barState)
      | none =>
        if (s.barriers.filter fun b => b.handle == t.id.handle).length ≥ s.barsOf t.id.handle then
          s.put ((entered t (.barInit sa nm1) [sa]).soloRefused .barFull)
        else ({ s with
          barriers := s.barriers ++ [⟨s.nextBid, l.home, t.getS sa, t.id.handle, t.id.pclus, nm1.toNat + 1, nm1.toNat + 1, wordAt s h, [], 0, []⟩]
          nextBid := s.nextBid + 1 } : State).soloEnd (entered t (.barInit sa nm1) [sa]) none) := by
  obtain ⟨l, hl, hread⟩ := State.readSync_at hs
  refine ⟨l, hl, ?_⟩
  rw [exec_solo_acts (i := .barInit sa nm1) (ops := [sa]) (dst := []) rfl (by rintro (⟨a, h | h | h⟩ | ⟨a, h⟩) <;> cases h) hr hidle]
  show Host.Outcome.next (s.settleSolo (entered t (.barInit sa nm1) [sa]) 0 0 (s.readSync t.qctx (t.getS sa) .both) _) = _
  rw [hread]
  rfl

theorem exec_arrival {i : Instr} {k : ArrKind} (hi : (i, k) ∈ [(Instr.barArr sa, ArrKind.arr), (.barArrRlx sa, .rlx), (.barDrop sa, .drop)])
    (hs : SyncAt s t.qctx (t.getS sa) .both h) : ∃ l : Loc, l.home = h
    ∧ exec i s = .next (s.atBarrier (entered t i [sa]) l.home fun
      | none => s.put ((entered t i [sa]).soloRefused .barState)
      | some b => ({ s with arrivals := s.arrivals ++ [⟨b.bid, (t.id.handle, t.id.tid), k⟩] } : State).soloEnd (entered t i [sa]) none) := by
  obtain ⟨l, hl, hread⟩ := State.readSync_at hs
  refine ⟨l, hl, ?_⟩
  simp only [List.mem_cons, List.not_mem_nil, or_false, Prod.mk.injEq] at hi
  obtain ⟨rfl, rfl⟩ | ⟨rfl, rfl⟩ | ⟨rfl, rfl⟩ := hi
  · rw [exec_solo_acts (i := .barArr sa) (ops := [sa]) (dst := []) rfl (by rintro (⟨a, h | h | h⟩ | ⟨a, h⟩) <;> cases h) hr hidle]
    show Host.Outcome.next (s.settleSolo (entered t (.barArr sa) [sa]) 0 0 (s.readSync t.qctx (t.getS sa) .both) _) = _
    rw [hread]
    rfl
  · rw [exec_solo_acts (i := .barArrRlx sa) (ops := [sa]) (dst := []) rfl (by rintro (⟨a, h | h | h⟩ | ⟨a, h⟩) <;> cases h) hr hidle]
    show Host.Outcome.next (s.settleSolo (entered t (.barArrRlx sa) [sa]) 0 0 (s.readSync t.qctx (t.getS sa) .both) _) = _
    rw [hread]
    rfl
  · rw [exec_solo_acts (i := .barDrop sa) (ops := [sa]) (dst := []) rfl (by rintro (⟨a, h | h | h⟩ | ⟨a, h⟩) <;> cases h) hr hidle]
    show Host.Outcome.next (s.settleSolo (entered t (.barDrop sa) [sa]) 0 0 (s.readSync t.qctx (t.getS sa) .both) _) = _
    rw [hread]
    rfl

theorem exec_barWait (hs : SyncAt s t.qctx (t.getS sa) .read h) :
    exec (.barWait sa) s = .next (match s.barrierOf h with
      | none => s.put ((entered t (.barWait sa) [sa]).soloRefused .barState)
      | some b => if b.handle ≠ t.id.handle then s.put ((entered t (.barWait sa) [sa]).soloRefused .barState)
        else if phasePassed b.counter (s.lastPhase t b) then (s.endSvc (.queue t.id.sid)).put (entered t (.barWait sa) [sa]).woken
        else (s.endSvc (.queue t.id.sid)).put { entered t (.barWait sa) [sa] with wait := .barrier b.bid (s.lastPhase t b) }) := by
  obtain ⟨l, rfl, hread⟩ := State.readSync_at hs
  rw [exec_solo_acts (i := .barWait sa) (ops := [sa]) (dst := []) rfl (by rintro (⟨a, h | h | h⟩ | ⟨a, h⟩) <;> cases h) hr hidle]
  show Host.Outcome.next (s.settleSolo (entered t (.barWait sa) [sa]) 0 0 (s.readSync t.qctx (t.getS sa) .read) _) = _
  rw [hread]
  rfl

end

theorem Strand.woken_entered {t : Strand} (h : t.idle) (i : Instr) (ops : List SReg) :
    (entered t i ops).woken = { finished t (delivered i none) with lbuf := [] } :=
  (Strand.soloDone_entered (t := { t with lbuf := [] }) h i ops none).trans rfl

theorem barrierInstructions : BarrierInstructions := by
  intro s t sa h hr hidle
  dsimp only
  refine ⟨fun hs nm1 => ?_, fun hs p hp => ?_, fun hs => ?_⟩
  · obtain ⟨l, rfl, hx⟩ := exec_barInit hr hidle (nm1 := nm1) hs
    refine ⟨fun hb hroom => ?_, fun hb hfull => ?_, fun b hb ha => ?_⟩
    · rw [hx, State.atBarrier_none hb]
      dsimp only
      rw [if_neg (Nat.not_le.2 hroom), State.soloEnd, Strand.soloDone_entered hidle]
      rfl
    · rw [hx, State.atBarrier_none hb]
      dsimp only
      rw [if_pos hfull, Strand.soloRefused_entered hidle]
    · rw [hx, State.atBarrier_some (t := entered t (.barInit sa nm1) [sa]) hb ha]
      dsimp only
      rw [State.soloEnd, Strand.soloDone_entered hidle, Strand.soloRefused_entered hidle]
      rfl
  · obtain ⟨l, rfl, hx⟩ := exec_arrival hr hidle (i := p.1) (k := p.2) hp hs
    have hno : delivered p.1 none = [] := by
      unfold delivered
      cases resultReg p.1 <;> rfl
    refine ⟨fun hb => ?_, fun b hb ha => ?_⟩
    · rw [hx, State.atBarrier_none hb]
      dsimp only
      rw [Strand.soloRefused_entered hidle]
    · rw [hx, State.atBarrier_some (t := entered t p.1 [sa]) hb ha]
      dsimp only
      rw [State.soloEnd, Strand.soloDone_entered hidle, hno]
      rfl
  · rw [exec_barWait hr hidle hs]
    refine ⟨fun hb => ?_, fun b hb hh => ?_⟩
    · rw [hb]
      dsimp only
      rw [Strand.soloRefused_entered hidle]
    · rw [hb]
      dsimp only
      rw [if_neg (by rw [hh]; exact fun k => k rfl), Strand.woken_entered hidle, phasePassed]
      dsimp only
      refine congrArg Host.Outcome.next ?_
      split
      · rename_i hp
        rw [decide_eq_true_eq] at hp
        rw [if_pos hp]
        rfl
      · rename_i hp
        rw [decide_eq_true_eq] at hp
        rw [if_neg hp]

/-! ## Phases -/

theorem countIn_new {b : Barrier} {as : List Arrival} (hn : (as.map Arrival.who).Nodup) (ha : ∀ a ∈ as, a.who ∉ b.arrived) :
    countIn b as = { b with arrived := b.arrived ++ as.map Arrival.who, drops := b.drops + as.countP fun a => a.kind == .drop } := by
  induction as generalizing b with
  | nil => simp [countIn]
  | cons a as ih =>
    rw [List.map_cons, List.nodup_cons] at hn
    have hno : b.arrived.contains a.who = false := by
      rw [← Bool.not_eq_true, List.contains_iff_mem]
      exact ha a List.mem_cons_self
    rw [countIn, hno, if_neg Bool.false_ne_true, ih hn.2 fun x hx => ?_]
    · rw [List.countP_cons]
      cases hk : a.kind <;> simp [Nat.add_assoc, Nat.add_comm]
    · rw [List.mem_append, List.mem_singleton, not_or]
      exact ⟨ha x (List.mem_cons_of_mem _ hx), fun he => hn.1 (he ▸ List.mem_map_of_mem hx)⟩

theorem completePhases_below {b : Barrier} (h : b.arrived.length < b.expected) (n : Nat) : completePhases n b = (b, false) := by
  cases n with
  | zero => rfl
  | succ n => rw [completePhases, if_pos (Or.inr h)]

theorem completePhases_full {b : Barrier} (h : b.arrived.length = b.expected) (hg : b.drops < b.expected) (hh : b.held = []) (n : Nat) :
    completePhases (n + 1) b = ({ b with counter := b.counter + 1, arrived := [], expected := b.expected - b.drops, drops := 0 }, true) := by
  have hpos : 0 < b.expected - b.drops := Nat.sub_pos_of_lt hg
  rw [completePhases, if_neg (by omega)]
  dsimp only
  rw [if_neg (Nat.ne_of_gt hpos), hh, countIn, completePhases_below (by exact hpos)]

/-- A barrier whose phase has completed. -/
def Barrier.advanced (b : Barrier) (gone : Nat) : Barrier :=
  { b with counter := b.counter + 1, arrived := [], expected := b.expected - gone, drops := 0 }

theorem State.strand_noted (s : State) (b : Barrier) (as : List Arrival) {w : State} (hw : w.strands = s.strands.map (noteArrivals b as))
    (n : Nat) : w.strand n = (s.strand n).map (noteArrivals b as) := by
  have hid (t : Strand) : (noteArrivals b as t).id = t.id := by
    unfold noteArrivals
    dsimp only
    split <;> rfl
  rw [State.strand, hw, List.find?_map, State.strand]
  congr 2
  funext t
  rw [Function.comp, hid]

theorem noteArrivals_frame (b : Barrier) (as : List Arrival) (t : Strand) :
    noteArrivals b as t = { t with arrs := (noteArrivals b as t).arrs } := by
  unfold noteArrivals
  dsimp only
  split <;> rfl

/-- A strand that a completed phase may release. -/
def Strand.released (t : Strand) (bid : Nat) (counter : Word) : Strand :=
  match t.wait with
  | .barrier w phase => if w = bid ∧ phasePassed counter phase then { t.woken with stalled := true } else t
  | _ => t

theorem Strand.released_id (t : Strand) (bid : Nat) (counter : Word) : (t.released bid counter).id = t.id := by
  unfold Strand.released
  split
  · split
    · unfold Strand.woken Strand.soloDone
      split <;> rfl
    · rfl
  · rfl

theorem State.strand_released {s w : State} {bid : Nat} {counter : Word} (hw : w.strands = s.strands.map fun t => t.released bid counter)
    (n : Nat) : w.strand n = (s.strand n).map fun t => t.released bid counter := by
  rw [State.strand, hw, List.find?_map, State.strand]
  congr 2
  funext t
  rw [Function.comp, Strand.released_id]

theorem Strand.released_waiting {t : Strand} {bid : Nat} {counter phase : Word} (hw : t.wait = .barrier bid phase)
    (hd : ¬ (1 ≤ (counter - phase).toNat ∧ (counter - phase).toNat < 2 ^ 63)) : t.released bid counter = t := by
  unfold Strand.released
  rw [hw]
  dsimp only
  rw [if_neg]
  rintro ⟨-, hp⟩
  exact hd (of_decide_eq_true hp)

theorem Strand.released_passed {t : Strand} {bid : Nat} {counter phase : Word} (hw : t.wait = .barrier bid phase)
    (hd : 1 ≤ (counter - phase).toNat ∧ (counter - phase).toNat < 2 ^ 63) :
    ((t.released bid counter).wait = .none ∧ (t.released bid counter).lbuf = [] ∨ t.viq = []) ∧ (t.released bid counter).stalled = true := by
  have h : t.released bid counter = { t.woken with stalled := true } := by
    unfold Strand.released
    rw [hw]
    dsimp only
    rw [if_pos ⟨rfl, decide_eq_true hd⟩]
  rw [h]
  refine ⟨?_, rfl⟩
  unfold Strand.woken Strand.soloDone
  dsimp only
  cases hv : t.viq with
  | nil => exact Or.inr rfl
  | cons e rest =>
    refine Or.inl ⟨?_, rfl⟩
    simp [Strand.otherWait, hw]

section
variable {s : State} {b : Barrier} {rest : List Barrier} (hb : s.barriers = b :: rest) (hrest : ∀ x ∈ rest, x.bid ≠ b.bid)
include hb hrest

theorem barriers_replaced (b1 : Barrier) : updWhere s.barriers (fun x => x.bid == b.bid) (fun _ => b1) = b1 :: rest := by
  rw [hb, updWhere, List.map_cons, if_pos (beq_self_eq_true _)]
  congr 1
  conv_rhs => rw [← List.map_id rest]
  exact List.map_congr_left fun x hx => if_neg (by simpa using hrest x hx)

theorem exec_barrierArrivalCount (hc : s.counts b = true) (hsoft : s.soft.contains (lineOf (s.barrierHome b)) = false) {b1 : Barrier} {done : Bool}
    (hp : completePhases ((s.arrivals.filter fun a => a.bid == b.bid).length + b.held.length + 1)
      (countIn b (s.arrivals.filter fun a => a.bid == b.bid)) = (b1, done)) (he : b1.expected ≠ 0) :
    let s1 : State := { s with
      arrivals := s.arrivals.filter fun a => a.bid != b.bid
      barriers := b1 :: rest
      strands := s.strands.map (noteArrivals b (s.arrivals.filter fun a => a.bid == b.bid)) }
    let s2 := s1.writeHome (s.barrierHome b) (wordBytes 8 b1.counter)
    exec (.barrierArrivalCount b.bid) s = .next (if done then { s2 with strands := s2.strands.map fun t => t.released b.bid b1.counter } else s1) := by
  intro s1 s2
  have hfind : s.barriers.find? (fun x => x.bid == b.bid) = some b := by rw [hb]; simp
  show execBarrierArrivalCount b.bid s = _
  unfold execBarrierArrivalCount
  rw [hfind]
  dsimp only
  rw [hc, if_neg (by decide), hsoft, if_neg Bool.false_ne_true, hp]
  dsimp only
  rw [if_neg he, barriers_replaced hb hrest]
  cases done <;> rfl

end

theorem barrierPhases : BarrierPhases := by
  intro s b rest hm hb hrest hrun h
  have hgang : ((s.gang b.handle).any fun g => g.state != .running) = false := by
    cases hg : s.gang b.handle with
    | none => rfl
    | some g => simp [hrun g hg]
  refine ⟨fun hno => ?_, fun hmove hoff hun hsoft hheld hexp => ?_⟩
  · have hc : s.counts b = false := by
      unfold State.counts
      rcases hno with hl | hl
      · simp [show s.lineState (lineOf (s.barrierHome b)) = _ from hl]
      · simp [show s.offline (lineOf (s.barrierHome b)) = _ from hl]
    have hfind : s.barriers.find? (fun x => x.bid == b.bid) = some b := by rw [hb]; simp
    show execBarrierArrivalCount b.bid s = _
    unfold execBarrierArrivalCount
    rw [hfind]
    dsimp only
    rw [hc, if_pos (by decide)]
  · intro as who gone hnd hnew hle hgone
    have hc : s.counts b = true := by
      unfold State.counts
      have h1 : (s.lineState (lineOf (s.barrierHome b)) == some .inMove) = false := by simpa using hmove
      dsimp only
      rw [hgang, h1, show s.offline (lineOf (s.barrierHome b)) = _ from hoff, show s.unreachable (lineOf (s.barrierHome b)) = _ from hun]
      rfl
    have hcount : countIn b as = { b with arrived := b.arrived ++ who, drops := gone } := countIn_new hnd hnew
    by_cases hlt : (b.arrived ++ who).length < b.expected
    · have hp : completePhases (as.length + b.held.length + 1) (countIn b as) = ({ b with arrived := b.arrived ++ who, drops := gone }, false) := by
        rw [hcount]
        exact completePhases_below hlt _
      refine ⟨_, exec_barrierArrivalCount hb hrest hc hsoft hp (Nat.ne_of_gt hexp), rfl, fun _ => ⟨rfl, rfl, fun t ht => ?_⟩,
        fun he => absurd hlt (by omega)⟩
      obtain ⟨u, hu, rfl⟩ := List.mem_map.1 ht
      exact ⟨u, hu, noteArrivals_frame b as u⟩
    · have hfull : (b.arrived ++ who).length = b.expected := by omega
      have hp : completePhases (as.length + b.held.length + 1) (countIn b as) = (b.advanced gone, true) := by
        rw [hcount]
        exact completePhases_full (b := { b with arrived := b.arrived ++ who, drops := gone }) hfull hgone hheld _
      refine ⟨_, exec_barrierArrivalCount hb hrest hc hsoft hp (Nat.ne_of_gt (Nat.sub_pos_of_lt hgone)), ?_, fun h => absurd h hlt, fun _ => ?_⟩
      · rw [if_pos rfl, State.writeHome_frame]
      · rw [if_pos rfl]
        let s1 : State := { s with
          arrivals := s.arrivals.filter fun a => a.bid != b.bid
          barriers := b.advanced gone :: rest
          strands := s.strands.map (noteArrivals b (s.arrivals.filter fun a => a.bid == b.bid)) }
        refine ⟨?_, ?_, fun a ha => ?_, fun sid t phase ht hw => ?_⟩
        · rw [State.writeHome_frame]
          rfl
        · exact wordAt_writeHome (s := s1) hm (s.barrierHome b) (b.counter + 1)
        · exact get_writeHome_apart s1 (b.counter + 1) ha
        · have hnoted : (s1.writeHome (s.barrierHome b) (wordBytes 8 (b.counter + 1))).strand sid = some (noteArrivals b as t) := by
            rw [s.strand_noted b as (w := s1.writeHome (s.barrierHome b) (wordBytes 8 (b.counter + 1))) (by rw [State.writeHome_frame]), ht]
            rfl
          refine ⟨(noteArrivals b as t).released b.bid (b.counter + 1), ?_, ?_⟩
          · refine (State.strand_released (s := s1.writeHome (s.barrierHome b) (wordBytes 8 (b.counter + 1))) (bid := b.bid)
              (counter := b.counter + 1) rfl sid).trans ?_
            rw [hnoted]
            rfl
          · have hw' : (noteArrivals b as t).wait = .barrier b.bid phase := by rw [noteArrivals_frame]; exact hw
            have hv' : (noteArrivals b as t).viq = t.viq := by rw [noteArrivals_frame]
            refine ⟨fun hd => ?_, fun hd => ?_⟩
            · obtain ⟨hend, hst⟩ := Strand.released_passed hw' hd
              exact ⟨hend.imp_right fun k => hv'.symm.trans k, hst⟩
            · rw [Strand.released_waiting hw' hd]
              exact ⟨hw'.trans hw.symm, hv'⟩

end Sys2Proof.Machine

open Sys2Proof Sys2Proof.Machine

/-- Settles O47: the instructions through what a sync word reads and the barrier found there, a phase through how its arrivals
count. -/
theorem barriers : Obligations.Barriers := by
  unfold Obligations.Barriers
  exact ⟨barrierInstructions, barrierPhases⟩

end

section
/-!
SUPPORT. The checks of a vector instruction pass where its groups are placed and tagged; sync objects; `vwait`.
-/

namespace Sys2Proof.Machine

/-! ## Checks of groups and tags -/

/-- Registers of one tag share it. -/
theorem groupTag_of {v : Vector VecReg 64} {r size : Nat} {ty : Tag} (hs : 0 < size)
    (h : ∀ n, r ≤ n → n < r + size → (regAt v n).tag = ty) : groupTag v r size = some ty := by
  have h0 : (regAt v r).tag = ty := h r (Nat.le_refl r) (Nat.lt_add_of_pos_right hs)
  unfold groupTag
  dsimp only
  rw [h0, if_pos]
  rw [List.all_eq_true]
  intro i hi
  rw [h (r + i) (Nat.le_add_right r i) (Nat.add_lt_add_left (List.mem_range.1 hi) r)]
  exact beq_self_eq_true ty

theorem groupSize_pos (vt : BitVec 12) (w : Nat) : 0 < groupSize vt w := Nat.lt_of_lt_of_le Nat.one_pos (Nat.le_max_left _ _)

/-- The tag of a source group is read. -/
theorem Px.tag_source {x : Px} {t : Strand} {r : VReg} {w : Nat} {ty : Tag} (h : SourceGroup t x.vt r w ty) (hv : x.src.v = t.v) :
    x.tag r w = .ok ty := by
  have hok : widthOk ty w = true := by
    unfold widthOk
    rcases h.width with hw | hw <;> simp [hw]
  unfold Px.tag Px.size
  rw [hv, groupTag_of (groupSize_pos x.vt w) h.tagged]
  dsimp only
  rw [hok, if_pos rfl]

/-- Source groups without a destination: each is placed. -/
theorem Px.groups_sources {x : Px} {srcs : List (VReg × Nat)} (h : ∀ o ∈ srcs, groupOk o.1.toNat (groupSize x.vt o.2) = true) :
    x.groups none srcs = .ok () := by
  unfold Px.groups Px.size
  dsimp only
  rw [if_pos (List.all_eq_true.2 h)]

/-- Groups that are the same or share no register. -/
theorem apart_of_clear {vt : BitVec 12} {d r : VReg} {dw w : Nat} (h : Clear vt d dw r w) :
    (!groupsMeet d.toNat (groupSize vt dw) r.toNat (groupSize vt w) || (dw == w && d == r)) = true := by
  unfold groupsMeet
  rcases h with ⟨rfl, rfl⟩ | h | h
  · simp
  · simp; omega
  · simp; omega

/-- A destination against its sources: each placed, the destination the same as a source of its width or apart from it. -/
theorem Px.groups_clear {x : Px} {d : VReg} {dw : Nat} {srcs : List (VReg × Nat)} (hd : groupOk d.toNat (groupSize x.vt dw) = true)
    (h : ∀ o ∈ srcs, groupOk o.1.toNat (groupSize x.vt o.2) = true ∧ Clear x.vt d dw o.1 o.2) : x.groups (some (d, dw)) srcs = .ok () := by
  have hs : srcs.all (fun o => groupOk o.1.toNat (groupSize x.vt o.2)) = true := List.all_eq_true.2 fun o ho => (h o ho).1
  have ha : srcs.all (fun o => !groupsMeet d.toNat (groupSize x.vt dw) o.1.toNat (groupSize x.vt o.2) || (dw == o.2 && d == o.1)) = true :=
    List.all_eq_true.2 fun o ho => apart_of_clear (h o ho).2
  unfold Px.groups Px.size
  exact if_pos (by
    dsimp only
    rw [hd, hs, ha]
    rfl)

theorem indexOk_of {ty : Tag} {w : Nat} (h : ty = .raw ∨ ty.isInt = true) (hw : ty = .raw ∨ ty.width = some w) : indexOk ty w = true := by
  unfold indexOk
  rcases h with h | h
  · simp [h]
  · rcases hw with hw | hw <;> simp [h, hw]

/-! ## acq and rel -/

section
variable {s : State} {t : Strand} {obj : Word} {h : Nat}

theorem State.acqTest_read (hs : SyncAt s t.qctx obj .read h) (target : Word) (force : Bool) :
    s.acqTest t obj target force = if force || reached (wordAt s h) target then s.soloEnd (s.acquire t obj) (some (wordAt s h))
      else (s.endSvc (.queue t.id.sid)).put { t with wait := .object obj target, held := none } := by
  obtain ⟨l, -, hread⟩ := State.readSync_at hs
  rw [State.acqTest, hread]
  rfl

theorem State.relRaise_read (hs : SyncAt s t.qctx obj .both h) : ∃ l : Loc, l.home = h ∧ s.relRaise t obj
    = (s.writeHome h (wordBytes 8 (wordAt s h + 1))).soloEnd { t with lbuf := dropLines t.lbuf obj (lineOf h) } (some (wordAt s h + 1)) := by
  obtain ⟨l, hl, hread⟩ := State.readSync_at hs
  refine ⟨l, hl, ?_⟩
  rw [State.relRaise, hread, ← hl]
  rfl

/-- A lock of the line buffer is taken as the instruction completes. -/
theorem Strand.soloDone_lbuf {e : Entry} {rest : List Entry} (hv : t.viq = e :: rest) (lb : List BufLine) (x : Option Word) :
    ({ t with lbuf := lb } : Strand).soloDone x = { firstDone t rest (delivered e.i x) with lbuf := lb } :=
  (Strand.soloDone_first (t := { t with lbuf := lb }) hv x).trans rfl

theorem Strand.soloDone_entered_lbuf (hidle : t.idle) (i : Instr) (ops : List SReg) (lb : List BufLine) (x : Option Word) :
    ({ entered t i ops with lbuf := lb } : Strand).soloDone x = { finished t (delivered i x) with lbuf := lb } :=
  (Strand.soloDone_entered (t := { t with lbuf := lb }) hidle i ops x).trans rfl

end

theorem acqResults {s : State} {t : Strand} {sd sa sb : SReg} {h : Nat} (hr : Ready s t [sa, sb, sd]) (hidle : t.idle)
    (hs : SyncAt s t.qctx (t.getS sa) .read h) :
    exec (.acq sd sa sb) s = .next (if sb = 0 ∨ (wordAt s h - t.getS sb).toNat < 2 ^ 63 then
        (s.endSvc (.queue t.id.sid)).put { finished t [(sd, wordAt s h)] with lbuf := dropRegions t.lbuf (s.bindingsOf t) (t.getS sa) }
      else (s.endSvc (.queue t.id.sid)).put { entered t (.acq sd sa sb) [sa, sb] with wait := .object (t.getS sa) (t.getS sb), held := none }) := by
  rw [exec_solo_acts (i := .acq sd sa sb) (ops := [sa, sb]) (dst := [sd]) rfl (by rintro (⟨a, h | h | h⟩ | ⟨a, h⟩) <;> cases h) hr hidle]
  show Host.Outcome.next (s.acqTest (entered t (.acq sd sa sb) [sa, sb]) (t.getS sa) (t.getS sb) (sb == 0)) = _
  rw [State.acqTest_read (t := entered t (.acq sd sa sb) [sa, sb]) hs]
  have hc : (sb == 0 || reached (wordAt s h) (t.getS sb)) = decide (sb = 0 ∨ (wordAt s h - t.getS sb).toNat < 2 ^ 63) := by
    unfold reached
    rw [Bool.decide_or]
    congr 1
  rw [hc]
  by_cases hd : sb = 0 ∨ (wordAt s h - t.getS sb).toNat < 2 ^ 63
  · rw [if_pos (decide_eq_true hd), if_pos hd, State.soloEnd]
    exact congrArg (fun u => Host.Outcome.next ((s.endSvc (.queue t.id.sid)).put u))
      (Strand.soloDone_entered_lbuf hidle (.acq sd sa sb) [sa, sb] (dropRegions t.lbuf (s.bindingsOf t) (t.getS sa)) (some (wordAt s h)))
  · rw [if_neg (by rw [decide_eq_true_eq]; exact hd), if_neg hd]
    rfl

theorem exec_acqSatisfied {s : State} {sid : Nat} {t : Strand} {e : Entry} {rest : List Entry} {sd sa sb : SReg} {obj target : Word}
    {h : Nat} (ht : s.strand sid = some t) (hfront : s.frontReady t = true) (hw : t.wait = .object obj target) (hv : t.viq = e :: rest)
    (hi : e.i = .acq sd sa sb) (hs : SyncAt s t.qctx obj .read h) (hreach : (wordAt s h - target).toNat < 2 ^ 63) :
    exec (.acqSatisfied sid) s = .next ((s.endSvc (.queue sid)).put
      { firstDone t rest [(sd, wordAt s h)] with lbuf := dropRegions t.lbuf (s.bindingsOf t) obj }) := by
  show execAcqSatisfied sid s = _
  unfold execAcqSatisfied
  rw [ht]
  dsimp only
  rw [hfront, hw]
  dsimp only
  rw [if_neg (by decide), State.acqTest_read hs, if_pos (by rw [reached, decide_eq_true hreach]; rfl), State.soloEnd]
  have hd := Strand.soloDone_lbuf hv (dropRegions t.lbuf (s.bindingsOf t) obj) (some (wordAt s h))
  rw [hi] at hd
  rw [show (s.acquire t obj).soloDone (some (wordAt s h)) = _ from hd]
  show Host.Outcome.next ((s.endSvc (.queue t.id.sid)).put _) = _
  rw [strand_sid ht]
  rfl

theorem relIncrements {s : State} {sid : Nat} {t : Strand} {e : Entry} {rest : List Entry} {sd sa : SReg} {h : Nat} (hm : s.memOk)
    (ht : s.strand sid = some t) (hv : t.viq = e :: rest) (hi : e.i = .rel sd sa) (hready : s.relReady t = true)
    (hiss : s.issues (dieOf t.id.pclus) = true) (hs : SyncAt s t.qctx (e.ops.getD 0 0) .both h) :
    ∃ s' t', exec (.relIncrement sid) s = .next s' ∧ s'.strand sid = some t' ∧ SameOthers s s' sid
      ∧ wordAt s' h = wordAt s h + 1 ∧ (∀ a, a < h ∨ h + 8 ≤ a → Memory.get s'.mem a = Memory.get s.mem a)
      ∧ (∀ l, s'.lineState l = s.lineState l)
      ∧ s' = { s with strands := s'.strands, svcs := s'.svcs, mem := s'.mem, lines := s'.lines }
      ∧ t' = { firstDone t rest [(sd, wordAt s h + 1)] with lbuf := t'.lbuf }
      ∧ ∀ b ∈ t'.lbuf, b ∈ t.lbuf ∧ b.home ≠ lineOf h := by
  obtain ⟨l, -, hraise⟩ := State.relRaise_read hs
  obtain ⟨en, hmap, hserved, -⟩ := hs
  have hsid := strand_sid ht
  have hw := State.writeHome_frame s h (wordBytes 8 (wordAt s h + 1))
  have hd := Strand.soloDone_lbuf hv (dropLines t.lbuf (e.ops.getD 0 0) (lineOf h)) (some (wordAt s h + 1))
  rw [hi] at hd
  have hput := put_replaces (s := s) (z := (s.writeHome h (wordBytes 8 (wordAt s h + 1))).endSvc (.queue t.id.sid)) (t := t)
    (u := { firstDone t rest [(sd, wordAt s h + 1)] with lbuf := dropLines t.lbuf (e.ops.getD 0 0) (lineOf h) }) (hsid.symm ▸ ht)
    (by rw [hw]; rfl) rfl
  rw [hsid] at hput
  refine ⟨((s.writeHome h (wordBytes 8 (wordAt s h + 1))).endSvc (.queue sid)).put
      { firstDone t rest [(sd, wordAt s h + 1)] with lbuf := dropLines t.lbuf (e.ops.getD 0 0) (lineOf h) }, _, ?_, hput.1, hput.2,
    wordAt_writeHome hm h _, fun a ha => get_writeHome_apart s _ ha, State.writeHome_lineState_served hserved _, ?_, rfl,
    fun b hb => mem_dropLines hb⟩
  · show execRelIncrement sid s = _
    unfold execRelIncrement
    rw [ht]
    dsimp only
    rw [hready, hiss, hv]
    dsimp only [List.head?, Option.map, Option.getD]
    rw [if_pos (by decide), hraise, State.soloEnd]
    rw [show ({ t with lbuf := dropLines t.lbuf (e.ops.getD 0 0) (lineOf h) } : Strand).soloDone (some (wordAt s h + 1)) = _ from hd]
    show Host.Outcome.next ((State.endSvc _ (.queue t.id.sid)).put _) = _
    rw [hsid]
    rfl
  · rw [hw]
    rfl

/-! ## Bindings -/

/-- An aligned region that meets none of another object and is not bound yet is added. -/
theorem addBinding_new {old : List Binding} {b : Binding} (hb : b.base.toNat % 128 = 0) (hl : b.len.toNat % 128 = 0) (h0 : b.len ≠ 0)
    (hapart : ∀ x ∈ old, x.obj ≠ b.obj → x.base.toNat + x.len.toNat ≤ b.base.toNat ∨ b.base.toNat + b.len.toNat ≤ x.base.toNat)
    (hnew : ∀ x ∈ old, (x.base, x.len, x.obj) ≠ (b.base, b.len, b.obj)) (hroom : old.length < Config.maxBindings) :
    addBinding old b = .ok (old ++ [b]) := by
  have h1 : regionOk b.base b.len = true := by
    unfold regionOk
    simpa [hb, hl] using h0
  have h2 : old.any (fun x => x.obj != b.obj && regionsMeet x.base x.len b.base b.len) = false := by
    rw [List.any_eq_false]
    intro x hx
    simp only [Bool.and_eq_true, bne_iff_ne, ne_eq, not_and, Bool.not_eq_true]
    intro ho
    have := hapart x hx ho
    unfold regionsMeet rangesMeet
    simp
    omega
  have h3 : old.any (fun x => x.base == b.base && x.len == b.len && x.obj == b.obj) = false := by
    rw [List.any_eq_false]
    intro x hx
    have := hnew x hx
    simp only [Bool.and_eq_true, beq_iff_eq]
    rintro ⟨⟨k1, k2⟩, k3⟩
    exact this (by rw [k1, k2, k3])
  unfold addBinding
  dsimp only
  rw [h1, h2, h3, if_neg (by decide), if_neg Bool.false_ne_true, if_neg Bool.false_ne_true, if_neg (Nat.not_le.2 hroom)]

theorem removeBinding_first {pre post : List Binding} {b : Binding} {base : Word} (hb : b.base = base) (h : ∀ x ∈ pre, x.base ≠ base) :
    removeBinding (pre ++ b :: post) base = some (pre ++ post) := by
  induction pre with
  | nil => rw [List.nil_append, removeBinding, if_pos hb]; rfl
  | cons x pre ih =>
    rw [List.cons_append, removeBinding, if_neg (h x (by simp)), ih fun y hy => h y (by simp [hy])]
    rfl

theorem State.checkObject_mapped {s : State} {c : Ctx} {obj : Word} {e : TlbEntry} (hm : Mapped s c obj 8 .read e)
    (hh : pteAttr e.pte ≠ attrHost) (hf : pteAttr e.pte ≠ attrFlash) : s.checkObject c obj = .ok () s := by
  have hk : attrCause (pteAttr e.pte) .sync = none := by
    unfold attrCause
    dsimp only
    rw [if_neg]
    exact fun k => k.elim hf hh
  rw [State.checkObject, State.requested_mapped hm hm.aligned, Res.bind, hk]

theorem syncObjectResults : SyncObjectResults := by
  refine ⟨fun s t sd sa sb h hr hidle hs => ?_, ?_, fun s t sd sa hr hidle => ?_, ?_, ?_, ?_⟩
  · dsimp only
    rw [acqResults hr hidle hs]
    refine ⟨fun hd => by rw [if_pos hd], fun h0 hd => ?_⟩
    rw [if_neg]
    rintro (k | k)
    · exact h0 k
    · omega
  · exact fun s sid t e rest sd sa sb obj target h ht hfront hw hv hi hs hreach => exec_acqSatisfied ht hfront hw hv hi hs hreach
  · rw [exec_solo_acts (i := .rel sd sa) (ops := [sa]) (dst := [sd]) rfl (by rintro (⟨a, h | h | h⟩ | ⟨a, h⟩) <;> cases h) hr hidle]
    rfl
  · exact fun s sid t e rest sd sa h hm ht hv hi hready hiss hs => relIncrements hm ht hv hi hready hiss hs
  · intro s t sd sa sb scope e hr hidle hm hh hf
    dsimp only
    intro hb hl h0 hapart hnew hroom
    rw [exec_solo_acts (i := .syncBind sd sa sb scope) (ops := [sd, sa, sb]) (dst := []) rfl
      (by rintro (⟨a, h | h | h⟩ | ⟨a, h⟩) <;> cases h) hr hidle]
    show Host.Outcome.next (s.settleSolo (entered t (.syncBind sd sa sb scope) [sd, sa, sb]) 0 0 (s.checkObject t.qctx (t.getS sd)) _) = _
    rw [State.checkObject_mapped hm hh hf]
    show Host.Outcome.next (match addBinding (s.bindingsOf t) ⟨t.getS sa, t.getS sb, t.getS sd, scope⟩ with
      | .error c => _
      | .ok bs => _) = _
    have hadd := addBinding_new (b := ⟨t.getS sa, t.getS sb, t.getS sd, scope⟩) hb hl h0 hapart hnew hroom
    rw [hadd]
    dsimp only
    rw [State.soloEnd, Strand.soloDone_entered hidle]
    rfl
  · intro s t sa pre post b hr hidle hbs hb hpre
    rw [exec_solo_acts (i := .syncUnbind sa) (ops := [sa]) (dst := []) rfl (by rintro (⟨a, h | h | h⟩ | ⟨a, h⟩) <;> cases h) hr hidle]
    show Host.Outcome.next (s.unbind (entered t (.syncUnbind sa) [sa]) (t.getS sa)) = _
    rw [State.unbind, show s.bindingsOf (entered t (.syncUnbind sa) [sa]) = _ from hbs, removeBinding_first hb hpre]
    dsimp only
    rw [State.soloEnd, Strand.soloDone_entered hidle]
    rfl

end Sys2Proof.Machine
end

section
/-!
SUPPORT. `vwait`: the words it reads, what is unmet, the mask and the acquires of its end.
-/

namespace Sys2Proof.Machine

/-! ## Words read one after the other -/

section
variable {s : State} {c : Ctx} {h : Nat → Nat}

theorem State.readWords_served {ws : List (Nat × Word × Word)} (hs : ∀ w ∈ ws, SyncAt s c w.2.1 .read (h w.1)) (acc : List (Nat × Word)) :
    s.readWords c ws acc = (.ok (), .ok (acc.reverse ++ ws.map fun w => (w.1, wordAt s (h w.1))) s) := by
  induction ws generalizing acc with
  | nil => rw [State.readWords, List.map_nil, List.append_nil]
  | cons w ws ih =>
    obtain ⟨n, va, target⟩ := w
    obtain ⟨l, -, hread⟩ := State.readSync_at (hs (n, va, target) (by simp))
    rw [State.readWords, hread]
    dsimp only
    rw [ih fun w hw => hs w (by simp [hw])]
    simp

/-- Whether a word has reached its target, by the values read. -/
theorem any_read {ws : List (Nat × Word × Word)} {w : Nat × Word × Word} (hw : w ∈ ws) (f : Nat → Word) (q : Word → Bool) :
    ((ws.map fun w => (w.1, f w.1)).any fun v => v.1 == w.1 && q v.2) = q (f w.1) := by
  rw [Bool.eq_iff_iff, List.any_eq_true]
  constructor
  · rintro ⟨v, hv, hq⟩
    obtain ⟨x, -, rfl⟩ := List.mem_map.1 hv
    obtain ⟨he, hq⟩ := Bool.and_eq_true_iff.1 hq
    rw [← eq_of_beq he]
    exact hq
  · intro hq
    exact ⟨(w.1, f w.1), List.mem_map.2 ⟨w, hw, rfl⟩, by simp [hq]⟩

end

/-- The elements whose words have not reached their targets. -/
def unreached (s : State) (h : Nat → Nat) (ws : List (Nat × Word × Word)) : List Nat :=
  (ws.filter fun w => 2 ^ 63 ≤ (wordAt s (h w.1) - w.2.2).toNat).map Prod.fst

theorem not_decide_lt (a b : Nat) : (!decide (a < b)) = decide (b ≤ a) := by
  rw [← decide_not]
  exact decide_eq_decide.2 Nat.not_lt

theorem unmet_read (s : State) (h : Nat → Nat) (ws : List (Nat × Word × Word)) :
    unmet ws (ws.map fun w => (w.1, wordAt s (h w.1))) = unreached s h ws := by
  unfold unmet unreached
  refine congrArg (List.map Prod.fst) (List.filter_congr fun w hw => ?_)
  rw [any_read hw (fun n => wordAt s (h n)) (fun v => reached v w.2.2), reached]
  exact not_decide_lt _ _

/-! ## The mask and the acquires of the end -/

/-- VLMAX is at most the bits of a mask register. -/
theorem vlmaxOf_le {q : Nat} {vt : BitVec 12} (hv : vtypeOk vt = true) (hq : 1 ≤ q ∧ q ≤ 4) : vlmaxOf q vt ≤ 262144 := by
  simp only [vtypeOk, Bool.and_eq_true, decide_eq_true_eq] at hv
  unfold vlmaxOf grpOf ewOf
  obtain ⟨h1, h2⟩ := hv
  generalize fieldNat vt 3 3 = a at h1
  generalize fieldNat vt 0 3 = b at h2
  obtain ⟨q1, q2⟩ := hq
  interval_cases a <;> interval_cases b <;> interval_cases q <;> decide

theorem maskBit_foldl (k : Vector KBits 8) (kd r : KReg) (b : Nat → Bool) {vl n : Nat} (hvl : vl ≤ 262144) (hn : n < 262144) :
    maskBit ((List.range vl).foldl (fun k e => maskSet k kd e (b e)) k) r n = if r = kd ∧ kd ≠ 0 ∧ n < vl then b n else maskBit k r n := by
  induction vl with
  | zero => simp
  | succ vl ih =>
    rw [List.range_succ, List.foldl_append, List.foldl_cons, List.foldl_nil, maskBit_maskSet _ _ _ _ _ _ (by omega) hn, ih (by omega)]
    by_cases hr : r = kd ∧ kd ≠ 0
    · by_cases he : n = vl
      · rw [if_pos ⟨hr.1, hr.2, he⟩, if_pos ⟨hr.1, hr.2, by omega⟩, he]
      · rw [if_neg fun h => he h.2.2]
        exact if_congr (by
          have h0 : kd ≠ 0 := hr.2
          simp only [hr.1, h0, ne_eq, not_false_eq_true, true_and]
          omega) rfl rfl
    · rw [if_neg fun h => hr ⟨h.1, h.2.1⟩, if_neg fun h => hr ⟨h.1, h.2.1⟩, if_neg fun h => hr ⟨h.1, h.2.1⟩]

/-- The mask register of a `vwait` that ends: the unmet elements below `vl`, then the tail. -/
def Strand.unmetMask (t : Strand) (kd : KReg) (vl : Nat) (vt : BitVec 12) (left : List Nat) : Strand :=
  { t with k := (List.range vl).foldl (fun k e => maskSet k kd e (left.contains e)) t.k }.tail vt (.mask kd) vl (vlmaxOf t.q vt)

theorem Strand.raise_zero (t : Strand) (e : Nat) : t.raise e 0 = t := by
  rw [Strand.raise, if_pos rfl]

theorem Strand.tail_mask (t : Strand) (vt : BitVec 12) (kd : KReg) (lo hi : Nat) :
    t.tail vt (.mask kd) lo hi = { t with k := (t.tail vt (.mask kd) lo hi).k } := by
  unfold Strand.tail
  split
  · generalize List.range (hi - lo) = l
    induction l generalizing t with
    | nil => rfl
    | cons i l ih => rw [List.foldl_cons, ih]; rfl
  · rfl

theorem Strand.unmetMask_frame (t : Strand) (kd : KReg) (vl : Nat) (vt : BitVec 12) (left : List Nat) :
    t.unmetMask kd vl vt left = { t with k := (t.unmetMask kd vl vt left).k } := by
  unfold Strand.unmetMask
  rw [Strand.tail_mask]

theorem maskBit_unmetMask {t : Strand} {vt : BitVec 12} (hv : vtypeOk vt = true) (hq : 1 ≤ t.q ∧ t.q ≤ 4) {vl : Nat}
    (hvl : vl ≤ vlmaxOf t.q vt) (kd : KReg) (left : List Nat) :
    (∀ n < vlmaxOf t.q vt, maskBit (t.unmetMask kd vl vt left).k kd n = if kd = 0 then true else if n < vl then left.contains n
      else if tuOf vt then false else maskBit t.k kd n)
    ∧ ∀ r, r ≠ kd → ∀ n < 262144, maskBit (t.unmetMask kd vl vt left).k r n = maskBit t.k r n := by
  have hmax := vlmaxOf_le hv hq
  unfold Strand.unmetMask
  rw [tail_fold]
  obtain ⟨-, hbits, hothers, -⟩ := mask_fold (kd := kd)
    ({ t with k := (List.range vl).foldl (fun k e => maskSet k kd e (left.contains e)) t.k } : Strand) vl (vlmaxOf t.q vt - vl) (by omega)
    (fun _ _ => (if tuOf vt then Put.zero else Put.keep, 0)) (fun _ => (if tuOf vt then Put.zero else Put.keep, 0)) (fun _ _ _ _ _ _ => rfl)
  refine ⟨fun n hn => ?_, fun r hr n hn => ?_⟩
  · by_cases hk : kd = 0
    · rw [if_pos hk, maskBit, if_pos hk]
    · rw [if_neg hk, hbits hk n (by omega), maskBit_foldl _ _ _ _ (by omega) (by omega)]
      by_cases hl : n < vl
      · rw [if_neg (by omega), if_pos ⟨rfl, hk, hl⟩, if_pos hl]
      · rw [if_pos (by omega), if_neg (c := kd = kd ∧ kd ≠ 0 ∧ n < vl) (fun h => hl h.2.2), if_neg hl]
        cases tuOf vt <;> rfl
  · rw [hothers r (.inl hr) n hn, maskBit_foldl _ _ _ _ (by omega) hn, if_neg fun h => hr h.1]

/-- The lines of the regions of the words that were met are dropped. -/
theorem State.acquires_frame (s : State) (ws : List (Nat × Word × Word)) (t : Strand) : ws.foldl (fun u w => s.acquire u w.2.1) t
    = { t with lbuf := ws.foldl (fun l w => dropRegions l (s.bindingsOf t) w.2.1) t.lbuf } := by
  induction ws generalizing t with
  | nil => rfl
  | cons w ws ih =>
    rw [List.foldl_cons, ih]
    rfl

/-- A `vwait` that ends. -/
theorem State.vwaitEnd_eq (s : State) {t : Strand} {a : Vwait} {e : Entry} {rest : List Entry} (hv : t.viq = e :: rest)
    (hi : e.i = .vwait a) (vl : Nat) (vt : BitVec 12) (ws : List (Nat × Word × Word)) (left : List Nat) :
    s.vwaitEnd t a vl vt ws left = { firstDone t rest [(a.sd, if left = [] then 0 else 1)] with
      k := (t.unmetMask a.kd vl vt left).k
      lbuf := (ws.filter fun w => !left.contains w.1).foldl (fun l w => dropRegions l (s.bindingsOf t) w.2.1) t.lbuf } := by
  have hx : (if left.isEmpty then (0 : Word) else 1) = if left = [] then 0 else 1 := if_congr List.isEmpty_iff rfl rfl
  show ((ws.filter fun w => !left.contains w.1).foldl (fun u w => s.acquire u w.2.1) (t.unmetMask a.kd vl vt left)).soloDone _ = _
  rw [hx, State.acquires_frame, Strand.unmetMask_frame]
  refine (Strand.soloDone_first (e := e) (rest := rest) (by exact hv) _).trans ?_
  rw [hi]
  rfl

/-- The test of words that answer. -/
theorem State.vwaitTest_read {s : State} {t : Strand} {h : Nat → Nat} {ws : List (Nat × Word × Word)}
    (hs : ∀ w ∈ ws, SyncAt s t.qctx w.2.1 .read (h w.1)) (a : Vwait) (vl : Nat) (vt : BitVec 12) (beats : Nat) :
    s.vwaitTest t a vl vt ws beats = if unreached s h ws = [] ∨ beats = 0
      then (s.endSvc (.queue t.id.sid)).put ((s.endSvc (.queue t.id.sid)).vwaitEnd t a vl vt ws (unreached s h ws))
      else (s.endSvc (.queue t.id.sid)).put { t with wait := .flags ws beats, held := none } := by
  unfold State.vwaitTest
  rw [State.readWords_served hs]
  dsimp only [State.settleSolo]
  rw [List.reverse_nil, List.nil_append, unmet_read]
  generalize unreached s h ws = left
  exact if_congr (or_congr List.isEmpty_iff Iff.rfl) rfl rfl

/-! ## vwait at its place -/

/-- What the end of a `vwait` leaves of the strand. -/
theorem State.vwaitEnd_ended {s : State} {t u : Strand} {a : Vwait} {vt : BitVec 12} {vl : Nat} (hq : 1 ≤ t.q ∧ t.q ≤ 4)
    (hv : vtypeOk vt = true) (hvl : vl ≤ vlmaxOf t.q vt) (ws : List (Nat × Word × Word)) (left : List Nat)
    {u' : Strand} (hu : u' = { u with
      rq := u.rq ++ [(a.sd, if left = [] then 0 else 1)]
      k := (t.unmetMask a.kd vl vt left).k
      lbuf := (ws.filter fun w => !left.contains w.1).foldl (fun l w => dropRegions l (s.bindingsOf t) w.2.1) t.lbuf }) :
    u' = { u with lbuf := u'.lbuf, k := u'.k, rq := u.rq ++ [(a.sd, if left = [] then 0 else 1)] }
    ∧ u'.lbuf = (ws.filter fun w => !left.contains w.1).foldl (fun l w => dropRegions l (s.bindingsOf t) w.2.1) t.lbuf
    ∧ (∀ n < vlmaxOf t.q vt, maskBit u'.k a.kd n = if a.kd = 0 then true else if n < vl then left.contains n
      else if tuOf vt then false else maskBit t.k a.kd n)
    ∧ ∀ r, r ≠ a.kd → ∀ n < 262144, maskBit u'.k r n = maskBit t.k r n := by
  obtain ⟨h1, h2⟩ := maskBit_unmetMask hv hq hvl a.kd left
  rw [hu]
  exact ⟨rfl, rfl, h1, h2⟩

theorem firstDone_append (t : Strand) (rest : List Entry) (out : List (SReg × Word)) :
    firstDone t rest out = { firstDone t rest [] with rq := (firstDone t rest []).rq ++ out } := by
  have h : t.rq ++ out = t.rq ++ [] ++ out := by rw [List.append_nil]
  unfold firstDone
  rw [h]

/-- The strand as `vwaitEnd` leaves it, as the statement lists it. -/
theorem State.vwaitEnd_first (s : State) {t : Strand} {a : Vwait} {e : Entry} {rest : List Entry} (hv : t.viq = e :: rest)
    (hi : e.i = .vwait a) {vt : BitVec 12} {vl : Nat} (hq : 1 ≤ t.q ∧ t.q ≤ 4) (hvt : vtypeOk vt = true) (hvl : vl ≤ vlmaxOf t.q vt)
    (ws : List (Nat × Word × Word)) (left : List Nat) :
    let u := firstDone t rest []
    let u' := s.vwaitEnd t a vl vt ws left
    u' = { u with lbuf := u'.lbuf, k := u'.k, rq := u.rq ++ [(a.sd, if left = [] then 0 else 1)] }
    ∧ u'.lbuf = (ws.filter fun w => !left.contains w.1).foldl (fun l w => dropRegions l (s.bindingsOf u) w.2.1) u.lbuf
    ∧ (∀ n < vlmaxOf u.q vt, maskBit u'.k a.kd n = if a.kd = 0 then true else if n < vl then left.contains n
      else if tuOf vt then false else maskBit u.k a.kd n)
    ∧ ∀ r, r ≠ a.kd → ∀ n < 262144, maskBit u'.k r n = maskBit u.k r n := by
  refine State.vwaitEnd_ended (t := t) (u := firstDone t rest []) hq hvt hvl ws left ?_
  rw [State.vwaitEnd_eq s hv hi, firstDone_append]

/-! ## The instruction and its events -/

section
variable {s : State} {t : Strand} {a : Vwait} {h : Nat → Nat}

/-- Its checks pass where its sources are placed and hold indices. -/
theorem vwaitStart_checked {ta tb : Tag} (ha : SourceGroup t t.vtype a.va 64 ta) (hb : SourceGroup t t.vtype a.vb 64 tb)
    (hta : ta = .raw ∨ ta.isInt = true) (htb : tb = .raw ∨ tb.isInt = true) :
    s.vwaitStart (entered t (.vwait a) [a.sb]) (t.entryOf (.vwait a) true [a.sb]) a
      = if t.vl = 0 then s.put ((entered t (.vwait a) [a.sb]).soloDone (some 0))
        else s.vwaitTest (entered t (.vwait a) [a.sb]) a t.vl t.vtype (watched t a) (t.getS a.sb).toNat := by
  let x : Px := (t.entryOf (.vwait a) true [a.sb]).px (entered t (.vwait a) [a.sb]) s ⟨t.v, t.k⟩ t.vl true none false
  have hg : x.groups none [(a.va, 64), (a.vb, 64)] = .ok () := Px.groups_sources fun o ho => by
    simp only [List.mem_cons, List.not_mem_nil, or_false] at ho
    rcases ho with rfl | rfl
    · exact ha.placed
    · exact hb.placed
  have hxa : x.tag a.va 64 = .ok ta := Px.tag_source (t := t) ha rfl
  have hxb : x.tag a.vb 64 = .ok tb := Px.tag_source (t := t) hb rfl
  have hn : needTag (indexOk ta 64 && indexOk tb 64) = .ok () := by
    rw [indexOk_of hta ha.width, indexOk_of htb hb.width]
    rfl
  have hchecks : (do
      x.groups none [(a.va, 64), (a.vb, 64)]
      let u ← x.tag a.va 64
      let v ← x.tag a.vb 64
      needTag (indexOk u 64 && indexOk v 64) : Except Cause Unit) = .ok () := by
    rw [hg, hxa, hxb]
    exact hn
  unfold State.vwaitStart
  show (match (do
      x.groups none [(a.va, 64), (a.vb, 64)]
      let u ← x.tag a.va 64
      let v ← x.tag a.vb 64
      needTag (indexOk u 64 && indexOk v 64) : Except Cause Unit) with
    | .error c => _
    | .ok _ => _) = _
  rw [hchecks]
  rfl

theorem exec_vwait {ta tb : Tag} (hr : Ready s t [a.sb, a.sd]) (hidle : t.idle) (ha : SourceGroup t t.vtype a.va 64 ta)
    (hb : SourceGroup t t.vtype a.vb 64 tb) (hta : ta = .raw ∨ ta.isInt = true) (htb : tb = .raw ∨ tb.isInt = true) :
    exec (.vwait a) s = .next (if t.vl = 0 then s.put ((entered t (.vwait a) [a.sb]).soloDone (some 0))
        else s.vwaitTest (entered t (.vwait a) [a.sb]) a t.vl t.vtype (watched t a) (t.getS a.sb).toNat) := by
  rw [exec_solo_acts (i := .vwait a) (ops := [a.sb]) (dst := [a.sd]) rfl (by rintro (⟨a, h | h | h⟩ | ⟨a, h⟩) <;> cases h) hr hidle]
  exact congrArg Host.Outcome.next (vwaitStart_checked ha hb hta htb)

/-- A first word that cannot be reached stops the instruction with nothing done. -/
theorem State.vwaitTest_noncanonical {w : Nat × Word × Word} {more : List (Nat × Word × Word)} (hc : canonicalAll w.2.1 8 = false)
    (vl : Nat) (vt : BitVec 12) (beats : Nat) :
    s.vwaitTest t a vl vt (w :: more) beats = s.put (t.soloFault .addr w.2.1 0 w.1 0) := by
  obtain ⟨n, va, target⟩ := w
  have hread : s.readSync t.qctx va .read = .flt .addr va 0 s := by
    rw [State.readSync, State.resolve, State.requested_noncanonical hc]
    rfl
  unfold State.vwaitTest
  rw [State.readWords, hread]
  rfl

end

section
variable {s : State} {sid : Nat} {t : Strand} {e : Entry} {rest : List Entry} {a : Vwait} {ws : List (Nat × Word × Word)} {beats : Nat}

theorem Strand.vwaiting_flags (hw : t.wait = .flags ws beats) (hv : t.viq = e :: rest) (hi : e.i = .vwait a) :
    t.vwaiting = some (a, e, ws, beats) := by
  unfold Strand.vwaiting
  rw [hw, hv]
  dsimp only
  rw [hi]

variable (ht : s.strand sid = some t) (hfront : s.frontReady t = true) (hw : t.wait = .flags ws beats) (hv : t.viq = e :: rest)
  (hi : e.i = .vwait a)
include ht hfront hw hv hi

theorem exec_vwaitMet {h : Nat → Nat} (hs : ∀ w ∈ ws, SyncAt s t.qctx w.2.1 .read (h w.1)) :
    exec (.vwaitMet sid) s = .next (if unreached s h ws = [] then s.vwaitTest t a e.vl e.vtype ws (beats + 1)
      else s.put { t with held := none }) := by
  show execVwaitMet sid s = _
  unfold execVwaitMet
  rw [ht]
  dsimp only
  rw [hfront, if_neg (by decide), Strand.vwaiting_flags hw hv hi]
  dsimp only
  rw [State.readWords_served hs]
  dsimp only
  rw [List.reverse_nil, List.nil_append, unmet_read]
  generalize unreached s h ws = left
  exact congrArg Host.Outcome.next (if_congr List.isEmpty_iff rfl rfl)

theorem exec_vwaitTimeout (h0 : beats = 0) : exec (.vwaitTimeout sid) s = .next (s.vwaitTest t a e.vl e.vtype ws 0) := by
  show execVwaitTimeout sid s = _
  unfold execVwaitTimeout
  rw [ht]
  dsimp only
  rw [hfront, if_neg (by decide), Strand.vwaiting_flags hw hv hi, h0]
  rfl

end

theorem vectorWaitResults : VectorWaitResults := by
  refine ⟨fun s t a ta tb h hr hidle hvt hq hvl ha hb hta htb => ?_, fun s sid t e rest a ws beats h ht hfront hw hv hi hvt hq hvl hs _ => ?_⟩
  · dsimp only
    rw [exec_vwait hr hidle ha hb hta htb]
    have hviq : (entered t (.vwait a) [a.sb]).viq = [t.entryOf (.vwait a) true [a.sb]] := by
      show t.viq ++ _ = _
      rw [hidle.1]
      rfl
    refine ⟨fun h0 => ?_, fun w more hl hws hc => ?_, fun hl hs => ⟨fun (hend : unreached s h (watched t a) = [] ∨ t.getS a.sb = 0) => ?_,
      fun (hleft : unreached s h (watched t a) ≠ []) hsb => ?_⟩⟩
    · rw [if_pos h0, Strand.soloDone_entered hidle]
      rfl
    · rw [if_neg (by omega), hws, State.vwaitTest_noncanonical hc, Strand.soloFault_entered hidle]
    · rw [if_neg (by omega), State.vwaitTest_read (h := h) (t := entered t (.vwait a) [a.sb]) hs,
        if_pos (hend.imp_right fun k => (congrArg BitVec.toNat k :) : unreached s h (watched t a) = [] ∨ (t.getS a.sb).toNat = 0)]
      refine ⟨_, rfl, ?_⟩
      have hlast := State.vwaitEnd_first (s.endSvc (.queue t.id.sid)) (t := entered t (.vwait a) [a.sb]) hviq rfl hq hvt hvl
        (watched t a) (unreached s h (watched t a))
      have hfin : firstDone (entered t (.vwait a) [a.sb]) [] [] = finished t [] := rfl
      rw [hfin] at hlast
      exact hlast
    · rw [if_neg (by omega), State.vwaitTest_read (h := h) (t := entered t (.vwait a) [a.sb]) hs,
        if_neg (not_or.2 ⟨hleft, fun k : (t.getS a.sb).toNat = 0 => hsb (BitVec.eq_of_toNat_eq k)⟩)]
      rfl
  · dsimp only
    have hsid := strand_sid ht
    refine ⟨fun (hleft : unreached s h ws = []) => ?_, fun (hleft : unreached s h ws ≠ []) => ?_, fun h0 => ?_⟩
    · rw [exec_vwaitMet ht hfront hw hv hi hs, if_pos hleft, State.vwaitTest_read hs, hleft, if_pos (.inl rfl), hsid]
      exact ⟨_, rfl, State.vwaitEnd_first (s.endSvc (.queue sid)) hv hi hq hvt hvl ws []⟩
    · rw [exec_vwaitMet ht hfront hw hv hi hs, if_neg hleft]
    · rw [exec_vwaitTimeout ht hfront hw hv hi h0, State.vwaitTest_read hs, if_pos (.inr rfl), hsid]
      exact ⟨_, rfl, State.vwaitEnd_first (s.endSvc (.queue sid)) hv hi hq hvt hvl ws (unreached s h ws)⟩

end Sys2Proof.Machine

open Sys2Proof Sys2Proof.Machine

/-- Settles O46: each instruction through what its sync words read, the ends of waits through the same test. -/
theorem syncObjectsAndFlags : Obligations.SyncObjectsAndFlags := by
  unfold Obligations.SyncObjectsAndFlags
  exact ⟨syncObjectResults, vectorWaitResults⟩

end

section
/-!
SUPPORT. Accumulation windows: what clearing and merging leave in the stores of the lanes and in memory; copies.
-/

namespace Sys2Proof.Machine

/-! ## Bits of the lanes' stores cleared -/

/-- The store of a lane. -/
def storeAt (l : Vector (BitVec 8192) 256) (lane : Nat) : BitVec 8192 := l[lane % 256]'(Nat.mod_lt _ (by decide))

theorem laneGet_eq (l : Vector (BitVec 8192) 256) (lane off w : Nat) : laneGet l lane off w = ((storeAt l lane).extractLsb' off w).toNat := rfl

/-- The bits from `lo` on, `n` of them, are clear in every lane, the others as before. -/
def LanesCleared (l l' : Vector (BitVec 8192) 256) (lo n : Nat) : Prop :=
  ∀ lane < 256, ∀ i < 8192, (storeAt l' lane).getLsbD i = if lo ≤ i ∧ i < lo + n then false else (storeAt l lane).getLsbD i

theorem LanesCleared.nothing (l : Vector (BitVec 8192) 256) (lo : Nat) : LanesCleared l l lo 0 := fun lane _ i _ => by
  rw [if_neg (by omega)]

/-- What is cleared next to what has been cleared. -/
theorem LanesCleared.next {l l1 l2 : Vector (BitVec 8192) 256} {lo n m : Nat} (h1 : LanesCleared l l1 lo n)
    (h2 : LanesCleared l1 l2 (lo + n) m) : LanesCleared l l2 lo (n + m) := fun lane hl i hi => by
  rw [h2 lane hl i hi, h1 lane hl i hi]
  by_cases ha : lo ≤ i ∧ i < lo + n
  · rw [if_pos ha, ite_self, if_pos (by omega)]
  · rw [if_neg ha]
    exact if_congr (by omega) rfl rfl

/-- A field apart from the cleared bits is as before. -/
theorem LanesCleared.apart {l l' : Vector (BitVec 8192) 256} {lo n : Nat} (h : LanesCleared l l' lo n) {lane : Nat} (hl : lane < 256)
    {off w : Nat} (ha : off + w ≤ lo ∨ lo + n ≤ off) : laneGet l' lane off w = laneGet l lane off w := by
  rw [laneGet_eq, laneGet_eq]
  congr 1
  apply BitVec.eq_of_getLsbD_eq
  intro i hi
  rw [BitVec.getLsbD_extractLsb', BitVec.getLsbD_extractLsb']
  congr 1
  by_cases hx : off + i < 8192
  · rw [h lane hl _ hx, if_neg (by omega)]
  · rw [BitVec.getLsbD_of_ge _ _ (by omega), BitVec.getLsbD_of_ge _ _ (by omega)]

/-- A field within the cleared bits is 0. -/
theorem LanesCleared.within {l l' : Vector (BitVec 8192) 256} {lo n : Nat} (h : LanesCleared l l' lo n) {lane : Nat} (hl : lane < 256)
    {off w : Nat} (h1 : lo ≤ off) (h2 : off + w ≤ lo + n) (h3 : off + w ≤ 8192) : laneGet l' lane off w = 0 := by
  rw [laneGet_eq]
  have hz : (storeAt l' lane).extractLsb' off w = 0 := by
    apply BitVec.eq_of_getLsbD_eq
    intro i hi
    rw [BitVec.getLsbD_extractLsb', h lane hl _ (by omega), if_pos (by omega)]
    simp
  rw [hz]
  rfl

/-- The bytes of a store of which whole bytes are cleared. -/
theorem LanesCleared.bytes {l l' : Vector (BitVec 8192) 256} {lo n : Nat} (h : LanesCleared l l' (8 * lo) (8 * n)) :
    ∀ lane < 256, ∀ b < 1024, laneGet l' lane (8 * b) 8 = if lo ≤ b ∧ b < lo + n then 0 else laneGet l lane (8 * b) 8 := by
  intro lane hl b hb
  by_cases hc : lo ≤ b ∧ b < lo + n
  · rw [if_pos hc, h.within hl (by omega) (by omega) (by omega)]
  · rw [if_neg hc, h.apart hl (by omega)]

theorem lanesCleared_clearLanes (l : Vector (BitVec 8192) 256) (off n : Nat) : LanesCleared l (clearLanes l off n) (8 * off) (8 * n) := by
  intro lane hl i hi
  unfold storeAt clearLanes
  rw [Vector.getElem_map, getLsbD_setSlice _ _ _ _ hi]
  exact if_congr Iff.rfl (by simp) rfl

theorem storeAt_laneSet (l : Vector (BitVec 8192) 256) {i lane : Nat} (hi : i < 256) (hl : lane < 256) (off w x : Nat) :
    storeAt (laneSet l i off w x) lane = if lane = i then setSlice (storeAt l lane) off (BitVec.ofNat w x) else storeAt l lane := by
  unfold storeAt laneSet
  rw [Vector.getElem_set]
  by_cases h : lane = i
  · subst h
    rw [if_pos rfl, if_pos rfl]
  · rw [if_neg (by rw [Nat.mod_eq_of_lt hi, Nat.mod_eq_of_lt hl]; exact fun k => h k.symm), if_neg h]

/-- The lanes below `k` with a word set to 0. -/
theorem storeAt_cleared (l : Vector (BitVec 8192) 256) (off w : Nat) {k : Nat} (hk : k ≤ 256) {lane : Nat} (hl : lane < 256) :
    storeAt ((List.range k).foldl (fun a i => laneSet a i off w 0) l) lane
      = if lane < k then setSlice (storeAt l lane) off (BitVec.ofNat w 0) else storeAt l lane := by
  induction k with
  | zero => rfl
  | succ k ih =>
    rw [List.range_succ, List.foldl_append, List.foldl_cons, List.foldl_nil, storeAt_laneSet _ (by omega) hl, ih (by omega)]
    by_cases h : lane = k
    · rw [if_pos h, if_neg (by omega), if_pos (by omega)]
    · rw [if_neg h]
      exact if_congr (by omega) rfl rfl

theorem lanesCleared_word (l : Vector (BitVec 8192) 256) (off w : Nat) :
    LanesCleared l ((List.range 256).foldl (fun a i => laneSet a i off w 0) l) off w := by
  intro lane hl i hi
  rw [storeAt_cleared l off w (Nat.le_refl 256) hl, if_pos hl, getLsbD_setSlice _ _ _ _ hi]
  exact if_congr Iff.rfl (by simp) rfl

/-! ## The copies of a word -/

/-- The sum of integer copies, modulo 2^EW; it raises no flag. -/
theorem foldCopies_int {ty : Tag} (h : ty.isInt = true) (w m : Nat) (copies : List Nat) (hc : copies ≠ []) :
    (foldCopies ty w m copies).1 = (m + copies.sum) % 2 ^ w ∧ ∀ p ∈ (foldCopies ty w m copies).2, p.2 = 0 := by
  let f (acc : Nat × Nat × List (Nat × Flags)) (c : Nat) : Nat × Nat × List (Nat × Flags) :=
    ((acc.1 + c) % 2 ^ w, acc.2.1 + 1, (acc.2.1, 0) :: acc.2.2)
  have hstep : foldCopies ty w m copies = ((copies.foldl f (m, 0, [])).1, (copies.foldl f (m, 0, [])).2.2) := by
    unfold foldCopies addElem
    rw [h]
    rfl
  have hsum (cs : List Nat) : ∀ acc : Nat × Nat × List (Nat × Flags),
      (cs.foldl f acc).1 % 2 ^ w = (acc.1 + cs.sum) % 2 ^ w ∧ ((∀ p ∈ acc.2.2, p.2 = 0) → ∀ p ∈ (cs.foldl f acc).2.2, p.2 = 0) := by
    induction cs with
    | nil => exact fun acc => ⟨rfl, fun h => h⟩
    | cons c cs ih =>
      intro acc
      obtain ⟨h1, h2⟩ := ih (f acc c)
      refine ⟨?_, fun h => h2 fun p hp => ?_⟩
      · rw [List.foldl_cons, h1, List.sum_cons, ← Nat.add_assoc]
        exact Nat.mod_add_mod _ _ _
      · rcases List.mem_cons.1 hp with rfl | hp
        · rfl
        · exact h p hp
  rw [hstep]
  obtain ⟨h1, h2⟩ := hsum copies (m, 0, [])
  refine ⟨?_, h2 fun p hp => nomatch hp⟩
  rw [← h1]
  refine (Nat.mod_eq_of_lt ?_).symm
  obtain ⟨cs, c, rfl⟩ := List.eq_nil_or_concat copies |>.resolve_left hc
  rw [List.concat_eq_append, List.foldl_append]
  exact Nat.mod_lt _ (Nat.two_pow_pos w)

theorem raise_none (fl : List (Nat × Flags)) (h : ∀ p ∈ fl, p.2 = 0) (t : Strand) : fl.foldl (fun u p => u.raise p.1 p.2) t = t := by
  induction fl generalizing t with
  | nil => rfl
  | cons p fl ih =>
    rw [List.foldl_cons, h p (by simp), Strand.raise_zero]
    exact ih (fun q hq => h q (by simp [hq])) t

/-! ## Accesses after a write -/

theorem Mapped.writeHome {s : State} {c : Ctx} {va : Word} {n : Nat} {need : Need} {e : TlbEntry} (hm : Mapped s c va n need e) (hb : Nat)
    (bs : List Byte) : Mapped (s.writeHome hb bs) c va n need e := by
  have hf := State.writeHome_frame s hb bs
  refine ⟨hm.canon, hm.aligned, ?_, hm.permits, ?_⟩
  · rw [hf]
    exact hm.hit
  · rw [hf]
    exact hm.undenied

/-- A write where its line is plain leaves what other accesses meet. -/
theorem Served.writeHome {s : State} {c : Ctx} {va : Word} {e : TlbEntry} {h : Nat} (hs : Served s c va e h) {hb : Nat}
    (hp : hasLines (homeAttr hb) = true → s.lineState (lineOf hb) = some .plain) (bs : List Byte) :
    Served (s.writeHome hb bs) c va e h := by
  have hline := State.lineState_writeHome hp bs
  have hf := State.writeHome_frame s hb bs
  generalize s.writeHome hb bs = w at hf hline
  obtain ⟨hcalm, hs⟩ := hs
  refine ⟨?_, ?_⟩
  · rw [hf]
    exact hcalm
  · split
    · rename_i hx
      rw [if_pos hx] at hs
      rw [hf]
      exact hs
    · rename_i hx
      rw [if_neg hx] at hs
      refine ⟨hs.1, hs.2.imp_right fun hl => ⟨hl.1, ?_, ?_⟩⟩
      · rw [hline]
        exact hl.2.1
      · rw [hf]
        exact hl.2.2

/-! ## win.merge -/

/-- The words of a window from number `n` on that answer, apart from one another. -/
structure WindowWords (s : State) (c : Ctx) (base : Word) (k n count : Nat) (ent : Nat → TlbEntry) (h : Nat → Nat) : Prop where
  mapped : ∀ i, n ≤ i → i < n + count → Mapped s c (base + BitVec.ofNat 64 (i * k)) k .both (ent i)
  served : ∀ i, n ≤ i → i < n + count → Served s c (base + BitVec.ofNat 64 (i * k)) (ent i) (h i) ∧ pteAttr (ent i).pte ≠ attrHost
  apart : ∀ i j, n ≤ i → i < n + count → n ≤ j → j < n + count → i ≠ j → h i + k ≤ h j ∨ h j + k ≤ h i

theorem WindowWords.later {s : State} {c : Ctx} {base : Word} {k n count : Nat} {ent : Nat → TlbEntry} {h : Nat → Nat}
    (hw : WindowWords s c base k n (count + 1) ent h) (bs : List Byte) :
    WindowWords (s.writeHome (h n) bs) c base k (n + 1) count ent h := by
  have hp := (hw.served n (Nat.le_refl n) (by omega)).1.plain
  exact ⟨fun i h1 h2 => (hw.mapped i (by omega) (by omega)).writeHome _ _,
    fun i h1 h2 => ⟨(hw.served i (by omega) (by omega)).1.writeHome hp bs, (hw.served i (by omega) (by omega)).2⟩,
    fun i j h1 h2 h3 h4 => hw.apart i j (by omega) (by omega) (by omega) (by omega)⟩

/-- What merging the words from number `n` on leaves of a state and of a strand's lanes. -/
structure Merged (s z : State) (l l' : Vector (BitVec 8192) 256) (off k w n count : Nat) (h : Nat → Nat) : Prop where
  package : z = { s with mem := z.mem, lines := z.lines }
  lines : ∀ x, z.lineState x = s.lineState x
  words : ∀ i, n ≤ i → i < n + count → Memory.read z.mem (h i) k
    = (Memory.read s.mem (h i) k + ((List.range 256).map fun lane => laneGet l lane (8 * (off + i * k)) w).sum) % 2 ^ w
  rest : ∀ a, (∀ i, n ≤ i → i < n + count → a < h i ∨ h i + k ≤ a) → Memory.get z.mem a = Memory.get s.mem a
  lanes : LanesCleared l l' (8 * (off + n * k)) (8 * (count * k))

theorem State.resolve_merge {s : State} {c : Ctx} {va : Word} {k h : Nat} {e : TlbEntry} (hm : Mapped s c va k .both e)
    (hs : Served s c va e h) (hh : pteAttr e.pte ≠ attrHost) : ∃ l : Loc, l.home = h
    ∧ ((s.resolve c va k k .both (.amo false)).bind fun l s1 => s1.atHome c va l .both false) = .ok l s := by
  have hk : attrCause (pteAttr e.pte) (.amo false) = none := by
    unfold attrCause
    dsimp only
    rw [if_neg hs.attr, if_neg]
    simp [hh]
  refine ⟨⟨h, va, 0, pteAttr e.pte, some .plain⟩, rfl, ?_⟩
  rw [State.resolve_served hm hm.aligned hs hk, Res.bind, State.atHome_served hs]

theorem State.mergeWords_merged {wd : Window} {w : Nat} (hty : wd.ty.width = some w) (hw : w = 32 ∨ w = 64) (hint : wd.ty.isInt = true)
    {ent : Nat → TlbEntry} {h : Nat → Nat} (count : Nat) : ∀ (n : Nat) (s : State) (t : Strand), s.memOk →
    WindowWords s t.qctx wd.base (w / 8) n count ent h →
    ∃ z lane lb, s.mergeWords wd count n t = z.soloEnd { t with lane := lane, lbuf := lb } none
      ∧ Merged s z t.lane lane wd.off (w / 8) w n count h := by
  induction count with
  | zero =>
    intro n s t _ _
    refine ⟨s, t.lane, t.lbuf, rfl, rfl, fun _ => rfl, fun i h1 h2 => absurd h2 (by omega), fun _ _ => rfl, ?_⟩
    rw [Nat.zero_mul]
    exact LanesCleared.nothing _ _
  | succ count ih =>
    intro n s t hm hwords
    obtain ⟨l, hl, hres⟩ := State.resolve_merge (hwords.mapped n (Nat.le_refl n) (by omega)) (hwords.served n (Nat.le_refl n) (by omega)).1
      (hwords.served n (Nat.le_refl n) (by omega)).2
    have hk8 : 8 * (w / 8) = w := by omega
    have hcopies : (List.range 256).map (fun i => laneGet t.lane i (8 * (wd.off + n * (w / 8))) w) ≠ [] :=
      fun k => absurd (List.range_eq_nil.1 (List.map_eq_nil_iff.1 k)) (by decide)
    obtain ⟨hsum, hflags⟩ := foldCopies_int hint w (Memory.read s.mem (h n) (w / 8)) _ hcopies
    generalize hfc : foldCopies wd.ty w (Memory.read s.mem (h n) (w / 8))
      ((List.range 256).map fun i => laneGet t.lane i (8 * (wd.off + n * (w / 8))) w) = fc at hsum hflags
    obtain ⟨m, fl⟩ := fc
    dsimp only at hsum hflags
    have hmem : (s.writeHome (h n) (leBytes (w / 8) m)).mem = Memory.write s.mem (h n) (w / 8) m := State.writeHome_mem s _ _
    have hone := lanesCleared_word t.lane (8 * (wd.off + n * (w / 8))) w
    generalize hlane : (List.range 256).foldl (fun a i => laneSet a i (8 * (wd.off + n * (w / 8))) w 0) t.lane = lane1 at hone
    obtain ⟨z, lane, lb, hz, hmerged⟩ := ih (n + 1) (s.writeHome (h n) (leBytes (w / 8) m))
      { t with
        lane := lane1
        lbuf := dropLines t.lbuf (wd.base + BitVec.ofNat 64 (n * (w / 8))) (lineOf (h n)) }
      (State.memOk_writeHome hm _ _) (hwords.later _)
    refine ⟨z, lane, lb, ?_, ?_⟩
    · rw [State.mergeWords]
      dsimp only
      rw [hty, Option.getD_some, hres]
      dsimp only
      rw [hl, hfc, hlane]
      dsimp only
      rw [raise_none fl hflags, hz]
    · have hlanes : LanesCleared t.lane lane (8 * (wd.off + n * (w / 8))) (8 * ((count + 1) * (w / 8))) := by
        have hnext := hmerged.lanes
        rw [show 8 * (wd.off + (n + 1) * (w / 8)) = 8 * (wd.off + n * (w / 8)) + w by rw [Nat.add_mul, Nat.one_mul]; omega] at hnext
        rw [show 8 * ((count + 1) * (w / 8)) = w + 8 * (count * (w / 8)) by rw [Nat.add_mul, Nat.one_mul]; omega]
        exact hone.next hnext
      refine ⟨?_, fun x => ?_, fun i h1 h2 => ?_, fun a ha => ?_, hlanes⟩
      · rw [hmerged.package, State.writeHome_frame]
      · rw [hmerged.lines, State.writeHome_lineState_served (hwords.served n (Nat.le_refl n) (by omega)).1]
      · by_cases he : i = n
        · subst he
          have hsame : Memory.read z.mem (h i) (w / 8) = Memory.read (s.writeHome (h i) (leBytes (w / 8) m)).mem (h i) (w / 8) := by
            refine congrArg leNat (Memory.bytes_congr fun b hb => ?_)
            refine hmerged.rest (h i + b) fun j h5 h6 => ?_
            have := hwords.apart i j (Nat.le_refl i) (by omega) (by omega) (by omega) (by omega)
            omega
          rw [hsame, hmem, Memory.read_write_same hm.1, hk8, hsum, Nat.mod_mod]
        · have hap := hwords.apart n i (Nat.le_refl n) (by omega) h1 h2 (by omega)
          rw [hmerged.words i (by omega) (by omega), hmem, Memory.read_write_apart _ _ _ _ _ _ (by omega)]
          congr 3
          refine List.map_congr_left fun x hx => ?_
          refine hone.apart (List.mem_range.1 hx) (.inr ?_)
          have : (n + 1) * (w / 8) ≤ i * (w / 8) := Nat.mul_le_mul_right _ (by omega)
          rw [Nat.add_mul, Nat.one_mul] at this
          omega
      · rw [hmerged.rest a fun i h1 h2 => ha i (by omega) (by omega), hmem, Memory.write]
        exact Memory.get_fill_other _ _ _ (by rw [length_leBytes]; exact ha n (Nat.le_refl n) (by omega))

/-! ## The instructions on windows -/

theorem windowTag_of {ty : Tag} (h : ty ∈ [Tag.i32, .n32, .i64, .n64, .f32, .f64]) : windowTag ty = true := by
  simp only [List.mem_cons, List.not_mem_nil, or_false] at h
  obtain rfl | rfl | rfl | rfl | rfl | rfl := h <;> rfl

theorem State.windowByte_mapped {s : State} {c : Ctx} {va : Word} {e : TlbEntry} (hm : Mapped s c va 1 .write e)
    (hh : pteAttr e.pte ≠ attrHost) (hf : pteAttr e.pte ≠ attrFlash) (hs : pteAttr e.pte ≠ attrSlab) : s.windowByte c va = .ok () s := by
  have hk : attrCause (pteAttr e.pte) (.amo false) = none := by
    unfold attrCause
    dsimp only
    rw [if_neg hf, if_neg]
    simp [hh]
  rw [State.windowByte, State.requested_mapped hm hm.aligned, Res.bind, hk]
  simp [hs]

theorem ready_none {s : State} {t : Strand} (hc : s.curStrand = some t) : Ready s t ([] ++ []) := ⟨hc, rfl⟩

theorem Strand.q_entered (t : Strand) (i : Instr) (ops : List SReg) : (entered t i ops).q = t.q := rfl

theorem winOpens {s : State} {t : Strand} {sa sb sc : SReg} {ty : Tag} {e e' : TlbEntry} (hr : Ready s t [sa, sb, sc]) (hidle : t.idle)
    (hw : t.win = none) (hty : ty ∈ [Tag.i32, .n32, .i64, .n64, .f32, .f64]) (h1 : (t.getS sa).toNat % 8 = 0) (h2 : (t.getS sb).toNat % 8 = 0)
    (h3 : 8 ≤ (t.getS sb).toNat) (h4 : (t.getS sb).toNat ≤ 256 * t.q) (h5 : (t.getS sc).toNat % 8 = 0)
    (h6 : (t.getS sc).toNat + (t.getS sb).toNat ≤ 256 * t.q)
    (hpages : ∀ p ∈ [(t.getS sa, e), (t.getS sa + t.getS sb - 1, e')], Mapped s t.qctx p.1 1 .write p.2 ∧ pteAttr p.2.pte ≠ attrHost
      ∧ pteAttr p.2.pte ≠ attrFlash ∧ pteAttr p.2.pte ≠ attrSlab) :
    exec (.winOpen sa sb sc ty) s = .next ((s.endSvc (.queue t.id.sid)).put { finished t [] with
      lane := clearLanes t.lane (t.getS sc).toNat (t.getS sb).toNat
      win := some ⟨t.getS sa, (t.getS sb).toNat, (t.getS sc).toNat, ty⟩ }) := by
  have hby (p : Word × TlbEntry) (hp : p ∈ [(t.getS sa, e), (t.getS sa + t.getS sb - 1, e')]) : s.windowByte t.qctx p.1 = .ok () s := by
    obtain ⟨hm, hh, hf, hs⟩ := hpages p hp
    exact State.windowByte_mapped hm hh hf hs
  have hfits : ((t.getS sa).toNat % 8 == 0 && (t.getS sb).toNat % 8 == 0 && decide (8 ≤ (t.getS sb).toNat)
      && decide ((t.getS sb).toNat ≤ 256 * t.q) && (t.getS sc).toNat % 8 == 0
      && decide ((t.getS sc).toNat + (t.getS sb).toNat ≤ 256 * t.q)) = true := by
    simp [h1, h2, h3, h4, h5, h6]
  rw [exec_solo_acts (i := .winOpen sa sb sc ty) (ops := [sa, sb, sc]) (dst := []) rfl (by rintro (⟨a, h | h | h⟩ | ⟨a, h⟩) <;> cases h) hr hidle]
  show Host.Outcome.next (s.winOpen (entered t (.winOpen sa sb sc ty) [sa, sb, sc]) (t.getS sa) (t.getS sb) (t.getS sc) ty) = _
  unfold State.winOpen
  dsimp only
  rw [Strand.q_entered, windowTag_of hty, hfits, if_neg (by decide), show (entered t (.winOpen sa sb sc ty) [sa, sb, sc]).win = none from hw,
    if_neg (by decide), if_neg (by decide), show (entered t (.winOpen sa sb sc ty) [sa, sb, sc]).qctx = t.qctx from rfl,
    hby (t.getS sa, e) (by simp)]
  show Host.Outcome.next (s.settleSolo _ 0 0 (s.windowByte t.qctx (t.getS sa + t.getS sb - 1)) _) = _
  rw [hby (t.getS sa + t.getS sb - 1, e') (by simp)]
  refine congrArg (fun u => Host.Outcome.next ((s.endSvc (.queue t.id.sid)).put u)) ?_
  exact (Strand.soloDone_entered (t := { t with
    lane := clearLanes t.lane (t.getS sc).toNat (t.getS sb).toNat
    win := some ⟨t.getS sa, (t.getS sb).toNat, (t.getS sc).toNat, ty⟩ }) hidle (.winOpen sa sb sc ty) [sa, sb, sc] none).trans rfl

theorem exec_winMerge {s : State} {t : Strand} (hc : s.curStrand = some t) (hidle : t.idle) :
    exec .winMerge s = .next (s.winMerge (entered t .winMerge []) 0) := by
  rw [exec_solo_acts (i := .winMerge) (ops := []) (dst := []) rfl (by rintro (⟨a, h | h | h⟩ | ⟨a, h⟩) <;> cases h) (ready_none hc) hidle]
  rfl

theorem exec_winClose {s : State} {t : Strand} (hc : s.curStrand = some t) (hidle : t.idle) :
    exec .winClose s = .next (s.put (if t.win.isSome then { finished t [] with win := none } else refusedAt t .winClose [] .winState 0 0)) := by
  rw [exec_solo_acts (i := .winClose) (ops := []) (dst := []) rfl (by rintro (⟨a, h | h | h⟩ | ⟨a, h⟩) <;> cases h) (ready_none hc) hidle]
  show Host.Outcome.next (s.winClose (entered t .winClose [])) = _
  unfold State.winClose
  rw [show (entered t .winClose []).win = t.win from rfl, Strand.soloRefused_entered hidle]
  cases hw : t.win with
  | none => rfl
  | some wd =>
    refine congrArg (fun u => Host.Outcome.next (s.put u)) ?_
    exact (Strand.soloDone_entered (t := { t with win := none }) hidle .winClose [] none).trans rfl

theorem windowInstructions : WindowInstructions := by
  refine ⟨?_, ?_, ?_⟩
  · intro s t sa sb sc ty e e' hr hidle hw hty
    dsimp only
    intro h1 h2 h3 h4 h5 h6 _ hpages
    refine ⟨_, winOpens hr hidle hw hty h1 h2 h3 h4 h5 h6 hpages, rfl, ?_⟩
    exact (lanesCleared_clearLanes t.lane (t.getS sc).toNat (t.getS sb).toNat).bytes
  · intro s t hc hidle
    refine ⟨exec_winClose hc hidle, fun hw => ?_⟩
    rw [exec_winMerge hc hidle, State.winMerge, show (entered t .winMerge []).win = none from hw]
    dsimp only
    rw [Strand.soloRefused_entered hidle]
  · intro s t wd ent h w hm hc hidle hwin hty hw hint hdiv hfit
    dsimp only
    intro hmap hapart
    have hwords : WindowWords s (entered t .winMerge []).qctx wd.base (w / 8) 0 (wd.size / (w / 8)) ent h :=
      ⟨fun i _ hi => (hmap i (by omega)).1, fun i _ hi => (hmap i (by omega)).2, fun i j _ hi _ hj hne => hapart i (by omega) j (by omega) hne⟩
    obtain ⟨z, lane, lb, hz, hmerged⟩ := State.mergeWords_merged hty hw hint _ 0 s (entered t .winMerge []) hm hwords
    have hlanes := hmerged.lanes
    rw [Nat.zero_mul, Nat.add_zero, Nat.div_mul_cancel (Nat.dvd_of_mod_eq_zero hdiv)] at hlanes
    have hd : ({ entered t .winMerge [] with lane := lane, lbuf := lb } : Strand).soloDone none = { finished t [] with lane := lane, lbuf := lb } :=
      (Strand.soloDone_entered (t := { t with lane := lane, lbuf := lb }) hidle .winMerge [] none).trans rfl
    have hstr : z.strands = s.strands := by rw [hmerged.package]
    obtain ⟨hput, hother⟩ := put_replaces (s := s) (z := z.endSvc (.queue t.id.sid)) (t := t) (u := { finished t [] with lane := lane, lbuf := lb })
      (cur_strand hc) hstr rfl
    refine ⟨_, _, ?_, hput, hother, ?_, hmerged.lines, fun n hn => hmerged.words n (Nat.zero_le n) (by omega),
      fun a ha => hmerged.rest a fun i _ hi => ha i (by omega), rfl, hlanes.bytes⟩
    · rw [exec_winMerge hc hidle, State.winMerge, show (entered t .winMerge []).win = some wd from hwin]
      dsimp only
      rw [hty, Option.getD_some, Nat.sub_zero, hz, State.soloEnd, hd]
      rfl
    · rw [hmerged.package]
      rfl

/-! ## Copies -/

theorem misaligned_none {checks : List (Word × Nat)} (h : ∀ p ∈ checks, p.1.toNat % p.2 = 0) : misaligned checks = none := by
  induction checks with
  | nil => rfl
  | cons p ps ih =>
    obtain ⟨x, a⟩ := p
    rw [misaligned, if_neg (by simpa using h (x, a) (by simp)), ih fun q hq => h q (by simp [hq])]

theorem misaligned_first {pre post : List (Word × Nat)} {x : Word} {a : Nat} (h : ∀ p ∈ pre, p.1.toNat % p.2 = 0) (hx : x.toNat % a ≠ 0) :
    misaligned (pre ++ (x, a) :: post) = some x := by
  induction pre with
  | nil => rw [List.nil_append, misaligned, if_pos hx]
  | cons p ps ih =>
    obtain ⟨y, b⟩ := p
    rw [List.cons_append, misaligned, if_neg (by simpa using h (y, b) (by simp)), ih fun q hq => h q (by simp [hq])]

/-- A token that is ready is not pending. -/
theorem token_clear {s : State} {t : Strand} {ops : List SReg} {r : SReg} (hr : Ready s t (ops ++ [r])) (h0 : r ≠ 0) :
    t.tokp.getLsbD r.toNat = false := by
  obtain ⟨-, hw⟩ := hr
  rw [Strand.mustWait, List.any_append, Bool.or_eq_false_iff] at hw
  obtain ⟨-, hw⟩ := hw
  have hp : t.isPending r = false := by
    rw [List.any_cons, Bool.or_eq_false_iff, Bool.or_eq_false_iff, Bool.or_eq_false_iff] at hw
    exact hw.1.1.2
  rw [Strand.isPending, bne_iff_ne.2 h0, Bool.true_and] at hp
  exact hp

/-- A pending token marked again, or cleared where it was clear. -/
theorem Strand.pending_pending (t : Strand) (r : SReg) : (t.pending r).pending r = t.pending r := by
  unfold Strand.pending
  split
  · rfl
  · rw [BitVec.or_assoc, BitVec.or_self]

theorem Strand.unpending_pending {t : Strand} {r : SReg} (h : r ≠ 0 → t.tokp.getLsbD r.toNat = false) : (t.pending r).unpending r = t := by
  unfold Strand.pending Strand.unpending
  by_cases h0 : r = 0
  · simp only [if_pos h0]
  · simp only [if_neg h0]
    have hclear : (t.tokp ||| 1#32 <<< r.toNat) &&& ~~~(1#32 <<< r.toNat) = t.tokp := by
      apply BitVec.eq_of_getLsbD_eq
      intro i hi
      have := h h0
      rw [BitVec.getLsbD_and, BitVec.getLsbD_or, BitVec.getLsbD_not]
      by_cases he : i = r.toNat
      · subst he
        rw [this]
        simp [hi]
      · have hbit : (1#32 <<< r.toNat).getLsbD i = false := by
          rw [BitVec.getLsbD_shiftLeft]
          simp
          omega
        rw [hbit]
        simp [hi]
    rw [hclear]

/-- A copy whose registers are ready acts at once, its token pending. -/
theorem exec_copy_acts {s : State} {t : Strand} {i : Instr} {ops : List SReg} {rem : Remainder} {checks : List (Word × Nat)}
    (hcopy : copyOf t i = some (rem, checks)) (hregs : soloRegs i = some (ops, [rem.token])) (hr : Ready s t (ops ++ [rem.token]))
    (hidle : t.idle) (hroom : (s.copiesOf t.id.sid).length < 32) :
    exec i s = .next (s.copyAt ((entered t i ops).pending rem.token) checks rem) := by
  have hgo : (t.mustWait (ops ++ [rem.token]) || t.noRoom i) = false := by
    obtain ⟨hv, hq, -⟩ := hidle
    rw [hr.2, Strand.noRoom_false]
    · rfl
    · rw [hv, Strand.resultsFull, hv, hq]
      simp [Config.resultEntries]
  have hun : (t.acc.isSome || decide (s.unfinished t ≥ Config.maxCopies)) = false := by
    rw [hidle.2.2, State.unfinished, hidle.1]
    simp [Config.maxCopies]
    omega
  have henter (i : Instr) (mark : Strand → Strand) :
      s.enterSolo t i ops mark = s.performSolo (mark (entered t i ops)) (t.entryOf i true ops) := by
    unfold State.enterSolo
    dsimp only
    rw [hidle.1, hidle.2.2, if_pos (by decide)]
    unfold entered
    rw [hidle.1]
    rfl
  cases i with
  | cpy a =>
    cases hcopy
    cases hregs
    rw [show exec (.cpy a) s = s.dispatchCopy (.cpy a) [a.sa, a.sb, a.sc] a.sd from rfl, State.dispatchCopy_of hr.1, hgo, hun,
      if_neg Bool.false_ne_true, if_neg Bool.false_ne_true, henter]
    rfl
  | cpy2d a =>
    cases hcopy
    cases hregs
    rw [show exec (.cpy2d a) s = s.dispatchCopy (.cpy2d a) [a.sa, a.sb, a.sc, a.se, a.sf, a.sg] a.sd from rfl, State.dispatchCopy_of hr.1,
      hgo, hun, if_neg Bool.false_ne_true, if_neg Bool.false_ne_true, henter]
    rfl
  | cpyFl a =>
    cases hcopy
    cases hregs
    rw [show exec (.cpyFl a) s = s.dispatchCopy (.cpyFl a) [a.sa, a.sb, a.sc] a.sd from rfl, State.dispatchCopy_of hr.1, hgo, hun,
      if_neg Bool.false_ne_true, if_neg Bool.false_ne_true, henter]
    rfl
  | cpyMove a =>
    cases hcopy
    cases hregs
    rw [show exec (.cpyMove a) s = s.dispatchCopy (.cpyMove a) [a.sa, a.sb, a.sc] a.sd from rfl, State.dispatchCopy_of hr.1, hgo, hun,
      if_neg Bool.false_ne_true, if_neg Bool.false_ne_true, henter]
    rfl
  | _ => cases hcopy

theorem resultReg_copy {t : Strand} {i : Instr} {p : Remainder × List (Word × Nat)} (h : copyOf t i = some p) : resultReg i = none := by
  cases i with
  | cpy a | cpy2d a | cpyFl a | cpyMove a => rfl
  | _ => cases h

theorem copyInstructions : CopyInstructions := by
  intro s t i ops rem checks hcopy hregs hr hidle hroom
  have hx := exec_copy_acts hcopy hregs hr hidle hroom
  have hno (x : Option Word) : delivered i x = [] := by
    unfold delivered
    rw [resultReg_copy hcopy]
  refine ⟨fun hal => ?_, fun pre x a post hchecks hpre hbad => ?_⟩
  · rw [hx, State.copyAt, misaligned_none hal]
    dsimp only
    rw [State.startCopy, Strand.pending_pending]
    have hd : ((entered t i ops).pending rem.token).soloDone none = { finished t [] with
        tokp := if rem.token = 0 then t.tokp else t.tokp ||| (1#32 <<< rem.token.toNat) } := by
      refine (Strand.soloDone_entered (t := t.pending rem.token) hidle i ops none).trans ?_
      rw [hno]
      rfl
    rw [hd]
    rfl
  · rw [hx, State.copyAt, hchecks, misaligned_first hpre hbad]
    dsimp only
    rw [Strand.unpending_pending (t := entered t i ops) (r := rem.token)
      (show rem.token ≠ 0 → t.tokp.getLsbD rem.token.toNat = false from token_clear hr), Strand.soloFault_entered hidle]

end Sys2Proof.Machine

open Sys2Proof Sys2Proof.Machine

/-- Settles O48: windows through what clearing and merging leave of lanes and memory, copies through their alignments. -/
theorem windowsAndCopies : Obligations.WindowsAndCopies := by
  unfold Obligations.WindowsAndCopies
  exact ⟨windowInstructions, copyInstructions⟩

end

section
/-!
SUPPORT. CONVOY_START of a convoy of one instruction, an exchange that has ended among them: what it leaves, by how the run of
its member ends. What elements and tail leave of a destination group.
-/

namespace Sys2Proof.Machine

/-! ## A convoy of one entry -/

/-- The VIQ of a running strand holds one entry, of a closed convoy, as dispatch left it; no exchange of the strand waits for its
peer, and the strand waits for nothing else. -/
structure Single (s : State) (sid : Nat) (t : Strand) (e : Entry) : Prop where
  here : s.strand sid = some t
  only : t.viq = [e]
  chained : (uses e.vtype e.i).isSome = true
  closed : t.copen = false
  runs : t.status = .running
  calm : t.qstall = false
  sound : t.vfault = none
  first : e.pos = 0
  waiting : e.done = false
  ungiven : e.given = false
  uncaptured : e.cap = none
  unoffered : ∀ o, t.xch ≠ .offered o
  unfinished : e.fin = false
  quiet : t.vamo = none
  older : t.acc = none
  served : s.waitsService (.queue sid) = false

theorem Alone.single {s : State} {sid : Nat} {t : Strand} {e : Entry} (h : Alone s sid t e) : Single s sid t e :=
  ⟨h.here, h.only, h.chained, h.closed, h.runs, h.calm, h.sound, h.first, h.waiting, h.ungiven, h.uncaptured,
    (fun o ho => nomatch h.apart.symm.trans ho), h.unfinished, h.quiet, h.older, h.served⟩

/-- The values of a convoy of one: what its entry delivers. -/
def outsOf : Option Word → Outs
  | none => []
  | some w => [(0, w)]

/-- What CONVOY_START leaves of a strand and a package after a run of the convoy. -/
def settled (sid : Nat) (p : Strand × State) : State :=
  (if p.1.qstall then p.2 else p.2.endSvc (.queue sid)).put p.1

theorem State.runConvoy_eq {s : State} {t : Strand} {es rest : List Entry} {vl : Nat} (hc : firstConvoy t.viq = (es, rest))
    (ha : t.vamo = none) (hf : t.vfault = none) (hvl : convoyVl t s es = .vl vl) (saving : Bool) :
    s.runConvoy t none saving = settled t.id.sid (perform t rest none (convoyFuel es) s es vl vl none none) := by
  unfold State.runConvoy
  rw [hc]
  dsimp only
  cases t
  dsimp only at hf ha
  subst hf ha
  dsimp only
  simp only [hvl]
  generalize perform _ rest none (convoyFuel es) s es vl vl none none = p
  obtain ⟨u, s'⟩ := p
  unfold settled
  dsimp only
  congr 1
  cases hu : u.vfault with
  | none => exact (if_pos rfl).trans (clear_vfault hu)
  | some f => exact if_neg Bool.false_ne_true

/-- A convoy that may start, of a strand without a fault whose vector atomic sends nothing, is run with its `vl`. -/
theorem exec_convoyStart_run {s : State} {sid : Nat} {t : Strand} {es rest : List Entry} {vl : Nat} (ht : s.strand sid = some t)
    (hc : firstConvoy t.viq = (es, rest)) (hready : s.convoyReady t = true) (ha : t.vamo = none) (hf : t.vfault = none)
    (hvl : convoyVl t s es = .vl vl) :
    exec (.convoyStart sid) s = .next (settled sid (perform t rest none (convoyFuel es) s es vl vl none none)) := by
  have hne : t.viq ≠ [] := fun h => by
    rw [State.convoyReady, h] at hready
    cases hready
  obtain ⟨e, l, hv⟩ := List.exists_cons_of_ne_nil hne
  show execConvoyStart sid s = _
  unfold execConvoyStart
  rw [ht]
  dsimp only
  rw [hv]
  dsimp only
  rw [if_pos hready, State.runConvoy_eq hc ha hf hvl, strand_sid ht]

section
variable {s : State} {sid : Nat} {t : Strand} {e : Entry} (h : Single s sid t e)
include h

theorem exec_single : exec (.convoyStart sid) s = .next (settled sid (perform t [] none 12 s [e] e.vl e.vl none none)) := by
  have hready : s.convoyReady t = true := by
    unfold State.convoyReady State.frontReady Strand.startable Strand.firstClosed
    rw [h.only, strand_sid h.here]
    cases hx : t.xch with
    | offered o => exact absurd hx (h.unoffered o)
    | none | ended d => simp [h.waiting, h.closed, h.calm, h.chained, h.runs, h.sound, h.served, h.quiet, h.older]
  exact exec_convoyStart_run (rest := []) h.here (by rw [h.only]; rfl) hready h.quiet h.sound rfl

/-- The strand and the package of the strand after a run that leaves it without a wait. -/
theorem strand_settled {u : Strand} {z : State} (hid : u.id = t.id) (hz : ∀ n, z.strand n = s.strand n) :
    (settled sid (u, z)).strand sid = some u ∧ SameOthers s (settled sid (u, z)) sid := by
  have hsid : u.id.sid = sid := by rw [hid]; exact strand_sid h.here
  have hw (w : State) (hw : ∀ n, w.strand n = s.strand n) : (w.put u).strand sid = some u ∧ SameOthers s (w.put u) sid := by
    refine ⟨?_, fun n hn => ?_⟩
    · have hput : (w.put u).strand u.id.sid = some u := strand_put (u := t) (by rw [hsid, hw]; exact h.here)
      rw [hsid] at hput
      exact hput
    · rw [strand_put_other w u n (by rw [hsid]; exact hn), hw]
  unfold settled
  dsimp only
  split
  · exact hw z hz
  · exact hw (z.endSvc (.queue sid)) hz

/-! ## How the run of its member ends -/

theorem prepareAll_single (halt : Option Nat) (vl : Nat) (lax : Bool) : prepareAll s vl (convoyPos [e]) ([e].length == 1) halt lax 0 [e] t [] []
    = match prepare e.i (e.px t s ⟨t.v, t.k⟩ vl true halt lax) with
      | .fail c => .fail 0 c
      | .stop x => .stop 0 x
      | .ok t' m => .ok t' [m] [⟨t.v, t.k⟩] := by
  have hpos : convoyPos [e] = 0 := by simp [convoyPos, h.first]
  rw [hpos, prepareAll, h.uncaptured, Option.getD_none, show (([e] : List Entry).length == 1) = true from rfl]
  cases prepare e.i (e.px t s ⟨t.v, t.k⟩ vl true halt lax) with
  | fail c => rfl
  | stop x => rfl
  | ok t' m =>
    dsimp only
    rw [h.first, h.unfinished]
    rfl

theorem attempt_fail {c : Cause} {vl stop : Nat} {halt : Option Nat} (hp : prepare e.i (e.px t s ⟨t.v, t.k⟩ vl true halt false) = .fail c) :
    attempt t s [e] vl stop halt none false = .fail 0 c := by
  rw [attempt, prepareAll_single h, hp]

theorem attempt_stop {x : Stop} {vl stop : Nat} {halt : Option Nat} (hp : prepare e.i (e.px t s ⟨t.v, t.k⟩ vl true halt false) = .stop x) :
    attempt t s [e] vl stop halt none false = .stop 0 x [] := by
  rw [attempt, prepareAll_single h, hp]

/-- Its elements and its end are done in order, in one run of all groups. -/
theorem attempt_done {t1 : Strand} {f : Nat → Run → Rr} {fin : Run → Rr} {r1 r2 : Run} (hv : 0 < e.vl)
    (hp : prepare e.i (e.px t s ⟨t.v, t.k⟩ e.vl true none false) = .ok t1 ⟨overElems f, fin⟩)
    (hf : ∀ e r r', f e r = .ok r' → r.out = none → r'.out = none)
    (h1 : eachElem f e.vl 0 (Run.start t1 s none) = .ok r1) (h2 : fin r1 = .ok r2) :
    attempt t s [e] e.vl e.vl none none false = .done { r2 with out := none } (outsOf r2.out) [⟨overElems f, fin⟩] [⟨t.v, t.k⟩] := by
  rw [attempt, prepareAll_single h, hp]
  dsimp only
  rw [if_neg (by omega), show convoyPos [e] = 0 by simp [convoyPos, h.first], runGroups_one hf e.vl (groupsOf e.vl) 0 (Run.start t1 s none) r1 r2
    (by unfold groupsOf; omega) (by unfold groupsOf; omega) (by unfold groupsOf; omega) rfl (by simpa using h1) h2]
  rfl

/-- A convoy run to its end. -/
theorem exec_single_done {r : Run} {outs : Outs} {ms : List Mop} {caps : List Captured} (ha : isVamo e.i = false)
    (hat : attempt t s [e] e.vl e.vl none none false = .done r outs ms caps) :
    exec (.convoyStart sid) s = .next (settled sid (finishConvoy [e] [] e.vl r outs)) := by
  rw [exec_single h]
  have hany : ([e].any fun x => isVamo x.i) = false := by simp [ha]
  unfold perform
  dsimp only
  rw [hat]
  dsimp only
  rw [hany, Bool.and_false, if_neg Bool.false_ne_true]

end

/-- One entry once its convoy is finished. -/
theorem finishConvoy_single {e : Entry} (hg : e.given = false) (hu : e.fin = false) (r : Run) (out : Option Word) :
    ∃ u z, finishConvoy [e] [] e.vl r (outsOf out) = (u, z)
    ∧ u = { r.t with stlMem := u.stlMem, viq := [e.performed out], xch := .none, held := none, vamo := none }
    ∧ z = { r.s with freeCtr := z.freeCtr } ∧ (e.loads = false → u.stlMem = r.t.stlMem) := by
  have hcomp : completed (outsOf out) e.vl 0 [e] = [e.performed out] := by
    cases out <;> simp [outsOf, completed, Entry.performed, hg, hu]
  have haft (y : Strand) : y.after [e] e.vl = y := by simp [Strand.after]
  unfold finishConvoy
  dsimp only
  rw [hcomp, List.append_nil, haft]
  unfold waitedForLoads
  split
  · rename_i c
    refine ⟨_, _, rfl, rfl, rfl, fun d => ?_⟩
    simp only [List.any_cons, List.any_nil, Bool.or_false, Bool.and_eq_true] at c
    exact absurd (c.2.symm.trans d) (by simp)
  · exact ⟨_, _, rfl, rfl, rfl, fun _ => rfl⟩

/-- A convoy of one whose elements and end are done: what it leaves. -/
theorem Single.performs {s : State} {sid : Nat} {t : Strand} {e : Entry} (h : Single s sid t e) (hv : 0 < e.vl) (ha : isVamo e.i = false)
    {t1 : Strand} {f : Nat → Run → Rr} {fin : Run → Rr} {r1 r2 : Run} {p : State → Strand → Prop}
    (hp : prepare e.i (e.px t s ⟨t.v, t.k⟩ e.vl true none false) = .ok t1 ⟨overElems f, fin⟩)
    (hf : ∀ e r r', f e r = .ok r' → r.out = none → r'.out = none)
    (h1 : eachElem f e.vl 0 (Run.start t1 s none) = .ok r1) (h2 : fin r1 = .ok r2)
    (hi : r2.t.id = t.id) (hs : r2.t.qstall = false) (hst : ∀ n, r2.s.strand n = s.strand n)
    (hq : ∀ (s' : State) (u : Strand), s' = { r2.s with freeCtr := s'.freeCtr, svcs := s'.svcs, strands := s'.strands } →
      u = { r2.t with stlMem := u.stlMem, viq := u.viq, xch := .none, held := none, vamo := none } →
      (e.loads = false → u.stlMem = r2.t.stlMem) → p s' u) : Performs s sid e r2.out p := by
  obtain ⟨u, z, hfin, hu, hz, hstl⟩ := finishConvoy_single h.ungiven h.unfinished { r2 with out := none } r2.out
  have hex := exec_single_done h ha (attempt_done h hv hp hf h1 h2)
  rw [hfin] at hex
  have hzs (n : Nat) : z.strand n = s.strand n := by
    rw [← hst n, hz]
    rfl
  obtain ⟨hput, hoth⟩ := strand_settled h (u := u) (z := z) (by rw [hu]; exact hi) hzs
  have hcalm : u.qstall = false := by rw [hu]; exact hs
  refine ⟨_, u, hex, hput, hoth, by rw [hu], hq _ u ?_ (by rw [hu]) hstl⟩
  unfold settled
  dsimp only
  rw [hcalm, if_neg Bool.false_ne_true, hz]
  rfl

/-! ## What elements and tail leave of a destination group -/

/-- The destination group of width `w` from register `base` on, tagged `ty`, once its elements and its tail are done. -/
structure GroupWritten (t z : Strand) (e : Entry) (base w : Nat) (ty : Tag) (g : Nat → Put × Flags) : Prop where
  strand : z = { t with v := z.v, lflags := z.lflags }
  body : ∀ n < e.vl, elemGet z.v t.q base w n = (g n).1.over w (elemGet t.v t.q base w n)
  tail : ∀ n, e.vl ≤ n → n < vlmaxOf t.q e.vtype → elemGet z.v t.q base w n = if tuOf e.vtype then 0 else elemGet t.v t.q base w n
  others : ∀ r, OutsideGroup base (groupSize e.vtype w) r → regAt z.v r = regAt t.v r
  tags : ∀ r, base ≤ r → r < base + groupSize e.vtype w → (regAt z.v r).tag = ty
  flags : ∀ lane < 256, ∀ b < 7, z.lflags.getLsbD (8 * lane + b)
    = (t.lflags.getLsbD (8 * lane + b) || (List.range e.vl).any fun n => n % 256 == lane && (g n).2.getLsbD b)

/-- The strand once the elements of an instruction are done, then the tail of its destination. -/
def elementsDone (t : Strand) (e : Entry) (vd : VReg) (w : Nat) (ty : Tag) (f : Strand → Nat → Put × Flags) : Strand :=
  ((List.range e.vl).foldl (fun t i => elementStep (.vec vd.toNat w) f t i)
    { t with v := setTags t.v vd.toNat (groupSize e.vtype w) ty }).tail e.vtype (.vec vd.toNat w) e.vl (vlmaxOf t.q e.vtype)

theorem groupWritten_elementsDone {t : Strand} {e : Entry} (hs : Setting t e) {vd : VReg} {w : Nat}
    (hw : w = 4 ∨ w = 8 ∨ w = 16 ∨ w = 32 ∨ w = 64) (hg : groupOk vd.toNat (groupSize e.vtype w) = true) (ty : Tag)
    {f : Strand → Nat → Put × Flags} {g : Nat → Put × Flags}
    (hf : ∀ n < e.vl, ∀ u : Strand, u = { t with v := u.v, lflags := u.lflags } →
      (∀ x, n ≤ x → x < vlmaxOf t.q e.vtype → elemGet u.v t.q vd.toNat w x = elemGet t.v t.q vd.toNat w x) →
      (∀ r, OutsideGroup vd.toNat (groupSize e.vtype w) r → regAt u.v r = regAt t.v r) → f u n = g n) :
    GroupWritten t (elementsDone t e vd w ty f) e vd.toNat w ty g := by
  have hh := group_holds hs vd hw hg
  have hin := hh.inFile
  have hlen := hs.length
  unfold elementsDone
  have t1e (x : Nat) : elemGet (setTags t.v vd.toNat (groupSize e.vtype w) ty) t.q vd.toNat w x = elemGet t.v t.q vd.toNat w x :=
    elemGet_setTags _ _ _ _ _ _ _ _
  have t1o (r : Nat) (hr : OutsideGroup vd.toNat (groupSize e.vtype w) r) :
      regAt (setTags t.v vd.toNat (groupSize e.vtype w) ty) r = regAt t.v r := by
    have := hr.2
    rw [regAt_setTags _ _ _ _ _ hr.1 hin, if_neg (by omega)]
  generalize ht1 : ({ t with v := setTags t.v vd.toNat (groupSize e.vtype w) ty } : Strand) = t1
  have t1v : t1.v = setTags t.v vd.toNat (groupSize e.vtype w) ty := by rw [← ht1]
  have t1q : t1.q = t.q := by rw [← ht1]; rfl
  have t1s : t1 = { t with v := t1.v } := by rw [← ht1]
  have t1l : t1.lflags = t.lflags := by rw [← ht1]
  have body := element_fold hh t1 t1q 0 e.vl (by omega) f g (by
    intro n _ hn u hu he ho
    refine hf n (by omega) u (by rw [hu, t1s]) (fun x h1 h2 => ?_) (fun r hr => ?_)
    · rw [he x h1 h2, t1v, t1e]
    · rw [ho r hr, t1v, t1o r hr])
  generalize hfold : (List.range e.vl).foldl (fun t i => elementStep (.vec vd.toNat w) f t (0 + i)) t1 = u at body
  simp only [Nat.zero_add] at hfold
  rw [hfold]
  have tail := element_fold hh u (show u.q = t.q by rw [body.strand]; exact t1q) e.vl (vlmaxOf t.q e.vtype - e.vl) (by omega)
    (fun _ _ => (if tuOf e.vtype then .zero else .keep, 0)) (fun _ => (if tuOf e.vtype then .zero else .keep, 0)) (fun _ _ _ _ _ _ _ => rfl)
  rw [← tail_fold] at tail
  refine ⟨by rw [tail.strand, body.strand, t1s], fun n hn => ?_, fun n h1 h2 => ?_, fun r hr => ?_, fun r h1 h2 => ?_, fun lane hl b hb => ?_⟩
  · rw [tail.elems n (by omega), if_neg (by omega), body.elems n (by omega), if_pos (by omega), t1v, t1e]
  · have c1 : e.vl ≤ n ∧ n < e.vl + (vlmaxOf t.q e.vtype - e.vl) := by omega
    have c2 : ¬ (0 ≤ n ∧ n < 0 + e.vl) := by omega
    rw [tail.elems n h2, body.elems n h2, t1v, t1e, if_pos c1, if_neg c2]
    cases tuOf e.vtype <;> rfl
  · rw [tail.others r hr, body.others r hr, t1v, t1o r hr]
  · rw [tail.tags r, body.tags r, t1v, regAt_setTags _ _ _ _ _ (by omega) hin, if_pos ⟨h1, h2⟩]
  · have hz : ((List.range (vlmaxOf t.q e.vtype - e.vl)).any fun i => (e.vl + i) % 256 == lane && (0 : Flags).getLsbD b) = false := by simp
    rw [tail.flags lane hl b hb, body.flags lane hl b hb, t1l]
    dsimp only
    rw [hz, Bool.or_false]
    simp

/-- What such a convoy leaves. -/
theorem GroupWritten.wrote {s s' : State} {t z u : Strand} {e : Entry} {base w : Nat} {ty : Tag} {g : Nat → Put × Flags}
    (h : GroupWritten t z e base w ty g) (hp : s' = { s with freeCtr := s'.freeCtr, svcs := s'.svcs, strands := s'.strands })
    (ha : t.vamo = none) (hu : u = { z with stlMem := u.stlMem, viq := u.viq, xch := .none, held := none, vamo := none })
    (hstl : e.loads = false → u.stlMem = z.stlMem) : Wrote s s' t u e base w ty g := by
  have hz := h.strand
  have uv : u.v = z.v := by rw [hu]
  have ul : u.lflags = z.lflags := by rw [hu]
  refine ⟨hp, by rw [hu, hz, ha], fun d => (hstl d).trans (by rw [hz]), ?_, ?_, ?_, ?_, ?_⟩
  · rw [uv]; exact h.body
  · rw [uv]; exact h.tail
  · rw [uv]; exact h.others
  · rw [uv]; exact h.tags
  · rw [ul]; exact h.flags

/-- The elements of an element-wise instruction, as a run. -/
theorem eachElem_elements (d : Dst) (f : Strand → Nat → Put × Flags) (n : Nat) (t : Strand) (s : State) :
    eachElem (fun e r => let (p, fl) := f r.t e; .ok (r.upd fun t => (t.putElem d e p).raise e fl)) n 0 (Run.start t s none)
      = .ok (Run.start ((List.range n).foldl (fun t i => elementStep d f t i) t) s none) := by
  rw [eachElem_element]
  simp only [Run.start, Nat.zero_add]

end Sys2Proof.Machine
end

section
/-!
SUPPORT. `vxch`: its checks, what it offers, and what its convoy leaves once the exchange has ended.
-/

namespace Sys2Proof.Machine

/-! ## Preparing vxch -/

theorem kept_eq_keptBits (ty : Tag) (x : Nat) : ty.kept x = keptBits ty x := by
  unfold Tag.kept keptBits
  refine if_congr ?_ rfl rfl
  simp

section
variable {x : Px} {u : Strand} {a : Xch} {ty : Tag} (hg : groupOk a.vd.toNat (groupSize x.vt (ewOf x.vt)) = true)
  (hs : SourceGroup u x.vt a.va (ewOf x.vt) ty) (hc : Clear x.vt a.vd (ewOf x.vt) a.va (ewOf x.vt)) (hv : x.src.v = u.v)
include hg hs hc hv

theorem xch_checks : (do
    x.groups (some (a.vd, x.ew)) [(a.va, x.ew)]
    x.tag a.va x.ew) = .ok ty := by
  have hgroups : x.groups (some (a.vd, x.ew)) [(a.va, x.ew)] = .ok () := Px.groups_clear hg fun o ho => by
    obtain rfl := List.mem_singleton.1 ho
    exact ⟨hs.placed, hc⟩
  rw [hgroups]
  exact Px.tag_source hs hv

/-- Without a peer the value NO_PEER is delivered. -/
theorem prepXch_noPeer (hp : x.t.id.gsz ≤ (x.op 0).toNat ∨ (x.op 0).toNat = x.t.id.tid) : prepXch a x = .ok x.t (resultMop 2 []) := by
  unfold prepXch
  dsimp only
  rw [xch_checks hg hs hc hv]
  exact if_pos hp

variable (h1 : (x.op 0).toNat < x.t.id.gsz) (h2 : (x.op 0).toNat ≠ x.t.id.tid)
include h1 h2

/-- With a peer the strand offers its elements. -/
theorem prepXch_offers (hx : x.t.xch = .none) : prepXch a x = .stop (.offer ⟨(x.op 0).toNat, (x.op 1) &&& 0xFFFF, x.vl, x.ew, ty,
    (List.range x.vl).map fun e => BitVec.ofNat 64 (ty.kept (x.capElem a.va x.ew e)), x.s.tick⟩) := by
  unfold prepXch
  dsimp only
  rw [xch_checks hg hs hc hv, hx]
  exact if_neg (by omega)

/-- An exchange that has ended with status 0 writes the peer's elements and delivers 0. -/
theorem prepXch_met {d : Xdone} (hx : x.t.xch = .ended d) (h0 : d.status = 0) (hvl : x.vl ≠ 0) :
    prepXch a x = .ok { x.t with v := setTags x.t.v a.vd.toNat (x.size x.ew) d.tag }
      ⟨(elementMop x.vt (.vec a.vd.toNat x.ew) x.vl x.vlmax fun _ e => x.capPut a.m e (d.tag.kept (d.data.getD e 0).toNat)).group,
        fun r => .ok { (r.upd fun u => u.tail x.vt (.vec a.vd.toNat x.ew) x.vl x.vlmax) with out := some 0 }⟩ := by
  unfold prepXch
  dsimp only
  rw [xch_checks hg hs hc hv, hx]
  refine (if_neg (by omega)).trans ?_
  rw [if_pos h0, Px.done]
  dsimp only
  rw [if_neg hvl, hx]

/-- An exchange that has ended with another status delivers it. -/
theorem prepXch_unmet {d : Xdone} (hx : x.t.xch = .ended d) (h0 : d.status ≠ 0) : prepXch a x = .ok x.t (resultMop d.status []) := by
  unfold prepXch
  dsimp only
  rw [xch_checks hg hs hc hv, hx]
  refine (if_neg (by omega)).trans ?_
  rw [if_neg h0]

end

/-- The key of an offer is the low half word of its operand. -/
theorem and_ffff (x : Word) : x &&& 0xFFFF = BitVec.ofNat 64 (x.toNat % 65536) := by
  apply BitVec.eq_of_toNat_eq
  rw [BitVec.toNat_and, BitVec.toNat_ofNat, show (0xFFFF : Word).toNat = 2 ^ 16 - 1 from rfl, Nat.and_two_pow_sub_one_eq_mod]
  omega

/-! ## Offers -/

/-- A convoy whose one member offers an exchange waits with its offer. -/
theorem exec_single_offer {s : State} {sid : Nat} {t : Strand} {e : Entry} (h : Single s sid t e) {o : Xoffer}
    (hp : prepare e.i (e.px t s ⟨t.v, t.k⟩ e.vl true none false) = .stop (.offer o)) :
    exec (.convoyStart sid) s = .next ((s.endSvc (.queue sid)).put { t with xch := .offered o }) := by
  rw [exec_single h]
  have haft (y : Strand) : y.after [e] e.vl = y := by simp [Strand.after]
  unfold perform
  dsimp only
  rw [attempt_stop h hp]
  dsimp only
  rw [haft, settled]
  dsimp only
  rw [h.calm, if_neg Bool.false_ne_true]

theorem exchangeOffers : ExchangeOffers := by
  intro s sid t e a ty h hs hi
  dsimp only
  intro hg hsrc hc
  have hprep (x : Px) : prepare e.i x = prepXch a x := by rw [hi]; rfl
  have hva : isVamo e.i = false := by rw [hi]; rfl
  refine ⟨fun hp => performs_result h (by have := hs.length; omega) hva ?_, fun h1 h2 => ?_⟩
  · rw [hprep]
    exact prepXch_noPeer (u := t) hg hsrc hc rfl hp
  · rw [exec_single_offer h.single ((hprep _).trans (prepXch_offers (u := t) hg hsrc hc rfl h1 h2 h.apart))]
    simp only [kept_eq_keptBits]
    rw [and_ffff]
    rfl

/-! ## Exchanges that end -/

theorem exec_vxchTimeout {s : State} {sid : Nat} {t : Strand} {o : Xoffer} (ht : s.strand sid = some t) (hx : t.xch = .offered o) :
    exec (.vxchTimeout sid) s = .next (if s.tick - o.since ≥ 2048 then s.put { t with xch := .ended ⟨1, .raw, []⟩ } else s) := by
  show execVxchTimeout sid s = _
  unfold execVxchTimeout
  rw [ht]
  dsimp only
  rw [hx]
  exact (apply_ite Host.Outcome.next _ _ _).symm

theorem receive_same {o p : Xoffer} (h : o.ew = p.ew) (ctr : Nat) : receive ctr o p = ⟨0, p.tag, p.data⟩ := by
  rw [receive, if_pos h]

theorem strand_put_same {s : State} {n : Nat} {t u : Strand} (h : s.strand n = some u) (hn : t.id.sid = n) : (s.put t).strand n = some t := by
  subst hn
  exact strand_put h

theorem exec_vxchMatch {s : State} {x y : Nat} {t u : Strand} {o p : Xoffer} (hne : x ≠ y) (ht : s.strand x = some t)
    (hu : s.strand y = some u) (ho : t.xch = .offered o) (hp : u.xch = .offered p) (hh : t.id.handle = u.id.handle)
    (h1 : o.peer = u.id.tid) (h2 : p.peer = t.id.tid) (hk : o.key = p.key) (h3 : t.status ≠ .struck) (h4 : u.status ≠ .struck)
    (hw : o.ew = p.ew) :
    ∃ s', exec (.vxchMatch x y) s = .next s' ∧ s' = { s with strands := s'.strands, freeCtr := s'.freeCtr }
      ∧ s'.strand x = some { t with xch := .ended ⟨0, p.tag, p.data⟩ } ∧ s'.strand y = some { u with xch := .ended ⟨0, o.tag, o.data⟩ }
      ∧ ∀ n, n ≠ x → n ≠ y → s'.strand n = s.strand n := by
  have hgo : (t.id.handle == u.id.handle && o.peer == u.id.tid && p.peer == t.id.tid && o.key == p.key && t.status != .struck
      && u.status != .struck) = true := by
    simp [hh, h1, h2, hk, h3, h4]
  have hx := strand_sid ht
  have hy := strand_sid hu
  refine ⟨{ (s.put { t with xch := .ended ⟨0, p.tag, p.data⟩ }).put { u with xch := .ended ⟨0, o.tag, o.data⟩ } with
    freeCtr := s.freeCtr + 2 }, ?_, rfl, ?_, ?_, fun n h5 h6 => ?_⟩
  · show execVxchMatch x y s = _
    unfold execVxchMatch
    rw [ht, hu]
    dsimp only
    rw [ho, hp]
    dsimp only
    rw [hgo, if_pos rfl, receive_same hw, receive_same hw.symm]
  · have hput := strand_put_other (s.put { t with xch := .ended ⟨0, p.tag, p.data⟩ }) { u with xch := .ended ⟨0, o.tag, o.data⟩ } x
      (by rw [show ({ u with xch := .ended ⟨0, o.tag, o.data⟩ } : Strand).id.sid = y from hy]; exact hne)
    exact hput.trans (strand_put_same ht hx)
  · refine strand_put_same (s := s.put { t with xch := .ended ⟨0, p.tag, p.data⟩ }) (u := u) ?_ hy
    exact (strand_put_other s { t with xch := .ended ⟨0, p.tag, p.data⟩ } y (by
      rw [show ({ t with xch := .ended ⟨0, p.tag, p.data⟩ } : Strand).id.sid = x from hx]; exact hne.symm)).trans hu
  · have hn1 := strand_put_other (s.put { t with xch := .ended ⟨0, p.tag, p.data⟩ }) { u with xch := .ended ⟨0, o.tag, o.data⟩ } n
      (by rw [show ({ u with xch := .ended ⟨0, o.tag, o.data⟩ } : Strand).id.sid = y from hy]; exact h6)
    exact hn1.trans (strand_put_other s { t with xch := .ended ⟨0, p.tag, p.data⟩ } n (by
      rw [show ({ t with xch := .ended ⟨0, p.tag, p.data⟩ } : Strand).id.sid = x from hx]; exact h5))

/-- A strand whose exchange has ended may start its convoy again. -/
theorem Alone.ended {s : State} {sid : Nat} {t : Strand} {e : Entry} (h : Alone s sid t e) (d : Xdone) :
    Single (s.put { t with xch := .ended d }) sid { t with xch := .ended d } e :=
  ⟨strand_put_same (u := t) h.here (strand_sid (t := t) h.here), h.only, h.chained, h.closed, h.runs, h.calm, h.sound, h.first, h.waiting, h.ungiven,
    h.uncaptured, (fun _ ho => nomatch ho), h.unfinished, h.quiet, h.older, h.served⟩

section
variable {s : State} {sid : Nat} {t : Strand} {e : Entry} {a : Xch} {ty : Tag} (h : Single s sid t e) (hs : Setting t e)
  (hi : e.i = .vxch a) (hg : groupOk a.vd.toNat (groupSize e.vtype (ewOf e.vtype)) = true)
  (hsrc : SourceGroup t e.vtype a.va (ewOf e.vtype) ty) (hc : Clear e.vtype a.vd (ewOf e.vtype) a.va (ewOf e.vtype))
  (h1 : (e.ops.getD 0 0).toNat < t.id.gsz) (h2 : (e.ops.getD 0 0).toNat ≠ t.id.tid)
include h hs hi hg hsrc hc h1 h2

theorem exchange_met {pt : Tag} {data : List Word} (hx : t.xch = .ended ⟨0, pt, data⟩) :
    Performs s sid e (some 0) fun s' t' => Wrote s s' t t' e a.vd.toNat (ewOf e.vtype) pt fun n =>
      under t e a.m n (keptBits pt (data.getD n 0).toNat, 0) := by
  have hva : isVamo e.i = false := by rw [hi]; rfl
  have hvl : 0 < e.vl := by have := hs.length; omega
  let x : Px := e.px t s ⟨t.v, t.k⟩ e.vl true none false
  let f (_ : Strand) (n : Nat) : Put × Flags := x.capPut a.m n (pt.kept (data.getD n 0).toNat)
  have hp : prepare e.i x = .ok { t with v := setTags t.v a.vd.toNat (groupSize e.vtype (ewOf e.vtype)) pt }
      ⟨overElems fun n r => let (p, fl) := f r.t n; .ok (r.upd fun t => (t.putElem (.vec a.vd.toNat (ewOf e.vtype)) n p).raise n fl),
        fun r => .ok { (r.upd fun u => u.tail e.vtype (.vec a.vd.toNat (ewOf e.vtype)) e.vl (vlmaxOf t.q e.vtype)) with out := some 0 }⟩ := by
    rw [hi]
    exact prepXch_met (x := x) (u := t) (d := ⟨0, pt, data⟩) hg hsrc hc rfl h1 h2 hx rfl (Nat.pos_iff_ne_zero.1 hvl)
  have hput (n : Nat) : f t n = under t e a.m n (keptBits pt (data.getD n 0).toNat, 0) := by
    show x.capPut a.m n (pt.kept (data.getD n 0).toNat) = _
    rw [kept_eq_keptBits, Px.capPut, under, inactive]
    show (if admits t.k a.m n then _ else _, _) = if admits t.k a.m n then _ else _
    split <;> rfl
  have hw := groupWritten_elementsDone hs (ew_cases hs.vtype) hg pt (f := f) (fun n _ _ _ _ _ => hput n)
  refine h.performs (r1 := .start _ s none)
    (r2 := ⟨elementsDone t e a.vd (ewOf e.vtype) pt f, s, [], some 0, [], none, []⟩) hvl hva hp (fun n r r' h3 h4 => ?_)
    (eachElem_elements _ f _ _ _) rfl ?_ ?_ (fun _ => rfl) fun s' u hs' hu hstl => hw.wrote hs' h.quiet hu hstl
  · simp only [Rr.ok.injEq] at h3
    rw [← h3]
    exact h4
  · show (elementsDone t e a.vd (ewOf e.vtype) pt f).id = t.id
    rw [hw.strand]
  · show (elementsDone t e a.vd (ewOf e.vtype) pt f).qstall = false
    rw [hw.strand]
    exact h.calm

theorem exchange_unmet {d : Xdone} (hx : t.xch = .ended d) (h0 : d.status ≠ 0) :
    Performs s sid e (some d.status) fun s' t' => Delivered s s' t t' e [] := by
  have hva : isVamo e.i = false := by rw [hi]; rfl
  have hvl : 0 < e.vl := by have := hs.length; omega
  have hp : prepare e.i (e.px t s ⟨t.v, t.k⟩ e.vl true none false) = .ok t ⟨overElems fun _ r => .ok r,
      fun r => .ok { (r.upd fun t => t) with out := some d.status }⟩ := by
    rw [hi]
    refine (prepXch_unmet (x := e.px t s ⟨t.v, t.k⟩ e.vl true none false) (u := t) hg hsrc hc rfl h1 h2 hx h0).trans ?_
    rw [← idle_group]
    rfl
  refine h.performs (r1 := .start t s none) (r2 := ⟨t, s, [], some d.status, [], none, []⟩) hvl hva hp (fun n r r' h3 h4 => ?_)
    ?_ rfl rfl h.calm (fun _ => rfl) fun s' u hs' hu hstl => ?_
  · simp only [Rr.ok.injEq] at h3
    rw [← h3]
    exact h4
  · exact (congrFun (congrFun (congrFun idle_group 0) e.vl) (.start t s none)).symm
  · refine ⟨hs', by rw [hu, h.quiet], hstl, fun lane hl b hb => ?_⟩
    rw [hu]
    simp

end

theorem exchangeEvents : ExchangeEvents := by
  refine ⟨?_, fun s sid t o ht hx => exec_vxchTimeout ht hx, ?_⟩
  · exact fun s x y t u o p hne ht hu ho hp hh h1 h2 hk h3 h4 hw => exec_vxchMatch hne ht hu ho hp hh h1 h2 hk h3 h4 hw
  · intro s sid t e a ty pt data h hs hi
    dsimp only
    intro hg hsrc hc h1 h2
    exact ⟨exchange_met (t := { t with xch := .ended ⟨0, pt, data⟩ }) (h.ended _) ⟨hs.vtype, hs.quarters, hs.length⟩ hi hg
        ⟨hsrc.placed, hsrc.tagged, hsrc.width⟩ hc h1 h2 rfl,
      exchange_unmet (t := { t with xch := .ended ⟨1, .raw, []⟩ }) (h.ended _) ⟨hs.vtype, hs.quarters, hs.length⟩ hi hg
        ⟨hsrc.placed, hsrc.tagged, hsrc.width⟩ hc h1 h2 rfl (by decide)⟩

end Sys2Proof.Machine

open Sys2Proof Sys2Proof.Machine

/-- Settles O43: what `vxch` is prepared to do, by its peer and by what its exchange has come to, and the two events. -/
theorem exchanges : Obligations.Exchanges := by
  unfold Obligations.Exchanges
  exact ⟨exchangeOffers, exchangeEvents⟩

end

section
/-!
SUPPORT. Element-wise instructions: what their checks prepare, and what they write where each element reads its sources as they
stood.
-/

namespace Sys2Proof.Machine

/-! ## Sources that an instruction leaves unchanged until it reads them -/

theorem elemGet_lt (v : Vector VecReg 64) (q base w e : Nat) : elemGet v q base w e < 2 ^ w := BitVec.isLt _

/-- The register of an element lies in its group. -/
theorem elemGet_congr {u v : Vector VecReg 64} {q base w size m n : Nat} (h : Holds q base w size m) (hn : n < m)
    (hr : ∀ r, base ≤ r → r < base + size → r < 64 → regAt u r = regAt v r) : elemGet u q base w n = elemGet v q base w n := by
  have hl := h.lt hn
  have hin := h.inFile
  unfold elemGet
  dsimp only
  rw [hr _ (Nat.le_add_right _ _) (by omega) (by omega)]

/-- An element of a source that is the destination itself, or apart from it, stands as it stood while the elements below it are
written. -/
theorem source_unchanged {t u : Strand} {e : Entry} (hs : Setting t e) {vd r : VReg} {dw w : Nat}
    (hw : w = 4 ∨ w = 8 ∨ w = 16 ∨ w = 32 ∨ w = 64) (hg : groupOk r.toNat (groupSize e.vtype w) = true) (hc : Clear e.vtype vd dw r w) {n : Nat}
    (hn : n < e.vl) (hsame : ∀ x, n ≤ x → x < vlmaxOf t.q e.vtype → elemGet u.v t.q vd.toNat dw x = elemGet t.v t.q vd.toNat dw x)
    (hout : ∀ k, OutsideGroup vd.toNat (groupSize e.vtype dw) k → regAt u.v k = regAt t.v k) :
    elemGet u.v t.q r.toNat w n = elemGet t.v t.q r.toNat w n := by
  have hlen := hs.length
  rcases hc with ⟨rfl, rfl⟩ | hc | hc
  · exact hsame n (Nat.le_refl n) (by omega)
  · exact elemGet_congr (group_holds hs r hw hg) (by omega) fun k h1 h2 h3 => hout k ⟨h3, .inr (by omega)⟩
  · exact elemGet_congr (group_holds hs r hw hg) (by omega) fun k h1 h2 h3 => hout k ⟨h3, .inl (by omega)⟩

/-! ## Checks in order -/

theorem needTag_true {b : Bool} (h : b = true) : needTag b = .ok () := by
  rw [h]
  rfl

/-- Tags that agree are passed one after another. -/
theorem tags_agree {x : Px} {ty : Tag} {w : Nat} {srcs : List (VReg × Nat)} (h : ∀ o ∈ srcs, x.tag o.1 w = .ok ty) :
    (forIn srcs PUnit.unit fun o _ => (do
      let u ← x.tag o.1 w
      needTag (u == ty)
      pure (ForInStep.yield PUnit.unit) : Except Cause (ForInStep PUnit))) = .ok PUnit.unit := by
  induction srcs with
  | nil => rfl
  | cons o os ih =>
    rw [List.forIn_cons, h o (by simp)]
    show (needTag (ty == ty) >>= _) >>= _ = _
    rw [needTag_true (beq_self_eq_true ty)]
    exact ih fun p hp => h p (by simp [hp])

/-- The registers of a second operand. -/
def Second.regs : Second → List VReg
  | .vec r => [r]
  | _ => []

theorem mem_elementSources {va : VReg} {b : Second} {vd : VReg} {useD : Bool} {w : Nat} {o : VReg × Nat}
    (h : o ∈ elementSources va b vd useD w) : o.2 = w ∧ o.1 ∈ [va] ++ b.regs ++ if useD then [vd] else [] := by
  unfold elementSources at h
  cases b <;> cases useD <;> simp [Second.regs] at h ⊢ <;> aesop

/-- What an element-wise instruction computes from an element's sources in the strand it finds. -/
def elementValue (x : Px) (va : VReg) (b : Second) (vd : VReg) (useD : Bool) (f : Nat → Nat → Nat → Nat × Flags) (st : Strand) (n : Nat) :
    Nat × Flags :=
  f (liveElem x.q va x.ew st n) (match b with
      | .vec r => liveElem x.q r x.ew st n
      | .scalar => (x.op 0).toNat % 2 ^ x.ew
      | .unary => 0) (if useD then liveElem x.q vd x.ew st n else 0)

/-- Its checks passed, an element-wise instruction tags its destination and computes element by element. -/
theorem prepElement_passes {x : Px} {vd va : VReg} {b : Second} {named ty : Tag} {m : MaskOp} {useD : Bool} {accept : Tag → Bool}
    {f : Tag → Nat → Nat → Nat → Nat × Flags} (hvl : x.vl ≠ 0) (hg : groupOk vd.toNat (groupSize x.vt (ewOf x.vt)) = true)
    (ha : accept ty = true) (hn : tyOk named ty = true) {t : Strand} (hv : x.src.v = t.v)
    (hs : ∀ r ∈ [va] ++ b.regs ++ (if useD then [vd] else []), SourceGroup t x.vt r (ewOf x.vt) ty ∧ Clear x.vt vd (ewOf x.vt) r (ewOf x.vt)) :
    prepElement x vd va b named m useD accept f = .ok { x.t with v := setTags x.t.v vd.toNat (groupSize x.vt (ewOf x.vt)) ty }
      (maskedMop x.vt m (.vec vd.toNat x.ew) x.vl x.vlmax (elementValue x va b vd useD (f ty))) := by
  have hgroups : x.groups (some (vd, x.ew)) (elementSources va b vd useD x.ew) = .ok () := Px.groups_clear hg fun o ho => by
    obtain ⟨hw, hr⟩ := mem_elementSources ho
    rw [hw]
    exact ⟨(hs o.1 hr).1.placed, (hs o.1 hr).2⟩
  have htag (r : VReg) (hr : r ∈ [va] ++ b.regs ++ if useD then [vd] else []) : x.tag r x.ew = .ok ty := Px.tag_source (hs r hr).1 hv
  have hchecks : (do
      x.groups (some (vd, x.ew)) (elementSources va b vd useD x.ew)
      let t ← x.tag va x.ew
      for o in elementSources va b vd useD x.ew do
        let u ← x.tag o.1 x.ew
        needTag (u == t)
      needTag (accept t && tyOk named t)
      pure t : Except Cause Tag) = .ok ty := by
    rw [hgroups, htag va (by simp)]
    show (forIn (elementSources va b vd useD x.ew) PUnit.unit fun o _ => (do
      let u ← x.tag o.1 x.ew
      needTag (u == ty)
      pure (ForInStep.yield PUnit.unit) : Except Cause (ForInStep PUnit))) >>= _ = _
    rw [tags_agree fun o ho => htag o.1 (mem_elementSources ho).2]
    show needTag (accept ty && tyOk named ty) >>= _ = _
    rw [ha, hn]
    rfl
  unfold prepElement
  dsimp only
  rw [hchecks]
  exact if_neg hvl

/-! ## What they write -/

theorem eachActive_eq {t u : Strand} {e : Entry} {m : MaskOp} {n : Nat} {x y : Nat × Flags} (hk : u.k = t.k) (h : x = y) :
    (if admits u.k m n then (let (x, fl) := x; (Put.val x, fl)) else (inactive e.vtype, 0)) = under t e m n y := by
  subst h
  unfold under inactive
  rw [hk]

/-- Under one `vtype` and mask: each active element by `value`, from the sources as they stood. -/
theorem performs_masked {s : State} {sid : Nat} {t : Strand} {e : Entry} (h : Alone s sid t e) (hs : Setting t e) {vd : VReg} {w : Nat}
    (hw : w = 4 ∨ w = 8 ∨ w = 16 ∨ w = 32 ∨ w = 64) (hg : groupOk vd.toNat (groupSize e.vtype w) = true) {ty : Tag} {m : MaskOp}
    (ha : isVamo e.i = false) {value : Strand → Nat → Nat × Flags} (hp : prepare e.i (e.px t s ⟨t.v, t.k⟩ e.vl true none false)
      = .ok { t with v := setTags t.v vd.toNat (groupSize e.vtype w) ty }
          (maskedMop e.vtype m (.vec vd.toNat w) e.vl (vlmaxOf t.q e.vtype) value))
    {g : Nat → Nat × Flags} (hf : ∀ n < e.vl, ∀ u : Strand, u = { t with v := u.v, lflags := u.lflags } →
      (∀ x, n ≤ x → x < vlmaxOf t.q e.vtype → elemGet u.v t.q vd.toNat w x = elemGet t.v t.q vd.toNat w x) →
      (∀ r, OutsideGroup vd.toNat (groupSize e.vtype w) r → regAt u.v r = regAt t.v r) → value u n = g n) :
    Performs s sid e none fun s' t' => Wrote s s' t t' e vd.toNat w ty fun n => under t e m n (g n) := by
  refine performs_element h hs hw hg ha hp fun n hn u hu h1 h2 => ?_
  exact eachActive_eq (by rw [hu]) (hf n hn u hu h1 h2)

/-- The number a second operand gives element n. -/
def secondValue (t : Strand) (e : Entry) (b : Second) (n : Nat) : Nat :=
  match b with
  | .vec r => elem t e r n
  | .scalar => scalarOp e 0
  | .unary => 0

/-- An element-wise instruction writes what its function gives of its sources. -/
theorem writesGroup_element {i : Instr} {vd va : VReg} {b : Second} {named : Tag} {m : MaskOp} {useD : Bool} {accept : Tag → Bool}
    {f : BitVec 12 → Tag → Nat → Nat → Nat → Nat × Flags}
    (hp : ∀ x, prepare i x = prepElement x vd va b named m useD accept (f x.vt)) (ha : isVamo i = false) :
    WritesGroup i vd ([va] ++ b.regs ++ if useD then [vd] else []) m (fun ty => accept ty && tyOk named ty)
      fun t e ty n => f e.vtype ty (elem t e va n) (secondValue t e b n) (if useD then elem t e vd n else 0) := by
  intro s sid t e ty h hs hi hg hacc hsrc
  obtain ⟨hacc, hnamed⟩ := Bool.and_eq_true_iff.1 hacc
  have hvl : e.vl ≠ 0 := by have := hs.length; omega
  refine performs_masked h hs (ew_cases hs.vtype) hg (by rw [hi]; exact ha)
    (value := elementValue (e.px t s ⟨t.v, t.k⟩ e.vl true none false) va b vd useD (f e.vtype ty)) ?_ fun n hn u hu h1 h2 => ?_
  · rw [hi, hp]
    exact prepElement_passes (x := e.px t s ⟨t.v, t.k⟩ e.vl true none false) hvl hg hacc hnamed rfl hsrc
  · have hlive (r : VReg) (hr : r ∈ [va] ++ b.regs ++ if useD then [vd] else []) :
        liveElem t.q r (ewOf e.vtype) u n = elem t e r n :=
      source_unchanged hs (ew_cases hs.vtype) (hsrc r hr).1.placed (hsrc r hr).2 hn h1 h2
    show f e.vtype ty (liveElem t.q va (ewOf e.vtype) u n) _ _ = _
    rw [hlive va (by simp)]
    congr 1
    · cases b with
      | vec r => exact hlive r (by simp [Second.regs])
      | scalar | unary => rfl
    · cases useD with
      | true => exact hlive vd (by simp)
      | false => rfl

/-- The same written in other words. -/
theorem WritesGroup.congr {i : Instr} {vd : VReg} {srcs : List VReg} {m : MaskOp} {acc acc' : Tag → Bool}
    {g g' : Strand → Entry → Tag → Nat → Nat × Flags} (h : WritesGroup i vd srcs m acc g) (hne : srcs ≠ [])
    (hacc : ∀ ty, acc' ty = true → acc ty = true)
    (hg : ∀ t e ty n, Setting t e → acc' ty = true → (ty = .raw ∨ ty.width = some (ewOf e.vtype)) → g t e ty n = g' t e ty n) :
    WritesGroup i vd srcs m acc' g' := by
  intro s sid t e ty hal hs hi hgr ha hsrc
  obtain ⟨r, hr⟩ := List.exists_mem_of_ne_nil srcs hne
  have hw := (hsrc r hr).1.width
  have := h s sid t e ty hal hs hi hgr (hacc ty ha) hsrc
  simp only [hg t e ty _ hs ha hw] at this
  exact this

end Sys2Proof.Machine
end

section
/-!
SUPPORT. The integer operations on elements.
-/

namespace Sys2Proof.Machine

/-! ## Integers of an element -/

section
variable {w : Nat} {ty : Tag}

theorem isInt_width (h : ty.isInt = true) (hw : ty = .raw ∨ ty.width = some w) : ty.width = some w := by
  rcases hw with rfl | hw
  · cases h
  · exact hw

theorem wrapTo_eq_ofInt (w : Nat) (x : Int) : wrapTo w x = (BitVec.ofInt w x).toNat := by
  rw [wrapTo, BitVec.toNat_ofInt]

variable (hw : ty.width = some w) (hpos : 0 < w)
include hw hpos

theorem intValue_eq {x : Nat} (hx : x < 2 ^ w) : ty.intValue x = intOf ty w x := by
  unfold Tag.intValue intOf
  rw [hw]
  dsimp only
  rw [signedOf_eq_toInt hpos, Nat.mod_eq_of_lt hx]

omit hpos in
theorem intTo_eq (sat : Bool) (v : Int) : intTo ty sat v = narrowed ty w sat v := by
  have hlo : ty.intMin = if ty.isSigned then -2 ^ (w - 1) else 0 := by
    unfold Tag.intMin
    rw [hw]
    simp
  have hhi : ty.intMax = if ty.isSigned then 2 ^ (w - 1) - 1 else 2 ^ w - 1 := by
    unfold Tag.intMax
    rw [hw]
    simp
  unfold intTo narrowed
  dsimp only
  rw [hw, Option.getD_some, wrapTo_eq_ofInt, wrapTo_eq_ofInt, wrapTo_eq_ofInt, hlo, hhi]
  simp only [Bool.and_eq_true, decide_eq_true_eq, gt_iff_lt]
  rfl

omit hw hpos in
theorem intOf_mod {x : Nat} (hx : x < 2 ^ w) : (intOf ty w x) % (2 ^ w : Nat) = (x : Int) := by
  unfold intOf
  split
  · rw [BitVec.toInt_eq_toNat_bmod, BitVec.toNat_ofNat, Int.bmod_emod, Nat.mod_eq_of_lt hx]
    exact Int.emod_eq_of_lt (by omega) (by exact_mod_cast hx)
  · exact Int.emod_eq_of_lt (by omega) (by exact_mod_cast hx)

omit hw hpos in
/-- An integer stands for one element. -/
theorem intOf_inj {x y : Nat} (hx : x < 2 ^ w) (hy : y < 2 ^ w) (h : intOf ty w x = intOf ty w y) : x = y := by
  have h1 := intOf_mod (ty := ty) hx
  rw [h, intOf_mod hy] at h1
  exact_mod_cast h1.symm

omit hw hpos in
/-- Products and sums of integers go by their elements modulo 2^EW. -/
theorem ofInt_mul_add {x y z : Nat} (hx : x < 2 ^ w) (hy : y < 2 ^ w) (hz : z < 2 ^ w) :
    (BitVec.ofInt w (intOf ty w x * intOf ty w y + intOf ty w z)).toNat = (x * y + z) % 2 ^ w := by
  rw [← wrapTo_eq_ofInt, wrapTo, Int.add_emod, Int.mul_emod, intOf_mod hx, intOf_mod hy, intOf_mod hz,
    Int.emod_add_emod]
  norm_cast

omit hw hpos in
theorem ofInt_mul {x y : Nat} (hx : x < 2 ^ w) (hy : y < 2 ^ w) :
    (BitVec.ofInt w (intOf ty w x * intOf ty w y)).toNat = x * y % 2 ^ w := by
  rw [← wrapTo_eq_ofInt, wrapTo, Int.mul_emod, intOf_mod hx, intOf_mod hy]
  norm_cast

end

theorem shiftLeft_eq {w a : Nat} (n : Nat) (ha : a < 2 ^ w) : (BitVec.ofNat w a <<< n).toNat = a * 2 ^ n % 2 ^ w := by
  rw [BitVec.toNat_shiftLeft, BitVec.toNat_ofNat, Nat.mod_eq_of_lt ha, Nat.shiftLeft_eq]

theorem shiftRight_eq {w a : Nat} (n : Nat) (ha : a < 2 ^ w) : (BitVec.ofNat w a >>> n).toNat = a / 2 ^ n := by
  rw [BitVec.toNat_ushiftRight, BitVec.toNat_ofNat, Nat.mod_eq_of_lt ha, Nat.shiftRight_eq_div_pow]

theorem shiftArith_eq {w : Nat} (hw : 0 < w) (a n : Nat) :
    ((BitVec.ofNat w a).sshiftRight n).toNat = wrapTo w (signedOf w a / (2 ^ n : Nat)) := by
  rw [wrapTo_eq_ofInt, signedOf_eq_toInt hw, BitVec.sshiftRight, Int.shiftRight_eq_div_pow]

/-! ## The operations -/

/-- The operations in the order of their results. -/
def intOps : List IntOp := [.add, .sub, .mul, .mulh, .madd, .min, .max, .and, .or, .xor, .shl, .shr, .sar]

/-- The instruction of an operation on two vectors. -/
def intVv (o : IntOp) (a : Vv) : Instr :=
  match o with
  | .add => .vadd a
  | .sub => .vsub a
  | .mul => .vmul a
  | .mulh => .vmulh a
  | .madd => .vmadd a
  | .min => .vmin a
  | .max => .vmax a
  | .and => .vand a
  | .or => .vor a
  | .xor => .vxor a
  | .shl => .vshl a
  | .shr => .vshr a
  | .sar => .vsar a

/-- The instruction of an operation on a vector and a scalar. -/
def intVx (o : IntOp) (a : Vx) : Instr :=
  match o with
  | .add => .vaddX a
  | .sub => .vsubX a
  | .mul => .vmulX a
  | .mulh => .vmulhX a
  | .madd => .vmaddX a
  | .min => .vminX a
  | .max => .vmaxX a
  | .and => .vandX a
  | .or => .vorX a
  | .xor => .vxorX a
  | .shl => .vshlX a
  | .shr => .vshrX a
  | .sar => .vsarX a

/-- The result of an operation as the rules state it. -/
theorem apply_eq_intResult {w : Nat} {ty : Tag} (hpos : 0 < w) (sat : Bool) {a b d : Nat} (ha : a < 2 ^ w) (hb : b < 2 ^ w) (hd : d < 2 ^ w)
    {k : Nat} (hk : k < 13) (hty : (ty.isInt || decide (7 ≤ k) && ty == .raw) = true) (hw : ty = .raw ∨ ty.width = some w) :
    (intOps.getD k .add).apply w sat ty a b d = (intResult w ty sat a b d).getD k (0, 0) := by
  have hint (h : k < 7) : ty.width = some w := by
    refine isInt_width ?_ hw
    simpa [show ¬ 7 ≤ k by omega] using hty
  interval_cases k
  · show intTo ty sat _ = narrowed ty w sat _
    rw [intValue_eq (hint (by omega)) hpos ha, intValue_eq (hint (by omega)) hpos hb, intTo_eq (hint (by omega))]
  · show intTo ty sat _ = narrowed ty w sat _
    rw [intValue_eq (hint (by omega)) hpos ha, intValue_eq (hint (by omega)) hpos hb, intTo_eq (hint (by omega))]
  · show (_, _) = ((BitVec.ofInt w (intOf ty w a * intOf ty w b)).toNat, (0 : Flags))
    rw [ofInt_mul ha hb]
  · show (wrapTo w (ty.intValue a * ty.intValue b / (2 ^ w : Nat)), (0 : Flags)) = _
    rw [intValue_eq (hint (by omega)) hpos ha, intValue_eq (hint (by omega)) hpos hb, wrapTo_eq_ofInt]
    norm_cast
  · show (_, _) = ((BitVec.ofInt w (intOf ty w a * intOf ty w b + intOf ty w d)).toNat, (0 : Flags))
    rw [ofInt_mul_add ha hb hd]
  · show (if ty.intValue b < ty.intValue a then b else a, (0 : Flags)) = (if intOf ty w a ≤ intOf ty w b then a else b, 0)
    rw [intValue_eq (hint (by omega)) hpos ha, intValue_eq (hint (by omega)) hpos hb, ite_lt_eq_ite_le]
  · show (if ty.intValue a < ty.intValue b then b else a, (0 : Flags)) = (if intOf ty w a ≤ intOf ty w b then b else a, 0)
    rw [intValue_eq (hint (by omega)) hpos ha, intValue_eq (hint (by omega)) hpos hb]
    by_cases he : intOf ty w a = intOf ty w b
    · rw [intOf_inj ha hb he, ite_self, ite_self]
    · rw [if_congr (show intOf ty w a < intOf ty w b ↔ intOf ty w a ≤ intOf ty w b by omega) rfl rfl]
  · rfl
  · rfl
  · rfl
  · exact Prod.ext (shiftLeft_eq _ ha).symm rfl
  · exact Prod.ext (shiftRight_eq _ ha).symm rfl
  · exact Prod.ext (shiftArith_eq hpos a _).symm rfl

/-- The tags an operation accepts. -/
theorem accepts_of {k : Nat} (hk : k < 13) {named ty : Tag} (h : ((ty.isInt || decide (7 ≤ k) && ty == .raw) && (named == .raw || named == ty)) = true) :
    ((intOps.getD k .add).accepts ty && tyOk named ty) = true := by
  obtain ⟨h1, h2⟩ := Bool.and_eq_true_iff.1 h
  rw [Bool.and_eq_true_iff]
  refine ⟨?_, h2⟩
  by_cases h7 : 7 ≤ k
  · have hor : (ty == .raw || ty.isInt) = true := by
      rw [Bool.or_comm]
      simpa [h7] using h1
    interval_cases k <;> exact hor
  · have hint : ty.isInt = true := by simpa [h7] using h1
    interval_cases k <;> exact hint

theorem ew_pos {vt : BitVec 12} (h : vtypeOk vt = true) : 0 < ewOf vt := by
  have := ew_cases h
  omega

theorem elem_lt (t : Strand) (e : Entry) (r : VReg) (n : Nat) : elem t e r n < 2 ^ ewOf e.vtype := elemGet_lt _ _ _ _ _

theorem scalarOp_lt (e : Entry) (k : Nat) : scalarOp e k < 2 ^ ewOf e.vtype := Nat.mod_lt _ (Nat.two_pow_pos _)

theorem prepare_intVv (o : IntOp) (a : Vv) (x : Px) : prepare (intVv o a) x = prepIntVv o a x := by
  cases o <;> rfl

theorem prepare_intVx (o : IntOp) (a : Vx) (x : Px) : prepare (intVx o a) x = prepIntVx o a x := by
  cases o <;> rfl

theorem isVamo_intVv (o : IntOp) (a : Vv) : isVamo (intVv o a) = false := by
  cases o <;> rfl

theorem isVamo_intVx (o : IntOp) (a : Vx) : isVamo (intVx o a) = false := by
  cases o <;> rfl

/-- Only the product with a sum reads its destination. -/
theorem intResult_addend {k : Nat} (hk : k < 13) (h4 : k ≠ 4) (w : Nat) (ty : Tag) (sat : Bool) (a b d d' : Nat) :
    (intResult w ty sat a b d).getD k (0, 0) = (intResult w ty sat a b d').getD k (0, 0) := by
  obtain h | h : k < 4 ∨ 4 < k := by omega
  · interval_cases k <;> rfl
  · interval_cases k <;> rfl

theorem readsDest_iff {k : Nat} (hk : k < 13) : ((intOps.getD k .add == .madd) = true) = (k = 4) := by
  interval_cases k <;> simp [intOps]

section
variable {k : Nat} (hk : k < 13)
include hk

/-- The results of an operation on elements and a second number. -/
theorem intValue_at {ty named : Tag} {vt : BitVec 12} (hv : vtypeOk vt = true) (sat : Bool) {a b d : Nat} (ha : a < 2 ^ ewOf vt)
    (hb : b < 2 ^ ewOf vt) (hd : d < 2 ^ ewOf vt)
    (hacc : ((ty.isInt || decide (7 ≤ k) && ty == .raw) && (named == .raw || named == ty)) = true) (hw : ty = .raw ∨ ty.width = some (ewOf vt)) :
    (intOps.getD k .add).apply (ewOf vt) sat ty a b (if intOps.getD k .add == .madd then d else 0)
      = (intResult (ewOf vt) ty sat a b d).getD k (0, 0) := by
  obtain ⟨hty, -⟩ := Bool.and_eq_true_iff.1 hacc
  by_cases h4 : k = 4
  · rw [if_pos ((readsDest_iff hk).mpr h4)]
    exact apply_eq_intResult (ew_pos hv) sat ha hb hd hk hty hw
  · rw [if_neg fun h => h4 ((readsDest_iff hk).mp h), apply_eq_intResult (ew_pos hv) sat ha hb (Nat.two_pow_pos _) hk hty hw]
    exact intResult_addend hk h4 _ _ _ _ _ _ _

theorem writesGroup_intVv (a : Vv) :
    WritesGroup (intVv (intOps.getD k .add) a) a.vd ([a.va, a.vb] ++ if k = 4 then [a.vd] else []) a.m
      (fun ty => (ty.isInt || decide (7 ≤ k) && ty == .raw) && (a.ty == .raw || a.ty == ty))
      fun t e ty n => (intResult (ewOf e.vtype) ty a.sat (elem t e a.va n) (elem t e a.vb n) (elem t e a.vd n)).getD k (0, 0) := by
  have hw := writesGroup_element (i := intVv (intOps.getD k .add) a) (vd := a.vd) (va := a.va) (b := .vec a.vb) (named := a.ty) (m := a.m)
    (useD := intOps.getD k .add == .madd) (accept := (intOps.getD k .add).accepts)
    (f := fun vt t p b d => (intOps.getD k .add).apply (ewOf vt) a.sat t p b d) (fun x => prepare_intVv _ a x) (isVamo_intVv _ a)
  simp only [readsDest_iff hk] at hw
  refine WritesGroup.congr hw (by simp) (fun ty h => accepts_of hk h) fun t e ty n hs hacc hwid => ?_
  rw [← intValue_at hk hs.vtype a.sat (elem_lt ..) (elem_lt ..) (elem_lt ..) hacc hwid]
  simp only [readsDest_iff hk]
  rfl

theorem writesGroup_intVx (a : Vx) :
    WritesGroup (intVx (intOps.getD k .add) a) a.vd ([a.va] ++ if k = 4 then [a.vd] else []) a.m
      (fun ty => (ty.isInt || decide (7 ≤ k) && ty == .raw) && (a.ty == .raw || a.ty == ty))
      fun t e ty n => (intResult (ewOf e.vtype) ty a.sat (elem t e a.va n) (scalarOp e 0) (elem t e a.vd n)).getD k (0, 0) := by
  have hw := writesGroup_element (i := intVx (intOps.getD k .add) a) (vd := a.vd) (va := a.va) (b := .scalar) (named := a.ty) (m := a.m)
    (useD := intOps.getD k .add == .madd) (accept := (intOps.getD k .add).accepts)
    (f := fun vt t p b d => (intOps.getD k .add).apply (ewOf vt) a.sat t p b d) (fun x => prepare_intVx _ a x) (isVamo_intVx _ a)
  simp only [readsDest_iff hk] at hw
  refine WritesGroup.congr hw (by simp) (fun ty h => accepts_of hk h) fun t e ty n hs hacc hwid => ?_
  rw [← intValue_at hk hs.vtype a.sat (elem_lt ..) (scalarOp_lt e 0) (elem_lt ..) hacc hwid]
  simp only [readsDest_iff hk]
  rfl

end

end Sys2Proof.Machine

open Sys2Proof Sys2Proof.Machine

/-- Settles O30: each operation is element-wise, and its result on elements is the one R203 states. -/
theorem vectorIntegerResults : Obligations.VectorIntegerResults := by
  intro a b k hk
  have hi : [Instr.vadd a, .vsub a, .vmul a, .vmulh a, .vmadd a, .vmin a, .vmax a, .vand a, .vor a, .vxor a, .vshl a, .vshr a,
      .vsar a].getD k .nop = intVv (intOps.getD k .add) a := by
    interval_cases k <;> rfl
  have hj : [Instr.vaddX b, .vsubX b, .vmulX b, .vmulhX b, .vmaddX b, .vminX b, .vmaxX b, .vandX b, .vorX b, .vxorX b, .vshlX b,
      .vshrX b, .vsarX b].getD k .nop = intVx (intOps.getD k .add) b := by
    interval_cases k <;> rfl
  dsimp only
  rw [hi, hj]
  exact ⟨writesGroup_intVv hk a, writesGroup_intVx hk b⟩

end

section
/-!
SUPPORT. Compares, mask operations, selects, moves and tags.
-/

namespace Sys2Proof.Machine

/-! ## Order of float values -/

theorem finLt_asymm {na nb : Bool} {ma mb : Nat} {ea eb : Int} (h : finLt na ma ea nb mb eb = true) : finLt nb mb eb na ma ea = false := by
  unfold finLt at *
  rw [min_comm eb ea]
  simp only [decide_eq_true_eq, decide_eq_false_iff_not] at *
  omega

theorem Fv.lt_asymm {a b : Fv} (h : a.lt b = true) : b.lt a = false := by
  cases a with
  | nan q => cases h
  | inf n =>
    cases b with
    | nan q => cases h
    | inf k => cases n <;> cases k <;> simp_all [Fv.lt]
    | fin k m e => simpa [Fv.lt] using h
  | fin n m e =>
    cases b with
    | nan q => cases h
    | inf k => simpa [Fv.lt] using h
    | fin k m' e' => exact finLt_asymm h

theorem Fv.lt_num {a b : Fv} (h : a.lt b = true) : a.isNan = false ∧ b.isNan = false := by
  cases a with
  | nan q => cases h
  | inf n | fin n m e =>
    cases b with
    | nan q => cases h
    | inf k | fin k m' e' => exact ⟨rfl, rfl⟩

theorem Fv.lt_or_eq (a b : Fv) : (a.lt b || a.eq b) = (!a.isNan && !b.isNan && !b.lt a) := by
  unfold Fv.eq
  cases h : a.lt b with
  | true =>
    obtain ⟨h1, h2⟩ := Fv.lt_num h
    rw [Fv.lt_asymm h, h1, h2]
    rfl
  | false => simp

theorem snan_or (a b : Fv) : snan a ||| snan b = if a = .nan true ∨ b = .nan true then (1 : Flags) else 0 := by
  have hs (v : Fv) : snan v = if v = .nan true then (1 : Flags) else 0 := by
    cases v with
    | nan q => cases q <;> rfl
    | inf n => rfl
    | fin n m e => rfl
  rw [hs, hs]
  by_cases h1 : a = .nan true <;> by_cases h2 : b = .nan true <;> simp [h1, h2]

theorem flagIf_nan (a b : Fv) : flagIf (a.isNan || b.isNan) flagNv = if a.isNan ∨ b.isNan then (1 : Flags) else 0 := by
  unfold flagIf
  exact if_congr (by simp) rfl rfl

/-! ## Compares -/

/-- The relations in the order of their results. -/
def rels : List Rel := [.eq, .ne, .lt, .ge, .ltN, .geN, .feq, .flt, .fle, .fun_]

/-- The instruction of a relation. -/
def compareOf (r : Rel) (a : Vk) : Instr :=
  match r with
  | .eq => .vcmpEq a
  | .ne => .vcmpNe a
  | .lt => .vcmpLt a
  | .ge => .vcmpGe a
  | .ltN => .vcmpLtN a
  | .geN => .vcmpGeN a
  | .feq => .vcmpFeq a
  | .flt => .vcmpFlt a
  | .fle => .vcmpFle a
  | .fun_ => .vcmpFun a

theorem relApply_eq {w : Nat} (hw : 0 < w) (ty : Tag) (a b : Nat) {k : Nat} (hk : k < 10) :
    (rels.getD k .eq).apply w ty a b = (relResult w ty a b).getD k (false, 0) := by
  interval_cases k
  · show (a == b, (0 : Flags)) = (decide (a = b), 0)
    rfl
  · show (a != b, (0 : Flags)) = (decide (a ≠ b), 0)
    rw [bne, decide_not]
    rfl
  · show (decide (signedOf w a < signedOf w b), (0 : Flags)) = _
    rw [signedOf_eq_toInt hw, signedOf_eq_toInt hw]
    rfl
  · show (decide (signedOf w b ≤ signedOf w a), (0 : Flags)) = _
    rw [signedOf_eq_toInt hw, signedOf_eq_toInt hw]
    rfl
  · rfl
  · rfl
  · show (Fv.eq _ _, snan _ ||| snan _) = _
    rw [snan_or]
    rfl
  · show (Fv.lt _ _, flagIf _ _) = _
    rw [flagIf_nan]
    rfl
  · show (Fv.lt _ _ || Fv.eq _ _, flagIf _ _) = _
    rw [flagIf_nan, Fv.lt_or_eq]
    rfl
  · show (_, snan _ ||| snan _) = _
    rw [snan_or]
    rfl

/-- A live source of an instruction that writes a mask stands as it stood. -/
theorem liveElem_mask {t u : Strand} (hu : u = { t with k := u.k, lflags := u.lflags }) (q : Nat) (r : VReg) (w n : Nat) :
    liveElem q r w u n = elemGet t.v q r.toNat w n := by
  rw [hu]
  rfl

theorem admits_mask {t u : Strand} {n : Nat} (hn : n < 262144) (hk : ∀ k x, n ≤ x → x < 262144 → maskBit u.k k x = maskBit t.k k x)
    (m : MaskOp) : admits u.k m n = admits t.k m n := by
  unfold admits
  rw [hk m.k n (Nat.le_refl n) hn]

section
variable {s : State} {sid : Nat} {t : Strand} {e : Entry} (h : Alone s sid t e) (hs : Setting t e)
include h hs

omit h in
theorem Setting.lt_mask {n : Nat} (hn : n < e.vl) : n < 262144 := by
  have := vlmax_le hs
  have := hs.length
  omega

omit h hs in
theorem compare_passes {r : Rel} {a : Vk} {ty : Tag} (ha : SourceGroup t e.vtype a.va (ewOf e.vtype) ty)
    (hb : SourceGroup t e.vtype a.vb (ewOf e.vtype) ty) (hacc : (tyOk a.ty ty && if r.isFloat then isArithFloat ty else ty == .raw || ty.isInt) = true) :
    prepCompare r a (e.px t s ⟨t.v, t.k⟩ e.vl true none false) = .ok t (elementMop e.vtype (.mask a.kd) e.vl (vlmaxOf t.q e.vtype) fun st n =>
      if admits st.k a.m n then
        (.val (if (r.apply (ewOf e.vtype) ty (liveElem t.q a.va (ewOf e.vtype) st n) (liveElem t.q a.vb (ewOf e.vtype) st n)).1 then 1 else 0),
          (r.apply (ewOf e.vtype) ty (liveElem t.q a.va (ewOf e.vtype) st n) (liveElem t.q a.vb (ewOf e.vtype) st n)).2)
      else (inactive e.vtype, 0)) := by
  let x : Px := e.px t s ⟨t.v, t.k⟩ e.vl true none false
  have hg : x.groups none [(a.va, x.ew), (a.vb, x.ew)] = .ok () := Px.groups_sources fun o ho => by
    simp only [List.mem_cons, List.not_mem_nil, or_false] at ho
    rcases ho with rfl | rfl
    · exact ha.placed
    · exact hb.placed
  have hchecks : (do
      x.groups none [(a.va, x.ew), (a.vb, x.ew)]
      let t ← x.tag a.va x.ew
      let u ← x.tag a.vb x.ew
      needTag (u == t && tyOk a.ty t && if r.isFloat then isArithFloat t else t == .raw || t.isInt)
      pure t : Except Cause Tag) = .ok ty := by
    rw [hg, show x.tag a.va x.ew = .ok ty from Px.tag_source (t := t) ha rfl]
    show (x.tag a.vb x.ew >>= _) = _
    rw [show x.tag a.vb x.ew = .ok ty from Px.tag_source (t := t) hb rfl]
    show needTag (ty == ty && tyOk a.ty ty && _) >>= _ = _
    rw [needTag_true (by rw [beq_self_eq_true, Bool.true_and]; exact hacc)]
    rfl
  unfold prepCompare
  dsimp only
  rw [show (do
      x.groups none [(a.va, x.ew), (a.vb, x.ew)]
      let t ← x.tag a.va x.ew
      let u ← x.tag a.vb x.ew
      needTag (u == t && tyOk a.ty t && if r.isFloat then isArithFloat t else t == .raw || t.isInt)
      pure t : Except Cause Tag) = .ok ty from hchecks]
  rfl

theorem compares {a : Vk} {ty : Tag} {k : Nat} (hk : k < 10) (hi : e.i = compareOf (rels.getD k .eq) a)
    (ha : SourceGroup t e.vtype a.va (ewOf e.vtype) ty) (hb : SourceGroup t e.vtype a.vb (ewOf e.vtype) ty)
    (hacc : (if k < 6 then (ty.isInt || ty == .raw) && (a.ty == .raw || a.ty == ty) else floatAccept a.ty ty) = true) :
    Performs s sid e none fun s' t' => WroteMask s s' t t' e a.kd fun n =>
      let r := (relResult (ewOf e.vtype) ty (elem t e a.va n) (elem t e a.vb n)).getD k (false, 0)
      under t e a.m n (if r.1 then 1 else 0, r.2) := by
  have hprep (x : Px) : prepare e.i x = prepCompare (rels.getD k .eq) a x := by
    rw [hi]
    cases rels.getD k .eq <;> rfl
  have hva : isVamo e.i = false := by
    rw [hi]
    cases rels.getD k .eq <;> rfl
  have hok : (tyOk a.ty ty && if (rels.getD k .eq).isFloat then isArithFloat ty else ty == .raw || ty.isInt) = true := by
    by_cases h6 : k < 6
    · rw [if_pos h6, Bool.and_comm, Bool.or_comm ty.isInt] at hacc
      interval_cases k <;> exact hacc
    · rw [if_neg h6, floatAccept, Bool.and_comm] at hacc
      interval_cases k <;> exact hacc
  refine performs_mask h hs hva ((hprep _).trans (compare_passes ha hb hok)) fun n hn u hu hm => ?_
  dsimp only
  rw [admits_mask (Setting.lt_mask hs hn) hm, liveElem_mask hu, liveElem_mask hu, relApply_eq (ew_pos hs.vtype) _ _ _ hk]
  rfl

/-! ## Mask operations and selects -/

theorem maskResults {kd : KReg} {f : Strand → Nat → Bool} {g : Nat → Bool} (hva : isVamo e.i = false)
    (hprep : ∀ x, prepare e.i x = prepMask kd f x)
    (hf : ∀ n < e.vl, ∀ u : Strand, (∀ k x, n ≤ x → x < 262144 → maskBit u.k k x = maskBit t.k k x) → f u n = g n) :
    Performs s sid e none fun s' t' => WroteMask s s' t t' e kd fun n => (.val (if g n then 1 else 0), 0) := by
  refine performs_mask h hs hva (hprep _) fun n hn u _ hm => ?_
  rw [hf n hn u hm]

theorem selects {a : Vp} {ty : Tag} (hi : e.i = .vsel a) (hg : groupOk a.vd.toNat (groupSize e.vtype (ewOf e.vtype)) = true)
    (ha : SourceGroup t e.vtype a.va (ewOf e.vtype) ty) (hb : SourceGroup t e.vtype a.vb (ewOf e.vtype) ty)
    (hca : Clear e.vtype a.vd (ewOf e.vtype) a.va (ewOf e.vtype)) (hcb : Clear e.vtype a.vd (ewOf e.vtype) a.vb (ewOf e.vtype)) :
    Performs s sid e none fun s' t' => Wrote s s' t t' e a.vd.toNat (ewOf e.vtype) ty fun n =>
      (.val (keptBits ty (if admits t.k a.m n then elem t e a.va n else elem t e a.vb n)), 0) := by
  let x : Px := e.px t s ⟨t.v, t.k⟩ e.vl true none false
  have hvl : e.vl ≠ 0 := by have := hs.length; omega
  have hgr : x.groups (some (a.vd, x.ew)) [(a.va, x.ew), (a.vb, x.ew)] = .ok () := Px.groups_clear hg fun o ho => by
    simp only [List.mem_cons, List.not_mem_nil, or_false] at ho
    rcases ho with rfl | rfl
    · exact ⟨ha.placed, hca⟩
    · exact ⟨hb.placed, hcb⟩
  have hchecks : (do
      x.groups (some (a.vd, x.ew)) [(a.va, x.ew), (a.vb, x.ew)]
      let t ← x.tag a.va x.ew
      let u ← x.tag a.vb x.ew
      needTag (u == t)
      pure t : Except Cause Tag) = .ok ty := by
    rw [hgr, show x.tag a.va x.ew = .ok ty from Px.tag_source (t := t) ha rfl]
    show (x.tag a.vb x.ew >>= _) = _
    rw [show x.tag a.vb x.ew = .ok ty from Px.tag_source (t := t) hb rfl]
    show needTag (ty == ty) >>= _ = _
    rw [needTag_true (beq_self_eq_true ty)]
    rfl
  refine performs_element h hs (ew_cases hs.vtype) hg (by rw [hi]; rfl) (f := fun st n => (.val (ty.kept (if admits st.k a.m n then
    liveElem t.q a.va (ewOf e.vtype) st n else liveElem t.q a.vb (ewOf e.vtype) st n)), 0)) ?_ fun n hn u hu h1 h2 => ?_
  · rw [hi]
    show prepSel a x = _
    unfold prepSel
    dsimp only
    rw [hchecks]
    exact if_neg hvl
  · have hk : u.k = t.k := by rw [hu]
    have la : liveElem t.q a.va (ewOf e.vtype) u n = elem t e a.va n := source_unchanged hs (ew_cases hs.vtype) ha.placed hca hn h1 h2
    have lb : liveElem t.q a.vb (ewOf e.vtype) u n = elem t e a.vb n := source_unchanged hs (ew_cases hs.vtype) hb.placed hcb hn h1 h2
    rw [la, lb, hk, kept_eq_keptBits]

end

theorem compareMaskSelectResults : CompareMaskSelectResults := by
  intro s sid t e h hs
  refine ⟨fun a ty k hk hi ha hb hacc => compares h hs hk (hi.trans ?_) ha hb hacc, fun c kd ka kb hi => ?_, fun c kd ka kb hi => ?_,
    fun c kd ka hi => ?_, fun a ty hi hg ha hb hca hcb => selects h hs hi hg ha hb hca hcb⟩
  · interval_cases k <;> rfl
  · exact maskResults h hs (by rw [hi]; rfl) (fun x => by rw [hi]; rfl) fun n hn u hm => by
      rw [hm ka n (Nat.le_refl n) (Setting.lt_mask hs hn), hm kb n (Nat.le_refl n) (Setting.lt_mask hs hn)]
  · exact maskResults h hs (by rw [hi]; rfl) (fun x => by rw [hi]; rfl) fun n hn u hm => by
      rw [hm ka n (Nat.le_refl n) (Setting.lt_mask hs hn), hm kb n (Nat.le_refl n) (Setting.lt_mask hs hn)]
  · have := maskResults (kd := kd) (f := fun t n => !maskBit t.k ka n) (g := fun n => !maskBit t.k ka n) h hs (by rw [hi]; rfl)
      (fun x => by rw [hi]; rfl) fun n hn u hm => by rw [hm ka n (Nat.le_refl n) (Setting.lt_mask hs hn)]
    have hnot (b : Bool) : (if (!b) = true then 1 else 0) = if b then 0 else 1 := by cases b <;> rfl
    simp only [hnot] at this
    exact this

/-! ## Moves and tags -/

theorem extendElem_eq {ty : Tag} {w x : Nat} (hw : 0 < w) (hty : ty = .raw ∨ ty.width = some w) :
    extendElem ty w x = BitVec.ofInt 64 (intOf ty w x) := by
  unfold extendElem intOf
  split
  · rw [signedOf_eq_toInt hw]
  · exact (BitVec.ofInt_natCast _ _).symm

/-- An element copied. -/
def copyStep (va vd : VReg) (w : Nat) (t : Strand) (n : Nat) : Strand :=
  t.putElem (.vec vd.toNat w) n (.val (liveElem t.q va w t n))

theorem copies_frame (va vd : VReg) (w : Nat) (l : List Nat) (t : Strand) :
    l.foldl (copyStep va vd w) t = { t with v := (l.foldl (copyStep va vd w) t).v } := by
  induction l generalizing t with
  | nil => rfl
  | cons i l ih =>
    rw [List.foldl_cons, ih]
    rfl

theorem copies_indexed (q : Nat) (va vd : VReg) (w : Nat) (l : List Nat) (f : Nat → Nat) (u : Strand) (hu : u.q = q) :
    l.foldl (fun u i => u.putElem (.vec vd.toNat w) (f i) (.val (liveElem q va w u (f i)))) u = (l.map f).foldl (copyStep va vd w) u := by
  induction l generalizing u with
  | nil => rfl
  | cons i l ih =>
    rw [List.foldl_cons, List.map_cons, List.foldl_cons,
      ih (u.putElem (.vec vd.toNat w) (f i) (.val (liveElem q va w u (f i)))) hu, copyStep, hu]

theorem eachElem_copy (q : Nat) (va vd : VReg) (w n k : Nat) (r : Run) (hq : r.t.q = q) :
    eachElem (fun e r => .ok (r.upd fun t => t.putElem (.vec vd.toNat w) e (.val (liveElem q va w t e)))) n k r
      = .ok { r with t := (List.range n).foldl (fun t i => copyStep va vd w t (k + i)) r.t } := by
  induction n generalizing k r with
  | zero => simp [eachElem]
  | succ n ih =>
    rw [eachElem, Rr.bind]
    refine (ih (k + 1) (r.upd fun t => t.putElem (.vec vd.toNat w) k (.val (liveElem q va w t k))) hq).trans ?_
    rw [List.range_succ_eq_map, List.foldl_cons, List.foldl_map]
    congr 2
    have hfun : (fun (t : Strand) (i : Nat) => copyStep va vd w t (k + (i + 1))) = fun t i => copyStep va vd w t (k + 1 + i) := by
      funext t i
      rw [show k + (i + 1) = k + 1 + i by omega]
    show List.foldl _ _ _ = List.foldl _ (copyStep va vd w r.t (k + 0)) _
    rw [Nat.add_zero, copyStep, hq]
    exact (congrArg (fun f => List.foldl f _ _) hfun).symm

section
variable {s : State} {sid : Nat} {t : Strand} {e : Entry} (h : Alone s sid t e) (hs : Setting t e)
include h hs

omit h hs in
/-- The checks of an instruction without a vector source. -/
theorem checks_unsourced {vd : VReg} {ty : Tag} (hg : groupOk vd.toNat (groupSize e.vtype (ewOf e.vtype)) = true)
    (hty : ty = .raw ∨ ty.width = some (ewOf e.vtype)) :
    (do
      (e.px t s ⟨t.v, t.k⟩ e.vl true none false).groups (some (vd, ewOf e.vtype)) []
      needTag (widthOk ty (ewOf e.vtype)) : Except Cause Unit) = .ok () := by
  rw [Px.groups_clear (x := e.px t s ⟨t.v, t.k⟩ e.vl true none false) hg (by simp)]
  refine needTag_true ?_
  unfold widthOk
  rcases hty with hw | hw <;> simp [hw]

theorem broadcasts {c : Bool} {vd : VReg} {sa : SReg} {ty : Tag} {m : MaskOp} (hi : e.i = .vbcast c vd sa ty m)
    (hg : groupOk vd.toNat (groupSize e.vtype (ewOf e.vtype)) = true) (hty : ty = .raw ∨ ty.width = some (ewOf e.vtype)) :
    Performs s sid e none fun s' t' => Wrote s s' t t' e vd.toNat (ewOf e.vtype) ty fun n =>
      under t e m n (keptBits ty (scalarOp e 0), 0) := by
  have hvl : e.vl ≠ 0 := by have := hs.length; omega
  refine performs_masked h hs (ew_cases hs.vtype) hg (by rw [hi]; rfl) (value := fun _ _ => (ty.kept (scalarOp e 0), 0)) ?_
    fun n _ u _ _ _ => by rw [kept_eq_keptBits]
  rw [hi]
  show prepBcast vd ty m _ = _
  unfold prepBcast
  dsimp only
  rw [show (do
      (e.px t s ⟨t.v, t.k⟩ e.vl true none false).groups (some (vd, (e.px t s ⟨t.v, t.k⟩ e.vl true none false).ew)) []
      needTag (widthOk ty (e.px t s ⟨t.v, t.k⟩ e.vl true none false).ew) : Except Cause Unit) = .ok () from checks_unsourced hg hty]
  exact if_neg hvl

theorem movesIn {c : Bool} {vd : VReg} {sa sb : SReg} {ty : Tag} (hi : e.i = .vmvSx c vd sa sb ty)
    (hg : groupOk vd.toNat (groupSize e.vtype (ewOf e.vtype)) = true) (hty : ty = .raw ∨ ty.width = some (ewOf e.vtype)) :
    Performs s sid e none fun s' t' => Wrote s s' t t' e vd.toNat (ewOf e.vtype) ty fun n =>
      (if n = (e.ops.getD 1 0).toNat then .val (keptBits ty (scalarOp e 0)) else if muOf e.vtype then .zero else .keep, 0) := by
  have hvl : e.vl ≠ 0 := by have := hs.length; omega
  refine performs_element h hs (ew_cases hs.vtype) hg (by rw [hi]; rfl) (f := fun _ n =>
    if n = (e.ops.getD 1 0).toNat then (.val (ty.kept (scalarOp e 0)), 0) else (inactive e.vtype, 0)) ?_ fun n _ u _ _ _ => ?_
  · rw [hi]
    show prepMvSx vd ty _ = _
    unfold prepMvSx
    dsimp only
    rw [show (do
        (e.px t s ⟨t.v, t.k⟩ e.vl true none false).groups (some (vd, (e.px t s ⟨t.v, t.k⟩ e.vl true none false).ew)) []
        needTag (widthOk ty (e.px t s ⟨t.v, t.k⟩ e.vl true none false).ew) : Except Cause Unit) = .ok () from checks_unsourced hg hty]
    exact if_neg hvl
  · rw [kept_eq_keptBits]
    by_cases hn : n = (e.ops.getD 1 0).toNat
    · rw [if_pos hn, if_pos hn]
    · rw [if_neg hn, if_neg hn]
      rfl

theorem movesOut {c : Bool} {sd : SReg} {va : VReg} {sb : SReg} {ty : Tag} (hi : e.i = .vmvXs c sd va sb)
    (ha : SourceGroup t e.vtype va (ewOf e.vtype) ty) :
    Performs s sid e (some (if (e.ops.getD 0 0).toNat < e.vl then
        BitVec.ofInt 64 (intOf ty (ewOf e.vtype) (keptBits ty (elem t e va (e.ops.getD 0 0).toNat))) else 0))
      fun s' t' => Delivered s s' t t' e [] := by
  let x : Px := e.px t s ⟨t.v, t.k⟩ e.vl true none false
  have hg : x.groups none [(va, x.ew)] = .ok () := Px.groups_sources fun o ho => by
    obtain rfl := List.mem_singleton.1 ho
    exact ha.placed
  have hchecks : (do
      x.groups none [(va, x.ew)]
      x.tag va x.ew : Except Cause Tag) = .ok ty := by
    rw [hg]
    exact Px.tag_source (t := t) ha rfl
  refine performs_result h (by have := hs.length; omega) (by rw [hi]; rfl) ?_
  rw [hi]
  show prepMvXs va x = _
  unfold prepMvXs
  dsimp only
  rw [hchecks, ← kept_eq_keptBits, ← extendElem_eq (ew_pos hs.vtype) ha.width]
  rfl

omit h in
theorem groupSize_ew : groupSize e.vtype (ewOf e.vtype) = grpOf e.vtype := by
  unfold groupSize
  rw [Nat.mul_div_cancel _ (ew_pos hs.vtype)]
  exact max_eq_right (Nat.two_pow_pos _)

omit h in
/-- The elements and the tail of a copy, one after another. -/
theorem copies_group {t1 : Strand} {va vd : VReg} (hg : groupOk vd.toNat (groupSize e.vtype (ewOf e.vtype)) = true)
    (ha : groupOk va.toNat (groupSize e.vtype (ewOf e.vtype)) = true) (hc : Clear e.vtype vd (ewOf e.vtype) va (ewOf e.vtype))
    {ty : Tag} (ht1 : t1 = { t with v := setTags t.v vd.toNat (groupSize e.vtype (ewOf e.vtype)) ty }) :
    let z := (List.range (vlmaxOf t.q e.vtype)).foldl (copyStep va vd (ewOf e.vtype)) t1
    z = { t with v := z.v } ∧ (∀ n < vlmaxOf t.q e.vtype, elemGet z.v t.q vd.toNat (ewOf e.vtype) n = elem t e va n)
    ∧ (∀ r, OutsideGroup vd.toNat (groupSize e.vtype (ewOf e.vtype)) r → regAt z.v r = regAt t.v r)
    ∧ ∀ r, vd.toNat ≤ r → r < vd.toNat + groupSize e.vtype (ewOf e.vtype) → (regAt z.v r).tag = ty := by
  dsimp only
  have hw := ew_cases hs.vtype
  have hh := group_holds hs vd hw hg
  have hin := hh.inFile
  have t1q : t1.q = t.q := by rw [ht1]; rfl
  have t1v : t1.v = setTags t.v vd.toNat (groupSize e.vtype (ewOf e.vtype)) ty := by rw [ht1]
  have hout (r : Nat) (hr : OutsideGroup vd.toNat (groupSize e.vtype (ewOf e.vtype)) r) : regAt t1.v r = regAt t.v r := by
    have := hr.2
    rw [t1v, regAt_setTags _ _ _ _ _ hr.1 hin, if_neg (by omega)]
  have hel (x : Nat) (b : Nat) : elemGet t1.v t.q b (ewOf e.vtype) x = elemGet t.v t.q b (ewOf e.vtype) x := by
    rw [t1v]; exact elemGet_setTags _ _ _ _ _ _ _ _
  have hfold := element_fold hh t1 t1q 0 (vlmaxOf t.q e.vtype) (by omega) (fun st n => (.val (liveElem st.q va (ewOf e.vtype) st n), 0))
    (fun n => (.val (elem t e va n), 0)) (by
      intro n _ hn u hu h1 h2
      have huq : u.q = t.q := by rw [hu]; exact t1q
      show (Put.val (elemGet u.v u.q va.toNat (ewOf e.vtype) n), (0 : Flags)) = _
      rw [huq]
      rcases hc with ⟨rfl, -⟩ | hc | hc
      · rw [h1 n (Nat.le_refl n) (by omega), hel]
        rfl
      · rw [elemGet_congr (group_holds hs va hw ha) (by omega) fun k h3 h4 h5 =>
          (h2 k ⟨h5, .inr (by omega)⟩).trans (hout k ⟨h5, .inr (by omega)⟩)]
        rfl
      · rw [elemGet_congr (group_holds hs va hw ha) (by omega) fun k h3 h4 h5 =>
          (h2 k ⟨h5, .inl (by omega)⟩).trans (hout k ⟨h5, .inl (by omega)⟩)]
        rfl)
  have hstep : (fun (t : Strand) i => elementStep (.vec vd.toNat (ewOf e.vtype)) (fun st n => (.val (liveElem st.q va (ewOf e.vtype) st n), 0)) t (0 + i))
      = copyStep va vd (ewOf e.vtype) := by
    funext t i
    rw [Nat.zero_add, elementStep, Strand.raise_zero]
    rfl
  rw [hstep] at hfold
  refine ⟨?_, fun n hn => ?_, fun r hr => ?_, fun r h1 h2 => ?_⟩
  · rw [copies_frame, ht1]
  · rw [hfold.elems n hn, if_pos (by omega)]
    exact Nat.mod_eq_of_lt (elem_lt t e va n)
  · rw [hfold.others r hr, hout r hr]
  · rw [hfold.tags r, t1v, regAt_setTags _ _ _ _ _ (by omega) hin, if_pos ⟨h1, h2⟩]

theorem retags {c : Bool} {vd va : VReg} {old ty : Tag} (hi : e.i = .vtag c vd va ty)
    (hg : groupOk vd.toNat (groupSize e.vtype (ewOf e.vtype)) = true) (hc : Clear e.vtype vd (ewOf e.vtype) va (ewOf e.vtype))
    (ha : groupOk va.toNat (groupSize e.vtype (ewOf e.vtype)) = true)
    (htag : ∀ n, va.toNat ≤ n → n < va.toNat + groupSize e.vtype (ewOf e.vtype) → (regAt t.v n).tag = old) :
    Performs s sid e none fun s' t' => s' = { s with strands := s'.strands, svcs := s'.svcs, freeCtr := s'.freeCtr }
      ∧ t' = { t with v := t'.v, viq := t'.viq, xch := .none, held := none }
      ∧ (∀ n < vlmaxOf t.q e.vtype, elemGet t'.v t.q vd.toNat (ewOf e.vtype) n = elem t e va n)
      ∧ (∀ r, OutsideGroup vd.toNat (groupSize e.vtype (ewOf e.vtype)) r → regAt t'.v r = regAt t.v r)
      ∧ ∀ r, vd.toNat ≤ r → r < vd.toNat + groupSize e.vtype (ewOf e.vtype) → (regAt t'.v r).tag = ty := by
  let x : Px := e.px t s ⟨t.v, t.k⟩ e.vl true none false
  have hlen := hs.length
  have hvl : e.vl ≠ 0 := by omega
  have hgr : x.groups (some (vd, x.ew)) [(va, x.ew)] = .ok () := Px.groups_clear hg fun o ho => by
    obtain rfl := List.mem_singleton.1 ho
    exact ⟨ha, hc⟩
  have hold : groupTag x.src.v va.toNat (grpOf x.vt) = some old := by
    show groupTag t.v va.toNat (grpOf e.vtype) = some old
    rw [← groupSize_ew hs]
    exact groupTag_of (groupSize_pos _ _) htag
  have hp : prepare e.i x = .ok { t with v := setTags t.v vd.toNat (groupSize e.vtype (ewOf e.vtype)) ty }
      ⟨overElems fun e r => .ok (r.upd fun t => t.putElem (.vec vd.toNat x.ew) e (.val (liveElem x.q va x.ew t e))),
       fun r => .ok (r.upd fun t => (List.range (x.vlmax - x.vl)).foldl (fun u i =>
          u.putElem (.vec vd.toNat x.ew) (x.vl + i) (.val (liveElem x.q va x.ew u (x.vl + i)))) t)⟩ := by
    rw [hi]
    show prepVtag vd va ty x = _
    unfold prepVtag
    dsimp only
    rw [hgr, hold]
    exact if_neg hvl
  generalize ht1 : ({ t with v := setTags t.v vd.toNat (groupSize e.vtype (ewOf e.vtype)) ty } : Strand) = t1 at hp
  have t1q : t1.q = t.q := by rw [← ht1]; rfl
  obtain ⟨hz, hel, hout, htags⟩ := copies_group hs hg ha hc ht1.symm
  have hq (l : List Nat) (u : Strand) (hu : u.q = t.q) : (l.foldl (copyStep va vd (ewOf e.vtype)) u).q = t.q := by
    rw [copies_frame]
    exact hu
  have hall : (List.range (vlmaxOf t.q e.vtype - e.vl)).foldl (fun u i =>
        u.putElem (.vec vd.toNat (ewOf e.vtype)) (e.vl + i) (.val (liveElem t.q va (ewOf e.vtype) u (e.vl + i))))
        ((List.range e.vl).foldl (fun t i => copyStep va vd (ewOf e.vtype) t (0 + i)) t1)
      = (List.range (vlmaxOf t.q e.vtype)).foldl (copyStep va vd (ewOf e.vtype)) t1 := by
    simp only [Nat.zero_add]
    rw [copies_indexed t.q va vd (ewOf e.vtype) _ _ _ (hq _ _ t1q), ← List.foldl_append, ← List.range_add]
    congr 2
    omega
  generalize (List.range (vlmaxOf t.q e.vtype)).foldl (copyStep va vd (ewOf e.vtype)) t1 = z at hz hel hout htags hall
  refine performs_of_run h (by omega) (by rw [hi]; rfl) hp (fun n r r' h1 h2 => ?_)
    (r1 := .start ((List.range e.vl).foldl (fun t i => copyStep va vd (ewOf e.vtype) t (0 + i)) t1) s none) (r2 := .start z s none)
    (eachElem_copy t.q va vd (ewOf e.vtype) e.vl 0 (.start t1 s none) t1q) ?_ ?_ ?_ ?_ (fun _ _ => rfl) (by simp [Run.start, h.here])
    fun s' y hs' hy hstl => ?_
  · simp only [Rr.ok.injEq] at h1
    rw [← h1]
    exact h2
  · exact congrArg (fun u => Rr.ok (Run.start u s none)) hall
  · show z.id = t.id
    rw [hz]
  · show z.qstall = false
    rw [hz]
    exact h.calm
  · show z.vfault = none
    rw [hz]
    exact h.sound
  · simp only [Run.start] at hs' hy hstl
    have yv : y.v = z.v := by rw [hy]
    have hnl : e.loads = false := by
      unfold Entry.loads
      rw [hi]
      rfl
    refine ⟨hs', ?_, ?_, ?_, ?_⟩
    · rw [hy, hstl hnl, hz, h.quiet]
    · rw [yv]; exact hel
    · rw [yv]; exact hout
    · rw [yv]; exact htags

end

theorem moveAndTagResults : MoveAndTagResults := by
  intro s sid t e h hs
  exact ⟨fun c vd sa ty m hi hg hty => broadcasts h hs hi hg hty, fun c vd sa sb ty hi hg hty => movesIn h hs hi hg hty,
    fun c sd va sb ty hi ha => movesOut h hs hi ha, fun c vd va old ty hi hg hc ha htag => retags h hs hi hg hc ha htag⟩

end Sys2Proof.Machine

open Sys2Proof Sys2Proof.Machine

/-- Settles O32: each through what its checks prepare; what an element reads stands until it is written. -/
theorem comparesSelectsMoves : Obligations.ComparesSelectsMoves := by
  unfold Obligations.ComparesSelectsMoves
  exact ⟨compareMaskSelectResults, moveAndTagResults⟩

end

section
/-!
SUPPORT. A signalling NaN scaled by the code 0xFF raises NV beside NSC (R69, R74): a counterexample to the clause of O31 that says NSC
alone.
-/

namespace Sys2Proof.Machine

/-- `vscale` of v2 by the codes of v4 into v6, under no mask. -/
def nanScale : Vv := ⟨true, 6, 2, 4, .raw, false, none, ⟨0, false⟩⟩

/-- Its entry, for one element of 32 bits. -/
def nanScaleEntry : Entry :=
  ⟨.vscale nanScale, 0x1000, true, 1, 0x018, [], 0, [], false, none, false, none, 0, false, none, [], []⟩

/-- Registers whose v2 holds a signalling NaN of F32, and whose v4 holds the scale code 0xFF. -/
def nanScaleRegs : Vector VecReg 64 :=
  Vector.ofFn fun r => if r.val = 2 then ⟨.f32, 0x7F800001⟩ else if r.val = 4 then ⟨.e8m0, 0xFF⟩ else VecReg.zero

/-- A strand of four quarters that holds the entry alone. -/
def nanScaleStrand : Strand :=
  { entryStrand ⟨0, 1, 1, 0, 0, 1, 0, 0, 0, 0, 0, 15⟩ (Vector.replicate 32 0) 0x1000 (Vector.replicate 256 0) with
    vl := 1, v := nanScaleRegs, viq := [nanScaleEntry] }

/-- A package in which that strand runs. -/
def nanScaleState : State := { State.reset with strands := [nanScaleStrand] }

/-- Whether NV of lane 0 is set after the convoy. -/
def raisesNv (o : Out) : Bool :=
  match o with
  | .next z => (z.strand 0).any fun t => t.lflags.getLsbD 0
  | _ => false

theorem nanScale_quarters : nanScaleStrand.q = 4 := by decide

theorem nanScale_alone : Alone nanScaleState 0 nanScaleStrand nanScaleEntry :=
  ⟨rfl, rfl, rfl, rfl, rfl, rfl, rfl, rfl, rfl, rfl, rfl, rfl, rfl, rfl, rfl, rfl, rfl, rfl⟩

theorem nanScale_setting : Setting nanScaleStrand nanScaleEntry := by
  refine ⟨by decide, ⟨by rw [nanScale_quarters]; decide, by rw [nanScale_quarters]⟩, by decide, ?_⟩
  rw [nanScale_quarters]
  decide

/-- A source group of one register. -/
theorem nanScale_source {r : VReg} {w : Nat} {ty : Tag} (hg : groupSize 0x018 w = 1) (hr : r.toNat < 64)
    (ht : (regAt nanScaleStrand.v r.toNat).tag = ty) (hw : ty.width = some w) : SourceGroup nanScaleStrand 0x018 r w ty := by
  refine ⟨?_, fun n h1 h2 => ?_, .inr hw⟩
  · rw [hg]
    have hfit : r.toNat + 1 ≤ 64 := hr
    simpa [groupOk, Nat.mod_one] using hfit
  · rw [hg] at h2
    have hn : n = r.toNat := by omega
    rw [hn, ht]

theorem nanScale_raisesNv : raisesNv (exec (.convoyStart 0) nanScaleState) = true := by decide +kernel

end Sys2Proof.Machine

open Sys2Proof Sys2Proof.Machine

/-- Refutes O31: `vscale` of a signalling NaN by the code 0xFF raises NV and NSC, where the clause states NSC alone. -/
theorem not_vectorFloat : ¬ Obligations.VectorFloat := by
  intro h
  obtain ⟨hresults, -⟩ := h
  obtain ⟨-, -, -, -, hscale⟩ := hresults nanScale ⟨true, 0, 0, 0, .raw, false, none, ⟨0, false⟩⟩ ⟨true, 0, 0, .raw, false, none, ⟨0, false⟩⟩
  obtain ⟨z, u, hexec, hu, -, -, hw⟩ := hscale nanScaleState 0 nanScaleStrand nanScaleEntry .f32 nanScale_alone nanScale_setting rfl
    (by decide) (by decide) (nanScale_source (by decide) (by decide) (by decide +kernel) rfl) (.inr (.inr (by decide)))
    (nanScale_source (by decide) (by decide) (by decide +kernel) rfl) (.inr (.inr (by decide)))
  have hquiet : u.lflags.getLsbD 0 = false := (hw.flags 0 (by decide) 0 (by decide)).trans (by decide +kernel)
  have hraises := nanScale_raisesNv
  rw [hexec, raisesNv] at hraises
  simp only [hu, Option.any_some, hquiet, Bool.false_eq_true] at hraises

end

section
/-!
SUPPORT. Reductions and counts that deliver to a scalar register.
-/

namespace Sys2Proof.Machine

/-! ## Sums, minima and maxima of integers -/

section
variable {w : Nat} {ty : Tag}

theorem ofInt_intOf {x : Nat} (hx : x < 2 ^ w) : (BitVec.ofInt w (intOf ty w x)).toNat = x := by
  rw [← wrapTo_eq_ofInt, wrapTo, intOf_mod hx, Int.toNat_natCast]

/-- A sum of integers goes by its elements modulo 2^EW. -/
theorem ofInt_sum {l : List Nat} (hl : ∀ x ∈ l, x < 2 ^ w) : (BitVec.ofInt w (l.map (intOf ty w)).sum).toNat = l.foldl (· + ·) 0 % 2 ^ w := by
  have hmod : (l.map (intOf ty w)).sum % (2 ^ w : Nat) = ((l.sum : Nat) : Int) % (2 ^ w : Nat) := by
    induction l with
    | nil => rfl
    | cons x l ih =>
      rw [List.map_cons, List.sum_cons, List.sum_cons, Int.add_emod, ih fun y hy => hl y (List.mem_cons_of_mem _ hy),
        intOf_mod (hl x List.mem_cons_self), Nat.cast_add, Int.add_emod_emod]
  rw [← wrapTo_eq_ofInt, wrapTo, hmod, List.sum_eq_foldl]
  norm_cast

theorem intOf_le {x : Nat} (hx : x < 2 ^ w) :
    (if ty.isSigned then -2 ^ (w - 1) else 0) ≤ intOf ty w x ∧ intOf ty w x ≤ if ty.isSigned then 2 ^ (w - 1) - 1 else 2 ^ w - 1 := by
  unfold intOf
  by_cases hs : ty.isSigned = true
  · rw [if_pos hs, if_pos hs, if_pos hs]
    have h1 := BitVec.le_toInt (BitVec.ofNat w x)
    have h2 := BitVec.toInt_lt (x := BitVec.ofNat w x)
    exact ⟨h1, by omega⟩
  · rw [if_neg hs, if_neg hs, if_neg hs]
    have : (x : Int) < 2 ^ w := by exact_mod_cast hx
    exact ⟨by omega, by omega⟩

theorem intOf_foldMin (pick : Nat → Nat → Nat) (best : Int → Int → Int) (h : ∀ x y, x < 2 ^ w → y < 2 ^ w →
      pick x y < 2 ^ w ∧ intOf ty w (pick x y) = best (intOf ty w x) (intOf ty w y))
    {l : List Nat} (hl : ∀ x ∈ l, x < 2 ^ w) {a : Nat} (ha : a < 2 ^ w) :
    l.foldl pick a < 2 ^ w ∧ intOf ty w (l.foldl pick a) = (l.map (intOf ty w)).foldl best (intOf ty w a) := by
  induction l generalizing a with
  | nil => exact ⟨ha, rfl⟩
  | cons x l ih =>
    obtain ⟨h1, h2⟩ := h a x ha (hl x List.mem_cons_self)
    rw [List.foldl_cons, List.map_cons, List.foldl_cons, ← h2]
    exact ih (fun y hy => hl y (List.mem_cons_of_mem _ hy)) h1

end

/-- The sum, the least and the greatest of a list of elements, as integers. -/
theorem intReduce_eq {w : Nat} {ty : Tag} (hw : ty.width = some w) (hpos : 0 < w) {seed : Option Nat} {xs : List (Nat × Nat)}
    (hl : ∀ x ∈ seed.toList ++ xs.map Prod.snd, x < 2 ^ w) :
    let l := (seed.toList ++ xs.map Prod.snd).map (intOf ty w)
    (intReduce .addO ty w seed xs = (BitVec.ofInt w l.sum).toNat ∧ intReduce .addT ty w seed xs = (BitVec.ofInt w l.sum).toNat)
    ∧ intReduce .min ty w seed xs = (BitVec.ofInt w (l.foldl min (if ty.isSigned then 2 ^ (w - 1) - 1 else 2 ^ w - 1))).toNat
    ∧ intReduce .max ty w seed xs = (BitVec.ofInt w (l.foldl max (if ty.isSigned then -2 ^ (w - 1) else 0))).toNat := by
  have hlo : ty.intMin = if ty.isSigned then -2 ^ (w - 1) else 0 := by
    unfold Tag.intMin
    rw [hw]
    simp
  have hhi : ty.intMax = if ty.isSigned then 2 ^ (w - 1) - 1 else 2 ^ w - 1 := by
    unfold Tag.intMax
    rw [hw]
    simp
  dsimp only
  unfold intReduce
  dsimp only
  generalize seed.toList ++ xs.map Prod.snd = all at hl
  refine ⟨⟨(ofInt_sum hl).symm, (ofInt_sum hl).symm⟩, ?_⟩
  cases all with
  | nil => exact ⟨by rw [wrapTo_eq_ofInt, hhi]; rfl, by rw [wrapTo_eq_ofInt, hlo]; rfl⟩
  | cons a l =>
    have ha := hl a List.mem_cons_self
    have hl' : ∀ x ∈ l, x < 2 ^ w := fun y hy => hl y (List.mem_cons_of_mem _ hy)
    obtain ⟨hmin, hmax⟩ := intOf_le (ty := ty) ha
    obtain ⟨m1, m2⟩ := intOf_foldMin (ty := ty) (fun u v => if ty.intValue v < ty.intValue u then v else u) min (fun x y hx hy => by
      rw [intValue_eq hw hpos hx, intValue_eq hw hpos hy]
      split
      · exact ⟨hy, (min_eq_right (by omega)).symm⟩
      · exact ⟨hx, (min_eq_left (by omega)).symm⟩) hl' ha
    obtain ⟨n1, n2⟩ := intOf_foldMin (ty := ty) (fun u v => if ty.intValue u < ty.intValue v then v else u) max (fun x y hx hy => by
      rw [intValue_eq hw hpos hx, intValue_eq hw hpos hy]
      split
      · exact ⟨hy, (max_eq_right (by omega)).symm⟩
      · exact ⟨hx, (max_eq_left (by omega)).symm⟩) hl' ha
    rw [List.map_cons, List.foldl_cons, List.foldl_cons, min_eq_right hmax, max_eq_right hmin, ← m2, ← n2, ofInt_intOf m1, ofInt_intOf n1]
    exact ⟨rfl, rfl⟩

/-! ## Float sums in element order and in a tree -/

section
variable (f : Fmt) (rm : Rm) (sat : Bool)

theorem orderedSum_some (xs : List (Nat × Nat)) (a : Nat) (fl : List (Nat × Flags)) :
    (orderedSum f rm sat (some a) xs fl).1 = some ((xs.map Prod.snd).foldl (fun x y => (fadd2 f rm sat x y).1) a) := by
  induction xs generalizing a fl with
  | nil => rfl
  | cons p xs ih => exact ih (fadd2 f rm sat a p.2).1 _

/-- The ordered sum of a seed and elements starts from the first of them. -/
theorem orderedSum_first {seed : Option Nat} {xs : List (Nat × Nat)} {x : Nat} {l : List Nat} (h : seed.toList ++ xs.map Prod.snd = x :: l) :
    (orderedSum f rm sat seed xs []).1 = some (l.foldl (fun x y => (fadd2 f rm sat x y).1) x) := by
  cases seed with
  | some a =>
    obtain ⟨rfl, rfl⟩ := List.cons.inj h
    exact orderedSum_some f rm sat xs a []
  | none =>
    cases xs with
    | nil => cases h
    | cons p xs =>
      obtain ⟨rfl, rfl⟩ := List.cons.inj h
      exact orderedSum_some f rm sat xs p.2 []

theorem treeLevel_eq (m : Nat) (x : Nat → Nat) (pos : Nat) :
    (treeLevel f rm sat pos ((List.range (2 * m)).map x)).1 = (List.range m).map fun i => (fadd2 f rm sat (x (2 * i)) (x (2 * i + 1))).1 := by
  induction m generalizing x pos with
  | zero => rfl
  | succ m ih =>
    have hsplit : (List.range (2 * (m + 1))).map x = x 0 :: x 1 :: (List.range (2 * m)).map fun i => x (i + 2) := by
      rw [show 2 * (m + 1) = 2 * m + 1 + 1 by ring, List.range_succ_eq_map, List.range_succ_eq_map]
      simp [List.map_map, Function.comp_def]
    rw [hsplit, treeLevel, List.range_succ_eq_map, List.map_cons, List.map_map]
    exact congrArg _ (ih (fun i => x (i + 2)) (pos + 1))

theorem treeNode_level (add : Nat → Nat → Nat) (x : Nat → Nat) (k i : Nat) :
    Sys2Proof.treeNode add (fun i => add (x (2 * i)) (x (2 * i + 1))) k i = Sys2Proof.treeNode add x (k + 1) i := by
  induction k generalizing i with
  | zero => rfl
  | succ k ih => rw [Sys2Proof.treeNode, ih, ih]; rfl

theorem treeSum_eq (k : Nat) (x : Nat → Nat) (fl : List (Nat × Flags)) :
    (treeSum f rm sat k ((List.range (2 ^ k)).map x) fl).1 = Sys2Proof.treeNode (fun a b => (fadd2 f rm sat a b).1) x k 0 := by
  induction k generalizing x fl with
  | zero => rfl
  | succ k ih =>
    have hlen : ¬ ((List.range (2 ^ (k + 1))).map x).length ≤ 1 := by
      have := Nat.two_pow_pos k
      rw [List.length_map, List.length_range, pow_succ]
      omega
    have hlevel : (treeSum f rm sat (k + 1) ((List.range (2 ^ (k + 1))).map x) fl).1
        = (treeSum f rm sat k (treeLevel f rm sat 0 ((List.range (2 ^ (k + 1))).map x)).1
            ((treeLevel f rm sat 0 ((List.range (2 ^ (k + 1))).map x)).2 ++ fl)).1 := congrArg Prod.fst (if_neg hlen)
    rw [hlevel, pow_succ, mul_comm, treeLevel_eq, ih]
    exact treeNode_level (fun a b => (fadd2 f rm sat a b).1) x k 0

end

theorem pow2At_eq {n p : Nat} (h : n ≤ 2 ^ p) (hp : p = 0 ∨ 2 ^ (p - 1) < n) : pow2At n = p := by
  unfold pow2At
  rcases p with _ | p
  · exact if_pos h
  · have hlt : 2 ^ p < n := by simpa using hp
    have hpos := Nat.two_pow_pos p
    rw [if_neg (by omega), Nat.add_right_cancel_iff, Nat.log2_eq_iff (by omega)]
    exact ⟨by omega, by omega⟩

/-! ## The instructions -/

theorem floatAccept_fmt {named ty : Tag} (h : floatAccept named ty = true) :
    ty.isInt = false ∧ isArithFloat ty = true ∧ tyOk named ty = true
    ∧ ∀ n : Bool, ((arithFmt ty).unpack ((arithFmt ty).infBits n)).isNan = false := by
  simp only [floatAccept, Bool.and_eq_true, Bool.or_eq_true, beq_iff_eq] at h
  obtain ⟨hty, hn⟩ := h
  rcases hty with ((rfl | rfl) | rfl) | rfl <;> exact ⟨rfl, rfl, by simpa [tyOk] using hn, by decide⟩

theorem modeOf_eq (e : Entry) (rm : Option Rm) : modeOf e rm = rm.getD (vrmOf e.vtype) := by
  have hcode (n : Nat) (hn : n < 4) : e.vtype.extractLsb' 8 2 = BitVec.ofNat 2 n ↔ e.vtype.toNat / 256 % 4 = n := by
    rw [← BitVec.toNat_inj, BitVec.extractLsb'_toNat, BitVec.toNat_ofNat, Nat.shiftRight_eq_div_pow, Nat.mod_eq_of_lt (a := n) hn]
  unfold modeOf vrmOf Rm.ofCode
  simp only [show (0 : BitVec 2) = BitVec.ofNat 2 0 from rfl, show (1 : BitVec 2) = BitVec.ofNat 2 1 from rfl,
    show (2 : BitVec 2) = BitVec.ofNat 2 2 from rfl, hcode 0 (by decide), hcode 1 (by decide), hcode 2 (by decide)]

section
variable {s : State} {sid : Nat} {t : Strand} {e : Entry} (h : Alone s sid t e) (hs : Setting t e)
include h hs

theorem delivers {x : Word} {fl : List (Nat × Flags)} (ha : isVamo e.i = false)
    (hp : prepare e.i (e.px t s ⟨t.v, t.k⟩ e.vl true none false) = .ok t (resultMop x fl)) :
    Performs s sid e (some x) fun s' t' => Delivered s s' t t' e fl :=
  performs_result h (by have := hs.length; omega) ha hp

omit h hs in
theorem setElems_eq (ka : KReg) (m : MaskOp) : (e.px t s ⟨t.v, t.k⟩ e.vl true none false).setElems ka m
    = (List.range e.vl).filter fun n => maskBit t.k ka n && admits t.k m n := rfl

theorem counts {c : Bool} {sd : SReg} {ka : KReg} {m : MaskOp} (hi : e.i = .kpop c sd ka m) :
    Performs s sid e (some (BitVec.ofNat 64 ((List.range e.vl).countP fun n => maskBit t.k ka n && admits t.k m n)))
      fun s' t' => Delivered s s' t t' e [] := by
  refine delivers h hs (by rw [hi]; rfl) ?_
  rw [hi, List.countP_eq_length_filter]
  rfl

theorem findsFirst {c : Bool} {sd : SReg} {ka : KReg} {m : MaskOp} (hi : e.i = .kfirst c sd ka m) {n : Nat} (hn : n < e.vl)
    (hit : (maskBit t.k ka n && admits t.k m n) = true) (hout : ∀ k < n, (maskBit t.k ka k && admits t.k m k) = false) :
    Performs s sid e (some (BitVec.ofNat 64 n)) fun s' t' => Delivered s s' t t' e [] := by
  refine delivers h hs (by rw [hi]; rfl) ?_
  have hfirst : ∃ l, (e.px t s ⟨t.v, t.k⟩ e.vl true none false).setElems ka m = n :: l := by
    obtain ⟨d, hd⟩ := Nat.exists_eq_add_of_lt hn
    rw [setElems_eq, hd, show n + d + 1 = n + (d + 1) by omega, List.range_add, List.filter_append, List.filter_eq_nil_iff.2 (by
      intro k hk
      rw [hout k (List.mem_range.1 hk)]
      exact Bool.false_ne_true), List.nil_append, List.range_succ_eq_map, List.map_cons, Nat.add_zero, List.filter_cons_of_pos (by exact hit)]
    exact ⟨_, rfl⟩
  obtain ⟨l, hl⟩ := hfirst
  rw [hi]
  show prepKfirst ka m _ = _
  rw [prepKfirst, hl]
  rfl

theorem findsNone {c : Bool} {sd : SReg} {ka : KReg} {m : MaskOp} (hi : e.i = .kfirst c sd ka m)
    (hout : ∀ k < e.vl, (maskBit t.k ka k && admits t.k m k) = false) :
    Performs s sid e (some (BitVec.allOnes 64)) fun s' t' => Delivered s s' t t' e [] := by
  refine delivers h hs (by rw [hi]; rfl) ?_
  have hnone : (e.px t s ⟨t.v, t.k⟩ e.vl true none false).setElems ka m = [] := by
    rw [setElems_eq, List.filter_eq_nil_iff]
    intro k hk
    rw [hout k (List.mem_range.1 hk)]
    exact Bool.false_ne_true
  rw [hi]
  show prepKfirst ka m _ = _
  rw [prepKfirst, hnone]
  rfl

/-- The seed of a reduction. -/
def seedOf (e : Entry) (a : Red) : Option Nat :=
  if a.seed then some (scalarOp e 0) else none

/-- The active elements of a reduction with their numbers. -/
def activesOf (t : Strand) (e : Entry) (a : Red) : List (Nat × Nat) :=
  ((List.range e.vl).filter (admits t.k a.m)).map fun n => (n, elem t e a.vb n)

omit h hs in
theorem reduced_eq (a : Red) : (seedOf e a).toList ++ (activesOf t e a).map Prod.snd = reduced t e a := by
  unfold seedOf activesOf reduced
  rw [List.map_map]
  cases a.seed <;> rfl

omit h hs in
theorem reduced_lt (a : Red) {x : Nat} (hx : x ∈ reduced t e a) : x < 2 ^ ewOf e.vtype := by
  rw [reduced, List.mem_append] at hx
  rcases hx with hx | hx
  · split at hx
    · rw [List.mem_singleton.1 hx]
      exact scalarOp_lt e 0
    · cases hx
  · obtain ⟨n, -, rfl⟩ := List.mem_map.1 hx
    exact elem_lt t e a.vb n

omit h in
theorem reduce_passes {o : RedOp} {a : Red} {ty : Tag} (hb : SourceGroup t e.vtype a.vb (ewOf e.vtype) ty)
    (hacc : ((ty.isInt || isArithFloat ty) && tyOk a.ty ty) = true) :
    let v := intReduce o ty (ewOf e.vtype) (seedOf e a) (activesOf t e a)
    let r := floatReduce o (arithFmt ty) (modeOf e a.rm) a.sat e.vl (seedOf e a) (activesOf t e a)
    prepReduce o a (e.px t s ⟨t.v, t.k⟩ e.vl true none false)
      = if ty.isInt then .ok t (resultMop (extendElem ty (ewOf e.vtype) v) []) else .ok t (resultMop (BitVec.ofNat 64 r.1) r.2) := by
  let x : Px := e.px t s ⟨t.v, t.k⟩ e.vl true none false
  have hg : x.groups none [(a.vb, x.ew)] = .ok () := Px.groups_sources fun o ho => by
    obtain rfl := List.mem_singleton.1 ho
    exact hb.placed
  have hchecks : (do
      x.groups none [(a.vb, x.ew)]
      let t ← x.tag a.vb x.ew
      needTag ((t.isInt || isArithFloat t) && tyOk a.ty t)
      pure t : Except Cause Tag) = .ok ty := by
    rw [hg, show x.tag a.vb x.ew = .ok ty from Px.tag_source (t := t) hb rfl]
    show needTag ((ty.isInt || isArithFloat ty) && tyOk a.ty ty) >>= _ = _
    rw [needTag_true hacc]
    rfl
  have hvl : ¬ x.vl = 0 := by
    have : x.vl = e.vl := rfl
    have := hs.length
    omega
  dsimp only
  unfold prepReduce
  dsimp only
  rw [hchecks, modeOf_eq]
  exact (if_neg hvl).trans rfl

theorem reducesInt {a : Red} {ty : Tag} (hb : SourceGroup t e.vtype a.vb (ewOf e.vtype) ty) (hty : ty.isInt = true)
    (hn : a.ty = .raw ∨ a.ty = ty) {o : RedOp} (hva : isVamo e.i = false) (hprep : ∀ x, prepare e.i x = prepReduce o a x) {v : Int}
    (hv : intReduce o ty (ewOf e.vtype) (seedOf e a) (activesOf t e a) = (BitVec.ofInt (ewOf e.vtype) v).toNat) :
    Performs s sid e (some (BitVec.ofInt 64 (intOf ty (ewOf e.vtype) (BitVec.ofInt (ewOf e.vtype) v).toNat)))
      fun s' t' => Delivered s s' t t' e [] := by
  have hacc : ((ty.isInt || isArithFloat ty) && tyOk a.ty ty) = true := by
    rw [hty, Bool.true_or, Bool.true_and, tyOk]
    rcases hn with hn | hn <;> simp [hn]
  refine delivers h hs hva ((hprep _).trans ((reduce_passes hs hb hacc).trans ((if_pos hty).trans ?_)))
  rw [hv, extendElem_eq (ew_pos hs.vtype) hb.width]

theorem reducesFloat {a : Red} {ty : Tag} (hb : SourceGroup t e.vtype a.vb (ewOf e.vtype) ty) (hf : floatAccept a.ty ty = true)
    {o : RedOp} (hva : isVamo e.i = false) (hprep : ∀ x, prepare e.i x = prepReduce o a x) {v : Nat}
    (hv : (floatReduce o (arithFmt ty) (modeOf e a.rm) a.sat e.vl (seedOf e a) (activesOf t e a)).1 = v) :
    ∃ fl, Performs s sid e (some (BitVec.ofNat 64 v)) fun s' t' => Delivered s s' t t' e fl := by
  obtain ⟨hint, harith, hnamed, -⟩ := floatAccept_fmt hf
  have hacc : ((ty.isInt || isArithFloat ty) && tyOk a.ty ty) = true := by rw [harith, hnamed, Bool.or_true, Bool.true_and]
  refine ⟨(floatReduce o (arithFmt ty) (modeOf e a.rm) a.sat e.vl (seedOf e a) (activesOf t e a)).2, ?_⟩
  refine delivers h hs hva ((hprep _).trans ((reduce_passes hs hb hacc).trans ((if_neg (by rw [hint]; exact Bool.false_ne_true)).trans ?_)))
  rw [hv]

end

/-- The number of an active element is found among the active elements, no other's is. -/
theorem activesOf_find (t : Strand) (e : Entry) (a : Red) (n : Nat) :
    (((activesOf t e a).find? fun p => p.1 == n).map Prod.snd).getD 0 = if n < e.vl ∧ admits t.k a.m n then elem t e a.vb n else 0 := by
  unfold activesOf
  rw [List.find?_map, List.find?_filter]
  split
  · rename_i hn
    rw [List.find?_range_eq_some.2 ⟨by simp [hn.2], List.mem_range.2 hn.1, fun j hj => by
      have : ¬ j = n := by omega
      simp [this]⟩]
    rfl
  · rename_i hn
    rw [List.find?_range_eq_none.2 fun j hj => by
      by_cases hjn : j = n
      · subst hjn
        simpa using fun hact => hn ⟨hj, hact⟩
      · simp [hjn]]
    rfl

/-- The tree sum of active elements, after the seed where there is one. -/
theorem floatReduce_tree {t : Strand} {e : Entry} {a : Red} {f : Fmt} {rm : Rm} {p : Nat} (hsome : (activesOf t e a).isEmpty = false)
    (hp : pow2At e.vl = p) : (floatReduce .addT f rm a.sat e.vl (seedOf e a) (activesOf t e a)).1
      = canonNan f ((seedOf e a).elim id (fun v r => (fadd2 f rm a.sat v r).1)
          (treeSum f rm a.sat p ((List.range (2 ^ p)).map fun n => if n < e.vl ∧ admits t.k a.m n then elem t e a.vb n else 0) []).1) := by
  unfold floatReduce
  simp only [hsome, hp, Bool.false_eq_true, if_false, activesOf_find]
  cases seedOf e a <;> rfl

/-- A list folded from its first element; of none, a value of its own. -/
def fromFirst (pick : Nat → Nat → Nat) (none : Nat) : List Nat → Nat
  | [] => none
  | x :: l => l.foldl pick x

/-- The least or the greatest of the elements of a float reduction. -/
theorem floatReduce_extreme {t : Strand} {e : Entry} {a : Red} {ty : Tag} (hf : floatAccept a.ty ty = true) (greatest : Bool) :
    (floatReduce (if greatest then .max else .min) (arithFmt ty) (modeOf e a.rm) a.sat e.vl (seedOf e a) (activesOf t e a)).1
      = canonNan (arithFmt ty) (fromFirst (fun u v => ((arithFmt ty).minMax greatest u v).1) ((arithFmt ty).infBits greatest) (reduced t e a)) := by
  obtain ⟨-, -, -, hinf⟩ := floatAccept_fmt hf
  have hcanon : canonNan (arithFmt ty) ((arithFmt ty).infBits greatest) = (arithFmt ty).infBits greatest := if_neg (by rw [hinf]; exact Bool.false_ne_true)
  unfold floatReduce
  cases greatest <;> dsimp only <;> rw [reduced_eq] <;> cases reduced t e a with
  | nil => exact hcanon.symm
  | cons x l => rfl

end Sys2Proof.Machine

open Sys2Proof Sys2Proof.Machine

/-- Settles O33: each reduction is read off the list of its seed and active elements. -/
theorem reductionResults : Obligations.ReductionResults := by
  intro s sid t e h hs
  refine ⟨fun c sd ka m => ⟨counts h hs, findsNone h hs, fun n hn hi => findsFirst h hs hi hn⟩, fun a ty hb hty hn => ?_,
    fun a ty hb hf => ?_⟩
  · have hall : ∀ x ∈ (seedOf e a).toList ++ (activesOf t e a).map Prod.snd, x < 2 ^ ewOf e.vtype := by
      rw [reduced_eq]
      exact fun x => reduced_lt a
    obtain ⟨⟨hsum, htree⟩, hmin, hmax⟩ := intReduce_eq (isInt_width hty hb.width) (ew_pos hs.vtype) hall
    rw [reduced_eq] at hsum htree hmin hmax
    refine ⟨?_, fun hi => ?_, fun hi => ?_⟩
    · rintro (hi | hi)
      · exact reducesInt h hs hb hty hn (by rw [hi]; rfl) (fun x => by rw [hi]; rfl) hsum
      · exact reducesInt h hs hb hty hn (by rw [hi]; rfl) (fun x => by rw [hi]; rfl) htree
    · exact reducesInt h hs hb hty hn (by rw [hi]; rfl) (fun x => by rw [hi]; rfl) hmin
    · exact reducesInt h hs hb hty hn (by rw [hi]; rfl) (fun x => by rw [hi]; rfl) hmax
  · dsimp only
    have hr := reduced_eq (t := t) (e := e) a
    refine ⟨fun hi => ?_, fun hi => ?_, fun hi => ?_, fun hi p hp1 hp2 hact => ?_⟩
    · refine reducesFloat h hs hb hf (by rw [hi]; rfl) (fun x => by rw [hi]; rfl) ?_
      cases hl : reduced t e a with
      | nil =>
        rw [hl] at hr
        obtain ⟨hseed, hxs⟩ := List.append_eq_nil_iff.1 hr
        show canonNan _ ((orderedSum _ _ _ _ _ []).1.getD 0) = _
        rw [Option.toList_eq_nil_iff.1 hseed, List.map_eq_nil_iff.1 hxs]
        rfl
      | cons x l =>
        rw [hl] at hr
        show canonNan _ ((orderedSum _ _ _ _ _ []).1.getD 0) = _
        rw [orderedSum_first _ _ _ hr]
        rfl
    · exact reducesFloat h hs hb hf (by rw [hi]; rfl) (fun x => by rw [hi]; rfl) (floatReduce_extreme hf false)
    · exact reducesFloat h hs hb hf (by rw [hi]; rfl) (fun x => by rw [hi]; rfl) (floatReduce_extreme hf true)
    · refine reducesFloat h hs hb hf (by rw [hi]; rfl) (fun x => by rw [hi]; rfl) ?_
      have hsome : (activesOf t e a).isEmpty = false := by
        obtain ⟨n, hn, hadmit⟩ := hact
        rw [List.isEmpty_eq_false_iff_exists_mem]
        exact ⟨_, List.mem_map.2 ⟨n, List.mem_filter.2 ⟨List.mem_range.2 hn, hadmit⟩, rfl⟩⟩
      have htop := treeSum_eq (arithFmt ty) (modeOf e a.rm) a.sat p (fun n => if n < e.vl ∧ admits t.k a.m n then elem t e a.vb n else 0) []
      rw [floatReduce_tree hsome (pow2At_eq hp1 hp2), htop]
      unfold seedOf
      cases a.seed <;> rfl

end

section
/-!
SUPPORT. Conversions of elements.
-/

namespace Sys2Proof.Machine

/-- A convertible tag has a width. -/
theorem convertible_width {ty : Tag} {w : Nat} (h : (ty.isInt || ty.fmt.isSome) = true) (hw : ty = .raw ∨ ty.width = some w) :
    ty.width = some w := by
  rcases hw with rfl | hw
  · cases h
  · exact hw

theorem snan_eq (a : Fv) : snan a = if a = .nan true then (1 : Flags) else 0 := by
  cases a with
  | nan q => cases q <;> rfl
  | inf n | fin n m e => rfl

/-- The limits of an integer tag. -/
theorem intLimits {dst : Tag} {dw : Nat} (hd : dst.width = some dw) :
    dst.intMin = (if dst.isSigned then -2 ^ (dw - 1) else 0)
    ∧ dst.intMax = if dst.isSigned then 2 ^ (dw - 1) - 1 else 2 ^ dw - 1 := by
  unfold Tag.intMin Tag.intMax
  rw [hd]
  exact ⟨by simp, by simp⟩

theorem convertElem_eq {src dst : Tag} {w dw : Nat} (hsrc : src.width = some w) (hd : dst.width = some dw) (hpos : 0 < w)
    (rm : Rm) (sat : Bool) {v : Nat} (hv : v < 2 ^ w) : convertElem src dst rm sat v = converted src dst w dw rm sat v := by
  unfold convertElem converted
  cases hs : src.fmt with
  | none =>
    cases hf : dst.fmt with
    | none =>
      dsimp only
      rw [hsrc, hd, Option.getD_some, Option.getD_some, intTo_eq hd, intValue_eq hsrc hpos hv]
    | some g =>
      dsimp only
      rw [Fmt.ofInt, intValue_eq hsrc hpos hv]
  | some f =>
    cases hf : dst.fmt with
    | none =>
      obtain ⟨hlo, hhi⟩ := intLimits hd
      dsimp only
      rw [hd, Option.getD_some, ← hlo, ← hhi]
      cases f.unpack v with
      | nan q => exact Prod.ext ((wrapTo_eq_ofInt dw 0).trans (by simp)) rfl
      | inf n => exact Prod.ext (wrapTo_eq_ofInt dw _) rfl
      | fin n m x =>
        dsimp only [toIntRange]
        generalize roundToInt rm n m x = r
        by_cases h1 : r.1 < dst.intMin
        · rw [if_pos h1, if_pos h1]
          exact Prod.ext (wrapTo_eq_ofInt dw _) rfl
        · rw [if_neg h1, if_neg h1]
          by_cases h2 : dst.intMax < r.1
          · rw [if_pos h2, if_pos h2]
            exact Prod.ext (wrapTo_eq_ofInt dw _) rfl
          · rw [if_neg h2, if_neg h2]
            exact Prod.ext (wrapTo_eq_ofInt dw _) rfl
    | some g =>
      dsimp only
      rw [Fmt.convert, snan_eq]

section
variable {s : State} {sid : Nat} {t : Strand} {e : Entry} (h : Alone s sid t e) (hs : Setting t e)
include h hs

/-- A conversion of elements of EW bits into elements of `dw` bits. -/
theorem converts {a : V1} {src : Tag} {dw : Nat} {half : Bool} (hva : isVamo e.i = false) (hprep : ∀ x, prepare e.i x = prepCvt half a x)
    (ha : SourceGroup t e.vtype a.va (ewOf e.vtype) src) (hsrc : (src.isInt || src.fmt.isSome) = true)
    (hdst : (a.ty.isInt || a.ty.fmt.isSome) = true) (hty : a.ty.width = some dw)
    (hdw : (if half then ewOf e.vtype / 2 else 2 * ewOf e.vtype) = dw) (hew : (if half then ewOf e.vtype != 4 else ewOf e.vtype != 64) = true)
    (hcases : dw = 4 ∨ dw = 8 ∨ dw = 16 ∨ dw = 32 ∨ dw = 64)
    (hg : groupOk a.vd.toNat (groupSize e.vtype dw) = true) (hc : Clear e.vtype a.vd dw a.va (ewOf e.vtype)) :
    Performs s sid e none fun s' t' => Wrote s s' t t' e a.vd.toNat dw a.ty fun n =>
      under t e a.m n (converted src a.ty (ewOf e.vtype) dw (modeOf e a.rm) a.sat (elem t e a.va n)) := by
  let x : Px := e.px t s ⟨t.v, t.k⟩ e.vl true none false
  have hvl : e.vl ≠ 0 := by have := hs.length; omega
  have hgr : x.groups (some (a.vd, dw)) [(a.va, x.ew)] = .ok () := Px.groups_clear hg fun o ho => by
    obtain rfl := List.mem_singleton.1 ho
    exact ⟨ha.placed, hc⟩
  have hneed : (convertible src && convertible a.ty && a.ty.width == some dw && if half then ewOf e.vtype != 4 else ewOf e.vtype != 64) = true := by
    rw [convertible, convertible, hsrc, hdst, hty, hew, beq_self_eq_true]
    rfl
  have hchecks : (do
      x.groups (some (a.vd, dw)) [(a.va, x.ew)]
      let t ← x.tag a.va x.ew
      needTag (convertible t && convertible a.ty && a.ty.width == some dw && if half then x.ew != 4 else x.ew != 64)
      pure t : Except Cause Tag) = .ok src := by
    rw [hgr, show x.tag a.va x.ew = .ok src from Px.tag_source (t := t) ha rfl]
    show needTag (convertible src && convertible a.ty && a.ty.width == some dw && _) >>= _ = _
    exact congrArg (fun r : Except Cause Unit => r >>= fun _ => pure src) (needTag_true hneed)
  refine performs_masked h hs hcases hg hva (value := fun u n =>
    convertElem src a.ty (modeOf e a.rm) a.sat (liveElem t.q a.va (ewOf e.vtype) u n)) ?_ fun n hn u _ h1 h2 => ?_
  · rw [hprep]
    unfold prepCvt
    dsimp only
    rw [show (if half = true then x.ew / 2 else 2 * x.ew) = dw from hdw, hchecks, modeOf_eq]
    exact if_neg hvl
  · rw [show liveElem t.q a.va (ewOf e.vtype) u n = elem t e a.va n from source_unchanged hs (ew_cases hs.vtype) ha.placed hc hn h1 h2]
    exact convertElem_eq (convertible_width hsrc ha.width) hty (ew_pos hs.vtype) _ _ (elem_lt t e a.va n)

/-- `vcvt.f32.e2m1`. -/
theorem convertsE2m1 {a : V1} (hi : e.i = .vcvtF32E2m1 a) (hw : ewOf e.vtype = 32) (ha : SourceGroup t e.vtype a.va (ewOf e.vtype) .f32)
    (hg : groupOk a.vd.toNat (groupSize e.vtype 4) = true) (hc : Clear e.vtype a.vd 4 a.va 32) :
    Performs s sid e none fun s' t' => Wrote s s' t t' e a.vd.toNat 4 .e2m1 fun n =>
      under t e a.m n (converted .f32 .e2m1 32 4 (modeOf e a.rm) a.sat (elem t e a.va n)) := by
  let x : Px := e.px t s ⟨t.v, t.k⟩ e.vl true none false
  have hvl : e.vl ≠ 0 := by have := hs.length; omega
  have hgr : x.groups (some (a.vd, 4)) [(a.va, x.ew)] = .ok () := Px.groups_clear hg fun o ho => by
    obtain rfl := List.mem_singleton.1 ho
    refine ⟨ha.placed, ?_⟩
    rw [show x.ew = 32 from hw]
    exact hc
  have hchecks : (do
      x.groups (some (a.vd, 4)) [(a.va, x.ew)]
      let t ← x.tag a.va x.ew
      needTag (t == .f32 && x.ew == 32) : Except Cause Unit) = .ok () := by
    rw [hgr, show x.tag a.va x.ew = .ok .f32 from Px.tag_source (t := t) ha rfl]
    exact needTag_true (by rw [show x.ew = 32 from hw]; rfl)
  refine performs_masked h hs (.inl rfl) hg (by rw [hi]; rfl) (value := fun u n =>
    fmtF32.convert fmtE2m1 (modeOf e a.rm) a.sat (liveElem t.q a.va 32 u n)) ?_ fun n hn u _ h1 h2 => ?_
  · rw [hi]
    show prepCvtE2m1 a x = _
    unfold prepCvtE2m1
    rw [hchecks, modeOf_eq]
    exact if_neg hvl
  · have hlive : liveElem t.q a.va 32 u n = elem t e a.va n := by
      rw [elem, hw]
      rw [hw] at ha
      exact source_unchanged hs (.inr (.inr (.inr (.inl rfl)))) ha.placed hc hn h1 h2
    have hlt := elem_lt t e a.va n
    rw [hw] at hlt
    rw [hlive]
    exact convertElem_eq (src := .f32) (dst := .e2m1) rfl rfl (by decide) _ _ hlt

end

end Sys2Proof.Machine

open Sys2Proof Sys2Proof.Machine

/-- Settles O34: a conversion reads its source elements as they stood, apart from its destination. -/
theorem vectorConversions : Obligations.VectorConversions := by
  intro s sid t e a src h hs w ha hsrc
  refine ⟨fun dw hi hdst hty hg hc => ?_, fun hi hw hf hg hc => ?_⟩
  · rcases hi with ⟨hi, hdw, h4⟩ | ⟨hi, hdw, h32⟩
    · have hcases : dw = 4 ∨ dw = 8 ∨ dw = 16 ∨ dw = 32 ∨ dw = 64 := by
        have := ew_cases hs.vtype
        omega
      refine converts (half := true) h hs (by rw [hi]; rfl) (fun x => by rw [hi]; rfl) ha hsrc hdst hty ?_ ?_ hcases hg hc
      · show w / 2 = dw
        omega
      · show (w != 4) = true
        rw [bne_iff_ne]
        omega
    · have hcases : dw = 4 ∨ dw = 8 ∨ dw = 16 ∨ dw = 32 ∨ dw = 64 := by
        have : w = 4 ∨ w = 8 ∨ w = 16 ∨ w = 32 ∨ w = 64 := ew_cases hs.vtype
        omega
      refine converts (half := false) h hs (by rw [hi]; rfl) (fun x => by rw [hi]; rfl) ha hsrc hdst hty hdw.symm ?_ hcases hg hc
      show (w != 64) = true
      rw [bne_iff_ne]
      omega
  · subst hf
    exact convertsE2m1 h hs hi hw ha hg hc

end

section
/-!
SUPPORT. Cross-element instructions, which read their sources as they stood, and scans.
-/

namespace Sys2Proof.Machine

/-! ## Scans -/

/-- A running sum with one more value. -/
def sumStep (add : Nat → Nat → Nat) (acc : Option Nat) (v : Nat) : Option Nat :=
  some (acc.elim v fun x => add x v)

theorem runningSum_eq (add : Nat → Nat → Nat) (l : List Nat) : runningSum add l = l.foldl (sumStep add) none := by
  unfold runningSum
  congr 1
  funext acc v
  cases acc <;> rfl

section
variable (ty : Tag) (w : Nat) (rm : Rm) (sat excl : Bool)

/-- The running sum a scan holds after some elements. -/
def scanAcc (acc : Option Nat) (l : List (Nat × Nat)) : Option Nat :=
  (l.map Prod.snd).foldl (sumStep fun x y => (addElem ty w rm sat x y).1) acc

/-- What a scan puts at an element, from the running sum before it. -/
def scanAt (acc : Option Nat) (v : Nat) : Nat × Flags :=
  acc.elim (if excl then 0 else scanPut ty v, scanFlags ty v)
    fun x => (if excl then scanPut ty x else (addElem ty w rm sat x v).1, (addElem ty w rm sat x v).2)

/-- A value a scan puts: a NaN is the canonical one (R69). -/
theorem scanPut_eq (x : Nat) : scanPut ty x = if ty.isInt = false ∧ ((arithFmt ty).unpack x).isNan = true then (arithFmt ty).nanBits else x := by
  unfold scanPut canonNan
  cases ty.isInt <;> simp

theorem scanFlags_eq (x : Nat) : scanFlags ty x = if ty.isInt = false ∧ (arithFmt ty).unpack x = .nan true then (1 : Flags) else 0 := by
  unfold scanFlags
  rw [snan_eq]
  cases ty.isInt <;> simp

theorem scanLoop_cons (acc : Option Nat) (p : Nat × Nat) (l : List (Nat × Nat)) : scanLoop ty w rm sat excl acc (p :: l)
    = (p.1, scanAt ty w rm sat excl acc p.2) :: scanLoop ty w rm sat excl (scanAcc ty w rm sat acc [p]) l := by
  cases acc <;> rfl

theorem scanLoop_append (acc : Option Nat) (k l : List (Nat × Nat)) : scanLoop ty w rm sat excl acc (k ++ l)
    = scanLoop ty w rm sat excl acc k ++ scanLoop ty w rm sat excl (scanAcc ty w rm sat acc k) l := by
  induction k generalizing acc with
  | nil => cases acc <;> rfl
  | cons p k ih => rw [List.cons_append, scanLoop_cons, scanLoop_cons, ih, List.cons_append]; rfl

theorem scanLoop_positions (acc : Option Nat) (l : List (Nat × Nat)) : (scanLoop ty w rm sat excl acc l).map Prod.fst = l.map Prod.fst := by
  induction l generalizing acc with
  | nil => cases acc <;> rfl
  | cons p l ih => rw [scanLoop_cons, List.map_cons, List.map_cons, ih]

theorem scanLoop_find_none {acc : Option Nat} {l : List (Nat × Nat)} {n : Nat} (hn : ∀ p ∈ l, p.1 ≠ n) :
    (scanLoop ty w rm sat excl acc l).find? (fun p => p.1 == n) = none := by
  rw [List.find?_eq_none]
  intro p hp
  have hmem : p.1 ∈ l.map Prod.fst := by
    rw [← scanLoop_positions ty w rm sat excl acc]
    exact List.mem_map_of_mem hp
  obtain ⟨o, ho, hoe⟩ := List.mem_map.1 hmem
  simpa [hoe] using hn o ho

/-- What a scan gives for an element that stands once among those it sums. -/
theorem scanLoop_find {k l : List (Nat × Nat)} {n v : Nat} (hn : ∀ p ∈ k, p.1 ≠ n) :
    (scanLoop ty w rm sat excl none (k ++ (n, v) :: l)).find? (fun p => p.1 == n)
      = some (n, scanAt ty w rm sat excl (scanAcc ty w rm sat none k) v) := by
  rw [scanLoop_append, List.find?_append, scanLoop_find_none ty w rm sat excl hn, scanLoop_cons, List.find?_cons_of_pos (by simp)]
  rfl

end

/-! ## The elements below one -/

theorem range_around {n vl : Nat} (h : n < vl) : ∃ l, List.range vl = List.range n ++ n :: l ∧ ∀ k ∈ l, n < k := by
  obtain ⟨d, rfl⟩ := Nat.exists_eq_add_of_lt h
  refine ⟨(List.range d).map fun k => n + (k + 1), ?_, fun k hk => ?_⟩
  · rw [show n + d + 1 = n + (d + 1) by omega, List.range_add, List.range_succ_eq_map, List.map_cons, List.map_map]
    rfl
  · obtain ⟨j, -, rfl⟩ := List.mem_map.1 hk
    omega

/-- The active elements below one, in ascending order. -/
theorem activeElems_below (t : Strand) (e : Entry) (m : MaskOp) {n : Nat} (h : n < e.vl) :
    (activeElems t e m).filter (· < n) = (List.range n).filter (admits t.k m) := by
  obtain ⟨l, hl, hlt⟩ := range_around h
  rw [activeElems, hl, List.filter_append, List.filter_append, List.filter_filter, List.filter_filter]
  have h1 : (n :: l).filter (fun k => decide (k < n) && admits t.k m k) = [] := by
    rw [List.filter_eq_nil_iff]
    intro k hk
    have : n ≤ k := by
      rcases List.mem_cons.1 hk with rfl | hk
      · omega
      · have := hlt k hk; omega
    simp [this]
  rw [h1, List.append_nil]
  refine List.filter_congr fun k hk => ?_
  simp [List.mem_range.1 hk]

theorem blockOf_eq (e : Entry) : blockOf e = blkOf e.vtype := by
  unfold blockOf blkOf
  rw [fieldNat_eq]
  have : e.vtype.toNat / 2 ^ 6 % 2 ^ 2 < 4 := Nat.mod_lt _ (by decide)
  norm_num only at this ⊢
  generalize e.vtype.toNat / 64 % 4 = b at this
  interval_cases b <;> rfl

section
variable {s : State} {sid : Nat} {t : Strand} {e : Entry} (h : Alone s sid t e) (hs : Setting t e)
include h hs

omit h hs in
/-- What a captured mask gives an element. -/
theorem capPut_eq (m : MaskOp) (n v : Nat) : (e.px t s ⟨t.v, t.k⟩ e.vl true none false).capPut m n v = under t e m n (v, 0) := by
  show (if admits t.k m n then Put.val v else inactive e.vtype, 0) = _
  unfold under
  split <;> rfl

/-- An instruction that writes a group from what its sources held before. -/
theorem writes_captured {vd : VReg} {ty : Tag} {c : Except Cause Tag} {F : Tag → Nat → Put × Flags} (hva : isVamo e.i = false)
    (hp : prepare e.i (e.px t s ⟨t.v, t.k⟩ e.vl true none false)
      = (e.px t s ⟨t.v, t.k⟩ e.vl true none false).checked c fun ty =>
        (e.px t s ⟨t.v, t.k⟩ e.vl true none false).done (some (vd, ewOf e.vtype, ty))
          (elementMop e.vtype (.vec vd.toNat (ewOf e.vtype)) e.vl (vlmaxOf t.q e.vtype) fun _ n => F ty n))
    (hc : c = .ok ty) (hg : groupOk vd.toNat (groupSize e.vtype (ewOf e.vtype)) = true) {g : Nat → Put × Flags}
    (hF : ∀ n < e.vl, F ty n = g n) :
    Performs s sid e none fun s' t' => Wrote s s' t t' e vd.toNat (ewOf e.vtype) ty g := by
  have hvl : e.vl ≠ 0 := by have := hs.length; omega
  refine performs_element h hs (ew_cases hs.vtype) hg hva (f := fun _ n => F ty n) ?_ fun n hn _ _ _ _ => hF n hn
  rw [hp, hc]
  exact if_neg hvl

omit h hs in
/-- The checks of an instruction with one source group. -/
theorem checks_source {vd va : VReg} {ty : Tag} (hg : groupOk vd.toNat (groupSize e.vtype (ewOf e.vtype)) = true)
    (ha : SourceGroup t e.vtype va (ewOf e.vtype) ty) (hc : Clear e.vtype vd (ewOf e.vtype) va (ewOf e.vtype)) :
    (do
      (e.px t s ⟨t.v, t.k⟩ e.vl true none false).groups (some (vd, ewOf e.vtype)) [(va, ewOf e.vtype)]
      (e.px t s ⟨t.v, t.k⟩ e.vl true none false).tag va (ewOf e.vtype) : Except Cause Tag) = .ok ty := by
  rw [Px.groups_clear (x := e.px t s ⟨t.v, t.k⟩ e.vl true none false) hg fun o ho => by
    obtain rfl := List.mem_singleton.1 ho
    exact ⟨ha.placed, hc⟩]
  exact Px.tag_source (t := t) ha rfl

omit h hs in
/-- The checks of an instruction with two source groups, with a condition on their tags. -/
theorem checks_sources {vd va vb : VReg} {ty tb : Tag} {need : Tag → Tag → Bool} (hg : groupOk vd.toNat (groupSize e.vtype (ewOf e.vtype)) = true)
    (ha : SourceGroup t e.vtype va (ewOf e.vtype) ty) (hca : Clear e.vtype vd (ewOf e.vtype) va (ewOf e.vtype))
    (hb : SourceGroup t e.vtype vb (ewOf e.vtype) tb) (hcb : Clear e.vtype vd (ewOf e.vtype) vb (ewOf e.vtype))
    (hneed : need ty tb = true) :
    (do
      (e.px t s ⟨t.v, t.k⟩ e.vl true none false).groups (some (vd, ewOf e.vtype)) [(va, ewOf e.vtype), (vb, ewOf e.vtype)]
      let t' ← (e.px t s ⟨t.v, t.k⟩ e.vl true none false).tag va (ewOf e.vtype)
      let u ← (e.px t s ⟨t.v, t.k⟩ e.vl true none false).tag vb (ewOf e.vtype)
      needTag (need t' u)
      pure t' : Except Cause Tag) = .ok ty := by
  let x : Px := e.px t s ⟨t.v, t.k⟩ e.vl true none false
  rw [Px.groups_clear (x := x) hg fun o ho => by
    simp only [List.mem_cons, List.not_mem_nil, or_false] at ho
    rcases ho with rfl | rfl
    · exact ⟨ha.placed, hca⟩
    · exact ⟨hb.placed, hcb⟩, show x.tag va (ewOf e.vtype) = .ok ty from Px.tag_source (t := t) ha rfl]
  show (x.tag vb (ewOf e.vtype) >>= _) = _
  rw [show x.tag vb (ewOf e.vtype) = .ok tb from Px.tag_source (t := t) hb rfl]
  exact congrArg (fun r : Except Cause Unit => r >>= fun _ => pure ty) (needTag_true hneed)

omit h hs in
/-- The partial sum a scan holds before an element. -/
theorem scan_before {a : V1} {ty : Tag} {n : Nat} (hn : n < e.vl) (hact : admits t.k a.m n = true) (rm : Rm) (excl : Bool) :
    (scanLoop ty (ewOf e.vtype) rm a.sat excl none ((e.px t s ⟨t.v, t.k⟩ e.vl true none false).actives a.va a.m (ewOf e.vtype))).find?
        (fun p => p.1 == n)
      = some (n, scanAt ty (ewOf e.vtype) rm a.sat excl (runningSum (fun x y => (addElem ty (ewOf e.vtype) rm a.sat x y).1)
          (((activeElems t e a.m).filter (· < n)).map (elem t e a.va))) (elem t e a.va n)) := by
  obtain ⟨l, hl, -⟩ := range_around hn
  have hacts : (e.px t s ⟨t.v, t.k⟩ e.vl true none false).actives a.va a.m (ewOf e.vtype)
      = ((List.range n).filter (admits t.k a.m)).map (fun k => (k, elem t e a.va k))
        ++ (n, elem t e a.va n) :: (l.filter (admits t.k a.m)).map fun k => (k, elem t e a.va k) := by
    show ((List.range e.vl).filter (admits t.k a.m)).map (fun k => (k, elem t e a.va k)) = _
    rw [hl, List.filter_append, List.filter_cons_of_pos hact, List.map_append, List.map_cons]
  rw [hacts, scanLoop_find, runningSum_eq, activeElems_below t e a.m hn, scanAcc, List.map_map]
  · rfl
  · intro p hp
    obtain ⟨k, hk, rfl⟩ := List.mem_map.1 hp
    have := List.mem_range.1 (List.mem_filter.1 hk).1
    exact Nat.ne_of_lt this

omit h hs in
/-- No scan gives anything for an inactive element. -/
theorem scan_inactive {a : V1} {ty : Tag} {n : Nat} (hact : admits t.k a.m n = false) (rm : Rm) (excl : Bool) :
    (scanLoop ty (ewOf e.vtype) rm a.sat excl none ((e.px t s ⟨t.v, t.k⟩ e.vl true none false).actives a.va a.m (ewOf e.vtype))).find?
        (fun p => p.1 == n) = none := by
  refine scanLoop_find_none _ _ _ _ _ fun p hp => ?_
  obtain ⟨k, hk, rfl⟩ := List.mem_map.1 hp
  rintro rfl
  have hadm : admits t.k a.m k = true := (List.mem_filter.1 hk).2
  exact Bool.false_ne_true (hact.symm.trans hadm)

theorem scans {a : V1} {ty : Tag} {excl : Bool} (hva : isVamo e.i = false) (hprep : ∀ x, prepare e.i x = prepScan excl a x)
    (hg : groupOk a.vd.toNat (groupSize e.vtype (ewOf e.vtype)) = true) (ha : SourceGroup t e.vtype a.va (ewOf e.vtype) ty)
    (hc : Clear e.vtype a.vd (ewOf e.vtype) a.va (ewOf e.vtype)) (hty : (ty.isInt || isArithFloat ty) = true) (hn : a.ty = .raw ∨ a.ty = ty) :
    Performs s sid e none fun s' t' => Wrote s s' t t' e a.vd.toNat (ewOf e.vtype) ty fun n => under t e a.m n
      (scanAt ty (ewOf e.vtype) (modeOf e a.rm) a.sat excl (runningSum (fun x y => (addElem ty (ewOf e.vtype) (modeOf e a.rm) a.sat x y).1)
          (((activeElems t e a.m).filter (· < n)).map (elem t e a.va))) (elem t e a.va n)) := by
  let x : Px := e.px t s ⟨t.v, t.k⟩ e.vl true none false
  have hneed : ((ty.isInt || isArithFloat ty) && tyOk a.ty ty) = true := by
    rw [hty, Bool.true_and, tyOk]
    rcases hn with hn | hn <;> simp [hn]
  have hchecks : (do
      x.groups (some (a.vd, x.ew)) [(a.va, x.ew)]
      let t' ← x.tag a.va x.ew
      needTag ((t'.isInt || isArithFloat t') && tyOk a.ty t')
      pure t' : Except Cause Tag) = .ok ty := by
    rw [show x.groups (some (a.vd, x.ew)) [(a.va, x.ew)] = .ok () from Px.groups_clear hg fun o ho => by
      obtain rfl := List.mem_singleton.1 ho
      exact ⟨ha.placed, hc⟩, show x.tag a.va x.ew = .ok ty from Px.tag_source (t := t) ha rfl]
    exact congrArg (fun r : Except Cause Unit => r >>= fun _ => pure ty) (needTag_true hneed)
  refine writes_captured h hs hva (hprep x) hchecks hg fun n hlt => ?_
  rw [show x.rm a.rm = modeOf e a.rm from (modeOf_eq e a.rm).symm]
  unfold under
  cases hact : admits t.k a.m n with
  | true =>
    have hfind : (scanLoop ty x.ew (modeOf e a.rm) a.sat excl none (x.actives a.va a.m x.ew)).find? (fun p => p.1 == n) = some _ :=
      scan_before hlt hact _ excl
    rw [hfind]
    rfl
  | false =>
    have hfind : (scanLoop ty x.ew (modeOf e a.rm) a.sat excl none (x.actives a.va a.m x.ew)).find? (fun p => p.1 == n) = none :=
      scan_inactive hact _ excl
    rw [hfind]
    rfl

end

end Sys2Proof.Machine

open Sys2Proof Sys2Proof.Machine

/-- Settles O35: every source is read from the capture, so each element written depends on the sources as they stood. -/
theorem crossElementResults : Obligations.CrossElementResults := by
  intro s sid t e ty h hs
  dsimp only
  refine ⟨fun a ti hi ⟨hg, ha, hc⟩ hb hcb hti => ?_, fun a hi ⟨hg, ha, hc⟩ ⟨_, hb, hcb⟩ => ?_, fun a hi ⟨hg, ha, hc⟩ => ?_,
    fun a hi ⟨hg, ha, hc⟩ => ?_, fun a ⟨hg, ha, hc⟩ => ⟨fun hi => ?_, fun hi => ?_, fun hi => ?_, fun hi => ?_⟩,
    fun a excl hi ⟨hg, ha, hc⟩ hty hn => ?_⟩
  · exact writes_captured h hs (by rw [hi]; rfl) (by rw [hi]; rfl)
      (checks_sources (need := fun _ u => indexOk u (ewOf e.vtype)) hg ha hc hb hcb (indexOk_of hti hb.width)) hg fun n _ => by
        dsimp only
        rw [kept_eq_keptBits, capPut_eq]
        rfl
  · exact writes_captured h hs (by rw [hi]; rfl) (by rw [hi]; rfl)
      (checks_sources (need := fun t u => t == u) hg ha hc hb hcb (beq_self_eq_true ty)) hg fun n _ => by
        rw [kept_eq_keptBits, capPut_eq]
        rfl
  · exact writes_captured h hs (by rw [hi]; rfl) (by rw [hi]; rfl) (checks_source hg ha hc) hg fun n _ => by
        rw [kept_eq_keptBits, capPut_eq]
        rfl
  · exact writes_captured h hs (by rw [hi]; rfl) (by rw [hi]; rfl) (checks_source hg ha hc) hg fun n _ => by
        rw [kept_eq_keptBits, capPut_eq]
        rfl
  · exact writes_captured h hs (by rw [hi]; rfl) (by rw [hi]; rfl) (checks_source hg ha hc) hg fun n _ => by
        rw [kept_eq_keptBits, capPut_eq]
        rfl
  · exact writes_captured h hs (by rw [hi]; rfl) (by rw [hi]; rfl) (checks_source hg ha hc) hg fun n _ => by
        rw [kept_eq_keptBits, capPut_eq, blockOf_eq]
        rfl
  · refine writes_captured h hs (by rw [hi]; rfl) (by rw [hi]; rfl) (checks_source hg ha hc) hg fun n _ => ?_
    have hsel : ((e.px t s ⟨t.v, t.k⟩ e.vl true none false).selected a.m)[n]? = (activeElems t e a.m)[n]? := rfl
    rw [hsel, List.getD_eq_getElem?_getD]
    by_cases hlt : n < (activeElems t e a.m).length
    · rw [if_pos hlt, List.getElem?_eq_getElem hlt, ← kept_eq_keptBits] <;> rfl
    · rw [if_neg hlt, List.getElem?_eq_none (by omega)] <;> rfl
  · exact writes_captured h hs (by rw [hi]; rfl) (by rw [hi]; rfl) (checks_source hg ha hc) hg fun n _ => by
        rw [kept_eq_keptBits, capPut_eq, rankOf, ← List.countP_eq_length_filter]
        rfl
  · have hva : isVamo e.i = false := by rw [hi]; cases excl <;> rfl
    have hprep (x : Px) : prepare e.i x = prepScan excl a x := by rw [hi]; cases excl <;> rfl
    refine (congrArg (fun g => Performs s sid e none fun s' t' => Wrote s s' t t' e a.vd.toNat (ewOf e.vtype) ty g) (funext fun n => ?_)).mp
      (scans h hs hva hprep hg ha hc hty hn)
    refine congrArg (under t e a.m n) ?_
    change scanAt _ _ _ _ _ (runningSum (fun x y => (addElem ty (ewOf e.vtype) (modeOf e a.rm) a.sat x y).1) _) _
      = match runningSum (fun x y => (addElem ty (ewOf e.vtype) (modeOf e a.rm) a.sat x y).1) _ with
        | none => _
        | some x => _
    cases runningSum (fun x y => (addElem ty (ewOf e.vtype) (modeOf e a.rm) a.sat x y).1)
      (((activeElems t e a.m).filter (· < n)).map (elem t e a.va)) with
    | none => exact Prod.ext (congrArg (fun v => if excl then 0 else v) (scanPut_eq ty _)) (scanFlags_eq ty _)
    | some x => exact Prod.ext (congrArg (fun v => if excl then v else _) (scanPut_eq ty x)) rfl

end

section
/-!
SUPPORT. The merge procedure of R230 over two sorted rows.
-/

namespace Sys2Proof.Machine

section
variable (o : MergeOp) (ti tv : Tag) (w : Nat) (rm : Rm)

/-- The indices of two sorted rows in rising order, each with the value and the flags R230 gives it. -/
def mergeSteps : Nat → List (Nat × Nat) → List (Nat × Nat) → List (Nat × Nat × Flags)
  | 0, _, _ => []
  | _ + 1, [], [] => []
  | f + 1, p :: as, [] => (p.1, p.2, 0) :: mergeSteps f as []
  | f + 1, [], q :: bs => (q.1, mergeAlone o tv w q.2) :: mergeSteps f [] bs
  | f + 1, p :: as, q :: bs =>
    if intOf ti w p.1 < intOf ti w q.1 then (p.1, p.2, 0) :: mergeSteps f as (q :: bs)
    else if intOf ti w q.1 < intOf ti w p.1 then (q.1, mergeAlone o tv w q.2) :: mergeSteps f (p :: as) bs
    else (p.1, mergeBoth o tv w rm p.2 q.2) :: mergeSteps f as bs

/-! ## What each index is given -/

variable {o ti tv w rm}

theorem merged_nil {k : Nat} {x : Nat × Flags} : ¬ merged o tv w rm [] [] k x := by
  simp [merged]

/-- An index of row A alone in front. -/
theorem merged_consA {p : Nat × Nat} {as bs : List (Nat × Nat)} (ha : ∀ y, (p.1, y) ∉ as) (hb : ∀ y, (p.1, y) ∉ bs) (k : Nat) (x : Nat × Flags) :
    merged o tv w rm (p :: as) bs k x ↔ (k = p.1 ∧ x = (p.2, 0)) ∨ merged o tv w rm as bs k x := by
  obtain ⟨i, v⟩ := p
  unfold merged
  by_cases hk : k = i
  · subst hk
    simp [ha, hb]
  · simp [hk]

/-- An index of row B alone in front. -/
theorem merged_consB {q : Nat × Nat} {as bs : List (Nat × Nat)} (ha : ∀ y, (q.1, y) ∉ as) (hb : ∀ y, (q.1, y) ∉ bs) (k : Nat) (x : Nat × Flags) :
    merged o tv w rm as (q :: bs) k x ↔ (k = q.1 ∧ x = mergeAlone o tv w q.2) ∨ merged o tv w rm as bs k x := by
  obtain ⟨j, u⟩ := q
  unfold merged
  by_cases hk : k = j
  · subst hk
    simp [ha, hb]
  · simp [hk]

/-- An index of both rows in front. -/
theorem merged_consBoth {p q : Nat × Nat} {as bs : List (Nat × Nat)} (hpq : p.1 = q.1) (ha : ∀ y, (p.1, y) ∉ as) (hb : ∀ y, (q.1, y) ∉ bs)
    (k : Nat) (x : Nat × Flags) :
    merged o tv w rm (p :: as) (q :: bs) k x ↔ (k = p.1 ∧ x = mergeBoth o tv w rm p.2 q.2) ∨ merged o tv w rm as bs k x := by
  obtain ⟨i, v⟩ := p
  obtain ⟨j, u⟩ := q
  obtain rfl : i = j := hpq
  unfold merged
  by_cases hk : k = i
  · subst hk
    simp [ha, hb]
  · simp [hk]

/-! ## The steps -/

/-- Strictly rising indices. -/
abbrev Rising (ti : Tag) (w : Nat) {α : Type} (l : List (Nat × α)) : Prop :=
  l.Pairwise fun p q => intOf ti w p.1 < intOf ti w q.1

/-- An index below the first of a rising row is not in it. -/
theorem Rising.not_mem {q : Nat × Nat} {l : List (Nat × Nat)} (h : Rising ti w (q :: l)) {i : Nat}
    (hi : intOf ti w i < intOf ti w q.1) (y : Nat) : (i, y) ∉ q :: l := by
  intro hm
  rcases List.mem_cons.1 hm with rfl | hm
  · exact lt_irrefl _ hi
  · have : intOf ti w q.1 < intOf ti w i := (List.pairwise_cons.1 h).1 _ hm
    omega

/-- The first index of a rising row stands in it once. -/
theorem Rising.not_mem_tail {q : Nat × Nat} {l : List (Nat × Nat)} (h : Rising ti w (q :: l)) (y : Nat) : (q.1, y) ∉ l := by
  intro hm
  have : intOf ti w q.1 < intOf ti w q.1 := (List.pairwise_cons.1 h).1 (q.1, y) hm
  omega

theorem mem_mergeSteps {f : Nat} {as bs : List (Nat × Nat)} (hf : as.length + bs.length ≤ f) (hlt : ∀ p ∈ as ++ bs, p.1 < 2 ^ w)
    (ha : Rising ti w as) (hb : Rising ti w bs) (k : Nat) (x : Nat × Flags) :
    (k, x) ∈ mergeSteps o ti tv w rm f as bs ↔ merged o tv w rm as bs k x := by
  induction f generalizing as bs with
  | zero =>
    obtain rfl := List.eq_nil_of_length_eq_zero (l := as) (by omega)
    obtain rfl := List.eq_nil_of_length_eq_zero (l := bs) (by omega)
    exact iff_of_false List.not_mem_nil merged_nil
  | succ f ih =>
    match as, bs with
    | [], [] => exact iff_of_false List.not_mem_nil merged_nil
    | p :: as, [] =>
      rw [mergeSteps, List.mem_cons, merged_consA ha.not_mem_tail (fun _ => List.not_mem_nil), Prod.mk.injEq,
        ih (by simpa using hf) (fun q hq => hlt q (by simp at hq ⊢; exact .inr hq)) ha.of_cons hb]
    | [], q :: bs =>
      rw [mergeSteps, List.mem_cons, merged_consB (fun _ => List.not_mem_nil) hb.not_mem_tail, Prod.mk.injEq,
        ih (by simpa using hf) (fun r hr => hlt r (by simp at hr ⊢; exact .inr hr)) ha hb.of_cons]
    | p :: as, q :: bs =>
      rw [mergeSteps]
      simp only [List.length_cons] at hf
      by_cases h1 : intOf ti w p.1 < intOf ti w q.1
      · rw [if_pos h1, List.mem_cons, merged_consA ha.not_mem_tail (hb.not_mem h1), Prod.mk.injEq,
          ih (by rw [List.length_cons]; omega) (fun r hr => hlt r (List.mem_cons_of_mem _ hr)) ha.of_cons hb]
      · rw [if_neg h1]
        by_cases h2 : intOf ti w q.1 < intOf ti w p.1
        · rw [if_pos h2, List.mem_cons, merged_consB (ha.not_mem h2) hb.not_mem_tail, Prod.mk.injEq,
            ih (by rw [List.length_cons]; omega) (fun r hr => hlt r (by simp at hr ⊢; tauto)) ha hb.of_cons]
        · have hpq : p.1 = q.1 := intOf_inj (ty := ti) (hlt p (by simp)) (hlt q (by simp)) (by omega)
          rw [if_neg h2, List.mem_cons, merged_consBoth hpq ha.not_mem_tail hb.not_mem_tail, Prod.mk.injEq,
            ih (by omega) (fun r hr => hlt r (by simp at hr ⊢; tauto)) ha.of_cons hb.of_cons]

/-- An index that stands in either row. -/
theorem merged_index {as bs : List (Nat × Nat)} {k : Nat} {x : Nat × Flags} (h : merged o tv w rm as bs k x) :
    (∃ v, (k, v) ∈ as) ∨ ∃ v, (k, v) ∈ bs := by
  rcases h with ⟨v, -, hv, -⟩ | ⟨⟨v, hv, -⟩, -⟩ | ⟨v, hv, -⟩
  · exact .inl ⟨v, hv⟩
  · exact .inl ⟨v, hv⟩
  · exact .inr ⟨v, hv⟩

/-- An index below those of both rows is below those of their steps. -/
theorem mergeSteps_above {f : Nat} {as bs : List (Nat × Nat)} (hf : as.length + bs.length ≤ f) (hlt : ∀ p ∈ as ++ bs, p.1 < 2 ^ w)
    (ha : Rising ti w as) (hb : Rising ti w bs) {i : Int} (h1 : ∀ p ∈ as, i < intOf ti w p.1) (h2 : ∀ p ∈ bs, i < intOf ti w p.1) :
    ∀ p ∈ mergeSteps o ti tv w rm f as bs, i < intOf ti w p.1 := by
  intro p hp
  rcases merged_index ((mem_mergeSteps hf hlt ha hb p.1 p.2).1 hp) with ⟨v, hv⟩ | ⟨v, hv⟩
  · exact h1 _ hv
  · exact h2 _ hv

theorem mergeSteps_rising {f : Nat} {as bs : List (Nat × Nat)} (hf : as.length + bs.length ≤ f) (hlt : ∀ p ∈ as ++ bs, p.1 < 2 ^ w)
    (ha : Rising ti w as) (hb : Rising ti w bs) : Rising ti w (mergeSteps o ti tv w rm f as bs) := by
  induction f generalizing as bs with
  | zero => exact List.Pairwise.nil
  | succ f ih =>
    match as, bs with
    | [], [] => exact List.Pairwise.nil
    | p :: as, [] =>
      have hlt' : ∀ q ∈ as ++ [], q.1 < 2 ^ w := fun q hq => hlt q (by simp at hq ⊢; exact .inr hq)
      have hf' : as.length + ([] : List (Nat × Nat)).length ≤ f := by simpa using hf
      rw [mergeSteps]
      exact List.pairwise_cons.2 ⟨mergeSteps_above hf' hlt' ha.of_cons hb (List.pairwise_cons.1 ha).1 (by simp), ih hf' hlt' ha.of_cons hb⟩
    | [], q :: bs =>
      have hlt' : ∀ r ∈ [] ++ bs, r.1 < 2 ^ w := fun r hr => hlt r (by simp at hr ⊢; exact .inr hr)
      have hf' : ([] : List (Nat × Nat)).length + bs.length ≤ f := by simpa using hf
      rw [mergeSteps]
      exact List.pairwise_cons.2 ⟨mergeSteps_above hf' hlt' ha hb.of_cons (by simp) (List.pairwise_cons.1 hb).1, ih hf' hlt' ha hb.of_cons⟩
    | p :: as, q :: bs =>
      have hpa := (List.pairwise_cons.1 ha).1
      have hqb := (List.pairwise_cons.1 hb).1
      rw [mergeSteps]
      simp only [List.length_cons] at hf
      by_cases h1 : intOf ti w p.1 < intOf ti w q.1
      · have hlt' : ∀ r ∈ as ++ q :: bs, r.1 < 2 ^ w := fun r hr => hlt r (List.mem_cons_of_mem _ hr)
        have hf' : as.length + (q :: bs).length ≤ f := by rw [List.length_cons]; omega
        rw [if_pos h1]
        refine List.pairwise_cons.2 ⟨mergeSteps_above hf' hlt' ha.of_cons hb hpa fun r hr => ?_, ih hf' hlt' ha.of_cons hb⟩
        rcases List.mem_cons.1 hr with rfl | hr
        · exact h1
        · exact h1.trans (hqb r hr)
      · rw [if_neg h1]
        by_cases h2 : intOf ti w q.1 < intOf ti w p.1
        · have hlt' : ∀ r ∈ p :: as ++ bs, r.1 < 2 ^ w := fun r hr => hlt r (by simp at hr ⊢; tauto)
          have hf' : (p :: as).length + bs.length ≤ f := by rw [List.length_cons]; omega
          rw [if_pos h2]
          refine List.pairwise_cons.2 ⟨mergeSteps_above hf' hlt' ha hb.of_cons (fun r hr => ?_) hqb, ih hf' hlt' ha hb.of_cons⟩
          rcases List.mem_cons.1 hr with rfl | hr
          · exact h2
          · exact h2.trans (hpa r hr)
        · have hlt' : ∀ r ∈ as ++ bs, r.1 < 2 ^ w := fun r hr => hlt r (by simp at hr ⊢; tauto)
          have hf' : as.length + bs.length ≤ f := by omega
          rw [if_neg h2]
          refine List.pairwise_cons.2 ⟨mergeSteps_above hf' hlt' ha.of_cons hb.of_cons hpa fun r hr => ?_, ih hf' hlt' ha.of_cons hb.of_cons⟩
          have : intOf ti w q.1 < intOf ti w r.1 := hqb r hr
          show intOf ti w p.1 < _
          omega

theorem length_mergeSteps (f : Nat) (as bs : List (Nat × Nat)) : (mergeSteps o ti tv w rm f as bs).length ≤ as.length + bs.length := by
  induction f generalizing as bs with
  | zero => simp [mergeSteps]
  | succ f ih =>
    match as, bs with
    | [], [] => simp [mergeSteps]
    | p :: as, [] => simpa [mergeSteps] using ih as []
    | [], q :: bs => simpa [mergeSteps] using ih [] bs
    | p :: as, q :: bs =>
      have h1 := ih as (q :: bs)
      have h2 := ih (p :: as) bs
      have h3 := ih as bs
      simp only [List.length_cons] at h1 h2 ⊢
      rw [mergeSteps]
      split
      · rw [List.length_cons]; omega
      · split <;> rw [List.length_cons] <;> omega

end

/-! ## The rows and the flags put out -/

section
variable (drop : Nat → Bool)

/-- One step put out: the count, the rows so far, the latest first, and the flags at their positions. -/
def putOut (x : Nat × List (Nat × Nat) × List (Nat × Flags)) (p : Nat × Nat × Flags) : Nat × List (Nat × Nat) × List (Nat × Flags) :=
  if drop p.2.1 then (x.1, x.2.1, (x.1, p.2.2) :: x.2.2) else (x.1 + 1, (p.1, p.2.1) :: x.2.1, (x.1, p.2.2) :: x.2.2)

/-- The flags of one more step, where the positions of those before stay. -/
theorem flags_append {ti : Tag} {w : Nat} {l : List (Nat × Nat × Flags)} {p : Nat × Nat × Flags} {rows rows' : List (Nat × Nat)}
    {fls : List (Nat × Flags)} {m : Nat}
    (h : ∀ n fl, (n, fl) ∈ fls ↔ ∃ k v, (k, v, fl) ∈ l ∧ n = rows.countP fun r => decide (intOf ti w r.1 < intOf ti w k))
    (hold : ∀ k v fl, (k, v, fl) ∈ l → (rows'.countP fun r => decide (intOf ti w r.1 < intOf ti w k))
      = rows.countP fun r => decide (intOf ti w r.1 < intOf ti w k))
    (hnew : (rows'.countP fun r => decide (intOf ti w r.1 < intOf ti w p.1)) = m) (n : Nat) (fl : Flags) :
    (n, fl) ∈ (m, p.2.2) :: fls ↔ ∃ k v, (k, v, fl) ∈ l ++ [p] ∧ n = rows'.countP fun r => decide (intOf ti w r.1 < intOf ti w k) := by
  rw [List.mem_cons, Prod.mk.injEq, h]
  constructor
  · rintro (⟨rfl, rfl⟩ | ⟨k, v, hin, rfl⟩)
    · exact ⟨p.1, p.2.1, List.mem_append_right _ (List.mem_singleton.2 rfl), hnew.symm⟩
    · exact ⟨k, v, List.mem_append_left _ hin, (hold k v fl hin).symm⟩
  · rintro ⟨k, v, hin, rfl⟩
    rcases List.mem_append.1 hin with hin | hin
    · exact .inr ⟨k, v, hin, hold k v fl hin⟩
    · obtain rfl := List.mem_singleton.1 hin
      exact .inl ⟨hnew, rfl⟩

/-- What stands after rising steps: the rows kept, and each step's flags at the number of rows with indices below its own. -/
theorem putOut_steps {ti : Tag} {w : Nat} (l : List (Nat × Nat × Flags)) (hl : Rising ti w l) :
    let x := l.foldl (putOut drop) (0, [], [])
    x.1 = x.2.1.length ∧ (∀ k v, (k, v) ∈ x.2.1 ↔ (∃ fl, (k, v, fl) ∈ l) ∧ drop v = false) ∧ Rising ti w x.2.1.reverse
    ∧ ∀ n fl, (n, fl) ∈ x.2.2 ↔ ∃ k v, (k, v, fl) ∈ l ∧ n = x.2.1.countP fun p => decide (intOf ti w p.1 < intOf ti w k) := by
  induction l using List.reverseRecOn with
  | nil => simp
  | append_singleton l p ih =>
    obtain ⟨hl1, -, hlp⟩ := List.pairwise_append.1 hl
    have hlast : ∀ q ∈ l, intOf ti w q.1 < intOf ti w p.1 := fun q hq => hlp q hq p List.mem_cons_self
    obtain ⟨hlen, hmem, hrise, hfl⟩ := ih hl1
    rw [List.foldl_append, List.foldl_cons, List.foldl_nil]
    generalize l.foldl (putOut drop) (0, [], []) = x at hlen hmem hrise hfl
    have hbelow : ∀ r ∈ x.2.1, intOf ti w r.1 < intOf ti w p.1 := by
      intro r hr
      obtain ⟨⟨fl, hin⟩, -⟩ := (hmem r.1 r.2).1 hr
      exact hlast _ hin
    have hcount : x.2.1.countP (fun r => decide (intOf ti w r.1 < intOf ti w p.1)) = x.1 := by
      rw [hlen]
      exact List.countP_eq_length.2 fun r hr => decide_eq_true (hbelow r hr)
    unfold putOut
    by_cases hd : drop p.2.1 = true
    · rw [if_pos hd]
      refine ⟨hlen, fun k v => ?_, hrise, fun n fl => ?_⟩
      · rw [hmem]
        constructor
        · rintro ⟨⟨fl, hin⟩, hv⟩
          exact ⟨⟨fl, List.mem_append_left _ hin⟩, hv⟩
        · rintro ⟨⟨fl, hin⟩, hv⟩
          refine ⟨⟨fl, ?_⟩, hv⟩
          rcases List.mem_append.1 hin with hin | hin
          · exact hin
          · obtain rfl := List.mem_singleton.1 hin
            exact absurd (hd.symm.trans hv) (by decide)
      · exact flags_append hfl (fun k v fl _ => rfl) hcount n fl
    · rw [if_neg hd]
      have hd' : drop p.2.1 = false := by simpa using hd
      refine ⟨by rw [hlen, List.length_cons], fun k v => ?_, ?_, fun n fl => flags_append hfl (fun k v fl hq => ?_) ?_ n fl⟩
      · rw [List.mem_cons, hmem, Prod.mk.injEq]
        constructor
        · rintro (⟨rfl, rfl⟩ | ⟨⟨fl, hin⟩, hv⟩)
          · exact ⟨⟨p.2.2, List.mem_append_right _ (List.mem_singleton.2 rfl)⟩, hd'⟩
          · exact ⟨⟨fl, List.mem_append_left _ hin⟩, hv⟩
        · rintro ⟨⟨fl, hin⟩, hv⟩
          rcases List.mem_append.1 hin with hin | hin
          · exact .inr ⟨⟨fl, hin⟩, hv⟩
          · obtain rfl := List.mem_singleton.1 hin
            exact .inl ⟨rfl, rfl⟩
      · rw [List.reverse_cons]
        refine List.pairwise_append.2 ⟨hrise, List.pairwise_singleton _ _, fun r hr q hq => ?_⟩
        obtain rfl := List.mem_singleton.1 hq
        exact hbelow r (List.mem_reverse.1 hr)
      · have : intOf ti w k < intOf ti w p.1 := hlast _ hq
        exact List.countP_cons_of_neg (by simp; omega)
      · rw [List.countP_cons_of_neg (by simp)]
        exact hcount

end

/-! ## The procedure -/

theorem isInt_fmt {ty : Tag} (h : ty.isInt = true) : ty.fmt = none := by
  cases ty <;> simp_all [Tag.isInt, Tag.isSigned, Tag.isUnsigned, Tag.fmt]

theorem comb_eq {o : MergeOp} {tv : Tag} {w : Nat} (hw : tv.width = some w) (hpos : 0 < w) (hc : (tv.isInt || tv.fmt.isSome) = true) (rm : Rm)
    {a b : Nat} (ha : tv.fmt = none → a < 2 ^ w) (hb : tv.fmt = none → b < 2 ^ w) : o.comb tv w rm a b = mergeBoth o tv w rm a b := by
  unfold MergeOp.comb mergeBoth arithFmt
  cases hf : tv.fmt with
  | none =>
    rw [hf] at hc
    rw [if_pos (by simpa using hc)]
    cases o with
    | add => exact Prod.ext (BitVec.toNat_ofNat _ _).symm rfl
    | sub => exact Prod.ext (wrapTo_eq_ofInt w _) rfl
    | max =>
      dsimp only
      rw [intValue_eq hw hpos (ha hf), intValue_eq hw hpos (hb hf)]
  | some f =>
    have hint : ¬ tv.isInt = true := fun hi => by cases hf.symm.trans (isInt_fmt hi)
    rw [if_neg hint]
    cases o <;> rfl

theorem xor_two_pow_lt {b n : Nat} (hb : b < 2 ^ n) : b ^^^ 2 ^ n = b + 2 ^ n := by
  refine Nat.eq_of_testBit_eq fun i => ?_
  rw [Nat.testBit_xor, add_comm]
  rcases lt_trichotomy i n with hi | rfl | hi
  · rw [Nat.testBit_two_pow_of_ne (by omega), Nat.testBit_two_pow_add_gt hi, Bool.xor_false]
  · rw [Nat.testBit_two_pow_self, Nat.testBit_two_pow_add_eq, Bool.xor_true]
  · have hle : 2 ^ (n + 1) ≤ 2 ^ i := Nat.pow_le_pow_right (by decide) hi
    rw [pow_succ] at hle
    rw [Nat.testBit_two_pow_of_ne (by omega), Nat.testBit_lt_two_pow (by omega), Nat.testBit_lt_two_pow (by omega)]
    rfl

/-- The highest bit of a number changed. -/
theorem xor_two_pow {b n : Nat} (hb : b < 2 ^ (n + 1)) : b ^^^ 2 ^ n = if b / 2 ^ n % 2 = 1 then b - 2 ^ n else b + 2 ^ n := by
  rw [pow_succ] at hb
  by_cases h : b < 2 ^ n
  · rw [Nat.div_eq_of_lt h, if_neg (by decide), xor_two_pow_lt h]
  · have hdiv : b / 2 ^ n = 1 := Nat.div_eq_of_lt_le (by omega) (by omega)
    have hsub : b - 2 ^ n < 2 ^ n := by omega
    have hb' : b = (b - 2 ^ n) ^^^ 2 ^ n := by rw [xor_two_pow_lt hsub]; omega
    rw [hdiv, if_pos rfl]
    nth_rw 1 [hb']
    rw [Nat.xor_assoc, Nat.xor_self, Nat.xor_zero]

theorem loneB_eq {o : MergeOp} {tv : Tag} {w : Nat} (hc : (tv.isInt || tv.fmt.isSome) = true) {b : Nat}
    (hb : ∀ f, tv.fmt = some f → b < 2 ^ (f.eb + f.mb + 1)) : o.loneB tv w b = mergeAlone o tv w b := by
  unfold MergeOp.loneB mergeAlone arithFmt
  cases o with
  | add => rfl
  | max => rfl
  | sub =>
    cases hf : tv.fmt with
    | none =>
      rw [hf] at hc
      dsimp only
      rw [if_pos (by simpa using hc), wrapTo_eq_ofInt]
    | some f =>
      have hint : ¬ tv.isInt = true := fun hi => by cases hf.symm.trans (isInt_fmt hi)
      dsimp only
      rw [if_neg hint, Option.getD_some, snan_eq, Fmt.signBit, xor_two_pow (hb f hf)]

/-- Whether `.dz` leaves a value out. -/
def leftOutZero (dz : Bool) (tv : Tag) (v : Nat) : Bool :=
  dz && isZeroElem tv v

/-- The indices and values a merge can take (R230). -/
structure MergeRows (ti tv : Tag) (w : Nat) (as bs : List (Nat × Nat)) : Prop where
  small : ∀ p ∈ as ++ bs, p.1 < 2 ^ w
  ints : ∀ p ∈ as ++ bs, tv.fmt = none → p.2 < 2 ^ w
  floats : ∀ p ∈ as ++ bs, ∀ f, tv.fmt = some f → p.2 < 2 ^ (f.eb + f.mb + 1)

theorem MergeRows.sub {ti tv : Tag} {w : Nat} {as bs as' bs' : List (Nat × Nat)} (h : MergeRows ti tv w as bs)
    (hs : ∀ p ∈ as' ++ bs', p ∈ as ++ bs) : MergeRows ti tv w as' bs' :=
  ⟨fun p hp => h.small p (hs p hp), fun p hp => h.ints p (hs p hp), fun p hp => h.floats p (hs p hp)⟩

/-- One step of the procedure puts out one step. -/
theorem mergeLoop_emit {o : MergeOp} {ti tv : Tag} {w : Nat} {rm : Rm} {dz : Bool} {vlmax f n x : Nat} {v : Nat × Flags}
    {as bs out : List (Nat × Nat)} {fl : List (Nat × Flags)} {l : List (Nat × Nat × Flags)} (hn : n < vlmax)
    (h : ∀ n' out' fl', n' ≤ n + 1 → mergeLoop o ti tv w rm dz vlmax f n' as bs out' fl'
      = some (l.foldl (putOut (leftOutZero dz tv)) (n', out', fl')).2) :
    (if dz && isZeroElem tv v.1 then mergeLoop o ti tv w rm dz vlmax f n as bs out ((n, v.2) :: fl)
      else if n = vlmax then none
      else mergeLoop o ti tv w rm dz vlmax f (n + 1) as bs ((x, v.1) :: out) ((n, v.2) :: fl))
      = some (((x, v) :: l).foldl (putOut (leftOutZero dz tv)) (n, out, fl)).2 := by
  rw [List.foldl_cons, putOut]
  dsimp only
  unfold leftOutZero
  by_cases hd : (dz && isZeroElem tv v.1) = true
  · rw [if_pos hd, if_pos hd]
    exact h _ _ _ (by omega)
  · rw [if_neg hd, if_neg hd, if_neg (by omega)]
    exact h _ _ _ (by omega)

theorem mergeLoop_eq {o : MergeOp} {ti tv : Tag} {w : Nat} (hti : ti.width = some w) (hpos : 0 < w) (htv : tv.width = some w)
    (hc : (tv.isInt || tv.fmt.isSome) = true) (rm : Rm) (dz : Bool) (vlmax : Nat) {f n : Nat} {as bs : List (Nat × Nat)}
    (out : List (Nat × Nat)) (fl : List (Nat × Flags)) (hr : MergeRows ti tv w as bs) (hf : as.length + bs.length < f)
    (hn : n + (as.length + bs.length) ≤ vlmax) :
    mergeLoop o ti tv w rm dz vlmax f n as bs out fl
      = some ((mergeSteps o ti tv w rm f as bs).foldl (putOut (leftOutZero dz tv)) (n, out, fl)).2 := by
  induction f generalizing n as bs out fl with
  | zero => omega
  | succ f ih =>
    match as, bs with
    | [], [] => rfl
    | p :: as, [] =>
      simp only [List.length_cons, List.length_nil] at hf hn
      exact mergeLoop_emit (v := (p.2, 0)) (by omega) fun n' out' fl' hle =>
        ih out' fl' (hr.sub (by simp; tauto)) (by simp; omega) (by simp; omega)
    | [], q :: bs =>
      simp only [List.length_cons, List.length_nil] at hf hn
      have hl : o.loneB tv w q.2 = mergeAlone o tv w q.2 := loneB_eq hc (hr.floats q (by simp))
      rw [mergeSteps, ← hl]
      exact mergeLoop_emit (by omega) fun n' out' fl' hle =>
        ih out' fl' (hr.sub (by simp; tauto)) (by simp; omega) (by simp; omega)
    | p :: as, q :: bs =>
      simp only [List.length_cons] at hf hn
      have hl : o.loneB tv w q.2 = mergeAlone o tv w q.2 := loneB_eq hc (hr.floats q (by simp))
      have hb : o.comb tv w rm p.2 q.2 = mergeBoth o tv w rm p.2 q.2 := comb_eq htv hpos hc rm (hr.ints p (by simp)) (hr.ints q (by simp))
      have hp : ti.intValue p.1 = intOf ti w p.1 := intValue_eq hti hpos (hr.small p (by simp))
      have hq : ti.intValue q.1 = intOf ti w q.1 := intValue_eq hti hpos (hr.small q (by simp))
      rw [mergeSteps, mergeLoop, hp, hq]
      by_cases h1 : intOf ti w p.1 < intOf ti w q.1
      · rw [if_pos h1, if_pos h1]
        exact mergeLoop_emit (v := (p.2, 0)) (by omega) fun n' out' fl' hle =>
          ih out' fl' (hr.sub fun r hr => List.mem_cons_of_mem _ hr) (by simp; omega) (by simp; omega)
      · rw [if_neg h1, if_neg h1]
        by_cases h2 : intOf ti w q.1 < intOf ti w p.1
        · rw [if_pos h2, if_pos h2, ← hl]
          exact mergeLoop_emit (by omega) fun n' out' fl' hle =>
            ih out' fl' (hr.sub (by simp; tauto)) (by simp; omega) (by simp; omega)
        · rw [if_neg h2, if_neg h2, ← hb]
          exact mergeLoop_emit (by omega) fun n' out' fl' hle =>
            ih out' fl' (hr.sub (by simp; tauto)) (by omega) (by omega)

theorem not_and_eq_false (a b : Bool) : (a && b) = false ↔ ¬ (a = true ∧ b = true) := by
  cases a <;> simp

theorem mergeOfSortedRows : MergeOfSortedRows := by
  intro o ti tv w rm dz vlmax as bs hint hti htv hc hlt ha hb hle
  have hpos : 0 < w := by
    cases ti <;> simp_all [Tag.width, Tag.isInt, Tag.isSigned, Tag.isUnsigned] <;> omega
  have hr : MergeRows ti tv w as bs := by
    refine ⟨fun p hp => (hlt p hp).1, fun p hp hf => ?_, fun p hp f hf => ?_⟩
    · have := (hlt p hp).2
      rwa [hf] at this
    · have := (hlt p hp).2
      rwa [hf] at this
  have hf : as.length + bs.length ≤ as.length + bs.length + 1 := Nat.le_succ _
  have hmem (k : Nat) (x : Nat × Flags) := mem_mergeSteps (o := o) (tv := tv) (rm := rm) hf hr.small ha hb k x
  obtain ⟨-, hrows, hrise, hfl⟩ := putOut_steps (leftOutZero dz tv) _ (mergeSteps_rising (o := o) (tv := tv) (rm := rm) hf hr.small ha hb)
  dsimp only
  refine ⟨_, _, mergeLoop_eq hti hpos htv hc rm dz vlmax [] [] hr (by omega) (by omega), hrise, fun k v => ?_, fun n l _ => ?_⟩
  · rw [hrows]
    simp only [hmem]
    refine and_congr_right fun _ => ?_
    unfold leftOutZero isZeroElem arithFmt
    cases hfmt : tv.fmt with
    | none =>
      rw [hfmt] at hc
      rw [if_pos (by simpa using hc)]
      exact not_and_eq_false dz _
    | some f =>
      have hint : ¬ tv.isInt = true := fun hi => by cases hfmt.symm.trans (isInt_fmt hi)
      rw [if_neg hint]
      exact not_and_eq_false dz _
  · rw [hfl]
    simp only [hmem]

end Sys2Proof.Machine
end

section
/-!
SUPPORT. The merge unit: what stops it, and what it writes into its two groups.
-/

namespace Sys2Proof.Machine

/-! ## A convoy of one that stops at element 0 with a precise fault -/

section
variable {s : State} {sid : Nat} {t : Strand} {e : Entry} (h : Single s sid t e)
include h

theorem Single.keepTlb (w : State) : Single (s.keepTlb w) sid t e :=
  ⟨h.here, h.only, h.chained, h.closed, h.runs, h.calm, h.sound, h.first, h.waiting, h.ungiven, h.uncaptured, h.unoffered, h.unfinished,
    h.quiet, h.older, h.served⟩

/-- A boundary at element 0. -/
theorem Single.boundary_zero : t.boundary [e] 0 = 0 := by
  have hpos : convoyPos [e] = 0 := by simp [convoyPos, h.first]
  unfold Strand.boundary
  rw [hpos, h.quiet]
  split <;> simp

/-- The fault stands in the VIQ at element 0, with nothing done but a translation kept. -/
theorem exec_single_precise {c : Cause} {a v : Word} {w x : State} (ha : isVamo e.i = false)
    (h1 : prepare e.i (e.px t s ⟨t.v, t.k⟩ e.vl true none false) = .stop (.precise 0 c a v w))
    (h2 : prepare e.i (e.px t (s.keepTlb w) ⟨t.v, t.k⟩ e.vl true none false) = .stop (.precise 0 c a v x)) :
    exec (.convoyStart sid) s = .next (((s.keepTlb w).endSvc (.queue sid)).put
      { t with vfault := some ⟨0, ⟨c, a, v, 0, false, e.pc⟩, 0, none⟩ }) := by
  have hperf : ([e].flatMap fun x => if isVamo x.i then x.perf else []).filter (convoyPos [e] ≤ ·) = [] := by simp [ha]
  have hfault : faultOf [e] 0 c a v 0 = ⟨c, a, v, 0, false, e.pc⟩ := rfl
  have hpos : posAt [e] 0 = 0 := by
    unfold posAt
    split <;> rfl
  rw [exec_single h]
  unfold perform
  dsimp only
  rw [attempt_stop h h1]
  dsimp only
  rw [h.boundary_zero]
  unfold perform
  dsimp only
  rw [attempt_stop (h.keepTlb w) h2]
  dsimp only
  rw [h.boundary_zero, if_pos (Nat.le_refl 0), hperf, hpos, hfault]
  unfold settled Strand.faultAt
  dsimp only
  rw [h.calm, if_neg Bool.false_ne_true]
  rfl

end

/-! ## Two groups written element by element -/

/-- An element of a group set by what its put leaves. -/
def putBoth (a b w : Nat) (p q : Nat → Put) (t : Strand) (n : Nat) : Strand :=
  (t.putElem (.vec a w) n (p n)).putElem (.vec b w) n (q n)

theorem putElem_frame (t : Strand) (b w n : Nat) (p : Put) : t.putElem (.vec b w) n p = { t with v := (t.putElem (.vec b w) n p).v } := by
  cases p <;> rfl

theorem elementStep_unflagged (d : Dst) (p : Nat → Put) (t : Strand) (n : Nat) :
    elementStep d (fun _ n => (p n, 0)) t n = t.putElem d n (p n) := Strand.raise_zero _ _

/-- Two groups, one behind the other, of which the elements below `n` have been put. -/
structure PairPut (q a b w size m n : Nat) (p p' : Nat → Put) (t u : Strand) : Prop where
  strand : u = { t with v := u.v }
  first : ∀ x < m, elemGet u.v q a w x = if x < n then (p x).over w (elemGet t.v q a w x) else elemGet t.v q a w x
  second : ∀ x < m, elemGet u.v q b w x = if x < n then (p' x).over w (elemGet t.v q b w x) else elemGet t.v q b w x
  others : ∀ r, OutsideGroup a size r → OutsideGroup b size r → regAt u.v r = regAt t.v r
  tags : ∀ r, (regAt u.v r).tag = (regAt t.v r).tag

theorem pairPut_fold {q a b w size m : Nat} (ha : Holds q a w size m) (hb : Holds q b w size m) (hab : a + size ≤ b ∨ b + size ≤ a)
    {t : Strand} (hq : t.q = q) (p p' : Nat → Put) {n : Nat} (hn : n ≤ m) :
    PairPut q a b w size m n p p' t ((List.range n).foldl (putBoth a b w p p') t) := by
  induction n with
  | zero => exact ⟨rfl, fun x _ => by simp, fun x _ => by simp, fun _ _ _ => rfl, fun _ => rfl⟩
  | succ n ih =>
    have ih := ih (by omega)
    rw [List.range_succ, List.foldl_append, List.foldl_cons, List.foldl_nil, putBoth]
    generalize (List.range n).foldl (putBoth a b w p p') t = u at ih
    have uq : u.q = q := by rw [ih.strand]; exact hq
    obtain ⟨-, a2, a3, a4, -⟩ := elementStep_folded ha (e := n) (by omega) (fun _ n => (p n, 0)) u uq
    have a1 := putElem_frame u a w n (p n)
    rw [elementStep_unflagged] at a2 a3 a4
    generalize u.putElem (.vec a w) n (p n) = y at a1 a2 a3 a4
    have yq : y.q = q := by rw [a1]; exact uq
    obtain ⟨-, b2, b3, b4, -⟩ := elementStep_folded hb (e := n) (by omega) (fun _ n => (p' n, 0)) y yq
    have b1 := putElem_frame y b w n (p' n)
    rw [elementStep_unflagged] at b2 b3 b4
    generalize y.putElem (.vec b w) n (p' n) = z at b1 b2 b3 b4
    have step (x : Nat) (f old : Nat) : (if x = n then f else if x < n then f else old) = if x < n + 1 then f else old := by
      by_cases h1 : x = n
      · rw [if_pos h1, if_pos (by omega)]
      · by_cases h2 : x < n
        · rw [if_neg h1, if_pos h2, if_pos (by omega)]
        · rw [if_neg h1, if_neg h2, if_neg (by omega)]
    refine ⟨?_, fun x hx => ?_, fun x hx => ?_, fun r h1 h2 => ?_, fun r => ?_⟩
    · rw [b1, a1, ih.strand]
    · have hz : elemGet z.v q a w x = elemGet y.v q a w x := elemGet_congr ha hx fun r h1 h2 h3 => b3 r ⟨h3, by omega⟩
      rw [hz, a2 x hx, ih.first x hx, ← step]
      by_cases hxn : x = n
      · rw [if_pos hxn, if_pos hxn, if_neg (by omega), hxn]
      · rw [if_neg hxn, if_neg hxn]
    · have hy : elemGet y.v q b w x = elemGet u.v q b w x := elemGet_congr hb hx fun r h1 h2 h3 => a3 r ⟨h3, by omega⟩
      rw [b2 x hx, hy, ih.second x hx, ← step]
      by_cases hxn : x = n
      · rw [if_pos hxn, if_pos hxn, if_neg (by omega), hxn]
      · rw [if_neg hxn, if_neg hxn]
    · rw [b3 r h2, a3 r h1, ih.others r h1 h2]
    · rw [b4 r, a4 r, ih.tags r]

/-- The elements of two groups, as a run. -/
theorem eachElem_putBoth (a b w : Nat) (p p' : Nat → Put) (n k : Nat) (r : Run) :
    eachElem (fun e r => .ok (r.upd fun t => putBoth a b w p p' t e)) n k r
      = .ok (r.upd fun t => (List.range n).foldl (fun u i => putBoth a b w p p' u (k + i)) t) := by
  induction n generalizing k r with
  | zero => rfl
  | succ n ih =>
    rw [eachElem, Rr.bind]
    refine (ih (k + 1) _).trans ?_
    rw [List.range_succ_eq_map]
    unfold Run.upd
    dsimp only
    rw [List.foldl_cons, List.foldl_map]
    simp only [Nat.add_zero, show ∀ i, k + 1 + i = k + (i + 1) by omega, Nat.succ_eq_add_one]

/-! ## The merge -/

theorem grpOf_eq (vt : BitVec 12) : grpOf vt = 2 ^ (vt.toNat % 8) := by
  rw [grpOf, fieldNat_eq, Nat.pow_zero, Nat.div_one] <;> rfl

/-- What a merge leaves at an element: its row's value below the count, TU above. -/
theorem mergePut_over (vt : BitVec 12) (l : List Nat) (n w old : Nat) :
    (mergePut vt l n).over w old = if n < l.length then l.getD n 0 % 2 ^ w else if tuOf vt then 0 else old := by
  unfold mergePut
  rw [List.getD_eq_getElem?_getD]
  by_cases hn : n < l.length
  · rw [if_pos hn, List.getElem?_eq_getElem hn]
    rfl
  · rw [if_neg hn, List.getElem?_eq_none (by omega)]
    cases tuOf vt <;> rfl

/-- The pair of groups of a merge's destination or source: the second stands right behind the first. -/
structure PairOf (t : Strand) (e : Entry) (vd r : VReg) (ti tv : Tag) : Prop where
  aligned : r.toNat % grpOf e.vtype = 0
  inFile : r.toNat + 2 * grpOf e.vtype ≤ 64
  apart : r = vd ∨ vd.toNat + 2 * grpOf e.vtype ≤ r.toNat ∨ r.toNat + 2 * grpOf e.vtype ≤ vd.toNat
  indices : ∀ n, r.toNat ≤ n → n < r.toNat + grpOf e.vtype → (regAt t.v n).tag = ti
  values : ∀ n, r.toNat + grpOf e.vtype ≤ n → n < r.toNat + 2 * grpOf e.vtype → (regAt t.v n).tag = tv

/-- A group of EW bits. -/
theorem groupOk_pair {t : Strand} {e : Entry} (hs : Setting t e) {b : Nat} (h1 : b % grpOf e.vtype = 0) (h2 : b + grpOf e.vtype ≤ 64) :
    groupOk b (groupSize e.vtype (ewOf e.vtype)) = true := by
  have hv := hs.vtype
  simp only [vtypeOk, Bool.and_eq_true, decide_eq_true_eq] at hv
  have h8 : grpOf e.vtype ≤ 2 ^ 3 := Nat.pow_le_pow_right (by decide) hv.2
  rw [groupSize_ew hs]
  simp only [groupOk, h1, Bool.and_eq_true, decide_eq_true_eq, beq_self_eq_true]
  exact ⟨⟨h8, trivial⟩, h2⟩

/-- The prepared merge of rows put out. -/
def mergeMop (e : Entry) (q : Nat) (a : Merge) (rows : List (Nat × Nat)) (fl : List (Nat × Flags)) : Mop :=
  let p := mergePut e.vtype (rows.reverse.map Prod.fst)
  let p' := mergePut e.vtype (rows.reverse.map Prod.snd)
  let step := putBoth a.vd.toNat (a.vd.toNat + grpOf e.vtype) (ewOf e.vtype) p p'
  ⟨overElems fun n r => .ok (r.upd fun t => step t n),
   fun r =>
    .ok { r with
      t := fl.foldl (fun u x => u.raise x.1 x.2) ((List.range (vlmaxOf q e.vtype - e.vl)).foldl (fun u i => step u (e.vl + i)) r.t)
      out := some (BitVec.ofNat 64 rows.reverse.length) }⟩

section
variable {s : State} {sid : Nat} {t : Strand} {e : Entry} (h : Alone s sid t e) (hs : Setting t e)
include h hs

omit h in
theorem prepMerge_passes {a : Merge} {o : MergeOp} {ti tv : Tag} (hd1 : a.vd.toNat % grpOf e.vtype = 0)
    (hd2 : a.vd.toNat + 2 * grpOf e.vtype ≤ 64) (ha : PairOf t e a.vd a.va ti tv) (hb : PairOf t e a.vd a.vb ti tv)
    (hint : ti.isInt = true) (hti : ti.width = some (ewOf e.vtype)) (hc : (tv.isInt || tv.fmt.isSome) = true)
    (htv : tv.width = some (ewOf e.vtype)) :
    let na := (e.ops.getD 0 0).toNat
    let nb := (e.ops.getD 1 0).toNat
    let row (r : VReg) (n : Nat) : List (Nat × Nat) := (List.range n).map fun i =>
      (elemGet t.v t.q r.toNat (ewOf e.vtype) i, keptBits tv (elemGet t.v t.q (r.toNat + grpOf e.vtype) (ewOf e.vtype) i))
    prepMerge o a (e.px t s ⟨t.v, t.k⟩ e.vl true none false)
      = if na > e.vl ∨ nb > e.vl then .stop (.precise 0 .mergeRange 0 0 s) else
        (mergeLoop o ti tv (ewOf e.vtype) (modeOf e a.rm) a.dz (vlmaxOf t.q e.vtype) (na + nb + 1) 0 (row a.va na) (row a.vb nb) [] []).elim
          (.stop (.precise 0 .mergeRange 0 0 s)) fun x =>
          .ok { t with v := setTags (setTags t.v a.vd.toNat (grpOf e.vtype) ti) (a.vd.toNat + grpOf e.vtype) (grpOf e.vtype) tv }
            (mergeMop e t.q a x.1 x.2) := by
  have hg : 0 < grpOf e.vtype := Nat.two_pow_pos _
  have hsize : groupSize e.vtype (ewOf e.vtype) = grpOf e.vtype := groupSize_ew hs
  have hwide {ty : Tag} (hw : ty.width = some (ewOf e.vtype)) : widthOk ty (ewOf e.vtype) = true := by simp [widthOk, hw]
  let x : Px := e.px t s ⟨t.v, t.k⟩ e.vl true none false
  have hidx {r : VReg} (hr : PairOf t e a.vd r ti tv) : x.tag r (ewOf e.vtype) = .ok ti := by
    refine Px.tag_source (t := t) (x := x) ⟨groupOk_pair hs hr.aligned ?_, fun n h1 h2 => hr.indices n h1 (by rw [← hsize]; exact h2), .inr hti⟩ rfl
    have := hr.inFile
    omega
  have hval {r : VReg} (hr : PairOf t e a.vd r ti tv) : groupTag t.v (r.toNat + grpOf e.vtype) (grpOf e.vtype) = some tv :=
    groupTag_of hg fun n h1 h2 => hr.values n h1 (by omega)
  have hmeet {r : VReg} (hr : PairOf t e a.vd r ti tv) :
      (r == a.vd || !groupsMeet a.vd.toNat (2 * grpOf e.vtype) r.toNat (2 * grpOf e.vtype)) = true := by
    rcases hr.apart with h | h | h
    · simp [h]
    · simp [groupsMeet]; omega
    · simp [groupsMeet]; omega
  have hwi := hwide hti
  have hwv := hwide htv
  have hia := hidx ha
  have hib := hidx hb
  have hva := hval ha
  have hvb := hval hb
  have hma := hmeet ha
  have hmb := hmeet hb
  have haf := ha.inFile
  have hbf := hb.inFile
  have hneed : needTag (ti == ti && ti.isInt && tv == tv && convertible tv) = .ok () := needTag_true (by simp [hint, convertible, hc])
  dsimp only
  unfold prepMerge
  rw [modeOf_eq]
  dsimp only [x, Entry.px, Px.ew, Px.op, Px.vlmax, Px.q, Px.row, Px.rm] at hia hib ⊢
  simp only [hia, hib, hva, hvb, hma, hmb, hd1, hd2, ha.aligned, hb.aligned, haf, hbf, hwv, beq_self_eq_true, decide_true, Bool.and_self,
    Bool.not_true, Bool.false_eq_true, if_false, if_true, ← kept_eq_keptBits]
  have hdo : (do
      let ia ← Except.ok ti
      let ib ← Except.ok ti
      let va ← Except.ok tv
      let vb ← Except.ok tv
      needTag (ia == ib && ia.isInt && va == vb && convertible va)
      pure (ia, va) : Except Cause (Tag × Tag)) = .ok (ti, tv) :=
    congrArg (fun r : Except Cause Unit => r >>= fun _ => pure (ti, tv)) hneed
  have hvl : ¬ e.vl = 0 := by have := hs.length; omega
  rw [hdo]
  refine (if_neg hvl).trans ?_
  by_cases hbig : (e.ops.getD 0 0).toNat > e.vl ∨ (e.ops.getD 1 0).toNat > e.vl
  · exact (if_pos hbig).trans (if_pos hbig).symm
  · refine (if_neg hbig).trans (Eq.trans ?_ (if_neg hbig).symm)
    dsimp only
    generalize mergeLoop o ti tv _ _ _ _ _ 0 _ _ [] [] = r
    cases r with
    | none => rfl
    | some x => rfl

omit h hs in
/-- The strand once a merge has been performed. -/
def mergeDone (t : Strand) (e : Entry) (a : Merge) (ti tv : Tag) (rows : List (Nat × Nat)) (fl : List (Nat × Flags)) : Strand :=
  fl.foldl (fun u x => u.raise x.1 x.2) ((List.range (vlmaxOf t.q e.vtype)).foldl
    (putBoth a.vd.toNat (a.vd.toNat + grpOf e.vtype) (ewOf e.vtype) (mergePut e.vtype (rows.reverse.map Prod.fst))
      (mergePut e.vtype (rows.reverse.map Prod.snd)))
    { t with v := setTags (setTags t.v a.vd.toNat (grpOf e.vtype) ti) (a.vd.toNat + grpOf e.vtype) (grpOf e.vtype) tv })

omit h hs in
/-- What a merge writes: both groups, their tags, the flags. -/
structure MergeWritten (t z : Strand) (e : Entry) (a : Merge) (ti tv : Tag) (rows : List (Nat × Nat)) (fl : List (Nat × Flags)) : Prop where
  strand : z = { t with v := z.v, lflags := z.lflags }
  elems : ∀ n < vlmaxOf t.q e.vtype, ∀ p ∈ [(a.vd.toNat, rows.reverse.map Prod.fst), (a.vd.toNat + grpOf e.vtype, rows.reverse.map Prod.snd)],
    elemGet z.v t.q p.1 (ewOf e.vtype) n = if n < rows.length then p.2.getD n 0 % 2 ^ ewOf e.vtype
      else if tuOf e.vtype then 0 else elemGet t.v t.q p.1 (ewOf e.vtype) n
  others : ∀ r, OutsideGroup a.vd.toNat (2 * grpOf e.vtype) r → regAt z.v r = regAt t.v r
  tags : ∀ r, a.vd.toNat ≤ r → r < a.vd.toNat + 2 * grpOf e.vtype → (regAt z.v r).tag = if r < a.vd.toNat + grpOf e.vtype then ti else tv
  flags : ∀ lane < 256, ∀ b < 7, z.lflags.getLsbD (8 * lane + b)
    = (t.lflags.getLsbD (8 * lane + b) || fl.any fun p => p.1 % 256 == lane && p.2.getLsbD b)

omit h in
theorem mergeDone_written {a : Merge} (hd1 : a.vd.toNat % grpOf e.vtype = 0) (hd2 : a.vd.toNat + 2 * grpOf e.vtype ≤ 64) (ti tv : Tag)
    (rows : List (Nat × Nat)) (fl : List (Nat × Flags)) : MergeWritten t (mergeDone t e a ti tv rows fl) e a ti tv rows fl := by
  have hg : 0 < grpOf e.vtype := Nat.two_pow_pos _
  have hsize : groupSize e.vtype (ewOf e.vtype) = grpOf e.vtype := groupSize_ew hs
  have hb2 : (BitVec.ofNat 6 (a.vd.toNat + grpOf e.vtype)).toNat = a.vd.toNat + grpOf e.vtype := by
    rw [BitVec.toNat_ofNat]
    exact Nat.mod_eq_of_lt (by omega)
  have hA : Holds t.q a.vd.toNat (ewOf e.vtype) (grpOf e.vtype) (vlmaxOf t.q e.vtype) := by
    rw [← hsize]
    exact group_holds hs a.vd (ew_cases hs.vtype) (groupOk_pair hs hd1 (by omega))
  have hB : Holds t.q (a.vd.toNat + grpOf e.vtype) (ewOf e.vtype) (grpOf e.vtype) (vlmaxOf t.q e.vtype) := by
    have := group_holds hs (BitVec.ofNat 6 (a.vd.toNat + grpOf e.vtype)) (ew_cases hs.vtype) (by
      rw [hb2]
      exact groupOk_pair hs (by rw [Nat.add_mod_right]; exact hd1) (by omega))
    rwa [hb2, hsize] at this
  have hl1 : (rows.reverse.map Prod.fst).length = rows.length := by rw [List.length_map, List.length_reverse]
  have hl2 : (rows.reverse.map Prod.snd).length = rows.length := by rw [List.length_map, List.length_reverse]
  unfold mergeDone
  generalize ht1 : ({ t with v := setTags (setTags t.v a.vd.toNat (grpOf e.vtype) ti) (a.vd.toNat + grpOf e.vtype) (grpOf e.vtype) tv } : Strand)
    = t1
  have t1s : t1 = { t with v := t1.v } := by rw [← ht1]
  have t1q : t1.q = t.q := by rw [← ht1]; rfl
  have t1l : t1.lflags = t.lflags := by rw [← ht1]
  have t1v : t1.v = setTags (setTags t.v a.vd.toNat (grpOf e.vtype) ti) (a.vd.toNat + grpOf e.vtype) (grpOf e.vtype) tv := by rw [← ht1]
  have t1e (b n : Nat) : elemGet t1.v t.q b (ewOf e.vtype) n = elemGet t.v t.q b (ewOf e.vtype) n := by
    rw [t1v, elemGet_setTags, elemGet_setTags]
  have hfold := pairPut_fold hA hB (.inl (Nat.le_refl _)) t1q (mergePut e.vtype (rows.reverse.map Prod.fst))
    (mergePut e.vtype (rows.reverse.map Prod.snd)) (Nat.le_refl _)
  generalize (List.range (vlmaxOf t.q e.vtype)).foldl (putBoth a.vd.toNat (a.vd.toNat + grpOf e.vtype) (ewOf e.vtype) _ _) t1 = u at hfold
  have hus := hfold.strand
  have ul : u.lflags = t.lflags := by rw [hus]; exact t1l
  obtain ⟨hz, hzl⟩ := raise_all fl u
  generalize fl.foldl (fun u p => u.raise p.1 p.2) u = z at hz hzl
  have zv : z.v = u.v := by rw [hz]
  refine ⟨by rw [hz, hus, t1s], fun n hn q hq => ?_, fun r hr => ?_, fun r h1 h2 => ?_, fun lane hl b hb => by rw [hzl lane hl b hb, ul]⟩
  · simp only [List.mem_cons, List.not_mem_nil, or_false] at hq
    rcases hq with rfl | rfl
    · rw [zv, hfold.first n hn, if_pos hn, mergePut_over, hl1, t1e]
    · rw [zv, hfold.second n hn, if_pos hn, mergePut_over, hl2, t1e]
  · have hr1 : OutsideGroup a.vd.toNat (grpOf e.vtype) r := ⟨hr.1, by have := hr.2; omega⟩
    have hr2 : OutsideGroup (a.vd.toNat + grpOf e.vtype) (grpOf e.vtype) r := ⟨hr.1, by have := hr.2; omega⟩
    have := hr1.2
    have := hr2.2
    rw [zv, hfold.others r hr1 hr2, t1v, regAt_setTags _ _ _ _ _ hr.1 (by omega), if_neg (by omega),
      regAt_setTags _ _ _ _ _ hr.1 (by omega), if_neg (by omega)]
  · rw [zv, hfold.tags r, t1v, regAt_setTags _ _ _ _ _ (by omega) (by omega)]
    by_cases hlow : r < a.vd.toNat + grpOf e.vtype
    · rw [if_pos hlow, if_neg (by omega), regAt_setTags _ _ _ _ _ (by omega) (by omega), if_pos (by omega)]
    · rw [if_neg hlow, if_pos (by omega)]

/-- A convoy of one that performs a merge of rows put out. -/
theorem mergeMop_performs {a : Merge} {ti tv : Tag} {rows : List (Nat × Nat)} {fl : List (Nat × Flags)} (hva : isVamo e.i = false) (hld : e.loads = false)
    (hp : prepare e.i (e.px t s ⟨t.v, t.k⟩ e.vl true none false)
      = .ok { t with v := setTags (setTags t.v a.vd.toNat (grpOf e.vtype) ti) (a.vd.toNat + grpOf e.vtype) (grpOf e.vtype) tv }
          (mergeMop e t.q a rows fl))
    (hz : mergeDone t e a ti tv rows fl = { t with v := (mergeDone t e a ti tv rows fl).v, lflags := (mergeDone t e a ti tv rows fl).lflags }) :
    Performs s sid e (some (BitVec.ofNat 64 rows.length)) fun s' t' =>
      s' = { s with strands := s'.strands, svcs := s'.svcs, freeCtr := s'.freeCtr }
      ∧ t' = { t with v := t'.v, lflags := t'.lflags, viq := t'.viq, xch := .none, held := none }
      ∧ t'.v = (mergeDone t e a ti tv rows fl).v ∧ t'.lflags = (mergeDone t e a ti tv rows fl).lflags := by
  have hlen := hs.length
  have hsplit : List.range (vlmaxOf t.q e.vtype) = List.range e.vl ++ (List.range (vlmaxOf t.q e.vtype - e.vl)).map (e.vl + ·) := by
    rw [← List.range_add, Nat.add_sub_cancel' hlen.2]
  unfold mergeDone at hz ⊢
  rw [hsplit, List.foldl_append, List.foldl_map] at hz ⊢
  generalize ht1 : ({ t with v := setTags (setTags t.v a.vd.toNat (grpOf e.vtype) ti) (a.vd.toNat + grpOf e.vtype) (grpOf e.vtype) tv } : Strand)
    = t1 at hp hz ⊢
  unfold mergeMop at hp
  dsimp only at hp
  have heach := eachElem_putBoth a.vd.toNat (a.vd.toNat + grpOf e.vtype) (ewOf e.vtype) (mergePut e.vtype (rows.reverse.map Prod.fst))
    (mergePut e.vtype (rows.reverse.map Prod.snd)) e.vl 0 (Run.start t1 s none)
  simp only [Nat.zero_add] at heach
  generalize putBoth a.vd.toNat (a.vd.toNat + grpOf e.vtype) (ewOf e.vtype) _ _ = step at hp heach hz ⊢
  generalize hzdef : fl.foldl (fun (u : Strand) x => u.raise x.1 x.2) _ = z at hz ⊢
  have zid : z.id = t.id := by rw [hz]
  have zstall : z.qstall = t.qstall := by rw [hz]
  have zfault : z.vfault = t.vfault := by rw [hz]
  refine performs_of_run h (by omega) hva hp (r2 := ⟨z, s, [], some (BitVec.ofNat 64 rows.length), [], none, []⟩) (fun n r r' h1 h2 => ?_)
    heach ?_ zid (zstall.trans h.calm) (zfault.trans h.sound) (fun n _ => rfl) (Option.isSome_iff_exists.2 ⟨t, h.here⟩) fun s' y hs' hy hstl => ?_
  · simp only [Rr.ok.injEq] at h1
    rw [← h1]; exact h2
  · unfold Run.upd Run.start
    dsimp only
    rw [hzdef, List.length_reverse]
  · dsimp only at hs' hy
    refine ⟨by rw [hs'], ?_, by rw [hy], by rw [hy]⟩
    have hstl : y.stlMem = t.stlMem := (hstl hld).trans (by rw [hz])
    rw [hy, hz, h.quiet]
    dsimp only
    rw [hstl]

end

end Sys2Proof.Machine

open Sys2Proof Sys2Proof.Machine

/-- Settles O36: the rows put out are those of a fold over the indices of both rows in rising order. -/
theorem merges : Obligations.Merges := by
  refine ⟨mergeOfSortedRows, ?_⟩
  intro s sid t e a o ti tv h hs hi
  dsimp only
  rw [← grpOf_eq]
  intro hd1 hd2 hpa hpb hint hti hc htv
  have hva : isVamo e.i = false := by rw [hi]; cases o <;> rfl
  have hld : e.loads = false := by rw [Entry.loads, hi]; cases o <;> rfl
  have hprep (x : Px) : prepare e.i x = prepMerge o a x := by rw [hi]; cases o <;> rfl
  obtain ⟨pa1, pa2, pa3, pa4, pa5⟩ := hpa
  obtain ⟨pb1, pb2, pb3, pb4, pb5⟩ := hpb
  have hp := prepMerge_passes (s := s) (o := o) hs hd1 hd2 ⟨pa1, pa2, pa3, pa4, pa5⟩ ⟨pb1, pb2, pb3, pb4, pb5⟩ hint hti hc htv
  dsimp only at hp
  have hstop (hstops : prepMerge o a (e.px t s ⟨t.v, t.k⟩ e.vl true none false) = .stop (.precise 0 .mergeRange 0 0 s)) :
      exec (.convoyStart sid) s = .next ((s.endSvc (.queue sid)).put
        { t with vfault := some ⟨0, ⟨.mergeRange, 0, 0, 0, false, e.pc⟩, 0, none⟩ }) :=
    exec_single_precise h.single hva ((hprep _).trans hstops) ((hprep _).trans hstops)
  refine ⟨fun hbig => hstop (hp.trans (if_pos hbig)), fun h1 h2 hres => hstop ?_, fun rows fl h1 h2 hres => ?_⟩
  · rw [hp, if_neg (by omega), hres]
    rfl
  · have hw := mergeDone_written hs hd1 hd2 ti tv rows fl
    obtain ⟨s', t', hex, ht', hoth, hviq, hpk, hst, hv, hl⟩ := mergeMop_performs (ti := ti) (tv := tv) h hs hva hld ((hprep _).trans (by
      rw [hp, if_neg (by omega), hres]
      rfl)) hw.strand
    refine ⟨s', t', hex, ht', hoth, hviq, hpk, hst, ?_, ?_, ?_, ?_⟩
    · rw [hv]; exact hw.elems
    · rw [hv]; exact hw.others
    · rw [hv]; exact hw.tags
    · rw [hl]; exact hw.flags

end

section
/-!
SUPPORT. Formats: the numbers of their finite codes, and what the packing of a rounded mantissa gives (R63, R71, R76).
-/

namespace Sys2Proof.Machine

/-! ## Bits of a number -/

theorem lt_two_pow_bitLen (n : Nat) : n < 2 ^ bitLen n := by
  unfold bitLen
  split
  · omega
  · exact Nat.lt_log2_self

theorem two_pow_le_of_bitLen {n : Nat} (h : n ≠ 0) : 2 ^ (bitLen n - 1) ≤ n := by
  unfold bitLen
  rw [if_neg h, Nat.add_sub_cancel]
  exact Nat.log2_self_le h

theorem bitLen_pos {n : Nat} (h : n ≠ 0) : 0 < bitLen n := by
  unfold bitLen
  rw [if_neg h]
  omega

/-! ## Formats -/

/-- The exponent of the lowest bit of a subnormal. -/
def Fmt.emin (f : Fmt) : Int := 1 - (f.bias : Int) - f.mb

/-- The exponent of the lowest bit of the largest finite value. -/
def Fmt.maxExp (f : Fmt) : Int := (f.maxField : Int) - f.bias - f.mb

/-- What every format of R63 has: mantissa and exponent bits, a largest finite value that is normal, and special codes above it. -/
structure FmtOk (f : Fmt) : Prop where
  mant : 1 ≤ f.mb
  expo : 1 ≤ f.eb
  field : 1 ≤ f.maxField
  top : 2 ^ f.mb ≤ f.maxMant ∧ f.maxMant < 2 ^ (f.mb + 1)
  above : f.maxField < 2 ^ f.eb
  ieee : f.special = .ieee → f.maxField + 1 < 2 ^ f.eb
  oneNan : f.special = .oneNan → f.maxMant + 1 < 2 ^ (f.mb + 1)

theorem fmtOk {f : Fmt} (h : f ∈ floatFormats) : FmtOk f := by
  simp only [floatFormats, List.mem_cons, List.not_mem_nil, or_false] at h
  rcases h with rfl | rfl | rfl | rfl | rfl | rfl | rfl | rfl | rfl <;> exact
    ⟨by decide, by decide, by decide, by decide, by decide, by decide, by decide⟩

section
variable {f : Fmt} (hf : FmtOk f)
include hf

omit hf in
/-- The parts of a code written out. -/
theorem code_parts {neg : Bool} {field mant : Nat} (h1 : field < 2 ^ f.eb) (h2 : mant < 2 ^ f.mb) :
    let x := (if neg then f.signBit else 0) + field * 2 ^ f.mb + mant
    (x / f.signBit % 2 == 1) = neg ∧ x / 2 ^ f.mb % 2 ^ f.eb = field ∧ x % 2 ^ f.mb = mant ∧ x < 2 ^ (f.eb + f.mb + 1) := by
  have hs : f.signBit = 2 ^ f.eb * 2 ^ f.mb := by rw [Fmt.signBit, pow_add]
  have hlow : field * 2 ^ f.mb + mant < 2 ^ f.eb * 2 ^ f.mb := by
    calc field * 2 ^ f.mb + mant < field * 2 ^ f.mb + 2 ^ f.mb := by omega
      _ = (field + 1) * 2 ^ f.mb := by ring
      _ ≤ 2 ^ f.eb * 2 ^ f.mb := Nat.mul_le_mul_right _ h1
  have hpos : 0 < 2 ^ f.mb := Nat.two_pow_pos _
  dsimp only
  have hdiv : ((if neg then f.signBit else 0) + field * 2 ^ f.mb + mant) / 2 ^ f.mb = (if neg then 2 ^ f.eb else 0) + field := by
    cases neg
    · rw [if_neg Bool.false_ne_true, if_neg Bool.false_ne_true, Nat.zero_add, Nat.zero_add, mul_comm, Nat.mul_add_div hpos, Nat.div_eq_of_lt h2,
        Nat.add_zero]
    · rw [if_pos rfl, if_pos rfl, hs, ← add_mul, mul_comm, Nat.mul_add_div hpos, Nat.div_eq_of_lt h2, Nat.add_zero]
  refine ⟨?_, ?_, ?_, ?_⟩
  · rw [hs, add_assoc]
    cases neg
    · rw [if_neg Bool.false_ne_true, Nat.zero_add, Nat.div_eq_of_lt hlow]
      rfl
    · rw [if_pos rfl, Nat.add_div_left _ (by positivity), Nat.div_eq_of_lt hlow]
      rfl
  · rw [hdiv]
    cases neg
    · rw [if_neg Bool.false_ne_true, Nat.zero_add, Nat.mod_eq_of_lt h1]
    · rw [if_pos rfl, Nat.add_mod_left, Nat.mod_eq_of_lt h1]
  · cases neg
    · rw [if_neg Bool.false_ne_true, Nat.zero_add, mul_comm, Nat.mul_add_mod, Nat.mod_eq_of_lt h2]
    · rw [if_pos rfl, hs, ← add_mul, mul_comm, Nat.mul_add_mod, Nat.mod_eq_of_lt h2]
  · rw [pow_succ, pow_add, add_assoc]
    cases neg
    · rw [if_neg Bool.false_ne_true]; omega
    · rw [if_pos rfl, hs]; omega

/-- A code up to the largest finite value is read as the number it stands for. -/
theorem unpack_code {neg : Bool} {field mant : Nat} (h1 : field ≤ f.maxField) (h2 : mant < 2 ^ f.mb)
    (h3 : field = f.maxField → 2 ^ f.mb + mant ≤ f.maxMant) :
    f.unpack ((if neg then f.signBit else 0) + field * 2 ^ f.mb + mant)
      = if field = 0 then .fin neg mant f.emin else .fin neg (2 ^ f.mb + mant) ((field : Int) - f.bias - f.mb) := by
  obtain ⟨p1, p2, p3, -⟩ := code_parts (f := f) (neg := neg) (Nat.lt_of_le_of_lt h1 hf.above) h2
  unfold Fmt.unpack
  dsimp only
  rw [p1, p2, p3]
  by_cases htop : field = 2 ^ f.eb - 1
  · rw [if_pos htop]
    cases hs : f.special with
    | ieee =>
      have := hf.ieee hs
      omega
    | oneNan =>
      have hfield : field = f.maxField := by have := hf.above; omega
      have := hf.oneNan hs
      have hmant := h3 hfield
      have hm : ¬ mant = 2 ^ f.mb - 1 := by
        rw [pow_succ] at this
        omega
      dsimp only
      rw [if_neg hm]
      rfl
    | none => rfl
  · rw [if_neg htop]
    rfl

omit hf in
/-- The number of a finite code: a mantissa within the format's bits, normal unless it has the least exponent, up to the largest. -/
structure FiniteParts (f : Fmt) (m : Nat) (e : Int) : Prop where
  fits : m < 2 ^ (f.mb + 1)
  fine : f.emin ≤ e
  normal : e = f.emin ∨ 2 ^ f.mb ≤ m
  most : e < f.maxExp ∨ e = f.maxExp ∧ m ≤ f.maxMant

/-- The exponent field and the mantissa of a finite code stay within those of the largest finite value. -/
theorem finite_fields {x : Nat} {n : Bool} {m : Nat} {e : Int} (h : f.unpack x = .fin n m e) :
    ∃ field mant, field ≤ f.maxField ∧ mant < 2 ^ f.mb ∧ (field = f.maxField → 2 ^ f.mb + mant ≤ f.maxMant)
      ∧ (if field = 0 then m = mant ∧ e = f.emin else m = 2 ^ f.mb + mant ∧ e = (field : Int) - f.bias - f.mb) := by
  have hfield : x / 2 ^ f.mb % 2 ^ f.eb < 2 ^ f.eb := Nat.mod_lt _ (Nat.two_pow_pos _)
  have hmant : x % 2 ^ f.mb < 2 ^ f.mb := Nat.mod_lt _ (Nat.two_pow_pos _)
  have heb : 2 ≤ 2 ^ f.eb := Nat.le_self_pow (by have := hf.expo; omega) 2
  have hmb : 2 ≤ 2 ^ f.mb := Nat.le_self_pow (by have := hf.mant; omega) 2
  have hsucc : 2 ^ (f.mb + 1) = 2 ^ f.mb * 2 := pow_succ _ _
  unfold Fmt.unpack at h
  dsimp only at h
  generalize x / 2 ^ f.mb % 2 ^ f.eb = field at h hfield
  generalize x % 2 ^ f.mb = mant at h hmant
  have hread {neg : Bool} (h : (if field = 0 then Fv.fin neg mant (1 - (f.bias : Int) - f.mb)
      else .fin neg (2 ^ f.mb + mant) ((field : Int) - f.bias - f.mb)) = .fin n m e) :
      if field = 0 then m = mant ∧ e = f.emin else m = 2 ^ f.mb + mant ∧ e = (field : Int) - f.bias - f.mb := by
    split at h
    · rename_i h0
      rw [if_pos h0]
      simp only [Fv.fin.injEq] at h
      exact ⟨h.2.1.symm, h.2.2.symm⟩
    · rename_i h0
      rw [if_neg h0]
      simp only [Fv.fin.injEq] at h
      exact ⟨h.2.1.symm, h.2.2.symm⟩
  unfold Fmt.maxField Fmt.maxMant
  by_cases htop : field = 2 ^ f.eb - 1
  · rw [if_pos htop] at h
    cases hs : f.special with
    | ieee =>
      rw [hs] at h
      dsimp only at h
      split at h <;> cases h
    | oneNan =>
      rw [hs] at h
      dsimp only at h
      split at h
      · cases h
      · exact ⟨field, mant, by simp; omega, hmant, fun _ => by simp; omega, hread h⟩
    | none =>
      rw [hs] at h
      exact ⟨field, mant, by simp; omega, hmant, fun _ => by simp; omega, hread h⟩
  · rw [if_neg htop] at h
    cases hs : f.special with
    | ieee => exact ⟨field, mant, by simp; omega, hmant, fun _ => by simp; omega, hread h⟩
    | oneNan => exact ⟨field, mant, by simp; omega, hmant, fun hc => by simp at hc; omega, hread h⟩
    | none => exact ⟨field, mant, by simp; omega, hmant, fun hc => by simp at hc; omega, hread h⟩

theorem unpack_finite {x : Nat} {n : Bool} {m : Nat} {e : Int} (h : f.unpack x = .fin n m e) : FiniteParts f m e := by
  obtain ⟨field, mant, h1, h2, h3, h4⟩ := finite_fields hf h
  have hsucc : 2 ^ (f.mb + 1) = 2 ^ f.mb * 2 := pow_succ _ _
  have htop := hf.field
  have hmost := hf.top.1
  unfold Fmt.emin at *
  split at h4
  · obtain ⟨rfl, rfl⟩ := h4
    refine ⟨by omega, le_refl _, .inl rfl, ?_⟩
    unfold Fmt.maxExp
    by_cases h : f.maxField = 1
    · exact .inr ⟨by rw [h]; rfl, by omega⟩
    · exact .inl (by omega)
  · obtain ⟨rfl, rfl⟩ := h4
    refine ⟨by omega, by unfold Fmt.emin; omega, .inr (by omega), ?_⟩
    unfold Fmt.maxExp
    by_cases h : field = f.maxField
    · exact .inr ⟨by rw [h], h3 h⟩
    · exact .inl (by omega)

end

end Sys2Proof.Machine
end

section
/-!
SUPPORT. Rounding (R75, R76) in two steps: a mantissa cut at a position, and its packing into a code.
-/

namespace Sys2Proof.Machine

/-! ## Cutting and packing -/

/-- The exponent of the last mantissa bit kept of m × 2^e. -/
def Fmt.lowExp (f : Fmt) (m : Nat) (e : Int) : Int :=
  max (e + bitLen m - (f.mb + 1)) f.emin

/-- The mantissa kept. -/
def Fmt.whole (f : Fmt) (m : Nat) (e : Int) : Nat :=
  if f.lowExp m e ≤ e then m * 2 ^ (e - f.lowExp m e).toNat else m / 2 ^ (f.lowExp m e - e).toNat

/-- The bits cut off, of (lowExp − e). -/
def Fmt.rest (f : Fmt) (m : Nat) (e : Int) : Nat :=
  if f.lowExp m e ≤ e then 0 else m % 2 ^ (f.lowExp m e - e).toNat

/-- The mantissa rounded, before a carry out of its highest bit. -/
def mantOf (hi : Nat) (up : Bool) : Nat :=
  if up then hi + 1 else hi

/-- The mantissa and its exponent after a carry. -/
def Fmt.carried (f : Fmt) (q : Int) (r : Nat) : Nat × Int :=
  (if r == 2 ^ (f.mb + 1) then 2 ^ f.mb else r, if r == 2 ^ (f.mb + 1) then q + 1 else q)

/-- Whether a rounded mantissa lies beyond the largest finite value. -/
def Fmt.over (f : Fmt) (q : Int) (r : Nat) : Bool :=
  decide ((f.carried q r).2 > f.maxExp ∨ (f.carried q r).2 = f.maxExp ∧ (f.carried q r).1 > f.maxMant)

/-- What an overflow gives (R76). -/
def Fmt.overflowed (f : Fmt) (rm : Rm) (sat neg : Bool) : Nat × Flags :=
  if sat ∨ f.special = .none then (f.maxBits neg, flagSat ||| flagNx)
  else if overflowsToInf rm neg then (f.infBits neg, flagOf ||| flagNx)
  else (f.maxBits neg, flagOf ||| flagNx)

/-- The code of a mantissa with its exponent. -/
def Fmt.coded (f : Fmt) (neg inexact : Bool) (p : Nat × Int) : Nat × Flags :=
  if p.1 < 2 ^ f.mb then ((if neg then f.signBit else 0) + p.1, flagIf inexact (flagNx ||| flagUf))
  else ((if neg then f.signBit else 0) + (p.2 + f.bias + f.mb).toNat * 2 ^ f.mb + (p.1 - 2 ^ f.mb), flagIf inexact flagNx)

/-- A cut mantissa rounded up or not, and packed. -/
def Fmt.pack (f : Fmt) (rm : Rm) (sat neg : Bool) (q : Int) (hi : Nat) (up inexact : Bool) : Nat × Flags :=
  if f.over q (mantOf hi up) then f.overflowed rm sat neg else f.coded neg inexact (f.carried q (mantOf hi up))

/-- Rounding is a cut and a packing. -/
theorem round_eq_pack (f : Fmt) (rm : Rm) (sat neg : Bool) {m : Nat} (e : Int) (hm : m ≠ 0) :
    f.round rm sat neg m e = f.pack rm sat neg (f.lowExp m e) (f.whole m e)
      (roundsUp rm neg (f.whole m e) (f.rest m e) (f.lowExp m e - e).toNat) (f.rest m e != 0) := by
  unfold Fmt.round
  dsimp only
  rw [if_neg hm]
  unfold Fmt.pack Fmt.over
  exact if_congr decide_eq_true_iff.symm rfl rfl

section
variable {f : Fmt} (hf : FmtOk f)
include hf

/-- A cut: its position and its mantissa lie within the format. -/
structure CutOk (f : Fmt) (q : Int) (hi : Nat) : Prop where
  fine : f.emin ≤ q
  normal : q = f.emin ∨ 2 ^ f.mb ≤ hi
  fits : hi < 2 ^ (f.mb + 1)

omit hf in
theorem cutOk_lowExp {m : Nat} (hm : m ≠ 0) (e : Int) : CutOk f (f.lowExp m e) (f.whole m e) := by
  have hlt := lt_two_pow_bitLen m
  have hle := two_pow_le_of_bitLen hm
  have hpos := bitLen_pos hm
  refine ⟨le_max_right _ _, ?_, ?_⟩
  · by_cases hq : f.lowExp m e = f.emin
    · exact .inl hq
    · refine .inr ?_
      have hq : f.lowExp m e = e + bitLen m - (f.mb + 1) := by
        unfold Fmt.lowExp at hq ⊢
        omega
      unfold Fmt.whole
      rw [hq]
      split
      · rename_i hle'
        calc 2 ^ f.mb = 2 ^ (bitLen m - 1) * 2 ^ (f.mb + 1 - bitLen m) := by rw [← pow_add]; congr 1; omega
          _ ≤ m * 2 ^ (f.mb + 1 - bitLen m) := Nat.mul_le_mul_right _ hle
          _ = _ := by congr 2; omega
      · rw [Nat.le_div_iff_mul_le (Nat.two_pow_pos _), ← pow_add]
        refine le_trans (le_of_eq ?_) hle
        congr 1
        omega
  · have hq : e + bitLen m - (f.mb + 1) ≤ f.lowExp m e := le_max_left _ _
    unfold Fmt.whole
    split
    · calc m * 2 ^ (e - f.lowExp m e).toNat < 2 ^ bitLen m * 2 ^ (e - f.lowExp m e).toNat := Nat.mul_lt_mul_of_pos_right hlt (Nat.two_pow_pos _)
        _ = 2 ^ (bitLen m + (e - f.lowExp m e).toNat) := (pow_add _ _ _).symm
        _ ≤ 2 ^ (f.mb + 1) := Nat.pow_le_pow_right (by decide) (by omega)
    · rw [Nat.div_lt_iff_lt_mul (Nat.two_pow_pos _), ← pow_add]
      exact hlt.trans_le (Nat.pow_le_pow_right (by decide) (by omega))

omit hf in
theorem mantOf_le {q : Int} {hi : Nat} (hc : CutOk f q hi) (up : Bool) : mantOf hi up ≤ 2 ^ (f.mb + 1) := by
  have := hc.fits
  unfold mantOf
  split <;> omega

omit hf in
/-- A carried mantissa lies within the format, and stands for the same number. -/
theorem carried_fits {q : Int} {hi : Nat} (hc : CutOk f q hi) (up : Bool) :
    let p := f.carried q (mantOf hi up)
    p.1 < 2 ^ (f.mb + 1) ∧ q ≤ p.2 ∧ (p.1 < 2 ^ f.mb → p.2 = f.emin) ∧ (p.1 : ℝ) * 2 ^ p.2 = (mantOf hi up : ℝ) * 2 ^ q := by
  have hle := mantOf_le hc up
  have hsucc : 2 ^ (f.mb + 1) = 2 ^ f.mb * 2 := pow_succ _ _
  have hpos := Nat.two_pow_pos f.mb
  have hhi : hi ≤ mantOf hi up := by
    unfold mantOf
    split <;> omega
  unfold Fmt.carried
  dsimp only
  by_cases hcar : mantOf hi up = 2 ^ (f.mb + 1)
  · have hb : (mantOf hi up == 2 ^ (f.mb + 1)) = true := beq_iff_eq.2 hcar
    rw [if_pos hb, if_pos hb]
    refine ⟨by omega, by omega, fun h => by omega, ?_⟩
    rw [hcar, zpow_add_one₀ (by norm_num), pow_succ]
    push_cast
    ring
  · have hb : ¬ (mantOf hi up == 2 ^ (f.mb + 1)) = true := fun h => hcar (beq_iff_eq.1 h)
    rw [if_neg hb, if_neg hb]
    refine ⟨by omega, le_refl _, fun h => ?_, rfl⟩
    rcases hc.normal with hn | hn
    · exact hn
    · omega

/-- A mantissa that is not beyond the largest finite value has a code. -/
theorem coded_unpack {neg inexact : Bool} {p : Nat × Int} (h1 : p.1 < 2 ^ (f.mb + 1)) (h2 : f.emin ≤ p.2) (h3 : p.1 < 2 ^ f.mb → p.2 = f.emin)
    (h4 : p.2 < f.maxExp ∨ p.2 = f.maxExp ∧ p.1 ≤ f.maxMant) :
    f.unpack (f.coded neg inexact p).1 = .fin neg p.1 p.2 ∧ (f.coded neg inexact p).1 % 2 = p.1 % 2
    ∧ (f.coded neg inexact p).1 < 2 ^ (f.eb + f.mb + 1) := by
  have hsucc : 2 ^ (f.mb + 1) = 2 ^ f.mb * 2 := pow_succ _ _
  have hmb : 2 ^ f.mb % 2 = 0 := Nat.mod_eq_zero_of_dvd (dvd_pow_self 2 (by have := hf.mant; omega))
  have hsign : f.signBit % 2 = 0 := Nat.mod_eq_zero_of_dvd (dvd_pow_self 2 (by have := hf.mant; omega))
  have hfield := hf.field
  have htop := hf.top.1
  have heven (field : Nat) : (if neg then f.signBit else 0) % 2 = 0 ∧ field * 2 ^ f.mb % 2 = 0 := by
    refine ⟨?_, by rw [Nat.mul_mod, hmb, mul_zero, Nat.zero_mod]⟩
    split
    · exact hsign
    · rfl
  unfold Fmt.emin at h2
  unfold Fmt.maxExp at h4
  unfold Fmt.coded
  by_cases hsub : p.1 < 2 ^ f.mb
  · have hcode : (if neg then f.signBit else 0) + p.1 = (if neg then f.signBit else 0) + 0 * 2 ^ f.mb + p.1 := by rw [zero_mul, add_zero]
    have hu := unpack_code hf (neg := neg) (field := 0) (by omega) hsub (by omega)
    have hlt := (code_parts (f := f) (neg := neg) (field := 0) (Nat.two_pow_pos _) hsub).2.2.2
    obtain ⟨e1, -⟩ := heven 0
    rw [if_pos hsub]
    dsimp only
    refine ⟨?_, by omega, ?_⟩
    · rw [hcode, hu, if_pos rfl, h3 hsub]
    · rw [hcode]
      exact hlt
  · obtain ⟨field, hfd⟩ : ∃ field : Nat, (field : Int) = p.2 + f.bias + f.mb := ⟨(p.2 + f.bias + f.mb).toNat, by omega⟩
    have hfn : (p.2 + f.bias + f.mb).toNat = field := by omega
    have hmant : p.1 - 2 ^ f.mb < 2 ^ f.mb := by omega
    have hle : field ≤ f.maxField := by omega
    have hu := unpack_code hf (neg := neg) (field := field) hle hmant (by omega)
    have hlt := (code_parts (f := f) (neg := neg) (Nat.lt_of_le_of_lt hle hf.above) hmant).2.2.2
    obtain ⟨e1, e2⟩ := heven field
    rw [if_neg hsub, hfn]
    dsimp only
    refine ⟨?_, by omega, hlt⟩
    rw [hu, if_neg (by omega), Nat.add_sub_cancel' (by omega)]
    congr 1
    omega

end

end Sys2Proof.Machine
end

section
/-!
SUPPORT. The number a rounded mantissa stands for, against the number it was cut from (R75, R76).
-/

namespace Sys2Proof.Machine

/-! ## Numbers of codes -/

/-- A magnitude with its sign. -/
noncomputable def withSign (neg : Bool) (x : ℝ) : ℝ :=
  if neg then -x else x

theorem ratOf_real (neg : Bool) (m : Nat) (e : Int) : ((ratOf neg m e : ℚ) : ℝ) = withSign neg ((m : ℝ) * 2 ^ e) := by
  unfold ratOf withSign
  cases neg <;> push_cast <;> simp [mul_assoc]

theorem abs_withSign (neg : Bool) {x : ℝ} (hx : 0 ≤ x) : |withSign neg x| = x := by
  unfold withSign
  cases neg
  · exact abs_of_nonneg hx
  · rw [if_pos rfl, abs_neg, abs_of_nonneg hx]

theorem withSign_withSign (neg : Bool) (x : ℝ) : withSign neg (withSign neg x) = x := by
  unfold withSign
  cases neg <;> simp

theorem withSign_inj (neg : Bool) {x y : ℝ} : withSign neg x = withSign neg y ↔ x = y := by
  unfold withSign
  cases neg <;> simp

theorem withSign_dist (neg : Bool) (x z : ℝ) : |z - withSign neg x| = |withSign neg z - x| := by
  unfold withSign
  cases neg
  · rfl
  · rw [if_pos rfl, if_pos rfl, ← abs_neg]
    congr 1
    ring

theorem mul_zpow_nonneg (m : Nat) (e : Int) : 0 ≤ (m : ℝ) * 2 ^ e := by positivity

/-- A multiple of a power of two, at a smaller power. -/
theorem mul_zpow_shift (m : Nat) {e q : Int} (h : q ≤ e) : (m : ℝ) * 2 ^ e = ((m * 2 ^ (e - q).toNat : Nat) : ℝ) * 2 ^ q := by
  have he : e = q + ((e - q).toNat : Int) := by omega
  rw [he, zpow_add₀ (by norm_num), zpow_natCast, show (q + ((e - q).toNat : Int) - q).toNat = (e - q).toNat by omega]
  push_cast
  ring

section
variable {f : Fmt} (hf : FmtOk f)
include hf

omit hf in
/-- No finite code lies strictly between a cut and the next. -/
theorem grid {q : Int} {hi : Nat} (hc : CutOk f q hi) {m : Nat} {e : Int} (h : FiniteParts f m e) :
    (m : ℝ) * 2 ^ e ≤ (hi : ℝ) * 2 ^ q ∨ ((hi : ℝ) + 1) * 2 ^ q ≤ (m : ℝ) * 2 ^ e := by
  have hq : (0 : ℝ) < 2 ^ q := by positivity
  by_cases hle : q ≤ e
  · rw [mul_zpow_shift m hle]
    rcases Nat.lt_or_ge hi (m * 2 ^ (e - q).toNat) with hlt | hge
    · exact .inr (mul_le_mul_of_nonneg_right (by exact_mod_cast hlt) hq.le)
    · exact .inl (mul_le_mul_of_nonneg_right (by exact_mod_cast hge) hq.le)
  · refine .inl ?_
    have hfine := h.fine
    have hhi : 2 ^ f.mb ≤ hi := by
      rcases hc.normal with hn | hn
      · omega
      · exact hn
    have hlt := h.fits
    calc (m : ℝ) * 2 ^ e ≤ (2 ^ (f.mb + 1) : ℝ) * 2 ^ (q - 1) := by
          refine mul_le_mul (by exact_mod_cast hlt.le) (zpow_le_zpow_right₀ (by norm_num) (by omega)) (by positivity) (by positivity)
      _ = (2 ^ f.mb : ℝ) * 2 ^ q := by
          rw [zpow_sub_one₀ (by norm_num), pow_succ]
          ring
      _ ≤ (hi : ℝ) * 2 ^ q := mul_le_mul_of_nonneg_right (by exact_mod_cast hhi) hq.le

theorem finiteParts_max : FiniteParts f f.maxMant f.maxExp := by
  have := hf.field
  refine ⟨hf.top.2, ?_, .inr hf.top.1, .inr ⟨rfl, le_refl _⟩⟩
  unfold Fmt.emin Fmt.maxExp
  omega

/-- No finite code exceeds the largest. -/
theorem finite_le_max {m : Nat} {e : Int} (h : FiniteParts f m e) : (m : ℝ) * 2 ^ e ≤ (f.maxMant : ℝ) * 2 ^ f.maxExp := by
  rcases h.most with hlt | ⟨rfl, hle⟩
  · calc (m : ℝ) * 2 ^ e ≤ (2 ^ (f.mb + 1) : ℝ) * 2 ^ (f.maxExp - 1) := by
          refine mul_le_mul (by exact_mod_cast h.fits.le) (zpow_le_zpow_right₀ (by norm_num) (by omega)) (by positivity) (by positivity)
      _ = (2 ^ f.mb : ℝ) * 2 ^ f.maxExp := by
          rw [zpow_sub_one₀ (by norm_num), pow_succ]
          ring
      _ ≤ _ := mul_le_mul_of_nonneg_right (by exact_mod_cast hf.top.1) (by positivity)
  · exact mul_le_mul_of_nonneg_right (by exact_mod_cast hle) (by positivity)

theorem maxBits_unpack (neg : Bool) : f.unpack (f.maxBits neg) = .fin neg f.maxMant f.maxExp := by
  have h1 := hf.top.1
  have h2 := hf.top.2
  have h3 := hf.field
  rw [pow_succ] at h2
  have h := unpack_code hf (neg := neg) (field := f.maxField) (mant := f.maxMant - 2 ^ f.mb) (le_refl _) (by omega) (fun _ => by omega)
  rw [Fmt.maxBits, h, if_neg (by omega), Nat.add_sub_cancel' h1]
  rfl

/-- A rounded mantissa beyond the largest finite value stands for more than it. -/
theorem over_gt {q : Int} {hi : Nat} (hc : CutOk f q hi) (up : Bool) (h : f.over q (mantOf hi up) = true) :
    (f.maxMant : ℝ) * 2 ^ f.maxExp < (mantOf hi up : ℝ) * 2 ^ q := by
  obtain ⟨h1, h2, h3, h4⟩ := carried_fits hc up
  rw [← h4]
  unfold Fmt.over at h
  rcases of_decide_eq_true h with hgt | ⟨heq, hgt⟩
  · have hnorm : 2 ^ f.mb ≤ (f.carried q (mantOf hi up)).1 := by
      by_contra hlt
      have := h3 (by omega)
      have := (finiteParts_max hf).fine
      omega
    calc (f.maxMant : ℝ) * 2 ^ f.maxExp < (2 ^ (f.mb + 1) : ℝ) * 2 ^ f.maxExp :=
          mul_lt_mul_of_pos_right (by exact_mod_cast hf.top.2) (by positivity)
      _ = (2 ^ f.mb : ℝ) * 2 ^ (f.maxExp + 1) := by
          rw [zpow_add_one₀ (by norm_num), pow_succ]
          ring
      _ ≤ _ := mul_le_mul (by exact_mod_cast hnorm) (zpow_le_zpow_right₀ (by norm_num) (by omega)) (by positivity) (by positivity)
  · rw [heq]
    exact mul_lt_mul_of_pos_right (by exact_mod_cast hgt) (by positivity)

end

/-! ## Which way a cut is rounded -/

/-- A magnitude X between a cut and the next, whether it differs from the cut, and which way a mode rounds it (R75). -/
structure Steered (rm : Rm) (neg : Bool) (X : ℝ) (q : Int) (hi : Nat) (up inexact : Bool) : Prop where
  low : (hi : ℝ) * 2 ^ q ≤ X
  high : X < ((hi : ℝ) + 1) * 2 ^ q
  exact : inexact = false ↔ X = (hi : ℝ) * 2 ^ q
  rises : up = true → inexact = true
  rtz : rm = .rtz → up = false
  rdn : rm = .rdn → up = (neg && inexact)
  rup : rm = .rup → up = (!neg && inexact)
  below : rm = .rne → up = false → X - (hi : ℝ) * 2 ^ q ≤ ((hi : ℝ) + 1) * 2 ^ q - X
    ∧ (X - (hi : ℝ) * 2 ^ q = ((hi : ℝ) + 1) * 2 ^ q - X → hi % 2 = 0)
  above : rm = .rne → up = true → ((hi : ℝ) + 1) * 2 ^ q - X ≤ X - (hi : ℝ) * 2 ^ q
    ∧ (((hi : ℝ) + 1) * 2 ^ q - X = X - (hi : ℝ) * 2 ^ q → hi % 2 = 1)

section
variable {f : Fmt} (hf : FmtOk f) {rm : Rm} {neg : Bool} {X : ℝ} {q : Int} {hi : Nat} {up inexact : Bool} (hc : CutOk f q hi)
  (h : Steered rm neg X q hi up inexact)
include hf hc h

/-- An overflow is of a value beyond the largest finite one. -/
theorem over_value (hover : f.over q (mantOf hi up) = true) : (f.maxMant : ℝ) * 2 ^ f.maxExp < X := by
  have hgt := over_gt hf hc up hover
  cases hup : up with
  | false =>
    rw [hup] at hgt
    exact hgt.trans_le h.low
  | true =>
    rw [hup] at hgt
    have hne : X ≠ (hi : ℝ) * 2 ^ q := fun he => by
      have := h.exact.2 he
      rw [h.rises hup] at this
      cases this
    rcases grid hc (finiteParts_max hf) with hle | hle
    · exact hle.trans_lt (lt_of_le_of_ne h.low hne.symm)
    · unfold mantOf at hgt
      rw [if_pos rfl] at hgt
      push_cast at hgt
      exact absurd (hgt.trans_le hle) (lt_irrefl _)

omit hf hc in
/-- The rounded magnitude is the cut or the next. -/
theorem steered_value : (mantOf hi up : ℝ) * 2 ^ q = if up then ((hi : ℝ) + 1) * 2 ^ q else (hi : ℝ) * 2 ^ q := by
  unfold mantOf
  cases up <;> simp

omit h in
/-- Every finite code, seen with a sign, is at most the cut or at least the next. -/
theorem code_outside {c : Nat} {z : ℚ} (hz : codeRat f c = some z) (hq : 0 ≤ (hi : ℝ) * 2 ^ q) :
    withSign neg (z : ℝ) ≤ (hi : ℝ) * 2 ^ q ∨ ((hi : ℝ) + 1) * 2 ^ q ≤ withSign neg (z : ℝ) := by
  unfold codeRat at hz
  cases hu : f.unpack c with
  | nan s => rw [hu] at hz; cases hz
  | inf n => rw [hu] at hz; cases hz
  | fin n m e =>
    rw [hu] at hz
    obtain rfl := Option.some.inj hz
    have hg := grid hc (unpack_finite hf hu)
    have hp := mul_zpow_nonneg m e
    rw [ratOf_real]
    unfold withSign
    cases n <;> cases neg <;> simp only [Bool.false_eq_true, if_false, if_true, neg_neg]
    · exact hg
    · exact .inl (by linarith)
    · exact .inl (by linarith)
    · exact hg

omit h hc in
theorem carried_parity (r : Nat) : (f.carried q r).1 % 2 = r % 2 := by
  have hmb : 2 ^ f.mb % 2 = 0 := Nat.mod_eq_zero_of_dvd (dvd_pow_self 2 (by have := hf.mant; omega))
  have hmb1 : 2 ^ (f.mb + 1) % 2 = 0 := Nat.mod_eq_zero_of_dvd (dvd_pow_self 2 (by omega))
  unfold Fmt.carried
  dsimp only
  by_cases hr : r = 2 ^ (f.mb + 1)
  · rw [if_pos (beq_iff_eq.2 hr), hmb, hr, hmb1]
  · rw [if_neg (fun hb => hr (beq_iff_eq.1 hb))]

/-- Where nothing overflows, the code is a finite one of the sign given, with the rounded magnitude; its last bit is the mantissa's. -/
theorem pack_fits (sat : Bool) (hfit : f.over q (mantOf hi up) = false) :
    ∃ m e, f.unpack (f.pack rm sat neg q hi up inexact).1 = .fin neg m e ∧ (m : ℝ) * 2 ^ e = (mantOf hi up : ℝ) * 2 ^ q
      ∧ (f.pack rm sat neg q hi up inexact).1 % 2 = mantOf hi up % 2
      ∧ (f.pack rm sat neg q hi up inexact).2 = flagIf inexact (if m < 2 ^ f.mb then flagNx ||| flagUf else flagNx)
      ∧ (m < 2 ^ f.mb → e = f.emin) ∧ f.emin ≤ e := by
  obtain ⟨h1, h2, h3, h4⟩ := carried_fits hc up
  have hfine := hc.fine
  have hmost : (f.carried q (mantOf hi up)).2 < f.maxExp ∨ (f.carried q (mantOf hi up)).2 = f.maxExp ∧ (f.carried q (mantOf hi up)).1 ≤ f.maxMant := by
    have := of_decide_eq_false hfit
    omega
  obtain ⟨hu, hpar, -⟩ := coded_unpack hf (neg := neg) (inexact := inexact) h1 (by omega) h3 hmost
  rw [Fmt.pack, if_neg (by rw [hfit]; exact Bool.false_ne_true)]
  refine ⟨_, _, hu, h4, hpar.trans (carried_parity hf _), ?_, h3, by omega⟩
  unfold Fmt.coded
  split <;> rfl

omit hf hc h in
theorem overflowed_flags (f : Fmt) (rm : Rm) (sat neg : Bool) : (f.overflowed rm sat neg).2 &&& (flagOf ||| flagSat) ≠ 0 := by
  unfold Fmt.overflowed
  split
  · exact (by decide : (flagSat ||| flagNx) &&& (flagOf ||| flagSat) ≠ 0)
  · split <;> exact (by decide : (flagOf ||| flagNx) &&& (flagOf ||| flagSat) ≠ 0)

omit hf hc h in
theorem flagIf_quiet (b c : Bool) : flagIf b (if c then flagNx ||| flagUf else flagNx) &&& (flagOf ||| flagSat) = 0
    ∧ (flagIf b (if c then flagNx ||| flagUf else flagNx) &&& flagNx = 0 ↔ b = false)
    ∧ (flagIf b (if c then flagNx ||| flagUf else flagNx) &&& flagUf ≠ 0 ↔ b = true ∧ c = true) := by
  revert b c
  decide

/-- Flags of an overflow are raised where the rounded mantissa is beyond the largest finite value. -/
theorem pack_over_iff (sat : Bool) : (f.pack rm sat neg q hi up inexact).2 &&& (flagOf ||| flagSat) = 0 ↔ f.over q (mantOf hi up) = false := by
  cases hover : f.over q (mantOf hi up) with
  | true =>
    rw [Fmt.pack, if_pos hover]
    exact iff_of_false (overflowed_flags f rm sat neg) (by decide)
  | false =>
    obtain ⟨m, e, -, -, -, hfl, -⟩ := pack_fits hf hc h sat hover
    rw [hfl]
    have := (flagIf_quiet inexact (decide (m < 2 ^ f.mb))).1
    simp only [decide_eq_true_eq] at this
    exact iff_of_true this rfl

/-- The packed code of a cut stands for the cut or the next, by mode. -/
theorem pack_rounded (sat : Bool) : Rounded f rm (withSign neg X) (f.pack rm sat neg q hi up inexact) := by
  intro hquiet
  have hfit := (pack_over_iff hf hc h sat).1 hquiet
  obtain ⟨m, e, hu, hval, hpar, hfl, hsub, hemin⟩ := pack_fits hf hc h sat hfit
  have hq : (0 : ℝ) < 2 ^ q := by positivity
  have hlow := h.low
  have hhigh := h.high
  have hlo : (0 : ℝ) ≤ (hi : ℝ) * 2 ^ q := by positivity
  have hX : 0 ≤ X := hlo.trans hlow
  have hY : (m : ℝ) * 2 ^ e = if up then ((hi : ℝ) + 1) * 2 ^ q else (hi : ℝ) * 2 ^ q := by rw [hval, steered_value h]
  have hYX : (m : ℝ) * 2 ^ e = X ↔ inexact = false := by
    rw [h.exact, hY]
    cases hup : up with
    | false => exact eq_comm
    | true =>
      have hi' := h.rises hup
      have hne : X ≠ (hi : ℝ) * 2 ^ q := fun he => by
        rw [h.exact.2 he] at hi'
        cases hi'
      rw [if_pos rfl]
      exact iff_of_false (by linarith) hne
  obtain ⟨-, hnx, huf⟩ := flagIf_quiet inexact (decide (m < 2 ^ f.mb))
  simp only [decide_eq_true_eq] at hnx huf
  have hreal : ((ratOf neg m e : ℚ) : ℝ) = withSign neg ((m : ℝ) * 2 ^ e) := ratOf_real neg m e
  have hcode : codeRat f (f.pack rm sat neg q hi up inexact).1 = some (ratOf neg m e) := by
    unfold codeRat
    rw [hu]
  have hside {c : Nat} {z : ℚ} (hz : codeRat f c = some z) := code_outside (neg := neg) hf hc hz hlo
  have hbetween {c : Nat} {z : ℚ} (hz : codeRat f c = some z) : ¬ (X < withSign neg z ∧ withSign neg z < (m : ℝ) * 2 ^ e)
      ∧ ¬ ((m : ℝ) * 2 ^ e < withSign neg z ∧ withSign neg z < X) := by
    rw [hY]
    rcases hside hz with hs | hs <;> cases up <;> simp only [Bool.false_eq_true, if_false, if_true] <;>
      constructor <;> rintro ⟨h1, h2⟩ <;> linarith
  refine ⟨ratOf neg m e, hcode, ?_, ?_, fun c z hz => ?_, fun hrm => ?_, fun hrm => ?_, fun hrm => ?_, fun hrm c z hz => ?_⟩
  · rw [hfl, hnx, hreal, withSign_inj, hYX]
  · rw [hfl, huf, hreal, abs_withSign neg (mul_zpow_nonneg m e), Ne, withSign_inj, hYX]
    have hnormal : m < 2 ^ f.mb ↔ (m : ℝ) * 2 ^ e < (2 : ℝ) ^ (1 - (f.bias : ℤ)) := by
      have hpow : (2 : ℝ) ^ (1 - (f.bias : ℤ)) = 2 ^ f.mb * 2 ^ f.emin := by
        rw [← zpow_natCast, ← zpow_add₀ (by norm_num)]
        congr 1
        unfold Fmt.emin
        omega
      rw [hpow]
      constructor
      · intro hm
        rw [hsub hm]
        exact mul_lt_mul_of_pos_right (by exact_mod_cast hm) (by positivity)
      · intro hlt
        by_contra hm
        have hm' : (2 ^ f.mb : ℝ) ≤ m := by exact_mod_cast Nat.not_lt.1 hm
        have hle : (2 : ℝ) ^ f.emin ≤ 2 ^ e := zpow_le_zpow_right₀ (by norm_num) hemin
        have := mul_le_mul hm' hle (by positivity) (by positivity)
        linarith
    rw [← hnormal]
    cases inexact <;> simp
  · obtain ⟨h1, h2⟩ := hbetween hz
    have hzy : z < ratOf neg m e ↔ (z : ℝ) < withSign neg ((m : ℝ) * 2 ^ e) := by rw [← hreal, Rat.cast_lt]
    have hyz : ratOf neg m e < z ↔ withSign neg ((m : ℝ) * 2 ^ e) < z := by rw [← hreal, Rat.cast_lt]
    rw [hzy, hyz]
    unfold withSign at h1 h2 ⊢
    cases neg
    · exact ⟨h1, h2⟩
    · simp only [if_true] at h1 h2 ⊢
      exact ⟨fun hh => h2 ⟨by linarith [hh.2], by linarith [hh.1]⟩, fun hh => h1 ⟨by linarith [hh.2], by linarith [hh.1]⟩⟩
  · rw [hreal, abs_withSign neg (mul_zpow_nonneg m e), abs_withSign neg hX, hY, h.rtz hrm, if_neg Bool.false_ne_true]
    exact hlow
  · rw [hreal, hY, h.rdn hrm]
    unfold withSign
    cases neg
    · exact hlow
    · cases hin : inexact with
      | false => exact neg_le_neg (h.exact.1 hin).le
      | true => exact neg_le_neg hhigh.le
  · rw [hreal, hY, h.rup hrm]
    unfold withSign
    cases neg
    · cases hin : inexact with
      | false => exact (h.exact.1 hin).le
      | true => exact hhigh.le
    · exact neg_le_neg hlow
  · have hZ := hside hz
    have hdy : |((ratOf neg m e : ℚ) : ℝ) - withSign neg X| = |(m : ℝ) * 2 ^ e - X| := by rw [hreal, withSign_dist, withSign_withSign]
    have hne : z ≠ ratOf neg m e → withSign neg (z : ℝ) ≠ (m : ℝ) * 2 ^ e := fun hzy he => hzy (by
      have := congrArg (withSign neg) he
      rw [withSign_withSign, ← hreal] at this
      exact_mod_cast this)
    rw [hdy, withSign_dist neg X z, hpar]
    generalize withSign neg (z : ℝ) = Z at hZ hne
    rw [hY] at hne ⊢
    unfold mantOf
    cases hup : up with
    | false =>
      obtain ⟨hnear, htie⟩ := h.below hrm hup
      simp only [hup, Bool.false_eq_true, if_false] at hne ⊢
      rw [abs_sub_comm, abs_of_nonneg (show 0 ≤ X - (hi : ℝ) * 2 ^ q by linarith)]
      rcases hZ with hZ | hZ
      · rw [abs_sub_comm Z, abs_of_nonneg (show 0 ≤ X - Z by linarith)]
        exact ⟨by linarith, fun h1 h2 => absurd (by linarith) (hne h1)⟩
      · rw [abs_of_nonneg (show 0 ≤ Z - X by linarith)]
        exact ⟨by linarith, fun _ h2 => htie (by linarith)⟩
    | true =>
      obtain ⟨hnear, htie⟩ := h.above hrm hup
      simp only [hup, if_true] at hne ⊢
      rw [abs_of_nonneg (show 0 ≤ ((hi : ℝ) + 1) * 2 ^ q - X by linarith)]
      rcases hZ with hZ | hZ
      · rw [abs_sub_comm Z, abs_of_nonneg (show 0 ≤ X - Z by linarith)]
        exact ⟨by linarith, fun _ h2 => by have := htie (by linarith); omega⟩
      · rw [abs_of_nonneg (show 0 ≤ Z - X by linarith)]
        exact ⟨by linarith, fun h1 h2 => absurd (by linarith) (hne h1)⟩

end

end Sys2Proof.Machine
end

section
/-!
SUPPORT. Rounding of exact values and of values known to a rest (R75, R76), and the codes of what is delivered.
-/

namespace Sys2Proof.Machine

/-! ## The way a cut is rounded -/

/-- The rest cut off decides the way, where it says whether the value lies at the cut, below the middle, in it or above. -/
theorem steered_of {rm : Rm} {neg : Bool} {X : ℝ} {q : Int} {hi rem sh : Nat} (hlow : (hi : ℝ) * 2 ^ q ≤ X) (hhigh : X < ((hi : ℝ) + 1) * 2 ^ q)
    (hex : rem = 0 ↔ X = (hi : ℝ) * 2 ^ q) (hgt : 2 ^ sh < 2 * rem → ((hi : ℝ) + 1) * 2 ^ q - X < X - (hi : ℝ) * 2 ^ q)
    (heq : 2 * rem = 2 ^ sh → ((hi : ℝ) + 1) * 2 ^ q - X = X - (hi : ℝ) * 2 ^ q)
    (hlt : 2 * rem < 2 ^ sh → X - (hi : ℝ) * 2 ^ q < ((hi : ℝ) + 1) * 2 ^ q - X) :
    Steered rm neg X q hi (roundsUp rm neg hi rem sh) (rem != 0) := by
  have hpow := Nat.two_pow_pos sh
  refine ⟨hlow, hhigh, ?_, fun hup => ?_, fun h => ?_, fun h => ?_, fun h => ?_, fun h hup => ?_, fun h hup => ?_⟩
  · rw [bne_eq_false_iff_eq, hex]
  · rw [bne_iff_ne]
    rintro rfl
    have hne : ¬ 0 = 2 ^ sh := by omega
    cases rm <;> simp [roundsUp, hne] at hup
  · rw [h]; rfl
  · rw [h]; rfl
  · rw [h]; rfl
  · rw [h] at hup
    simp only [roundsUp, gt_iff_lt, Bool.or_eq_false_iff, decide_eq_false_iff_not, Bool.and_eq_false_iff, beq_eq_false_iff_ne] at hup
    obtain ⟨h1, h2⟩ := hup
    rcases Nat.lt_or_ge (2 * rem) (2 ^ sh) with hl | hl
    · have := hlt hl
      exact ⟨this.le, fun he => absurd he (by linarith)⟩
    · have hr : 2 * rem = 2 ^ sh := by omega
      have := heq hr
      refine ⟨by linarith, fun _ => ?_⟩
      rcases h2 with h2 | h2
      · exact absurd hr h2
      · omega
  · rw [h] at hup
    simp only [roundsUp, gt_iff_lt, Bool.or_eq_true, decide_eq_true_eq, Bool.and_eq_true, beq_iff_eq] at hup
    rcases hup with hg | ⟨hr, hodd⟩
    · have := hgt hg
      exact ⟨this.le, fun he => absurd he (by linarith)⟩
    · have := heq hr
      exact ⟨by linarith, fun _ => hodd⟩

/-- A magnitude known by a number m × 2^e: that number, or one between its odd m's neighbours, of which two bits or more are cut
off. -/
def Known (f : Fmt) (X : ℝ) (m : Nat) (e : Int) : Prop :=
  X = (m : ℝ) * 2 ^ e ∨ m % 2 = 1 ∧ e + 2 ≤ f.lowExp m e ∧ ((m : ℝ) - 1) * 2 ^ e < X ∧ X < ((m : ℝ) + 1) * 2 ^ e

theorem Known.steered {f : Fmt} {X : ℝ} {m : Nat} {e : Int} (h : Known f X m e) (rm : Rm) (neg : Bool) :
    Steered rm neg X (f.lowExp m e) (f.whole m e) (roundsUp rm neg (f.whole m e) (f.rest m e) (f.lowExp m e - e).toNat)
      (f.rest m e != 0) := by
  have hu : (0 : ℝ) < 2 ^ e := by positivity
  by_cases hle : f.lowExp m e ≤ e
  · have hX : X = (f.whole m e : ℝ) * 2 ^ f.lowExp m e := by
      rcases h with h | h
      · unfold Fmt.whole
        rw [h, if_pos hle, ← mul_zpow_shift m hle]
      · omega
    have hq : (0 : ℝ) < 2 ^ f.lowExp m e := by positivity
    have hr : f.rest m e = 0 := if_pos hle
    have hsh : (f.lowExp m e - e).toNat = 0 := by omega
    rw [hr, hsh]
    refine steered_of hX.ge (by rw [hX]; nlinarith) (iff_of_true rfl hX) (fun hh => by omega) (fun hh => by omega) fun _ => ?_
    rw [hX]
    nlinarith
  · obtain ⟨n, hn⟩ : ∃ n : Nat, f.lowExp m e = e + (n + 1 : Nat) := ⟨(f.lowExp m e - e - 1).toNat, by omega⟩
    have hsh : (f.lowExp m e - e).toNat = n + 1 := by omega
    have hpow : (2 : ℝ) ^ f.lowExp m e = ((2 ^ (n + 1) : Nat) : ℝ) * 2 ^ e := by
      rw [hn, zpow_add₀ (by norm_num), zpow_natCast]
      push_cast
      ring
    unfold Fmt.whole Fmt.rest
    rw [if_neg hle, if_neg hle, hsh]
    have hdiv := Nat.div_add_mod m (2 ^ (n + 1))
    have hmod := Nat.mod_lt m (Nat.two_pow_pos (n + 1))
    have heven : 2 ^ (n + 1) % 2 = 0 := Nat.mod_eq_zero_of_dvd (dvd_pow_self 2 (by omega))
    generalize m / 2 ^ (n + 1) = hi at hdiv
    generalize m % 2 ^ (n + 1) = rem at hdiv hmod
    have hmR : (m : ℝ) = ((2 ^ (n + 1) : Nat) : ℝ) * hi + rem := by exact_mod_cast hdiv.symm
    have hlo : (hi : ℝ) * 2 ^ f.lowExp m e = ((m : ℝ) - rem) * 2 ^ e := by
      rw [hpow, hmR]
      ring
    have hup : ((hi : ℝ) + 1) * 2 ^ f.lowExp m e = ((m : ℝ) - rem) * 2 ^ e + ((2 ^ (n + 1) : Nat) : ℝ) * 2 ^ e := by
      rw [add_mul, hlo, one_mul, hpow]
    have hdist : (X - ((m : ℝ) - rem) * 2 ^ e = (rem : ℝ) * 2 ^ e) ∨ (rem % 2 = 1 ∧ 2 ^ (n + 1) % 4 = 0
        ∧ ((rem : ℝ) - 1) * 2 ^ e < X - ((m : ℝ) - rem) * 2 ^ e ∧ X - ((m : ℝ) - rem) * 2 ^ e < ((rem : ℝ) + 1) * 2 ^ e) := by
      rcases h with h | ⟨hodd, hbits, h1, h2⟩
      · exact .inl (by rw [h]; ring)
      · refine .inr ⟨?_, Nat.mod_eq_zero_of_dvd (show 2 ^ 2 ∣ 2 ^ (n + 1) from pow_dvd_pow 2 (by omega)), by nlinarith, by nlinarith⟩
        have : 2 ^ (n + 1) * hi % 2 = 0 := by rw [Nat.mul_mod, heven, zero_mul, Nat.zero_mod]
        omega
    have scale {a b : Nat} (hab : a ≤ b) : (a : ℝ) * 2 ^ e ≤ (b : ℝ) * 2 ^ e := mul_le_mul_of_nonneg_right (by exact_mod_cast hab) hu.le
    have hsucc : (rem : ℝ) * 2 ^ e + 2 ^ e ≤ ((2 ^ (n + 1) : Nat) : ℝ) * 2 ^ e := by
      have := scale (a := rem + 1) (b := 2 ^ (n + 1)) hmod
      push_cast at this ⊢
      linarith
    have hnonneg : 0 ≤ (rem : ℝ) * 2 ^ e := by positivity
    generalize hD : X - ((m : ℝ) - rem) * 2 ^ e = D at hdist
    have hX : X = ((m : ℝ) - rem) * 2 ^ e + D := by rw [← hD]; ring
    generalize ((m : ℝ) - rem) * 2 ^ e = lo at hlo hup hX
    clear hD
    generalize hP : ((2 ^ (n + 1) : Nat) : ℝ) * 2 ^ e = P at hsucc hup
    have hbounds : 0 ≤ D ∧ D < P := by
      rcases hdist with hd | ⟨hodd, -, h1, h2⟩
      · exact ⟨by linarith, by linarith⟩
      · have := scale (a := 1) (b := rem) (by omega)
        push_cast at this
        exact ⟨by linarith, by linarith⟩
    have hzero : rem = 0 ↔ D = 0 := by
      rcases hdist with hd | ⟨hodd, -, h1, h2⟩
      · rw [hd, mul_eq_zero, or_iff_left hu.ne', Nat.cast_eq_zero]
      · have := scale (a := 1) (b := rem) (by omega)
        push_cast at this
        exact iff_of_false (by omega) (by linarith)
    have hmore : 2 ^ (n + 1) < 2 * rem → P < 2 * D := fun hgt => by
      rcases hdist with hd | ⟨hodd, h4, h1, h2⟩
      · have := mul_lt_mul_of_pos_right (show ((2 ^ (n + 1) : Nat) : ℝ) < ((2 * rem : Nat) : ℝ) by exact_mod_cast hgt) hu
        rw [hP] at this
        push_cast at this
        linarith
      · have := scale (a := 2 ^ (n + 1) + 2) (b := 2 * rem) (by omega)
        rw [Nat.cast_add, add_mul, hP] at this
        push_cast at this
        linarith
    have hless : 2 * rem < 2 ^ (n + 1) → 2 * D < P := fun hlt => by
      rcases hdist with hd | ⟨hodd, h4, h1, h2⟩
      · have := mul_lt_mul_of_pos_right (show ((2 * rem : Nat) : ℝ) < ((2 ^ (n + 1) : Nat) : ℝ) by exact_mod_cast hlt) hu
        rw [hP] at this
        push_cast at this
        linarith
      · have := scale (a := 2 * rem + 2) (b := 2 ^ (n + 1)) (by omega)
        rw [hP] at this
        push_cast at this
        linarith
    have hhalf : 2 * rem = 2 ^ (n + 1) → 2 * D = P := fun heq => by
      rcases hdist with hd | ⟨hodd, h4, -⟩
      · rw [← hP, ← heq, hd]
        push_cast
        ring
      · omega
    obtain ⟨hb1, hb2⟩ := hbounds
    refine steered_of (by rw [hlo]; linarith) (by rw [hup]; linarith) ?_ (fun hgt => ?_) (fun heq => ?_) (fun hlt => ?_)
    · rw [hlo, hX, hzero]
      exact ⟨fun hd => by linarith, fun hd => by linarith⟩
    · rw [hlo, hup, hX]
      linarith [hmore hgt]
    · rw [hlo, hup, hX]
      linarith [hhalf heq]
    · rw [hlo, hup, hX]
      linarith [hless hlt]

/-! ## Rounding an exact value -/

section
variable {f : Fmt} (hf : FmtOk f) (rm : Rm) (sat neg : Bool)
include hf

/-- The code of a zero. -/
theorem zero_unpack : f.unpack (if neg then f.signBit else 0) = .fin neg 0 f.emin := by
  have h := unpack_code hf (neg := neg) (field := 0) (mant := 0) (Nat.zero_le _) (Nat.two_pow_pos _) (fun h => by have := hf.field; omega)
  rwa [zero_mul, add_zero, add_zero, if_pos rfl] at h

theorem rounded_zero (e : Int) : Rounded f rm 0 (f.round rm sat neg 0 e) := by
  intro _
  have hr : f.round rm sat neg 0 e = (if neg then f.signBit else 0, 0) := rfl
  rw [hr]
  have hcode : codeRat f (if neg then f.signBit else 0) = some 0 := by
    unfold codeRat
    rw [zero_unpack hf neg]
    simp [ratOf]
  refine ⟨0, hcode, by simp, by simp, fun c z _ => ?_, fun _ => by simp, fun _ => by simp, fun _ => by simp, fun _ c z _ => ?_⟩
  · rw [Rat.cast_pos, Rat.cast_lt_zero]
    exact ⟨fun h => lt_asymm h.1 h.2, fun h => lt_asymm h.1 h.2⟩
  · refine ⟨by simp, fun hz he => absurd he ?_⟩
    simp only [Rat.cast_zero, sub_zero, abs_zero, abs_eq_zero, Rat.cast_eq_zero]
    exact hz

theorem round_known {X : ℝ} {m : Nat} {e : Int} (hm : m ≠ 0) (h : Known f X m e) : Rounded f rm (withSign neg X) (f.round rm sat neg m e) := by
  rw [round_eq_pack f rm sat neg e hm]
  exact pack_rounded hf (cutOk_lowExp hm e) (h.steered rm neg) sat

omit hf in
theorem known_exact (m : Nat) (e : Int) : Known f ((m : ℝ) * 2 ^ e) m e := .inl rfl

/-- The sign of a rounded value, where nothing overflows. -/
theorem round_sign {m : Nat} {e : Int} (h : (f.round rm sat neg m e).2 &&& (flagOf ||| flagSat) = 0) :
    (f.unpack (f.round rm sat neg m e).1).sign = neg := by
  by_cases hm : m = 0
  · subst hm
    have hr : f.round rm sat neg 0 e = (if neg then f.signBit else 0, 0) := rfl
    rw [hr, zero_unpack hf neg]
    rfl
  · rw [round_eq_pack f rm sat neg e hm] at h ⊢
    have hs := (known_exact (f := f) m e).steered rm neg
    obtain ⟨k, x, hu, -⟩ := pack_fits hf (cutOk_lowExp hm e) hs sat ((pack_over_iff hf (cutOk_lowExp hm e) hs sat).1 h)
    rw [hu]
    rfl

/-- No finite code exceeds the largest finite value in magnitude. -/
theorem codeRat_le_max {c : Nat} {z : ℚ} (hz : codeRat f c = some z) : |z| ≤ |ratOf neg f.maxMant f.maxExp| := by
  unfold codeRat at hz
  cases hu : f.unpack c with
  | nan s => rw [hu] at hz; cases hz
  | inf n => rw [hu] at hz; cases hz
  | fin n m e =>
    rw [hu] at hz
    obtain rfl := Option.some.inj hz
    have hle := finite_le_max hf (unpack_finite hf hu)
    have habs (n : Bool) (m : Nat) (e : Int) : ((|ratOf n m e| : ℚ) : ℝ) = (m : ℝ) * 2 ^ e := by
      rw [Rat.cast_abs, ratOf_real, abs_withSign n (mul_zpow_nonneg m e)]
    have : ((|ratOf n m e| : ℚ) : ℝ) ≤ ((|ratOf neg f.maxMant f.maxExp| : ℚ) : ℝ) := by rw [habs, habs]; exact hle
    exact_mod_cast this

omit hf in
theorem overflowed_table : f.overflowed rm sat neg = if sat = true ∨ f.special = .none then (f.maxBits neg, flagSat ||| flagNx)
    else if rm = .rne ∨ rm = .rup ∧ neg = false ∨ rm = .rdn ∧ neg = true then (f.infBits neg, flagOf ||| flagNx)
    else (f.maxBits neg, flagOf ||| flagNx) := by
  unfold Fmt.overflowed
  refine if_congr Iff.rfl rfl (if_congr ?_ rfl rfl)
  cases rm <;> cases neg <;> decide

/-- An overflow: of a value beyond the largest finite one, with what R76 lists. -/
theorem round_overflow {m : Nat} {e : Int} (h : (f.round rm sat neg m e).2 &&& (flagOf ||| flagSat) ≠ 0) :
    |ratOf neg f.maxMant f.maxExp| < |ratOf neg m e| ∧ f.round rm sat neg m e = f.overflowed rm sat neg := by
  by_cases hm : m = 0
  · subst hm
    have hr : f.round rm sat neg 0 e = (if neg then f.signBit else 0, 0) := rfl
    rw [hr] at h
    exact absurd (by decide : (0 : Flags) &&& (flagOf ||| flagSat) = 0) h
  · rw [round_eq_pack f rm sat neg e hm] at h ⊢
    have hs := (known_exact (f := f) m e).steered rm neg
    have hover : f.over (f.lowExp m e) (mantOf (f.whole m e) _) = true :=
      Bool.eq_true_of_not_eq_false fun hfit => h ((pack_over_iff hf (cutOk_lowExp hm e) hs sat).2 hfit)
    have hgt := over_value hf (cutOk_lowExp hm e) hs hover
    refine ⟨?_, if_pos hover⟩
    have habs (m : Nat) (e : Int) : ((|ratOf neg m e| : ℚ) : ℝ) = (m : ℝ) * 2 ^ e := by
      rw [Rat.cast_abs, ratOf_real, abs_withSign neg (mul_zpow_nonneg m e)]
    have : ((|ratOf neg f.maxMant f.maxExp| : ℚ) : ℝ) < ((|ratOf neg m e| : ℚ) : ℝ) := by rw [habs, habs]; exact hgt
    exact_mod_cast this

end

theorem roundingResults : RoundingResults := by
  intro f hmem rm sat neg m e
  have hf := fmtOk hmem
  refine ⟨?_, round_sign hf rm sat neg, fun h => ?_⟩
  · rw [ratOf_real]
    by_cases hm : m = 0
    · subst hm
      have : withSign neg (((0 : Nat) : ℝ) * 2 ^ e) = 0 := by
        unfold withSign
        cases neg <;> simp
      rw [this]
      exact rounded_zero hf rm sat neg e
    · exact round_known hf rm sat neg hm (known_exact m e)
  · obtain ⟨hgt, heq⟩ := round_overflow hf rm sat neg h
    refine ⟨⟨ratOf neg f.maxMant f.maxExp, ?_, hgt, fun c z hz => codeRat_le_max hf neg hz⟩, heq.trans (overflowed_table rm sat neg)⟩
    unfold codeRat
    rw [maxBits_unpack hf]

end Sys2Proof.Machine
end

section
/-!
SUPPORT. Rounding to an integer (R77, R79).
-/

namespace Sys2Proof.Machine

/-! ## Integers -/

/-- An integer's magnitude with its sign. -/
def signedInt (neg : Bool) (z : Int) : Int :=
  if neg then -z else z

theorem signedInt_real (neg : Bool) (z : Int) : ((signedInt neg z : Int) : ℝ) = withSign neg (z : ℝ) := by
  unfold signedInt withSign
  cases neg <;> simp

theorem withSign_int (neg : Bool) (z : Int) : ∃ w : Int, withSign neg (z : ℝ) = w :=
  ⟨signedInt neg z, (signedInt_real neg z).symm⟩

theorem signedInt_parity (neg : Bool) (n : Nat) : signedInt neg n % 2 = 0 ↔ n % 2 = 0 := by
  unfold signedInt
  cases neg <;> simp <;> omega

/-- Nothing is cut off, so nothing is rounded. -/
theorem roundsUp_exact (rm : Rm) (neg : Bool) (hi : Nat) : roundsUp rm neg hi 0 0 = false := by
  cases rm <;> simp [roundsUp]

/-- The integer given, its magnitude and whether it is inexact. -/
theorem roundToInt_steered (rm : Rm) (neg : Bool) (m : Nat) (e : Int) :
    ∃ hi up, (roundToInt rm neg m e).1 = signedInt neg (mantOf hi up)
      ∧ Steered rm neg ((m : ℝ) * 2 ^ e) 0 hi up (roundToInt rm neg m e).2 := by
  unfold roundToInt
  by_cases he : 0 ≤ e
  · have hX : (m : ℝ) * 2 ^ e = ((m * 2 ^ e.toNat : Nat) : ℝ) * 2 ^ (0 : ℤ) := by
      have := mul_zpow_shift m he
      rwa [Int.sub_zero] at this
    refine ⟨m * 2 ^ e.toNat, roundsUp rm neg (m * 2 ^ e.toNat) 0 0, ?_, ?_⟩
    · rw [if_pos he, roundsUp_exact]
      rfl
    · rw [if_pos he, hX]
      refine steered_of le_rfl (by nlinarith [show (0 : ℝ) < 2 ^ (0 : ℤ) by positivity]) (iff_of_true rfl rfl) (fun h => ?_) (fun h => ?_) fun _ => ?_
      · omega
      · omega
      · norm_num
  · refine ⟨m / 2 ^ (-e).toNat, roundsUp rm neg (m / 2 ^ (-e).toNat) (m % 2 ^ (-e).toNat) (-e).toNat, ?_, ?_⟩
    · rw [if_neg he]
      rfl
    · rw [if_neg he]
      obtain ⟨sh, rfl⟩ : ∃ sh : Nat, e = -(sh : Int) := ⟨(-e).toNat, by omega⟩
      rw [show (- -(sh : Int)).toNat = sh by omega]
      have hp : (0 : ℝ) < 2 ^ sh := by positivity
      have hsplit : (m : ℝ) * 2 ^ (-(sh : ℤ)) = ((m / 2 ^ sh : Nat) : ℝ) + ((m % 2 ^ sh : Nat) : ℝ) / 2 ^ sh := by
        have : (m : ℝ) = 2 ^ sh * ((m / 2 ^ sh : Nat) : ℝ) + ((m % 2 ^ sh : Nat) : ℝ) := by exact_mod_cast (Nat.div_add_mod m (2 ^ sh)).symm
        rw [zpow_neg, zpow_natCast, ← div_eq_mul_inv]
        conv_lhs => rw [this]
        field_simp
      have hmod := Nat.mod_lt m (Nat.two_pow_pos sh)
      have hfrac : ((m % 2 ^ sh : Nat) : ℝ) / 2 ^ sh < 1 := by
        rw [div_lt_one hp]
        exact_mod_cast hmod
      rw [hsplit]
      simp only [zpow_zero, mul_one]
      generalize m / 2 ^ sh = hi at hsplit
      generalize m % 2 ^ sh = rem at hsplit hmod hfrac
      have half {a b : ℝ} : a < b → a / 2 ^ sh < b / 2 ^ sh := fun hab => div_lt_div_of_pos_right hab hp
      have one : (2 ^ sh : ℝ) / 2 ^ sh = 1 := div_self hp.ne'
      refine steered_of (by simp; positivity) (by simp; exact hfrac) ?_ (fun h => ?_) (fun h => ?_) fun h => ?_
      · rw [zpow_zero, mul_one, add_eq_left, div_eq_zero_iff, or_iff_left hp.ne', Nat.cast_eq_zero]
      · have := half (show (2 ^ sh : ℝ) < 2 * rem by exact_mod_cast h)
        rw [one, mul_div_assoc] at this
        simp only [zpow_zero, mul_one]
        linarith
      · have : (2 * rem : ℝ) / 2 ^ sh = 2 ^ sh / 2 ^ sh := by rw [show (2 * rem : ℝ) = 2 ^ sh by exact_mod_cast h]
        rw [one, mul_div_assoc] at this
        simp only [zpow_zero, mul_one]
        linarith
      · have := half (show (2 * rem : ℝ) < 2 ^ sh by exact_mod_cast h)
        rw [one, mul_div_assoc] at this
        simp only [zpow_zero, mul_one]
        linarith

section
variable {rm : Rm} {neg : Bool} {X : ℝ} {hi : Nat} {up inexact : Bool} (h : Steered rm neg X 0 hi up inexact)
include h

omit h in
/-- An integer, seen with a sign, is at most the cut or at least the next. -/
theorem int_outside (z : Int) : withSign neg (z : ℝ) ≤ hi ∨ (hi : ℝ) + 1 ≤ withSign neg (z : ℝ) := by
  obtain ⟨w, hw⟩ := withSign_int neg z
  rw [hw]
  rcases le_or_gt w (hi : Int) with hl | hl
  · exact .inl (by exact_mod_cast hl)
  · exact .inr (by exact_mod_cast hl)

theorem steered_int_between (z : Int) : ¬ (withSign neg X < z ∧ (z : ℝ) < withSign neg (mantOf hi up))
    ∧ ¬ (withSign neg (mantOf hi up) < z ∧ (z : ℝ) < withSign neg X) := by
  have hlow := h.low
  have hhigh := h.high
  have hv := steered_value h
  simp only [zpow_zero, mul_one] at hlow hhigh hv
  have hz := int_outside (neg := neg) (hi := hi) z
  rw [hv]
  unfold withSign at hz ⊢
  cases neg <;> cases up <;> simp only [Bool.false_eq_true, if_false, if_true] at hz ⊢ <;>
    rcases hz with hs | hs <;> constructor <;> rintro ⟨h1, h2⟩ <;> linarith

theorem steered_int_exact : inexact = false ↔ withSign neg (mantOf hi up) = withSign neg X := by
  have hex := h.exact
  have hhigh := h.high
  have hv := steered_value h
  simp only [zpow_zero, mul_one] at hex hhigh hv
  rw [withSign_inj, hex, hv]
  cases hup : up with
  | false => exact eq_comm
  | true =>
    have hi' := h.rises hup
    rw [if_pos rfl]
    exact iff_of_false (fun he => by rw [hex.2 he] at hi'; cases hi') (by linarith)

theorem steered_int_sides : (rm = .rtz → |withSign neg (mantOf hi up)| ≤ |withSign neg X|) ∧ (rm = .rdn → withSign neg (mantOf hi up) ≤ withSign neg X)
    ∧ (rm = .rup → withSign neg X ≤ withSign neg (mantOf hi up)) := by
  have hlow := h.low
  have hhigh := h.high
  have hex := h.exact
  have hv := steered_value h
  simp only [zpow_zero, mul_one] at hlow hhigh hex hv
  have hX : 0 ≤ X := (Nat.cast_nonneg hi).trans hlow
  refine ⟨fun hrm => ?_, fun hrm => ?_, fun hrm => ?_⟩
  · rw [abs_withSign neg (Nat.cast_nonneg _), abs_withSign neg hX, hv, h.rtz hrm, if_neg Bool.false_ne_true]
    exact hlow
  · rw [hv, h.rdn hrm]
    unfold withSign
    cases neg
    · exact hlow
    · cases hin : inexact with
      | false => exact neg_le_neg (hex.1 hin).le
      | true => exact neg_le_neg hhigh.le
  · rw [hv, h.rup hrm]
    unfold withSign
    cases neg
    · cases hin : inexact with
      | false => exact (hex.1 hin).le
      | true => exact hhigh.le
    · exact neg_le_neg hlow

theorem steered_int_nearest (hrm : rm = .rne) (z : Int) :
    |withSign neg (mantOf hi up) - withSign neg X| ≤ |(z : ℝ) - withSign neg X|
      ∧ ((z : ℝ) ≠ withSign neg (mantOf hi up) → |(z : ℝ) - withSign neg X| = |withSign neg (mantOf hi up) - withSign neg X| → mantOf hi up % 2 = 0) := by
  have hlow := h.low
  have hhigh := h.high
  have hv := steered_value h
  have hbelow := h.below hrm
  have habove := h.above hrm
  simp only [zpow_zero, mul_one] at hlow hhigh hv hbelow habove
  have hZ := int_outside (neg := neg) (hi := hi) z
  have hne : (z : ℝ) ≠ withSign neg (mantOf hi up) → withSign neg (z : ℝ) ≠ mantOf hi up := fun hn he => hn (by rw [← he, withSign_withSign])
  rw [withSign_dist, withSign_dist neg X z, withSign_withSign]
  generalize withSign neg (z : ℝ) = Z at hZ hne
  rw [hv] at hne ⊢
  unfold mantOf
  cases hup : up with
  | false =>
    obtain ⟨hnear, htie⟩ := hbelow hup
    simp only [hup, Bool.false_eq_true, if_false] at hne ⊢
    rw [abs_sub_comm, abs_of_nonneg (show 0 ≤ X - (hi : ℝ) by linarith)]
    rcases hZ with hZ | hZ
    · rw [abs_sub_comm Z, abs_of_nonneg (show 0 ≤ X - Z by linarith)]
      exact ⟨by linarith, fun h1 h2 => absurd (by linarith) (hne h1)⟩
    · rw [abs_of_nonneg (show 0 ≤ Z - X by linarith)]
      exact ⟨by linarith, fun _ h2 => htie (by linarith)⟩
  | true =>
    obtain ⟨hnear, htie⟩ := habove hup
    simp only [hup, if_true] at hne ⊢
    rw [abs_of_nonneg (show 0 ≤ (hi : ℝ) + 1 - X by linarith)]
    rcases hZ with hZ | hZ
    · rw [abs_sub_comm Z, abs_of_nonneg (show 0 ≤ X - Z by linarith)]
      exact ⟨by linarith, fun _ h2 => by have := htie (by linarith); omega⟩
    · rw [abs_of_nonneg (show 0 ≤ Z - X by linarith)]
      exact ⟨by linarith, fun h1 h2 => absurd (by linarith) (hne h1)⟩
end

/-- R77, R79: what is rounded to an integer. -/
theorem roundingToInteger : RoundingToInteger := by
  intro rm neg m e r x
  obtain ⟨hi, up, hr, h⟩ := roundToInt_steered rm neg m e
  have hx : ((x : ℚ) : ℝ) = withSign neg ((m : ℝ) * 2 ^ e) := ratOf_real neg m e
  have hy : ((r.1 : Int) : ℝ) = withSign neg (mantOf hi up) := by
    rw [show r.1 = signedInt neg (mantOf hi up) from hr, signedInt_real]
    rfl
  have hpar : r.1 % 2 = 0 ↔ mantOf hi up % 2 = 0 := by
    rw [show r.1 = signedInt neg (mantOf hi up) from hr]
    exact signedInt_parity neg _
  have hexact := steered_int_exact h
  have hbetween := steered_int_between h
  obtain ⟨hz, hd, hu⟩ := steered_int_sides h
  have hnear := steered_int_nearest h
  rw [← hx, ← hy] at hexact hbetween hz hd hu hnear
  refine ⟨?_, fun z => ?_, ?_, ?_, ?_, fun hrm z => ?_⟩
  · exact_mod_cast hexact
  · exact_mod_cast hbetween z
  · exact_mod_cast hz
  · exact_mod_cast hd
  · exact_mod_cast hu
  · rw [hpar]
    exact_mod_cast hnear hrm z
end Sys2Proof.Machine
end

section
/-!
SUPPORT. Exact sums and products, and the order of values (R76, R80, R180, R181, R183).
-/

namespace Sys2Proof.Machine

/-! ## Exact sums and products (R76, R180, R181) -/

/-- A finite value is an integer multiple of every smaller power of two. -/
theorem ratOf_shift (n : Bool) (m : Nat) {e q : Int} (h : q ≤ e) :
    ratOf n m e = (signedInt n ((m * 2 ^ (e - q).toNat : Nat) : Int) : ℚ) * 2 ^ q := by
  have he : (2 : ℚ) ^ e = 2 ^ (e - q).toNat * 2 ^ q := by
    rw [← zpow_natCast, ← zpow_add₀ (by norm_num)]
    congr 1
    omega
  unfold ratOf signedInt
  rw [he]
  cases n <;> push_cast <;> simp <;> ring

theorem ratOf_int (x e : Int) : ratOf (decide (x < 0)) x.natAbs e = (x : ℚ) * 2 ^ e := by
  unfold ratOf
  by_cases h : x < 0
  · obtain ⟨k, rfl⟩ : ∃ k : Nat, x = -(k : Int) := ⟨x.natAbs, by omega⟩
    rw [decide_eq_true h, Int.natAbs_neg, Int.natAbs_natCast]
    push_cast
    rw [if_pos rfl]
    ring
  · obtain ⟨k, rfl⟩ : ∃ k : Nat, x = (k : Int) := ⟨x.natAbs, by omega⟩
    rw [decide_eq_false h, Int.natAbs_natCast, if_neg Bool.false_ne_true]
    push_cast
    ring

theorem ratOf_zero (n : Bool) (e : Int) : ratOf n 0 e = 0 := by
  simp [ratOf]

/-- The sum of two finite values is exact; the sign of a sum that is zero follows R76. -/
theorem finAdd_exact (rm : Rm) (na : Bool) (ma : Nat) (ea : Int) (nb : Bool) (mb : Nat) (eb : Int) :
    ∃ n m e, finAdd rm na ma ea nb mb eb = .fin n m e ∧ ratOf n m e = ratOf na ma ea + ratOf nb mb eb
      ∧ (m = 0 → n = if na = nb then na else rm == .rdn) := by
  have hsum : ratOf na ma ea + ratOf nb mb eb
      = ((signedInt na ((ma * 2 ^ (ea - min ea eb).toNat : Nat) : Int) + signedInt nb ((mb * 2 ^ (eb - min ea eb).toNat : Nat) : Int) : Int) : ℚ)
        * 2 ^ min ea eb := by
    rw [ratOf_shift na ma (min_le_left ea eb), ratOf_shift nb mb (min_le_right ea eb), Int.cast_add]
    ring
  rw [hsum]
  have hdef : finAdd rm na ma ea nb mb eb = if signedInt na ((ma * 2 ^ (ea - min ea eb).toNat : Nat) : Int)
      + signedInt nb ((mb * 2 ^ (eb - min ea eb).toNat : Nat) : Int) = 0 then .fin (if na = nb then na else rm == .rdn) 0 (min ea eb)
      else .fin (decide (signedInt na ((ma * 2 ^ (ea - min ea eb).toNat : Nat) : Int)
        + signedInt nb ((mb * 2 ^ (eb - min ea eb).toNat : Nat) : Int) < 0)) (signedInt na ((ma * 2 ^ (ea - min ea eb).toNat : Nat) : Int)
        + signedInt nb ((mb * 2 ^ (eb - min ea eb).toNat : Nat) : Int)).natAbs (min ea eb) := rfl
  rw [hdef]
  generalize signedInt na _ + signedInt nb _ = x
  by_cases hx : x = 0
  · refine ⟨_, _, _, if_pos hx, ?_, fun _ => rfl⟩
    rw [hx, ratOf_zero, Int.cast_zero, zero_mul]
  · exact ⟨_, _, _, if_neg hx, ratOf_int x _, fun hm => absurd (Int.natAbs_eq_zero.1 hm) hx⟩

theorem exAdd_fin (rm : Rm) (na nb : Bool) (ma mb : Nat) (ea eb : Int) :
    exAdd rm (.fin na ma ea) (.fin nb mb eb) = ⟨finAdd rm na ma ea nb mb eb, 0⟩ := by
  simp [exAdd, snan]

theorem exMul_fin (na nb : Bool) (ma mb : Nat) (ea eb : Int) : exMul (.fin na ma ea) (.fin nb mb eb) = ⟨.fin (na != nb) (ma * mb) (ea + eb), 0⟩ := by
  simp [exMul, snan]

theorem ratOf_mul (na nb : Bool) (ma mb : Nat) (ea eb : Int) : ratOf (na != nb) (ma * mb) (ea + eb) = ratOf na ma ea * ratOf nb mb eb := by
  unfold ratOf
  rw [zpow_add₀ (by norm_num)]
  cases na <;> cases nb <;> push_cast <;> simp <;> ring

theorem ratOf_neg (n : Bool) (m : Nat) (e : Int) : ratOf (!n) m e = -ratOf n m e := by
  unfold ratOf
  cases n <;> simp

/-- R76, R180, R181: what is exact before it is rounded. -/
theorem exactBeforeRounding : ExactBeforeRounding := by
  intro rm na nb nc ma mb mc ea eb ec a b c
  have hadd (na : Bool) (ma : Nat) (ea : Int) (nb : Bool) (mb : Nat) (eb : Int) :
      ∃ n m e, exAdd rm (.fin na ma ea) (.fin nb mb eb) = ⟨.fin n m e, 0⟩ ∧ ratOf n m e = ratOf na ma ea + ratOf nb mb eb
        ∧ (m = 0 → n = if na = nb then na else rm == .rdn) := by
    obtain ⟨n, m, e, h, hsum, hz⟩ := finAdd_exact rm na ma ea nb mb eb
    exact ⟨n, m, e, (exAdd_fin ..).trans (congrArg (Exact.mk · 0) h), hsum, hz⟩
  refine ⟨hadd .., ?_, ⟨_, _, _, exMul_fin .., ratOf_mul .., rfl⟩, ?_⟩
  · obtain ⟨n, m, e, h, hsum, hz⟩ := hadd na ma ea (!nb) mb eb
    rw [ratOf_neg, ← sub_eq_add_neg] at hsum
    exact ⟨n, m, e, h, hsum, hz⟩
  · obtain ⟨n, m, e, h, hsum, hz⟩ := hadd (na != nb) (ma * mb) (ea + eb) nc mc ec
    rw [ratOf_mul] at hsum
    refine ⟨n, m, e, ?_, hsum, fun hm => (hz hm).trans ?_⟩
    · unfold exFma
      dsimp only
      rw [exMul_fin, show exAdd rm _ c = _ from h]
      exact congrArg (Exact.mk (.fin n m e)) (by decide : (0 : Flags) ||| 0 = 0)
    · by_cases hs : (na != nb) = nc
      · rw [if_pos hs, if_pos hs, hs]
      · rw [if_neg hs, if_neg hs]

/-! ## The order (R80, R183) -/

theorem finLt_iff (na : Bool) (ma : Nat) (ea : Int) (nb : Bool) (mb : Nat) (eb : Int) :
    finLt na ma ea nb mb eb = true ↔ ratOf na ma ea < ratOf nb mb eb := by
  rw [ratOf_shift na ma (min_le_left ea eb), ratOf_shift nb mb (min_le_right ea eb),
    mul_lt_mul_iff_of_pos_right (show (0 : ℚ) < 2 ^ min ea eb by positivity), Int.cast_lt]
  exact decide_eq_true_iff

theorem lt_iff (a b : Fv) : a.lt b = true ↔ a.isNan = false ∧ b.isNan = false ∧ realOf a < realOf b := by
  cases a with
  | nan s => exact iff_of_false Bool.false_ne_true fun h => nomatch h.1
  | inf x =>
    cases b with
    | nan s => exact iff_of_false (by cases x <;> exact Bool.false_ne_true) fun h => nomatch h.2.1
    | inf y => cases x <;> cases y <;> simp [Fv.lt, Fv.isNan, realOf]
    | fin n m e => cases x <;> simp [Fv.lt, Fv.isNan, realOf, EReal.bot_lt_coe]
  | fin n m e =>
    cases b with
    | nan s => exact iff_of_false Bool.false_ne_true fun h => nomatch h.2.1
    | inf y => cases y <;> simp [Fv.lt, Fv.isNan, realOf, EReal.coe_lt_top]
    | fin k l d =>
      change finLt n m e k l d = true ↔ _
      rw [finLt_iff]
      simp [Fv.isNan, realOf]

theorem isZero_real {a : Fv} (h : a.isZero = true) : realOf a = 0 := by
  cases a with
  | nan s => exact absurd h Bool.false_ne_true
  | inf n => exact absurd h Bool.false_ne_true
  | fin n m e =>
    cases m with
    | zero => simp [realOf, ratOf_zero]
    | succ m => exact absurd h Bool.false_ne_true

/-- A value that is not before another is not below it; one before another is not above it. -/
theorem before_real {a b : Fv} (ha : a.isNan = false) (hb : b.isNan = false) :
    (a.before b = true → realOf a ≤ realOf b) ∧ (a.before b = false → realOf b ≤ realOf a) := by
  unfold Fv.before
  constructor
  · intro h
    rcases Bool.or_eq_true_iff.1 h with h | h
    · exact ((lt_iff a b).1 h).2.2.le
    · simp only [Bool.and_eq_true] at h
      obtain ⟨⟨⟨hza, hzb⟩, -⟩, -⟩ := h
      rw [isZero_real hza, isZero_real hzb]
  · intro h
    have hlt := (Bool.or_eq_false_iff.1 h).1
    by_contra hn
    rw [(lt_iff a b).2 ⟨ha, hb, not_le.1 hn⟩] at hlt
    cases hlt

theorem zero_not_lt {a b : Fv} (ha : a.isZero = true) (hb : b.isZero = true) : a.lt b = false := by
  by_contra h
  have := ((lt_iff a b).1 (eq_true_of_ne_false h)).2.2
  rw [isZero_real ha, isZero_real hb] at this
  exact lt_irrefl _ this

theorem before_zeros {a b : Fv} (ha : a.isZero = true) (hb : b.isZero = true) : a.before b = (a.sign && !b.sign) := by
  rw [Fv.before, zero_not_lt ha hb, ha, hb]
  simp

theorem signalled_eq (a b : Fv) : snan a ||| snan b = signalled [a, b] := by
  have hs (v : Fv) : snan v = if v = .nan true then 1 else 0 := by
    cases v with
    | nan s => cases s <;> rfl
    | _ => rfl
  rw [hs, hs]
  unfold signalled
  by_cases ha : a = .nan true
  · have hm : Fv.nan true ∈ [a, b] := by rw [ha]; exact List.mem_cons_self
    rw [if_pos ha, if_pos hm]
    split <;> rfl
  · rw [if_neg ha]
    by_cases hb : b = .nan true
    · have hm : Fv.nan true ∈ [a, b] := by rw [hb]; exact List.mem_cons_of_mem _ List.mem_cons_self
      rw [if_pos hb, if_pos hm]
      rfl
    · have hm : Fv.nan true ∉ [a, b] := by
        simp only [List.mem_cons, List.not_mem_nil, or_false, not_or]
        exact ⟨Ne.symm ha, Ne.symm hb⟩
      rw [if_neg hb, if_neg hm]
      rfl

/-- R80, R183. -/
theorem orderMinimaMaxima : OrderMinimaMaxima := by
  refine ⟨lt_iff, fun f _ x y most => ?_⟩
  intro a b r
  have hr : r = if a.isNan && b.isNan then (f.nanBits, snan a ||| snan b) else if a.isNan then (y, snan a ||| snan b)
      else if b.isNan then (x, snan a ||| snan b) else if (if most then a.before b else b.before a) then (y, snan a ||| snan b) else (x, snan a ||| snan b) := rfl
  refine ⟨?_, fun ha hb => ?_, fun ha hb => ?_, fun ha hb => ?_, fun ha hb => ?_⟩
  · rw [hr, ← signalled_eq]
    split_ifs <;> rfl
  · rw [hr, ha, hb]; rfl
  · rw [hr, ha, hb]; rfl
  · rw [hr, ha, hb]; rfl
  · have hr' : r.1 = if (if most then a.before b else b.before a) then y else x := by
      rw [hr, ha, hb]
      simp only [Bool.and_self, Bool.false_eq_true, if_false]
      split_ifs <;> rfl
    have hab := before_real ha hb
    have hba := before_real hb ha
    rw [hr']
    refine ⟨?_, ?_, fun hza hzb hs => ?_⟩
    · exact (ite_eq_or_eq _ y x).symm
    · cases most with
      | true =>
        simp only [if_true]
        cases hc : a.before b with
        | true => exact (max_eq_right (hab.1 hc)).symm
        | false => exact (max_eq_left (hab.2 hc)).symm
      | false =>
        simp only [Bool.false_eq_true, if_false]
        cases hc : b.before a with
        | true => exact (min_eq_right (hba.1 hc)).symm
        | false => exact (min_eq_left (hba.2 hc)).symm
    · rw [before_zeros hza hzb, before_zeros hzb hza]
      change (f.unpack x).sign ≠ (f.unpack y).sign at hs
      change (f.unpack (if (if most = true then (f.unpack x).sign && !(f.unpack y).sign else (f.unpack y).sign && !(f.unpack x).sign) = true then y else x)).sign = _
      cases hx : (f.unpack x).sign <;> cases hy : (f.unpack y).sign <;> cases most <;> simp_all
end Sys2Proof.Machine
end

section
/-!
SUPPORT. What NaN, infinity and zero operands give, and what becomes of them in each format (R68, R69, R71, R78, R180 to R182).
-/

namespace Sys2Proof.Machine

/-! ## NaN and infinity in each format -/

section
variable (f : Fmt) (rm : Rm) (sat q n : Bool) (fl : Flags)

theorem deliver_nan : f.deliver rm sat ⟨.nan q, fl⟩ = (f.nanBits, if f.special = .none then fl ||| flagNv else fl) := by
  by_cases h : f.special = .none
  · rw [if_pos h, Fmt.deliver, h]
    rfl
  · rw [if_neg h, Fmt.deliver, beq_false_of_ne h]
    exact congrArg (f.nanBits, ·) (BitVec.or_zero)

theorem deliver_inf_ieee (h : f.special = .ieee) : f.deliver rm sat ⟨.inf n, fl⟩ = (f.infBits n, fl) := by
  simp only [Fmt.deliver, h]

theorem deliver_inf_oneNan (h : f.special = .oneNan) : f.deliver rm sat ⟨.inf n, fl⟩
    = if sat then (f.maxBits n, fl ||| flagSat) else (f.nanBits, fl ||| flagNv) := by
  simp only [Fmt.deliver, h]

theorem deliver_inf_none (h : f.special = .none) : f.deliver rm sat ⟨.inf n, fl⟩ = (f.maxBits n, fl ||| flagSat) := by
  simp only [Fmt.deliver, h]
end

/-- R68, R69, R71, R78. -/
theorem specialResults : SpecialResults := by
  intro rm sat q n fl sign
  refine ⟨fun p hp => ?_, ?_, ?_, fun p hp => ?_⟩
  · simp only [List.mem_cons, List.not_mem_nil, or_false] at hp
    obtain rfl | rfl | rfl | rfl | rfl := hp <;> rw [deliver_nan, deliver_inf_ieee _ _ _ _ _ rfl] <;> cases n <;> exact ⟨rfl, rfl⟩
  · rw [deliver_nan]
    rfl
  · rw [deliver_inf_oneNan _ _ _ _ _ rfl]
    cases n <;> rfl
  · simp only [List.mem_cons, List.not_mem_nil, or_false] at hp
    obtain rfl | rfl | rfl := hp <;> rw [deliver_nan, deliver_inf_none _ _ _ _ _ rfl] <;> cases n <;> exact ⟨rfl, rfl⟩

/-! ## NaN, infinity and zero operands -/

section
variable (rm : Rm) (a b c : Fv)

theorem exAdd_nan (h : a.isNan = true ∨ b.isNan = true) : exAdd rm a b = ⟨.nan false, signalled [a, b]⟩ := by
  rw [← signalled_eq]
  cases a with
  | nan s => rfl
  | inf x =>
    cases b with
    | nan s => rfl
    | _ => simp [Fv.isNan] at h
  | fin n m e =>
    cases b with
    | nan s => rfl
    | _ => simp [Fv.isNan] at h

theorem neg_isNan : b.neg.isNan = b.isNan := by cases b <;> rfl

theorem snan_neg : snan b.neg = snan b := by cases b <;> rfl

theorem exSub_nan (h : a.isNan = true ∨ b.isNan = true) : exSub rm a b = ⟨.nan false, signalled [a, b]⟩ := by
  rw [exSub, exAdd_nan rm a b.neg (by rwa [neg_isNan]), ← signalled_eq, ← signalled_eq, snan_neg]

theorem exMul_nan (h : a.isNan = true ∨ b.isNan = true) : exMul a b = ⟨.nan false, signalled [a, b]⟩ := by
  rw [← signalled_eq]
  cases a with
  | nan s => rfl
  | inf x =>
    cases b with
    | nan s => rfl
    | _ => simp [Fv.isNan] at h
  | fin n m e =>
    cases b with
    | nan s => rfl
    | _ => simp [Fv.isNan] at h

theorem exDiv_nan (h : a.isNan = true ∨ b.isNan = true) : exDiv a b = ⟨.nan false, signalled [a, b]⟩ := by
  rw [← signalled_eq]
  cases a with
  | nan s => rfl
  | inf x =>
    cases b with
    | nan s => rfl
    | _ => simp [Fv.isNan] at h
  | fin n m e =>
    cases b with
    | nan s => rfl
    | _ => simp [Fv.isNan] at h

/-- An infinity by a zero. -/
def BadMul (x y : Fv) : Prop := (∃ n, x = .inf n) ∧ y.isZero = true ∨ x.isZero = true ∧ ∃ n, y = .inf n

theorem flags_none : (0 : Flags) ||| 0 = 0 := by decide

theorem isZero_iff : a.isZero = true ↔ ∃ n e, a = .fin n 0 e := by
  constructor
  · intro h
    cases a with
    | nan s => exact absurd h Bool.false_ne_true
    | inf n => exact absurd h Bool.false_ne_true
    | fin n m e =>
      cases m with
      | zero => exact ⟨n, e, rfl⟩
      | succ m => exact absurd h Bool.false_ne_true
  · rintro ⟨n, e, rfl⟩
    rfl

theorem exMul_inf_left (n : Bool) (h : b.isNan = false) : exMul (.inf n) b = if b.isZero then ⟨.nan false, 1⟩ else ⟨.inf (n != b.sign), 0⟩ := by
  cases b with
  | nan s => cases h
  | inf k => simp only [exMul, Fv.isZero, snan, Bool.false_eq_true, if_false, flags_none, Fv.sign]
  | fin k m e =>
    cases m with
    | zero => simp only [exMul, Fv.isZero, snan, if_true]; rfl
    | succ m => simp only [exMul, Fv.isZero, snan, Bool.false_eq_true, if_false, flags_none, Fv.sign]

theorem exMul_inf_right (n : Bool) (h : a.isNan = false) : exMul a (.inf n) = if a.isZero then ⟨.nan false, 1⟩ else ⟨.inf (a.sign != n), 0⟩ := by
  cases a with
  | nan s => cases h
  | inf k => simp only [exMul, Fv.isZero, snan, Bool.false_eq_true, if_false, flags_none, Fv.sign]
  | fin k m e =>
    cases m with
    | zero => simp only [exMul, Fv.isZero, snan, if_true]; rfl
    | succ m => simp only [exMul, Fv.isZero, snan, Bool.false_eq_true, if_false, flags_none, Fv.sign]

theorem isNan_of_isZero {a : Fv} (h : a.isZero = true) : a.isNan = false := by
  cases a with
  | nan s => cases h
  | _ => rfl

theorem exMul_bad (h : BadMul a b) : exMul a b = ⟨.nan false, 1⟩ := by
  rcases h with ⟨⟨n, rfl⟩, hz⟩ | ⟨hz, n, rfl⟩
  · rw [exMul_inf_left b n (isNan_of_isZero hz), if_pos hz]
  · rw [exMul_inf_right a n (isNan_of_isZero hz), if_pos hz]

theorem exAdd_quiet : exAdd rm (.nan false) c = ⟨.nan false, signalled [c]⟩ := by
  rw [exAdd_nan rm _ _ (.inl rfl)]
  simp [signalled]

theorem exFma_bad (h : BadMul a b) : exFma rm a b c = ⟨.nan false, 1⟩ := by
  unfold exFma
  dsimp only
  rw [exMul_bad a b h, exAdd_quiet]
  unfold signalled
  split <;> rfl

/-- A product without NaN or infinity by zero raises nothing and is no NaN. -/
theorem exMul_plain (ha : a.isNan = false) (hb : b.isNan = false) (h : ¬ BadMul a b) : (exMul a b).flags = 0 ∧ (exMul a b).v.isNan = false := by
  cases a with
  | nan s => cases ha
  | inf n =>
    have hz : ¬ b.isZero = true := fun hz => h (.inl ⟨⟨n, rfl⟩, hz⟩)
    rw [exMul_inf_left b n hb, if_neg hz]
    exact ⟨rfl, rfl⟩
  | fin n m e =>
    cases b with
    | nan s => cases hb
    | inf k =>
      have hz : ¬ (Fv.fin n m e).isZero = true := fun hz => h (.inr ⟨hz, k, rfl⟩)
      rw [exMul_inf_right _ k rfl, if_neg hz]
      exact ⟨rfl, rfl⟩
    | fin k l d =>
      rw [exMul_fin]
      exact ⟨rfl, rfl⟩

theorem exFma_nan (h : a.isNan = true ∨ b.isNan = true ∨ c.isNan = true) (hbad : ¬ BadMul a b) :
    exFma rm a b c = ⟨.nan false, signalled [a, b, c]⟩ := by
  have hall : signalled [a, b, c] = signalled [a, b] ||| signalled [c] := by
    unfold signalled
    by_cases hab : .nan true ∈ [a, b]
    · rw [if_pos (by simp only [List.mem_cons] at hab ⊢; tauto), if_pos hab]
      split <;> rfl
    · rw [if_neg hab]
      by_cases hc : Fv.nan true ∈ [c]
      · rw [if_pos (by simp only [List.mem_cons] at hc ⊢; tauto), if_pos hc]
        rfl
      · rw [if_neg (by simp only [List.mem_cons] at hab hc ⊢; tauto), if_neg hc]
        rfl
  unfold exFma
  dsimp only
  rw [hall]
  by_cases hab : a.isNan = true ∨ b.isNan = true
  · rw [exMul_nan a b hab, exAdd_quiet]
  · have ⟨ha, hb⟩ : a.isNan = false ∧ b.isNan = false := by simpa using hab
    obtain ⟨hfl, hv⟩ := exMul_plain a b ha hb hbad
    have hc : c.isNan = true := by simpa [ha, hb] using h
    rw [exAdd_nan rm _ c (.inr hc), hfl]
    have hs (v : Fv) (hv : v.isNan = false) (l : List Fv) : signalled (v :: l) = signalled l := by
      unfold signalled
      have : Fv.nan true ≠ v := by
        rintro rfl
        cases hv
      simp [this]
    rw [hs a ha, hs b hb, hs _ hv]
    rfl

/-- An infinite product and an addend. -/
theorem exFma_product {v : Fv} (h : (exMul a b).v = v) (hv : v.isNan = false) : exFma rm a b c = exAdd rm v c := by
  have hab : a.isNan = false ∧ b.isNan = false := by
    by_contra hn
    have : a.isNan = true ∨ b.isNan = true := by
      cases ha : a.isNan <;> cases hb : b.isNan <;> simp_all
    rw [exMul_nan a b this] at h
    rw [← h] at hv
    cases hv
  have hbad : ¬ BadMul a b := fun hbad => by
    rw [exMul_bad a b hbad] at h
    rw [← h] at hv
    cases hv
  unfold exFma
  dsimp only
  rw [(exMul_plain a b hab.1 hab.2 hbad).1, h]
  exact congrArg (Exact.mk _) BitVec.zero_or
end

theorem signalled_nan {a : Fv} (h : a.isNan = true) : exSqrt a = ⟨.nan false, signalled [a]⟩ := by
  cases a with
  | nan s => cases s <;> rfl
  | _ => cases h

/-- R69, R90, R180 to R182. -/
theorem specialOperands : SpecialOperands := by
  intro rm a b c nan inf badMul
  refine ⟨fun h => ⟨exAdd_nan rm a b h, exSub_nan rm a b h, exMul_nan a b h, exDiv_nan a b h⟩, fun n => ?_, fun h => ⟨exMul_bad a b h, exFma_bad rm a b c h⟩,
    fun n k => ?_, fun h hb => exFma_nan rm a b c h hb, fun n h => ?_, fun k m e n h => ?_, fun n k => ?_, signalled_nan, rfl, rfl, fun m e hm => ?_,
    fun n e => ⟨rfl, rfl, rfl⟩⟩
  · cases n <;> exact ⟨rfl, rfl, rfl, rfl, fun k m e => by simp [exSub, Fv.neg, exAdd, snan, inf]⟩
  · refine ⟨exMul_inf_left _ n rfl, fun m e hm => ?_⟩
    have hz : ¬ (Fv.fin k m e).isZero = true := fun hz => by
      obtain ⟨_, _, he⟩ := (isZero_iff _).1 hz
      cases he
      exact hm rfl
    exact ⟨(exMul_inf_left _ n rfl).trans (if_neg hz), (exMul_inf_right _ n rfl).trans (if_neg hz)⟩
  · simp only [exFma_product rm a b _ h rfl]
    cases n <;> exact ⟨rfl, rfl, fun _ _ _ => by simp [exAdd, snan, inf]⟩
  · rw [exFma_product rm a b _ h rfl]
    simp [exAdd, snan, inf]
  · refine ⟨by simp [exDiv, snan, invalid, nan]; rfl, fun m e => ⟨by simp [exDiv, snan, inf], by simp [exDiv, snan], rfl, rfl, fun d => ?_⟩⟩
    simp only [exDiv, snan, if_true, flags_none]
    by_cases hm : m = 0
    · rw [if_pos hm, if_pos hm]; rfl
    · rw [if_neg hm, if_neg hm]; rfl
  · simp only [exSqrt, if_neg hm, if_true]
    rfl
end Sys2Proof.Machine
end

section
/-!
SUPPORT. Quotients and square roots, kept to more bits than any format has (R180, R182).
-/

namespace Sys2Proof.Machine

/-! ## The integer square root -/

theorem isqrt_spec (n : Nat) : ∀ i r, r * r ≤ n → n < (r + 2 ^ (i + 1)) * (r + 2 ^ (i + 1)) →
    isqrt n i r * isqrt n i r ≤ n ∧ n < (isqrt n i r + 1) * (isqrt n i r + 1)
  | 0, r, h1, h2 => by
    unfold isqrt
    split
    · next h => exact ⟨h, h2⟩
    · next h => exact ⟨h1, Nat.not_le.1 h⟩
  | i + 1, r, h1, h2 => by
    rw [isqrt]
    split
    · next h =>
      refine isqrt_spec n i _ h ?_
      rwa [Nat.add_assoc, ← Nat.two_mul, ← Nat.pow_succ']
    · next h => exact isqrt_spec n i _ h1 (Nat.not_le.1 h)

theorem isqrt_sqrt (n : Nat) : isqrt n (bitLen n / 2 + 1) 0 = Nat.sqrt n := by
  obtain ⟨h1, h2⟩ := isqrt_spec n (bitLen n / 2 + 1) 0 (Nat.zero_le n) (by
    rw [Nat.zero_add, ← Nat.pow_add]
    exact (lt_two_pow_bitLen n).trans_le (Nat.pow_le_pow_right (by norm_num) (by omega)))
  exact (Nat.eq_sqrt.2 ⟨h1, h2⟩)

/-! ## Values kept with a bit for the rest -/

/-- A number kept as twice its whole part, with the lowest bit set where a rest remains. -/
def kept (exact : Prop) [Decidable exact] (q : Nat) : Nat :=
  if exact then 2 * q else 2 * q + 1

/-- No format of R63 has more mantissa bits than F64. -/
theorem mant_le {f : Fmt} (h : f ∈ floatFormats) : f.mb ≤ 52 := by
  simp only [floatFormats, List.mem_cons, List.not_mem_nil, or_false] at h
  rcases h with rfl | rfl | rfl | rfl | rfl | rfl | rfl | rfl | rfl <;> decide

section
variable {f : Fmt} (hin : f ∈ floatFormats)
include hin

/-- Kept to 60 bits and the lowest one, it is known in every format. -/
theorem known_kept {exact : Prop} [Decidable exact] {q : Nat} {e : Int} {X : ℝ} (hq : exact ∨ 2 ^ 60 ≤ q) (heq : exact → X = (q : ℝ) * 2 ^ (e + 1))
    (hlow : ¬ exact → (q : ℝ) * 2 ^ (e + 1) < X) (hhigh : ¬ exact → X < ((q : ℝ) + 1) * 2 ^ (e + 1)) : Known f X (kept exact q) e := by
  have hpow : (2 : ℝ) ^ (e + 1) = 2 * 2 ^ e := by rw [zpow_add₀ (by norm_num), zpow_one, mul_comm]
  rw [hpow] at heq hlow hhigh
  unfold kept
  by_cases h : exact
  · rw [if_pos h]
    refine .inl ((heq h).trans ?_)
    push_cast
    ring
  · have hbits : 60 < bitLen (2 * q + 1) := by
      by_contra hn
      have h1 := lt_two_pow_bitLen (2 * q + 1)
      have h2 := Nat.pow_le_pow_right (n := 2) (by norm_num) (Nat.not_lt.1 hn)
      have := hq.resolve_left h
      omega
    have := mant_le hin
    rw [if_neg h]
    refine .inr ⟨by omega, ?_, ?_, ?_⟩
    · unfold Fmt.lowExp
      omega
    · have := hlow h
      push_cast
      linarith
    · have := hhigh h
      push_cast
      linarith

/-- A finite exact result is rounded once. -/
theorem deliver_known {rm : Rm} (sat neg : Bool) {X : ℝ} {m : Nat} {e : Int} (h : Known f X m e) :
    Rounded f rm (withSign neg X) (f.deliver rm sat ⟨.fin neg m e, 0⟩) := by
  have hd : f.deliver rm sat ⟨.fin neg m e, 0⟩ = f.round rm sat neg m e := by
    unfold Fmt.deliver
    dsimp only
    exact congrArg (Prod.mk _) BitVec.zero_or
  rw [hd]
  by_cases hm : m = 0
  · subst hm
    have hX : X = 0 := by
      rcases h with h | ⟨hodd, -⟩
      · rw [h, Nat.cast_zero, zero_mul]
      · cases hodd
    have hz : withSign neg X = 0 := by
      rw [hX]
      unfold withSign
      split <;> simp
    rw [hz]
    exact rounded_zero (fmtOk hin) rm sat neg e
  · exact round_known (fmtOk hin) rm sat neg hm h

/-! ## Quotients (R180) -/

omit hin in
theorem quotient_eq (ma mb : Nat) : quotient ma mb
    = (kept (ma * 2 ^ (70 + bitLen mb) % mb = 0) (ma * 2 ^ (70 + bitLen mb) / mb), -((70 + bitLen mb : Nat) + 1 : Int)) := rfl

omit hin in
theorem quotient_large {ma mb : Nat} (hma : ma ≠ 0) (hmb : mb ≠ 0) : 2 ^ 60 ≤ ma * 2 ^ (70 + bitLen mb) / mb := by
  rw [Nat.le_div_iff_mul_le (Nat.pos_of_ne_zero hmb)]
  have h1 := (lt_two_pow_bitLen mb).le
  calc 2 ^ 60 * mb ≤ 2 ^ 70 * 2 ^ bitLen mb := Nat.mul_le_mul (by norm_num) h1
    _ = 2 ^ (70 + bitLen mb) := (Nat.pow_add ..).symm
    _ ≤ ma * 2 ^ (70 + bitLen mb) := Nat.le_mul_of_pos_left _ (Nat.pos_of_ne_zero hma)

/-- The quotient of two magnitudes is known. -/
theorem known_quotient {ma mb : Nat} (ea eb : Int) (hmb : mb ≠ 0) :
    Known f ((ma : ℝ) * 2 ^ ea / ((mb : ℝ) * 2 ^ eb)) (quotient ma mb).1 (ea - eb + (quotient ma mb).2) := by
  rw [quotient_eq]
  generalize hk : 70 + bitLen mb = k
  have hmbR : (0 : ℝ) < mb := by exact_mod_cast Nat.pos_of_ne_zero hmb
  have hmod : (ma : ℝ) * 2 ^ k = mb * ((ma * 2 ^ k / mb : Nat) : ℝ) + ((ma * 2 ^ k % mb : Nat) : ℝ) := by
    exact_mod_cast (Nat.div_add_mod (ma * 2 ^ k) mb).symm
  have hlt : ((ma * 2 ^ k % mb : Nat) : ℝ) < mb := by exact_mod_cast Nat.mod_lt _ (Nat.pos_of_ne_zero hmb)
  have hlarge : ma * 2 ^ k % mb = 0 ∨ 2 ^ 60 ≤ ma * 2 ^ k / mb := by
    rcases Nat.eq_zero_or_pos ma with h | h
    · rw [h, Nat.zero_mul, Nat.zero_mod]
      exact .inl rfl
    · rw [← hk]
      exact .inr (quotient_large h.ne' hmb)
  have hX : (ma : ℝ) * 2 ^ ea / ((mb : ℝ) * 2 ^ eb) = (ma : ℝ) * 2 ^ k / mb * 2 ^ (ea - eb + -((k : Int) + 1) + 1) := by
    rw [show ea - eb + -((k : Int) + 1) + 1 = ea - eb - k by ring, zpow_sub₀ (by norm_num), zpow_sub₀ (by norm_num), zpow_natCast]
    field_simp
  rw [hX]
  have hu : (0 : ℝ) < 2 ^ (ea - eb + -((k : Int) + 1) + 1) := by positivity
  generalize ma * 2 ^ k / mb = q at hmod hlarge
  generalize ma * 2 ^ k % mb = rem at hmod hlt hlarge
  rw [hmod]
  refine known_kept hin hlarge (fun h => ?_) (fun h => ?_) fun h => ?_
  · rw [h, Nat.cast_zero, add_zero, mul_div_cancel_left₀ _ hmbR.ne']
  · refine mul_lt_mul_of_pos_right ?_ hu
    rw [lt_div_iff₀ hmbR]
    have : (0 : ℝ) < rem := by exact_mod_cast Nat.pos_of_ne_zero h
    linarith
  · refine mul_lt_mul_of_pos_right ?_ hu
    rw [div_lt_iff₀ hmbR]
    linarith

/-! ## Square roots (R182) -/

omit hin in
/-- The power of two a square root's operand is scaled by, so that the exponent left is even. -/
def rootScale (e : Int) : Nat := if e % 2 = 0 then 128 else 129

omit hin in
theorem exSqrt_eq {m : Nat} (hm : m ≠ 0) (e : Int) : exSqrt (.fin false m e)
    = ⟨.fin false (kept (Nat.sqrt (m * 2 ^ rootScale e) * Nat.sqrt (m * 2 ^ rootScale e) = m * 2 ^ rootScale e) (Nat.sqrt (m * 2 ^ rootScale e)))
      ((e - rootScale e) / 2 - 1), 0⟩ := by
  rw [← isqrt_sqrt]
  simp only [exSqrt, if_neg hm, Bool.false_eq_true, if_false]
  rfl

theorem known_root {m : Nat} (hm : m ≠ 0) (e : Int) : Known f (Real.sqrt ((m : ℝ) * 2 ^ e))
    (kept (Nat.sqrt (m * 2 ^ rootScale e) * Nat.sqrt (m * 2 ^ rootScale e) = m * 2 ^ rootScale e) (Nat.sqrt (m * 2 ^ rootScale e)))
    ((e - rootScale e) / 2 - 1) := by
  obtain ⟨d, hd⟩ : ∃ d : Int, e = rootScale e + 2 * d := ⟨(e - rootScale e) / 2, by unfold rootScale; split <;> omega⟩
  have hk : 128 ≤ rootScale e := by unfold rootScale; split <;> omega
  have hexp : (e - rootScale e) / 2 - 1 + 1 = d := by omega
  generalize rootScale e = k at hd hk hexp ⊢
  have hX : Real.sqrt ((m : ℝ) * 2 ^ e) = Real.sqrt ((m * 2 ^ k : Nat) : ℝ) * 2 ^ d := by
    rw [hd, zpow_add₀ (by norm_num), zpow_natCast, ← mul_assoc, mul_comm 2 d, zpow_mul, Real.sqrt_mul (by positivity)]
    norm_cast
    rw [Real.sqrt_sq (by positivity)]
  have hu : (0 : ℝ) < 2 ^ d := by positivity
  have hlow := Nat.sqrt_le (m * 2 ^ k)
  have hlarge : 2 ^ 60 ≤ Nat.sqrt (m * 2 ^ k) := by
    rw [Nat.le_sqrt]
    calc 2 ^ 60 * 2 ^ 60 ≤ 2 ^ 128 := by norm_num
      _ ≤ 2 ^ k := Nat.pow_le_pow_right (by norm_num) hk
      _ ≤ m * 2 ^ k := Nat.le_mul_of_pos_left _ (Nat.pos_of_ne_zero hm)
  have hsucc := Nat.lt_succ_sqrt (m * 2 ^ k)
  generalize m * 2 ^ k = x at hX hlow hlarge hsucc ⊢
  rw [hX]
  refine known_kept hin (.inr hlarge) (fun h => ?_) (fun h => ?_) fun h => ?_ <;> rw [hexp]
  · conv_lhs => rw [← h]
    rw [Nat.cast_mul, Real.sqrt_mul_self (Nat.cast_nonneg _)]
  · refine mul_lt_mul_of_pos_right ?_ hu
    rw [Real.lt_sqrt (Nat.cast_nonneg _), sq]
    exact_mod_cast lt_of_le_of_ne hlow h
  · refine mul_lt_mul_of_pos_right ?_ hu
    rw [Real.sqrt_lt' (by positivity), sq]
    exact_mod_cast hsucc

end

/-- R180, R182: quotients and square roots. -/
theorem quotientsAndRoots : QuotientsAndRoots := by
  intro f hf rm sat na nb ma mb ea eb
  refine ⟨fun hmb => ?_, fun hma => ?_⟩
  · have hdiv : exDiv (.fin na ma ea) (.fin nb mb eb) = ⟨.fin (na != nb) (quotient ma mb).1 (ea - eb + (quotient ma mb).2), 0⟩ := by
      simp only [exDiv, snan, flags_none, if_neg hmb]
    have hX : ((ratOf na ma ea / ratOf nb mb eb : ℚ) : ℝ) = withSign (na != nb) ((ma : ℝ) * 2 ^ ea / ((mb : ℝ) * 2 ^ eb)) := by
      rw [Rat.cast_div, ratOf_real, ratOf_real]
      unfold withSign
      cases na <;> cases nb <;> simp [neg_div, div_neg]
    rw [hdiv, hX]
    refine ⟨rfl, rfl, ?_⟩
    exact deliver_known hf sat _ (known_quotient hf ea eb hmb)
  · have hpos : ratOf false ma ea = (ma : ℝ) * 2 ^ ea := ratOf_real false ma ea
    rw [exSqrt_eq hma, hpos]
    exact ⟨rfl, deliver_known hf sat false (known_root hf hma ea)⟩
end Sys2Proof.Machine

open Sys2Proof Sys2Proof.Machine

/-- Settles O21: what is kept of an exact value and what is cut off decide the code, by mode. -/
theorem rounding : Obligations.Rounding :=
  ⟨roundingResults, roundingToInteger, exactBeforeRounding, quotientsAndRoots, specialResults⟩

end

section
/-!
SUPPORT. The scalar float instructions (R179 to R184).
-/

namespace Sys2Proof.Machine

/-! ## Results, flags and modes of the scalar forms -/

theorem scalarBits_eq (d : Bool) (x : Word) : scalarBits d x = x.toNat % 2 ^ (if d then 64 else 32) := by
  cases d
  · rfl
  · exact (Nat.mod_eq_of_lt x.isLt).symm

theorem rm_eq (t : Strand) : t.rm = fstatMode t := by
  have hc : (t.fstat.extractLsb' 0 2).toNat = t.fstat.toNat % 4 := by
    rw [BitVec.extractLsb'_toNat, Nat.shiftRight_zero]
  unfold Strand.rm Rm.ofCode fstatMode
  simp only [← BitVec.toNat_inj, hc]
  rfl

/-- A scalar float instruction that finds its registers ready writes its result and raises its flags. -/
theorem moves_of_float {i : Instr} {sd : SReg} {srcs : List SReg} {g x : Strand → Nat × Flags}
    (hi : ∀ s, exec i s = s.scalarFloat sd srcs g) (hx : ∀ t, g t = x t) : Moves i (sd :: srcs) (fun _ t => floatAfter sd (x t) t) := by
  rintro s t ⟨hc, hw⟩
  rw [hi, State.scalarFloat, State.scalar, State.withCur_of hc, hw]
  dsimp only
  rw [hx]
  rfl

theorem scalarFloatArithmetic : ScalarFloatArithmetic := by
  intro d sd sa sb f v bits op
  refine ⟨moves_of_float (fun _ => rfl) fun t => ?_, moves_of_float (fun _ => rfl) fun t => ?_, moves_of_float (fun _ => rfl) fun t => ?_,
    moves_of_float (fun _ => rfl) fun t => ?_, moves_of_float (fun _ => rfl) fun t => ?_, moves_of_float (fun _ => rfl) fun t => ?_,
    moves_of_float (fun _ => rfl) fun t => congrArg₂ (f.minMax false) (scalarBits_eq d _) (scalarBits_eq d _),
    moves_of_float (fun _ => rfl) fun t => congrArg₂ (f.minMax true) (scalarBits_eq d _) (scalarBits_eq d _)⟩ <;>
    simp only [scalarBits_eq, rm_eq] <;> rfl

/-- The value a scalar form reads. -/
def valueOf (d : Bool) (t : Strand) (r : SReg) : Fv :=
  (if d then fmtF64 else fmtF32).unpack ((t.getS r).toNat % 2 ^ (if d then 64 else 32))

theorem valueOf_eq (d : Bool) (t : Strand) (r : SReg) : (scalarFmt d).unpack (scalarBits d (t.getS r)) = valueOf d t r :=
  congrArg (scalarFmt d).unpack (scalarBits_eq d _)

/-- A compare writes 1 or 0, and raises what its relation does. -/
theorem moves_of_rel {i : Instr} {sd sa sb : SReg} {d : Bool} {r : Rel} {p : Strand → Bool} {fl : Strand → Flags}
    (hi : ∀ s, exec i s = s.scalarRel r d sd sa sb) (hp : ∀ t, floatRel r (valueOf d t sa) (valueOf d t sb) = (p t, fl t)) :
    Moves i [sd, sa, sb] (fun _ t => floatAfter sd (if p t then 1 else 0, fl t) t) := by
  refine moves_of_float hi fun t => ?_
  dsimp only
  rw [valueOf_eq, valueOf_eq, hp]

theorem scalarFloatCompares : ScalarFloatCompares := by
  intro d sd sa sb
  exact ⟨moves_of_rel (r := .feq) (fun _ => rfl) fun t => congrArg (Prod.mk _) (snan_or _ _),
    moves_of_rel (r := .flt) (fun _ => rfl) fun t => congrArg (Prod.mk _) (flagIf_nan _ _),
    moves_of_rel (r := .fle) (fun _ => rfl) fun t => congrArg₂ Prod.mk (Fv.lt_or_eq _ _) (flagIf_nan _ _),
    moves_of_rel (r := .fun_) (fun _ => rfl) fun t => congrArg (Prod.mk _) (snan_or _ _)⟩

/-! ## Conversions -/

theorem floatToInt_nan (ty : Tag) (rm : Rm) (q : Bool) : floatToInt ty rm (.nan q) = (0, 1) := rfl

theorem floatToInt_inf (ty : Tag) (rm : Rm) (n : Bool) : floatToInt ty rm (.inf n) = (wrapTo 64 (if n then ty.intMin else ty.intMax), 1) := rfl

theorem floatToInt_fin (ty : Tag) (rm : Rm) (n : Bool) (m : Nat) (e : Int) : floatToInt ty rm (.fin n m e)
    = if (roundToInt rm n m e).1 < ty.intMin then (wrapTo 64 ty.intMin, 1) else if ty.intMax < (roundToInt rm n m e).1 then (wrapTo 64 ty.intMax, 1)
      else (wrapTo 64 (roundToInt rm n m e).1, if (roundToInt rm n m e).2 then 16 else 0) := by
  unfold floatToInt toIntRange
  dsimp only
  by_cases h1 : (roundToInt rm n m e).1 < ty.intMin
  · rw [if_pos h1, if_pos h1]
    rfl
  · rw [if_neg h1, if_neg h1]
    by_cases h2 : ty.intMax < (roundToInt rm n m e).1
    · rw [if_pos h2, if_pos h2]
      rfl
    · rw [if_neg h2, if_neg h2]
      rfl

/-- A conversion into a 64-bit integer gives the rounded value, a limit, or 0. -/
theorem moves_to_int {i : Instr} {sd sa : SReg} {rm : Option Rm} {src : Word → Fv} (ty : Tag)
    (hi : ∀ s, exec i s = s.scalarCvt sd sa rm fun r x => floatToInt ty r (src x)) {into : Strand → Fv → Nat × Flags}
    (hinto : ∀ t v, floatToInt ty (rm.getD (fstatMode t)) v = into t v) :
    Moves i [sd, sa] (fun _ t => floatAfter sd (into t (src (t.getS sa))) t) := by
  refine moves_of_float hi fun t => ?_
  rw [rm_eq]
  exact hinto t _

theorem convert_eq (src dst : Fmt) (rm : Rm) (sat : Bool) (x : Nat) :
    src.convert dst rm sat x = dst.deliver rm sat ⟨src.unpack x, snan (src.unpack x)⟩ := rfl

theorem ofInt_eq (f : Fmt) (rm : Rm) (x : Int) : f.ofInt rm false x = f.round rm false (decide (x < 0)) x.natAbs 0 := rfl

/-- An unsigned integer is rounded as it stands. -/
theorem ofInt_nat (f : Fmt) (rm : Rm) (n : Nat) : f.ofInt rm false n = f.round rm false false n 0 := by
  rw [Fmt.ofInt, decide_eq_false (by omega), Int.natAbs_natCast]

theorem scalarFloatConversions : ScalarFloatConversions := by
  intro sd sa rm mode lo all op into
  have hm (t : Strand) : rm.getD t.rm = mode t := congrArg rm.getD (rm_eq t)
  have hinto (ty : Tag) (t : Strand) (x : Fv) : floatToInt ty (rm.getD (fstatMode t)) x = into ty.intMin ty.intMax t x := by
    cases x with
    | nan q => exact floatToInt_nan ty _ q
    | inf n => exact floatToInt_inf ty _ n
    | fin n m e => exact floatToInt_fin ty _ n m e
  have hi := hinto .i64
  have hn := hinto .n64
  rw [show Tag.i64.intMin = -2 ^ 63 by decide, show Tag.i64.intMax = 2 ^ 63 - 1 by decide] at hi
  rw [show Tag.n64.intMin = 0 by decide, show Tag.n64.intMax = 2 ^ 64 - 1 by decide] at hn
  have hcvt {i : Instr} {g : Rm → Word → Nat × Flags} (hi : ∀ s, exec i s = s.scalarCvt sd sa rm g) {x : Strand → Nat × Flags}
      (hx : ∀ t, g (mode t) (t.getS sa) = x t) : Moves i [sd, sa] (fun _ t => floatAfter sd (x t) t) :=
    moves_of_float hi fun t => (congrArg (g · _) (hm t)).trans (hx t)
  refine ⟨hcvt (g := fun r x => fmtF64.convert fmtF32 r false x.toNat) (fun _ => rfl) fun _ => convert_eq ..,
    hcvt (g := fun r x => fmtF32.convert fmtF64 r false (scalarBits false x)) (fun _ => rfl) fun _ => convert_eq ..,
    hcvt (g := fun r x => fmtF32.ofInt r false x.toInt) (fun _ => rfl) fun _ => ofInt_eq ..,
    hcvt (g := fun r x => fmtF32.ofInt r false x.toNat) (fun _ => rfl) fun _ => ofInt_nat ..,
    hcvt (g := fun r x => fmtF64.ofInt r false x.toInt) (fun _ => rfl) fun _ => ofInt_eq ..,
    hcvt (g := fun r x => fmtF64.ofInt r false x.toNat) (fun _ => rfl) fun _ => ofInt_nat ..,
    ?_, ?_, ?_, ?_⟩
  · exact moves_to_int (src := fun x => fmtF32.unpack (scalarBits false x)) .i64 (fun _ => rfl) hi
  · exact moves_to_int (src := fun x => fmtF32.unpack (scalarBits false x)) .n64 (fun _ => rfl) hn
  · exact moves_to_int (src := fun x => fmtF64.unpack x.toNat) .i64 (fun _ => rfl) hi
  · exact moves_to_int (src := fun x => fmtF64.unpack x.toNat) .n64 (fun _ => rfl) hn

end Sys2Proof.Machine

open Sys2Proof Sys2Proof.Machine

/-- Settles O20: each scalar form delivers the exact result of its operands, rounded once. -/
theorem scalarFloat : Obligations.ScalarFloat :=
  ⟨scalarFloatArithmetic, scalarFloatCompares, scalarFloatConversions, specialOperands, orderMinimaMaxima, exactBeforeRounding, quotientsAndRoots,
    specialResults⟩

end

section
/-!
SUPPORT. Runs that go element by element and may stop, and the lane tables (R104, R105, R232).
-/

namespace Sys2Proof.Machine

/-! ## Runs element by element -/

/-- A run whose every element takes it from one known run to the next. -/
theorem eachElem_run {f : Nat → Run → Rr} {r : Nat → Run} : ∀ (m n : Nat), (∀ k, n ≤ k → k < n + m → f k (r k) = .ok (r (k + 1))) →
    eachElem f m n (r n) = .ok (r (n + m))
  | 0, _, _ => rfl
  | m + 1, n, h => by
    rw [eachElem, h n (Nat.le_refl n) (by omega)]
    show eachElem f m (n + 1) (r (n + 1)) = _
    rw [eachElem_run m (n + 1) fun k h1 h2 => h k (by omega) (by omega)]
    congr 2
    omega

section
variable {s : State} {sid : Nat} {t : Strand} {e : Entry} (h : Alone s sid t e) (hs : Setting t e)

/-- The strand once the first `n` elements of an instruction are done. -/
def elementsUpTo (t : Strand) (e : Entry) (vd : VReg) (w : Nat) (ty : Tag) (f : Strand → Nat → Put × Flags) (n : Nat) : Strand :=
  (List.range n).foldl (fun t i => elementStep (.vec vd.toNat w) f t i) { t with v := setTags t.v vd.toNat (groupSize e.vtype w) ty }

/-- What the elements below the n-th leave as it was. -/
structure Untouched (t u : Strand) (e : Entry) (base w n : Nat) : Prop where
  strand : u = { t with v := u.v, lflags := u.lflags }
  elems : ∀ x, n ≤ x → x < vlmaxOf t.q e.vtype → elemGet u.v t.q base w x = elemGet t.v t.q base w x
  others : ∀ r, OutsideGroup base (groupSize e.vtype w) r → regAt u.v r = regAt t.v r

include hs in
theorem elementsUpTo_untouched {vd : VReg} {w : Nat} (hw : w = 4 ∨ w = 8 ∨ w = 16 ∨ w = 32 ∨ w = 64)
    (hg : groupOk vd.toNat (groupSize e.vtype w) = true) (ty : Tag) {f : Strand → Nat → Put × Flags} {g : Nat → Put × Flags}
    (hf : ∀ n < e.vl, ∀ u, Untouched t u e vd.toNat w n → f u n = g n) {n : Nat} (hn : n ≤ e.vl) :
    Untouched t (elementsUpTo t e vd w ty f n) e vd.toNat w n := by
  have hh := group_holds hs vd hw hg
  have hin := hh.inFile
  have hlen := hs.length
  have t1e (x : Nat) : elemGet (setTags t.v vd.toNat (groupSize e.vtype w) ty) t.q vd.toNat w x = elemGet t.v t.q vd.toNat w x :=
    elemGet_setTags _ _ _ _ _ _ _ _
  have t1o (r : Nat) (hr : OutsideGroup vd.toNat (groupSize e.vtype w) r) :
      regAt (setTags t.v vd.toNat (groupSize e.vtype w) ty) r = regAt t.v r := by
    have := hr.2
    rw [regAt_setTags _ _ _ _ _ hr.1 hin, if_neg (by omega)]
  unfold elementsUpTo
  generalize ht1 : ({ t with v := setTags t.v vd.toNat (groupSize e.vtype w) ty } : Strand) = t1
  have t1v : t1.v = setTags t.v vd.toNat (groupSize e.vtype w) ty := by rw [← ht1]
  have t1q : t1.q = t.q := by rw [← ht1]; rfl
  have t1s : t1 = { t with v := t1.v } := by rw [← ht1]
  have body := element_fold hh t1 t1q 0 n (by omega) f g (by
    intro k _ hk u hu he ho
    refine hf k (by omega) u ⟨by rw [hu, t1s], fun x h1 h2 => ?_, fun r hr => ?_⟩
    · rw [he x h1 h2, t1v, t1e]
    · rw [ho r hr, t1v, t1o r hr])
  simp only [Nat.zero_add] at body
  refine ⟨by rw [body.strand, t1s], fun x h1 h2 => ?_, fun r hr => ?_⟩
  · rw [body.elems x h2, if_neg (by omega), t1v, t1e]
  · rw [body.others r hr, t1v, t1o r hr]

include h hs

/-- CONVOY_START of an instruction whose elements each either stop it or put a value as an element-wise one does, where none
stops it. -/
theorem performs_steps {vd : VReg} {w : Nat} (hw : w = 4 ∨ w = 8 ∨ w = 16 ∨ w = 32 ∨ w = 64)
    (hg : groupOk vd.toNat (groupSize e.vtype w) = true) {ty : Tag} {step : Nat → Run → Rr} {f : Strand → Nat → Put × Flags}
    {g : Nat → Put × Flags} (ha : isVamo e.i = false) (hp : prepare e.i (e.px t s ⟨t.v, t.k⟩ e.vl true none false)
      = .ok { t with v := setTags t.v vd.toNat (groupSize e.vtype w) ty }
          ⟨overElems step, tailOf e.vtype (.vec vd.toNat w) e.vl (vlmaxOf t.q e.vtype)⟩)
    (hkeep : ∀ n r r', step n r = .ok r' → r.out = none → r'.out = none)
    (hf : ∀ n < e.vl, ∀ u, Untouched t u e vd.toNat w n → f u n = g n)
    (hstep : ∀ n < e.vl, ∀ u, Untouched t u e vd.toNat w n → step n (.start u s none) = .ok (.start (elementStep (.vec vd.toNat w) f u n) s none)) :
    Performs s sid e none fun s' t' => Wrote s s' t t' e vd.toNat w ty g := by
  have hvl := hs.length
  have hwritten := groupWritten_elementsDone hs hw hg ty fun n hn u h1 h2 h3 => hf n hn u ⟨h1, h2, h3⟩
  have hz := hwritten.strand
  refine performs_of_run h (by omega) ha hp hkeep (r1 := .start (elementsUpTo t e vd w ty f e.vl) s none)
    (r2 := .start (elementsDone t e vd w ty f) s none) ?_ rfl ?_ ?_ ?_ (fun _ _ => rfl) ?_ fun s' y hs' hy hstl => ?_
  · have hrun := eachElem_run (f := step) (r := fun n => .start (elementsUpTo t e vd w ty f n) s none) e.vl 0 fun n _ hn => by
      have hn : n < e.vl := by omega
      have hsucc : elementsUpTo t e vd w ty f (n + 1) = elementStep (.vec vd.toNat w) f (elementsUpTo t e vd w ty f n) n := by
        unfold elementsUpTo
        rw [List.range_succ, List.foldl_append]
        rfl
      show step n _ = _
      rw [hsucc]
      exact hstep n hn _ (elementsUpTo_untouched hs hw hg ty hf hn.le)
    rw [Nat.zero_add] at hrun
    exact hrun
  · show (elementsDone t e vd w ty f).id = t.id
    rw [hz]
  · show (elementsDone t e vd w ty f).qstall = false
    rw [hz]; exact h.calm
  · show (elementsDone t e vd w ty f).vfault = none
    rw [hz]; exact h.sound
  · show (s.strand sid).isSome = true
    rw [h.here]; rfl
  · exact hwritten.wrote hs' h.quiet hy hstl
end

/-! ## vlt.ld -/

theorem laneOff_within {x : Px} {k : Nat} (hk : (k + 1) * x.ew ≤ 2048 * x.q) : x.laneOff k = some (k * x.ew) := by
  unfold Px.laneOff
  exact if_pos (by omega)

theorem elementStep_quiet (d : Dst) (f : Strand → Nat → Put × Flags) (t : Strand) (n : Nat) (p : Put) (hf : f t n = (p, 0)) :
    elementStep d f t n = t.putElem d n p := by
  unfold elementStep
  rw [hf]
  exact Strand.raise_zero ..

section
variable {s : State} {sid : Nat} {t : Strand} {e : Entry} (h : Alone s sid t e) (hs : Setting t e)

/-- The sources of a lane table's instruction that has no destination group. -/
theorem checks_lane_store {x : Px} {r i : VReg} {ty ti : Tag} (hr : SourceGroup t x.vt r x.ew ty) (hi : SourceGroup t x.vt i x.ew ti)
    (hv : x.src.v = t.v) (hti : ti = .raw ∨ ti.isInt = true) :
    (do
      x.groups none [(r, x.ew), (i, x.ew)]
      let u ← x.tag r x.ew
      let v ← x.tag i x.ew
      needTag (indexOk v x.ew)
      pure u : Except Cause Tag) = .ok ty := by
  rw [Px.groups_sources fun o ho => by
    simp only [List.mem_cons, List.not_mem_nil, or_false] at ho
    rcases ho with rfl | rfl
    · exact hr.placed
    · exact hi.placed, Px.tag_source hr hv]
  show (x.tag i x.ew >>= _) = _
  rw [Px.tag_source hi hv]
  exact congrArg (fun r : Except Cause Unit => r >>= fun _ => pure ty) (needTag_true (indexOk_of hti hi.width))

/-- What `vlt.ld` puts into an element. -/
def laneLoaded (t : Strand) (e : Entry) (a : Vlt) (u : Strand) (n : Nat) : Put × Flags :=
  (if admits u.k a.m n then .val (a.ty.kept (laneGet u.lane (n % 256) (elemGet u.v t.q a.vb.toNat (ewOf e.vtype) n * ewOf e.vtype) (ewOf e.vtype)))
    else inactive e.vtype, 0)

include h hs

theorem laneTableLoad {a : Vlt} {ti : Tag} (hsrc : SourceGroup t e.vtype a.vb (ewOf e.vtype) ti) (hti : ti = .raw ∨ ti.isInt = true)
    (hin : ∀ n < e.vl, admits t.k a.m n = true → (elem t e a.vb n + 1) * ewOf e.vtype ≤ 2048 * t.q) (hi : e.i = .vltLd a)
    (hg : groupOk a.vd.toNat (groupSize e.vtype (ewOf e.vtype)) = true) (hty : a.ty = .raw ∨ a.ty.width = some (ewOf e.vtype))
    (hc : Clear e.vtype a.vd (ewOf e.vtype) a.vb (ewOf e.vtype)) :
    Performs s sid e none fun s' t' => Wrote s s' t t' e a.vd.toNat (ewOf e.vtype) a.ty fun n =>
      under t e a.m n (keptBits a.ty (laneGet t.lane (n % 256) (elem t e a.vb n * ewOf e.vtype) (ewOf e.vtype)), 0) := by
  have hvl : e.vl ≠ 0 := by have := hs.length; omega
  let x : Px := e.px t s ⟨t.v, t.k⟩ e.vl true none false
  have hneed : (indexOk ti x.ew && widthOk a.ty x.ew) = true := by
    rw [show indexOk ti x.ew = true from indexOk_of hti hsrc.width, Bool.true_and]
    unfold widthOk
    rcases hty with hw | hw
    · simp [hw]
    · simp [hw, x, Entry.px, Px.ew]
  have hchecks : (do
      x.groups (some (a.vd, x.ew)) [(a.vb, x.ew)]
      let u ← x.tag a.vb x.ew
      needTag (indexOk u x.ew && widthOk a.ty x.ew) : Except Cause Unit) = .ok () := by
    rw [show x.groups (some (a.vd, x.ew)) [(a.vb, x.ew)] = .ok () from Px.groups_clear hg fun o ho => by
      obtain rfl := List.mem_singleton.1 ho
      exact ⟨hsrc.placed, hc⟩]
    show (x.tag a.vb x.ew >>= _) = _
    rw [show x.tag a.vb x.ew = .ok ti from Px.tag_source (t := t) hsrc rfl]
    exact needTag_true hneed
  have hsame (n : Nat) (hn : n < e.vl) (u : Strand) (hu : Untouched t u e a.vd.toNat (ewOf e.vtype) n) :
      elemGet u.v t.q a.vb.toNat (ewOf e.vtype) n = elem t e a.vb n :=
    source_unchanged hs (ew_cases hs.vtype) hsrc.placed hc hn hu.elems hu.others
  refine performs_steps h hs (ew_cases hs.vtype) hg (f := laneLoaded t e a) (step := fun n r => if admits r.t.k a.m n then
        match x.laneOff (elemGet r.t.v x.q a.vb.toNat x.ew n) with
        | none => .stop (.precise n .ltRange 0 0 r.s)
        | some o => .ok (r.upd fun t => t.putElem (.vec a.vd.toNat x.ew) n (.val (a.ty.kept (laneGet t.lane (n % 256) o x.ew))))
      else .ok (r.upd fun t => t.putElem (.vec a.vd.toNat x.ew) n (inactive x.vt)))
    (by rw [hi]; rfl) ?_ (fun n r r' h1 h2 => ?_) (fun n hn u hu => ?_) fun n hn u hu => ?_
  · rw [hi]
    show prepLtLd a x = _
    unfold prepLtLd
    dsimp only
    rw [hchecks]
    exact if_neg hvl
  · split at h1
    · split at h1
      · cases h1
      · rw [← Rr.ok.inj h1]; exact h2
    · rw [← Rr.ok.inj h1]; exact h2
  · unfold laneLoaded under
    rw [hsame n hn u hu, kept_eq_keptBits, hu.strand]
    split <;> rfl
  · have hk : u.k = t.k := by rw [hu.strand]
    have hidx : elemGet u.v x.q a.vb.toNat x.ew n = elem t e a.vb n := hsame n hn u hu
    by_cases hact : admits u.k a.m n = true
    · refine (if_pos hact).trans ?_
      show (match x.laneOff (elemGet u.v x.q a.vb.toNat x.ew n) with
        | none => Rr.stop (.precise n .ltRange 0 0 s)
        | some o => .ok ((Run.start u s none).upd fun t => t.putElem (.vec a.vd.toNat x.ew) n (.val (a.ty.kept (laneGet t.lane (n % 256) o x.ew))))) = _
      rw [hidx, laneOff_within (x := x) (hin n hn (hk ▸ hact))]
      refine congrArg (fun z => Rr.ok (Run.start z s none)) (elementStep_quiet _ _ u _ _ ?_).symm
      unfold laneLoaded
      rw [if_pos hact, hsame n hn u hu]
      rfl
    · refine (if_neg hact).trans ?_
      refine congrArg (fun z => Rr.ok (Run.start z s none)) (elementStep_quiet _ _ u _ _ ?_).symm
      unfold laneLoaded
      rw [if_neg hact]
      rfl
end
end Sys2Proof.Machine
end

section
/-!
SUPPORT. Lane stores written by elements: `vlt.st` and `vlt.fill` (R104, R105, R232).
-/

namespace Sys2Proof.Machine

/-! ## A lane's store after several writes -/

/-- A word of a lane after the writes of several elements, each at a word of its own lane: the last of those there stands. -/
theorem laneGet_writes {L : Vector (BitVec 8192) 256} {w : Nat} {act : Nat → Bool} {off x : Nat → Nat} (lane p : Nat) (hl : lane < 256) (hp : p + w ≤ 8192) :
    ∀ m, (∀ n < m, act n = true → off n + w ≤ 8192 ∧ (p = off n ∨ p + w ≤ off n ∨ off n + w ≤ p) ∧ x n < 2 ^ w) →
      laneGet ((List.range m).foldl (fun l n => if act n then laneSet l (n % 256) (off n) w (x n) else l) L) lane p w
        = (List.range m).foldl (fun v n => if act n = true ∧ n % 256 = lane ∧ off n = p then x n else v) (laneGet L lane p w)
  | 0, _ => rfl
  | m + 1, h => by
    rw [List.range_succ, List.foldl_append, List.foldl_append]
    have ih := laneGet_writes (L := L) lane p hl hp m fun n hn => h n (by omega)
    dsimp only [List.foldl_cons, List.foldl_nil]
    by_cases hact : act m = true
    · obtain ⟨h1, h2, h3⟩ := h m (by omega) hact
      rw [if_pos hact, laneGet_laneSet _ _ _ _ _ _ _ (Nat.mod_lt _ (by omega)) hl h1 hp h2, ih, Nat.mod_eq_of_lt h3]
      exact if_congr (by rw [eq_comm, eq_comm (a := p)]; simp [hact]) rfl rfl
    · rw [if_neg hact, ih, if_neg fun hh => hact hh.1]

/-- A word of a lane after one word of the first lanes is written. -/
theorem laneGet_fill (L : Vector (BitVec 8192) 256) {off w x lane p : Nat} (hl : lane < 256) (ho : off + w ≤ 8192) (hp : p + w ≤ 8192)
    (ha : p = off ∨ p + w ≤ off ∨ off + w ≤ p) : ∀ m ≤ 256, laneGet ((List.range m).foldl (fun l i => laneSet l i off w x) L) lane p w
      = if lane < m ∧ p = off then x % 2 ^ w else laneGet L lane p w
  | 0, _ => (if_neg fun h => absurd h.1 (Nat.not_lt_zero _)).symm
  | m + 1, hm => by
    rw [List.range_succ, List.foldl_append]
    dsimp only [List.foldl_cons, List.foldl_nil]
    rw [laneGet_laneSet _ _ _ _ _ _ _ (by omega) hl ho hp ha, laneGet_fill L hl ho hp ha m (by omega)]
    by_cases hpo : p = off
    · simp only [hpo, and_true]
      by_cases h1 : lane = m
      · rw [if_pos h1, if_pos (by omega)]
      · rw [if_neg h1]
        exact if_congr (by omega) rfl rfl
    · simp only [hpo, and_false, if_false]

/-- Two words of a store, by their indices. -/
theorem words_apart (w k j : Nat) : k * w = j * w ∨ k * w + w ≤ j * w ∨ j * w + w ≤ k * w := by
  rcases Nat.lt_trichotomy k j with h | h | h
  · exact .inr (.inl (by rw [← Nat.succ_mul]; exact Nat.mul_le_mul_right w h))
  · exact .inl (by rw [h])
  · exact .inr (.inr (by rw [← Nat.succ_mul]; exact Nat.mul_le_mul_right w h))

theorem keptBits_le (ty : Tag) (x : Nat) : keptBits ty x ≤ x := by
  unfold keptBits
  split
  · exact Nat.mod_le _ _
  · exact Nat.le_refl _

theorem elem_kept_lt (ty : Tag) (t : Strand) (e : Entry) (r : VReg) (n : Nat) : keptBits ty (elem t e r n) < 2 ^ ewOf e.vtype :=
  (keptBits_le ty _).trans_lt (elemGet_lt ..)

section
variable {s : State} {sid : Nat} {t : Strand} {e : Entry} (h : Alone s sid t e) (hs : Setting t e)
include h hs

/-- CONVOY_START of an instruction whose elements change the strand's lanes and flags alone. -/
theorem performs_lanes {step : Nat → Run → Rr} {r : Nat → Run} {final : Run → Rr} {r2 : Run} {p : State → Strand → Prop}
    (ha : isVamo e.i = false) (hload : e.loads = false)
    (hp : prepare e.i (e.px t s ⟨t.v, t.k⟩ e.vl true none false) = .ok t ⟨overElems step, final⟩)
    (hkeep : ∀ n r r', step n r = .ok r' → r.out = none → r'.out = none) (hstart : r 0 = .start t s none)
    (hstep : ∀ n < e.vl, step n (r n) = .ok (r (n + 1))) (hfin : final (r e.vl) = .ok r2) (hout : r2.out = none) (hs2 : r2.s = s)
    (hz : r2.t = { t with lane := r2.t.lane, lflags := r2.t.lflags })
    (hpost : ∀ s' t', OnlyLanes s s' t t' → t'.lane = r2.t.lane → t'.lflags = r2.t.lflags → p s' t') : Performs s sid e none p := by
  have hvl := hs.length
  have hrun := eachElem_run (f := step) (r := r) e.vl 0 fun n _ hn => hstep n (by omega)
  rw [Nat.zero_add, hstart] at hrun
  rw [← hout]
  refine performs_of_run h (by omega) ha hp hkeep hrun hfin ?_ ?_ ?_ (by rw [hs2]; exact fun _ _ => rfl) (by rw [hs2, h.here]; rfl)
    fun s' u hs' hu hstl => hpost s' u ⟨?_, ?_⟩ (by rw [hu]) (by rw [hu])
  · rw [hz]
  · rw [hz]; exact h.calm
  · rw [hz]; exact h.sound
  · rw [hs2] at hs'
    rw [hs']
  · have hstall := hstl hload
    rw [hu]
    rw [hz] at hstall ⊢
    rw [hstall, h.quiet]

/-! ## vlt.st -/

/-- The lanes after the first elements of a `vlt.st`. -/
def laneStores (t : Strand) (e : Entry) (a : Vlt) (ty : Tag) (n : Nat) : Vector (BitVec 8192) 256 :=
  (List.range n).foldl (fun l n => if admits t.k a.m n then laneSet l (n % 256) (elem t e a.vb n * ewOf e.vtype) (ewOf e.vtype) (keptBits ty (elem t e a.vd n))
    else l) t.lane

theorem laneTableStore {a : Vlt} {ti ty : Tag} (hsrc : SourceGroup t e.vtype a.vb (ewOf e.vtype) ti) (hti : ti = .raw ∨ ti.isInt = true)
    (hin : ∀ n < e.vl, admits t.k a.m n = true → (elem t e a.vb n + 1) * ewOf e.vtype ≤ 2048 * t.q) (hi : e.i = .vltSt a)
    (hd : SourceGroup t e.vtype a.vd (ewOf e.vtype) ty) :
    Performs s sid e none fun s' t' => OnlyLanes s s' t t' ∧ t'.lflags = t.lflags
      ∧ ∀ lane < 256, ∀ k, (k + 1) * ewOf e.vtype ≤ 8192 → laneGet t'.lane lane (k * ewOf e.vtype) (ewOf e.vtype)
        = (List.range e.vl).foldl (fun x n => if admits t.k a.m n ∧ n % 256 = lane ∧ elem t e a.vb n = k
            then keptBits ty (elem t e a.vd n) else x) (laneGet t.lane lane (k * ewOf e.vtype) (ewOf e.vtype)) := by
  let x : Px := e.px t s ⟨t.v, t.k⟩ e.vl true none false
  have hq := hs.quarters
  have hew := ew_pos hs.vtype
  refine performs_lanes h hs (r := fun n => .start { t with lane := laneStores t e a ty n } s none)
    (r2 := .start { t with lane := laneStores t e a ty e.vl } s none) (by rw [hi]; rfl) (by unfold Entry.loads; rw [hi]; rfl)
    (step := fun n r => if admits r.t.k a.m n then
        match x.laneOff (elemGet r.t.v x.q a.vb.toNat x.ew n) with
        | none => .stop (.precise n .ltRange 0 0 r.s)
        | some o => .ok (r.upd fun u => { u with lane := laneSet u.lane (n % 256) o x.ew (ty.kept (elemGet u.v x.q a.vd.toNat x.ew n)) })
      else .ok r) (final := .ok) ?_ (fun n r r' h1 h2 => ?_) rfl (fun n hn => ?_) rfl rfl rfl rfl fun s' t' ho hl hf => ⟨ho, hf, fun lane hlane k hk => ?_⟩
  · rw [hi]
    show prepLtSt a x = _
    unfold prepLtSt
    dsimp only
    rw [checks_lane_store hd hsrc rfl hti]
    rfl
  · split at h1
    · split at h1
      · cases h1
      · rw [← Rr.ok.inj h1]; exact h2
    · rw [← Rr.ok.inj h1]; exact h2
  · have hsucc : laneStores t e a ty (n + 1) = if admits t.k a.m n then laneSet (laneStores t e a ty n) (n % 256) (elem t e a.vb n * ewOf e.vtype) (ewOf e.vtype)
        (keptBits ty (elem t e a.vd n)) else laneStores t e a ty n := by
      unfold laneStores
      rw [List.range_succ, List.foldl_append]
      rfl
    dsimp only [Run.start]
    rw [hsucc]
    by_cases hact : admits t.k a.m n = true
    · refine (if_pos hact).trans ?_
      rw [if_pos hact]
      show (match x.laneOff (elem t e a.vb n) with
        | none => Rr.stop (.precise n .ltRange 0 0 s)
        | some o => .ok ((Run.start { t with lane := laneStores t e a ty n } s none).upd fun u =>
          { u with lane := laneSet u.lane (n % 256) o x.ew (ty.kept (elemGet u.v x.q a.vd.toNat x.ew n)) })) = _
      rw [laneOff_within (x := x) (hin n hn hact), ← kept_eq_keptBits]
      rfl
    · refine (if_neg hact).trans ?_
      rw [if_neg hact]
  · rw [hl]
    refine (laneGet_writes lane _ hlane (by rwa [← Nat.succ_mul]) e.vl fun n hn hact => ⟨?_, ?_, elem_kept_lt ..⟩).trans ?_
    · have := hin n hn hact
      rw [Nat.succ_mul] at this
      omega
    · exact words_apart _ k _
    · congr 1
      funext v n
      refine if_congr ?_ rfl rfl
      rw [Nat.mul_left_inj (by omega)]

/-! ## vlt.fill -/

omit h hs in
theorem laneGet_fillLanes (u : Strand) (f : Fill) {lane p : Nat} (hl : lane < 256) (ho : f.off + f.w ≤ 8192) (hp : p + f.w ≤ 8192)
    (ha : p = f.off ∨ p + f.w ≤ f.off ∨ f.off + f.w ≤ p) :
    laneGet (u.fillLanes f).lane lane p f.w = if p = f.off then f.x % 2 ^ f.w else laneGet u.lane lane p f.w := by
  unfold Strand.fillLanes
  rw [laneGet_fill _ hl ho hp ha 256 le_rfl]
  exact if_congr (by simp [hl]) rfl rfl

omit h hs in
theorem fillLanes_frame (u : Strand) (f : Fill) : u.fillLanes f = { u with lane := (u.fillLanes f).lane } := by
  unfold Strand.fillLanes
  generalize List.range 256 = l
  rfl

/-- What element n of a `vlt.fill` writes to every lane. -/
def fillOf (t : Strand) (e : Entry) (a : Vs) (ty : Tag) (n : Nat) : Fill :=
  ⟨n, ((e.ops.getD 0 0).toNat + n) * ewOf e.vtype, ewOf e.vtype, keptBits ty (elem t e a.vd n)⟩

/-- The run of a `vlt.fill` after its first elements. -/
def filled (t : Strand) (s : State) (e : Entry) (a : Vs) (ty : Tag) (n : Nat) : Run :=
  (List.range n).foldl (fun r n => if admits t.k a.m n then { (r.upd fun u => u.fillLanes (fillOf t e a ty n)) with fills := r.fills ++ [fillOf t e a ty n] }
    else r) (.start t s none)

omit h hs in
theorem filled_zero (t : Strand) (s : State) (e : Entry) (a : Vs) (ty : Tag) : filled t s e a ty 0 = .start t s none := by
  unfold filled
  rw [List.range_zero, List.foldl_nil]

omit h hs in
theorem filled_succ (t : Strand) (s : State) (e : Entry) (a : Vs) (ty : Tag) (n : Nat) : filled t s e a ty (n + 1)
    = if admits t.k a.m n then { ((filled t s e a ty n).upd fun u => u.fillLanes (fillOf t e a ty n)) with
        fills := (filled t s e a ty n).fills ++ [fillOf t e a ty n] } else filled t s e a ty n := by
  unfold filled
  rw [List.range_succ, List.foldl_append]
  rfl

omit h hs in
/-- Filling lanes changes the lanes alone. -/
theorem filled_frame (t : Strand) (s : State) (e : Entry) (a : Vs) (ty : Tag) : ∀ n, (filled t s e a ty n).s = s ∧ (filled t s e a ty n).out = none
    ∧ (filled t s e a ty n).t = { t with lane := (filled t s e a ty n).t.lane }
  | 0 => by
    rw [filled_zero]
    exact ⟨rfl, rfl, rfl⟩
  | n + 1 => by
    obtain ⟨h1, h2, h3⟩ := filled_frame t s e a ty n
    rw [filled_succ]
    generalize filled t s e a ty n = r at h1 h2 h3 ⊢
    generalize fillOf t e a ty n = f
    by_cases hact : admits t.k a.m n = true
    · rw [if_pos hact]
      dsimp only [Run.upd]
      refine ⟨h1, h2, ?_⟩
      show r.t.fillLanes f = { t with lane := (r.t.fillLanes f).lane }
      generalize hu : r.t = u at h3 ⊢
      rw [fillLanes_frame, h3]
    · rw [if_neg hact]
      exact ⟨h1, h2, h3⟩

omit h in
/-- A word of a lane after the first elements of a `vlt.fill`. -/
theorem filled_lane {a : Vs} {ty : Tag} (hin : ∀ n < e.vl, admits t.k a.m n = true → ((e.ops.getD 0 0).toNat + n + 1) * ewOf e.vtype ≤ 2048 * t.q)
    {lane k : Nat} (hl : lane < 256) (hk : (k + 1) * ewOf e.vtype ≤ 8192) : ∀ n ≤ e.vl, laneGet (filled t s e a ty n).t.lane lane (k * ewOf e.vtype) (ewOf e.vtype)
      = if (e.ops.getD 0 0).toNat ≤ k ∧ k < (e.ops.getD 0 0).toNat + n ∧ admits t.k a.m (k - (e.ops.getD 0 0).toNat) = true
        then keptBits ty (elem t e a.vd (k - (e.ops.getD 0 0).toNat)) else laneGet t.lane lane (k * ewOf e.vtype) (ewOf e.vtype)
  | 0, _ => by
    rw [if_neg (by omega), filled_zero]
    rfl
  | n + 1, hn => by
    have ih := filled_lane (ty := ty) hin hl hk n (by omega)
    have hq := hs.quarters
    have hew := ew_pos hs.vtype
    rw [filled_succ]
    generalize hk0 : (e.ops.getD 0 0).toNat = k0 at hin ih ⊢
    by_cases hact : admits t.k a.m n = true
    · have hoff : (fillOf t e a ty n).off = (k0 + n) * ewOf e.vtype := by rw [← hk0]; rfl
      have hfit := hin n (by omega) hact
      rw [if_pos hact]
      refine (laneGet_fillLanes (filled t s e a ty n).t (fillOf t e a ty n) hl ?_ ?_ ?_).trans ?_
      · rw [hoff]
        show _ + ewOf e.vtype ≤ _
        rw [← Nat.succ_mul]
        exact hfit.trans (by omega)
      · show _ + ewOf e.vtype ≤ _
        rwa [← Nat.succ_mul]
      · rw [hoff]
        exact words_apart _ _ _
      · rw [hoff]
        have hiff : k * ewOf e.vtype = (k0 + n) * ewOf e.vtype ↔ k = k0 + n := Nat.mul_left_inj (by omega)
        by_cases hkn : k = k0 + n
        · have hsub : k - k0 = n := by omega
          rw [if_pos (hiff.2 hkn), hsub, if_pos ⟨by omega, by omega, hact⟩]
          exact Nat.mod_eq_of_lt (elem_kept_lt ..)
        · rw [if_neg (mt hiff.1 hkn)]
          refine Eq.trans ih (if_congr ?_ rfl rfl)
          rw [show k < k0 + (n + 1) ↔ k < k0 + n by omega]
    · rw [if_neg hact, ih]
      refine if_congr ?_ rfl rfl
      constructor
      · rintro ⟨h1, h2, h3⟩; exact ⟨h1, by omega, h3⟩
      · rintro ⟨h1, h2, h3⟩
        refine ⟨h1, ?_, h3⟩
        by_contra hge
        rw [show k - k0 = n by omega] at h3
        exact hact h3

theorem laneTableFill {a : Vs} {ty : Tag} (hi : e.i = .vltFill a) (hd : SourceGroup t e.vtype a.vd (ewOf e.vtype) ty)
    (hin : ∀ n < e.vl, admits t.k a.m n = true → ((e.ops.getD 0 0).toNat + n + 1) * ewOf e.vtype ≤ 2048 * t.q) :
    Performs s sid e none fun s' t' => OnlyLanes s s' t t' ∧ t'.lflags = t.lflags
      ∧ ∀ lane < 256, ∀ k, (k + 1) * ewOf e.vtype ≤ 8192 → laneGet t'.lane lane (k * ewOf e.vtype) (ewOf e.vtype)
        = if (e.ops.getD 0 0).toNat ≤ k ∧ k < (e.ops.getD 0 0).toNat + e.vl ∧ admits t.k a.m (k - (e.ops.getD 0 0).toNat) = true
          then keptBits ty (elem t e a.vd (k - (e.ops.getD 0 0).toNat)) else laneGet t.lane lane (k * ewOf e.vtype) (ewOf e.vtype) := by
  let x : Px := e.px t s ⟨t.v, t.k⟩ e.vl true none false
  obtain ⟨hs2, hout, ht2⟩ := filled_frame t s e a ty e.vl
  have hchecks : (do
      x.groups none [(a.vd, x.ew)]
      x.tag a.vd x.ew : Except Cause Tag) = .ok ty := by
    rw [Px.groups_sources fun o ho => by
      obtain rfl := List.mem_singleton.1 ho
      exact hd.placed]
    exact Px.tag_source (x := x) (t := t) hd rfl
  refine performs_lanes h hs (r := filled t s e a ty) (r2 := filled t s e a ty e.vl) (by rw [hi]; rfl) (by unfold Entry.loads; rw [hi]; rfl)
    (step := fun n r => if admits r.t.k a.m n then
        match x.laneOff ((x.op 0).toNat + n) with
        | none => .stop (.precise n .ltRange 0 0 r.s)
        | some o => .ok { (r.upd fun u => u.fillLanes ⟨n, o, x.ew, ty.kept (elemGet r.t.v x.q a.vd.toNat x.ew n)⟩) with
            fills := r.fills ++ [⟨n, o, x.ew, ty.kept (elemGet r.t.v x.q a.vd.toNat x.ew n)⟩] }
      else .ok r) (final := .ok) ?_ (fun n r r' h1 h2 => ?_) (filled_zero t s e a ty) (fun n hn => ?_) rfl hout hs2 ?_ fun s' t' ho hl hf => ⟨ho, ?_, fun lane hlane k hk => ?_⟩
  · rw [hi]
    show prepLtFill a x = _
    unfold prepLtFill
    dsimp only
    rw [hchecks]
    rfl
  · split at h1
    · split at h1
      · cases h1
      · have hr := congrArg Run.out (Rr.ok.inj h1)
        dsimp only [Run.upd] at hr
        exact hr.symm.trans h2
    · rw [← Rr.ok.inj h1]; exact h2
  · obtain ⟨-, -, hframe⟩ := filled_frame t s e a ty n
    have hk : (filled t s e a ty n).t.k = t.k := by rw [hframe]
    have hv : (filled t s e a ty n).t.v = t.v := by rw [hframe]
    rw [filled_succ]
    by_cases hact : admits t.k a.m n = true
    · refine (if_pos (hk ▸ hact)).trans ?_
      rw [if_pos hact, laneOff_within (x := x) (k := (x.op 0).toNat + n) (hin n hn hact), hv]
      dsimp only
      rw [kept_eq_keptBits]
      rfl
    · refine (if_neg (hk ▸ hact)).trans ?_
      rw [if_neg hact]
  · rw [ht2]
  · rw [hf, ht2]
  · rw [hl]
    exact filled_lane hs hin hlane hk e.vl le_rfl
end

theorem laneTableResults : LaneTableResults := by
  intro s sid t e h hs w
  refine ⟨fun a ti hsrc hti hin => ⟨fun hi hg hty hc => laneTableLoad h hs hsrc hti hin hi hg hty hc, fun ty hi hd => laneTableStore h hs hsrc hti hin hi hd⟩,
    fun a ty hi hd => fun hin => laneTableFill h hs hi hd hin⟩
end Sys2Proof.Machine
end

section
/-!
SUPPORT. The codes of a format lie within its bits; updates of the accumulation window (R276).
-/

namespace Sys2Proof.Machine

/-! ## Codes within a format's bits -/

/-- NaN, infinity and the largest finite value of a format. -/
theorem special_lt {f : Fmt} (h : f ∈ floatFormats) (n : Bool) : f.nanBits < 2 ^ (f.eb + f.mb + 1) ∧ f.infBits n < 2 ^ (f.eb + f.mb + 1)
    ∧ f.maxBits n < 2 ^ (f.eb + f.mb + 1) ∧ (if n then f.signBit else 0) < 2 ^ (f.eb + f.mb + 1) := by
  simp only [floatFormats, List.mem_cons, List.not_mem_nil, or_false] at h
  rcases h with rfl | rfl | rfl | rfl | rfl | rfl | rfl | rfl | rfl <;> cases n <;> decide

theorem round_lt {f : Fmt} (h : f ∈ floatFormats) (rm : Rm) (sat neg : Bool) (m : Nat) (e : Int) : (f.round rm sat neg m e).1 < 2 ^ (f.eb + f.mb + 1) := by
  obtain ⟨-, hinf, hmax, hzero⟩ := special_lt h neg
  by_cases hm : m = 0
  · unfold Fmt.round
    simp only [hm, if_true]
    exact hzero
  · rw [round_eq_pack f rm sat neg e hm]
    have hc := cutOk_lowExp (f := f) hm e
    generalize roundsUp rm neg (f.whole m e) (f.rest m e) (f.lowExp m e - e).toNat = up
    generalize f.lowExp m e = q at hc
    generalize f.whole m e = hi at hc
    unfold Fmt.pack
    by_cases hover : f.over q (mantOf hi up) = true
    · rw [if_pos hover]
      unfold Fmt.overflowed
      split
      · exact hmax
      · split
        · exact hinf
        · exact hmax
    · rw [if_neg hover]
      obtain ⟨h1, h2, h3, -⟩ := carried_fits hc up
      have hfine := hc.fine
      have hmost : (f.carried q (mantOf hi up)).2 < f.maxExp ∨ (f.carried q (mantOf hi up)).2 = f.maxExp ∧ (f.carried q (mantOf hi up)).1 ≤ f.maxMant := by
        have := of_decide_eq_false (eq_false_of_ne_true hover)
        omega
      exact (coded_unpack (fmtOk h) h1 (by omega) h3 hmost).2.2

theorem deliver_lt {f : Fmt} (h : f ∈ floatFormats) (rm : Rm) (sat : Bool) (x : Exact) : (f.deliver rm sat x).1 < 2 ^ (f.eb + f.mb + 1) := by
  obtain ⟨v, fl⟩ := x
  cases v with
  | nan q => rw [deliver_nan]; exact (special_lt h false).1
  | inf n =>
    obtain ⟨hnan, hinf, hmax, -⟩ := special_lt h n
    cases hsp : f.special with
    | ieee => rw [deliver_inf_ieee _ _ _ _ _ hsp]; exact hinf
    | oneNan => rw [deliver_inf_oneNan _ _ _ _ _ hsp]; split <;> assumption
    | none => rw [deliver_inf_none _ _ _ _ _ hsp]; exact hmax
  | fin n m e => exact round_lt h rm sat n m e

/-! ## One addition to a word of the window -/

theorem arithFmt_format {ty : Tag} (h : isArithFloat ty = true) {w : Nat} (hw : ty = .raw ∨ ty.width = some w) :
    arithFmt ty ∈ floatFormats ∧ (arithFmt ty).eb + (arithFmt ty).mb + 1 = w := by
  unfold isArithFloat at h
  simp only [Bool.or_eq_true, beq_iff_eq] at h
  rcases h with ((rfl | rfl) | rfl) | rfl <;> rcases hw with hw | hw <;> cases hw <;> decide

/-- A sum has the width of the words it adds. -/
theorem addElem_lt {ty : Tag} {w : Nat} (hty : (ty.isInt || isArithFloat ty) = true) (hw : ty = .raw ∨ ty.width = some w) (rm : Rm) (sat : Bool) (x y : Nat) :
    (addElem ty w rm sat x y).1 < 2 ^ w := by
  unfold addElem
  by_cases hi : ty.isInt = true
  · rw [if_pos hi]
    exact Nat.mod_lt _ (Nat.two_pow_pos w)
  · rw [if_neg hi]
    have hf : isArithFloat ty = true := by simpa [hi] using hty
    obtain ⟨hin, hbits⟩ := arithFmt_format hf hw
    have hlt := deliver_lt hin rm sat (exAdd rm ((arithFmt ty).unpack x) ((arithFmt ty).unpack y))
    rw [hbits] at hlt
    exact hlt

theorem laneGet_laneSet_apart (l : Vector (BitVec 8192) 256) (i j o p w v x : Nat) (hi : i < 256) (hj : j < 256) (hp : p + v ≤ 8192)
    (ha : j ≠ i ∨ p + v ≤ o ∨ o + w ≤ p) : laneGet (laneSet l i o w x) j p v = laneGet l j p v := by
  have mi : i % 256 = i := Nat.mod_eq_of_lt hi
  have mj : j % 256 = j := Nat.mod_eq_of_lt hj
  unfold laneGet laneSet
  simp only [mi, mj, Vector.getElem_set]
  by_cases g : i = j
  · subst g
    rw [if_pos rfl, extract_setSlice_apart _ _ _ _ hp (by omega)]
  · rw [if_neg g]

/-! ## vwacc.add -/

section
variable {t : Strand} {e : Entry} {a : Vwacc} {ti : Tag} {wd : Window}

/-- The byte of the window that an element's index names. -/
def windowOff (t : Strand) (e : Entry) (a : Vwacc) (ti : Tag) (n : Nat) : Nat :=
  (indexWord ti (ewOf e.vtype) (elem t e a.vb n) a.sh).toNat

/-- The addition of an element. -/
def windowAdd (t : Strand) (e : Entry) (a : Vwacc) (ti : Tag) (wd : Window) (n : Nat) : WinAdd :=
  ⟨n % 256, 8 * (wd.off + windowOff t e a ti n), wd.ty, modeOf e a.rm, ewOf e.vtype, elem t e a.va n⟩

/-- One addition performed. -/
def addTo (u : Strand) (p : WinAdd) : Strand :=
  { u with lane := laneSet u.lane p.lane p.off p.w (addElem p.ty p.w p.rm false (laneGet u.lane p.lane p.off p.w) p.x).1 }.raise p.lane
    (addElem p.ty p.w p.rm false (laneGet u.lane p.lane p.off p.w) p.x).2

/-- The strand after the additions of the first elements. -/
def addedUpTo (t : Strand) (e : Entry) (a : Vwacc) (ti : Tag) (wd : Window) (n : Nat) : Strand :=
  (List.range n).foldl (fun u n => if admits t.k a.m n then addTo u (windowAdd t e a ti wd n) else u) t

theorem addedUpTo_succ (n : Nat) : addedUpTo t e a ti wd (n + 1)
    = if admits t.k a.m n then addTo (addedUpTo t e a ti wd n) (windowAdd t e a ti wd n) else addedUpTo t e a ti wd n := by
  unfold addedUpTo
  rw [List.range_succ, List.foldl_append]
  rfl

/-- Additions that wait are performed in order. -/
theorem settle_eq (t : Strand) (s : State) (p : Nat → Bool) (g : Nat → WinAdd) (l : List Nat) :
    ({ Run.start t s none with pend := (l.filter p).map g } : Run).settle = .start (l.foldl (fun u n => if p n then addTo u (g n) else u) t) s none := by
  unfold Run.settle
  dsimp only
  have hfold (l : List Nat) : ∀ u : Strand, ((l.filter p).map g).foldl (fun r q => r.upd fun t => addTo t q) (Run.start u s none)
      = .start (l.foldl (fun u n => if p n then addTo u (g n) else u) u) s none := by
    induction l with
    | nil => exact fun u => rfl
    | cons n l ih =>
      intro u
      rw [List.foldl_cons]
      by_cases hn : p n = true
      · rw [List.filter_cons_of_pos hn, if_pos hn]
        exact ih (addTo u (g n))
      · rw [List.filter_cons_of_neg hn, if_neg hn]
        exact ih u
  exact hfold l t

theorem addTo_eq (u : Strand) (p : WinAdd) : addTo u p = { u with
    lane := laneSet u.lane p.lane p.off p.w (addElem p.ty p.w p.rm false (laneGet u.lane p.lane p.off p.w) p.x).1, lflags := (addTo u p).lflags } := by
  unfold addTo
  exact (raise_bits _ _ _).1

theorem addedUpTo_frame : ∀ n, addedUpTo t e a ti wd n
    = { t with lane := (addedUpTo t e a ti wd n).lane, lflags := (addedUpTo t e a ti wd n).lflags }
  | 0 => rfl
  | n + 1 => by
    have ih := addedUpTo_frame n
    rw [addedUpTo_succ]
    by_cases hact : admits t.k a.m n = true
    · rw [if_pos hact]
      generalize addedUpTo t e a ti wd n = u at ih ⊢
      rw [addTo_eq, ih]
    · rw [if_neg hact]
      exact ih

/-! ## What the additions leave -/

/-- A word of a lane after the additions of the first elements. -/
def wordAfter (t : Strand) (e : Entry) (a : Vwacc) (ti : Tag) (wd : Window) (lane o count : Nat) : Nat :=
  (List.range count).foldl (fun x n => if admits t.k a.m n ∧ n % 256 = lane ∧ windowOff t e a ti n = o
    then (addElem wd.ty (ewOf e.vtype) (modeOf e a.rm) false x (elem t e a.va n)).1 else x)
    (laneGet t.lane lane (8 * (wd.off + o)) (ewOf e.vtype))

theorem wordAfter_succ (lane o n : Nat) : wordAfter t e a ti wd lane o (n + 1)
    = if admits t.k a.m n ∧ n % 256 = lane ∧ windowOff t e a ti n = o
      then (addElem wd.ty (ewOf e.vtype) (modeOf e a.rm) false (wordAfter t e a ti wd lane o n) (elem t e a.va n)).1
      else wordAfter t e a ti wd lane o n := by
  unfold wordAfter
  rw [List.range_succ, List.foldl_append]
  rfl

/-- The indices of the active elements name words of the window that lie within a lane's store. -/
def IndicesFit (t : Strand) (e : Entry) (a : Vwacc) (ti : Tag) (wd : Window) : Prop :=
  ∀ n < e.vl, admits t.k a.m n = true → windowOff t e a ti n < wd.size ∧ windowOff t e a ti n % (ewOf e.vtype / 8) = 0
    ∧ 8 * (wd.off + windowOff t e a ti n) + ewOf e.vtype ≤ 8192

section
variable (hs : Setting t e) (hw4 : ewOf e.vtype ≠ 4) (hty : (wd.ty.isInt || isArithFloat wd.ty) = true)
  (hw : wd.ty = .raw ∨ wd.ty.width = some (ewOf e.vtype)) (hfit : IndicesFit t e a ti wd)

/-- Two words of the window, by their bytes. -/
theorem window_words_apart {w b o p : Nat} (hw : w = 8 ∨ w = 16 ∨ w = 32 ∨ w = 64) (ho : o % (w / 8) = 0) (hp : p % (w / 8) = 0) :
    8 * (b + p) = 8 * (b + o) ∨ 8 * (b + p) + w ≤ 8 * (b + o) ∨ 8 * (b + o) + w ≤ 8 * (b + p) := by
  rcases hw with rfl | rfl | rfl | rfl <;> omega

include hs hw4 hty hw hfit

/-- A word of the window holds what the additions to it make of it. -/
theorem added_word {lane o : Nat} (hl : lane < 256) (ho : o % (ewOf e.vtype / 8) = 0) (hin : 8 * (wd.off + o) + ewOf e.vtype ≤ 8192) :
    ∀ n ≤ e.vl, laneGet (addedUpTo t e a ti wd n).lane lane (8 * (wd.off + o)) (ewOf e.vtype) = wordAfter t e a ti wd lane o n
  | 0, _ => rfl
  | n + 1, hn => by
    have ih := added_word hl ho hin n (by omega)
    have hew : ewOf e.vtype = 8 ∨ ewOf e.vtype = 16 ∨ ewOf e.vtype = 32 ∨ ewOf e.vtype = 64 := (ew_cases hs.vtype).resolve_left hw4
    rw [addedUpTo_succ, wordAfter_succ]
    by_cases hact : admits t.k a.m n = true
    · obtain ⟨-, hal, hfits⟩ := hfit n (by omega) hact
      rw [if_pos hact, addTo_eq]
      refine (laneGet_laneSet _ (n % 256) lane _ _ (ewOf e.vtype) _ (Nat.mod_lt _ (by omega)) hl hfits hin (window_words_apart hew hal ho)).trans ?_
      by_cases hsame : lane = n % 256 ∧ 8 * (wd.off + o) = 8 * (wd.off + windowOff t e a ti n)
      · obtain ⟨h1, h2⟩ := hsame
        have ho' : windowOff t e a ti n = o := by omega
        rw [if_pos ⟨h1, h2⟩, if_pos ⟨hact, h1.symm, ho'⟩, ← ih]
        show (addElem wd.ty (ewOf e.vtype) (modeOf e a.rm) false (laneGet (addedUpTo t e a ti wd n).lane (n % 256) (8 * (wd.off + windowOff t e a ti n)) _)
          (elem t e a.va n)).1 % _ = _
        rw [← h1, ← h2, Nat.mod_eq_of_lt (addElem_lt hty hw _ _ _ _)]
        rfl
      · rw [if_neg hsame, if_neg fun hh => hsame ⟨hh.2.1.symm, by rw [hh.2.2]⟩]
        exact ih
    · rw [if_neg hact, if_neg fun hh => hact hh.1]
      exact ih

omit hs hw4 hty hw hfit in
/-- A byte that no active element's word holds stands. -/
theorem added_byte {lane b : Nat} (hl : lane < 256) (hb : b < 1024) (hout : ∀ n < e.vl, admits t.k a.m n = true → n % 256 = lane →
    b < wd.off + windowOff t e a ti n ∨ wd.off + windowOff t e a ti n + ewOf e.vtype / 8 ≤ b) (h8 : 8 * (ewOf e.vtype / 8) = ewOf e.vtype) :
    ∀ n ≤ e.vl, laneGet (addedUpTo t e a ti wd n).lane lane (8 * b) 8 = laneGet t.lane lane (8 * b) 8
  | 0, _ => rfl
  | n + 1, hn => by
    rw [addedUpTo_succ]
    by_cases hact : admits t.k a.m n = true
    · rw [if_pos hact, addTo_eq]
      refine (laneGet_laneSet_apart _ (n % 256) lane _ _ (ewOf e.vtype) 8 _ (Nat.mod_lt _ (by omega)) hl (by omega) ?_).trans
        (added_byte hl hb hout h8 n (by omega))
      by_cases hlane : n % 256 = lane
      · have := hout n (by omega) hact hlane
        show _ ∨ _ ≤ 8 * (wd.off + windowOff t e a ti n) ∨ 8 * (wd.off + windowOff t e a ti n) + _ ≤ _
        omega
      · exact .inl (Ne.symm hlane)
    · rw [if_neg hact]
      exact added_byte hl hb hout h8 n (by omega)

/-- Each addition raises its flags in the lane of its element. -/
theorem added_flags {lane b : Nat} (hl : lane < 256) (hb : b < 7) : ∀ n ≤ e.vl, (addedUpTo t e a ti wd n).lflags.getLsbD (8 * lane + b)
    = (t.lflags.getLsbD (8 * lane + b) || (List.range n).any fun n => admits t.k a.m n && n % 256 == lane
      && (addElem wd.ty (ewOf e.vtype) (modeOf e a.rm) false (wordAfter t e a ti wd lane (windowOff t e a ti n) n) (elem t e a.va n)).2.getLsbD b)
  | 0, _ => by simp [addedUpTo]
  | n + 1, hn => by
    have ih := added_flags hl hb n (by omega)
    rw [addedUpTo_succ, List.range_succ, List.any_append, ← Bool.or_assoc, ← ih]
    simp only [List.any_cons, List.any_nil, Bool.or_false]
    by_cases hact : admits t.k a.m n = true
    · obtain ⟨-, hal, hfits⟩ := hfit n (by omega) hact
      rw [if_pos hact, hact, Bool.true_and]
      refine ((raise_bits _ _ _).2 lane hl b hb).trans ?_
      show (_ || (n % 256 % 256 == lane && (addElem wd.ty (ewOf e.vtype) (modeOf e a.rm) false
        (laneGet (addedUpTo t e a ti wd n).lane (n % 256) (8 * (wd.off + windowOff t e a ti n)) (ewOf e.vtype)) (elem t e a.va n)).2.getLsbD b)) = _
      rw [Nat.mod_mod]
      by_cases hlane : n % 256 = lane
      · rw [hlane, added_word hs hw4 hty hw hfit hl hal hfits n (by omega)]
      · rw [beq_false_of_ne hlane, Bool.false_and, Bool.false_and]
    · rw [if_neg hact, eq_false_of_ne_true hact, Bool.false_and, Bool.false_and, Bool.or_false]
end
end
end Sys2Proof.Machine
end

section
/-!
SUPPORT. CONVOY_START of `vwacc.add` (R276).
-/

namespace Sys2Proof.Machine

section
variable {s : State} {sid : Nat} {t : Strand} {e : Entry} (h : Alone s sid t e) (hs : Setting t e)

/-- The run of a `vwacc.add` after its first elements: its additions wait. -/
def windowRun (t : Strand) (s : State) (e : Entry) (a : Vwacc) (ti : Tag) (wd : Window) (n : Nat) : Run :=
  { Run.start t s none with pend := ((List.range n).filter fun n => admits t.k a.m n).map (windowAdd t e a ti wd) }

include h hs in
theorem windowAdds {a : Vwacc} {ti : Tag} {wd : Window} (hi : e.i = .vwaccAdd a) (hwin : t.win = some wd)
    (ha : SourceGroup t e.vtype a.va (ewOf e.vtype) wd.ty) (hb : SourceGroup t e.vtype a.vb (ewOf e.vtype) ti) (hti : ti = .raw ∨ ti.isInt = true)
    (hfit : IndicesFit t e a ti wd) {p : State → Strand → Prop}
    (hpost : ∀ s' t', OnlyLanes s s' t t' → t'.lane = (addedUpTo t e a ti wd e.vl).lane → t'.lflags = (addedUpTo t e a ti wd e.vl).lflags → p s' t') :
    Performs s sid e none p := by
  let x : Px := e.px t s ⟨t.v, t.k⟩ e.vl true none false
  have hframe := addedUpTo_frame (t := t) (e := e) (a := a) (ti := ti) (wd := wd) e.vl
  have hchecks : (do
      x.groups none [(a.va, x.ew), (a.vb, x.ew)]
      let u ← x.tag a.va x.ew
      let v ← x.tag a.vb x.ew
      needTag (indexOk v x.ew && match x.t.win with
        | some wd => wd.ty == u
        | none => true)
      pure (u, v) : Except Cause (Tag × Tag)) = .ok (wd.ty, ti) := by
    rw [Px.groups_sources fun o ho => by
      simp only [List.mem_cons, List.not_mem_nil, or_false] at ho
      rcases ho with rfl | rfl
      · exact ha.placed
      · exact hb.placed, show x.tag a.va x.ew = .ok wd.ty from Px.tag_source (t := t) ha rfl]
    show (x.tag a.vb x.ew >>= _) = _
    rw [show x.tag a.vb x.ew = .ok ti from Px.tag_source (t := t) hb rfl]
    have hneed : (indexOk ti x.ew && match x.t.win with
        | some w => w.ty == wd.ty
        | none => true) = true := by
      rw [show x.t.win = some wd from hwin, show indexOk ti x.ew = true from indexOk_of hti hb.width]
      exact beq_self_eq_true _
    exact congrArg (fun r : Except Cause Unit => r >>= fun _ => pure (wd.ty, ti)) (needTag_true hneed)
  refine performs_lanes h hs (r := windowRun t s e a ti wd) (r2 := .start (addedUpTo t e a ti wd e.vl) s none) (by rw [hi]; rfl)
    (by unfold Entry.loads; rw [hi]; rfl)
    (step := fun n r => if admits r.t.k a.m n then
        let o := (shiftIndex ti x.ew (elemGet r.t.v x.q a.vb.toNat x.ew n) a.sh.toNat).toNat
        if o ≥ wd.size ∨ o % (x.ew / 8) ≠ 0 then .stop (.precise n .winRange 0 0 r.s)
        else .ok { r with pend := r.pend ++ [⟨n % 256, 8 * (wd.off + o), wd.ty, x.rm a.rm, x.ew, elemGet r.t.v x.q a.va.toNat x.ew n⟩] }
      else .ok r) (final := fun r => .ok r.settle) ?_ (fun n r r' h1 h2 => ?_) rfl (fun n hn => ?_) ?_ rfl rfl hframe hpost
  · rw [hi]
    show prepWacc a x = _
    unfold prepWacc
    dsimp only
    refine (congrArg (fun c => x.checked c _) hchecks).trans ?_
    dsimp only [Px.checked]
    rw [show x.t.win = some wd from hwin]
    rfl
  · split at h1
    · dsimp only at h1
      split at h1
      · cases h1
      · rw [← Rr.ok.inj h1]; exact h2
    · rw [← Rr.ok.inj h1]; exact h2
  · have hoff : (shiftIndex ti x.ew (elemGet (windowRun t s e a ti wd n).t.v x.q a.vb.toNat x.ew n) a.sh.toNat).toNat = windowOff t e a ti n := by
      unfold shiftIndex windowOff indexWord
      have hext := extendElem_eq (x := elem t e a.vb n) (ew_pos hs.vtype) hb.width
      exact congrArg (fun y : Word => (y <<< a.sh.toNat).toNat) hext
    have hsucc : windowRun t s e a ti wd (n + 1) = if admits t.k a.m n = true then
        { windowRun t s e a ti wd n with pend := (windowRun t s e a ti wd n).pend ++ [windowAdd t e a ti wd n] } else windowRun t s e a ti wd n := by
      unfold windowRun
      rw [List.range_succ, List.filter_append, List.map_append]
      by_cases hact : admits t.k a.m n = true
      · rw [if_pos hact, List.filter_cons_of_pos hact]
        rfl
      · rw [if_neg hact, List.filter_cons_of_neg hact, List.filter_nil, List.map_nil, List.append_nil]
    rw [hsucc]
    by_cases hact : admits t.k a.m n = true
    · obtain ⟨h1, h2, -⟩ := hfit n hn hact
      refine (if_pos hact).trans ?_
      have hin : ¬ (windowOff t e a ti n ≥ wd.size ∨ windowOff t e a ti n % (x.ew / 8) ≠ 0) := by
        rintro (hh | hh)
        · omega
        · exact hh h2
      rw [if_pos hact]
      dsimp only
      simp only [hoff]
      rw [if_neg hin]
      unfold windowAdd
      rw [modeOf_eq]
      rfl
    · refine (if_neg hact).trans ?_
      rw [if_neg hact]
  · exact congrArg Rr.ok (settle_eq t s _ _ _)
end

theorem windowUpdates : WindowUpdates := by
  intro s sid t e a ti wd h hs hi hwin w ha hty hb hti hw4 off hfit f add after
  have hw := ha.width
  have hew := (ew_cases hs.vtype).resolve_left hw4
  have h8 : 8 * (ewOf e.vtype / 8) = ewOf e.vtype := by omega
  refine windowAdds h hs hi hwin ha hb hti hfit fun s' t' ho hl hf => ⟨ho, fun lane hlane o ho hin => ?_, fun lane hlane b hb hout => ?_,
    fun lane hlane b hb => ?_⟩
  · rw [hl]
    exact added_word hs hw4 hty hw hfit hlane ho hin e.vl le_rfl
  · rw [hl]
    exact added_byte hlane hb hout h8 e.vl le_rfl
  · rw [hf]
    exact added_flags hs hw4 hty hw hfit hlane hb e.vl le_rfl
end Sys2Proof.Machine

open Sys2Proof Sys2Proof.Machine

/-- Settles O39: each element's access to its lane stands after the elements below it. -/
theorem laneTablesAndWindows : Obligations.LaneTablesAndWindows :=
  ⟨laneTableResults, windowUpdates⟩

end

section
/-!
SUPPORT. Stores of elements, one after another, and what they leave of memory (R66, R119, R217 to R221).
-/

namespace Sys2Proof.Machine

/-! ## Runs with an invariant -/

/-- A run whose every element goes on and keeps a property of what is done so far. -/
theorem eachElem_inv {f : Nat → Run → Rr} {P : Nat → Run → Prop} {m : Nat} {r0 : Run} (h0 : P 0 r0)
    (hstep : ∀ n < m, ∀ r, P n r → ∃ r', f n r = .ok r' ∧ P (n + 1) r') : ∃ r, eachElem f m 0 r0 = .ok r ∧ P m r := by
  induction m with
  | zero => exact ⟨r0, rfl, h0⟩
  | succ m ih =>
    obtain ⟨r, hr, hP⟩ := ih fun n hn => hstep n (by omega)
    obtain ⟨r', hr', hP'⟩ := hstep m (by omega) r hP
    refine ⟨r', ?_, hP'⟩
    rw [eachElem_add, hr, Nat.zero_add]
    show (f m r).bind _ = _
    rw [hr']
    rfl

/-! ## One element -/

theorem Run.touchVa_eq (r : Run) (va : Word) (n : Nat) (need : Need) : ∃ acc, r.touchVa va n need = { r with acc := acc } := by
  unfold Run.touchVa
  split
  · exact ⟨_, rfl⟩
  · exact ⟨_, rfl⟩

/-- What an element's bytes are stored as: a 4-bit element beside the other half of its byte. -/
def storedBytes (w n old v : Nat) : Nat :=
  if w = 4 then (if n % 2 = 0 then old / 16 * 16 + v else old % 16 + 16 * v) else v

/-- A store of an element that its home serves. -/
theorem storeElem_served {r : Run} {w n : Nat} {va : Word} {v : Nat} {ent : TlbEntry} {h : Nat}
    (hm : Mapped r.s r.t.qctx va (elemBytes w) .write ent) (hs : Served r.s r.t.qctx va ent h) :
    ∃ acc, storeElem r w n va v = .ok { r with
      s := r.s.writeHome h (leBytes (elemBytes w) (storedBytes w n (Memory.read r.s.mem h 1) v))
      t := { r.t with lbuf := dropLines r.t.lbuf va (lineOf h) }, acc := acc } := by
  unfold storeElem
  by_cases hw : w = 4
  · subst hw
    rw [show elemBytes 4 = 1 from rfl] at hm ⊢
    rw [if_pos rfl, State.resolve_served hm hm.aligned hs hs.dataCause]
    dsimp only [ofPrecise]
    rw [State.atHome_served hs]
    exact ⟨_, rfl⟩
  · have hb : elemBytes w = w / 8 := if_neg hw
    obtain ⟨acc, hacc⟩ := r.touchVa_eq va (w / 8) .write
    rw [hb] at hm
    rw [if_neg hw]
    dsimp only
    rw [hacc, State.store_served hm hs, hb]
    refine ⟨acc, ?_⟩
    unfold storedBytes
    rw [if_neg hw]
    rfl

/-! ## What the stores of the first elements leave -/

section
variable {s : State} {t : Strand} {count : Nat} {act : Nat → Bool} {va : Nat → Word} {w : Nat} {ent : Nat → TlbEntry} {h x : Nat → Nat}

/-- The package and the strand once the first `n` elements are stored. -/
structure StoredUpTo (s : State) (t : Strand) (act : Nat → Bool) (w : Nat) (h x : Nat → Nat) (n : Nat) (z : State) (u : Strand) : Prop where
  package : z = { s with mem := z.mem, lines := z.lines }
  strand : u = { t with lbuf := u.lbuf }
  ok : z.memOk
  mapped : ∀ {c va k need e}, Mapped s c va k need e → Mapped z c va k need e
  served : ∀ {c va e hb}, Served s c va e hb → Served z c va e hb
  body : ∀ k < n, act k = true → Memory.read z.mem (h k) (elemBytes w) / 2 ^ bitsBelow w k % 2 ^ w = x k % 2 ^ w
  half : w = 4 → ∀ k < n, act k = true → (∀ j < n, act j = true → h j = h k → j = k) →
    Memory.read z.mem (h k) 1 / 2 ^ (4 - bitsBelow w k) % 16 = Memory.read s.mem (h k) 1 / 2 ^ (4 - bitsBelow w k) % 16
  rest : ∀ a, (∀ k < n, act k = true → a < h k ∨ h k + elemBytes w ≤ a) → Memory.get z.mem a = Memory.get s.mem a
  lines : ∀ l, z.lineState l = s.lineState l
  buffer : ∀ b ∈ u.lbuf, b ∈ t.lbuf ∧ ∀ k < n, act k = true → b.home ≠ lineOf (h k)

theorem storedUpTo_zero (hok : s.memOk) : StoredUpTo s t act w h x 0 s t :=
  ⟨rfl, rfl, hok, id, id, fun _ hk => absurd hk (Nat.not_lt_zero _), fun _ _ hk => absurd hk (Nat.not_lt_zero _), fun _ _ => rfl, fun _ => rfl,
    fun _ hb => ⟨hb, fun _ hk => absurd hk (Nat.not_lt_zero _)⟩⟩

/-- An element that is not active is left out. -/
theorem StoredUpTo.skip {n : Nat} {z : State} {u : Strand} (hz : StoredUpTo s t act w h x n z u) (hn : act n ≠ true) : StoredUpTo s t act w h x (n + 1) z u := by
  have hlt {k : Nat} (hk : k < n + 1) (ha : act k = true) : k < n := by
    rcases Nat.lt_succ_iff_lt_or_eq.1 hk with h | rfl
    · exact h
    · exact absurd ha hn
  refine ⟨hz.package, hz.strand, hz.ok, hz.mapped, hz.served, fun k hk ha => hz.body k (hlt hk ha) ha,
    fun hw k hk ha hone => hz.half hw k (hlt hk ha) ha fun j hj => hone j (by omega), fun a hout => hz.rest a fun k hk => hout k (by omega), hz.lines,
    fun b hb => ⟨(hz.buffer b hb).1, fun k hk ha => (hz.buffer b hb).2 k (hlt hk ha) ha⟩⟩

/-- The bytes of an element hold it, beside what the other half of a byte held. -/
theorem storedBytes_body {w n old v : Nat} (hw : w = 4 ∨ 8 * elemBytes w = w) (hv : v < 2 ^ w) (hold : old < 256) :
    storedBytes w n old v % 2 ^ (8 * elemBytes w) / 2 ^ bitsBelow w n % 2 ^ w = v := by
  unfold storedBytes bitsBelow
  by_cases h4 : w = 4
  · subst h4
    have hv : v < 16 := hv
    rw [show elemBytes 4 = 1 from rfl, if_pos rfl, if_pos rfl]
    rcases Nat.mod_two_eq_zero_or_one n with hn | hn
    · rw [if_pos hn, hn]
      norm_num
      omega
    · rw [if_neg (by omega), hn]
      norm_num
      omega
  · rw [if_neg h4, if_neg h4, hw.resolve_left h4, Nat.pow_zero, Nat.div_one, Nat.mod_mod, Nat.mod_eq_of_lt hv]

theorem storedBytes_half {n old v : Nat} (hv : v < 16) (hold : old < 256) :
    storedBytes 4 n old v % 256 / 2 ^ (4 - bitsBelow 4 n) % 16 = old / 2 ^ (4 - bitsBelow 4 n) % 16 := by
  unfold storedBytes bitsBelow
  rw [if_pos rfl, if_pos rfl]
  rcases Nat.mod_two_eq_zero_or_one n with hn | hn
  · rw [if_pos hn, hn]
    norm_num
    omega
  · rw [if_neg (by omega), hn]
    norm_num

/-- The half of a shared byte that an element does not hold is left as it was. -/
theorem storedBytes_other {n k old v : Nat} (hv : v < 16) (hold : old < 256) (hnk : n % 2 ≠ k % 2) :
    storedBytes 4 n old v % 256 / 2 ^ bitsBelow 4 k % 16 = old / 2 ^ bitsBelow 4 k % 16 := by
  have h := storedBytes_half (n := n) hv hold
  have hb : 4 - bitsBelow 4 n = bitsBelow 4 k := by
    unfold bitsBelow
    rw [if_pos rfl, if_pos rfl]
    omega
  rwa [hb] at h

/-- The store of the next element. -/
theorem StoredUpTo.store {n : Nat} {z : State} {u : Strand} (hz : StoredUpTo s t act w h x n z u) (hw : w = 4 ∨ 8 * elemBytes w = w)
    (hx : x n < 2 ^ w) (hwr : Writes s t count act va (elemBytes w) w ent h) (hn : n < count) (hact : act n = true) :
    StoredUpTo s t act w h x (n + 1) (z.writeHome (h n) (leBytes (elemBytes w) (storedBytes w n (Memory.read z.mem (h n) 1) (x n))))
      { u with lbuf := dropLines u.lbuf (va n) (lineOf (h n)) } := by
  have hserved := hz.served (hwr.served n hn hact)
  have hplain := hserved.plain
  have hline := State.lineState_writeHome hplain (leBytes (elemBytes w) (storedBytes w n (Memory.read z.mem (h n) 1) (x n)))
  have hframe := State.writeHome_frame z (h n) (leBytes (elemBytes w) (storedBytes w n (Memory.read z.mem (h n) 1) (x n)))
  have hmem : (z.writeHome (h n) (leBytes (elemBytes w) (storedBytes w n (Memory.read z.mem (h n) 1) (x n)))).mem
      = Memory.write z.mem (h n) (elemBytes w) (storedBytes w n (Memory.read z.mem (h n) 1) (x n)) := State.writeHome_mem ..
  have hold : Memory.read z.mem (h n) 1 < 256 := Memory.read_lt z.mem (h n) 1
  have hread := Memory.read_write_same hz.ok.1 (h n) (elemBytes w) (storedBytes w n (Memory.read z.mem (h n) 1) (x n))
  have hsucc {k : Nat} (hk : k < n + 1) : k < n ∨ k = n := by omega
  refine ⟨?_, ?_, State.memOk_writeHome hz.ok _ _, fun hm => (hz.mapped hm).writeHome _ _, fun hs => (hz.served hs).writeHome hplain _,
    fun k hk ha => ?_, fun h4 k hk ha hone => ?_, fun a hout => ?_, fun l => (hline l).trans (hz.lines l), fun b hb => ?_⟩
  · rw [hframe, hz.package]
  · rw [hz.strand]
  · rw [hmem]
    rcases hsucc hk with hkn | rfl
    · rcases hwr.apart n hn k (by omega) hact ha (by omega) with hap | hap | ⟨h4, hhk, hpar⟩
      · rw [Memory.read_write_apart _ _ _ _ _ _ (.inr hap)]
        exact hz.body k hkn ha
      · rw [Memory.read_write_apart _ _ _ _ _ _ (.inl hap)]
        exact hz.body k hkn ha
      · have hb := hz.body k hkn ha
        subst h4
        rw [← hhk] at hb ⊢
        rw [hread]
        exact (storedBytes_other hx hold hpar).trans hb
    · rw [hread, storedBytes_body hw hx hold, Nat.mod_eq_of_lt hx]
  · subst h4
    rw [hmem]
    rcases hsucc hk with hkn | rfl
    · have hne : h n ≠ h k := fun he => by
        have := hone n (by omega) hact he
        omega
      rw [Memory.read_write_apart _ _ _ _ _ _ (show h k + 1 ≤ h n ∨ h n + elemBytes 4 ≤ h k by rw [show elemBytes 4 = 1 from rfl]; omega)]
      exact hz.half rfl k hkn ha fun j hj => hone j (by omega)
    · rw [show elemBytes 4 = 1 from rfl] at hread ⊢
      rw [hread]
      refine (storedBytes_half hx hold).trans ?_
      have hbyte : Memory.bytes z.mem (h k) 1 = Memory.bytes s.mem (h k) 1 := Memory.bytes_congr fun i hi => by
        refine hz.rest _ fun j hj haj => ?_
        have hne : h j ≠ h k := fun he => by
          have := hone j (by omega) haj he
          omega
        rw [show elemBytes 4 = 1 from rfl]
        omega
      rw [show Memory.read z.mem (h k) 1 = Memory.read s.mem (h k) 1 from congrArg leNat hbyte]
  · rw [hmem, Memory.write, Memory.get_fill_other _ _ _ (by rw [length_leBytes]; exact hout n (by omega) hact)]
    exact hz.rest a fun k hk => hout k (by omega)
  · obtain ⟨hmem, hne⟩ := mem_dropLines hb
    refine ⟨(hz.buffer b hmem).1, fun k hk ha => ?_⟩
    rcases hsucc hk with hkn | rfl
    · exact (hz.buffer b hmem).2 k hkn ha
    · exact hne

/-- What a convoy leaves whose elements are all stored. -/
theorem StoredUpTo.stored {z s' : State} {u t' : Strand} (hz : StoredUpTo s t act w h x count z u) (hvamo : t.vamo = none)
    (hs' : s' = { z with freeCtr := s'.freeCtr, svcs := s'.svcs, strands := s'.strands })
    (hu : t' = { u with stlMem := t'.stlMem, viq := t'.viq, xch := .none, held := none, vamo := none }) (hstl : t'.stlMem = u.stlMem) :
    Stored s s' t t' count act (elemBytes w) w h x := by
  have hmem : s'.mem = z.mem := by rw [hs']
  have hbuf : t'.lbuf = u.lbuf := by rw [hu]
  refine ⟨?_, ?_, ?_, ?_, ?_, fun l => ?_, ?_⟩
  · rw [hs', hz.package]
  · rw [hstl, hz.strand] at hu
    rw [hu, hvamo]
  · rw [hmem]; exact hz.body
  · rw [hmem]; exact hz.half
  · rw [hmem]; exact hz.rest
  · refine Eq.trans ?_ (hz.lines l)
    rw [hs']
    rfl
  · rw [hbuf]; exact hz.buffer
end

end Sys2Proof.Machine
end

section
/-!
SUPPORT. CONVOY_START of vector stores (R66, R217 to R219, R221).
-/

namespace Sys2Proof.Machine

/-! ## Address forms -/

section
variable {s : State} {t : Strand} {e : Entry}

/-- The words of an entry that prepare it alone. -/
def alonePx (s : State) (t : Strand) (e : Entry) : Px := e.px t s ⟨t.v, t.k⟩ e.vl true none false

/-- What an address form needs of its index group, and the addresses it gives. -/
structure FormOk (s : State) (t : Strand) (e : Entry) (f : Form) (ti : Tag) (va : Nat → Word) : Prop where
  tag : (alonePx s t e).formTag f = .ok ti
  placed : ∀ o ∈ f.sources (ewOf e.vtype), groupOk o.1.toNat (groupSize e.vtype o.2) = true
  width : (f == .unit || ewOf e.vtype != 4) = true
  addr : ∀ n (v : Vector VecReg 64), (∀ vb sh, f = .indexed vb sh → elemGet v t.q vb.toNat (ewOf e.vtype) n = elem t e vb n) →
    (alonePx s t e).addr f ti v n = va n

theorem formOk_unit : FormOk s t e .unit .raw (unitVa e) :=
  ⟨rfl, fun _ ho => absurd ho List.not_mem_nil, rfl, fun _ _ _ => rfl⟩

theorem formOk_strided (hw : ewOf e.vtype ≠ 4) : FormOk s t e .strided .raw (strideVa e) :=
  ⟨rfl, fun _ ho => absurd ho List.not_mem_nil, by simp [hw], fun _ _ _ => rfl⟩

theorem formOk_indexed (hs : Setting t e) (hw : ewOf e.vtype ≠ 4) {vb : VReg} {ti : Tag} {sh : BitVec 2} (hb : SourceGroup t e.vtype vb (ewOf e.vtype) ti)
    (hti : ti = .raw ∨ ti.isInt = true) : FormOk s t e (.indexed vb sh.toNat) ti (indexVa t e vb ti sh) := by
  refine ⟨?_, fun o ho => ?_, by simp [hw], fun n v hv => ?_⟩
  · show ((alonePx s t e).tag vb (ewOf e.vtype) >>= _) = _
    rw [show (alonePx s t e).tag vb (ewOf e.vtype) = .ok ti from Px.tag_source (t := t) hb rfl]
    exact congrArg (fun r : Except Cause Unit => r >>= fun _ => pure ti) (needTag_true (indexOk_of hti hb.width))
  · obtain rfl := List.mem_singleton.1 ho
    exact hb.placed
  · have hext := extendElem_eq (x := elem t e vb n) (ew_pos hs.vtype) hb.width
    show e.ops.getD 0 0 + extendElem ti (ewOf e.vtype) (elemGet v t.q vb.toNat (ewOf e.vtype) n) <<< sh.toNat = _
    rw [hv vb sh.toNat rfl, hext]
    rfl
end

/-! ## Accesses that go on -/

/-- A precise access that goes on has succeeded. -/
theorem ofPrecise_ok {α : Type} {r r' : Run} {n : Nat} {x : Res α} {f : α → Run → Rr} (h : ofPrecise r n x f = .ok r') :
    ∃ v z, x = .ok v z ∧ f v { r with s := z } = .ok r' := by
  cases x with
  | ok v z => exact ⟨v, z, rfl, h⟩
  | _ => cases h

/-- A load that goes on has succeeded. -/
theorem ofLoad_ok {α : Type} {r r' : Run} {n : Nat} {x : Res α} {f : α → Run → Rr} (h : ofLoad r n x f = .ok r') :
    ∃ v z, x = .ok v z ∧ f v { r with s := z } = .ok r' := by
  cases x with
  | ok v z => exact ⟨v, z, rfl, h⟩
  | _ => cases h

theorem storeElem_out {r r' : Run} {w n : Nat} {va : Word} {v : Nat} (h : storeElem r w n va v = .ok r') : r'.out = r.out := by
  unfold storeElem at h
  split at h
  · obtain ⟨l, z, -, h⟩ := ofPrecise_ok h
    obtain ⟨l, z, -, h⟩ := ofPrecise_ok h
    rw [← Rr.ok.inj h]
    rfl
  · obtain ⟨lb, z, -, h⟩ := ofPrecise_ok h
    obtain ⟨acc, hacc⟩ := r.touchVa_eq va (w / 8) .write
    rw [← Rr.ok.inj h, hacc]

/-! ## Stores -/

section
variable {s : State} {sid : Nat} {t : Strand} {e : Entry} (h : Alone s sid t e) (hs : Setting t e)

/-- Addresses that are equal are served at one home byte. -/
theorem home_of_address {c : Ctx} {va va' : Word} {k : Nat} {ent ent' : TlbEntry} {hb hb' : Nat} (hva : va = va')
    (hm : Mapped s c va k .write ent) (hm' : Mapped s c va' k .write ent') (hv : Served s c va ent hb) (hv' : Served s c va' ent' hb') : hb = hb' := by
  subst hva
  obtain rfl : ent = ent' := Option.some.inj (hm.hit.symm.trans hm'.hit)
  have h1 := hv.2
  have h2 := hv'.2
  by_cases hx : pteAttr ent.pte = attrSlab
  · rw [if_pos hx] at h1 h2
    exact Option.some.inj (h1.symm.trans h2)
  · rw [if_neg hx] at h1 h2
    rw [h1.1, h2.1]

theorem elemBytes_width (hs : Setting t e) : ewOf e.vtype = 4 ∨ 8 * elemBytes (ewOf e.vtype) = ewOf e.vtype := by
  unfold elemBytes
  rcases ew_cases hs.vtype with hw | hw | hw | hw | hw <;> rw [hw] <;> simp

include h hs

theorem performs_store (hok : s.memOk) {f : Form} {ordered : Bool} {vd : VReg} {m : MaskOp} {ti ty : Tag} {va : Nat → Word} {ent : Nat → TlbEntry} {hb : Nat → Nat}
    (hva : isVamo e.i = false) (hload : e.loads = false) (hprep : ∀ x : Px, prepare e.i x = prepStore f ordered vd m x)
    (hform : FormOk s t e f ti va) (hd : SourceGroup t e.vtype vd (ewOf e.vtype) ty)
    (hfree : ordered = true ∨ ewOf e.vtype ≠ 4) (hwr : Writes s t e.vl (admits t.k m) va (elemBytes (ewOf e.vtype)) (ewOf e.vtype) ent hb) :
    Performs s sid e none fun s' t' => Stored s s' t t' e.vl (admits t.k m) (elemBytes (ewOf e.vtype)) (ewOf e.vtype) hb fun n => keptBits ty (elem t e vd n) := by
  let x : Px := alonePx s t e
  have hchecks : (do
      x.groups none ((vd, x.ew) :: f.sources x.ew)
      let u ← x.formTag f
      let t ← x.tag vd x.ew
      needTag (f == .unit || x.ew != 4)
      pure (u, t) : Except Cause (Tag × Tag)) = .ok (ti, ty) := by
    rw [Px.groups_sources fun o ho => by
      rcases List.mem_cons.1 ho with rfl | ho
      · exact hd.placed
      · exact hform.placed o ho]
    show (x.formTag f >>= _) = _
    rw [show x.formTag f = .ok ti from hform.tag]
    show (x.tag vd x.ew >>= _) = _
    rw [show x.tag vd x.ew = .ok ty from Px.tag_source (t := t) hd rfl]
    exact congrArg (fun r : Except Cause Unit => r >>= fun _ => pure (ti, ty)) (needTag_true hform.width)
  have hp : prepare e.i x = .ok t ⟨overElems fun n r => if admits r.t.k m n then
        if ordered || Config.scatterLater r.s.freeCtr || !(List.range n).any fun k => admits r.t.k m k && x.addr f ti r.t.v k == x.addr f ti r.t.v n
        then storeElem r x.ew n (x.addr f ti r.t.v n) (ty.kept (elemGet r.t.v x.q vd.toNat x.ew n))
        else ofPrecise r n (r.s.resolve r.t.qctx (x.addr f ti r.t.v n) (x.ew / 8) (x.ew / 8) .write .data) fun _ r' => .ok r'
      else .ok r, fun r => .ok (if ordered then r else { r with s := { r.s with freeCtr := r.s.freeCtr + 1 } })⟩ := by
    rw [hprep x]
    unfold prepStore
    dsimp only
    rw [hchecks]
    rfl
  have haddr (u : Strand) (hu : u = { t with lbuf := u.lbuf }) (n : Nat) : x.addr f ti u.v n = va n := by
    rw [hu]
    exact hform.addr n t.v fun _ _ _ => rfl
  obtain ⟨r1, hrun, ⟨hz, hout⟩⟩ := eachElem_inv (m := e.vl) (r0 := .start t s none)
    (P := fun n r => StoredUpTo s t (admits t.k m) (ewOf e.vtype) hb (fun n => keptBits ty (elem t e vd n)) n r.s r.t ∧ r.out = none)
    (f := fun n r => if admits r.t.k m n then
        if ordered || Config.scatterLater r.s.freeCtr || !(List.range n).any fun k => admits r.t.k m k && x.addr f ti r.t.v k == x.addr f ti r.t.v n
        then storeElem r x.ew n (x.addr f ti r.t.v n) (ty.kept (elemGet r.t.v x.q vd.toNat x.ew n))
        else ofPrecise r n (r.s.resolve r.t.qctx (x.addr f ti r.t.v n) (x.ew / 8) (x.ew / 8) .write .data) fun _ r' => .ok r'
      else .ok r) ⟨storedUpTo_zero hok, rfl⟩ fun n hn r ⟨hz, hout⟩ => by
    have hk : r.t.k = t.k := by rw [hz.strand]
    have hq : r.t.qctx = t.qctx := by rw [hz.strand]; rfl
    have hv : elemGet r.t.v x.q vd.toNat x.ew n = elem t e vd n := by rw [hz.strand]; rfl
    by_cases hact : admits t.k m n = true
    · have hfirst : (!(List.range n).any fun k => admits r.t.k m k && x.addr f ti r.t.v k == x.addr f ti r.t.v n) = true ∨ ordered = true := by
        rcases hfree with ho | h4
        · exact .inr ho
        · refine .inl ?_
          rw [Bool.not_eq_true', List.any_eq_false]
          intro k hkn hsame
          have hkn := List.mem_range.1 hkn
          rw [Bool.and_eq_true, beq_iff_eq, hk, haddr r.t hz.strand k, haddr r.t hz.strand n] at hsame
          obtain ⟨hak, heq⟩ := hsame
          have hkc : k < e.vl := by omega
          have hhome := home_of_address heq (hwr.mapped k hkc hak) (hwr.mapped n hn hact) (hwr.served k hkc hak) (hwr.served n hn hact)
          have hbytes := (elemBytes_width hs).resolve_left h4
          have hew := ew_pos hs.vtype
          rcases hwr.apart k hkc n hn hak hact (by omega) with hap | hap | ⟨hap, -⟩
          · omega
          · omega
          · exact h4 hap
      have hkept : (ordered || Config.scatterLater r.s.freeCtr || !(List.range n).any fun k => admits r.t.k m k && x.addr f ti r.t.v k == x.addr f ti r.t.v n) = true := by
        rcases hfirst with h1 | h1 <;> rw [h1] <;> simp
      have hm := hz.mapped (hwr.mapped n hn hact)
      have hsv := hz.served (hwr.served n hn hact)
      obtain ⟨acc, hstep⟩ := storeElem_served (r := r) (w := x.ew) (n := n) (va := va n) (v := keptBits ty (elem t e vd n)) (hq ▸ hm) (hq ▸ hsv)
      rw [← kept_eq_keptBits, ← hv, ← haddr r.t hz.strand n] at hstep
      refine ⟨_, (if_pos (hk ▸ hact)).trans ((if_pos hkept).trans hstep), ?_, hout⟩
      rw [haddr r.t hz.strand n, hv, kept_eq_keptBits]
      exact hz.store (elemBytes_width hs) (elem_kept_lt ..) hwr hn hact
    · exact ⟨r, if_neg (hk ▸ hact), hz.skip hact, hout⟩
  have hstrands : r1.s.strands = s.strands := by rw [hz.package]
  obtain ⟨r2, hr2, hfree2, ht2, hs2⟩ : ∃ r2, (if ordered then r1 else { r1 with s := { r1.s with freeCtr := r1.s.freeCtr + 1 } }) = r2 ∧ r2.out = none ∧ r2.t = r1.t
      ∧ ∃ c, r2.s = { r1.s with freeCtr := c } := by
    refine ⟨_, rfl, ?_⟩
    cases ordered
    · exact ⟨hout, rfl, _, rfl⟩
    · exact ⟨hout, rfl, _, rfl⟩
  obtain ⟨c, hs2⟩ := hs2
  have hsame (n : Nat) : r2.s.strand n = s.strand n := by
    rw [hs2]
    show r1.s.strands.find? _ = _
    rw [hstrands]
    rfl
  rw [← hfree2]
  refine performs_of_run h (by have := hs.length; omega) hva hp (fun n r r' h1 h2 => ?_) hrun (congrArg Rr.ok hr2) ?_ ?_ ?_ (fun n _ => hsame n) ?_
    fun s' u hs' hu hstl => ?_
  · split at h1
    · split at h1
      · exact (storeElem_out h1).trans h2
      · obtain ⟨-, z, -, h1⟩ := ofPrecise_ok h1
        rw [← Rr.ok.inj h1]
        exact h2
    · rw [← Rr.ok.inj h1]
      exact h2
  · rw [ht2, hz.strand]
  · rw [ht2, hz.strand]; exact h.calm
  · rw [ht2, hz.strand]; exact h.sound
  · rw [hsame, h.here]; rfl
  · rw [ht2] at hu hstl
    exact hz.stored h.quiet (by rw [hs', hs2]) hu (hstl hload)
end
end Sys2Proof.Machine

open Sys2Proof Sys2Proof.Machine

/-- Settles O38: each store of an element leaves the bytes of the elements below it. -/
theorem vectorStores : Obligations.VectorStores := by
  intro s sid t e ty ent h hok ha hs w nb stores
  refine ⟨fun a hi hd hwr => ?_, fun a hi h4 hd hwr => ?_, fun a ti hi h4 hb hti hd hwr => ?_⟩
  · exact performs_store ha hs hok (by rw [hi]; rfl) (by unfold Entry.loads; rw [hi]; rfl) (fun x => by rw [hi]; rfl) formOk_unit hd (.inl rfl) hwr
  · exact performs_store ha hs hok (by rw [hi]; rfl) (by unfold Entry.loads; rw [hi]; rfl) (fun x => by rw [hi]; rfl) (formOk_strided h4) hd (.inl rfl) hwr
  · rcases hi with hi | hi
    · exact performs_store ha hs hok (by rw [hi]; rfl) (by unfold Entry.loads; rw [hi]; rfl) (fun x => by rw [hi]; rfl) (formOk_indexed hs h4 hb hti) hd
        (.inr h4) hwr
    · exact performs_store ha hs hok (by rw [hi]; rfl) (by unfold Entry.loads; rw [hi]; rfl) (fun x => by rw [hi]; rfl) (formOk_indexed hs h4 hb hti) hd
        (.inr h4) hwr

end

section
/-!
SUPPORT. A load that drops a line buffered under another address of its home (R285): a counterexample to the clauses that read an older
line from the buffer (O37).
-/

namespace Sys2Proof.Machine

/-- A page whose addresses have the homes of the addresses 0x10000 below them. -/
def aliasPage : TlbEntry := ⟨1, 0x10000, 0x10000, 0x1003F⟩

/-- `vlds` of two words into v20: the first under the other address of line 514, the second under the address the line buffer holds. -/
def aliasLoad : Vstr := ⟨true, 20, 10, 11, .f32, ⟨0, false⟩⟩

/-- Its entry: from 0x10100 on, 0x10000 downward. -/
def aliasEntry : Entry :=
  ⟨.vlds aliasLoad, 0x1000, true, 2, 0x018, [0x10100, -0x10000], 0, [], false, none, false, none, 0, false, none, [], []⟩

/-- A strand of four quarters that holds the entry alone, and line 514 as it once was, under address 0x100. -/
def aliasStrand : Strand :=
  { entryStrand ⟨0, 1, 1, 0, 0, 1, 0, 0, 0, 0, 0, 15⟩ (Vector.replicate 32 0) 0x1000 (Vector.replicate 256 0) with
    vl := 2, viq := [aliasEntry], lbuf := [⟨2, 514, 1⟩] }

/-- A package in which that strand runs, with both pages cached and line 514 plain. -/
def aliasState : State := { State.reset with
  strands := [aliasStrand], tlb := [⟨1, 0, 0x10000, 0x1003F⟩, aliasPage], lines := [(514, .plain)] }

/-- Element 1 of v20 after the convoy. -/
def secondLoaded (o : Out) : Option Nat :=
  match o with
  | .next z => (z.strand 0).map fun t => elemGet t.v 4 20 32 1
  | _ => none

theorem aliasLoads_fresh : secondLoaded (exec (.convoyStart 0) aliasState) = some 0 := by decide +kernel

theorem alias_quarters : aliasStrand.q = 4 := by decide

theorem alias_alone : Alone aliasState 0 aliasStrand aliasEntry :=
  ⟨rfl, rfl, rfl, rfl, rfl, rfl, rfl, rfl, rfl, rfl, rfl, rfl, rfl, rfl, rfl, rfl, rfl, rfl⟩

theorem alias_setting : Setting aliasStrand aliasEntry := by
  refine ⟨by decide, ⟨by rw [alias_quarters]; decide, by rw [alias_quarters]⟩, by decide, ?_⟩
  rw [alias_quarters]
  decide

/-- The cached translations of the two addresses, and their home bytes. -/
def aliasEnt (n : Nat) : TlbEntry := if n = 0 then aliasPage else ⟨1, 0, 0x10000, 0x1003F⟩

theorem alias_reads : Reads aliasState aliasStrand 2 (admits aliasStrand.k ⟨0, false⟩) (strideVa aliasEntry) 4 aliasEnt (fun _ => 0x10100) := by
  refine ⟨fun n hn _ => ?_, fun n hn _ => ?_, fun n hn _ _ => ?_, fun n hn k hk _ _ _ => rfl, .inl ?_⟩
  · interval_cases n <;> exact ⟨by decide +kernel, by decide +kernel, by decide +kernel, by decide +kernel, by decide +kernel⟩
  · interval_cases n <;> unfold Served <;> decide +kernel
  · interval_cases n <;> decide +kernel
  · rw [alias_quarters]
    decide

/-- What the clause states of element 1: the word the buffer holds. -/
theorem alias_stated : under aliasStrand aliasEntry aliasLoad.m 1 (keptBits aliasLoad.ty (loadedValue aliasState aliasStrand (strideVa aliasEntry 1)
    (if ewOf aliasEntry.vtype = 4 then 1 else ewOf aliasEntry.vtype / 8) (aliasEnt 1) 0x10100 / 2 ^ bitsBelow (ewOf aliasEntry.vtype) 1), 0) = (.val 1, 0) := by
  decide +kernel

end Sys2Proof.Machine

open Sys2Proof Sys2Proof.Machine

/-- Refutes O37: where two addresses have one home line, a load under the first drops the line that the buffer holds under the second
(R285), so that a later element reads its home, where the clause states the line buffered before. -/
theorem not_vectorLoads : ¬ Obligations.VectorLoads := by
  intro h
  obtain ⟨hloads, -⟩ := h
  obtain ⟨-, hstrided, -⟩ := hloads aliasState 0 aliasStrand aliasEntry aliasEnt (fun _ => 0x10100) alias_alone alias_setting
  obtain ⟨z, u, hexec, hu, -, -, hw⟩ := hstrided aliasLoad rfl (by decide) ⟨by decide, .inr (by decide), alias_reads⟩
  have hbody : elemGet u.v aliasStrand.q 20 32 1 = 1 := 
    (hw.body 1 (by decide)).trans (congrArg (fun p : Put × Flags => p.1.over _ _) alias_stated)
  have hfresh := aliasLoads_fresh
  rw [hexec, secondLoaded, hu, Option.map_some, Option.some_inj] at hfresh
  rw [alias_quarters, hfresh] at hbody
  cases hbody

end

section
/-!
SUPPORT. A tile loaded under two addresses of its lines: the counterexample of O37 for `mld` (R250, R285).
-/

namespace Sys2Proof.Machine

/-- `mld` of two rows into tile 0. -/
def aliasTileLoad : Mmem := ⟨true, 0, 10, 11, 12, 13, .f32⟩

/-- Its entry: row 0 from 0x10100 on, row 1 from 0x100 on. -/
def aliasTileEntry : Entry :=
  ⟨.mld aliasTileLoad, 0x1000, true, 1, 0x018, [0x10100, -0x10000, 0, 2], 0, [], false, none, false, none, 0, false, none, [], []⟩

/-- A strand of four quarters that holds the entry alone, and line 514 as it once was, under address 0x100. -/
def aliasTileStrand : Strand :=
  { entryStrand ⟨0, 1, 1, 0, 0, 1, 0, 0, 0, 0, 0, 15⟩ (Vector.replicate 32 0) 0x1000 (Vector.replicate 256 0) with
    vl := 1, viq := [aliasTileEntry], lbuf := [⟨2, 514, 1⟩] }

/-- A package in which that strand runs, with both pages cached and its lines plain. -/
def aliasTileState : State := { State.reset with
  strands := [aliasTileStrand], tlb := [⟨1, 0, 0x10000, 0x1003F⟩, aliasPage],
  lines := [(514, .plain), (515, .plain), (516, .plain), (517, .plain)] }

/-- Element (1, 0) of tile 0 after the convoy. -/
def secondRow (o : Out) : Option Nat :=
  match o with
  | .next z => (z.strand 0).map fun t => tileGet (t.tile 0) 1 0
  | _ => none

theorem aliasTile_fresh : secondRow (exec (.convoyStart 0) aliasTileState) = some 0 := by decide +kernel

theorem aliasTile_quarters : aliasTileStrand.q = 4 := by decide

theorem aliasTile_alone : Alone aliasTileState 0 aliasTileStrand aliasTileEntry :=
  ⟨rfl, rfl, rfl, rfl, rfl, rfl, rfl, rfl, rfl, rfl, rfl, rfl, rfl, rfl, rfl, rfl, rfl, rfl⟩

theorem aliasTile_setting : Setting aliasTileStrand aliasTileEntry := by
  refine ⟨by decide, ⟨by rw [aliasTile_quarters]; decide, by rw [aliasTile_quarters]⟩, by decide, ?_⟩
  rw [aliasTile_quarters]
  decide

/-- The address of element n. -/
def aliasTileVa (n : Nat) : Word :=
  aliasTileEntry.ops.getD 0 0 + BitVec.ofNat 64 (n / 128) * aliasTileEntry.ops.getD 1 0 + BitVec.ofNat 64 (n % 128 * (tileBits .f32 / 8))

/-- Its cached translation and its home byte. -/
def aliasTileEnt (n : Nat) : TlbEntry := if n < 128 then aliasPage else ⟨1, 0, 0x10000, 0x1003F⟩
def aliasTileHome (n : Nat) : Nat := 0x10100 + n % 128 * 4

/-- An access of the counterexample, as a check. -/
def aliasAccess (n : Nat) : Bool :=
  decide (canonicalAll (aliasTileVa n) 4 = true ∧ (aliasTileVa n).toNat % 4 = 0 ∧ aliasTileState.tlbHit 1 (va52 (aliasTileVa n)) = some (aliasTileEnt n)
    ∧ ptePermits (aliasTileEnt n).pte .read = true ∧ aliasTileState.denied aliasTileStrand.qctx (va52 (aliasTileVa n)) = none
    ∧ aliasTileState.soft.contains (lineOf (aliasTileHome n)) = false ∧ aliasTileState.behindRequest aliasTileStrand.qctx.who (lineOf (aliasTileHome n)) = false
    ∧ aliasTileState.waitsTurn aliasTileStrand.qctx.who (lineOf (aliasTileHome n)) = false ∧ pteAttr (aliasTileEnt n).pte ≠ attrSlab
    ∧ aliasTileHome n = entryHome (aliasTileEnt n) (va52 (aliasTileVa n)) ∧ hasLines (pteAttr (aliasTileEnt n).pte) = true
    ∧ aliasTileState.lineState (lineOf (aliasTileHome n)) = some .plain ∧ aliasTileState.offline (lineOf (aliasTileHome n)) = false
    ∧ aliasTileState.unreachable (lineOf (aliasTileHome n)) = false
    ∧ va52 (aliasTileVa n) = (if n < 128 then 0x10100 + n % 128 * 4 else 0x100 + n % 128 * 4) ∧ aliasTileHome n % 128 = (aliasTileVa n).toNat % 128)

theorem alias_accesses : ((List.range 256).all aliasAccess) = true := by decide +kernel

theorem aliasTile_reads : Reads aliasTileState aliasTileStrand (128 * 2) (fun _ => true) aliasTileVa 4 aliasTileEnt aliasTileHome := by
  have hall (n : Nat) (hn : n < 128 * 2) := of_decide_eq_true (List.all_eq_true.1 alias_accesses n (List.mem_range.2 hn))
  refine ⟨fun n hn _ => ?_, fun n hn _ => ?_, fun n hn _ _ => ?_, fun n hn k hk _ _ hline => ?_, .inl ?_⟩
  · obtain ⟨h1, h2, h3, h4, h5, -⟩ := hall n hn
    exact ⟨h1, h2, h3, h4, h5⟩
  · obtain ⟨-, -, -, -, -, h1, h2, h3, h4, h5, h6, h7, h8, h9, -⟩ := hall n hn
    exact ⟨⟨h1, h2, h3⟩, (if_neg h4).symm ▸ ⟨h5, .inr ⟨h6, h7, h8, h9⟩⟩⟩
  · obtain ⟨-, -, -, -, -, -, -, -, -, -, -, -, -, -, -, h1⟩ := hall n hn
    exact h1
  · obtain ⟨-, -, -, -, -, -, -, -, -, -, -, -, -, -, h1, -⟩ := hall n hn
    obtain ⟨-, -, -, -, -, -, -, -, -, -, -, -, -, -, h2, -⟩ := hall k hk
    rw [h1, h2] at hline
    unfold aliasTileHome lineOf
    split at hline <;> split at hline <;> omega
  · rw [aliasTile_quarters]
    decide

/-- What the clause states of element (1, 0): the word the buffer holds. -/
theorem aliasTile_stated : loadedValue aliasTileState aliasTileStrand (aliasTileVa 128) 4 (aliasTileEnt 128) (aliasTileHome 128) = 1 := by
  decide +kernel

end Sys2Proof.Machine

open Sys2Proof Sys2Proof.Machine

/-- Refutes O40: where the rows of an `mld` have one home line under two addresses, row 0 drops the line that the buffer holds under the
address of row 1 (R285), so that row 1 reads its home, where the clause states the line buffered before. -/
theorem not_tiles : ¬ Obligations.Tiles := by
  intro h
  obtain ⟨hmoves, -⟩ := h
  obtain ⟨-, -, hmem⟩ := hmoves aliasTileState 0 aliasTileStrand aliasTileEntry aliasTile_alone aliasTile_setting
  obtain ⟨hload, -⟩ := hmem aliasTileLoad aliasTileEnt aliasTileHome (by rw [aliasTile_quarters]; decide) (by decide)
  obtain ⟨z, u, hexec, hu, -, -, -, -, -, htile⟩ := hload rfl (by decide) (.inl (by decide)) aliasTile_reads
  have hbody : tileGet (u.tile 0) 1 0 = 1 := ((htile 1 (by decide) 0 (by decide)).trans (if_pos (by decide))).trans aliasTile_stated
  have hfresh := aliasTile_fresh
  rw [hexec, secondRow, hu, Option.map_some, Option.some_inj, hbody] at hfresh
  cases hfresh

end

section
/-!
SUPPORT. A convoy whose members follow different writers of `vl`: a counterexample to the clause of O44 on a trimmed convoy (R44, R45).
-/

namespace Sys2Proof.Machine

/-- `vadd.i32 v4, v4, v5`, which starts the convoy, and `vld.f32 v20` behind it. -/
def trimSum : Vv := ⟨true, 4, 4, 5, .i32, false, none, ⟨0, false⟩⟩
def trimLoad : Vmem := ⟨false, 20, 10, .f32, ⟨0, false⟩⟩

/-- The sum's entry, which follows writer 1 of `vl`. -/
def trimFirst : Entry := ⟨.vadd trimSum, 0x1000, true, 2, 0x018, [], 0, [], false, none, false, none, 1, false, none, [], []⟩

/-- The load's entry, which follows writer 0: element 0 is the last word of the canonical addresses, element 1 lies past it. -/
def trimSecond : Entry :=
  ⟨.vld trimLoad, 0x1004, false, 2, 0x018, [0x7FFFFFFFFFFFC], 0, [], false, none, false, none, 0, false, none, [], []⟩

/-- v4 and v5 hold I32 elements. -/
def trimRegs : Vector VecReg 64 := Vector.ofFn fun i => if i.val = 4 ∨ i.val = 5 then ⟨.i32, 0⟩ else ⟨.raw, 0⟩

/-- A strand of four quarters that holds the two members; the writer of its `vl` is number 0. -/
def trimStrand : Strand :=
  { entryStrand ⟨0, 1, 1, 0, 0, 1, 0, 0, 0, 0, 0, 15⟩ (Vector.replicate 32 0) 0x1000 (Vector.replicate 256 0) with
    vl := 2, v := trimRegs, viq := [trimFirst, trimSecond] }

/-- The cached page of the last canonical addresses, and the home byte of element 0. -/
def trimPage : TlbEntry := ⟨1, 0x7FFFFFFFF0000, 0x10000, 0x1003F⟩
def trimHome : Nat := 0x1FFFC

/-- A package in which that strand runs, with the page cached and its last line plain. -/
def trimState : State := { State.reset with strands := [trimStrand], tlb := [trimPage], lines := [(1023, .plain)] }

/-- `vl` after the convoy. -/
def lengthLeft (o : Out) : Option Nat :=
  match o with
  | .next z => (z.strand 0).map Strand.vl
  | _ => none

/-- The load trims `vl` for what follows writer 1, so that the strand's own stays. -/
theorem trim_length : lengthLeft (exec (.convoyStart 0) trimState) = some 2 := by decide +kernel

theorem trim_quarters : trimStrand.q = 4 := by decide

theorem trim_together : Together trimState 0 trimStrand [trimFirst, trimSecond] 0x018 2 := by
  refine ⟨rfl, rfl, fun e he => ?_, rfl, rfl, rfl, rfl, fun e he => ?_, rfl, rfl, rfl, rfl⟩
  · obtain rfl := List.mem_singleton.1 he
    rfl
  · simp only [List.mem_cons, List.not_mem_nil, or_false] at he
    rcases he with rfl | rfl <;> exact ⟨rfl, rfl, rfl, rfl, rfl, rfl, rfl, rfl, rfl, rfl⟩

theorem trim_setting : Setting trimStrand trimFirst := by
  refine ⟨by decide, ⟨by rw [trim_quarters]; decide, by rw [trim_quarters]⟩, by decide, ?_⟩
  rw [trim_quarters]
  decide

theorem trim_member : integerMember trimStrand 0x018 .i32 trimSum := by
  refine ⟨.inr rfl, fun r hr => ?_⟩
  have hr : r = 4 ∨ r = 5 := by simpa [trimSum] using hr
  refine ⟨?_, fun n hlow hhigh => ?_, .inr (by decide)⟩
  · rcases hr with rfl | rfl <;> decide
  · have hsize : groupSize 0x018 (ewOf 0x018) = 1 := by decide
    have hn : n = r.toNat := by omega
    subst hn
    rcases hr with rfl | rfl <;> decide

theorem trim_reads : Reads trimState trimStrand 1 (admits trimStrand.k ⟨0, false⟩) (unitVa trimSecond) 4 (fun _ => trimPage) (fun _ => trimHome) := by
  refine ⟨fun n hn _ => ?_, fun n hn _ => ?_, fun n hn _ _ => ?_, fun n hn k hk _ _ _ => rfl, .inl ?_⟩
  · obtain rfl := Nat.lt_one_iff.1 hn
    exact ⟨by decide +kernel, by decide +kernel, by decide +kernel, by decide +kernel, by decide +kernel⟩
  · obtain rfl := Nat.lt_one_iff.1 hn
    unfold Served
    decide +kernel
  · obtain rfl := Nat.lt_one_iff.1 hn
    decide +kernel
  · rw [trim_quarters]
    decide

end Sys2Proof.Machine

open Sys2Proof Sys2Proof.Machine

/-- Refutes O44: nothing in the clause of a trimmed convoy makes its members follow one writer of `vl`, and where they do not, the trim goes by
the writer of the first member (R44), where the clause states the writer of the load. Here the sum follows writer 1, the load and the strand
writer 0, so that `vl` stays 2 where the clause states 1. -/
theorem not_convoysAndQueues : ¬ Obligations.ConvoysAndQueues := by
  intro h
  obtain ⟨-, -, htrimmed, -⟩ := h
  obtain ⟨z, u, hexec, hu, -, -, -, hvl, -⟩ := htrimmed trimState 0 trimStrand trimFirst trimSecond trimSum trimLoad 0x018 2 1 .i32
    (fun _ => trimPage) (fun _ => trimHome) trim_together trim_setting (by decide) (.inl rfl) rfl (by decide) (by decide) (by decide)
    trim_member (by decide) (.inr (by decide)) (by decide) (by decide +kernel) trim_reads
  have hleft := trim_length
  rw [hexec, lengthLeft, hu, Option.map_some, Option.some_inj] at hleft
  rw [hleft] at hvl
  exact absurd hvl (by decide)

end

section
/-!
SUPPORT. The groups of a convoy of one instruction in order; what a vector atomic asks of its operands and what it does (R269 to R271).
-/

namespace Sys2Proof.Machine

/-! ## Groups in order -/

/-- A member that takes every group on and then finishes: an invariant of its groups leads to what its end leaves. -/
theorem runGroups_inv {m : Mop} {P : Nat → Run → Prop} {Q : Run → Prop} {vl : Nat}
    (hstep : ∀ lo hi r, lo % 256 = 0 → lo < hi → hi ≤ vl → P lo r → r.out = none → ∃ r', m.group lo hi r = .ok r' ∧ r'.out = none ∧ P hi r')
    (hfin : ∀ r, P vl r → r.out = none → ∃ r', m.final r = .ok r' ∧ Q r') :
    ∀ (k g : Nat) (r : Run), 0 < k → vl ≤ 256 * (g + k) → 256 * (g + k - 1) < vl → r.out = none → P (256 * g) r →
      ∃ r', runGroups [m] vl 0 vl k g r [] = .ok { r' with out := none } (outsOf r'.out) ∧ Q r' := by
  intro k
  induction k with
  | zero => exact fun _ _ h => absurd h (Nat.lt_irrefl 0)
  | succ k ih =>
    intro g r _ hend hlast hout hP
    have hhi : min (min (256 * g + 256) vl) vl = min (256 * g + 256) vl := by omega
    obtain ⟨r1, hgroup, hout1, hP1⟩ := hstep (256 * g) (min (256 * g + 256) vl) r (by omega) (by omega) (by omega) hP hout
    unfold runGroups
    dsimp only
    rw [Nat.max_zero, hhi]
    unfold runGroup
    rw [hgroup]
    simp only [Rr.bind]
    cases k with
    | zero =>
      rw [show min (256 * g + 256) vl = vl by omega] at hP1
      obtain ⟨r2, hfinal, hQ⟩ := hfin r1 hP1 hout1
      have hsame : ({ r1 with out := none } : Run) = r1 := by
        cases r1
        cases hout1
        rfl
      refine ⟨r2, ?_, hQ⟩
      simp only [BEq.rfl, le_refl, decide_true, Bool.and_self, if_true, hsame, hfinal]
      cases hr2 : r2.out with
      | some w => simp only [runGroup, runGroups, outsOf]
      | none =>
        have hsame2 : ({ r2 with out := none } : Run) = r2 := by
          cases r2
          cases hr2
          rfl
        simp only [runGroup, runGroups, outsOf, hsame2]
    | succ k =>
      have hmore : ((k + 1 == 0) && decide (vl ≤ vl)) = false := rfl
      rw [show min (256 * g + 256) vl = 256 * (g + 1) by omega] at hP1
      obtain ⟨r2, hrest, hQ⟩ := ih (g + 1) r1 (by omega) (by omega) (by omega) hout1 hP1
      refine ⟨r2, ?_, hQ⟩
      simp only [hmore, Bool.false_eq_true, if_false, hout1, runGroup]
      exact hrest

/-- All groups of a convoy. -/
theorem runGroups_all {m : Mop} {P : Nat → Run → Prop} {Q : Run → Prop} {vl : Nat} {r : Run} (hv : 0 < vl)
    (hstep : ∀ lo hi r, lo % 256 = 0 → lo < hi → hi ≤ vl → P lo r → r.out = none → ∃ r', m.group lo hi r = .ok r' ∧ r'.out = none ∧ P hi r')
    (hfin : ∀ r, P vl r → r.out = none → ∃ r', m.final r = .ok r' ∧ Q r') (hout : r.out = none) (h0 : P 0 r) :
    ∃ r', runGroups [m] vl 0 vl (groupsOf vl) 0 r [] = .ok { r' with out := none } (outsOf r'.out) ∧ Q r' :=
  runGroups_inv hstep hfin _ 0 r (by unfold groupsOf; omega) (by unfold groupsOf; omega) (by unfold groupsOf; omega) hout h0

section
variable {s : State} {sid : Nat} {t : Strand} {e : Entry} (h : Single s sid t e)
include h

/-- A convoy of one whose member takes every group on. -/
theorem attempt_groups {t1 : Strand} {m : Mop} {r : Run} (hv : 0 < e.vl) (hp : prepare e.i (e.px t s ⟨t.v, t.k⟩ e.vl true none false) = .ok t1 m)
    (hr : runGroups [m] e.vl 0 e.vl (groupsOf e.vl) 0 (Run.start t1 s none) [] = .ok { r with out := none } (outsOf r.out)) :
    attempt t s [e] e.vl e.vl none none false = .done { r with out := none } (outsOf r.out) [m] [⟨t.v, t.k⟩] := by
  rw [attempt, prepareAll_single h, hp]
  dsimp only
  rw [if_neg (by omega), show convoyPos [e] = 0 by simp [convoyPos, h.first], hr]

/-- What such a convoy leaves. -/
theorem Single.performs_groups (hv : 0 < e.vl) (ha : isVamo e.i = false) {t1 : Strand} {m : Mop} {r : Run} {p : State → Strand → Prop}
    (hp : prepare e.i (e.px t s ⟨t.v, t.k⟩ e.vl true none false) = .ok t1 m)
    (hr : runGroups [m] e.vl 0 e.vl (groupsOf e.vl) 0 (Run.start t1 s none) [] = .ok { r with out := none } (outsOf r.out))
    (hi : r.t.id = t.id) (hs : r.t.qstall = false) (hst : ∀ n, r.s.strand n = s.strand n)
    (hq : ∀ (s' : State) (u : Strand), s' = { r.s with freeCtr := s'.freeCtr, svcs := s'.svcs, strands := s'.strands } →
      u = { r.t with stlMem := u.stlMem, viq := u.viq, xch := .none, held := none, vamo := none } →
      (e.loads = false → u.stlMem = r.t.stlMem) → p s' u) : Performs s sid e r.out p := by
  obtain ⟨u, z, hfin, hu, hz, hstl⟩ := finishConvoy_single h.ungiven h.unfinished { r with out := none } r.out
  have hex := exec_single_done h ha (attempt_groups h hv hp hr)
  rw [hfin] at hex
  have hzs (n : Nat) : z.strand n = s.strand n := by
    rw [← hst n, hz]
    rfl
  obtain ⟨hput, hoth⟩ := strand_settled h (u := u) (z := z) (by rw [hu]; exact hi) hzs
  have hcalm : u.qstall = false := by rw [hu]; exact hs
  refine ⟨_, u, hex, hput, hoth, by rw [hu], hq _ u ?_ (by rw [hu]) hstl⟩
  unfold settled
  dsimp only
  rw [hcalm, if_neg Bool.false_ne_true, hz]
  rfl

end

/-! ## What a vector atomic does -/

/-- What a vector atomic needs at each element, its data tagged `ty` and its indices `ti`. -/
def vamoJob (o : AmoOp) (a : Vamo) (x : Px) (ty ti : Tag) : VamoJob where
  op := vamoOp o ty
  tag := ty
  w := x.ew
  ra := a.ra
  ord := a.ord
  hostOk := amoHostOk o && !(ty == .f32 || ty == .f64)
  addr := fun st e => x.op 0 + shiftIndex ti x.ew (elemGet st.v x.q a.vb.toNat x.ew e) a.sh.toNat
  data := fun st e => elemGet st.v x.q a.va.toNat x.ew e
  cmp := fun st e => elemGet st.v x.q a.vd.toNat x.ew e

/-- The elements above a faulting line that may be performed. -/
def vamoAbove (x : Px) (e : Nat) : List Nat :=
  (List.range (if x.alone then x.vl else 0)).filter fun e' => e < e' && Config.amoPerformed x.s.freeCtr e'

/-- The elements of a group that are still to be sent. -/
def vamoNeed (a : Vamo) (x : Px) (lo hi : Nat) (r : Run) : List Nat :=
  (List.range hi).filter fun e => lo ≤ e && admits r.t.k a.m e && !x.perf.contains e && !(r.got.getD []).any fun g => g.1 == e

/-- Its elements, by group, and its end. -/
def vamoMop (o : AmoOp) (a : Vamo) (x : Px) (ty ti : Tag) : Mop where
  group := fun lo hi r =>
    if r.got.isSome && !(vamoNeed a x lo hi r).isEmpty then (vamoJob o a x ty ti).send (vamoNeed a x lo hi r) [] r
    else overElems ((vamoJob o a x ty ti).step a.m x.perf (if a.ret then some a.vd else none) x.vt (vamoAbove x)) lo hi r
  final := if a.ret then tailOf x.vt (.vec a.vd.toNat x.ew) x.vl x.vlmax else fun r => .ok r

theorem vamoAccepts_form {o : AmoOp} {a : Vamo} {ty : Tag} {w : Nat} (hf : amoForm a o ty) (hw : ty = .raw ∨ ty.width = some w) :
    vamoAccepts o a.ra w ty = true := by
  unfold vamoAccepts
  rcases hf with ⟨hint, hra⟩ | ⟨hfloat, rfl⟩ | ⟨rfl, hra, ho⟩
  · have hwidth : ty.width = some w := hw.resolve_left fun hraw => by rw [hraw] at hint; exact absurd hint (by decide)
    simp [hint, hra, hwidth]
  · have hwidth : ty.width = some w := hw.resolve_left fun hraw => by rcases hfloat with h | h <;> rw [h] at hraw <;> cases hraw
    rcases hfloat with rfl | rfl <;> simp [hwidth]
  · rcases ho with rfl | rfl <;> simp [hra]

/-- The setting of a vector atomic (R269, R218): its element width, its groups and what their tags allow. -/
structure VamoSetting (u : Strand) (vt : BitVec 12) (a : Vamo) (o : AmoOp) (ty ti : Tag) : Prop where
  width : ewOf vt = 32 ∨ ewOf vt = 64
  data : SourceGroup u vt a.va (ewOf vt) ty
  index : SourceGroup u vt a.vb (ewOf vt) ti
  indexTag : ti = .raw ∨ ti.isInt = true
  form : amoForm a o ty
  dest : a.ret = true → groupOk a.vd.toNat (groupSize vt (ewOf vt)) = true ∧ Clear vt a.vd (ewOf vt) a.va (ewOf vt)
    ∧ Clear vt a.vd (ewOf vt) a.vb (ewOf vt)
  compare : o = .cas → a.ret = true → SourceGroup u vt a.vd (ewOf vt) ty

/-- Its groups and tags pass their checks. -/
theorem prepVamo_passes {o : AmoOp} {a : Vamo} {x : Px} {u : Strand} {ty ti : Tag} (hs : VamoSetting u x.vt a o ty ti) (hv : x.src.v = u.v) :
    prepVamo o a x = x.done (if a.ret then some (a.vd, x.ew, ty) else none) (vamoMop o a x ty ti) := by
  have hta : x.tag a.va x.ew = .ok ty := Px.tag_source hs.data hv
  have htb : x.tag a.vb x.ew = .ok ti := Px.tag_source hs.index hv
  have hwidth : (x.ew == 32 || x.ew == 64) = true := by rcases hs.width with h | h <;> simp [show x.ew = _ from h]
  have hneed : (((x.ew == 32 || x.ew == 64) && vamoAccepts o a.ra x.ew ty) && indexOk ti x.ew) = true := by
    rw [hwidth, show vamoAccepts o a.ra x.ew ty = true from vamoAccepts_form hs.form hs.data.width,
      show indexOk ti x.ew = true from indexOk_of hs.indexTag hs.index.width]
    rfl
  have hgroups : x.groups (if a.ret then some (a.vd, x.ew) else none)
      ([(a.va, x.ew), (a.vb, x.ew)] ++ if a.ret && o == .cas then [(a.vd, x.ew)] else []) = .ok () := by
    cases hret : a.ret with
    | false =>
      refine Px.groups_sources fun p hp => ?_
      simp only [Bool.false_and, Bool.false_eq_true, if_false, List.append_nil, List.mem_cons, List.not_mem_nil, or_false] at hp
      rcases hp with rfl | rfl
      · exact hs.data.placed
      · exact hs.index.placed
    | true =>
      obtain ⟨hd, hda, hdb⟩ := hs.dest hret
      refine Px.groups_clear hd fun p hp => ?_
      have hp : p = (a.va, x.ew) ∨ p = (a.vb, x.ew) ∨ p = (a.vd, x.ew) := by
        rcases List.mem_append.1 hp with hp | hp
        · simp only [List.mem_cons, List.not_mem_nil, or_false] at hp
          tauto
        · split at hp
          · exact .inr (.inr (List.mem_singleton.1 hp))
          · cases hp
      rcases hp with rfl | rfl | rfl
      · exact ⟨hs.data.placed, hda⟩
      · exact ⟨hs.index.placed, hdb⟩
      · exact ⟨hd, .inl ⟨rfl, rfl⟩⟩
  have hcompare (hc : (a.ret && o == .cas) = true) : x.tag a.vd x.ew = .ok ty := by
    obtain ⟨hret, ho⟩ := Bool.and_eq_true_iff.1 hc
    exact Px.tag_source (hs.compare (eq_of_beq ho) hret) hv
  have hchecks : (do
      x.groups (if a.ret then some (a.vd, x.ew) else none)
        ([(a.va, x.ew), (a.vb, x.ew)] ++ if a.ret && o == .cas then [(a.vd, x.ew)] else [])
      let t ← x.tag a.va x.ew
      let u ← x.tag a.vb x.ew
      needTag ((x.ew == 32 || x.ew == 64) && vamoAccepts o a.ra x.ew t && indexOk u x.ew)
      if a.ret && o == .cas then
        let d ← x.tag a.vd x.ew
        needTag (d == t)
      pure (t, u) : Except Cause (Tag × Tag)) = .ok (ty, ti) := by
    rw [hgroups, hta, htb]
    simp only [bind, Except.bind, hneed, needTag_true rfl, pure, Except.pure]
    split
    · rename_i hc
      rw [hcompare hc]
      simp only [BEq.rfl, needTag_true rfl]
    · rfl
  unfold prepVamo
  dsimp only
  refine (congrArg (fun c => x.checked c _) hchecks).trans ?_
  cases hret : a.ret <;> simp only [Px.checked, vamoMop, hret] <;> rfl

end Sys2Proof.Machine
end

section
/-!
SUPPORT. An element's request at its home (R108, R176, R270, R284): the word takes its new value, the old one returns to the strand.
-/

namespace Sys2Proof.Machine

/-- A request before which nothing waits, at a home that answers, is served there. -/
theorem State.performAt_served {s : State} {r : Request} (ha : r.again = false)
    (hsoft : s.soft.contains (lineOf r.home) = false)
    (hturn : s.heldBefore (lineOf r.home) (match r.held with
      | some (l, since) => if l = lineOf r.home then since else s.tick + 1
      | none => s.tick + 1) = false)
    (hhome : if homeAttr r.home = attrSlab then s.slabHome r.asid r.va = some r.home
      else hasLines (homeAttr r.home) = true → s.offline (lineOf r.home) = false ∧ s.unreachable (lineOf r.home) = false
        ∧ s.lineState (lineOf r.home) = some .plain) :
    s.performAt r = s.serve { r with tried := true } r.home := by
  unfold State.performAt
  dsimp only
  rw [if_neg (by simp [ha]), if_neg (by simp only [hsoft, Bool.false_eq_true, not_false_eq_true])]
  refine (if_neg fun h => Bool.false_ne_true (hturn.symm.trans (Bool.and_eq_true_iff.mp h).2)).trans ?_
  by_cases hx : homeAttr r.home = attrSlab
  · rw [if_pos hx] at hhome
    rw [if_pos hx, hhome]
  · rw [if_neg hx] at hhome
    rw [if_neg hx]
    by_cases hl : hasLines (homeAttr r.home) = true
    · obtain ⟨ho, hu, hp⟩ := hhome hl
      rw [if_neg (by simp [hl]), if_neg (by simp [ho, hu]), hp]
    · rw [if_pos (by simp [hl])]

/-- What a home writes in the word of a request, with the flags of the sum. -/
def servedWord (r : Request) (old : Nat) : Nat × Flags :=
  match r.kind with
  | .amo op => (amoNew op r.n old r.data.toNat r.cmp.toNat, 0)
  | _ => fadd2 (faddFmt r.n) .rne false old (r.data.toNat % 2 ^ (8 * r.n))

theorem State.serve_word {s : State} {r : Request} (hk : (∃ op, r.kind = .amo op) ∨ ∃ ra, r.kind = .fadd ra) (home : Nat) :
    s.serve r home = ((s.writeHome home (leBytes r.n (servedWord r (Memory.read s.mem home r.n)).1)).dropCarried r (lineOf home)).answer r
      (.value (BitVec.ofNat 64 (Memory.read s.mem home r.n))) (servedWord r (Memory.read s.mem home r.n)).2 := by
  rcases hk with ⟨op, hk⟩ | ⟨ra, hk⟩
  · simp only [State.serve, servedWord, hk, State.amoAt]
  · simp only [State.serve, servedWord, hk]

/-- A strand of those named, without the lines of one home in its line buffer. -/
def Strand.dropHome (sids : List Nat) (line : Nat) (u : Strand) : Strand :=
  if sids.contains u.id.sid then { u with lbuf := u.lbuf.filter fun b => b.home != line } else u

theorem Strand.unbuffers_dropHome (sids : List Nat) (line : Nat) (t : Strand) : t.Unbuffers (t.dropHome sids line) := by
  unfold Strand.dropHome
  split
  · exact ⟨rfl, fun b hb => (List.mem_filter.mp hb).1⟩
  · exact ⟨rfl, fun b hb => hb⟩

theorem State.dropCarried_strands (s : State) (r : Request) (line : Nat) :
    (s.dropCarried r line).strands = s.strands.map (Strand.dropHome (s.carried r.rid) line) := rfl

/-- Whether a strand's vector atomic has sent a request. -/
def Strand.sends (rid : Nat) (t : Strand) : Bool :=
  t.vamo.any fun a => a.sent.any fun x => x.2.1 == rid

section
variable {s : State} {t : Strand} {amo : VecAmo} {n rid : Nat} {va : Word}
  (hown : ∀ u ∈ s.strands, u.id.sid = t.id.sid → u = t) (ht : t ∈ s.strands) (hamo : t.vamo = some amo) (hsent : (n, rid, va) ∈ amo.sent)
  (hnodup : (amo.sent.map (·.2.1)).Nodup) (hothers : ∀ u ∈ s.strands, u ≠ t → ∀ x ∈ u.vamo, ∀ y ∈ x.sent, y.2.1 ≠ rid)
include hown ht

theorem strand_own : s.strand t.id.sid = some t := by
  cases h : s.strand t.id.sid with
  | none => exact absurd (List.find?_eq_none.1 h t ht) (by simp)
  | some u =>
    have hu : u.id.sid = t.id.sid := strand_sid h
    rw [hown u (List.mem_of_find?_eq_some h) hu]

omit hown
include hamo hsent hothers

theorem find_sender : s.strands.find? (Strand.sends rid) = some t := by
  have hp : Strand.sends rid t = true := by
    unfold Strand.sends
    rw [hamo, Option.any_some]
    exact List.any_eq_true.2 ⟨_, hsent, by simp⟩
  cases h : s.strands.find? (Strand.sends rid) with
  | none => exact absurd (List.find?_eq_none.1 h t ht) (by simp [hp])
  | some u =>
    by_cases hu : u = t
    · rw [hu]
    · have hs := List.find?_some h
      unfold Strand.sends at hs
      obtain ⟨x, hx, hs⟩ := (Option.any_eq_true _ _).1 hs
      obtain ⟨y, hy, hr⟩ := List.any_eq_true.1 hs
      exact absurd (eq_of_beq hr) (hothers u (List.mem_of_find?_eq_some h) hu x hx y hy)

omit ht hothers hamo
include hnodup

/-- The element of a request has returned, with the value of its reply. -/
theorem VecAmo.returned_value (v : Word) (fl : Flags) : amo.returned ⟨rid, .value v, fl⟩
    = { amo with sent := amo.sent.filter fun x => x.2.1 != rid, got := amo.got ++ [(n, v, fl)] } := by
  have hfind : amo.sent.find? (fun x => x.2.1 == rid) = some (n, rid, va) := by
    cases h : amo.sent.find? (fun x => x.2.1 == rid) with
    | none => exact absurd (List.find?_eq_none.1 h _ hsent) (by simp)
    | some y =>
      have hy := List.mem_of_find?_eq_some h
      have hr : y.2.1 = rid := by simpa using List.find?_some h
      have hsame := List.inj_on_of_nodup_map hnodup hy hsent hr
      rw [hsame]
  unfold VecAmo.returned
  dsimp only
  rw [hfind]

end

theorem vectorAtomicAtHome : VectorAtomicAtHome := by
  intro s r t amo n va hok hfind hn hready hagain hsoft hturn hhome hown ht hamo hsent hnodup hothers old f new fl hnew
  have hkind : (∃ op, r.kind = .amo op) ∨ ∃ ra, r.kind = .fadd ra := by
    rcases hnew with ⟨op, hk, -⟩ | ⟨ra, hk, -⟩
    · exact .inl ⟨op, hk⟩
    · exact .inr ⟨ra, hk⟩
  have hword : servedWord r old = (new, fl) := by
    unfold servedWord
    rcases hnew with ⟨op, hk, rfl, rfl⟩ | ⟨ra, hk, hnew⟩
    · rw [hk]
      exact congrArg (fun x => (x, (0 : Flags))) (amoNew_eq_atomicNew ..)
    · rw [hk, hnew]
      rfl
  let q := { r with tried := true }
  let w := s.writeHome r.home (leBytes r.n new)
  let z := w.dropCarried q (lineOf r.home)
  have hexec : exec (.memoryAccessPerform r.rid) s = .next (z.answer q (.value (BitVec.ofNat 64 old)) fl) := by
    show execMemoryAccessPerform r.rid s = _
    rw [execMemoryAccessPerform, hfind]
    dsimp only
    rw [if_pos hready, State.performAt_served hagain hsoft hturn hhome]
    refine congrArg Host.Outcome.next ((State.serve_word (r := q) hkind r.home).trans ?_)
    rw [show servedWord q (Memory.read s.mem r.home q.n) = (new, fl) from hword]
  have hws : w.strands = s.strands := State.writeHome_strands ..
  let drop := Strand.dropHome (w.carried q.rid) (lineOf r.home)
  have hzs : z.strands = w.strands.map drop := State.dropCarried_strands ..
  have hdrop : t.Unbuffers (drop t) := Strand.unbuffers_dropHome ..
  have hsender : z.strands.find? (Strand.sends r.rid) = some (drop t) := by
    have hpred : (Strand.sends r.rid ∘ drop) = Strand.sends r.rid := by
      funext u
      have hsame : (drop u).vamo = u.vamo :=
        (congrArg Strand.vamo (Strand.unbuffers_dropHome (w.carried q.rid) (lineOf r.home) u).1).trans rfl
      exact congrArg (fun a : Option VecAmo => a.any fun x => x.sent.any fun y => y.2.1 == r.rid) hsame
    rw [hzs, List.find?_map, hpred, hws, find_sender ht hamo hsent hothers, Option.map_some]
  have hvamo : (drop t).vamo = some amo := by rw [hdrop.1]; exact hamo
  let back := { amo with sent := amo.sent.filter fun x => x.2.1 != r.rid, got := amo.got ++ [(n, BitVec.ofNat 64 old, fl)] }
  have hanswer : z.answer q (.value (BitVec.ofNat 64 old)) fl = (z.dropRequest q).put { drop t with vamo := some back } := by
    unfold State.answer State.reply
    rw [show ((z.dropRequest q).strands.find? fun t => t.vamo.any fun a => a.sent.any fun x => x.2.1 == q.rid) = some (drop t) from hsender]
    dsimp only
    rw [hvamo, Option.map_some]
    exact congrArg (fun a => (z.dropRequest q).put { drop t with vamo := some a }) (VecAmo.returned_value hsent hnodup _ _)
  have hstrand : (z.dropRequest q).strand t.id.sid = some (drop t) := by
    have hmap : z.strand t.id.sid = (w.strand t.id.sid).map drop :=
      State.strand_updWhere (s := w) (z := z) (f := fun t => { t with lbuf := t.lbuf.filter fun b => b.home != lineOf r.home }) rfl (fun _ => rfl) _
    have hw : w.strand t.id.sid = some t := by
      rw [State.strand, hws]
      exact strand_own hown ht
    rw [hw] at hmap
    exact hmap
  have hid : (drop t).id = t.id := by rw [hdrop.1]
  have hput := strand_put (s := z.dropRequest q) (u := drop t) (t := { drop t with vamo := some back }) (by
    show (z.dropRequest q).strand (drop t).id.sid = _
    rw [hid]; exact hstrand)
  have hmem : w.mem = Memory.write s.mem r.home r.n new := State.writeHome_mem ..
  have hplain : hasLines (homeAttr r.home) = true → s.lineState (lineOf r.home) = some .plain := fun hl => by
    rw [if_neg fun hx => by rw [hx] at hl; exact absurd hl (by decide)] at hhome
    exact (hhome hl).2.2
  refine ⟨_, { drop t with vamo := some back }, hexec.trans (congrArg Host.Outcome.next hanswer), ?_, ?_, fun b hb => ?_, fun l => ?_, ?_, ?_, ?_, hdrop.2⟩
  · rw [← hid]
    exact hput
  · show Memory.read w.mem r.home r.n = _
    rw [hmem, Memory.read_write_same hok.1]
  · show Memory.get w.mem b = _
    rw [hmem, Memory.write, Memory.get_fill_other _ _ _ (by simpa using hb)]
  · exact State.lineState_writeHome hplain _ l
  · exact State.writeHome_replies ..
  · exact congrArg (List.filter _) (State.writeHome_requests ..)
  · exact congrArg (fun u : Strand => { u with vamo := some back }) hdrop.1

end Sys2Proof.Machine
end

section
/-!
SUPPORT. A vector atomic looked through before its elements are sent (R271): every element passes its checks and can be performed.
-/

namespace Sys2Proof.Machine

theorem prepare_vamo {a : Vamo} {p : Instr × AmoOp} (hp : p ∈ vectorAtomics a) (x : Px) : prepare p.1 x = prepVamo p.2 a x := by
  simp only [vectorAtomics, List.mem_cons, List.not_mem_nil, or_false] at hp
  rcases hp with rfl | rfl | rfl | rfl | rfl | rfl | rfl | rfl
  all_goals rfl

theorem isVamo_of {a : Vamo} {p : Instr × AmoOp} (hp : p ∈ vectorAtomics a) : isVamo p.1 = true := by
  simp only [vectorAtomics, List.mem_cons, List.not_mem_nil, or_false] at hp
  rcases hp with rfl | rfl | rfl | rfl | rfl | rfl | rfl | rfl
  all_goals rfl

/-- What a strand's atomic of one element must meet: its address has a cached translation that admits it, and its home answers. -/
structure AtomicAt (s : State) (t : Strand) (o : AmoOp) (ty : Tag) (va : Word) (nb : Nat) (ent : TlbEntry) (h : Nat) : Prop where
  mapped : Mapped s t.qctx va nb .both ent
  served : Served s t.qctx va ent h
  host : pteAttr ent.pte = attrHost → ty ≠ .f32 ∧ ty ≠ .f64 ∧ (o = .add ∨ o = .swp ∨ o = .cas)

section
variable {s : State} {t : Strand} {o : AmoOp} {ty : Tag} {va : Word} {nb h : Nat} {ent : TlbEntry} (hat : AtomicAt s t o ty va nb ent h)
include hat

theorem AtomicAt.cause : attrCause (pteAttr ent.pte) (.amo (amoHostOk o && !(ty == .f32 || ty == .f64))) = none := by
  by_cases hx : pteAttr ent.pte = attrHost
  · obtain ⟨h32, h64, ho⟩ := hat.host hx
    have hsame : (amoHostOk o && !(ty == .f32 || ty == .f64)) = amoHostOk o := by simp [h32, h64]
    rw [hsame]
    exact attrCause_amo hat.served.attr fun _ => ho
  · rw [attrCause, if_neg hat.served.attr, if_neg (by simp [hx])]

theorem AtomicAt.firstHome : s.firstHome t.qctx va nb .both (.amo (amoHostOk o && !(ty == .f32 || ty == .f64))) = .ok (h, pteAttr ent.pte) s := by
  refine State.firstHome_mapped hat.mapped ?_ hat.cause
  obtain ⟨-, hs⟩ := hat.served
  unfold HomeByte
  split at hs
  · rename_i hx
    rw [if_pos hx]
    exact hs
  · rename_i hx
    rw [if_neg hx]
    exact hs.1

theorem AtomicAt.writeHome {hb : Nat} (hp : hasLines (homeAttr hb) = true → s.lineState (lineOf hb) = some .plain) (bs : List Byte) :
    AtomicAt (s.writeHome hb bs) t o ty va nb ent h :=
  ⟨hat.mapped.writeHome _ _, hat.served.writeHome hp bs, hat.host⟩

/-- Its home performs it. -/
theorem VamoJob.perform_at {j : VamoJob} {r : Run} {n : Nat} (hs : r.s = s) (hc : r.t.qctx = t.qctx) (hva : j.addr r.t n = va) (hw : j.w / 8 = nb)
    (hok : j.hostOk = (amoHostOk o && !(ty == .f32 || ty == .f64))) :
    ∃ old fl bs, j.perform r n = .ok (old, fl, ⟨h, va, 0, pteAttr ent.pte, some .plain⟩) (s.writeHome h bs) := by
  have hcause := hat.cause
  rw [← hok] at hcause
  unfold VamoJob.perform
  dsimp only
  rw [hs, hc, hva, hw, State.resolve_served hat.mapped hat.mapped.aligned hat.served hcause]
  simp only [Res.bind]
  rw [State.atHome_served hat.served]
  simp only [State.amoAt]
  split
  · exact ⟨_, _, _, rfl⟩
  · exact ⟨_, _, _, rfl⟩

/-- An element that may be performed is: what it leaves of the run. -/
theorem VamoJob.step_at {j : VamoJob} {r : Run} {n : Nat} {m : MaskOp} {skip : List Nat} {ret : Option VReg} {vt : BitVec 12} {above : Nat → List Nat}
    (hs : r.s = s) (hc : r.t.qctx = t.qctx) (hva : j.addr r.t n = va) (hw : j.w / 8 = nb)
    (hok : j.hostOk = (amoHostOk o && !(ty == .f32 || ty == .f64))) (hskip : skip.contains n = false) (hact : admits r.t.k m n = true)
    (hgot : r.got = none) :
    ∃ old fl bs lb acc, j.step m skip ret vt above n r
      = .ok { r with s := s.writeHome h bs, t := ({ r.t with lbuf := lb }).amoBack ret j.w n old fl, acc := acc } := by
  obtain ⟨old, fl, bs, hperform⟩ := VamoJob.perform_at hat (r := { r with s := s }) (j := j) (n := n) rfl hc hva hw hok
  have hfirst := hat.firstHome
  rw [← hok] at hfirst
  have hsame : ({ r with s := s } : Run) = r := by rw [← hs]
  refine ⟨old, fl, bs, dropLines r.t.lbuf va (lineOf h), (h, nb, true) :: r.acc, ?_⟩
  unfold VamoJob.step
  rw [if_neg (by rw [hskip]; exact Bool.false_ne_true), if_neg (by simp [hact]), hgot]
  simp only [Option.getD_none, List.find?_nil]
  rw [hs, hc, hva, hw, hfirst]
  simp only [ofPrecise]
  rw [hsame] at hperform
  rw [hperform]
  rfl

end

/-! ## The indices while the elements below them are put -/

/-- A group that is the destination itself, or apart from it, keeps an element that is not put. -/
theorem elemGet_putElem_source {t u : Strand} {e : Entry} (hs : Setting t e) {vd r : VReg} {w : Nat}
    (hw : w = 4 ∨ w = 8 ∨ w = 16 ∨ w = 32 ∨ w = 64) (hd : groupOk vd.toNat (groupSize e.vtype w) = true)
    (hr : groupOk r.toNat (groupSize e.vtype w) = true) (hc : Clear e.vtype vd w r w) (hq : u.q = t.q) {n k : Nat} (hn : n < e.vl) (hk : k < e.vl)
    (hne : k ≠ n) (p : Put) : elemGet (u.putElem (.vec vd.toNat w) n p).v t.q r.toNat w k = elemGet u.v t.q r.toNat w k := by
  have hlen := hs.length
  have hholds := group_holds hs vd hw hd
  have hset (x : Nat) : elemGet (elemSet u.v t.q vd.toNat w n x) t.q r.toNat w k = elemGet u.v t.q r.toNat w k := by
    rcases hc with ⟨rfl, -⟩ | hc | hc
    · exact elemGet_elemSet_other hholds (by omega) (by omega) hne _ _
    · exact elemGet_congr (group_holds hs r hw hr) (by omega) fun i h1 h2 h3 =>
        regAt_elemSet_other hholds (by omega) h3 (.inr (by omega)) _ _
    · exact elemGet_congr (group_holds hs r hw hr) (by omega) fun i h1 h2 h3 =>
        regAt_elemSet_other hholds (by omega) h3 (.inl (by omega)) _ _
  cases p with
  | keep => rfl
  | val x =>
    rw [← hq] at hset ⊢
    exact hset x
  | zero =>
    rw [← hq] at hset ⊢
    exact hset 0

theorem Strand.raise_eq (t : Strand) (n : Nat) (fl : Flags) : t.raise n fl = { t with lflags := (t.raise n fl).lflags } := by
  unfold Strand.raise
  split <;> rfl

/-- The old value of an element comes into vD, where there is one. -/
theorem Strand.amoBack_eq (t : Strand) (ret : Option VReg) (w n old : Nat) (fl : Flags) : ∃ l,
    t.amoBack ret w n old fl = { t with v := (t.amoBack ret w n old fl).v, lflags := l }
    ∧ (t.amoBack ret w n old fl).v = (ret.elim t fun vd => t.putElem (.vec vd.toNat w) n (.val old)).v := by
  unfold Strand.amoBack
  cases ret with
  | none =>
    rw [Strand.raise_eq]
    exact ⟨_, rfl, rfl⟩
  | some vd =>
    dsimp only
    rw [Strand.raise_eq, putElem_frame]
    exact ⟨_, rfl, rfl⟩

end Sys2Proof.Machine
end

section
/-!
SUPPORT. A vector atomic sends the elements of its first group (R270, R271).
-/

namespace Sys2Proof.Machine

/-- An invariant of elements in order, from one on. -/
theorem eachElem_from {f : Nat → Run → Rr} {P : Nat → Run → Prop} : ∀ (m n : Nat) (r : Run),
    (∀ k, n ≤ k → k < n + m → ∀ r, P k r → ∃ r', f k r = .ok r' ∧ P (k + 1) r') → P n r → ∃ r', eachElem f m n r = .ok r' ∧ P (n + m) r' := by
  intro m
  induction m with
  | zero => exact fun n r _ h => ⟨r, rfl, h⟩
  | succ m ih =>
    intro n r hstep h
    obtain ⟨r1, hr1, h1⟩ := hstep n (Nat.le_refl n) (by omega) r h
    obtain ⟨r2, hr2, h2⟩ := ih (n + 1) r1 (fun k hk hlt => hstep k (by omega) (by omega)) h1
    refine ⟨r2, ?_, by rwa [show n + (m + 1) = n + 1 + m by omega]⟩
    rw [eachElem, hr1]
    exact hr2

/-- The strand once a vector atomic with a result has tagged its destination. -/
def vamoTagged (t : Strand) (e : Entry) (a : Vamo) (ty : Tag) : Strand :=
  if a.ret then { t with v := setTags t.v a.vd.toNat (groupSize e.vtype (ewOf e.vtype)) ty } else t

theorem vamoTagged_eq (t : Strand) (e : Entry) (a : Vamo) (ty : Tag) : vamoTagged t e a ty = { t with v := (vamoTagged t e a ty).v } := by
  unfold vamoTagged
  split <;> rfl

theorem elemGet_vamoTagged (t : Strand) (e : Entry) (a : Vamo) (ty : Tag) (r : VReg) (w n : Nat) :
    elemGet (vamoTagged t e a ty).v t.q r.toNat w n = elemGet t.v t.q r.toNat w n := by
  unfold vamoTagged
  split
  · exact elemGet_setTags _ _ _ _ _ _ _ _
  · rfl

theorem prepare_vamoTagged {s : State} {t u : Strand} {e : Entry} {a : Vamo} {p : Instr × AmoOp} {ty ti : Tag} {src : Captured}
    (hp : p ∈ vectorAtomics a) (hi : e.i = p.1) (hv : e.vl ≠ 0) (hs : VamoSetting u e.vtype a p.2 ty ti) (hu : src.v = u.v) (lax : Bool) :
    prepare e.i (e.px t s src e.vl true none lax)
      = .ok (vamoTagged t e a ty) (vamoMop p.2 a (e.px t s src e.vl true none lax) ty ti) := by
  rw [hi, prepare_vamo hp]
  refine (prepVamo_passes (x := e.px t s src e.vl true none lax) hs hu).trans ?_
  unfold vamoTagged
  cases a.ret
  · rfl
  · exact if_neg hv

/-! ## Every element passes its checks -/

section
variable {s : State} {t : Strand} {e : Entry} {a : Vamo} {o : AmoOp} {ty ti : Tag} {ent : Nat → TlbEntry} {h : Nat → Nat}

/-- The address of an element, while its index stands as it stood. -/
theorem vamoJob_addr {u : Strand} (hs : Setting t e) (hw : ti = .raw ∨ ti.width = some (ewOf e.vtype)) {n : Nat} (src : Captured) (lax : Bool)
    (hx : elemGet u.v t.q a.vb.toNat (ewOf e.vtype) n = elem t e a.vb n) :
    (vamoJob o a (e.px t s src e.vl true none lax) ty ti).addr u n = indexVa t e a.vb ti a.sh n := by
  have hext := extendElem_eq (x := elem t e a.vb n) (ew_pos hs.vtype) hw
  show e.ops.getD 0 0 + extendElem ti (ewOf e.vtype) (elemGet u.v t.q a.vb.toNat (ewOf e.vtype) n) <<< a.sh.toNat = _
  rw [hx, hext]
  rfl

/-- The elements below `n` of a vector atomic performed in a look ahead. -/
structure LookedAhead (t : Strand) (e : Entry) (a : Vamo) (o : AmoOp) (ty ti : Tag) (ent : Nat → TlbEntry) (h : Nat → Nat) (n : Nat) (r : Run) : Prop where
  strand : r.t = { t with v := r.t.v, lflags := r.t.lflags, lbuf := r.t.lbuf }
  index : ∀ k, n ≤ k → k < e.vl → elemGet r.t.v t.q a.vb.toNat (ewOf e.vtype) k = elem t e a.vb k
  places : ∀ k < e.vl, admits t.k a.m k = true →
    AtomicAt r.s t o ty (indexVa t e a.vb ti a.sh k) (ewOf e.vtype / 8) (ent k) (h k)
  got : r.got = none
  out : r.out = none

variable (hset : Setting t e) (hs : VamoSetting t e.vtype a o ty ti)
include hset hs

/-- The indices above an element that is put stand. -/
theorem index_put {u : Strand} (hq : u.q = t.q) {n k : Nat} (hn : n < e.vl) (hk : k < e.vl) (hne : k ≠ n) (p : Put) (hret : a.ret = true) :
    elemGet (u.putElem (.vec a.vd.toNat (ewOf e.vtype)) n p).v t.q a.vb.toNat (ewOf e.vtype) k
      = elemGet u.v t.q a.vb.toNat (ewOf e.vtype) k := by
  obtain ⟨hd, -, hc⟩ := hs.dest hret
  exact elemGet_putElem_source hset (by rcases hs.width with h | h <;> simp [h]) hd hs.index.placed hc hq hn hk hne p

theorem lookedAhead_step {n : Nat} (hn : n < e.vl) {r : Run} (hr : LookedAhead t e a o ty ti ent h n r) (hperf : e.perf = []) (src : Captured) :
    ∃ r', (vamoJob o a (e.px t s src e.vl true none false) ty ti).step a.m e.perf (if a.ret then some a.vd else none) e.vtype
      (vamoAbove (e.px t s src e.vl true none false)) n r = .ok r' ∧ LookedAhead t e a o ty ti ent h (n + 1) r' := by
  have hk : r.t.k = t.k := by rw [hr.strand]
  have hq : r.t.q = t.q := by rw [hr.strand]; rfl
  have hskip : e.perf.contains n = false := by rw [hperf]; rfl
  by_cases hact : admits t.k a.m n = true
  · have hat := hr.places n hn hact
    obtain ⟨old, fl, bs, lb, acc, hstep⟩ := VamoJob.step_at (j := vamoJob o a (e.px t s src e.vl true none false) ty ti) (m := a.m) (skip := e.perf)
      (ret := if a.ret then some a.vd else none) (vt := e.vtype) (above := vamoAbove (e.px t s src e.vl true none false)) hat
      (r := r) (n := n) rfl (by rw [hr.strand]; rfl) (vamoJob_addr hset hs.index.width src false (hr.index n (Nat.le_refl n) hn)) rfl rfl hskip
      (by rw [hk]; exact hact) hr.got
    obtain ⟨l, hback, hbackv⟩ := Strand.amoBack_eq { r.t with lbuf := lb } (if a.ret then some a.vd else none)
      (vamoJob o a (e.px t s src e.vl true none false) ty ti).w n old fl
    generalize ({ r.t with lbuf := lb } : Strand).amoBack (if a.ret then some a.vd else none)
      (vamoJob o a (e.px t s src e.vl true none false) ty ti).w n old fl = u at hstep hback hbackv
    refine ⟨_, hstep, ?_, fun k hlow hk => ?_, fun k hk hact => ?_, hr.got, hr.out⟩
    · show u = { t with v := u.v, lflags := u.lflags, lbuf := u.lbuf }
      rw [hback, hr.strand]
    · show elemGet u.v t.q a.vb.toNat (ewOf e.vtype) k = _
      rw [hbackv]
      refine Eq.trans ?_ (hr.index k (by omega) hk)
      cases hret : a.ret with
      | false => rfl
      | true => exact index_put hset hs (u := { r.t with lbuf := lb }) hq hn hk (by omega) (.val old) hret
    · exact (hr.places k hk hact).writeHome hat.served.plain bs
  · have hstep : (vamoJob o a (e.px t s src e.vl true none false) ty ti).step a.m e.perf (if a.ret then some a.vd else none) e.vtype
        (vamoAbove (e.px t s src e.vl true none false)) n r
        = .ok (r.upd fun u => if a.ret then u.putElem (.vec a.vd.toNat (ewOf e.vtype)) n (inactive e.vtype) else u) := by
      unfold VamoJob.step
      rw [if_neg (by rw [hskip]; exact Bool.false_ne_true), if_pos (by rw [hk]; simp [hact])]
      cases a.ret <;> rfl
    refine ⟨_, hstep, ?_⟩
    cases hret : a.ret with
    | false => exact ⟨hr.strand, fun k hlow => hr.index k (by omega), hr.places, hr.got, hr.out⟩
    | true =>
      refine ⟨?_, fun k hlow hk => ?_, hr.places, hr.got, hr.out⟩
      · simp only [if_true, Run.upd]
        rw [putElem_frame, hr.strand]
      · exact (index_put hset hs hq hn hk (by omega) _ hret).trans (hr.index k (by omega) hk)

/-- A convoy looked through to its end. -/
theorem vamo_looked {sid : Nat} (hone : Single s sid t e) {p : Instr × AmoOp} (hp : p ∈ vectorAtomics a) (hi : e.i = p.1) (ho : p.2 = o)
    (hperf : e.perf = []) (hplaces : ∀ k < e.vl, admits t.k a.m k = true →
      AtomicAt s t o ty (indexVa t e a.vb ti a.sh k) (ewOf e.vtype / 8) (ent k) (h k)) :
    ∃ r outs ms caps, attempt t s [e] e.vl e.vl none none false = .done r outs ms caps := by
  subst ho
  have hv := hset.length.1
  have hprep := prepare_vamoTagged (s := s) (t := t) (src := ⟨t.v, t.k⟩) hp hi (by omega) hs rfl false
  obtain ⟨r, hrun, -⟩ := runGroups_all (m := vamoMop p.2 a (e.px t s ⟨t.v, t.k⟩ e.vl true none false) ty ti) (vl := e.vl)
    (P := LookedAhead t e a p.2 ty ti ent h) (Q := fun _ => True) (r := Run.start (vamoTagged t e a ty) s none) hv
    (fun lo hi r _ hlo hhi hr _ => by
      have hgroup : (vamoMop p.2 a (e.px t s ⟨t.v, t.k⟩ e.vl true none false) ty ti).group lo hi r
          = eachElem ((vamoJob p.2 a (e.px t s ⟨t.v, t.k⟩ e.vl true none false) ty ti).step a.m e.perf (if a.ret then some a.vd else none) e.vtype
            (vamoAbove (e.px t s ⟨t.v, t.k⟩ e.vl true none false))) (hi - lo) lo r := by
        unfold vamoMop
        dsimp only
        rw [hr.got]
        exact if_neg Bool.false_ne_true
      obtain ⟨r', hr', hlooked⟩ := eachElem_from (P := LookedAhead t e a p.2 ty ti ent h) (hi - lo) lo r
        (fun k _ hk r hr => lookedAhead_step (s := s) hset hs (by omega) hr hperf ⟨t.v, t.k⟩) hr
      rw [show lo + (hi - lo) = hi by omega] at hlooked
      exact ⟨r', hgroup.trans hr', hlooked.out, hlooked⟩)
    (fun r _ _ => by
      unfold vamoMop
      dsimp only
      split
      · exact ⟨_, rfl, trivial⟩
      · exact ⟨_, rfl, trivial⟩) rfl
    ⟨by unfold Run.start vamoTagged; split <;> rfl, fun k _ _ => elemGet_vamoTagged .., hplaces, rfl, rfl⟩
  exact ⟨_, _, _, _, attempt_groups hone hv hprep hrun⟩

end

end Sys2Proof.Machine
end

section
/-!
SUPPORT. The requests of a vector atomic, made and entered (R270, R272).
-/

namespace Sys2Proof.Machine

/-- A request stands at the first keystone of its way or at its home. -/
def State.holds (s : State) (q : Request) : Prop :=
  q ∈ s.requests ∨ ∃ k ∈ s.keystones, q ∈ k.queue

/-- What stands, stands on as another request is placed. -/
theorem State.holds_place {s : State} {q : Request} (h : s.holds q) (r : Request) : (s.place r).holds q := by
  unfold State.place
  split
  · exact h.imp (fun hq => List.mem_append_left _ hq) id
  · dsimp only
    split
    · refine h.imp id fun ⟨k, hk, hq⟩ => ⟨_, List.mem_map.mpr ⟨k, hk, rfl⟩, ?_⟩
      split
      · exact List.mem_append_left _ hq
      · exact hq
    · exact h.imp id fun ⟨k, hk, hq⟩ => ⟨k, List.mem_append_left _ hk, hq⟩

theorem State.holds_send {s : State} {q : Request} (h : s.holds q) (r : Request) : (s.send r).holds q :=
  State.holds_place h _

/-- What a strand notes of the requests that are entered, and where these stand. -/
structure Entered (s z : State) (l : List (Nat × Request)) (new : List (Nat × Nat × Word)) : Prop where
  frame : z = { s with requests := z.requests, keystones := z.keystones, nextRid := z.nextRid }
  keeps : ∀ q, s.holds q → z.holds q
  elements : new.map (·.1) = l.map Prod.fst
  numbers : new.map (·.2.1) = List.range' s.nextRid l.length
  stands : ∀ x ∈ new, ∃ r, (x.1, r) ∈ l ∧ x.2.2 = r.va ∧ ∃ q, z.holds q ∧ q = { r with rid := x.2.1, route := q.route, port := q.port }

theorem sendAll_entered : ∀ (l : List (Nat × Request)) (s : State) (sent : List (Nat × Nat × Word)),
    ∃ new, (sendAll s l sent).2 = sent.reverse ++ new ∧ Entered s (sendAll s l sent).1 l new := by
  intro l
  induction l with
  | nil => exact fun s sent => ⟨[], (List.append_nil _).symm, rfl, fun _ h => h, rfl, rfl, fun x hx => absurd hx List.not_mem_nil⟩
  | cons p l ih =>
    obtain ⟨n, r⟩ := p
    intro s sent
    obtain ⟨new, hsent, hnew⟩ := ih (s.send r) ((n, s.nextRid, r.va) :: sent)
    have hnext : (s.send r).nextRid = s.nextRid + 1 := rfl
    obtain ⟨q, hq, hstands, -⟩ := State.place_stands s { r with rid := s.nextRid }
    refine ⟨(n, s.nextRid, r.va) :: new, ?_, ?_, fun q hq => hnew.keeps q (State.holds_send hq r), ?_, ?_, fun x hx => ?_⟩
    · rw [sendAll, hsent, List.reverse_cons, List.append_assoc]
      rfl
    · rw [sendAll]
      have hframe := hnew.frame
      rw [hframe, State.send_frame]
    · rw [List.map_cons, List.map_cons, hnew.elements]
    · rw [List.map_cons, hnew.numbers, hnext]
      rfl
    · rcases List.mem_cons.1 hx with rfl | hx
      · exact ⟨r, List.mem_cons_self, rfl, q, hnew.keeps q hstands, hq⟩
      · obtain ⟨r', hr', hva, hstand⟩ := hnew.stands x hx
        exact ⟨r', List.mem_cons_of_mem _ hr', hva, hstand⟩

section
variable {s : State} {t : Strand} {o : AmoOp} {a : Vamo} {x : Px} {ty ti : Tag} {ent : Nat → TlbEntry} {h : Nat → Nat}

/-- Every element sent: its request, in order, with the line buffer alone changed besides. -/
theorem VamoJob.send_all {nb : Nat} (hnb : x.ew / 8 = nb) : ∀ (es : List Nat) (l : List (Nat × Request)) (r : Run),
    (∀ n ∈ es, AtomicAt r.s r.t o ty ((vamoJob o a x ty ti).addr r.t n) nb (ent n) (h n)) →
    ∃ lb, (∀ b ∈ lb, b ∈ r.t.lbuf) ∧ (vamoJob o a x ty ti).send es l r
      = .stop (.send (l.reverse ++ es.map fun n => (n, (vamoJob o a x ty ti).request r.t n (h n) (pteAttr (ent n).pte)))
        { r with t := { r.t with lbuf := lb } }) := by
  intro es
  induction es with
  | nil => exact fun l r _ => ⟨r.t.lbuf, fun _ hb => hb, by rw [VamoJob.send, List.map_nil, List.append_nil]⟩
  | cons n es ih =>
    intro l r hes
    have hfirst := (hes n List.mem_cons_self).firstHome
    rw [← hnb] at hfirst
    obtain ⟨lb, hlb, hsend⟩ := ih ((n, (vamoJob o a x ty ti).request r.t n (h n) (pteAttr (ent n).pte)) :: l)
      { r with t := { r.t with lbuf := dropLines r.t.lbuf ((vamoJob o a x ty ti).addr r.t n) (lineOf (h n)) } }
      (fun k hk => ⟨(hes k (List.mem_cons_of_mem _ hk)).mapped, (hes k (List.mem_cons_of_mem _ hk)).served, (hes k (List.mem_cons_of_mem _ hk)).host⟩)
    refine ⟨lb, fun b hb => (mem_dropLines (hlb b hb)).1, ?_⟩
    rw [VamoJob.send, show r.s.firstHome r.t.qctx ((vamoJob o a x ty ti).addr r.t n) ((vamoJob o a x ty ti).w / 8) .both
      (.amo (vamoJob o a x ty ti).hostOk) = .ok (h n, pteAttr (ent n).pte) r.s from hfirst]
    refine hsend.trans ?_
    rw [List.reverse_cons, List.append_assoc]
    rfl

end

/-- What an element's request asks of its home. -/
theorem vamoJob_kind {o : AmoOp} {a : Vamo} {x : Px} {ty ti : Tag} (hf : amoForm a o ty) : (vamoJob o a x ty ti).kind = amoKind a o ty := by
  have hcase (o' : AmoOp) : ((ty == .f32 || ty == .f64) && o' == .add) = true ↔ (ty = .f32 ∨ ty = .f64) ∧ o' = .add := by
    simp
  unfold VamoJob.kind amoKind
  by_cases hfloat : ty = .f32 ∨ ty = .f64
  · have ho : o = .add := by
      rcases hf with ⟨hint, -⟩ | ⟨-, ho⟩ | ⟨rfl, -⟩
      · rcases hfloat with rfl | rfl <;> exact absurd hint (by decide)
      · exact ho
      · rcases hfloat with h | h <;> cases h
    subst ho
    rw [if_pos hfloat]
    exact if_pos ((hcase _).2 ⟨hfloat, rfl⟩)
  · rw [if_neg hfloat]
    refine (if_neg fun h => hfloat ((hcase _).1 h).1).trans (congrArg ReqKind.amo ?_)
    show vamoOp o ty = _
    unfold vamoOp
    cases o <;> simp

end Sys2Proof.Machine
end

section
/-!
SUPPORT. CONVOY_START of a vector atomic: its first group goes out (R269 to R272).
-/

namespace Sys2Proof.Machine

section
variable {s : State} {sid : Nat} {t : Strand} {e : Entry} {a : Vamo} {o : AmoOp} {ty ti : Tag} {ent : Nat → TlbEntry} {h : Nat → Nat}

/-- The elements of the first group that are active. -/
def firstActive (t : Strand) (e : Entry) (a : Vamo) : List Nat :=
  (List.range (min 256 e.vl)).filter (admits t.k a.m)

/-- The job of a vector atomic that stands alone. -/
def aloneJob (s : State) (t : Strand) (e : Entry) (a : Vamo) (o : AmoOp) (ty ti : Tag) : VamoJob :=
  vamoJob o a (alonePx s t e) ty ti

/-- The requests of its first group. -/
def firstRequests (s : State) (t : Strand) (e : Entry) (a : Vamo) (o : AmoOp) (ty ti : Tag) (ent : Nat → TlbEntry) (h : Nat → Nat) :
    List (Nat × Request) :=
  (firstActive t e a).map fun n =>
    (n, (aloneJob s t e a o ty ti).request (vamoTagged t e a ty) n (h n) (pteAttr (ent n).pte))

variable (hset : Setting t e) (hs : VamoSetting t e.vtype a o ty ti)
  (hplaces : ∀ k < e.vl, admits t.k a.m k = true →
    AtomicAt s t o ty (indexVa t e a.vb ti a.sh k) (ewOf e.vtype / 8) (ent k) (h k)) (hperf : e.perf = []) (hfirst : firstActive t e a ≠ [])
include hset hs hplaces hperf hfirst

/-- The first group of a vector atomic sends its active elements. -/
theorem vamoMop_sends : ∃ lb, (∀ b ∈ lb, b ∈ t.lbuf) ∧
    (vamoMop o a (alonePx s t e) ty ti).group 0 (min 256 e.vl) (Run.start (vamoTagged t e a ty) s (some []))
      = .stop (.send (firstRequests s t e a o ty ti ent h) (Run.start { vamoTagged t e a ty with lbuf := lb } s (some []))) := by
  have htagged := vamoTagged_eq t e a ty
  have hk : (vamoTagged t e a ty).k = t.k := by rw [htagged]
  have hneed : vamoNeed a (alonePx s t e) 0 (min 256 e.vl) (Run.start (vamoTagged t e a ty) s (some [])) = firstActive t e a := by
    refine List.filter_congr fun n _ => ?_
    show (_ && admits (vamoTagged t e a ty).k a.m n && !e.perf.contains n && !_) = _
    rw [hk, hperf]
    simp [Run.start]
  have hat (n : Nat) (hn : n ∈ firstActive t e a) : AtomicAt s (vamoTagged t e a ty) o ty
      ((aloneJob s t e a o ty ti).addr (vamoTagged t e a ty) n) (ewOf e.vtype / 8) (ent n) (h n) := by
    obtain ⟨hlt, hact⟩ := List.mem_filter.1 hn
    have hlt := List.mem_range.1 hlt
    have hp := hplaces n (by omega) hact
    have haddr : (aloneJob s t e a o ty ti).addr (vamoTagged t e a ty) n = indexVa t e a.vb ti a.sh n :=
      vamoJob_addr hset hs.index.width ⟨t.v, t.k⟩ false (elemGet_vamoTagged ..)
    have hq : (vamoTagged t e a ty).qctx = t.qctx := by rw [htagged]; rfl
    rw [haddr]
    exact ⟨by rw [hq]; exact hp.mapped, by rw [hq]; exact hp.served, hp.host⟩
  obtain ⟨lb, hlb, hsend⟩ := VamoJob.send_all (o := o) (a := a) (x := alonePx s t e) (ty := ty) (ti := ti) (nb := ewOf e.vtype / 8) rfl
    (firstActive t e a) [] (Run.start (vamoTagged t e a ty) s (some [])) hat
  refine ⟨lb, fun b hb => ?_, ?_⟩
  · have := hlb b hb
    rw [show (Run.start (vamoTagged t e a ty) s (some [])).t.lbuf = t.lbuf by rw [Run.start, htagged]] at this
    exact this
  · unfold vamoMop
    dsimp only
    rw [hneed, if_pos (by cases hl : firstActive t e a with
      | nil => exact absurd hl hfirst
      | cons _ _ => rfl)]
    exact hsend

/-- The run that sends. -/
theorem attempt_sends (hone : Single s sid t e) {p : Instr × AmoOp} (hp : p ∈ vectorAtomics a) (hi : e.i = p.1) (ho : p.2 = o) :
    ∃ lb last, (∀ b ∈ lb, b ∈ t.lbuf) ∧ attempt t s [e] e.vl e.vl none (some []) false
      = .sent ⟨0, firstRequests s t e a o ty ti ent h, Run.start { vamoTagged t e a ty with lbuf := lb } s (some []), 0, min 256 e.vl, last,
        vamoTagged t e a ty, []⟩ [⟨t.v, t.k⟩] := by
  subst ho
  have hv := hset.length.1
  obtain ⟨lb, hlb, hgroup⟩ := vamoMop_sends hset hs hplaces hperf hfirst
  have hprep := prepare_vamoTagged (s := s) (t := t) (src := ⟨t.v, t.k⟩) hp hi (by omega) hs rfl false
  obtain ⟨k, hk⟩ : ∃ k, groupsOf e.vl = k + 1 := ⟨groupsOf e.vl - 1, by unfold groupsOf; omega⟩
  refine ⟨lb, k == 0 && e.vl ≤ e.vl, hlb, ?_⟩
  rw [attempt, prepareAll_single hone, hprep]
  dsimp only
  rw [if_neg (by omega), show convoyPos [e] = 0 by simp [convoyPos, hone.first], hk, runGroups]
  rw [show min (min (256 * 0 + 256) e.vl) e.vl = min 256 e.vl by omega, show max (256 * 0) 0 = 0 from rfl, runGroup]
  rw [show (vamoMop p.2 a (e.px t s ⟨t.v, t.k⟩ e.vl true none false) ty ti).group 0 (min 256 e.vl)
    (Run.start (vamoTagged t e a ty) s (some [])) = _ from hgroup]
  rfl

/-- The strand's convoy, once its first group has been sent. -/
theorem exec_vamo_sends (hone : Single s sid t e) {p : Instr × AmoOp} (hp : p ∈ vectorAtomics a) (hi : e.i = p.1) (ho : p.2 = o) :
    ∃ lb last, (∀ b ∈ lb, b ∈ t.lbuf) ∧ exec (.convoyStart sid) s = .next (settled sid (sendConvoy [e] [] e.vl e.vl none
      ⟨0, firstRequests s t e a o ty ti ent h, Run.start { vamoTagged t e a ty with lbuf := lb } s (some []), 0, min 256 e.vl, last,
        vamoTagged t e a ty, []⟩ [⟨t.v, t.k⟩])) := by
  obtain ⟨r, outs, ms, caps, hlook⟩ := vamo_looked hset hs hone hp hi ho hperf hplaces
  obtain ⟨lb, last, hlb, hsend⟩ := attempt_sends hset hs hplaces hperf hfirst hone hp hi ho
  have hvamo : ([e].any fun x => isVamo x.i) = true := by simp [hi, isVamo_of hp]
  refine ⟨lb, last, hlb, ?_⟩
  rw [exec_single hone]
  unfold perform
  dsimp only
  rw [hlook]
  dsimp only
  rw [if_pos (by rw [hvamo]; have := hset.length.1; simp; omega)]
  unfold perform
  dsimp only
  rw [hsend]

omit hset hs hplaces hperf hfirst

/-- The strand's note of the requests its vector atomic has sent. -/
def sentAmo (e : Entry) (l : List (Nat × Request)) (sent : List (Nat × Nat × Word)) (back : Strand) : VecAmo :=
  ⟨e.vl, e.vl, none, min 256 e.vl, back.before, sent, [], [], l.map fun q => (q.1, q.2.attr), []⟩

/-- What such a convoy leaves. -/
theorem sendConvoy_single (hpos : e.pos = 0) (l : List (Nat × Request)) (u back : Strand) (c : Captured) (last : Bool) :
    ∃ ps ns, sendConvoy [e] [] e.vl e.vl none ⟨0, l, Run.start u s (some []), 0, min 256 e.vl, last, back, []⟩ [c]
      = ({ u with
            viq := [{ e with cap := some c, pins := ps, subs := ns }], vamo := some (sentAmo e l (sendAll s l []).2 back), held := none },
        (sendAll s l []).1) := by
  have hentry (x : Entry) (hx : x.vl = e.vl) (y : Strand) : y.after [x] e.vl = y := by simp [Strand.after, hx]
  refine ⟨(Run.start u s (some [])).pinsLeft e.pins, ((Run.start u s (some [])).t.subsReached ++ e.subs).eraseDups, ?_⟩
  unfold sendConvoy
  dsimp only
  rw [hentry e rfl]
  simp only [captured, List.mapIdx_cons, List.mapIdx_nil, Nat.lt_irrefl, if_false, List.append_nil, Run.start, Option.getD_some, sentAmo]
  rw [hpos]

end

theorem vectorAtomicSends : VectorAtomicSends := by
  intro s sid t e a ty ti ent h halone hset w nb va first p hp hi hw hsa hsb hti hform hdest hcmp hall hfirst
  have hs : VamoSetting t e.vtype a p.2 ty ti := ⟨hw, hsa, hsb, hti, hform, hdest, hcmp⟩
  have hplaces (k : Nat) (hk : k < e.vl) (hact : admits t.k a.m k = true) :
      AtomicAt s t p.2 ty (indexVa t e a.vb ti a.sh k) (ewOf e.vtype / 8) (ent k) (h k) := by
    obtain ⟨hm, hserved, hhost⟩ := hall k hk hact
    exact ⟨hm, hserved, hhost⟩
  have htagged := vamoTagged_eq t e a ty
  obtain ⟨lb, last, hlb, hexec⟩ := exec_vamo_sends hset hs hplaces halone.unperformed hfirst halone.single hp hi rfl
  obtain ⟨ps, ns, hconvoy⟩ := sendConvoy_single (s := s) halone.first (firstRequests s t e a p.2 ty ti ent h)
    { vamoTagged t e a ty with lbuf := lb } (vamoTagged t e a ty) ⟨t.v, t.k⟩ last
  rw [hconvoy] at hexec
  obtain ⟨new, hsent, hnew⟩ := sendAll_entered (firstRequests s t e a p.2 ty ti ent h) s []
  rw [hsent, List.reverse_nil, List.nil_append] at hexec
  generalize (sendAll s (firstRequests s t e a p.2 ty ti ent h) []).1 = z at hexec hnew
  generalize hu : ({ vamoTagged t e a ty with
    lbuf := lb, viq := [{ e with cap := some ⟨t.v, t.k⟩, pins := ps, subs := ns }]
    vamo := some (sentAmo e (firstRequests s t e a p.2 ty ti ent h) new (vamoTagged t e a ty)), held := none } : Strand) = u at hexec
  have hcalm : u.qstall = false := by rw [← hu, htagged]; exact halone.calm
  have huid : u.id = t.id := by rw [← hu, htagged]
  obtain ⟨hput, hoth⟩ := strand_settled halone.single (u := u) (z := z) huid fun n => by rw [hnew.frame]; rfl
  have hset' : settled sid (u, z) = (z.endSvc (.queue sid)).put u := by
    unfold settled
    dsimp only
    rw [hcalm, if_neg Bool.false_ne_true]
  have hbits (r : Nat) (hr : r < 64) : (regAt u.v r).bits = (regAt t.v r).bits := by
    rw [← hu]
    show (regAt (vamoTagged t e a ty).v r).bits = _
    unfold vamoTagged
    split
    · rename_i hret
      have hh := group_holds hset a.vd (hw.elim (fun h => .inr (.inr (.inr (.inl h)))) fun h => .inr (.inr (.inr (.inr h)))) (hdest hret).1
      rw [regAt_setTags _ _ _ _ _ hr hh.inFile]
      split <;> rfl
    · rfl
  refine ⟨_, u, sentAmo e (firstRequests s t e a p.2 ty ti ent h) new (vamoTagged t e a ty), hexec, hput, hoth, ?_, ?_, ?_, ⟨ps, ns, by rw [← hu]⟩,
    hbits, fun b hb => hlb b (by rw [← hu] at hb; exact hb), rfl, rfl, rfl, rfl, rfl, rfl, ?_, ?_, fun x hx => ?_⟩
  · rw [hset', hnew.frame]
    rfl
  · rw [hset', hnew.frame]
    rfl
  · rw [← hu, htagged]
  · refine hnew.elements.trans ?_
    unfold firstRequests
    rw [List.map_map]
    exact List.map_id' _
  · show (new.map (·.2.1)).Nodup
    rw [hnew.numbers]
    exact List.nodup_range'
  · obtain ⟨r, hr, hva, q, hstands, hq⟩ := hnew.stands x hx
    obtain ⟨n, hn, hnr⟩ := List.mem_map.1 hr
    obtain ⟨rfl, hr'⟩ := Prod.mk.inj hnr
    have haddr : (aloneJob s t e a p.2 ty ti).addr (vamoTagged t e a ty) x.1 = indexVa t e a.vb ti a.sh x.1 :=
      vamoJob_addr hset hsb.width ⟨t.v, t.k⟩ false (elemGet_vamoTagged ..)
    have hfits (r : VReg) : elemGet t.v t.q r.toNat (ewOf e.vtype) x.1 < 2 ^ 64 :=
      (elemGet_lt ..).trans_le (Nat.pow_le_pow_right (by decide) (by rcases hw with h | h <;> rw [show ewOf e.vtype = _ from h]; decide))
    have hdata (r : VReg) : (BitVec.ofNat 64 (elemGet (vamoTagged t e a ty).v t.q r.toNat (ewOf e.vtype) x.1)).toNat = elem t e r x.1 := by
      rw [elemGet_vamoTagged, BitVec.toNat_ofNat, Nat.mod_eq_of_lt (hfits r)]
      rfl
    have hva' : r.va = indexVa t e a.vb ti a.sh x.1 := by rw [← hr']; exact haddr
    refine ⟨hva.trans hva', q, ?_, ?_⟩
    · rw [hset']
      exact hstands
    · rw [hq, ← hr']
      refine ⟨rfl, ?_, vamoJob_kind hform, rfl, rfl, haddr, rfl, hdata a.va, hdata a.vd, rfl⟩
      show (vamoTagged t e a ty).id.sid = t.id.sid
      rw [htagged]

end Sys2Proof.Machine
end

section
/-!
SUPPORT. A vector atomic whose elements have all returned (R270, R271): its convoy goes on and completes.
-/

namespace Sys2Proof.Machine

theorem uses_vamo {a : Vamo} {p : Instr × AmoOp} (hp : p ∈ vectorAtomics a) (vt : BitVec 12) : (uses vt p.1).isSome = true := by
  simp only [vectorAtomics, List.mem_cons, List.not_mem_nil, or_false] at hp
  rcases hp with rfl | rfl | rfl | rfl | rfl | rfl | rfl | rfl
  all_goals rfl

/-! ## The convoy goes on -/

/-- The VIQ of a running strand holds a vector atomic alone, of which every element of its only group has returned. -/
structure Returned (s : State) (sid : Nat) (t : Strand) (e : Entry) (src : Captured) (amo : VecAmo) : Prop where
  here : s.strand sid = some t
  only : t.viq = [e]
  chained : (uses e.vtype e.i).isSome = true
  closed : t.copen = false
  runs : t.status = .running
  calm : t.qstall = false
  sound : t.vfault = none
  first : e.pos = 0
  unperformed : e.perf = []
  waiting : e.done = false
  ungiven : e.given = false
  unfinished : e.fin = false
  kept : e.cap = some src
  apart : t.xch = .none
  older : t.acc = none
  served : s.waitsService (.queue sid) = false
  atomic : t.vamo = some amo
  length : amo.vl = e.vl
  stop : amo.stop = e.vl
  group : amo.hi = e.vl
  uncut : amo.cut = none
  answered : amo.sent = []
  good : amo.bad = []

section
variable {s : State} {sid : Nat} {t : Strand} {e : Entry} {src : Captured} {amo : VecAmo} (h : Returned s sid t e src amo)
include h

theorem runConvoy_returned (saving : Bool) :
    s.runConvoy t none saving = settled t.id.sid (perform t [] none 12 s [e] e.vl e.vl none (some amo.got)) := by
  obtain ⟨-, honly, -, -, -, -, hfault, -, -, -, -, -, -, -, -, -, hamo, hvl, hstop, hhi, hcut, -, hbad⟩ := h
  have hresume : resumeAmo t s [e] [] amo saving = perform t [] none 12 s [e] e.vl e.vl none (some amo.got) := by
    unfold resumeAmo
    rw [hbad]
    dsimp only [List.foldl_nil]
    rw [if_neg (by rw [hhi, hstop]; simp), hvl, hstop, hcut]
    rfl
  unfold State.runConvoy
  rw [show firstConvoy t.viq = ([e], []) by rw [honly]; rfl]
  dsimp only
  rw [clear_vfault hfault, hfault, hamo]
  dsimp only
  simp only [hresume]
  generalize perform t [] none 12 s [e] e.vl e.vl none (some amo.got) = p
  obtain ⟨u, s'⟩ := p
  unfold settled
  dsimp only
  congr 1
  cases hu : u.vfault with
  | none => exact (if_pos rfl).trans (clear_vfault hu)
  | some f => exact if_neg Bool.false_ne_true

theorem exec_returned : exec (.convoyStart sid) s = .next (settled sid (perform t [] none 12 s [e] e.vl e.vl none (some amo.got))) := by
  have hready : s.convoyReady t = true := by
    unfold State.convoyReady State.frontReady Strand.startable Strand.firstClosed
    rw [h.only, strand_sid h.here]
    simp [h.waiting, h.closed, h.calm, h.chained, h.runs, h.sound, h.served, h.atomic, h.answered, h.older, h.apart]
  show execConvoyStart sid s = _
  unfold execConvoyStart
  rw [h.here]
  dsimp only
  rw [h.only]
  dsimp only
  rw [if_pos hready, runConvoy_returned h, strand_sid h.here]

/-- What such a convoy leaves. -/
theorem Returned.performs (hv : 0 < e.vl) {t1 : Strand} {m : Mop} {r : Run} {p : State → Strand → Prop}
    (hp : prepare e.i (e.px t s src e.vl true none false) = .ok t1 m)
    (hr : runGroups [m] e.vl 0 e.vl (groupsOf e.vl) 0 (Run.start t1 s (some amo.got)) [] = .ok { r with out := none } (outsOf r.out))
    (hi : r.t.id = t.id) (hs : r.t.qstall = false) (hst : ∀ n, r.s.strand n = s.strand n)
    (hq : ∀ (s' : State) (u : Strand), s' = { r.s with freeCtr := s'.freeCtr, svcs := s'.svcs, strands := s'.strands } →
      u = { r.t with stlMem := u.stlMem, viq := u.viq, xch := .none, held := none, vamo := none } →
      (e.loads = false → u.stlMem = r.t.stlMem) → p s' u) : Performs s sid e r.out p := by
  have hpos : convoyPos [e] = 0 := by simp [convoyPos, h.first]
  have hall : prepareAll s e.vl (convoyPos [e]) ([e].length == 1) none false 0 [e] t [] [] = .ok t1 [m] [src] := by
    rw [hpos, prepareAll, h.kept, Option.getD_some, show (([e] : List Entry).length == 1) = true from rfl, hp]
    dsimp only
    rw [h.first, h.unfinished]
    rfl
  have hat : attempt t s [e] e.vl e.vl none (some amo.got) false = .done { r with out := none } (outsOf r.out) [m] [src] := by
    rw [attempt, hall]
    dsimp only
    rw [if_neg (by omega), hpos, hr]
  have hex : exec (.convoyStart sid) s = .next (settled sid (finishConvoy [e] [] e.vl { r with out := none } (outsOf r.out))) := by
    rw [exec_returned h]
    unfold perform
    dsimp only
    rw [hat]
    dsimp only
    rw [if_neg (by simp)]
  obtain ⟨u, z, hfin, hu, hz, hstl⟩ := finishConvoy_single h.ungiven h.unfinished { r with out := none } r.out
  rw [hfin] at hex
  have hzs (n : Nat) : z.strand n = s.strand n := by
    rw [← hst n, hz]
    rfl
  have hsid : u.id.sid = sid := by
    rw [show u.id = t.id by rw [hu]; exact hi]
    exact strand_sid h.here
  have hcalm : u.qstall = false := by rw [hu]; exact hs
  have hsettled : settled sid (u, z) = (z.endSvc (.queue sid)).put u := by
    unfold settled
    dsimp only
    rw [hcalm, if_neg Bool.false_ne_true]
  have hput : ((z.endSvc (.queue sid)).put u).strand u.id.sid = some u := strand_put (u := t) (by
    rw [hsid]
    exact (hzs sid).trans h.here)
  refine ⟨_, u, hex, ?_, fun n hn => ?_, by rw [hu], hq _ u ?_ (by rw [hu]) hstl⟩
  · rw [hsettled, ← hsid]
    rw [hsid] at hput ⊢
    exact hput
  · rw [hsettled, strand_put_other _ u n (by rw [hsid]; exact hn)]
    exact hzs n
  · rw [hsettled, hz]
    rfl

end

/-! ## The elements that have returned -/

section
variable {s : State} {sid : Nat} {t : Strand} {e : Entry} {a : Vamo} {o : AmoOp} {ty ti : Tag} {src : Captured} {amo : VecAmo}
  {old : Nat → Word} {fl : Nat → Flags}

/-- What an element that has returned leaves of its strand. -/
def vamoReturn (e : Entry) (a : Vamo) (old : Nat → Word) (fl : Nat → Flags) (t u : Strand) (n : Nat) : Strand :=
  if a.ret then elementStep (.vec a.vd.toNat (ewOf e.vtype)) (fun _ n => under t e a.m n ((old n).toNat, fl n)) u n
  else if admits t.k a.m n then u.raise n (fl n) else u

/-- The strand once the elements below `n` have returned. -/
def returnedUpTo (t : Strand) (e : Entry) (a : Vamo) (ty : Tag) (old : Nat → Word) (fl : Nat → Flags) (n : Nat) : Strand :=
  (List.range n).foldl (vamoReturn e a old fl t) (vamoTagged t e a ty)

theorem vamoReturn_frame (e : Entry) (a : Vamo) (old : Nat → Word) (fl : Nat → Flags) (t u : Strand) (n : Nat) :
    vamoReturn e a old fl t u n
      = { u with v := (vamoReturn e a old fl t u n).v, lflags := (vamoReturn e a old fl t u n).lflags } := by
  unfold vamoReturn elementStep
  split
  · rw [Strand.raise_eq, putElem_frame]
  · split
    · rw [Strand.raise_eq]
    · rfl

theorem returnedUpTo_frame (n : Nat) : returnedUpTo t e a ty old fl n
    = { t with v := (returnedUpTo t e a ty old fl n).v, lflags := (returnedUpTo t e a ty old fl n).lflags } := by
  induction n with
  | zero =>
    show vamoTagged t e a ty = { t with v := (vamoTagged t e a ty).v, lflags := (vamoTagged t e a ty).lflags }
    unfold vamoTagged
    split <;> rfl
  | succ n ih =>
    unfold returnedUpTo at ih ⊢
    rw [List.range_succ, List.foldl_append, List.foldl_cons, List.foldl_nil]
    generalize (List.range n).foldl (vamoReturn e a old fl t) (vamoTagged t e a ty) = u at ih
    rw [vamoReturn_frame, ih]

variable (hperf : e.perf = [])
  (hgot : ∀ n < e.vl, admits t.k a.m n = true → (amo.got.find? fun g => g.1 == n) = some (n, old n, fl n))
include hperf hgot

theorem vamoStep_returned {u : Strand} (hk : u.k = t.k) {n : Nat} (hn : n < e.vl) :
    (vamoJob o a (e.px t s src e.vl true none false) ty ti).step a.m e.perf (if a.ret then some a.vd else none) e.vtype
      (vamoAbove (e.px t s src e.vl true none false)) n (Run.start u s (some amo.got))
      = .ok (Run.start (vamoReturn e a old fl t u n) s (some amo.got)) := by
  have hskip : e.perf.contains n = false := by rw [hperf]; rfl
  unfold VamoJob.step
  rw [if_neg (by rw [hskip]; exact Bool.false_ne_true)]
  by_cases hact : admits t.k a.m n = true
  · have hback : u.amoBack (if a.ret then some a.vd else none) (ewOf e.vtype) n (old n).toNat (fl n) = vamoReturn e a old fl t u n := by
      have hunder : under t e a.m n ((old n).toNat, fl n) = (.val (old n).toNat, fl n) := if_pos hact
      unfold vamoReturn elementStep
      simp only [hunder, hact, if_true]
      cases a.ret <;> rfl
    rw [if_neg (by rw [show (Run.start u s (some amo.got)).t.k = t.k from hk]; simp [hact])]
    simp only [Run.start, Option.getD_some, hgot n hn hact]
    exact congrArg (fun u => Rr.ok (Run.start u s (some amo.got))) hback
  · have hback : (if a.ret then u.putElem (.vec a.vd.toNat (ewOf e.vtype)) n (inactive e.vtype) else u) = vamoReturn e a old fl t u n := by
      have hunder : under t e a.m n ((old n).toNat, fl n) = (inactive e.vtype, 0) := if_neg hact
      unfold vamoReturn elementStep
      simp only [hunder, hact]
      cases a.ret with
      | false => rfl
      | true => simp only [if_true, Strand.raise_zero]
    rw [if_pos (by rw [show (Run.start u s (some amo.got)).t.k = t.k from hk]; simp [hact]), ← hback]
    cases a.ret <;> rfl

/-- The groups of a vector atomic whose elements have all returned. -/
theorem runGroups_returned (hv : 0 < e.vl) :
    runGroups [vamoMop o a (e.px t s src e.vl true none false) ty ti] e.vl 0 e.vl (groupsOf e.vl) 0 (Run.start (vamoTagged t e a ty) s (some amo.got)) []
      = .ok (Run.start (if a.ret then (returnedUpTo t e a ty old fl e.vl).tail e.vtype (.vec a.vd.toNat (ewOf e.vtype)) e.vl (vlmaxOf t.q e.vtype)
          else returnedUpTo t e a ty old fl e.vl) s (some amo.got)) [] := by
  have hk (n : Nat) : (returnedUpTo t e a ty old fl n).k = t.k := by rw [returnedUpTo_frame]
  obtain ⟨r, hrun, hr⟩ := runGroups_all (m := vamoMop o a (e.px t s src e.vl true none false) ty ti) (vl := e.vl)
    (P := fun n r => r = Run.start (returnedUpTo t e a ty old fl n) s (some amo.got))
    (Q := fun r => r = Run.start (if a.ret then (returnedUpTo t e a ty old fl e.vl).tail e.vtype (.vec a.vd.toNat (ewOf e.vtype)) e.vl
      (vlmaxOf t.q e.vtype) else returnedUpTo t e a ty old fl e.vl) s (some amo.got))
    (r := Run.start (vamoTagged t e a ty) s (some amo.got)) hv
    (fun lo hi r _ hlo hhi hr _ => by
      subst hr
      have hneed : vamoNeed a (e.px t s src e.vl true none false) lo hi (Run.start (returnedUpTo t e a ty old fl lo) s (some amo.got)) = [] := by
        refine List.filter_eq_nil_iff.2 fun n hn hc => ?_
        have hn := List.mem_range.1 hn
        simp only [Bool.and_eq_true, Bool.not_eq_true'] at hc
        obtain ⟨⟨⟨-, hact⟩, -⟩, hnone⟩ := hc
        rw [show (Run.start (returnedUpTo t e a ty old fl lo) s (some amo.got)).t.k = t.k from hk lo] at hact
        have hmem := List.mem_of_find?_eq_some (hgot n (by omega) hact)
        exact absurd (List.any_eq_false.1 hnone _ hmem) (by simp)
      have hgroup : (vamoMop o a (e.px t s src e.vl true none false) ty ti).group lo hi (Run.start (returnedUpTo t e a ty old fl lo) s (some amo.got))
          = eachElem ((vamoJob o a (e.px t s src e.vl true none false) ty ti).step a.m e.perf (if a.ret then some a.vd else none) e.vtype
            (vamoAbove (e.px t s src e.vl true none false))) (hi - lo) lo (Run.start (returnedUpTo t e a ty old fl lo) s (some amo.got)) := by
        unfold vamoMop
        dsimp only
        rw [hneed]
        exact if_neg (by simp)
      obtain ⟨r', hr', hP⟩ := eachElem_from
        (f := (vamoJob o a (e.px t s src e.vl true none false) ty ti).step a.m e.perf (if a.ret then some a.vd else none) e.vtype
          (vamoAbove (e.px t s src e.vl true none false)))
        (P := fun n r => r = Run.start (returnedUpTo t e a ty old fl n) s (some amo.got)) (hi - lo) lo _
        (fun n _ hn r hr => by
          subst hr
          refine ⟨_, vamoStep_returned hperf hgot (hk n) (by omega), ?_⟩
          unfold returnedUpTo
          rw [List.range_succ, List.foldl_append]
          rfl) rfl
      rw [show lo + (hi - lo) = hi by omega] at hP
      exact ⟨r', hgroup.trans hr', by rw [hP]; rfl, hP⟩)
    (fun r hr _ => by
      subst hr
      unfold vamoMop
      dsimp only
      cases a.ret <;> exact ⟨_, rfl, rfl⟩) rfl rfl
  subst hr
  exact hrun

end

/-- What a convoy leaves that writes a group, where the strand's vector atomic is over. -/
theorem GroupWritten.wrote_atomic {s s' : State} {t z u : Strand} {e : Entry} {base w : Nat} {ty : Tag} {g : Nat → Put × Flags}
    (h : GroupWritten t z e base w ty g) (hp : s' = { s with freeCtr := s'.freeCtr, svcs := s'.svcs, strands := s'.strands })
    (hu : u = { z with stlMem := u.stlMem, viq := u.viq, xch := .none, held := none, vamo := none })
    (hstl : e.loads = false → u.stlMem = z.stlMem) : Wrote s s' { t with vamo := none } u e base w ty g := by
  have hz := h.strand
  have uv : u.v = z.v := by rw [hu]
  have ul : u.lflags = z.lflags := by rw [hu]
  refine ⟨hp, by rw [hu, hz], fun d => (hstl d).trans (by rw [hz]), ?_, ?_, ?_, ?_, ?_⟩
  · rw [uv]; exact h.body
  · rw [uv]; exact h.tail
  · rw [uv]; exact h.others
  · rw [uv]; exact h.tags
  · rw [ul]; exact h.flags

theorem vectorAtomicReturns : VectorAtomicReturns := by
  intro s sid t e a ty ti src amo old fl u hhere honly hclosed hruns hcalm hsound hpos hperf hdone hgiven hfin hpins hcap hxch hacc hserved hset hmax
    hamo hvl hstop hhi hcut hsent hbad hgot w p hp hi hw hsa hsb hti hform hdest hcmp
  have hv := hset.length.1
  have hret : Returned s sid t e src amo := ⟨hhere, honly, by rw [hi]; exact uses_vamo hp _, hclosed, hruns, hcalm, hsound, hpos, hperf, hdone, hgiven,
    hfin, hcap, hxch, hacc, hserved, hamo, hvl, hstop, hhi, hcut, hsent, hbad⟩
  have hprep := prepare_vamoTagged (s := s) (t := t) (u := u) (src := src) hp hi (by omega) ⟨hw, hsa, hsb, hti, hform, hdest, hcmp⟩ rfl false
  have hrun := runGroups_returned (s := s) (o := p.2) (ty := ty) (ti := ti) (src := src) hperf hgot hv
  have hframe := returnedUpTo_frame (t := t) (e := e) (a := a) (ty := ty) (old := old) (fl := fl) e.vl
  cases hb : a.ret with
  | true =>
    have hwide : w = 4 ∨ w = 8 ∨ w = 16 ∨ w = 32 ∨ w = 64 := hw.elim (fun h => .inr (.inr (.inr (.inl h)))) fun h => .inr (.inr (.inr (.inr h)))
    have hwritten := groupWritten_elementsDone hset hwide (hdest hb).1 ty
      (f := fun _ n => under t e a.m n ((old n).toNat, fl n)) (g := fun n => under t e a.m n ((old n).toNat, fl n)) fun _ _ _ _ _ _ => rfl
    have hfold : (returnedUpTo t e a ty old fl e.vl).tail e.vtype (.vec a.vd.toNat (ewOf e.vtype)) e.vl (vlmaxOf t.q e.vtype)
        = elementsDone t e a.vd w ty fun _ n => under t e a.m n ((old n).toNat, fl n) := by
      have hstep : vamoReturn e a old fl t
          = fun u n => elementStep (.vec a.vd.toNat (ewOf e.vtype)) (fun _ n => under t e a.m n ((old n).toNat, fl n)) u n := by
        funext u n
        exact if_pos hb
      unfold elementsDone returnedUpTo vamoTagged
      rw [hstep, if_pos hb]
    rw [if_pos hb, hfold] at hrun
    refine hret.performs hv hprep (r := Run.start _ s (some amo.got)) hrun ?_ ?_ (fun _ => rfl) fun s' u' hs' hu hstl => ?_
    · exact (congrArg Strand.id hwritten.strand).trans rfl
    · exact ((congrArg Strand.qstall hwritten.strand).trans rfl).trans hcalm
    · rw [if_pos rfl]
      exact hwritten.wrote_atomic hs' hu hstl
  | false =>
    have hfold : returnedUpTo t e a ty old fl e.vl
        = (((List.range e.vl).filter (admits t.k a.m)).map fun n => (n, fl n)).foldl (fun u p => u.raise p.1 p.2) t := by
      have hstep : vamoReturn e a old fl t = fun u n => if admits t.k a.m n then u.raise n (fl n) else u := by
        funext u n
        exact if_neg (by simp [hb])
      unfold returnedUpTo vamoTagged
      rw [hstep, if_neg (by simp [hb]), List.foldl_map, List.foldl_filter]
    obtain ⟨hraised, hbits⟩ := raise_all (((List.range e.vl).filter (admits t.k a.m)).map fun n => (n, fl n)) t
    rw [← hfold] at hraised hbits
    rw [if_neg (by simp [hb])] at hrun
    refine hret.performs hv hprep (r := Run.start _ s (some amo.got)) hrun ?_ ?_ (fun _ => rfl) fun s' u' hs' hu hstl => ?_
    · exact (congrArg Strand.id hframe).trans rfl
    · exact ((congrArg Strand.qstall hframe).trans rfl).trans hcalm
    · have hz : u' = { returnedUpTo t e a ty old fl e.vl with stlMem := u'.stlMem, viq := u'.viq, xch := .none, held := none, vamo := none } := hu
      have hlf : u'.lflags = (returnedUpTo t e a ty old fl e.vl).lflags := by rw [hz]
      rw [if_neg Bool.false_ne_true]
      refine ⟨hs', ?_, fun d => (hstl d).trans ?_, ?_⟩
      · rw [hlf, hz, hraised]
      · exact (congrArg Strand.stlMem hraised).trans rfl
      · rw [hlf]
        exact hbits

end Sys2Proof.Machine

open Sys2Proof Sys2Proof.Machine

/-- Settles O42: a vector atomic sends its first group once all its elements pass their checks, each home performs its element, and the returned
elements complete it. -/
theorem vectorAtomicResults : Obligations.VectorAtomicResults :=
  ⟨vectorAtomicSends, vectorAtomicAtHome, vectorAtomicReturns⟩

end

section
/-!
SUPPORT. The sums of an outer product (R83 to R86): one rounding of a group, the channels of a TRIO element.
-/

namespace Sys2Proof.Machine

/-! ## Groups of products -/

/-- The flags of every product of a group. -/
theorem foldl_flags (ps : List Exact) (f : Flags) (b : Nat) :
    (ps.foldl (fun a p => a ||| p.flags) f).getLsbD b = (f.getLsbD b || ps.any fun p => p.flags.getLsbD b) := by
  induction ps generalizing f with
  | nil => simp
  | cons p ps ih => rw [List.foldl_cons, ih, List.any_cons, BitVec.getLsbD_or, Bool.or_assoc]

theorem any_inf {ps : List Exact} {g : Bool} : (ps.any fun p => p.v == .inf g) = true ↔ ∃ p ∈ ps, p.v = .inf g := by
  simp only [List.any_eq_true, beq_iff_eq]

theorem any_nan {ps : List Exact} : (ps.any fun p => p.v.isNan) = true ↔ ∃ p ∈ ps, p.v.isNan = true := List.any_eq_true

/-- Infinities of both signs. -/
def bothInf (ps : List Exact) : Prop :=
  (∃ p ∈ ps, p.v = .inf false) ∧ ∃ p ∈ ps, p.v = .inf true

/-- The flags of its products are those of a group's sum, and NV where it is invalid. -/
theorem groupSum_flags {ps : List Exact} {b : Nat} (h : (ps.any fun p => p.flags.getLsbD b) = true) : (groupSum ps).flags.getLsbD b = true := by
  have hfl : (ps.foldl (fun a p => a ||| p.flags) noFlags).getLsbD b = true := by rw [foldl_flags, h, Bool.or_true]
  unfold groupSum invalid
  dsimp only
  split
  · rw [BitVec.getLsbD_or, hfl, Bool.true_or]
  · split
    · exact hfl
    · split
      · exact hfl
      · split <;> exact hfl

theorem groupSum_both {ps : List Exact} (h : bothInf ps) : (groupSum ps).v = .nan false ∧ (groupSum ps).flags.getLsbD 0 = true := by
  obtain ⟨hpos, hneg⟩ := h
  have hinv : groupSum ps = invalid (ps.foldl (fun a p => a ||| p.flags) noFlags) := by
    unfold groupSum
    dsimp only
    rw [any_inf.2 hpos, any_inf.2 hneg]
    rfl
  rw [hinv]
  exact ⟨rfl, by rw [invalid, BitVec.getLsbD_or]; simp [flagNv]⟩

theorem groupSum_nan {ps : List Exact} (h : (∃ p ∈ ps, p.v.isNan = true) ∨ bothInf ps) : (groupSum ps).v = .nan false := by
  rcases h with h | h
  · unfold groupSum
    dsimp only
    split
    · rfl
    · rw [if_pos (any_nan.2 h)]
  · exact (groupSum_both h).1

theorem groupSum_inf {ps : List Exact} {g : Bool} (h : ∃ p ∈ ps, p.v = .inf g) (hn : ∀ p ∈ ps, p.v.isNan = false ∧ p.v ≠ .inf (!g)) :
    (groupSum ps).v = .inf g := by
  have hnan : (ps.any fun p => p.v.isNan) = false := List.any_eq_false.2 fun p hp => by rw [(hn p hp).1]; exact Bool.false_ne_true
  have hother : (ps.any fun p => p.v == .inf (!g)) = false := List.any_eq_false.2 fun p hp => by simpa using (hn p hp).2
  have hown := any_inf.2 h
  unfold groupSum
  dsimp only
  cases g with
  | false =>
    rw [hown, show (ps.any fun p => p.v == .inf true) = false from hother, hnan]
    rfl
  | true =>
    rw [hown, show (ps.any fun p => p.v == .inf false) = false from hother, hnan]
    rfl

/-- What a delivery raises besides what was raised before. -/
theorem deliver_keeps {f : Fmt} {rm : Rm} {sat : Bool} {x : Exact} {b : Nat} (h : x.flags.getLsbD b = true) :
    (f.deliver rm sat x).2.getLsbD b = true := by
  have hor (y : Flags) : (x.flags ||| y).getLsbD b = true := by rw [BitVec.getLsbD_or, h, Bool.true_or]
  unfold Fmt.deliver
  split
  · exact hor _
  · split
    · exact h
    · split <;> exact hor _
    · exact hor _
  · exact hor _

theorem groupUpdate_keeps {x : Nat} {ps : List Exact} {b : Nat}
    (h : (exAdd .rne (fmtF32.unpack x) (groupSum ps).v).flags.getLsbD b = true ∨ (groupSum ps).flags.getLsbD b = true) :
    (groupUpdate x ps).2.getLsbD b = true :=
  deliver_keeps (f := fmtF32) (by
    show (_ ||| _ : Flags).getLsbD b = true
    rw [BitVec.getLsbD_or]
    rcases h with h | h <;> rw [h] <;> simp)

theorem groupUpdate_nan {x : Nat} {ps : List Exact} (h : (exAdd .rne (fmtF32.unpack x) (groupSum ps).v).v = .nan false) :
    (groupUpdate x ps).1 = 0x7FC00000 := by
  unfold groupUpdate
  dsimp only
  rw [h, deliver_nan]
  rfl

/-- The exact sum of finite values. -/
theorem foldl_exAdd (ps : List (Bool × Nat × Int)) (n0 : Bool) (m0 : Nat) (k0 : Int) : ∃ n m k,
    (ps.map fun p => (⟨.fin p.1 p.2.1 p.2.2, 0⟩ : Exact)).foldl (fun a p => (exAdd .rne a p.v).v) (.fin n0 m0 k0) = .fin n m k
      ∧ ratOf n m k = ratOf n0 m0 k0 + (ps.map fun p => ratOf p.1 p.2.1 p.2.2).sum := by
  induction ps generalizing n0 m0 k0 with
  | nil => exact ⟨n0, m0, k0, rfl, by simp⟩
  | cons p ps ih =>
    obtain ⟨n1, m1, k1, hadd, hrat, -⟩ := finAdd_exact .rne n0 m0 k0 p.1 p.2.1 p.2.2
    obtain ⟨n, m, k, hfold, hsum⟩ := ih n1 m1 k1
    refine ⟨n, m, k, ?_, by rw [hsum, hrat, List.map_cons, List.sum_cons, add_assoc]⟩
    rw [List.map_cons, List.foldl_cons]
    dsimp only
    rw [exAdd_fin, hadd]
    exact hfold

theorem groupSum_fin (ps : List (Bool × Nat × Int)) : ∃ n m k,
    groupSum (ps.map fun p => ⟨.fin p.1 p.2.1 p.2.2, 0⟩) = ⟨.fin n m k, 0⟩ ∧ ratOf n m k = (ps.map fun p => ratOf p.1 p.2.1 p.2.2).sum := by
  obtain ⟨n, m, k, hfold, hsum⟩ := foldl_exAdd ps false 0 0
  have hinf (g : Bool) : ((ps.map fun p => (⟨.fin p.1 p.2.1 p.2.2, 0⟩ : Exact)).any fun p => p.v == .inf g) = false := by
    rw [List.any_map]
    exact List.any_eq_false.2 fun p _ => by simp
  have hnan : ((ps.map fun p => (⟨.fin p.1 p.2.1 p.2.2, 0⟩ : Exact)).any fun p => p.v.isNan) = false := by
    rw [List.any_map]
    exact List.any_eq_false.2 fun p _ => by simp [Fv.isNan]
  have hflags : (ps.map fun p => (⟨.fin p.1 p.2.1 p.2.2, 0⟩ : Exact)).foldl (fun a p => a ||| p.flags) noFlags = 0 := by
    refine BitVec.eq_of_getLsbD_eq fun b _ => ?_
    rw [foldl_flags, List.any_map]
    simp [noFlags, Function.comp_def]
  refine ⟨n, m, k, ?_, by rw [hsum, ratOf_zero, zero_add]⟩
  unfold groupSum
  dsimp only
  rw [hinf, hinf, hnan, hflags, hfold]
  rfl

theorem signalled_first {a b : Fv} (h : a = .nan true) : (signalled [a, b]).getLsbD 0 = true := by
  rw [← signalled_eq, h]
  simp [snan, flagNv]

/-- A sum with a NaN. -/
theorem exAdd_isNan {a b : Fv} (h : a.isNan = true ∨ b.isNan = true) : (exAdd .rne a b).v = .nan false := by
  rw [exAdd_nan _ _ _ h]

/-! ## TRIO elements -/

/-- Channels below their moduli. -/
def TrioOk (c : Nat × Nat × Nat) : Prop :=
  c.1 < 255 ∧ c.2.1 < 256 ∧ c.2.2 < 257

theorem trioRead_ok (x : Nat) : TrioOk (trioRead x) := by
  unfold TrioOk trioRead
  dsimp only
  omega

theorem trioRead_pack {c : Nat × Nat × Nat} (h : TrioOk c) : trioRead (trioPack c) = c := by
  obtain ⟨a, b, d⟩ := c
  obtain ⟨h1, h2, h3⟩ := h
  dsimp only at h1 h2 h3
  unfold trioRead trioPack
  refine Prod.ext ?_ (Prod.ext ?_ ?_) <;> dsimp only <;> omega

theorem trioPack_lt {c : Nat × Nat × Nat} (h : TrioOk c) : trioPack c < 2 ^ 32 := by
  obtain ⟨h1, h2, h3⟩ := h
  unfold trioPack
  omega

/-- A channel that gains a number. -/
theorem trioChannel (m c : Nat) (hm : 1 < m) (a : Int) : ((((c : Int) + (a % m) * (1 % m)).toNat % m : Nat) : Int) = ((c : Int) + a) % m := by
  have hone : (1 : Int) % m = 1 := Int.emod_eq_of_lt (by decide) (by exact_mod_cast hm)
  have hnonneg : 0 ≤ a % (m : Int) := Int.emod_nonneg _ (by omega)
  rw [hone, mul_one, Int.natCast_mod, Int.toNat_of_nonneg (by omega), Int.add_emod_emod]

/-- The number that channels stand for, by the moduli 255, 256 and 257. -/
def trioNumber (c : Nat × Nat × Nat) : Int :=
  c.1 * 8421376 + c.2.1 * 16711425 + c.2.2 * 8421120

theorem trioValue_number (x : Nat) : (trioValue x - trioNumber (trioRead x)) % 16776960 = 0 ∧ -8388480 ≤ trioValue x ∧ trioValue x < 8388480 := by
  have hcast : (((trioRead x).1 * 8421376 + (trioRead x).2.1 * 16711425 + (trioRead x).2.2 * 8421120 : Nat) : Int) = trioNumber (trioRead x) := by
    unfold trioNumber
    push_cast
    rfl
  unfold trioValue
  dsimp only
  generalize (trioRead x).1 * 8421376 + (trioRead x).2.1 * 16711425 + (trioRead x).2.2 * 8421120 = n at hcast
  rw [← hcast]
  split <;> omega

/-- A product adds itself to each channel. -/
theorem trioMulAdd_read (x : Nat) (a : Int) : TrioOk (trioRead (trioMulAdd x a 1))
    ∧ (trioNumber (trioRead (trioMulAdd x a 1)) - (trioNumber (trioRead x) + a)) % 16776960 = 0 := by
  refine ⟨trioRead_ok _, ?_⟩
  have hok : TrioOk (((((trioRead x).1 : Int) + (a % (255 : Nat)) * (1 % (255 : Nat))).toNat % 255 : Nat),
      ((((trioRead x).2.1 : Int) + (a % (256 : Nat)) * (1 % (256 : Nat))).toNat % 256 : Nat),
      ((((trioRead x).2.2 : Int) + (a % (257 : Nat)) * (1 % (257 : Nat))).toNat % 257 : Nat)) :=
    ⟨Nat.mod_lt _ (by decide), Nat.mod_lt _ (by decide), Nat.mod_lt _ (by decide)⟩
  have hread : trioRead (trioMulAdd x a 1) = _ := trioRead_pack hok
  rw [hread]
  have h1 := trioChannel 255 (trioRead x).1 (by decide) a
  have h2 := trioChannel 256 (trioRead x).2.1 (by decide) a
  have h3 := trioChannel 257 (trioRead x).2.2 (by decide) a
  unfold trioNumber
  dsimp only
  rw [h1, h2, h3]
  push_cast
  omega

theorem trioFold (ps : List Int) (x : Nat) : (trioNumber (trioRead (ps.foldl (fun c p => trioMulAdd c p 1) x)) - (trioNumber (trioRead x) + ps.sum))
    % 16776960 = 0 := by
  induction ps generalizing x with
  | nil => simp
  | cons p ps ih =>
    have h := ih (trioMulAdd x p 1)
    have hp := (trioMulAdd_read x p).2
    rw [List.foldl_cons, List.sum_cons]
    omega

theorem trioUpdate_integers (x : Nat) (ps : List Int) :
    trioUpdate x (ps.map fun p => ⟨.fin (decide (p < 0)) p.natAbs 0, 0⟩) = ps.foldl (fun c p => trioMulAdd c p 1) (trioPack (trioRead x)) := by
  have hint (p : Int) : fvInt (.fin (decide (p < 0)) p.natAbs 0) = p := by
    simp only [fvInt, Int.toNat_zero, pow_zero, mul_one, decide_eq_true_eq]
    split <;> omega
  unfold trioUpdate
  rw [List.foldl_map]
  simp only [hint]

theorem outerProductSums : OuterProductSums := by
  refine ⟨fun x ps => ?_, fun x ps => ⟨fun h => ?_, fun h => ?_, fun g hg hn n m k hx => ?_⟩, fun x ps => ?_, fun x => (trioValue_number x).2⟩
  · obtain ⟨n, m, k, hsum, hrat⟩ := groupSum_fin ps
    refine ⟨n, m, k, hrat, ?_⟩
    unfold groupUpdate
    rw [hsum]
    dsimp only
    exact congrArg (fun f => fmtF32.deliver .rne false ⟨_, f⟩) BitVec.or_zero
  · refine groupUpdate_nan (exAdd_isNan ?_)
    rcases h with h | h
    · exact .inl h
    · exact .inr (by rw [groupSum_nan h]; rfl)
  · refine groupUpdate_keeps ?_
    rcases h with h | h | h
    · refine .inl ?_
      rw [exAdd_nan _ _ _ (.inl (by rw [h]; rfl))]
      exact signalled_first h
    · exact .inr (groupSum_flags (List.any_eq_true.2 h))
    · exact .inr (groupSum_both h).2
  · unfold groupUpdate
    dsimp only
    rw [groupSum_inf hg hn, hx]
    simp only [exAdd]
    rw [deliver_inf_ieee _ _ _ _ _ rfl]
    cases g <;> rfl
  · rw [trioUpdate_integers]
    have hfold := trioFold ps (trioPack (trioRead x))
    rw [trioRead_pack (trioRead_ok x)] at hfold
    have h1 := (trioValue_number x).1
    have h2 := (trioValue_number (ps.foldl (fun c p => trioMulAdd c p 1) (trioPack (trioRead x)))).1
    omega

end Sys2Proof.Machine
end

section
/-!
SUPPORT. The tiles of an outer product, group by group (R237 to R245).
-/

namespace Sys2Proof.Machine

/-! ## Tiles packed from their elements -/

/-- An element of packed elements that each fit their place. -/
theorem packed_element (l : List Nat) (h : ∀ x ∈ l, x < 2 ^ 32) (n : Nat) :
    l.foldr (fun x acc => x + 2 ^ 32 * acc) 0 / 2 ^ (32 * n) % 2 ^ 32 = l.getD n 0 := by
  induction l generalizing n with
  | nil => simp
  | cons x l ih =>
    have hx := h x List.mem_cons_self
    have hl := ih fun y hy => h y (List.mem_cons_of_mem _ hy)
    rw [List.foldr_cons]
    cases n with
    | zero =>
      rw [Nat.mul_zero, pow_zero, Nat.div_one, Nat.add_mul_mod_self_left, Nat.mod_eq_of_lt hx]
      rfl
    | succ n =>
      rw [Nat.mul_succ, Nat.add_comm (32 * n) 32, Nat.pow_add, ← Nat.div_div_eq_div_mul, Nat.add_mul_div_left _ _ (by decide),
        Nat.div_eq_of_lt hx, Nat.zero_add, hl n]
      rfl

theorem extract_ofNat {N a k : Nat} (X : Nat) (h : a + k ≤ N) : ((BitVec.ofNat N X).extractLsb' a k).toNat = X / 2 ^ a % 2 ^ k := by
  have hN : 2 ^ N = 2 ^ a * 2 ^ (N - a) := by rw [← Nat.pow_add]; congr 1; omega
  rw [BitVec.extractLsb'_toNat, BitVec.toNat_ofNat, Nat.shiftRight_eq_div_pow, hN, Nat.mod_mul_right_div_self,
    Nat.mod_mod_of_dvd _ (Nat.pow_dvd_pow 2 (by omega))]

theorem tileGet_packTile {l : List Nat} (h : ∀ x ∈ l, x < 2 ^ 32) (ty : Tag) {i j : Nat} (hi : i < 128) (hj : j < 128) :
    tileGet ⟨ty, packTile l⟩ i j = l.getD (128 * i + j) 0 :=
  (extract_ofNat _ (show 32 * (128 * i + j) + 32 ≤ 524288 by omega)).trans (packed_element l h _)

theorem tileGet_lt (x : Tile) (i j : Nat) : tileGet x i j < 2 ^ 32 := BitVec.isLt _

/-- Every element of a tile, with its number. -/
theorem zip_tileElems (x : Tile) :
    (List.range 16384).zip (tileElems x) = (List.range 16384).map fun n => (n, tileGet x (n / 128) (n % 128)) := by
  have hindex (n : Nat) : (x.bits.extractLsb' (32 * n) 32).toNat = tileGet x (n / 128) (n % 128) := by
    unfold tileGet
    rw [Nat.div_add_mod]
  unfold tileElems
  simp only [hindex]
  generalize List.range 16384 = l
  induction l with
  | nil => rfl
  | cons n l ih => rw [List.map_cons, List.zip_cons_cons, ih, List.map_cons]

theorem any_tile (p : Nat → Nat → Bool) : ((List.range 16384).any fun n => p (n / 128) (n % 128))
    = (List.range 128).any fun i => (List.range 128).any fun j => p i j := by
  refine Bool.eq_iff_iff.2 ?_
  simp only [List.any_eq_true, List.mem_range]
  constructor
  · exact fun ⟨n, hn, hp⟩ => ⟨n / 128, by omega, n % 128, by omega, hp⟩
  · refine fun ⟨i, hi, j, hj, hp⟩ => ⟨128 * i + j, by omega, ?_⟩
    rw [show (128 * i + j) / 128 = i by omega, show (128 * i + j) % 128 = j by omega]
    exact hp

theorem foldl_or (l : List Nat) (f : Nat → Nat × Flags) (b : Nat) :
    ((l.map f).foldl (fun a p => a ||| p.2) noFlags).getLsbD b = l.any fun n => (f n).2.getLsbD b := by
  suffices h : ∀ a : Flags, ((l.map f).foldl (fun a p => a ||| p.2) a).getLsbD b = (a.getLsbD b || l.any fun n => (f n).2.getLsbD b) by
    rw [h]
    simp [noFlags]
  induction l with
  | nil => simp
  | cons n l ih =>
    intro a
    rw [List.map_cons, List.foldl_cons, ih, List.any_cons, BitVec.getLsbD_or, Bool.or_assoc]

/-! ## One element -/

/-- An operand array holds the values and the flags of an operand group. -/
def Operand (a : Array (Option Exact)) (row : Nat → Option (Fv × Flags)) : Prop :=
  ∀ n, (a.getD n none).map (fun p => (p.v, p.flags ||| snan p.v)) = row n

section
variable {trio : Bool} {a b : Array (Option Exact)} {row col : Nat → Option (Fv × Flags)} {r i j : Nat}

theorem opaProducts_terms (ha : Operand a row) (hb : Operand b col) (k0 : Nat) : opaProducts a b i j k0 r = opaTerms row col i j k0 r := by
  refine List.filterMap_congr fun d _ => ?_
  rw [← ha, ← hb]
  cases a.getD (128 * (k0 + d) + i) none with
  | none => rfl
  | some p =>
    cases b.getD (128 * (k0 + d) + j) none with
    | none => rfl
    | some q =>
      simp only [Option.map_some]
      congr 2
      ac_rfl

/-- A tile element through one group. -/
def opaStep (trio : Bool) (row col : Nat → Option (Fv × Flags)) (r i j : Nat) (u : Nat × Flags) (g : Nat) : Nat × Flags :=
  let ps := opaTerms row col i j (g * r) r
  if trio then (trioUpdate u.1 ps, u.2) else ((groupUpdate u.1 ps).1, (groupUpdate u.1 ps).2 ||| u.2)

theorem opaSum_fold (groups x : Nat) : opaSum trio row col r groups i j x = (List.range groups).foldl (opaStep trio row col r i j) (x, 0) := rfl

theorem opaElem_fold (ha : Operand a row) (hb : Operand b col) (n g : Nat) (u : Nat × Flags) :
    opaElem trio a b r i j n g u = (List.range' g n).foldl (opaStep trio row col r i j) u := by
  induction n generalizing g u with
  | zero => rfl
  | succ n ih =>
    rw [opaElem, List.range'_succ, List.foldl_cons]
    dsimp only
    rw [opaProducts_terms ha hb, ih]
    rfl

/-- Flags raised before stay apart from those of the groups. -/
theorem opaFold_flags (l : List Nat) (x : Nat) (f f' : Flags) :
    l.foldl (opaStep trio row col r i j) (x, f ||| f')
      = ((l.foldl (opaStep trio row col r i j) (x, f)).1, (l.foldl (opaStep trio row col r i j) (x, f)).2 ||| f') := by
  induction l generalizing x f with
  | nil => rfl
  | cons g l ih =>
    have hstep : opaStep trio row col r i j (x, f ||| f') g
        = ((opaStep trio row col r i j (x, f) g).1, (opaStep trio row col r i j (x, f) g).2 ||| f') := by
      unfold opaStep
      cases trio
      · exact congrArg (Prod.mk _) (BitVec.or_assoc _ _ _).symm
      · rfl
    rw [List.foldl_cons, hstep, ih, List.foldl_cons]

/-- More groups go on from the sum of those before. -/
theorem opaSum_add (g n x : Nat) : opaSum trio row col r (g + n) i j x
    = (((List.range' g n).foldl (opaStep trio row col r i j) ((opaSum trio row col r g i j x).1, 0)).1,
      ((List.range' g n).foldl (opaStep trio row col r i j) ((opaSum trio row col r g i j x).1, 0)).2 ||| (opaSum trio row col r g i j x).2) := by
  have hsplit : List.range (g + n) = List.range g ++ List.range' g n := by
    rw [List.range_eq_range', List.range_eq_range', ← List.range'_append]
    simp
  have hflags := opaFold_flags (trio := trio) (row := row) (col := col) (r := r) (i := i) (j := j) (List.range' g n)
    (opaSum trio row col r g i j x).1 0 (opaSum trio row col r g i j x).2
  have hzero (f : Flags) : 0 ||| f = f := BitVec.zero_or
  rw [opaSum_fold, hsplit, List.foldl_append, ← opaSum_fold, ← hflags, hzero]

theorem opaStep_lt (u : Nat × Flags) (g : Nat) : (opaStep trio row col r i j u g).1 < 2 ^ 32 := by
  unfold opaStep
  cases trio with
  | true =>
    show trioUpdate _ _ < _
    unfold trioUpdate
    generalize opaTerms row col i j (g * r) r = ps
    have hfold (ps : List Exact) : ∀ x : Nat, x < 2 ^ 32 → ps.foldl (fun c p => trioMulAdd c (fvInt p.v) 1) x < 2 ^ 32 := by
      induction ps with
      | nil => exact fun _ hx => hx
      | cons p ps ih =>
        exact fun x _ => ih _ (trioPack_lt ⟨Nat.mod_lt _ (by decide), Nat.mod_lt _ (by decide), Nat.mod_lt _ (by decide)⟩)
    exact hfold ps _ (trioPack_lt (trioRead_ok _))
  | false =>
    exact deliver_lt (f := fmtF32) (by simp [floatFormats]) _ _ _

theorem opaFold_lt (l : List Nat) (u : Nat × Flags) (h : u.1 < 2 ^ 32) : (l.foldl (opaStep trio row col r i j) u).1 < 2 ^ 32 := by
  induction l generalizing u with
  | nil => exact h
  | cons g l ih => exact ih _ (opaStep_lt u g)

end

/-! ## One tile -/

/-- The elements of a tile through groups. -/
def opaTileElem (trio : Bool) (row col : Nat → Option (Fv × Flags)) (r n g : Nat) (x : Tile) (i j : Nat) : Nat × Flags :=
  (List.range' g n).foldl (opaStep trio row col r i j) (tileGet x i j, 0)

theorem opaTile_eq {trio : Bool} {a b : Array (Option Exact)} {row col : Nat → Option (Fv × Flags)} (ha : Operand a row) (hb : Operand b col)
    (r n g : Nat) (x : Tile) : ∃ l, l = List.range 16384 ∧ opaTile trio a b r n g x
      = ({ x with bits := packTile (l.map fun k => (opaTileElem trio row col r n g x (k / 128) (k % 128)).1) },
        (l.map fun k => opaTileElem trio row col r n g x (k / 128) (k % 128)).foldl (fun f p => f ||| p.2) noFlags) := by
  refine ⟨_, rfl, ?_⟩
  have helem (k : Nat) : opaElem trio a b r (k / 128) (k % 128) n g (tileGet x (k / 128) (k % 128), 0)
      = opaTileElem trio row col r n g x (k / 128) (k % 128) := opaElem_fold ha hb n g _
  unfold opaTile
  dsimp only
  rw [zip_tileElems]
  simp only [List.map_map, Function.comp_def, helem]

/-- A tile through groups: its tag, its elements and the flags raised. -/
theorem opaTile_elements {trio : Bool} {a b : Array (Option Exact)} {row col : Nat → Option (Fv × Flags)} (ha : Operand a row) (hb : Operand b col)
    (r n g : Nat) (x : Tile) :
    (opaTile trio a b r n g x).1.tag = x.tag
    ∧ (∀ i < 128, ∀ j < 128, tileGet (opaTile trio a b r n g x).1 i j = (opaTileElem trio row col r n g x i j).1)
    ∧ ∀ b', (opaTile trio a b r n g x).2.getLsbD b' = (List.range 128).any fun i => (List.range 128).any fun j =>
      (opaTileElem trio row col r n g x i j).2.getLsbD b' := by
  obtain ⟨l, hl, htile⟩ := opaTile_eq ha hb r n g x
  rw [htile]
  refine ⟨rfl, fun i hi j hj => ?_, fun b' => ?_⟩
  · have hget : l[128 * i + j]? = some (128 * i + j) := by rw [hl, List.getElem?_range (by omega)]
    have hplace : (128 * i + j) / 128 = i ∧ (128 * i + j) % 128 = j := by omega
    refine (tileGet_packTile (fun y hy => ?_) _ hi hj).trans ?_
    · obtain ⟨k, -, rfl⟩ := List.mem_map.1 hy
      exact opaFold_lt _ _ (tileGet_lt x _ _)
    · rw [List.getD_eq_getElem?_getD, List.getElem?_map, hget, Option.map_some, Option.getD_some, hplace.1, hplace.2]
  · dsimp only
    rw [foldl_or, hl]
    exact any_tile fun i j => (opaTileElem trio row col r n g x i j).2.getLsbD b'

end Sys2Proof.Machine
end

section
/-!
SUPPORT. The tiles of a strand while an outer product takes its groups on, column group by column group (R240, R244).
-/

namespace Sys2Proof.Machine

/-! ## Tiles of a strand -/

theorem Strand.tile_setTile (t : Strand) (k k' : TReg) (x : Tile) : (t.setTile k x).tile k' = if k' = k then x else t.tile k' := by
  unfold Strand.tile Strand.setTile
  dsimp only
  by_cases h : k' = k
  · subst h
    rw [if_pos rfl]
    exact Vector.getElem_set_self _
  · rw [if_neg h]
    exact Vector.getElem_set_ne _ _ fun hk => h (BitVec.eq_of_toNat_eq hk.symm)

theorem Strand.tile_raise (t : Strand) (n : Nat) (fl : Flags) (k : TReg) : (t.raise n fl).tile k = t.tile k := by
  rw [Strand.raise_eq]
  rfl

/-- The tile of column group `c`. -/
def opaTReg (m : TReg) (c : Nat) : TReg := BitVec.ofNat 3 (m.toNat + c)

/-! ## Groups done -/

theorem any_congr_mem {l : List Nat} {p q : Nat → Bool} (h : ∀ x ∈ l, p x = q x) : l.any p = l.any q := by
  induction l with
  | nil => rfl
  | cons x l ih => rw [List.any_cons, List.any_cons, h x List.mem_cons_self, ih fun y hy => h y (List.mem_cons_of_mem _ hy)]

section
variable {t : Strand} {m : TReg} {rep : Nat} {trio : Bool} {row : Nat → Option (Fv × Flags)} {col : Nat → Nat → Option (Fv × Flags)} {r : Nat}

/-- Element (i, j) of the tile of column group `c` after `g` groups, with the flags raised. -/
def opaOut (t : Strand) (m : TReg) (trio : Bool) (row : Nat → Option (Fv × Flags)) (col : Nat → Nat → Option (Fv × Flags)) (r c g i j : Nat) :
    Nat × Flags :=
  opaSum trio row (col c) r g i j (tileGet (t.tile (opaTReg m c)) i j)

/-- The first `G c` groups of each column group `c` have been taken on. -/
structure OpaDone (t : Strand) (m : TReg) (rep : Nat) (trio : Bool) (row : Nat → Option (Fv × Flags)) (col : Nat → Nat → Option (Fv × Flags)) (r : Nat)
    (G : Nat → Nat) (u : Strand) : Prop where
  strand : u = { t with m := u.m, lflags := u.lflags }
  tags : ∀ c ≤ rep, (u.tile (opaTReg m c)).tag = (t.tile (opaTReg m c)).tag
  elems : ∀ c ≤ rep, ∀ i < 128, ∀ j < 128, tileGet (u.tile (opaTReg m c)) i j = (opaOut t m trio row col r c (G c) i j).1
  others : ∀ k : TReg, (k.toNat < m.toNat ∨ m.toNat + rep < k.toNat) → u.tile k = t.tile k
  lanes : ∀ lane < 256, 0 < lane → ∀ b < 7, u.lflags.getLsbD (8 * lane + b) = t.lflags.getLsbD (8 * lane + b)
  flags : ∀ b < 7, u.lflags.getLsbD b = (t.lflags.getLsbD b || (List.range (rep + 1)).any fun c =>
    (List.range 128).any fun i => (List.range 128).any fun j => (opaOut t m trio row col r c (G c) i j).2.getLsbD b)

theorem opaDone_start : OpaDone t m rep trio row col r (fun _ => 0) t := by
  refine ⟨rfl, fun _ _ => rfl, fun _ _ _ _ _ _ => rfl, fun _ _ => rfl, fun _ _ _ _ _ => rfl, fun b _ => ?_⟩
  simp [opaOut, opaSum_fold]

theorem OpaDone.congr {G G' : Nat → Nat} {u : Strand} (h : OpaDone t m rep trio row col r G u) (hG : ∀ c ≤ rep, G' c = G c) :
    OpaDone t m rep trio row col r G' u := by
  refine ⟨h.strand, h.tags, fun c hc i hi j hj => ?_, h.others, h.lanes, fun b hb => ?_⟩
  · rw [hG c hc]
    exact h.elems c hc i hi j hj
  · rw [h.flags b hb]
    congr 1
    refine any_congr_mem fun c hc => ?_
    rw [hG c (by have := List.mem_range.1 hc; omega)]

theorem opaTReg_toNat {c : Nat} (hm : m.toNat + rep < 8) (hc : c ≤ rep) : (opaTReg m c).toNat = m.toNat + c := by
  unfold opaTReg
  rw [BitVec.toNat_ofNat]
  exact Nat.mod_eq_of_lt (by omega)

theorem any_range_update {n c : Nat} (hc : c < n) {p p' : Nat → Bool} {q : Bool} (hsame : ∀ k, k ≠ c → p' k = p k) (hown : p' c = (q || p c)) :
    (List.range n).any p' = ((List.range n).any p || q) := by
  refine Bool.eq_iff_iff.2 ?_
  simp only [List.any_eq_true, List.mem_range, Bool.or_eq_true]
  constructor
  · rintro ⟨k, hk, hp⟩
    by_cases hkc : k = c
    · rw [hkc, hown, Bool.or_eq_true] at hp
      exact hp.elim .inr fun h => .inl ⟨c, hc, h⟩
    · exact .inl ⟨k, hk, by rw [← hsame k hkc]; exact hp⟩
  · rintro (⟨k, hk, hp⟩ | hq)
    · by_cases hkc : k = c
      · exact ⟨c, hc, by rw [hown, ← hkc, hp, Bool.or_true]⟩
      · exact ⟨k, hk, by rw [hsame k hkc]; exact hp⟩
    · exact ⟨c, hc, by rw [hown, hq, Bool.true_or]⟩

theorem any_square_or (p q : Nat → Nat → Bool) : ((List.range 128).any fun i => (List.range 128).any fun j => p i j || q i j)
    = (((List.range 128).any fun i => (List.range 128).any fun j => p i j) || (List.range 128).any fun i => (List.range 128).any fun j => q i j) := by
  refine Bool.eq_iff_iff.2 ?_
  simp only [List.any_eq_true, List.mem_range, Bool.or_eq_true]
  constructor
  · rintro ⟨i, hi, j, hj, h | h⟩
    · exact .inl ⟨i, hi, j, hj, h⟩
    · exact .inr ⟨i, hi, j, hj, h⟩
  · rintro (⟨i, hi, j, hj, h⟩ | ⟨i, hi, j, hj, h⟩)
    · exact ⟨i, hi, j, hj, .inl h⟩
    · exact ⟨i, hi, j, hj, .inr h⟩

theorem any_square_congr {p q : Nat → Nat → Bool} (h : ∀ i < 128, ∀ j < 128, p i j = q i j) :
    ((List.range 128).any fun i => (List.range 128).any fun j => p i j) = (List.range 128).any fun i => (List.range 128).any fun j => q i j :=
  any_congr_mem fun i hi => any_congr_mem fun j hj => h i (List.mem_range.1 hi) j (List.mem_range.1 hj)

variable {a : Array (Option Exact)} (ha : Operand a row)
include ha

/-- One column group takes `n` groups on. -/
theorem OpaDone.column {G G' : Nat → Nat} {u : Strand} (h : OpaDone t m rep trio row col r G u) (hm : m.toNat + rep < 8) {c n : Nat} (hc : c ≤ rep)
    {b : Array (Option Exact)} (hb : Operand b (col c)) (hsame : ∀ k, k ≠ c → G' k = G k) (hown : G' c = G c + n) :
    OpaDone t m rep trio row col r G' ((u.setTile (opaTReg m c) (opaTile trio a b r n (G c) (u.tile (opaTReg m c))).1).raise 0
      (opaTile trio a b r n (G c) (u.tile (opaTReg m c))).2) := by
  obtain ⟨htag, helems, hflags⟩ := opaTile_elements (trio := trio) ha hb r n (G c) (u.tile (opaTReg m c))
  have hout (i : Nat) (hi : i < 128) (j : Nat) (hj : j < 128) : opaOut t m trio row col r c (G' c) i j
      = ((opaTileElem trio row (col c) r n (G c) (u.tile (opaTReg m c)) i j).1,
        (opaTileElem trio row (col c) r n (G c) (u.tile (opaTReg m c)) i j).2 ||| (opaOut t m trio row col r c (G c) i j).2) := by
    unfold opaTileElem
    rw [h.elems c hc i hi j hj, hown]
    exact opaSum_add ..
  generalize opaTile trio a b r n (G c) (u.tile (opaTReg m c)) = z at htag helems hflags
  have hne {c' : Nat} (hc' : c' ≤ rep) (hcc : c' ≠ c) : opaTReg m c' ≠ opaTReg m c := fun heq => hcc (by
    have := congrArg BitVec.toNat heq
    rw [opaTReg_toNat hm hc', opaTReg_toNat hm hc] at this
    omega)
  obtain ⟨hraise, hbits⟩ := raise_bits (u.setTile (opaTReg m c) z.1) 0 z.2
  refine ⟨?_, fun c' hc' => ?_, fun c' hc' i hi j hj => ?_, fun k hk => ?_, fun lane hl hpos b' hb' => ?_, fun b' hb' => ?_⟩
  · rw [hraise]
    show ({ u with m := _, lflags := _ } : Strand) = _
    rw [h.strand]
  · rw [Strand.tile_raise, Strand.tile_setTile]
    by_cases hcc : c' = c
    · rw [hcc, if_pos rfl, htag, h.tags c hc]
    · rw [if_neg (hne hc' hcc), h.tags c' hc']
  · rw [Strand.tile_raise, Strand.tile_setTile]
    by_cases hcc : c' = c
    · rw [hcc, if_pos rfl, helems i hi j hj, hout i hi j hj]
    · rw [if_neg (hne hc' hcc), h.elems c' hc' i hi j hj, hsame c' hcc]
  · rw [Strand.tile_raise, Strand.tile_setTile, if_neg fun heq => by
      rw [heq, opaTReg_toNat hm hc] at hk
      omega]
    exact h.others k hk
  · rw [hbits lane hl b' hb', show (0 % 256 == lane) = false from beq_false_of_ne (by omega), Bool.false_and, Bool.or_false]
    exact h.lanes lane hl hpos b' hb'
  · have hzero := hbits 0 (by decide) b' hb'
    rw [Nat.mul_zero, Nat.zero_add] at hzero
    rw [hzero, show ((0 % 256 == 0) && z.2.getLsbD b') = z.2.getLsbD b' from Bool.true_and _, hflags b',
      show (u.setTile (opaTReg m c) z.1).lflags = u.lflags from rfl, h.flags b' hb', Bool.or_assoc]
    congr 1
    refine (any_range_update (c := c) (by omega) (fun k hk => by rw [hsame k hk]) ?_).symm
    rw [← any_square_or]
    refine any_square_congr fun i hi j hj => ?_
    rw [hout i hi j hj, BitVec.getLsbD_or]

/-- Every column group takes `n` groups on. -/
theorem OpaDone.groups {u : Strand} {g n : Nat} (h : OpaDone t m rep trio row col r (fun _ => g) u) (hm : m.toNat + rep < 8)
    {b : Nat → Array (Option Exact)} (hb : ∀ c ≤ rep, Operand (b c) (col c)) (run : Run) (hrun : run.t = u) : ∃ z,
    opaGroups trio a ((List.range (rep + 1)).map fun c => (c, b c)) m.toNat r n g run = .ok (run.upd fun _ => z)
      ∧ OpaDone t m rep trio row col r (fun _ => g + n) z := by
  subst hrun
  by_cases hn : n = 0
  · subst hn
    exact ⟨run.t, if_pos rfl, h⟩
  · let f (u : Strand) (c : Nat) : Strand :=
      (u.setTile (opaTReg m c) (opaTile trio a (b c) r n g (u.tile (opaTReg m c))).1).raise 0 (opaTile trio a (b c) r n g (u.tile (opaTReg m c))).2
    have hfold (k : Nat) (hk : k ≤ rep + 1) :
        OpaDone t m rep trio row col r (fun c => if c < k then g + n else g) ((List.range k).foldl f run.t) := by
      induction k with
      | zero => exact h.congr fun c _ => if_neg (Nat.not_lt_zero c)
      | succ k ih =>
        rw [List.range_succ, List.foldl_append, List.foldl_cons, List.foldl_nil]
        have hdone := OpaDone.column ha (ih (by omega)) hm (c := k) (n := n) (by omega) (hb k (by omega))
          (G' := fun c => if c < k + 1 then g + n else g) (fun c hc => by
            by_cases hlt : c < k
            · rw [if_pos hlt, if_pos (by omega)]
            · rw [if_neg hlt, if_neg (by omega)]) (by rw [if_pos (by omega), if_neg (by omega)])
        rw [if_neg (Nat.lt_irrefl k)] at hdone
        exact hdone
    refine ⟨(List.range (rep + 1)).foldl f run.t, ?_, (hfold (rep + 1) (Nat.le_refl _)).congr fun c hc => (if_pos (by omega)).symm⟩
    unfold opaGroups
    rw [if_neg hn]
    simp only [List.foldl_map]
    rfl

end

end Sys2Proof.Machine
end

section
/-!
SUPPORT. The operands of an outer product and its checks (R237 to R243).
-/

namespace Sys2Proof.Machine

/-! ## Checks of every column group -/

theorem ok_bind {α β : Type} (x : α) (f : α → Except Cause β) : (Except.ok x >>= f) = f x := rfl

theorem forIn_ok {l : List Nat} {f : Nat → Except Cause Unit} (h : ∀ i ∈ l, f i = .ok ()) :
    (forIn l PUnit.unit fun i _ => do f i; pure (ForInStep.yield PUnit.unit) : Except Cause PUnit) = .ok PUnit.unit := by
  induction l with
  | nil => rfl
  | cons i l ih =>
    rw [List.forIn_cons, h i List.mem_cons_self]
    exact ih fun k hk => h k (List.mem_cons_of_mem _ hk)

theorem opaFormat_kind (scaled : Bool) (ty : Tag) : opaFormat scaled ty = opaKind scaled ty := by
  cases ty <;> rfl

/-- A group of registers that is placed and all of one tag. -/
def Tagged (v : Vector VecReg 64) (base size : Nat) (ty : Tag) : Prop :=
  groupOk base size = true ∧ ∀ n, base ≤ n → n < base + size → (regAt v n).tag = ty

theorem Tagged.groupAt {v : Vector VecReg 64} {base size : Nat} {ty : Tag} (h : Tagged v base size ty) : groupAt base size = .ok () := by
  unfold Machine.groupAt
  rw [if_pos h.1]

theorem Tagged.groupIs {x : Px} {base size : Nat} {ty : Tag} (h : Tagged x.src.v base size ty) (hsize : 0 < size) : x.groupIs base size ty = .ok () := by
  unfold Px.groupIs
  rw [groupTag_of hsize h.2]
  exact needTag_true BEq.rfl

/-- What an outer product needs of its operands and its tiles (R237 to R243). -/
structure OpaSetting (x : Px) (m : TReg) (va vb : VReg) (named ty : Tag) (rep : BitVec 3) (scales : Option (VReg × VReg)) (w r : Nat) (trio : Bool) :
    Prop where
  kind : opaKind scales.isSome ty = some (w, r, trio)
  width : x.ew = w
  named : named = .raw ∨ named = ty
  row : Tagged x.src.v va.toNat (grpOf x.vt) ty
  cols : ∀ c ≤ rep.toNat, Tagged x.src.v (vb.toNat + c * grpOf x.vt) (grpOf x.vt) ty
  tiles : ∀ c ≤ rep.toNat, (x.t.tile (BitVec.ofNat 3 (m.toNat + c))).tag = if trio then .trio else .f32
  block : scales.isSome = true → blkOf x.vt = 16 ∨ blkOf x.vt = 32
  rowScale : ∀ p, scales = some p → Tagged x.src.v p.1.toNat (x.size 8) .e8m0
  colScales : ∀ p, scales = some p → ∀ c ≤ rep.toNat, Tagged x.src.v (p.2.toNat + c * x.size 8) (x.size 8) .e8m0
  quarters : m.toNat + (rep.toNat + 1) ≤ 2 * x.q

/-- The row operand of an outer product, and its column groups. -/
def opaRow (x : Px) (mk : MaskOp) (ty : Tag) (va : VReg) (scales : Option (VReg × VReg)) : Array (Option Exact) :=
  x.opaElems mk ty va.toNat (scales.map fun p => (p.1.toNat, blkOf x.vt))
def opaCol (x : Px) (mk : MaskOp) (ty : Tag) (vb : VReg) (scales : Option (VReg × VReg)) (c : Nat) : Array (Option Exact) :=
  x.opaElems mk ty (vb.toNat + c * grpOf x.vt) (scales.map fun p => (p.2.toNat + c * x.size 8, blkOf x.vt))

/-- Its groups and its end. -/
def opaMop (x : Px) (m : TReg) (rep r : Nat) (trio : Bool) (a : Array (Option Exact)) (b : Nat → Array (Option Exact)) : Mop where
  group := fun lo hi run => opaGroups trio a ((List.range (rep + 1)).map fun c => (c, b c)) m.toNat r
    (hi / (128 * r) - lo / (128 * r)) (lo / (128 * r)) run
  final := fun run => opaGroups trio a ((List.range (rep + 1)).map fun c => (c, b c)) m.toNat r
    (if x.vl % (128 * r) = 0 then 0 else 1) (x.vl / (128 * r)) run

theorem grpOf_pos (vt : BitVec 12) : 0 < grpOf vt := Nat.two_pow_pos _

/-- Its operands and tiles pass their checks. -/
theorem prepOpa_passes {x : Px} {m : TReg} {va vb : VReg} {named ty : Tag} {rep : BitVec 3} {mk : MaskOp} {scales : Option (VReg × VReg)} {w r : Nat}
    {trio : Bool} (h : OpaSetting x m va vb named ty rep scales w r trio) (hv : x.vl ≠ 0) :
    prepOpa m va vb named rep mk scales x = .ok x.t (opaMop x m rep.toNat r trio (opaRow x mk ty va scales) (opaCol x mk ty vb scales)) := by
  have hlt {i : Nat} (hi : i ∈ List.range (rep.toNat + 1)) : i ≤ rep.toNat := Nat.lt_succ_iff.1 (List.mem_range.1 hi)
  have hrow := h.row.groupAt
  have hcols := forIn_ok fun i (hi : i ∈ List.range (rep.toNat + 1)) => (h.cols i (hlt hi)).groupAt
  have hquarter : x.quarter m (rep.toNat + 1) = .ok () := if_pos h.quarters
  have htag : groupTag x.src.v va.toNat (grpOf x.vt) = some ty := groupTag_of (grpOf_pos _) h.row.2
  have hcolTags := forIn_ok fun i (hi : i ∈ List.range (rep.toNat + 1)) => (h.cols i (hlt hi)).groupIs (grpOf_pos x.vt)
  have hnamed : needTag (tyOk named ty) = .ok () := needTag_true (by
    unfold tyOk
    rcases h.named with h | h <;> simp [h])
  have hformat : opaFormat scales.isSome ty = some (w, r, trio) := (opaFormat_kind _ _).trans h.kind
  have hwidth : needTag (x.ew == w) = .ok () := needTag_true (by rw [h.width]; exact BEq.rfl)
  have htiles := forIn_ok fun i (hi : i ∈ List.range (rep.toNat + 1)) =>
    needTag_true (b := (x.t.tile (BitVec.ofNat 3 (m.toNat + i))).tag == if trio then .trio else .f32) (by rw [h.tiles i (hlt hi)]; exact BEq.rfl)
  unfold prepOpa
  cases scales with
  | none =>
    dsimp only
    simp only [hrow, hcols, hquarter, htag, hcolTags, hnamed, hformat, hwidth, htiles, ok_bind]
    exact if_neg hv
  | some p =>
    obtain ⟨sa, sb⟩ := p
    have hsa := h.rowScale _ rfl
    have hsb := h.colScales _ rfl
    have hrowScale := hsa.groupAt
    have hrowTag := hsa.groupIs (groupSize_pos x.vt 8)
    have hcolScales := forIn_ok fun i (hi : i ∈ List.range (rep.toNat + 1)) => (hsb i (hlt hi)).groupAt
    have hcolScaleTags := forIn_ok fun i (hi : i ∈ List.range (rep.toNat + 1)) => (hsb i (hlt hi)).groupIs (groupSize_pos x.vt 8)
    have hblock : needTag (blkOf x.vt == 16 || blkOf x.vt == 32) = .ok () := needTag_true (by rcases h.block rfl with h | h <;> simp [h])
    dsimp only
    simp only [hrow, hcols, hrowScale, hcolScales, hquarter, htag, hcolTags, hnamed, hformat, hwidth, htiles, hrowTag, hcolScaleTags, hblock,
      ok_bind]
    exact if_neg hv

/-! ## Operands -/

theorem getD_map_range {α : Type} (f : Nat → Option α) (N n : Nat) : ((Array.range N).map f).getD n none = if n < N then f n else none := by
  rw [Array.getD_eq_getD_getElem?, Array.getElem?_map, Array.getElem?_range]
  split <;> rfl

theorem snan_flag (v : Fv) : snan v = if v = .nan true then 1 else 0 := by
  cases v with
  | nan q => cases q <;> rfl
  | _ => rfl

/-- A value under a scale code, with the flags it raises (R74, R243). -/
def opaUnderCode (v : Fv) (code : Nat) : Fv × Flags :=
  if code = 255 then (.nan false, 64 ||| snan v)
  else (match v with
    | .fin neg c x => .fin neg c (x + code - 127)
    | .nan _ => .nan false
    | .inf neg => .inf neg, snan v)

/-- A value under the code of its block, where there is one. -/
def opaScaled (v : Fv) (code : Option Nat) : Fv × Flags :=
  code.elim (v, snan v) (opaUnderCode v)

theorem scaleBy_scaled (v : Fv) {code : Nat} (h : code < 256) :
    ((scaleBy v code).v, (scaleBy v code).flags ||| snan (scaleBy v code).v) = opaUnderCode v code := by
  have hor (f : Flags) : f ||| 0 = f := BitVec.or_zero
  have hmod : code % 256 = code := Nat.mod_eq_of_lt h
  unfold scaleBy opaUnderCode
  rw [hmod]
  by_cases hc : code = 255
  · rw [if_pos hc, if_pos hc]
    exact congrArg (Prod.mk _) (hor _)
  · rw [if_neg hc, if_neg hc]
    cases v with
    | nan q => exact congrArg (Prod.mk _) (hor _)
    | inf g => exact congrArg (Prod.mk _) (hor 0)
    | fin g c x => exact congrArg (Prod.mk _) (hor 0)

section
variable {s : State} {t : Strand} {e : Entry} (mk : MaskOp) (ty : Tag) (base : Nat) (scale : Option Nat) (n : Nat)

/-- The code of an element's block. -/
def opaCode (t : Strand) (e : Entry) (n s : Nat) : Nat :=
  elemGet t.v t.q s 8 (n / 128 / blkOf e.vtype * 128 + n % 128)

theorem opaOperand_scaled : opaOperand t e mk ty base scale n = if e.vl ≤ n ∨ admits t.k mk n = false then none
    else some (opaScaled (opaValue scale.isSome ty (elemGet t.v t.q base (ewOf e.vtype) n)) (scale.map (opaCode t e n))) := by
  have hflag := snan_flag (opaValue scale.isSome ty (elemGet t.v t.q base (ewOf e.vtype) n))
  unfold opaOperand
  split
  · rfl
  · cases scale with
    | none =>
      show _ = some (_, _)
      rw [hflag]
      rfl
    | some b =>
      show _ = some (opaUnderCode _ (opaCode t e n b))
      unfold opaUnderCode
      rw [hflag]
      show (if opaCode t e n b = 255 then _ else _) = _
      split <;> rfl

/-- What an array of operands holds. -/
theorem operand_opaElems :
    Operand ((alonePx s t e).opaElems mk ty base (scale.map fun b => (b, blkOf e.vtype))) (opaOperand t e mk ty base scale) := by
  intro n
  rw [opaOperand_scaled]
  unfold Px.opaElems
  rw [getD_map_range]
  by_cases hact : n < e.vl ∧ admits t.k mk n = true
  · obtain ⟨hlt, hadm⟩ := hact
    have hsize : n < 128 * (((alonePx s t e).vl + 127) / 128) := by
      show n < 128 * ((e.vl + 127) / 128)
      omega
    have hin : (decide (n < (alonePx s t e).vl) && (alonePx s t e).capActive mk n) = true :=
      Bool.and_eq_true_iff.2 ⟨decide_eq_true hlt, hadm⟩
    rw [if_pos hsize, if_pos hin, if_neg (by simp [hadm, hlt])]
    cases scale with
    | none => exact congrArg (fun f : Flags => some (_, f)) BitVec.zero_or
    | some b => exact congrArg some (scaleBy_scaled _ (elemGet_lt _ _ _ 8 _))
  · have hout : ¬ (decide (n < (alonePx s t e).vl) && (alonePx s t e).capActive mk n) = true := fun h =>
      hact ⟨of_decide_eq_true (Bool.and_eq_true_iff.1 h).1, (Bool.and_eq_true_iff.1 h).2⟩
    have hnone : e.vl ≤ n ∨ admits t.k mk n = false := by
      by_cases hlt : n < e.vl
      · exact .inr (Bool.eq_false_iff.2 fun hadm => hact ⟨hlt, hadm⟩)
      · exact .inl (by omega)
    rw [if_neg hout, if_pos hnone]
    split <;> rfl

end

end Sys2Proof.Machine
end

section
/-!
SUPPORT. CONVOY_START of an outer product (R237 to R244).
-/

namespace Sys2Proof.Machine

theorem opaKind_pos {scaled : Bool} {ty : Tag} {w r : Nat} {trio : Bool} (h : opaKind scaled ty = some (w, r, trio)) : 0 < r := by
  cases scaled <;> cases ty <;> simp [opaKind] at h <;> omega

theorem ceil_div (n : Nat) {d : Nat} (hd : 0 < d) : n / d + (if n % d = 0 then 0 else 1) = (n + d - 1) / d := by
  have hlt := Nat.mod_lt n hd
  have hn := Nat.div_add_mod n d
  generalize n / d = q at hn
  generalize n % d = m at hn hlt
  subst hn
  rw [show d * q + m + d - 1 = d * q + (m + d - 1) by omega, Nat.mul_add_div hd]
  congr 1
  split
  · rename_i hm
    exact (Nat.div_eq_of_lt (by omega)).symm
  · rename_i hm
    exact (Nat.div_eq_of_lt_le (by omega) (by omega)).symm

section
variable {s : State} {sid : Nat} {t : Strand} {e : Entry} {m : TReg} {va vb : VReg} {named ty : Tag} {rep : BitVec 3} {mk : MaskOp}
  {scales : Option (VReg × VReg)} {w r : Nat} {trio : Bool}

/-- The row operand of an outer product that stands alone, and its column groups, as its statement has them. -/
def opaRowOf (t : Strand) (e : Entry) (mk : MaskOp) (ty : Tag) (va : VReg) (scales : Option (VReg × VReg)) : Nat → Option (Fv × Flags) :=
  opaOperand t e mk ty va.toNat (scales.map fun p => p.1.toNat)
def opaColOf (t : Strand) (e : Entry) (mk : MaskOp) (ty : Tag) (vb : VReg) (scales : Option (VReg × VReg)) (c : Nat) : Nat → Option (Fv × Flags) :=
  opaOperand t e mk ty (vb.toNat + c * grpOf e.vtype) (scales.map fun p => p.2.toNat + c * groupSize e.vtype 8)

theorem operand_row : Operand (opaRow (alonePx s t e) mk ty va scales) (opaRowOf t e mk ty va scales) := by
  have h := operand_opaElems (s := s) (t := t) (e := e) mk ty va.toNat (scales.map fun p => p.1.toNat)
  rw [Option.map_map] at h
  exact h

theorem operand_col (c : Nat) : Operand (opaCol (alonePx s t e) mk ty vb scales c) (opaColOf t e mk ty vb scales c) := by
  have h := operand_opaElems (s := s) (t := t) (e := e) mk ty (vb.toNat + c * grpOf e.vtype) (scales.map fun p => p.2.toNat + c * groupSize e.vtype 8)
  rw [Option.map_map] at h
  exact h

/-- The groups of an outer product, all of them. -/
theorem runGroups_opa (hv : 0 < e.vl) (hr : 0 < r) (hm : m.toNat + rep.toNat < 8) : ∃ z,
    runGroups [opaMop (alonePx s t e) m rep.toNat r trio (opaRow (alonePx s t e) mk ty va scales) (opaCol (alonePx s t e) mk ty vb scales)]
      e.vl 0 e.vl (groupsOf e.vl) 0 (Run.start t s none) [] = .ok (Run.start z s none) []
    ∧ OpaDone t m rep.toNat trio (opaRowOf t e mk ty va scales) (opaColOf t e mk ty vb scales) r (fun _ => (e.vl + 128 * r - 1) / (128 * r)) z := by
  have hstep : 0 < 128 * r := by omega
  obtain ⟨r', hrun, z, rfl, hz⟩ := runGroups_all
    (m := opaMop (alonePx s t e) m rep.toNat r trio (opaRow (alonePx s t e) mk ty va scales) (opaCol (alonePx s t e) mk ty vb scales)) (vl := e.vl)
    (P := fun n run => ∃ u, run = Run.start u s none
      ∧ OpaDone t m rep.toNat trio (opaRowOf t e mk ty va scales) (opaColOf t e mk ty vb scales) r (fun _ => n / (128 * r)) u)
    (Q := fun run => ∃ u, run = Run.start u s none
      ∧ OpaDone t m rep.toNat trio (opaRowOf t e mk ty va scales) (opaColOf t e mk ty vb scales) r (fun _ => (e.vl + 128 * r - 1) / (128 * r)) u)
    (r := Run.start t s none) hv
    (fun lo hi run _ hlo _ ⟨u, hrun, hu⟩ _ => by
      subst hrun
      obtain ⟨z, hgroup, hz⟩ := OpaDone.groups (n := hi / (128 * r) - lo / (128 * r)) operand_row hu hm
        (fun c _ => operand_col c) (Run.start u s none) rfl
      have hle : lo / (128 * r) ≤ hi / (128 * r) := Nat.div_le_div_right (by omega)
      rw [show lo / (128 * r) + (hi / (128 * r) - lo / (128 * r)) = hi / (128 * r) by omega] at hz
      exact ⟨_, hgroup, rfl, z, rfl, hz⟩)
    (fun run ⟨u, hrun, hu⟩ _ => by
      subst hrun
      obtain ⟨z, hgroup, hz⟩ := OpaDone.groups (n := if e.vl % (128 * r) = 0 then 0 else 1) operand_row hu hm
        (fun c _ => operand_col c) (Run.start u s none) rfl
      rw [ceil_div e.vl hstep] at hz
      exact ⟨_, hgroup, z, rfl, hz⟩)
    rfl ⟨t, rfl, opaDone_start.congr fun c _ => Nat.zero_div _⟩
  exact ⟨z, hrun, hz⟩

end

theorem outerProducts : OuterProducts := by
  intro s sid t e m va vb named ty rep mk scales w r trio halone hset hi hkind hw hnamed g gs tagged hrow hcols hscales hquarters row col out
  have hv := hset.length.1
  have hq := hset.quarters
  have hprep (x : Px) : prepare e.i x = prepOpa m va vb named rep mk scales x := by
    rcases hi with ⟨rfl, a, hi, ha⟩ | ⟨a, hi, rfl, ha⟩
    all_goals
      simp only [Prod.mk.injEq] at ha
      obtain ⟨rfl, rfl, rfl, rfl, rfl, rfl⟩ := ha
      rw [hi]
      rfl
  have hvamo : isVamo e.i = false := by
    rcases hi with ⟨-, a, hi, -⟩ | ⟨a, hi, -⟩ <;> rw [hi] <;> rfl
  have hloads : e.loads = false := by
    rcases hi with ⟨-, a, hi, -⟩ | ⟨a, hi, -⟩ <;> rw [Entry.loads, hi] <;> rfl
  have hok : OpaSetting (alonePx s t e) m va vb named ty rep scales w r trio := ⟨hkind, hw, hnamed, hrow, fun c hc => (hcols c hc).1,
    fun c hc => (hcols c hc).2, fun hs => by
      obtain ⟨p, hp⟩ := Option.isSome_iff_exists.1 hs
      exact (hscales p hp).1, fun p hp => (hscales p hp).2.1, fun p hp => (hscales p hp).2.2, hquarters⟩
  obtain ⟨z, hrun, hz⟩ := runGroups_opa (s := s) (t := t) (e := e) (m := m) (va := va) (vb := vb) (ty := ty) (rep := rep) (mk := mk) (scales := scales)
    (r := r) (trio := trio) hv (opaKind_pos hkind) (by omega)
  refine halone.single.performs_groups hv hvamo ((hprep _).trans (prepOpa_passes hok (by show e.vl ≠ 0; omega))) (r := Run.start z s none) hrun ?_ ?_
    (fun _ => rfl) fun s' u hs' hu hstl => ?_
  · exact (congrArg Strand.id hz.strand).trans rfl
  · exact ((congrArg Strand.qstall hz.strand).trans rfl).trans halone.calm
  · have hu : u = { z with stlMem := u.stlMem, viq := u.viq, xch := .none, held := none, vamo := none } := hu
    have hstl : u.stlMem = t.stlMem := (hstl hloads).trans ((congrArg Strand.stlMem hz.strand).trans rfl)
    have htile (k : TReg) : u.tile k = z.tile k := by rw [hu]; rfl
    have hlf : u.lflags = z.lflags := by rw [hu]
    refine ⟨hs', ?_, fun c hc => ⟨by rw [htile]; exact hz.tags c hc, fun i hi j hj => ?_⟩, fun k hk => ?_, fun lane hl hpos b hb => ?_, fun b hb => ?_⟩
    · have hmm : u.m = z.m := by rw [hu]
      rw [hlf, hmm, hu, hstl, hz.strand, halone.quiet]
    · rw [htile]
      have helem := hz.elems c hc i hi j hj
      have hlt : (out c i j).1 < 2 ^ 32 := (show (out c i j).1 = _ from helem.symm) ▸ tileGet_lt _ i j
      rw [Nat.mod_eq_of_lt hlt]
      exact helem
    · rw [htile]
      exact hz.others k hk
    · rw [hlf]
      exact hz.lanes lane hl hpos b hb
    · rw [hlf]
      exact hz.flags b hb

end Sys2Proof.Machine

open Sys2Proof Sys2Proof.Machine

/-- Settles O41: an outer product takes its groups on tile by tile, and a group's sum is rounded once or added to the channels of its element. -/
theorem outerProductAccumulation : Obligations.OuterProductAccumulation :=
  ⟨outerProducts, outerProductSums⟩

end
